-- ==== Sys2Proof/Word.lean ====
section
/-!
DEFINITION. The words of the AE-7116: the bit-vector widths its registers, descriptors and lines have (R7).
-/

namespace Sys2Proof

/-- One byte. -/
abbrev Byte := BitVec 8
/-- A 32-bit word: umbel instructions, binary32 values. -/
abbrev W32 := BitVec 32
/-- A 64-bit word: registers (R238), lane and sequencer registers. -/
abbrev Word := BitVec 64
/-- A 256-bit value: digests, Yarrow records, tile DMA descriptors. -/
abbrev W256 := BitVec 256
/-- A 512-bit value: descriptors, completions and 64-byte lines. -/
abbrev Line := BitVec 512

end Sys2Proof
end

