-- ==== Sys2Proof/Syntax.lean ====
section
/-!
DEFINITION. The commands of the AE-7116 block, one constructor for each row of spec/opcode_table.json, and the types of
their operands.  A command carries what its sender decides: a register value written, a message's fields, what a pin or
a sensor shows, how long the environment took.  Everything else comes from the machine's own state.
-/

namespace Sys2Proof

/-! ### Indexes -/

/-- A logical tile ID, 0 to 95 (R34). -/
abbrev TileId := Fin 96
/-- A physical tile number, 0 to 103 (R34, R496). -/
abbrev PhysTile := Fin 104
/-- A ring pair, 0 to 1,023 (R366). -/
abbrev RingId := Fin 1024
/-- A Yelry core, 0 to 95. -/
abbrev CoreId := Fin 96
/-- An HBM stack, 0 to 11 (R15). -/
abbrev StackId := Fin 12
/-- A logical Fugen link, 0 to 23 (R15). -/
abbrev LinkId := Fin 24
/-- A Fugen port, 0 to 15 (R405). -/
abbrev PortId := Fin 16
/-- A Craone link, 0 to 2. -/
abbrev CraLink := Fin 3
/-- A C-die, 0 or 1. -/
abbrev DieId := Fin 2
/-- An Eyebright engine, 0 to 2 (R505). -/
abbrev EbEngine := Fin 3
/-- A DMA queue of a tile, 0 to 7 (R56). -/
abbrev DmaQueue := Fin 8
/-- A stream port of a tile, 0 to 7 (R46). -/
abbrev StreamPort := Fin 8
/-- A resident umbel of a tile, 0 to 31. -/
abbrev UmbelId := Fin 32
/-- A sequencer register, 0 to 15 (R187). -/
abbrev GReg := Fin 16
/-- A PCIe port of the complex, 0 (endpoint) to 8 (R389). -/
abbrev PciePort := Fin 9

/-! ### Resets, boot and management (spec/19) -/

/-- What asserted a cold reset: the causes 0x1 to 0x5 of RST_CAUSE.LAST (R506, R530). -/
inductive ColdCause where
  | powerOn | coldResetN | rstCtl | sideband | powerLoss
  deriving DecidableEq, Repr

/-- What asserted a warm reset: the causes 0x6 to 0xA of RST_CAUSE.LAST (R506, R530). -/
inductive WarmCause where
  | warmResetN | rstCtl | sideband | autoWarm | trial
  deriving DecidableEq, Repr

/-- The straps the board holds: POS[12:0] and MGT_SEL (R537). -/
structure Straps where
  pos    : BitVec 13
  mgtSel : Bool
  deriving DecidableEq, Repr

/-- What the environment contributes to a boot step (R510): what it finds at the pins and in the memories. -/
structure BootInput where
  /-- The step could not complete for a reason outside the images: a failed step stops the boot (R511). -/
  fails     : Bool
  /-- DIE_SIDE sampled at the west and the east position (R12). -/
  sideW     : Bool
  sideE     : Bool
  /-- Bit n: a module in DDR channel n; and the module size code of MGT_DDR_STAT.CH_SIZE (R450). -/
  ddrMods   : BitVec 12
  ddrSize   : BitVec 3
  /-- Every module has that capacity. -/
  ddrAlike  : Bool
  deriving DecidableEq, Repr

/-- A firmware component, 1 to 3, as Fin 3 plus one (R515). -/
abbrev FwComp := Fin 3

/-- The host-loss causes of R396, with the codes of the HOST_LOSS event (R494). -/
inductive HostLossCause where
  | dlDown | hotReset | perst | flr
  deriving DecidableEq, Repr

/-! ### Answers to reads and writes -/

/-- How a read or a write ended at its target: served, an error response, an ABSENT answer, or poisoned data. -/
inductive Answer where
  | ok | error | absent | poisoned
  deriving DecidableEq, Repr

/-! ### Eyebright (spec/18) -/

/-- What a finished Eyebright test found (R500): coverage in tenths of a per cent, failing patterns, the first failing
location, the duration, and, for HBM_PC failures that name a DQ, that DQ. -/
structure EbFinding where
  coverage  : BitVec 10
  fails     : BitVec 16
  firstFail : Word
  duration  : W32
  dq        : Option (BitVec 6)
  deriving DecidableEq, Repr

/-! ### Tile faults (R494) -/

/-- The causes of a declared tile fault that have no row of their own (R486, R494). -/
inductive TileFaultCause where
  | uncorrectable | checker | ageing
  deriving DecidableEq, Repr

/-! ### Streams (R55) -/

/-- The far end of a stream: a tile's port, or Prism's or Speedwell's side of a tile's port. -/
inductive StreamDst where
  | tile (n : TileId) (p : StreamPort)
  | prism (n : TileId) (p : StreamPort)
  | speedwell (n : TileId) (p : StreamPort)
  deriving DecidableEq, Repr

/-! ### Translation (spec/13) -/

/-- The page sizes of R352. -/
inductive PageSize where
  | k4 | m2 | g1
  deriving DecidableEq, Repr

/-- What a translated access does (R347). -/
inductive AccessKind where
  | read | write | fetch
  deriving DecidableEq, Repr

/-- The device context of an access's device ID (R349, R357): its second-stage mode, 0 Bare, and EN_PRI. -/
structure DevCtx where
  stage2 : BitVec 4
  enPri  : Bool
  deriving DecidableEq, Repr

/-- What a walk or an ATS translation returned: the 16 leaf PTEs of the aligned group (R352), an ATS completion with its
size and permissions (R361), no valid translation with a fault cause (R357), or a walk
that read poison (R351). -/
inductive XlateResult where
  | leaves (size : PageSize) (ptes : List Word)
  | ats (addr : Word) (log2 : Fin 64) (r w x : Bool)
  | fault (cause : BitVec 12)
  | walkPoison
  deriving DecidableEq, Repr

/-! ### Fugen (spec/15) -/

/-- A Fugen packet but for its class and opcode, which its row names (R415): the header's fields, whether some reserved field is
not zero, and its chunks. -/
structure FPkt where
  dst      : BitVec 13
  src      : BitVec 13
  dl       : Bool
  detour   : Bool
  poison   : Bool
  cap      : Bool
  capLvl   : BitVec 4
  slice    : BitVec 10
  tdie     : Bool
  seq      : W32
  inc      : BitVec 16
  txid     : BitVec 16
  otag     : BitVec 12
  addr     : BitVec 43
  aux      : Word
  reserved : Bool
  data     : List Line
  deriving DecidableEq, Repr

/-- A peer's IDENT (R408): node, logical link, incarnation, ring sizes minus 1, and receive credits by virtual channel. -/
structure FIdent where
  node    : BitVec 13
  link    : BitVec 5
  inc     : BitVec 16
  nx      : BitVec 4
  ny      : BitVec 3
  nz      : BitVec 3
  credits : List Nat
  deriving DecidableEq, Repr

/-! ### HBM (spec/11) -/

/-- What a line read from a stack brings beside the stored word (R301, R302): whether the stack reports a correction by its inner code, and
the bits in error on the bus, bit 36 × beat + pin, pins 32 to 35 the check DQ. -/
structure HbmFinding where
  severity : Bool
  errs     : BitVec 576
  deriving DecidableEq, Repr

/-- Nothing in error. -/
def HbmFinding.clean : HbmFinding := { severity := false, errs := 0 }

/-- How a repair operation ends (R320): done, no spare, or its verification failed. -/
inductive RepairEnd where
  | done | noSpare | verifyFailed
  deriving DecidableEq, Repr

/-! ### Craone (spec/01) -/

/-- The 16-byte header of a Craone message (R18), from its most significant field down. -/
structure CraHdr where
  cls     : BitVec 4
  opcode  : BitVec 8
  otag    : BitVec 12
  txid    : BitVec 16
  src     : BitVec 8
  dst     : BitVec 8
  addr    : BitVec 56
  len     : BitVec 3
  poison  : Bool
  standin : Bool
  rsv     : BitVec 11
  deriving DecidableEq, Repr

/-! ### Coherence (spec/10) -/

/-- A caching agent: the L2 of a Yelry core, or the system cache of a C-die (R260). -/
inductive CohAgent where
  | l2 (c : CoreId)
  | sc (d : DieId)
  deriving DecidableEq, Repr

/-- What a system cache's user asks of a line (R276): an allocating read, a snapshot, bytes by mask, or a whole line. -/
inductive LineAccess where
  | read (stream : Bool)
  | once
  | write (mask : Word) (data : Line)
  | claim (data : Line)
  deriving DecidableEq, Repr

/-! ### Craone and power (spec/01, spec/17) -/

/-- The domains whose rails carry monitors (R464, R475), by their place in the table of R464, with an instance: tiles and stacks are
counted over both C-dies. -/
inductive PwrDomain where
  | vtile (p : PhysTile)
  | vtsr (p : PhysTile)
  | vmesh (d : DieId)
  | vsc (d : DieId)
  | vhphy (k : StackId)
  | vfg (d : DieId)
  | vclus (c : Fin 4)
  | vunc
  | vhio
  deriving DecidableEq, Repr

/-- A droop detector (R473): of a mesh region of a C-die, of a cluster, or of VUNC. -/
inductive DroopAt where
  | region (d : DieId) (r : Fin 16)
  | cluster (c : Fin 4)
  | unc
  deriving DecidableEq, Repr

/-- What Meniscus measures in a step (R465, R466, R469): each class's demand in W, the floor of the running clusters, input power and
current, the tiles with work in their arrays, and the HBM level of R318 whose estimated power fits. -/
structure MenInput where
  fixedW   : BitVec 16
  hbmW     : BitVec 16
  hdieW    : BitVec 16
  tileW    : BitVec 16
  floorW   : BitVec 16
  inW      : BitVec 16
  iinMa    : BitVec 16
  active   : BitVec 96
  hbmLevel : Fin 5
  deriving DecidableEq, Repr

/-- The junction readings of 100 µs in °C (R476): the hottest sensor of each C-die with its number, the four clusters, and the hottest
sensor at the H-die's edge. -/
structure Junctions where
  c0    : Byte
  c0At  : Byte
  c1    : Byte
  c1At  : Byte
  clus  : List Byte
  hEdge : Byte
  deriving DecidableEq, Repr

/-- The wake events of R480. -/
inductive WakeCause where
  | doorbell | interrupt | gated | tolerance
  deriving DecidableEq, Repr

/-! ### Yelry (spec/12, spec/16) -/

/-- What a cache array's protection finds as a line is read (R269, R270): nothing, a correction, a word it cannot correct, a tag parity
error, or both copies of a dirty line's tag failing. -/
inductive CacheFinding where
  | clean | corrected | uncorrectable | tagParity | bothTags
  deriving DecidableEq, Repr

/-- The arrays of a core's caches (R443). -/
inductive CoreArray where
  | l1i | l1d | l2
  deriving DecidableEq, Repr

/-- The Svpbmt attribute of the page an access goes through (R291, R329). -/
inductive PageAttr where
  | pma | nc | io
  deriving DecidableEq, Repr

/-- The size of a hart's access: 1, 2, 4 or 8 bytes. -/
inductive AccSize where
  | b1 | b2 | b4 | b8
  deriving DecidableEq, Repr

/-- The hint just before a load or store: none, NTL.P1 or NTL.S1, NTL.PALL or NTL.ALL (R441). -/
inductive Ntl where
  | plain | l1 | all
  deriving DecidableEq, Repr

/-- The AMOs of the A extension. -/
inductive AmoOp where
  | swap | add | xor | and | or | min | max | minu | maxu
  deriving DecidableEq, Repr

/-- The three forms of a CSR instruction's write, and none. -/
inductive CsrOp where
  | read | write | set | clear
  deriving DecidableEq, Repr

/-- A hart's privilege mode. -/
inductive Priv where
  | u | s | m
  deriving DecidableEq, Repr

/-- Why a core goes offline (R455, R458). -/
inductive OffCause where
  | stateError | written | l2Fault
  deriving DecidableEq, Repr

/-- How a target answers a store of another node's address (R332). -/
inductive StoreAnswer where
  | ok | error | absent | poisoned
  deriving DecidableEq, Repr

/-! ### The commands -/

/-- The commands, in the order of spec/opcode_table.json; each docstring names the row's own rule. -/
inductive Instr where
  /-- COLD_RESET. A cold reset with its cause and the straps the board holds (R506, R537). -/
  | coldReset (cause : ColdCause) (straps : Straps)
  /-- VIN56_START. VIN56 rises through 48.0 V; mv is its value (R542). -/
  | vin56Start (mv : BitVec 16)
  /-- VIN56_CHANGE. VIN56 enters another band of R462, for the time the rule asks. -/
  | vin56Change (mv : BitVec 16)
  /-- PDIE_FAULT. A P-die detects a fault (R463). -/
  | pdieFault (k : Fin 4)
  /-- BOOT_STEP_COMPLETE. The boot step after RST_BOOT.STEP completes or fails (R510, R511). -/
  | bootStepComplete (inp : BootInput)
  /-- UCIE_LINK_UP. UCIe training of a link completes, on a host link at the C-die's north or south site (R11, R25). -/
  | ucieLinkUp (l : CraLink) (south : Bool)
  /-- CRAONE_TRAIN_TIMEOUT. 4 ms pass in TRAIN (R25). -/
  | craoneTrainTimeout (l : CraLink)
  /-- CAP. A CAP message: its header and its chunk, which holds the capability block (R18, R20 to R22). -/
  | cap (l : CraLink) (hdr : CraHdr) (chunk : Line)
  /-- DISCOVER. The west or the east C-die receives a DISCOVER message, whose header holds the DIE_SIDE of its peer (R12, R13, R18). -/
  | discover (east : Bool) (hdr : CraHdr)
  /-- ORIENTATION_TIMEOUT. 10 ms pass without a confirmed orientation of the west or the east C-die (R14). -/
  | orientationTimeout (east : Bool)
  /-- CREDIT. A CREDIT message, whose header holds six counts (R18, R24). -/
  | credit (l : CraLink) (hdr : CraHdr)
  /-- DEPART. A DEPART message (R28). -/
  | depart (l : CraLink) (hdr : CraHdr)
  /-- UCIE_LINK_DOWN. The UCIe link goes down (R25). -/
  | ucieLinkDown (l : CraLink)
  /-- RETURN. A RETURN message (R25). -/
  | craReturn (l : CraLink) (hdr : CraHdr)
  /-- STAND_IN_ANSWER. A stand-in answers an outstanding transaction of a requester (R26). -/
  | standInAnswer (l : CraLink) (src : BitVec 8) (txid : BitVec 16)
  /-- LATE_DROP. A real response for a requester comes after the stand-in has answered (R27). -/
  | lateDrop (l : CraLink) (src : BitVec 8) (txid : BitVec 16)
  /-- CRAONE_DEGRADE. A lane or module fault is repaired, or the module runs at half width (R484). -/
  | craoneDegrade (l : CraLink) (module : BitVec 5) (half : Bool)
  /-- TILE_FAULT_DECLARE. Yarrow declares a fault of the tile that carries a logical ID (R486). -/
  | tileFaultDeclare (n : TileId) (cause : TileFaultCause)
  /-- HEARTBEAT_LOSS. Four heartbeats in a row fail to arrive (R485). -/
  | heartbeatLoss (n : TileId)
  /-- MAPPING_INSTALLED. The logical-to-physical map names the spare (R36). -/
  | mappingInstalled (n : TileId)
  /-- FACET_LOAD_COMPLETE. A facet load ends (R53). -/
  | facetLoadComplete (n : TileId)
  /-- WORK_DISPATCH. The dispatcher delivers the next descriptor of a work queue (R60). -/
  | workDispatch (n : TileId)
  /-- TILE_IDLE. The work queue of a BUSY tile is empty and its sequencer idle (R39). -/
  | tileIdle (n : TileId)
  /-- APERTURE_ACCESS. A requester of a die reads or writes a tile store through its aperture (R42). -/
  | apertureAccess (src : Fin 3) (n : TileId) (off : BitVec 22) (len : BitVec 13) (write : Bool) (data : List Byte)
  /-- REGISTER. Betony takes the REGISTER at its intake; hostBytes is what host memory returns for a host-side image (R48). -/
  | register (hostBytes : List Byte)
  /-- UNREGISTER. Betony takes the UNREGISTER at its intake (R52). -/
  | unregister
  /-- BIND. The loader takes the BIND delivered to it (R51). -/
  | bind (n : TileId)
  /-- UNBIND. The loader takes the UNBIND delivered to it (R51). -/
  | unbind (n : TileId)
  /-- STREAM_CHUNK. The oldest stream chunk on its way arrives at its end (R55). -/
  | streamChunk (dst : StreamDst)
  /-- STREAM_CREDIT. The credits owed to a sender return to it (R55). -/
  | streamCredit (dst : StreamDst)
  /-- DMA_COPY. A COPY descriptor starts in its queue (R57). -/
  | dmaCopy (n : TileId) (q : DmaQueue)
  /-- DMA_COPY2D. A COPY2D descriptor starts in its queue (R57). -/
  | dmaCopy2d (n : TileId) (q : DmaQueue)
  /-- DMA_FILL. A FILL descriptor starts in its queue (R57). -/
  | dmaFill (n : TileId) (q : DmaQueue)
  /-- DMA_FENCE. A FENCE at the head of its queue (R58). -/
  | dmaFence (n : TileId) (q : DmaQueue)
  /-- DMA_SIGNAL. A SIGNAL at the head of its queue (R58). -/
  | dmaSignal (n : TileId) (q : DmaQueue)
  /-- DMA_DESCRIPTOR_END. The oldest descriptor's writes have completed (R58). -/
  | dmaDescriptorEnd (n : TileId) (q : DmaQueue)
  /-- TIL_DMA_RESUME. TIL_DMA_STAT.RESUME written 1 (R59). -/
  | tilDmaResume (n : TileId) (q : DmaQueue)
  /-- TIL_DMA_FLUSH. TIL_DMA_STAT.FLUSH written 1 (R59). -/
  | tilDmaFlush (n : TileId) (q : DmaQueue)
  /-- MATRIX. A tile checks the matrix descriptor it holds or is offered and starts it (R69). -/
  | matrix (n : TileId)
  /-- WEIGHT_FILL_COMPLETE. A weight-buffer half finishes filling (R63). -/
  | weightFillComplete (n : TileId)
  /-- SET_COMPLETE. The last row of a set is broadcast (R64). -/
  | setComplete (n : TileId)
  /-- DRAIN_START. An output tile starts to drain (R65). -/
  | drainStart (n : TileId)
  /-- DRAIN_COMPLETE. An output tile finishes draining (R65). -/
  | drainComplete (n : TileId)
  /-- OUTPUT_TILE_RETIRE. An output tile retires (R65). -/
  | outputTileRetire (n : TileId)
  /-- CONVERSION_TRIAL. A scale trial ends (R113). -/
  | conversionTrial (n : TileId)
  /-- MVP_DESCRIPTOR_END. The matrix-vector path finishes a descriptor (R80). -/
  | mvpDescriptorEnd (n : TileId)
  /-- MAT_FAULT. An operand or an output answers with a fault, an error or ABSENT (R85). -/
  | matFault (n : TileId)
  /-- PATCH_ARRIVE. The oldest patch offered reaches Loupe (R121, R122). -/
  | patchArrive (die : DieId)
  /-- PATCH_CHECK. Loupe finishes checking a patch (R123). -/
  | patchCheck (die : DieId)
  /-- LOUPE_HALT_NOTICE. The halt notice reaches the Loupe of a die (R125). -/
  | loupeHaltNotice (die : DieId)
  /-- LOU_RESUME. LOU_CTL.RESUME written 1 (R125). -/
  | louResume (die : DieId)
  /-- LOU_CLEAR. LOU_CTL.CLEAR written 1 (R127). -/
  | louClear (die : DieId)
  /-- LOU_POP. LOU_CTL.POP written 1 (R127). -/
  | louPop (die : DieId)
  /-- KERNEL. A KERNEL descriptor at hand starts its kernel or is refused (R132 to R137). -/
  | kernel (n : TileId)
  /-- UMBEL_BASE_INSTRUCTION. An RV64IMFD instruction of an umbel issues (R139). -/
  | umbelBaseInstruction (n : TileId) (u : UmbelId)
  /-- REGISTER_FILL. A source operand arrives in the register cache (R143). -/
  | registerFill (n : TileId) (u : UmbelId)
  /-- UMBEL_MEMORY_RESPONSE. What an umbel waits for returns from beyond the L1 (R151). -/
  | umbelMemoryResponse (n : TileId) (u : UmbelId) (ans : Answer)
  /-- KERNEL_BOUNDARY. The boundary of a kernel: write-back and invalidation of the L1 (R153). -/
  | kernelBoundary (n : TileId)
  /-- KERNEL_COMPLETE. The completion of a kernel (R153). -/
  | kernelComplete (n : TileId)
  /-- UTLB. Tile-store load of a sign-extended byte (R170). -/
  | utlb (n : TileId) (u : UmbelId)
  /-- UTLH. Tile-store load of a sign-extended halfword (R170). -/
  | utlh (n : TileId) (u : UmbelId)
  /-- UTLW. Tile-store load of a sign-extended word (R170). -/
  | utlw (n : TileId) (u : UmbelId)
  /-- UTLD. Tile-store load of a doubleword (R170). -/
  | utld (n : TileId) (u : UmbelId)
  /-- UTLBU. Tile-store load of a zero-extended byte (R170). -/
  | utlbu (n : TileId) (u : UmbelId)
  /-- UTLHU. Tile-store load of a zero-extended halfword (R170). -/
  | utlhu (n : TileId) (u : UmbelId)
  /-- UTLWU. Tile-store load of a zero-extended word (R170). -/
  | utlwu (n : TileId) (u : UmbelId)
  /-- UTSB. Tile-store store of a byte (R170). -/
  | utsb (n : TileId) (u : UmbelId)
  /-- UTSH. Tile-store store of a halfword (R170). -/
  | utsh (n : TileId) (u : UmbelId)
  /-- UTSW. Tile-store store of a word (R170). -/
  | utsw (n : TileId) (u : UmbelId)
  /-- UTSD. Tile-store store of a doubleword (R170). -/
  | utsd (n : TileId) (u : UmbelId)
  /-- UAADD. Atomic wrapping add, folded across lanes per address (R173). -/
  | uaadd (n : TileId) (u : UmbelId)
  /-- UASWAP. Atomic exchange serialised in lane order (R173). -/
  | uaswap (n : TileId) (u : UmbelId)
  /-- UACAS. Atomic compare-and-swap serialised in lane order (R173). -/
  | uacas (n : TileId) (u : UmbelId)
  /-- UAXOR. Atomic bitwise xor (R173). -/
  | uaxor (n : TileId) (u : UmbelId)
  /-- UAOR. Atomic bitwise or (R173). -/
  | uaor (n : TileId) (u : UmbelId)
  /-- UAAND. Atomic bitwise and (R173). -/
  | uaand (n : TileId) (u : UmbelId)
  /-- UAMIN. Atomic signed minimum (R173). -/
  | uamin (n : TileId) (u : UmbelId)
  /-- UAMAX. Atomic signed maximum (R173). -/
  | uamax (n : TileId) (u : UmbelId)
  /-- UAMINU. Atomic unsigned minimum (R173). -/
  | uaminu (n : TileId) (u : UmbelId)
  /-- UAMAXU. Atomic unsigned maximum (R173). -/
  | uamaxu (n : TileId) (u : UmbelId)
  /-- UFADD. Atomic floating-point add, exact on ledger cells and lane-ordered elsewhere, or refused in deterministic mode (R173). -/
  | ufadd (n : TileId) (u : UmbelId)
  /-- UMMA. Group matrix multiply-accumulate of a 32×32 A block by a 32×8 B block into eight accumulators per lane (R176). -/
  | umma (n : TileId) (u : UmbelId)
  /-- USHFL_IDX. Shuffle from a lane given by each lane's index register (R178). -/
  | ushflIdx (n : TileId) (u : UmbelId)
  /-- USHFL_XOR. Shuffle from lane l xor k (R178). -/
  | ushflXor (n : TileId) (u : UmbelId)
  /-- USHFL_UP. Shuffle from lane l − k (R178). -/
  | ushflUp (n : TileId) (u : UmbelId)
  /-- USHFL_DOWN. Shuffle from lane l + k (R178). -/
  | ushflDown (n : TileId) (u : UmbelId)
  /-- USHFL_BCAST. Broadcast from lane k (R178). -/
  | ushflBcast (n : TileId) (u : UmbelId)
  /-- UBALLOT. Every active lane receives the mask of active lanes with non-zero rs1 (R178). -/
  | uballot (n : TileId) (u : UmbelId)
  /-- UCVT_O. Converts 32 lane values to one stored row through the conversion unit (R180). -/
  | ucvtO (n : TileId) (u : UmbelId)
  /-- UCVT_I. Reads one stored row and converts each element to binary32 in its lane (R180). -/
  | ucvtI (n : TileId) (u : UmbelId)
  /-- UBAR. An umbel arrives at the kernel-wide barrier (R181). -/
  | ubar (n : TileId) (u : UmbelId)
  /-- UBAR_RELEASE. The barrier of a kernel releases (R181). -/
  | ubarRelease (n : TileId)
  /-- USEMWAIT. An umbel starts waiting until a semaphore word reaches the target value (R182). -/
  | usemwait (n : TileId) (u : UmbelId)
  /-- SEMAPHORE_POLL. A semaphore word is read again, for an umbel or for the sequencer (R182). -/
  | semaphorePoll (n : TileId) (who : Option UmbelId)
  /-- USEMPOST. A semaphore release adds to a memory word, journaled in resilient mode (R183). -/
  | usempost (n : TileId) (u : UmbelId)
  /-- USPUT. Sends n chunks from the tile store to an output port, waiting until all are sent (R184). -/
  | usput (n : TileId) (u : UmbelId)
  /-- USGET. Moves n chunks from an input port to the tile store, waiting until all arrive (R184). -/
  | usget (n : TileId) (u : UmbelId)
  /-- USTRYPUT. Sends only the chunks that fit now (R184). -/
  | ustryput (n : TileId) (u : UmbelId)
  /-- USTRYGET. Moves only the chunks present now (R184). -/
  | ustryget (n : TileId) (u : UmbelId)
  /-- UEPOPEN. Umbel 0 opens an epoch (R185). -/
  | uepopen (n : TileId) (u : UmbelId)
  /-- UEPCOMMIT. Umbel 0 commits the open epoch (R185). -/
  | uepcommit (n : TileId) (u : UmbelId)
  /-- UEPGUARD. Umbel 0 sets a guard range while no epoch is open (R185). -/
  | uepguard (n : TileId) (u : UmbelId)
  /-- UL1FLUSH. Flushes the L1 line of each active lane's address (R186). -/
  | ul1flush (n : TileId) (u : UmbelId)
  /-- UL1INV. Writes back and invalidates the L1 line of each active lane's address (R186). -/
  | ul1inv (n : TileId) (u : UmbelId)
  /-- UL1FLUSHALL. Flushes every L1 line (R186). -/
  | ul1flushall (n : TileId) (u : UmbelId)
  /-- UL1INVALL. Writes back and invalidates every L1 line (R186). -/
  | ul1invall (n : TileId) (u : UmbelId)
  /-- SEQ_NOP. NOP at the sequencer, or the fault of an illegal operation or of a fetch beyond MICRO (R189, R195). -/
  | seqNop (n : TileId)
  /-- ADD. ADD (R189). -/
  | seqAdd (n : TileId)
  /-- SUB. SUB (R189). -/
  | seqSub (n : TileId)
  /-- AND. AND (R189). -/
  | seqAnd (n : TileId)
  /-- OR. OR (R189). -/
  | seqOr (n : TileId)
  /-- XOR. XOR (R189). -/
  | seqXor (n : TileId)
  /-- SLL. SLL (R189). -/
  | seqSll (n : TileId)
  /-- SRL. SRL (R189). -/
  | seqSrl (n : TileId)
  /-- SRA. SRA (R189). -/
  | seqSra (n : TileId)
  /-- MUL. MUL (R189). -/
  | seqMul (n : TileId)
  /-- MINU. MINU (R189). -/
  | seqMinu (n : TileId)
  /-- MAXU. MAXU (R189). -/
  | seqMaxu (n : TileId)
  /-- SLTU. SLTU (R189). -/
  | seqSltu (n : TileId)
  /-- ADDI. ADDI (R189). -/
  | seqAddi (n : TileId)
  /-- ANDI. ANDI (R189). -/
  | seqAndi (n : TileId)
  /-- ORI. ORI (R189). -/
  | seqOri (n : TileId)
  /-- SLLI. SLLI (R189). -/
  | seqSlli (n : TileId)
  /-- SRLI. SRLI (R189). -/
  | seqSrli (n : TileId)
  /-- LSH. LSH (R189). -/
  | seqLsh (n : TileId)
  /-- BEQ. BEQ (R189). -/
  | seqBeq (n : TileId)
  /-- BNE. BNE (R189). -/
  | seqBne (n : TileId)
  /-- BLTU. BLTU (R189). -/
  | seqBltu (n : TileId)
  /-- BGEU. BGEU (R189). -/
  | seqBgeu (n : TileId)
  /-- JMP. JMP (R189). -/
  | seqJmp (n : TileId)
  /-- CALL. CALL (R189). -/
  | seqCall (n : TileId)
  /-- RET. RET (R189). -/
  | seqRet (n : TileId)
  /-- LDT. LDT (R189, R190). -/
  | seqLdt (n : TileId)
  /-- STT. STT (R189, R190). -/
  | seqStt (n : TileId)
  /-- PRM. PRM (R189). -/
  | seqPrm (n : TileId)
  /-- DSC. DSC (R189). -/
  | seqDsc (n : TileId)
  /-- SST. SST (R193). -/
  | seqSst (n : TileId)
  /-- TAKE. TAKE (R191). -/
  | seqTake (n : TileId)
  /-- DONE. DONE (R191). -/
  | seqDone (n : TileId)
  /-- DMAQ. DMAQ (R189). -/
  | seqDmaq (n : TileId)
  /-- CLV. CLV (R192). -/
  | seqClv (n : TileId)
  /-- MVC. MVC (R193). -/
  | seqMvc (n : TileId)
  /-- CVC. CVC (R193). -/
  | seqCvc (n : TileId)
  /-- CVC_END. The oldest conversion request finishes (R193). -/
  | cvcEnd (n : TileId)
  /-- WAIT. WAIT (R194). -/
  | seqWait (n : TileId)
  /-- KLAUNCH. The sequencer starts the held kernel (R134, R189). -/
  | seqKlaunch (n : TileId)
  /-- EOPEN. EOPEN (R199). -/
  | seqEopen (n : TileId)
  /-- ECOMMIT. ECOMMIT (R199). -/
  | seqEcommit (n : TileId)
  /-- EGUARD. EGUARD (R203). -/
  | seqEguard (n : TileId)
  /-- SEMW. SEMW (R189). -/
  | seqSemw (n : TileId)
  /-- SEMP. SEMP (R189). -/
  | seqSemp (n : TileId)
  /-- START_RECORD_WRITTEN. The start record is written through queue 7 (R200). -/
  | startRecordWritten (n : TileId)
  /-- EPOCH_OVERRUN. The epoch timer reaches 150,000 (R199). -/
  | epochOverrun (n : TileId)
  /-- JOURNAL_SEAL_WRITE. The epoch's writes are visible; the journal and resume record are written (R211). -/
  | journalSealWrite (n : TileId)
  /-- COMMIT_POINT. The seal write completes; us is the interruption a replay measured (R211, R219). -/
  | commitPoint (n : TileId) (us : BitVec 16)
  /-- JOURNAL_ENTRY_PUBLISH. The publisher applies the next entry of a committed journal (R212). -/
  | journalEntryPublish (n : TileId)
  /-- JOURNAL_ENTRY_FAIL. The target of the publisher's next entry answers an error or ABSENT (R213). -/
  | journalEntryFail (n : TileId)
  /-- PRISM_RELEASE. Prism receives the oldest release of a port (R214). -/
  | prismRelease (n : TileId) (p : StreamPort)
  /-- RESEND_REQUEST. A replaying input port asks its sender to resend (R215). -/
  | resendRequest (n : TileId) (p : StreamPort)
  /-- EPO_CTL_RELEASE. EPO_CTL.RELEASE written 1 (R220). -/
  | epoCtlRelease (n : TileId)
  /-- EPO_CTL_FLUSH. EPO_CTL.FLUSH written 1 (R220). -/
  | epoCtlFlush (n : TileId)
  /-- EPO_MODE_WRITE. A write of EPO_MODE (R223). -/
  | epoModeWrite (value : Word)
  /-- LEDGER_ADD. A float add of either view reaches a cell (R226). -/
  | ledgerAdd (die : DieId) (cell : BitVec 18) (bf16 : Bool) (operand : W32)
  /-- LEDGER_READ. A load of either view of a cell (R227). -/
  | ledgerRead (die : DieId) (cell : BitVec 18) (bf16 : Bool)
  /-- LEDGER_CLEAR_GO. EPO_LEDGER_CLRd written with GO = 1 (R228). -/
  | ledgerClearGo (die : DieId) (value : Word)
  /-- LEDGER_CLEAR_DONE. A ledger clear finishes (R228). -/
  | ledgerClearDone (die : DieId)
  /-- LEDGER_LOCK. EPO_LEDGER_CFGd written with LOCK = 1 (R228, R263). -/
  | ledgerLock (die : DieId) (value : Word)
  /-- SPW_TIER_LOCK. SPW_TIER_CFG written with LOCK = 1 (R239). -/
  | spwTierLock (cfg : Word)
  /-- SCHEDULE. Speedwell takes the SCHEDULE descriptor at its intake (R248). -/
  | schedule
  /-- SCHEDULE_ENTRY_ISSUE. The next entry of the run is issued (R249). -/
  | scheduleEntryIssue
  /-- ACQUIRE. An ACQUIRE entry takes effect on an object (R253). -/
  | acquire (object : BitVec 12)
  /-- RELEASE. A RELEASE entry takes effect on an object (R253). -/
  | release (object : BitVec 12)
  /-- CANCEL. A CANCEL entry takes effect on an object (R253). -/
  | cancel (object : BitVec 12)
  /-- WRITEBACK. A WRITEBACK entry takes effect on an object (R253). -/
  | writeback (object : BitVec 12)
  /-- EVICT. An EVICT event applies to an object (R253). -/
  | evict (object : BitVec 12)
  /-- SPACE_GRANT. The oldest QUEUED object is looked at for space (R254). -/
  | spaceGrant
  /-- GRANULE_COPY_COMPLETE. The next granule copy of an object becomes visible (R253). -/
  | granuleCopyComplete (object : BitVec 12)
  /-- COPY_FAULT. A copy of a promoted object completes with an error response or ABSENT (R253). -/
  | copyFault (object : BitVec 12)
  /-- SPW_CLEAR_FAILED. SPW_CTL.CLEAR_FAILED written 1 (R253). -/
  | spwClearFailed
  /-- SPW_ABORT. SPW_CTL.ABORT written 1 (R256). -/
  | spwAbort
  /-- RD_SHARED. An agent reads a line and allocates it; its request reaches the home (R276, R278). -/
  | rdShared (a : CohAgent) (addr : Word) (stream : Bool) (f : CacheFinding)
  /-- RD_UNIQUE. An agent writes the bytes of a mask in a line it does not hold (R276, R278). -/
  | rdUnique (a : CohAgent) (addr : Word) (mask : Word) (data : Line)
  /-- UPGRADE. An agent writes the bytes of a mask in a line it holds (R276, R278). -/
  | upgrade (a : CohAgent) (addr : Word) (mask : Word) (data : Line)
  /-- CLAIM. An agent writes a whole line (R276, R278). -/
  | claim (a : CohAgent) (addr : Word) (data : Line)
  /-- RD_ONCE. An agent reads a snapshot of a line (R276, R278). -/
  | rdOnce (a : CohAgent) (addr : Word)
  /-- WB_DIRTY. An agent evicts a dirty line (R276, R278). -/
  | wbDirty (a : CohAgent) (addr : Word)
  /-- EVICT_CLEAN. An agent evicts a clean line (R276, R278). -/
  | evictClean (a : CohAgent) (addr : Word)
  /-- CMO_CLEAN. An agent asks the home to make memory current (R278). -/
  | cmoClean (a : CohAgent) (addr : Word)
  /-- CMO_FLUSH. An agent asks the home to make memory current and invalidate every copy (R278). -/
  | cmoFlush (a : CohAgent) (addr : Word)
  /-- SNP_SHARED. A snoop reaches an agent, which forwards DATA_S and keeps a copy (R276). -/
  | snpShared (a : CohAgent) (addr : Word) (f : CacheFinding)
  /-- SNP_UNIQUE. A snoop reaches an agent, which forwards DATA_M and invalidates (R276). -/
  | snpUnique (a : CohAgent) (addr : Word)
  /-- SNP_INV. A snoop reaches an agent, which invalidates (R276). -/
  | snpInv (a : CohAgent) (addr : Word)
  /-- SNP_ONCE. A snoop reaches an agent, which forwards a snapshot (R276). -/
  | snpOnce (a : CohAgent) (addr : Word)
  /-- SNP_CLEAN. A snoop reaches an agent, which sends dirty data home and keeps a clean copy (R276). -/
  | snpClean (a : CohAgent) (addr : Word)
  /-- SNP_FLUSH. A snoop reaches an agent, which sends dirty data home and invalidates (R276). -/
  | snpFlush (a : CohAgent) (addr : Word) (f : CacheFinding)
  /-- COMP. COMP reaches a requester (R276). -/
  | comp (a : CohAgent) (addr : Word)
  /-- COMP_ACK. COMP_ACK of an agent reaches the home (R271). -/
  | compAck (a : CohAgent) (addr : Word)
  /-- RSP_I. RSP_I of an agent reaches the home (R278). -/
  | rspI (a : CohAgent) (addr : Word)
  /-- RSP_S. RSP_S of an agent reaches the home (R278). -/
  | rspS (a : CohAgent) (addr : Word)
  /-- RSP_O. RSP_O of an agent reaches the home (R278). -/
  | rspO (a : CohAgent) (addr : Word)
  /-- RSP_KEEP. RSP_KEEP of an agent reaches the home (R278). -/
  | rspKeep (a : CohAgent) (addr : Word)
  /-- ERROR. A status ERROR reaches a requester (R26). -/
  | cohError (a : CohAgent) (addr : Word)
  /-- POISONED. A status POISONED reaches a requester (R23). -/
  | cohPoisoned (a : CohAgent) (addr : Word)
  /-- ABSENT. A status ABSENT reaches a requester (R547). -/
  | cohAbsent (a : CohAgent) (addr : Word)
  /-- MALFORMED. A status MALFORMED reaches a requester (R20). -/
  | cohMalformed (a : CohAgent) (addr : Word)
  /-- DATA_S. DATA_S reaches a requester (R276). -/
  | dataS (a : CohAgent) (addr : Word)
  /-- DATA_E. DATA_E reaches a requester (R276). -/
  | dataE (a : CohAgent) (addr : Word)
  /-- DATA_M. DATA_M reaches a requester (R276). -/
  | dataM (a : CohAgent) (addr : Word)
  /-- DATA_ONCE. DATA_ONCE reaches a requester (R276). -/
  | dataOnce (a : CohAgent) (addr : Word)
  /-- DATA_TO_HOME. An agent's DATA_TO_HOME reaches the home (R278). -/
  | dataToHome (a : CohAgent) (addr : Word)
  /-- HMEM_RD. A memory target serves the HMEM_RD of a line; f is what a DDR channel finds, h what an HBM stack brings (R275, R302). -/
  | hmemRd (addr : Word) (f : CacheFinding) (h : HbmFinding)
  /-- HMEM_WR. A memory target serves the HMEM_WR of a line (R274). -/
  | hmemWr (addr : Word)
  /-- LEASE_REQ. A system cache accesses a line of its own HBM and asks for the lease of its region (R280). -/
  | leaseReq (d : DieId) (addr : Word) (acc : LineAccess)
  /-- LEASE_GRANT. The home grants the lease of a region (R280). -/
  | leaseGrant (d : DieId) (addr : Word)
  /-- LEASE_DENY. LEASE_DENY reaches a system cache (R280). -/
  | leaseDeny (d : DieId) (addr : Word)
  /-- LEASE_RECALL. LEASE_RECALL reaches a system cache (R282). -/
  | leaseRecall (d : DieId) (addr : Word)
  /-- LEASE_RETURN. LEASE_RETURN reaches the home (R282). -/
  | leaseReturn (d : DieId) (addr : Word)
  /-- LEASE_HOLDOFF_EXPIRE. The holdoff of a region ends (R282). -/
  | leaseHoldoffExpire (addr : Word)
  /-- CCH_LEASE_CFG_WRITE. A write of CCH_LEASE_CFG (R282). -/
  | cchLeaseCfgWrite (value : Word)
  /-- CCH_MNT_GO. A write of CCH_MNT_CTL with GO (R284). -/
  | cchMntGo (value : Word)
  /-- CCH_MNT_DONE. A maintenance operation finishes (R283). -/
  | cchMntDone
  /-- CCH_REPL_LOCK. A write of CCH_REPL with LOCK (R268). -/
  | cchReplLock (value : Word)
  /-- CCH_SC_CARVE_LOCK. A write of CCH_SC_CARVEd with LOCK (R263). -/
  | cchScCarveLock (die : DieId) (value : Word)
  /-- CCH_RRB_INV_GO. CCH_RRB_INV.GO written 1 (R293). -/
  | cchRrbInvGo (byNode : Bool) (node : BitVec 13)
  /-- CCH_RRB_INV_DONE. An invalidation of the remote-read buffers finishes (R293). -/
  | cchRrbInvDone
  /-- HBM_READ. A line of an HBM address is read; f is what the stack brings beside the stored word (R302). -/
  | hbmRead (addr : Word) (f : HbmFinding)
  /-- HBM_WRITE. A write of the bytes a mask selects in a line of an HBM address (R299). -/
  | hbmWrite (addr : Word) (mask : Word) (data : Line) (poison : Bool)
  /-- WCB_DEADLINE. The open entry of a line reaches its deadline (R315). -/
  | wcbDeadline (addr : Word)
  /-- WCB_DRAIN_READ. The old line of a draining entry is read (R309). -/
  | wcbDrainRead (addr : Word) (f : HbmFinding)
  /-- PARITY_DELTA. A line's delta reaches its parity controller (R309). -/
  | parityDelta (addr : Word)
  /-- PARITY_ACK. The acknowledgement of a delta reaches the data controller (R309). -/
  | parityAck (addr : Word)
  /-- PARITY_RELEASE. The release of a line reaches its parity controller (R309). -/
  | parityRelease (addr : Word)
  /-- RELEASE_TIMEOUT. No release of a line arrives within 200 µs (R312). -/
  | releaseTimeout (addr : Word)
  /-- RECONSTRUCTION. A reconstruction of a line reaches its parity controller (R310). -/
  | reconstruction (addr : Word)
  /-- RECONSTRUCTION_COMPLETE. A reconstruction ends; bad: a line read for it is uncorrectable (R310). -/
  | reconstructionComplete (addr : Word) (bad : Bool)
  /-- SCRUB_STEP. The scrubber of a stack reads its next line (R305). -/
  | scrubStep (k : StackId) (f : HbmFinding)
  /-- HBM_TEMP_READ. A stack temperature in °C is read (R318). -/
  | hbmTempRead (k : StackId) (temp : Byte)
  /-- THROTTLE_STEP_FALL. A stack has stayed 10 ms below the threshold less HYST (R318). -/
  | throttleStepFall (k : StackId)
  /-- HBM_THR_CFG_WRITE. A write of HBM_THR_CFGs (R319). -/
  | hbmThrCfgWrite (k : StackId) (value : Word)
  /-- HBM_SHD_EN. A write of HBM_SHD_CFGx with EN as the value gives it (R308). -/
  | hbmShdEn (x : Fin 8) (value : Word)
  /-- SHIELD_ZEROING_DONE. A new shielded range is zero (R308). -/
  | shieldZeroingDone (x : Fin 8)
  /-- HBM_FAIL_PC_WRITE. A write of HBM_FAIL_PCs (R311). -/
  | hbmFailPcWrite (k : StackId) (value : Word)
  /-- PC_PHY_FAIL. The PHY or training of a pseudo-channel fails, or of the whole stack (R311). -/
  | pcPhyFail (k : StackId) (pc : Option (BitVec 6))
  /-- HBM_REBUILD_GO. HBM_REBUILDs.GO written 1 (R313). -/
  | hbmRebuildGo (k : StackId) (pc : BitVec 6) (all : Bool)
  /-- HBM_REBUILD_DONE. A rebuild ends; phyFails: the PHY still fails (R313). -/
  | hbmRebuildDone (k : StackId) (phyFails : Bool) (lines : W32)
  /-- HBM_QUIESCE_WRITE. A write of HBM_CTLs (R322). -/
  | hbmQuiesceWrite (k : StackId) (value : Word)
  /-- HBM_MARK_WRITE. A write of HBM_MARKs_i (R304). -/
  | hbmMarkWrite (k : StackId) (j : Fin 8) (value : Word)
  /-- HBM_REPAIR_QUERY. Repair OP 0 (R320). -/
  | hbmRepairQuery (k : StackId) (pc bank : BitVec 6)
  /-- SOFT_ROW_REPAIR. Repair OP 1, by software or by Yarrow (R320, R502). -/
  | softRowRepair (k : StackId) (pc bank : BitVec 6) (row : BitVec 14) (yarrow : Bool)
  /-- HARD_ROW_REPAIR. Repair OP 2 (R320). -/
  | hardRowRepair (k : StackId) (pc bank : BitVec 6) (row : BitVec 14)
  /-- DQ_REMAP. Repair OP 3, by software or by Yarrow (R320, R502). -/
  | dqRemap (k : StackId) (pc dq : BitVec 6) (yarrow : Bool)
  /-- CLEAR_REMAP. Repair OP 4 (R320). -/
  | clearRemap (k : StackId) (pc : BitVec 6)
  /-- HBM_REPAIR_DONE. A repair operation ends; rows are the spare rows a query finds (R320). -/
  | hbmRepairDone (k : StackId) (res : RepairEnd) (rows : BitVec 4)
  /-- HBM_MRG_GO. HBM_MRG_CTLs.GO written 1 (R323). -/
  | hbmMrgGo (k : StackId) (pc : BitVec 6)
  /-- HBM_MRG_DONE. A margining run ends with the eyes of its DQ (R323). -/
  | hbmMrgDone (k : StackId) (eyes : List (BitVec 33))
  /-- YELRY_LOAD. A hart loads, or, through the L1 instruction cache, fetches; f is what the array arr finds (R326, R443). -/
  | yelryLoad (c : CoreId) (pa : Word) (size : AccSize) (page : PageAttr) (hint : Ntl) (arr : CoreArray) (f : CacheFinding)
  /-- YELRY_STORE. A retired store enters the store buffer; issue: its entry issues at once (R330). -/
  | yelryStore (c : CoreId) (pa : Word) (size : AccSize) (page : PageAttr) (hint : Ntl) (data : Word) (issue : Bool)
  /-- STORE_BUFFER_COMPLETION. The oldest entry of a line completes; ans is how another node answers it (R330, R332). -/
  | storeBufferCompletion (c : CoreId) (line : Word) (ans : StoreAnswer)
  /-- STORE_BUFFER_TIMEOUT. The oldest entry of a line reaches 200 µs (R332). -/
  | storeBufferTimeout (c : CoreId) (line : Word)
  /-- WARM_RESET_DISCARD. 10 µs after the assertion of a warm reset (R333). -/
  | warmResetDiscard
  /-- YELRY_FENCE. A hart executes FENCE with a predecessor set (R331). -/
  | yelryFence (c : CoreId) (pred : BitVec 4)
  /-- FENCE_I. A hart executes FENCE.I (R442). -/
  | fenceI (c : CoreId)
  /-- LR. A hart executes LR.W or LR.D (R334). -/
  | lr (c : CoreId) (pa : Word) (dw : Bool) (page : PageAttr) (aqrl : Bool)
  /-- SC. A hart executes SC.W or SC.D (R334). -/
  | sc (c : CoreId) (pa : Word) (dw : Bool) (page : PageAttr) (data : Word) (aqrl : Bool)
  /-- RESERVATION_HOLD_EXPIRE. The hold of a reserved line ends (R334). -/
  | reservationHoldExpire (c : CoreId)
  /-- YELRY_AMO. A hart executes an AMO (R329, R335). -/
  | yelryAmo (c : CoreId) (pa : Word) (dw : Bool) (op : AmoOp) (data : Word) (aqrl : Bool)
  /-- IO_ACCESS. A hart executes an I/O load or store (R329, R331). -/
  | ioAccess (c : CoreId) (pa : Word) (size : AccSize) (store : Option Word)
  /-- CBO_ZERO. A hart executes CBO.ZERO (R440). -/
  | cboZero (c : CoreId) (pa : Word)
  /-- CBO_CLEAN. A hart executes CBO.CLEAN (R440). -/
  | cboClean (c : CoreId) (pa : Word)
  /-- CBO_FLUSH. A hart executes CBO.FLUSH (R440, R293). -/
  | cboFlush (c : CoreId) (pa : Word)
  /-- CBO_INVAL. A hart executes CBO.INVAL (R440, R293). -/
  | cboInval (c : CoreId) (pa : Word)
  /-- PREFETCH. A hart executes a Zicbop prefetch (R440). -/
  | prefetch (c : CoreId) (pa : Word)
  /-- WFI. A hart executes WFI (R455). -/
  | wfi (c : CoreId)
  /-- FENCE. The FENCE descriptor admitted from ring r takes its hold of the ring (R339, R378). -/
  | fence (r : RingId)
  /-- FENCE_START. Every descriptor the FENCE waits for has completed (R339). -/
  | fenceStart (r : RingId)
  /-- PEER_FLUSH_COMPLETION. The PEER_FLUSH read of a FENCE returns (R339). -/
  | peerFlushCompletion (r : RingId) (ans : Answer)
  /-- PEER_FLUSH_TIMEOUT. No PEER_FLUSH completion within 200 µs (R339). -/
  | peerFlushTimeout (r : RingId)
  /-- PCIE_INBOUND_WRITE. An inbound posted write, its EP bit and whether it carries a relaxed or ID-based ordering attribute (R340, R391, R491). -/
  | pcieInboundWrite (port : PciePort) (addr : Word) (data : List Byte) (ep : Bool) (relaxed : Bool)
  /-- PCIE_INBOUND_READ. An inbound read, and the PBMT attribute of the page that translates its address (R291, R391). -/
  | pcieInboundRead (port : PciePort) (addr : Word) (len : BitVec 13) (page : PageAttr)
  /-- ATC_MISS. A die ATC misses on an access (R352). -/
  | atcMiss (die : DieId) (pasid : BitVec 20) (va : Word) (kind : AccessKind)
  /-- TRANSLATION_COMPLETION. The translation of an access returns; dc is the device context the IOMMU found (R349, R352). -/
  | translationCompletion (die : DieId) (pasid : BitVec 20) (va : Word) (kind : AccessKind) (dc : DevCtx) (res : XlateResult)
  /-- PAGE_REQUEST_RESPONSE. The response to a page request arrives (R357). -/
  | pageRequestResponse (die : DieId) (pasid : BitVec 20) (va : Word) (success : Bool)
  /-- PAGE_REQUEST_TIMEOUT. No response within XLT_PRI_CFG.TIMEOUT ms (R358). -/
  | pageRequestTimeout (die : DieId) (pasid : BitVec 20) (va : Word)
  /-- IOTINVAL_VMA. IOTINVAL.VMA with its process ID and address, where it names them (R354). -/
  | iotinvalVma (pasid : Option (BitVec 20)) (va : Option Word)
  /-- IOTINVAL_GVMA. IOTINVAL.GVMA with its address, where it names one (R354). -/
  | iotinvalGvma (addr : Option Word)
  /-- IOFENCE_C. IOFENCE.C (R354). -/
  | iofenceC
  /-- IOFENCE_C_COMPLETE. Every earlier invalidation has taken effect (R354). -/
  | iofenceCComplete
  /-- ATS_INVALIDATE. An ATS Invalidate Request for 2^log2 bytes (R361). -/
  | atsInvalidate (pasid : Option (BitVec 20)) (va : Word) (log2 : Fin 64)
  /-- DOORBELL. An access to the doorbell page of a ring (R370). -/
  | doorbell (page : RingId) (offset : BitVec 12) (size : BitVec 4) (write : Bool) (value : Word)
  /-- SQ_READ. The next descriptor of a ring is fetched; data is what host memory returns for LOC = 1 (R372). -/
  | sqRead (r : RingId) (ans : Answer) (data : Line)
  /-- DESCRIPTOR_ADMIT. The host interface takes the descriptor at the head of ring r (R381). -/
  | descriptorAdmit (r : RingId)
  /-- CQ_WRITE_FAIL. A write of a completion entry of ring r fails (R369). -/
  | cqWriteFail (r : RingId)
  /-- COALESCE_TIMER. COAL_US µs have passed since the first unsignalled entry (R386). -/
  | coalesceTimer (r : RingId)
  /-- NOP. The NOP descriptor admitted from ring r is served (R374). -/
  | nop (r : RingId)
  /-- WRITE_INLINE. DMA queue 6 of a tile performs the WRITE_INLINE at its head (R376). -/
  | writeInline (n : TileId)
  /-- DMA. The DMA descriptor at the head of a work queue is carried to queue 6 (R377). -/
  | dma (n : TileId)
  /-- FACET_WORK. The FACET_WORK descriptor at the head of a work queue is passed to the sequencer (R380). -/
  | facetWork (n : TileId)
  /-- EPOCH. The EPOCH descriptor a vendor facet has taken is read under R380. -/
  | epochDesc (n : TileId)
  /-- COLLECTIVE. Prism checks and starts the COLLECTIVE descriptor at the head of its intake (R428). -/
  | collective (d : DieId)
  /-- HIF_RING_EN_SET. HIF_RING_CFGn written with EN = 1 (R368). -/
  | hifRingEnSet (r : RingId) (cfg : Word)
  /-- HIF_RING_EN_CLEAR. HIF_RING_CFGn written with EN = 0 (R369). -/
  | hifRingEnClear (r : RingId) (cfg : Word)
  /-- HIF_RING_STOP. HIF_RING_CTLn.STOP written 1 (R369). -/
  | hifRingStop (r : RingId)
  /-- HIF_RING_RESUME. HIF_RING_CTLn.RESUME written 1 (R369, R399). -/
  | hifRingResume (r : RingId)
  /-- HIF_RING_ABANDON. HIF_RING_CTLn.ABANDON written 1 (R369, R399). -/
  | hifRingAbandon (r : RingId)
  /-- HOST_LOSS. A host loss on the endpoint (R396). -/
  | hostLoss (cause : HostLossCause)
  /-- HIF_ATTACH_GO. HIF_ATTACH.GO written 1 (R399). -/
  | hifAttachGo
  /-- ATTACH_READY. Every wait of R397 has begun and every held completion is stored (R399). -/
  | attachReady
  /-- ATTACH_TIMEOUT. GO was not written within TIMEOUT_S (R400). -/
  | attachTimeout
  /-- PCIE_RECOVERY. A link retrains through Recovery (R395). -/
  | pcieRecovery (port : PciePort)
  /-- ROOT_PORT_DOWN. Root port port + 1 goes down (R395). -/
  | rootPortDown (port : Fin 8)
  /-- HIF_PCIE_LOCK. HIF_PCIE_CFG written with LOCK = 1 (R389). -/
  | hifPcieLock (cfg : Word)
  /-- FGN_CFG_EN. FGN_CFG written, with EN as the value gives it (R407). -/
  | fgnCfgEn (value : Word)
  /-- FGN_PORT_CFG_WRITE. A write of FGN_PORT_CFGp (R408). -/
  | fgnPortCfgWrite (p : PortId) (value : Word)
  /-- SIGNAL_DETECT. Signal is detected on all four lanes of a link, whose cable is passive or active (R408). -/
  | signalDetect (l : LinkId) (active : Bool)
  /-- EQUALISATION_CONVERGED. Equalisation of a link converges (R408). -/
  | equalisationConverged (l : LinkId)
  /-- ALIGNMENT_LOCK. Lane order, polarity, deskew and codeword lock are established (R408). -/
  | alignmentLock (l : LinkId)
  /-- IDENT. The peer's IDENT arrives (R408, R409). -/
  | ident (l : LinkId) (x : FIdent)
  /-- LINK_TRAIN_TIMEOUT. A training step does not complete in time (R408, R410). -/
  | linkTrainTimeout (l : LinkId)
  /-- LINK_LOSS. A link is lost (R413). -/
  | linkLoss (l : LinkId)
  /-- FALLBACK_INSTALL. The router installs the fallback of a port (R421). -/
  | fallbackInstall (p : PortId)
  /-- FLIT. A flit is received on a link of a port, with its link header (R411 to R414). -/
  | flit (p : PortId) (l : LinkId) (hdr : Word) (crcOk : Bool) (corr uncorr : BitVec 16)
  /-- READ. A READ packet (R416). -/
  | fgnRead (p : PortId) (k : FPkt)
  /-- WRITE. A WRITE packet (R416). -/
  | fgnWrite (p : PortId) (k : FPkt)
  /-- WRITE_MASKED. A WRITE_MASKED packet (R416). -/
  | fgnWriteMasked (p : PortId) (k : FPkt)
  /-- ATOMIC. An ATOMIC packet (R416). -/
  | fgnAtomic (p : PortId) (k : FPkt)
  /-- DATA. A DATA packet (R416). -/
  | fgnData (p : PortId) (k : FPkt)
  /-- FUGEN_COMP. A COMP packet (R416). -/
  | fugenComp (p : PortId) (k : FPkt)
  /-- CDATA. A CDATA packet, on a port or from the other C-die (R428). -/
  | cdata (p : Option PortId) (k : FPkt)
  /-- CABORT. A CABORT packet, on a port or from the other C-die (R432). -/
  | cabort (p : Option PortId) (k : FPkt)
  /-- ACK. An ACK packet (R423). -/
  | ack (p : PortId) (k : FPkt)
  /-- NAK. A NAK packet (R423, R424). -/
  | nak (p : PortId) (k : FPkt)
  /-- CLOSE. A CLOSE packet (R422). -/
  | close (p : PortId) (k : FPkt)
  /-- E2E_TIMEOUT. The oldest unacknowledged packet of a class to a node has waited E2E_TO µs (R423). -/
  | e2eTimeout (node : BitVec 13) (cls : Fin 3)
  /-- CONNECTION_IDLE_FREE. A connection has been idle for IDLE_MS (R422). -/
  | connectionIdleFree (node : BitVec 13)
  /-- COLLECTIVE_COMPLETE. The output of a collective can be formed and is written (R431). -/
  | collectiveComplete (die : DieId) (comm : BitVec 12)
  /-- PRS_ABORT. PRS_CTL.ABORT written 1 with COMM (R432). -/
  | prsAbort (die : DieId) (comm : BitVec 12)
  /-- COLLECTIVE_STALL. A collective makes no progress for STALL_MS (R432). -/
  | collectiveStall (die : DieId) (comm : BitVec 12)
  /-- CAP_NOTICE_EXPIRE. 100 µs have passed since the last cap notice; us is the time the lowering lasted (R472). -/
  | capNoticeExpire (die : DieId) (us : W32)
  /-- CORE_START. MGT_CORE_CTLc.START written 1 (R455). -/
  | coreStart (c : CoreId)
  /-- CORE_POWER_GOOD. The power and reset of a starting core are complete (R455). -/
  | corePowerGood (c : CoreId)
  /-- CORE_PARK. MGT_CORE_CTLc.PARK written 1 (R455). -/
  | corePark (c : CoreId)
  /-- PARK_DRAIN_COMPLETE. The store buffer of a parking core has drained (R455). -/
  | parkDrainComplete (c : CoreId)
  /-- L2_FLUSH_COMPLETE. The L2 of a parking core is empty (R455). -/
  | l2FlushComplete (c : CoreId)
  /-- CORE_OFFLINE. A core is to go offline (R455, R458). -/
  | coreOffline (c : CoreId) (cause : OffCause)
  /-- OFFLINE_FLUSH_COMPLETE. The flush of an offlining core completes, or is abandoned (R458). -/
  | offlineFlushComplete (c : CoreId) (flushed : Bool)
  /-- SETEIPNUM. A 4-byte write to an interrupt file (R446). -/
  | seteipnum (c : CoreId) (sLevel : Bool) (off : BitVec 12) (data : W32)
  /-- MTIMER_COMPARE. mtime reaches a hart's mtimecmp or its stimecmp (R449). -/
  | mtimerCompare (c : CoreId) (super : Bool)
  /-- MGT_CXLWIN_EN. A write of MGT_CXLWINw (R453). -/
  | mgtCxlwinEn (w : Fin 8) (value : Word)
  /-- CXL_LOCK. MGT_MEM_CTL.CXL_LOCK written 1 (R453). -/
  | cxlLock
  /-- DDR_PATROL_SCRUB. The patrol scrubber reads a DDR line (R452). -/
  | ddrPatrolScrub (addr : Word) (f : CacheFinding)
  /-- MENISCUS_STEP. Meniscus closes a control step with what it has measured (R466). -/
  | meniscusStep (m : MenInput)
  /-- PHASE_INTERVAL. A phase interval closes, with its signature and the power of each class in W (R467). -/
  | phaseInterval (sig : BitVec 16) (tileW hbmW hdieW fixedW : BitVec 16)
  /-- DROOP_FIRE. A droop detector fires (R473). -/
  | droopFire (at_ : DroopAt)
  /-- DROOP_RECOVERY. The stretched clocks return to normal (R473). -/
  | droopRecovery (at_ : DroopAt)
  /-- AGEING_CHECK. The 24-hour check, with the margin each listed domain needs in mV (R475). -/
  | ageingCheck (needs : List (PwrDomain × Byte))
  /-- JUNCTION_READ. The junction sensors are read (R476). -/
  | junctionRead (j : Junctions)
  /-- TJ_CRIT_HOLD_EXPIRE. A junction stays at TJ_CRIT for 10 ms (R477). -/
  | tjCritHoldExpire
  /-- IDLE_ENTRY. The idle conditions have held for HYST_US (R479). -/
  | idleEntry
  /-- WAKE_EVENT. A wake event (R480). -/
  | wakeEvent (cause : WakeCause)
  /-- PWR_IDLE_WAKE. PWR_IDLE.WAKE written 1 (R480). -/
  | pwrIdleWake
  /-- ENERGY_UPDATE. Every 1 ms the energy used is added (R481). -/
  | energyUpdate (mj : W32)
  /-- AUTO_WARM_DELAY. FATAL_DELAY_MS have passed since a package-fatal fault (R506). -/
  | autoWarmDelay
  /-- EB_GO. TST_EB_CTLe.GO written 1; tapOwns: the test access port holds Eyebright (R496, R504). -/
  | ebGo (e : EbEngine) (kind : BitVec 4) (index : BitVec 12) (tapOwns : Bool)
  /-- EB_ABORT. TST_EB_CTLe.ABORT written 1 (R499). -/
  | ebAbort (e : EbEngine) (duration : W32)
  /-- EB_TEST_COMPLETE. A test ends with its findings (R500). -/
  | ebTestComplete (e : EbEngine) (f : EbFinding)
  /-- INJ_TILE_FAULT. TST_YAR_INJ.GO with KIND 0 (R501). -/
  | injTileFault (target : BitVec 7)
  /-- INJ_HEARTBEAT_STOP. TST_YAR_INJ.GO with KIND 1 (R501). -/
  | injHeartbeatStop (target : BitVec 7)
  /-- INJ_HBM_CORRUPT. TST_YAR_INJ.GO with KIND 2, on the line of TST_YAR_INJ_ADDR (R501). -/
  | injHbmCorrupt
  /-- INJ_LINK_DROP. TST_YAR_INJ.GO with KIND 3 (R501). -/
  | injLinkDrop (target : BitVec 7)
  /-- WAY_DIS. TST_REPAIR_CTL.WAY_DIS written 1 (R502). -/
  | wayDis (die : DieId) (way : BitVec 4)
  /-- WAY_EN. TST_REPAIR_CTL.WAY_EN written 1 (R502). -/
  | wayEn (die : DieId) (way : BitVec 4)
  /-- QUEUE_TILE. TST_REPAIR_CTL.QUEUE_TILE written 1 with PTILE (R503). -/
  | queueTile (ptile : BitVec 7)
  /-- TEASEL_LOCKSTEP_MISMATCH. The lockstep comparator trips (R484). -/
  | teaselLockstepMismatch
  /-- TEASEL_RESTART_COMPLETE. Teasel finishes its restart (R484). -/
  | teaselRestartComplete
  /-- WARM_RESET. A warm reset is asserted (R508). -/
  | warmReset (cause : WarmCause)
  /-- WARM_JOURNALS_PUBLISHED. Every journal committed before the warm reset is published (R212). -/
  | warmJournalsPublished
  /-- WARM_RESET_RELEASE. Warm reset is released; the dirty lines at the addresses listed could not be written back (R508). -/
  | warmResetRelease (lost : List Word)
  /-- RST_CTL_WARM. RST_CTL.WARM written 1 (R506). -/
  | rstCtlWarm
  /-- RST_CTL_COLD. RST_CTL.COLD written 1 (R506). -/
  | rstCtlCold (straps : Straps)
  /-- RST_BOOT_DONE. RST_BOOT.DONE written 1 (R512). -/
  | rstBootDone
  /-- SVN_COMMIT. SEC_CTL.SVN_COMMIT written 1 with COMP (R516). -/
  | svnCommit (comp : BitVec 2)
  /-- SEC_EXT_GO. SEC_EXT_CTL.GO written 1 with REG (R517). -/
  | secExtGo (reg : BitVec 3)
  /-- KEY_ENROL. SEC_KEY_CTL.GO written 1 with OP 0 (R518). -/
  | keyEnrol (slot : BitVec 3)
  /-- KEY_EMPTY. SEC_KEY_CTL.GO written 1 with OP 1 (R518). -/
  | keyEmpty (slot : BitVec 3)
  /-- KEYLOCK. SEC_CTL.KEYLOCK written 1 (R517). -/
  | keylock
  /-- SEC_ATT_GO. SEC_ATT_CTL.GO written 1 with MASK (R519). -/
  | secAttGo (mask : Byte)
  /-- ATTESTATION_SIGNED. Betony finishes the signature it is making (R520). -/
  | attestationSigned
  /-- GET_BOOT. Sideband command 0x01 (R522). -/
  | getBoot
  /-- SET_WALL. Sideband command 0x02 (R522, R528). -/
  | setWall (seconds : Word)
  /-- READ_LOG. Sideband command 0x03 (R522). -/
  | readLog (offset : W32) (len : BitVec 16)
  /-- ATTEST. Sideband command 0x04 (R519, R522). -/
  | attest (nonce : W256) (mask : Byte)
  /-- SET_CAP. Sideband command 0x05 (R522). -/
  | setCap (watts : BitVec 16)
  /-- RESET. Sideband command 0x06: TYPE 0 warm, 1 cold (R522). -/
  | sideReset (type : Byte) (straps : Straps)
  /-- FIRMWARE_IMAGE_WRITE. A PLDM update writes an image into the inactive slot (R523). -/
  | firmwareImageWrite (comp : FwComp) (image : List Byte)
  /-- VERIFY_COMPLETE. VerifyComplete of a PLDM update (R523). -/
  | verifyComplete (comp : FwComp)
  /-- APPLY_COMPLETE. ApplyComplete of a PLDM update (R523). -/
  | applyComplete (comp : FwComp)
  /-- FIRMWARE_TRIAL_TIMEOUT. The trial of a PENDING slot is not confirmed in time (R524). -/
  | firmwareTrialTimeout (comp : FwComp)
  /-- MGT_PSC_MARK. A write of MGT_PSC_MARK (R525). -/
  | mgtPscMark (value : Word)
  /-- LIFE_SAVE. Teasel saves the life counter into the log (R527). -/
  | lifeSave
  /-- SUMMARY_REWRITE. Teasel rewrites the lifetime-log summary (R529). -/
  | summaryRewrite
  /-- MGT_WALL_WRITE. A write of MGT_WALL (R528). -/
  | mgtWallWrite (seconds : Word)
  /-- CLK_MEAS_GO. CLK_MEAS.GO written 1 with SEL (R531). -/
  | clkMeasGo (sel : BitVec 6)
  /-- CLK_MEAS_DONE. The clock measurement ends with a frequency (R531). -/
  | clkMeasDone (hz : BitVec 36)
  /-- REGISTER_WRITE. A write of 8 bytes to a register without a row of its own (R8, R238). -/
  | registerWrite (addr : Word) (value : Word)
  /-- PCIE_LINK_UP. The endpoint or a root port trains up (R389). -/
  | pcieLinkUp (port : PciePort)
  /-- BAR_ASSIGN. The external host assigns the endpoint BAR (R399). -/
  | barAssign (base : Byte)
  /-- ACK_TIMER. 2 µs have passed without an acknowledgement to a node (R423). -/
  | ackTimer (node : BitVec 13)
  /-- WAKE_COMPLETE. The wake ends after us microseconds (R480). -/
  | wakeComplete (us : BitVec 16)
  /-- YELRY_CSR_ACCESS. A hart executes a CSR instruction (R439, R460). -/
  | yelryCsrAccess (c : CoreId) (mode : Priv) (csr : BitVec 12) (op : CsrOp) (value : Word)
  deriving DecidableEq, Repr

end Sys2Proof
end

