-- ==== Sys2Proof/Decode.lean ====
section
/-!
DEFINITION. The command that a word spells by the bits of spec/opcode_table.json.  No row of the table gives bits: its commands
are register accesses, messages and events of several interfaces, so no word spells one (notes/assumptions/6.md).
-/

namespace Sys2Proof

/-- The command that a word of nbits bits spells: none, as no row has bits. -/
def decodeTableWord (_nbits _w : Nat) : Option Instr := none

end Sys2Proof
end

