-- ==== Sys2Proof/Machine/RegMap.lean ====
section
/-!
DEFINITION. The register map of the AE-7116: the address of every register, the place of every field, its access
code and its reset value, transcribed from the register tables of spec/01 to spec/19 (R8, R9, R238).  A field whose
reset the spec writes as a dash holds 0 until the step that sets it (notes/assumptions/4.md).

Where the spec leaves open or is read by inference, and what is taken from outside it (DESIGN CHOICE, DEDUCED, PRESUMED):
notes/assumptions/4.md, 11.md, 20.md.
-/

namespace Sys2Proof.Machine

/-- The place of a field in its register: bits [hi:lo] (R7). -/
structure Fld where
  hi : Nat
  lo : Nat
  deriving DecidableEq, Repr

/-- The access codes of R8. -/
inductive Acc where
  | rw | ro | wo | w1c | w1s | rwl
  deriving DecidableEq, Repr

/-- One row of a register table: the field's name, place, access code and reset value, and whether the field keeps its
value across a warm reset (R507). -/
structure FieldSpec where
  name  : String
  hi    : Nat
  lo    : Nat
  acc   : Acc
  reset : Nat
  keep  : Bool
  deriving DecidableEq, Repr

/-- The lock of a register's RWL fields: the register that holds the lock (as a distance from the locked register's own
address, upwards or downwards), its bit, and where a refused change is recorded, if it is. -/
structure LockSpec where
  base    : Nat
  bit     : Nat
  refused : Option (Nat × Nat)
  deriving DecidableEq, Repr

/-- One register, or one array of registers: `dims` holds (stride, count) of each index, outermost first. -/
structure RegSpec where
  name   : String
  base   : Nat
  dims   : List (Nat × Nat)
  lock   : Option LockSpec
  fields : List FieldSpec
  deriving DecidableEq, Repr


/-- spec/01: register. -/
def MGT_DIE_MAP : Nat := 0x7F000001000
def MGT_DIE_MAP_VALID : Fld := ⟨0, 0⟩
def MGT_DIE_MAP_FAULT : Fld := ⟨1, 1⟩
def MGT_DIE_MAP_CAUSE : Fld := ⟨5, 2⟩
def MGT_DIE_MAP_CAUSE_DIE : Fld := ⟨6, 6⟩
def MGT_DIE_MAP_SIDE_W : Fld := ⟨7, 7⟩
def MGT_DIE_MAP_SIDE_E : Fld := ⟨8, 8⟩

/-- spec/01: register array, n < 3. -/
def MGT_CRA_STAT (n : Nat) : Nat := 0x7F000002000 + n * 0x100
def MGT_CRA_STAT_STATE : Fld := ⟨2, 0⟩
def MGT_CRA_STAT_TRAIN_TO : Fld := ⟨3, 3⟩
def MGT_CRA_STAT_NEG_CAUSE : Fld := ⟨6, 4⟩
def MGT_CRA_STAT_POISON_ON : Fld := ⟨7, 7⟩
def MGT_CRA_STAT_TAGS : Fld := ⟨11, 8⟩
def MGT_CRA_STAT_LOCAL_STANDIN : Fld := ⟨12, 12⟩

/-- spec/01: register array, n < 3. -/
def MGT_CRA_CAPL_LO (n : Nat) : Nat := 0x7F000002008 + n * 0x100
def MGT_CRA_CAPL_LO_CAP : Fld := ⟨63, 0⟩

/-- spec/01: register array, n < 3. -/
def MGT_CRA_CAPL_HI (n : Nat) : Nat := 0x7F000002010 + n * 0x100
def MGT_CRA_CAPL_HI_CAP : Fld := ⟨63, 0⟩

/-- spec/01: register array, n < 3. -/
def MGT_CRA_CAPR_LO (n : Nat) : Nat := 0x7F000002018 + n * 0x100
def MGT_CRA_CAPR_LO_CAP : Fld := ⟨63, 0⟩

/-- spec/01: register array, n < 3. -/
def MGT_CRA_CAPR_HI (n : Nat) : Nat := 0x7F000002020 + n * 0x100
def MGT_CRA_CAPR_HI_CAP : Fld := ⟨63, 0⟩

/-- spec/01: register array, n < 3. -/
def MGT_CRA_ERR (n : Nat) : Nat := 0x7F000002028 + n * 0x100
def MGT_CRA_ERR_MALFORMED : Fld := ⟨15, 0⟩
def MGT_CRA_ERR_POISON_CONV : Fld := ⟨31, 16⟩
def MGT_CRA_ERR_LATE_DROP : Fld := ⟨47, 32⟩
def MGT_CRA_ERR_ABSENT_CNT : Fld := ⟨63, 48⟩

/-- spec/02: register array, n < 96. -/
def TIL_STATUS (n : Nat) : Nat := 0x7F200000000 + n * 0x1000000
def TIL_STATUS_STATE : Fld := ⟨2, 0⟩
def TIL_STATUS_BIND_PEND : Fld := ⟨3, 3⟩
def TIL_STATUS_HANDLE : Fld := ⟨11, 4⟩
def TIL_STATUS_PHYS : Fld := ⟨18, 12⟩
def TIL_STATUS_DIE : Fld := ⟨19, 19⟩
def TIL_STATUS_DIGEST_LO : Fld := ⟨63, 32⟩

/-- spec/02: register array, n < 96. -/
def TIL_ERR (n : Nat) : Nat := 0x7F200000010 + n * 0x1000000
def TIL_ERR_ACCESS : Fld := ⟨15, 0⟩
def TIL_ERR_TS_REMAP : Fld := ⟨31, 16⟩
def TIL_ERR_PORT_ERR : Fld := ⟨47, 32⟩
def TIL_ERR_TS_OFFLINE : Fld := ⟨63, 48⟩

/-- spec/02: register array, n < 96. -/
def TIL_BANK_STALL (n : Nat) : Nat := 0x7F200000018 + n * 0x1000000
def TIL_BANK_STALL_CYCLES : Fld := ⟨63, 0⟩

/-- spec/02: register array, n < 96, q < 8. -/
def TIL_DMA_STAT (n q : Nat) : Nat := 0x7F200000100 + n * 0x1000000 + q * 0x8
def TIL_DMA_STAT_OCC : Fld := ⟨6, 0⟩
def TIL_DMA_STAT_HALTED : Fld := ⟨7, 7⟩
def TIL_DMA_STAT_ERR : Fld := ⟨11, 8⟩
def TIL_DMA_STAT_RESUME : Fld := ⟨12, 12⟩
def TIL_DMA_STAT_FLUSH : Fld := ⟨13, 13⟩
def TIL_DMA_STAT_POISON : Fld := ⟨29, 14⟩
def TIL_DMA_STAT_DONE : Fld := ⟨63, 32⟩

/-- spec/02: register array, n < 96, p < 8. -/
def TIL_PORT_STAT (n p : Nat) : Nat := 0x7F200000200 + n * 0x1000000 + p * 0x8
def TIL_PORT_STAT_STATE : Fld := ⟨1, 0⟩
def TIL_PORT_STAT_DIR : Fld := ⟨2, 2⟩
def TIL_PORT_STAT_PEER_TILE : Fld := ⟨15, 8⟩
def TIL_PORT_STAT_PEER_PORT : Fld := ⟨18, 16⟩
def TIL_PORT_STAT_STALL : Fld := ⟨63, 32⟩

/-- spec/02: register. -/
def TIL_FACET_BASE : Nat := 0x7F270000000
def TIL_FACET_BASE_LOCK : Fld := ⟨0, 0⟩
def TIL_FACET_BASE_BASE : Fld := ⟨55, 26⟩

/-- spec/02: register array, n < 96. -/
def TIL_MAP (n : Nat) : Nat := 0x7F270000100 + n * 0x8
def TIL_MAP_PHYS : Fld := ⟨6, 0⟩
def TIL_MAP_STATE : Fld := ⟨10, 8⟩
def TIL_MAP_SPARED : Fld := ⟨11, 11⟩

/-- spec/02: register array, g < 16. -/
def TIL_GROUP_LO (g : Nat) : Nat := 0x7F270000400 + g * 0x10
def TIL_GROUP_LO_MEMBERS_LO : Fld := ⟨63, 0⟩

/-- spec/02: register array, g < 16. -/
def TIL_GROUP_HI (g : Nat) : Nat := 0x7F270000408 + g * 0x10
def TIL_GROUP_HI_MEMBERS_HI : Fld := ⟨31, 0⟩
def TIL_GROUP_HI_RING : Fld := ⟨41, 32⟩
def TIL_GROUP_HI_ENABLE : Fld := ⟨42, 42⟩
def TIL_GROUP_HI_BUSY : Fld := ⟨43, 43⟩

/-- spec/02: register. -/
def TIL_SPARE : Nat := 0x7F270000500
def TIL_SPARE_C0_FREE : Fld := ⟨2, 0⟩
def TIL_SPARE_C1_FREE : Fld := ⟨6, 4⟩
def TIL_SPARE_C0_ACTIVE : Fld := ⟨15, 8⟩
def TIL_SPARE_C1_ACTIVE : Fld := ⟨23, 16⟩

/-- spec/02: register. -/
def TIL_DISP_DEFER : Nat := 0x7F270000508
def TIL_DISP_DEFER_COUNT : Fld := ⟨63, 0⟩

/-- spec/03: register array, n < 96. -/
def ARR_CFG (n : Nat) : Nat := 0x7F200001000 + n * 0x1000000
def ARR_CFG_MVP_EN : Fld := ⟨0, 0⟩

/-- spec/03: register array, n < 96. -/
def ARR_STAT (n : Nat) : Nat := 0x7F200001008 + n * 0x1000000
def ARR_STAT_DESC_ARRAY : Fld := ⟨23, 0⟩
def ARR_STAT_DESC_MVP : Fld := ⟨47, 24⟩
def ARR_STAT_DESC_EMPTY : Fld := ⟨63, 48⟩

/-- spec/03: register array, n < 96. -/
def ARR_BUSY (n : Nat) : Nat := 0x7F200001010 + n * 0x1000000
def ARR_BUSY_CLOCKS : Fld := ⟨63, 0⟩

/-- spec/03: register array, n < 96. -/
def ARR_STALL (n : Nat) : Nat := 0x7F200001018 + n * 0x1000000
def ARR_STALL_FILL : Fld := ⟨31, 0⟩
def ARR_STALL_OPND : Fld := ⟨63, 32⟩

/-- spec/03: register array, n < 96. -/
def ARR_MACS (n : Nat) : Nat := 0x7F200001020 + n * 0x1000000
def ARR_MACS_COUNT : Fld := ⟨63, 0⟩

/-- spec/03: register array, n < 96. -/
def ARR_CONV_STALL (n : Nat) : Nat := 0x7F200001028 + n * 0x1000000
def ARR_CONV_STALL_CLOVER : Fld := ⟨31, 0⟩
def ARR_CONV_STALL_OTHER : Fld := ⟨63, 32⟩

/-- spec/03: register array, n < 96. -/
def ARR_ERR (n : Nat) : Nat := 0x7F200001030 + n * 0x1000000
def ARR_ERR_MALFORMED : Fld := ⟨15, 0⟩
def ARR_ERR_FAULT : Fld := ⟨31, 16⟩
def ARR_ERR_POISON : Fld := ⟨47, 32⟩
def ARR_ERR_GUARD : Fld := ⟨63, 48⟩

/-- spec/04: register array, n < 96. -/
def ARR_CVT (n : Nat) : Nat := 0x7F200001038 + n * 0x1000000
def ARR_CVT_SAT_ELEM : Fld := ⟨15, 0⟩
def ARR_CVT_INF_ELEM : Fld := ⟨31, 16⟩
def ARR_CVT_NAN_BLK : Fld := ⟨47, 32⟩
def ARR_CVT_IN_OVF : Fld := ⟨63, 48⟩

/-- spec/05: register array, n < 96. -/
def ARR_OVF (n : Nat) : Nat := 0x7F200001040 + n * 0x1000000
def ARR_OVF_RESCALED : Fld := ⟨15, 0⟩
def ARR_OVF_TWICE : Fld := ⟨31, 16⟩
def ARR_OVF_RESIDUAL_BLK : Fld := ⟨47, 32⟩

/-- spec/05: register array, n < 96. -/
def ARR_RPL_CLK (n : Nat) : Nat := 0x7F200001048 + n * 0x1000000
def ARR_RPL_CLK_CLOCKS : Fld := ⟨63, 0⟩

/-- spec/06: register array, n < 96. -/
def UMB_CFG (n : Nat) : Nat := 0x7F200002000 + n * 0x1000000
def UMB_CFG_RC_EN : Fld := ⟨0, 0⟩
def UMB_CFG_L1_EN : Fld := ⟨1, 1⟩

/-- spec/06: register array, n < 96. -/
def UMB_STATUS (n : Nat) : Nat := 0x7F200002008 + n * 0x1000000
def UMB_STATUS_RESIDENT : Fld := ⟨5, 0⟩
def UMB_STATUS_LIMIT : Fld := ⟨11, 6⟩
def UMB_STATUS_RUNNING : Fld := ⟨12, 12⟩
def UMB_STATUS_ABORTING : Fld := ⟨13, 13⟩
def UMB_STATUS_BOUNDARY : Fld := ⟨14, 14⟩
def UMB_STATUS_KERNELS : Fld := ⟨63, 32⟩

/-- spec/06: register array, n < 96. -/
def UMB_ISSUE (n : Nat) : Nat := 0x7F200002010 + n * 0x1000000
def UMB_ISSUE_INSTR : Fld := ⟨63, 0⟩

/-- spec/06: register array, n < 96. -/
def UMB_RC (n : Nat) : Nat := 0x7F200002018 + n * 0x1000000
def UMB_RC_HIT : Fld := ⟨31, 0⟩
def UMB_RC_FILL : Fld := ⟨63, 32⟩

/-- spec/06: register array, n < 96. -/
def UMB_STALL (n : Nat) : Nat := 0x7F200002020 + n * 0x1000000
def UMB_STALL_BANK : Fld := ⟨31, 0⟩
def UMB_STALL_IDLE_SLOT : Fld := ⟨63, 32⟩

/-- spec/06: register array, n < 96. -/
def UMB_DIV (n : Nat) : Nat := 0x7F200002028 + n * 0x1000000
def UMB_DIV_SPLITS : Fld := ⟨31, 0⟩
def UMB_DIV_PARTIAL : Fld := ⟨63, 32⟩

/-- spec/06: register array, n < 96. -/
def UMB_L1 (n : Nat) : Nat := 0x7F200002030 + n * 0x1000000
def UMB_L1_HIT : Fld := ⟨31, 0⟩
def UMB_L1_MISS : Fld := ⟨63, 32⟩

/-- spec/06: register array, n < 96. -/
def UMB_L1_WB (n : Nat) : Nat := 0x7F200002038 + n * 0x1000000
def UMB_L1_WB_LINES : Fld := ⟨31, 0⟩
def UMB_L1_WB_BOUNDARY_CLK : Fld := ⟨63, 32⟩

/-- spec/06: register array, n < 96. -/
def UMB_ATOM (n : Nat) : Nat := 0x7F200002040 + n * 0x1000000
def UMB_ATOM_RMW : Fld := ⟨31, 0⟩
def UMB_ATOM_SERIAL : Fld := ⟨63, 32⟩

/-- spec/06: register array, n < 96. -/
def UMB_EXC0 (n : Nat) : Nat := 0x7F200002048 + n * 0x1000000
def UMB_EXC0_CAUSE : Fld := ⟨7, 0⟩
def UMB_EXC0_UMBEL : Fld := ⟨12, 8⟩
def UMB_EXC0_VALID : Fld := ⟨13, 13⟩
def UMB_EXC0_POISON : Fld := ⟨14, 14⟩
def UMB_EXC0_LOST : Fld := ⟨18, 15⟩
def UMB_EXC0_MASK : Fld := ⟨63, 32⟩

/-- spec/06: register array, n < 96. -/
def UMB_EXC1 (n : Nat) : Nat := 0x7F200002050 + n * 0x1000000
def UMB_EXC1_EPC : Fld := ⟨63, 0⟩

/-- spec/06: register array, n < 96. -/
def UMB_EXC2 (n : Nat) : Nat := 0x7F200002058 + n * 0x1000000
def UMB_EXC2_TVAL : Fld := ⟨63, 0⟩

/-- spec/07: register array, n < 96. -/
def UMB_SYNC (n : Nat) : Nat := 0x7F200002060 + n * 0x1000000
def UMB_SYNC_BAR_WAIT : Fld := ⟨31, 0⟩
def UMB_SYNC_SEM_WAIT : Fld := ⟨63, 32⟩

/-- spec/07: register array, n < 96. -/
def TIL_SEQ_STAT (n : Nat) : Nat := 0x7F200003000 + n * 0x1000000
def TIL_SEQ_STAT_PC : Fld := ⟨12, 0⟩
def TIL_SEQ_STAT_HELD : Fld := ⟨13, 13⟩
def TIL_SEQ_STAT_WAIT_KIND : Fld := ⟨16, 14⟩
def TIL_SEQ_STAT_CLV_OCC : Fld := ⟨19, 17⟩
def TIL_SEQ_STAT_INSTR : Fld := ⟨63, 32⟩

/-- spec/07: register array, n < 96. -/
def TIL_SEQ_ERR (n : Nat) : Nat := 0x7F200003008 + n * 0x1000000
def TIL_SEQ_ERR_CODE : Fld := ⟨3, 0⟩
def TIL_SEQ_ERR_PC : Fld := ⟨16, 4⟩
def TIL_SEQ_ERR_COUNT : Fld := ⟨47, 32⟩

/-- spec/05: register array, d < 2. -/
def LOU_CFG (d : Nat) : Nat := 0x7F610000000 + d * 0x100000
def LOU_CFG_EN : Fld := ⟨0, 0⟩
def LOU_CFG_RATE : Fld := ⟨5, 1⟩
def LOU_CFG_ACTION : Fld := ⟨7, 6⟩
def LOU_CFG_SCOPE : Fld := ⟨8, 8⟩
def LOU_CFG_THRESH : Fld := ⟨23, 16⟩
def LOU_CFG_SEED : Fld := ⟨63, 32⟩

/-- spec/05: register array, d < 2. -/
def LOU_CTL (d : Nat) : Nat := 0x7F610000008 + d * 0x100000
def LOU_CTL_RESUME : Fld := ⟨0, 0⟩
def LOU_CTL_CLEAR : Fld := ⟨1, 1⟩
def LOU_CTL_POP : Fld := ⟨2, 2⟩

/-- spec/05: register array, d < 2. -/
def LOU_STAT (d : Nat) : Nat := 0x7F610000010 + d * 0x100000
def LOU_STAT_CHECKED : Fld := ⟨31, 0⟩
def LOU_STAT_DROP_BUSY : Fld := ⟨47, 32⟩
def LOU_STAT_DROP_BIST : Fld := ⟨63, 48⟩

/-- spec/05: register array, d < 2. -/
def LOU_STAT2 (d : Nat) : Nat := 0x7F610000018 + d * 0x100000
def LOU_STAT2_REPEAT : Fld := ⟨15, 0⟩
def LOU_STAT2_SKIP_POISON : Fld := ⟨31, 16⟩
def LOU_STAT2_REC_LOST : Fld := ⟨47, 32⟩
def LOU_STAT2_HALTED : Fld := ⟨48, 48⟩
def LOU_STAT2_BIST_OWNS : Fld := ⟨49, 49⟩
def LOU_STAT2_REC_CNT : Fld := ⟨54, 50⟩

/-- spec/05: register array, d < 2, f < 4. -/
def LOU_FMT_CNT (d f : Nat) : Nat := 0x7F610000100 + d * 0x100000 + f * 0x8
def LOU_FMT_CNT_CNT0 : Fld := ⟨15, 0⟩
def LOU_FMT_CNT_CNT1 : Fld := ⟨31, 16⟩
def LOU_FMT_CNT_CNT2 : Fld := ⟨47, 32⟩
def LOU_FMT_CNT_CNT3 : Fld := ⟨63, 48⟩

/-- spec/05: register array, d < 2, t < 64. -/
def LOU_TAG_CNT (d t : Nat) : Nat := 0x7F610000200 + d * 0x100000 + t * 0x8
def LOU_TAG_CNT_CNT0 : Fld := ⟨15, 0⟩
def LOU_TAG_CNT_CNT1 : Fld := ⟨31, 16⟩
def LOU_TAG_CNT_CNT2 : Fld := ⟨47, 32⟩
def LOU_TAG_CNT_CNT3 : Fld := ⟨63, 48⟩

/-- spec/05: register array, d < 2, t < 12. -/
def LOU_TILE_CNT (d t : Nat) : Nat := 0x7F610000400 + d * 0x100000 + t * 0x8
def LOU_TILE_CNT_CNT0 : Fld := ⟨15, 0⟩
def LOU_TILE_CNT_CNT1 : Fld := ⟨31, 16⟩
def LOU_TILE_CNT_CNT2 : Fld := ⟨47, 32⟩
def LOU_TILE_CNT_CNT3 : Fld := ⟨63, 48⟩

/-- spec/05: register array, d < 2, w < 4. -/
def LOU_REC (d w : Nat) : Nat := 0x7F610000800 + d * 0x100000 + w * 0x8
def LOU_REC_WORD : Fld := ⟨63, 0⟩

/-- spec/08: register. -/
def EPO_MODE : Nat := 0x7F600000000
def EPO_MODE_RESIL : Fld := ⟨0, 0⟩
def EPO_MODE_DET : Fld := ⟨1, 1⟩
def EPO_MODE_REFUSED : Fld := ⟨2, 2⟩
def EPO_MODE_REF_CAUSE : Fld := ⟨4, 3⟩
def EPO_MODE_OPEN_CNT : Fld := ⟨14, 8⟩

/-- spec/08: register array, d < 2. -/
def EPO_LEDGER_CFG (d : Nat) : Nat := 0x7F600000100 + d * 0x40
def EPO_LEDGER_CFG_SIZE : Fld := ⟨4, 0⟩
def EPO_LEDGER_CFG_LOCK : Fld := ⟨5, 5⟩

/-- spec/08: register array, d < 2. -/
def EPO_LEDGER_CLR (d : Nat) : Nat := 0x7F600000108 + d * 0x40
def EPO_LEDGER_CLR_FIRST : Fld := ⟨17, 0⟩
def EPO_LEDGER_CLR_COUNT : Fld := ⟨35, 18⟩
def EPO_LEDGER_CLR_GO : Fld := ⟨36, 36⟩
def EPO_LEDGER_CLR_BUSY : Fld := ⟨37, 37⟩

/-- spec/08: register array, d < 2. -/
def EPO_LEDGER_STAT (d : Nat) : Nat := 0x7F600000110 + d * 0x40
def EPO_LEDGER_STAT_READ_NAN : Fld := ⟨15, 0⟩
def EPO_LEDGER_STAT_OVF : Fld := ⟨31, 16⟩
def EPO_LEDGER_STAT_REFUSED : Fld := ⟨47, 32⟩

/-- spec/08: register array, n < 96. -/
def EPO_STAT (n : Nat) : Nat := 0x7F600010000 + n * 0x200
def EPO_STAT_STATE : Fld := ⟨1, 0⟩
def EPO_STAT_UNPROT : Fld := ⟨2, 2⟩
def EPO_STAT_NOREPLAY : Fld := ⟨3, 3⟩
def EPO_STAT_GAP_DIRTY : Fld := ⟨4, 4⟩
def EPO_STAT_FROZEN : Fld := ⟨5, 5⟩
def EPO_STAT_KERNEL : Fld := ⟨6, 6⟩
def EPO_STAT_JCOUNT : Fld := ⟨19, 7⟩
def EPO_STAT_TIMER : Fld := ⟨49, 32⟩

/-- spec/08: register array, n < 96. -/
def EPO_NUM (n : Nat) : Nat := 0x7F600010008 + n * 0x200
def EPO_NUM_NUMBER : Fld := ⟨62, 0⟩

/-- spec/08: register array, n < 96. -/
def EPO_ERR (n : Nat) : Nat := 0x7F600010010 + n * 0x200
def EPO_ERR_OVERRUN : Fld := ⟨15, 0⟩
def EPO_ERR_JFULL : Fld := ⟨31, 16⟩
def EPO_ERR_AUTOCOMMIT : Fld := ⟨47, 32⟩
def EPO_ERR_DUP : Fld := ⟨63, 48⟩

/-- spec/08: register array, n < 96. -/
def EPO_RPL (n : Nat) : Nat := 0x7F600010018 + n * 0x200
def EPO_RPL_COUNT : Fld := ⟨15, 0⟩
def EPO_RPL_LAST_US : Fld := ⟨31, 16⟩
def EPO_RPL_LOST : Fld := ⟨47, 32⟩
def EPO_RPL_PUB_FAIL : Fld := ⟨63, 48⟩

/-- spec/08: register array, n < 96. -/
def EPO_CTL (n : Nat) : Nat := 0x7F600010020 + n * 0x200
def EPO_CTL_RELEASE : Fld := ⟨0, 0⟩
def EPO_CTL_FLUSH : Fld := ⟨1, 1⟩

/-- spec/08: register array, n < 96, g < 16. -/
def EPO_GUARD_LO (n g : Nat) : Nat := 0x7F600010100 + n * 0x200 + g * 0x10
def EPO_GUARD_LO_LO : Fld := ⟨55, 0⟩

/-- spec/08: register array, n < 96, g < 16. -/
def EPO_GUARD_HI (n g : Nat) : Nat := 0x7F600010108 + n * 0x200 + g * 0x10
def EPO_GUARD_HI_HI : Fld := ⟨55, 0⟩

/-- spec/09: register. -/
def SPW_TIER_CFG : Nat := 0x7F620000000
def SPW_TIER_CFG_MODE : Fld := ⟨0, 0⟩
def SPW_TIER_CFG_DIRECT : Fld := ⟨10, 1⟩
def SPW_TIER_CFG_SHIELD : Fld := ⟨11, 11⟩
def SPW_TIER_CFG_LOCK : Fld := ⟨12, 12⟩
def SPW_TIER_CFG_REFUSED : Fld := ⟨13, 13⟩

/-- spec/09: register. -/
def SPW_TIER_DIR : Nat := 0x7F620000008
def SPW_TIER_DIR_BASE : Fld := ⟨55, 26⟩

/-- spec/09: register. -/
def SPW_TIER_STAT : Nat := 0x7F620000010
def SPW_TIER_STAT_DEMAND_LO : Fld := ⟨31, 0⟩
def SPW_TIER_STAT_WR_HOLD : Fld := ⟨47, 32⟩

/-- spec/09: register. -/
def SPW_FRAMES : Nat := 0x7F620000018
def SPW_FRAMES_TOTAL : Fld := ⟨18, 0⟩
def SPW_FRAMES_FREE : Fld := ⟨50, 32⟩

/-- spec/09: register. -/
def SPW_OBJ_BASE : Nat := 0x7F620000020
def SPW_OBJ_BASE_BASE : Fld := ⟨55, 6⟩

/-- spec/09: register. -/
def SPW_OBJ_CNT : Nat := 0x7F620000028
def SPW_OBJ_CNT_COUNT : Fld := ⟨12, 0⟩

/-- spec/09: register. -/
def SPW_STAT : Nat := 0x7F620000030
def SPW_STAT_ACTIVE : Fld := ⟨0, 0⟩
def SPW_STAT_PENDING : Fld := ⟨1, 1⟩
def SPW_STAT_GEN_LAST : Fld := ⟨61, 32⟩

/-- spec/09: register. -/
def SPW_CNT : Nat := 0x7F620000038
def SPW_CNT_LATE : Fld := ⟨15, 0⟩
def SPW_CNT_DEFER : Fld := ⟨31, 16⟩
def SPW_CNT_REFUSED_INUSE : Fld := ⟨47, 32⟩
def SPW_CNT_CANCELLED : Fld := ⟨63, 48⟩

/-- spec/09: register. -/
def SPW_CNT2 : Nat := 0x7F620000040
def SPW_CNT2_LEFTOVER : Fld := ⟨15, 0⟩
def SPW_CNT2_BAD_REF : Fld := ⟨31, 16⟩
def SPW_CNT2_POISON_GRAN : Fld := ⟨47, 32⟩

/-- spec/09: register. -/
def SPW_STALL : Nat := 0x7F620000048
def SPW_STALL_US : Fld := ⟨63, 0⟩

/-- spec/09: register. -/
def SPW_MOVED : Nat := 0x7F620000050
def SPW_MOVED_GRANULES : Fld := ⟨63, 0⟩

/-- spec/09: register. -/
def SPW_LATE_REC0 : Nat := 0x7F620000058
def SPW_LATE_REC0_OBJECT : Fld := ⟨11, 0⟩
def SPW_LATE_REC0_VALID : Fld := ⟨12, 12⟩
def SPW_LATE_REC0_STREAMED : Fld := ⟨13, 13⟩
def SPW_LATE_REC0_GRAN_LEFT : Fld := ⟨31, 16⟩
def SPW_LATE_REC0_LAYER : Fld := ⟨63, 32⟩

/-- spec/09: register. -/
def SPW_LATE_REC1 : Nat := 0x7F620000060
def SPW_LATE_REC1_DEADLINE : Fld := ⟨62, 0⟩

/-- spec/09: register. -/
def SPW_CTL : Nat := 0x7F620000068
def SPW_CTL_CLEAR_FAILED : Fld := ⟨0, 0⟩
def SPW_CTL_ABORT : Fld := ⟨1, 1⟩

/-- spec/10: register. -/
def CCH_REPL : Nat := 0x7F500000000
def CCH_REPL_L3 : Fld := ⟨0, 0⟩
def CCH_REPL_SC0 : Fld := ⟨1, 1⟩
def CCH_REPL_SC1 : Fld := ⟨2, 2⟩
def CCH_REPL_STREAM_EN : Fld := ⟨3, 3⟩
def CCH_REPL_LOCK : Fld := ⟨4, 4⟩
def CCH_REPL_REFUSED : Fld := ⟨5, 5⟩

/-- spec/10: register. -/
def CCH_LEASE_CFG : Nat := 0x7F500000008
def CCH_LEASE_CFG_EN0 : Fld := ⟨0, 0⟩
def CCH_LEASE_CFG_EN1 : Fld := ⟨1, 1⟩
def CCH_LEASE_CFG_HOLDOFF : Fld := ⟨15, 4⟩

/-- spec/10: register. -/
def CCH_MNT_CTL : Nat := 0x7F500000010
def CCH_MNT_CTL_OP : Fld := ⟨1, 0⟩
def CCH_MNT_CTL_MODE : Fld := ⟨3, 2⟩
def CCH_MNT_CTL_TARGET : Fld := ⟨5, 4⟩
def CCH_MNT_CTL_GO : Fld := ⟨6, 6⟩
def CCH_MNT_CTL_BUSY : Fld := ⟨7, 7⟩
def CCH_MNT_CTL_DONE : Fld := ⟨8, 8⟩
def CCH_MNT_CTL_ERR : Fld := ⟨9, 9⟩

/-- spec/10: register. -/
def CCH_MNT_LO : Nat := 0x7F500000018
def CCH_MNT_LO_START : Fld := ⟨55, 6⟩
def CCH_MNT_LO_SLICE : Fld := ⟨4, 0⟩
def CCH_MNT_LO_SET : Fld := ⟨16, 5⟩
def CCH_MNT_LO_WAY : Fld := ⟨20, 17⟩

/-- spec/10: register. -/
def CCH_MNT_HI : Nat := 0x7F500000020
def CCH_MNT_HI_END : Fld := ⟨55, 6⟩
def CCH_MNT_HI_COUNT : Fld := ⟨20, 0⟩

/-- spec/10: register. -/
def CCH_RRB_CFG : Nat := 0x7F500000028
def CCH_RRB_CFG_EN_H : Fld := ⟨0, 0⟩
def CCH_RRB_CFG_EN_C0 : Fld := ⟨1, 1⟩
def CCH_RRB_CFG_EN_C1 : Fld := ⟨2, 2⟩
def CCH_RRB_CFG_TTL : Fld := ⟨15, 4⟩

/-- spec/10: register. -/
def CCH_RRB_INV : Nat := 0x7F500000030
def CCH_RRB_INV_GO : Fld := ⟨0, 0⟩
def CCH_RRB_INV_BY_NODE : Fld := ⟨1, 1⟩
def CCH_RRB_INV_BUSY : Fld := ⟨2, 2⟩
def CCH_RRB_INV_NODE : Fld := ⟨28, 16⟩

/-- spec/10: register array, c < 3. -/
def CCH_ERR (c : Nat) : Nat := 0x7F500000100 + c * 0x20
def CCH_ERR_CORR : Fld := ⟨15, 0⟩
def CCH_ERR_UNCORR : Fld := ⟨31, 16⟩
def CCH_ERR_TAG_CLEAN : Fld := ⟨47, 32⟩
def CCH_ERR_TAG_DIRTY : Fld := ⟨63, 48⟩

/-- spec/10: register array, d < 2. -/
def CCH_SC_CARVE (d : Nat) : Nat := 0x7F500000200 + d * 0x10
def CCH_SC_CARVE_SCRATCH_WAYS : Fld := ⟨3, 0⟩
def CCH_SC_CARVE_LEDGER_WAYS : Fld := ⟨5, 4⟩
def CCH_SC_CARVE_LOCK : Fld := ⟨6, 6⟩
def CCH_SC_CARVE_REFUSED : Fld := ⟨7, 7⟩
def CCH_SC_CARVE_CACHE_WAYS : Fld := ⟨12, 8⟩

/-- spec/10: register array, d < 2. -/
def CCH_LEASE_STAT (d : Nat) : Nat := 0x7F500000208 + d * 0x10
def CCH_LEASE_STAT_GRANT : Fld := ⟨15, 0⟩
def CCH_LEASE_STAT_RECALL : Fld := ⟨31, 16⟩
def CCH_LEASE_STAT_HOLDOFF : Fld := ⟨47, 32⟩

/-- spec/10: register. -/
def CCH_HOME_STAT : Nat := 0x7F500000300
def CCH_HOME_STAT_STALE_WB : Fld := ⟨15, 0⟩
def CCH_HOME_STAT_STRAY : Fld := ⟨31, 16⟩
def CCH_HOME_STAT_BACK_INV : Fld := ⟨47, 32⟩
def CCH_HOME_STAT_STANDIN_POISON : Fld := ⟨63, 48⟩

/-- spec/11: register array, s < 12. -/
def HBM_CTL (s : Nat) : Nat := 0x7F300000000 + s * 0x1000000
def HBM_CTL_QUIESCE : Fld := ⟨0, 0⟩
def HBM_CTL_Q_REFUSED : Fld := ⟨1, 1⟩
def HBM_CTL_MARK_THRESH : Fld := ⟨9, 2⟩
def HBM_CTL_SCRUB_H : Fld := ⟨23, 16⟩

/-- spec/11: register array, s < 12. -/
def HBM_STAT (s : Nat) : Nat := 0x7F300000008 + s * 0x1000000
def HBM_STAT_FAILED : Fld := ⟨0, 0⟩
def HBM_STAT_QUIESCED : Fld := ⟨1, 1⟩
def HBM_STAT_REBUILDING : Fld := ⟨2, 2⟩
def HBM_STAT_Q_ACC : Fld := ⟨31, 16⟩
def HBM_STAT_SCRUB_PASSES : Fld := ⟨63, 32⟩

/-- spec/11: register array, s < 12. -/
def HBM_FAIL_PC (s : Nat) : Nat := 0x7F300000010 + s * 0x1000000
def HBM_FAIL_PC_PC : Fld := ⟨63, 0⟩

/-- spec/11: register array, s < 12. -/
def HBM_ECC (s : Nat) : Nat := 0x7F300000018 + s * 0x1000000
def HBM_ECC_SEV_CORR : Fld := ⟨15, 0⟩
def HBM_ECC_OUTER_CORR : Fld := ⟨31, 16⟩
def HBM_ECC_ERASURE : Fld := ⟨47, 32⟩
def HBM_ECC_UNCORR : Fld := ⟨63, 48⟩

/-- spec/11: register array, s < 12. -/
def HBM_ECC2 (s : Nat) : Nat := 0x7F300000020 + s * 0x1000000
def HBM_ECC2_POISON_RD : Fld := ⟨15, 0⟩
def HBM_ECC2_FAILED_WR : Fld := ⟨31, 16⟩
def HBM_ECC2_SCRUB_FIX : Fld := ⟨47, 32⟩
def HBM_ECC2_MARKS : Fld := ⟨63, 48⟩

/-- spec/11: register array, s < 12. -/
def HBM_ERR_REC0 (s : Nat) : Nat := 0x7F300000028 + s * 0x1000000
def HBM_ERR_REC0_PC : Fld := ⟨5, 0⟩
def HBM_ERR_REC0_BANK : Fld := ⟨11, 6⟩
def HBM_ERR_REC0_ROW : Fld := ⟨25, 12⟩
def HBM_ERR_REC0_COLUMN : Fld := ⟨29, 26⟩
def HBM_ERR_REC0_VALID : Fld := ⟨30, 30⟩
def HBM_ERR_REC0_KIND : Fld := ⟨33, 31⟩
def HBM_ERR_REC0_LOST : Fld := ⟨37, 34⟩

/-- spec/11: register array, s < 12. -/
def HBM_ERR_REC1 (s : Nat) : Nat := 0x7F300000030 + s * 0x1000000
def HBM_ERR_REC1_PA : Fld := ⟨55, 0⟩

/-- spec/11: register array, s < 12. -/
def HBM_ERR_REC2 (s : Nat) : Nat := 0x7F300000038 + s * 0x1000000
def HBM_ERR_REC2_LIFE : Fld := ⟨63, 0⟩

/-- spec/11: register array, s < 12. -/
def HBM_WCB_CTL (s : Nat) : Nat := 0x7F300000080 + s * 0x1000000
def HBM_WCB_CTL_DEADLINE : Fld := ⟨15, 0⟩
def HBM_WCB_CTL_EN : Fld := ⟨16, 16⟩

/-- spec/11: register array, s < 12. -/
def HBM_WCB_STAT (s : Nat) : Nat := 0x7F300000088 + s * 0x1000000
def HBM_WCB_STAT_OCC : Fld := ⟨7, 0⟩
def HBM_WCB_STAT_POCC : Fld := ⟨13, 8⟩
def HBM_WCB_STAT_RMW_DEADLINE : Fld := ⟨31, 16⟩
def HBM_WCB_STAT_RMW_EVICT : Fld := ⟨47, 32⟩
def HBM_WCB_STAT_PAR_WAIT : Fld := ⟨63, 48⟩

/-- spec/11: register array, s < 12. -/
def HBM_WCB_STAT2 (s : Nat) : Nat := 0x7F300000090 + s * 0x1000000
def HBM_WCB_STAT2_MERGED_FULL : Fld := ⟨31, 0⟩
def HBM_WCB_STAT2_SHD_WR : Fld := ⟨63, 32⟩

/-- spec/11: register array, s < 12. -/
def HBM_THR_CFG (s : Nat) : Nat := 0x7F300000098 + s * 0x1000000
def HBM_THR_CFG_T1 : Fld := ⟨7, 0⟩
def HBM_THR_CFG_T2 : Fld := ⟨15, 8⟩
def HBM_THR_CFG_T3 : Fld := ⟨23, 16⟩
def HBM_THR_CFG_T4 : Fld := ⟨31, 24⟩
def HBM_THR_CFG_TRIP : Fld := ⟨39, 32⟩
def HBM_THR_CFG_HYST : Fld := ⟨43, 40⟩

/-- spec/11: register array, s < 12. -/
def HBM_THR_STAT (s : Nat) : Nat := 0x7F3000000A0 + s * 0x1000000
def HBM_THR_STAT_TEMP : Fld := ⟨7, 0⟩
def HBM_THR_STAT_TMAX : Fld := ⟨15, 8⟩
def HBM_THR_STAT_STEP : Fld := ⟨18, 16⟩
def HBM_THR_STAT_TRIPPED : Fld := ⟨19, 19⟩
def HBM_THR_STAT_THR_US : Fld := ⟨63, 32⟩

/-- spec/11: register array, s < 12. -/
def HBM_REPAIR (s : Nat) : Nat := 0x7F3000000A8 + s * 0x1000000
def HBM_REPAIR_OP : Fld := ⟨2, 0⟩
def HBM_REPAIR_PC : Fld := ⟨8, 3⟩
def HBM_REPAIR_BANK : Fld := ⟨14, 9⟩
def HBM_REPAIR_ROW : Fld := ⟨28, 15⟩
def HBM_REPAIR_DQ : Fld := ⟨34, 29⟩
def HBM_REPAIR_GO : Fld := ⟨35, 35⟩

/-- spec/11: register array, s < 12. -/
def HBM_REPAIR_STAT (s : Nat) : Nat := 0x7F3000000B0 + s * 0x1000000
def HBM_REPAIR_STAT_BUSY : Fld := ⟨0, 0⟩
def HBM_REPAIR_STAT_RESULT : Fld := ⟨3, 1⟩
def HBM_REPAIR_STAT_ROWS : Fld := ⟨7, 4⟩
def HBM_REPAIR_STAT_DQS : Fld := ⟨9, 8⟩

/-- spec/11: register array, s < 12. -/
def HBM_MRG_CTL (s : Nat) : Nat := 0x7F3000000B8 + s * 0x1000000
def HBM_MRG_CTL_PC : Fld := ⟨5, 0⟩
def HBM_MRG_CTL_GO : Fld := ⟨6, 6⟩
def HBM_MRG_CTL_BUSY : Fld := ⟨7, 7⟩
def HBM_MRG_CTL_RESULT : Fld := ⟨10, 8⟩
def HBM_MRG_CTL_READ_DQ : Fld := ⟨16, 11⟩

/-- spec/11: register array, s < 12. -/
def HBM_MRG_RES (s : Nat) : Nat := 0x7F3000000C0 + s * 0x1000000
def HBM_MRG_RES_LEFT : Fld := ⟨7, 0⟩
def HBM_MRG_RES_RIGHT : Fld := ⟨15, 8⟩
def HBM_MRG_RES_VLO : Fld := ⟨23, 16⟩
def HBM_MRG_RES_VHI : Fld := ⟨31, 24⟩
def HBM_MRG_RES_FAIL : Fld := ⟨32, 32⟩

/-- spec/11: register array, s < 12. -/
def HBM_REBUILD (s : Nat) : Nat := 0x7F3000000C8 + s * 0x1000000
def HBM_REBUILD_PC : Fld := ⟨5, 0⟩
def HBM_REBUILD_ALL : Fld := ⟨6, 6⟩
def HBM_REBUILD_GO : Fld := ⟨7, 7⟩
def HBM_REBUILD_BUSY : Fld := ⟨8, 8⟩
def HBM_REBUILD_ERR : Fld := ⟨9, 9⟩
def HBM_REBUILD_LINES : Fld := ⟨63, 32⟩

/-- spec/11: register array, s < 12, i < 8. -/
def HBM_MARK (s i : Nat) : Nat := 0x7F300000040 + s * 0x1000000 + i * 0x8
def HBM_MARK_LANE0 : Fld := ⟨3, 0⟩
def HBM_MARK_LANE1 : Fld := ⟨11, 8⟩
def HBM_MARK_LANE2 : Fld := ⟨19, 16⟩
def HBM_MARK_LANE3 : Fld := ⟨27, 24⟩
def HBM_MARK_LANE4 : Fld := ⟨35, 32⟩
def HBM_MARK_LANE5 : Fld := ⟨43, 40⟩
def HBM_MARK_LANE6 : Fld := ⟨51, 48⟩
def HBM_MARK_LANE7 : Fld := ⟨59, 56⟩
def HBM_MARK_VALID0 : Fld := ⟨4, 4⟩
def HBM_MARK_VALID1 : Fld := ⟨12, 12⟩
def HBM_MARK_VALID2 : Fld := ⟨20, 20⟩
def HBM_MARK_VALID3 : Fld := ⟨28, 28⟩
def HBM_MARK_VALID4 : Fld := ⟨36, 36⟩
def HBM_MARK_VALID5 : Fld := ⟨44, 44⟩
def HBM_MARK_VALID6 : Fld := ⟨52, 52⟩
def HBM_MARK_VALID7 : Fld := ⟨60, 60⟩

/-- spec/11: register array, x < 8. -/
def HBM_SHD_CFG (x : Nat) : Nat := 0x7F30F000000 + x * 0x10
def HBM_SHD_CFG_STRIPE : Fld := ⟨14, 0⟩
def HBM_SHD_CFG_GRANULES : Fld := ⟨33, 15⟩
def HBM_SHD_CFG_EN : Fld := ⟨34, 34⟩

/-- spec/11: register array, x < 8. -/
def HBM_SHD_STAT (x : Nat) : Nat := 0x7F30F000008 + x * 0x10
def HBM_SHD_STAT_INIT : Fld := ⟨0, 0⟩
def HBM_SHD_STAT_BAD : Fld := ⟨1, 1⟩
def HBM_SHD_STAT_REFUSED : Fld := ⟨2, 2⟩
def HBM_SHD_STAT_DEGRADED : Fld := ⟨3, 3⟩
def HBM_SHD_STAT_DATA : Fld := ⟨22, 4⟩

/-- spec/11: register. -/
def HBM_SHD_ERR : Nat := 0x7F30F000100
def HBM_SHD_ERR_RECON : Fld := ⟨15, 0⟩
def HBM_SHD_ERR_DEGR_WR : Fld := ⟨31, 16⟩
def HBM_SHD_ERR_STALE : Fld := ⟨47, 32⟩
def HBM_SHD_ERR_UNPROT : Fld := ⟨63, 48⟩

/-- spec/13: register. -/
def XLT_CTL : Nat := 0x7F580010000
def XLT_CTL_HOSTSIDE : Fld := ⟨0, 0⟩
def XLT_CTL_LOCK : Fld := ⟨1, 1⟩
def XLT_CTL_REFUSED : Fld := ⟨2, 2⟩
def XLT_CTL_MERGE_EN : Fld := ⟨3, 3⟩

/-- spec/13: register. -/
def XLT_PRI_CFG : Nat := 0x7F580010008
def XLT_PRI_CFG_TIMEOUT : Fld := ⟨15, 0⟩
def XLT_PRI_CFG_EN : Fld := ⟨16, 16⟩

/-- spec/13: register. -/
def XLT_APER : Nat := 0x7F580010010
def XLT_APER_VALID : Fld := ⟨0, 0⟩
def XLT_APER_BASE : Fld := ⟨63, 56⟩

/-- spec/13: register. -/
def XLT_ERR : Nat := 0x7F580010030
def XLT_ERR_FAULT : Fld := ⟨15, 0⟩
def XLT_ERR_LATE_PRGR : Fld := ⟨31, 16⟩
def XLT_ERR_WALK_POISON : Fld := ⟨47, 32⟩
def XLT_ERR_INV_RETRY : Fld := ⟨63, 48⟩

/-- spec/13: register array, d < 2. -/
def XLT_ATC_STAT (d : Nat) : Nat := 0x7F580010020 + d * 0x8
def XLT_ATC_STAT_MISS : Fld := ⟨31, 0⟩
def XLT_ATC_STAT_PRQ : Fld := ⟨47, 32⟩
def XLT_ATC_STAT_PRQ_TIMEOUT : Fld := ⟨63, 48⟩

/-- spec/13: register array, w < 512. -/
def XLT_IOMMU (w : Nat) : Nat := 0x7F580000000 + w * 0x8
def XLT_IOMMU_DATA : Fld := ⟨63, 0⟩

/-- spec/14: register. -/
def HIF_ADM_CFG : Nat := 0x7F100000000
def HIF_ADM_CFG_HBM_STEP : Fld := ⟨2, 0⟩
def HIF_ADM_CFG_HBM_LIMIT : Fld := ⟨19, 4⟩
def HIF_ADM_CFG_FGN_LIMIT : Fld := ⟨35, 20⟩
def HIF_ADM_CFG_CAP_DEFER : Fld := ⟨36, 36⟩

/-- spec/14: register. -/
def HIF_ADM_CNT : Nat := 0x7F100000008
def HIF_ADM_CNT_QFULL : Fld := ⟨15, 0⟩
def HIF_ADM_CNT_HBM : Fld := ⟨31, 16⟩
def HIF_ADM_CNT_FGN : Fld := ⟨47, 32⟩
def HIF_ADM_CNT_CAP : Fld := ⟨63, 48⟩

/-- spec/14: register. -/
def HIF_DB_ERR : Nat := 0x7F100000010
def HIF_DB_ERR_BAD_PAGE : Fld := ⟨15, 0⟩
def HIF_DB_ERR_BAD_RING : Fld := ⟨31, 16⟩
def HIF_DB_ERR_LAST_PAGE : Fld := ⟨41, 32⟩

/-- spec/14: register. -/
def HIF_PCIE_CFG : Nat := 0x7F100000018
def HIF_PCIE_CFG_BIF_A : Fld := ⟨1, 0⟩
def HIF_PCIE_CFG_BIF_B : Fld := ⟨3, 2⟩
def HIF_PCIE_CFG_CXL_EN : Fld := ⟨11, 4⟩
def HIF_PCIE_CFG_LOCK : Fld := ⟨12, 12⟩
def HIF_PCIE_CFG_REFUSED : Fld := ⟨13, 13⟩
def HIF_PCIE_CFG_PEER_BRIDGE : Fld := ⟨14, 14⟩
def HIF_PCIE_CFG_RP_P2P : Fld := ⟨15, 15⟩

/-- spec/14: register. -/
def HIF_PCIE_STAT : Nat := 0x7F100000020
def HIF_PCIE_STAT_EP_UP : Fld := ⟨0, 0⟩
def HIF_PCIE_STAT_RP_UP : Fld := ⟨15, 8⟩
def HIF_PCIE_STAT_RETRAIN : Fld := ⟨31, 16⟩
def HIF_PCIE_STAT_PEER_UR : Fld := ⟨47, 32⟩
def HIF_PCIE_STAT_INB_UR : Fld := ⟨63, 48⟩

/-- spec/14: register. -/
def HIF_HOSTLOST : Nat := 0x7F100000028
def HIF_HOSTLOST_LOST : Fld := ⟨0, 0⟩
def HIF_HOSTLOST_EVENTS : Fld := ⟨15, 8⟩
def HIF_HOSTLOST_ABANDONED : Fld := ⟨31, 16⟩
def HIF_HOSTLOST_WR_DROP : Fld := ⟨63, 32⟩

/-- spec/14: register. -/
def HIF_ATTACH : Nat := 0x7F100000030
def HIF_ATTACH_GO : Fld := ⟨0, 0⟩
def HIF_ATTACH_READY : Fld := ⟨1, 1⟩
def HIF_ATTACH_TIMED_OUT : Fld := ⟨2, 2⟩
def HIF_ATTACH_TIMEOUT_S : Fld := ⟨31, 16⟩

/-- spec/14: register. -/
def HIF_HOLD_CFG : Nat := 0x7F100000038
def HIF_HOLD_CFG_LOCK : Fld := ⟨0, 0⟩
def HIF_HOLD_CFG_BASE : Fld := ⟨55, 22⟩

/-- spec/14: register array, n < 1024. -/
def HIF_SQ_BASE (n : Nat) : Nat := 0x7F100010000 + n * 0x40
def HIF_SQ_BASE_BASE : Fld := ⟨63, 12⟩

/-- spec/14: register array, n < 1024. -/
def HIF_CQ_BASE (n : Nat) : Nat := 0x7F100010008 + n * 0x40
def HIF_CQ_BASE_BASE : Fld := ⟨63, 12⟩

/-- spec/14: register array, n < 1024. -/
def HIF_RING_CFG (n : Nat) : Nat := 0x7F100010010 + n * 0x40
def HIF_RING_CFG_EN : Fld := ⟨0, 0⟩
def HIF_RING_CFG_LOG2SIZE : Fld := ⟨5, 1⟩
def HIF_RING_CFG_PASID : Fld := ⟨25, 6⟩
def HIF_RING_CFG_PRIO : Fld := ⟨27, 26⟩
def HIF_RING_CFG_NOTICE_EN : Fld := ⟨28, 28⟩
def HIF_RING_CFG_IRQ_EN : Fld := ⟨29, 29⟩
def HIF_RING_CFG_VECTOR : Fld := ⟨40, 30⟩
def HIF_RING_CFG_LOC : Fld := ⟨41, 41⟩
def HIF_RING_CFG_COAL_CNT : Fld := ⟨55, 48⟩
def HIF_RING_CFG_COAL_US : Fld := ⟨63, 56⟩

/-- spec/14: register array, n < 1024. -/
def HIF_RING_STAT (n : Nat) : Nat := 0x7F100010018 + n * 0x40
def HIF_RING_STAT_STATE : Fld := ⟨2, 0⟩
def HIF_RING_STAT_CAUSE : Fld := ⟨6, 3⟩
def HIF_RING_STAT_CFG_REFUSED : Fld := ⟨7, 7⟩
def HIF_RING_STAT_PHASE : Fld := ⟨8, 8⟩
def HIF_RING_STAT_OUTSTANDING : Fld := ⟨31, 16⟩
def HIF_RING_STAT_HELD : Fld := ⟨47, 32⟩

/-- spec/14: register array, n < 1024. -/
def HIF_RING_PTR (n : Nat) : Nat := 0x7F100010020 + n * 0x40
def HIF_RING_PTR_SQ_HEAD : Fld := ⟨15, 0⟩
def HIF_RING_PTR_SQ_TAIL : Fld := ⟨31, 16⟩
def HIF_RING_PTR_CQ_TAIL : Fld := ⟨47, 32⟩
def HIF_RING_PTR_CQ_HEAD : Fld := ⟨63, 48⟩

/-- spec/14: register array, n < 1024. -/
def HIF_RING_DBST (n : Nat) : Nat := 0x7F100010028 + n * 0x40
def HIF_RING_DBST_LAST : Fld := ⟨3, 0⟩
def HIF_RING_DBST_REFUSED : Fld := ⟨31, 16⟩
def HIF_RING_DBST_ACCEPTED : Fld := ⟨63, 32⟩

/-- spec/14: register array, n < 1024. -/
def HIF_RING_CTL (n : Nat) : Nat := 0x7F100010030 + n * 0x40
def HIF_RING_CTL_STOP : Fld := ⟨0, 0⟩
def HIF_RING_CTL_RESUME : Fld := ⟨1, 1⟩
def HIF_RING_CTL_ABANDON : Fld := ⟨2, 2⟩

/-- spec/14: register array, n < 1024. -/
def HIF_RING_CNT (n : Nat) : Nat := 0x7F100010038 + n * 0x40
def HIF_RING_CNT_ADMITTED : Fld := ⟨31, 0⟩
def HIF_RING_CNT_DEFER : Fld := ⟨47, 32⟩
def HIF_RING_CNT_NOTICE_SKIP : Fld := ⟨63, 48⟩

/-- spec/14: register array, v < 2048. -/
def HIF_MSIX_ADDR (v : Nat) : Nat := 0x7F100100000 + v * 0x10
def HIF_MSIX_ADDR_ADDR : Fld := ⟨63, 0⟩

/-- spec/14: register array, v < 2048. -/
def HIF_MSIX_DATA (v : Nat) : Nat := 0x7F100100008 + v * 0x10
def HIF_MSIX_DATA_DATA : Fld := ⟨31, 0⟩
def HIF_MSIX_DATA_MASK : Fld := ⟨32, 32⟩

/-- spec/14: register array, w < 32. -/
def HIF_MSIX_PBA (w : Nat) : Nat := 0x7F100108000 + w * 0x8
def HIF_MSIX_PBA_PENDING : Fld := ⟨63, 0⟩

/-- spec/15: register. -/
def FGN_CFG : Nat := 0x7F400000000
def FGN_CFG_NX : Fld := ⟨3, 0⟩
def FGN_CFG_NY : Fld := ⟨6, 4⟩
def FGN_CFG_NZ : Fld := ⟨9, 7⟩
def FGN_CFG_EN : Fld := ⟨10, 10⟩
def FGN_CFG_LOCK : Fld := ⟨11, 11⟩
def FGN_CFG_REFUSED : Fld := ⟨12, 12⟩

/-- spec/15: register. -/
def FGN_NODE : Nat := 0x7F400000008
def FGN_NODE_NODE : Fld := ⟨12, 0⟩
def FGN_NODE_BAD : Fld := ⟨13, 13⟩
def FGN_NODE_INC : Fld := ⟨31, 16⟩

/-- spec/15: register. -/
def FGN_SLICE : Nat := 0x7F400000010
def FGN_SLICE_ID : Fld := ⟨9, 0⟩
def FGN_SLICE_X0 : Fld := ⟨13, 10⟩
def FGN_SLICE_XLEN : Fld := ⟨18, 14⟩
def FGN_SLICE_Y0 : Fld := ⟨21, 19⟩
def FGN_SLICE_YLEN : Fld := ⟨25, 22⟩
def FGN_SLICE_Z0 : Fld := ⟨28, 26⟩
def FGN_SLICE_ZLEN : Fld := ⟨32, 29⟩

/-- spec/15: register. -/
def FGN_CONN_CFG : Nat := 0x7F400000018
def FGN_CONN_CFG_E2E_TO : Fld := ⟨15, 0⟩
def FGN_CONN_CFG_RETRY_MAX : Fld := ⟨19, 16⟩
def FGN_CONN_CFG_IDLE_MS : Fld := ⟨47, 32⟩

/-- spec/15: register. -/
def FGN_CONN_STAT : Nat := 0x7F400000020
def FGN_CONN_STAT_SEND_USED : Fld := ⟨13, 0⟩
def FGN_CONN_STAT_RECV_USED : Fld := ⟨29, 16⟩
def FGN_CONN_STAT_DUP : Fld := ⟨47, 32⟩
def FGN_CONN_STAT_OOO : Fld := ⟨63, 48⟩

/-- spec/15: register. -/
def FGN_ERR : Nat := 0x7F400000028
def FGN_ERR_NO_ROUTE : Fld := ⟨15, 0⟩
def FGN_ERR_CONN_FAIL : Fld := ⟨31, 16⟩
def FGN_ERR_PEER_RESET : Fld := ⟨47, 32⟩
def FGN_ERR_STALE_INC : Fld := ⟨63, 48⟩

/-- spec/15: register. -/
def FGN_REROUTE : Nat := 0x7F400000030
def FGN_REROUTE_REROUTES : Fld := ⟨15, 0⟩
def FGN_REROUTE_DOUBLE_DROP : Fld := ⟨27, 16⟩
def FGN_REROUTE_LAST_PORT : Fld := ⟨31, 28⟩
def FGN_REROUTE_LIFE_LO : Fld := ⟨63, 32⟩

/-- spec/15: register. -/
def FGN_ERR2 : Nat := 0x7F400000038
def FGN_ERR2_MISWIRE : Fld := ⟨15, 0⟩

/-- spec/15: register array, p < 16. -/
def FGN_PORT_CFG (p : Nat) : Nat := 0x7F400000100 + p * 0x10
def FGN_PORT_CFG_LINKS : Fld := ⟨23, 0⟩
def FGN_PORT_CFG_EN : Fld := ⟨24, 24⟩
def FGN_PORT_CFG_GUARD : Fld := ⟨25, 25⟩
def FGN_PORT_CFG_DIR : Fld := ⟨28, 26⟩
def FGN_PORT_CFG_PEER : Fld := ⟨31, 29⟩
def FGN_PORT_CFG_FB_PLANE : Fld := ⟨34, 32⟩
def FGN_PORT_CFG_FB_EN : Fld := ⟨35, 35⟩

/-- spec/15: register array, p < 16. -/
def FGN_PORT_STAT (p : Nat) : Nat := 0x7F400000108 + p * 0x10
def FGN_PORT_STAT_UP : Fld := ⟨23, 0⟩
def FGN_PORT_STAT_STATE : Fld := ⟨26, 24⟩
def FGN_PORT_STAT_RETRY : Fld := ⟨47, 32⟩
def FGN_PORT_STAT_MEMBER_LOSS : Fld := ⟨63, 48⟩

/-- spec/15: register array, l < 24. -/
def FGN_LINK_STAT (l : Nat) : Nat := 0x7F400000200 + l * 0x10
def FGN_LINK_STAT_STATE : Fld := ⟨2, 0⟩
def FGN_LINK_STAT_CABLE : Fld := ⟨4, 3⟩
def FGN_LINK_STAT_PEER_NODE : Fld := ⟨17, 5⟩
def FGN_LINK_STAT_PEER_LINK : Fld := ⟨22, 18⟩
def FGN_LINK_STAT_WARM : Fld := ⟨23, 23⟩
def FGN_LINK_STAT_TRAINS : Fld := ⟨31, 24⟩

/-- spec/15: register array, l < 24. -/
def FGN_LINK_ERR (l : Nat) : Nat := 0x7F400000208 + l * 0x10
def FGN_LINK_ERR_FEC_CORR : Fld := ⟨31, 0⟩
def FGN_LINK_ERR_FEC_UNCORR : Fld := ⟨47, 32⟩
def FGN_LINK_ERR_CRC_NAK : Fld := ⟨63, 48⟩

/-- spec/15: register array, d < 2. -/
def PRS_CFG (d : Nat) : Nat := 0x7F630000000 + d * 0x100000
def PRS_CFG_EN : Fld := ⟨0, 0⟩
def PRS_CFG_STALL_MS : Fld := ⟨31, 16⟩
def PRS_CFG_COMM_CNT : Fld := ⟨44, 32⟩

/-- spec/15: register array, d < 2. -/
def PRS_COMM_BASE (d : Nat) : Nat := 0x7F630000008 + d * 0x100000
def PRS_COMM_BASE_BASE : Fld := ⟨55, 6⟩

/-- spec/15: register array, d < 2. -/
def PRS_CTL (d : Nat) : Nat := 0x7F630000010 + d * 0x100000
def PRS_CTL_COMM : Fld := ⟨11, 0⟩
def PRS_CTL_ABORT : Fld := ⟨12, 12⟩

/-- spec/15: register array, d < 2. -/
def PRS_STAT (d : Nat) : Nat := 0x7F630000018 + d * 0x100000
def PRS_STAT_ACTIVE : Fld := ⟨12, 0⟩
def PRS_STAT_STALLED : Fld := ⟨13, 13⟩
def PRS_STAT_STALL_COMM : Fld := ⟨27, 16⟩
def PRS_STAT_DONE : Fld := ⟨63, 32⟩

/-- spec/15: register array, d < 2. -/
def PRS_CNT (d : Nat) : Nat := 0x7F630000020 + d * 0x100000
def PRS_CNT_DUP : Fld := ⟨15, 0⟩
def PRS_CNT_SEQ_DROP : Fld := ⟨31, 16⟩
def PRS_CNT_MAP_MISMATCH : Fld := ⟨47, 32⟩
def PRS_CNT_POISON : Fld := ⟨63, 48⟩

/-- spec/15: register array, d < 2. -/
def PRS_CAP (d : Nat) : Nat := 0x7F630000028 + d * 0x100000
def PRS_CAP_NOTICES : Fld := ⟨15, 0⟩
def PRS_CAP_ABORTS : Fld := ⟨31, 16⟩
def PRS_CAP_SYMP_US : Fld := ⟨63, 32⟩

/-- spec/16: register array, c < 96. -/
def MGT_CORE_CTL (c : Nat) : Nat := 0x7F000100000 + c * 0x20
def MGT_CORE_CTL_START : Fld := ⟨0, 0⟩
def MGT_CORE_CTL_PARK : Fld := ⟨1, 1⟩
def MGT_CORE_CTL_OFFLINE : Fld := ⟨2, 2⟩
def MGT_CORE_CTL_START_REFUSED : Fld := ⟨3, 3⟩

/-- spec/16: register array, c < 96. -/
def MGT_CORE_STAT (c : Nat) : Nat := 0x7F000100008 + c * 0x20
def MGT_CORE_STAT_STATE : Fld := ⟨2, 0⟩
def MGT_CORE_STAT_PARK_PEND : Fld := ⟨3, 3⟩
def MGT_CORE_STAT_OFF_CAUSE : Fld := ⟨5, 4⟩
def MGT_CORE_STAT_FLUSH_FAIL : Fld := ⟨6, 6⟩
def MGT_CORE_STAT_STARTS : Fld := ⟨63, 32⟩

/-- spec/16: register array, c < 96. -/
def MGT_CORE_PC (c : Nat) : Nat := 0x7F000100010 + c * 0x20
def MGT_CORE_PC_PC : Fld := ⟨63, 0⟩

/-- spec/16: register array, c < 96. -/
def MGT_CORE_ARG (c : Nat) : Nat := 0x7F000100018 + c * 0x20
def MGT_CORE_ARG_ARG : Fld := ⟨63, 0⟩

/-- spec/16: register. -/
def MGT_DDR_STAT : Nat := 0x7F000200000
def MGT_DDR_STAT_PRESENT : Fld := ⟨11, 0⟩
def MGT_DDR_STAT_CH_SIZE : Fld := ⟨14, 12⟩
def MGT_DDR_STAT_POP_ERR : Fld := ⟨15, 15⟩

/-- spec/16: register. -/
def MGT_DDR_ERR : Nat := 0x7F000200008
def MGT_DDR_ERR_CORR : Fld := ⟨15, 0⟩
def MGT_DDR_ERR_UNCORR : Fld := ⟨31, 16⟩
def MGT_DDR_ERR_LAST_CH : Fld := ⟨35, 32⟩

/-- spec/16: register. -/
def MGT_MEM_CTL : Nat := 0x7F000200010
def MGT_MEM_CTL_CXL_LOCK : Fld := ⟨0, 0⟩
def MGT_MEM_CTL_REFUSED : Fld := ⟨1, 1⟩

/-- spec/16: register array, w < 8. -/
def MGT_CXLWIN (w : Nat) : Nat := 0x7F000200100 + w * 0x8
def MGT_CXLWIN_EN : Fld := ⟨0, 0⟩
def MGT_CXLWIN_BASE_G : Fld := ⟨12, 1⟩
def MGT_CXLWIN_SIZE_G : Fld := ⟨24, 13⟩
def MGT_CXLWIN_PORT : Fld := ⟨28, 25⟩
def MGT_CXLWIN_ERR : Fld := ⟨29, 29⟩

/-- spec/16: register array, c < 96. -/
def MTIMECMP (c : Nat) : Nat := 0x7F000300000 + c * 0x8
def MTIMECMP_CMP : Fld := ⟨63, 0⟩

/-- spec/16: register. -/
def MTIME : Nat := 0x7F000307FF8
def MTIME_TIME : Fld := ⟨63, 0⟩

/-- spec/17: register. -/
def PWR_CAP : Nat := 0x7F002000000
def PWR_CAP_HOST_W : Fld := ⟨11, 0⟩
def PWR_CAP_SIDE_W : Fld := ⟨27, 16⟩
def PWR_CAP_EFF_W : Fld := ⟨43, 32⟩
def PWR_CAP_ADM_G : Fld := ⟨54, 48⟩

/-- spec/17: register. -/
def PWR_STAT : Nat := 0x7F002000008
def PWR_STAT_CAPPED : Fld := ⟨0, 0⟩
def PWR_STAT_SYMP : Fld := ⟨1, 1⟩
def PWR_STAT_THERMAL : Fld := ⟨2, 2⟩
def PWR_STAT_LOWLINE : Fld := ⟨3, 3⟩
def PWR_STAT_HIGHLINE : Fld := ⟨4, 4⟩
def PWR_STAT_CRIT : Fld := ⟨5, 5⟩
def PWR_STAT_CAPLVL : Fld := ⟨11, 8⟩
def PWR_STAT_CAPPED_US : Fld := ⟨63, 32⟩

/-- spec/17: register. -/
def PWR_MEAS : Nat := 0x7F002000010
def PWR_MEAS_IN_W : Fld := ⟨15, 0⟩
def PWR_MEAS_VIN_MV : Fld := ⟨31, 16⟩
def PWR_MEAS_IIN_MA : Fld := ⟨47, 32⟩

/-- spec/17: register. -/
def PWR_ENERGY : Nat := 0x7F002000018
def PWR_ENERGY_MJ : Fld := ⟨63, 0⟩

/-- spec/17: register. -/
def PWR_SLOPE : Nat := 0x7F002000020
def PWR_SLOPE_W : Fld := ⟨11, 0⟩
def PWR_SLOPE_FALL_EN : Fld := ⟨12, 12⟩
def PWR_SLOPE_RISE_HELD : Fld := ⟨31, 16⟩
def PWR_SLOPE_FILLER_MJ : Fld := ⟨63, 32⟩

/-- spec/17: register. -/
def PWR_BUDGET : Nat := 0x7F002000028
def PWR_BUDGET_TILE_W : Fld := ⟨15, 0⟩
def PWR_BUDGET_HBM_W : Fld := ⟨31, 16⟩
def PWR_BUDGET_HDIE_W : Fld := ⟨47, 32⟩
def PWR_BUDGET_FIXED_W : Fld := ⟨63, 48⟩

/-- spec/17: register. -/
def PWR_PHASE : Nat := 0x7F002000030
def PWR_PHASE_EN : Fld := ⟨0, 0⟩
def PWR_PHASE_INTERVAL_US : Fld := ⟨10, 1⟩
def PWR_PHASE_SIG : Fld := ⟨31, 16⟩
def PWR_PHASE_HITS : Fld := ⟨47, 32⟩
def PWR_PHASE_MISSES : Fld := ⟨63, 48⟩

/-- spec/17: register. -/
def PWR_DROOP : Nat := 0x7F002000038
def PWR_DROOP_MV : Fld := ⟨5, 0⟩
def PWR_DROOP_RATE : Fld := ⟨15, 8⟩
def PWR_DROOP_C0 : Fld := ⟨31, 16⟩
def PWR_DROOP_C1 : Fld := ⟨47, 32⟩
def PWR_DROOP_HDIE : Fld := ⟨63, 48⟩

/-- spec/17: register. -/
def PWR_AGE : Nat := 0x7F002000040
def PWR_AGE_WORST_GB : Fld := ⟨7, 0⟩
def PWR_AGE_MIN_GB : Fld := ⟨15, 8⟩
def PWR_AGE_CHECKS : Fld := ⟨31, 16⟩
def PWR_AGE_RAISES : Fld := ⟨47, 32⟩
def PWR_AGE_LIMIT : Fld := ⟨48, 48⟩

/-- spec/17: register. -/
def PWR_THERM : Nat := 0x7F002000048
def PWR_THERM_TJ_THR : Fld := ⟨7, 0⟩
def PWR_THERM_TJ_CRIT : Fld := ⟨15, 8⟩
def PWR_THERM_TJ_MAX : Fld := ⟨23, 16⟩
def PWR_THERM_HOT : Fld := ⟨25, 24⟩
def PWR_THERM_THR_US : Fld := ⟨63, 32⟩

/-- spec/17: register. -/
def PWR_IDLE : Nat := 0x7F002000050
def PWR_IDLE_TOL_US : Fld := ⟨15, 0⟩
def PWR_IDLE_FABRIC_OK : Fld := ⟨16, 16⟩
def PWR_IDLE_WAKE : Fld := ⟨17, 17⟩
def PWR_IDLE_STATE : Fld := ⟨19, 18⟩
def PWR_IDLE_HYST_US : Fld := ⟨31, 20⟩

/-- spec/17: register. -/
def PWR_IDLE_STAT : Nat := 0x7F002000058
def PWR_IDLE_STAT_POISED : Fld := ⟨15, 0⟩
def PWR_IDLE_STAT_DORMANT : Fld := ⟨31, 16⟩
def PWR_IDLE_STAT_STOWED : Fld := ⟨47, 32⟩
def PWR_IDLE_STAT_LAST_WAKE_US : Fld := ⟨63, 48⟩

/-- spec/17: register. -/
def PWR_PDIE : Nat := 0x7F002000060
def PWR_PDIE_OK : Fld := ⟨3, 0⟩
def PWR_PDIE_FAULT : Fld := ⟨7, 4⟩
def PWR_PDIE_LAST_OFF : Fld := ⟨11, 8⟩
def PWR_PDIE_FAILOVERS : Fld := ⟨27, 12⟩

/-- spec/17: register array, n < 96. -/
def PWR_GOV (n : Nat) : Nat := 0x7F002001000 + n * 0x8
def PWR_GOV_CEIL : Fld := ⟨6, 0⟩
def PWR_GOV_FLOOR : Fld := ⟨14, 8⟩
def PWR_GOV_GOV_CLK : Fld := ⟨63, 32⟩

/-- spec/18: register. -/
def TST_YAR_CFG : Nat := 0x7F780000000
def TST_YAR_CFG_HB_US : Fld := ⟨3, 0⟩

/-- spec/18: register. -/
def TST_YAR_STAT : Nat := 0x7F780000008
def TST_YAR_STAT_FATAL : Fld := ⟨0, 0⟩
def TST_YAR_STAT_FATAL_CODE : Fld := ⟨15, 8⟩
def TST_YAR_STAT_TILE_FAULTS : Fld := ⟨31, 16⟩
def TST_YAR_STAT_DEGRADED : Fld := ⟨47, 32⟩

/-- spec/18: register. -/
def TST_EVQ_BASE : Nat := 0x7F780000010
def TST_EVQ_BASE_BASE : Fld := ⟨55, 12⟩

/-- spec/18: register. -/
def TST_EVQ_CFG : Nat := 0x7F780000018
def TST_EVQ_CFG_EN : Fld := ⟨0, 0⟩
def TST_EVQ_CFG_LOG2N : Fld := ⟨4, 1⟩
def TST_EVQ_CFG_VECTOR : Fld := ⟨15, 5⟩
def TST_EVQ_CFG_IRQ_EN : Fld := ⟨16, 16⟩
def TST_EVQ_CFG_MIN_SEV : Fld := ⟨19, 17⟩

/-- spec/18: register. -/
def TST_EVQ_PTR : Nat := 0x7F780000020
def TST_EVQ_PTR_TAIL : Fld := ⟨15, 0⟩
def TST_EVQ_PTR_HEAD : Fld := ⟨31, 16⟩
def TST_EVQ_PTR_LOST : Fld := ⟨47, 32⟩

/-- spec/18: register. -/
def TST_YAR_INJ : Nat := 0x7F780000028
def TST_YAR_INJ_KIND : Fld := ⟨1, 0⟩
def TST_YAR_INJ_TARGET : Fld := ⟨8, 2⟩
def TST_YAR_INJ_GO : Fld := ⟨9, 9⟩
def TST_YAR_INJ_REFUSED : Fld := ⟨10, 10⟩

/-- spec/18: register. -/
def TST_YAR_INJ_ADDR : Nat := 0x7F780000030
def TST_YAR_INJ_ADDR_LINE : Fld := ⟨55, 6⟩

/-- spec/18: register. -/
def TST_SI_CNT : Nat := 0x7F780000038
def TST_SI_CNT_REG : Fld := ⟨15, 0⟩
def TST_SI_CNT_HBM : Fld := ⟨31, 16⟩
def TST_SI_CNT_L2 : Fld := ⟨47, 32⟩

/-- spec/18: register. -/
def TST_DROP : Nat := 0x7F780000040
def TST_DROP_PREFETCH : Fld := ⟨15, 0⟩
def TST_DROP_TRACE : Fld := ⟨31, 16⟩
def TST_DROP_JRNL_POISON : Fld := ⟨47, 32⟩
def TST_DROP_PCIE_OUT_POISON : Fld := ⟨63, 48⟩

/-- spec/18: register. -/
def TST_REPAIR_CTL : Nat := 0x7F780000048
def TST_REPAIR_CTL_WAY : Fld := ⟨3, 0⟩
def TST_REPAIR_CTL_DIE : Fld := ⟨4, 4⟩
def TST_REPAIR_CTL_WAY_DIS : Fld := ⟨5, 5⟩
def TST_REPAIR_CTL_WAY_EN : Fld := ⟨6, 6⟩
def TST_REPAIR_CTL_QUEUE_TILE : Fld := ⟨7, 7⟩
def TST_REPAIR_CTL_PTILE : Fld := ⟨14, 8⟩

/-- spec/18: register. -/
def TST_REPAIR_STAT : Nat := 0x7F780000050
def TST_REPAIR_STAT_C0_FUSE_FREE : Fld := ⟨3, 0⟩
def TST_REPAIR_STAT_C1_FUSE_FREE : Fld := ⟨7, 4⟩
def TST_REPAIR_STAT_QUEUED : Fld := ⟨12, 8⟩
def TST_REPAIR_STAT_FUSE_WAIT : Fld := ⟨31, 16⟩
def TST_REPAIR_STAT_C0_WAYS_OFF : Fld := ⟨47, 32⟩
def TST_REPAIR_STAT_C1_WAYS_OFF : Fld := ⟨63, 48⟩

/-- spec/18: register array, e < 3. -/
def TST_EB_CTL (e : Nat) : Nat := 0x7F780000100 + e * 0x40
def TST_EB_CTL_KIND : Fld := ⟨3, 0⟩
def TST_EB_CTL_INDEX : Fld := ⟨15, 4⟩
def TST_EB_CTL_GO : Fld := ⟨16, 16⟩
def TST_EB_CTL_ABORT : Fld := ⟨17, 17⟩
def TST_EB_CTL_BUSY : Fld := ⟨18, 18⟩
def TST_EB_CTL_REPAIR : Fld := ⟨19, 19⟩
def TST_EB_CTL_QUEUE_FUSE : Fld := ⟨20, 20⟩

/-- spec/18: register array, e < 3, w < 4. -/
def TST_EB_RES (e w : Nat) : Nat := 0x7F780000108 + e * 0x40 + w * 0x8
def TST_EB_RES_RESULT : Fld := ⟨63, 0⟩

/-- spec/18: register array, e < 3. -/
def TST_EB_CNT (e : Nat) : Nat := 0x7F780000128 + e * 0x40
def TST_EB_CNT_RUNS : Fld := ⟨31, 0⟩
def TST_EB_CNT_FAILS : Fld := ⟨47, 32⟩
def TST_EB_CNT_ABORTS : Fld := ⟨63, 48⟩

/-- spec/19: register. -/
def RST_CTL : Nat := 0x7F001800000
def RST_CTL_WARM : Fld := ⟨0, 0⟩
def RST_CTL_COLD : Fld := ⟨1, 1⟩

/-- spec/19: register. -/
def RST_CFG : Nat := 0x7F001800008
def RST_CFG_AUTO_WARM : Fld := ⟨0, 0⟩
def RST_CFG_FATAL_DELAY_MS : Fld := ⟨15, 8⟩
def RST_CFG_TRIAL_S : Fld := ⟨31, 16⟩

/-- spec/19: register. -/
def RST_CAUSE : Nat := 0x7F001800010
def RST_CAUSE_LAST : Fld := ⟨3, 0⟩
def RST_CAUSE_WARM_CNT : Fld := ⟨31, 16⟩
def RST_CAUSE_COLD_CNT : Fld := ⟨63, 32⟩

/-- spec/19: register. -/
def RST_BOOT : Nat := 0x7F001800018
def RST_BOOT_STEP : Fld := ⟨3, 0⟩
def RST_BOOT_FAILED : Fld := ⟨4, 4⟩
def RST_BOOT_ERR : Fld := ⟨11, 8⟩
def RST_BOOT_DONE : Fld := ⟨12, 12⟩
def RST_BOOT_DONE_REFUSED : Fld := ⟨13, 13⟩
def RST_BOOT_MISSING : Fld := ⟨27, 16⟩

/-- spec/19: register. -/
def CLK_STAT : Nat := 0x7F001000000
def CLK_STAT_LOCKED : Fld := ⟨39, 0⟩

/-- spec/19: register. -/
def CLK_MEAS : Nat := 0x7F001000008
def CLK_MEAS_SEL : Fld := ⟨5, 0⟩
def CLK_MEAS_GO : Fld := ⟨6, 6⟩
def CLK_MEAS_BUSY : Fld := ⟨7, 7⟩
def CLK_MEAS_HZ : Fld := ⟨43, 8⟩

/-- spec/19: register. -/
def SEC_CTL : Nat := 0x7F700000000
def SEC_CTL_KEYLOCK : Fld := ⟨0, 0⟩
def SEC_CTL_SVN_COMMIT : Fld := ⟨1, 1⟩
def SEC_CTL_COMP : Fld := ⟨3, 2⟩
def SEC_CTL_SVN_REFUSED : Fld := ⟨4, 4⟩

/-- spec/19: register. -/
def SEC_SIG_STAT : Nat := 0x7F700000008
def SEC_SIG_STAT_NEXT : Fld := ⟨40, 0⟩
def SEC_SIG_STAT_BLOCKS : Fld := ⟨49, 41⟩
def SEC_SIG_STAT_LOW : Fld := ⟨50, 50⟩
def SEC_SIG_STAT_EXHAUSTED : Fld := ⟨51, 51⟩

/-- spec/19: register. -/
def SEC_ATT_CTL : Nat := 0x7F700000010
def SEC_ATT_CTL_GO : Fld := ⟨0, 0⟩
def SEC_ATT_CTL_BUSY : Fld := ⟨1, 1⟩
def SEC_ATT_CTL_DONE : Fld := ⟨2, 2⟩
def SEC_ATT_CTL_RESULT : Fld := ⟨5, 3⟩
def SEC_ATT_CTL_MASK : Fld := ⟨15, 8⟩

/-- spec/19: register. -/
def SEC_ATT_ADDR : Nat := 0x7F700000018
def SEC_ATT_ADDR_BASE : Fld := ⟨55, 6⟩

/-- spec/19: register. -/
def SEC_KEY_CTL : Nat := 0x7F700000020
def SEC_KEY_CTL_SLOT : Fld := ⟨2, 0⟩
def SEC_KEY_CTL_OP : Fld := ⟨3, 3⟩
def SEC_KEY_CTL_GO : Fld := ⟨4, 4⟩
def SEC_KEY_CTL_REFUSED : Fld := ⟨5, 5⟩
def SEC_KEY_CTL_USED : Fld := ⟨9, 6⟩

/-- spec/19: register. -/
def SEC_SVN : Nat := 0x7F700000028
def SEC_SVN_MIN1 : Fld := ⟨5, 0⟩
def SEC_SVN_MIN2 : Fld := ⟨13, 8⟩
def SEC_SVN_MIN3 : Fld := ⟨21, 16⟩

/-- spec/19: register array, k < 4. -/
def SEC_KEY_DATA (k : Nat) : Nat := 0x7F700000040 + k * 0x8
def SEC_KEY_DATA_DATA : Fld := ⟨63, 0⟩

/-- spec/19: register array, k < 4. -/
def SEC_EXT_DATA (k : Nat) : Nat := 0x7F700000060 + k * 0x8
def SEC_EXT_DATA_DATA : Fld := ⟨63, 0⟩

/-- spec/19: register. -/
def SEC_EXT_CTL : Nat := 0x7F700000080
def SEC_EXT_CTL_REG : Fld := ⟨2, 0⟩
def SEC_EXT_CTL_GO : Fld := ⟨3, 3⟩
def SEC_EXT_CTL_REFUSED : Fld := ⟨4, 4⟩

/-- spec/19: register array, i < 8, w < 4. -/
def SEC_M (i w : Nat) : Nat := 0x7F700000100 + i * 0x20 + w * 0x8
def SEC_M_WORD : Fld := ⟨63, 0⟩

/-- spec/19: register. -/
def MGT_LIFE : Nat := 0x7F000400000
def MGT_LIFE_TICKS : Fld := ⟨63, 0⟩

/-- spec/19: register. -/
def MGT_WALL : Nat := 0x7F000400008
def MGT_WALL_SECONDS : Fld := ⟨63, 0⟩

/-- spec/19: register. -/
def MGT_LOG_STAT : Nat := 0x7F000400010
def MGT_LOG_STAT_RECORDS : Fld := ⟨31, 0⟩
def MGT_LOG_STAT_OVERWRITTEN : Fld := ⟨47, 32⟩
def MGT_LOG_STAT_FLASH_ERR : Fld := ⟨48, 48⟩

/-- spec/19: register. -/
def MGT_FW_STAT : Nat := 0x7F000400018
def MGT_FW_STAT_ACTIVE1 : Fld := ⟨0, 0⟩
def MGT_FW_STAT_ACTIVE2 : Fld := ⟨8, 8⟩
def MGT_FW_STAT_ACTIVE3 : Fld := ⟨16, 16⟩
def MGT_FW_STAT_OTHER1 : Fld := ⟨2, 1⟩
def MGT_FW_STAT_OTHER2 : Fld := ⟨10, 9⟩
def MGT_FW_STAT_OTHER3 : Fld := ⟨18, 17⟩
def MGT_FW_STAT_TRIAL1 : Fld := ⟨3, 3⟩
def MGT_FW_STAT_TRIAL2 : Fld := ⟨11, 11⟩
def MGT_FW_STAT_TRIAL3 : Fld := ⟨19, 19⟩
def MGT_FW_STAT_UPDATES : Fld := ⟨47, 32⟩
def MGT_FW_STAT_FALLBACKS : Fld := ⟨63, 48⟩

/-- spec/19: register. -/
def MGT_PSC_CFG : Nat := 0x7F000500000
def MGT_PSC_CFG_SRC_EN : Fld := ⟨15, 0⟩
def MGT_PSC_CFG_STOP_FULL : Fld := ⟨16, 16⟩
def MGT_PSC_CFG_SPILL_EN : Fld := ⟨17, 17⟩

/-- spec/19: register. -/
def MGT_PSC_PTR : Nat := 0x7F000500008
def MGT_PSC_PTR_WR : Fld := ⟨15, 0⟩
def MGT_PSC_PTR_DROP : Fld := ⟨63, 32⟩

/-- spec/19: register. -/
def MGT_PSC_MARK : Nat := 0x7F000500010
def MGT_PSC_MARK_VALUE : Fld := ⟨63, 0⟩

/-- spec/19: register. -/
def MGT_PSC_SPILL : Nat := 0x7F000500018
def MGT_PSC_SPILL_LOG2MB : Fld := ⟨5, 0⟩
def MGT_PSC_SPILL_BASE : Fld := ⟨55, 12⟩

/-- spec/19: register array, w < 262144. -/
def MGT_PSC_BUF (w : Nat) : Nat := 0x7F000600000 + w * 0x8
def MGT_PSC_BUF_WORD : Fld := ⟨63, 0⟩

/-- Register tables of the MGT block (part 0 of the map). -/
def regsMgt0 : List RegSpec := [
  { name := "MGT_DIE_MAP", base := 0x7F000001000, dims := [], lock := none,
    fields := [⟨"VALID", 0, 0, .ro, 0x0, false⟩,
      ⟨"FAULT", 1, 1, .ro, 0x0, false⟩,
      ⟨"CAUSE", 5, 2, .ro, 0x0, false⟩,
      ⟨"CAUSE_DIE", 6, 6, .ro, 0x0, false⟩,
      ⟨"SIDE_W", 7, 7, .ro, 0x0, false⟩,
      ⟨"SIDE_E", 8, 8, .ro, 0x0, false⟩] },
  { name := "MGT_CRA_STAT", base := 0x7F000002000, dims := [(0x100, 3)], lock := none,
    fields := [⟨"STATE", 2, 0, .ro, 0x0, false⟩,
      ⟨"TRAIN_TO", 3, 3, .w1c, 0x0, false⟩,
      ⟨"NEG_CAUSE", 6, 4, .ro, 0x0, false⟩,
      ⟨"POISON_ON", 7, 7, .ro, 0x0, false⟩,
      ⟨"TAGS", 11, 8, .ro, 0x0, false⟩,
      ⟨"LOCAL_STANDIN", 12, 12, .ro, 0x0, false⟩] },
  { name := "MGT_CRA_CAPL_LO", base := 0x7F000002008, dims := [(0x100, 3)], lock := none,
    fields := [⟨"CAP", 63, 0, .ro, 0x0, false⟩] },
  { name := "MGT_CRA_CAPL_HI", base := 0x7F000002010, dims := [(0x100, 3)], lock := none,
    fields := [⟨"CAP", 63, 0, .ro, 0x0, false⟩] },
  { name := "MGT_CRA_CAPR_LO", base := 0x7F000002018, dims := [(0x100, 3)], lock := none,
    fields := [⟨"CAP", 63, 0, .ro, 0x0, false⟩] },
  { name := "MGT_CRA_CAPR_HI", base := 0x7F000002020, dims := [(0x100, 3)], lock := none,
    fields := [⟨"CAP", 63, 0, .ro, 0x0, false⟩] },
  { name := "MGT_CRA_ERR", base := 0x7F000002028, dims := [(0x100, 3)], lock := none,
    fields := [⟨"MALFORMED", 15, 0, .w1c, 0x0, false⟩,
      ⟨"POISON_CONV", 31, 16, .w1c, 0x0, false⟩,
      ⟨"LATE_DROP", 47, 32, .w1c, 0x0, false⟩,
      ⟨"ABSENT_CNT", 63, 48, .w1c, 0x0, false⟩] }]

/-- Register tables of the TIL block (part 1 of the map). -/
def regsTil1 : List RegSpec := [
  { name := "TIL_STATUS", base := 0x7F200000000, dims := [(0x1000000, 96)], lock := none,
    fields := [⟨"STATE", 2, 0, .ro, 0x0, false⟩,
      ⟨"BIND_PEND", 3, 3, .ro, 0x0, false⟩,
      ⟨"HANDLE", 11, 4, .ro, 0x0, false⟩,
      ⟨"PHYS", 18, 12, .ro, 0x0, true⟩,
      ⟨"DIE", 19, 19, .ro, 0x0, true⟩,
      ⟨"DIGEST_LO", 63, 32, .ro, 0x0, false⟩] },
  { name := "TIL_ERR", base := 0x7F200000010, dims := [(0x1000000, 96)], lock := none,
    fields := [⟨"ACCESS", 15, 0, .w1c, 0x0, false⟩,
      ⟨"TS_REMAP", 31, 16, .w1c, 0x0, false⟩,
      ⟨"PORT_ERR", 47, 32, .w1c, 0x0, false⟩,
      ⟨"TS_OFFLINE", 63, 48, .w1c, 0x0, false⟩] },
  { name := "TIL_BANK_STALL", base := 0x7F200000018, dims := [(0x1000000, 96)], lock := none,
    fields := [⟨"CYCLES", 63, 0, .ro, 0x0, false⟩] },
  { name := "TIL_DMA_STAT", base := 0x7F200000100, dims := [(0x1000000, 96), (0x8, 8)], lock := none,
    fields := [⟨"OCC", 6, 0, .ro, 0x0, false⟩,
      ⟨"HALTED", 7, 7, .ro, 0x0, false⟩,
      ⟨"ERR", 11, 8, .ro, 0x0, false⟩,
      ⟨"RESUME", 12, 12, .w1s, 0x0, false⟩,
      ⟨"FLUSH", 13, 13, .w1s, 0x0, false⟩,
      ⟨"POISON", 29, 14, .w1c, 0x0, false⟩,
      ⟨"DONE", 63, 32, .ro, 0x0, false⟩] },
  { name := "TIL_PORT_STAT", base := 0x7F200000200, dims := [(0x1000000, 96), (0x8, 8)], lock := none,
    fields := [⟨"STATE", 1, 0, .ro, 0x0, false⟩,
      ⟨"DIR", 2, 2, .ro, 0x0, false⟩,
      ⟨"PEER_TILE", 15, 8, .ro, 0x0, false⟩,
      ⟨"PEER_PORT", 18, 16, .ro, 0x0, false⟩,
      ⟨"STALL", 63, 32, .ro, 0x0, false⟩] },
  { name := "TIL_FACET_BASE", base := 0x7F270000000, dims := [], lock := some ⟨0x7F270000000, 0, none⟩,
    fields := [⟨"LOCK", 0, 0, .w1s, 0x0, true⟩,
      ⟨"BASE", 55, 26, .rwl, 0x2FFF, true⟩] },
  { name := "TIL_MAP", base := 0x7F270000100, dims := [(0x8, 96)], lock := none,
    fields := [⟨"PHYS", 6, 0, .ro, 0x0, true⟩,
      ⟨"STATE", 10, 8, .ro, 0x0, false⟩,
      ⟨"SPARED", 11, 11, .ro, 0x0, true⟩] },
  { name := "TIL_GROUP_LO", base := 0x7F270000400, dims := [(0x10, 16)], lock := none,
    fields := [⟨"MEMBERS_LO", 63, 0, .rw, 0x0, false⟩] },
  { name := "TIL_GROUP_HI", base := 0x7F270000408, dims := [(0x10, 16)], lock := none,
    fields := [⟨"MEMBERS_HI", 31, 0, .rw, 0x0, false⟩,
      ⟨"RING", 41, 32, .rw, 0x0, false⟩,
      ⟨"ENABLE", 42, 42, .rw, 0x0, false⟩,
      ⟨"BUSY", 43, 43, .ro, 0x0, false⟩] },
  { name := "TIL_SPARE", base := 0x7F270000500, dims := [], lock := none,
    fields := [⟨"C0_FREE", 2, 0, .ro, 0x0, true⟩,
      ⟨"C1_FREE", 6, 4, .ro, 0x0, true⟩,
      ⟨"C0_ACTIVE", 15, 8, .ro, 0x0, true⟩,
      ⟨"C1_ACTIVE", 23, 16, .ro, 0x0, true⟩] },
  { name := "TIL_DISP_DEFER", base := 0x7F270000508, dims := [], lock := none,
    fields := [⟨"COUNT", 63, 0, .ro, 0x0, false⟩] },
  { name := "ARR_CFG", base := 0x7F200001000, dims := [(0x1000000, 96)], lock := none,
    fields := [⟨"MVP_EN", 0, 0, .rw, 0x1, false⟩] },
  { name := "ARR_STAT", base := 0x7F200001008, dims := [(0x1000000, 96)], lock := none,
    fields := [⟨"DESC_ARRAY", 23, 0, .ro, 0x0, false⟩,
      ⟨"DESC_MVP", 47, 24, .ro, 0x0, false⟩,
      ⟨"DESC_EMPTY", 63, 48, .ro, 0x0, false⟩] },
  { name := "ARR_BUSY", base := 0x7F200001010, dims := [(0x1000000, 96)], lock := none,
    fields := [⟨"CLOCKS", 63, 0, .ro, 0x0, false⟩] }]

/-- Register tables of the TIL block (part 2 of the map). -/
def regsTil2 : List RegSpec := [
  { name := "ARR_STALL", base := 0x7F200001018, dims := [(0x1000000, 96)], lock := none,
    fields := [⟨"FILL", 31, 0, .ro, 0x0, false⟩,
      ⟨"OPND", 63, 32, .ro, 0x0, false⟩] },
  { name := "ARR_MACS", base := 0x7F200001020, dims := [(0x1000000, 96)], lock := none,
    fields := [⟨"COUNT", 63, 0, .ro, 0x0, false⟩] },
  { name := "ARR_CONV_STALL", base := 0x7F200001028, dims := [(0x1000000, 96)], lock := none,
    fields := [⟨"CLOVER", 31, 0, .ro, 0x0, false⟩,
      ⟨"OTHER", 63, 32, .ro, 0x0, false⟩] },
  { name := "ARR_ERR", base := 0x7F200001030, dims := [(0x1000000, 96)], lock := none,
    fields := [⟨"MALFORMED", 15, 0, .w1c, 0x0, false⟩,
      ⟨"FAULT", 31, 16, .w1c, 0x0, false⟩,
      ⟨"POISON", 47, 32, .w1c, 0x0, false⟩,
      ⟨"GUARD", 63, 48, .w1c, 0x0, false⟩] },
  { name := "ARR_CVT", base := 0x7F200001038, dims := [(0x1000000, 96)], lock := none,
    fields := [⟨"SAT_ELEM", 15, 0, .w1c, 0x0, false⟩,
      ⟨"INF_ELEM", 31, 16, .w1c, 0x0, false⟩,
      ⟨"NAN_BLK", 47, 32, .w1c, 0x0, false⟩,
      ⟨"IN_OVF", 63, 48, .w1c, 0x0, false⟩] },
  { name := "ARR_OVF", base := 0x7F200001040, dims := [(0x1000000, 96)], lock := none,
    fields := [⟨"RESCALED", 15, 0, .w1c, 0x0, false⟩,
      ⟨"TWICE", 31, 16, .w1c, 0x0, false⟩,
      ⟨"RESIDUAL_BLK", 47, 32, .w1c, 0x0, false⟩] },
  { name := "ARR_RPL_CLK", base := 0x7F200001048, dims := [(0x1000000, 96)], lock := none,
    fields := [⟨"CLOCKS", 63, 0, .ro, 0x0, false⟩] },
  { name := "UMB_CFG", base := 0x7F200002000, dims := [(0x1000000, 96)], lock := none,
    fields := [⟨"RC_EN", 0, 0, .rw, 0x1, false⟩,
      ⟨"L1_EN", 1, 1, .rw, 0x1, false⟩] },
  { name := "UMB_STATUS", base := 0x7F200002008, dims := [(0x1000000, 96)], lock := none,
    fields := [⟨"RESIDENT", 5, 0, .ro, 0x0, false⟩,
      ⟨"LIMIT", 11, 6, .ro, 0x0, false⟩,
      ⟨"RUNNING", 12, 12, .ro, 0x0, false⟩,
      ⟨"ABORTING", 13, 13, .ro, 0x0, false⟩,
      ⟨"BOUNDARY", 14, 14, .ro, 0x0, false⟩,
      ⟨"KERNELS", 63, 32, .ro, 0x0, false⟩] },
  { name := "UMB_ISSUE", base := 0x7F200002010, dims := [(0x1000000, 96)], lock := none,
    fields := [⟨"INSTR", 63, 0, .ro, 0x0, false⟩] },
  { name := "UMB_RC", base := 0x7F200002018, dims := [(0x1000000, 96)], lock := none,
    fields := [⟨"HIT", 31, 0, .ro, 0x0, false⟩,
      ⟨"FILL", 63, 32, .ro, 0x0, false⟩] },
  { name := "UMB_STALL", base := 0x7F200002020, dims := [(0x1000000, 96)], lock := none,
    fields := [⟨"BANK", 31, 0, .ro, 0x0, false⟩,
      ⟨"IDLE_SLOT", 63, 32, .ro, 0x0, false⟩] },
  { name := "UMB_DIV", base := 0x7F200002028, dims := [(0x1000000, 96)], lock := none,
    fields := [⟨"SPLITS", 31, 0, .ro, 0x0, false⟩,
      ⟨"PARTIAL", 63, 32, .ro, 0x0, false⟩] },
  { name := "UMB_L1", base := 0x7F200002030, dims := [(0x1000000, 96)], lock := none,
    fields := [⟨"HIT", 31, 0, .ro, 0x0, false⟩,
      ⟨"MISS", 63, 32, .ro, 0x0, false⟩] }]

/-- Register tables of the TIL block (part 3 of the map). -/
def regsTil3 : List RegSpec := [
  { name := "UMB_L1_WB", base := 0x7F200002038, dims := [(0x1000000, 96)], lock := none,
    fields := [⟨"LINES", 31, 0, .ro, 0x0, false⟩,
      ⟨"BOUNDARY_CLK", 63, 32, .ro, 0x0, false⟩] },
  { name := "UMB_ATOM", base := 0x7F200002040, dims := [(0x1000000, 96)], lock := none,
    fields := [⟨"RMW", 31, 0, .ro, 0x0, false⟩,
      ⟨"SERIAL", 63, 32, .ro, 0x0, false⟩] },
  { name := "UMB_EXC0", base := 0x7F200002048, dims := [(0x1000000, 96)], lock := none,
    fields := [⟨"CAUSE", 7, 0, .ro, 0x0, false⟩,
      ⟨"UMBEL", 12, 8, .ro, 0x0, false⟩,
      ⟨"VALID", 13, 13, .w1c, 0x0, false⟩,
      ⟨"POISON", 14, 14, .ro, 0x0, false⟩,
      ⟨"LOST", 18, 15, .w1c, 0x0, false⟩,
      ⟨"MASK", 63, 32, .ro, 0x0, false⟩] },
  { name := "UMB_EXC1", base := 0x7F200002050, dims := [(0x1000000, 96)], lock := none,
    fields := [⟨"EPC", 63, 0, .ro, 0x0, false⟩] },
  { name := "UMB_EXC2", base := 0x7F200002058, dims := [(0x1000000, 96)], lock := none,
    fields := [⟨"TVAL", 63, 0, .ro, 0x0, false⟩] },
  { name := "UMB_SYNC", base := 0x7F200002060, dims := [(0x1000000, 96)], lock := none,
    fields := [⟨"BAR_WAIT", 31, 0, .ro, 0x0, false⟩,
      ⟨"SEM_WAIT", 63, 32, .ro, 0x0, false⟩] },
  { name := "TIL_SEQ_STAT", base := 0x7F200003000, dims := [(0x1000000, 96)], lock := none,
    fields := [⟨"PC", 12, 0, .ro, 0x0, false⟩,
      ⟨"HELD", 13, 13, .ro, 0x0, false⟩,
      ⟨"WAIT_KIND", 16, 14, .ro, 0x0, false⟩,
      ⟨"CLV_OCC", 19, 17, .ro, 0x0, false⟩,
      ⟨"INSTR", 63, 32, .ro, 0x0, false⟩] },
  { name := "TIL_SEQ_ERR", base := 0x7F200003008, dims := [(0x1000000, 96)], lock := none,
    fields := [⟨"CODE", 3, 0, .ro, 0x0, false⟩,
      ⟨"PC", 16, 4, .ro, 0x0, false⟩,
      ⟨"COUNT", 47, 32, .w1c, 0x0, false⟩] }]

/-- Register tables of the LOU block (part 4 of the map). -/
def regsLou4 : List RegSpec := [
  { name := "LOU_CFG", base := 0x7F610000000, dims := [(0x100000, 2)], lock := none,
    fields := [⟨"EN", 0, 0, .rw, 0x0, false⟩,
      ⟨"RATE", 5, 1, .rw, 0x10, false⟩,
      ⟨"ACTION", 7, 6, .rw, 0x0, false⟩,
      ⟨"SCOPE", 8, 8, .rw, 0x0, false⟩,
      ⟨"THRESH", 23, 16, .rw, 0x1, false⟩,
      ⟨"SEED", 63, 32, .rw, 0x0, false⟩] },
  { name := "LOU_CTL", base := 0x7F610000008, dims := [(0x100000, 2)], lock := none,
    fields := [⟨"RESUME", 0, 0, .w1s, 0x0, false⟩,
      ⟨"CLEAR", 1, 1, .w1s, 0x0, false⟩,
      ⟨"POP", 2, 2, .w1s, 0x0, false⟩] },
  { name := "LOU_STAT", base := 0x7F610000010, dims := [(0x100000, 2)], lock := none,
    fields := [⟨"CHECKED", 31, 0, .ro, 0x0, false⟩,
      ⟨"DROP_BUSY", 47, 32, .w1c, 0x0, false⟩,
      ⟨"DROP_BIST", 63, 48, .w1c, 0x0, false⟩] },
  { name := "LOU_STAT2", base := 0x7F610000018, dims := [(0x100000, 2)], lock := none,
    fields := [⟨"REPEAT", 15, 0, .w1c, 0x0, false⟩,
      ⟨"SKIP_POISON", 31, 16, .w1c, 0x0, false⟩,
      ⟨"REC_LOST", 47, 32, .w1c, 0x0, false⟩,
      ⟨"HALTED", 48, 48, .ro, 0x0, false⟩,
      ⟨"BIST_OWNS", 49, 49, .ro, 0x0, false⟩,
      ⟨"REC_CNT", 54, 50, .ro, 0x0, false⟩] },
  { name := "LOU_FMT_CNT", base := 0x7F610000100, dims := [(0x100000, 2), (0x8, 4)], lock := none,
    fields := [⟨"CNT0", 15, 0, .w1c, 0x0, false⟩,
      ⟨"CNT1", 31, 16, .w1c, 0x0, false⟩,
      ⟨"CNT2", 47, 32, .w1c, 0x0, false⟩,
      ⟨"CNT3", 63, 48, .w1c, 0x0, false⟩] },
  { name := "LOU_TAG_CNT", base := 0x7F610000200, dims := [(0x100000, 2), (0x8, 64)], lock := none,
    fields := [⟨"CNT0", 15, 0, .w1c, 0x0, false⟩,
      ⟨"CNT1", 31, 16, .w1c, 0x0, false⟩,
      ⟨"CNT2", 47, 32, .w1c, 0x0, false⟩,
      ⟨"CNT3", 63, 48, .w1c, 0x0, false⟩] },
  { name := "LOU_TILE_CNT", base := 0x7F610000400, dims := [(0x100000, 2), (0x8, 12)], lock := none,
    fields := [⟨"CNT0", 15, 0, .w1c, 0x0, false⟩,
      ⟨"CNT1", 31, 16, .w1c, 0x0, false⟩,
      ⟨"CNT2", 47, 32, .w1c, 0x0, false⟩,
      ⟨"CNT3", 63, 48, .w1c, 0x0, false⟩] },
  { name := "LOU_REC", base := 0x7F610000800, dims := [(0x100000, 2), (0x8, 4)], lock := none,
    fields := [⟨"WORD", 63, 0, .ro, 0x0, false⟩] }]

/-- Register tables of the EPO block (part 5 of the map). -/
def regsEpo5 : List RegSpec := [
  { name := "EPO_MODE", base := 0x7F600000000, dims := [], lock := none,
    fields := [⟨"RESIL", 0, 0, .rw, 0x1, false⟩,
      ⟨"DET", 1, 1, .rw, 0x1, false⟩,
      ⟨"REFUSED", 2, 2, .w1c, 0x0, false⟩,
      ⟨"REF_CAUSE", 4, 3, .ro, 0x0, false⟩,
      ⟨"OPEN_CNT", 14, 8, .ro, 0x0, false⟩] },
  { name := "EPO_LEDGER_CFG", base := 0x7F600000100, dims := [(0x40, 2)], lock := some ⟨0x7F600000100, 5, none⟩,
    fields := [⟨"SIZE", 4, 0, .rwl, 0x0, true⟩,
      ⟨"LOCK", 5, 5, .w1s, 0x0, true⟩] },
  { name := "EPO_LEDGER_CLR", base := 0x7F600000108, dims := [(0x40, 2)], lock := none,
    fields := [⟨"FIRST", 17, 0, .rw, 0x0, false⟩,
      ⟨"COUNT", 35, 18, .rw, 0x0, false⟩,
      ⟨"GO", 36, 36, .w1s, 0x0, false⟩,
      ⟨"BUSY", 37, 37, .ro, 0x0, false⟩] },
  { name := "EPO_LEDGER_STAT", base := 0x7F600000110, dims := [(0x40, 2)], lock := none,
    fields := [⟨"READ_NAN", 15, 0, .w1c, 0x0, false⟩,
      ⟨"OVF", 31, 16, .w1c, 0x0, false⟩,
      ⟨"REFUSED", 47, 32, .w1c, 0x0, false⟩] },
  { name := "EPO_STAT", base := 0x7F600010000, dims := [(0x200, 96)], lock := none,
    fields := [⟨"STATE", 1, 0, .ro, 0x0, false⟩,
      ⟨"UNPROT", 2, 2, .ro, 0x0, false⟩,
      ⟨"NOREPLAY", 3, 3, .ro, 0x0, false⟩,
      ⟨"GAP_DIRTY", 4, 4, .ro, 0x0, false⟩,
      ⟨"FROZEN", 5, 5, .ro, 0x0, false⟩,
      ⟨"KERNEL", 6, 6, .ro, 0x0, false⟩,
      ⟨"JCOUNT", 19, 7, .ro, 0x0, false⟩,
      ⟨"TIMER", 49, 32, .ro, 0x0, false⟩] },
  { name := "EPO_NUM", base := 0x7F600010008, dims := [(0x200, 96)], lock := none,
    fields := [⟨"NUMBER", 62, 0, .ro, 0x0, false⟩] },
  { name := "EPO_ERR", base := 0x7F600010010, dims := [(0x200, 96)], lock := none,
    fields := [⟨"OVERRUN", 15, 0, .w1c, 0x0, false⟩,
      ⟨"JFULL", 31, 16, .w1c, 0x0, false⟩,
      ⟨"AUTOCOMMIT", 47, 32, .w1c, 0x0, false⟩,
      ⟨"DUP", 63, 48, .w1c, 0x0, false⟩] },
  { name := "EPO_RPL", base := 0x7F600010018, dims := [(0x200, 96)], lock := none,
    fields := [⟨"COUNT", 15, 0, .w1c, 0x0, false⟩,
      ⟨"LAST_US", 31, 16, .ro, 0x0, false⟩,
      ⟨"LOST", 47, 32, .w1c, 0x0, false⟩,
      ⟨"PUB_FAIL", 63, 48, .w1c, 0x0, false⟩] },
  { name := "EPO_CTL", base := 0x7F600010020, dims := [(0x200, 96)], lock := none,
    fields := [⟨"RELEASE", 0, 0, .w1s, 0x0, false⟩,
      ⟨"FLUSH", 1, 1, .w1s, 0x0, false⟩] },
  { name := "EPO_GUARD_LO", base := 0x7F600010100, dims := [(0x200, 96), (0x10, 16)], lock := none,
    fields := [⟨"LO", 55, 0, .ro, 0xFFFFFFFFFFFFFF, false⟩] },
  { name := "EPO_GUARD_HI", base := 0x7F600010108, dims := [(0x200, 96), (0x10, 16)], lock := none,
    fields := [⟨"HI", 55, 0, .ro, 0x0, false⟩] }]

/-- Register tables of the SPW block (part 6 of the map). -/
def regsSpw6 : List RegSpec := [
  { name := "SPW_TIER_CFG", base := 0x7F620000000, dims := [], lock := some ⟨0x7F620000000, 12, some (0x7F620000000, 13)⟩,
    fields := [⟨"MODE", 0, 0, .rwl, 0x0, true⟩,
      ⟨"DIRECT", 10, 1, .rwl, 0x30, true⟩,
      ⟨"SHIELD", 11, 11, .rwl, 0x0, true⟩,
      ⟨"LOCK", 12, 12, .w1s, 0x0, true⟩,
      ⟨"REFUSED", 13, 13, .w1c, 0x0, false⟩] },
  { name := "SPW_TIER_DIR", base := 0x7F620000008, dims := [], lock := some ⟨0x7F620000000, 12, some (0x7F620000000, 13)⟩,
    fields := [⟨"BASE", 55, 26, .rwl, 0x2FFE, true⟩] },
  { name := "SPW_TIER_STAT", base := 0x7F620000010, dims := [], lock := none,
    fields := [⟨"DEMAND_LO", 31, 0, .ro, 0x0, false⟩,
      ⟨"WR_HOLD", 47, 32, .w1c, 0x0, false⟩] },
  { name := "SPW_FRAMES", base := 0x7F620000018, dims := [], lock := none,
    fields := [⟨"TOTAL", 18, 0, .ro, 0x0, true⟩,
      ⟨"FREE", 50, 32, .ro, 0x0, false⟩] },
  { name := "SPW_OBJ_BASE", base := 0x7F620000020, dims := [], lock := none,
    fields := [⟨"BASE", 55, 6, .rw, 0x0, false⟩] },
  { name := "SPW_OBJ_CNT", base := 0x7F620000028, dims := [], lock := none,
    fields := [⟨"COUNT", 12, 0, .rw, 0x0, false⟩] },
  { name := "SPW_STAT", base := 0x7F620000030, dims := [], lock := none,
    fields := [⟨"ACTIVE", 0, 0, .ro, 0x0, false⟩,
      ⟨"PENDING", 1, 1, .ro, 0x0, false⟩,
      ⟨"GEN_LAST", 61, 32, .ro, 0x0, true⟩] },
  { name := "SPW_CNT", base := 0x7F620000038, dims := [], lock := none,
    fields := [⟨"LATE", 15, 0, .w1c, 0x0, false⟩,
      ⟨"DEFER", 31, 16, .w1c, 0x0, false⟩,
      ⟨"REFUSED_INUSE", 47, 32, .w1c, 0x0, false⟩,
      ⟨"CANCELLED", 63, 48, .w1c, 0x0, false⟩] },
  { name := "SPW_CNT2", base := 0x7F620000040, dims := [], lock := none,
    fields := [⟨"LEFTOVER", 15, 0, .w1c, 0x0, false⟩,
      ⟨"BAD_REF", 31, 16, .w1c, 0x0, false⟩,
      ⟨"POISON_GRAN", 47, 32, .w1c, 0x0, false⟩] },
  { name := "SPW_STALL", base := 0x7F620000048, dims := [], lock := none,
    fields := [⟨"US", 63, 0, .ro, 0x0, false⟩] },
  { name := "SPW_MOVED", base := 0x7F620000050, dims := [], lock := none,
    fields := [⟨"GRANULES", 63, 0, .ro, 0x0, false⟩] },
  { name := "SPW_LATE_REC0", base := 0x7F620000058, dims := [], lock := none,
    fields := [⟨"OBJECT", 11, 0, .ro, 0x0, false⟩,
      ⟨"VALID", 12, 12, .w1c, 0x0, false⟩,
      ⟨"STREAMED", 13, 13, .ro, 0x0, false⟩,
      ⟨"GRAN_LEFT", 31, 16, .ro, 0x0, false⟩,
      ⟨"LAYER", 63, 32, .ro, 0x0, false⟩] },
  { name := "SPW_LATE_REC1", base := 0x7F620000060, dims := [], lock := none,
    fields := [⟨"DEADLINE", 62, 0, .ro, 0x0, false⟩] },
  { name := "SPW_CTL", base := 0x7F620000068, dims := [], lock := none,
    fields := [⟨"CLEAR_FAILED", 0, 0, .w1s, 0x0, false⟩,
      ⟨"ABORT", 1, 1, .w1s, 0x0, false⟩] }]

/-- Register tables of the CCH block (part 7 of the map). -/
def regsCch7 : List RegSpec := [
  { name := "CCH_REPL", base := 0x7F500000000, dims := [], lock := some ⟨0x7F500000000, 4, some (0x7F500000000, 5)⟩,
    fields := [⟨"L3", 0, 0, .rwl, 0x0, true⟩,
      ⟨"SC0", 1, 1, .rwl, 0x0, true⟩,
      ⟨"SC1", 2, 2, .rwl, 0x0, true⟩,
      ⟨"STREAM_EN", 3, 3, .rwl, 0x1, true⟩,
      ⟨"LOCK", 4, 4, .w1s, 0x0, true⟩,
      ⟨"REFUSED", 5, 5, .w1c, 0x0, false⟩] },
  { name := "CCH_LEASE_CFG", base := 0x7F500000008, dims := [], lock := none,
    fields := [⟨"EN0", 0, 0, .rw, 0x1, false⟩,
      ⟨"EN1", 1, 1, .rw, 0x1, false⟩,
      ⟨"HOLDOFF", 15, 4, .rw, 0x64, false⟩] },
  { name := "CCH_MNT_CTL", base := 0x7F500000010, dims := [], lock := none,
    fields := [⟨"OP", 1, 0, .rw, 0x0, false⟩,
      ⟨"MODE", 3, 2, .rw, 0x0, false⟩,
      ⟨"TARGET", 5, 4, .rw, 0x0, false⟩,
      ⟨"GO", 6, 6, .w1s, 0x0, false⟩,
      ⟨"BUSY", 7, 7, .ro, 0x0, false⟩,
      ⟨"DONE", 8, 8, .w1c, 0x0, false⟩,
      ⟨"ERR", 9, 9, .w1c, 0x0, false⟩] },
  { name := "CCH_MNT_LO", base := 0x7F500000018, dims := [], lock := none,
    fields := [⟨"START", 55, 6, .rw, 0x0, false⟩,
      ⟨"SLICE", 4, 0, .rw, 0x0, false⟩,
      ⟨"SET", 16, 5, .rw, 0x0, false⟩,
      ⟨"WAY", 20, 17, .rw, 0x0, false⟩] },
  { name := "CCH_MNT_HI", base := 0x7F500000020, dims := [], lock := none,
    fields := [⟨"END", 55, 6, .rw, 0x0, false⟩,
      ⟨"COUNT", 20, 0, .rw, 0x0, false⟩] },
  { name := "CCH_RRB_CFG", base := 0x7F500000028, dims := [], lock := none,
    fields := [⟨"EN_H", 0, 0, .rw, 0x1, false⟩,
      ⟨"EN_C0", 1, 1, .rw, 0x1, false⟩,
      ⟨"EN_C1", 2, 2, .rw, 0x1, false⟩,
      ⟨"TTL", 15, 4, .rw, 0x0, false⟩] },
  { name := "CCH_RRB_INV", base := 0x7F500000030, dims := [], lock := none,
    fields := [⟨"GO", 0, 0, .w1s, 0x0, false⟩,
      ⟨"BY_NODE", 1, 1, .rw, 0x0, false⟩,
      ⟨"BUSY", 2, 2, .ro, 0x0, false⟩,
      ⟨"NODE", 28, 16, .rw, 0x0, false⟩] },
  { name := "CCH_ERR", base := 0x7F500000100, dims := [(0x20, 3)], lock := none,
    fields := [⟨"CORR", 15, 0, .w1c, 0x0, false⟩,
      ⟨"UNCORR", 31, 16, .w1c, 0x0, false⟩,
      ⟨"TAG_CLEAN", 47, 32, .w1c, 0x0, false⟩,
      ⟨"TAG_DIRTY", 63, 48, .w1c, 0x0, false⟩] },
  { name := "CCH_SC_CARVE", base := 0x7F500000200, dims := [(0x10, 2)], lock := some ⟨0x7F500000200, 6, some (0x7F500000200, 7)⟩,
    fields := [⟨"SCRATCH_WAYS", 3, 0, .rwl, 0x0, true⟩,
      ⟨"LEDGER_WAYS", 5, 4, .ro, 0x0, true⟩,
      ⟨"LOCK", 6, 6, .w1s, 0x0, true⟩,
      ⟨"REFUSED", 7, 7, .w1c, 0x0, false⟩,
      ⟨"CACHE_WAYS", 12, 8, .ro, 0xF, true⟩] },
  { name := "CCH_LEASE_STAT", base := 0x7F500000208, dims := [(0x10, 2)], lock := none,
    fields := [⟨"GRANT", 15, 0, .w1c, 0x0, false⟩,
      ⟨"RECALL", 31, 16, .w1c, 0x0, false⟩,
      ⟨"HOLDOFF", 47, 32, .w1c, 0x0, false⟩] },
  { name := "CCH_HOME_STAT", base := 0x7F500000300, dims := [], lock := none,
    fields := [⟨"STALE_WB", 15, 0, .w1c, 0x0, false⟩,
      ⟨"STRAY", 31, 16, .w1c, 0x0, false⟩,
      ⟨"BACK_INV", 47, 32, .w1c, 0x0, false⟩,
      ⟨"STANDIN_POISON", 63, 48, .w1c, 0x0, false⟩] }]

/-- Register tables of the HBM block (part 8 of the map). -/
def regsHbm8 : List RegSpec := [
  { name := "HBM_CTL", base := 0x7F300000000, dims := [(0x1000000, 12)], lock := none,
    fields := [⟨"QUIESCE", 0, 0, .rw, 0x0, false⟩,
      ⟨"Q_REFUSED", 1, 1, .w1c, 0x0, false⟩,
      ⟨"MARK_THRESH", 9, 2, .rw, 0x10, false⟩,
      ⟨"SCRUB_H", 23, 16, .rw, 0x18, false⟩] },
  { name := "HBM_STAT", base := 0x7F300000008, dims := [(0x1000000, 12)], lock := none,
    fields := [⟨"FAILED", 0, 0, .ro, 0x0, true⟩,
      ⟨"QUIESCED", 1, 1, .ro, 0x0, false⟩,
      ⟨"REBUILDING", 2, 2, .ro, 0x0, false⟩,
      ⟨"Q_ACC", 31, 16, .w1c, 0x0, false⟩,
      ⟨"SCRUB_PASSES", 63, 32, .ro, 0x0, false⟩] },
  { name := "HBM_FAIL_PC", base := 0x7F300000010, dims := [(0x1000000, 12)], lock := none,
    fields := [⟨"PC", 63, 0, .w1s, 0x0, true⟩] },
  { name := "HBM_ECC", base := 0x7F300000018, dims := [(0x1000000, 12)], lock := none,
    fields := [⟨"SEV_CORR", 15, 0, .w1c, 0x0, false⟩,
      ⟨"OUTER_CORR", 31, 16, .w1c, 0x0, false⟩,
      ⟨"ERASURE", 47, 32, .w1c, 0x0, false⟩,
      ⟨"UNCORR", 63, 48, .w1c, 0x0, false⟩] },
  { name := "HBM_ECC2", base := 0x7F300000020, dims := [(0x1000000, 12)], lock := none,
    fields := [⟨"POISON_RD", 15, 0, .w1c, 0x0, false⟩,
      ⟨"FAILED_WR", 31, 16, .w1c, 0x0, false⟩,
      ⟨"SCRUB_FIX", 47, 32, .w1c, 0x0, false⟩,
      ⟨"MARKS", 63, 48, .w1c, 0x0, false⟩] },
  { name := "HBM_ERR_REC0", base := 0x7F300000028, dims := [(0x1000000, 12)], lock := none,
    fields := [⟨"PC", 5, 0, .ro, 0x0, false⟩,
      ⟨"BANK", 11, 6, .ro, 0x0, false⟩,
      ⟨"ROW", 25, 12, .ro, 0x0, false⟩,
      ⟨"COLUMN", 29, 26, .ro, 0x0, false⟩,
      ⟨"VALID", 30, 30, .w1c, 0x0, false⟩,
      ⟨"KIND", 33, 31, .ro, 0x0, false⟩,
      ⟨"LOST", 37, 34, .w1c, 0x0, false⟩] },
  { name := "HBM_ERR_REC1", base := 0x7F300000030, dims := [(0x1000000, 12)], lock := none,
    fields := [⟨"PA", 55, 0, .ro, 0x0, false⟩] },
  { name := "HBM_ERR_REC2", base := 0x7F300000038, dims := [(0x1000000, 12)], lock := none,
    fields := [⟨"LIFE", 63, 0, .ro, 0x0, false⟩] },
  { name := "HBM_WCB_CTL", base := 0x7F300000080, dims := [(0x1000000, 12)], lock := none,
    fields := [⟨"DEADLINE", 15, 0, .rw, 0x7D0, false⟩,
      ⟨"EN", 16, 16, .rw, 0x1, false⟩] },
  { name := "HBM_WCB_STAT", base := 0x7F300000088, dims := [(0x1000000, 12)], lock := none,
    fields := [⟨"OCC", 7, 0, .ro, 0x0, false⟩,
      ⟨"POCC", 13, 8, .ro, 0x0, false⟩,
      ⟨"RMW_DEADLINE", 31, 16, .w1c, 0x0, false⟩,
      ⟨"RMW_EVICT", 47, 32, .w1c, 0x0, false⟩,
      ⟨"PAR_WAIT", 63, 48, .w1c, 0x0, false⟩] },
  { name := "HBM_WCB_STAT2", base := 0x7F300000090, dims := [(0x1000000, 12)], lock := none,
    fields := [⟨"MERGED_FULL", 31, 0, .ro, 0x0, false⟩,
      ⟨"SHD_WR", 63, 32, .ro, 0x0, false⟩] },
  { name := "HBM_THR_CFG", base := 0x7F300000098, dims := [(0x1000000, 12)], lock := none,
    fields := [⟨"T1", 7, 0, .rw, 0x55, false⟩,
      ⟨"T2", 15, 8, .rw, 0x5A, false⟩,
      ⟨"T3", 23, 16, .rw, 0x5F, false⟩,
      ⟨"T4", 31, 24, .rw, 0x64, false⟩,
      ⟨"TRIP", 39, 32, .rw, 0x69, false⟩,
      ⟨"HYST", 43, 40, .rw, 0x3, false⟩] },
  { name := "HBM_THR_STAT", base := 0x7F3000000A0, dims := [(0x1000000, 12)], lock := none,
    fields := [⟨"TEMP", 7, 0, .ro, 0x0, false⟩,
      ⟨"TMAX", 15, 8, .ro, 0x0, true⟩,
      ⟨"STEP", 18, 16, .ro, 0x0, false⟩,
      ⟨"TRIPPED", 19, 19, .w1c, 0x0, false⟩,
      ⟨"THR_US", 63, 32, .ro, 0x0, false⟩] },
  { name := "HBM_REPAIR", base := 0x7F3000000A8, dims := [(0x1000000, 12)], lock := none,
    fields := [⟨"OP", 2, 0, .rw, 0x0, false⟩,
      ⟨"PC", 8, 3, .rw, 0x0, false⟩,
      ⟨"BANK", 14, 9, .rw, 0x0, false⟩,
      ⟨"ROW", 28, 15, .rw, 0x0, false⟩,
      ⟨"DQ", 34, 29, .rw, 0x0, false⟩,
      ⟨"GO", 35, 35, .w1s, 0x0, false⟩] }]

/-- Register tables of the HBM block (part 9 of the map). -/
def regsHbm9 : List RegSpec := [
  { name := "HBM_REPAIR_STAT", base := 0x7F3000000B0, dims := [(0x1000000, 12)], lock := none,
    fields := [⟨"BUSY", 0, 0, .ro, 0x0, false⟩,
      ⟨"RESULT", 3, 1, .ro, 0x0, false⟩,
      ⟨"ROWS", 7, 4, .ro, 0x0, false⟩,
      ⟨"DQS", 9, 8, .ro, 0x0, false⟩] },
  { name := "HBM_MRG_CTL", base := 0x7F3000000B8, dims := [(0x1000000, 12)], lock := none,
    fields := [⟨"PC", 5, 0, .rw, 0x0, false⟩,
      ⟨"GO", 6, 6, .w1s, 0x0, false⟩,
      ⟨"BUSY", 7, 7, .ro, 0x0, false⟩,
      ⟨"RESULT", 10, 8, .ro, 0x0, false⟩,
      ⟨"READ_DQ", 16, 11, .rw, 0x0, false⟩] },
  { name := "HBM_MRG_RES", base := 0x7F3000000C0, dims := [(0x1000000, 12)], lock := none,
    fields := [⟨"LEFT", 7, 0, .ro, 0x0, false⟩,
      ⟨"RIGHT", 15, 8, .ro, 0x0, false⟩,
      ⟨"VLO", 23, 16, .ro, 0x0, false⟩,
      ⟨"VHI", 31, 24, .ro, 0x0, false⟩,
      ⟨"FAIL", 32, 32, .ro, 0x0, false⟩] },
  { name := "HBM_REBUILD", base := 0x7F3000000C8, dims := [(0x1000000, 12)], lock := none,
    fields := [⟨"PC", 5, 0, .rw, 0x0, false⟩,
      ⟨"ALL", 6, 6, .rw, 0x0, false⟩,
      ⟨"GO", 7, 7, .w1s, 0x0, false⟩,
      ⟨"BUSY", 8, 8, .ro, 0x0, false⟩,
      ⟨"ERR", 9, 9, .w1c, 0x0, false⟩,
      ⟨"LINES", 63, 32, .ro, 0x0, false⟩] },
  { name := "HBM_MARK", base := 0x7F300000040, dims := [(0x1000000, 12), (0x8, 8)], lock := none,
    fields := [⟨"LANE0", 3, 0, .rw, 0x0, false⟩,
      ⟨"LANE1", 11, 8, .rw, 0x0, false⟩,
      ⟨"LANE2", 19, 16, .rw, 0x0, false⟩,
      ⟨"LANE3", 27, 24, .rw, 0x0, false⟩,
      ⟨"LANE4", 35, 32, .rw, 0x0, false⟩,
      ⟨"LANE5", 43, 40, .rw, 0x0, false⟩,
      ⟨"LANE6", 51, 48, .rw, 0x0, false⟩,
      ⟨"LANE7", 59, 56, .rw, 0x0, false⟩,
      ⟨"VALID0", 4, 4, .rw, 0x0, false⟩,
      ⟨"VALID1", 12, 12, .rw, 0x0, false⟩,
      ⟨"VALID2", 20, 20, .rw, 0x0, false⟩,
      ⟨"VALID3", 28, 28, .rw, 0x0, false⟩,
      ⟨"VALID4", 36, 36, .rw, 0x0, false⟩,
      ⟨"VALID5", 44, 44, .rw, 0x0, false⟩,
      ⟨"VALID6", 52, 52, .rw, 0x0, false⟩,
      ⟨"VALID7", 60, 60, .rw, 0x0, false⟩] },
  { name := "HBM_SHD_CFG", base := 0x7F30F000000, dims := [(0x10, 8)], lock := some ⟨0x7F30F000000, 34, some (0x7F30F000008, 2)⟩,
    fields := [⟨"STRIPE", 14, 0, .rwl, 0x0, true⟩,
      ⟨"GRANULES", 33, 15, .rwl, 0x0, true⟩,
      ⟨"EN", 34, 34, .w1s, 0x0, true⟩] },
  { name := "HBM_SHD_STAT", base := 0x7F30F000008, dims := [(0x10, 8)], lock := none,
    fields := [⟨"INIT", 0, 0, .ro, 0x0, false⟩,
      ⟨"BAD", 1, 1, .w1c, 0x0, false⟩,
      ⟨"REFUSED", 2, 2, .w1c, 0x0, false⟩,
      ⟨"DEGRADED", 3, 3, .ro, 0x0, true⟩,
      ⟨"DATA", 22, 4, .ro, 0x0, true⟩] },
  { name := "HBM_SHD_ERR", base := 0x7F30F000100, dims := [], lock := none,
    fields := [⟨"RECON", 15, 0, .w1c, 0x0, false⟩,
      ⟨"DEGR_WR", 31, 16, .w1c, 0x0, false⟩,
      ⟨"STALE", 47, 32, .w1c, 0x0, false⟩,
      ⟨"UNPROT", 63, 48, .w1c, 0x0, false⟩] }]

/-- Register tables of the XLT block (part 10 of the map). -/
def regsXlt10 : List RegSpec := [
  { name := "XLT_CTL", base := 0x7F580010000, dims := [], lock := some ⟨0x7F580010000, 1, some (0x7F580010000, 2)⟩,
    fields := [⟨"HOSTSIDE", 0, 0, .rwl, 0x0, true⟩,
      ⟨"LOCK", 1, 1, .w1s, 0x0, true⟩,
      ⟨"REFUSED", 2, 2, .w1c, 0x0, false⟩,
      ⟨"MERGE_EN", 3, 3, .rw, 0x1, false⟩] },
  { name := "XLT_PRI_CFG", base := 0x7F580010008, dims := [], lock := none,
    fields := [⟨"TIMEOUT", 15, 0, .rw, 0x64, false⟩,
      ⟨"EN", 16, 16, .rw, 0x1, false⟩] },
  { name := "XLT_APER", base := 0x7F580010010, dims := [], lock := none,
    fields := [⟨"VALID", 0, 0, .ro, 0x0, false⟩,
      ⟨"BASE", 63, 56, .ro, 0x0, false⟩] },
  { name := "XLT_ERR", base := 0x7F580010030, dims := [], lock := none,
    fields := [⟨"FAULT", 15, 0, .w1c, 0x0, false⟩,
      ⟨"LATE_PRGR", 31, 16, .w1c, 0x0, false⟩,
      ⟨"WALK_POISON", 47, 32, .w1c, 0x0, false⟩,
      ⟨"INV_RETRY", 63, 48, .w1c, 0x0, false⟩] },
  { name := "XLT_ATC_STAT", base := 0x7F580010020, dims := [(0x8, 2)], lock := none,
    fields := [⟨"MISS", 31, 0, .ro, 0x0, false⟩,
      ⟨"PRQ", 47, 32, .w1c, 0x0, false⟩,
      ⟨"PRQ_TIMEOUT", 63, 48, .w1c, 0x0, false⟩] },
  { name := "XLT_IOMMU", base := 0x7F580000000, dims := [(0x8, 512)], lock := none,
    fields := [⟨"DATA", 63, 0, .rw, 0x0, false⟩] }]

/-- Register tables of the HIF block (part 11 of the map). -/
def regsHif11 : List RegSpec := [
  { name := "HIF_ADM_CFG", base := 0x7F100000000, dims := [], lock := none,
    fields := [⟨"HBM_STEP", 2, 0, .rw, 0x3, false⟩,
      ⟨"HBM_LIMIT", 19, 4, .rw, 0x0, false⟩,
      ⟨"FGN_LIMIT", 35, 20, .rw, 0x0, false⟩,
      ⟨"CAP_DEFER", 36, 36, .rw, 0x1, false⟩] },
  { name := "HIF_ADM_CNT", base := 0x7F100000008, dims := [], lock := none,
    fields := [⟨"QFULL", 15, 0, .w1c, 0x0, false⟩,
      ⟨"HBM", 31, 16, .w1c, 0x0, false⟩,
      ⟨"FGN", 47, 32, .w1c, 0x0, false⟩,
      ⟨"CAP", 63, 48, .w1c, 0x0, false⟩] },
  { name := "HIF_DB_ERR", base := 0x7F100000010, dims := [], lock := none,
    fields := [⟨"BAD_PAGE", 15, 0, .w1c, 0x0, false⟩,
      ⟨"BAD_RING", 31, 16, .w1c, 0x0, false⟩,
      ⟨"LAST_PAGE", 41, 32, .ro, 0x0, false⟩] },
  { name := "HIF_PCIE_CFG", base := 0x7F100000018, dims := [], lock := some ⟨0x7F100000018, 12, some (0x7F100000018, 13)⟩,
    fields := [⟨"BIF_A", 1, 0, .rwl, 0x0, true⟩,
      ⟨"BIF_B", 3, 2, .rwl, 0x0, true⟩,
      ⟨"CXL_EN", 11, 4, .rwl, 0x0, true⟩,
      ⟨"LOCK", 12, 12, .w1s, 0x0, true⟩,
      ⟨"REFUSED", 13, 13, .w1c, 0x0, false⟩,
      ⟨"PEER_BRIDGE", 14, 14, .rw, 0x0, false⟩,
      ⟨"RP_P2P", 15, 15, .rw, 0x0, false⟩] },
  { name := "HIF_PCIE_STAT", base := 0x7F100000020, dims := [], lock := none,
    fields := [⟨"EP_UP", 0, 0, .ro, 0x0, false⟩,
      ⟨"RP_UP", 15, 8, .ro, 0x0, false⟩,
      ⟨"RETRAIN", 31, 16, .w1c, 0x0, false⟩,
      ⟨"PEER_UR", 47, 32, .w1c, 0x0, false⟩,
      ⟨"INB_UR", 63, 48, .w1c, 0x0, false⟩] },
  { name := "HIF_HOSTLOST", base := 0x7F100000028, dims := [], lock := none,
    fields := [⟨"LOST", 0, 0, .ro, 0x0, false⟩,
      ⟨"EVENTS", 15, 8, .w1c, 0x0, false⟩,
      ⟨"ABANDONED", 31, 16, .w1c, 0x0, false⟩,
      ⟨"WR_DROP", 63, 32, .ro, 0x0, false⟩] },
  { name := "HIF_ATTACH", base := 0x7F100000030, dims := [], lock := none,
    fields := [⟨"GO", 0, 0, .w1s, 0x0, false⟩,
      ⟨"READY", 1, 1, .ro, 0x0, false⟩,
      ⟨"TIMED_OUT", 2, 2, .w1c, 0x0, false⟩,
      ⟨"TIMEOUT_S", 31, 16, .rw, 0x3C, false⟩] },
  { name := "HIF_HOLD_CFG", base := 0x7F100000038, dims := [], lock := some ⟨0x7F100000038, 0, none⟩,
    fields := [⟨"LOCK", 0, 0, .w1s, 0x0, true⟩,
      ⟨"BASE", 55, 22, .rwl, 0x0, true⟩] },
  { name := "HIF_SQ_BASE", base := 0x7F100010000, dims := [(0x40, 1024)], lock := none,
    fields := [⟨"BASE", 63, 12, .rw, 0x0, false⟩] },
  { name := "HIF_CQ_BASE", base := 0x7F100010008, dims := [(0x40, 1024)], lock := none,
    fields := [⟨"BASE", 63, 12, .rw, 0x0, false⟩] },
  { name := "HIF_RING_CFG", base := 0x7F100010010, dims := [(0x40, 1024)], lock := none,
    fields := [⟨"EN", 0, 0, .rw, 0x0, false⟩,
      ⟨"LOG2SIZE", 5, 1, .rw, 0x4, false⟩,
      ⟨"PASID", 25, 6, .rw, 0x0, false⟩,
      ⟨"PRIO", 27, 26, .rw, 0x0, false⟩,
      ⟨"NOTICE_EN", 28, 28, .rw, 0x0, false⟩,
      ⟨"IRQ_EN", 29, 29, .rw, 0x0, false⟩,
      ⟨"VECTOR", 40, 30, .rw, 0x0, false⟩,
      ⟨"LOC", 41, 41, .rw, 0x0, false⟩,
      ⟨"COAL_CNT", 55, 48, .rw, 0x1, false⟩,
      ⟨"COAL_US", 63, 56, .rw, 0x0, false⟩] },
  { name := "HIF_RING_STAT", base := 0x7F100010018, dims := [(0x40, 1024)], lock := none,
    fields := [⟨"STATE", 2, 0, .ro, 0x0, false⟩,
      ⟨"CAUSE", 6, 3, .ro, 0x0, false⟩,
      ⟨"CFG_REFUSED", 7, 7, .w1c, 0x0, false⟩,
      ⟨"PHASE", 8, 8, .ro, 0x1, false⟩,
      ⟨"OUTSTANDING", 31, 16, .ro, 0x0, false⟩,
      ⟨"HELD", 47, 32, .ro, 0x0, false⟩] },
  { name := "HIF_RING_PTR", base := 0x7F100010020, dims := [(0x40, 1024)], lock := none,
    fields := [⟨"SQ_HEAD", 15, 0, .ro, 0x0, false⟩,
      ⟨"SQ_TAIL", 31, 16, .ro, 0x0, false⟩,
      ⟨"CQ_TAIL", 47, 32, .ro, 0x0, false⟩,
      ⟨"CQ_HEAD", 63, 48, .ro, 0x0, false⟩] },
  { name := "HIF_RING_DBST", base := 0x7F100010028, dims := [(0x40, 1024)], lock := none,
    fields := [⟨"LAST", 3, 0, .ro, 0x0, false⟩,
      ⟨"REFUSED", 31, 16, .w1c, 0x0, false⟩,
      ⟨"ACCEPTED", 63, 32, .ro, 0x0, false⟩] }]

/-- Register tables of the HIF block (part 12 of the map). -/
def regsHif12 : List RegSpec := [
  { name := "HIF_RING_CTL", base := 0x7F100010030, dims := [(0x40, 1024)], lock := none,
    fields := [⟨"STOP", 0, 0, .w1s, 0x0, false⟩,
      ⟨"RESUME", 1, 1, .w1s, 0x0, false⟩,
      ⟨"ABANDON", 2, 2, .w1s, 0x0, false⟩] },
  { name := "HIF_RING_CNT", base := 0x7F100010038, dims := [(0x40, 1024)], lock := none,
    fields := [⟨"ADMITTED", 31, 0, .ro, 0x0, false⟩,
      ⟨"DEFER", 47, 32, .w1c, 0x0, false⟩,
      ⟨"NOTICE_SKIP", 63, 48, .w1c, 0x0, false⟩] },
  { name := "HIF_MSIX_ADDR", base := 0x7F100100000, dims := [(0x10, 2048)], lock := none,
    fields := [⟨"ADDR", 63, 0, .rw, 0x0, false⟩] },
  { name := "HIF_MSIX_DATA", base := 0x7F100100008, dims := [(0x10, 2048)], lock := none,
    fields := [⟨"DATA", 31, 0, .rw, 0x0, false⟩,
      ⟨"MASK", 32, 32, .rw, 0x1, false⟩] },
  { name := "HIF_MSIX_PBA", base := 0x7F100108000, dims := [(0x8, 32)], lock := none,
    fields := [⟨"PENDING", 63, 0, .ro, 0x0, false⟩] }]

/-- Register tables of the FGN block (part 13 of the map). -/
def regsFgn13 : List RegSpec := [
  { name := "FGN_CFG", base := 0x7F400000000, dims := [], lock := some ⟨0x7F400000000, 11, some (0x7F400000000, 12)⟩,
    fields := [⟨"NX", 3, 0, .rwl, 0x0, true⟩,
      ⟨"NY", 6, 4, .rwl, 0x0, true⟩,
      ⟨"NZ", 9, 7, .rwl, 0x0, true⟩,
      ⟨"EN", 10, 10, .rw, 0x0, false⟩,
      ⟨"LOCK", 11, 11, .w1s, 0x0, true⟩,
      ⟨"REFUSED", 12, 12, .w1c, 0x0, false⟩] },
  { name := "FGN_NODE", base := 0x7F400000008, dims := [], lock := none,
    fields := [⟨"NODE", 12, 0, .ro, 0x0, true⟩,
      ⟨"BAD", 13, 13, .ro, 0x0, false⟩,
      ⟨"INC", 31, 16, .ro, 0x0, true⟩] },
  { name := "FGN_SLICE", base := 0x7F400000010, dims := [], lock := none,
    fields := [⟨"ID", 9, 0, .rw, 0x0, false⟩,
      ⟨"X0", 13, 10, .rw, 0x0, false⟩,
      ⟨"XLEN", 18, 14, .rw, 0x0, false⟩,
      ⟨"Y0", 21, 19, .rw, 0x0, false⟩,
      ⟨"YLEN", 25, 22, .rw, 0x0, false⟩,
      ⟨"Z0", 28, 26, .rw, 0x0, false⟩,
      ⟨"ZLEN", 32, 29, .rw, 0x0, false⟩] },
  { name := "FGN_CONN_CFG", base := 0x7F400000018, dims := [], lock := none,
    fields := [⟨"E2E_TO", 15, 0, .rw, 0xFA, false⟩,
      ⟨"RETRY_MAX", 19, 16, .rw, 0x8, false⟩,
      ⟨"IDLE_MS", 47, 32, .rw, 0x3E8, false⟩] },
  { name := "FGN_CONN_STAT", base := 0x7F400000020, dims := [], lock := none,
    fields := [⟨"SEND_USED", 13, 0, .ro, 0x0, false⟩,
      ⟨"RECV_USED", 29, 16, .ro, 0x0, false⟩,
      ⟨"DUP", 47, 32, .w1c, 0x0, false⟩,
      ⟨"OOO", 63, 48, .w1c, 0x0, false⟩] },
  { name := "FGN_ERR", base := 0x7F400000028, dims := [], lock := none,
    fields := [⟨"NO_ROUTE", 15, 0, .w1c, 0x0, false⟩,
      ⟨"CONN_FAIL", 31, 16, .w1c, 0x0, false⟩,
      ⟨"PEER_RESET", 47, 32, .w1c, 0x0, false⟩,
      ⟨"STALE_INC", 63, 48, .w1c, 0x0, false⟩] },
  { name := "FGN_REROUTE", base := 0x7F400000030, dims := [], lock := none,
    fields := [⟨"REROUTES", 15, 0, .w1c, 0x0, false⟩,
      ⟨"DOUBLE_DROP", 27, 16, .w1c, 0x0, false⟩,
      ⟨"LAST_PORT", 31, 28, .ro, 0x0, false⟩,
      ⟨"LIFE_LO", 63, 32, .ro, 0x0, false⟩] },
  { name := "FGN_ERR2", base := 0x7F400000038, dims := [], lock := none,
    fields := [⟨"MISWIRE", 15, 0, .w1c, 0x0, false⟩] },
  { name := "FGN_PORT_CFG", base := 0x7F400000100, dims := [(0x10, 16)], lock := none,
    fields := [⟨"LINKS", 23, 0, .rw, 0x0, false⟩,
      ⟨"EN", 24, 24, .rw, 0x0, false⟩,
      ⟨"GUARD", 25, 25, .rw, 0x0, false⟩,
      ⟨"DIR", 28, 26, .rw, 0x0, false⟩,
      ⟨"PEER", 31, 29, .rw, 0x0, false⟩,
      ⟨"FB_PLANE", 34, 32, .rw, 0x0, false⟩,
      ⟨"FB_EN", 35, 35, .rw, 0x0, false⟩] },
  { name := "FGN_PORT_STAT", base := 0x7F400000108, dims := [(0x10, 16)], lock := none,
    fields := [⟨"UP", 23, 0, .ro, 0x0, false⟩,
      ⟨"STATE", 26, 24, .ro, 0x0, false⟩,
      ⟨"RETRY", 47, 32, .w1c, 0x0, false⟩,
      ⟨"MEMBER_LOSS", 63, 48, .w1c, 0x0, false⟩] },
  { name := "FGN_LINK_STAT", base := 0x7F400000200, dims := [(0x10, 24)], lock := none,
    fields := [⟨"STATE", 2, 0, .ro, 0x0, false⟩,
      ⟨"CABLE", 4, 3, .ro, 0x0, false⟩,
      ⟨"PEER_NODE", 17, 5, .ro, 0x0, false⟩,
      ⟨"PEER_LINK", 22, 18, .ro, 0x0, false⟩,
      ⟨"WARM", 23, 23, .ro, 0x0, false⟩,
      ⟨"TRAINS", 31, 24, .w1c, 0x0, false⟩] },
  { name := "FGN_LINK_ERR", base := 0x7F400000208, dims := [(0x10, 24)], lock := none,
    fields := [⟨"FEC_CORR", 31, 0, .ro, 0x0, false⟩,
      ⟨"FEC_UNCORR", 47, 32, .w1c, 0x0, false⟩,
      ⟨"CRC_NAK", 63, 48, .w1c, 0x0, false⟩] }]

/-- Register tables of the PRS block (part 14 of the map). -/
def regsPrs14 : List RegSpec := [
  { name := "PRS_CFG", base := 0x7F630000000, dims := [(0x100000, 2)], lock := none,
    fields := [⟨"EN", 0, 0, .rw, 0x1, false⟩,
      ⟨"STALL_MS", 31, 16, .rw, 0x3E8, false⟩,
      ⟨"COMM_CNT", 44, 32, .rw, 0x0, false⟩] },
  { name := "PRS_COMM_BASE", base := 0x7F630000008, dims := [(0x100000, 2)], lock := none,
    fields := [⟨"BASE", 55, 6, .rw, 0x0, false⟩] },
  { name := "PRS_CTL", base := 0x7F630000010, dims := [(0x100000, 2)], lock := none,
    fields := [⟨"COMM", 11, 0, .rw, 0x0, false⟩,
      ⟨"ABORT", 12, 12, .w1s, 0x0, false⟩] },
  { name := "PRS_STAT", base := 0x7F630000018, dims := [(0x100000, 2)], lock := none,
    fields := [⟨"ACTIVE", 12, 0, .ro, 0x0, false⟩,
      ⟨"STALLED", 13, 13, .ro, 0x0, false⟩,
      ⟨"STALL_COMM", 27, 16, .ro, 0x0, false⟩,
      ⟨"DONE", 63, 32, .ro, 0x0, false⟩] },
  { name := "PRS_CNT", base := 0x7F630000020, dims := [(0x100000, 2)], lock := none,
    fields := [⟨"DUP", 15, 0, .w1c, 0x0, false⟩,
      ⟨"SEQ_DROP", 31, 16, .w1c, 0x0, false⟩,
      ⟨"MAP_MISMATCH", 47, 32, .w1c, 0x0, false⟩,
      ⟨"POISON", 63, 48, .w1c, 0x0, false⟩] },
  { name := "PRS_CAP", base := 0x7F630000028, dims := [(0x100000, 2)], lock := none,
    fields := [⟨"NOTICES", 15, 0, .w1c, 0x0, false⟩,
      ⟨"ABORTS", 31, 16, .w1c, 0x0, false⟩,
      ⟨"SYMP_US", 63, 32, .ro, 0x0, false⟩] }]

/-- Register tables of the MGT block (part 15 of the map). -/
def regsMgt15 : List RegSpec := [
  { name := "MGT_CORE_CTL", base := 0x7F000100000, dims := [(0x20, 96)], lock := none,
    fields := [⟨"START", 0, 0, .w1s, 0x0, false⟩,
      ⟨"PARK", 1, 1, .w1s, 0x0, false⟩,
      ⟨"OFFLINE", 2, 2, .w1s, 0x0, false⟩,
      ⟨"START_REFUSED", 3, 3, .w1c, 0x0, false⟩] },
  { name := "MGT_CORE_STAT", base := 0x7F000100008, dims := [(0x20, 96)], lock := none,
    fields := [⟨"STATE", 2, 0, .ro, 0x0, false⟩,
      ⟨"PARK_PEND", 3, 3, .ro, 0x0, false⟩,
      ⟨"OFF_CAUSE", 5, 4, .ro, 0x0, false⟩,
      ⟨"FLUSH_FAIL", 6, 6, .ro, 0x0, false⟩,
      ⟨"STARTS", 63, 32, .ro, 0x0, true⟩] },
  { name := "MGT_CORE_PC", base := 0x7F000100010, dims := [(0x20, 96)], lock := none,
    fields := [⟨"PC", 63, 0, .rw, 0x0, false⟩] },
  { name := "MGT_CORE_ARG", base := 0x7F000100018, dims := [(0x20, 96)], lock := none,
    fields := [⟨"ARG", 63, 0, .rw, 0x0, false⟩] },
  { name := "MGT_DDR_STAT", base := 0x7F000200000, dims := [], lock := none,
    fields := [⟨"PRESENT", 11, 0, .ro, 0x0, false⟩,
      ⟨"CH_SIZE", 14, 12, .ro, 0x0, false⟩,
      ⟨"POP_ERR", 15, 15, .ro, 0x0, false⟩] },
  { name := "MGT_DDR_ERR", base := 0x7F000200008, dims := [], lock := none,
    fields := [⟨"CORR", 15, 0, .w1c, 0x0, false⟩,
      ⟨"UNCORR", 31, 16, .w1c, 0x0, false⟩,
      ⟨"LAST_CH", 35, 32, .ro, 0x0, false⟩] },
  { name := "MGT_MEM_CTL", base := 0x7F000200010, dims := [], lock := none,
    fields := [⟨"CXL_LOCK", 0, 0, .w1s, 0x0, true⟩,
      ⟨"REFUSED", 1, 1, .w1c, 0x0, false⟩] },
  { name := "MGT_CXLWIN", base := 0x7F000200100, dims := [(0x8, 8)], lock := none,
    fields := [⟨"EN", 0, 0, .rw, 0x0, true⟩,
      ⟨"BASE_G", 12, 1, .rw, 0x0, true⟩,
      ⟨"SIZE_G", 24, 13, .rw, 0x0, true⟩,
      ⟨"PORT", 28, 25, .rw, 0x0, true⟩,
      ⟨"ERR", 29, 29, .w1c, 0x0, true⟩] },
  { name := "MTIMECMP", base := 0x7F000300000, dims := [(0x8, 96)], lock := none,
    fields := [⟨"CMP", 63, 0, .rw, 0x0, false⟩] },
  { name := "MTIME", base := 0x7F000307FF8, dims := [], lock := none,
    fields := [⟨"TIME", 63, 0, .rw, 0x0, false⟩] }]

/-- Register tables of the PWR block (part 16 of the map). -/
def regsPwr16 : List RegSpec := [
  { name := "PWR_CAP", base := 0x7F002000000, dims := [], lock := none,
    fields := [⟨"HOST_W", 11, 0, .rw, 0xA28, false⟩,
      ⟨"SIDE_W", 27, 16, .ro, 0xA28, false⟩,
      ⟨"EFF_W", 43, 32, .ro, 0xA28, false⟩,
      ⟨"ADM_G", 54, 48, .rw, 0x10, false⟩] },
  { name := "PWR_STAT", base := 0x7F002000008, dims := [], lock := none,
    fields := [⟨"CAPPED", 0, 0, .ro, 0x0, false⟩,
      ⟨"SYMP", 1, 1, .ro, 0x0, false⟩,
      ⟨"THERMAL", 2, 2, .ro, 0x0, false⟩,
      ⟨"LOWLINE", 3, 3, .ro, 0x0, false⟩,
      ⟨"HIGHLINE", 4, 4, .ro, 0x0, false⟩,
      ⟨"CRIT", 5, 5, .w1c, 0x0, false⟩,
      ⟨"CAPLVL", 11, 8, .ro, 0xF, false⟩,
      ⟨"CAPPED_US", 63, 32, .ro, 0x0, false⟩] },
  { name := "PWR_MEAS", base := 0x7F002000010, dims := [], lock := none,
    fields := [⟨"IN_W", 15, 0, .ro, 0x0, false⟩,
      ⟨"VIN_MV", 31, 16, .ro, 0x0, false⟩,
      ⟨"IIN_MA", 47, 32, .ro, 0x0, false⟩] },
  { name := "PWR_ENERGY", base := 0x7F002000018, dims := [], lock := none,
    fields := [⟨"MJ", 63, 0, .ro, 0x0, true⟩] },
  { name := "PWR_SLOPE", base := 0x7F002000020, dims := [], lock := none,
    fields := [⟨"W", 11, 0, .rw, 0x186, false⟩,
      ⟨"FALL_EN", 12, 12, .rw, 0x1, false⟩,
      ⟨"RISE_HELD", 31, 16, .w1c, 0x0, false⟩,
      ⟨"FILLER_MJ", 63, 32, .ro, 0x0, false⟩] },
  { name := "PWR_BUDGET", base := 0x7F002000028, dims := [], lock := none,
    fields := [⟨"TILE_W", 15, 0, .ro, 0x0, false⟩,
      ⟨"HBM_W", 31, 16, .ro, 0x0, false⟩,
      ⟨"HDIE_W", 47, 32, .ro, 0x0, false⟩,
      ⟨"FIXED_W", 63, 48, .ro, 0x0, false⟩] },
  { name := "PWR_PHASE", base := 0x7F002000030, dims := [], lock := none,
    fields := [⟨"EN", 0, 0, .rw, 0x1, false⟩,
      ⟨"INTERVAL_US", 10, 1, .rw, 0xFA, false⟩,
      ⟨"SIG", 31, 16, .ro, 0x0, false⟩,
      ⟨"HITS", 47, 32, .w1c, 0x0, false⟩,
      ⟨"MISSES", 63, 48, .w1c, 0x0, false⟩] },
  { name := "PWR_DROOP", base := 0x7F002000038, dims := [], lock := none,
    fields := [⟨"MV", 5, 0, .rw, 0x32, false⟩,
      ⟨"RATE", 15, 8, .rw, 0x10, false⟩,
      ⟨"C0", 31, 16, .w1c, 0x0, false⟩,
      ⟨"C1", 47, 32, .w1c, 0x0, false⟩,
      ⟨"HDIE", 63, 48, .w1c, 0x0, false⟩] },
  { name := "PWR_AGE", base := 0x7F002000040, dims := [], lock := none,
    fields := [⟨"WORST_GB", 7, 0, .ro, 0x0, false⟩,
      ⟨"MIN_GB", 15, 8, .ro, 0x0, false⟩,
      ⟨"CHECKS", 31, 16, .ro, 0x0, false⟩,
      ⟨"RAISES", 47, 32, .w1c, 0x0, false⟩,
      ⟨"LIMIT", 48, 48, .w1c, 0x0, false⟩] },
  { name := "PWR_THERM", base := 0x7F002000048, dims := [], lock := none,
    fields := [⟨"TJ_THR", 7, 0, .rw, 0x64, false⟩,
      ⟨"TJ_CRIT", 15, 8, .rw, 0x73, false⟩,
      ⟨"TJ_MAX", 23, 16, .ro, 0x0, false⟩,
      ⟨"HOT", 25, 24, .ro, 0x0, false⟩,
      ⟨"THR_US", 63, 32, .ro, 0x0, false⟩] },
  { name := "PWR_IDLE", base := 0x7F002000050, dims := [], lock := none,
    fields := [⟨"TOL_US", 15, 0, .rw, 0x14, false⟩,
      ⟨"FABRIC_OK", 16, 16, .rw, 0x0, false⟩,
      ⟨"WAKE", 17, 17, .w1s, 0x0, false⟩,
      ⟨"STATE", 19, 18, .ro, 0x0, false⟩,
      ⟨"HYST_US", 31, 20, .rw, 0x64, false⟩] },
  { name := "PWR_IDLE_STAT", base := 0x7F002000058, dims := [], lock := none,
    fields := [⟨"POISED", 15, 0, .w1c, 0x0, false⟩,
      ⟨"DORMANT", 31, 16, .w1c, 0x0, false⟩,
      ⟨"STOWED", 47, 32, .w1c, 0x0, false⟩,
      ⟨"LAST_WAKE_US", 63, 48, .ro, 0x0, false⟩] },
  { name := "PWR_PDIE", base := 0x7F002000060, dims := [], lock := none,
    fields := [⟨"OK", 3, 0, .ro, 0xF, true⟩,
      ⟨"FAULT", 7, 4, .ro, 0x0, true⟩,
      ⟨"LAST_OFF", 11, 8, .ro, 0x0, true⟩,
      ⟨"FAILOVERS", 27, 12, .w1c, 0x0, true⟩] },
  { name := "PWR_GOV", base := 0x7F002001000, dims := [(0x8, 96)], lock := none,
    fields := [⟨"CEIL", 6, 0, .ro, 0x40, false⟩,
      ⟨"FLOOR", 14, 8, .ro, 0x0, false⟩,
      ⟨"GOV_CLK", 63, 32, .ro, 0x0, false⟩] }]

/-- Register tables of the TST block (part 17 of the map). -/
def regsTst17 : List RegSpec := [
  { name := "TST_YAR_CFG", base := 0x7F780000000, dims := [], lock := none,
    fields := [⟨"HB_US", 3, 0, .rw, 0x8, false⟩] },
  { name := "TST_YAR_STAT", base := 0x7F780000008, dims := [], lock := none,
    fields := [⟨"FATAL", 0, 0, .ro, 0x0, false⟩,
      ⟨"FATAL_CODE", 15, 8, .ro, 0x0, false⟩,
      ⟨"TILE_FAULTS", 31, 16, .w1c, 0x0, false⟩,
      ⟨"DEGRADED", 47, 32, .w1c, 0x0, false⟩] },
  { name := "TST_EVQ_BASE", base := 0x7F780000010, dims := [], lock := none,
    fields := [⟨"BASE", 55, 12, .rw, 0x0, false⟩] },
  { name := "TST_EVQ_CFG", base := 0x7F780000018, dims := [], lock := none,
    fields := [⟨"EN", 0, 0, .rw, 0x0, false⟩,
      ⟨"LOG2N", 4, 1, .rw, 0x6, false⟩,
      ⟨"VECTOR", 15, 5, .rw, 0x0, false⟩,
      ⟨"IRQ_EN", 16, 16, .rw, 0x0, false⟩,
      ⟨"MIN_SEV", 19, 17, .rw, 0x2, false⟩] },
  { name := "TST_EVQ_PTR", base := 0x7F780000020, dims := [], lock := none,
    fields := [⟨"TAIL", 15, 0, .ro, 0x0, false⟩,
      ⟨"HEAD", 31, 16, .rw, 0x0, false⟩,
      ⟨"LOST", 47, 32, .w1c, 0x0, false⟩] },
  { name := "TST_YAR_INJ", base := 0x7F780000028, dims := [], lock := none,
    fields := [⟨"KIND", 1, 0, .rw, 0x0, false⟩,
      ⟨"TARGET", 8, 2, .rw, 0x0, false⟩,
      ⟨"GO", 9, 9, .w1s, 0x0, false⟩,
      ⟨"REFUSED", 10, 10, .w1c, 0x0, false⟩] },
  { name := "TST_YAR_INJ_ADDR", base := 0x7F780000030, dims := [], lock := none,
    fields := [⟨"LINE", 55, 6, .rw, 0x0, false⟩] },
  { name := "TST_SI_CNT", base := 0x7F780000038, dims := [], lock := none,
    fields := [⟨"REG", 15, 0, .w1c, 0x0, false⟩,
      ⟨"HBM", 31, 16, .w1c, 0x0, false⟩,
      ⟨"L2", 47, 32, .w1c, 0x0, false⟩] },
  { name := "TST_DROP", base := 0x7F780000040, dims := [], lock := none,
    fields := [⟨"PREFETCH", 15, 0, .w1c, 0x0, false⟩,
      ⟨"TRACE", 31, 16, .w1c, 0x0, false⟩,
      ⟨"JRNL_POISON", 47, 32, .w1c, 0x0, false⟩,
      ⟨"PCIE_OUT_POISON", 63, 48, .w1c, 0x0, false⟩] },
  { name := "TST_REPAIR_CTL", base := 0x7F780000048, dims := [], lock := none,
    fields := [⟨"WAY", 3, 0, .rw, 0x0, false⟩,
      ⟨"DIE", 4, 4, .rw, 0x0, false⟩,
      ⟨"WAY_DIS", 5, 5, .w1s, 0x0, false⟩,
      ⟨"WAY_EN", 6, 6, .w1s, 0x0, false⟩,
      ⟨"QUEUE_TILE", 7, 7, .w1s, 0x0, false⟩,
      ⟨"PTILE", 14, 8, .rw, 0x0, false⟩] },
  { name := "TST_REPAIR_STAT", base := 0x7F780000050, dims := [], lock := none,
    fields := [⟨"C0_FUSE_FREE", 3, 0, .ro, 0x8, true⟩,
      ⟨"C1_FUSE_FREE", 7, 4, .ro, 0x8, true⟩,
      ⟨"QUEUED", 12, 8, .ro, 0x0, true⟩,
      ⟨"FUSE_WAIT", 31, 16, .w1c, 0x0, false⟩,
      ⟨"C0_WAYS_OFF", 47, 32, .ro, 0x0, true⟩,
      ⟨"C1_WAYS_OFF", 63, 48, .ro, 0x0, true⟩] },
  { name := "TST_EB_CTL", base := 0x7F780000100, dims := [(0x40, 3)], lock := none,
    fields := [⟨"KIND", 3, 0, .rw, 0x0, false⟩,
      ⟨"INDEX", 15, 4, .rw, 0x0, false⟩,
      ⟨"GO", 16, 16, .w1s, 0x0, false⟩,
      ⟨"ABORT", 17, 17, .w1s, 0x0, false⟩,
      ⟨"BUSY", 18, 18, .ro, 0x0, false⟩,
      ⟨"REPAIR", 19, 19, .rw, 0x1, false⟩,
      ⟨"QUEUE_FUSE", 20, 20, .rw, 0x0, false⟩] },
  { name := "TST_EB_RES", base := 0x7F780000108, dims := [(0x40, 3), (0x8, 4)], lock := none,
    fields := [⟨"RESULT", 63, 0, .ro, 0x0, false⟩] },
  { name := "TST_EB_CNT", base := 0x7F780000128, dims := [(0x40, 3)], lock := none,
    fields := [⟨"RUNS", 31, 0, .ro, 0x0, false⟩,
      ⟨"FAILS", 47, 32, .w1c, 0x0, false⟩,
      ⟨"ABORTS", 63, 48, .w1c, 0x0, false⟩] }]

/-- Register tables of the RST block (part 18 of the map). -/
def regsRst18 : List RegSpec := [
  { name := "RST_CTL", base := 0x7F001800000, dims := [], lock := none,
    fields := [⟨"WARM", 0, 0, .w1s, 0x0, false⟩,
      ⟨"COLD", 1, 1, .w1s, 0x0, false⟩] },
  { name := "RST_CFG", base := 0x7F001800008, dims := [], lock := none,
    fields := [⟨"AUTO_WARM", 0, 0, .rw, 0x0, true⟩,
      ⟨"FATAL_DELAY_MS", 15, 8, .rw, 0xA, true⟩,
      ⟨"TRIAL_S", 31, 16, .rw, 0x3C, true⟩] },
  { name := "RST_CAUSE", base := 0x7F001800010, dims := [], lock := none,
    fields := [⟨"LAST", 3, 0, .ro, 0x1, false⟩,
      ⟨"WARM_CNT", 31, 16, .ro, 0x0, true⟩,
      ⟨"COLD_CNT", 63, 32, .ro, 0x0, true⟩] },
  { name := "RST_BOOT", base := 0x7F001800018, dims := [], lock := none,
    fields := [⟨"STEP", 3, 0, .ro, 0x0, false⟩,
      ⟨"FAILED", 4, 4, .ro, 0x0, false⟩,
      ⟨"ERR", 11, 8, .ro, 0x0, false⟩,
      ⟨"DONE", 12, 12, .w1s, 0x0, false⟩,
      ⟨"DONE_REFUSED", 13, 13, .w1c, 0x0, false⟩,
      ⟨"MISSING", 27, 16, .ro, 0x0, false⟩] }]

/-- Register tables of the CLK block (part 19 of the map). -/
def regsClk19 : List RegSpec := [
  { name := "CLK_STAT", base := 0x7F001000000, dims := [], lock := none,
    fields := [⟨"LOCKED", 39, 0, .ro, 0x0, false⟩] },
  { name := "CLK_MEAS", base := 0x7F001000008, dims := [], lock := none,
    fields := [⟨"SEL", 5, 0, .rw, 0x0, false⟩,
      ⟨"GO", 6, 6, .w1s, 0x0, false⟩,
      ⟨"BUSY", 7, 7, .ro, 0x0, false⟩,
      ⟨"HZ", 43, 8, .ro, 0x0, false⟩] }]

/-- Register tables of the SEC block (part 20 of the map). -/
def regsSec20 : List RegSpec := [
  { name := "SEC_CTL", base := 0x7F700000000, dims := [], lock := none,
    fields := [⟨"KEYLOCK", 0, 0, .w1s, 0x0, true⟩,
      ⟨"SVN_COMMIT", 1, 1, .w1s, 0x0, true⟩,
      ⟨"COMP", 3, 2, .rw, 0x1, true⟩,
      ⟨"SVN_REFUSED", 4, 4, .w1c, 0x0, true⟩] },
  { name := "SEC_SIG_STAT", base := 0x7F700000008, dims := [], lock := none,
    fields := [⟨"NEXT", 40, 0, .ro, 0x0, true⟩,
      ⟨"BLOCKS", 49, 41, .ro, 0x0, true⟩,
      ⟨"LOW", 50, 50, .ro, 0x0, true⟩,
      ⟨"EXHAUSTED", 51, 51, .ro, 0x0, true⟩] },
  { name := "SEC_ATT_CTL", base := 0x7F700000010, dims := [], lock := none,
    fields := [⟨"GO", 0, 0, .w1s, 0x0, true⟩,
      ⟨"BUSY", 1, 1, .ro, 0x0, true⟩,
      ⟨"DONE", 2, 2, .w1c, 0x0, true⟩,
      ⟨"RESULT", 5, 3, .ro, 0x0, true⟩,
      ⟨"MASK", 15, 8, .rw, 0xFF, true⟩] },
  { name := "SEC_ATT_ADDR", base := 0x7F700000018, dims := [], lock := none,
    fields := [⟨"BASE", 55, 6, .rw, 0x0, true⟩] },
  { name := "SEC_KEY_CTL", base := 0x7F700000020, dims := [], lock := none,
    fields := [⟨"SLOT", 2, 0, .rw, 0x1, true⟩,
      ⟨"OP", 3, 3, .rw, 0x0, true⟩,
      ⟨"GO", 4, 4, .w1s, 0x0, true⟩,
      ⟨"REFUSED", 5, 5, .w1c, 0x0, true⟩,
      ⟨"USED", 9, 6, .ro, 0x0, true⟩] },
  { name := "SEC_SVN", base := 0x7F700000028, dims := [], lock := none,
    fields := [⟨"MIN1", 5, 0, .ro, 0x0, true⟩,
      ⟨"MIN2", 13, 8, .ro, 0x0, true⟩,
      ⟨"MIN3", 21, 16, .ro, 0x0, true⟩] },
  { name := "SEC_KEY_DATA", base := 0x7F700000040, dims := [(0x8, 4)], lock := none,
    fields := [⟨"DATA", 63, 0, .rw, 0x0, true⟩] },
  { name := "SEC_EXT_DATA", base := 0x7F700000060, dims := [(0x8, 4)], lock := none,
    fields := [⟨"DATA", 63, 0, .rw, 0x0, true⟩] },
  { name := "SEC_EXT_CTL", base := 0x7F700000080, dims := [], lock := none,
    fields := [⟨"REG", 2, 0, .rw, 0x6, true⟩,
      ⟨"GO", 3, 3, .w1s, 0x0, true⟩,
      ⟨"REFUSED", 4, 4, .w1c, 0x0, true⟩] },
  { name := "SEC_M", base := 0x7F700000100, dims := [(0x20, 8), (0x8, 4)], lock := none,
    fields := [⟨"WORD", 63, 0, .ro, 0x0, true⟩] }]

/-- Register tables of the MGT block (part 21 of the map). -/
def regsMgt21 : List RegSpec := [
  { name := "MGT_LIFE", base := 0x7F000400000, dims := [], lock := none,
    fields := [⟨"TICKS", 63, 0, .ro, 0x0, true⟩] },
  { name := "MGT_WALL", base := 0x7F000400008, dims := [], lock := none,
    fields := [⟨"SECONDS", 63, 0, .rw, 0x0, true⟩] },
  { name := "MGT_LOG_STAT", base := 0x7F000400010, dims := [], lock := none,
    fields := [⟨"RECORDS", 31, 0, .ro, 0x0, true⟩,
      ⟨"OVERWRITTEN", 47, 32, .w1c, 0x0, true⟩,
      ⟨"FLASH_ERR", 48, 48, .w1c, 0x0, true⟩] },
  { name := "MGT_FW_STAT", base := 0x7F000400018, dims := [], lock := none,
    fields := [⟨"ACTIVE1", 0, 0, .ro, 0x0, true⟩,
      ⟨"ACTIVE2", 8, 8, .ro, 0x0, true⟩,
      ⟨"ACTIVE3", 16, 16, .ro, 0x0, true⟩,
      ⟨"OTHER1", 2, 1, .ro, 0x0, true⟩,
      ⟨"OTHER2", 10, 9, .ro, 0x0, true⟩,
      ⟨"OTHER3", 18, 17, .ro, 0x0, true⟩,
      ⟨"TRIAL1", 3, 3, .ro, 0x0, true⟩,
      ⟨"TRIAL2", 11, 11, .ro, 0x0, true⟩,
      ⟨"TRIAL3", 19, 19, .ro, 0x0, true⟩,
      ⟨"UPDATES", 47, 32, .w1c, 0x0, true⟩,
      ⟨"FALLBACKS", 63, 48, .w1c, 0x0, true⟩] },
  { name := "MGT_PSC_CFG", base := 0x7F000500000, dims := [], lock := none,
    fields := [⟨"SRC_EN", 15, 0, .rw, 0x2, false⟩,
      ⟨"STOP_FULL", 16, 16, .rw, 0x0, false⟩,
      ⟨"SPILL_EN", 17, 17, .rw, 0x0, false⟩] },
  { name := "MGT_PSC_PTR", base := 0x7F000500008, dims := [], lock := none,
    fields := [⟨"WR", 15, 0, .ro, 0x0, false⟩,
      ⟨"DROP", 63, 32, .ro, 0x0, false⟩] },
  { name := "MGT_PSC_MARK", base := 0x7F000500010, dims := [], lock := none,
    fields := [⟨"VALUE", 63, 0, .wo, 0x0, false⟩] },
  { name := "MGT_PSC_SPILL", base := 0x7F000500018, dims := [], lock := none,
    fields := [⟨"LOG2MB", 5, 0, .rw, 0x0, false⟩,
      ⟨"BASE", 55, 12, .rw, 0x0, false⟩] },
  { name := "MGT_PSC_BUF", base := 0x7F000600000, dims := [(0x8, 262144)], lock := none,
    fields := [⟨"WORD", 63, 0, .ro, 0x0, false⟩] }]

/-- Every register table of the spec, joined. -/
def regMap : List RegSpec :=
  regsMgt0 ++ regsTil1 ++ regsTil2 ++ regsTil3 ++ regsLou4 ++ regsEpo5 ++ regsSpw6 ++ regsCch7 ++ regsHbm8 ++ regsHbm9 ++ regsXlt10 ++ regsHif11 ++ regsHif12 ++ regsFgn13 ++ regsPrs14 ++ regsMgt15 ++ regsPwr16 ++ regsTst17 ++ regsRst18 ++ regsClk19 ++ regsSec20 ++ regsMgt21

end Sys2Proof.Machine
end

