-- ==== Sys2Proof/Machine/Bits.lean ====
section
/-!
DEFINITION. Bit fields, byte order and sparse maps: the helpers every other file of the machine reads and writes with.
Multi-byte values are little-endian, as spec/02 (facet images), spec/09 (object table) and spec/19 (firmware images) say.

Where the spec leaves open or is read by inference, and what is taken from outside it (DESIGN CHOICE, DEDUCED, PRESUMED):
notes/assumptions/4.md, 8.md.
-/

namespace Sys2Proof.Machine

/-- Bits [hi:lo] of a number (R7). -/
def nbits (x hi lo : Nat) : Nat := (x >>> lo) % 2 ^ (hi + 1 - lo)

/-- Bits [hi:lo] of a bit vector (R7). -/
def bits {w : Nat} (x : BitVec w) (hi lo : Nat) : Nat := nbits x.toNat hi lo

/-- Bit i of a bit vector, as a truth value. -/
def bitAt {w : Nat} (x : BitVec w) (i : Nat) : Bool := bits x i i == 1

/-- The number of bits of a field. -/
def Fld.width (f : Fld) : Nat := f.hi + 1 - f.lo

/-- The largest value of a field: all its bits one. -/
def Fld.ones (f : Fld) : Nat := 2 ^ f.width - 1

/-- The value of field f of a register. -/
def fget (x : Word) (f : Fld) : Nat := bits x f.hi f.lo

/-- The number n with bits [hi:lo] replaced by v. -/
def nset (n hi lo v : Nat) : Nat :=
  (n >>> (hi + 1)) <<< (hi + 1) + (v % 2 ^ (hi + 1 - lo)) <<< lo + n % 2 ^ lo

/-- The register with field f replaced by v; every other bit stays. -/
def fset (x : Word) (f : Fld) (v : Nat) : Word := BitVec.ofNat 64 (nset x.toNat f.hi f.lo v)

/-- A truth value as a bit. -/
def b2n (b : Bool) : Nat := if b then 1 else 0

/-- The two's-complement value of the low w bits of n. -/
def sgn (w n : Nat) : Int :=
  if n % 2 ^ w < 2 ^ (w - 1) then ((n % 2 ^ w : Nat) : Int) else ((n % 2 ^ w : Nat) : Int) - ((2 ^ w : Nat) : Int)

/-- The low w bits of a two's-complement integer. -/
def unsgn (w : Nat) (i : Int) : Nat := (i % ((2 ^ w : Nat) : Int)).toNat

/-- n rounded down to a multiple of k. -/
def alignDown (n k : Nat) : Nat := n - n % k

/-! ### Bytes -/

/-- The little-endian value of a list of bytes. -/
def leVal : List Byte → Nat
  | []      => 0
  | b :: bs => b.toNat + 256 * leVal bs

/-- The n little-endian bytes of a number. -/
def leBytes : Nat → Nat → List Byte
  | 0,     _ => []
  | n + 1, v => BitVec.ofNat 8 v :: leBytes n (v / 256)

/-- n bytes of a list from an offset; bytes beyond the end are absent. -/
def slice (bs : List Byte) (off n : Nat) : List Byte := (bs.drop off).take n

/-- The little-endian field of n bytes at an offset of a list of bytes. -/
def leAt (bs : List Byte) (off n : Nat) : Nat := leVal (slice bs off n)

/-- The bytes a mask selects, as runs of offset and length. -/
def byteRuns (m : Nat) : List (Nat × Nat) :=
  (List.range 64).foldl (fun rs i =>
    if nbits m i i = 0 then rs else
    match rs.getLast? with
    | some (o, n) => if o + n = i then rs.dropLast ++ [(o, n + 1)] else rs ++ [(i, 1)]
    | none => [(i, 1)]) []

/-! ### Sparse maps: a list of keys and values, keys strictly rising -/

/-- The value under a key, if the map lists it. -/
def mfind {β : Type} : List (Nat × β) → Nat → Option β
  | [],          _ => none
  | (k, v) :: r, a => if k = a then some v else mfind r a

/-- The map with key a bound to v. -/
def mput {β : Type} : List (Nat × β) → Nat → β → List (Nat × β)
  | [],          a, v => [(a, v)]
  | (k, w) :: r, a, v =>
    if a < k then (a, v) :: (k, w) :: r
    else if k = a then (a, v) :: r
    else (k, w) :: mput r a v

/-- The map without key a. -/
def mdel {β : Type} (m : List (Nat × β)) (a : Nat) : List (Nat × β) := m.filter (fun p => p.1 != a)

/-- The value under a key, or the value an unlisted key has. -/
def mget {β : Type} (d : β) (m : List (Nat × β)) (a : Nat) : β := (mfind m a).getD d

/-- The map with key a holding v, where an unlisted key holds d: a key that holds d is not listed. -/
def mset {β : Type} [DecidableEq β] (d : β) (m : List (Nat × β)) (a : Nat) (v : β) : List (Nat × β) :=
  if v = d then mdel m a else mput m a v

/-- The canonical form of a sparse map: keys strictly rising and no key holding the value of an unlisted key. -/
def mwf {β : Type} [DecidableEq β] (d : β) : List (Nat × β) → Bool
  | []               => true
  | (_, v) :: []     => decide (v ≠ d)
  | (k, v) :: (l, w) :: r => decide (v ≠ d) && decide (k < l) && mwf d ((l, w) :: r)

/-- The list with element i replaced. -/
def lset {β : Type} : List β → Nat → β → List β
  | [],      _,     _ => []
  | _ :: r, 0,     v => v :: r
  | x :: r, n + 1, v => x :: lset r n v

/-- The first element that satisfies p, and the list without it. -/
def takeFirst {β : Type} (p : β → Bool) : List β → Option (β × List β)
  | []     => none
  | x :: r => if p x then some (x, r) else
      match takeFirst p r with
      | some (y, r') => some (y, x :: r')
      | none         => none

/-! ### Register fields by the map -/

/-- The index part of an address within a register array: none unless the distance is a sum of index × stride. -/
def dimsOk : List (Nat × Nat) → Nat → Bool
  | [],            off => off == 0
  | (s, c) :: r, off => decide (off / s < c) && dimsOk r (off % s)

/-- The register table that covers an address, if one does (R238). -/
def findSpec : List RegSpec → Nat → Option RegSpec
  | [],     _ => none
  | r :: t, a => if decide (r.base ≤ a) && dimsOk r.dims (a - r.base) then some r else findSpec t a

/-- The register table that covers an address. -/
def regSpec (a : Nat) : Option RegSpec := findSpec regMap a

/-- A register whose fields hold the given table's reset values. -/
def specReset (fs : List FieldSpec) : Nat :=
  fs.foldl (fun n f => nset n f.hi f.lo f.reset) 0

/-- The port settings after cold reset of R405: links, enable, direction and on-board offset. -/
def portReset (p : Nat) : Nat :=
  let mk (links en dir peer : Nat) : Nat := links + en <<< 24 + dir <<< 26 + peer <<< 29
  match p with
  | 0 => mk 0x3 1 1 0
  | 1 => mk 0xC 1 2 0
  | 2 => mk 0x3000 1 3 0
  | 3 => mk 0xC000 1 4 0
  | 4 => mk 0x10 1 5 0
  | 5 => mk 0x10000 1 6 0
  | n => if n ≤ 12 then mk (1 <<< (4 + (n - 5)) + 1 <<< (16 + (n - 5))) 1 0 (n - 5) else 0

/-- The value of the register at an address after cold reset: the reset column of its table, with the port settings of
R405 and the local capability blocks of R21 where a table refers to them. -/
def regReset (a : Nat) : Word :=
  match regSpec a with
  | none   => 0
  | some r =>
    if r.base = FGN_PORT_CFG 0 then BitVec.ofNat 64 (portReset ((a - FGN_PORT_CFG 0) / 16))
    else BitVec.ofNat 64 (specReset r.fields)

end Sys2Proof.Machine
end

