-- ==== Sys2Proof/Machine/Num.lean ====
section
/-!
DEFINITION. Number formats, rounding and conversion (spec/04, R89 to R109), and the group sums of R70.  A value is a NaN
with a sign and the 22 payload bits below the quiet bit, an infinity, or an exact dyadic number.
-/

namespace Sys2Proof.Machine

open Sys2Proof

/-- A number: a NaN (sign, payload bits [21:0] of a binary32 fraction), an infinity, or (-1)^neg · m · 2^e. -/
inductive V where
  | nan (neg : Bool) (pl : Nat)
  | inf (neg : Bool)
  | fin (neg : Bool) (m : Nat) (e : Int)
  deriving DecidableEq, Repr

def V.zero : V := .fin false 0 0
/-- The default NaN (R101). -/
def V.dnan : V := .nan false 0

def V.isNan : V → Bool
  | .nan _ _ => true
  | _ => false
def V.isInf : V → Bool
  | .inf _ => true
  | _ => false
def V.isZero : V → Bool
  | .fin _ m _ => m == 0
  | _ => false
def V.neg? : V → Bool
  | .nan n _ => n
  | .inf n => n
  | .fin n _ _ => n

/-- m · 2^e as an integer multiple of 2^u, for u at or below e. -/
def scaleTo (m : Nat) (e u : Int) : Nat := m * 2 ^ (e - u).toNat

/-- floor(log2) of m · 2^e, m not zero. -/
def ilog (m : Nat) (e : Int) : Int := (Nat.log2 m : Int) + e

/-- |a| ≤ |b| for dyadic magnitudes. -/
def magLe (m1 : Nat) (e1 : Int) (m2 : Nat) (e2 : Int) : Bool :=
  let u := min e1 e2
  decide (scaleTo m1 e1 u ≤ scaleTo m2 e2 u)

/-! ### Rounding (R94, R95) -/

/-- The rounding modes of the conversion unit. -/
inductive RMode where
  | rne | rtz | sr
  deriving DecidableEq, Repr

/-- The rounding mode a two-bit field names; 0b11 is refused before it is used. -/
def rmodeOf (n : Nat) : RMode := if n = 0 then .rne else if n = 1 then .rtz else .sr

/-- A storage format: precision, least exponent, fixed-ulp integer or not, exponent bits and bias, largest finite
magnitude. -/
structure Fmt where
  width : Nat
  ebits : Nat
  bias  : Nat
  p     : Nat
  emin  : Int
  int8  : Bool
  maxM  : Nat
  maxE  : Int
  deriving DecidableEq, Repr

def fE2M1 : Fmt := { width := 4, ebits := 2, bias := 1, p := 2, emin := 0, int8 := false, maxM := 6, maxE := 0 }
def fE2M3 : Fmt := { width := 6, ebits := 2, bias := 1, p := 4, emin := 0, int8 := false, maxM := 15, maxE := -1 }
def fE3M2 : Fmt := { width := 6, ebits := 3, bias := 3, p := 3, emin := -2, int8 := false, maxM := 28, maxE := 0 }
def fE4M3 : Fmt := { width := 8, ebits := 4, bias := 7, p := 4, emin := -6, int8 := false, maxM := 448, maxE := 0 }
def fE5M2 : Fmt := { width := 8, ebits := 5, bias := 15, p := 3, emin := -14, int8 := false, maxM := 57344, maxE := 0 }
def fInt8 : Fmt := { width := 8, ebits := 0, bias := 0, p := 8, emin := 0, int8 := true, maxM := 127, maxE := -6 }
def fBf16 : Fmt := { width := 16, ebits := 8, bias := 127, p := 8, emin := -126, int8 := false, maxM := 255, maxE := 120 }
def fFp16 : Fmt := { width := 16, ebits := 5, bias := 15, p := 11, emin := -14, int8 := false, maxM := 65504, maxE := 0 }
def fB32 : Fmt := { width := 32, ebits := 8, bias := 127, p := 24, emin := -126, int8 := false, maxM := 16777215, maxE := 104 }
def fB64 : Fmt := { width := 64, ebits := 11, bias := 1023, p := 53, emin := -1022, int8 := false, maxM := 2 ^ 53 - 1, maxE := 971 }
/-- The accumulator type ext (R93): binary64 values of a 40-bit significand. -/
def fExt : Fmt := { width := 64, ebits := 11, bias := 1023, p := 40, emin := -1022, int8 := false, maxM := 2 ^ 40 - 1, maxE := 984 }

/-- The format of a descriptor code (R67); none for an unassigned code. -/
def fmtOf (c : Nat) : Option Fmt :=
  match c with
  | 1 => some fE2M1
  | 2 => some fE2M3
  | 3 => some fE3M2
  | 4 => some fE4M3
  | 5 => some fE5M2
  | 6 => some fInt8
  | 8 => some fBf16
  | 9 => some fFp16
  | 0xA => some fB32
  | _ => none

/-- A code names an MX format. -/
def isMx (c : Nat) : Bool := decide (1 ≤ c) && decide (c ≤ 6)

/-- The integer part and the grid exponent of |x| rounded (R94); x = m · 2^e is not zero. -/
def roundMag (f : Fmt) (mode : RMode) (r : Nat) (m : Nat) (e : Int) : Nat × Int :=
  let u : Int := if f.int8 then -6 else max (ilog m e) f.emin - f.p + 1
  if u ≤ e then (scaleTo m e u, u) else
  let sh := (u - e).toNat
  let q := m / 2 ^ sh
  let rem := m % 2 ^ sh
  let up := match mode with
    | .rne => decide (2 * rem > 2 ^ sh) || (2 * rem == 2 ^ sh && q % 2 == 1)
    | .rtz => false
    | .sr  => decide (rem * 2 ^ 32 / 2 ^ sh + r ≥ 2 ^ 32)
  (if up then q + 1 else q, u)

/-- A rounded magnitude exceeds the largest finite one. -/
def Fmt.beyond (f : Fmt) (q : Nat) (u : Int) : Bool := !(magLe q u f.maxM f.maxE)

/-- The stochastic random number (R95). -/
def srRandom (seed ctr : Nat) : Nat :=
  let step (s : Nat × Nat × Nat) (_ : Nat) : Nat × Nat × Nat :=
    let p := s.1 * 0xB5AD4ECB
    let t := (p / 2 ^ 32) ^^^ s.2.1 ^^^ s.2.2
    (t, p % 2 ^ 32, (s.2.2 + 0x7F4A7C15) % 2 ^ 32)
  let f := (List.range 6).foldl step (ctr % 2 ^ 32, (ctr / 2 ^ 32) % 2 ^ 32, seed % 2 ^ 32)
  f.1 ^^^ f.2.1

/-! ### Encodings (R89, R90, R102) -/

/-- The encoding of the finite magnitude q · 2^u on the grid of a floating-point format, without its sign. -/
def Fmt.encMag (f : Fmt) (q : Nat) (u : Int) : Nat :=
  if q = 0 then 0
  else if ilog q u < f.emin then scaleTo q u (f.emin - f.p + 1)
  else
    let lg := ilog q u
    let g := lg - f.p + 1
    let sig := if u ≤ g then q / 2 ^ (g - u).toNat else scaleTo q u g
    (lg + f.bias).toNat * 2 ^ (f.p - 1) + (sig - 2 ^ (f.p - 1))

/-- The sign bit of a format. -/
def Fmt.sign (f : Fmt) (neg : Bool) : Nat := b2n neg * 2 ^ (f.width - 1)

/-- The value of an encoding of an MX element format (R89, R90). -/
def decMx (c : Nat) (x : Nat) : V :=
  match c with
  | 6 =>
    if x % 256 < 128 then .fin false (x % 256) (-6) else .fin true (256 - x % 256) (-6)
  | _ =>
    match fmtOf c with
    | none => .dnan
    | some f =>
      let neg := (x / 2 ^ (f.width - 1)) % 2 == 1
      let E := (x / 2 ^ (f.p - 1)) % 2 ^ f.ebits
      let F := x % 2 ^ (f.p - 1)
      if c = 4 ∧ E = 15 ∧ F = 7 then .dnan
      else if c = 5 ∧ E = 31 then (if F = 0 then .inf neg else .dnan)
      else if E = 0 then .fin neg F (f.emin - f.p + 1)
      else .fin neg (2 ^ (f.p - 1) + F) ((E : Int) - f.bias - f.p + 1)

/-- The value of an encoding of BF16, FP16, binary32 or binary64; a NaN keeps its payload left-aligned (R102). -/
def decIeee (f : Fmt) (x : Nat) : V :=
  let neg := (x / 2 ^ (f.width - 1)) % 2 == 1
  let E := (x / 2 ^ (f.p - 1)) % 2 ^ f.ebits
  let F := x % 2 ^ (f.p - 1)
  if E = 2 ^ f.ebits - 1 then
    if F = 0 then .inf neg
    else
      let pl := F % 2 ^ (f.p - 2)
      .nan neg (if f.p - 2 ≤ 22 then pl * 2 ^ (22 - (f.p - 2)) else pl / 2 ^ (f.p - 2 - 22))
  else if E = 0 then .fin neg F (f.emin - f.p + 1)
  else .fin neg (2 ^ (f.p - 1) + F) ((E : Int) - f.bias - f.p + 1)

/-- The encoding of a NaN in BF16, FP16, binary32 or binary64, quieted (R102). -/
def Fmt.encNan (f : Fmt) (neg : Bool) (pl : Nat) : Nat :=
  let payload := if f.p - 2 ≤ 22 then pl / 2 ^ (22 - (f.p - 2)) else pl * 2 ^ (f.p - 2 - 22)
  f.sign neg + (2 ^ f.ebits - 1) * 2 ^ (f.p - 1) + 2 ^ (f.p - 2) + payload

def Fmt.encInf (f : Fmt) (neg : Bool) : Nat := f.sign neg + (2 ^ f.ebits - 1) * 2 ^ (f.p - 1)
def Fmt.encMax (f : Fmt) (neg : Bool) : Nat := f.sign neg + f.encMag f.maxM f.maxE

/-- The value of a stored element by its format code, MX elements before their scale. -/
def decElem (c x : Nat) : V :=
  if isMx c then decMx c x else
  match fmtOf c with
  | some f => decIeee f x
  | none   => .dnan

/-- A value times 2^k. -/
def V.scale (x : V) (k : Int) : V :=
  match x with
  | .fin n m e => .fin n m (e + k)
  | y => y

/-- An MX element under its block scale; scale 0xFF makes it NaN (R91). -/
def mxValue (c x s : Nat) : V := if s = 0xFF then .dnan else (decMx c x).scale ((s : Int) - 127)

/-! ### Accumulator arithmetic (R97 to R101) -/

/-- A value rounded to nearest even to an accumulator type; overflow gives an infinity (R99). -/
def accRound (f : Fmt) (neg : Bool) (m : Nat) (e : Int) : V :=
  if m = 0 then .fin neg 0 0 else
  let (q, u) := roundMag f .rne 0 m e
  if f.beyond q u then .inf neg else .fin neg q u

/-- The exact signed sum of two dyadic numbers: sign, magnitude, exponent. -/
def dyAdd (n1 : Bool) (m1 : Nat) (e1 : Int) (n2 : Bool) (m2 : Nat) (e2 : Int) : Bool × Nat × Int :=
  let u := min e1 e2
  let a : Int := if n1 then -(scaleTo m1 e1 u : Int) else (scaleTo m1 e1 u : Int)
  let b : Int := if n2 then -(scaleTo m2 e2 u : Int) else (scaleTo m2 e2 u : Int)
  let s := a + b
  if s = 0 then (n1 && n2 && m1 == 0 && m2 == 0, 0, 0)
  else (decide (s < 0), s.natAbs, u)

/-- acc_add (R97, R98, R101). -/
def accAdd (f : Fmt) (x y : V) : V :=
  match x, y with
  | .nan n p, _ => .nan n p
  | _, .nan n p => .nan n p
  | .inf a, .inf b => if a == b then .inf a else .dnan
  | .inf a, _ => .inf a
  | _, .inf b => .inf b
  | .fin n1 m1 e1, .fin n2 m2 e2 =>
    let (n, m, e) := dyAdd n1 m1 e1 n2 m2 e2
    accRound f n m e

/-- acc_mul (R97, R98, R101). -/
def accMul (f : Fmt) (x y : V) : V :=
  match x, y with
  | .nan n p, _ => .nan n p
  | _, .nan n p => .nan n p
  | .inf a, .inf b => .inf (a != b)
  | .inf a, .fin b m _ => if m = 0 then .dnan else .inf (a != b)
  | .fin a m _, .inf b => if m = 0 then .dnan else .inf (a != b)
  | .fin n1 m1 e1, .fin n2 m2 e2 => accRound f (n1 != n2) (m1 * m2) (e1 + e2)

/-- The accumulator type of an operand pair (R70). -/
def accFmt (fmtA : Nat) : Fmt := if isMx fmtA then fExt else fB32

/-- tree (R70): neighbours pairwise, level by level. -/
def treeStep (f : Fmt) : List V → List V
  | a :: b :: r => accAdd f a b :: treeStep f r
  | l => l

def tree (f : Fmt) (l : List V) : V :=
  ((List.range 8).foldl (fun x _ => treeStep f x) l).headD V.zero

/-- The exact value of one MX block pair (R70, R97, R98, R101): 32 element pairs without their scales, and the two scale
codes. -/
def mxExact (ps : List (V × V)) (sa sb : Nat) : V :=
  if sa = 0xFF ∨ sb = 0xFF ∨ ps.any (fun p => p.1.isNan || p.2.isNan) then .dnan
  else if ps.any (fun p => (p.1.isInf && p.2.isZero) || (p.1.isZero && p.2.isInf)) then .dnan
  else
    let infs := (ps.filter (fun p => p.1.isInf || p.2.isInf)).map (fun p => p.1.neg? != p.2.neg?)
    if infs.contains true && infs.contains false then .dnan
    else match infs with
    | n :: _ => .inf n
    | [] =>
      let add (a : Bool × Nat × Int) (p : V × V) : Bool × Nat × Int :=
        match p.1, p.2 with
        | .fin n1 m1 e1, .fin n2 m2 e2 => dyAdd a.1 a.2.1 a.2.2 (n1 != n2) (m1 * m2) (e1 + e2)
        | _, _ => a
      match ps with
      | [] => V.zero
      | p :: r =>
        let first : Bool × Nat × Int := match p.1, p.2 with
          | .fin n1 m1 e1, .fin n2 m2 e2 => (n1 != n2, m1 * m2, e1 + e2)
          | _, _ => (false, 0, 0)
        let (n, m, e) := r.foldl add first
        .fin n m (e + ((sa : Int) - 127) + ((sb : Int) - 127))

/-- One MX block pair's part: its exact value, rounded (R70). -/
def mxPart (ps : List (V × V)) (sa sb : Nat) : V :=
  match mxExact ps sa sb with
  | .fin n m e => accRound fExt n m e
  | v => v

/-- The high BF16 part of a binary32 operand (R70). -/
def splitHi (x : Nat) : V :=
  let v := decIeee fB32 x
  match v with
  | .fin _ _ _ => decIeee fBf16 (x / 65536)
  | .inf n => .inf n
  | .nan n p => .nan n (p / 65536 * 65536)

/-- The low BF16 part of a binary32 operand (R70). -/
def splitLo (x : Nat) : V :=
  match decIeee fB32 x, decIeee fBf16 (x / 65536) with
  | .fin n m e, .fin n2 m2 e2 =>
    let (s, a, g) := dyAdd n m e (!n2) m2 e2
    accRound fBf16 s a g
  | _, _ => V.zero

/-! ### Writing a storage format (R103 to R105) -/

/-- What a written value counts as in ARR_CVT. -/
structure CvtCnt where
  sat : Nat
  inf : Nat
  nanBlk : Nat
  inOvf : Nat
  deriving DecidableEq, Repr

def CvtCnt.zero : CvtCnt := { sat := 0, inf := 0, nanBlk := 0, inOvf := 0 }
def CvtCnt.add (a b : CvtCnt) : CvtCnt :=
  { sat := a.sat + b.sat, inf := a.inf + b.inf, nanBlk := a.nanBlk + b.nanBlk, inOvf := a.inOvf + b.inOvf }

/-- A value written as BF16, FP16 or binary32 (R103). -/
def encOut (f : Fmt) (mode : RMode) (satInf : Bool) (r : Nat) (x : V) : Nat × CvtCnt :=
  match x with
  | .nan n p => (f.encNan n p, .zero)
  | .inf n => (f.encInf n, .zero)
  | .fin n m e =>
    if m = 0 then (f.sign n, .zero) else
    let (q, u) := roundMag f mode r m e
    if f.beyond q u then
      if mode = .rtz ∨ ¬ satInf then (f.encMax n, { CvtCnt.zero with sat := 1 })
      else (f.encInf n, { CvtCnt.zero with inf := 1 })
    else (f.sign n + f.encMag q u, .zero)

/-- A finite element overflows an MX element format at a scale code (R103). -/
def mxOver (f : Fmt) (mode : RMode) (s : Nat) (v : V) (r : Nat) : Bool :=
  match v with
  | .fin _ m e =>
    if m = 0 then false else
    let (q, u) := roundMag f mode r m (e - ((s : Int) - 127))
    f.beyond q u
  | _ => false

/-- Whether a value makes its block a NaN block under R103. -/
def blockNan (c : Nat) (f : Fmt) (mode : RMode) (satInf : Bool) (s : Nat) (v : V) (r : Nat) : Bool :=
  if c = 4 ∨ c = 5 then false else
  match v with
  | .nan _ _ => true
  | .inf _ => true
  | .fin _ _ _ => satInf && mode != .rtz && mxOver f mode s v r

/-- One element of an MX block written at a scale code; the block is no NaN block. -/
def encMxElem (c : Nat) (f : Fmt) (mode : RMode) (satInf : Bool) (s : Nat) (v : V) (r : Nat) : Nat × CvtCnt :=
  match v with
  | .nan n _ => (if c = 5 then f.sign n + 0x7E else f.sign n + 0x7F, .zero)
  | .inf n => (if c = 5 then f.sign n + 0x7C else f.sign n + 0x7F, .zero)
  | .fin n m e =>
    let enc (q : Nat) (u : Int) : Nat :=
      if f.int8 then (if q = 0 then 0 else if n then 256 - q else q) else f.sign n + f.encMag q u
    if m = 0 then (if f.int8 then 0 else f.sign n, .zero) else
    let (q, u) := roundMag f mode r m (e - ((s : Int) - 127))
    if f.beyond q u then
      if mode = .rtz ∨ ¬ satInf then
        (if f.int8 then (if n then 129 else 127) else f.encMax n, { CvtCnt.zero with sat := 1 })
      else (if c = 5 then f.sign n + 0x7C else f.sign n + 0x7F, { CvtCnt.zero with inf := 1 })
    else (enc q u, .zero)

/-- A block of values written at a scale code: element encodings, the scale byte, and the counts (R103, R105). -/
def encBlockAt (c : Nat) (f : Fmt) (mode : RMode) (satInf : Bool) (s : Nat) (vs : List (V × Nat)) :
    List Nat × Nat × CvtCnt :=
  if s = 0xFF ∨ vs.any (fun p => blockNan c f mode satInf s p.1 p.2) then
    (vs.map (fun _ => 0), 0xFF, { CvtCnt.zero with nanBlk := 1 })
  else
    let es := vs.map (fun p => encMxElem c f mode satInf s p.1 p.2)
    (es.map (·.1), s, es.foldl (fun a x => a.add x.2) .zero)

/-- emax of R104. -/
def emaxOf (c : Nat) : Int :=
  match c with
  | 3 => 4
  | 4 => 8
  | 5 => 15
  | 6 => 0
  | _ => 2

/-- The largest finite magnitude of a block, if it has a finite value other than zero. -/
def amax : List (V × Nat) → Option (Nat × Int)
  | [] => none
  | (v, _) :: r =>
    match v with
    | .fin _ m e =>
      if m = 0 then amax r else
      (match amax r with
       | some (m2, e2) => if magLe m e m2 e2 then some (m2, e2) else some (m, e)
       | none => some (m, e))
    | _ => amax r

/-- The scale code of a block under OSCALE = 0 (R104). -/
def blockScale (c : Nat) (f : Fmt) (mode : RMode) (vs : List (V × Nat)) : Nat :=
  match amax vs with
  | none => 0x7F
  | some (m, e) =>
    let e0 := max (-127) (min 127 (ilog m e - emaxOf c))
    let top (p : V × Nat) : Bool := match p.1 with
      | .fin _ m2 e2 => magLe m e m2 e2 && mxOver f mode (e0 + 127).toNat p.1 p.2
      | _ => false
    let e1 := if e0 < 127 ∧ vs.any top then e0 + 1 else e0
    (e1 + 127).toNat

/-- The excess of a block at a scale code (R105). -/
def blockExcess (f : Fmt) (mode : RMode) (s : Nat) (vs : List (V × Nat)) : Nat :=
  let bad (k : Nat) : Bool := vs.any (fun p => mxOver f mode k p.1 p.2)
  if s = 0xFF ∨ ¬ bad s then 0 else
  match (List.range (0xFE - s)).find? (fun x => !(bad (s + x + 1))) with
  | some x => x + 1
  | none => 0xFE - s

/-! ### Packing rows (R92) -/

/-- Element i of b bits in a packed row. -/
def elemAt (b : Nat) (row : List Byte) (i : Nat) : Nat := (leAt row (b * i / 8) ((b + 7) / 8 + 1) >>> (b * i % 8)) % 2 ^ b

/-- The number formed by elements of b bits, element 0 lowest. -/
def packNat (b : Nat) : List Nat → Nat
  | [] => 0
  | x :: r => x % 2 ^ b + 2 ^ b * packNat b r

/-- A packed row of elements of b bits (R92). -/
def packRow (b : Nat) (xs : List Nat) : List Byte := leBytes ((xs.length * b + 7) / 8) (packNat b xs)

/-! ### Input conversion (R107, R108) -/

/-- A value brought to a target format by the input direction: rounded to nearest even, overflow to infinity and counted. -/
def inConv (f : Fmt) (x : V) : V × CvtCnt :=
  match x with
  | .fin n m e =>
    if m = 0 then (x, .zero) else
    let (q, u) := roundMag f .rne 0 m e
    if f.beyond q u then (.inf n, { CvtCnt.zero with inOvf := 1 }) else (.fin n q u, .zero)
  | y => (y, .zero)

/-- The binary32 encoding of a value. -/
def toB32 (x : V) : Nat := (encOut fB32 .rne true 0 x).1
/-- The binary64 encoding of an ext value (R93). -/
def toB64 (x : V) : Nat := (encOut fB64 .rne true 0 x).1

end Sys2Proof.Machine
end

