-- ==== Sys2Proof/Machine/RvFloat.lean ====
section
/-!
DEFINITION. The RISC-V F and D arithmetic of the umbels (R110): five rounding modes, accrued flags, canonical NaNs.

Where the spec leaves open or is read by inference, and what is taken from outside it (DESIGN CHOICE, DEDUCED, PRESUMED):
notes/assumptions/54.md.
-/

namespace Sys2Proof.Machine

/-- The accrued exception flags. -/
abbrev flNX : Nat := 1
abbrev flUF : Nat := 2
abbrev flOF : Nat := 4
abbrev flDZ : Nat := 8
abbrev flNV : Nat := 16

/-- A floating-point datum: a NaN (signalling or quiet), an infinity, or a finite number. -/
inductive Fp where
  | nan (signalling : Bool)
  | inf (neg : Bool)
  | fin (neg : Bool) (m : Nat) (e : Int)
  deriving DecidableEq, Repr

/-- The datum of an encoding. -/
def fpDec (f : Fmt) (x : Nat) : Fp :=
  let neg := (x / 2 ^ (f.width - 1)) % 2 == 1
  let E := (x / 2 ^ (f.p - 1)) % 2 ^ f.ebits
  let F := x % 2 ^ (f.p - 1)
  if E = 2 ^ f.ebits - 1 then
    if F = 0 then .inf neg else .nan (decide (F < 2 ^ (f.p - 2)))
  else if E = 0 then .fin neg F (f.emin - f.p + 1)
  else .fin neg (2 ^ (f.p - 1) + F) ((E : Int) - f.bias - f.p + 1)

/-- The canonical NaN of a format (R110). -/
def fpCanon (f : Fmt) : Nat := f.encNan false 0

def Fp.sNan : Fp → Bool
  | .nan s => s
  | _ => false
def Fp.isNan : Fp → Bool
  | .nan _ => true
  | _ => false

/-- NV for signalling operands. -/
def nvOf (l : List Fp) : Nat := if l.any Fp.sNan then flNV else 0

/-- A magnitude m · 2^e rounded at grid u in a RISC-V rounding mode: the integer part and whether it is inexact. -/
def rvRoundAt (mode : Nat) (neg : Bool) (m : Nat) (e u : Int) : Nat × Bool :=
  if u ≤ e then (scaleTo m e u, false) else
  let sh := (u - e).toNat
  let q := m / 2 ^ sh
  let rem := m % 2 ^ sh
  let up := match mode with
    | 0 => decide (2 * rem > 2 ^ sh) || (2 * rem == 2 ^ sh && q % 2 == 1)
    | 1 => false
    | 2 => neg && rem != 0
    | 3 => !neg && rem != 0
    | _ => decide (2 * rem ≥ 2 ^ sh)
  (if up then q + 1 else q, rem != 0)

/-- A result rounded to a format: encoding and flags; the value is m · 2^e, a little more when sticky. -/
def rvRound (f : Fmt) (mode : Nat) (neg : Bool) (m0 : Nat) (e0 : Int) (sticky : Bool) : Nat × Nat :=
  if m0 = 0 ∧ ¬ sticky then (f.sign neg, 0) else
  let m := 2 * m0 + b2n sticky
  let e := e0 - 1
  let lg := ilog m e
  let (q, nx) := rvRoundAt mode neg m e (max lg f.emin - f.p + 1)
  let u := max lg f.emin - f.p + 1
  if f.beyond q u then
    let toInf : Bool := match mode with
      | 0 => true
      | 1 => false
      | 2 => neg
      | 3 => !neg
      | _ => true
    (if toInf then f.encInf neg else f.encMax neg, flOF + flNX)
  else
    let (q2, _) := rvRoundAt mode neg m e (lg - f.p + 1)
    let tiny : Bool := q2 == 0 || decide (ilog q2 (lg - f.p + 1) < f.emin)
    (f.sign neg + f.encMag q u, (if nx then flNX else 0) + (if nx && tiny then flUF else 0))

/-- Addition: x + y, or x − y. -/
def rvAdd (f : Fmt) (mode : Nat) (x y : Nat) (sub : Bool) : Nat × Nat :=
  let a := fpDec f x
  let b := match fpDec f y with
    | .inf n => Fp.inf (n != sub)
    | .fin n m e => Fp.fin (n != sub) m e
    | z => z
  match a, b with
  | .nan _, _ => (fpCanon f, nvOf [a, b])
  | _, .nan _ => (fpCanon f, nvOf [a, b])
  | .inf n, .inf k => if n == k then (f.encInf n, 0) else (fpCanon f, flNV)
  | .inf n, _ => (f.encInf n, 0)
  | _, .inf k => (f.encInf k, 0)
  | .fin n1 m1 e1, .fin n2 m2 e2 =>
    let (s, m, e) := dyAdd n1 m1 e1 n2 m2 e2
    if m = 0 then
      let zn : Bool := if m1 = 0 ∧ m2 = 0 ∧ n1 = n2 then n1 else decide (mode = 2)
      (f.sign zn, 0)
    else rvRound f mode s m e false

/-- Multiplication. -/
def rvMul (f : Fmt) (mode : Nat) (x y : Nat) : Nat × Nat :=
  let a := fpDec f x
  let b := fpDec f y
  match a, b with
  | .nan _, _ => (fpCanon f, nvOf [a, b])
  | _, .nan _ => (fpCanon f, nvOf [a, b])
  | .inf n, .inf k => (f.encInf (n != k), 0)
  | .inf n, .fin k m _ => if m = 0 then (fpCanon f, flNV) else (f.encInf (n != k), 0)
  | .fin n m _, .inf k => if m = 0 then (fpCanon f, flNV) else (f.encInf (n != k), 0)
  | .fin n1 m1 e1, .fin n2 m2 e2 => rvRound f mode (n1 != n2) (m1 * m2) (e1 + e2) false

/-- Fused multiply-add: ±(x · y) ± z. -/
def rvFma (f : Fmt) (mode : Nat) (x y z : Nat) (negP negC : Bool) : Nat × Nat :=
  let a := fpDec f x
  let b := fpDec f y
  let c := fpDec f z
  let bad : Bool := match a, b with
    | .inf _, .fin _ m _ => m == 0
    | .fin _ m _, .inf _ => m == 0
    | _, _ => false
  if bad then (fpCanon f, flNV)
  else if a.isNan || b.isNan || c.isNan then (fpCanon f, nvOf [a, b, c])
  else
    let pn : Bool := match a, b with
      | .inf n, .inf k => n != k
      | .inf n, .fin k _ _ => n != k
      | .fin n _ _, .inf k => n != k
      | .fin n _ _, .fin k _ _ => n != k
      | _, _ => false
    let pn := pn != negP
    let pInf : Bool := match a, b with
      | .inf _, _ => true
      | _, .inf _ => true
      | _, _ => false
    match c with
    | .inf n =>
      let n := n != negC
      if pInf && pn != n then (fpCanon f, flNV) else (f.encInf n, 0)
    | .fin n m3 e3 =>
      let n := n != negC
      if pInf then (f.encInf pn, 0) else
      (match a, b with
       | .fin _ m1 e1, .fin _ m2 e2 =>
         let (s, m, e) := dyAdd pn (m1 * m2) (e1 + e2) n m3 e3
         if m = 0 then
           let zn : Bool := if m1 * m2 = 0 ∧ m3 = 0 ∧ pn = n then n else decide (mode = 2)
           (f.sign zn, 0)
         else rvRound f mode s m e false
       | _, _ => (fpCanon f, 0))
    | .nan _ => (fpCanon f, 0)

/-- Division. -/
def rvDiv (f : Fmt) (mode : Nat) (x y : Nat) : Nat × Nat :=
  let a := fpDec f x
  let b := fpDec f y
  match a, b with
  | .nan _, _ => (fpCanon f, nvOf [a, b])
  | _, .nan _ => (fpCanon f, nvOf [a, b])
  | .inf _, .inf _ => (fpCanon f, flNV)
  | .inf n, .fin k _ _ => (f.encInf (n != k), 0)
  | .fin n _ _, .inf k => (f.sign (n != k), 0)
  | .fin n1 m1 e1, .fin n2 m2 e2 =>
    if m2 = 0 then (if m1 = 0 then (fpCanon f, flNV) else (f.encInf (n1 != n2), flDZ))
    else if m1 = 0 then (f.sign (n1 != n2), 0)
    else
      let k := 2 * f.p + 4
      let num := m1 * 2 ^ (k + Nat.log2 m2)
      rvRound f mode (n1 != n2) (num / m2) (e1 - e2 - (k + Nat.log2 m2 : Nat)) (num % m2 != 0)

/-- The integer square root, one bit a step. -/
def isqrtFrom (n : Nat) : Nat → Nat → Nat
  | 0, r => r
  | k + 1, r => isqrtFrom n k (if (r + 2 ^ k) * (r + 2 ^ k) ≤ n then r + 2 ^ k else r)

def isqrt (n : Nat) : Nat := isqrtFrom n (Nat.log2 n / 2 + 1) 0

/-- Square root. -/
def rvSqrt (f : Fmt) (mode : Nat) (x : Nat) : Nat × Nat :=
  let a := fpDec f x
  match a with
  | .nan _ => (fpCanon f, nvOf [a])
  | .inf n => if n then (fpCanon f, flNV) else (f.encInf false, 0)
  | .fin n m e =>
    if m = 0 then (f.sign n, 0)
    else if n then (fpCanon f, flNV)
    else
      let k := 2 * f.p + 6
      let e2 := e - k
      let (mm, ee) := if e2 % 2 = 0 then (m * 2 ^ k, e2) else (m * 2 ^ (k + 1), e2 - 1)
      let r := isqrt mm
      rvRound f mode false r (ee / 2) (r * r != mm)

/-- x < y for finite or infinite data. -/
def fpLt (a b : Fp) : Bool :=
  match a, b with
  | .inf n, .inf k => n && !k
  | .inf n, .fin _ _ _ => n
  | .fin _ _ _, .inf k => !k
  | .fin n1 m1 e1, .fin n2 m2 e2 =>
    let (s, m, _) := dyAdd n1 m1 e1 (!n2) m2 e2
    s && m != 0
  | _, _ => false

def fpEq (a b : Fp) : Bool :=
  match a, b with
  | .inf n, .inf k => n == k
  | .fin n1 m1 e1, .fin n2 m2 e2 => (dyAdd n1 m1 e1 (!n2) m2 e2).2.1 == 0
  | _, _ => false

/-- FEQ, FLT and FLE (op 2, 1, 0). -/
def rvCmp (f : Fmt) (op : Nat) (x y : Nat) : Nat × Nat :=
  let a := fpDec f x
  let b := fpDec f y
  let nan := a.isNan || b.isNan
  match op with
  | 2 => (if nan then 0 else b2n (fpEq a b), nvOf [a, b])
  | 1 => (if nan then 0 else b2n (fpLt a b), if nan then flNV else 0)
  | _ => (if nan then 0 else b2n (fpLt a b || fpEq a b), if nan then flNV else 0)

/-- FMIN and FMAX. -/
def rvMinMax (f : Fmt) (isMax : Bool) (x y : Nat) : Nat × Nat :=
  let a := fpDec f x
  let b := fpDec f y
  let fl := nvOf [a, b]
  if a.isNan && b.isNan then (fpCanon f, fl)
  else if a.isNan then (y, fl)
  else if b.isNan then (x, fl)
  else
    let xneg := (x / 2 ^ (f.width - 1)) % 2 == 1
    let lt := fpLt a b || (fpEq a b && xneg)
    (if lt != isMax then x else y, fl)

/-- FCLASS. -/
def rvClass (f : Fmt) (x : Nat) : Nat :=
  match fpDec f x with
  | .nan true => 2 ^ 8
  | .nan false => 2 ^ 9
  | .inf n => if n then 1 else 2 ^ 7
  | .fin n m e =>
    if m = 0 then (if n then 2 ^ 3 else 2 ^ 4)
    else if ilog m e < f.emin then (if n then 2 ^ 2 else 2 ^ 5)
    else (if n then 2 ^ 1 else 2 ^ 6)

/-- A conversion to an integer of w bits, signed or not: its low 64 bits before sign extension, and the flags. -/
def rvToInt (f : Fmt) (mode : Nat) (w : Nat) (signed : Bool) (x : Nat) : Int × Nat :=
  let hi : Int := if signed then 2 ^ (w - 1) - 1 else 2 ^ w - 1
  let lo : Int := if signed then -(2 ^ (w - 1) : Int) else 0
  match fpDec f x with
  | .nan _ => (hi, flNV)
  | .inf n => (if n then lo else hi, flNV)
  | .fin n m e =>
    let (q, nx) := rvRoundAt mode n m e 0
    let v : Int := if n then -(q : Int) else (q : Int)
    if v < lo then (lo, flNV) else if hi < v then (hi, flNV) else (v, if nx then flNX else 0)

/-- A conversion from an integer. -/
def rvFromInt (f : Fmt) (mode : Nat) (v : Int) : Nat × Nat := rvRound f mode (decide (v < 0)) v.natAbs 0 false

/-- A conversion between formats. -/
def rvCvt (f g : Fmt) (mode : Nat) (x : Nat) : Nat × Nat :=
  match fpDec f x with
  | .nan s => (fpCanon g, if s then flNV else 0)
  | .inf n => (g.encInf n, 0)
  | .fin n m e => rvRound g mode n m e false

end Sys2Proof.Machine
end

