-- ==== Sys2Proof/Config.lean ====
section
/-!
DEFINITION. What an implementation fixes and the values the spec leaves open.  Every constant is opaque: nothing can
evaluate it, and a statement that mentions one holds whatever it is (notes/assumptions/2.md, 3.md).
-/

namespace Sys2Proof.Config

/-- The k-th value the spec leaves open; the state's counter supplies k. -/
opaque freeValue : Nat → Word

/-- Whether an XMSS signature verifies: public key, parameter set, message and signature (R48, R515: RFC 8391). -/
opaque xmssVerify : List Byte → Nat → List Byte → List Byte → Bool

/-- Byte i of the XMSS^MT signature Betony makes with an index over a message (R519, R520). -/
opaque attSignature : Nat → List Byte → Nat → Byte

/-- Byte i of ATT_PUB, the 68 bytes of the attestation public key (R519). -/
opaque attPub : Nat → Byte

/-- The vendor key hashes fused at manufacture: firmware (R515) and facets (R48). -/
opaque vendorFwHash : W256
opaque vendorFacetHash : W256

/-- The public key a facet image is presented with: the spec says that its hash must be in the key slot and does not say
where the key itself is carried (R48). -/
opaque facetPubKey : List Byte → List Byte

/-- Whether an encoding that RV64IMFD and the Uluxo extensions leave undefined is the exit instruction of a thread: R145 names
the instruction and the spec gives it no encoding. -/
opaque isExit : W32 → Bool

/-- One less than the descriptors a Prism's intake holds: R382 names the intake and the spec gives no size; it holds at least one. -/
opaque prsIntake : Nat

/-- The owner rank that forms chunk c of a reduction over n ranks: R429 fixes one for each element and does not say which. -/
opaque prsOwner : Nat → Nat → Nat

/-- The package serial number and the silicon stepping code (R519). -/
opaque serial : Word
opaque stepping : Byte

/-- The ordering tag that a sender gives a message, by class and opcode, agent and line: R18 and R19 leave it to the sender. -/
opaque otag : Nat → Nat → Nat → BitVec 12

end Sys2Proof.Config
end

