-- ==== Sys2Proof/Machine/Shake.lean ====
section
/-!
DEFINITION. SHAKE256, as R48, R515 and R517 name it.  The spec does not define the function; its text is that of
FIPS 202 (PRESUMED, notes/assumptions/5.md).  The first 32 output bytes are the digest, byte 0 least significant (R549).

Where the spec leaves open or is read by inference, and what is taken from outside it (DESIGN CHOICE, DEDUCED, PRESUMED):
notes/assumptions/5.md.
-/

namespace Sys2Proof.Machine

open Sys2Proof

/-- The 24 round constants of Keccak-f[1600]. -/
def keccakRC : List Nat :=
  [0x0000000000000001, 0x0000000000008082, 0x800000000000808A, 0x8000000080008000,
   0x000000000000808B, 0x0000000080000001, 0x8000000080008081, 0x8000000000008009,
   0x000000000000008A, 0x0000000000000088, 0x0000000080008009, 0x000000008000000A] ++
  [0x000000008000808B, 0x800000000000008B, 0x8000000000008089, 0x8000000000008003,
   0x8000000000008002, 0x8000000000000080, 0x000000000000800A, 0x800000008000000A,
   0x8000000080008081, 0x8000000000008080, 0x0000000080000001, 0x8000000080008008]

/-- The rotation of lane x + 5y. -/
def keccakRot : List Nat :=
  [0, 1, 62, 28, 27, 36, 44, 6, 55, 20, 3, 10, 43, 25, 39, 41, 45, 15, 21, 8, 18, 2, 61, 56, 14]

/-- A 64-bit lane rotated left. -/
def rot64 (v n : Nat) : Nat := ((v <<< n) ||| (v >>> (64 - n))) % 2 ^ 64

/-- Lane i of a Keccak state held as a list of 25 lanes. -/
def lane (st : List Nat) (i : Nat) : Nat := st.getD i 0

/-- One round of Keccak-f[1600]. -/
def keccakRound (st : List Nat) (rc : Nat) : List Nat :=
  let c := (List.range 5).map (fun x =>
    lane st x ^^^ lane st (x + 5) ^^^ lane st (x + 10) ^^^ lane st (x + 15) ^^^ lane st (x + 20))
  let d := (List.range 5).map (fun x => lane c ((x + 4) % 5) ^^^ rot64 (lane c ((x + 1) % 5)) 1)
  let a := (List.range 25).map (fun i => lane st i ^^^ lane d (i % 5))
  -- pi moves lane (x, y) to (y, 2x + 3y): lane (x, y) of the result comes from (x + 3y, x)
  let b := (List.range 25).map (fun i =>
    let x := i % 5
    let y := i / 5
    let j := (x + 3 * y) % 5 + 5 * x
    rot64 (lane a j) (lane keccakRot j))
  let e := (List.range 25).map (fun i =>
    let x := i % 5
    let y := i / 5
    lane b i ^^^ ((2 ^ 64 - 1 - lane b ((x + 1) % 5 + 5 * y)) &&& lane b ((x + 2) % 5 + 5 * y)))
  match e with
  | []      => []
  | l :: ls => (l ^^^ rc) :: ls

/-- Keccak-f[1600]. -/
def keccakF (st : List Nat) : List Nat := keccakRC.foldl keccakRound st

/-- The 8-byte little-endian lanes of a block of bytes. -/
def blockLanes (bs : List Byte) : List Nat := (List.range 17).map (fun i => leAt bs (8 * i) 8)

/-- One 136-byte block absorbed. -/
def absorb (st : List Nat) (blk : List Byte) : List Nat :=
  keccakF ((List.range 25).map (fun i => lane st i ^^^ lane (blockLanes blk) i))

/-- The message padded to whole 136-byte blocks with the SHAKE suffix. -/
def shakePad (m : List Byte) : List Byte :=
  let r := 136 - m.length % 136
  if r = 1 then m ++ [0x9F] else m ++ 0x1F :: (List.replicate (r - 2) 0 ++ [0x80])

/-- Blocks absorbed one after another, n of them. -/
def absorbAll : Nat → List Nat → List Byte → List Nat
  | 0,     st, _ => st
  | n + 1, st, m => absorbAll n (absorb st (m.take 136)) (m.drop 136)

/-- The 256-bit SHAKE256 output over a message, byte 0 least significant (R549). -/
def shake256 (m : List Byte) : W256 :=
  let p := shakePad m
  let st := absorbAll (p.length / 136) (List.replicate 25 0) p
  BitVec.ofNat 256 (lane st 0 + lane st 1 * 2 ^ 64 + lane st 2 * 2 ^ 128 + lane st 3 * 2 ^ 192)

end Sys2Proof.Machine
end

