-- ==== Sys2Proof/Machine/State.lean ====
section
/-!
DEFINITION. The state of the AE-7116 block as plain data, the outcomes other than a next state, and the state after
reset.  Every register of the spec's register tables lives in `State.regs`, under its own address; what the tables do
not hold (queues, stores, caches, engines, fuses, flash, pins) has a field of its own.

Where the spec leaves open or is read by inference, and what is taken from outside it (DESIGN CHOICE, DEDUCED, PRESUMED):
notes/assumptions/4.md, 7.md, 8.md, 16.md, 26.md, 74.md.
-/

namespace Sys2Proof.Machine

open Sys2Proof

/-! ### Work descriptors -/

/-- A descriptor in flight: the ring it came from and that ring's generation, its 64 bytes, whether it was deferred and
by which cause first (R382), and the counts of capped steps and of host losses when it was admitted, from which CAP and
LOSS of its completion follow (R384, R398); lossAt is 0 for one admitted during a loss. -/
structure Work where
  ring     : Nat
  gen      : Nat
  desc     : Line
  deferred : Bool
  cause    : Nat
  capAt    : Nat
  lossAt   : Nat
  deriving DecidableEq, Repr

/-- A FENCE that holds its ring (R339): the descriptor, whether its body was checked (R378), whether it has started, and
whether its PEER_FLUSH read is outstanding. -/
structure FenceSt where
  work    : Work
  checked : Bool
  started : Bool
  flush   : Bool
  deriving DecidableEq, Repr

/-- What a ring holds beside its registers: descriptors fetched ahead of SQ_HEAD (R372), the deferral causes already
counted for the descriptor at its head and whether its notice was written (R382, R385), the FENCE that holds it, whether
DRAINING was entered by EN = 0, entries written since the last message (R386), a RESUME held until READY (R399), and the
ring's generation, which rises when the ring is abandoned or enabled. -/
structure Ring where
  fetched   : List Line
  deferred  : Bool
  causes    : List Nat
  firstC    : Nat
  fence     : Option FenceSt
  enCleared : Bool
  unsig     : Nat
  resume    : Bool
  gen       : Nat
  deriving DecidableEq, Repr

def Ring.reset : Ring :=
  { fetched := [], deferred := false, causes := [], firstC := 0, fence := none, enCleared := false, unsig := 0,
    resume := false, gen := 0 }

/-! ### Faults, events and management (spec/18, spec/19) -/

/-- A record of the lifetime log's journal (R529): type, severity, sequence number counted without end, life, wall time and payload. -/
structure LogRec where
  kind      : Nat
  sev       : Nat
  estimated : Bool
  seq       : Nat
  life      : Nat
  wall      : Nat
  payload   : List Word
  deriving DecidableEq, Repr

/-- The summary of the lifetime log (R529). -/
structure LogSummary where
  lifeSecs  : Nat
  cold      : Nat
  warm      : Nat
  junction  : List (Nat × Nat)
  vin       : List (Nat × Nat)
  hbm       : List (Nat × Nat)
  links     : List (Nat × Nat)
  guards    : List (Nat × Nat)
  repairs   : List (Nat × Nat)
  inc       : Nat
  deriving DecidableEq, Repr

def LogSummary.reset : LogSummary :=
  { lifeSecs := 0, cold := 0, warm := 0, junction := [], vin := [], hbm := [], links := [], guards := [],
    repairs := [], inc := 0 }

/-- An attestation request in progress (R519): from the sideband or from software, its buffer, its nonce, its mask, and whether
the requester was reset meanwhile (R509). -/
structure AttReq where
  sideband  : Bool
  addr      : Nat
  nonce     : W256
  mask      : Byte
  discarded : Bool
  deriving DecidableEq, Repr

/-- How far a warm reset has run (R508). -/
inductive WarmPhase where
  | idle | asserted | published
  deriving DecidableEq, Repr

/-- An Eyebright test in progress (R496): its target, and the logical state it saved. -/
structure EbRun where
  kind  : Nat
  index : Nat
  deriving DecidableEq, Repr

/-- A response Teasel sends over the sideband (R522). -/
structure SideResp where
  code : Nat
  data : List Byte
  deriving DecidableEq, Repr

/-- A registered facet (R48, R50): its digest, identity, place in the facet store in 64 KiB units, image length, number
of references and whether the entry is marked damaged (R39). -/
structure Facet where
  digest  : W256
  facetId : Nat
  version : Nat
  unit    : Nat
  imgLen  : Nat
  sigOff  : Nat
  refs    : Nat
  damaged : Bool
  deriving DecidableEq, Repr

/-! ### Tiles (spec/02) -/

/-- A bind record (R52): the handle, the parameter values and the port bindings, and the BIND whose load is running. -/
structure BindRec where
  handle : Nat
  params : List Word
  ports  : List Word
  deriving DecidableEq, Repr

/-- A partition of the tile store (R46): kind, first granule, size in granules, rights. -/
structure Part where
  kind   : Nat
  base   : Nat
  size   : Nat
  rights : Nat
  deriving DecidableEq, Repr

/-- A declared stream port (R46): direction (true is out), partition and depth in chunks. -/
structure PortDecl where
  out   : Bool
  part  : Nat
  depth : Nat
  deriving DecidableEq, Repr

/-- One descriptor of a DMA queue: its 32 bytes or, for WRITE_INLINE, the whole descriptor; the process ID its addresses
are translated with; the ring descriptor it came in; and whether it has started. -/
structure DmaEnt where
  desc    : W256
  inline  : Option Line
  pasid   : Nat
  work    : Option Work
  started : Bool
  moved   : Bool
  deriving DecidableEq, Repr

/-- A chunk on a stream: its 64 bytes, whether it is poisoned, and its epoch tag and sequence number (R214). -/
structure Chunk where
  data   : Line
  poison : Bool
  seq    : Nat
  deriving DecidableEq, Repr

/-- A stream port beside its TIL_PORT_STAT register: what an input port holds, what an output port has sent and its peer's
epoch has not committed (R215), credits, the next sequence number to send, the count of chunks arrived, and the places an
input port has freed whose credits are on their way (R55, R214, R215). -/
structure PortSt where
  fifo     : List Chunk
  retained : List Chunk
  credits  : Nat
  nextSeq  : Nat
  accepted : Nat
  owed     : Nat
  deriving DecidableEq, Repr

def PortSt.reset : PortSt := { fifo := [], retained := [], credits := 0, nextSeq := 0, accepted := 0, owed := 0 }

/-- A chunk on the mesh: to a tile's input port, or to Prism from a tile's output port, or to Speedwell; the tile and the
port are the receiver's, but for Prism and Speedwell the sender's (R55, R214). -/
structure MeshChunk where
  kind  : Nat
  tile  : Nat
  port  : Nat
  chunk : Chunk
  deriving DecidableEq, Repr

/-- Prism's side of a tile's stream port (R214, R430): the next sequence number it accepts, the number it may forward below,
tentative chunks, chunks forwarded to the collective, credits to be returned, and, for an input port of the tile, credits
and the next number to send. -/
structure PrsPort where
  accepted : Nat
  released : Nat
  held     : List Chunk
  fwd      : List Chunk
  owed     : Nat
  credits  : Nat
  nextSeq  : Nat
  deriving DecidableEq, Repr

def PrsPort.reset : PrsPort :=
  { accepted := 0, released := 0, held := [], fwd := [], owed := 0, credits := 0, nextSeq := 0 }

/-- A DMA queue's descriptors, oldest first (R56, R58). -/
abbrev DmaQ := List DmaEnt

/-! ### Epochs, sequencer, clover and umbels (spec/03, spec/06 to spec/08) -/

/-- A journal entry (R209): address or port or position, kind, AUX, operand, the descriptor of a COMPLETION, and whether
its line in the mirror is poisoned (R491). -/
structure JEnt where
  addr    : Nat
  kind    : Nat
  aux     : Nat
  operand : Nat
  work    : Option Work
  poison  : Bool
  deriving DecidableEq, Repr

/-- A committed journal with the publisher: epoch number, entries still to apply, the index of the next one, the index of the first entry
that failed, and the entries sent to other nodes that are not answered yet: transaction, node and index (R212, R213). -/
structure Journal where
  num    : Nat
  ents   : List JEnt
  idx    : Nat
  failed : Option Nat
  pend   : List (Nat × Nat × Nat)
  deriving DecidableEq, Repr

/-- The facet sequencer beside TIL_SEQ_STAT (R188 to R195): running or not, general registers, return stack, held
descriptor with its dispatcher position, the worst matrix outcome since TAKE, the last kernel's outcome, a fault whose
outstanding commands are still retiring (R195), whether the program counter has left the range of its register, and whether the held
descriptor has been counted in RC for the matrix-vector path (R119). -/
structure Seq where
  run    : Bool
  g      : List (Nat × Word)
  rstack : List Nat
  held   : Option Work
  pos    : Nat
  worst  : Nat
  kout   : Nat
  fault  : Option Nat
  beyond : Bool
  mvCounted : Bool
  deriving DecidableEq, Repr

def Seq.reset : Seq :=
  { run := false, g := [], rstack := [], held := none, pos := 0, worst := 0, kout := 0, fault := none, beyond := false,
    mvCounted := false }

/-- The phases of an output tile (R65): accumulating, waiting for its drain, draining, converted. -/
inductive OtPhase where
  | acc | wait | drain | conv
  deriving DecidableEq, Repr

/-- The sample of an output tile that Loupe checks (R119 to R121): its number, row and first column within the tile, and for
each column the operands seen so far. -/
structure Samp where
  num : Nat
  row : Nat
  col : Nat
  ops : List (List V × List V)
  cs  : List V
  deriving DecidableEq, Repr

/-- An output tile in an accumulator bank (R65, R112): its bank (2 for the matrix-vector path), rows and columns, its place in D, its sums row by row,
which its drain replaces by the values to convert, whether a poisoned line was used, its blocks' scale codes and trial number under OSCALE = 1, its converted rows and scale
rows with their counts, and for a clover command the command; a sample; the matrix descriptor whose output parameters its drain has
taken (R109, R192); and the reduction positions summed. -/
structure OutTile where
  bank    : Nat
  rows    : Nat
  cols    : Nat
  row0    : Nat
  col0    : Nat
  acc     : List V
  poison  : Bool
  codes   : List Nat
  trial   : Nat
  data    : List (List Byte)
  scales  : List (List Byte)
  cnt     : CvtCnt
  residual : Nat
  phase   : OtPhase
  cmd     : Option Line
  samp    : Option Samp
  desc    : Option Line
  k       : Nat
  deriving DecidableEq, Repr

/-- What an accumulator bank holds of clover or matrix-vector commands (R192, R193): sums of some rows and columns, row by row, those
beyond them zero; whether a poisoned line went into them, the reduction positions summed, the sample of the output tile in progress,
and whether one is in progress. -/
structure Bank where
  rows   : Nat
  cols   : Nat
  acc    : List V
  poison : Bool
  k      : Nat
  samp   : Option Samp
  live   : Bool
  deriving DecidableEq, Repr

def Bank.zero : Bank := { rows := 0, cols := 0, acc := [], poison := false, k := 0, samp := none, live := false }

/-- A weight block of a set (R63): for each column, the kept encodings at each reduction position, and the scale codes;
and whether a line of it was poisoned. -/
structure WBlk where
  cols   : List (List (List Nat) × List Nat)
  poison : Bool
  deriving DecidableEq, Repr

/-- Where a matrix descriptor runs (R72, R79). -/
inductive MatPath where
  | clover | mvp | edge
  deriving DecidableEq, Repr

/-- A matrix descriptor that runs (R64, R76): its path, the output tile and set in progress, the active and the filling
weight half, output tiles retired, and its outcomes so far; pos is its dispatcher position. -/
structure MatJob where
  work     : Work
  pos      : Nat
  path     : MatPath
  ot       : Nat
  set      : Nat
  active   : Option WBlk
  filling  : Option WBlk
  retired  : Nat
  poison   : Bool
  residual : Bool
  rescaled : Bool
  deriving DecidableEq, Repr

/-- A start or resume record (R200). -/
structure EpoRec where
  pc         : Nat
  g          : List (Nat × Word)
  rstack     : List Nat
  held       : Option Work
  pos        : Nat
  rc         : Nat
  ports      : List (Nat × (Nat × Nat))
  kern       : Option Work
  kernBySeq  : Bool
  kernEpochs : Nat
  mat        : Option MatJob
  deriving DecidableEq, Repr

/-- The epoch logic of a logical ID beside its EPO registers: its records, the journal of the open epoch, who opens
(0 none, 1 sequencer, 2 umbel 0), whether the start record is on its way, who commits (0 none, 1 sequencer, 2 umbel 0,
3 boundary, sequencer fault or halt), whether the seal write is out, the last number sent on each Prism port, the number
last committed, the publisher's journals, and whether the sequencer restarts at index 0 once the commit is done. -/
structure EpoSt where
  start     : Option EpoRec
  resume    : Option EpoRec
  jrnl      : List JEnt
  opener    : Nat
  opening   : Bool
  committer : Nat
  sealed    : Bool
  sent      : List (Nat × Nat)
  committed : Nat
  pub       : List Journal
  fault     : Bool
  relaunch  : Bool
  deriving DecidableEq, Repr

def EpoSt.reset : EpoSt :=
  { start := none, resume := none, jrnl := [], opener := 0, opening := false, committer := 0, sealed := false, sent := [],
    committed := 0, pub := [], fault := false, relaunch := false }

/-- Why an umbel is not ready: nothing, an access in progress, a barrier, a semaphore, a stream port, or the epoch
logic. -/
inductive UWait where
  | none | mem | bar | sem | stream | epo
  deriving DecidableEq, Repr

/-- An umbel (R137, R143, R145): pc, active and live lanes, reconvergence stack, registers by 64 × lane + register
(f registers from 32), fcsr by lane, register-cache entries newest first, fills of the waiting instruction, instructions
issued, whether the instruction at the pc has issued and waits, what it waits for, and the chunks a waiting stream
instruction has moved. -/
structure Umb where
  pc      : Nat
  active  : Nat
  live    : Nat
  stack   : List (Nat × Nat)
  regs    : List (Nat × Word)
  fcsr    : List (Nat × Nat)
  rc      : List Nat
  fills   : Nat
  instret : Nat
  issued  : Bool
  wait    : UWait
  moved   : Nat
  deriving DecidableEq, Repr

/-- A running kernel (R132 to R137): its descriptor, whether the sequencer launched it, its umbels not yet exited, the L1
enable of its launch, its committed epochs, the abort's outcome code, and whether the boundary steps are running. -/
structure Kern where
  work     : Work
  bySeq    : Bool
  umbels   : List (Nat × Umb)
  l1en     : Bool
  epochs   : Nat
  abort    : Option Nat
  boundary : Bool
  deriving DecidableEq, Repr

/-- A line of the tile L1 (R151): its bytes, the valid, dirty and poisoned byte masks, and its way. -/
structure L1Line where
  data   : Line
  valid  : Nat
  dirty  : Nat
  pois   : Nat
  way    : Nat
  deriving DecidableEq, Repr

/-- One element of a Loupe patch (R121, R123): the scaled operands in ascending k, c, the value written, its ulp's
exponent, the largest finite value at its scale, and whether it came from an overflow. -/
structure PatchEl where
  a     : List V
  b     : List V
  c     : V
  dev   : V
  ulpE  : Int
  maxM  : Nat
  maxE  : Int
  beyond : Bool
  deriving DecidableEq, Repr

/-- A patch copied to Loupe (R120, R121): its tile, sample number and matrix descriptor, the format of A, the reduction positions, the
bytes copied, its row and first column of D, and its elements. -/
structure Patch where
  tile   : Nat
  sample : Nat
  desc   : Line
  fa     : Nat
  k      : Nat
  bytes  : Nat
  row    : Nat
  col    : Nat
  els    : List PatchEl
  poison : Bool
  deriving DecidableEq, Repr

/-- The Loupe of a C-die beside its registers (R121 to R127): patches offered, those in the patch buffer with the one being
checked first, records oldest first, the threshold count, samples seen (tile and sample number), tiles it has halted, and
whether a halt notice is on its way to the other C-die. -/
structure LouSt where
  offered : List Patch
  buf     : List Patch
  recs    : List (List Word)
  count   : Nat
  seen    : List (Nat × Nat)
  halted  : List Nat
  notice  : Bool
  deriving DecidableEq, Repr

def LouSt.reset : LouSt :=
  { offered := [], buf := [], recs := [], count := 0, seen := [], halted := [], notice := false }

/-- A ledger cell (R224). -/
structure LCell where
  value : Int
  pinf  : Bool
  ninf  : Bool
  nan   : Bool
  ovf   : Bool
  deriving DecidableEq, Repr

def LCell.reset : LCell := { value := 0, pinf := false, ninf := false, nan := false, ovf := false }

/-- A logical tile (spec/02 to spec/08): everything about it that is no register. -/
structure Tile where
  /-- The bind record, and the descriptor whose load is in progress (R51, R52). -/
  bind      : Option BindRec
  loadWork  : Option Work
  /-- The BIND or UNBIND deferred until the tile is READY (R51). -/
  deferred  : Option Work
  /-- The dispatcher's work queue (R60). -/
  wq        : List Work
  /-- The BIND or UNBIND the dispatcher has delivered to the loader, and the work descriptor it has delivered to the
  sequencer, which TAKE takes (R60, R191). -/
  bindIn    : Option Work
  offered   : Option Work
  /-- What the load took from the facet image: microprogram words, routes, partitions, ports (R46, R53). -/
  micro     : List W32
  routes    : List Word
  parts     : List Part
  portDecls : List PortDecl
  /-- The tile store: bytes, and the lines that hold poison (R40). -/
  store     : List Host.Cell
  storePois : List (Nat × Bool)
  /-- DMA queues 0 to 7 (R56), and whether queue 6's head has been taken over from a failed tile (R548). -/
  dma       : List (Nat × DmaQ)
  /-- Stream ports 0 to 7 (R55). -/
  ports     : List (Nat × PortSt)
  /-- Heartbeats stopped by injection (R501). -/
  hbStopped : Bool
  /-- Work descriptors the dispatcher has delivered, which number their positions (R200, R209). -/
  pos       : Nat
  /-- The retire count RC of the logical ID (R119). -/
  rc        : Nat
  epo       : EpoSt
  seq       : Seq
  /-- The running matrix descriptor, output tiles in the banks, the weight blocks of the oldest clover command and of the next one, what
  the banks hold of commands, and queued clover, matrix-vector and conversion commands
  (R64, R65, R192, R193). -/
  mat       : Option MatJob
  outs      : List OutTile
  wblk      : Option WBlk
  wnext     : Option WBlk
  banks     : List (Nat × Bank)
  clv       : List Line
  mvc       : List Line
  cvc       : List W256
  /-- The clover or matrix-vector path stopped under R85 since the sequencer last started. -/
  matStop   : Bool
  /-- The kernel, the tile L1 with its replacement bits by set, and the instruction cache (R132, R150, R139). -/
  kern      : Option Kern
  l1        : List (Nat × L1Line)
  l1lru     : List (Nat × Nat)
  icache    : List (Nat × Line)
  deriving DecidableEq, Repr

def Tile.reset : Tile :=
  { bind := none, loadWork := none, deferred := none, wq := [], bindIn := none, offered := none, micro := [], routes := [], parts := [],
    portDecls := [], store := [], storePois := [], dma := [], ports := [], hbStopped := false, pos := 0, rc := 0,
    epo := EpoSt.reset, seq := Seq.reset, mat := none, outs := [], wblk := none, wnext := none, banks := [], clv := [], mvc := [], cvc := [], matStop := false,
    kern := none, l1 := [], l1lru := [], icache := [] }

/-! ### Translation (spec/13) and caches (spec/10) -/

/-- An entry of a die ATC (R352): a run of 1 to 16 pages of one size from a virtual page, the address its first page
maps to (a physical address, or a host-bus address under R362), and its permissions. -/
structure AtcEnt where
  die   : Nat
  pasid : Nat
  shift : Nat
  vpn   : Nat
  run   : Nat
  pa    : Nat
  host  : Bool
  ats   : Bool
  r     : Bool
  w     : Bool
  x     : Bool
  u     : Bool
  g     : Bool
  d     : Bool
  pbmt  : Nat
  deriving DecidableEq, Repr

/-- A translation or page request: the die, the process ID, the virtual address and the kind of access. -/
structure XReq where
  die   : Nat
  pasid : Nat
  va    : Nat
  kind  : AccessKind
  deriving DecidableEq, Repr

/-- A record of the IOMMU fault queue (R359): the standard cause and the access. -/
structure FaultRec where
  cause : Nat
  req   : XReq
  deriving DecidableEq, Repr

/-- Address translation beside its registers. -/
structure XltSt where
  atc      : List AtcEnt
  /-- Translations asked for and not yet returned; those that an invalidation overtook (R355). -/
  inflight : List XReq
  stale    : List XReq
  /-- Page requests outstanding (R357); accesses a Success has translated again; accesses that failed (R359). -/
  prq      : List XReq
  retried  : List XReq
  failed   : List XReq
  /-- Page requests that timed out and whose response has not arrived (R358). -/
  timedOut : List XReq
  faultQ   : List FaultRec
  /-- The device contexts last found, by die (R349). -/
  ctx      : List (Nat × DevCtx)
  /-- IOFENCE.C commands waiting (R354). -/
  fences   : Nat
  fencesOk : Nat
  /-- ATS Invalidate Requests answered (R361). -/
  atsDone  : Nat
  deriving DecidableEq, Repr

def XltSt.reset : XltSt :=
  { atc := [], inflight := [], stale := [], prq := [], retried := [], failed := [], timedOut := [], faultQ := [],
    ctx := [], fences := 0, fencesOk := 0, atsDone := 0 }

/-- The states of a line in a caching agent (R276): the five stable ones and the transient ones. -/
inductive CSt where
  | I | S | E | M | O | IS_D | I_ONCE | IM_D | SM_D | OM_D | MI_A | OI_A | EI_A | II_A
  deriving DecidableEq, Repr

/-- A line in a caching agent: state, data, poison, its replacement age (R265), its way (beyond 15 once it is being evicted), and
the bytes, by mask, that the write it waits for puts into it. -/
structure CLine where
  st     : CSt
  data   : Line
  poison : Bool
  age    : Nat
  way    : Nat
  pend   : Option (Nat × Line)
  deriving DecidableEq, Repr

def CLine.reset : CLine := { st := .I, data := 0, poison := false, age := 0, way := 0, pend := none }

/-- A request at the home (R274): from a caching agent, or the home's own eviction of a directory entry (R272) and the flush of a
line before a lease is granted (R280). -/
inductive CohOp where
  | rdShared | rdUnique | upgrade | claim | rdOnce | wbDirty | evictClean | cmoClean | cmoFlush | backInv | leaseFlush
  deriving DecidableEq, Repr

/-- A request with its agent and TXID, its streaming mark, and the data of a write-back. -/
structure CReq where
  op     : CohOp
  agent  : Nat
  txid   : Nat
  stream : Bool
  data   : Line
  poison : Bool
  deriving DecidableEq, Repr

/-- The messages that answer requests (R274); COMP and COMP_ACK of a lease are told apart. -/
inductive CMsgOp where
  | snpShared | snpUnique | snpInv | snpOnce | snpClean | snpFlush
  | comp | compAck | rspI | rspS | rspO | rspKeep
  | dataS | dataE | dataM | dataOnce | dataHome | hmemRd | hmemWr
  | error | poisoned | absent | malformed
  | leaseComp | leaseAck | leaseDeny | leaseRecall | leaseReturn
  deriving DecidableEq, Repr

/-- A message on its way: the cache it comes from or goes to, its sender's agent ID and its TXID (R18, R275), the line or the region
base, the requester a snoop names, the data message HMEM_RD asks for, data with poison, whether a snoop found nothing (R277), and
STANDIN. -/
structure CMsg where
  op      : CMsgOp
  agent   : Nat
  src     : Nat
  txid    : Nat
  line    : Nat
  rq      : Nat
  want    : CMsgOp
  data    : Line
  poison  : Bool
  stray   : Bool
  standin : Bool
  deriving DecidableEq, Repr

/-- A directory entry (R272): the owner in E, M or O, whether it is known to be in O, the sharers, and the entry's age and way. -/
structure DirEnt where
  owner   : Option Nat
  inO     : Bool
  sharers : List Nat
  age     : Nat
  way     : Nat
  deriving DecidableEq, Repr

def DirEnt.reset : DirEnt := { owner := none, inO := false, sharers := [], age := 0, way := 0 }

/-- The transaction open on a line (R271): its request, whether COMP_ACK is in, the agents whose responses are awaited, whether
COMP is still to be sent, the agents that answered RSP_I, whether the owner kept it in O or S, whether an absent owner was
asked (R286), and whether the requester was answered by a status instead. -/
structure HTxn where
  req      : CReq
  ack      : Bool
  wait     : List Nat
  needComp : Bool
  gone     : List Nat
  gotO     : Bool
  gotS     : Bool
  lost     : Bool
  failed   : Bool
  deriving DecidableEq, Repr

/-- A transaction outstanding at a caching agent (R18, R275): its TXID, its line or region base, and whether it is a maintenance
request, which has no line state. -/
structure Outst where
  agent : Nat
  txid  : Nat
  line  : Nat
  cmo   : Bool
  deriving DecidableEq, Repr

/-- A line of a remote-read buffer (R292): data, poison, the life counter at its fetch, its age and way. -/
structure RrbLine where
  data   : Line
  poison : Bool
  life   : Nat
  age    : Nat
  way    : Nat
  deriving DecidableEq, Repr

/-- A maintenance operation in progress (R283, R284): CCH_MNT_CTL, _LO and _HI as they were at GO, and the lines of the domain that no
request has been sent for yet. -/
structure MntRun where
  op     : Nat
  mode   : Nat
  target : Nat
  lo     : Word
  hi     : Word
  todo   : List Nat
  deriving DecidableEq, Repr

/-- The home and the protocol beside the registers (spec/10): the directory, open transactions and waiting requests by line, messages
on their way, the agents' outstanding transactions, leases, lease requests pending with their die and whether they were granted, requests that wait for a region,
recalls, holdoffs, the accesses that wait for a lease, the pseudo-LRU trees by 2^20 × agent + set, remote-read buffers by
buffer × 2^56 + line, maintenance in progress, the node an invalidation of the buffers names, and lines and leases a C-die
keeps while the H-die is absent to it (R290). -/
structure CohSt where
  dir     : List (Nat × DirEnt)
  txn     : List (Nat × HTxn)
  queue   : List (Nat × List CReq)
  net     : List CMsg
  outst   : List Outst
  leases  : List Nat
  rtxn    : List (Nat × (Nat × Bool))
  rqueue  : List (Nat × List (Nat × CReq))
  recalls : List Nat
  holdoff : List Nat
  lwait   : List (Nat × (Nat × LineAccess))
  lru     : List (Nat × Nat)
  rrb     : List (Nat × RrbLine)
  mnt     : Option MntRun
  rrbInv  : Option Nat
  island  : List (Nat × List (Nat × CLine))
  isLease : List Nat
  deriving DecidableEq, Repr

def CohSt.reset : CohSt :=
  { dir := [], txn := [], queue := [], net := [], outst := [], leases := [], rtxn := [], rqueue := [], recalls := [], holdoff := [], lwait := [],
    lru := [], rrb := [], mnt := none, rrbInv := none, island := [], isLease := [] }

/-! ### Speedwell (spec/09) -/

/-- The residency states of R253, in the order of STATUS.STATE. -/
inductive ObjState where
  | absent | queued | promoting | resident | writingBack | cancelling | failed
  deriving DecidableEq, Repr

/-- An object (R253): state, reference count, EP, KEEP, the mark that refuses an eviction, granules copied so far, the
frames it holds in unified mode, the granules still to write back, whether a WRITEBACK copies for it while RESIDENT, its
place in the release order, and the GEN of its word. -/
structure SpwObj where
  st     : ObjState
  count  : Nat
  ep     : Bool
  keep   : Bool
  mark   : Bool
  done   : Nat
  frames : List Nat
  toWb   : List Nat
  wb     : Bool
  order  : Nat
  gen    : Nat
  deriving DecidableEq, Repr

def SpwObj.reset : SpwObj :=
  { st := .absent, count := 0, ep := false, keep := false, mark := false, done := 0, frames := [], toWb := [],
    wb := false, order := 0, gen := 0 }

/-- An issued schedule entry (R249, R250): its index and fields, whether its deadline has been reached, whether its event
has been applied, and whether its late arrival has been handled. -/
structure SpwEnt where
  idx    : Nat
  op     : Nat
  reuse  : Nat
  stream : Bool
  object : Nat
  layer  : Nat
  dl     : Nat
  due    : Bool
  done   : Bool
  late   : Bool
  deriving DecidableEq, Repr

/-- A run (R248): its descriptor, the next entry to issue, and the issued entries that have not retired. -/
structure SpwRun where
  work : Work
  next : Nat
  ents : List SpwEnt
  deriving DecidableEq, Repr

/-- Speedwell beside its registers: the run, the objects, the space requests in order, the release counter, the life
counter from which a late arrival counts, whether the first run after a warm reset has yet to come and the granules it left resident that
no object has taken (R257), the object-table entries as last read (R245), and the writes held on BUSY granules, their bytes and their
poison by line (R243). -/
structure SpwSt where
  run    : Option SpwRun
  objs   : List (Nat × SpwObj)
  queue  : List Nat
  relSeq : Nat
  fresh  : Bool
  kept   : List Nat
  table  : List (Nat × Line)
  held   : List Host.Cell
  heldP  : List (Nat × Bool)
  deriving DecidableEq, Repr

def SpwSt.reset : SpwSt := { run := none, objs := [], queue := [], relSeq := 0, fresh := false, kept := [], table := [], held := [], heldP := [] }

/-! ### Fugen and Prism (spec/15) -/

/-- A packet a package sends or forwards: class, opcode, the packet, and how often it has been sent (R425). -/
structure FTx where
  tc    : Nat
  op    : Nat
  pkt   : FPkt
  tries : Nat
  deriving DecidableEq, Repr

/-- A send entry of the connection table (R422, R423): the next sequence number of REQ, RSP and COL, and the packets not yet
acknowledged, oldest first. -/
structure SendConn where
  next  : List Nat
  unack : List FTx
  deriving DecidableEq, Repr

/-- A receive entry (R423, R424): the number expected of each class, packets accepted and not yet acknowledged, and the
incarnation of the source. -/
structure RecvConn where
  expect : List Nat
  since  : List Nat
  inc    : Nat
  deriving DecidableEq, Repr

/-- A Fugen port beside its registers (R412 to R414, R417, R420, R421): the flit number expected, credits by virtual channel, packets that
wait with their channel, the NAKs sent, the class served last, the units other classes send before the next MGT packet while they wait, and
the units that slice packets may take while transit packets wait. -/
structure FPort where
  rx      : Nat
  credits : List (Nat × Nat)
  queue   : List (Nat × FTx)
  naks    : Nat
  turn    : Nat
  mgtDebt : Nat
  room    : Nat
  deriving DecidableEq, Repr

def FPort.reset : FPort := { rx := 0, credits := [], queue := [], naks := 0, turn := 2, mgtDebt := 0, room := 0 }

/-- A packet sent on a port and its virtual channel. -/
structure FOut where
  port : Nat
  vc   : Nat
  tx   : FTx
  deriving DecidableEq, Repr

/-- Fugen beside its registers: connections by node, ports, packets sent in order, COL packets for the other C-die of the package, the next transaction ID, links with stored
coefficients (R410), consecutive training attempts, losses by link, and IDENTs sent. -/
structure FgnSt where
  send     : List (Nat × SendConn)
  recv     : List (Nat × RecvConn)
  ports    : List (Nat × FPort)
  out      : List FOut
  loop     : List FTx
  txid     : Nat
  coef     : List Nat
  attempts : List (Nat × Nat)
  losses   : List (Nat × Nat)
  idents   : List Nat
  deriving DecidableEq, Repr

def FgnSt.reset : FgnSt :=
  { send := [], recv := [], ports := [], out := [], loop := [], txid := 0, coef := [], attempts := [], losses := [], idents := [] }

/-- A chunk of 64 bytes in a collective, and whether it is poisoned. -/
structure ColChunk where
  data   : Line
  poison : Bool
  deriving DecidableEq, Repr

/-- A collective (R427 to R431): its descriptor, rank map, own rank, the contributions by rank × 2^40 + chunk, results by chunk,
whether its inputs were read and sent, chunks taken from its source stream, output chunks sent to its destination stream,
the partials (even) and results (odd) it has sent by chunk, and the lowest cap level noticed while it waits (R433). -/
structure Coll where
  work    : Work
  map     : List Nat
  my      : Nat
  contrib : List (Nat × ColChunk)
  result  : List (Nat × ColChunk)
  loaded  : Bool
  taken   : Nat
  given   : Nat
  told    : List Nat
  waitCap : Option Nat
  deriving DecidableEq, Repr

/-- The Prism of a C-die beside its registers (R426 to R433): the last SEQ admitted by communicator, running collectives by
communicator, those admitted behind them, CDATA of the next SEQ (results under a key above 2^60), and aborts received of
collectives not yet admitted (communicator, SEQ, rank). -/
structure PrsSt where
  last   : List (Nat × Nat)
  run    : List (Nat × Coll)
  queue  : List (Nat × List Work)
  early  : List (Nat × List (Nat × ColChunk))
  aborts : List (Nat × (Nat × Nat))
  deriving DecidableEq, Repr

def PrsSt.reset : PrsSt := { last := [], run := [], queue := [], early := [], aborts := [] }

/-! ### Groups of the state -/

/-- The host interface beside its registers (spec/14): rings, descriptors waiting at the host interface itself (NOP) and
at Betony (REGISTER, UNREGISTER), messages sent, the attach timer. -/
structure HifSt where
  rings       : List (Nat × Ring)
  nopQ        : List Work
  betonyQ     : List Work
  /-- Speedwell's one pending SCHEDULE and each Prism's intake (R382). -/
  spwQ        : List Work
  prsQ        : List (Nat × List Work)
  /-- Admitted descriptors of the HBM and the Fugen class without a final completion (R382). -/
  hbmOut      : Nat
  fgnOut      : Nat
  /-- Meniscus withholds admission of tile work (R468). -/
  capHold     : Bool
  /-- MSI-X messages that left the package or reached an interrupt file: address and data (R386). -/
  msix        : List (Word × W32)
  attachTimer : Bool
  attachGo    : Bool
  /-- Admission stopped by a warm reset (R508). -/
  stopped     : Bool
  /-- The k-th descriptor of each tile group (R61). -/
  groupK      : List (Nat × Nat)
  /-- Host losses so far, counted from 1, and Meniscus steps with a cap in force (R384, R398). -/
  lossCnt     : Nat
  capCnt      : Nat
  /-- The ring whose turn it is and the descriptors it has had admitted in it (R383). -/
  turn        : Nat
  turnUsed    : Nat
  deriving DecidableEq, Repr

def HifSt.reset : HifSt :=
  { rings := [], nopQ := [], betonyQ := [], spwQ := [], prsQ := [], hbmOut := 0, fgnOut := 0, capHold := false, msix := [], attachTimer := false, attachGo := false, stopped := false,
    groupK := [], lossCnt := 1, capCnt := 0, turn := 0, turnUsed := 0 }

/-- Betony, Teasel and Periscope beside their registers (spec/19), fuses and flash included. -/
structure MgtSt where
  straps     : Straps
  /-- Firmware slots: key 2 × component + slot, the image's bytes (R515, R523). -/
  fwImg      : List (Nat × List Byte)
  /-- A component's inactive slot has passed VerifyComplete (R523). -/
  fwVerified : List (Nat × Bool)
  /-- Owner key slots 1 to 4 (R518). -/
  keySlots   : List (Nat × W256)
  /-- The signature index kept in flash (R520). -/
  sigFlash   : Nat
  att        : Option AttReq
  /-- The lifetime log (R529). -/
  log        : List LogRec
  logSeq     : Nat
  summary    : LogSummary
  /-- The histograms since the last cold reset and before: seconds by 32 × die + bin of 5 °C, and by bin of 0.5 V (R529). -/
  histJ      : List (Nat × Nat)
  histV      : List (Nat × Nat)
  lifeSaved  : Nat
  incFlash   : Nat
  coldFlash  : Nat
  /-- The last (LIFE, wall) pair since cold reset (R528). -/
  wall       : Option (Nat × Nat)
  warm       : WarmPhase
  warmCause  : Nat
  teaselUp   : Bool
  restarts   : Nat
  /-- Records Yarrow holds for Teasel while it restarts (R521). -/
  held       : List LogRec
  /-- The last sideband response (R522), and the event messages sent over the sideband: word 0 of a Yarrow event's record, or
  RST_BOOT of a boot failure (R511, R521). -/
  resp       : Option SideResp
  pldm       : List Word
  /-- Periscope: sequence number, entries by index, whether the buffer is full (R525, R526). -/
  pscSeq     : Nat
  pscBuf     : List (Nat × W256)
  pscFull    : Bool
  /-- Blocks copied to the spill ring (R526). -/
  pscSpills  : Nat
  /-- A clock measurement's domain (R531). -/
  clkSel     : Nat
  /-- PWR_GOOD (R539), VAON and the P-dies' rail in regulation (R542). -/
  pwrGood    : Bool
  railUp     : Bool
  deriving DecidableEq, Repr

def MgtSt.reset : MgtSt :=
  { straps := { pos := 0, mgtSel := false }, fwImg := [], fwVerified := [], keySlots := [], sigFlash := 0, att := none,
    log := [], logSeq := 0, summary := LogSummary.reset, histJ := [], histV := [], lifeSaved := 0, incFlash := 0, coldFlash := 0, wall := none,
    warm := .idle, warmCause := 0, teaselUp := true, restarts := 0, held := [], resp := none, pldm := [],
    pscSeq := 0, pscBuf := [], pscFull := false, pscSpills := 0, clkSel := 0, pwrGood := false, railUp := false }

/-- Yarrow and Eyebright beside their registers (spec/18): the event sequence number, tests in progress, isolated
physical tiles, fused repairs, and the repair record. -/
structure YarSt where
  evSeq     : Nat
  tests     : List (Nat × EbRun)
  /-- Physical tiles isolated since cold reset (R36, R501), in order. -/
  isolated  : List Nat
  /-- Spares chosen for logical IDs whose mapping is not yet installed (R36, R487). -/
  mapping   : List (Nat × Nat)
  /-- Fuse entries: physical tiles and system-cache ways (die × 16 + way) burned as bad (R503). -/
  fuseTiles : List Nat
  fuseWays  : List Nat
  /-- Fuse repairs queued for the next cold reset (R502). -/
  queued    : List Nat
  queuedWay : List Nat
  /-- Physical tiles the lifetime log shows a fault of (R502). -/
  faulted   : List Nat
  /-- Uncorrectable errors per way within 24 hours: die × 16 + way to the life of the last (R502). -/
  wayErrs   : List (Nat × Nat)
  /-- The repair record of soft HBM repairs (R321): stack, pseudo-channel, bank, row or DQ. -/
  softRows  : List (Nat × Nat)
  softDqs   : List (Nat × Nat)
  hardRows  : List (Nat × Nat)
  /-- Rows whose hard repair waits for a bring-up with their stack quiesced (R502). -/
  queuedRows : List (Nat × Nat)
  /-- Core test failures recorded in the log (R502). -/
  badCores  : List Nat
  deriving DecidableEq, Repr

def YarSt.reset : YarSt :=
  { evSeq := 0, tests := [], isolated := [], mapping := [], fuseTiles := [], fuseWays := [], queued := [], queuedWay := [],
    faulted := [], wayErrs := [], softRows := [], softDqs := [], hardRows := [], queuedRows := [], badCores := [] }

/-- The stages of a write-combining entry (R309, R315, R316): open, draining by a full mask, its deadline, or eviction, its delta
sent, acknowledged, and released. -/
inductive WcbStage where
  | opened | drain (cause : Nat) | delta | acked | released
  deriving DecidableEq, Repr

/-- A data entry of a write-combining buffer (R314): its line, the bytes that are valid, and its stage. -/
structure WcbEnt where
  line  : Nat
  mask  : Nat
  stage : WcbStage
  deriving DecidableEq, Repr

/-- A repair operation in progress (R320): operation, pseudo-channel, bank, row, DQ, and whether Yarrow asked for it. -/
structure HbmRep where
  op     : Nat
  pc     : Nat
  bank   : Nat
  row    : Nat
  dq     : Nat
  yarrow : Bool
  deriving DecidableEq, Repr

/-- A reconstruction asked for (R310): the line, whether its read has started, and whether the scrubber asked. -/
structure Recon where
  line    : Nat
  started : Bool
  scrub   : Bool
  deriving DecidableEq, Repr

/-- The HBM subsystem beside its registers (spec/11): entries of the write-combining buffers by stack, oldest first; deltas on
their way with their waits counted, and locked stripe lines with the data line that locked each; stale lines by stack; corrected
symbols by 16 × (64 × stack + pseudo-channel) + lane; the scrubbers' next lines; reconstructions; lines corrupted, stripe lines
without protection, and pseudo-channels wiped with the lines written since; repairs in progress; and eyes by 64 × stack + DQ. -/
structure HbmSt where
  wcb     : List (Nat × List WcbEnt)
  deltas  : List (Nat × Bool)
  locks   : List (Nat × Nat)
  stale   : List (Nat × List Nat)
  lanes   : List (Nat × Nat)
  scrub   : List (Nat × Nat)
  recon   : List Recon
  corrupt : List Nat
  unprot  : List Nat
  wiped   : List (Nat × List Nat)
  repair  : List (Nat × HbmRep)
  eyes    : List (Nat × Nat)
  deriving DecidableEq, Repr

def HbmSt.reset : HbmSt :=
  { wcb := [], deltas := [], locks := [], stale := [], lanes := [], scrub := [], recon := [], corrupt := [], unprot := [],
    wiped := [], repair := [], eyes := [] }

/-! ### Yelry cores (spec/12, spec/16) -/

/-- An entry of a store buffer (R330): the physical address of its line, byte mask, data, and whether it has issued. -/
structure SbEnt where
  line   : Nat
  mask   : Nat
  data   : Line
  issued : Bool
  stream : Bool
  deriving DecidableEq, Repr

/-- A reservation (R334): line, address and size of the LR, and whether snoops of the line still wait. -/
structure Resv where
  line : Nat
  addr : Nat
  size : Nat
  held : Bool
  deriving DecidableEq, Repr

/-- A line of an L1 instruction cache, which takes no part in coherence (R442): its bytes, poison, and way. -/
structure IcLine where
  data   : Line
  poison : Bool
  way    : Nat
  deriving DecidableEq, Repr

/-- A Yelry core beside its registers (R330 to R335, R344, R448, R455 to R460): waiting in WFI; instructions that wait for the store
buffer to drain; the buffer, oldest first; the reservation; the last exception (cause and address); what it started with (pc, a0,
a1); ysberr, ysbcnt, yerrst, yerraddr and yerrcnt; the RAS, machine-timer and supervisor-timer interrupts pending; stimecmp; other
CSRs by number; while parking, whether the buffer has drained; and the L1 instruction cache, by line and, for its
pseudo-LRU trees, by set. -/
structure YCore where
  wfi      : Bool
  draining : Bool
  sb       : List SbEnt
  resv     : Option Resv
  exc      : Option (Nat × Nat)
  start    : Option (Word × Word × Word)
  ysberr   : Word
  ysbcnt   : Word
  yerrst   : Word
  yerraddr : Word
  yerrcnt  : Word
  ras      : Bool
  mtip     : Bool
  stip     : Bool
  stimecmp : Word
  csrs     : List (Nat × Word)
  drained  : Bool
  l1i      : List (Nat × IcLine)
  l1iLru   : List (Nat × Nat)
  l1d      : List (Nat × Nat)
  l1dLru   : List (Nat × Nat)
  deriving DecidableEq, Repr

def YCore.reset : YCore :=
  { wfi := false, draining := false, sb := [], resv := none, exc := none, start := none, ysberr := 0, ysbcnt := 0, yerrst := 0,
    yerraddr := 0, yerrcnt := 0, ras := false, mtip := false, stip := false, stimecmp := 0, csrs := [], drained := false,
    l1i := [], l1iLru := [], l1d := [], l1dLru := [] }

/-! ### Craone (spec/01) and power (spec/17) -/

/-- A host-link site of a C-die (R11): without power, training, or trained. -/
inductive SiteSt where
  | off | training | trained
  deriving DecidableEq, Repr

/-- Craone beside its registers (R11, R13, R22, R24 to R27): links whose UCIe link is up, links on which the peer's CAP has come, links
that had RETURN before UCIe was up, credits of the local transmitter by 8 × link + class, the minor version in force by link,
transactions a stand-in has answered (link, requester, TXID), the host-link sites by 2 × die + (1 for south), the DIE_SIDE that each
physical C-die's peer reported, and the physical C-dies that confirmed their orientation. -/
structure CraSt where
  up       : List Nat
  capGot   : List Nat
  returned : List Nat
  credits  : List (Nat × Nat)
  vmin     : List (Nat × Nat)
  answered : List (Nat × Nat × Nat)
  sites    : List (Nat × SiteSt)
  heard    : List (Nat × Bool)
  oriented : List Nat
  deriving DecidableEq, Repr

def CraSt.reset : CraSt :=
  { up := [], capGot := [], returned := [], credits := [], vmin := [], answered := [], sites := [], heard := [], oriented := [] }

/-- An entry of Meniscus's phase table (R467): signature, measured power of each class in 1/256 W, and the signature that
followed it last. -/
structure PhEnt where
  sig   : Nat
  tile  : Nat
  hbm   : Nat
  hdie  : Nat
  fixed : Nat
  next  : Option Nat
  deriving DecidableEq, Repr

/-- Meniscus beside its registers (spec/17): the phase table, most recently used first, the last interval's signature and the
signature predicted for this one; the tile class's governor units in the last step (1/64 of a tile's power each, R469), the
other classes' power in it, filler units spent, clocks withheld by tile in 64ths of a step, spares to be raised (R471);
thermal ceilings by die, dies above the threshold, readings below it, dies at TJ_CRIT; cluster frequencies in MHz; the HBM
level imposed (R466); guard bands by 256 × domain + which of its kind in 2.5 mV steps; the hottest reading of each die; firings and raises of the current ms by die; domains
with stretched clocks; the cause of the last loss of power; and a wake in progress. -/
structure PwrSt where
  phases   : List PhEnt
  lastSig  : Option Nat
  next     : Option Nat
  units    : Nat
  others   : Nat
  filler   : Nat
  withheld : List (Nat × Nat)
  boost    : List Nat
  heat     : List (Nat × Nat)
  hot      : List Nat
  cool     : List (Nat × Nat)
  crit     : List Nat
  freq     : List (Nat × Nat)
  hbmLevel : Nat
  gb       : List (Nat × Nat)
  temps    : List (Nat × Nat)
  fired    : List (Nat × Nat)
  raised   : List Nat
  stretch  : List Nat
  lastOff  : Nat
  waking   : Bool
  deriving DecidableEq, Repr

def PwrSt.reset : PwrSt :=
  { phases := [], lastSig := none, next := none, units := 0, others := 0, filler := 0, withheld := [], boost := [], heat := [],
    hot := [], cool := [], crit := [], freq := [], hbmLevel := 0, gb := [], temps := [], fired := [], raised := [], stretch := [], lastOff := 0,
    waking := false }

/-- A write that left for a register of the package, or through a root port, where its arrival is a command of its own. -/
structure SentWr where
  addr   : Nat
  data   : List Byte
  poison : Bool
  deriving DecidableEq, Repr

/-- The last answer given to a requester beyond the modelled units: data, an acknowledgement, an error response, ABSENT, MALFORMED
(R20), or the TILE_REMAP status (R38, R391). -/
inductive Rsp where
  | none | data (bytes : List Byte) (poison : Bool) | done | error | absent | malformed | remap
  deriving DecidableEq, Repr

/-! ### The state -/

/-- The state of the block. -/
structure State where
  /-- Commands waiting, first in, first out. -/
  pending   : List Instr
  /-- Every register of the register tables, under its address; an unlisted one holds its reset value. -/
  regs      : List (Nat × Word)
  /-- Memory behind the local map, by local address: HBM, DDR and CXL bytes and the lines that hold poison. -/
  mem       : List Host.Cell
  poison    : List (Nat × Bool)
  /-- What the package has written beyond the PCIe endpoint's egress (R325). -/
  hostMem   : List Host.Cell
  /-- What its units have sent to register addresses and to root ports: physical address, bytes, poison. -/
  sent      : List SentWr
  /-- System-cache scratch bytes, by die × 2^26 + offset (R236, R263). -/
  scratch   : List Host.Cell
  /-- The dirty bits of HBM granules that are set (R244). -/
  gdirty    : List (Nat × Bool)
  hbm       : HbmSt
  cores     : List (Nat × YCore)
  cra       : CraSt
  pwr       : PwrSt
  spw       : SpwSt
  /-- Ledger cells, by die × 2^18 + cell (R224). -/
  ledger    : List (Nat × LCell)
  /-- The Loupe of each C-die. -/
  loupe     : List (Nat × LouSt)
  /-- Logical tiles. -/
  tiles     : List (Nat × Tile)
  /-- Chunks on the mesh, Prism's side of the stream ports by 8 × tile + port, and PRISM_RELEASE markers on their way with
  their sequence numbers (R55, R214). -/
  mesh      : List MeshChunk
  prsPorts  : List (Nat × PrsPort)
  releases  : List (Nat × Nat)
  /-- Registered facets by handle (R48). -/
  facets    : List (Nat × Facet)
  /-- The Fugen fabric, and the Prism of each C-die. -/
  fgn       : FgnSt
  prs       : List (Nat × PrsSt)
  /-- Caching agents by Craone or mesh agent ID (0x10, 0x20, 0x80 + core) and, under 0x100, the home's L3 (in M its own dirty lines,
  in S the others); their lines by line address (R260). -/
  caches    : List (Nat × List (Nat × CLine))
  coh       : CohSt
  xlt       : XltSt
  /-- Interrupt files (R445): the M-level file of core c under c, its S-level file under 96 + c; one bit an identity. -/
  imsic     : List (Nat × BitVec 2048)
  hif       : HifSt
  mgt       : MgtSt
  yar       : YarSt
  /-- What the last access from outside was answered. -/
  answer    : Rsp
  /-- The model's own counter of free values: the next opaque value is Config.freeValue applied to it. -/
  freeCtr   : Nat
  deriving DecidableEq, Repr

/-- Why a step can stop with a fault. -/
inductive Fault where
  /-- Raised by nothing in this model: the spec gives the block no state from which it cannot go on. Safe. -/
  | stuck
  deriving DecidableEq, Repr

/-- Why a command can be refused. -/
inductive Refusal where
  /-- Raised by an arm of exec whose command has no meaning yet: the mnemonic of its row. Safe. -/
  | notModelled (mnemonic : String)
  deriving DecidableEq, Repr

/-- The machine right after reset: no register away from its reset value, no memory listed, nothing waiting. -/
def State.reset : State :=
  { pending := [], regs := [], mem := [], poison := [], hostMem := [], sent := [], scratch := [], gdirty := [], hbm := HbmSt.reset, cores := [], cra := CraSt.reset, pwr := PwrSt.reset, spw := SpwSt.reset, ledger := [], loupe := [],
    tiles := [], mesh := [], prsPorts := [], releases := [], facets := [], fgn := FgnSt.reset, prs := [], caches := [], coh := CohSt.reset, xlt := XltSt.reset,
    imsic := [], hif := HifSt.reset,
    mgt := MgtSt.reset, yar := YarSt.reset, answer := Rsp.none, freeCtr := 0 }

end Sys2Proof.Machine
end

