-- ==== Sys2Proof/Machine/Ops.lean ====
section
/-!
DEFINITION. The named operations of the machine: reading and writing registers and their fields (R8, R238), memory by
its region (R233 to R244), events, the lifetime log and Periscope (R493 to R495, R525 to R529), MSI-X (R386) and
completions (R384, R385).

Where the spec leaves open or is read by inference, and what is taken from outside it (DESIGN CHOICE, DEDUCED, PRESUMED):
notes/assumptions/1.md, 2.md, 8.md, 11.md, 16.md, 19.md, 27.md, 32.md, 35.md, 37.md, 39.md, 56.md, 70.md, 73.md, 87.md.
-/

namespace Sys2Proof.Machine

open Sys2Proof

/-! ### Registers -/

/-- The register at an address. -/
def State.reg (s : State) (a : Nat) : Word := mget (regReset a) s.regs a

/-- The state with the register at an address holding v. -/
def State.setReg (s : State) (a : Nat) (v : Word) : State := { s with regs := mset (regReset a) s.regs a v }

/-- Field f of the register at an address. -/
def State.rd (s : State) (a : Nat) (f : Fld) : Nat := fget (s.reg a) f

/-- The state with field f of the register at an address holding v. -/
def State.wr (s : State) (a : Nat) (f : Fld) (v : Nat) : State := s.setReg a (fset (s.reg a) f v)

/-- Whether a one-bit field is set. -/
def State.flag (s : State) (a : Nat) (f : Fld) : Bool := s.rd a f == 1

/-- A one-bit W1C field after a write of v to its register (R8). -/
def State.ack (s : State) (a : Nat) (f : Fld) (v : Word) : State := if fget v f = 1 then s.wr a f 0 else s

/-- A counter that stops at all ones, n counts later. -/
def State.bumpBy (s : State) (a : Nat) (f : Fld) (n : Nat) : State := s.wr a f (min (s.rd a f + n) f.ones)

/-- A counter that stops at all ones, one count later. -/
def State.bump (s : State) (a : Nat) (f : Fld) : State := s.bumpBy a f 1

/-- A counter that wraps, n counts later. -/
def State.wrap (s : State) (a : Nat) (f : Fld) (n : Nat) : State := s.wr a f (s.rd a f + n)

/-- The next value the spec leaves open, and the state after taking it. -/
def State.fresh (s : State) : Word × State := (Config.freeValue s.freeCtr, { s with freeCtr := s.freeCtr + 1 })

/-- The local life counter (R527). -/
def State.life (s : State) : Nat := (s.reg MGT_LIFE).toNat

/-- One tick of the life clock: MGT_LIFE counts while the package is powered (R527). -/
def State.tick (s : State) : State := if s.mgt.railUp then s.setReg MGT_LIFE (s.reg MGT_LIFE + 1) else s

/-- The node ID of this package (R233). -/
def State.node (s : State) : Nat := s.mgt.straps.pos.toNat

/-! ### Tiles -/

def State.tile (s : State) (n : Nat) : Tile := mget Tile.reset s.tiles n
def State.setTile (s : State) (n : Nat) (t : Tile) : State := { s with tiles := mset Tile.reset s.tiles n t }

/-- TIL_STATUS.STATE codes. -/
abbrev tsUnbound : Nat := 0
abbrev tsLoading : Nat := 1
abbrev tsReady : Nat := 2
abbrev tsBusy : Nat := 3
abbrev tsRemap : Nat := 4
abbrev tsOffline : Nat := 5

/-- The state of a logical ID (R39). -/
def State.tst (s : State) (n : Nat) : Nat := s.rd (TIL_STATUS n) TIL_STATUS_STATE

/-- The state of a logical ID set where both registers report it (R39). -/
def State.setTst (s : State) (n st : Nat) : State :=
  (s.wr (TIL_STATUS n) TIL_STATUS_STATE st).wr (TIL_MAP n) TIL_MAP_STATE st

/-- The C-die of a logical ID (R34). -/
def tileDie (n : Nat) : Nat := n / 48

/-! ### The local map (R235 to R242) -/

/-- What an address of the own node's local map names. -/
inductive Region where
  | mem (key : Nat)
  | rootWin (port : Nat)
  | aperture (tile off : Nat)
  | scratch (die off : Nat)
  | ledger (die cell : Nat) (bf16 : Bool)
  | reg (a : Nat)
  | imsicPage (file off : Nat)
  | doorbell (ring off : Nat)
  | unbacked
  deriving DecidableEq, Repr

/-- The installed DDR size in bytes (R450). -/
def State.ddrSize (s : State) : Nat :=
  if s.flag MGT_DDR_STAT MGT_DDR_STAT_POP_ERR then 0 else
  match s.rd MGT_DDR_STAT MGT_DDR_STAT_CH_SIZE with
  | 1 => 12 * 32 * 2 ^ 30
  | 2 => 12 * 64 * 2 ^ 30
  | 3 => 12 * 128 * 2 ^ 30
  | 4 => 12 * 256 * 2 ^ 30
  | _ => 0

/-- Unified mode is in force: MODE is 1 and LOCK is set (R239). -/
def State.unified (s : State) : Bool :=
  s.flag SPW_TIER_CFG SPW_TIER_CFG_MODE && s.flag SPW_TIER_CFG SPW_TIER_CFG_LOCK

/-- The first address of the HBM direct part (R241). -/
def State.directBase (s : State) : Nat := (768 - s.rd SPW_TIER_CFG SPW_TIER_CFG_DIRECT) * 2 ^ 30

/-- Whether a CXL window is enabled, and its first address and size in bytes (R453). -/
def State.cxlEn (s : State) (w : Nat) : Bool := s.flag (MGT_CXLWIN w) MGT_CXLWIN_EN
def State.cxlBase (s : State) (w : Nat) : Nat := 0x40000000000 + s.rd (MGT_CXLWIN w) MGT_CXLWIN_BASE_G * 2 ^ 30
def State.cxlSize (s : State) (w : Nat) : Nat := s.rd (MGT_CXLWIN w) MGT_CXLWIN_SIZE_G * 2 ^ 30
def State.cxlPort (s : State) (w : Nat) : Nat := s.rd (MGT_CXLWIN w) MGT_CXLWIN_PORT

/-- Whether root port p, 1 to 8, is up. -/
def State.rpUp (s : State) (p : Nat) : Bool := nbits (s.rd HIF_PCIE_STAT HIF_PCIE_STAT_RP_UP) (p - 1) (p - 1) == 1

/-- The CXL window that holds a local address, its port up (R453). -/
def State.cxlWin (s : State) (a : Nat) : Option Nat :=
  (List.range 8).find? (fun w =>
    s.cxlEn w && decide (s.cxlBase w ≤ a) && decide (a < s.cxlBase w + s.cxlSize w) && s.rpUp (s.cxlPort w))

/-- The size of the unified range: the DDR size and the enabled windows (R241). -/
def State.unifiedSize (s : State) : Nat :=
  s.ddrSize + ((List.range 8).map (fun w => if s.cxlEn w then s.cxlSize w else 0)).sum

/-- The first HBM granule and the granule count of shielded range x, if it is established (R307, R308). -/
def State.shdRange (s : State) (x : Nat) : Option (Nat × Nat) :=
  if s.flag (HBM_SHD_CFG x) HBM_SHD_CFG_EN then
    some (12 * s.rd (HBM_SHD_CFG x) HBM_SHD_CFG_STRIPE, s.rd (HBM_SHD_CFG x) HBM_SHD_CFG_GRANULES)
  else none

/-- The shielded range that holds an HBM granule, with its first granule and count. -/
def State.shdOf (s : State) (g : Nat) : Option (Nat × Nat × Nat) :=
  (List.range 8).findSome? (fun x =>
    match s.shdRange x with
    | some (b, n) => if b ≤ g ∧ g < b + n then some (x, b, n) else none
    | none        => none)

/-- Whether a software HBM address lies in the parity window of a shielded range, or in one that is being zeroed
(R307, R308). -/
def State.shdBlocked (s : State) (a : Nat) : Bool :=
  match s.shdOf (a / 2 ^ 21) with
  | none => false
  | some (x, b, n) => decide (a / 2 ^ 21 < b + (n + 11) / 12) || s.flag (HBM_SHD_STAT x) HBM_SHD_STAT_INIT

/-- The base of the facet store and of the tier directory (R50, R242). -/
def State.facetBase (s : State) : Nat := s.rd TIL_FACET_BASE TIL_FACET_BASE_BASE * 2 ^ 26
def State.dirBase (s : State) : Nat := s.rd SPW_TIER_DIR SPW_TIER_DIR_BASE * 2 ^ 26

/-- Little-endian bytes of memory by key, none of them beyond the map's own contents. -/
def memBytes (m : List Host.Cell) (a : Nat) : Nat → List Byte
  | 0     => []
  | n + 1 => mget 0 m a :: memBytes m (a + 1) n

/-- Memory with bytes written from an address. -/
def memPut (m : List Host.Cell) (a : Nat) : List Byte → List Host.Cell
  | []      => m
  | b :: bs => memPut (mset 0 m a b) (a + 1) bs

/-- The tier-directory entry of granule i of the unified range; its DIRTY bit reads the dirty bit of its frame (R242, R244). -/
def State.dirEntry (s : State) (i : Nat) : Nat :=
  let e := leVal (memBytes s.mem (s.dirBase + 8 * i) 8)
  nset e 20 20 (if mget false s.gdirty (nbits e 18 0) then 1 else 0)

/-- Where the bytes of a memory-kind local address live: the address itself, or, in unified mode, the frame that holds
its granule when the granule is resident and not busy (R243). -/
def State.tierKey (s : State) (a : Nat) : Nat :=
  if s.unified && decide (0x10000000000 ≤ a) then
    let i := (a - 0x10000000000) / 2 ^ 21
    let e := s.dirEntry i
    if nbits e 19 19 = 1 ∧ nbits e 21 21 = 0 then nbits e 18 0 * 2 ^ 21 + a % 2 ^ 21 else a
  else a

/-- The region of a local address, software's view (R235, R236, R238, R241, R445). -/
def State.region (s : State) (a : Nat) : Region :=
  if a < 0xC000000000 then
    if s.unified && decide (a < s.directBase) then .unbacked
    else if s.shdBlocked a then .unbacked
    else .mem a
  else if a < 0x10000000000 then .unbacked
  else if a < 0x70000000000 then
    if s.unified then
      if a - 0x10000000000 < s.unifiedSize then .mem (s.tierKey a) else .unbacked
    else if a < 0x40000000000 then
      if a - 0x10000000000 < s.ddrSize then .mem a else .unbacked
    else match s.cxlWin a with
      | some _ => .mem a
      | none   => .unbacked
  else if a < 0x71000000000 then .rootWin ((a - 0x70000000000) / 0x200000000 + 1)
  else if 0x7C000000000 ≤ a ∧ a < 0x7C018000000 then
    let n := (a - 0x7C000000000) / 0x400000
    let o := (a - 0x7C000000000) % 0x400000
    if o < 0x300000 then .aperture n o else .unbacked
  else if 0x7C400000000 ≤ a ∧ a < 0x7C408000000 then
    let d := (a - 0x7C400000000) / 0x4000000
    let o := (a - 0x7C400000000) % 0x4000000
    let sw := if s.flag (CCH_SC_CARVE d) CCH_SC_CARVE_LOCK then s.rd (CCH_SC_CARVE d) CCH_SC_CARVE_SCRATCH_WAYS else 0
    if o < sw * 0x400000 then .scratch d o else .unbacked
  else if 0x7C800000000 ≤ a ∧ a < 0x7C802000000 then
    let d := (a - 0x7C800000000) / 0x1000000
    let o := (a - 0x7C800000000) % 0x1000000
    if o < 0x800000 then .ledger d (o / 4) false else .ledger d ((o - 0x800000) / 2) true
  else if 0x7F000800000 ≤ a ∧ a < 0x7F000860000 then .imsicPage ((a - 0x7F000800000) / 0x1000) (a % 0x1000)
  else if 0x7F000C00000 ≤ a ∧ a < 0x7F000C60000 then .imsicPage (96 + (a - 0x7F000C00000) / 0x1000) (a % 0x1000)
  else if 0x7F110000000 ≤ a ∧ a < 0x7F110400000 then .doorbell ((a - 0x7F110000000) / 0x1000) (a % 0x1000)
  else if (regSpec a).isSome then .reg a
  else .unbacked

/-- The local address of a 56-bit physical address of this node (R233). -/
def localOf (pa : Nat) : Nat := pa % 2 ^ 43
def nodeOf (pa : Nat) : Nat := (pa / 2 ^ 43) % 2 ^ 13

/-- Whether n bytes at a physical address are memory-kind memory of the own node. -/
def State.isMem (s : State) (pa n : Nat) : Bool :=
  nodeOf pa == s.node && decide (pa < 2 ^ 56) &&
  (match s.region (localOf pa) with | .mem _ => true | _ => false) &&
  (match s.region (localOf pa + n - 1) with | .mem _ => true | _ => false)

/-- The number of lines n bytes from an address touch. -/
def lineCount (a n : Nat) : Nat := if n = 0 then 0 else (a + n - 1) / 64 - a / 64 + 1

/-! ### Placing an HBM address (R296, R297, R307) -/

/-- The HBM granule of a software granule: itself, or its data slot's granule inside a shielded range (R307). -/
def State.hbmGranule (s : State) (g : Nat) : Nat :=
  match s.shdOf g with
  | none => g
  | some (_, b, n) =>
    let st := (n + 11) / 12
    let j := g - (b + st)
    let k := b / 12 + j / 11
    let r := if j / 11 + 1 = st then n - 12 * (st - 1) else 12
    let pp := (k % 12) % r
    let m := j % 11
    12 * k + (if m < pp then m else m + 1)

/-- The software granule of a key: a frame of a shielded managed part is a data slot of range 7 (R241, R308). -/
def State.swGranule (s : State) (key : Nat) : Nat :=
  let g := key / 2 ^ 21
  if s.unified && decide (key < s.directBase) then
    match s.shdRange 7 with
    | some (_, n) => g + (n + 11) / 12
    | none        => g
  else g

/-- The HBM granule in which the bytes of a key lie. -/
def State.keyGranule (s : State) (key : Nat) : Nat := s.hbmGranule (s.swGranule key)

/-- The stack of an HBM granule (R296). -/
def stackOfG (g : Nat) : Nat :=
  let q := g / 3
  4 * (g % 3) + (nbits q 1 0 ^^^ nbits q 3 2 ^^^ nbits q 5 4 ^^^ nbits q 7 6)

/-- The in-stack offset of a byte of an HBM granule (R296). -/
def offOfG (g a : Nat) : Nat := nbits (g / 3) 16 2 * 2 ^ 21 + a % 2 ^ 21

/-- The pseudo-channel of an in-stack offset (R297). -/
def pcOfOff (o : Nat) : Nat := nbits o 11 6 ^^^ nbits o 17 12 ^^^ nbits o 23 18

/-! ### Failed and lost lines (R307, R311, R497, R501) -/

/-- The stack of an HBM address (R296). -/
def State.stackOf (s : State) (a : Nat) : Nat := stackOfG (s.keyGranule a)

/-- A pseudo-channel of a stack is failed (R311). -/
def State.pcFailed (s : State) (stack pc : Nat) : Bool :=
  s.flag (HBM_STAT stack) HBM_STAT_FAILED || bitAt (s.reg (HBM_FAIL_PC stack)) pc

/-- Some line of HBM may differ from what was stored: a failed pseudo-channel, a wiped one, or a corrupted line. -/
def State.hbmTrouble (s : State) : Bool :=
  s.hbm.wiped != [] || s.hbm.corrupt != [] ||
  (List.range 12).any (fun k => s.flag (HBM_STAT k) HBM_STAT_FAILED || s.reg (HBM_FAIL_PC k) != 0)

/-- The line of a key lies in a failed pseudo-channel. -/
def State.lineFailed (s : State) (key : Nat) : Bool :=
  let g := s.keyGranule key
  s.pcFailed (stackOfG g) (pcOfOff (offOfG g key))

/-- The key of the line of an HBM granule at a key's offset: none for a parity granule of its range (first granule b, n granules). -/
def State.slotKey (s : State) (b n h key : Nat) : Option Nat :=
  let st := (n + 11) / 12
  let k := h / 12
  let r := if k - b / 12 + 1 = st then n - 12 * (st - 1) else 12
  let pp := (k % 12) % r
  let m := h % 12
  if m = pp then none else
  let sw := b + st + 11 * (k - b / 12) + (if m < pp then m else m - 1)
  let g := if s.unified && decide (sw * 2 ^ 21 < s.directBase + st * 2 ^ 21) && decide (b = 0) then sw - st else sw
  some (g * 2 ^ 21 + key % 2 ^ 21)

/-- The other HBM granules of a shielded line's stripe. -/
def stripeOthers (b n h : Nat) : List Nat :=
  let st := (n + 11) / 12
  let k := h / 12
  let r := if k - b / 12 + 1 = st then n - 12 * (st - 1) else 12
  ((List.range r).map (fun m => 12 * k + m)).filter (· != h)

/-- The line of a key cannot be reconstructed: it is in no shielded range, its stripe line is unprotected, or another line of the
stripe line is failed, corrupted or poisoned (R310, R311). -/
def State.noShield (s : State) (key : Nat) : Bool :=
  match s.shdOf (s.swGranule key) with
  | none => true
  | some (_, b, n) =>
    let h := s.keyGranule key
    s.hbm.unprot.contains (h / 12 * 2 ^ 21 + key % 2 ^ 21) ||
    (stripeOthers b n h).any (fun o =>
      s.pcFailed (stackOfG o) (pcOfOff (offOfG o key)) ||
      (match s.slotKey b n o key with
       | some k => s.hbm.corrupt.contains k || mget false s.poison k
       | none   => false))

/-- The key under which a wipe of a line's pseudo-channel is listed: 64 × stack + pseudo-channel, above 2^20 for shielded lines. -/
def State.wipeKey (s : State) (key : Nat) : Nat :=
  let g := s.keyGranule key
  64 * stackOfG g + pcOfOff (offOfG g key) + (if (s.shdOf (s.swGranule key)).isSome then 2 ^ 20 else 0)

/-- The line of a key reads as poisoned: it holds poison, its pseudo-channel was wiped since it was written, or it is lost
(R302, R311). -/
def State.linePois (s : State) (key : Nat) : Bool :=
  mget false s.poison key ||
  (decide (key < 0xC000000000) && s.hbmTrouble &&
    ((match mfind s.hbm.wiped (s.wipeKey key) with
      | some ls => !ls.contains key
      | none    => false) ||
     ((s.hbm.corrupt.contains key || s.lineFailed key) && s.noShield key)))

/-- A whole line rewritten: it is no longer corrupted or wiped, and it holds poison or not. -/
def State.setPois (s : State) (key : Nat) (p : Bool) : State :=
  let s1 := { s with poison := mset false s.poison key p }
  if s.hbmTrouble && decide (key < 0xC000000000) then
    let w := s.wipeKey key
    let wiped := match mfind s.hbm.wiped w with
      | some ls => mput s.hbm.wiped w (ls.filter (· != key) ++ [key])
      | none    => s.hbm.wiped
    { s1 with hbm := { s1.hbm with corrupt := s1.hbm.corrupt.filter (· != key), wiped := wiped } }
  else s1

/-- The lines of n bytes from an address whose writes are dropped: unshielded and in a failed pseudo-channel (R311). -/
def State.droppedLines (s : State) (a n : Nat) : List Nat :=
  if s.hbmTrouble then
    ((List.range (lineCount a n)).map (fun i => alignDown (s.tierKey (alignDown a 64 + 64 * i)) 64)).filter (fun k =>
      decide (k < 0xC000000000) && s.lineFailed k && (s.shdOf (s.swGranule k)).isNone)
  else []

/-! ### The write-combining buffers (R311 to R316) -/

/-- The shielded range that holds a key. -/
def State.keyShield (s : State) (key : Nat) : Option (Nat × Nat × Nat) := s.shdOf (s.swGranule key)

def State.wcb (s : State) (k : Nat) : List WcbEnt := mget [] s.hbm.wcb k

/-- A stack's entries replaced; OCC follows, counting at most the 224 entries. -/
def State.setWcb (s : State) (k : Nat) (es : List WcbEnt) : State :=
  ({ s with hbm := { s.hbm with wcb := mset [] s.hbm.wcb k es } }).wr (HBM_WCB_STAT k) HBM_WCB_STAT_OCC (min es.length 224)

/-- The full byte mask of a line. -/
def fullMask : Nat := 2 ^ 64 - 1

/-- The entry of a line in a stage changed or removed: the oldest such one. -/
def wcbStep (es : List WcbEnt) (line : Nat) (at_ : WcbStage → Bool) (to_ : Option WcbStage) : List WcbEnt :=
  match es with
  | [] => []
  | e :: r =>
    if e.line = line ∧ at_ e.stage then (match to_ with
      | some st => { e with stage := st } :: r
      | none    => r)
    else e :: wcbStep r line at_ to_

def isOpen : WcbStage → Bool
  | .opened => true
  | _ => false
def isDrain : WcbStage → Bool
  | .drain _ => true
  | _ => false

/-- The oldest open entry of a full buffer starts to drain (R315). -/
def wcbEvict (es : List WcbEnt) : List WcbEnt :=
  if es.length < 224 then es else
  match es.find? (fun e => isOpen e.stage) with
  | some e => wcbStep es e.line isOpen (some (.drain 2))
  | none   => es

/-- A write accepted into the buffer of a stack: merged into the line's open entry or put in a new one (R314 to R316). -/
def State.wcbTake (s : State) (k key mask : Nat) : State :=
  let es := s.wcb k
  match es.find? (fun e => e.line == key && isOpen e.stage) with
  | some e =>
    let m := e.mask ||| mask
    s.setWcb k (es.map (fun x => if x = e then { x with mask := m, stage := if m = fullMask then .drain 0 else .opened } else x))
  | none =>
    s.setWcb k (wcbEvict es ++ [{ line := key, mask := mask, stage := if mask = fullMask then .drain 0 else .opened }])

/-- An unshielded line whose bytes are all valid is written without a read (R315). -/
def State.wcbFull (s : State) (k key : Nat) : State :=
  match (s.wcb k).find? (fun e => e.line == key && e.stage == .drain 0) with
  | some e =>
    if (s.keyShield key).isNone then
      (s.setWcb k ((s.wcb k).filter (· != e))).wrap (HBM_WCB_STAT2 k) HBM_WCB_STAT2_MERGED_FULL 1
    else s
  | none => s

/-- What the controller of a stack does with a write it accepts, beside the bytes (R311, R312, R314 to R316): a stale line is so no more; a
partial or shielded write takes or joins an entry, one that no buffer merges drains at once; a write to a failed member is counted. -/
def State.hbmTake (s : State) (key mask : Nat) : State :=
  if 0xC000000000 ≤ key then s else
  let k := s.stackOf key
  let old := mget [] s.hbm.stale k
  let s0 : State := if old.contains key then { s with hbm := { s.hbm with stale := mset [] s.hbm.stale k (old.filter (· != key)) } } else s
  match s0.keyShield key with
  | some _ => if s0.lineFailed key then s0.bump HBM_SHD_ERR HBM_SHD_ERR_DEGR_WR else s0.wcbTake k key mask
  | none =>
    let es := s0.wcb k
    if mask = fullMask then
      (if es.any (fun e => e.line == key && isOpen e.stage) then s0.setWcb k (es.filter (fun e => !(e.line == key && isOpen e.stage))) else s0)
    else if s0.flag (HBM_WCB_CTL k) HBM_WCB_CTL_EN then (s0.wcbTake k key mask).wcbFull k key
    else s0.setWcb k (es ++ [{ line := key, mask := mask, stage := .drain 2 }])

/-- The mask of a line that n bytes from an address cover. -/
def lineMask (line a n : Nat) : Nat :=
  (List.range 64).foldl (fun m i => if a ≤ line + i ∧ line + i < a + n then m + 2 ^ i else m) 0

/-! ### The coherent view of memory (R325, R326) -/

/-- Whether a caching agent's copy in this state is the current data of its line. -/
def CSt.dirty : CSt → Bool
  | .M | .O | .OM_D | .MI_A | .OI_A => true
  | _ => false

/-- The current copy of a line held dirty by some caching agent. -/
def dirtyCopy : List (Nat × List (Nat × CLine)) → Nat → Option CLine
  | [], _ => none
  | (_, ls) :: r, line =>
    match mfind ls line with
    | some c => if c.st.dirty then some c else dirtyCopy r line
    | none   => dirtyCopy r line

/-- One byte of memory as the coherent path shows it; a is the software address, key where its bytes live. -/
def State.cohByte (s : State) (a key : Nat) : Byte :=
  match dirtyCopy s.caches (alignDown a 64) with
  | some c => BitVec.ofNat 8 (bits c.data (8 * (a % 64) + 7) (8 * (a % 64)))
  | none   => (mfind s.spw.held a).getD (mget 0 s.mem key)

/-- The copy that answers a request for a line: its owner's, clean or dirty (R276). -/
def ownerCopy : List (Nat × List (Nat × CLine)) → Nat → Option CLine
  | [], _ => none
  | (_, ls) :: r, line =>
    match mfind ls line with
    | some c => if c.st.dirty || c.st == .E || c.st == .EI_A then some c else ownerCopy r line
    | none   => ownerCopy r line

/-- Whether the line of an address is poisoned as the coherent path shows it. -/
def State.cohPoison (s : State) (a key : Nat) : Bool :=
  match ownerCopy s.caches (alignDown a 64) with
  | some c => c.poison
  | none   => (mfind s.spw.heldP (alignDown a 64)).getD (s.linePois (alignDown key 64))

/-- n bytes of own-node memory from a local address, as the coherent path shows them. -/
def State.cohRead (s : State) (a : Nat) : Nat → List Byte
  | 0     => []
  | n + 1 => s.cohByte a (s.tierKey a) :: s.cohRead (a + 1) n

/-- The little-endian value of n bytes of own-node memory. -/
def State.memVal (s : State) (a n : Nat) : Nat := leVal (s.cohRead a n)

/-- Whether any of the lines of n bytes from a local address is poisoned; k bounds the lines looked at. -/
def State.anyPoison (s : State) (a : Nat) : Nat → Bool
  | 0     => false
  | k + 1 => s.cohPoison a (s.tierKey a) || s.anyPoison (alignDown a 64 + 64) k

/-- Every copy of a line a caching agent holds is dropped: the home has served a whole access of another requester
(R273). -/
def dropLine (cs : List (Nat × List (Nat × CLine))) (line : Nat) : List (Nat × List (Nat × CLine)) :=
  cs.map (fun p => (p.1, mdel p.2 line))

/-- The messages about a lease, whose address is a region base (R274). -/
def CMsgOp.lease : CMsgOp → Bool
  | .leaseComp | .leaseAck | .leaseDeny | .leaseRecall | .leaseReturn => true
  | _ => false

/-- What the home knows of a line is gone: no agent holds it, and the transactions and requests about it have ended. -/
def CohSt.forget (c : CohSt) (line : Nat) : CohSt :=
  { c with dir := mdel c.dir line, txn := mdel c.txn line, queue := mdel c.queue line,
           net := c.net.filter (fun m => m.op.lease || m.line != line),
           rqueue := c.rqueue.map (fun p => (p.1, p.2.filter (fun q => q.1 != line))) }

/-- Bytes of a line put in by mask. -/
def mergeLine (old new : Line) (mask : Nat) : Line :=
  BitVec.ofNat 512 (leVal ((List.range 64).map (fun i =>
    if nbits mask i i = 1 then BitVec.ofNat 8 (bits new (8 * i + 7) (8 * i)) else BitVec.ofNat 8 (bits old (8 * i + 7) (8 * i)))))

/-- The writes that wait for a line in caching agents, by mask and data. -/
def waitingWrites (cs : List (Nat × List (Nat × CLine))) (line : Nat) : List (Nat × Line) :=
  cs.filterMap (fun p => (mfind p.2 line).bind (·.pend))

/-- The L1 data caches lose a line that their L2 loses (R261). -/
def dropL1d (cs : List (Nat × YCore)) (line : Nat) : List (Nat × YCore) := cs.map (fun p => (p.1, { p.2 with l1d := mdel p.2.l1d line }))

/-- Reservations of a line are lost (R334). -/
def dropResv (cs : List (Nat × YCore)) (line : Nat) : List (Nat × YCore) :=
  cs.map (fun p => (p.1, match p.2.resv with
    | some r => if r.line = line then { p.2 with resv := none } else p.2
    | none   => p.2))

/-- The granule dirty bits of R244 are kept per 2 MiB granule of HBM. -/
def granuleOf (key : Nat) : Nat := key / 2 ^ 21

/-- The dirty bit of the HBM granule of a key set; keys beyond HBM have none. -/
def State.dirtyKey (s : State) (key : Nat) : State :=
  if key < 0xC000000000 then { s with gdirty := mset false s.gdirty (granuleOf key) true } else s

/-! ### Memory under the tier unit (R243) -/

/-- The granule of a unified-range address is being promoted. -/
def State.busyAt (s : State) (a : Nat) : Bool :=
  s.unified && decide (0x10000000000 ≤ a) && decide (a < 0x70000000000) &&
  nbits (s.dirEntry ((a - 0x10000000000) / 2 ^ 21)) 21 21 == 1

/-- The lower tier serves an address of the unified range: its granule is not resident, or is being promoted. -/
def State.lowerAt (s : State) (a : Nat) : Bool :=
  s.unified && decide (0x10000000000 ≤ a) && decide (a < 0x70000000000) && s.tierKey a == a

/-- A write of memory as the tier unit counts it: held on a BUSY granule, or served from the lower tier. -/
def State.tierWrite (s : State) (line : Nat) : State :=
  if s.busyAt line then s.bump SPW_TIER_STAT SPW_TIER_STAT_WR_HOLD
  else if s.lowerAt line then s.wrap SPW_TIER_STAT SPW_TIER_STAT_DEMAND_LO 1 else s

/-- A read of memory, likewise. -/
def State.tierRead (s : State) (line : Nat) : State :=
  if s.lowerAt line then s.wrap SPW_TIER_STAT SPW_TIER_STAT_DEMAND_LO 1 else s

/-- Bytes of memory under those of the writes that are held for them. -/
def State.underHeld (s : State) (a : Nat) (bs : List Byte) : List Byte :=
  if s.spw.held.isEmpty then bs else (List.range bs.length).map (fun i => (mfind s.spw.held (a + i)).getD (bs.getD i 0))

/-- A line as memory holds it, and its poison. -/
def State.memLineOf (s : State) (line : Nat) : Line :=
  BitVec.ofNat 512 (leVal (s.underHeld line (memBytes s.mem (s.tierKey line) 64)))
def State.memLinePois (s : State) (line : Nat) : Bool :=
  (mfind s.spw.heldP line).getD (s.linePois (alignDown (s.tierKey line) 64))

/-- A write of a whole line held until its granule's promotion ends. -/
def State.holdLine (s : State) (line : Nat) (data : Line) (poison : Bool) : State :=
  let held := ((List.range 64).zip (leBytes 64 data.toNat)).foldl (fun m p => mput m (line + p.1) p.2) s.spw.held
  { s with spw := { s.spw with held := held, heldP := mput s.spw.heldP line poison } }

/-- A whole line written to memory by the home or a lease holder (R243, R244, R274, R311). -/
def State.memLine (s : State) (line : Nat) (data : Line) (poison : Bool) : State :=
  match s.droppedLines line 64 with
  | [] =>
    let t := s.tierWrite line
    if s.busyAt line then t.holdLine line data poison else
    let k := s.tierKey line
    ((({ t with mem := memPut t.mem k (leBytes 64 data.toNat) }).setPois (alignDown k 64) poison).dirtyKey k).hbmTake (alignDown k 64) fullMask
  | l :: _ => s.bump (HBM_ECC2 (s.stackOf l)) HBM_ECC2_FAILED_WR

/-- One line of own-node memory made current in memory, with no cached copy left: what the home does before it serves a
requester that does not cache (R273).  A transaction open on the line ends first: writes that wait for it are done. -/
def State.settle (s : State) (line : Nat) : State :=
  let s1 := match dirtyCopy s.caches line with
    | some c => s.memLine line c.data c.poison
    | none => s
  let s2 := (waitingWrites s.caches line).foldl (fun (t : State) w =>
    t.memLine line (mergeLine (t.memLineOf line) w.2 w.1) (t.memLinePois line && w.1 != 2 ^ 64 - 1)) s1
  { s2 with caches := dropLine s2.caches line, coh := s2.coh.forget line, cores := dropL1d (dropResv s2.cores (s2.node * 2 ^ 43 + line)) line }

/-- A line of a remote node leaves all three remote-read buffers before this package writes to it (R292). -/
def State.rrbDrop (s : State) (a n : Nat) : State :=
  let lo := alignDown a 64
  { s with coh := { s.coh with rrb := s.coh.rrb.filter (fun p =>
      !(decide (lo ≤ p.1 % 2 ^ 56) && decide (p.1 % 2 ^ 56 < lo + 64 * lineCount a n))) } }

/-- Every line of the buffers, or those of one node, invalidated (R293). -/
def State.rrbClear (s : State) (node : Option Nat) : State :=
  { s with coh := { s.coh with rrb := match node with
      | none   => []
      | some n => s.coh.rrb.filter (fun p => p.1 / 2 ^ 43 % 2 ^ 13 != n) } }

/-- A memory byte put where it lives, or held (R243). -/
def State.putOne (s : State) (a : Nat) (b : Byte) : State :=
  if s.busyAt a then { s with spw := { s.spw with held := mput s.spw.held a b } }
  else { s with mem := mset 0 s.mem (s.tierKey a) b }

/-- Memory bytes put from a software address, each where it lives. -/
def State.putBytes (s : State) (a : Nat) : List Byte → State
  | []      => s
  | b :: bs => (s.putOne a b).putBytes (a + 1) bs

/-- Memory bytes put from a software address, but for those of dropped lines (R311). -/
def State.putSome (s : State) (lost : List Nat) (a : Nat) : List Byte → State
  | []      => s
  | b :: bs =>
    let k := s.tierKey a
    State.putSome (if lost.contains (alignDown k 64) then s else s.putOne a b) lost (a + 1) bs

/-- The poison of k lines from an address after a write of bytes a to a + n - 1 with poison p: a whole line takes p, a
line written in part keeps its poison or takes the new one (R444, R490). -/
def State.putPoison (s : State) (line a n : Nat) (p : Bool) : Nat → State
  | 0     => s
  | k + 1 =>
    let key := alignDown (s.tierKey line) 64
    let whole : Bool := decide (a ≤ line) && decide (line + 64 ≤ a + n)
    let s1 : State := if s.droppedLines line 64 ≠ [] then s
      else if s.busyAt line then { s with spw := { s.spw with heldP := mput s.spw.heldP line (if whole then p else s.memLinePois line || p) } }
      else if whole then s.setPois key p
      else { s with poison := mset false s.poison key (mget false s.poison key || p) }
    s1.putPoison (line + 64) a n p k

/-- k lines settled from an address. -/
def State.settleAll (s : State) (line : Nat) : Nat → State
  | 0     => s
  | k + 1 => (s.settle line).settleAll (line + 64) k

/-- The granules of k lines written by bytes a to a + n - 1 become dirty, but for those being promoted; the tier unit counts the writes and
the stacks take them (R243, R244, R314). -/
def State.wroteLines (s : State) (a n line : Nat) : Nat → State
  | 0     => s
  | k + 1 =>
    let key := alignDown (s.tierKey line) 64
    let s1 : State := if s.busyAt line then s.tierWrite line
      else if s.droppedLines line 64 ≠ [] then s
      else ((s.tierWrite line).dirtyKey key).hbmTake key (lineMask line a n)
    s1.wroteLines a n (line + 64) k

/-- The lease region of a line, and the C-die its lines lie with: a 64 KiB block lies in one granule, so in one stack (R279). -/
def regionOf (line : Nat) : Nat := line / 65536
def State.leaseDie (s : State) (r : Nat) : Nat := stackOfG (s.keyGranule (r * 65536)) / 6

/-- A lease given back with all that leads to it, for an access of another agent: the system cache writes back and drops the region's
lines, the recall is counted and holdoff begins (R282).  One being recalled is left to its own messages. -/
def State.leaseBack (s : State) (r : Nat) : State :=
  if ¬ s.coh.leases.contains r ∨ s.coh.recalls.contains r then s else
  let d := s.leaseDie r
  let ag := 0x10 + 0x10 * d
  let ls := mget [] s.caches ag
  let s1 := (ls.filter (fun p => regionOf p.1 == r && p.2.st.dirty)).foldl (fun (t : State) p => t.memLine p.1 p.2.data p.2.poison) s
  let hold : Bool := decide (0 < s.rd CCH_LEASE_CFG CCH_LEASE_CFG_HOLDOFF) && !s.coh.holdoff.contains r
  { s1 with caches := mset [] s1.caches ag (ls.filter (fun p => regionOf p.1 != r)),
            coh := { s1.coh with leases := s1.coh.leases.filter (· != r),
                                 holdoff := if hold then s1.coh.holdoff ++ [r] else s1.coh.holdoff } }.bump
    (CCH_LEASE_STAT d) CCH_LEASE_STAT_RECALL

/-- The leases of the regions of n bytes given back. -/
def State.leasesBack (s : State) (a n : Nat) : State :=
  (List.range (regionOf (a + (n - 1)) - regionOf a + 1)).foldl (fun (t : State) i => t.leaseBack (regionOf a + i)) s

/-- Bytes written to own-node memory at a local address by a unit that has no cache, as the home does it: leases are recalled, other
copies end, and memory takes the bytes, with poison; the granule's dirty bit is set (R244, R273, R282, R325, R490). -/
def State.memWrite (s : State) (a : Nat) (bs : List Byte) (poison : Bool) : State :=
  let k := lineCount a bs.length
  let s1 := (s.leasesBack a bs.length).settleAll (alignDown a 64) k
  let lost := s1.droppedLines a bs.length
  let s2 := (if lost = [] then s1.putBytes a bs else s1.putSome lost a bs).putPoison (alignDown a 64) a bs.length poison k
  s2.wroteLines a bs.length (alignDown a 64) k

/-- A little-endian value of n bytes written to own-node memory. -/
def State.memStore (s : State) (a n v : Nat) : State := s.memWrite a (leBytes n v) false

/-- A host loss is in force and re-attach has not started: nothing reaches the host bus (R396, R399). -/
def State.hostGone (s : State) : Bool := s.flag HIF_HOSTLOST HIF_HOSTLOST_LOST && !s.hif.attachGo

/-- Bytes written to a host-bus address: they reach the port's egress, or, during a host loss, are dropped and counted
in 64-byte chunks (R325, R396). -/
def State.hostWrite (s : State) (a : Nat) (bs : List Byte) : State :=
  if s.hostGone then s.wrap HIF_HOSTLOST HIF_HOSTLOST_WR_DROP (lineCount a bs.length)
  else { s with hostMem := memPut s.hostMem a bs }

/-! ### Periscope (R525, R526) -/

/-- A filled block of 128 entries copied to the spill ring. -/
def State.pscSpill (s : State) (wr : Nat) : State :=
  if s.flag MGT_PSC_CFG MGT_PSC_CFG_SPILL_EN && wr % 128 == 127 then
    let size := 2 ^ s.rd MGT_PSC_SPILL MGT_PSC_SPILL_LOG2MB * 2 ^ 20
    let base := s.rd MGT_PSC_SPILL MGT_PSC_SPILL_BASE * 4096
    let blk := (List.range 128).flatMap (fun i => leBytes 32 (mget 0 s.mgt.pscBuf (wr - 127 + i)).toNat)
    let s1 := { s with mgt := { s.mgt with pscSpills := s.mgt.pscSpills + 1 } }
    if s.isMem (s.node * 2 ^ 43 + localOf base) 1 then s1.memWrite (localOf base + (s.mgt.pscSpills * 4096) % size) blk false
    else s1
  else s

/-- An entry of a source with its two data words: recorded when the source is enabled, dropped when the buffer is full
and recording stops there. -/
def State.psc (s : State) (src : Nat) (d2 d3 : Nat) : State :=
  if nbits (s.rd MGT_PSC_CFG MGT_PSC_CFG_SRC_EN) src src = 0 then s else
  let seq := (s.mgt.pscSeq + 1) % 2 ^ 32
  let s1 := { s with mgt := { s.mgt with pscSeq := seq } }
  if s.flag MGT_PSC_CFG MGT_PSC_CFG_STOP_FULL && s.mgt.pscFull then s1.wrap MGT_PSC_PTR MGT_PSC_PTR_DROP 1 else
  let fs := s1.fresh
  let fine := fs.1.toNat % 24414
  let s2 := fs.2
  let wr := s2.rd MGT_PSC_PTR MGT_PSC_PTR_WR
  let entry := src + seq * 2 ^ 32 + (s.life % 2 ^ 48) * 2 ^ 64 + fine * 2 ^ 112 + d2 * 2 ^ 128 + d3 * 2 ^ 192
  let s3 := { s2 with mgt := { s2.mgt with
      pscBuf := mset 0 s2.mgt.pscBuf wr (BitVec.ofNat 256 entry),
      pscFull := s2.mgt.pscFull || wr == 65535 } }
  (s3.wrap MGT_PSC_PTR MGT_PSC_PTR_WR 1).pscSpill wr

/-! ### The lifetime log (R528, R529) -/

/-- Records the journal holds. -/
def logCapacity : Nat := 1047552

/-- The wall time of a record stamped now (R528). -/
def State.wallNow (s : State) : Nat :=
  match s.mgt.wall with
  | none        => 0
  | some (l, w) => (w + (s.life - l) / 32768) % 2 ^ 64

/-- The place of the oldest record among those that satisfy p, with its sequence number. -/
def oldestRec (p : LogRec → Bool) : List LogRec → Nat → Option (Nat × Nat)
  | [],     _ => none
  | r :: t, i =>
    match oldestRec p t (i + 1) with
    | none => if p r then some (i, r.seq) else none
    | some (j, q) => if p r ∧ r.seq < q then some (i, r.seq) else some (j, q)

/-- A record written into the journal: when it is full, over the oldest record of severity 3 or lower, else over the
oldest. -/
def State.logPut (s : State) (r : LogRec) : State :=
  let s1 := s.wrap MGT_LOG_STAT MGT_LOG_STAT_RECORDS 1
  if s.mgt.log.length < logCapacity then { s1 with mgt := { s1.mgt with log := s1.mgt.log ++ [r] } } else
  let at_ := match oldestRec (fun x => decide (x.sev ≤ 3)) s1.mgt.log 0 with
    | some (i, _) => i
    | none        => ((oldestRec (fun _ => true) s1.mgt.log 0).map (·.1)).getD 0
  let s2 := s1.bump MGT_LOG_STAT MGT_LOG_STAT_OVERWRITTEN
  { s2 with mgt := { s2.mgt with log := lset s2.mgt.log at_ r } }

/-- A journal record of a type and severity: Teasel writes it, or Yarrow's central unit holds up to 256 of them while
Teasel restarts (R521). -/
def State.logRec (s : State) (kind sev : Nat) (payload : List Word) : State :=
  let r : LogRec := { kind := kind, sev := sev, estimated := s.mgt.wall.isSome, seq := s.mgt.logSeq,
                      life := s.life, wall := s.wallNow, payload := payload }
  let s1 := { s with mgt := { s.mgt with logSeq := s.mgt.logSeq + 1 } }
  if s.mgt.teaselUp then s1.logPut r
  else if s.mgt.held.length < 256 then { s1 with mgt := { s1.mgt with held := s1.mgt.held ++ [r] } }
  else s1

/-! ### Interrupts (R386, R445, R446) -/

/-- An identity made pending in an interrupt file: identities 1 to 255 of an M-level file, 1 to 2,047 of an S-level
one; a core in WFI goes on. -/
def State.setEip (s : State) (file ident : Nat) : State :=
  let top := if file < 96 then 255 else 2047
  if 1 ≤ ident ∧ ident ≤ top then
    { s with imsic := mset 0 s.imsic file (mget 0 s.imsic file ||| BitVec.ofNat 2048 (2 ^ ident)),
             cores := mset YCore.reset s.cores (file % 96) { mget YCore.reset s.cores (file % 96) with wfi := false } }
  else s

/-- A message of an address and 32-bit data: into an interrupt file of this package, or out through the endpoint, where
a host loss drops it (R386, R396, R446). -/
def State.message (s : State) (addr : Nat) (data : Nat) : State :=
  let r := if nodeOf addr = s.node ∧ addr < 2 ^ 56 then s.region (localOf addr) else .unbacked
  match r with
  | .imsicPage f o =>
    if o = 0 then s.setEip f data
    else if o = 4 then s.setEip f (leVal (leBytes 4 data).reverse)
    else s
  | _ =>
    if s.hostGone then s
    else { s with hif := { s.hif with msix := s.hif.msix ++ [(BitVec.ofNat 64 addr, BitVec.ofNat 32 data)] } }

/-- The MSI-X message of a table entry; a masked entry sets its pending bit instead (R386). -/
def State.msixSend (s : State) (v : Nat) : State :=
  if s.flag (HIF_MSIX_DATA v) HIF_MSIX_DATA_MASK then
    s.setReg (HIF_MSIX_PBA (v / 64)) (s.reg (HIF_MSIX_PBA (v / 64)) ||| BitVec.ofNat 64 (2 ^ (v % 64)))
  else s.message (s.reg (HIF_MSIX_ADDR v)).toNat (s.rd (HIF_MSIX_DATA v) HIF_MSIX_DATA_DATA)

/-! ### Yarrow events (R493 to R495) -/

/-- The record of an event written to the queue: at TAIL, or lost when the queue is full. -/
def State.evqPut (s : State) (sev : Nat) (rec : List Word) : State :=
  if s.flag TST_EVQ_CFG TST_EVQ_CFG_EN then
    let n := 2 ^ s.rd TST_EVQ_CFG TST_EVQ_CFG_LOG2N
    let tail := s.rd TST_EVQ_PTR TST_EVQ_PTR_TAIL
    if (tail + 1) % n = s.rd TST_EVQ_PTR TST_EVQ_PTR_HEAD then s.bump TST_EVQ_PTR TST_EVQ_PTR_LOST else
    let base := localOf (s.rd TST_EVQ_BASE TST_EVQ_BASE_BASE * 4096)
    let s1 := s.memWrite (base + 32 * tail) (rec.flatMap (fun w => leBytes 8 w.toNat)) false
    let s2 := s1.wr TST_EVQ_PTR TST_EVQ_PTR_TAIL ((tail + 1) % n)
    if s.flag TST_EVQ_CFG TST_EVQ_CFG_IRQ_EN && decide (s.rd TST_EVQ_CFG TST_EVQ_CFG_MIN_SEV ≤ sev) then
      s2.msixSend (s.rd TST_EVQ_CFG TST_EVQ_CFG_VECTOR)
    else s2
  else s

/-- An event with its code, severity, LOC, SUB and DETAIL: to the queue, to Teasel's log and to Periscope, and over the sideband from
severity 4 on (R521); DEGRADED events are counted. -/
def State.event (s : State) (code sev loc sub detail : Nat) : State :=
  let seq := (s.yar.evSeq + 1) % 2 ^ 32
  let s1 := { s with yar := { s.yar with evSeq := seq } }
  let w0 := BitVec.ofNat 64 (code + sev * 2 ^ 8 + seq * 2 ^ 32)
  let w1 := BitVec.ofNat 64 (loc % 2 ^ 16 + (sub % 2 ^ 16) * 2 ^ 16)
  let rec4 : List Word := [w0, w1, BitVec.ofNat 64 detail, BitVec.ofNat 64 s.life]
  let s2 := s1.evqPut sev rec4
  let s3 := s2.logRec 1 sev rec4
  let s4 := s3.psc 1 w0.toNat w1.toNat
  let s5 := if 4 ≤ sev ∧ s4.mgt.teaselUp then { s4 with mgt := { s4.mgt with pldm := s4.mgt.pldm ++ [w0] } } else s4
  if sev = 4 then s5.bump TST_YAR_STAT TST_YAR_STAT_DEGRADED else s5

/-- SUB of an event that names none (R493). -/
def subNone : Nat := 0xFFFF

/-- A package-fatal fault: latched with the code that caused it, and recorded (R489). -/
def State.pkgFatal (s : State) (code : Nat) : State :=
  let s1 := if s.flag TST_YAR_STAT TST_YAR_STAT_FATAL then s
            else (s.wr TST_YAR_STAT TST_YAR_STAT_FATAL 1).wr TST_YAR_STAT TST_YAR_STAT_FATAL_CODE code
  s1.event 0x7F 6 code subNone 0

/-! ### Rings and completions (R366 to R386) -/

def State.ring (s : State) (n : Nat) : Ring := mget Ring.reset s.hif.rings n
def State.setRing (s : State) (n : Nat) (r : Ring) : State :=
  { s with hif := { s.hif with rings := mset Ring.reset s.hif.rings n r } }

/-- HIF_RING_STAT.STATE codes. -/
abbrev rsDisabled : Nat := 0
abbrev rsActive : Nat := 1
abbrev rsDraining : Nat := 2
abbrev rsStopped : Nat := 3
abbrev rsHostLost : Nat := 4

def State.ringSt (s : State) (n : Nat) : Nat := s.rd (HIF_RING_STAT n) HIF_RING_STAT_STATE
def State.setRingSt (s : State) (n st : Nat) : State := s.wr (HIF_RING_STAT n) HIF_RING_STAT_STATE st

/-- The number of entries of a ring (R366). -/
def State.ringSize (s : State) (n : Nat) : Nat := 2 ^ s.rd (HIF_RING_CFG n) HIF_RING_CFG_LOG2SIZE

/-- The ADM codes of R384. -/
abbrev admServed : Nat := 0
abbrev admDeferred : Nat := 1
abbrev admRefused : Nat := 2
abbrev admNotice : Nat := 3

/-- The status codes whose tables list the outcome as Refused (R384). -/
def refusedStatus (st : Nat) : Bool :=
  (decide (0x10 ≤ st) && decide (st ≤ 0x20)) ||
  [0x22, 0x30, 0x34, 0x40, 0x41, 0x42, 0x58, 0x70, 0x71, 0x80, 0x81, 0x90, 0x91, 0x92, 0xA0].contains st

/-- ADM of a final completion that is not a refusal (R384). -/
def Work.adm (w : Work) : Nat := if w.deferred then admDeferred else admServed

/-- CAP of a completion written now: a power cap limited the package while the descriptor ran (R384). -/
def State.capOf (s : State) (w : Work) : Bool := s.flag PWR_STAT PWR_STAT_CAPPED || s.hif.capCnt != w.capAt

/-- LOSS of a completion written now: the descriptor was outstanding during a host loss (R398). -/
def State.lossOf (s : State) (w : Work) : Bool := s.hostGone || s.hif.lossCnt != w.lossAt

/-- A completion entry, but for its phase and SQ_HEAD (R384). -/
def State.completionWord (s : State) (w : Work) (status adm detail : Nat) (result : Nat) : Nat :=
  bits w.desc 63 32 + status * 2 ^ 32 + adm * 2 ^ 40 + w.cause * 2 ^ 42 + b2n (s.capOf w) * 2 ^ 46 +
  b2n (s.lossOf w) * 2 ^ 47 +
  w.ring * 2 ^ 48 + (detail % 2 ^ 32) * 2 ^ 64 + result * 2 ^ 128

/-- One 64-byte entry written at CQ_TAIL with the ring's phase and its SQ_HEAD; CQ_TAIL then advances and the phase
inverts when it wraps (R385). -/
def State.cqPut (s : State) (n entry : Nat) : State :=
  let tail := s.rd (HIF_RING_PTR n) HIF_RING_PTR_CQ_TAIL
  let phase := s.rd (HIF_RING_STAT n) HIF_RING_STAT_PHASE
  let full := entry + phase * 2 ^ 63 + s.rd (HIF_RING_PTR n) HIF_RING_PTR_SQ_HEAD * 2 ^ 96
  let base := s.rd (HIF_CQ_BASE n) HIF_CQ_BASE_BASE * 4096
  let bytes := leBytes 64 full
  let s1 := if s.rd (HIF_RING_CFG n) HIF_RING_CFG_LOC = 1 then s.hostWrite (base + 64 * tail) bytes
            else s.memWrite (localOf base + 64 * tail) bytes false
  let next := (tail + 1) % s.ringSize n
  let s2 := s1.wr (HIF_RING_PTR n) HIF_RING_PTR_CQ_TAIL next
  if next = 0 then s2.wr (HIF_RING_STAT n) HIF_RING_STAT_PHASE (1 - phase) else s2

/-- The hold area of a ring (R398). -/
def State.holdBase (s : State) (n : Nat) : Nat :=
  localOf (s.rd HIF_HOLD_CFG HIF_HOLD_CFG_BASE * 2 ^ 22 + n * 2 ^ 22)

/-- A completion of a HOST_LOST ring stored in its hold area, in completion order (R398). -/
def State.holdPut (s : State) (n entry : Nat) : State :=
  let k := s.rd (HIF_RING_STAT n) HIF_RING_STAT_HELD
  (s.memWrite (s.holdBase n + 64 * k) (leBytes 64 entry) false).wrap (HIF_RING_STAT n) HIF_RING_STAT_HELD 1

/-- The message of a ring after an entry was written: at once for IRQ, else after COAL_CNT entries (R386). -/
def State.ringIrq (s : State) (n : Nat) (irq : Bool) : State :=
  if s.flag (HIF_RING_CFG n) HIF_RING_CFG_IRQ_EN then
    let r := s.ring n
    let u := r.unsig + 1
    if irq || decide (max 1 (s.rd (HIF_RING_CFG n) HIF_RING_CFG_COAL_CNT) ≤ u) then
      (s.setRing n { r with unsig := 0 }).msixSend (s.rd (HIF_RING_CFG n) HIF_RING_CFG_VECTOR)
    else s.setRing n { r with unsig := u }
  else s

/-- A DRAINING ring whose last admitted descriptor has completed: STOPPED, or DISABLED if EN was written 0 (R369). -/
def State.ringDrained (s : State) (n : Nat) : State :=
  if s.ringSt n = rsDraining ∧ s.rd (HIF_RING_STAT n) HIF_RING_STAT_OUTSTANDING = 0 then
    let r := s.ring n
    let s1 := s.wr (HIF_RING_STAT n) HIF_RING_STAT_CAUSE 4
    if r.enCleared then (s1.setRingSt n rsDisabled).setRing n { r with fetched := [], enCleared := false, gen := r.gen + 1 }
    else s1.setRingSt n rsStopped
  else s

/-- The admitted descriptors of an admission class in flight are the OUTSTANDING ones whose CLS names it; a completion
lowers OUTSTANDING (R382, R384). -/
def State.outstandingDown (s : State) (n : Nat) : State :=
  s.wr (HIF_RING_STAT n) HIF_RING_STAT_OUTSTANDING (s.rd (HIF_RING_STAT n) HIF_RING_STAT_OUTSTANDING - 1)

/-- QUIET: no completion when the descriptor ends SERVED without deferral and without a cap (R373). -/
def State.quiet (s : State) (w : Work) (status adm : Nat) : Bool :=
  bitAt w.desc 9 && status == 0 && adm == 0 && !s.capOf w

/-- The entry of a descriptor that ends: written to the completion ring with its message, held for a HOST_LOST ring, or
discarded and counted when the ring was abandoned since (R385, R386, R398, R399). -/
def State.entry (s : State) (w : Work) (entry : Nat) : State :=
  if (s.ring w.ring).gen ≠ w.gen then s.bump HIF_HOSTLOST HIF_HOSTLOST_ABANDONED
  else if s.ringSt w.ring = rsHostLost then s.holdPut w.ring entry
  else (s.cqPut w.ring entry).ringIrq w.ring (bitAt w.desc 8)

/-- A descriptor ends: its final completion, and the ring's count of outstanding descriptors (R384, R385, R369). -/
def State.finish (s0 : State) (w : Work) (status adm detail result : Nat) : State :=
  let s := { s0 with hif := { s0.hif with hbmOut := s0.hif.hbmOut - bits w.desc 10 10,
                                          fgnOut := s0.hif.fgnOut - bits w.desc 11 11 } }
  let s1 := if s.quiet w status adm then s else s.entry w (s.completionWord w status adm detail result)
  if (s1.ring w.ring).gen ≠ w.gen then s1 else (s1.outstandingDown w.ring).ringDrained w.ring

/-- A descriptor ends with a status: ADM 0b10 where the status names a refusal, else 0b00 or 0b01 (R384). -/
def State.served (s : State) (w : Work) (status detail : Nat) : State :=
  s.finish w status (if refusedStatus status then admRefused else w.adm) detail 0

/-- A descriptor refused: ADM 0b10 (R384). -/
def State.refuse (s : State) (w : Work) (status detail : Nat) : State := s.finish w status admRefused detail 0

/-- A deferral notice: written with ADM 0b11 when a slot is free beyond the reserved ones, else skipped and counted
(R385). -/
def State.notice (s : State) (w : Work) (status cause : Nat) : State :=
  if s.flag (HIF_RING_CFG w.ring) HIF_RING_CFG_NOTICE_EN then
    let n := w.ring
    let size := s.ringSize n
    let used := (s.rd (HIF_RING_PTR n) HIF_RING_PTR_CQ_TAIL + size - s.rd (HIF_RING_PTR n) HIF_RING_PTR_CQ_HEAD) % size +
      s.rd (HIF_RING_STAT n) HIF_RING_STAT_OUTSTANDING
    if used + 1 < size then s.entry w (s.completionWord { w with cause := cause } status admNotice 0 0)
    else s.bump (HIF_RING_CNT n) HIF_RING_CNT_NOTICE_SKIP
  else s

/-- A descriptor deferred at its target: its first deferral records cause 0x6 and writes a notice with the target's code
(R381, R382, R385). -/
def State.deferWork (s : State) (w : Work) (status : Nat) : State × Work :=
  if w.deferred then (s, w)
  else (s.notice w status 6, { w with deferred := true, cause := 6 })

/-- A ring is held by a host loss: its descriptors stay where they are (R397). -/
def State.ringHeld (s : State) (w : Work) : Bool := s.ringSt w.ring == rsHostLost && (s.ring w.ring).gen == w.gen

/-- The process ID of the work of a ring (R346). -/
def State.pasidOf (s : State) (w : Work) : Nat := s.rd (HIF_RING_CFG w.ring) HIF_RING_CFG_PASID

end Sys2Proof.Machine
end

