-- ==== Sys2Proof/Machine/FugenNet.lean ====
section
/-!
DEFINITION. The sending side of Fugen (spec/15): nodes, routes, ports, connections, and requests to other nodes (R402 to R425).

Where the spec leaves open or is read by inference, and what is taken from outside it (DESIGN CHOICE, DEDUCED, PRESUMED):
notes/assumptions/13.md, 24.md, 80.md.
-/

namespace Sys2Proof.Machine

open Sys2Proof

/-! ### Nodes and rings (R407) -/

/-- FGN link states. -/
abbrev lkDisabled : Nat := 0
abbrev lkDetect : Nat := 1
abbrev lkTrain : Nat := 2
abbrev lkAlign : Nat := 3
abbrev lkIdent : Nat := 4
abbrev lkActive : Nat := 5
abbrev lkMiswired : Nat := 6
abbrev lkFailed : Nat := 7

/-- FGN port states. -/
abbrev ptDown : Nat := 0
abbrev ptTraining : Nat := 1
abbrev ptUp : Nat := 2
abbrev ptPart : Nat := 3
abbrev ptFallback : Nat := 4

/-- Coordinate dim (0 X, 1 Y, 2 Z) of a node, and its on-board index. -/
def nodeCo (node dim : Nat) : Nat :=
  match dim with
  | 0 => nbits node 12 9
  | 1 => nbits node 8 6
  | _ => nbits node 5 3
def nodeIdx (node : Nat) : Nat := nbits node 2 0

/-- The ring size of a dimension. -/
def State.ringN (s : State) (dim : Nat) : Nat :=
  match dim with
  | 0 => s.rd FGN_CFG FGN_CFG_NX + 1
  | 1 => s.rd FGN_CFG FGN_CFG_NY + 1
  | _ => s.rd FGN_CFG FGN_CFG_NZ + 1

/-- A node's coordinates lie below the ring sizes (R407, R425). -/
def State.onRings (s : State) (node : Nat) : Bool :=
  (List.range 3).all (fun d => decide (nodeCo node d < s.ringN d))

/-- FGN_NODE brought up to date: the sampled node ID and BAD. -/
def State.fgnNode (s : State) : State :=
  (s.wr FGN_NODE FGN_NODE_NODE s.node).wr FGN_NODE FGN_NODE_BAD (b2n (!s.onRings s.node))

/-- A node with coordinate dim moved by one, forward or back, on its ring. -/
def State.nodeStep (s : State) (node dim : Nat) (plus : Bool) : Nat :=
  let n := s.ringN dim
  let c := if plus then (nodeCo node dim + 1) % n else (nodeCo node dim + n - 1) % n
  match dim with
  | 0 => nset node 12 9 c
  | 1 => nset node 8 6 c
  | _ => nset node 5 3 c

/-! ### Links and ports (R403 to R406) -/

def State.lkSt (s : State) (l : Nat) : Nat := s.rd (FGN_LINK_STAT l) FGN_LINK_STAT_STATE
def State.setLk (s : State) (l st : Nat) : State :=
  let s1 := s.wr (FGN_LINK_STAT l) FGN_LINK_STAT_STATE st
  if s.lkSt l = st then s1 else s1.psc 5 l st

/-- The links of a port, and the port of a link. -/
def State.portLinks (s : State) (p : Nat) : List Nat :=
  (List.range 24).filter (fun l => nbits (s.rd (FGN_PORT_CFG p) FGN_PORT_CFG_LINKS) l l == 1)
def State.linkPort (s : State) (l : Nat) : Option Nat := (List.range 16).find? (fun p => (s.portLinks p).contains l)

/-- The die whose router serves a port: that of its lowest link (R405). -/
def State.portDie (s : State) (p : Nat) : Nat := if (s.portLinks p).headD 0 < 12 then 0 else 1

def State.ptSt (s : State) (p : Nat) : Nat := s.rd (FGN_PORT_STAT p) FGN_PORT_STAT_STATE

/-- A port's UP mask and STATE brought up to date; without Craone link 0 a port has only the links of its own die (R405). -/
def State.refreshFgnPort (s : State) (p : Nat) : State :=
  let ls := (s.portLinks p).filter (fun l =>
    s.rd (MGT_CRA_STAT 0) MGT_CRA_STAT_STATE == 3 || (decide (l < 12) == decide (s.portDie p = 0)))
  let up := ls.filter (fun l => s.lkSt l == lkActive)
  let en := s.flag (FGN_PORT_CFG p) FGN_PORT_CFG_EN
  let was := s.ptSt p
  let st := if ¬ en then ptDown
    else if up ≠ [] then (if up.length = (s.portLinks p).length then ptUp else ptPart)
    else if was = ptFallback then ptFallback
    else if ls.any (fun l => decide (lkTrain ≤ s.lkSt l) && decide (s.lkSt l ≤ lkIdent)) then ptTraining
    else ptDown
  let s1 := s.wr (FGN_PORT_STAT p) FGN_PORT_STAT_UP (up.foldl (fun m l => m ||| 2 ^ l) 0)
  let s2 := s1.wr (FGN_PORT_STAT p) FGN_PORT_STAT_STATE st
  if was = st then s2 else s2.psc 5 (256 + p) st

def State.fport (s : State) (p : Nat) : FPort := mget FPort.reset s.fgn.ports p
def State.setFport (s : State) (p : Nat) (x : FPort) : State :=
  { s with fgn := { s.fgn with ports := mset FPort.reset s.fgn.ports p x } }

/-- A port that carries packets. -/
def State.portUp (s : State) (p : Nat) : Bool := s.ptSt p == ptUp || s.ptSt p == ptPart

/-- The enabled port of a direction code, and on-board the one of offset d (R405). -/
def State.dirPort (s : State) (dir d : Nat) : Option Nat :=
  (List.range 16).find? (fun p =>
    s.flag (FGN_PORT_CFG p) FGN_PORT_CFG_EN && s.rd (FGN_PORT_CFG p) FGN_PORT_CFG_DIR == dir &&
    (dir != 0 || s.rd (FGN_PORT_CFG p) FGN_PORT_CFG_PEER == d))

/-! ### Routing (R418 to R421) -/

/-- The slice box of a dimension: first coordinate and length (0 for the whole ring). -/
def State.sliceBox (s : State) (dim : Nat) : Nat × Nat :=
  match dim with
  | 0 => (s.rd FGN_SLICE FGN_SLICE_X0, s.rd FGN_SLICE FGN_SLICE_XLEN)
  | 1 => (s.rd FGN_SLICE FGN_SLICE_Y0, s.rd FGN_SLICE FGN_SLICE_YLEN)
  | _ => (s.rd FGN_SLICE FGN_SLICE_Z0, s.rd FGN_SLICE FGN_SLICE_ZLEN)

/-- A dimension is wrapped: its length is 0 or the ring size. -/
def State.wrapped (s : State) (dim : Nat) : Bool := (s.sliceBox dim).2 == 0 || (s.sliceBox dim).2 == s.ringN dim

/-- A coordinate's distance from the first of the box. -/
def State.boxRel (s : State) (node dim : Nat) : Nat :=
  (nodeCo node dim + s.ringN dim - (s.sliceBox dim).1 % s.ringN dim) % s.ringN dim

def State.inBox (s : State) (node : Nat) : Bool :=
  (List.range 3).all (fun d => s.wrapped d || decide (s.boxRel node d < (s.sliceBox d).2))

/-- The next hop to a node: the dimension and whether it goes plus, or the on-board offset. -/
inductive Hop where
  | ring (dim : Nat) (plus : Bool)
  | board (d : Nat)
  deriving DecidableEq, Repr

def State.hopTo (s : State) (dst : Nat) : Hop :=
  let here := s.node
  match (List.range 3).find? (fun d => nodeCo dst d != nodeCo here d) with
  | none => .board ((nodeIdx dst + 8 - nodeIdx here) % 8)
  | some d =>
    let n := s.ringN d
    let off := (nodeCo dst d + n - nodeCo here d) % n
    if s.inBox here && s.inBox dst && !s.wrapped d then .ring d (decide (s.boxRel here d < s.boxRel dst d))
    else .ring d (decide (off ≤ n / 2))

/-- The port of a hop: DIR 1 to 6 are X+, X−, Y+, Y−, Z+, Z−. -/
def State.hopPort (s : State) (h : Hop) : Option Nat :=
  match h with
  | .ring d plus => s.dirPort (1 + 2 * d + b2n (!plus)) 0
  | .board d     => s.dirPort 0 d

/-- The dimension of a port. -/
def State.portDim (s : State) (p : Nat) : Option Nat :=
  let dir := s.rd (FGN_PORT_CFG p) FGN_PORT_CFG_DIR
  if 1 ≤ dir ∧ dir ≤ 6 then some ((dir - 1) / 2) else none

/-- Whether a packet keeps its header's DL for a hop in a dimension: it arrived in the same dimension, or on-board, as a detour does (R419,
R421). -/
def State.dlKept (s : State) (from_ : Option Nat) (d : Nat) : Bool := from_.any (fun p => (s.portDim p).all (fun x => x == d))

/-- DL of a packet after a hop: it starts at 0 in each dimension and is 1 once the dateline is crossed; from_ is the port it arrived
on (R419). -/
def State.hopDl (s : State) (h : Hop) (from_ : Option Nat) (dl : Bool) : Bool :=
  match h with
  | .board _ => dl
  | .ring d plus =>
    let keep : Bool := s.dlKept from_ d && dl
    let c := nodeCo s.node d
    keep || (if plus then c + 1 == s.ringN d else c == 0)

/-- Credits a packet takes, in units of 32 bytes (R414, R415). -/
def FTx.units (t : FTx) : Nat := 1 + 2 * t.pkt.data.length

/-- The packets that a port could send next: the oldest of each virtual channel, where credits cover it, with its index and channel. -/
def fgnHeads (f : FPort) : List (Nat × Nat × FTx) :=
  ((List.range f.queue.length).zip f.queue).filter (fun x =>
    !(f.queue.take x.1).any (fun y => y.1 == x.2.1) && decide (x.2.2.units ≤ mget 0 f.credits x.2.1))

/-- The first of the packets in round-robin order of the classes after one (R417). -/
def classPick (last : Nat) (cs : List (Nat × Nat × FTx)) : Option (Nat × Nat × FTx) :=
  (List.range 3).findSome? (fun i => cs.find? (fun x => x.2.2.tc == (last + 1 + i) % 3))

/-- The packet a port sends next and the port's counts after it: MGT first, but only one unit in 16 while others wait; the other classes by
packet in turn; on a guarded port, while both wait, transit packets take at least one unit in four (R417, R420). -/
def State.fgnPick (s : State) (p : Nat) (f : FPort) : Option ((Nat × Nat × FTx) × FPort) :=
  let hs := fgnHeads f
  let os := hs.filter (fun x => x.2.2.tc != 3)
  let mgt := hs.find? (fun x => x.2.2.tc == 3)
  match (if os.isEmpty || f.mgtDebt == 0 then mgt else none) with
  | some m => some (m, { f with mgtDebt := if os.isEmpty then 0 else 15 * m.2.2.units })
  | none =>
    let transit (x : Nat × Nat × FTx) : Bool := x.2.2.pkt.slice.toNat != s.rd FGN_SLICE FGN_SLICE_ID
    let tr := os.filter transit
    let sl := os.filter (fun x => !transit x)
    let both : Bool := s.flag (FGN_PORT_CFG p) FGN_PORT_CFG_GUARD && !tr.isEmpty && !sl.isEmpty
    let pool := if ¬ both then os else
      match classPick f.turn sl with
      | some x => if x.2.2.units ≤ f.room then sl else tr
      | none   => tr
    (classPick f.turn pool).map (fun c =>
      (c, { f with turn := c.2.2.tc, mgtDebt := f.mgtDebt - c.2.2.units,
                   room := if ¬ both then 0 else if transit c then f.room + 3 * c.2.2.units else f.room - c.2.2.units }))

/-- At most k packets of a port's queue sent. -/
def State.fgnPumpK (s : State) (p : Nat) : Nat → State
  | 0     => s
  | k + 1 =>
    match s.fgnPick p (s.fport p) with
    | none => s
    | some ((i, vc, t), f) =>
      let s1 := s.setFport p { f with credits := mset 0 f.credits vc (mget 0 f.credits vc - t.units), queue := f.queue.eraseIdx i }
      let o : FOut := { port := p, vc := vc, tx := t }
      State.fgnPumpK { s1 with fgn := { s1.fgn with out := s1.fgn.out ++ [o] } } p k

/-- Packets of a port's queue sent while the port is up and credits cover them (R414, R417, R420). -/
def State.fgnPump (s : State) (p : Nat) : State :=
  if s.portUp p then s.fgnPumpK p (s.fport p).queue.length else s

/-- A packet put in a port's queue, and what can be sent sent. -/
def State.fgnQueue (s : State) (p vc : Nat) (t : FTx) : State :=
  let f := s.fport p
  (s.setFport p { f with queue := f.queue ++ [(vc, t)] }).fgnPump p

/-- A packet on a detour over the on-board hop of a failed port (R421). -/
def State.fgnDetour (s : State) (p : Nat) (t : FTx) : State :=
  let drop := s.bump FGN_REROUTE FGN_REROUTE_DOUBLE_DROP
  if t.pkt.detour then drop else
  let d := (s.rd (FGN_PORT_CFG p) FGN_PORT_CFG_FB_PLANE + 8 - nodeIdx s.node) % 8
  match s.dirPort 0 d with
  | some q => if s.portUp q then s.fgnQueue q (4 * t.tc + 2) { t with pkt := { t.pkt with detour := true } } else drop
  | none   => drop

/-- A packet sent on its way from this package; from is the port it arrived on (R418 to R421). -/
def State.fgnRoute (s : State) (from_ : Option Nat) (t : FTx) : State :=
  let h := s.hopTo t.pkt.dst.toNat
  match s.hopPort h with
  | none => s.bump FGN_ERR FGN_ERR_NO_ROUTE
  | some p =>
    let dl := s.hopDl h from_ t.pkt.dl
    let t1 := { t with pkt := { t.pkt with dl := dl } }
    let vc := 4 * t.tc + 2 * b2n t.pkt.detour + (match h with
      | .ring _ _ => b2n dl
      | .board _  => 1)
    if s.portUp p then s.fgnQueue p vc t1
    else if s.ptSt p = ptFallback then s.fgnDetour p t1
    else if t.pkt.detour ∨ ¬ s.flag (FGN_PORT_CFG p) FGN_PORT_CFG_FB_EN then s.bump FGN_REROUTE FGN_REROUTE_DOUBLE_DROP
    else s.fgnQueue p vc t1

/-! ### Connections (R422, R423) -/

/-- A packet of this package: its header filled in. -/
def State.fgnPkt (s : State) (dst : Nat) (tdie : Bool) (txid addr : Nat) (aux : Nat) (data : List Line) (poison : Bool) : FPkt :=
  { dst := BitVec.ofNat 13 dst, src := BitVec.ofNat 13 s.node, dl := false, detour := false, poison := poison,
    cap := s.flag PWR_STAT PWR_STAT_CAPPED,
    capLvl := BitVec.ofNat 4 (if s.flag PWR_STAT PWR_STAT_CAPPED then s.rd PWR_STAT PWR_STAT_CAPLVL else 0),
    slice := BitVec.ofNat 10 (s.rd FGN_SLICE FGN_SLICE_ID), tdie := tdie, seq := 0,
    inc := BitVec.ofNat 16 (s.rd FGN_NODE FGN_NODE_INC), txid := BitVec.ofNat 16 txid, otag := 0,
    addr := BitVec.ofNat 43 addr, aux := BitVec.ofNat 64 aux, reserved := false, data := data }

def SendConn.new : SendConn := { next := [0, 0, 0], unack := [] }
def RecvConn.new (inc : Nat) : RecvConn := { expect := [0, 0, 0], since := [0, 0, 0], inc := inc }

/-- A packet of a sequenced class sent on the connection to its destination, whose entry is made at the first one. -/
def State.fgnSend (s : State) (tc op : Nat) (k : FPkt) : State :=
  let d := k.dst.toNat
  let c := (mfind s.fgn.send d).getD SendConn.new
  let s1 := if (mfind s.fgn.send d).isSome then s else s.wrap FGN_CONN_STAT FGN_CONN_STAT_SEND_USED 1
  let n := c.next.getD tc 0
  let t : FTx := { tc := tc, op := op, pkt := { k with seq := BitVec.ofNat 32 n }, tries := 1 }
  let c1 : SendConn := { next := lset c.next tc ((n + 1) % 2 ^ 32), unack := c.unack ++ [t] }
  ({ s1 with fgn := { s1.fgn with send := mput s1.fgn.send d c1 } }).fgnRoute none t

/-- A packet of class MGT: no sequence number, no retry. -/
def State.fgnMgt (s : State) (op dst aux : Nat) : State :=
  s.fgnRoute none { tc := 3, op := op, pkt := s.fgnPkt dst false 0 0 aux [] false, tries := 1 }

/-- A destination a packet can be sent to: else the request ends with an error response and is counted (R425). -/
def State.fgnReach (s : State) (dst : Nat) : State × Bool :=
  if ¬ s.flag FGN_CFG FGN_CFG_EN then (s, false)
  else if s.onRings dst then (s, true)
  else (s.bump FGN_ERR FGN_ERR_NO_ROUTE, false)

/-- The next transaction ID. -/
def State.fgnTx (s : State) : Nat × State :=
  (s.fgn.txid, { s with fgn := { s.fgn with txid := (s.fgn.txid + 1) % 2 ^ 16 } })

/-- READ requests for the lines of n bytes at an address of another node, up to 4 chunks each. -/
def State.fgnRead (s : State) (pa n : Nat) : State :=
  let lines := lineCount pa n
  (List.range ((lines + 3) / 4)).foldl (fun (t : State) i =>
    let x := t.fgnTx
    x.2.fgnSend 0 0x01 (x.2.fgnPkt (nodeOf pa) false x.1 (alignDown (localOf pa) 64 + 256 * i) (min 4 (lines - 4 * i)) [] false)) s

/-- One line of a write: WRITE for a whole line, WRITE_MASKED for a part of one. -/
def State.fgnWriteLine (s0 : State) (pa : Nat) (bs : List Byte) (poison : Bool) : State :=
  let s := s0.rrbDrop pa bs.length
  let x := s.fgnTx
  let off := pa % 64
  let chunk : Line := BitVec.ofNat 512 (leVal bs * 2 ^ (8 * off))
  let addr := alignDown (localOf pa) 64
  if bs.length = 64 then x.2.fgnSend 0 0x02 (x.2.fgnPkt (nodeOf pa) false x.1 addr 0 [chunk] poison)
  else x.2.fgnSend 0 0x03 (x.2.fgnPkt (nodeOf pa) false x.1 addr ((2 ^ bs.length - 1) * 2 ^ off) [chunk] poison)

/-- A write of bytes to another node, line by line; k bounds the lines. -/
def State.fgnWrite (s : State) (pa : Nat) (bs : List Byte) (poison : Bool) : Nat → State
  | 0 => s
  | k + 1 =>
    if bs = [] then s else
    let m := 64 - pa % 64
    (s.fgnWriteLine pa (bs.take m) poison).fgnWrite (pa + m) (bs.drop m) poison k

/-- An atomic to another node: AUX of R416, and its operands from byte 0 of the chunk. -/
def State.fgnAtomic (s0 : State) (pa aux : Nat) (bs : List Byte) : State :=
  let s := s0.rrbDrop pa bs.length
  let x := s.fgnTx
  x.2.fgnSend 0 0x04 (x.2.fgnPkt (nodeOf pa) false x.1 (localOf pa) aux [BitVec.ofNat 512 (leVal bs)] false)

end Sys2Proof.Machine
end

