-- ==== Sys2Proof/Machine/Cache.lean ====
section
/-!
DEFINITION. The caches themselves (spec/10): their index functions (R262), the ways a system cache keeps for lines (R263), the two
replacement policies (R265 to R268), reads and changes of one agent's lines, and the remote-read buffers (R291, R292).

Where the spec leaves open or is read by inference, and what is taken from outside it (DESIGN CHOICE, DEDUCED, PRESUMED):
notes/assumptions/31.md.
-/

namespace Sys2Proof.Machine

open Sys2Proof

/-! ### Agents and index functions -/

/-- The agent IDs of R274, and the key of the home's own L3 (R260). -/
def agentId : CohAgent → Nat
  | .l2 c => 0x80 + c.val
  | .sc d => 0x10 + 0x10 * d.val

abbrev l3Key : Nat := 0x100

/-- The C-die of a system cache's agent ID. -/
def scDie (ag : Nat) : Option Nat := if ag = 0x10 then some 0 else if ag = 0x20 then some 1 else none

/-- The line number of an address (R262). -/
def lineNo (a : Nat) : Nat := a / 64 % 2 ^ 37

/-- Slice and set of the L3 and of the directory as one index; slices are 2^14 apart (R262). -/
def homeSlice (a : Nat) : Nat :=
  let l := lineNo a
  8 * (l % 3) + (nbits l 2 0 ^^^ nbits l 5 3 ^^^ nbits l 8 6 ^^^ nbits l 11 9)

def dirIdx (a : Nat) : Nat := homeSlice a * 2 ^ 14 + (nbits (lineNo a) 13 0 ^^^ nbits (lineNo a) 27 14)

/-- Slice and set of a line in an agent's cache (R262). -/
def cacheSlice (ag a : Nat) : Nat :=
  let l := lineNo a
  if ag = l3Key then homeSlice a
  else if (scDie ag).isSome then nbits l 3 0 ^^^ nbits l 7 4 ^^^ nbits l 11 8 ^^^ nbits l 15 12
  else 0

def cacheSet (ag a : Nat) : Nat :=
  let l := lineNo a
  if ag = l3Key then nbits l 11 0 ^^^ nbits l 23 12 ^^^ nbits l 35 24
  else if (scDie ag).isSome then nbits l 15 4 ^^^ nbits l 27 16
  else nbits l 10 0 ^^^ nbits l 21 11

def cacheIdx (ag a : Nat) : Nat := cacheSlice ag a * 4096 + cacheSet ag a

/-! ### The ways of a system cache (R263, R503) -/

/-- The mask of soft-disabled ways of a C-die. -/
def waysOff (d : Nat) : Fld := if d = 0 then TST_REPAIR_STAT_C0_WAYS_OFF else TST_REPAIR_STAT_C1_WAYS_OFF

/-- The ways a ledger of a size takes. -/
def ledgerWays (size : Nat) : Nat := if size = 0 then 0 else if size ≤ 12 then 1 else 2

/-- Ledger ways and scratch ways in force: those of a locked register. -/
def State.ledgerTaken (s : State) (d : Nat) : Nat :=
  if s.flag (EPO_LEDGER_CFG d) EPO_LEDGER_CFG_LOCK then ledgerWays (s.rd (EPO_LEDGER_CFG d) EPO_LEDGER_CFG_SIZE) else 0

def State.scratchWays (s : State) (d : Nat) : Nat :=
  if s.flag (CCH_SC_CARVE d) CCH_SC_CARVE_LOCK then s.rd (CCH_SC_CARVE d) CCH_SC_CARVE_SCRATCH_WAYS else 0

/-- The ways of a C-die's system cache that R263 leaves for lines, from way 0 up, the disabled ones among them. -/
def State.scWays (s : State) (d : Nat) : Nat := 15 - s.ledgerTaken d - s.scratchWays d

/-- Whether a way caches lines: not carved, soft-disabled, fused off or under test (R263, R497, R503). -/
def State.wayOn (s : State) (d w : Nat) : Bool :=
  decide (w < s.scWays d) && nbits (s.rd TST_REPAIR_STAT (waysOff d)) w w == 0 && !s.yar.fuseWays.contains (16 * d + w) &&
  !s.yar.tests.any (fun t => t.1 == d && t.2.kind == 2 && t.2.index == w)

/-- LEDGER_WAYS and CACHE_WAYS of a C-die as they are now. -/
def State.refreshWays (s : State) (d : Nat) : State :=
  (s.wr (CCH_SC_CARVE d) CCH_SC_CARVE_LEDGER_WAYS (s.ledgerTaken d)).wr (CCH_SC_CARVE d) CCH_SC_CARVE_CACHE_WAYS
    ((List.range 16).filter (fun w => s.wayOn d w)).length

/-- The caching ways of an agent. -/
def State.cacheWays (s : State) (ag : Nat) : List Nat :=
  (List.range 16).filter (fun w => match scDie ag with
    | some d => s.wayOn d w
    | none   => true)

/-! ### Lines of an agent -/

/-- The lines an agent holds, and one of them. -/
def State.cLines (s : State) (ag : Nat) : List (Nat × CLine) := mget [] s.caches ag

def State.cLine (s : State) (ag line : Nat) : Option CLine := mfind (s.cLines ag) line

/-- The state of a line in an agent. -/
def State.cSt (s : State) (ag line : Nat) : CSt :=
  match s.cLine ag line with
  | some c => c.st
  | none   => .I

/-- An agent's line replaced, or gone; a line that leaves an L2 leaves the L1 data cache in it (R261). -/
def State.setLine (s : State) (ag line : Nat) (c : CLine) : State :=
  { s with caches := mset [] s.caches ag (mput (s.cLines ag) line c) }

def State.delLine (s : State) (ag line : Nat) : State :=
  let s1 := { s with caches := mset [] s.caches ag (mdel (s.cLines ag) line) }
  match mfind s1.cores (ag - 0x80) with
  | some x =>
    if 0x80 ≤ ag ∧ ag < l3Key ∧ (mfind x.l1d line).isSome then
      { s1 with cores := mset YCore.reset s1.cores (ag - 0x80) { x with l1d := mdel x.l1d line } }
    else s1
  | none => s1

/-- A stable valid state (R276). -/
def CSt.stable : CSt → Bool
  | .S | .E | .M | .O => true
  | _ => false

/-! ### The cores' error records (R443, R448, R455, R460) -/

def State.core (s : State) (c : Nat) : YCore := mget YCore.reset s.cores c
def State.setCore (s : State) (c : Nat) (x : YCore) : State := { s with cores := mset YCore.reset s.cores c x }

/-- MGT_CORE_STATc.STATE codes. -/
abbrev csOff : Nat := 0
abbrev csStarting : Nat := 1
abbrev csRunning : Nat := 2
abbrev csParking : Nat := 3
abbrev csParked : Nat := 4
abbrev csOfflining : Nat := 5
abbrev csOffline : Nat := 6

def State.coreSt (s : State) (c : Nat) : Nat := s.rd (MGT_CORE_STAT c) MGT_CORE_STAT_STATE
def State.setCoreSt (s : State) (c st : Nat) : State := s.wr (MGT_CORE_STAT c) MGT_CORE_STAT_STATE st

/-- Every entry of a store buffer that has not issued issues; one for another node is sent (R330, R331). -/
def State.sbIssue (s : State) (c : Nat) : State :=
  let x := s.core c
  let out := x.sb.filter (fun e => !e.issued && nodeOf e.line != s.node)
  let s1 := out.foldl (fun (t : State) e => (byteRuns e.mask).foldl (fun (u : State) r =>
    match u.fgnReach (nodeOf e.line) with
    | (u1, true)  => u1.fgnWriteLine (e.line + r.1) (slice (leBytes 64 e.data.toNat) r.1 r.2) false
    | (u1, false) => u1) t) s
  s1.setCore c { x with sb := x.sb.map (fun e => { e with issued := true }) }

/-- A running or parking core starts to go offline, with the code of its cause (R455). -/
def State.coreOfflining (s : State) (c cause : Nat) : State :=
  if s.coreSt c = csRunning ∨ s.coreSt c = csParking then
    let s1 := ((s.setCoreSt c csOfflining).wr (MGT_CORE_STAT c) MGT_CORE_STAT_OFF_CAUSE cause).sbIssue c
    s1.setCore c { s1.core c with wfi := false }
  else s

/-- A record of a core's error, while none is held (R460). -/
def YCore.record (x : YCore) (src : Nat) (uncorr : Bool) (line : Nat) : YCore :=
  if bitAt x.yerrst 5 then x
  else { x with yerrst := BitVec.ofNat 64 (nset x.yerrst.toNat 5 0 (src + b2n uncorr * 2 ^ 4 + 2 ^ 5)), yerraddr := BitVec.ofNat 64 (line % 2 ^ 56) }

/-- A corrected error: counted, and interrupt 35 at a multiple of THRESH (R448). -/
def YCore.corrected (x : YCore) (src line : Nat) : YCore :=
  let n := (bits x.yerrcnt 31 0 + 1) % 2 ^ 32
  let th := bits x.yerrst 31 16
  let y := { x with yerrcnt := BitVec.ofNat 64 (nset x.yerrcnt.toNat 31 0 n), ras := x.ras || (th != 0 && n % th == 0) }
  y.record src false line

/-- An uncorrectable error: counted up to 0xFFFF. -/
def YCore.uncorrected (x : YCore) (src line : Nat) : YCore :=
  ({ x with yerrcnt := BitVec.ofNat 64 (nset x.yerrcnt.toNat 47 32 (min 0xFFFF (bits x.yerrcnt 47 32 + 1))) }).record src true line

/-! ### Replacement -/

/-- Whether a cache uses tree pseudo-LRU: always in an L2, else as CCH_REPL selects once it is locked (R261, R268). -/
def State.plru (s : State) (ag : Nat) : Bool :=
  let f := if ag = l3Key then some CCH_REPL_L3 else if ag = 0x10 then some CCH_REPL_SC0 else if ag = 0x20 then some CCH_REPL_SC1 else none
  match f with
  | none   => true
  | some f => s.flag CCH_REPL CCH_REPL_LOCK && s.flag CCH_REPL f

/-- Whether a fill counts as streaming: asked for, and not disabled (R267, R268). -/
def State.streams (s : State) (asked : Bool) : Bool :=
  asked && !(s.flag CCH_REPL CCH_REPL_LOCK && !s.flag CCH_REPL CCH_REPL_STREAM_EN)

/-- Every node on a way's path pointed away from it (R266); node 1 is the root, bit i belongs to node i, 0 points down. -/
def treeTouch (t w : Nat) : Nat :=
  (List.range 4).foldl (fun t k =>
    let node := (16 + w) / 2 ^ (4 - k)
    nset t node node (1 - nbits w (3 - k) (3 - k))) t

/-- Whether a subtree of size 2^k below a node holds a way that may be chosen. -/
def treeHas (ok : List Nat) (node k : Nat) : Bool := ok.any (fun w => (16 + w) / 2 ^ k == node)

/-- The way found by following the pointers, taking the other subtree where the indicated one holds none (R266). -/
def treeVictim (ok : List Nat) (t : Nat) : Nat → Nat → Nat
  | 0,     node => node - 16
  | k + 1, node =>
    let c := 2 * node + nbits t node node
    treeVictim ok t k (if treeHas ok c k then c else 2 * node + (1 - nbits t node node))

/-- The oldest of some ages, at most 3. -/
def oldest (ages : List Nat) : Nat := ages.foldl max 0

/-- The tree of a set of an agent. -/
def State.tree (s : State) (ag line : Nat) : Nat := mget 0 s.coh.lru (ag * 2 ^ 20 + cacheIdx ag line)

/-- A hit or a normal fill noted by pseudo-LRU. -/
def State.treeHit (s : State) (ag line way : Nat) : State :=
  { s with coh := { s.coh with lru := mset 0 s.coh.lru (ag * 2 ^ 20 + cacheIdx ag line) (treeTouch (s.tree ag line) way) } }

/-- A hit: the age becomes 0 (R265), or the path points away (R266). -/
def State.cHit (s : State) (ag line : Nat) : State :=
  match s.cLine ag line with
  | none   => s
  | some c => if s.plru ag then s.treeHit ag line c.way else s.setLine ag line { c with age := 0 }

/-- The lines of an agent that share a line's set and are in the array. -/
def State.setLines (s : State) (ag line : Nat) : List (Nat × CLine) :=
  (s.cLines ag).filter (fun p => decide (p.2.way < 16) && cacheIdx ag p.1 == cacheIdx ag line)

/-- A way for a new line: a free caching way, or the way of a victim, which is never in a transient state; and the state after the
ages have grown.  None when every caching way is in a transient state. -/
def State.cWay (s : State) (ag line : Nat) : Option (State × Nat × Option Nat) :=
  let ls := s.setLines ag line
  let ways := s.cacheWays ag
  match ways.find? (fun w => !ls.any (fun p => p.2.way == w)) with
  | some w => some (s, w, none)
  | none =>
    let ok := ls.filter (fun p => p.2.st.stable && ways.contains p.2.way)
    if ok = [] then none
    else if s.plru ag then
      let w := treeVictim (ok.map (fun p => p.2.way)) (s.tree ag line) 4 1
      some (s, w, (ok.find? (fun p => p.2.way == w)).map (·.1))
    else
      let up := 3 - min 3 (oldest (ok.map (fun p => p.2.age)))
      let s1 := ls.foldl (fun (t : State) p => t.setLine ag p.1 { p.2 with age := min 3 (p.2.age + up) }) s
      let old := ways.find? (fun w => ok.any (fun p => p.2.way == w && decide (3 ≤ p.2.age + up)))
      some (s1, old.getD 0, (ok.find? (fun p => some p.2.way == old)).map (·.1))

/-- A line entered in a way: with age 1 or, streaming, 3; a normal fill points the tree away (R265, R266). -/
def State.cEnter (s : State) (ag line way : Nat) (stream : Bool) (c : CLine) : State :=
  let st := s.streams stream
  let s1 := s.setLine ag line { c with way := way, age := if st then 3 else 1 }
  if s.plru ag && !st then s1.treeHit ag line way else s1

/-! ### The remote-read buffers -/

/-- The set of a remote line, by its whole address (R262). -/
def rrbSet (a : Nat) : Nat := nbits (lineNo a) 11 0 ^^^ nbits (lineNo a) 23 12 ^^^ nbits (nodeOf a) 11 0

/-- A buffer is in use: 0 the H-die's, 1 and 2 those of C0 and C1. -/
def State.rrbOn (s : State) (b : Nat) : Bool :=
  s.flag CCH_RRB_CFG (if b = 0 then CCH_RRB_CFG_EN_H else if b = 1 then CCH_RRB_CFG_EN_C0 else CCH_RRB_CFG_EN_C1)

/-- The lines of a buffer's set. -/
def State.rrbLines (s : State) (b a : Nat) : List (Nat × RrbLine) :=
  s.coh.rrb.filter (fun p => p.1 / 2 ^ 56 == b && rrbSet (p.1 % 2 ^ 56) == rrbSet a)

/-- A line held by a buffer, no longer than TTL µs where TTL is not zero. -/
def State.rrbFind (s : State) (b a : Nat) : Option RrbLine :=
  match mfind s.coh.rrb (b * 2 ^ 56 + a) with
  | none   => none
  | some r =>
    let ttl := s.rd CCH_RRB_CFG CCH_RRB_CFG_TTL
    if ttl ≠ 0 ∧ ttl * 32768 < (s.life - r.life) * 1000000 then none else some r

/-- The map of buffer lines with one line's age changed. -/
def State.rrbPut (s : State) (key : Nat) (r : RrbLine) : State := { s with coh := { s.coh with rrb := mput s.coh.rrb key r } }

/-- A word that the code of a buffer's data array cannot correct poisons its line (R261, R269, R292). -/
def State.rrbPoison (s : State) (b a : Nat) : State :=
  match mfind s.coh.rrb (b * 2 ^ 56 + a) with
  | some r => s.rrbPut (b * 2 ^ 56 + a) { r with poison := true }
  | none   => s

/-- A fetched line entered with age 1, over a free way or the victim of NRU with ageing. -/
def State.rrbEnter (s : State) (b a : Nat) (data : Line) (poison : Bool) : State :=
  let s0 := { s with coh := { s.coh with rrb := mdel s.coh.rrb (b * 2 ^ 56 + a) } }
  let ls := s0.rrbLines b a
  let r (w : Nat) : RrbLine := { data := data, poison := poison, life := s.life, age := 1, way := w }
  match (List.range 8).find? (fun w => !ls.any (fun p => p.2.way == w)) with
  | some w => s0.rrbPut (b * 2 ^ 56 + a) (r w)
  | none =>
    let up := 3 - min 3 (oldest (ls.map (fun p => p.2.age)))
    let s1 := ls.foldl (fun (t : State) p => t.rrbPut p.1 { p.2 with age := min 3 (p.2.age + up) }) s0
    match (List.range 8).findSome? (fun w => ls.find? (fun p => p.2.way == w && decide (3 ≤ p.2.age + up))) with
    | some v => { s1 with coh := { s1.coh with rrb := mdel s1.coh.rrb v.1 } }.rrbPut (b * 2 ^ 56 + a) (r v.2.way)
    | none   => s1

end Sys2Proof.Machine
end

