-- ==== Sys2Proof/Machine/Facet.lean ====
section
/-!
DEFINITION. Facet images: reading the header and the sections of R45 and R46, the well-formedness of R47, and the
outcomes of REGISTER and UNREGISTER (R48 to R50, R52, R379).

Where the spec leaves open or is read by inference, and what is taken from outside it (DESIGN CHOICE, DEDUCED, PRESUMED):
notes/assumptions/75.md.
-/

namespace Sys2Proof.Machine

open Sys2Proof

/-- All bytes of a list are zero. -/
def allZero (bs : List Byte) : Bool := bs.all (· == 0)

/-- A section entry of a facet header: type, offset and length (R45). -/
structure Sect where
  kind : Nat
  off  : Nat
  len  : Nat
  deriving DecidableEq, Repr

/-- The section entries of an image, NSECT of them. -/
def facetSects (img : List Byte) : List Sect :=
  (List.range (leAt img 0x14 2)).map (fun i =>
    { kind := leAt img (0x20 + 16 * i) 1, off := leAt img (0x20 + 16 * i + 4) 4, len := leAt img (0x20 + 16 * i + 8) 4 })

/-- The section of a type, if the image has one. -/
def facetSect (img : List Byte) (kind : Nat) : Option Sect := (facetSects img).find? (·.kind == kind)

/-- The bytes of the section of a type; none for a missing section. -/
def sectBytes (img : List Byte) (kind : Nat) : List Byte :=
  match facetSect img kind with
  | some x => slice img x.off x.len
  | none   => []

/-- The partitions of an image (R46). -/
def facetParts (img : List Byte) : List Part :=
  let b := sectBytes img 3
  (List.range (b.length / 16)).map (fun i =>
    let e := leAt b (16 * i) 16
    { kind := nbits e 3 0, base := nbits e 15 8, size := nbits e 23 16,
      rights := if nbits e 3 0 = 6 then 0 else nbits e 29 24 })

/-- The declared stream ports of an image (R46). -/
def facetPorts (img : List Byte) : List PortDecl :=
  let b := sectBytes img 4
  (List.range (b.length / 8)).map (fun i =>
    let e := leAt b (8 * i) 8
    { out := nbits e 0 0 == 1, part := nbits e 15 8, depth := nbits e 31 16 })

/-- The route entries of an image (R46). -/
def facetRoutes (img : List Byte) : List Word :=
  let b := sectBytes img 2
  (List.range (b.length / 8)).map (fun i => BitVec.ofNat 64 (leAt b (8 * i) 8))

/-- The parameter declarations of an image: minimum and maximum (R46). -/
def facetParams (img : List Byte) : List (Nat × Nat) :=
  let b := sectBytes img 5
  (List.range (b.length / 16)).map (fun i => (leAt b (16 * i) 8, leAt b (16 * i + 8) 8))

/-- The microprogram of an image as 32-bit words. -/
def facetMicro (img : List Byte) : List W32 :=
  let b := sectBytes img 1
  (List.range (b.length / 4)).map (fun i => BitVec.ofNat 32 (leAt b (4 * i) 4))

/-- The signature length of a SIG_TYPE: 2,180 + 32 h bytes for a tree of height h (RFC 8391; 2,820 for height 20 in
R515). -/
def sigLen (t : Nat) : Nat :=
  match t with
  | 1 => 2500
  | 2 => 2692
  | _ => 2820

/-- The header fields of R45 are as its table says. -/
def facetHeaderOk (img : List Byte) : Bool :=
  let ns := leAt img 0x14 2
  let id := leAt img 0x08 4
  let slot := leAt img 0x18 1
  let st := leAt img 0x19 1
  leAt img 0 4 == 0xAE71FAC7 && leAt img 4 2 == 1 && leAt img 6 2 == 0x100 &&
  leAt img 0x10 4 == img.length && decide (img.length ≤ 0x100000) &&
  decide (3 ≤ ns) && decide (ns ≤ 6) &&
  decide (leAt img 0x17 1 < 2) && decide (slot ≤ 4) && decide (1 ≤ st) && decide (st ≤ 3) &&
  (if slot = 0 then decide (id ≤ 0xFFFF) else decide (0x10000 ≤ id)) &&
  leAt img 0x1A 2 == 0 && leAt img 0x1C 4 + sigLen st == img.length &&
  allZero (slice img (0x20 + 16 * ns) (16 * (8 - ns))) && allZero (slice img 0xA0 96)

/-- The section table is well formed: known types at most once, the required ones present, reserved bits zero, each
wholly between the header and the signature, none overlapping another. -/
def facetSectsOk (img : List Byte) : Bool :=
  let ss := facetSects img
  let sigOff := leAt img 0x1C 4
  (List.range ss.length).all (fun i =>
    leAt img (0x20 + 16 * i + 1) 3 == 0 && leAt img (0x20 + 16 * i + 12) 4 == 0) &&
  ss.all (fun x => decide (1 ≤ x.kind) && decide (x.kind ≤ 6) && decide (0x100 ≤ x.off) &&
    decide (x.off + x.len ≤ sigOff)) &&
  (ss.map (·.kind)).Nodup &&
  [1, 2, 3].all (fun k => ss.any (·.kind == k)) &&
  (List.range ss.length).all (fun i => (List.range ss.length).all (fun j =>
    i == j || (match ss[i]?, ss[j]? with
      | some x, some y => x.len == 0 || y.len == 0 || decide (x.off + x.len ≤ y.off) || decide (y.off + y.len ≤ x.off)
      | _, _ => true)))

/-- The partitions are well formed (R46, R47). -/
def facetPartsOk (img : List Byte) : Bool :=
  let b := sectBytes img 3
  let ps := facetParts img
  decide (16 ≤ b.length) && decide (b.length ≤ 128) && b.length % 16 == 0 &&
  (List.range ps.length).all (fun i =>
    nbits (leAt b (16 * i) 16) 7 4 == 0 && nbits (leAt b (16 * i) 16) 127 30 == 0) &&
  ps.all (fun p => decide (1 ≤ p.kind) && decide (p.kind ≤ 8) && decide (p.base ≤ 47) && decide (1 ≤ p.size) &&
    decide (p.base + p.size ≤ 48)) &&
  decide ((ps.filter (·.kind == 6)).length ≤ 1) &&
  (List.range ps.length).all (fun i => (List.range ps.length).all (fun j =>
    i == j || (match ps[i]?, ps[j]? with
      | some x, some y => decide (x.base + x.size ≤ y.base) || decide (y.base + y.size ≤ x.base)
      | _, _ => true)))

/-- One enabled route is well formed: assigned units, at most one selecting end, SEL naming what that end needs, and the
right a named partition must grant (R47). -/
def routeOk (ps : List Part) (ports : List PortDecl) (w : Word) : Bool :=
  if bits w 13 13 = 0 then bits w 63 14 == 0 else
  let src := bits w 4 0
  let dst := bits w 9 5
  let sel := bits w 12 10
  let sels (u : Nat) : Bool := u == 0 || u == 9
  let reader (u : Nat) : Bool := u == 1 || u == 2 || u == 4 || u == 6
  let writer (u : Nat) : Bool := u == 3 || u == 5 || u == 7
  let rights := match ps[sel]? with | some p => p.rights | none => 0
  let needA := src == 0 && reader dst
  let needW := dst == 0 && writer src
  let needU := (src == 0 && dst == 10) || (dst == 0 && src == 10)
  bits w 63 14 == 0 && decide (src ≤ 10) && decide (dst ≤ 10) && !(sels src && sels dst) &&
  (if src = 0 ∨ dst = 0 then decide (sel < ps.length)
   else if src = 9 ∨ dst = 9 then decide (sel < ports.length)
   else sel == 0) &&
  (!needA || nbits rights 0 0 == 1) && (!needW || nbits rights 1 1 == 1) && (!needU || nbits rights 2 2 == 1)

/-- The ports are well formed, and the chunks of those that share a partition fit it together (R47). -/
def facetPortsOk (img : List Byte) : Bool :=
  let b := sectBytes img 4
  let ps := facetParts img
  let qs := facetPorts img
  decide (b.length ≤ 64) && b.length % 8 == 0 &&
  (List.range qs.length).all (fun i =>
    nbits (leAt b (8 * i) 8) 7 1 == 0 && nbits (leAt b (8 * i) 8) 63 32 == 0) &&
  qs.all (fun q => decide (1 ≤ q.depth) && (match ps[q.part]? with | some p => p.kind == 5 | none => false)) &&
  (List.range ps.length).all (fun i => match ps[i]? with
    | some p => decide (((qs.filter (·.part == i)).map (·.depth * 64)).sum ≤ p.size * 65536)
    | none   => true)

/-- The first partition of a kind. -/
def firstPart (ps : List Part) (kind : Nat) : Option Part := ps.find? (·.kind == kind)

/-- A facet image is well formed (R47). -/
def facetOk (img : List Byte) : Bool :=
  let micro := sectBytes img 1
  let params := sectBytes img 5
  let const := sectBytes img 6
  facetHeaderOk img && facetSectsOk img && facetPartsOk img && facetPortsOk img &&
  decide (0 < micro.length) && micro.length % 4 == 0 && decide (micro.length ≤ 32768) &&
  (sectBytes img 2).length == 256 && (facetRoutes img).all (routeOk (facetParts img) (facetPorts img)) &&
  decide (params.length ≤ 256) && params.length % 16 == 0 && (facetParams img).all (fun p => decide (p.1 ≤ p.2)) &&
  (const.length == 0 || (match firstPart (facetParts img) 7 with
    | some p => decide (const.length ≤ p.size * 65536)
    | none   => false))

/-! ### The registry and the facet store (R48 to R50) -/

/-- 64 KiB units an image of n bytes takes. -/
def unitsOf (n : Nat) : Nat := (n + 65535) / 65536

/-- Units the registered images take. -/
def State.unitsUsed (s : State) : Nat := (s.facets.map (fun p => unitsOf p.2.imgLen)).sum

/-- Whether units u to u + k - 1 are free. -/
def State.unitsFree (s : State) (u k : Nat) : Bool :=
  s.facets.all (fun p => decide (p.2.unit + unitsOf p.2.imgLen ≤ u) || decide (u + k ≤ p.2.unit))

/-- The lowest run of k free units. -/
def State.findRun (s : State) (k : Nat) : Option Nat :=
  (List.range 1024).find? (fun u => decide (u + k ≤ 1024) && s.unitsFree u k)

/-- The bytes of a registered image in the facet store. -/
def State.facetImage (s : State) (f : Facet) : List Byte := s.cohRead (s.facetBase + f.unit * 65536) f.imgLen

/-- An image written into units of the facet store. -/
def State.storeImage (s : State) (u : Nat) (img : List Byte) : State :=
  s.memWrite (s.facetBase + u * 65536) (img ++ List.replicate (unitsOf img.length * 65536 - img.length) 0) false

/-- The registered facets in the order of their units, each with the unit it has when the images stand one after another from
unit 0: the moves that leave the free units in one run (R50). -/
def State.moves (s : State) : List (Nat × Facet × Nat) :=
  let at_ (u : Nat) : Option (Nat × Facet) := s.facets.find? (fun p => p.2.unit == u)
  (((List.range 1024).filterMap at_).foldl (fun (acc : List (Nat × Facet × Nat) × Nat) p =>
    (acc.1 ++ [(p.1, p.2, acc.2)], acc.2 + unitsOf p.2.imgLen)) ([], 0)).1

/-- One registered image moved to a unit line by line, a poisoned line with its poison (R50). -/
def State.moveImage (s : State) (h : Nat) (f : Facet) (u : Nat) : State :=
  if f.unit = u then s else
  let src := s.facetBase + f.unit * 65536
  let dst := s.facetBase + u * 65536
  let line (t : State) (i : Nat) : State :=
    t.memWrite (dst + 64 * i) (s.cohRead (src + 64 * i) 64) (s.anyPoison (src + 64 * i) 1)
  let s1 := (List.range (unitsOf f.imgLen * 1024)).foldl line s
  { s1 with facets := mput s1.facets h { f with unit := u } }

/-- Registered images moved down one after another in the order of their units, so that no move writes units of an image not yet
moved and the free units form one run (R50). -/
def State.compact (s : State) : State :=
  s.moves.foldl (fun t m => t.moveImage m.1 m.2.1 m.2.2) s

/-- A move waits: a tile loads an image that would be moved (R50). -/
def State.moveWaits (s : State) : Bool :=
  s.moves.any (fun m => m.2.1.unit != m.2.2 &&
    s.tiles.any (fun p => s.tst p.1 == tsLoading && (match p.2.bind with | some b => b.handle == m.1 | none => false)))

/-- The lowest handle no registered facet holds. -/
def State.freeHandle (s : State) : Option Nat :=
  (List.range 256).find? (fun h => (mfind s.facets h).isNone)

/-- A measurement register's value and its extension with a digest (R517). -/
def State.measure (s : State) (i : Nat) : W256 :=
  BitVec.ofNat 256 ((s.reg (SEC_M i 0)).toNat + (s.reg (SEC_M i 1)).toNat * 2 ^ 64 +
    (s.reg (SEC_M i 2)).toNat * 2 ^ 128 + (s.reg (SEC_M i 3)).toNat * 2 ^ 192)

def State.setMeasure (s : State) (i : Nat) (d : W256) : State :=
  (((s.setReg (SEC_M i 0) (BitVec.ofNat 64 d.toNat)).setReg (SEC_M i 1) (BitVec.ofNat 64 (d.toNat / 2 ^ 64))).setReg
    (SEC_M i 2) (BitVec.ofNat 64 (d.toNat / 2 ^ 128))).setReg (SEC_M i 3) (BitVec.ofNat 64 (d.toNat / 2 ^ 192))

def State.extend (s : State) (i : Nat) (d : W256) : State :=
  s.setMeasure i (shake256 (leBytes 32 (s.measure i).toNat ++ leBytes 32 d.toNat))

/-- Where a REGISTER descriptor's image lies and what fetching it returned. -/
structure FetchRes where
  ok  : Bool
  img : List Byte
  deriving DecidableEq, Repr

/-- The image of a REGISTER descriptor fetched from the own node, or as host memory returned it (R379). -/
def State.fetchImage (s : State) (d : Line) (hostBytes : List Byte) : FetchRes :=
  let addr := bits d 127 64
  let len := bits d 159 128
  if bits d 160 160 = 1 then { ok := hostBytes.length == len, img := hostBytes }
  else if s.isMem addr len then { ok := !s.anyPoison (localOf addr) (lineCount addr len), img := s.cohRead (localOf addr) len }
  else { ok := false, img := [] }

/-- Status codes of the facet table (spec/02). -/
abbrev stServed : Nat := 0x00
abbrev stDeferred : Nat := 0x01
abbrev stSigInvalid : Nat := 0x10
abbrev stKeyUnknown : Nat := 0x11
abbrev stFormat : Nat := 0x12
abbrev stStoreFull : Nat := 0x13
abbrev stVersionConflict : Nat := 0x14
abbrev stRegistryFull : Nat := 0x15
abbrev stInUse : Nat := 0x16
abbrev stBadHandle : Nat := 0x17
abbrev stBadParam : Nat := 0x18
abbrev stBadPort : Nat := 0x19
abbrev stTileOffline : Nat := 0x1A
abbrev stBindPending : Nat := 0x1B
abbrev stFacetPoisoned : Nat := 0x1C
abbrev stMode : Nat := 0x1D
abbrev stStepping : Nat := 0x1E
abbrev stNotBound : Nat := 0x1F
abbrev stAccess : Nat := 0x20
abbrev stTileRemap : Nat := 0x21
abbrev stParamFault : Nat := 0x22

/-- The key hash a KEY_SLOT holds: the fused vendor hash in slot 0, an enrolled hash in slots 1 to 4 (R48). -/
def State.keyHash (s : State) (slot : Nat) : Option W256 :=
  if slot = 0 then some Config.vendorFacetHash else mfind s.mgt.keySlots slot

/-- The outcome of registering an image, the first of R49 that applies: a status, the handle and digest of a served one,
and whether the handle is new. -/
inductive RegOutcome where
  | refused (status : Nat)
  | known (handle : Nat)
  | fresh (handle : Nat)
  deriving DecidableEq, Repr

/-- The tests of R49 in their order. -/
def State.registerOutcome (s : State) (img : List Byte) : RegOutcome :=
  let sigOff := leAt img 0x1C 4
  let msg := img.take sigOff
  let key := Config.facetPubKey img
  let digest := shake256 msg
  if ¬ facetOk img then .refused stFormat else
  match s.keyHash (leAt img 0x18 1) with
  | none => .refused stKeyUnknown
  | some h =>
    if shake256 key ≠ h then .refused stKeyUnknown
    else if ¬ Config.xmssVerify key (leAt img 0x19 1) msg (img.drop sigOff) then .refused stSigInvalid
    else if Config.stepping.toNat < leAt img 0x16 1 then .refused stStepping
    else match s.facets.find? (fun p => p.2.digest == digest) with
      | some p => .known p.1
      | none =>
        if s.facets.any (fun p => p.2.facetId == leAt img 8 4 && p.2.version == leAt img 0xC 4) then
          .refused stVersionConflict
        else match s.freeHandle with
          | none => .refused stRegistryFull
          | some hd => if 1024 < s.unitsUsed + unitsOf img.length then .refused stStoreFull else .fresh hd

/-- A new image placed in the store, other images moved when no run of free units is long enough (R50). -/
def State.placeImage (s : State) (img : List Byte) : State × Nat :=
  match s.findRun (unitsOf img.length) with
  | some u => (s.storeImage u img, u)
  | none   =>
    let s1 := s.compact
    match s1.findRun (unitsOf img.length) with
    | some u => (s1.storeImage u img, u)
    | none   => (s1, 0)

/-- A new image waits for its place: it needs a move that waits for a load (R50). -/
def State.placeWaits (s : State) (img : List Byte) : Bool := (s.findRun (unitsOf img.length)).isNone && s.moveWaits

/-- The RESULT bits of a REGISTER completion: the digest in bytes 16 to 47 (R379, R549). -/
def digestResult (d : W256) : Nat := d.toNat

/-- A REGISTER descriptor processed by Betony (R48, R49, R379); it stays at the head of Betony's queue while its place waits for a load
(R50).  An image whose fetch fails or returns poison is refused with FORMAT (DESIGN CHOICE, log 75). -/
def State.registerWork (s : State) (w : Work) (hostBytes : List Byte) : State :=
  let d := w.desc
  let len := bits d 159 128
  if len < 0x100 ∨ 0x100000 < len then s.refuse w stFormat 0 else
  let f := s.fetchImage d hostBytes
  if ¬ f.ok ∨ leAt f.img 0x10 4 ≠ len then s.refuse w stFormat 0 else
  let digest := shake256 (f.img.take (leAt f.img 0x1C 4))
  match s.registerOutcome f.img with
  | .refused st => s.refuse w st 0
  | .known h =>
    match mfind s.facets h with
    | none   => s
    | some e =>
      let s1 := if e.damaged then
          let s0 := s.storeImage e.unit f.img
          { s0 with facets := mput s0.facets h { e with damaged := false } }
        else s
      s1.finish w stServed w.adm h (digestResult digest)
  | .fresh h =>
    if s.placeWaits f.img then { s with hif := { s.hif with betonyQ := w :: s.hif.betonyQ } } else
    let p := s.placeImage f.img
    let e : Facet := { digest := digest, facetId := leAt f.img 8 4, version := leAt f.img 0xC 4, unit := p.2,
                       imgLen := len, sigOff := leAt f.img 0x1C 4, refs := 0, damaged := false }
    let s1 := { p.1 with facets := mput p.1.facets h e }
    (s1.extend 5 digest).finish w stServed w.adm h (digestResult digest)

/-- An UNREGISTER descriptor processed by Betony (R52). -/
def State.unregisterWork (s : State) (w : Work) : State :=
  let h := bits w.desc 71 64
  match mfind s.facets h with
  | none   => s.refuse w stBadHandle 0
  | some f =>
    if f.refs ≠ 0 then s.refuse w stInUse 0
    else ({ s with facets := mdel s.facets h }).served w stServed 0

end Sys2Proof.Machine
end

