-- ==== Sys2Proof/Machine/Translate.lean ====
section
/-!
DEFINITION. Address translation (spec/13): looking an access up in its die's ATC, filling it from what a walk or ATS
returns, page requests, faults and invalidation.

Where the spec leaves open or is read by inference, and what is taken from outside it (DESIGN CHOICE, DEDUCED, PRESUMED):
notes/assumptions/12.md, 20.md, 21.md.
-/

namespace Sys2Proof.Machine

open Sys2Proof

/-- The outcome of a lookup: an address (of the 56-bit space, or on the host bus), a fault that was reported, or a miss
on which the access waits. -/
inductive XRes where
  | pa (a : Nat) (host : Bool)
  | fault
  | miss
  deriving DecidableEq, Repr

/-- The page shift of a page size. -/
def pageShift : PageSize → Nat
  | .k4 => 12
  | .m2 => 21
  | .g1 => 30

/-- An ATC entry covers a virtual address of a process on a die; a global entry covers it for every process. -/
def AtcEnt.covers (e : AtcEnt) (die pasid va : Nat) : Bool :=
  e.die == die && (e.g || e.pasid == pasid) && decide (e.vpn ≤ va / 2 ^ e.shift) && decide (va / 2 ^ e.shift < e.vpn + e.run)

/-- An entry grants a kind of access: user page and the right, and for a write also D = 1 (R347, R353). -/
def AtcEnt.grants (e : AtcEnt) (k : AccessKind) : Bool :=
  e.u && (match k with
    | .read  => e.r
    | .write => e.w && e.d
    | .fetch => e.x)

/-- The request for the page of an access: its address rounded down to 4 KiB. -/
def xreq (die pasid va : Nat) (k : AccessKind) : XReq := { die := die, pasid := pasid, va := alignDown va 4096, kind := k }

/-- The lookup of an access (R352, R353, R359). -/
def State.xlate (s : State) (die pasid va : Nat) (k : AccessKind) : XRes :=
  if s.xlt.failed.contains (xreq die pasid va k) then .fault else
  match s.xlt.atc.find? (fun e => e.covers die pasid va && e.grants k) with
  | some e => .pa (e.pa + (va / 2 ^ e.shift - e.vpn) * 2 ^ e.shift + va % 2 ^ e.shift) e.host
  | none   => .miss

/-- The Svpbmt attribute of the page of an access is PMA (R291, R351). -/
def State.pmaPage (s : State) (die pasid va : Nat) (k : AccessKind) : Bool :=
  match s.xlt.atc.find? (fun e => e.covers die pasid va && e.grants k) with
  | some e => e.pbmt == 0
  | none   => false

/-- The state after a requester has taken the fault of an access. -/
def State.takeFault (s : State) (die pasid va : Nat) (k : AccessKind) : State :=
  { s with xlt := { s.xlt with failed := s.xlt.failed.filter (· != xreq die pasid va k) } }

/-- A list with an element, kept once. -/
def addOnce {β : Type} [BEq β] (l : List β) (x : β) : List β := if l.contains x then l else l ++ [x]

/-- An access fails: the fault queue, the count, and the requester learns it (R359). -/
def State.xfail (s : State) (q : XReq) (cause : Nat) : State :=
  let s1 := s.bump XLT_ERR XLT_ERR_FAULT
  { s1 with xlt := { s1.xlt with faultQ := s1.xlt.faultQ ++ [{ cause := cause, req := q }],
                                 failed := addOnce s1.xlt.failed q,
                                 retried := s1.xlt.retried.filter (· != q) } }

/-- Two requests name the same page of the same process on the same die. -/
def XReq.samePage (a b : XReq) : Bool := a.die == b.die && a.pasid == b.pasid && a.va == b.va

/-- No valid translation, or a permission missing: a page request, joined to one outstanding for the page, or the fault
(R357). -/
def State.xnone (s : State) (q : XReq) (cause : Nat) (enPri : Bool) : State :=
  if s.flag XLT_PRI_CFG XLT_PRI_CFG_EN && enPri && !s.xlt.retried.contains q then
    let s1 := if s.xlt.prq.any (·.samePage q) then s else s.bump (XLT_ATC_STAT q.die) XLT_ATC_STAT_PRQ
    { s1 with xlt := { s1.xlt with prq := addOnce s1.xlt.prq q } }
  else s.xfail q cause

/-- A new entry, in place of every entry of the die and process that covers the page it was made for (R353).  The ATC
keeps 8 entries in a set, the oldest leaving first (notes/assumptions/12.md). -/
def State.atcAdd (s : State) (e : AtcEnt) (va : Nat) : State :=
  let kept := s.xlt.atc.filter (fun x => !(x.die == e.die && x.covers e.die e.pasid va))
  let set (x : AtcEnt) : Nat := ((x.vpn >>> 4) ^^^ x.pasid) % 1024
  let same := kept.filter (fun x => x.die == e.die && set x == set e)
  let kept2 := if same.length < 8 then kept else
    match same with
    | []     => kept
    | o :: _ => kept.erase o
  { s with xlt := { s.xlt with atc := kept2 ++ [e] } }

/-- The fields of a leaf PTE. -/
def pteV (p : Word) : Bool := bitAt p 0
def ptePpn (p : Word) : Nat := bits p 53 10
/-- The bits that must agree in a run: R, W, X, U, G, D and PBMT (R352). -/
def pteAttr (p : Word) : Nat := bits p 5 1 + bits p 7 7 * 32 + bits p 62 61 * 64

/-- The run of n pages that holds page i of a group is consistent: valid, accessed, of one attribute, consecutive, and
its first page number aligned to the run (R352). -/
def runOk (shift : Nat) (ptes : List Word) (i n : Nat) : Bool :=
  let start := i - i % n
  let p0 := ptes.getD start 0
  let me := ptes.getD i 0
  let unit := 2 ^ (shift - 12)
  ptePpn p0 % (n * unit) == 0 &&
  (List.range n).all (fun j =>
    let p := ptes.getD (start + j) 0
    pteV p && bitAt p 6 && pteAttr p == pteAttr me && ptePpn p == ptePpn p0 + j * unit)

/-- The length of the run the ATC makes for page i of a group (R352). -/
def runLen (merge : Bool) (shift : Nat) (ptes : List Word) (i : Nat) : Nat :=
  if ¬ merge then 1
  else if runOk shift ptes i 16 then 16
  else if runOk shift ptes i 8 then 8
  else if runOk shift ptes i 4 then 4
  else if runOk shift ptes i 2 then 2
  else 1

/-- The entry made from the group of leaf PTEs that holds a missed page; a Svnapot PTE forms a 16-page run at once. -/
def leafEntry (merge : Bool) (die pasid va shift : Nat) (ptes : List Word) : AtcEnt :=
  let i := (va / 2 ^ shift) % 16
  let p := ptes.getD i 0
  let napot := bitAt p 63 && shift == 12
  let n := if napot then 16 else runLen merge shift ptes i
  let start := i - i % n
  let ppn := if napot then alignDown (ptePpn p) 16 else ptePpn (ptes.getD start 0)
  { die := die, pasid := pasid, shift := shift, vpn := va / 2 ^ shift - i % n, run := n, pa := ppn * 4096, host := false, ats := false,
    r := bitAt p 1, w := bitAt p 2, x := bitAt p 3, u := bitAt p 4, g := bitAt p 5, d := bitAt p 7,
    pbmt := bits p 62 61 }

/-- The entry made from an ATS completion: a result in the device aperture becomes a physical address (R361, R362). -/
def State.atsEntry (s : State) (die pasid va : Nat) (addr : Word) (log2 : Nat) (r w x : Bool) : AtcEnt :=
  let n := if log2 ≤ 12 then 1 else min 16 (2 ^ (log2 - 12))
  let i := (va / 4096) % n
  let inAper := s.flag XLT_APER XLT_APER_VALID && addr.toNat / 2 ^ 56 == s.rd XLT_APER XLT_APER_BASE
  let base := alignDown addr.toNat (2 ^ max 12 log2)
  let page := base + alignDown (va % 2 ^ max 12 log2) 4096 - i * 4096
  { die := die, pasid := pasid, shift := 12, vpn := va / 4096 - i, run := n,
    pa := if inAper then page % 2 ^ 56 else page, host := !inAper, ats := true,
    r := r, w := w, x := x, u := true, g := false, d := true, pbmt := 0 }

/-- What an access of a kind finds in an entry just made: it is entered, and the access proceeds or has no permission. -/
def State.xenter (s : State) (q : XReq) (va : Nat) (e : AtcEnt) (valid : Bool) (cause : Nat) (enPri : Bool) : State :=
  if valid && e.grants q.kind then
    let s1 := s.atcAdd e va
    { s1 with xlt := { s1.xlt with retried := s1.xlt.retried.filter (· != q) } }
  else s.xnone q cause enPri

/-- The standard page-fault cause of a kind of access: 12, 13 or 15. -/
def pageFault : AccessKind → Nat
  | .fetch => 12
  | .read  => 13
  | .write => 15

/-- The fault-queue cause of a misconfigured device context, as the RISC-V IOMMU specification numbers it (PRESUMED, log 20). -/
def ddtMisconfigured : Nat := 259

/-- ATC_MISS: the miss is counted and a translation is asked for (R352, R361). -/
def execAtcMiss (die : DieId) (pasid : BitVec 20) (va : Word) (kind : AccessKind) (s : State) :
    Host.Outcome State Fault Refusal :=
  let q := xreq die pasid.toNat va.toNat kind
  let s1 := s.wrap (XLT_ATC_STAT die) XLT_ATC_STAT_MISS 1
  .next { s1 with xlt := { s1.xlt with inflight := addOnce s1.xlt.inflight q } }

/-- TRANSLATION_COMPLETION: an entry is made, a page request is placed or the access faults; a translation overtaken by a
matching invalidation is not entered and its access is translated again (R351, R352, R355, R357).  In the local regime a device context
whose second-stage mode is not Bare is misconfigured, and its requests get that fault (R349, R360). -/
def execTranslationCompletion (die : DieId) (pasid : BitVec 20) (va : Word) (kind : AccessKind) (dc : DevCtx) (res : XlateResult)
    (s : State) : Host.Outcome State Fault Refusal :=
  let q := xreq die pasid.toNat va.toNat kind
  if ¬ s.xlt.inflight.contains q then .next s
  else if s.xlt.stale.contains q then
    let s1 := s.bump XLT_ERR XLT_ERR_INV_RETRY
    .next { s1 with xlt := { s1.xlt with stale := s1.xlt.stale.filter (· != q) } }
  else
    let host := s.flag XLT_CTL XLT_CTL_HOSTSIDE
    let s1 := { s with xlt := { s.xlt with inflight := s.xlt.inflight.filter (· != q),
                                           ctx := if host then s.xlt.ctx else mput s.xlt.ctx die dc } }
    if ¬ host ∧ dc.stage2 ≠ 0 then .next (s1.xfail q ddtMisconfigured) else
    let enPri : Bool := host || dc.enPri
    match res with
    | .leaves size ptes =>
      let i := (va.toNat / 2 ^ (pageShift size)) % 16
      let p := ptes.getD i 0
      let e := leafEntry (s.flag XLT_CTL XLT_CTL_MERGE_EN) die pasid.toNat va.toNat (pageShift size) ptes
      .next (s1.xenter q va.toNat e (pteV p && bitAt p 6) (pageFault kind) enPri)
    | .ats addr log2 r w x =>
      .next (s1.xenter q va.toNat (s.atsEntry die pasid.toNat va.toNat addr log2 r w x) (r || w || x) (pageFault kind) enPri)
    | .fault cause => .next (s1.xnone q cause.toNat enPri)
    | .walkPoison => .next ((s1.bump XLT_ERR XLT_ERR_WALK_POISON).xfail q 274)

/-- PAGE_REQUEST_RESPONSE: a late response is counted; Success translates the accesses again, any other response fails
them (R357, R358). -/
def execPageRequestResponse (die : DieId) (pasid : BitVec 20) (va : Word) (success : Bool) (s : State) :
    Host.Outcome State Fault Refusal :=
  let q := xreq die pasid.toNat va.toNat .read
  if s.xlt.prq.any (·.samePage q) then
    let mine := s.xlt.prq.filter (·.samePage q)
    let s1 := { s with xlt := { s.xlt with prq := s.xlt.prq.filter (fun x => !x.samePage q) } }
    if success then
      .next { s1 with xlt := { s1.xlt with retried := mine.foldl addOnce s1.xlt.retried,
                                           inflight := mine.foldl addOnce s1.xlt.inflight } }
    else .next (mine.foldl (fun t x => t.xfail x (pageFault x.kind)) s1)
  else if s.xlt.timedOut.any (·.samePage q) then
    let s1 := s.bump XLT_ERR XLT_ERR_LATE_PRGR
    .next { s1 with xlt := { s1.xlt with timedOut := s1.xlt.timedOut.filter (fun x => !x.samePage q) } }
  else .next s

/-- PAGE_REQUEST_TIMEOUT: the held accesses fail and a later response is late (R358). -/
def execPageRequestTimeout (die : DieId) (pasid : BitVec 20) (va : Word) (s : State) :
    Host.Outcome State Fault Refusal :=
  let q := xreq die pasid.toNat va.toNat .read
  if s.xlt.prq.any (·.samePage q) then
    let mine := s.xlt.prq.filter (·.samePage q)
    let s1 := { s with xlt := { s.xlt with prq := s.xlt.prq.filter (fun x => !x.samePage q),
                                           timedOut := addOnce s.xlt.timedOut q } }
    .next ((mine.foldl (fun t x => t.xfail x (pageFault x.kind)) s1).bump (XLT_ATC_STAT die) XLT_ATC_STAT_PRQ_TIMEOUT)
  else .next s

/-- Entries for which p holds leave every translation cache, and translations in flight for which q holds are marked
overtaken (R354, R355). -/
def State.invalidate (s : State) (p : AtcEnt → Bool) (q : XReq → Bool) : State :=
  { s with xlt := { s.xlt with atc := s.xlt.atc.filter (fun e => !p e),
                               stale := (s.xlt.inflight.filter q).foldl addOnce s.xlt.stale } }

/-- IOTINVAL_VMA: matching first-stage entries leave the IOTLB, both ATCs and every tile TLB (R354). -/
def execIotinvalVma (pasid : Option (BitVec 20)) (va : Option Word) (s : State) : Host.Outcome State Fault Refusal :=
  let pe (e : AtcEnt) : Bool := match pasid with
    | none   => true
    | some p => !e.g && e.pasid == p.toNat
  let ve (e : AtcEnt) : Bool := match va with
    | none   => true
    | some v => decide (e.vpn ≤ v.toNat / 2 ^ e.shift) && decide (v.toNat / 2 ^ e.shift < e.vpn + e.run)
  let pq (x : XReq) : Bool := match pasid with
    | none   => true
    | some p => x.pasid == p.toNat
  let vq (x : XReq) : Bool := match va with
    | none   => true
    | some v => x.va == alignDown v.toNat 4096
  .next (s.invalidate (fun e => pe e && ve e) (fun x => pq x && vq x))

/-- IOTINVAL_GVMA: entries whose translation leads to the named address, or all of them, leave the caches (R354). -/
def execIotinvalGvma (addr : Option Word) (s : State) : Host.Outcome State Fault Refusal :=
  match addr with
  | none   => .next (s.invalidate (fun _ => true) (fun _ => true))
  | some a => .next (s.invalidate
      (fun e => decide (e.pa ≤ a.toNat) && decide (a.toNat < e.pa + e.run * 2 ^ e.shift)) (fun _ => true))

/-- IOFENCE_C: the fence waits (R354). -/
def execIofenceC (s : State) : Host.Outcome State Fault Refusal :=
  .next { s with xlt := { s.xlt with fences := s.xlt.fences + 1 } }

/-- IOFENCE_C_COMPLETE: the oldest waiting fence completes (R354). -/
def execIofenceCComplete (s : State) : Host.Outcome State Fault Refusal :=
  if s.xlt.fences = 0 then .next s
  else .next { s with xlt := { s.xlt with fences := s.xlt.fences - 1, fencesOk := s.xlt.fencesOk + 1 } }

/-- ATS_INVALIDATE: matching entries leave the caches and the request is answered (R361). -/
def execAtsInvalidate (pasid : Option (BitVec 20)) (va : Word) (log2 : Fin 64) (s : State) :
    Host.Outcome State Fault Refusal :=
  let size := 2 ^ max 12 log2.val
  let lo := alignDown va.toNat size
  let pe (p : Nat) : Bool := match pasid with
    | none   => true
    | some q => p == q.toNat
  let s1 := s.invalidate
    (fun e => pe e.pasid && decide (e.vpn * 2 ^ e.shift < lo + size) && decide (lo < (e.vpn + e.run) * 2 ^ e.shift))
    (fun x => pe x.pasid && decide (lo ≤ x.va) && decide (x.va < lo + size))
  .next { s1 with xlt := { s1.xlt with atsDone := s1.xlt.atsDone + 1 } }

end Sys2Proof.Machine
end

