-- ==== Sys2Proof/Machine/HostIf.lean ====
section
/-!
DEFINITION. The host interface (spec/14, and FENCE of spec/12): doorbells, reading and admitting descriptors, the ring
state machine, host loss and re-attach, the PCIe ports.

Where the spec leaves open or is read by inference, and what is taken from outside it (DESIGN CHOICE, DEDUCED, PRESUMED):
notes/assumptions/14.md, 15.md, 16.md, 72.md, 80.md, 88.md.
-/

namespace Sys2Proof.Machine

open Sys2Proof

/-! ### Ring bookkeeping -/

/-- The rings whose status register is away from its reset value. -/
def State.liveRings (s : State) : List Nat :=
  s.regs.filterMap (fun p =>
    if HIF_RING_STAT 0 ≤ p.1 ∧ p.1 < HIF_RING_STAT 1024 ∧ (p.1 - HIF_RING_STAT 0) % 0x40 = 0 then
      some ((p.1 - HIF_RING_STAT 0) / 0x40)
    else none)

/-- Descriptors between SQ_HEAD and SQ_TAIL. -/
def State.sqLevel (s : State) (n : Nat) : Nat :=
  (s.rd (HIF_RING_PTR n) HIF_RING_PTR_SQ_TAIL + s.ringSize n - s.rd (HIF_RING_PTR n) HIF_RING_PTR_SQ_HEAD) % s.ringSize n

/-- No CQ slot can be reserved (R382, cause 0x5). -/
def State.cqFull (s : State) (n : Nat) : Bool :=
  let size := s.ringSize n
  (s.rd (HIF_RING_PTR n) HIF_RING_PTR_CQ_TAIL + size - s.rd (HIF_RING_PTR n) HIF_RING_PTR_CQ_HEAD) % size +
    s.rd (HIF_RING_STAT n) HIF_RING_STAT_OUTSTANDING ≥ size - 1

/-- A ring becomes STOPPED with a cause; descriptors read ahead are forgotten, for they are read again (R369). -/
def State.stopRing (s : State) (n cause : Nat) : State :=
  ((s.setRingSt n rsStopped).wr (HIF_RING_STAT n) HIF_RING_STAT_CAUSE cause).setRing n { s.ring n with fetched := [] }

/-- A ring becomes DISABLED: unadmitted descriptors are forgotten and EN reads 0 (R369). -/
def State.disableRing (s : State) (n : Nat) : State :=
  let r := s.ring n
  ((s.setRingSt n rsDisabled).wr (HIF_RING_CFG n) HIF_RING_CFG_EN 0).setRing n
    { r with fetched := [], deferred := false, causes := [], firstC := 0, fence := none, enCleared := false, unsig := 0,
             resume := false, gen := r.gen + 1 }

/-! ### Doorbells (R370, R371) -/

/-- The outcome code of a doorbell value on page n, the first row of R371 that applies. -/
def State.doorbellCode (s : State) (n : Nat) (v : Word) : Nat :=
  let size := s.ringSize n
  let value := bits v 31 16
  let head := s.rd (HIF_RING_PTR n) HIF_RING_PTR_SQ_HEAD
  let tail := s.rd (HIF_RING_PTR n) HIF_RING_PTR_SQ_TAIL
  let cqh := s.rd (HIF_RING_PTR n) HIF_RING_PTR_CQ_HEAD
  let cqt := s.rd (HIF_RING_PTR n) HIF_RING_PTR_CQ_TAIL
  let dist (a b : Nat) : Nat := (a + size * 65536 - b) % size
  if bits v 9 0 ≠ n then 1
  else if s.ringSt n ≠ rsActive ∨ s.hif.stopped then 2
  else if bits v 10 10 = 0 ∧ size - 1 - dist tail head < dist value tail then 3
  else if bits v 10 10 = 1 ∧ dist cqt cqh < dist value cqh then 4
  else if bits v 15 11 ≠ 0 ∨ bits v 63 32 ≠ 0 ∨ size ≤ value then 5
  else 0

/-- One 8-byte store to a doorbell page (R371). -/
def State.doorbell (s : State) (n : Nat) (v : Word) : State :=
  let code := s.doorbellCode n v
  let s1 := s.wr (HIF_RING_DBST n) HIF_RING_DBST_LAST code
  if code = 0 then
    let s2 := s1.wrap (HIF_RING_DBST n) HIF_RING_DBST_ACCEPTED 1
    if bits v 10 10 = 0 then s2.wr (HIF_RING_PTR n) HIF_RING_PTR_SQ_TAIL (bits v 31 16)
    else s2.wr (HIF_RING_PTR n) HIF_RING_PTR_CQ_HEAD (bits v 31 16)
  else
    let s2 := s1.bump (HIF_RING_DBST n) HIF_RING_DBST_REFUSED
    if code = 1 then (s2.bump HIF_DB_ERR HIF_DB_ERR_BAD_RING).wr HIF_DB_ERR HIF_DB_ERR_LAST_PAGE n else s2

/-- An access to a doorbell page: an 8-byte store at offset 0 is a doorbell, any other is dropped with an error response
and counted (R370). -/
def State.doorbellAccess (s : State) (n off size : Nat) (write : Bool) (v : Word) : State :=
  if off = 0 ∧ size = 8 ∧ write then s.doorbell n v
  else (s.bump HIF_DB_ERR HIF_DB_ERR_BAD_PAGE).wr HIF_DB_ERR HIF_DB_ERR_LAST_PAGE n

/-- DOORBELL (R370, R371). -/
def execDoorbell (page : RingId) (offset : BitVec 12) (size : BitVec 4) (write : Bool) (value : Word) (s : State) :
    Host.Outcome State Fault Refusal :=
  .next (s.doorbellAccess page offset.toNat size.toNat write value)

/-! ### Admission (R373 to R382) -/

/-- The lowest set bit of x among [hi:lo], if any. -/
def lowBit (x : Line) (hi lo : Nat) : Option Nat := (List.range (hi + 1 - lo)).findSome? (fun i =>
  if bits x (lo + i) (lo + i) = 1 then some (lo + i) else none)

/-- The smaller of two numbers that may be absent. -/
def minOpt : Option Nat → Option Nat → Option Nat
  | none, b => b
  | a, none => a
  | some a, some b => some (min a b)

/-- The TKIND values a type allows; none for an unassigned type (R374). -/
def tkinds (type : Nat) : Option (List Nat) :=
  match type with
  | 0x00 => some [0]
  | 0x01 => some [0]
  | 0x02 => some [1]
  | 0x03 => some [1, 2]
  | 0x10 => some [1, 2]
  | 0x11 => some [1, 2]
  | 0x12 => some [1, 2]
  | 0x13 => some [1, 2]
  | 0x20 => some [1]
  | 0x21 => some [1]
  | 0x22 => some [0]
  | 0x23 => some [0]
  | 0x30 => some [0]
  | 0x31 => some [0]
  | _    => none

/-- The lowest offending bit of a common header, if it is malformed (R373, R374, R375). -/
def headerFault (d : Line) : Option Nat :=
  let ty : Option Nat := match tkinds (bits d 7 0) with
    | none    => some 0
    | some ks => if ks.contains (bits d 17 16) then none else some 16
  let tid : Option Nat := if bits d 17 16 = 0 then lowBit d 24 18 else none
  minOpt ty (minOpt (lowBit d 15 12) (minOpt tid (lowBit d 31 25)))

/-- The members of a tile group, ascending (R61). -/
def State.groupMembers (s : State) (g : Nat) : List Nat :=
  let m := s.rd (TIL_GROUP_LO g) TIL_GROUP_LO_MEMBERS_LO + s.rd (TIL_GROUP_HI g) TIL_GROUP_HI_MEMBERS_HI * 2 ^ 64
  (List.range 96).filter (fun i => nbits m i i == 1)

/-- Status codes of the host interface (R387) and YAR_FATAL (R489). -/
abbrev stHifMalformed : Nat := 0x80
abbrev stHifBadTarget : Nat := 0x81
abbrev stHifInlineFault : Nat := 0x82
abbrev stHifFlushFail : Nat := 0x83
abbrev stHifDeferred : Nat := 0x84
abbrev stYarFatal : Nat := 0xA0

/-- The refusal of a descriptor by the host interface: status and detail (R375, R489). -/
def State.headerRefusal (s : State) (n : Nat) (d : Line) : Option (Nat × Nat) :=
  if s.flag TST_YAR_STAT TST_YAR_STAT_FATAL then some (stYarFatal, 0) else
  match headerFault d with
  | some b => some (stHifMalformed, b)
  | none =>
    let tid := bits d 24 18
    match bits d 17 16 with
    | 1 => if 95 < tid then some (stHifBadTarget, 0xFFFFFFFF) else none
    | 2 =>
      if 15 < tid then some (stHifBadTarget, 0xFFFFFFFF)
      else if ¬ s.flag (TIL_GROUP_HI tid) TIL_GROUP_HI_ENABLE ∨ s.groupMembers tid = [] then
        some (stHifBadTarget, 0xFFFFFFFF)
      else if s.rd (TIL_GROUP_HI tid) TIL_GROUP_HI_RING ≠ n then some (stAccess, 0)
      else none
    | _ => none

/-- The logical ID a descriptor goes to: TID, or member k mod m of its group (R61). -/
def State.targetTile (s : State) (d : Line) : Nat :=
  let tid := bits d 24 18
  if bits d 17 16 = 2 then
    let ms := s.groupMembers tid
    ms.getD (mget 0 s.hif.groupK tid % ms.length) 0
  else tid

/-- Whether a type goes to a logical tile's work queue (R60). -/
def tileType (ty : Nat) : Bool := [0x02, 0x03, 0x10, 0x11, 0x12, 0x13, 0x20, 0x21].contains ty

/-- The target's intake is full (R382, cause 0x1). -/
def State.intakeFull (s : State) (d : Line) : Bool :=
  let ty := bits d 7 0
  if tileType ty then decide (256 ≤ (s.tile (s.targetTile d)).wq.length)
  else if ty = 0x22 ∨ ty = 0x23 then decide (16 ≤ s.hif.betonyQ.length)
  else if ty = 0x30 then decide (1 ≤ s.hif.spwQ.length)
  else if ty = 0x31 then decide (Config.prsIntake < (mget [] s.hif.prsQ (bits d 64 64)).length)
  else false

/-- The deferral causes that hold for the descriptor at a ring's head, in their order (R382). -/
def State.deferCauses (s : State) (n : Nat) (d : Line) : List Nat :=
  let ty := bits d 7 0
  let step := s.rd HIF_ADM_CFG HIF_ADM_CFG_HBM_STEP
  let hot := step ≠ 0 ∧ (List.range 12).any (fun k => decide (step ≤ s.rd (HBM_THR_STAT k) HBM_THR_STAT_STEP))
  let hl := s.rd HIF_ADM_CFG HIF_ADM_CFG_HBM_LIMIT
  let fl := s.rd HIF_ADM_CFG HIF_ADM_CFG_FGN_LIMIT
  (if s.intakeFull d then [1] else []) ++
  (if bits d 10 10 = 1 ∧ (hot ∨ (hl ≠ 0 ∧ hl ≤ s.hif.hbmOut)) then [2] else []) ++
  (if bits d 11 11 = 1 ∧ fl ≠ 0 ∧ fl ≤ s.hif.fgnOut then [3] else []) ++
  (if (ty = 0x10 ∨ ty = 0x11 ∨ ty = 0x12) ∧ s.flag HIF_ADM_CFG HIF_ADM_CFG_CAP_DEFER ∧ s.hif.capHold then [4] else []) ++
  (if s.cqFull n then [5] else [])

/-- A deferral cause counted once for the descriptor (R382), a full work queue also by the dispatcher (R60). -/
def State.countCause (s : State) (n c : Nat) (d : Line) : State :=
  let s1 := s.bump (HIF_RING_CNT n) HIF_RING_CNT_DEFER
  match c with
  | 1 =>
    let s2 := s1.bump HIF_ADM_CNT HIF_ADM_CNT_QFULL
    if tileType (bits d 7 0) then s2.wrap TIL_DISP_DEFER TIL_DISP_DEFER_COUNT 1 else s2
  | 2 => s1.bump HIF_ADM_CNT HIF_ADM_CNT_HBM
  | 3 => s1.bump HIF_ADM_CNT HIF_ADM_CNT_FGN
  | 4 => s1.bump HIF_ADM_CNT HIF_ADM_CNT_CAP
  | _ => s1

/-- The descriptor at a ring's head as work in flight. -/
def State.newWork (s : State) (n : Nat) (d : Line) : Work :=
  let r := s.ring n
  { ring := n, gen := r.gen, desc := d, deferred := r.deferred, cause := r.firstC, capAt := s.hif.capCnt,
    lossAt := if s.hostGone then 0 else s.hif.lossCnt }

/-- SQ_HEAD advances past the descriptor at a ring's head (R372). -/
def State.advance (s : State) (n : Nat) : State :=
  let r := s.ring n
  (s.wr (HIF_RING_PTR n) HIF_RING_PTR_SQ_HEAD ((s.rd (HIF_RING_PTR n) HIF_RING_PTR_SQ_HEAD + 1) % s.ringSize n)).setRing n
    { r with fetched := r.fetched.drop 1, deferred := false, causes := [], firstC := 0 }

/-- Work arrives at a logical ID: an OFFLINE ID completes it with TILE_OFFLINE, any other queues it (R37, R39, R60). -/
def State.arrive (s : State) (n : Nat) (w : Work) : State :=
  if s.tst n = tsOffline then s.refuse w stTileOffline 0
  else s.setTile n { s.tile n with wq := (s.tile n).wq ++ [w] }

/-- A group's BUSY: a descriptor for it is queued (R61). -/
def State.groupQueued (s : State) (g : Nat) : Bool :=
  s.tiles.any (fun p => p.2.wq.any (fun w => bits w.desc 17 16 == 2 && bits w.desc 24 18 == g))

/-- A group's BUSY brought up to date after a descriptor has joined or left a work queue (R61). -/
def State.groupBusy (s : State) (w : Work) : State :=
  if bits w.desc 17 16 = 2 then
    s.wr (TIL_GROUP_HI (bits w.desc 24 18)) TIL_GROUP_HI_BUSY (b2n (s.groupQueued (bits w.desc 24 18)))
  else s

/-- The BUSY of every group brought up to date (R61). -/
def State.groupsBusy (s : State) : State :=
  (List.range 16).foldl (fun t g => t.wr (TIL_GROUP_HI g) TIL_GROUP_HI_BUSY (b2n (t.groupQueued g))) s

/-- An admitted descriptor handed to its target (R374, R381). -/
def State.handOver (s : State) (n : Nat) (w : Work) : State :=
  let d := w.desc
  let ty := bits d 7 0
  if tileType ty then
    let t := s.targetTile d
    let s1 := if bits d 17 16 = 2 then
        let g := bits d 24 18
        { s with hif := { s.hif with groupK := mset 0 s.hif.groupK g (mget 0 s.hif.groupK g + 1) } }
      else s
    (s1.arrive t w).groupBusy w
  else if ty = 0 then { s with hif := { s.hif with nopQ := s.hif.nopQ ++ [w] } }
  else if ty = 1 then s.setRing n { s.ring n with fence := some { work := w, checked := false, started := false, flush := false } }
  else if ty = 0x22 ∨ ty = 0x23 then { s with hif := { s.hif with betonyQ := s.hif.betonyQ ++ [w] } }
  else if ty = 0x30 then { s with hif := { s.hif with spwQ := s.hif.spwQ ++ [w] } }
  else
    let die := bits d 64 64
    { s with hif := { s.hif with prsQ := mset [] s.hif.prsQ die (mget [] s.hif.prsQ die ++ [w]) } }

/-- A FENCE with ALL_RINGS on any ring is still waiting for descriptors admitted before it (R381). -/
def State.allRingsWait (s : State) : Bool :=
  s.hif.rings.any (fun p => match p.2.fence with
    | some f => !f.started && bitAt f.work.desc 64
    | none   => false)

/-- The descriptor at a ring's head would be refused or admitted now: it does not wait (R381, R480). -/
def State.headReady (s : State) (n : Nat) : Bool :=
  match (s.ring n).fetched with
  | [] => false
  | d :: _ =>
    s.ringSt n == rsActive && !s.hif.stopped && s.rd PWR_IDLE PWR_IDLE_STATE == 0 &&
    (match s.headerRefusal n d with
     | some _ => !s.cqFull n
     | none   => (s.ring n).fence.isNone && !s.allRingsWait && (s.deferCauses n d).isEmpty)

/-- A ring has admitted in its turn what its PRIO allows (R383). -/
def State.turnOver (s : State) : Bool := decide (2 ^ s.rd (HIF_RING_CFG s.hif.turn) HIF_RING_CFG_PRIO ≤ s.hif.turnUsed)

/-- The ring that admits next: the one whose turn it is while it may, else the next in ascending order, cyclically, whose head does not
wait (R383). -/
def State.nextRing (s : State) : Option Nat :=
  if s.headReady s.hif.turn && !s.turnOver then some s.hif.turn else
  let ready := (s.hif.rings.map (·.1)).filter s.headReady
  match (ready.filter (fun n => decide (s.hif.turn < n))).min? with
  | some n => some n
  | none   => ready.min?

/-- A ring admits a descriptor in its turn. -/
def State.takeTurn (s : State) (n : Nat) : State :=
  let used := if n = s.hif.turn ∧ ¬ s.turnOver then s.hif.turnUsed + 1 else 1
  { s with hif := { s.hif with turn := n, turnUsed := used } }

/-- DESCRIPTOR_ADMIT: the descriptor at a ring's head is refused, waits behind a FENCE or for the wake from an idle state, is deferred, or,
in the ring's turn, is admitted (R381, R383, R480). -/
def execDescriptorAdmit (r : RingId) (s : State) : Host.Outcome State Fault Refusal :=
  let n := r.val
  let ring := s.ring n
  match ring.fetched with
  | [] => .next s
  | d :: _ =>
    if s.ringSt n ≠ rsActive ∨ s.hif.stopped ∨ s.rd PWR_IDLE PWR_IDLE_STATE ≠ 0 then .next s else
    let w := s.newWork n d
    match s.headerRefusal n d with
    | some (st, det) =>
      if s.cqFull n then .next s
      else .next ((s.entry w (s.completionWord w st admRefused det 0)).advance n)
    | none =>
      if ring.fence.isSome ∨ s.allRingsWait then .next s else
      match s.deferCauses n d with
      | [] =>
        if s.nextRing ≠ some n then .next s else
        let s1 := ((s.takeTurn n).wrap (HIF_RING_STAT n) HIF_RING_STAT_OUTSTANDING 1).wrap (HIF_RING_CNT n) HIF_RING_CNT_ADMITTED 1
        let s2 := { s1 with hif := { s1.hif with hbmOut := s1.hif.hbmOut + bits d 10 10,
                                                 fgnOut := s1.hif.fgnOut + bits d 11 11 } }
        .next ((s2.advance n).handOver n w)
      | c :: cs =>
        let new := (c :: cs).filter (fun x => !ring.causes.contains x)
        let s1 := new.foldl (fun t x => t.countCause n x d) s
        let s2 := s1.setRing n { ring with deferred := true, causes := ring.causes ++ new,
                                           firstC := if ring.deferred then ring.firstC else c }
        if ring.deferred then .next s2 else .next (s2.notice w stHifDeferred c)

/-- NOP: served with no effect (R374). -/
def execNop (r : RingId) (s : State) : Host.Outcome State Fault Refusal :=
  match takeFirst (fun w => w.ring == r.val) s.hif.nopQ with
  | none => .next s
  | some (w, q) => .next (({ s with hif := { s.hif with nopQ := q } }).served w stServed 0)

/-! ### FENCE (R339, R378) -/

/-- The lowest offending bit of a FENCE body (R378). -/
def fenceFault (d : Line) : Option Nat :=
  minOpt (lowBit d 127 68) (minOpt (if bits d 66 66 = 0 then lowBit d 191 128 else none) (lowBit d 511 192))

/-- The FENCE of a ring completes and its hold ends. -/
def State.fenceEnd (s : State) (n : Nat) (w : Work) (status : Nat) : State :=
  (s.setRing n { s.ring n with fence := none }).served w status 0

/-- FENCE: a malformed body is refused; otherwise the FENCE holds its ring (R378, R381). -/
def execFence (r : RingId) (s : State) : Host.Outcome State Fault Refusal :=
  let n := r.val
  match (s.ring n).fence with
  | none => .next s
  | some f =>
    if f.checked then .next s else
    match fenceFault f.work.desc with
    | some b => .next ((s.setRing n { s.ring n with fence := none }).refuse f.work stHifMalformed b)
    | none   => .next (s.setRing n { s.ring n with fence := some { f with checked := true } })

/-- Every descriptor admitted before a FENCE has completed: its ring has none outstanding but the FENCE, and with
ALL_RINGS neither has any other ring (R339). -/
def State.fenceReady (s : State) (n : Nat) (f : FenceSt) : Bool :=
  s.rd (HIF_RING_STAT n) HIF_RING_STAT_OUTSTANDING == 1 &&
  (!bitAt f.work.desc 64 || s.liveRings.all (fun k => k == n ||
    s.rd (HIF_RING_STAT k) HIF_RING_STAT_OUTSTANDING == (match (s.ring k).fence with | some _ => 1 | none => 0)))

/-- FENCE_START: with XPKG the remote-read buffers are invalidated, with PEER_FLUSH the zero-length read is sent; without
either the FENCE completes (R339). -/
def execFenceStart (r : RingId) (s : State) : Host.Outcome State Fault Refusal :=
  let n := r.val
  match (s.ring n).fence with
  | none => .next s
  | some f =>
    if f.started ∨ ¬ f.checked ∨ ¬ s.fenceReady n f then .next s else
    let xpkg := bitAt f.work.desc 65
    let flush := bitAt f.work.desc 66
    let s1 := if xpkg then { s with coh := { s.coh with rrbInv := none } }.wr CCH_RRB_INV CCH_RRB_INV_BUSY 1 else s
    if xpkg ∨ flush then .next (s1.setRing n { s1.ring n with fence := some { f with started := true, flush := flush } })
    else .next (s1.fenceEnd n f.work stServed)

/-- A FENCE completes once neither its invalidation nor its read is outstanding. -/
def State.fenceCheck (s : State) (n : Nat) : State :=
  match (s.ring n).fence with
  | some f =>
    if f.started ∧ ¬ f.flush ∧ ¬ s.flag CCH_RRB_INV CCH_RRB_INV_BUSY then s.fenceEnd n f.work stServed else s
  | none => s

/-- The end of a PEER_FLUSH read (R339): an error completes the FENCE with HIF_FLUSH_FAIL. -/
def State.flushEnd (s : State) (n : Nat) (ok : Bool) : State :=
  match (s.ring n).fence with
  | some f =>
    if f.started ∧ f.flush then
      if ok then (s.setRing n { s.ring n with fence := some { f with flush := false } }).fenceCheck n
      else s.fenceEnd n f.work stHifFlushFail
    else s
  | none => s

/-- PEER_FLUSH_COMPLETION (R339). -/
def execPeerFlushCompletion (r : RingId) (ans : Answer) (s : State) : Host.Outcome State Fault Refusal :=
  .next (s.flushEnd r.val (ans == .ok))

/-- PEER_FLUSH_TIMEOUT (R339). -/
def execPeerFlushTimeout (r : RingId) (s : State) : Host.Outcome State Fault Refusal :=
  .next (s.flushEnd r.val false)

/-! ### The ring state machine (R366 to R369, R399) -/

/-- A write of HIF_RING_CFGn but for EN: LOG2SIZE, LOC and PASID only while the ring is DISABLED or HOST_LOST, otherwise
ignored with CFG_REFUSED (R366). -/
def State.ringCfg (s : State) (n : Nat) (v : Word) : State :=
  let a := HIF_RING_CFG n
  let free := s.ringSt n = rsDisabled ∨ s.ringSt n = rsHostLost
  let same := s.rd a HIF_RING_CFG_LOG2SIZE = fget v HIF_RING_CFG_LOG2SIZE ∧ s.rd a HIF_RING_CFG_LOC = fget v HIF_RING_CFG_LOC ∧
    s.rd a HIF_RING_CFG_PASID = fget v HIF_RING_CFG_PASID
  let s1 := if free then
      ((s.wr a HIF_RING_CFG_LOG2SIZE (fget v HIF_RING_CFG_LOG2SIZE)).wr a HIF_RING_CFG_LOC (fget v HIF_RING_CFG_LOC)).wr a
        HIF_RING_CFG_PASID (fget v HIF_RING_CFG_PASID)
    else if same then s else s.wr (HIF_RING_STAT n) HIF_RING_STAT_CFG_REFUSED 1
  [HIF_RING_CFG_PRIO, HIF_RING_CFG_NOTICE_EN, HIF_RING_CFG_IRQ_EN, HIF_RING_CFG_VECTOR, HIF_RING_CFG_COAL_CNT,
    HIF_RING_CFG_COAL_US].foldl (fun t f => t.wr a f (fget v f)) s1

/-- The conditions of R368 under which a ring may be enabled. -/
def State.ringCfgOk (s : State) (n : Nat) : Bool :=
  let ls := s.rd (HIF_RING_CFG n) HIF_RING_CFG_LOG2SIZE
  let sq := s.rd (HIF_SQ_BASE n) HIF_SQ_BASE_BASE * 4096
  let cq := s.rd (HIF_CQ_BASE n) HIF_CQ_BASE_BASE * 4096
  let bytes := 2 ^ ls * 64
  decide (4 ≤ ls) && decide (ls ≤ 16) &&
  (if s.rd (HIF_RING_CFG n) HIF_RING_CFG_LOC = 1 then
     s.flag HIF_PCIE_STAT HIF_PCIE_STAT_EP_UP && s.flag HIF_HOLD_CFG HIF_HOLD_CFG_LOCK
   else s.isMem sq bytes && s.isMem cq bytes)

/-- HIF_RING_EN_SET: a DISABLED ring becomes ACTIVE with its pointers at zero and phase 1, or is refused with cause 0x5
(R368, R369). -/
def execHifRingEnSet (r : RingId) (cfg : Word) (s : State) : Host.Outcome State Fault Refusal :=
  let n := r.val
  let s1 := s.ringCfg n cfg
  if s.ringSt n ≠ rsDisabled then .next s1
  else if s1.ringCfgOk n then
    let s2 := (((s1.wr (HIF_RING_CFG n) HIF_RING_CFG_EN 1).setRingSt n rsActive).wr (HIF_RING_STAT n)
      HIF_RING_STAT_CAUSE 0).wr (HIF_RING_STAT n) HIF_RING_STAT_PHASE 1
    .next ((s2.setReg (HIF_RING_PTR n) 0).setRing n { Ring.reset with gen := (s.ring n).gen })
  else .next (s1.wr (HIF_RING_STAT n) HIF_RING_STAT_CAUSE 5)

/-- HIF_RING_EN_CLEAR: an ACTIVE ring drains to DISABLED, a STOPPED one becomes DISABLED (R369). -/
def execHifRingEnClear (r : RingId) (cfg : Word) (s : State) : Host.Outcome State Fault Refusal :=
  let n := r.val
  let s1 := (s.ringCfg n cfg).wr (HIF_RING_CFG n) HIF_RING_CFG_EN 0
  if s.ringSt n = rsActive then
    let s2 := s1.setRingSt n rsDraining
    .next ((s2.setRing n { s2.ring n with enCleared := true }).ringDrained n)
  else if s.ringSt n = rsDraining then .next (s1.setRing n { s1.ring n with enCleared := true })
  else if s.ringSt n = rsStopped then .next (s1.disableRing n)
  else .next s1

/-- HIF_RING_STOP: an ACTIVE ring drains to STOPPED (R369). -/
def execHifRingStop (r : RingId) (s : State) : Host.Outcome State Fault Refusal :=
  let n := r.val
  if s.ringSt n = rsActive then .next ((s.setRingSt n rsDraining).ringDrained n) else .next s

/-- k held completions of a ring written into its CQ, in the order in which they were held (R399). -/
def State.replayHeld (s : State) (n i : Nat) : Nat → State
  | 0     => s
  | k + 1 =>
    let e := s.memVal (s.holdBase n + 64 * i) 64
    ((s.cqPut n e).ringIrq n false).replayHeld n (i + 1) k

/-- HIF_HOSTLOST.LOST clears when no ring remains HOST_LOST (R399). -/
def State.lostCheck (s : State) : State :=
  if s.liveRings.any (fun k => s.ringSt k == rsHostLost) then s else s.wr HIF_HOSTLOST HIF_HOSTLOST_LOST 0

/-- RESUME of a HOST_LOST ring (R399). -/
def State.resumeLost (s : State) (n : Nat) : State :=
  let held := s.rd (HIF_RING_STAT n) HIF_RING_STAT_HELD
  let s1 := s.wr (HIF_RING_PTR n) HIF_RING_PTR_SQ_TAIL (s.rd (HIF_RING_PTR n) HIF_RING_PTR_SQ_HEAD)
  let s2 := ((s1.wr (HIF_RING_PTR n) HIF_RING_PTR_CQ_HEAD 0).wr (HIF_RING_PTR n) HIF_RING_PTR_CQ_TAIL 0).wr
    (HIF_RING_STAT n) HIF_RING_STAT_PHASE 1
  let s3 := (s2.setRingSt n rsActive).setRing n { s2.ring n with fetched := [], resume := false, deferred := false, causes := [], firstC := 0 }
  let s4 := s3.lostCheck
  (s4.replayHeld n 0 held).wr (HIF_RING_STAT n) HIF_RING_STAT_HELD 0

/-- ABANDON of a HOST_LOST ring: descriptors no unit has taken are discarded, held completions discarded and counted,
and the ring becomes DISABLED (R399). -/
def State.abandonLost (s : State) (n : Nat) : State :=
  let keep (w : Work) : Bool := w.ring != n
  let held := s.rd (HIF_RING_STAT n) HIF_RING_STAT_HELD
  let s1 := s.bumpBy HIF_HOSTLOST HIF_HOSTLOST_ABANDONED held
  let s2 := { s1 with
    tiles := s1.tiles.map (fun (p : Nat × Tile) => (p.1, { p.2 with wq := p.2.wq.filter keep })),
    hif := { s1.hif with nopQ := s1.hif.nopQ.filter keep, betonyQ := s1.hif.betonyQ.filter keep,
                         spwQ := s1.hif.spwQ.filter keep, prsQ := s1.hif.prsQ.map (fun (p : Nat × List Work) => (p.1, p.2.filter keep)) } }
  let s3 := (s2.wr (HIF_RING_STAT n) HIF_RING_STAT_HELD 0).wr (HIF_RING_STAT n) HIF_RING_STAT_OUTSTANDING 0
  (s3.disableRing n).lostCheck.groupsBusy

/-- HIF_RING_RESUME: a STOPPED ring reads again from SQ_HEAD; for a HOST_LOST ring RESUME waits for READY (R369, R399). -/
def execHifRingResume (r : RingId) (s : State) : Host.Outcome State Fault Refusal :=
  let n := r.val
  if s.ringSt n = rsStopped then
    .next (((s.setRingSt n rsActive).wr (HIF_RING_STAT n) HIF_RING_STAT_CAUSE 0).setRing n { s.ring n with fetched := [] })
  else if s.ringSt n = rsHostLost then
    if s.flag HIF_ATTACH HIF_ATTACH_READY then .next (s.resumeLost n)
    else .next (s.setRing n { s.ring n with resume := true })
  else .next s

/-- HIF_RING_ABANDON (R369, R399). -/
def execHifRingAbandon (r : RingId) (s : State) : Host.Outcome State Fault Refusal :=
  let n := r.val
  if s.ringSt n = rsStopped then .next (s.disableRing n)
  else if s.ringSt n = rsHostLost then .next (s.abandonLost n)
  else .next s

/-- CQ_WRITE_FAIL: an ACTIVE ring becomes STOPPED with cause 0x3 (R369). -/
def execCqWriteFail (r : RingId) (s : State) : Host.Outcome State Fault Refusal :=
  if s.ringSt r.val = rsActive then .next (s.stopRing r.val 3) else .next s

/-- COALESCE_TIMER: the message of the entries not yet signalled is sent; COAL_US of 0 sets no timer (R386). -/
def execCoalesceTimer (r : RingId) (s : State) : Host.Outcome State Fault Refusal :=
  let n := r.val
  if s.flag (HIF_RING_CFG n) HIF_RING_CFG_IRQ_EN ∧ s.rd (HIF_RING_CFG n) HIF_RING_CFG_COAL_US ≠ 0 ∧ (s.ring n).unsig ≠ 0 then
    .next ((s.setRing n { s.ring n with unsig := 0 }).msixSend (s.rd (HIF_RING_CFG n) HIF_RING_CFG_VECTOR))
  else .next s

/-! ### Host loss and re-attach (R396 to R400) -/

/-- The HOST_LOSS event's DETAIL code (R494). -/
def hostLossCode : HostLossCause → Nat
  | .dlDown   => 1
  | .hotReset => 2
  | .perst    => 3
  | .flr      => 4

/-- HOST_LOSS: every LOC = 1 ring in use enters HOST_LOST; ATS entries are dropped, page requests of the host regime
fail; LOST is set and the event recorded (R396). -/
def execHostLoss (cause : HostLossCause) (s : State) : Host.Outcome State Fault Refusal :=
  let lose (t : State) (n : Nat) : State :=
    if t.rd (HIF_RING_CFG n) HIF_RING_CFG_LOC = 1 ∧ t.ringSt n ≠ rsDisabled ∧ t.ringSt n ≠ rsHostLost then
      (t.setRingSt n rsHostLost).setRing n { t.ring n with fetched := [], resume := false }
    else t
  let s1 := s.liveRings.foldl lose s
  let s2 := { s1 with xlt := { s1.xlt with atc := s1.xlt.atc.filter (fun e => !e.ats) } }
  let s3 := if s.flag XLT_CTL XLT_CTL_HOSTSIDE then
      s.xlt.prq.foldl (fun t q => t.xfail q (pageFault q.kind)) { s2 with xlt := { s2.xlt with prq := [] } }
    else s2
  let s4 := ((s3.wr HIF_HOSTLOST HIF_HOSTLOST_LOST 1).bump HIF_HOSTLOST HIF_HOSTLOST_EVENTS).wr HIF_PCIE_STAT
    HIF_PCIE_STAT_EP_UP (if cause = .flr then s3.rd HIF_PCIE_STAT HIF_PCIE_STAT_EP_UP else 0)
  let s5 := (s4.wr XLT_APER XLT_APER_VALID 0).wr HIF_ATTACH HIF_ATTACH_READY 0
  let s6 := { s5 with hif := { s5.hif with lossCnt := s5.hif.lossCnt + 1, attachGo := false,
                                           attachTimer := decide (s5.rd HIF_ATTACH HIF_ATTACH_TIMEOUT_S ≠ 0) } }
  .next (s6.event 0x24 4 0 subNone (hostLossCode cause))

/-- HIF_ATTACH_GO: re-attach starts, the attach timer stops, and the host bus is open again; LOST clears at once where no ring waits for
the host (R399). -/
def execHifAttachGo (s : State) : Host.Outcome State Fault Refusal :=
  .next (({ s with hif := { s.hif with attachTimer := false, attachGo := true } }).lostCheck)

/-- ATTACH_READY: READY reads 1 and held RESUMEs take effect (R399). -/
def execAttachReady (s : State) : Host.Outcome State Fault Refusal :=
  if s.hif.attachGo then
    let s1 := s.wr HIF_ATTACH HIF_ATTACH_READY 1
    .next (s1.liveRings.foldl (fun t n =>
      if t.ringSt n = rsHostLost ∧ (t.ring n).resume then t.resumeLost n else t) s1)
  else .next s

/-- ATTACH_TIMEOUT: every HOST_LOST ring is abandoned and TIMED_OUT is set (R400). -/
def execAttachTimeout (s : State) : Host.Outcome State Fault Refusal :=
  if s.hif.attachTimer then
    let s1 := s.liveRings.foldl (fun t n => if t.ringSt n = rsHostLost then t.abandonLost n else t) s
    .next (({ s1 with hif := { s1.hif with attachTimer := false } }).wr HIF_ATTACH HIF_ATTACH_TIMED_OUT 1)
  else .next s

/-! ### The PCIe ports (R389 to R395) -/

/-- PCIE_RECOVERY: the Recovery entry is counted (R395). -/
def execPcieRecovery (_port : PciePort) (s : State) : Host.Outcome State Fault Refusal :=
  .next (s.bump HIF_PCIE_STAT HIF_PCIE_STAT_RETRAIN)

/-- A bit of RP_UP set or cleared; p is 1 to 8. -/
def State.setRpUp (s : State) (p : Nat) (up : Bool) : State :=
  s.wr HIF_PCIE_STAT HIF_PCIE_STAT_RP_UP (nset (s.rd HIF_PCIE_STAT HIF_PCIE_STAT_RP_UP) (p - 1) (p - 1) (b2n up))

/-- ROOT_PORT_DOWN: the port is contained and the event recorded (R395). -/
def execRootPortDown (port : Fin 8) (s : State) : Host.Outcome State Fault Refusal :=
  .next ((s.setRpUp (port.val + 1) false).event 0x25 2 (port.val + 1) subNone 0)

/-- The bifurcation and CXL fields of HIF_PCIE_CFG written before the lock; a BIF value of 0b11 is ignored (R389). -/
def State.pcieFields (s : State) (v : Word) : State :=
  let s1 := if fget v HIF_PCIE_CFG_BIF_A = 3 then s else s.wr HIF_PCIE_CFG HIF_PCIE_CFG_BIF_A (fget v HIF_PCIE_CFG_BIF_A)
  let s2 := if fget v HIF_PCIE_CFG_BIF_B = 3 then s1 else s1.wr HIF_PCIE_CFG HIF_PCIE_CFG_BIF_B (fget v HIF_PCIE_CFG_BIF_B)
  s2.wr HIF_PCIE_CFG HIF_PCIE_CFG_CXL_EN (fget v HIF_PCIE_CFG_CXL_EN)

/-- A write of HIF_PCIE_CFG under its lock (R8, R389). -/
def State.pcieCfgWrite (s : State) (v : Word) : State :=
  let a := HIF_PCIE_CFG
  let s0 := if fget v HIF_PCIE_CFG_REFUSED = 1 then s.wr a HIF_PCIE_CFG_REFUSED 0 else s
  let s1 := if s.flag a HIF_PCIE_CFG_LOCK then
      if s.rd a HIF_PCIE_CFG_BIF_A = fget v HIF_PCIE_CFG_BIF_A ∧ s.rd a HIF_PCIE_CFG_BIF_B = fget v HIF_PCIE_CFG_BIF_B ∧
         s.rd a HIF_PCIE_CFG_CXL_EN = fget v HIF_PCIE_CFG_CXL_EN then s0
      else s0.wr a HIF_PCIE_CFG_REFUSED 1
    else s0.pcieFields v
  let s2 := (s1.wr a HIF_PCIE_CFG_PEER_BRIDGE (fget v HIF_PCIE_CFG_PEER_BRIDGE)).wr a HIF_PCIE_CFG_RP_P2P
    (fget v HIF_PCIE_CFG_RP_P2P)
  if fget v HIF_PCIE_CFG_LOCK = 1 then s2.wr a HIF_PCIE_CFG_LOCK 1 else s2

/-- HIF_PCIE_LOCK (R389). -/
def execHifPcieLock (cfg : Word) (s : State) : Host.Outcome State Fault Refusal :=
  .next ((s.pcieCfgWrite cfg).wr HIF_PCIE_CFG HIF_PCIE_CFG_LOCK 1)

/-- Whether root port p, 1 to 8, exists under the bifurcation (R389). -/
def State.rpExists (s : State) (p : Nat) : Bool :=
  let bf := if p ≤ 4 then s.rd HIF_PCIE_CFG HIF_PCIE_CFG_BIF_A else s.rd HIF_PCIE_CFG HIF_PCIE_CFG_BIF_B
  let k := if p ≤ 4 then p else p - 4
  match bf with
  | 0 => k == 1
  | 1 => decide (k ≤ 2)
  | _ => true

/-- PCIE_LINK_UP: the endpoint comes up unless the boot failed, a root port that exists once the lock is set (R389,
R511). -/
def execPcieLinkUp (port : PciePort) (s : State) : Host.Outcome State Fault Refusal :=
  if port.val = 0 then
    if s.flag RST_BOOT RST_BOOT_FAILED then .next s else .next (s.wr HIF_PCIE_STAT HIF_PCIE_STAT_EP_UP 1)
  else if s.flag HIF_PCIE_CFG HIF_PCIE_CFG_LOCK ∧ s.rpExists port.val then .next (s.setRpUp port.val true)
  else .next s

/-- BAR_ASSIGN: XLT_APER takes its values (R362, R399). -/
def execBarAssign (base : Byte) (s : State) : Host.Outcome State Fault Refusal :=
  .next ((s.wr XLT_APER XLT_APER_VALID 1).wr XLT_APER XLT_APER_BASE base.toNat)

/-! ### Betony's descriptors (R48, R379) -/

end Sys2Proof.Machine
end

