-- ==== Sys2Proof/Machine/Bus.lean ====
section
/-!
DEFINITION. What answers at a physical address: the die that serves it and whether it can be reached, tile stores with their rights,
ledger cells, and registers (R13, R15, R23, R26, R40 to R43, R224 to R227, R238, R322).

Where the spec leaves open or is read by inference, and what is taken from outside it (DESIGN CHOICE, DEDUCED, PRESUMED):
notes/assumptions/2.md, 13.md, 65.md, 81.md.
-/

namespace Sys2Proof.Machine

open Sys2Proof

/-- The pseudo-channel of an HBM address (R297). -/
def State.pcOf (s : State) (a : Nat) : Nat := pcOfOff (offOfG (s.keyGranule a) a)

/-! ### Where an address is served, and absence (R26) -/

/-- Entry i of an array of n registers with a stride. -/
def regIdx (base stride n a : Nat) : Option Nat :=
  if base ≤ a ∧ (a - base) / stride < n then some ((a - base) / stride) else none

/-- The die that holds a register: those of a tile, a stack or a link, and of the engines that each C-die has, lie on
their C-die (R15, R30); every other register is on the H-die. -/
def regDie (r : Nat) : Nat :=
  let per : Option Nat := (regIdx 0x7F200000000 0x1000000 96 r).map tileDie
  let stk : Option Nat := (regIdx 0x7F300000000 0x1000000 12 r).map (· / 6)
  let lnk : Option Nat := (regIdx (FGN_LINK_STAT 0) 0x10 24 r).map (· / 12)
  let cch : Option Nat := if CCH_ERR 1 ≤ r ∧ r < CCH_ERR 3 then some ((r - CCH_ERR 1) / 0x20) else
    if r = CCH_SC_CARVE 0 then some 0 else if r = CCH_SC_CARVE 1 then some 1 else none
  let xlt : Option Nat := regIdx (XLT_ATC_STAT 0) 8 2 r
  let epo : Option Nat := ((regIdx (EPO_STAT 0) 0x200 96 r).map tileDie).or (regIdx (EPO_LEDGER_CFG 0) 0x40 2 r)
  let eng : Option Nat := (regIdx (LOU_CFG 0) 0x100000 2 r).or (regIdx (PRS_CFG 0) 0x100000 2 r)
  (((((per.or stk).or lnk).or cch).or xlt).or (epo.or eng)).getD 2

/-- The die that serves a local address: 0 and 1 are the C-dies, 2 the H-die. -/
def State.dieAt (s : State) (a : Nat) : Nat :=
  match s.region a with
  | .mem k => if k < 0xC000000000 then s.stackOf k / 6 else 2
  | .aperture n _ => tileDie n
  | .scratch d _ => d
  | .ledger d _ _ => d
  | .reg r => regDie r
  | _ => 2

/-- The Craone link between two dies (R17). -/
def linkBetween (a b : Nat) : Option Nat :=
  if a = b then none else if a + b = 1 then some 0 else if a + b = 2 then some 1 else some 2

/-- MGT_CRA_STATn.STATE codes. -/
abbrev clDown : Nat := 0
abbrev clTrain : Nat := 1
abbrev clNegotiate : Nat := 2
abbrev clActive : Nat := 3
abbrev clAbsent : Nat := 4
abbrev clNegFail : Nat := 5

def State.craSt (s : State) (l : Nat) : Nat := s.rd (MGT_CRA_STAT l) MGT_CRA_STAT_STATE

/-- Two dies whose link is not ACTIVE, so that no traffic crosses it and a stand-in, or the requester's timeout, answers (R22, R25,
R26, R31). -/
def State.parted (s : State) (a b : Nat) : Bool := (linkBetween a b).any (fun l => s.craSt l != clActive)

/-- The path from a die to an address is cut. -/
def State.cut (s : State) (src a : Nat) : Bool := s.parted src (s.dieAt a)

/-- Poisoned data that crosses a link without poison goes as POISONED and is counted (R23). -/
def State.poisonConv (s : State) (a b : Nat) (poison : Bool) : State :=
  match linkBetween a b with
  | some l => if poison && !s.flag (MGT_CRA_STAT l) MGT_CRA_STAT_POISON_ON then s.bump (MGT_CRA_ERR l) MGT_CRA_ERR_POISON_CONV else s
  | none => s

/-! ### Tile stores (R40 to R43) -/

/-- The partition that holds a tile-store offset, when partitions are in force. -/
def State.partAt (s : State) (n off : Nat) : Option Part :=
  if s.tst n = tsUnbound ∨ s.tst n = tsLoading then none
  else (s.tile n).parts.find? (fun p => decide (p.base ≤ off / 65536) && decide (off / 65536 < p.base + p.size))

/-- The rights bits of R42. -/
abbrev rtA : Nat := 0
abbrev rtW : Nat := 1
abbrev rtU : Nat := 2
abbrev rtD : Nat := 3
abbrev rtX : Nat := 4
abbrev rtS : Nat := 5

/-- The JRNL partition carries no rights (R43). -/
def Part.grants (p : Part) (right : Nat) : Bool := p.kind != 6 && nbits p.rights right right == 1

/-- Every granule of k granules from that of an offset grants a right. -/
def State.rightRun (s : State) (n right g : Nat) : Nat → Bool
  | 0 => true
  | k + 1 => (match s.partAt n (g * 65536) with
    | some p => p.grants right
    | none   => false) && s.rightRun n right (g + 1) k

/-- n bytes of a tile store from an offset lie inside it and every granule of them grants a right. -/
def State.tsRight (s : State) (n right off len : Nat) : Bool :=
  decide (off + len ≤ 0x300000) &&
  s.rightRun n right (off / 65536) (if len = 0 then 0 else (off + len - 1) / 65536 - off / 65536 + 1)

/-- Bytes of a tile store. -/
def State.tsBytes (s : State) (n off len : Nat) : List Byte := memBytes (s.tile n).store off len

/-- Any line of len bytes of a tile store is poisoned. -/
def State.tsPois (s : State) (n off len : Nat) : Bool :=
  (List.range (lineCount off len)).any (fun k => mget false (s.tile n).storePois (alignDown off 64 + 64 * k))

/-- The poison of k lines of a tile store after a write. -/
def poisRun (ps : List (Nat × Bool)) (line a n : Nat) (p : Bool) : Nat → List (Nat × Bool)
  | 0     => ps
  | k + 1 =>
    let whole : Bool := decide (a ≤ line) && decide (line + 64 ≤ a + n)
    let v := if whole then p else (mget false ps line || p)
    poisRun (mset false ps line v) (line + 64) a n p k

/-- Bytes written to a tile store. -/
def State.tsWrite (s : State) (n off : Nat) (bs : List Byte) (poison : Bool) : State :=
  let t := s.tile n
  s.setTile n { t with store := memPut t.store off bs,
                       storePois := poisRun t.storePois (alignDown off 64) off bs.length poison (lineCount off bs.length) }

/-- An aperture access that is refused: REMAP and OFFLINE counts, or a right missing (R37, R38, R42). -/
def State.apertureRefuse (s : State) (n : Nat) : State :=
  if s.tst n = tsOffline then s.bump (TIL_ERR n) TIL_ERR_TS_OFFLINE
  else if s.tst n = tsRemap then s.bump (TIL_ERR n) TIL_ERR_TS_REMAP
  else s.bump (TIL_ERR n) TIL_ERR_ACCESS

/-! ### Ledger cells (R224 to R227) -/

def State.lcell (s : State) (d c : Nat) : LCell := mget LCell.reset s.ledger (d * 2 ^ 18 + c)
def State.setLcell (s : State) (d c : Nat) (v : LCell) : State :=
  { s with ledger := mset LCell.reset s.ledger (d * 2 ^ 18 + c) v }

/-- The number of cells of a C-die (R225). -/
def State.lcells (s : State) (d : Nat) : Nat := s.rd (EPO_LEDGER_CFG d) EPO_LEDGER_CFG_SIZE * 8192

/-- An add to a cell (R226). -/
def State.ledgerAdd (s : State) (d c : Nat) (v : V) : State :=
  let x := s.lcell d c
  match v with
  | .nan _ _ => s.setLcell d c { x with nan := true }
  | .inf n   => s.setLcell d c (if n then { x with ninf := true } else { x with pinf := true })
  | .fin n m e =>
    let k := scaleTo m e (-149)
    let sum := x.value + (if n then -(k : Int) else (k : Int))
    let lim : Int := 2 ^ 315
    if -lim ≤ sum ∧ sum < lim then s.setLcell d c { x with value := sum }
    else (s.setLcell d c { x with value := sgn 316 (unsgn 316 sum), ovf := true }).bump (EPO_LEDGER_STAT d) EPO_LEDGER_STAT_OVF

/-- What a read of a cell returns in a format (R227). -/
def LCell.read (x : LCell) (f : Fmt) : V :=
  if x.nan || x.ovf || (x.pinf && x.ninf) then .dnan
  else if x.pinf then .inf false
  else if x.ninf then .inf true
  else accRound f (decide (x.value < 0)) x.value.natAbs (-149)

/-- A read of a cell counts a NaN that OVF or both infinities gave (R227). -/
def State.ledgerRead (s : State) (d c : Nat) (bf16 : Bool) : State × Nat :=
  let x := s.lcell d c
  let f := if bf16 then fBf16 else fB32
  let v := (encOut f .rne true 0 (x.read f)).1
  (if x.ovf || (x.pinf && x.ninf) then s.bump (EPO_LEDGER_STAT d) EPO_LEDGER_STAT_READ_NAN else s, v)

/-! ### Reads -/

/-- The answer to a read: bytes and poison, an error response, or ABSENT (a stand-in's answer included, R547). -/
inductive Rd where
  | ok (bs : List Byte) (poison : Bool)
  | error
  | absent
  deriving DecidableEq, Repr

/-- The answer to a write. -/
inductive Wr where
  | ok | error | absent
  deriving DecidableEq, Repr

/-- k free values' bytes: what lies beyond the package is not the model's to say. -/
def State.freeBytes (s : State) : Nat → State × List Byte
  | 0 => (s, [])
  | k + 1 =>
    let f := s.fresh
    let r := f.2.freeBytes k
    (r.1, leBytes 8 f.1.toNat ++ r.2)

/-- n bytes that the spec does not determine. -/
def State.freeRead (s : State) (n : Nat) : State × List Byte :=
  let r := s.freeBytes ((n + 7) / 8)
  (r.1, r.2.take n)

/-- The facet store, or in unified mode the tier directory, which requesters may not reach (R50, R242). -/
def State.closedMem (s : State) (a : Nat) : Bool :=
  (decide (s.facetBase ≤ a) && decide (a < s.facetBase + 2 ^ 26)) ||
  (s.unified && decide (s.dirBase ≤ a) && decide (a < s.dirBase + 8 * (s.unifiedSize / 2 ^ 21)))

/-- The C-dies' compute blocks are still in reset: before boot step 4, or their orientation is not confirmed (R13, R14, R510). -/
def State.computeHeld (s : State) : Bool := decide (s.rd RST_BOOT RST_BOOT_STEP < 4) || !s.flag MGT_DIE_MAP MGT_DIE_MAP_VALID

/-- The stack of an HBM address is quiesced (R322). -/
def State.quiesced (s : State) (key : Nat) : Bool :=
  decide (key < 0xC000000000) && s.flag (HBM_STAT (s.stackOf key)) HBM_STAT_QUIESCED

/-- An access that an HBM controller does not serve, as counted: it is still in reset, or its stack is quiesced (R13, R322, R492). -/
def State.hbmStop (s : State) (key : Nat) : Option State :=
  if key < 0xC000000000 ∧ s.computeHeld then some (s.bump TST_SI_CNT TST_SI_CNT_HBM)
  else if s.quiesced key then some ((s.bump (HBM_STAT (s.stackOf key)) HBM_STAT_Q_ACC).bump TST_SI_CNT TST_SI_CNT_HBM)
  else none

/-- The block of a register is held in reset: H-die blocks until boot step 3, the C-dies' as said (R492, R510); MGT, CLK, RST, SEC and
TST stay reachable. -/
def State.regHeld (s : State) (a : Nat) : Bool :=
  if a < 0x7F010000000 ∨ (0x7F700000000 ≤ a) then false
  else if (0x7F200000000 ≤ a ∧ a < 0x7F500000000) ∨ (0x7F600000000 ≤ a ∧ a < 0x7F620000000) ∨ (0x7F630000000 ≤ a ∧ a < 0x7F700000000) then
    s.computeHeld
  else decide (s.rd RST_BOOT RST_BOOT_STEP < 3)

/-- The logical ID in whose window a register lies. -/
def regTile (a : Nat) : Option Nat :=
  if 0x7F200000000 ≤ a ∧ a < 0x7F260000000 then some ((a - 0x7F200000000) / 0x1000000) else none

/-- Every register of the window but TIL_STATUS and TIL_ERR answers an error while the ID is in REMAP or OFFLINE (R37,
R38). -/
def State.regShut (s : State) (a : Nat) : Option Nat :=
  match regTile a with
  | some n => if (s.tst n = tsRemap ∨ s.tst n = tsOffline) ∧ a ≠ TIL_STATUS n ∧ a ≠ TIL_ERR n then some n else none
  | none   => none

/-- What a read of a register returns: MGT_WALL gives the current estimate of wall time, Periscope's buffer its entries, every other
register what it holds (R525, R528). -/
def State.shown (s : State) (a : Nat) : Word :=
  if a = MGT_WALL then BitVec.ofNat 64 s.wallNow
  else if MGT_PSC_BUF 0 ≤ a ∧ a < MGT_PSC_BUF 262144 then
    let w := (a - MGT_PSC_BUF 0) / 8
    BitVec.ofNat 64 ((mget 0 s.mgt.pscBuf (w / 4)).toNat >>> (64 * (w % 4)))
  else s.reg a

/-- A register read of 8 bytes (R238, R492). -/
def State.regRead (s : State) (a : Nat) : State × Option Word :=
  if s.regHeld a then (s.bump TST_SI_CNT TST_SI_CNT_REG, none)
  else match s.regShut a with
  | some n => (s.apertureRefuse n, none)
  | none   => (s, some (s.shown a))

end Sys2Proof.Machine
end

