-- ==== Sys2Proof/Machine/HbmCode.lean ====
section
/-!
DEFINITION. The outer code of an HBM line, RS(72,64) over GF(2^8), with its encoder, its decoder and the places of its symbols on the bus
(R300, R301, R303).
-/

namespace Sys2Proof.Machine

open Sys2Proof

/-! ### The field (R300) -/

/-- A product with x, in the field of x^8 + x^4 + x^3 + x^2 + 1. -/
def gfX (a : Nat) : Nat := if a < 128 then 2 * a else (2 * a) ^^^ 0x11D

/-- A product with α^n. -/
def gfShift (a : Nat) : Nat → Nat
  | 0     => a
  | n + 1 => gfX (gfShift a n)

def gfMul (a b : Nat) : Nat := (List.range 8).foldl (fun (r : Nat) i => if nbits b i i = 1 then r ^^^ gfShift a i else r) 0

/-- The inverse a^254. -/
def gfInv (a : Nat) : Nat :=
  let sq (x : Nat) := gfMul x x
  let a2 := sq a; let a4 := sq a2; let a8 := sq a4; let a16 := sq a8; let a32 := sq a16; let a64 := sq a32; let a128 := sq a64
  gfMul a2 (gfMul a4 (gfMul a8 (gfMul a16 (gfMul a32 (gfMul a64 a128)))))

/-- The powers α^0 to α^254. -/
def gfPowers : List Nat := (List.range 254).foldl (fun (r : List Nat) _ => r ++ [gfX (r.getLast?.getD 0)]) [1]

/-! ### Polynomials, lowest coefficient first -/

def polyAdd : List Nat → List Nat → List Nat
  | [], q => q
  | p, [] => p
  | a :: p, b :: q => (a ^^^ b) :: polyAdd p q

def polyScale (c : Nat) (p : List Nat) : List Nat := p.map (gfMul c)

def polyEval (p : List Nat) (x : Nat) : Nat := p.foldr (fun c r => c ^^^ gfMul x r) 0

/-- g(x), the product of x + α^i for i from 0 to 7. -/
def hbmGen : List Nat := (List.range 8).foldl (fun p i => polyAdd (0 :: p) (polyScale (gfShift 1 i) p)) [1]

/-! ### Code words (R300, R303) -/

/-- The check bytes of a line's bytes: byte j is the coefficient of x^(7 − j) in m(x) mod g(x). -/
def hbmCheck (bs : List Nat) : List Nat :=
  let g := (hbmGen.take 8).reverse
  bs.foldl (fun r b =>
    let t := b ^^^ r.headD 0
    ((r.drop 1 ++ [0]).zip g).map (fun (x : Nat × Nat) => x.1 ^^^ gfMul t x.2)) (List.replicate 8 0)

/-- The word stored for a line: its bytes and check bytes, which carry 0xA5 each where the line is poisoned. -/
def hbmWord (bs : List Byte) (poison : Bool) : List Nat :=
  let d := bs.map (·.toNat)
  d ++ (hbmCheck d).map (fun c => if poison then c ^^^ 0xA5 else c)

/-- The syndromes of a word at α^0 to α^7; symbol i stands at x^(71 − i). -/
def hbmSyndromes (w : List Nat) : List Nat := (List.range 8).map (fun i => w.foldl (fun r b => gfShift r i ^^^ b) 0)

/-- S_P: the syndromes of the poison marker. -/
def hbmPoisonSyn : List Nat := hbmSyndromes (List.replicate 64 0 ++ List.replicate 8 0xA5)

/-- One step of the search for the shortest error locator: the locator, the one kept, its length, the steps since and its discrepancy. -/
def locatorStep (syn : List Nat) (st : List Nat × List Nat × Nat × Nat × Nat) (n : Nat) : List Nat × List Nat × Nat × Nat × Nat :=
  let (c, b, l, m, d0) := st
  let d := (List.range (l + 1)).foldl (fun r i => if i ≤ n then r ^^^ gfMul (c.getD i 0) (syn.getD (n - i) 0) else r) 0
  if d = 0 then (c, b, l, m + 1, d0) else
  let c1 := polyAdd c (List.replicate m 0 ++ polyScale (gfMul d (gfInv d0)) b)
  if 2 * l ≤ n then (c1, c, n + 1 - l, 1, d) else (c1, b, l, m + 1, d0)

/-- The at most four symbol errors that have these syndromes, as index and value, if there are such. -/
def hbmErrors (syn : List Nat) : Option (List (Nat × Nat)) :=
  if syn.all (· == 0) then some [] else
  let (c, _, l, _, _) := (List.range 8).foldl (locatorStep syn) ([1], [1], 0, 1, 1)
  if 4 < l then none else
  let pow := gfPowers
  let at_ (k : Nat) : Nat := pow.getD (k % 255) 0
  let places := (List.range 72).filter (fun p => polyEval c (at_ (255 - p)) == 0)
  if places.length ≠ l then none else
  let om := (List.range 8).map (fun i => (List.range (i + 1)).foldl (fun r j => r ^^^ gfMul (c.getD j 0) (syn.getD (i - j) 0)) 0)
  let dv := (List.range 8).map (fun j => if j % 2 = 0 then c.getD (j + 1) 0 else 0)
  let es := places.map (fun p =>
    let xi := at_ (255 - p)
    (71 - p, gfMul (at_ p) (gfMul (polyEval om xi) (gfInv (polyEval dv xi)))))
  let word := es.foldl (fun (w : List Nat) e => w.set e.1 e.2) (List.replicate 72 0)
  if hbmSyndromes word = syn then some es else none

/-- The decoder reports poison: the syndromes are S_P, or differ from it by at most two symbol errors (R303). -/
def hbmPoisoned (syn : List Nat) : Bool :=
  match hbmErrors ((syn.zip hbmPoisonSyn).map (fun x => x.1 ^^^ x.2)) with
  | some es => decide (es.length ≤ 2)
  | none    => false

/-- What the outer code finds in a word: nothing, the poison marker, symbols to correct as index and value, a marked lane recovered, or a
pattern it cannot correct. -/
inductive HbmOut where
  | clean
  | poison
  | corrected (errs : List (Nat × Nat))
  | erasure
  | uncorrectable
  deriving DecidableEq, Repr

/-- Decoding with no lane marked; poison is looked for before the correction (R300, R303). -/
def hbmDecode (w : List Nat) : HbmOut :=
  let syn := hbmSyndromes w
  if syn.all (· == 0) then .clean
  else if hbmPoisoned syn then .poison
  else match hbmErrors syn with
  | some es => .corrected es
  | none    => .uncorrectable

/-! ### Symbols on the bus (R301) -/

/-- The byte lane of symbol i: line byte i is symbol (i mod 8, i / 8), check byte j is symbol (8, j). -/
def symLane (i : Nat) : Nat := if i < 64 then i % 8 else 8

/-- The beat pair of symbol i. -/
def symPair (i : Nat) : Nat := if i < 64 then i / 8 else i - 64

/-- Symbol i of 16 beats of 36 pins, pins 32 to 35 the check DQ: bits [3:0] from the even beat, [7:4] from the odd one. -/
def symAt (e : BitVec 576) (i : Nat) : Nat :=
  let k := 72 * symPair i + 4 * symLane i
  bits e (k + 3) k + 16 * bits e (k + 39) (k + 36)

/-- The symbols of a pattern on the bus, in the order of a word. -/
def symsOf (e : BitVec 576) : List Nat := (List.range 72).map (symAt e)

/-- A pattern that is zero outside one byte lane. -/
def onlyLane (w : List Nat) (m : Nat) : Bool := ((List.range 72).zip w).all (fun x => x.2 == 0 || symLane x.1 == m)

end Sys2Proof.Machine
end

