-- ==== Sys2Proof/Machine/HbmRead.lean ====
section
/-!
DEFINITION. Lines of an HBM stack as they are read (spec/11): places, marks, error records, and what both codes find (R295 to R298, R302 to
R306, R310 to R312).

Where the spec leaves open or is read by inference, and what is taken from outside it (DESIGN CHOICE, DEDUCED, PRESUMED):
notes/assumptions/35.md.
-/

namespace Sys2Proof.Machine

open Sys2Proof

/-! ### Lines and ranges -/

/-- The line of an HBM address, if it is one. -/
def hbmLine (a : Word) : Option Nat :=
  if a.toNat < 0xC000000000 then some (alignDown a.toNat 64) else none

/-- The place of a key in its stack: stack, pseudo-channel and in-stack offset (R296, R297, R307). -/
def State.hbmPlace (s : State) (key : Nat) : Nat × Nat × Nat :=
  let g := s.keyGranule key
  let o := offOfG g key
  (stackOfG g, pcOfOff o, o)

/-- Bank, row and column of an in-stack offset (R297). -/
def bankOf (o : Nat) : Nat := nbits o 21 16 ^^^ nbits o 27 22
def rowOf (o : Nat) : Nat := nbits o 35 22
def colOf (o : Nat) : Nat := nbits o 15 12

/-- The in-stack offset of a line by pseudo-channel, bank, row and column (R297). -/
def offAt (pc bank row col : Nat) : Nat :=
  let lam := row * 2 ^ 10 + (bank ^^^ row % 64) * 2 ^ 4 + col
  let o := lam * 2 ^ 12
  o + (pc ^^^ nbits o 17 12 ^^^ nbits o 23 18) * 64

/-- The HBM granule of a stack at an in-stack offset (R296). -/
def granuleAt (stack o : Nat) : Nat :=
  let hi := o / 2 ^ 21
  let x := nbits hi 1 0 ^^^ nbits hi 3 2 ^^^ nbits hi 5 4
  3 * (4 * hi + (stack % 4 ^^^ x)) + stack / 4

/-- The HBM granule whose stack and range a shielded range's parity of a stripe lies in. -/
def parityGran (b n h : Nat) : Nat :=
  let st := (n + 11) / 12
  let k := h / 12
  let r := if k - b / 12 + 1 = st then n - 12 * (st - 1) else 12
  12 * k + (k % 12) % r

/-- The stripe line of a key: its stripe and offset. -/
def State.stripeKey (s : State) (key : Nat) : Nat := s.keyGranule key / 12 * 2 ^ 21 + key % 2 ^ 21

/-- The stack of the parity of a key's stripe line. -/
def State.parStack (s : State) (key : Nat) : Nat :=
  match s.keyShield key with
  | some (_, b, n) => stackOfG (parityGran b n (s.keyGranule key))
  | none => 0

/-- The parity of a key's stripe line lies in a failed pseudo-channel. -/
def State.parityFailed (s : State) (key : Nat) : Bool :=
  match s.keyShield key with
  | some (_, b, n) =>
    let g := parityGran b n (s.keyGranule key)
    s.pcFailed (stackOfG g) (pcOfOff (offOfG g key))
  | none => false

/-- A shielded range touches a stack. -/
def rangeTouches (b n stack : Nat) : Bool :=
  decide (12 ≤ n) || (List.range n).any (fun i => stackOfG (b + i) == stack)

/-- DEGRADED of every range brought up to date (R311, R324). -/
def State.refreshDegraded (s : State) : State :=
  (List.range 8).foldl (fun t x =>
    let bad := match t.shdRange x with
      | none => false
      | some (b, n) => (List.range 12).any (fun k =>
          (t.flag (HBM_STAT k) HBM_STAT_FAILED || t.reg (HBM_FAIL_PC k) != 0) && rangeTouches b n k)
    t.wr (HBM_SHD_STAT x) HBM_SHD_STAT_DEGRADED (b2n bad)) s

/-! ### Errors (R304, R306) -/

/-- An error record: written while none is held, else LOST counts; the event always goes out (R306, R494). -/
def State.hbmRecord (s : State) (stack kind pc bank row col pa : Nat) : State :=
  let a := HBM_ERR_REC0 stack
  let s1 := if s.flag a HBM_ERR_REC0_VALID then s.bump a HBM_ERR_REC0_LOST else
    let s2 := (((s.wr a HBM_ERR_REC0_PC pc).wr a HBM_ERR_REC0_BANK bank).wr a HBM_ERR_REC0_ROW row).wr a HBM_ERR_REC0_COLUMN col
    (((s2.wr a HBM_ERR_REC0_KIND kind).wr a HBM_ERR_REC0_VALID 1).wr (HBM_ERR_REC1 stack) HBM_ERR_REC1_PA pa).setReg
      (HBM_ERR_REC2 stack) (BitVec.ofNat 64 s.life)
  s1.event 0x12 (if kind = 0 ∨ kind = 2 then 2 else 4) stack pc (kind + pa * 2 ^ 8)

/-- An error record of a line. -/
def State.lineRecord (s : State) (key kind : Nat) : State :=
  let p := s.hbmPlace key
  s.hbmRecord p.1 kind p.2.1 (bankOf p.2.2) (rowOf p.2.2) (colOf p.2.2) key

/-- The mark of a pseudo-channel: its lane if one is marked (R304). -/
def State.mark (s : State) (stack pc : Nat) : Option Nat :=
  let b := bits (s.reg (HBM_MARK stack (pc / 8))) (8 * (pc % 8) + 7) (8 * (pc % 8))
  if nbits b 4 4 = 1 then some (nbits b 3 0) else none

/-- The mark of a pseudo-channel set to a lane, or cleared. -/
def State.setMark (s : State) (stack pc : Nat) (l : Option Nat) : State :=
  let k := 8 * (pc % 8)
  s.wr (HBM_MARK stack (pc / 8)) ⟨k + 7, k⟩ (match l with
    | some x => x + 16
    | none   => 0)

/-- Symbols corrected in a lane counted; at MARK_THRESH the lane is marked, or only recorded where another one is (R304). -/
def State.laneCount (s : State) (stack pc lane n : Nat) : State :=
  let k := 16 * (64 * stack + pc) + lane
  let was := mget 0 s.hbm.lanes k
  let now := min (was + n) 0xFF
  let s1 := { s with hbm := { s.hbm with lanes := mset 0 s.hbm.lanes k now } }
  let th := s.rd (HBM_CTL stack) HBM_CTL_MARK_THRESH
  if was < th ∧ th ≤ now then
    let f := s1.fresh
    let rec3 (t : State) : State := t.hbmRecord stack 3 pc 0 0 0 (f.1.toNat % 2 ^ 7)
    match s1.mark stack pc with
    | none   => rec3 ((f.2.setMark stack pc (some lane)).bump (HBM_ECC2 stack) HBM_ECC2_MARKS)
    | some m => if m = lane then s1 else rec3 f.2
  else s1

/-- The poison marker written over an uncorrectable line (R302). -/
def State.markLine (s : State) (key kind : Nat) : State :=
  ((s.setPois key true).bump (HBM_ECC (s.hbmPlace key).1) HBM_ECC_UNCORR).lineRecord key kind

/-- The line holds the poison marker. -/
def State.markerAt (s : State) (key : Nat) : Bool :=
  mget false s.poison key || (match mfind s.hbm.wiped (s.wipeKey key) with
    | some ls => !ls.contains key
    | none    => false)

def State.askRecon (s : State) (key : Nat) (scrub : Bool) : State :=
  { s with hbm := { s.hbm with recon := s.hbm.recon ++ [{ line := key, started := false, scrub := scrub }] } }

/-- The answer of a line read: its bytes, and whether they are poisoned. -/
def State.answerLine (s : State) (key : Nat) (p : Bool) : State := { s with answer := .data (memBytes s.mem key 64) p }

/-- A line is stale: its release never came (R312). -/
def State.isStale (s : State) (key : Nat) : Bool := (mget [] s.hbm.stale (s.hbmPlace key).1).contains key

/-- What the outer code finds in a line, and the bytes it hands on (R300 to R304, R501): a line corrupted by an injection is beyond
correction; with a lane marked, an error outside it is. -/
def State.lineFind (s : State) (key : Nat) (f : HbmFinding) : HbmOut × List Byte :=
  let d := memBytes s.mem key 64
  let p := s.markerAt key
  if s.hbm.corrupt.contains key then (.uncorrectable, d)
  else if f.errs = 0 then (if p then .poison else .clean, d)
  else
    let e := symsOf f.errs
    let w := ((hbmWord d p).zip e).map (fun x => x.1 ^^^ x.2)
    let out (x : List Nat) : List Byte := (x.take 64).map (BitVec.ofNat 8)
    let pl := s.hbmPlace key
    match s.mark pl.1 pl.2.1 with
    | none =>
      (match hbmDecode w with
       | .clean        => (.clean, out w)
       | .corrected es => (.corrected es, out (es.foldl (fun (x : List Nat) c => x.set c.1 (x.getD c.1 0 ^^^ c.2)) w))
       | o             => (o, d))
    | some m =>
      if hbmPoisoned (hbmSyndromes w) then (.poison, d)
      else
        let tot := ((List.range 72).zip e).map (fun x => if p ∧ 64 ≤ x.1 then x.2 ^^^ 0xA5 else x.2)
        (if onlyLane tot m then .erasure else .uncorrectable, d)

/-- Corrected symbols counted by byte lane (R304). -/
def State.countLanes (s : State) (key : Nat) (es : List (Nat × Nat)) : State :=
  let p := s.hbmPlace key
  (List.range 9).foldl (fun (t : State) l =>
    let n := (es.filter (fun x => symLane x.1 == l)).length
    if n = 0 then t else t.laneCount p.1 p.2.1 l n) s

/-- A corrected line written back (R305): nothing changes unless the correction led to another code word. -/
def State.writeBack (s : State) (key : Nat) (bs : List Byte) : State :=
  if bs = memBytes s.mem key 64 ∧ ¬ s.markerAt key then s
  else ({ s with mem := memPut s.mem key bs }).setPois key false

/-- A reconstruction's end: the XOR of the other lines, written back where the member is not failed, or poison; bad: another line was found
uncorrectable.  Tells whether the line is poisoned (R302, R310). -/
def State.reconEnd (s : State) (key : Nat) (bad : Bool) : State × Bool :=
  let p := s.hbmPlace key
  let dead := s.pcFailed p.1 p.2.1
  if bad ∨ s.noShield key then (if dead then s.lineRecord key 2 else s.markLine key 2, true)
  else
    let s1 := s.bump HBM_SHD_ERR HBM_SHD_ERR_RECON
    (if dead then s1 else (s1.setPois key false).lineRecord key 1, false)

/-- A read of a line, by a requester or by the scrubber (R302, R305, R311, R312). -/
def State.hbmServe (s : State) (key : Nat) (f : HbmFinding) (scrub : Bool) : State :=
  let p := s.hbmPlace key
  let r := s.lineFind key f
  let ans (t : State) (pois : Bool) : State := if scrub then t else { t with answer := .data r.2 pois }
  let fix (t : State) : State := if scrub then t.bump (HBM_ECC2 p.1) HBM_ECC2_SCRUB_FIX else t
  let shield : Bool := (s.keyShield key).isSome
  if s.pcFailed p.1 p.2.1 then
    if shield then (if scrub then s else s.askRecon key false)
    else if scrub then s
    else ((s.bump (HBM_ECC2 p.1) HBM_ECC2_POISON_RD).bump TST_SI_CNT TST_SI_CNT_HBM).answerLine key true
  else if s.isStale key then (if scrub then s else s.askRecon key false)
  else match r.1 with
  | .poison        => ans (if scrub then s else s.bump (HBM_ECC2 p.1) HBM_ECC2_POISON_RD) true
  | .clean         => if f.severity then fix (ans (s.bump (HBM_ECC p.1) HBM_ECC_SEV_CORR) false) else ans s false
  | .corrected es  => fix (ans (((s.bump (HBM_ECC p.1) HBM_ECC_OUTER_CORR).countLanes key es).writeBack key r.2) false)
  | .erasure       => fix (ans (s.bump (HBM_ECC p.1) HBM_ECC_ERASURE) false)
  | .uncorrectable => if shield then s.askRecon key scrub else fix (ans (s.markLine key 0) true)

/-- A line read for an engine, the home or a merge, with a reconstruction that it needs carried out at once: the bytes, and whether they are
poisoned. -/
def State.lineFetch (s : State) (key : Nat) (f : HbmFinding) : State × List Byte × Bool :=
  let d := memBytes s.mem key 64
  if 0xC000000000 ≤ key then (s, d, s.linePois key) else
  let p := s.hbmPlace key
  let r := s.lineFind key f
  let shield : Bool := (s.keyShield key).isSome
  let recon : State × List Byte × Bool := let x := s.reconEnd key false; (x.1, d, x.2)
  if s.pcFailed p.1 p.2.1 then
    if shield then recon else ((s.bump (HBM_ECC2 p.1) HBM_ECC2_POISON_RD).bump TST_SI_CNT TST_SI_CNT_HBM, d, true)
  else if s.isStale key then recon
  else match r.1 with
  | .poison        => (s.bump (HBM_ECC2 p.1) HBM_ECC2_POISON_RD, d, true)
  | .clean         => (if f.severity then s.bump (HBM_ECC p.1) HBM_ECC_SEV_CORR else s, r.2, false)
  | .corrected es  => (((s.bump (HBM_ECC p.1) HBM_ECC_OUTER_CORR).countLanes key es).writeBack key r.2, r.2, false)
  | .erasure       => (s.bump (HBM_ECC p.1) HBM_ECC_ERASURE, d, false)
  | .uncorrectable => if shield then recon else (s.markLine key 0, d, true)

end Sys2Proof.Machine
end

