-- ==== Sys2Proof/Machine/Coherence.lean ====
section
/-!
DEFINITION. The coherence protocol (spec/10, R271 to R294): the home with its directory and queues, the caching agents' transitions,
leases, maintenance, and what an absent C-die means for the lines it held.

Where the spec leaves open or is read by inference, and what is taken from outside it (DESIGN CHOICE, DEDUCED, PRESUMED):
notes/assumptions/32.md, 33.md, 34.md, 55.md, 56.md, 82.md, 83.md.
-/

namespace Sys2Proof.Machine

open Sys2Proof

/-! ### Messages (R18, R19, R274, R275) -/

/-- The die of a caching agent; 2 is the H-die. -/
def agentDie (ag : Nat) : Nat := (scDie ag).getD 2

/-- The die of an agent ID of R18. -/
def idDie (id : Nat) : Nat :=
  if id = 0x10 ∨ id = 0x11 ∨ id = 0x1F then 0 else if id = 0x20 ∨ id = 0x21 ∨ id = 0x2F then 1 else 2

/-- A system cache whose link to the home is not ACTIVE, so that no traffic but MGT crosses it (R22, R25), or the L2 of a core whose
flush was abandoned (R286, R458, R492). -/
def State.agentGone (s : State) (ag : Nat) : Bool :=
  match scDie ag with
  | some d => s.craSt (1 + d) != clActive
  | none   => decide (0x80 ≤ ag) && decide (ag < 0xE0) && s.flag (MGT_CORE_STAT (ag - 0x80)) MGT_CORE_STAT_FLUSH_FAIL

/-- The stand-in responder of a die, and of an agent. -/
def standinId (d : Nat) : Nat := if d = 0 then 0x1F else if d = 1 then 0x2F else 0x0F

/-- The messages that a cache sends to the home. -/
def CMsgOp.toHome : CMsgOp → Bool
  | .compAck | .rspI | .rspS | .rspO | .rspKeep | .dataHome | .leaseAck | .leaseReturn => true
  | _ => false

/-- Class and opcode of a message (R274). -/
def CMsgOp.code : CMsgOp → Nat × Nat
  | .snpShared => (1, 0x10) | .snpUnique => (1, 0x11) | .snpInv => (1, 0x12) | .snpOnce => (1, 0x13) | .snpClean => (1, 0x14)
  | .snpFlush => (1, 0x15) | .leaseRecall => (1, 0x16)
  | .comp | .leaseComp => (2, 0x20) | .compAck | .leaseAck => (2, 0x21)
  | .rspI => (2, 0x22) | .rspS => (2, 0x23) | .rspO => (2, 0x24) | .rspKeep => (2, 0x25) | .leaseDeny => (2, 0x26)
  | .error => (2, 0x2C) | .poisoned => (2, 0x2D) | .absent => (2, 0x2E) | .malformed => (2, 0x2F)
  | .dataS => (3, 0x30) | .dataE => (3, 0x31) | .dataM => (3, 0x32) | .dataOnce => (3, 0x33) | .dataHome => (3, 0x34)
  | .hmemRd => (4, 0x48) | .hmemWr => (4, 0x49) | .leaseReturn => (0, 0x0B)

/-- Opcode of a request (R274); the home's own flushes are no message. -/
def CohOp.code : CohOp → Option Nat
  | .rdShared => some 1 | .rdUnique => some 2 | .upgrade => some 3 | .claim => some 4 | .rdOnce => some 5
  | .wbDirty => some 6 | .evictClean => some 7 | .cmoClean => some 8 | .cmoFlush => some 9
  | .backInv | .leaseFlush => none

/-- A message without data, from the agent to the home or from the home. -/
def cmsg (op : CMsgOp) (ag line : Nat) : CMsg :=
  { op := op, agent := ag, src := if op.toHome then ag else 0x01, txid := 0, line := line, rq := 0, want := .dataS, data := 0,
    poison := false, stray := false, standin := false }

/-- A message sent. -/
def State.cPush (s : State) (m : CMsg) : State := { s with coh := { s.coh with net := s.coh.net ++ [m] } }

/-- The memory target of a line: the C-die of its HBM stack, or the H-die. -/
def State.memTarget (s : State) (line : Nat) : Nat :=
  let d := s.dieAt line
  if d = 0 then 0x11 else if d = 1 then 0x21 else 0x02

/-- The agent ID a message goes to. -/
def State.cDst (s : State) (m : CMsg) : Nat :=
  if m.op.toHome then 0x01 else if m.op = .hmemRd ∨ m.op = .hmemWr then s.memTarget m.line else m.agent

/-- The Craone links a message crosses, each with the die that sends on it.  The home's end of a link stands in for the other, so a
stand-in's message comes from the H-die (R26); between the C-dies the H-die relays data while link 0 is not ACTIVE (R289). -/
def State.cRoute (s : State) (m : CMsg) : List (Nat × Nat) :=
  let a := if m.standin then 2 else idDie m.src
  let b := idDie (s.cDst m)
  match linkBetween a b with
  | none   => []
  | some 0 => if s.craSt 0 = clActive then [(0, a)] else [(1 + a, a), (1 + b, 2)]
  | some l => [(l, a)]

/-- The ordering tag: the requester's ID, with HMEM_RD's wanted opcode above it (R275); elsewhere the sender's choice. -/
def CMsg.tag (m : CMsg) : Nat :=
  let c := m.op.code
  if c.1 = 1 ∧ m.op ≠ .leaseRecall then m.rq
  else if m.op = .hmemRd then m.agent + 2 ^ 8 * (m.want.code.2 - 0x30)
  else (Config.otag (c.1 * 2 ^ 8 + c.2) m.agent m.line).toNat

/-- The header of a message (R18, R274). -/
def State.cHdr (s : State) (m : CMsg) : CraHdr :=
  let c := if m.op = .dataHome ∧ m.want = .poisoned then CMsgOp.code .poisoned else m.op.code
  { cls := BitVec.ofNat 4 c.1, opcode := BitVec.ofNat 8 c.2, otag := BitVec.ofNat 12 m.tag, txid := BitVec.ofNat 16 m.txid,
    src := BitVec.ofNat 8 m.src, dst := BitVec.ofNat 8 (s.cDst m), addr := BitVec.ofNat 56 (s.node * 2 ^ 43 + m.line),
    len := if c.1 = 3 ∨ m.op = .hmemWr then 1 else 0, poison := m.poison, standin := m.standin, rsv := 0 }

/-- A credit counter of the local transmitter lowered by a message's size in 16-byte units (R24). -/
def State.spend (s : State) (l cls n : Nat) : State :=
  let k := 8 * l + cls
  { s with cra := { s.cra with credits := mset 0 s.cra.credits k (mget 0 s.cra.credits k - n) } }

/-- A link that a message crosses: it is ACTIVE, and where the sender is the end whose counters the block holds, C0's on link 0 and
the H-die's on the others, its credit covers the message, which spends it (R22, R24, R25). -/
def State.crossOne (s : State) (m : CMsg) (x : Nat × Nat) : Option State :=
  let h := s.cHdr m
  let n := 1 + 4 * h.len.toNat
  if s.craSt x.1 ≠ clActive then none
  else if (if x.1 = 0 then x.2 = 0 else x.2 = 2) then
    if mget 0 s.cra.credits (8 * x.1 + h.cls.toNat) < n then none else some (s.spend x.1 h.cls.toNat n)
  else some s

/-- A message crosses the links of its route. -/
def State.crossed (s : State) (m : CMsg) : Option State :=
  (s.cRoute m).foldl (fun (o : Option State) x => o.bind (fun t => t.crossOne m x)) (some s)

/-- Two messages share an ordering tag on one link in one direction, so the earlier arrives first (R19). -/
def State.sameLane (s : State) (x m : CMsg) : Bool :=
  x.tag == m.tag && (s.cRoute x).any (fun r => (s.cRoute m).contains r)

/-- The oldest message of some kinds about a line, from or to an agent (any agent for none), taken off the way where it may arrive:
its links and credits carry it, and no earlier message of its tag is still on its link. -/
def State.cTake (s : State) (ops : List CMsgOp) (ag : Option Nat) (line : Nat) : Option (CMsg × State) :=
  let p (m : CMsg) : Bool := ops.contains m.op && m.line == line && (match ag with
    | some a => m.agent == a
    | none   => true)
  match takeFirst p s.coh.net with
  | none => none
  | some (m, net) =>
    if (s.coh.net.takeWhile (fun x => !p x)).any (fun x => s.sameLane x m) then none
    else (s.crossed m).map (fun t => (m, { t with coh := { t.coh with net := net } }))

/-- A data message sent: where a link of its route carries no poison, poisoned data is replaced by POISONED for the same transaction
and counted (R23). -/
def State.cData (s : State) (m : CMsg) : State :=
  match (s.cRoute m).find? (fun x => !s.flag (MGT_CRA_STAT x.1) MGT_CRA_STAT_POISON_ON) with
  | some x =>
    if m.poison then
      (s.bump (MGT_CRA_ERR x.1) MGT_CRA_ERR_POISON_CONV).cPush
        (if m.op = .dataHome then { m with data := 0, want := .poisoned } else { m with op := .poisoned, data := 0 })
    else s.cPush m
  | none => s.cPush m

/-! ### Outstanding transactions (R18, R27) -/

/-- The lowest TXID that an agent has not outstanding and that no stand-in has answered on a link that is still ABSENT. -/
def State.newTxid (s : State) (ag : Nat) : Nat :=
  let used (n : Nat) : Bool := s.coh.outst.any (fun o => o.agent == ag && o.txid == n) ||
    s.cra.answered.any (fun x => x.2.1 == ag && x.2.2 == n && s.craSt x.1 == clAbsent)
  ((List.range (s.coh.outst.length + s.cra.answered.length + 1)).find? (fun n => !used n)).getD 0

/-- A transaction of an agent opened with a TXID. -/
def State.txOpen (s : State) (ag line txid : Nat) (cmo : Bool) : State :=
  { s with coh := { s.coh with outst := s.coh.outst ++ [{ agent := ag, txid := txid, line := line, cmo := cmo }] },
           cra := { s.cra with answered := s.cra.answered.filter (fun x => !(x.2.1 == ag && x.2.2 == txid)) } }

/-- The TXID of the transaction an agent has outstanding on a line, its maintenance apart. -/
def State.txOf (s : State) (ag line : Nat) : Nat :=
  ((s.coh.outst.find? (fun o => o.agent == ag && o.line == line && !o.cmo)).map (·.txid)).getD 0

/-- A transaction of an agent over. -/
def State.txDone (s : State) (ag txid : Nat) : State :=
  { s with coh := { s.coh with outst := s.coh.outst.filter (fun o => !(o.agent == ag && o.txid == txid)) } }

/-! ### Snoops sent -/

/-- A snoop sent for a requester's transaction; the stand-in of an absent agent answers at once, with poisoned data where data is to
be forwarded (R286). -/
def State.cSnoop (s : State) (op : CMsgOp) (ag line rq txid : Nat) : State :=
  if s.agentGone ag then
    let id := standinId (agentDie ag)
    let s1 := s.cPush { cmsg .rspI ag line with src := id, standin := true, txid := txid }
    let fwd : Option CMsgOp := match op with
      | .snpShared => some .dataS
      | .snpUnique => some .dataM
      | .snpOnce   => some .dataOnce
      | _          => none
    let s2 : State := match fwd with
      | none => s1
      | some d =>
        let carries : Bool := match scDie ag with
          | some k => s.flag (MGT_CRA_STAT (1 + k)) MGT_CRA_STAT_POISON_ON
          | none   => (scDie rq).all (fun k => s.flag (MGT_CRA_STAT (1 + k)) MGT_CRA_STAT_POISON_ON)
        s1.cPush { cmsg (if carries then d else .poisoned) rq line with src := id, txid := txid, rq := ag, poison := true, standin := true }
    if (scDie ag).isNone then s2.bump TST_SI_CNT TST_SI_CNT_L2 else s2
  else s.cPush { cmsg op ag line with rq := rq, txid := txid }

/-! ### Lines and memory -/

/-- A line read from memory, an HBM line through both codes (R302); writes held for it are seen. -/
def State.lineRead (s : State) (line : Nat) (h : HbmFinding) : State × Line × Bool :=
  let k := s.tierKey line
  if k < 0xC000000000 then
    let x := s.lineFetch k h
    (x.1, BitVec.ofNat 512 (leVal x.2.1), x.2.2)
  else (s, s.memLineOf line, s.memLinePois line)

/-- A write-back past the L3: memory takes the line, and an older L3 copy is dropped. -/
def State.memPast (s : State) (line : Nat) (data : Line) (poison : Bool) : State := (s.memLine line data poison).delLine l3Key line

/-- A line entered in the L3 for an L2, clean or dirty; a dirty victim goes to memory (R278). -/
def State.l3Fill (s : State) (line : Nat) (dirty : Bool) (data : Line) (poison stream : Bool) : State :=
  let c : CLine := { CLine.reset with st := if dirty then .M else .S, data := data, poison := poison }
  match s.cLine l3Key line with
  | some old => (s.setLine l3Key line { c with way := old.way, age := old.age }).cHit l3Key line
  | none =>
    match s.cWay l3Key line with
    | none => if dirty then s.memLine line data poison else s
    | some (s1, w, v) =>
      let s2 : State := match v with
        | none   => s1
        | some x =>
          match s1.cLine l3Key x with
          | some o => (if o.st = .M then s1.memLine x o.data o.poison else s1).delLine l3Key x
          | none   => s1
      s2.cEnter l3Key line w stream c

/-- The L3 holds a line newer than memory. -/
def State.l3Dirty (s : State) (line : Nat) : Bool := s.cSt l3Key line == .M

/-! ### The directory -/

def State.dirEnt (s : State) (line : Nat) : DirEnt := mget DirEnt.reset s.coh.dir line

/-- A line of memory as the home knows it has one transaction at a time (R271). -/
def State.busyLine (s : State) (line : Nat) : Bool := (mfind s.coh.txn line).isSome

def State.setTxn (s : State) (line : Nat) (t : HTxn) : State := { s with coh := { s.coh with txn := mput s.coh.txn line t } }

def State.setQueue (s : State) (line : Nat) (q : List CReq) : State :=
  { s with coh := { s.coh with queue := mset [] s.coh.queue line q } }

/-- An entry as it stands, also one that a transaction has reserved and that nobody holds yet. -/
def State.keepDir (s : State) (line : Nat) (e : DirEnt) : State := { s with coh := { s.coh with dir := mput s.coh.dir line e } }

/-- An entry kept, or dropped when nobody holds the line. -/
def State.putDir (s : State) (line : Nat) (e : DirEnt) : State :=
  { s with coh := { s.coh with dir := if e.owner = none ∧ e.sharers = [] then mdel s.coh.dir line else mput s.coh.dir line e } }

/-- The memory copy of a line an absent agent owned is poisoned (R286). -/
def State.standinPoison (s : State) (line : Nat) : State :=
  ((s.delLine l3Key line).setPois (alignDown (s.tierKey line) 64) true).bump CCH_HOME_STAT CCH_HOME_STAT_STANDIN_POISON

/-- An absent agent's part in an entry removed: poison for a line it owned (R286, R288). -/
def State.dirGone (s : State) (ag line : Nat) : State :=
  let e := s.dirEnt line
  if e.owner = some ag then (s.putDir line { e with owner := none, inO := false }).standinPoison line
  else if e.sharers.contains ag then s.putDir line { e with sharers := e.sharers.filter (· != ag) }
  else s

/-- Data for a requester from the L3, or from memory through HMEM_RD (R278). -/
def State.cSupply (s : State) (line rq txid : Nat) (want : CMsgOp) : State :=
  match s.cLine l3Key line with
  | some c => (s.cHit l3Key line).cData { cmsg want rq line with txid := txid, data := c.data, poison := c.poison }
  | none   => s.cPush { cmsg .hmemRd rq line with txid := txid, want := want }

/-- The requests that grant something and end with COMP_ACK (R271). -/
def CohOp.isGrant : CohOp → Bool
  | .rdShared | .rdUnique | .upgrade | .claim | .rdOnce => true
  | _ => false

/-- The data message a request is answered with. -/
def CohOp.want : CohOp → CMsgOp
  | .rdShared => .dataS
  | .rdOnce   => .dataOnce
  | _         => .dataM

/-- What the home does with a request on a line it holds as an entry says (R278): its snoops, the data it supplies itself, and
whether it sends COMP. -/
def homePlan (op : CohOp) (rq : Nat) (e : DirEnt) : List (CMsgOp × Nat) × Option CMsgOp × Bool :=
  let others := e.sharers.filter (· != rq)
  let inv := others.map (fun a => (CMsgOp.snpInv, a))
  let own := e.owner.toList.filter (· != rq)
  let unique : List (CMsgOp × Nat) × Option CMsgOp × Bool := match e.owner with
    | some o => ((.snpUnique, o) :: inv, none, false)
    | none   => (inv, some .dataM, false)
  match op with
  | .rdShared =>
    (match e.owner with
     | some o => ([(.snpShared, o)], none, false)
     | none   => ([], some (if e.sharers = [] then .dataE else .dataS), false))
  | .rdUnique => unique
  | .upgrade  =>
    if e.owner = some rq ∨ e.sharers.contains rq then (own.map (fun a => (CMsgOp.snpInv, a)) ++ inv, none, true) else unique
  | .claim    => (e.owner.toList.map (fun a => (CMsgOp.snpInv, a)) ++ inv, none, true)
  | .rdOnce   =>
    (match e.owner with
     | some o => ([(.snpOnce, o)], none, false)
     | none   => ([], some .dataOnce, false))
  | .wbDirty | .evictClean => ([], none, true)
  | .cmoClean => (e.owner.toList.map (fun a => (CMsgOp.snpClean, a)), none, true)
  | .cmoFlush => ((e.owner.toList ++ e.sharers).map (fun a => (CMsgOp.snpFlush, a)), none, true)
  | .backInv  => ((e.owner.toList ++ e.sharers).map (fun a => (CMsgOp.snpFlush, a)), none, false)
  | .leaseFlush => ((own ++ others).map (fun a => (CMsgOp.snpFlush, a)), none, false)

/-- A write-back accepted: an owner's data goes to the L3 (from an L2) or to memory; another's is discarded and counted. -/
def State.homeWb (s : State) (line : Nat) (q : CReq) : State :=
  if (s.dirEnt line).owner = some q.agent then
    if (scDie q.agent).isNone then s.l3Fill line true q.data q.poison false
    else (s.delLine l3Key line).cPush { cmsg .hmemWr 0 line with data := q.data, poison := q.poison }
  else s.bump CCH_HOME_STAT CCH_HOME_STAT_STALE_WB

/-- The home opens the transaction of a request. -/
def State.homeOpen (s : State) (line : Nat) (q : CReq) : State :=
  let e := s.dirEnt line
  let p := homePlan q.op q.agent e
  let t : HTxn := { req := q, ack := !q.op.isGrant, wait := p.1.map (·.2), needComp := p.2.2, gone := [], gotO := false, gotS := false,
                    lost := (match e.owner with
                      | some o => p.1.any (fun x => x.2 == o) && s.agentGone o
                      | none   => false), failed := false }
  let s1 := p.1.foldl (fun (u : State) x => u.cSnoop x.1 x.2 line q.agent q.txid) (s.setTxn line t)
  let s2 : State := match p.2.1 with
    | some want => s1.cSupply line q.agent q.txid want
    | none      => s1
  let s3 := if q.op = .wbDirty then s2.homeWb line q else s2
  if (mfind s3.coh.dir line).isNone then s3 else s3.keepDir line { e with age := 0 }

/-- A request of the home itself: the eviction of a directory entry, the flush before a lease, a maintenance operation's. -/
def homeReq (op : CohOp) (ag : Nat) : CReq := { op := op, agent := ag, txid := 0, stream := false, data := 0, poison := false }

/-- The entries of a line's directory set that are in the array. -/
def State.dirSet (s : State) (line : Nat) : List (Nat × DirEnt) :=
  s.coh.dir.filter (fun p => decide (p.2.way < 16) && dirIdx p.1 == dirIdx line)

/-- A request whose line takes a directory entry where it has none. -/
def CohOp.enters : CohOp → Bool
  | .rdShared | .rdUnique | .upgrade | .claim => true
  | _ => false

/-- A request that must wait: its set is full, and a transaction is open on every line of it (R265, R272). -/
def State.dirBlocked (s : State) (line : Nat) (q : CReq) : Bool :=
  q.op.enters && (mfind s.coh.dir line).isNone &&
  (List.range 16).all (fun w => (s.dirSet line).any (fun p => p.2.way == w && s.busyLine p.1))

/-- An entry takes a free way of its set, or that of the oldest entry no transaction is open on, whose holders are flushed (R265,
R272). -/
def State.dirEnter (s : State) (line : Nat) (e : DirEnt) : State :=
  let ls := s.dirSet line
  let put (t : State) (w : Nat) : State := t.keepDir line { e with way := w, age := 1 }
  match (List.range 16).find? (fun w => !ls.any (fun p => p.2.way == w)) with
  | some w => put s w
  | none =>
    let ok := ls.filter (fun p => !s.busyLine p.1)
    let up := 3 - min 3 (oldest (ok.map (fun p => p.2.age)))
    match (List.range 16).findSome? (fun w => ok.find? (fun p => p.2.way == w && decide (3 ≤ p.2.age + up))) with
    | none => s
    | some v =>
      let s1 := ls.foldl (fun (u : State) p => u.keepDir p.1 { p.2 with age := min 3 (p.2.age + up) }) s
      ((put (s1.keepDir v.1 { v.2 with way := 16 }) v.2.way).homeOpen v.1 (homeReq .backInv 0x01)).bump CCH_HOME_STAT CCH_HOME_STAT_BACK_INV

/-- The home starts on a request, whose line takes its entry first. -/
def State.homeStart (s : State) (line : Nat) (q : CReq) : State :=
  (if q.op.enters ∧ mfind s.coh.dir line = none then s.dirEnter line DirEnt.reset else s).homeOpen line q

/-- The entry a transaction leaves (R278). -/
def HTxn.entry (t : HTxn) (e : DirEnt) : DirEnt :=
  let rq := t.req.agent
  let keep : DirEnt := { e with owner := e.owner.filter (fun o => !t.gone.contains o),
                                sharers := e.sharers.filter (fun a => !t.gone.contains a) }
  let with_ (l : List Nat) : List Nat := l.filter (· != rq) ++ [rq]
  let grant : DirEnt := { e with owner := some rq, inO := false, sharers := [] }
  let r : DirEnt := match t.req.op with
    | .rdShared =>
      (match keep.owner with
       | some o =>
         if t.gotS then { keep with owner := none, inO := false, sharers := with_ (keep.sharers ++ [o]) }
         else { keep with inO := true, sharers := with_ keep.sharers }
       | none =>
         if e.owner = none ∧ e.sharers = [] then grant else { keep with inO := false, sharers := with_ keep.sharers })
    | .rdUnique | .upgrade | .claim => grant
    | .rdOnce => keep
    | .wbDirty | .evictClean =>
      if e.owner = some rq then { e with owner := none, inO := false } else { e with sharers := e.sharers.filter (· != rq) }
    | .cmoClean =>
      (match keep.owner with
       | some o => if e.inO then { keep with owner := none, inO := false, sharers := keep.sharers ++ [o] } else keep
       | none   => keep)
    | .cmoFlush | .backInv => { e with owner := none, inO := false, sharers := [] }
    | .leaseFlush => { e with owner := e.owner.filter (· == rq), inO := e.inO && e.owner == some rq, sharers := e.sharers.filter (· == rq) }
  if t.failed && t.req.op.isGrant then
    { r with owner := (if e.owner = some rq then e.owner else r.owner.filter (· != rq)), sharers := r.sharers.filter (· != rq) }
  else r

/-- A transaction ends: the lost copy of an absent owner, COMP where it is due, the entry, and an absent requester's part in it
(R271, R286, R287). -/
def State.homeEnd (s : State) (line : Nat) (t : HTxn) : State :=
  let took : Bool := [CohOp.rdUnique, .upgrade, .claim].contains t.req.op && !t.failed
  let s1 := if t.lost && !took then s.standinPoison line else s
  let s2 := if t.needComp ∧ t.req.agent ≠ 0x01 then s1.cPush { cmsg .comp t.req.agent line with txid := t.req.txid } else s1
  let s3 := { s2 with coh := { s2.coh with txn := mdel s2.coh.txn line } }
  let s4 := s3.putDir line (t.entry (s3.dirEnt line))
  [0x10, 0x20].foldl (fun (u : State) ag => if u.agentGone ag then u.dirGone ag line else u) s4

/-- Messages that a transaction still needs: data for the home, or a memory write. -/
def State.dataDue (s : State) (line : Nat) : Bool :=
  s.coh.net.any (fun m => m.line == line && (m.op == .dataHome || m.op == .hmemWr))

/-- The requests after which memory is current and the L3 holds nothing newer. -/
def CohOp.cleansL3 : CohOp → Bool
  | .cmoClean | .cmoFlush | .leaseFlush => true
  | _ => false

/-- The next move of the home on a line, if there is one. -/
def State.homeMove (s : State) (line : Nat) : Option State :=
  match mfind s.coh.txn line with
  | some t =>
    if t.wait ≠ [] ∨ s.dataDue line then none
    else if t.req.op.cleansL3 && s.l3Dirty line then
      match s.cLine l3Key line with
      | some c => some ((s.setLine l3Key line { c with st := .S }).cPush { cmsg .hmemWr 0 line with data := c.data, poison := c.poison })
      | none   => none
    else if t.needComp && t.req.op.isGrant then
      some ((s.setTxn line { t with needComp := false }).cPush { cmsg .comp t.req.agent line with txid := t.req.txid })
    else if ¬ t.ack then none
    else some ((if t.req.op = .cmoFlush ∨ t.req.op = .leaseFlush then s.delLine l3Key line else s).homeEnd line t)
  | none =>
    match mget [] s.coh.queue line with
    | q :: r => if s.dirBlocked line q then none else some ((s.setQueue line r).homeStart line q)
    | []     => none

/-- The home moves on a line until it must wait; k bounds the moves. -/
def State.homeRun (s : State) (line : Nat) : Nat → State
  | 0 => s
  | k + 1 =>
    match s.homeMove line with
    | some s1 => s1.homeRun line k
    | none    => s

/-- The home moves on one line as far as it can. -/
def State.homeLine (s : State) (line : Nat) : State := s.homeRun line (4 * (mget [] s.coh.queue line).length + 8)

/-- The home moves on a line as far as it can, and on the lines that waited for a way of its directory set. -/
def State.homePump (s : State) (line : Nat) : State :=
  let s1 := s.homeLine line
  ((s1.coh.queue.map (·.1)).filter (fun l => l != line && dirIdx l == dirIdx line && !s1.busyLine l)).foldl
    (fun (t : State) l => t.homeLine l) s1

/-! ### Regions (R279 to R282) -/

/-- A line of the HBM range or the direct part (R279). -/
def leasable (line : Nat) : Bool := decide (line < 0xC000000000)

def State.leased (s : State) (line : Nat) : Bool := s.coh.leases.contains (regionOf line)

/-- The home asks for a lease back. -/
def State.recallStart (s : State) (r : Nat) : State :=
  if s.coh.leases.contains r ∧ ¬ s.coh.recalls.contains r then
    { s with coh := { s.coh with recalls := s.coh.recalls ++ [r] } }.cPush (cmsg .leaseRecall (0x10 + 0x10 * s.leaseDie r) (r * 65536))
  else s

/-- Whether a C-die may ask for leases (R280). -/
def State.leaseEn (s : State) (d : Nat) : Bool := s.flag CCH_LEASE_CFG (if d = 0 then CCH_LEASE_CFG_EN0 else CCH_LEASE_CFG_EN1)

/-- With EN written 0, the leases of a die are recalled one after another (R282). -/
def State.recallNext (s : State) (d : Nat) : State :=
  if s.leaseEn d then s else
  match s.coh.leases.filter (fun r => s.leaseDie r == d) with
  | []     => s
  | r :: l => if (r :: l).any (fun x => s.coh.recalls.contains x) then s else s.recallStart r

/-- A request reaches the home: it waits behind a region's lease or lease request, and otherwise in its line's queue (R271,
R280, R282). -/
def State.homeAccept (s : State) (line : Nat) (q : CReq) : State :=
  let r := regionOf line
  if leasable line && (s.leased line || (mfind s.coh.rtxn r).isSome) then
    { s with coh := { s.coh with rqueue := mput s.coh.rqueue r (mget [] s.coh.rqueue r ++ [(line, q)]) } }.recallStart r
  else (s.setQueue line (mget [] s.coh.queue line ++ [q])).homePump line

/-- The requests that waited for a region are taken in order. -/
def State.regionFree (s : State) (r : Nat) : State :=
  let qs := mget [] s.coh.rqueue r
  qs.foldl (fun (u : State) x => u.homeAccept x.1 x.2) { s with coh := { s.coh with rqueue := mdel s.coh.rqueue r } }

/-- The slice of a line holds 256 waiting requests, those that wait for a region among them, and takes no more (R271). -/
def State.sliceFull (s : State) (line : Nat) : Bool :=
  let mine (l : Nat) : Bool := homeSlice l == homeSlice line
  decide (256 ≤ ((s.coh.queue.filter (fun p => mine p.1)).map (fun p => p.2.length)).sum +
    (s.coh.rqueue.map (fun p => (p.2.filter (fun x => mine x.1)).length)).sum)

/-! ### The agents' local events (R276, R281) -/

/-- A request of an agent to the home, which opens a transaction (R18). -/
def State.cReq (s : State) (op : CohOp) (ag line : Nat) (stream : Bool := false) (data : Line := 0) (poison : Bool := false) : State :=
  let x := s.newTxid ag
  (s.txOpen ag line x (op == .cmoClean || op == .cmoFlush)).homeAccept line
    { op := op, agent := ag, txid := x, stream := stream, data := data, poison := poison }

/-- A line whose eviction needs no request: one of a region that a system cache leases (R281). -/
def State.leasedTo (s : State) (ag line : Nat) : Bool := (scDie ag).any (fun d => leasable line && s.leased line && s.leaseDie (regionOf line) == d)

/-- A line that an L2 evicts leaves both L1 caches in it, and its reservation ends (R261, R334). -/
def State.l1Evict (s : State) (ag line : Nat) : State :=
  match mfind s.cores (ag - 0x80) with
  | some x =>
    if 0x80 ≤ ag ∧ ag < l3Key then
      let a := s.node * 2 ^ 43 + line
      s.setCore (ag - 0x80) { x with l1d := mdel x.l1d line, l1i := mdel x.l1i a, resv := x.resv.filter (fun r => r.line != a) }
    else s
  | none => s

/-- An agent evicts a stable line: WB_DIRTY or EVICT_CLEAN, or, for a region it leases, straight to its HBM; a full slice makes it
wait. -/
def State.cEvict (s : State) (ag line : Nat) : State :=
  match s.cLine ag line with
  | none => s
  | some c =>
    if s.leasedTo ag line then (if c.st.dirty then s.memPast line c.data c.poison else s).delLine ag line
    else if s.sliceFull line then s
    else
      let s1 := s.l1Evict ag line
      if c.st = .M ∨ c.st = .O then (s1.setLine ag line { c with st := .MI_A, way := 16 }).cReq .wbDirty ag line false c.data c.poison
      else (s1.setLine ag line { c with st := .EI_A, way := 16 }).cReq .evictClean ag line

/-- A line given a way and entered; the way's line is evicted.  None where every way is in a transient state, or the victim's
eviction must wait. -/
def State.cPlace (s : State) (ag line : Nat) (stream : Bool) (c : CLine) : Option State :=
  match s.cWay ag line with
  | none => none
  | some (s1, w, none)   => some (s1.cEnter ag line w stream c)
  | some (s1, w, some x) => if s1.sliceFull x ∧ ¬ s1.leasedTo ag x then none else some ((s1.cEvict ag x).cEnter ag line w stream c)

/-- A line that has become stable in a way which no longer caches leaves it (R263). -/
def State.cRest (s : State) (ag line : Nat) : State :=
  match scDie ag, s.cLine ag line with
  | some d, some c => if c.st.stable && decide (c.way < 16) && !s.wayOn d c.way then s.cEvict ag line else s
  | _, _ => s

/-- The user's read is answered. -/
def State.cAnswer (s : State) (data : Line) (poison : Bool) : State := { s with answer := .data (leBytes 64 data.toNat) poison }

/-- Bytes written into a line the agent holds in M. -/
def CLine.write (c : CLine) (mask : Nat) (data : Line) : CLine :=
  { c with st := .M, data := mergeLine c.data data mask, poison := c.poison && mask != 2 ^ 64 - 1, pend := none }

/-- The mask and data of a write access. -/
def accBytes : LineAccess → Option (Nat × Line)
  | .write m d => some (m.toNat, d)
  | .claim d   => some (2 ^ 64 - 1, d)
  | _          => none

/-- The line request of an access that misses (R273, R276): the transient state, then the message; a full slice, or a full set whose
ways are all in transient states, makes it wait. -/
def State.cSend (s : State) (ag line : Nat) (acc : LineAccess) : State :=
  if s.sliceFull line then s else
  match acc with
  | .once => (s.setLine ag line { CLine.reset with st := .I_ONCE, way := 16 }).cReq .rdOnce ag line
  | .read st =>
    (match s.cPlace ag line st { CLine.reset with st := .IS_D } with
     | some s1 => s1.cReq .rdShared ag line (s.streams st)
     | none    => s)
  | .write m d =>
    (match s.cPlace ag line false { CLine.reset with st := .IM_D, pend := some (m.toNat, d) } with
     | some s1 => s1.cReq .rdUnique ag line
     | none    => s)
  | .claim d =>
    (match s.cPlace ag line false { CLine.reset with st := .IM_D, pend := some (2 ^ 64 - 1, d) } with
     | some s1 => s1.cReq .claim ag line
     | none    => s)

/-- A miss on a line of a leased region, served from the die's own HBM (R281). -/
def State.leaseServe (s0 : State) (ag line : Nat) (acc : LineAccess) : State :=
  let x := match acc with
    | .claim _ => (s0, (0 : Line), false)
    | _        => s0.lineRead line .clean
  let s := x.1
  let d := x.2.1
  let p := x.2.2
  match acc with
  | .once => s.cAnswer d p
  | .read st => ((s.cPlace ag line st { CLine.reset with st := .E, data := d, poison := p }).getD s).cAnswer d p
  | .write m x => (s.cPlace ag line false ({ CLine.reset with data := d, poison := p }.write m.toNat x)).getD s
  | .claim x   => (s.cPlace ag line false ({ CLine.reset with data := x, st := .M })).getD s

/-- An access that finds its line valid in the agent: a read hits; a write makes E into M, upgrades S or O, or, under a lease,
takes M at once. -/
def State.cOwn (s : State) (ag line : Nat) (c : CLine) (acc : LineAccess) : State :=
  match accBytes acc with
  | none => (s.cHit ag line).cAnswer c.data c.poison
  | some (m, d) =>
    if c.st = .M ∨ c.st = .E ∨ s.leasedTo ag line then (s.setLine ag line (c.write m d)).cHit ag line
    else if s.sliceFull line then s
    else (s.setLine ag line { c with st := if c.st = .S then .SM_D else .OM_D, pend := some (m, d) }).cReq .upgrade ag line

/-- A line that a C-die may still use while the home is absent to it: one it holds in M or E, or one of a region it leases; a read of
any line it holds (R290). -/
def State.islandHas (s : State) (d line : Nat) (write : Bool) : Bool :=
  (leasable line && s.coh.isLease.contains (regionOf line) && s.leaseDie (regionOf line) == d) ||
  (match mfind (mget [] s.coh.island d) line with
   | some c => !write || c.st == .M || c.st == .E
   | none   => false)

/-- Such a line as its die sees it, and one written. -/
def State.islandGet (s : State) (d line : Nat) : Line × Bool :=
  match mfind (mget [] s.coh.island d) line with
  | some c => (c.data, c.poison)
  | none   => (s.memLineOf line, s.memLinePois line)

def State.islandPut (s : State) (d line m : Nat) (x : Line) : State :=
  match mfind (mget [] s.coh.island d) line with
  | some c => { s with coh := { s.coh with island := mset [] s.coh.island d (mput (mget [] s.coh.island d) line (c.write m x)) } }
  | none   => s.memLine line (mergeLine (s.memLineOf line) x m) (s.memLinePois line && m != 2 ^ 64 - 1)

/-- An access of a C-die to the home that is absent to it: hits and leased regions are served, everything else answers ABSENT
(R290). -/
def State.islandServe (s : State) (d line : Nat) (acc : LineAccess) : State :=
  if ¬ s.islandHas d line (accBytes acc).isSome then { s with answer := .absent } else
  match accBytes acc with
  | none => let x := s.islandGet d line; s.cAnswer x.1 x.2
  | some (m, x) => { s.islandPut d line m x with answer := .done }

/-- An access of an agent's user to a line.  While the line is in a transient state it waits.  A system cache's miss on its own HBM
asks for a lease in place of the line where it may (R280), and its requests wait during a recall (R282). -/
def State.cAccess (s : State) (ag line : Nat) (acc : LineAccess) : State :=
  let r := regionOf line
  let own : Option Nat := (scDie ag).filter (fun d => leasable line && s.leaseDie r == d)
  if s.closedMem line then { s with answer := .error } else
  match scDie ag with
  | some d => if s.agentGone ag then s.islandServe d line acc else
    if own.isSome && s.coh.recalls.contains r then s else
    (match s.cLine ag line with
     | some c => if c.st.stable then s.cOwn ag line c acc else s
     | none =>
       if own.isSome && s.leased line then s.leaseServe ag line acc
       else if own.isSome && s.flag CCH_LEASE_CFG (if d = 0 then CCH_LEASE_CFG_EN0 else CCH_LEASE_CFG_EN1) then
         if (mfind s.coh.lwait r).isSome then s else
         let s1 := { s with coh := { s.coh with lwait := mput s.coh.lwait r (line, acc) } }
         if s.coh.holdoff.contains r then (s1.cPush (cmsg .leaseDeny ag (r * 65536))).bump (CCH_LEASE_STAT d) CCH_LEASE_STAT_HOLDOFF
         else { s1 with coh := { s1.coh with rtxn := mput s1.coh.rtxn r (d, false) } }
       else s.cSend ag line acc)
  | none =>
    match s.cLine ag line with
    | some c => if c.st.stable then s.cOwn ag line c acc else s
    | none   => s.cSend ag line acc

/-! ### One cache's lines cleaned (R263, R284) -/

/-- An agent leaves a line's directory entry, or, having cleaned it, stays as a sharer. -/
def State.dirLeave (s : State) (ag line : Nat) : State :=
  let e := s.dirEnt line
  s.putDir line (if e.owner = some ag then { e with owner := none, inO := false } else { e with sharers := e.sharers.filter (· != ag) })

def State.dirShare (s : State) (ag line : Nat) : State :=
  let e := s.dirEnt line
  if e.owner = some ag ∧ e.inO then s.putDir line { e with owner := none, inO := false, sharers := e.sharers ++ [ag] } else s

/-- A stable line of an agent written back where it is dirty and, with keep, left clean: E from M, S from O. -/
def State.cClean (s : State) (ag line : Nat) (keep : Bool) : State :=
  match s.cLine ag line with
  | none => s
  | some c =>
    let s1 := if ¬ c.st.dirty then s else if ag = l3Key then s.memLine line c.data c.poison else s.memPast line c.data c.poison
    if keep then
      if ¬ c.st.dirty then s1
      else if ag = l3Key ∨ c.st = .O then (s1.setLine ag line { c with st := .S }).dirShare ag line
      else s1.setLine ag line { c with st := .E }
    else if ag = l3Key then s1.delLine ag line
    else (s1.delLine ag line).dirLeave ag line

/-- Lines a system cache holds in ways that no longer cache are cleaned and invalidated, and the way counts brought up to date
(R263). -/
def State.scTrim (s : State) (d : Nat) : State :=
  let ag := 0x10 + 0x10 * d
  let out := (s.cLines ag).filter (fun p => decide (p.2.way < 16) && !s.wayOn d p.2.way && p.2.st.stable)
  (out.foldl (fun (t : State) p => t.cClean ag p.1 false) s).refreshWays d

/-- A way disabled as a soft repair, where at least 2 caching ways remain: the state and whether it was (R502, R503). -/
def State.wayOff (s : State) (d w : Nat) : State × Bool :=
  if ¬ s.wayOn d w then (s, true)
  else if s.rd (CCH_SC_CARVE d) CCH_SC_CARVE_CACHE_WAYS ≤ 2 then (s, false) else
  let m := s.rd TST_REPAIR_STAT (waysOff d)
  (((s.wr TST_REPAIR_STAT (waysOff d) (m ||| 2 ^ w)).scTrim d).event 0x41 0 2 w 1, true)

/-! ### What a cache's protection finds (R269, R270, R443, R502) -/

/-- The index of a cache in CCH_ERRc: the L3, the system caches. -/
def errIdx (ag : Nat) : Option Nat := if ag = l3Key then some 0 else (scDie ag).map (· + 1)

/-- An uncorrectable error in a way of a system cache: the second within 24 hours disables the way (R502). -/
def State.wayErr (s : State) (d w line : Nat) : State :=
  let k := 16 * d + w
  let s1 := { s with yar := { s.yar with wayErrs := mput s.yar.wayErrs k s.life } }
  match mfind s.yar.wayErrs k with
  | some l => if s.life - l ≤ 86400 * 32768 then ((s1.wayOff d w).1.event 0x11 4 (1 + d) w line) else s1
  | none   => s1

/-- What the arrays of an agent's cache find in a line it holds: counted, the line poisoned, dropped, or written back poisoned. -/
def State.cacheFind (s : State) (ag line : Nat) (f : CacheFinding) : State :=
  match s.cLine ag line with
  | none => s
  | some c =>
    if ¬ c.st.stable then s else
    let pois := s.setLine ag line { c with poison := true }
    let drop := if c.st.dirty then (if ag = l3Key then (s.memLine line c.data true).delLine ag line else pois.cEvict ag line)
                else s.delLine ag line
    match errIdx ag with
    | some i =>
      (match f with
       | .clean => s
       | .corrected => s.bump (CCH_ERR i) CCH_ERR_CORR
       | .uncorrectable =>
         let s1 := (pois.bump (CCH_ERR i) CCH_ERR_UNCORR).event 0x10 2 i (cacheSlice ag line) line
         if 1 ≤ i then s1.wayErr (i - 1) c.way line else s1
       | .tagParity => drop.bump (CCH_ERR i) (if c.st.dirty then CCH_ERR_TAG_DIRTY else CCH_ERR_TAG_CLEAN)
       | .bothTags =>
         if ¬ c.st.dirty then drop.bump (CCH_ERR i) CCH_ERR_TAG_CLEAN
         else if i = 0 then (pois.bump (CCH_ERR i) CCH_ERR_UNCORR).event 0x10 2 i (cacheSlice ag line) line
         else ((pois.bump (CCH_ERR i) CCH_ERR_UNCORR).wayOff (i - 1) c.way).1.event 0x11 4 i c.way line)
    | none =>
      let k := ag - 0x80
      let pa := s.node * 2 ^ 43 + line
      (match f with
       | .clean => s
       | .corrected => s.setCore k ((s.core k).corrected 3 pa)
       | .uncorrectable => pois.setCore k ((s.core k).uncorrected 3 pa)
       | .tagParity => drop.setCore k ((drop.core k).record 4 c.st.dirty pa)
       | .bothTags =>
         if c.st.dirty then (pois.setCore k ((s.core k).record 4 true pa)).coreOfflining k 3
         else drop.setCore k ((drop.core k).record 4 false pa))

/-- The line of this node's memory that a physical address names (R260). -/
def State.cohLine (s : State) (a : Nat) : Option Nat :=
  let line := alignDown (localOf a) 64
  if s.isMem (s.node * 2 ^ 43 + line) 64 && nodeOf a == s.node && decide (a < 2 ^ 56) then some line else none

/-- A command about a line: nothing happens for an address outside the coherent ranges. -/
def State.onLine (s : State) (a : Word) (f : Nat → State) : Host.Outcome State Fault Refusal :=
  .next (match s.cohLine a.toNat with
    | some line => f line
    | none      => s)

/-! ### Requests (REQ class) -/

/-- RD_SHARED: an allocating read; a hit sends nothing.  f is what the array that supplies the line finds: the agent's own on a hit,
else the L3's (R269). -/
def execRdShared (a : CohAgent) (addr : Word) (stream : Bool) (f : CacheFinding) (s : State) : Host.Outcome State Fault Refusal :=
  s.onLine addr (fun l =>
    let own := (s.cLine (agentId a) l).isSome
    (s.cacheFind (if own then agentId a else l3Key) l f).cAccess (agentId a) l (.read stream))

/-- RD_ONCE: a snapshot read. -/
def execRdOnce (a : CohAgent) (addr : Word) (s : State) : Host.Outcome State Fault Refusal :=
  s.onLine addr (fun l => s.cAccess (agentId a) l .once)

/-- RD_UNIQUE: a partial write or an atomic of a line not held in S or O, which leaves the bytes of a mask. -/
def execRdUnique (a : CohAgent) (addr : Word) (mask : Word) (data : Line) (s : State) : Host.Outcome State Fault Refusal :=
  s.onLine addr (fun l =>
    let st := s.cSt (agentId a) l
    if st = .S ∨ st = .O then s else s.cAccess (agentId a) l (.write mask data))

/-- UPGRADE: a write of a line held in S or O. -/
def execUpgrade (a : CohAgent) (addr : Word) (mask : Word) (data : Line) (s : State) : Host.Outcome State Fault Refusal :=
  s.onLine addr (fun l => if s.cSt (agentId a) l = .I then s else s.cAccess (agentId a) l (.write mask data))

/-- CLAIM: a whole-line write of a line not held in S or O. -/
def execClaim (a : CohAgent) (addr : Word) (data : Line) (s : State) : Host.Outcome State Fault Refusal :=
  s.onLine addr (fun l =>
    let st := s.cSt (agentId a) l
    if st = .S ∨ st = .O then s else s.cAccess (agentId a) l (.claim data))

/-- WB_DIRTY: the eviction of a line in M or O. -/
def execWbDirty (a : CohAgent) (addr : Word) (s : State) : Host.Outcome State Fault Refusal :=
  s.onLine addr (fun l =>
    let st := s.cSt (agentId a) l
    if (st = .M ∨ st = .O) ∧ ¬ s.agentGone (agentId a) then s.cEvict (agentId a) l else s)

/-- EVICT_CLEAN: the eviction of a line in E or S. -/
def execEvictClean (a : CohAgent) (addr : Word) (s : State) : Host.Outcome State Fault Refusal :=
  s.onLine addr (fun l =>
    let st := s.cSt (agentId a) l
    if (st = .E ∨ st = .S) ∧ ¬ s.agentGone (agentId a) then s.cEvict (agentId a) l else s)

/-- A maintenance request of an agent; one that cannot reach the home answers ABSENT. -/
def State.cmo (s : State) (ag line : Nat) (op : CohOp) : State :=
  if s.agentGone ag then { s with answer := .absent } else if s.sliceFull line then s else s.cReq op ag line

/-- CMO_CLEAN. -/
def execCmoClean (a : CohAgent) (addr : Word) (s : State) : Host.Outcome State Fault Refusal :=
  s.onLine addr (fun l => s.cmo (agentId a) l .cmoClean)

/-- CMO_FLUSH. -/
def execCmoFlush (a : CohAgent) (addr : Word) (s : State) : Host.Outcome State Fault Refusal :=
  s.onLine addr (fun l => s.cmo (agentId a) l .cmoFlush)

/-! ### Snoops -/

/-- What a cache answers to a snoop (R276): its next state, the data it forwards or sends home, and its response.  None where R276
has no row. -/
def snoopRow (st : CSt) (op : CMsgOp) : Option (CSt × Option CMsgOp × CMsgOp) :=
  match st, op with
  | .M, .snpShared => some (.O, some .dataS, .rspO)
  | .E, .snpShared => some (.S, some .dataS, .rspS)
  | .O, .snpShared => some (.O, some .dataS, .rspO)
  | .M, .snpUnique | .O, .snpUnique | .E, .snpUnique => some (.I, some .dataM, .rspI)
  | .M, .snpInv | .O, .snpInv | .E, .snpInv | .S, .snpInv => some (.I, none, .rspI)
  | .M, .snpOnce => some (.M, some .dataOnce, .rspKeep)
  | .O, .snpOnce => some (.O, some .dataOnce, .rspKeep)
  | .E, .snpOnce => some (.E, some .dataOnce, .rspKeep)
  | .M, .snpClean => some (.E, some .dataHome, .rspKeep)
  | .O, .snpClean => some (.S, some .dataHome, .rspS)
  | .E, .snpClean => some (.E, none, .rspKeep)
  | .S, .snpClean => some (.S, none, .rspKeep)
  | .M, .snpFlush | .O, .snpFlush => some (.I, some .dataHome, .rspI)
  | .E, .snpFlush | .S, .snpFlush => some (.I, none, .rspI)
  | .SM_D, .snpInv | .SM_D, .snpFlush => some (.IM_D, none, .rspI)
  | .OM_D, .snpShared => some (.OM_D, some .dataS, .rspO)
  | .OM_D, .snpOnce   => some (.OM_D, some .dataOnce, .rspKeep)
  | .OM_D, .snpUnique => some (.IM_D, some .dataM, .rspI)
  | .OM_D, .snpInv    => some (.IM_D, none, .rspI)
  | .OM_D, .snpClean  => some (.SM_D, some .dataHome, .rspS)
  | .OM_D, .snpFlush  => some (.IM_D, some .dataHome, .rspI)
  | .MI_A, .snpShared => some (.MI_A, some .dataS, .rspO)
  | .MI_A, .snpOnce   => some (.MI_A, some .dataOnce, .rspKeep)
  | .MI_A, .snpUnique => some (.II_A, some .dataM, .rspI)
  | .MI_A, .snpInv    => some (.II_A, none, .rspI)
  | .MI_A, .snpClean  => some (.EI_A, some .dataHome, .rspS)
  | .MI_A, .snpFlush  => some (.II_A, some .dataHome, .rspI)
  | .EI_A, .snpShared => some (.EI_A, some .dataS, .rspS)
  | .EI_A, .snpOnce   => some (.EI_A, some .dataOnce, .rspKeep)
  | .EI_A, .snpUnique => some (.II_A, some .dataM, .rspI)
  | .EI_A, .snpInv | .EI_A, .snpFlush => some (.II_A, none, .rspI)
  | .EI_A, .snpClean  => some (.EI_A, none, .rspKeep)
  | _, _ => none

/-- A snoop is answered by a cache (R276, R277). -/
def State.snooped (s : State) (m : CMsg) : State :=
  let ag := m.agent
  let found : Option (CLine × (CSt × Option CMsgOp × CMsgOp)) :=
    (s.cLine ag m.line).bind (fun c => (snoopRow c.st m.op).map (fun r => (c, r)))
  match found with
  | none => (s.bump CCH_HOME_STAT CCH_HOME_STAT_STRAY).cPush { cmsg .rspI ag m.line with txid := m.txid, stray := true }
  | some (c, st, dat, rsp) =>
    let s1 := if st = .I then s.delLine ag m.line else s.setLine ag m.line { c with st := st }
    let s2 : State := match dat with
      | none => s1
      | some .dataHome => s1.cData { cmsg .dataHome ag m.line with txid := m.txid, data := c.data, poison := c.poison }
      | some d => s1.cData { cmsg d m.rq m.line with src := if (scDie ag).isNone && (scDie m.rq).isSome then 0x01 else ag, txid := m.txid,
                                                     rq := ag, data := c.data, poison := c.poison }
    s2.cPush { cmsg rsp ag m.line with txid := m.txid }

/-- The core of an L2 holds back snoops of a line it has reserved; a snoop answered ends the reservation (R334). -/
def State.snoopHeld (s : State) (a : CohAgent) (line : Nat) : Bool :=
  match a with
  | .sc _ => false
  | .l2 c => (match (s.core c).resv with
    | some r => r.held && r.line == s.node * 2 ^ 43 + line
    | none   => false)

def State.resvLost (s : State) (a : CohAgent) (line : Nat) : State :=
  match a with
  | .sc _ => s
  | .l2 c => (match (s.core c).resv with
    | some r => if r.line = s.node * 2 ^ 43 + line then s.setCore c { s.core c with resv := none } else s
    | none   => s)

/-- A snoop of a kind reaches an agent: the one on its way for the line, if there is one; f is what the cache's arrays find. -/
def State.snoop (s : State) (op : CMsgOp) (a : CohAgent) (line : Nat) (f : CacheFinding) : State :=
  if s.snoopHeld a line then s else
  match s.cTake [op] (some (agentId a)) line with
  | some (m, s1) => ((s1.cacheFind (agentId a) line f).snooped m).resvLost a line
  | none => s

/-- SNP_SHARED. -/
def execSnpShared (a : CohAgent) (addr : Word) (f : CacheFinding) (s : State) : Host.Outcome State Fault Refusal :=
  s.onLine addr (fun l => s.snoop .snpShared a l f)

/-- SNP_UNIQUE. -/
def execSnpUnique (a : CohAgent) (addr : Word) (s : State) : Host.Outcome State Fault Refusal :=
  s.onLine addr (fun l => s.snoop .snpUnique a l .clean)

/-- SNP_INV. -/
def execSnpInv (a : CohAgent) (addr : Word) (s : State) : Host.Outcome State Fault Refusal :=
  s.onLine addr (fun l => s.snoop .snpInv a l .clean)

/-- SNP_ONCE. -/
def execSnpOnce (a : CohAgent) (addr : Word) (s : State) : Host.Outcome State Fault Refusal :=
  s.onLine addr (fun l => s.snoop .snpOnce a l .clean)

/-- SNP_CLEAN. -/
def execSnpClean (a : CohAgent) (addr : Word) (s : State) : Host.Outcome State Fault Refusal :=
  s.onLine addr (fun l => s.snoop .snpClean a l .clean)

/-- SNP_FLUSH. -/
def execSnpFlush (a : CohAgent) (addr : Word) (f : CacheFinding) (s : State) : Host.Outcome State Fault Refusal :=
  s.onLine addr (fun l => s.snoop .snpFlush a l f)

/-! ### Data and completions at the requester -/

/-- A grant arrived: COMP_ACK of an agent for a line, whose transaction is over for it. -/
def State.cAck (s : State) (ag line : Nat) : State :=
  let x := s.txOf ag line
  (s.txDone ag x).cPush { cmsg .compAck ag line with txid := x }

/-- The requester's transient state ends with a status instead of data: it holds nothing new, and the home learns it. -/
def State.cFail (s : State) (ag line : Nat) (r : Rsp) : State :=
  let s1 := { s with answer := r }
  match s.cLine ag line with
  | none => s1
  | some c =>
    let s2 : State := match c.st with
      | .OM_D => s1.setLine ag line { c with st := .O, pend := none }
      | .S | .E | .M | .O => s1
      | _ => s1.delLine ag line
    match mfind s2.coh.txn line with
    | some t =>
      if t.req.agent = ag ∧ t.req.op.isGrant then ((s2.setTxn line { t with failed := true }).cAck ag line).cRest ag line else s2
    | none => s2

/-- Data reaches a requester (R276).  A stand-in's answer for memory counts as ABSENT; its answer for a cache installs the line poisoned
(R286, R547). -/
def State.cGet (s : State) (op : CMsgOp) (ag line : Nat) : State :=
  match s.cTake [op] (some ag) line with
  | none => s
  | some (m, s1) =>
    match s1.cLine ag line with
    | none => s1
    | some c =>
      if m.standin && m.rq == 0 then s1.cFail ag line .absent else
      match op, c.st with
      | .dataS, .IS_D =>
        (((s1.setLine ag line { c with st := .S, data := m.data, poison := m.poison }).cAnswer m.data m.poison).cAck ag line).cRest ag line
      | .dataE, .IS_D =>
        (((s1.setLine ag line { c with st := .E, data := m.data, poison := m.poison }).cAnswer m.data m.poison).cAck ag line).cRest ag line
      | .dataOnce, .I_ONCE => ((s1.delLine ag line).cAnswer m.data m.poison).cAck ag line
      | .dataM, .IM_D =>
        let w := c.pend.getD (0, 0)
        ((s1.setLine ag line ({ c with data := m.data, poison := m.poison }.write w.1 w.2)).cAck ag line).cRest ag line
      | _, _ => s1

/-- DATA_S. -/
def execDataS (a : CohAgent) (addr : Word) (s : State) : Host.Outcome State Fault Refusal :=
  s.onLine addr (fun l => s.cGet .dataS (agentId a) l)

/-- DATA_E. -/
def execDataE (a : CohAgent) (addr : Word) (s : State) : Host.Outcome State Fault Refusal :=
  s.onLine addr (fun l => s.cGet .dataE (agentId a) l)

/-- DATA_M. -/
def execDataM (a : CohAgent) (addr : Word) (s : State) : Host.Outcome State Fault Refusal :=
  s.onLine addr (fun l => s.cGet .dataM (agentId a) l)

/-- DATA_ONCE. -/
def execDataOnce (a : CohAgent) (addr : Word) (s : State) : Host.Outcome State Fault Refusal :=
  s.onLine addr (fun l => s.cGet .dataOnce (agentId a) l)

/-- COMP reaches a requester: by its TXID it ends a maintenance request; else a grant gives M, an eviction ends, and a lease lets the
waiting access go on (R275, R276, R281). -/
def State.cComp (s : State) (ag line : Nat) : State :=
  match s.cTake [.comp, .leaseComp] (some ag) line with
  | none => s
  | some (m, s1) =>
    if m.op = .leaseComp then
      let r := regionOf line
      let s2 := s1.cPush { cmsg .leaseAck ag line with txid := m.txid }
      match mfind s1.coh.lwait r with
      | some (l, acc) => ({ s2 with coh := { s2.coh with lwait := mdel s2.coh.lwait r } }).cAccess ag l acc
      | none => s2
    else if s1.coh.outst.any (fun o => o.agent == ag && o.txid == m.txid && o.cmo) then { s1.txDone ag m.txid with answer := .done }
    else
      match s1.cLine ag line with
      | none => s1.txDone ag m.txid
      | some c =>
        let w := c.pend.getD (0, 0)
        match c.st with
        | .IM_D | .SM_D | .OM_D => ((s1.setLine ag line (c.write w.1 w.2)).cAck ag line).cRest ag line
        | .MI_A | .EI_A | .II_A => (s1.delLine ag line).txDone ag m.txid
        | _ => s1

/-- COMP. -/
def execComp (a : CohAgent) (addr : Word) (s : State) : Host.Outcome State Fault Refusal :=
  s.onLine addr (fun l => s.cComp (agentId a) l)

/-- A status response: the message of that kind on its way, or one from outside, ends the requester's access. -/
def State.cStatus (s : State) (op : CMsgOp) (ag line : Nat) (r : Rsp) : State :=
  ((s.cTake [op] (some ag) line).map (·.2)).getD s |>.cFail ag line r

/-- ERROR. -/
def execCohError (a : CohAgent) (addr : Word) (s : State) : Host.Outcome State Fault Refusal :=
  s.onLine addr (fun l => s.cStatus .error (agentId a) l .error)

/-- POISONED: the data was poisoned where the link carries no poison (R23). -/
def execCohPoisoned (a : CohAgent) (addr : Word) (s : State) : Host.Outcome State Fault Refusal :=
  s.onLine addr (fun l => s.cStatus .poisoned (agentId a) l (.data [] true))

/-- ABSENT: a stand-in's final answer (R26, R547). -/
def execCohAbsent (a : CohAgent) (addr : Word) (s : State) : Host.Outcome State Fault Refusal :=
  s.onLine addr (fun l => s.cStatus .absent (agentId a) l .absent)

/-- MALFORMED: the receiver dropped the request (R20). -/
def execCohMalformed (a : CohAgent) (addr : Word) (s : State) : Host.Outcome State Fault Refusal :=
  s.onLine addr (fun l => s.cStatus .malformed (agentId a) l .malformed)

/-! ### Responses at the home -/

/-- COMP_ACK reaches the home (R271); that of a lease ends the lease's transaction. -/
def State.homeAck (s : State) (ag line : Nat) : State :=
  match s.cTake [.compAck, .leaseAck] (some ag) line with
  | none => s
  | some (m, s1) =>
    if m.op = .leaseAck then
      let r := regionOf line
      let s2 := { s1 with coh := { s1.coh with rtxn := mdel s1.coh.rtxn r } }
      if mget [] s2.coh.rqueue r = [] then s2.recallNext (s.leaseDie r) else s2.recallStart r
    else
      match mfind s1.coh.txn line with
      | some t => if t.req.agent = ag then (s1.setTxn line { t with ack := true }).homePump line else s1
      | none   => s1

/-- COMP_ACK. -/
def execCompAck (a : CohAgent) (addr : Word) (s : State) : Host.Outcome State Fault Refusal :=
  s.onLine addr (fun l => s.homeAck (agentId a) l)

/-- A snoop response reaches the home.  An owner that held nothing has forwarded nothing, so the home supplies the data. -/
def State.homeRsp (s : State) (op : CMsgOp) (ag line : Nat) : State :=
  match s.cTake [op] (some ag) line with
  | none => s
  | some (m, s1) =>
    match mfind s1.coh.txn line with
    | none => s1
    | some t =>
      let t1 := { t with wait := t.wait.filter (· != ag), gone := if op = .rspI then t.gone ++ [ag] else t.gone,
                         gotO := t.gotO || op == .rspO, gotS := t.gotS || op == .rspS }
      let s2 := s1.setTxn line t1
      let fwd : Bool := m.stray && (s1.dirEnt line).owner == some ag &&
        (t.req.op == .rdShared || t.req.op == .rdUnique || t.req.op == .rdOnce || (t.req.op == .upgrade && !t.needComp))
      (if fwd then s2.cSupply line t.req.agent t.req.txid t.req.op.want else s2).homePump line

/-- RSP_I. -/
def execRspI (a : CohAgent) (addr : Word) (s : State) : Host.Outcome State Fault Refusal :=
  s.onLine addr (fun l => s.homeRsp .rspI (agentId a) l)

/-- RSP_S. -/
def execRspS (a : CohAgent) (addr : Word) (s : State) : Host.Outcome State Fault Refusal :=
  s.onLine addr (fun l => s.homeRsp .rspS (agentId a) l)

/-- RSP_O. -/
def execRspO (a : CohAgent) (addr : Word) (s : State) : Host.Outcome State Fault Refusal :=
  s.onLine addr (fun l => s.homeRsp .rspO (agentId a) l)

/-- RSP_KEEP. -/
def execRspKeep (a : CohAgent) (addr : Word) (s : State) : Host.Outcome State Fault Refusal :=
  s.onLine addr (fun l => s.homeRsp .rspKeep (agentId a) l)

/-- DATA_TO_HOME: the home has the owner's data written to memory; an older L3 copy is dropped. -/
def execDataToHome (a : CohAgent) (addr : Word) (s : State) : Host.Outcome State Fault Refusal :=
  s.onLine addr (fun l =>
    match s.cTake [.dataHome] (some (agentId a)) l with
    | some (m, s1) =>
      if m.want = .poisoned then ((s1.delLine l3Key l).setPois (alignDown (s1.tierKey l) 64) true).homePump l
      else (s1.delLine l3Key l).cPush { cmsg .hmemWr 0 l with data := m.data, poison := m.poison }
    | none => s)

/-! ### Memory targets -/

/-- What a DDR channel's code finds in a line of its own memory (R451, R452): counted; an uncorrectable line is stored with poison. -/
def State.ddrFind (s : State) (key : Nat) (f : CacheFinding) : State :=
  if key < 0x10000000000 ∨ 0x10000000000 + s.ddrSize ≤ key then s else
  match f with
  | .clean => s
  | .corrected => s.bump MGT_DDR_ERR MGT_DDR_ERR_CORR
  | _ =>
    let g := (key - 0x10000000000) / 4096
    let q := g / 3
    let ch := 4 * (g % 3) + (nbits q 1 0 ^^^ nbits q 3 2 ^^^ nbits q 5 4 ^^^ nbits q 7 6)
    (((s.setPois (alignDown key 64) true).bump MGT_DDR_ERR MGT_DDR_ERR_UNCORR).wr MGT_DDR_ERR MGT_DDR_ERR_LAST_CH ch).event 0x14 2 ch
      subNone (alignDown key 64)

/-- The oldest message of a kind about a line, wherever it is on its way. -/
def State.cPull (s : State) (op : CMsgOp) (line : Nat) : Option (CMsg × State) :=
  (takeFirst (fun (m : CMsg) => m.op == op && m.line == line) s.coh.net).map (fun x => (x.1, { s with coh := { s.coh with net := x.2 } }))

/-- A stand-in's answer to HMEM_RD for an absent memory target (R26, R547). -/
def State.hmemAbsent (s : State) (m : CMsg) : State :=
  s.cData { cmsg m.want m.agent m.line with src := standinId (s.dieAt m.line), txid := m.txid, poison := true, standin := true }

/-- HMEM_RD: the target sends the line to the requester, an error for one it cannot serve, or, absent, a stand-in's answer; the L3
keeps a line fetched for an L2; f is what a DDR channel finds, h what a stack brings (R26, R275, R278, R302, R322, R452). -/
def execHmemRd (addr : Word) (f : CacheFinding) (h : HbmFinding) (s : State) : Host.Outcome State Fault Refusal :=
  s.onLine addr (fun l =>
    if s.cut 2 l then
      (match s.cPull .hmemRd l with
       | some (m, s1) => if s1.agentGone m.agent then s1 else s1.hmemAbsent m
       | none => s)
    else match s.cTake [.hmemRd] none l with
    | none => s
    | some (m, s0) =>
      let k := s0.tierKey l
      let s1 := s0.ddrFind k f
      let out : CMsg := { cmsg m.want m.agent l with src := s1.memTarget l, txid := m.txid }
      if s1.agentGone m.agent then s1
      else match s1.hbmStop k with
      | some s2 => s2.cPush { out with op := .error }
      | none =>
        let x := s1.lineRead l h
        let s1 := x.1.tierRead l
        let d := x.2.1
        let p := x.2.2
        let stream : Bool := match mfind s1.coh.txn l with
          | some t => t.req.stream
          | none   => false
        let s2 := if (scDie m.agent).isNone then s1.l3Fill l false d p stream else s1
        s2.cData { out with data := d, poison := p })

/-- HMEM_WR: the target writes the line and answers COMP to the home; one that is absent or quiesced writes nothing. -/
def execHmemWr (addr : Word) (s : State) : Host.Outcome State Fault Refusal :=
  s.onLine addr (fun l =>
    if s.cut 2 l then ((s.cPull .hmemWr l).map (·.2)).getD s |>.homePump l
    else match s.cTake [.hmemWr] none l with
    | none => s
    | some (m, s1) =>
      let k := s1.tierKey l
      ((s1.hbmStop k).getD (s1.memLine l m.data m.poison)).homePump l)

/-! ### Leases -/

/-- LEASE_REQ: an access of a system cache to a line of its own HBM (R280). -/
def execLeaseReq (d : DieId) (addr : Word) (acc : LineAccess) (s : State) : Host.Outcome State Fault Refusal :=
  s.onLine addr (fun l => s.cAccess (agentId (.sc d)) l acc)

/-- Some line of a region is busy or has requests waiting. -/
def State.regionBusy (s : State) (r : Nat) : Bool :=
  s.coh.txn.any (fun p => regionOf p.1 == r) || s.coh.queue.any (fun p => regionOf p.1 == r)

/-- The lines of a region that agents other than one hold. -/
def State.regionHeld (s : State) (r ag : Nat) : List Nat :=
  (s.coh.dir.filter (fun p => regionOf p.1 == r && (p.2.owner.toList ++ p.2.sharers).any (· != ag))).map (·.1)

/-- L3 copies of a region's lines go to memory where they are newer, and leave. -/
def State.l3Region (s : State) (r : Nat) : State :=
  ((s.cLines l3Key).filter (fun p => regionOf p.1 == r)).foldl (fun (t : State) p =>
    (if p.2.st = .M then t.memLine p.1 p.2.data p.2.poison else t).delLine l3Key p.1) s

/-- LEASE_GRANT: once no line of the region is busy, other holders are flushed; once none is left, the lease is given (R280). -/
def execLeaseGrant (d : DieId) (addr : Word) (s : State) : Host.Outcome State Fault Refusal :=
  s.onLine addr (fun l =>
    let r := regionOf l
    let ag := agentId (.sc d)
    if mfind s.coh.rtxn r ≠ some (d.val, false) ∨ s.regionBusy r then s else
    match s.regionHeld r ag with
    | [] =>
      let s1 := s.l3Region r
      let s2 := { s1 with coh := { s1.coh with dir := s1.coh.dir.filter (fun p => regionOf p.1 != r), leases := s1.coh.leases ++ [r],
                                               rtxn := mput s1.coh.rtxn r (d.val, true) } }
      (s2.cPush (cmsg .leaseComp ag (r * 65536))).bump (CCH_LEASE_STAT d) CCH_LEASE_STAT_GRANT
    | ls => ls.foldl (fun (t : State) x => t.homeStart x (homeReq .leaseFlush ag)) s)

/-- LEASE_DENY: the system cache sends the line request (R280). -/
def execLeaseDeny (d : DieId) (addr : Word) (s : State) : Host.Outcome State Fault Refusal :=
  s.onLine addr (fun l =>
    let r := regionOf l
    match s.cTake [.leaseDeny] (some (agentId (.sc d))) (r * 65536) with
    | none => s
    | some (_, s1) =>
      match mfind s1.coh.lwait r with
      | some (x, acc) => ({ s1 with coh := { s1.coh with lwait := mdel s1.coh.lwait r } }).cSend (agentId (.sc d)) x acc
      | none => s1)

/-- LEASE_RECALL: the system cache writes back and invalidates the region and returns the lease (R282). -/
def execLeaseRecall (d : DieId) (addr : Word) (s : State) : Host.Outcome State Fault Refusal :=
  s.onLine addr (fun l =>
    let r := regionOf l
    let ag := agentId (.sc d)
    match s.cTake [.leaseRecall] (some ag) (r * 65536) with
    | none => s
    | some (_, s1) =>
      let s2 := ((s1.cLines ag).filter (fun p => regionOf p.1 == r)).foldl (fun (t : State) p =>
        (if p.2.st.dirty then t.memLine p.1 p.2.data p.2.poison else t).delLine ag p.1) s1
      s2.cPush (cmsg .leaseReturn ag (r * 65536)))

/-- LEASE_RETURN: the bit clears, the recall is counted, holdoff begins, and the waiting requests are served from HI (R282). -/
def execLeaseReturn (d : DieId) (addr : Word) (s : State) : Host.Outcome State Fault Refusal :=
  s.onLine addr (fun l =>
    let r := regionOf l
    match s.cTake [.leaseReturn] (some (agentId (.sc d))) (r * 65536) with
    | none => s
    | some (_, s1) =>
      let hold : Bool := decide (0 < s1.rd CCH_LEASE_CFG CCH_LEASE_CFG_HOLDOFF) && !s1.coh.holdoff.contains r
      let s2 := { s1 with coh := { s1.coh with leases := s1.coh.leases.filter (· != r), recalls := s1.coh.recalls.filter (· != r),
                                               holdoff := if hold then s1.coh.holdoff ++ [r] else s1.coh.holdoff } }
      ((s2.bump (CCH_LEASE_STAT d) CCH_LEASE_STAT_RECALL).regionFree r).recallNext d)

/-- LEASE_HOLDOFF_EXPIRE: new lease requests for the region may be granted (R282). -/
def execLeaseHoldoffExpire (addr : Word) (s : State) : Host.Outcome State Fault Refusal :=
  s.onLine addr (fun l => { s with coh := { s.coh with holdoff := s.coh.holdoff.filter (· != regionOf l) } })

/-- CCH_LEASE_CFG_WRITE: EN0, EN1 and HOLDOFF; a die whose EN is 0 returns its leases (R282). -/
def execCchLeaseCfgWrite (value : Word) (s : State) : Host.Outcome State Fault Refusal :=
  let s1 := ((s.wr CCH_LEASE_CFG CCH_LEASE_CFG_EN0 (fget value CCH_LEASE_CFG_EN0)).wr CCH_LEASE_CFG CCH_LEASE_CFG_EN1
    (fget value CCH_LEASE_CFG_EN1)).wr CCH_LEASE_CFG CCH_LEASE_CFG_HOLDOFF (fget value CCH_LEASE_CFG_HOLDOFF)
  .next ((s1.recallNext 0).recallNext 1)

/-! ### Maintenance (R283 to R285) -/

/-- The caching agents and the L3, the L3 last. -/
def allAgents : List Nat := (List.range 96).map (0x80 + ·) ++ [0x10, 0x20, l3Key]

/-- Every line any cache holds, each once. -/
def State.heldLines (s : State) : List Nat := (s.caches.flatMap (fun p => p.2.map (·.1))).eraseDups

/-- The lines a maintenance operation names in one cache (R284, R285): a range, entries by slice, set and way that are not carved, or
all. -/
def MntRun.names (m : MntRun) (node ag line way : Nat) (carved : Bool) : Bool :=
  let pa := node * 2 ^ 43 + line
  if m.mode = 0 then decide (fget m.lo CCH_MNT_LO_START * 64 ≤ pa) && decide (pa ≤ fget m.hi CCH_MNT_HI_END * 64 + 63)
  else if m.mode = 1 then
    let i := cacheIdx ag line * 16 + way
    let f := (fget m.lo CCH_MNT_LO_SLICE * 4096 + fget m.lo CCH_MNT_LO_SET) * 16 + fget m.lo CCH_MNT_LO_WAY
    decide (f ≤ i) && decide (i < f + fget m.hi CCH_MNT_HI_COUNT) && decide (way < 16) && !carved
  else true

/-- A way of an agent's cache is carved out (R263). -/
def State.carved (s : State) (ag way : Nat) : Bool := (scDie ag).any (fun d => decide (s.scWays d ≤ way))

/-- The agent a maintenance target names; none is the whole domain. -/
def mntAgent (target : Nat) : Option Nat :=
  if target = 1 then some l3Key else if target = 2 then some 0x10 else if target = 3 then some 0x20 else none

/-- Leased regions with a line in a range. -/
def State.mntLeases (s : State) (m : MntRun) : List Nat :=
  s.coh.leases.filter (fun r =>
    decide (fget m.lo CCH_MNT_LO_START * 64 < s.node * 2 ^ 43 + r * 65536 + 65536) &&
    decide (s.node * 2 ^ 43 + r * 65536 ≤ fget m.hi CCH_MNT_HI_END * 64 + 63))

/-- CMO_CLEAN or CMO_FLUSH for the lines of the domain that wait for their turn, as far as their slices take requests (R271, R283). -/
def State.mntIssue (s : State) (m : MntRun) : State :=
  let op : CohOp := if m.op = 0 then .cmoClean else .cmoFlush
  m.todo.foldl (fun (t : State) l =>
    if t.sliceFull l then t else
    let u := t.homeAccept l (homeReq op 0x01)
    match u.coh.mnt with
    | some x => { u with coh := { u.coh with mnt := some { x with todo := x.todo.filter (· != l) } } }
    | none   => u) s

/-- Maintenance requests of the register-driven operation that the home has not ended. -/
def State.mntOpen (s : State) : Bool :=
  let mine (q : CReq) : Bool := q.agent == 0x01 && (q.op == .cmoClean || q.op == .cmoFlush)
  s.coh.txn.any (fun p => mine p.2.req) || s.coh.queue.any (fun p => p.2.any mine) || s.coh.rqueue.any (fun p => p.2.any (fun x => mine x.2))

/-- CCH_MNT_GO: OP, MODE and TARGET are written; GO starts the operation unless one runs or the combination is invalid.  On the whole
domain the leases of the range are recalled and a request is sent for each of its lines that a cache holds (R283, R284). -/
def execCchMntGo (value : Word) (s : State) : Host.Outcome State Fault Refusal :=
  let op := fget value CCH_MNT_CTL_OP
  let mode := fget value CCH_MNT_CTL_MODE
  let target := fget value CCH_MNT_CTL_TARGET
  let s0 := (s.ack CCH_MNT_CTL CCH_MNT_CTL_DONE value).ack CCH_MNT_CTL CCH_MNT_CTL_ERR value
  if s.flag CCH_MNT_CTL CCH_MNT_CTL_BUSY then .next s0 else
  let s1 := ((s0.wr CCH_MNT_CTL CCH_MNT_CTL_OP op).wr CCH_MNT_CTL CCH_MNT_CTL_MODE mode).wr CCH_MNT_CTL CCH_MNT_CTL_TARGET target
  if op = 3 ∨ mode = 3 ∨ (target = 0 ∧ mode ≠ 0) then .next (s1.wr CCH_MNT_CTL CCH_MNT_CTL_ERR 1) else
  let m0 : MntRun := { op := op, mode := mode, target := target, lo := s.reg CCH_MNT_LO, hi := s.reg CCH_MNT_HI, todo := [] }
  let m := { m0 with todo := if target = 0 then s.heldLines.filter (fun l => m0.names s.node l3Key l 0 false) else [] }
  let s2 := { s1 with coh := { s1.coh with mnt := some m } }.wr CCH_MNT_CTL CCH_MNT_CTL_BUSY 1
  .next (if target = 0 then ((s2.mntLeases m).foldl (fun (t : State) r => t.recallStart r) s2).mntIssue m else s2)

/-- CCH_MNT_DONE: every line's turn has come; a line in a transient state, a transaction still open and a lease not yet returned make
it wait. -/
def execCchMntDone (s : State) : Host.Outcome State Fault Refusal :=
  match s.coh.mnt with
  | none => .next s
  | some m =>
    let fin (t : State) : State := ({ t with coh := { t.coh with mnt := none } }.wr CCH_MNT_CTL CCH_MNT_CTL_BUSY 0).wr CCH_MNT_CTL CCH_MNT_CTL_DONE 1
    match mntAgent m.target with
    | none =>
      if m.todo ≠ [] then .next (s.mntIssue m)
      else if s.mntLeases m ≠ [] then .next ((s.mntLeases m).foldl (fun (t : State) r => t.recallStart r) s)
      else if s.mntOpen then .next s
      else .next (fin s)
    | some ag =>
      let sel := ((s.cLines ag).filter (fun p => m.names s.node ag p.1 p.2.way (s.carved ag p.2.way))).map (·.1)
      if sel.any (fun l => !(s.cSt ag l).stable || s.busyLine l) then .next s
      else .next (fin (sel.foldl (fun (t : State) l => t.cClean ag l (m.op == 0)) s))

/-! ### Ways and policies -/

/-- CCH_REPL_LOCK: the policies are written, take effect and are locked; after that a change is refused (R268). -/
def execCchReplLock (value : Word) (s : State) : Host.Outcome State Fault Refusal :=
  let a := CCH_REPL
  let pol (x : Word) : Nat := bits x 3 0
  let s1 := s.ack a CCH_REPL_REFUSED value
  if s.flag a CCH_REPL_LOCK then .next (if pol value = pol (s.reg a) then s1 else s1.wr a CCH_REPL_REFUSED 1)
  else .next ((s1.setReg a (BitVec.ofNat 64 (nset (s1.reg a).toNat 3 0 (pol value)))).wr a CCH_REPL_LOCK 1)

/-- CCH_SC_CARVE_LOCK: the scratch ways are written, taken and locked (R263, R264). -/
def execCchScCarveLock (die : DieId) (value : Word) (s : State) : Host.Outcome State Fault Refusal :=
  let a := CCH_SC_CARVE die
  let sw := fget value CCH_SC_CARVE_SCRATCH_WAYS
  let s1 := s.ack a CCH_SC_CARVE_REFUSED value
  if s.flag a CCH_SC_CARVE_LOCK then .next (if sw = s.rd a CCH_SC_CARVE_SCRATCH_WAYS then s1 else s1.wr a CCH_SC_CARVE_REFUSED 1)
  else .next (((if sw ≤ 8 then s1.wr a CCH_SC_CARVE_SCRATCH_WAYS sw else s1).wr a CCH_SC_CARVE_LOCK 1).scTrim die)

/-! ### The remote-read buffers' invalidation (R293) -/

/-- CCH_RRB_INV_GO: GO is ignored while an invalidation runs. -/
def execCchRrbInvGo (byNode : Bool) (node : BitVec 13) (s : State) : Host.Outcome State Fault Refusal :=
  if s.flag CCH_RRB_INV CCH_RRB_INV_BUSY then .next s else
  let s1 := (s.wr CCH_RRB_INV CCH_RRB_INV_BY_NODE (b2n byNode)).wr CCH_RRB_INV CCH_RRB_INV_NODE node.toNat
  .next ({ s1 with coh := { s1.coh with rrbInv := if byNode then some node.toNat else none } }.wr CCH_RRB_INV CCH_RRB_INV_BUSY 1)

/-- CCH_RRB_INV_DONE: the lines are gone and BUSY clears; a FENCE that waited for it completes (R339). -/
def execCchRrbInvDone (s : State) : Host.Outcome State Fault Refusal :=
  if ¬ s.flag CCH_RRB_INV CCH_RRB_INV_BUSY then .next s else
  let s1 := (s.rrbClear s.coh.rrbInv).wr CCH_RRB_INV CCH_RRB_INV_BUSY 0
  .next ((s1.hif.rings.map (·.1)).foldl (fun (t : State) n => t.fenceCheck n) s1)

/-! ### An agent that leaves -/

/-- Every line of an agent flushed and forgotten: its core goes offline, or its die departs after a flush. -/
def State.agentFlush (s : State) (ag : Nat) : State :=
  (s.cLines ag).foldl (fun (t : State) p => if p.2.st.stable then t.cClean ag p.1 false else t) s

/-- A message of an agent that is gone.  Its stand-in answers snoops that it has not answered; beyond a lost link its own answers and
data are no longer heard either, and the stand-in's take their place (R286 to R288). -/
def State.goneMsg (s : State) (ag : Nat) (m : CMsg) : State :=
  let far := (scDie ag).isSome
  let snoop : Bool := [CMsgOp.snpShared, .snpUnique, .snpInv, .snpOnce, .snpClean, .snpFlush].contains m.op
  let hurt (t : State) : State := match mfind t.coh.txn m.line with
    | some x => if (t.dirEnt m.line).owner = some ag then t.setTxn m.line { x with lost := true } else t
    | none   => t
  if m.agent = ag then
    if snoop then (hurt s).cSnoop m.op ag m.line m.rq m.txid
    else if [CMsgOp.rspI, .rspS, .rspO, .rspKeep].contains m.op then
      if far then (hurt s).cPush { cmsg .rspI ag m.line with src := standinId (agentDie ag), txid := m.txid, standin := true } else s.cPush m
    else if m.op = .dataHome ∧ ¬ far then s.cPush m
    else s
  else if far ∧ m.src = ag ∧ m.op.code.1 = 3 then
    s.cPush { m with src := standinId (agentDie ag), data := 0, poison := true, standin := true }
  else s.cPush m

/-- An agent is gone: its snoops are answered for it, its grants end, and its entries go, with poison for what it owned (R286 to
R288, R458). -/
def State.agentLost (s : State) (ag : Nat) : State :=
  let s1 := { s with
    caches := mset [] s.caches ag [],
    cores := (if (mfind s.cores (ag - 0x80)).isSome ∧ 0x80 ≤ ag then
      mset YCore.reset s.cores (ag - 0x80) { mget YCore.reset s.cores (ag - 0x80) with l1d := [], l1dLru := [] } else s.cores),
    coh := { s.coh with net := [],
                        queue := (s.coh.queue.map (fun p => (p.1, p.2.filter (fun q => q.agent != ag)))).filter (fun p => p.2 != []) } }
  let s2 := s.coh.net.foldl (fun (t : State) m => t.goneMsg ag m) s1
  let s3 := (s2.coh.txn.filter (fun p => p.2.req.agent == ag)).foldl (fun (t : State) p =>
    match mfind t.coh.txn p.1 with
    | some x => (t.setTxn p.1 { x with ack := true, needComp := false }).homePump p.1
    | none   => t) s2
  (s3.coh.dir.map (·.1)).foldl (fun (t : State) l => if t.busyLine l then t else t.dirGone ag l) s3

/-- A line as its die goes on holding it: an upgrade that the home does not answer leaves the line as it was. -/
def CLine.islanded (c : CLine) : Option CLine :=
  match c.st with
  | .SM_D => some { c with st := .S, pend := none }
  | .OM_D => some { c with st := .O, pend := none }
  | .S | .E | .M | .O => some c
  | _ => none

/-- The link to C-die d has become ABSENT (R286 to R288): its system cache's lines stay with the die, and its leases are cleared. -/
def State.cohAbsent (s : State) (d : Nat) : State :=
  let ag := 0x10 + 0x10 * d
  let mine := s.coh.leases.filter (fun r => s.leaseDie r == d)
  let kept := (s.cLines ag).filterMap (fun p => p.2.islanded.map (fun c => (p.1, c)))
  let rtx := s.coh.rtxn.filter (fun p => p.2.1 == d)
  let s1 := { s with
    coh := { s.coh with island := mset [] s.coh.island d kept, isLease := s.coh.isLease ++ mine,
                        leases := s.coh.leases.filter (fun r => !mine.contains r), recalls := s.coh.recalls.filter (fun r => !mine.contains r),
                        rtxn := s.coh.rtxn.filter (fun p => p.2.1 != d),
                        lwait := s.coh.lwait.filter (fun p => s.leaseDie p.1 != d) } }
  (mine ++ rtx.map (·.1)).foldl (fun (t : State) r => t.regionFree r) (s1.agentLost ag)

/-- A transaction outstanding on an ABSENT link ends with its stand-in's answer: one of the link's system cache, which takes it as
ABSENT, or a read of the absent die's memory.  None where no such transaction is outstanding (R26, R287, R547). -/
def State.cEnd (s : State) (l ag txid : Nat) : Option State :=
  if scDie ag = some (l - 1) ∧ l ≠ 0 then
    if s.coh.outst.any (fun o => o.agent == ag && o.txid == txid) then some { s.txDone ag txid with answer := .absent } else none
  else match takeFirst (fun (m : CMsg) => m.op == .hmemRd && m.agent == ag && m.txid == txid && l != 0 && s.dieAt m.line == l - 1) s.coh.net with
  | some (m, net) => some ({ s with coh := { s.coh with net := net } }.hmemAbsent m)
  | none => none

/-- The link to C-die d is back: its system cache starts empty (R288). -/
def State.cohReturn (s : State) (d : Nat) : State :=
  { s with coh := { s.coh with island := mset [] s.coh.island d [], isLease := s.coh.isLease.filter (fun r => s.leaseDie r != d) } }

end Sys2Proof.Machine
end

