-- ==== Sys2Proof/Machine/Path.lean ====
section
/-!
DEFINITION. Reads and writes of a physical address by any requester of the package: through its own cache, where the address is memory of
this node and the requester has one, and else as the region answers (R233 to R244, R26, R41, R42, R225, R267, R273, R276, R280 to R282,
R290, R291, R322, R370, R396).

Where the spec leaves open or is read by inference, and what is taken from outside it (DESIGN CHOICE, DEDUCED, PRESUMED):
notes/assumptions/13.md, 22.md, 32.md, 35.md, 73.md, 86.md.
-/

namespace Sys2Proof.Machine

open Sys2Proof

/-! ### An access as its agent's cache takes it (R273, R276, R280 to R282) -/

/-- How a unit reads: with a streaming fill, with a normal one, or a snapshot that is not kept (R267, R273). -/
inductive RdKind where
  | stream | fill | once
  deriving DecidableEq, Repr

/-- Some line of a region is in a transient state in a cache. -/
def State.regionMoving (s : State) (r : Nat) : Bool :=
  s.caches.any (fun p => p.2.any (fun x => regionOf x.1 == r && !x.2.st.stable))

/-- A lease given with all that leads to it: the other holders of the region's lines are flushed (R280). -/
def State.leaseTake (s : State) (d r : Nat) : State :=
  let ag := 0x10 + 0x10 * d
  let out := (s.caches.filter (fun p => p.1 != ag && p.1 != l3Key)).flatMap (fun p => (p.2.filter (fun x => regionOf x.1 == r)).map (fun x => (p.1, x.1)))
  let s1 := (out.foldl (fun (t : State) x => t.cClean x.1 x.2 false) s).l3Region r
  { s1 with coh := { s1.coh with dir := s1.coh.dir.filter (fun p => regionOf p.1 != r), leases := s1.coh.leases ++ [r] } }.bump
    (CCH_LEASE_STAT d) CCH_LEASE_STAT_GRANT

/-- What a miss does about the lease of its region: another's is recalled; a system cache asks for that of its own HBM, and is refused
during holdoff (R280, R282).  While something of the region is under way the line request alone goes out. -/
def State.flowRegion (s : State) (ag line : Nat) : State :=
  let r := regionOf line
  if ¬ leasable line then s
  else if scDie ag ≠ some (s.leaseDie r) then s.leaseBack r
  else if s.leased line ∨ ¬ s.leaseEn (s.leaseDie r) ∨ (mfind s.coh.rtxn r).isSome ∨ s.regionBusy r ∨ s.regionMoving r then s
  else if s.coh.holdoff.contains r then s.bump (CCH_LEASE_STAT (s.leaseDie r)) CCH_LEASE_STAT_HOLDOFF
  else s.leaseTake (s.leaseDie r) r

/-- No cache holds a line: memory serves it. -/
def State.uncached (s : State) (line : Nat) : Bool := s.caches.all (fun p => (mfind p.2 line).isNone)

/-- A line read from memory for a unit's access, as the tier unit and the stack's codes see it (R243, R302). -/
def State.fetchLine (s : State) (line : Nat) : State :=
  let s1 := s.tierRead line
  let k := s1.tierKey line
  if (s1.hbmTrouble || s1.linePois k) && decide (k < 0xC000000000) then (s1.lineFetch k .clean).1 else s1

/-- Reads of those of k lines that memory serves. -/
def State.fetchLines (s : State) (line : Nat) : Nat → State
  | 0     => s
  | k + 1 => (if s.uncached line then s.fetchLine line else s).fetchLines (line + 64) k

/-- A line as the coherent path shows it, with its poison. -/
def State.lineView (s : State) (line : Nat) : Line × Bool :=
  (BitVec.ofNat 512 (leVal (s.cohRead line 64)), s.cohPoison line (s.tierKey line))

/-- A line of the domain that nothing is under way on. -/
def State.lineQuiet (s : State) (line : Nat) : Bool :=
  !s.busyLine line && (mget [] s.coh.queue line).isEmpty && s.caches.all (fun p => (mfind p.2 line).all (fun c => c.st.stable))

/-- A line taken into an agent's cache by RD_SHARED, once the whole transaction is over: the owner keeps it in O or S, the directory
has the new holder, the L3 a line fetched for an L2 (R276, R278).  Where no way or no directory entry can be had, nothing is kept. -/
def State.flowShare (s : State) (ag line : Nat) (stream : Bool) : State :=
  let q : CReq := { homeReq .rdShared ag with stream := s.streams stream }
  if ¬ s.lineQuiet line ∨ s.dirBlocked line q then s else
  let v := s.lineView line
  let e := s.dirEnt line
  let first : Bool := e.owner.isNone && e.sharers.isEmpty
  match s.cPlace ag line stream { CLine.reset with st := if first then .E else .S, data := v.1, poison := v.2 } with
  | none => s
  | some s1 =>
    let own : Option (Nat × CLine) := e.owner.bind (fun o => (s1.cLine o line).map (fun c => (o, c)))
    let toO : Bool := own.any (fun x => x.2.st == .M || x.2.st == .O)
    let s2 : State := match own with
      | some (o, c) => s1.setLine o line { c with st := if toO then .O else .S }
      | none => if (scDie ag).isNone ∧ s1.cLine l3Key line = none then s1.l3Fill line false v.1 v.2 stream else s1
    let t : HTxn := { req := q, ack := true, wait := [], needComp := false, gone := [], gotO := toO, gotS := own.isSome && !toO,
                      lost := false, failed := false }
    let s3 := if mfind s2.coh.dir line = none then s2.dirEnter line DirEnt.reset else s2
    s3.putDir line (t.entry (s3.dirEnt line))

/-- A read of a line by an agent's own user: a hit, or what the miss does. -/
def State.flowRead (s : State) (ag line : Nat) (k : RdKind) : State :=
  match s.cLine ag line with
  | some c => if c.st.stable then s.cHit ag line else s
  | none =>
    let s1 := s.flowRegion ag line
    let fill (st : Bool) : State :=
      if s1.leasedTo ag line then
        let v := s1.lineView line
        (s1.cPlace ag line st { CLine.reset with st := .E, data := v.1, poison := v.2 }).getD s1
      else s1.flowShare ag line st
    match k with
    | .once   => s1
    | .stream => fill true
    | .fill   => fill false

/-- Bytes of a line written by an agent's own user, in M in its cache: E and M at once, else by RD_UNIQUE, UPGRADE or CLAIM with all
that it ends elsewhere (R273, R276).  Where no way or no directory entry can be had, memory takes the bytes. -/
def State.flowWrite (s : State) (ag line m : Nat) (data : Line) (poison : Bool) (st : Bool := false) : State :=
  let put (c : CLine) : CLine := let x := c.write m data; { x with poison := x.poison || poison }
  let own : Option CLine := (s.cLine ag line).filter (fun c => c.st == .M || c.st == .E || (c.st.stable && s.leasedTo ag line))
  match own with
  | some c =>
    let s1 := (s.setLine ag line (put c)).cHit ag line
    { s1 with cores := dropResv s1.cores (s1.node * 2 ^ 43 + line) }
  | none =>
    let s0 := if s.uncached line ∧ m ≠ 2 ^ 64 - 1 then s.fetchLine line else s
    let s1 := (if (s0.cLine ag line).isSome then s0 else s0.flowRegion ag line).settle line
    let c := put { CLine.reset with data := s1.memLineOf line, poison := s1.memLinePois line }
    if s1.leasedTo ag line then (s1.cPlace ag line st c).getD (s1.memLine line c.data c.poison)
    else if s1.dirBlocked line (homeReq .rdUnique ag) then s1.memLine line c.data c.poison
    else match s1.cPlace ag line st c with
      | some s2 => (s2.dirEnter line DirEnt.reset).keepDir line { (s2.dirEnter line DirEnt.reset).dirEnt line with owner := some ag }
      | none    => s1.memLine line c.data c.poison

/-- Lines of an access from a line on, each read or written as its agent's cache takes it; k lines are left. -/
def State.flowReads (s : State) (ag line : Nat) (kind : RdKind) : Nat → State
  | 0     => s
  | k + 1 => (s.flowRead ag line kind).flowReads ag (line + 64) kind k

/-- The bytes of an access in their places in a line. -/
def lineData (line a : Nat) (bs : List Byte) : Line :=
  BitVec.ofNat 512 (leVal ((List.range 64).map (fun i => if a ≤ line + i then (bs[line + i - a]?).getD 0 else 0)))

def State.flowWrites (s : State) (ag line a : Nat) (bs : List Byte) (poison : Bool) (st : Bool := false) : Nat → State
  | 0     => s
  | k + 1 => (s.flowWrite ag line (lineMask line a bs.length) (lineData line a bs) poison st).flowWrites ag (line + 64) a bs poison st k

/-- Whether an agent holds a line so that its user is served without the home: valid for a read, M or E for a write; for a C-die whose
home is absent, what R290 leaves it. -/
def State.agHolds (s : State) (ag line : Nat) (write : Bool) : Bool :=
  match scDie ag with
  | some d => if s.agentGone ag then s.islandHas d line write
              else (s.cLine ag line).any (fun c => c.st.stable && (!write || c.st == .M || c.st == .E))
  | none => (s.cLine ag line).any (fun c => c.st.stable && (!write || c.st == .M || c.st == .E))

/-- Every one of k lines is held so. -/
def State.agHoldsAll (s : State) (ag line : Nat) (write : Bool) (k : Nat) : Bool := (List.range k).all (fun i => s.agHolds ag (line + 64 * i) write)

/-- Poison of a clean line that an agent's own cache has found uncorrectable (R269). -/
def State.ownPoison (s : State) (ag line k : Nat) : Bool :=
  (List.range k).any (fun i => (s.cLine ag (line + 64 * i)).any (fun c => c.st.stable && c.poison))

/-- Bytes of the lines that a C-die has kept, and those lines written (R290). -/
def State.islandBytes (s : State) (d line : Nat) : Nat → List Byte × Bool
  | 0     => ([], false)
  | k + 1 => let x := s.islandGet d line; let r := s.islandBytes d (line + 64) k; (leBytes 64 x.1.toNat ++ r.1, x.2 || r.2)

def State.islandPuts (s : State) (d line a : Nat) (bs : List Byte) : Nat → State
  | 0     => s
  | k + 1 => (s.islandPut d line (lineMask line a bs.length) (lineData line a bs)).islandPuts d (line + 64) a bs k

/-- The caching agent of a requester: the system cache of a C-die's units; on the H-die the one given, if any (R273). -/
def agentOf (src : Nat) (ag : Option Nat) : Option Nat := if src < 2 then some (0x10 + 0x10 * src) else ag

/-- n bytes of this node's memory read by a unit of a die. -/
def State.memRead (s : State) (src : Nat) (ag : Option Nat) (kind : RdKind) (k a n : Nat) : State × Rd :=
  let lines := lineCount a n
  let line := alignDown a 64
  let served : State × Rd := match agentOf src ag with
    | some g =>
      let p := s.anyPoison a lines || s.ownPoison g line lines
      (((s.poisonConv src (s.dieAt a) p).fetchLines line lines).flowReads g line kind lines, .ok (s.cohRead a n) p)
    | none => (((s.poisonConv src (s.dieAt a) (s.anyPoison a lines)).fetchLines line lines).leasesBack a n, .ok (s.cohRead a n) (s.anyPoison a lines))
  let held : Bool := (agentOf src ag).any (fun g => s.agHoldsAll g line false lines)
  if (agentOf src ag).any (fun g => s.agentGone g) ∧ src < 2 then
    if held then let x := s.islandBytes src line lines; (s, .ok (slice x.1 (a % 64) n) x.2) else (s, .absent)
  else if s.cut src a ∧ ¬ held then (s, .absent)
  else match s.hbmStop k with
  | some s1 => (s1, .error)
  | none    => served

/-- Bytes of this node's memory written by a unit of a die; lines of a failed pseudo-channel drop theirs (R311). -/
def State.memStoreBy (s : State) (src : Nat) (ag : Option Nat) (k a : Nat) (bs : List Byte) (poison : Bool) (st : Bool := false) : State × Wr :=
  let lines := lineCount a bs.length
  let line := alignDown a 64
  let held : Bool := (agentOf src ag).any (fun g => s.agHoldsAll g line true lines)
  if (agentOf src ag).any (fun g => s.agentGone g) ∧ src < 2 then
    if held then (s.islandPuts src line a bs lines, .ok) else (s, .absent)
  else if s.cut src a ∧ ¬ held then (s, .absent)
  else match s.hbmStop k with
  | some s1 => (s1, .error)
  | none =>
    match s.droppedLines a bs.length, agentOf src ag with
    | [], some g => (s.flowWrites g line a bs poison st lines, .ok)
    | [], none   => (s.memWrite a bs poison, .ok)
    | lost, _    => (lost.foldl (fun (t : State) l => t.bump (HBM_ECC2 (t.stackOf l)) HBM_ECC2_FAILED_WR) (s.memWrite a bs poison), .error)

/-! ### Reads -/

/-- A read of n bytes at a local address of this node from die src, by a caching agent of the H-die where one is given (R26, R235 to R244,
R322). -/
def State.localRead (s : State) (src a n : Nat) (kind : RdKind := .once) (ag : Option Nat := none) : State × Rd :=
  match s.region a with
  | .mem k =>
    if ¬ s.isMem (s.node * 2 ^ 43 + a) n ∨ s.closedMem a then (s, .error)
    else s.memRead src ag kind k a n
  | reg =>
  if s.cut src a then (s, .absent) else
  match reg with
  | .mem _ => (s, .error)
  | .aperture t o =>
    if s.tst t = tsRemap then (s.apertureRefuse t, .ok (List.replicate n 0) true)
    else if s.tst t = tsOffline ∨ ¬ s.tsRight t rtX o n then (s.apertureRefuse t, .error)
    else (s.poisonConv src (tileDie t) (s.tsPois t o n), .ok (s.tsBytes t o n) (s.tsPois t o n))
  | .scratch d o => (s, .ok (memBytes s.scratch (d * 2 ^ 26 + o) n) false)
  | .ledger d c bf16 =>
    if (if bf16 then n = 2 ∧ a % 2 = 0 else n = 4 ∧ a % 4 = 0) ∧ c < s.lcells d then
      let r := s.ledgerRead d c bf16
      (r.1, .ok (leBytes n r.2) false)
    else (s.bump (EPO_LEDGER_STAT d) EPO_LEDGER_STAT_REFUSED, .error)
  | .reg r =>
    if n = 8 ∧ a % 8 = 0 then
      (match s.regRead r with
       | (s1, some v) => (s1, .ok (leBytes 8 v.toNat) false)
       | (s1, none)   => (s1, .error))
    else (s, .error)
  | .imsicPage _ _ => (s, .error)
  | .doorbell r o => (s.doorbellAccess r o n false 0, .error)
  | .rootWin p =>
    if s.rpUp p then
      let r := s.freeRead n
      (r.1, .ok r.2 false)
    else (s, .error)
  | .unbacked => (s, .error)

/-- A read of n bytes of another node over the fabric, uncached: what comes back is free, its poison too; its
register and doorbell window answers an error (R234, R291, R491). -/
def State.remoteRead (s : State) (a n : Nat) : State × Rd :=
  if 0x7F000000000 ≤ localOf a then (s, .error) else
  match s.fgnReach (nodeOf a) with
  | (s1, true) =>
    let r := (s1.fgnRead a n).freeRead n
    let p := r.1.fresh
    (p.2, .ok r.2 (bitAt p.1 0))
  | (s1, false) => (s1, .error)

/-- A read of n bytes at an address from die src: of this node, of another node over the fabric, or on the host bus; what
lies outside the package is free (R233, R362, R396). -/
def State.busRead (s : State) (src : Nat) (host : Bool) (a n : Nat) (kind : RdKind := .fill) (ag : Option Nat := none) : State × Rd :=
  if host then
    if s.hostGone then (s, .absent)
    else let r := s.freeRead n; (r.1, .ok r.2 false)
  else if nodeOf a = s.node then s.localRead src (localOf a) n kind ag
  else s.remoteRead a n

/-! ### Remote lines (R291, R292) -/

/-- Lines read through a remote-read buffer, each from the buffer or fetched whole and entered; k lines are left. -/
def State.rrbLinesRead (s : State) (b line : Nat) : Nat → State × Rd
  | 0 => (s, .ok [] false)
  | k + 1 =>
    let one : State × Rd := match s.rrbFind b line with
      | some r => (s.rrbPut (b * 2 ^ 56 + line) { r with age := 0 }, .ok (leBytes 64 r.data.toNat) r.poison)
      | none =>
        match s.remoteRead line 64 with
        | (s1, .ok bs p) => (s1.rrbEnter b line (BitVec.ofNat 512 (leVal bs)) p, .ok bs p)
        | (s1, r) => (s1.bump TST_DROP TST_DROP_PREFETCH, r)
    match one with
    | (s1, .ok bs p) =>
      (match s1.rrbLinesRead b (line + 64) k with
       | (s2, .ok bs2 p2) => (s2, .ok (bs ++ bs2) (p || p2))
       | r => r)
    | r => r

/-- A read of n bytes of another node through a buffer in use, 0 the H-die's, 1 + die a C-die's. -/
def State.bufRead (s : State) (b a n : Nat) : State × Rd :=
  match s.rrbLinesRead b (alignDown a 64) (lineCount a n) with
  | (s1, .ok bs p) => (s1, .ok (slice bs (a % 64) n) p)
  | r => r

/-! ### Writes -/

/-- A write at a local address of this node from die src, by a caching agent of the H-die where one is given. -/
def State.localWrite (s : State) (src a : Nat) (bs : List Byte) (poison : Bool) (ag : Option Nat := none) (st : Bool := false) : State × Wr :=
  let n := bs.length
  match s.region a with
  | .mem k =>
    if ¬ s.isMem (s.node * 2 ^ 43 + a) n ∨ s.closedMem a then (s, .error)
    else s.memStoreBy src ag k a bs poison st
  | reg =>
  if s.cut src a then (s, .absent) else
  match reg with
  | .mem _ => (s, .error)
  | .aperture t o =>
    if s.tst t = tsRemap then (s.apertureRefuse t, .ok)
    else if s.tst t = tsOffline ∨ ¬ s.tsRight t rtX o n then (s.apertureRefuse t, .error)
    else (s.tsWrite t o bs poison, .ok)
  | .scratch d o => ({ s with scratch := memPut s.scratch (d * 2 ^ 26 + o) bs }, .ok)
  | .ledger d _ _ => (s.bump (EPO_LEDGER_STAT d) EPO_LEDGER_STAT_REFUSED, .error)
  | .reg r =>
    if n = 8 ∧ a % 8 = 0 then
      if s.regHeld r then (s.bump TST_SI_CNT TST_SI_CNT_REG, .error)
      else match s.regShut r with
      | some t => (s.apertureRefuse t, .error)
      | none   => ({ s with sent := s.sent ++ [{ addr := s.node * 2 ^ 43 + a, data := bs, poison := poison }] }, .ok)
    else (s, .error)
  | .imsicPage _ o => if n = 4 ∧ (o = 0 ∨ o = 4) then (s.message (s.node * 2 ^ 43 + a) (leVal bs), .ok) else (s, .error)
  | .doorbell r o => (s.doorbellAccess r o n true (BitVec.ofNat 64 (leVal bs)), if o = 0 ∧ n = 8 then .ok else .error)
  | .rootWin p =>
    if s.rpUp p then ({ s with sent := s.sent ++ [{ addr := s.node * 2 ^ 43 + a, data := bs, poison := poison }] }, .ok)
    else (s, .error)
  | .unbacked => (s, .error)

/-- A write at an address from die src (R234, R325, R396, R491). -/
def State.busWrite (s : State) (src : Nat) (host : Bool) (a : Nat) (bs : List Byte) (poison : Bool) (ag : Option Nat := none) (st : Bool := false) : State × Wr :=
  if host then
    let s1 := if poison then s.bump TST_DROP TST_DROP_PCIE_OUT_POISON else s
    (s1.hostWrite a bs, .ok)
  else if nodeOf a = s.node then s.localWrite src (localOf a) bs poison ag st
  else if 0x7F000000000 ≤ localOf a then (s, .error)
  else match s.fgnReach (nodeOf a) with
  | (s1, true) => (s1.fgnWrite a bs poison (lineCount a bs.length), .ok)
  | (s1, false) => (s1, .error)

/-! ### Translated accesses -/

/-- The answer to a translated read: as a read, or a fault, or still waiting for its translation. -/
inductive VRd where
  | ok (bs : List Byte) (poison : Bool)
  | error
  | absent
  | fault
  | miss
  deriving DecidableEq, Repr

/-- The answer to a translated write. -/
inductive VWr where
  | ok | error | absent | fault | miss
  deriving DecidableEq, Repr

/-- A translated read of at most one 4 KiB page, from the tile or engine of a C-die; buf: through the die's remote-read buffer
where the page is PMA and the buffer is in use (R291), as every read but that of a semaphore (R338). -/
def State.vread1 (s : State) (die pasid va n : Nat) (k : AccessKind) (buf : Bool) (rk : RdKind) : State × VRd :=
  match s.xlate die pasid va k with
  | .miss  => (s, .miss)
  | .fault => (s.takeFault die pasid va k, .fault)
  | .pa a host =>
    let r := if buf && !host && nodeOf a != s.node && s.pmaPage die pasid va k && s.rrbOn (1 + die) then s.bufRead (1 + die) a n
             else s.busRead die host a n rk
    match r with
    | (s1, .ok bs p) => (s1, .ok bs p)
    | (s1, .error)   => (s1, .error)
    | (s1, .absent)  => (s1, .absent)

/-- A translated read in pieces that each stay within a 4 KiB page; k bounds the pieces. -/
def State.vreadK (s : State) (die pasid va n : Nat) (kind : AccessKind) (buf : Bool) (rk : RdKind) : Nat → State × VRd
  | 0 => (s, .ok [] false)
  | k + 1 =>
    if n = 0 then (s, .ok [] false) else
    let m := min n (4096 - va % 4096)
    match s.vread1 die pasid va m kind buf rk with
    | (s1, .ok bs p) =>
      (match s1.vreadK die pasid (va + m) (n - m) kind buf rk k with
       | (s2, .ok bs2 p2) => (s2, .ok (bs ++ bs2) (p || p2))
       | r => r)
    | r => r

/-- A translated read of n bytes: an engine's, whose fills are streaming ones, or a semaphore's (R267, R338). -/
def State.vread (s : State) (die pasid va n : Nat) (kind : AccessKind := .read) (buf : Bool := true) : State × VRd :=
  s.vreadK die pasid va n kind buf (if buf then .stream else .once) (n / 4096 + 2)

/-- A translated write in pieces that each stay within a 4 KiB page. -/
def State.vwriteK (s : State) (die pasid va : Nat) (bs : List Byte) (poison : Bool) : Nat → State × VWr
  | 0 => (s, .ok)
  | k + 1 =>
    if bs = [] then (s, .ok) else
    let m := 4096 - va % 4096
    match s.xlate die pasid va .write with
    | .miss  => (s, .miss)
    | .fault => (s.takeFault die pasid va .write, .fault)
    | .pa a host =>
      match s.busWrite die host a (bs.take m) poison with
      | (s1, .ok)     => s1.vwriteK die pasid (va + m) (bs.drop m) poison k
      | (s1, .error)  => (s1, .error)
      | (s1, .absent) => (s1, .absent)

/-- A translated write. -/
def State.vwrite (s : State) (die pasid va : Nat) (bs : List Byte) (poison : Bool) : State × VWr :=
  s.vwriteK die pasid va bs poison (bs.length / 4096 + 2)

/-- A translation for every page of n bytes is at hand or has failed, so that no piece of the access waits. -/
def State.xready (s : State) (die pasid va n : Nat) (k : AccessKind) : Bool :=
  (List.range ((va % 4096 + n + 4095) / 4096)).all (fun i => s.xlate die pasid (alignDown va 4096 + 4096 * i) k != .miss)

/-! The L1 of a tile (R151, R152). -/

def State.l1Line (s : State) (n line : Nat) : Option L1Line := mfind (s.tile n).l1 line
def State.setL1 (s : State) (n line : Nat) (x : L1Line) : State :=
  s.setTile n { s.tile n with l1 := mput (s.tile n).l1 line x }

/-- The runs of ones of a 64-bit mask: first bit and length, highest first. -/
def maskRuns (mask : Nat) : List (Nat × Nat) :=
  (List.range 64).foldl (fun (r : List (Nat × Nat)) i =>
    if nbits mask i i = 0 then r else
    match r with
    | (b, c) :: q => if b + c = i then (b, c + 1) :: q else (i, 1) :: r
    | []          => [(i, 1)]) []

/-- A line's dirty bytes written back; the line stays, clean (R152). -/
def State.l1Flush (s : State) (n line : Nat) : State :=
  match s.l1Line n line with
  | none => s
  | some x =>
    if x.dirty = 0 then s else
    let s1 := (maskRuns x.dirty).foldl (fun (t : State) r =>
      (t.busWrite (tileDie n) false (line + r.1) (slice (leBytes 64 x.data.toNat) r.1 r.2) false).1) s
    (s1.setL1 n line { x with dirty := 0 }).wrap (UMB_L1_WB n) UMB_L1_WB_LINES 1

/-- A line written back and dropped. -/
def State.l1Inv (s : State) (n line : Nat) : State :=
  let s1 := s.l1Flush n line
  s1.setTile n { s1.tile n with l1 := mdel (s1.tile n).l1 line }

def State.l1FlushAll (s : State) (n : Nat) : State := (s.tile n).l1.foldl (fun t p => t.l1Flush n p.1) s
def State.l1InvAll (s : State) (n : Nat) : State := (s.tile n).l1.foldl (fun t p => t.l1Inv n p.1) s

end Sys2Proof.Machine
end

