-- ==== Sys2Proof/Machine/Speedwell.lean ====
section
/-!
DEFINITION. Speedwell (spec/09, R239 to R259): the tier lock, schedule runs, the residency state machine, space and
copies.

Where the spec leaves open or is read by inference, and what is taken from outside it (DESIGN CHOICE, DEDUCED, PRESUMED):
notes/assumptions/39.md.
-/

namespace Sys2Proof.Machine

open Sys2Proof

/-! ### The object table (R245) -/

/-- The physical address of a table entry; like every engine's it may be of another node (R233). -/
def State.objBase (s : State) (o : Nat) : Nat := (s.rd SPW_OBJ_BASE SPW_OBJ_BASE_BASE * 64 + 64 * o) % 2 ^ 56

/-- n bytes at a physical address as Speedwell reads them: zero where the read fails. -/
def State.spwRead (s : State) (a n : Nat) : State × Nat :=
  match s.busRead 2 false a n .once with
  | (t, .ok bs _) => (t, leVal bs)
  | (t, _)        => (t, 0)

/-- A value of n bytes that Speedwell writes to a physical address. -/
def State.spwStore (s : State) (a n v : Nat) : State := (s.busWrite 2 false a (leBytes n v) false).1

/-- The entry of an object read from the table, and what was read last. -/
def State.objFetch (s : State) (o : Nat) : State :=
  let r := s.spwRead (s.objBase o) 64
  { r.1 with spw := { r.1.spw with table := mput r.1.spw.table o (BitVec.ofNat 512 r.2) } }
def State.objEnt (s : State) (o : Nat) : Line := mget 0 s.spw.table o

def State.objLo (s : State) (o : Nat) : Nat := localOf (bits (s.objEnt o) 63 0)
def State.objHi (s : State) (o : Nat) : Nat := localOf (bits (s.objEnt o) 127 64)
def State.objGran (s : State) (o : Nat) : Nat := bits (s.objEnt o) 159 128
def State.objFlags (s : State) (o : Nat) : Nat := bits (s.objEnt o) 191 160
def State.objSem (s : State) (o : Nat) : Nat := bits (s.objEnt o) 255 192

/-- n bytes at a physical address lie in a memory-kind range of their node: of this node one that is backed, of another one of R235. -/
def State.memKind (s : State) (pa n : Nat) : Bool :=
  if nodeOf pa = s.node then s.isMem pa n
  else decide (pa < 2 ^ 56) && (decide (localOf pa + n ≤ 0xC000000000) || (decide (0x10000000000 ≤ localOf pa) && decide (localOf pa + n ≤ 0x70000000000)))

/-- The granules a range of the managed part yields: the frame count of R241. -/
def State.frameCount (s : State) : Nat :=
  if s.unified then
    let n := (768 - s.rd SPW_TIER_CFG SPW_TIER_CFG_DIRECT) * 512
    if s.flag SPW_TIER_CFG SPW_TIER_CFG_SHIELD then n * 11 / 12 else n
  else 0

/-- An object-table entry keeps R245. -/
def State.objOk (s : State) (o : Nat) : Bool :=
  let e := s.objEnt o
  let lo := bits e 63 0
  let hi := bits e 127 64
  let g := s.objGran o
  let sem := s.objSem o
  decide (o < s.rd SPW_OBJ_CNT SPW_OBJ_CNT_COUNT) && decide (lo < 2 ^ 56) && lo % 2 ^ 21 == 0 &&
  decide (1 ≤ g) && decide (g ≤ 65536) && decide (s.objFlags o ≤ 1) &&
  decide (0x10000000000 ≤ localOf lo) && s.isMem lo (g * 2 ^ 21) &&
  (if s.unified then hi == 0 else hi % 2 ^ 21 == 0 && decide (localOf hi + g * 2 ^ 21 ≤ 0xC000000000) && s.isMem hi (g * 2 ^ 21)) &&
  sem % 8 == 0 && s.memKind sem 8 && bits e 383 256 == 0

/-- An object's residency state. -/
def State.obj (s : State) (o : Nat) : SpwObj := mget SpwObj.reset s.spw.objs o

def ObjState.code : ObjState → Nat
  | .absent => 0
  | .queued => 1
  | .promoting => 2
  | .resident => 3
  | .writingBack => 4
  | .cancelling => 5
  | .failed => 6

/-- An object's new state, and STATUS of its table entry (R245). -/
def State.setObj (s : State) (o : Nat) (v : SpwObj) : State :=
  let st := v.st.code + b2n v.ep * 8 + b2n v.keep * 16 + (v.count % 65536) * 2 ^ 16 + v.gen * 2 ^ 32
  ({ s with spw := { s.spw with objs := mset SpwObj.reset s.spw.objs o v } }).spwStore (s.objBase o + 0x30) 16 st

/-- The residency word written: GEN × 4 + S (R247). -/
def State.word (s : State) (o gen S : Nat) : State := s.spwStore (s.objSem o) 8 (gen * 4 + S)

/-- The generation of the run, or of the last one. -/
def State.spwGen (s : State) : Nat := s.rd SPW_STAT SPW_STAT_GEN_LAST

/-! ### Granules and frames (R242 to R244) -/

/-- The index of a lower granule in the unified range. -/
def uniIdx (lo i : Nat) : Nat := (lo - 0x10000000000) / 2 ^ 21 + i

/-- A directory entry written through to HBM. -/
def State.setDir (s : State) (i v : Nat) : State := { s with mem := memPut s.mem (s.dirBase + 8 * i) (leBytes 8 v) }

/-- The held writes of granule i of the unified range done where the granule now lives (R243, R244). -/
def State.unhold (s : State) (i : Nat) : State :=
  let mine (a : Nat) : Bool := decide (0x10000000000 + i * 2 ^ 21 ≤ a) && decide (a < 0x10000000000 + (i + 1) * 2 ^ 21)
  let bs := s.spw.held.filter (fun c => mine c.1)
  let ps := s.spw.heldP.filter (fun c => mine c.1)
  let s0 : State := { s with spw := { s.spw with held := s.spw.held.filter (fun c => !mine c.1), heldP := s.spw.heldP.filter (fun c => !mine c.1) } }
  let s1 := bs.foldl (fun (t : State) c => (t.putOne c.1 c.2).dirtyKey (t.tierKey c.1)) s0
  ps.foldl (fun (t : State) c => t.setPois (alignDown (t.tierKey c.1) 64) c.2) s1

/-- Granules of the unified range. -/
def State.uniGran (s : State) : Nat := s.unifiedSize / 2 ^ 21

/-- The frames that the directory shows held. -/
def State.usedFrames (s : State) : List Nat :=
  (List.range s.uniGran).filterMap (fun i =>
    let e := s.dirEntry i
    if nbits e 19 19 = 1 ∨ nbits e 21 21 = 1 then some (nbits e 18 0) else none)

/-- The first k free frames, if there are so many. -/
def State.freeFrames (s : State) (k : Nat) : Option (List Nat) :=
  let used := s.usedFrames
  let free := ((List.range s.frameCount).filter (fun f => !used.contains f)).take k
  if free.length = k then some free else none

/-- Where granule i of an object's higher copy lives: an HBM address. -/
def State.hiKey (s : State) (o i : Nat) : Nat :=
  if s.unified then (s.obj o).frames.getD i 0 * 2 ^ 21 else s.objHi o + i * 2 ^ 21

/-- Cells of a range moved to another place, the other place's old cells dropped. -/
def cellCopy (m : List Host.Cell) (src dst len : Nat) : List Host.Cell :=
  let moved := (m.filter (fun c => decide (src ≤ c.1) && decide (c.1 < src + len))).map (fun c => (c.1 - src + dst, c.2))
  let kept := m.filter (fun c => !(decide (dst ≤ c.1) && decide (c.1 < dst + len)))
  moved.foldl (fun a c => mset 0 a c.1 c.2) kept

/-- Poison of a range moved likewise. -/
def poisCopy (m : List (Nat × Bool)) (src dst len : Nat) : List (Nat × Bool) :=
  let moved := (m.filter (fun c => decide (src ≤ c.1) && decide (c.1 < src + len))).map (fun c => (c.1 - src + dst, c.2))
  let kept := m.filter (fun c => !(decide (dst ≤ c.1) && decide (c.1 < dst + len)))
  moved.foldl (fun a c => mset false a c.1 c.2) kept

/-- The dirty lines that caching agents hold within a range. -/
def State.dirtyLines (s : State) (a len : Nat) : List Nat :=
  s.caches.flatMap (fun p => p.2.filterMap (fun l =>
    if a ≤ l.1 ∧ l.1 < a + len ∧ l.2.st.dirty then some l.1 else none))

/-- Cached lines of a range made current in memory and dropped: the copies read and write through the home. -/
def State.settleRange (s : State) (a len : Nat) : State :=
  let s1 := (s.dirtyLines a len).foldl State.settle s
  { s1 with caches := s1.caches.map (fun p => (p.1, p.2.filter (fun l => !(decide (a ≤ l.1) && decide (l.1 < a + len))))) }

/-- A granule copied between keys with its poison (R253), counted (SPW_MOVED, POISON_GRAN). -/
def State.copyGran (s : State) (src dst : Nat) : State :=
  let lines := (List.range 32768).map (fun i => 64 * i)
  let poisoned := if s.hbmTrouble then lines.any (fun o => s.linePois (src + o))
    else s.poison.any (fun c => decide (src ≤ c.1) && decide (c.1 < src + 2 ^ 21))
  let seen := if s.hbmTrouble then lines.map (src + ·)
    else (s.poison.filter (fun c => decide (src ≤ c.1) && decide (c.1 < src + 2 ^ 21))).map (·.1)
  let s := seen.foldl (fun (t : State) k => (t.lineFetch k .clean).1) s
  let s0 := { s with mem := cellCopy s.mem src dst (2 ^ 21), poison := poisCopy s.poison src dst (2 ^ 21) }
  let s1 := if s.hbmTrouble then lines.foldl (fun t o => t.setPois (dst + o) (s.linePois (src + o))) s0 else s0
  let s2 := (if dst < 0xC000000000 ∧ (s1.keyShield dst).isSome then s1.wrap (HBM_WCB_STAT2 (s1.stackOf dst)) HBM_WCB_STAT2_SHD_WR 32768
    else s1).wrap SPW_MOVED SPW_MOVED_GRANULES 1
  if poisoned then s2.bump SPW_CNT2 SPW_CNT2_POISON_GRAN else s2

/-- Granule i of an object copied up: the lower copy's raw bytes under the unified range, its coherent bytes in split
mode. -/
def State.copyUp (s : State) (o i : Nat) : State :=
  let lo := s.objLo o + i * 2 ^ 21
  if s.unified then s.copyGran lo (s.hiKey o i)
  else
    let s1 := (s.settleRange lo (2 ^ 21)).settleRange (s.hiKey o i) (2 ^ 21)
    s1.copyGran lo (s.hiKey o i)

/-- Granule i copied down for a write-back: its dirty bit is cleared before it is read (R244). -/
def State.copyDown (s : State) (o i : Nat) : State :=
  let key := s.hiKey o i
  let lo := s.objLo o + i * 2 ^ 21
  let s0 := if s.unified then s else (s.settleRange key (2 ^ 21)).settleRange lo (2 ^ 21)
  let s1 := { s0 with gdirty := mset false s0.gdirty (granuleOf key) false }
  s1.copyGran key lo

/-- The dirty granules of an object's higher copy. -/
def State.dirtyGrans (s : State) (o : Nat) : List Nat :=
  (List.range (s.objGran o)).filter (fun i => mget false s.gdirty (granuleOf (s.hiKey o i)))

/-- SPW_FRAMES.FREE changed by n frames taken or given back. -/
def State.framesTake (s : State) (n : Nat) : State := s.wr SPW_FRAMES SPW_FRAMES_FREE (s.rd SPW_FRAMES SPW_FRAMES_FREE - n)
def State.framesGive (s : State) (n : Nat) : State := s.wr SPW_FRAMES SPW_FRAMES_FREE (s.rd SPW_FRAMES SPW_FRAMES_FREE + n)

/-- An object's space freed: its granules leave the directory (R253). -/
def State.freeSpace (s : State) (o : Nat) : State :=
  if s.unified then
    let k := (s.obj o).frames.length
    ((List.range k).foldl (fun (t : State) i => (t.setDir (uniIdx (s.objLo o) i) 0).unhold (uniIdx (s.objLo o) i)) s).framesGive k
  else s

/-! ### Runs (R248, R256) -/

/-- The run's fields. -/
def SpwRun.entries (r : SpwRun) : Nat := bits r.work.desc 143 128
def SpwRun.look (r : SpwRun) : Nat := bits r.work.desc 151 144
def SpwRun.pacer (r : SpwRun) : Nat := bits r.work.desc 158 152
def SpwRun.gen (r : SpwRun) : Nat := bits r.work.desc 189 160
def SpwRun.prog (r : SpwRun) : Nat := bits r.work.desc 119 64

def State.setRun (s : State) (r : Option SpwRun) : State := { s with spw := { s.spw with run := r } }

/-- An entry has retired (R250). -/
def State.entRetired (s : State) (e : SpwEnt) : Bool :=
  e.done && (match e.op with
    | 1 => (s.obj e.object).st == .resident || (s.obj e.object).st == .absent
    | 4 => !(s.obj e.object).wb
    | _ => true)

/-- An object with a new state, in the table and in the word. -/
def State.objWord (s : State) (o : Nat) (v : SpwObj) (S : Nat) : State :=
  ((s.setObj o { v with gen := s.spwGen }).word o s.spwGen S)

/-- The run's retired entries leave; when all have, the run ends served. -/
def State.objAbsent (s : State) (o : Nat) : State :=
  ((s.freeSpace o).objWord o SpwObj.reset 0)

/-- An EVICT event on an object (R253). -/
def State.objEvict (s : State) (o : Nat) : State :=
  let v := s.obj o
  match v.st with
  | .promoting => (s.setObj o { v with ep := true }).bump SPW_CNT SPW_CNT_DEFER
  | .resident =>
    if v.count ≠ 0 then s.bump SPW_CNT SPW_CNT_REFUSED_INUSE
    else
      match s.dirtyGrans o with
      | [] => s.objAbsent o
      | ds => s.objWord o { v with st := .writingBack, toWb := ds, mark := false } 0
  | _ => s

/-- A RELEASE or CANCEL event on an object (R253). -/
def State.objRelease (s : State) (o : Nat) (cancel evictDone : Bool) : State :=
  let v := s.obj o
  match v.st with
  | .absent => s.bump SPW_CNT2 SPW_CNT2_BAD_REF
  | .queued =>
    if 1 < v.count then s.setObj o { v with count := v.count - 1 }
    else if cancel then
      (({ s with spw := { s.spw with queue := s.spw.queue.filter (· != o) } }).objWord o SpwObj.reset 0).bump SPW_CNT
        SPW_CNT_CANCELLED
    else s
  | .promoting =>
    if 1 < v.count then s.setObj o { v with count := v.count - 1 }
    else if cancel then (s.setObj o { v with st := .cancelling, count := 0 }).bump SPW_CNT SPW_CNT_CANCELLED
    else s
  | .resident =>
    if 1 < v.count then s.setObj o { v with count := v.count - 1 }
    else if v.count = 1 then
      let s1 := { s with spw := { s.spw with relSeq := s.spw.relSeq + 1 } }
      let s2 := s1.setObj o { v with count := 0, order := s1.spw.relSeq }
      if evictDone then s2.objEvict o else s2
    else s
  | .writingBack => if cancel then s.setObj o { v with count := v.count - 1 } else s
  | .failed      => if cancel then s.setObj o { v with count := v.count - 1 } else s
  | .cancelling  => s

/-- Every granule of an object is one that a warm reset left resident and no object has taken (R257). -/
def State.allRes (s : State) (o : Nat) : Bool :=
  s.unified && (List.range (s.objGran o)).all (fun i =>
    let e := s.dirEntry (uniIdx (s.objLo o) i)
    nbits e 19 19 == 1 && nbits e 21 21 == 0 && s.spw.kept.contains (uniIdx (s.objLo o) i))

/-- An ACQUIRE event on an object (R253, R257). -/
def State.objAcquire (s : State) (o : Nat) (keep : Bool) : State :=
  let v := s.obj o
  match v.st with
  | .absent =>
    if s.allRes o then
      let idx := (List.range (s.objGran o)).map (uniIdx (s.objLo o))
      let fr := idx.map (fun i => nbits (s.dirEntry i) 18 0)
      let s1 := { s with spw := { s.spw with kept := s.spw.kept.filter (fun i => !idx.contains i) } }
      s1.objWord o { SpwObj.reset with st := .resident, count := 1, keep := keep, frames := fr, done := s.objGran o } 3
    else
      let s1 := { s with spw := { s.spw with queue := s.spw.queue ++ [o] } }
      s1.objWord o { SpwObj.reset with st := .queued, count := 1, keep := keep } 1
  | .queued => s.setObj o { v with count := v.count + 1, keep := keep }
  | .promoting => s.setObj o { v with count := v.count + 1, keep := keep }
  | .cancelling => s.setObj o { v with st := .promoting, count := 1, keep := keep }
  | .resident => s.objWord o { v with count := v.count + 1, keep := keep } 3
  | .writingBack => s.objWord o { v with count := 1, keep := keep, mark := true } 1
  | .failed => s

/-- A WRITEBACK event on an object (R244, R253). -/
def State.objWriteback (s : State) (o : Nat) : State :=
  let v := s.obj o
  match v.st with
  | .resident =>
    match s.dirtyGrans o with
    | [] => s
    | ds => s.setObj o { v with wb := true, toWb := ds }
  | _ => s

/-- k CANCEL events on an object. -/
def State.cancelAll (s : State) (o : Nat) : Nat → State
  | 0     => s
  | k + 1 => (s.objRelease o true false).cancelAll o k

/-- A run ends or stops with a status and a detail: every reference it still holds is cancelled and counted (R256). -/
def State.runEnd (s : State) (status detail : Nat) : State :=
  match s.spw.run with
  | none => s
  | some r =>
    let held := s.spw.objs.filter (fun p => p.2.count != 0)
    let s1 := held.foldl (fun t p => (t.cancelAll p.1 p.2.count).bumpBy SPW_CNT2 SPW_CNT2_LEFTOVER p.2.count) s
    let s2 := (s1.setRun none).wr SPW_STAT SPW_STAT_ACTIVE 0
    s2.served r.work status detail

/-- Retired entries leave; the run ends when its last entry retires (R256). -/
def State.spwCheck (s : State) : State :=
  match s.spw.run with
  | none => s
  | some r =>
    let left := r.ents.filter (fun e => !s.entRetired e)
    let s1 := s.setRun (some { r with ents := left })
    if left = [] ∧ r.next = r.entries then s1.runEnd 0 0 else s1

/-- Entries whose deadline the pacer's commit of an epoch has reached become due (R250). -/
def State.spwCommit (s : State) (tile num : Nat) : State :=
  match s.spw.run with
  | none => s
  | some r =>
    if r.pacer ≠ tile then s
    else s.setRun (some { r with ents := r.ents.map (fun e => if e.dl ≤ num then { e with due := true } else e) })

/-- One late arrival (R252). -/
def State.lateOne (s : State) (e : SpwEnt) : State :=
  let s1 := s.bump SPW_CNT SPW_CNT_LATE
  let s2 := if s1.flag SPW_LATE_REC0 SPW_LATE_REC0_VALID then s1 else
    let left := min 0xFFFF (s1.objGran e.object - (s1.obj e.object).done)
    let w := e.object + 2 ^ 12 + b2n e.stream * 2 ^ 13 + left * 2 ^ 16 + e.layer * 2 ^ 32
    (s1.setReg SPW_LATE_REC0 (BitVec.ofNat 64 w)).setReg SPW_LATE_REC1 (BitVec.ofNat 64 (e.dl % 2 ^ 63))
  if e.stream then s2.word e.object s2.spwGen 2 else s2

/-- The pacer opens an epoch: issued ACQUIREs at or past their deadline whose object is not RESIDENT are late (R252). -/
def State.spwOpen (s : State) (tile num : Nat) : State :=
  match s.spw.run with
  | none => s
  | some r =>
    if r.pacer ≠ tile then s else
    let isLate (e : SpwEnt) : Bool :=
      e.op == 1 && e.done && !e.late && decide (e.dl ≤ num) && (s.obj e.object).st != .resident
    let s1 := (r.ents.filter isLate).foldl State.lateOne s
    match s1.spw.run with
    | none => s1
    | some r1 => s1.setRun (some { r1 with ents := r1.ents.map (fun e => if isLate e then { e with late := true } else e) })

/-- The pacer is gone: a BIND served on its ID, or its ID OFFLINE (R256). -/
def State.pacerLost (s : State) (tile : Nat) : State :=
  match s.spw.run with
  | none => s
  | some r => if r.pacer = tile then s.runEnd 0x77 0 else s

/-- What a warm reset leaves of Speedwell (R257). -/
def State.spwWarm (s : State) : State :=
  let clr (t : State) (i : Nat) : State :=
    if nbits (t.dirEntry i) 21 21 = 1 then t.setDir i 0 else t
  let s1 := if s.unified then (List.range s.uniGran).foldl (fun (t : State) i => (clr t i).unhold i) s else s
  let kept := if s1.unified then (List.range s1.uniGran).filter (fun i => nbits (s1.dirEntry i) 19 19 == 1) else []
  { s1 with spw := { SpwSt.reset with fresh := true, kept := kept } }

/-! ### The commands -/

/-- The lock of the tier mode set: MODE and SHIELD may establish shielded range 7 over the managed part (R239, R308). -/
def State.tierLock (s : State) : State :=
  if s.flag SPW_TIER_CFG SPW_TIER_CFG_LOCK then s else
  let s1 := s.wr SPW_TIER_CFG SPW_TIER_CFG_LOCK 1
  let s2 := if s1.unified then
      (s1.wr SPW_FRAMES SPW_FRAMES_TOTAL s1.frameCount).wr SPW_FRAMES SPW_FRAMES_FREE s1.frameCount
    else s1
  if s1.unified ∧ s1.flag SPW_TIER_CFG SPW_TIER_CFG_SHIELD then
    let n := (768 - s1.rd SPW_TIER_CFG SPW_TIER_CFG_DIRECT) * 512
    let s3 := ((s2.wr (HBM_SHD_CFG 7) HBM_SHD_CFG_STRIPE 0).wr (HBM_SHD_CFG 7) HBM_SHD_CFG_GRANULES n).wr (HBM_SHD_CFG 7)
      HBM_SHD_CFG_EN 1
    (s3.wr (HBM_SHD_STAT 7) HBM_SHD_STAT_INIT 1).wr (HBM_SHD_STAT 7) HBM_SHD_STAT_DATA (n - (n + 11) / 12)
  else s2

/-- MODE, DIRECT and SHIELD of a write of SPW_TIER_CFG: taken before the lock, refused after it when they would change
(R5, R239); DIRECT outside 1 to 767 is ignored. -/
def State.tierCfgWrite (s : State) (v : Word) : State :=
  let a := SPW_TIER_CFG
  let d := fget v SPW_TIER_CFG_DIRECT
  let d1 := if 1 ≤ d ∧ d ≤ 767 then d else s.rd a SPW_TIER_CFG_DIRECT
  let s0 := if fget v SPW_TIER_CFG_REFUSED = 1 then s.wr a SPW_TIER_CFG_REFUSED 0 else s
  let s1 := if s.flag a SPW_TIER_CFG_LOCK then
      if s.rd a SPW_TIER_CFG_MODE = fget v SPW_TIER_CFG_MODE ∧ s.rd a SPW_TIER_CFG_DIRECT = d1 ∧
         s.rd a SPW_TIER_CFG_SHIELD = fget v SPW_TIER_CFG_SHIELD then s0
      else s0.wr a SPW_TIER_CFG_REFUSED 1
    else ((s0.wr a SPW_TIER_CFG_MODE (fget v SPW_TIER_CFG_MODE)).wr a SPW_TIER_CFG_DIRECT d1).wr a SPW_TIER_CFG_SHIELD
      (fget v SPW_TIER_CFG_SHIELD)
  if fget v SPW_TIER_CFG_LOCK = 1 then s1.tierLock else s1

/-- SPW_TIER_LOCK: SPW_TIER_CFG written with LOCK = 1 (R239). -/
def execSpwTierLock (cfg : Word) (s : State) : Host.Outcome State Fault Refusal :=
  .next ((s.tierCfgWrite cfg).tierLock)

/-- The fields of a SCHEDULE descriptor that R248 requires. -/
def scheduleOk (d : Line) : Bool :=
  bits d 127 120 == 0 && bits d 69 64 == 0 && bits d 143 128 != 0 && bits d 151 144 != 0 && decide (bits d 158 152 ≤ 95) &&
  bits d 159 159 == 0 && bits d 189 160 != 0 && bits d 511 190 == 0

/-- RES granules that no object of the table names are written back if dirty and freed when the first run after a warm
reset starts, and FREE is rebuilt (R257). -/
def State.spwRebuild (s : State) : State :=
  if ¬ s.spw.fresh then s else
  let objs := List.range (s.rd SPW_OBJ_CNT SPW_OBJ_CNT_COUNT)
  let s := if s.unified then objs.foldl State.objFetch s else s
  let named (i : Nat) : Bool := objs.any (fun o =>
    decide (uniIdx (s.objLo o) 0 ≤ i) && decide (i < uniIdx (s.objLo o) (s.objGran o)))
  let drop (t : State) (i : Nat) : State :=
    let e := t.dirEntry i
    if nbits e 19 19 = 1 ∧ ¬ named i then
      let key := nbits e 18 0 * 2 ^ 21
      let t1 := if nbits e 20 20 = 1 then
          ({ t with gdirty := mset false t.gdirty (granuleOf key) false }).copyGran key (0x10000000000 + i * 2 ^ 21)
        else t
      { t1.setDir i 0 with spw := { t1.spw with kept := t1.spw.kept.filter (· != i) } }
    else t
  let s1 := if s.unified then (List.range s.uniGran).foldl drop s else s
  let s2 := { s1 with spw := { s1.spw with fresh := false } }
  if s.unified then s2.wr SPW_FRAMES SPW_FRAMES_FREE (s2.frameCount - s2.usedFrames.length) else s2

/-- SCHEDULE: the pending descriptor is refused, deferred behind the active run, or starts its run (R248). -/
def execSchedule (s : State) : Host.Outcome State Fault Refusal :=
  match s.hif.spwQ with
  | [] => .next s
  | w :: q =>
    if s.ringHeld w then .next s else
    if s.spw.run.isSome then
      let r := s.deferWork w 0x72
      .next ((({ r.1 with hif := { r.1.hif with spwQ := r.2 :: q } }).wr SPW_STAT SPW_STAT_PENDING 1))
    else
      let s1 := ({ s with hif := { s.hif with spwQ := q } }).wr SPW_STAT SPW_STAT_PENDING 0
      if ¬ scheduleOk w.desc then .next (s1.refuse w 0x70 0)
      else if bits w.desc 189 160 ≤ s.spwGen then .next (s1.refuse w 0x71 0)
      else
        let s2 := (s1.wr SPW_STAT SPW_STAT_ACTIVE 1).wr SPW_STAT SPW_STAT_GEN_LAST (bits w.desc 189 160)
        .next ((s2.spwRebuild).setRun (some { work := w, next := 0, ents := [] }))

/-- The entry at an index of a program, and whether it is well formed (R249). -/
def schedEnt (i : Nat) (x : Nat) (num : Nat) : SpwEnt × Bool :=
  let op := nbits x 3 0
  let re := nbits x 5 4
  let e : SpwEnt := { idx := i, op := op, reuse := re, stream := nbits x 6 6 == 1, object := nbits x 27 16,
                      layer := nbits x 63 32, dl := nbits x 126 64, due := decide (nbits x 126 64 ≤ num), done := false,
                      late := false }
  (e, decide (1 ≤ op) && decide (op ≤ 5) && nbits x 15 7 == 0 && nbits x 31 28 == 0 && nbits x 255 127 == 0 &&
    (re == 0 || (op == 1 && re == 1) || (op == 2 && re == 2)) && (nbits x 6 6 == 0 || op == 1))

/-- SCHEDULE_ENTRY_ISSUE: the next entry is read and issued when it lies within LOOKAHEAD of the oldest entry not retired;
a malformed one, or one whose object breaks R245, stops the run (R249, R250, R256). -/
def execScheduleEntryIssue (s : State) : Host.Outcome State Fault Refusal :=
  match s.spw.run with
  | none => .next s
  | some r =>
    let oldest := match r.ents with
      | e :: _ => e.idx
      | []     => r.next
    if r.next = r.entries ∨ oldest + r.look < r.next then .next s else
    let x := s.spwRead ((r.prog + 32 * r.next) % 2 ^ 56) 32
    let committed := (s.tile r.pacer).epo.committed
    let (e, ok) := schedEnt r.next x.2 committed
    let t := x.1.objFetch e.object
    if ¬ ok ∨ ¬ t.objOk e.object ∨ (e.stream ∧ nbits (t.objFlags e.object) 0 0 = 1) then .next (t.runEnd 0x73 r.next)
    else .next (t.setRun (some { r with next := r.next + 1, ents := r.ents ++ [e] }))

/-- The oldest issued entry of an operation for an object whose event is still to be applied, once it takes effect. -/
def State.nextEnt (s : State) (op o : Nat) : Option SpwEnt :=
  match s.spw.run with
  | none => none
  | some r => r.ents.find? (fun e => e.op == op && e.object == o && !e.done && (op == 1 || op == 3 || e.due))

/-- An entry marked as applied. -/
def State.entDone (s : State) (e : SpwEnt) : State :=
  match s.spw.run with
  | none => s
  | some r => s.setRun (some { r with ents := r.ents.map (fun x => if x.idx = e.idx then { x with done := true } else x) })

/-- ACQUIRE (R253). -/
def execAcquire (object : BitVec 12) (s : State) : Host.Outcome State Fault Refusal :=
  match s.nextEnt 1 object.toNat with
  | none => .next s
  | some e => .next (((s.objAcquire e.object (e.reuse == 1)).entDone e).spwCheck)

/-- RELEASE (R253). -/
def execRelease (object : BitVec 12) (s : State) : Host.Outcome State Fault Refusal :=
  match s.nextEnt 2 object.toNat with
  | none => .next s
  | some e => .next (((s.objRelease e.object false (e.reuse == 2)).entDone e).spwCheck)

/-- CANCEL (R253). -/
def execCancel (object : BitVec 12) (s : State) : Host.Outcome State Fault Refusal :=
  match s.nextEnt 3 object.toNat with
  | none => .next s
  | some e => .next (((s.objRelease e.object true false).entDone e).spwCheck)

/-- WRITEBACK (R253). -/
def execWriteback (object : BitVec 12) (s : State) : Host.Outcome State Fault Refusal :=
  match s.nextEnt 4 object.toNat with
  | none => .next s
  | some e => .next (((s.objWriteback e.object).entDone e).spwCheck)

/-- An object is free of every other object's higher range in split mode (R253). -/
def State.splitFree (s : State) (o : Nat) : Bool :=
  let lo := s.objHi o
  let n := s.objGran o * 2 ^ 21
  s.spw.objs.all (fun p => p.1 == o || p.2.st == .absent ||
    decide (lo + n ≤ s.objHi p.1) || decide (s.objHi p.1 + s.objGran p.1 * 2 ^ 21 ≤ lo))

/-- Space for the object at the head of the queue is at hand. -/
def State.spaceFor (s : State) (o : Nat) : Bool :=
  if s.unified then (s.freeFrames (s.objGran o)).isSome else s.splitFree o

/-- The victim a space request chooses: a RESIDENT object with count 0, those without KEEP first, the earliest released
first (R254). -/
def State.victim (s : State) : Option Nat :=
  let cands := s.spw.objs.filter (fun p => p.2.st == .resident && p.2.count == 0)
  let pool := if cands.any (fun p => !p.2.keep) then cands.filter (fun p => !p.2.keep) else cands
  match pool with
  | [] => none
  | p :: r => some (r.foldl (fun b x => if x.2.order < b.2.order then x else b) p).1

/-- EVICT: the event of a due EVICT entry, or of a space request that has chosen this object (R253, R254). -/
def execEvict (object : BitVec 12) (s : State) : Host.Outcome State Fault Refusal :=
  let o := object.toNat
  match s.nextEnt 5 o with
  | some e => .next (((s.objEvict o).entDone e).spwCheck)
  | none =>
    match s.spw.queue with
    | [] => .next s
    | q :: _ => if ¬ s.spaceFor q ∧ s.victim = some o then .next ((s.objEvict o).spwCheck) else .next s

/-- SPACE_GRANT: the oldest QUEUED object gets its space and its promotion starts, or the run stops for an overlap or for
want of frames (R254, R255, R256). -/
def execSpaceGrant (s : State) : Host.Outcome State Fault Refusal :=
  match s.spw.queue with
  | [] => .next s
  | o :: q =>
    let g := s.objGran o
    if s.unified ∧ s.frameCount < g then .next (s.runEnd 0x76 0)
    else if ¬ s.spaceFor o then .next s
    else if s.unified then
      let idx := (List.range g).map (uniIdx (s.objLo o))
      if idx.any (fun i => let e := s.dirEntry i; nbits e 19 19 == 1 || nbits e 21 21 == 1) then .next (s.runEnd 0x75 o)
      else
        let fr := (s.freeFrames g).getD []
        let s1 := (idx.zip fr).foldl (fun t p => t.setDir p.1 (p.2 + 2 ^ 21)) s
        let s2 := { s1 with spw := { s1.spw with queue := q } }
        .next ((s2.framesTake g).setObj o { s.obj o with st := .promoting, frames := fr, done := 0 })
    else
      let s2 := { s with spw := { s.spw with queue := q } }
      .next (s2.setObj o { s.obj o with st := .promoting, done := 0 })

/-- The stall of an object that becomes RESIDENT late: the microseconds since its deadlines, which the model leaves free (R252). -/
def State.stallEnd (s : State) (o : Nat) : State :=
  let wasLate := match s.spw.run with
    | none => false
    | some r => r.ents.any (fun e => e.object == o && e.late)
  if wasLate then
    let f := s.fresh
    f.2.wrap SPW_STALL SPW_STALL_US f.1.toNat
  else s

/-- A promotion's last copy is visible: the object becomes RESIDENT (R253). -/
def State.promoted (s : State) (o : Nat) : State :=
  let v := s.obj o
  let g := s.objGran o
  let s1 := if s.unified then
      (List.range g).foldl (fun t i => t.setDir (uniIdx (s.objLo o) i) (v.frames.getD i 0 + 2 ^ 19)) s
    else s
  let s2 := (List.range g).foldl (fun (t : State) i =>
    let u := { t with gdirty := mset false t.gdirty (granuleOf (s.hiKey o i)) false }
    if s.unified then u.unhold (uniIdx (s.objLo o) i) else u) s1
  let s3 := s2.objWord o { v with st := .resident, ep := false, done := g } 3
  (if v.ep then s3.bump SPW_CNT SPW_CNT_REFUSED_INUSE else s3).stallEnd o

/-- GRANULE_COPY_COMPLETE: the next granule copy of an object becomes visible (R253). -/
def execGranuleCopyComplete (object : BitVec 12) (s : State) : Host.Outcome State Fault Refusal :=
  let o := object.toNat
  let v := s.obj o
  match v.st with
  | .promoting =>
    let s1 := (s.copyUp o v.done).setObj o { v with done := v.done + 1 }
    if v.done + 1 = s.objGran o then .next ((s1.promoted o).spwCheck) else .next s1
  | .cancelling => .next ((s.objAbsent o).spwCheck)
  | .writingBack =>
    match v.toWb with
    | [] => .next s
    | i :: r =>
      let s1 := (s.copyDown o i).setObj o { v with toWb := r }
      if r ≠ [] then .next s1
      else if v.mark then
        .next ((((s1.objWord o { v with st := .resident, toWb := [], mark := false, wb := false } 3).bump SPW_CNT
          SPW_CNT_REFUSED_INUSE).stallEnd o).spwCheck)
      else .next ((s1.objAbsent o).spwCheck)
  | .resident =>
    match v.toWb with
    | [] => .next s
    | i :: r => .next (((s.copyDown o i).setObj o { v with toWb := r, wb := decide (r ≠ []) }).spwCheck)
  | _ => .next s

/-- COPY_FAULT: a promotion's copy completes with an error response or ABSENT: the object is FAILED and the run stops
(R253, R256). -/
def execCopyFault (object : BitVec 12) (s : State) : Host.Outcome State Fault Refusal :=
  let o := object.toNat
  let v := s.obj o
  if v.st = .promoting then .next ((s.setObj o { v with st := .failed }).runEnd 0x74 o) else .next s

/-- SPW_CLEAR_FAILED: every FAILED object becomes ABSENT; its word does not change (R253). -/
def execSpwClearFailed (s : State) : Host.Outcome State Fault Refusal :=
  let fs := s.spw.objs.filter (fun p => p.2.st == .failed)
  .next ((fs.foldl (fun (t : State) p => (t.freeSpace p.1).setObj p.1 { SpwObj.reset with gen := p.2.gen }) s).spwCheck)

/-- SPW_ABORT: the active run stops (R256). -/
def execSpwAbort (s : State) : Host.Outcome State Fault Refusal := .next (s.runEnd 0x78 0)

end Sys2Proof.Machine
end

