-- ==== Sys2Proof/Machine/Epoch.lean ====
section
/-!
DEFINITION. Epochs (spec/08): opening and committing, the journal and its publisher, guard ranges, the memory atomics that
the journal holds, and the epoch commands.

Where the spec leaves open or is read by inference, and what is taken from outside it (DESIGN CHOICE, DEDUCED, PRESUMED):
notes/assumptions/23.md, 41.md, 45.md, 47.md, 77.md, 79.md, 89.md.
-/

namespace Sys2Proof.Machine

open Sys2Proof

/-! ### Modes and state (R199, R223) -/

def State.resil (s : State) : Bool := s.flag EPO_MODE EPO_MODE_RESIL
def State.det (s : State) : Bool := s.flag EPO_MODE EPO_MODE_DET

/-- EPO_STAT.STATE codes. -/
abbrev esClosed : Nat := 0
abbrev esOpen : Nat := 1
abbrev esSealing : Nat := 2
abbrev esReplay : Nat := 3

def State.epoSt (s : State) (n : Nat) : Nat := s.rd (EPO_STAT n) EPO_STAT_STATE
def State.setEpoSt (s : State) (n st : Nat) : State := s.wr (EPO_STAT n) EPO_STAT_STATE st
def State.epo (s : State) (n : Nat) : EpoSt := (s.tile n).epo
def State.setEpo (s : State) (n : Nat) (e : EpoSt) : State := s.setTile n { s.tile n with epo := e }
def State.unprot (s : State) (n : Nat) : Bool := s.flag (EPO_STAT n) EPO_STAT_UNPROT
def State.epoNum (s : State) (n : Nat) : Nat := s.rd (EPO_NUM n) EPO_NUM_NUMBER

/-- An effect outside every epoch sets GAP_DIRTY (R201). -/
def State.gapDirty (s : State) (n : Nat) : State :=
  if s.epoSt n = esClosed then s.wr (EPO_STAT n) EPO_STAT_GAP_DIRTY 1 else s

/-- Effects of the table of R207 go to the journal: an epoch is open in resilient mode, it is protected, and its seal has
not been written. -/
def State.journaled (s : State) (n : Nat) : Bool :=
  s.resil && s.epoSt n != esClosed && !s.unprot n && !(s.epo n).sealed

/-- n bytes from a virtual address meet an enabled guard range while an epoch is open in resilient mode (R203, R204). -/
def State.guarded (s : State) (n va len : Nat) : Bool :=
  s.resil && s.epoSt n != esClosed &&
  (List.range 16).any (fun g =>
    let lo := s.rd (EPO_GUARD_LO n g) EPO_GUARD_LO_LO
    let hi := s.rd (EPO_GUARD_HI n g) EPO_GUARD_HI_HI
    decide (lo ≤ hi) && decide (lo < va + len) && decide (va ≤ hi))

/-- A guard range set (R203). -/
def State.setGuard (s : State) (n g lo hi : Nat) : State :=
  (s.wr (EPO_GUARD_LO n g) EPO_GUARD_LO_LO lo).wr (EPO_GUARD_HI n g) EPO_GUARD_HI_HI hi

/-- Every facet load disables all 16 ranges (R203). -/
def State.clearGuards (s : State) (n : Nat) : State :=
  (List.range 16).foldl (fun t g => t.setGuard n g (2 ^ 56 - 1) 0) s

/-! ### Memory atomics (R154, R207, R209, R291) -/

/-- The integer operations in the order of AUX (R209), on w-bit values. -/
def amoFn (op w old v : Nat) : Nat :=
  match op with
  | 0 => (old + v) % 2 ^ w
  | 1 => old ^^^ v
  | 2 => old ||| v
  | 3 => old &&& v
  | 4 => if sgn w old ≤ sgn w v then old else v
  | 5 => if sgn w old ≤ sgn w v then v else old
  | 6 => min old v
  | _ => max old v

/-- Whether an address takes a memory atomic: own-node memory, system-cache scratch, or another node. -/
def State.atomOk (s : State) (pa : Nat) : Bool :=
  if nodeOf pa = s.node then
    match s.region (localOf pa) with
    | .mem _     => true
    | .scratch _ _ => true
    | _          => false
  else s.flag FGN_CFG FGN_CFG_EN && s.onRings (nodeOf pa)

/-- AUX of the Fugen ATOMIC for an operation: 1 to 8 the integer ones, 9 swap, 10 compare-and-swap, 11 a float add (R416). -/
def fgnAux (op size : Nat) : Nat :=
  let wide := if size = 8 then 8 else 0
  if op ≤ 8 then op - 1 + wide
  else if op = 9 then 0x10 + wide
  else if op = 10 then 0x20 + wide
  else if size = 4 then 0x30 else if size = 8 then 0x40 else 0x50

/-- The answer to an atomic: the old value and its poison, an error response, or ABSENT. -/
inductive Rmw where
  | ok (old : Nat) (poison : Bool)
  | error
  | absent
  deriving DecidableEq, Repr

/-- The acknowledgement an atomic without a return value gives. -/
def Rmw.ack : Rmw → Wr
  | .ok _ _ => .ok
  | .error  => .error
  | .absent => .absent

/-- One read-modify-write of size bytes at a physical address, of a unit of a die or of a caching agent of the H-die, which leaves the line
in M in the requester's cache (R273).  One for another node is sent; its old value lies beyond the package. -/
def State.memRmw (s : State) (die pa size : Nat) (f : Nat → Nat) (op v : Nat) (ag : Option Nat := none) : State × Rmw :=
  if ¬ s.atomOk pa then (s, .error)
  else if nodeOf pa ≠ s.node then
    let r := (s.fgnAtomic pa (fgnAux op size) (leBytes size v)).fresh
    (r.2, .ok (r.1.toNat % 2 ^ (8 * size)) false)
  else match s.busRead die false pa size .once ag with
  | (s1, .ok bs p) =>
    (match s1.busWrite die false pa (leBytes size (f (leVal bs))) p ag with
     | (s2, .ok)     => (s2, .ok (leVal bs) p)
     | (s2, .error)  => (s2, .error)
     | (s2, .absent) => (s2, .absent))
  | (s1, .error)  => (s1, .error)
  | (s1, .absent) => (s1, .absent)

/-- An integer atomic by its AUX operation. -/
def State.memAmo (s : State) (die pa size op v : Nat) (ag : Option Nat := none) : State × Rmw :=
  s.memRmw die pa size (fun old => amoFn op (8 * size) old (v % 2 ^ (8 * size))) (op + 1) v ag

/-- The format of a float add by its AUX: BF16, binary32, binary64 (R209). -/
def faddFmt (aux : Nat) : Fmt := if aux = 1 then fBf16 else if aux = 2 then fB32 else fB64

/-- An IEEE 754 addition in a format with round to nearest even (R158). -/
def faddFn (aux old v : Nat) : Nat := (rvAdd (faddFmt aux) 0 old v false).1

/-- A float add to memory that is no ledger cell. -/
def State.memFadd (s : State) (die pa aux v : Nat) : State × Rmw :=
  s.memRmw die pa ((faddFmt aux).width / 8) (fun old => faddFn aux old v) 11 v

/-- The ledger cell a physical address names for an add of a size: die and cell (R225). -/
def State.ledgerAt (s : State) (pa size : Nat) : Option (Nat × Nat) :=
  if nodeOf pa ≠ s.node then none else
  match s.region (localOf pa) with
  | .ledger d c bf =>
    if (if bf then size = 2 ∧ pa % 2 = 0 else size = 4 ∧ pa % 4 = 0) ∧ c < s.lcells d then some (d, c) else none
  | _ => none

/-! ### The journal (R207 to R210) -/

/-- Entry kinds of R209. -/
abbrev jkLedger32 : Nat := 1
abbrev jkLedger16 : Nat := 2
abbrev jkAtomic : Nat := 3
abbrev jkSem : Nat := 4
abbrev jkRelease : Nat := 5
abbrev jkCompletion : Nat := 6
abbrev jkFadd : Nat := 7

/-- Status codes of epochs. -/
abbrev stEpoLost : Nat := 0x60
abbrev stEpoNoreplay : Nat := 0x61
abbrev stEpoPubFail : Nat := 0x62

/-- The effect of a journal entry on its target, and what the target answers.  failed is the
index of the journal's first failed entry, which later completions report (R213). -/
def State.applyEnt (s : State) (n : Nat) (e : JEnt) (failed : Option Nat) : State × Wr :=
  let die := tileDie n
  match e.kind with
  | 1 =>
    if nodeOf e.addr ≠ s.node then (s.fgnAtomic e.addr (fgnAux 11 4) (leBytes 4 e.operand), .ok) else
    (match s.ledgerAt e.addr 4 with
    | some (d, c) => (s.ledgerAdd d c (decIeee fB32 e.operand), .ok)
    | none        => (s, .error))
  | 2 =>
    if nodeOf e.addr ≠ s.node then (s.fgnAtomic e.addr (fgnAux 11 2) (leBytes 2 e.operand), .ok) else
    (match s.ledgerAt e.addr 2 with
    | some (d, c) => (s.ledgerAdd d c (decIeee fBf16 e.operand), .ok)
    | none        => (s, .error))
  | 3 =>
    let r := s.memAmo die e.addr (if nbits e.aux 3 3 = 1 then 8 else 4) (nbits e.aux 2 0) e.operand
    (r.1, r.2.ack)
  | 4 =>
    let r := s.memAmo die e.addr 8 0 e.operand
    (r.1, r.2.ack)
  | 5 => ({ s with releases := s.releases ++ [(8 * n + e.addr % 8, nbits e.operand 31 0)] }, .ok)
  | 6 => (match e.work, failed with
    | some w, none   => (s.served w (nbits e.operand 7 0) (nbits e.operand 39 8), .ok)
    | some w, some i => (s.served w stEpoPubFail i, .ok)
    | none, _        => (s, .ok))
  | _ =>
    let r := s.memFadd die e.addr e.aux e.operand
    (r.1, r.2.ack)

/-- Entries the journal holds (R210). -/
def journalCap : Nat := 4080

/-- A journaled effect that finds the journal full leaves the epoch unprotected (R199). -/
def State.journalFull (s : State) (n : Nat) : State :=
  (s.wr (EPO_STAT n) EPO_STAT_UNPROT 1).bump (EPO_ERR n) EPO_ERR_JFULL

/-- An effect of the table of R207: held in the journal, or applied at once with its target's answer. -/
def State.effectEnt (s : State) (n : Nat) (e : JEnt) : State × Wr :=
  if s.journaled n then
    let ep := s.epo n
    if ep.jrnl.length < journalCap then
      ((s.setEpo n { ep with jrnl := ep.jrnl ++ [e] }).wr (EPO_STAT n) EPO_STAT_JCOUNT (ep.jrnl.length + 1), .ok)
    else (s.journalFull n).applyEnt n e none
  else (s.gapDirty n).applyEnt n e none

/-- A semaphore release (R183, R189, R58). -/
def State.semRelease (s : State) (n pa v : Nat) : State × Wr :=
  s.effectEnt n { addr := pa, kind := jkSem, aux := 0, operand := v % 2 ^ 64, work := none, poison := false }

/-- The completion of a descriptor by the tile: journaled inside a protected epoch (R207). -/
def State.tileDone (s : State) (n : Nat) (w : Work) (pos status detail : Nat) : State :=
  (s.effectEnt n { addr := pos, kind := jkCompletion, aux := 0, operand := status + (detail % 2 ^ 32) * 2 ^ 8,
                   work := some w, poison := false }).1

/-! ### Records (R200) -/

/-- The start or resume record as things stand now, with the kernel of an epoch that a kernel opened. -/
def State.record (s : State) (n : Nat) (kernel : Bool) : EpoRec :=
  let t := s.tile n
  { pc := s.rd (TIL_SEQ_STAT n) TIL_SEQ_STAT_PC, g := t.seq.g, rstack := t.seq.rstack, held := t.seq.held, pos := t.seq.pos,
    rc := t.rc, ports := t.ports.map (fun p => (p.1, (p.2.nextSeq, p.2.accepted - p.2.fifo.length))),
    kern := if kernel then t.kern.map (·.work) else none, kernBySeq := (match t.kern with | some k => k.bySeq | none => false),
    kernEpochs := (match t.kern with | some k => k.epochs | none => 0),
    mat := t.mat.map (fun j => { j with ot := j.retired, set := 0, active := none, filling := none }) }

/-! ### Waking the sequencer -/

/-- The sequencer's wait ends. -/
def State.seqRun (s : State) (n : Nat) : State := s.wr (TIL_SEQ_STAT n) TIL_SEQ_STAT_WAIT_KIND 0

/-- The sequencer's program counter set; an index outside the 8,192 of the instruction memory is remembered as such. -/
def State.seqPc (s : State) (n : Nat) (pc : Int) : State :=
  let t := s.tile n
  (s.setTile n { t with seq := { t.seq with beyond := decide (pc < 0) || decide (8192 ≤ pc) } }).wr (TIL_SEQ_STAT n)
    TIL_SEQ_STAT_PC (unsgn 13 pc)

/-- The sequencer moves past the instruction it waits at; GD of that instruction receives v. -/
def State.seqResume (s : State) (n : Nat) (gd : Nat) (v : Word) : State :=
  let t := s.tile n
  let pc := s.rd (TIL_SEQ_STAT n) TIL_SEQ_STAT_PC
  let s1 := s.setTile n { t with seq := { t.seq with g := if gd = 0 then t.seq.g else mset 0 t.seq.g gd v } }
  (s1.seqRun n).seqPc n (pc + 1)

/-- GD of the instruction at the sequencer's program counter. -/
def State.seqGd (s : State) (n : Nat) : Nat :=
  bits ((s.tile n).micro.getD (s.rd (TIL_SEQ_STAT n) TIL_SEQ_STAT_PC) 0) 25 22

/-- The sequencer restarts at index 0 with all registers zero. -/
def State.seqRestart (s : State) (n : Nat) : State :=
  let t := s.tile n
  ((s.setTile n { t with seq := { Seq.reset with run := t.seq.run, kout := t.seq.kout } }).seqRun n).wr (TIL_SEQ_STAT n)
    TIL_SEQ_STAT_PC 0

/-- Umbel 0 goes on from an epoch instruction; done counts one more epoch committed by the kernel (R185, R217). -/
def State.umb0Wake (s : State) (n : Nat) (done : Bool) : State :=
  let t := s.tile n
  match t.kern with
  | none => s
  | some k =>
    let wake (p : Nat × Umb) : Nat × Umb :=
      if p.1 = 0 ∧ p.2.wait = .epo then (p.1, { p.2 with wait := UWait.none }) else p
    s.setTile n { t with kern := some { k with umbels := k.umbels.map wake, epochs := k.epochs + b2n done } }

/-! ### Opening (R198 to R200) -/

/-- Some Loupe halts a tile (R125). -/
def State.halted (s : State) (n : Nat) : Bool := s.loupe.any (fun p => p.2.halted.contains n)

/-- A halt of a tile has taken effect: in resilient mode once its epoch is committed, in lean mode once its descriptor is over (R125). -/
def State.haltNow (s : State) (n : Nat) : Bool := s.halted n && (!s.resil || s.epoSt n == esClosed)

/-- A tile waits at its next opening: in resilient mode some Loupe halts it, or it holds a descriptor of a HOST_LOST ring (R125, R221,
R397). -/
def State.epoHeld (s : State) (n : Nat) : Bool :=
  let t := s.tile n
  let lost (w : Option Work) : Bool := match w with
    | some x => s.ringSt x.ring == rsHostLost && (s.ring x.ring).gen == x.gen
    | none   => false
  (s.resil && s.halted n) || lost t.seq.held || lost (t.kern.map (·.work)) || lost (t.mat.map (·.work))

/-- An epoch opens, by the sequencer (1) or by umbel 0 (2): the number rises, the journal empties, the start record is
written; in lean mode nothing else is kept (R199, R221). -/
def State.epoOpen (s : State) (n who : Nat) : State :=
  let num := (s.epoNum n + 1) % 2 ^ 63
  let s1 := ((s.setEpoSt n esOpen).wr (EPO_NUM n) EPO_NUM_NUMBER num).wr (EPO_STAT n) EPO_STAT_TIMER 0
  let s2 := (s1.wr (EPO_STAT n) EPO_STAT_JCOUNT 0).wr (EPO_STAT n) EPO_STAT_KERNEL (b2n (who == 2))
  let s3 := s2.wr EPO_MODE EPO_MODE_OPEN_CNT (s2.rd EPO_MODE EPO_MODE_OPEN_CNT + 1)
  let ep := s3.epo n
  let r := s3.record n (who == 2)
  let start : EpoRec := if who = 1 then
      { r with pc := r.pc + 1, g := if s.seqGd n = 0 then r.g else mset 0 r.g (s.seqGd n) (BitVec.ofNat 64 num) } else r
  let s4 := s3.setEpo n { ep with jrnl := [], opener := who, opening := s.resil, committer := 0, sealed := false, relaunch := false,
                                  start := if s.resil then some start else none }
  s4.spwOpen n num

/-! ### Committing (R199, R211) -/

/-- A commit starts: SEALING, or REPLAY while the epoch is replayed; in lean mode the epoch closes at once. -/
def State.epoSeal (s : State) (n who : Nat) : State :=
  let ep := s.epo n
  let s1 := if s.epoSt n = esReplay then s else s.setEpoSt n esSealing
  s1.setEpo n { ep with committer := who, opening := false }

/-- The release of chunks held for a committed receiver: its peers drop what the epoch accepted (R215). -/
def State.dropRetained (s : State) (n : Nat) : State :=
  (List.range 8).foldl (fun (t : State) p =>
    let a := TIL_PORT_STAT n p
    if t.rd a TIL_PORT_STAT_STATE = 1 ∧ t.rd a TIL_PORT_STAT_DIR = 0 then
      let me := mget PortSt.reset (t.tile n).ports p
      let taken := me.accepted - me.fifo.length
      let q := t.rd a TIL_PORT_STAT_PEER_TILE
      let qp := t.rd a TIL_PORT_STAT_PEER_PORT
      let peer := t.tile q
      let pp := mget PortSt.reset peer.ports qp
      let pp1 := { pp with retained := pp.retained.filter (fun c => decide (taken ≤ c.seq)) }
      t.setTile q { peer with ports := mset PortSt.reset peer.ports qp pp1 }
    else t) s

/-- The epoch of an ID closes: its flags clear and fewer epochs are open. -/
def State.epoClose (s : State) (n : Nat) : State :=
  let s1 := [EPO_STAT_STATE, EPO_STAT_UNPROT, EPO_STAT_NOREPLAY, EPO_STAT_KERNEL, EPO_STAT_JCOUNT].foldl
    (fun t f => t.wr (EPO_STAT n) f 0) s
  let s2 := s1.wr EPO_MODE EPO_MODE_OPEN_CNT (s1.rd EPO_MODE EPO_MODE_OPEN_CNT - 1)
  let ep := s2.epo n
  s2.setEpo n { ep with jrnl := [], opener := 0, opening := false, committer := 0, sealed := false, relaunch := false }

/-- The commit point (R211): the journal goes to the publisher, the epoch closes, the resume record holds, and whoever
committed goes on.  us is the interruption measured for a replay (R219). -/
def State.commitPoint (s : State) (n us : Nat) : State :=
  let ep := s.epo n
  let num := s.epoNum n
  let replay := s.epoSt n = esReplay
  let pub := if ep.jrnl = [] then ep.pub else ep.pub ++ [{ num := num, ents := ep.jrnl, idx := 0, failed := none, pend := [] }]
  let s1 := (s.setEpo n { ep with pub := pub, committed := num, sent := [] }).epoClose n
  let s2 := s1.wr (EPO_STAT n) EPO_STAT_GAP_DIRTY 0
  let s3 := if replay then
      ((s2.bump (EPO_RPL n) EPO_RPL_COUNT).wr (EPO_RPL n) EPO_RPL_LAST_US (min us 0xFFFF)).event 0x03 3 n
        (s2.rd (TIL_MAP n) TIL_MAP_PHYS) (min us 0xFFFF + (num % 2 ^ 48) * 2 ^ 16)
    else s2
  let s4 := if ep.committer = 1 then s3.seqResume n 0 0
    else if ep.opener = 2 ∨ ep.committer = 2 then s3.umb0Wake n true
    else s3
  let s5 := if ep.fault then
      let s6 := s4.seqRestart n
      s6.setEpo n { s6.epo n with fault := false }
    else s4
  let rec5 := s5.record n (ep.opener == 2)
  ((s5.setEpo n { s5.epo n with resume := if s.resil then some rec5 else none }).dropRetained n).spwCommit n num

/-! ### The commands -/

/-- START_RECORD_WRITTEN: the epoch opening completes and the instruction that waits for it goes on (R199, R200). -/
def execStartRecordWritten (n : TileId) (s : State) : Host.Outcome State Fault Refusal :=
  let ep := s.epo n.val
  if ¬ ep.opening then .next s else
  let s1 := s.setEpo n.val { ep with opening := false }
  if ep.opener = 1 then .next (s1.seqResume n.val (s1.seqGd n.val) (BitVec.ofNat 64 (s1.epoNum n.val)))
  else .next (s1.umb0Wake n.val false)

/-- EPOCH_OVERRUN: the timer reaches 150,000 in an open epoch of resilient mode; it does not count in a replay (R199, R221). -/
def execEpochOverrun (n : TileId) (s : State) : Host.Outcome State Fault Refusal :=
  if s.resil ∧ s.epoSt n.val = esOpen then
    let s1 := (s.wr (EPO_STAT n.val) EPO_STAT_UNPROT 1).wr (EPO_STAT n.val) EPO_STAT_TIMER 150000
    .next ((s1.bump (EPO_ERR n.val) EPO_ERR_OVERRUN).event 0x05 0 n.val subNone (s.epoNum n.val))
  else .next s

/-- The PRISM_RELEASE entries of a commit: one for each Prism port that sent, journaled or applied directly (R207, R210). -/
def State.sealReleases (s : State) (n : Nat) : State :=
  (s.epo n).sent.foldl (fun t p =>
    (t.effectEnt n { addr := p.1, kind := jkRelease, aux := 0, operand := p.2, work := none, poison := false }).1) s

/-- Writes of the epoch are under way: commands of the sequencer, output tiles, or descriptors of queues 0 to 5 that a halt does not
hold (R211). -/
def State.epoBusy (s : State) (n : Nat) : Bool :=
  let t := s.tile n
  let dma (q : Nat) : Bool := (mget [] t.dma q).any (fun e =>
    (e.started && e.moved) || !s.flag (TIL_DMA_STAT n q) TIL_DMA_STAT_HALTED)
  t.clv != [] || t.mvc != [] || t.cvc != [] || t.outs != [] || (List.range 6).any dma

/-- JOURNAL_SEAL_WRITE: once the epoch's writes are visible, the dirty bytes of the L1 written back among them, the journal and the
resume record are written to the mirror (R211). -/
def execJournalSealWrite (n : TileId) (s : State) : Host.Outcome State Fault Refusal :=
  let ep := s.epo n.val
  if ep.committer = 0 ∨ ep.sealed ∨ s.epoBusy n.val then .next s else
  let s1 := (s.l1FlushAll n.val).sealReleases n.val
  .next (s1.setEpo n.val { s1.epo n.val with sealed := true, sent := [] })

/-- COMMIT_POINT: the seal write completes (R211). -/
def execCommitPoint (n : TileId) (us : BitVec 16) (s : State) : Host.Outcome State Fault Refusal :=
  if (s.epo n.val).sealed then .next (s.commitPoint n.val us.toNat) else .next s

/-- The publisher's first journal of an ID with its next entry taken out; a release or a completion waits until every earlier entry is
visible (R212). -/
def nextEntry (ep : EpoSt) : Option (JEnt × Journal × List Journal) :=
  match ep.pub with
  | [] => none
  | j :: r => match j.ents with
    | [] => none
    | e :: es => if (e.kind = jkSem ∨ e.kind = jkCompletion) ∧ j.pend ≠ [] then none
                 else some (e, { j with ents := es, idx := j.idx + 1 }, r)

/-- The publisher after an entry of a journal: a journal with no entry left or unanswered is published. -/
def State.published (s : State) (n : Nat) (j : Journal) (r : List Journal) : State :=
  s.setEpo n { s.epo n with pub := if j.ents = [] ∧ j.pend = [] then r else j :: r }

/-- Entry i of a journal fails (R213). -/
def State.entryFailAt (s : State) (n : Nat) (j : Journal) (r : List Journal) (i : Nat) : State :=
  let s1 := (s.bump (EPO_RPL n) EPO_RPL_PUB_FAIL).event 0x08 5 n i j.num
  s1.published n { j with failed := some (j.failed.getD i) } r

/-- The entry just taken from a journal fails. -/
def State.entryFail (s : State) (n : Nat) (j : Journal) (r : List Journal) : State := s.entryFailAt n j r (j.idx - 1)

/-- The answers to entries sent to other nodes: those that hit picks are answered, and fail unless ok (R212, R213). -/
def State.pubAnswer (s : State) (hit : Nat × Nat × Nat → Bool) (ok : Bool) : State :=
  s.tiles.foldl (fun (t : State) p => match (t.epo p.1).pub with
    | [] => t
    | j :: r =>
      let mine := j.pend.filter hit
      if mine = [] then t else
      let j1 := { j with pend := j.pend.filter (fun x => !hit x) }
      if ok then t.published p.1 j1 r
      else mine.foldl (fun (u : State) x => match (u.epo p.1).pub with
        | k :: q => u.entryFailAt p.1 { k with pend := k.pend.filter (· != x) } q x.2.2
        | []     => u) t) s

/-- An entry acts on another node, whose answer comes later. -/
def JEnt.remote (e : JEnt) (node : Nat) : Bool := e.kind != jkRelease && e.kind != jkCompletion && nodeOf e.addr != node

/-- JOURNAL_ENTRY_PUBLISH: the next entry of a committed journal is applied, or sent to another node, which answers later; a poisoned one is skipped (R212, R213,
R491). -/
def execJournalEntryPublish (n : TileId) (s : State) : Host.Outcome State Fault Refusal :=
  match nextEntry (s.epo n.val) with
  | none => .next s
  | some (e, j, r) =>
    if e.poison then
      let s1 := (s.bump TST_DROP TST_DROP_JRNL_POISON).event 0x07 5 n.val (j.idx - 1) j.num
      .next (s1.published n.val j r)
    else
      match s.applyEnt n.val e j.failed with
      | (s1, .ok) => .next (s1.published n.val (if e.remote s.node then { j with pend := j.pend ++ [(s.fgnTx.1, nodeOf e.addr, j.idx - 1)] }
                                                else j) r)
      | (s1, _)   => .next (s1.entryFail n.val j r)

/-- JOURNAL_ENTRY_FAIL: the target of the next entry answers with an error response or ABSENT (R213). -/
def execJournalEntryFail (n : TileId) (s : State) : Host.Outcome State Fault Refusal :=
  match nextEntry (s.epo n.val) with
  | none => .next s
  | some (_, j, r) => .next (s.entryFail n.val j r)

/-- EPO_CTL_RELEASE: a frozen queue runs its descriptors again (R220). -/
def execEpoCtlRelease (n : TileId) (s : State) : Host.Outcome State Fault Refusal :=
  .next (s.wr (EPO_STAT n.val) EPO_STAT_FROZEN 0)

/-- EPO_CTL_FLUSH: every frozen descriptor completes with EPO_LOST, a deferred BIND or UNBIND included (R220). -/
def execEpoCtlFlush (n : TileId) (s : State) : Host.Outcome State Fault Refusal :=
  if s.flag (EPO_STAT n.val) EPO_STAT_FROZEN then
    let t := s.tile n.val
    let ws := t.bindIn.toList ++ t.offered.toList ++ t.wq ++ t.deferred.toList
    let s1 := s.setTile n.val { t with wq := [], deferred := none, bindIn := none, offered := none }
    let s2 := ws.foldl (fun u w => (u.served w stEpoLost (s.epoNum n.val % 2 ^ 32)).groupBusy w) s1
    .next ((s2.wr (TIL_STATUS n.val) TIL_STATUS_BIND_PEND 0).wr (EPO_STAT n.val) EPO_STAT_FROZEN 0)
  else .next s

/-- A facet is bound whose JRNL partition is smaller than one granule (R54). -/
def State.jrnlMissing (s : State) : Bool :=
  s.tiles.any (fun p => match p.2.bind with
    | some b => (match mfind s.facets b.handle with
      | some f => (match firstPart (facetParts (s.facetImage f)) 6 with
        | some q => decide (q.size < 1)
        | none   => true)
      | none => false)
    | none => false)

/-- A write of EPO_MODE (R54, R223): REFUSED is cleared by writing one; a change of RESIL or DET is refused while an epoch
is open, and resilient mode while a facet without a JRNL partition is bound. -/
def State.epoModeWrite (s : State) (v : Word) : State :=
  let s0 := if fget v EPO_MODE_REFUSED = 1 then s.wr EPO_MODE EPO_MODE_REFUSED 0 else s
  let r := fget v EPO_MODE_RESIL
  let d := fget v EPO_MODE_DET
  if r = s.rd EPO_MODE EPO_MODE_RESIL ∧ d = s.rd EPO_MODE EPO_MODE_DET then s0
  else if s.rd EPO_MODE EPO_MODE_OPEN_CNT ≠ 0 then
    (s0.wr EPO_MODE EPO_MODE_REFUSED 1).wr EPO_MODE EPO_MODE_REF_CAUSE 1
  else if r = 1 ∧ ¬ s.resil ∧ s.jrnlMissing then
    (s0.wr EPO_MODE EPO_MODE_REFUSED 1).wr EPO_MODE EPO_MODE_REF_CAUSE 2
  else (s0.wr EPO_MODE EPO_MODE_RESIL r).wr EPO_MODE EPO_MODE_DET d

/-- EPO_MODE_WRITE (R223). -/
def execEpoModeWrite (value : Word) (s : State) : Host.Outcome State Fault Refusal := .next (s.epoModeWrite value)

end Sys2Proof.Machine
end

