-- ==== Sys2Proof/Machine/Tile.lean ====
section
/-!
DEFINITION. Logical tiles (spec/02): stream ports, the dispatcher, binding and loading a facet, aperture accesses, and
facet registration commands.

Where the spec leaves open or is read by inference, and what is taken from outside it (DESIGN CHOICE, DEDUCED, PRESUMED):
notes/assumptions/42.md, 43.md, 75.md, 81.md.
-/

namespace Sys2Proof.Machine

open Sys2Proof

/-! ### Stream ports (R55, R214, R215) -/

/-- TIL_PORT_STAT.STATE codes. -/
abbrev psUnbound : Nat := 0
abbrev psReady : Nat := 1
abbrev psWait : Nat := 2
abbrev psError : Nat := 3

def State.portSt (s : State) (n p : Nat) : Nat := s.rd (TIL_PORT_STAT n p) TIL_PORT_STAT_STATE
def State.port (s : State) (n p : Nat) : PortSt := mget PortSt.reset (s.tile n).ports p
def State.setPort (s : State) (n p : Nat) (x : PortSt) : State :=
  s.setTile n { s.tile n with ports := mset PortSt.reset (s.tile n).ports p x }
def State.prsPort (s : State) (n p : Nat) : PrsPort := mget PrsPort.reset s.prsPorts (8 * n + p)
def State.setPrsPort (s : State) (n p : Nat) (x : PrsPort) : State :=
  { s with prsPorts := mset PrsPort.reset s.prsPorts (8 * n + p) x }

/-- The binding of a port: PEER_KIND, PEER_TILE and PEER_PORT (R51); kind 0 for a port that is not bound. -/
def State.portBind (s : State) (n p : Nat) : Nat × Nat × Nat :=
  match (s.tile n).bind with
  | none   => (0, 0, 0)
  | some b =>
    let w := b.ports.getD p 0
    if p < (s.tile n).portDecls.length then (bits w 7 0, bits w 15 8, bits w 18 16) else (0, 0, 0)

/-- The declaration of a port of an ID whose facet is loaded. -/
def State.portDecl (s : State) (n p : Nat) : Option PortDecl :=
  if s.tst n = tsUnbound then none else (s.tile n).portDecls[p]?

/-- The state a port with a tile as peer has now: ERROR with an OFFLINE peer or one of its own direction, and for an output
port WAIT_PEER until the peer is bound with an input port of the named number (R37, R55). -/
def State.portWants (s : State) (n p q qp : Nat) : Nat :=
  match s.portDecl n p with
  | none => psUnbound
  | some d =>
    if s.tst q = tsOffline then psError else
    match s.portDecl q qp with
    | none    => if d.out then psWait else psReady
    | some d2 => if d2.out == d.out then psError else psReady

/-- Chunks on their way to a tile's port. -/
def State.inFlight (s : State) (kind q qp : Nat) : Nat :=
  (s.mesh.filter (fun m => m.kind == kind && m.tile == q && m.port == qp)).length

/-- The credits of an output port counted anew: its peer's depth less what is on the way, held or owed. -/
def State.recredit (s : State) (n p : Nat) : State :=
  let b := s.portBind n p
  let x := s.port n p
  if b.1 = 1 then
    let depth := match s.portDecl b.2.1 b.2.2 with | some d => d.depth | none => 0
    let peer := s.port b.2.1 b.2.2
    s.setPort n p { x with credits := depth - s.inFlight 0 b.2.1 b.2.2 - peer.fifo.length - peer.owed }
  else
    let depth := match s.portDecl n p with | some d => d.depth | none => 0
    let y := s.prsPort n p
    s.setPort n p { x with credits := depth - s.inFlight b.1 n p - y.held.length - y.owed }

/-- Some tile's port names port qp of an ID as its peer, and both have one direction: both are in ERROR (R55). -/
def State.portClash (s : State) (q qp : Nat) : Bool :=
  match s.portDecl q qp with
  | none => false
  | some d => s.tiles.any (fun k => (List.range 8).any (fun p =>
      s.portBind k.1 p == (1, q, qp) && (match s.portDecl k.1 p with | some e => e.out == d.out | none => false)))

/-- A port's state register brought up to date; entering ERROR is counted. -/
def State.refreshPort (s : State) (n p : Nat) : State :=
  let b := s.portBind n p
  let a := TIL_PORT_STAT n p
  let was := s.portSt n p
  let want := if s.portClash n p then psError else if b.1 = 0 then psUnbound else if b.1 = 1 then s.portWants n p b.2.1 b.2.2 else psReady
  let s1 := s.wr a TIL_PORT_STAT_STATE want
  let s2 := if want = psError ∧ was ≠ psError then s1.bump (TIL_ERR n) TIL_ERR_PORT_ERR else s1
  if want = psReady ∧ was ≠ psReady then s2.recredit n p else s2

/-- The tile ports that an ID's ports name as their peers. -/
def State.peersOf (s : State) (n : Nat) : List (Nat × Nat) :=
  (List.range 8).filterMap (fun p => if (s.portBind n p).1 = 1 then some (s.portBind n p).2 else none)

/-- The ports of a list brought up to date. -/
def State.refreshList (s : State) (l : List (Nat × Nat)) : State := l.foldl (fun t q => t.refreshPort q.1 q.2) s

/-- Every port of an ID, every port whose peer it is, and every port that its ports name. -/
def State.refreshPorts (s : State) (n : Nat) : State :=
  let own := (List.range 8).foldl (fun t p => t.refreshPort n p) s
  (own.tiles.foldl (fun t k => (List.range 8).foldl (fun u p =>
    let b := u.portBind k.1 p
    if b.1 = 1 ∧ b.2.1 = n ∧ k.1 ≠ n then u.refreshPort k.1 p else u) t) own).refreshList (own.peersOf n)

/-- An umbel waiting on a stream port of the tile looks again. -/
def State.streamWake (s : State) (n : Nat) : State :=
  let t := s.tile n
  match t.kern with
  | none   => s
  | some k =>
    let wake (p : Nat × Umb) : Nat × Umb := if p.2.wait = .stream then (p.1, { p.2 with wait := UWait.none }) else p
    s.setTile n { t with kern := some { k with umbels := k.umbels.map wake } }

/-- A refusal for want of a right is counted (R42). -/
def State.accessErr (s : State) (n : Nat) : State := s.bump (TIL_ERR n) TIL_ERR_ACCESS

/-- The STRM partition of a port grants right S to the stream ports (R42, R46). -/
def State.portRight (s : State) (n p : Nat) : Bool :=
  match s.portDecl n p with
  | some d => (match (s.tile n).parts[d.part]? with
    | some q => q.grants rtS
    | none   => false)
  | none => false

/-- A chunk sent from an output port that has a credit and, in resilient mode, room to retain it (R55, R215). -/
def State.sendChunk (s : State) (n p : Nat) (data : Line) (poison : Bool) : State :=
  let b := s.portBind n p
  let x := s.port n p
  let c : Chunk := { data := data, poison := poison, seq := x.nextSeq }
  let m : MeshChunk := if b.1 = 1 then { kind := 0, tile := b.2.1, port := b.2.2, chunk := c }
                       else { kind := b.1, tile := n, port := p, chunk := c }
  let s1 := s.setPort n p { x with credits := x.credits - 1, nextSeq := x.nextSeq + 1,
                                   retained := if s.resil && b.1 == 1 then x.retained ++ [c] else x.retained }
  let s2 := { s1 with mesh := s1.mesh ++ [m] }
  let ep := s2.epo n
  (if b.1 = 2 then s2.setEpo n { ep with sent := mput ep.sent p (x.nextSeq % 2 ^ 32) } else s2).gapDirty n

/-- Whether an output port can send a chunk now. -/
def State.canSend (s : State) (n p : Nat) : Bool :=
  let x := s.port n p
  let depth := match s.portDecl n p with | some d => d.depth | none => 0
  s.portSt n p == psReady && decide (0 < x.credits) &&
  (!(s.resil && (s.portBind n p).1 == 1) || decide (x.retained.length < depth))

/-- Taking the oldest chunk of an input port frees its place. -/
def State.takeChunk (s : State) (n p : Nat) : State :=
  let x := s.port n p
  (s.setPort n p { x with fifo := x.fifo.drop 1, owed := x.owed + 1 }).gapDirty n

/-- Sequence number a is at or before b, in 32 bits that wrap. -/
def seqLe (a b : Nat) : Bool := decide ((b + 2 ^ 32 - a % 2 ^ 32) % 2 ^ 32 < 2 ^ 31)

/-- Prism forwards what it holds up to the number released, or everything in lean mode; credits are owed for it (R214,
R430). -/
def State.prsForward (s : State) (n p : Nat) : State :=
  let y := s.prsPort n p
  let go (c : Chunk) : Bool := !s.resil || decide (c.seq < y.released)
  let out := y.held.filter go
  s.setPrsPort n p { y with held := y.held.filter (fun c => !go c), fwd := y.fwd ++ out, owed := y.owed + out.length }

/-- STREAM_CHUNK: the oldest chunk on its way to a port arrives: kept in order, a repeat discarded and counted; one for a port
whose partition grants no right S is refused and counted (R42); one from the other C-die needs link 0 (R31, R55, R214, R215, R430). -/
def execStreamChunk (dst : StreamDst) (s : State) : Host.Outcome State Fault Refusal :=
  match dst with
  | .tile n p =>
    match takeFirst (fun m => m.kind == 0 && m.tile == n.val && m.port == p.val) s.mesh with
    | none => .next s
    | some (m, rest) =>
      let s1 := { s with mesh := rest }
      let x := s1.port n.val p.val
      if s.tst n.val = tsRemap ∨ s.tst n.val = tsLoading then .next s
      else if s.portSt n.val p.val ≠ psReady then .next s1
      else if s.parted (tileDie (s.portBind n.val p.val).2.1) (tileDie n.val) then .next { s1 with answer := .absent }
      else if ¬ s.portRight n.val p.val then
        .next ((s1.accessErr n.val).setPort n.val p.val { x with owed := x.owed + 1 })
      else if m.chunk.seq = x.accepted then
        .next ((s1.setPort n.val p.val { x with fifo := x.fifo ++ [m.chunk], accepted := x.accepted + 1 }).streamWake n.val)
      else
        let s2 := s1.setPort n.val p.val { x with owed := x.owed + 1 }
        .next (if m.chunk.seq < x.accepted then s2.bump (EPO_ERR n.val) EPO_ERR_DUP else s2)
  | .prism n p =>
    match takeFirst (fun m => m.kind == 2 && m.tile == n.val && m.port == p.val) s.mesh with
    | none => .next s
    | some (m, rest) =>
      let s1 := { s with mesh := rest }
      let y := s1.prsPort n.val p.val
      if m.chunk.seq < y.accepted then
        .next ((s1.setPrsPort n.val p.val { y with owed := y.owed + 1 }).bump (PRS_CNT (tileDie n.val)) PRS_CNT_DUP)
      else .next ((s1.setPrsPort n.val p.val { y with held := y.held ++ [m.chunk], accepted := m.chunk.seq + 1 }).prsForward
        n.val p.val)
  | .speedwell n p =>
    match takeFirst (fun m => m.kind == 3 && m.tile == n.val && m.port == p.val) s.mesh with
    | none => .next s
    | some (_, rest) =>
      let s1 := { s with mesh := rest }
      let y := s1.prsPort n.val p.val
      .next (s1.setPrsPort n.val p.val { y with owed := y.owed + 1 })

/-- STREAM_CREDIT: the credits owed to a sender return to it (R55): to a tile's output port, or to Prism for a tile's input
port. -/
def execStreamCredit (dst : StreamDst) (s : State) : Host.Outcome State Fault Refusal :=
  match dst with
  | .tile n p =>
    let b := s.portBind n.val p.val
    let x := s.port n.val p.val
    if b.1 = 1 then
      let q := s.port b.2.1 b.2.2
      let s1 := s.setPort n.val p.val { x with credits := x.credits + q.owed }
      .next ((s1.setPort b.2.1 b.2.2 { s1.port b.2.1 b.2.2 with owed := 0 }).streamWake n.val)
    else if b.1 = 0 then .next s
    else
      let y := s.prsPort n.val p.val
      let s1 := s.setPort n.val p.val { x with credits := x.credits + y.owed }
      .next ((s1.setPrsPort n.val p.val { y with owed := 0 }).streamWake n.val)
  | .prism n p =>
    let x := s.port n.val p.val
    let y := s.prsPort n.val p.val
    .next ((s.setPort n.val p.val { x with owed := 0 }).setPrsPort n.val p.val { y with credits := y.credits + x.owed })
  | .speedwell _ _ => .next s

/-- PRISM_RELEASE: the oldest release of a port reaches Prism, which forwards chunks up to its number; one that releases
nothing new is a repeat (R214, R430). -/
def execPrismRelease (n : TileId) (p : StreamPort) (s : State) : Host.Outcome State Fault Refusal :=
  match takeFirst (fun r => r.1 == 8 * n.val + p.val) s.releases with
  | none => .next s
  | some (r, rest) =>
    let s1 := { s with releases := rest }
    let y := s1.prsPort n.val p.val
    if seqLe (r.2 + 1) y.released then .next (s1.bump (PRS_CNT (tileDie n.val)) PRS_CNT_DUP)
    else
      let up := y.released + (r.2 + 1 + 2 ^ 32 - y.released % 2 ^ 32) % 2 ^ 32
      .next ((s1.setPrsPort n.val p.val { y with released := up }).prsForward n.val p.val)

/-- RESEND_REQUEST: the sender of an input port sends the chunks it retains again, from the count its receiver names
(R215). -/
def execResendRequest (n : TileId) (p : StreamPort) (s : State) : Host.Outcome State Fault Refusal :=
  let b := s.portBind n.val p.val
  if b.1 ≠ 1 ∨ s.epoSt n.val ≠ esReplay then .next s else
  let x := s.port n.val p.val
  let peer := s.port b.2.1 b.2.2
  let rest := s.mesh.filter (fun m => !(m.kind == 0 && m.tile == n.val && m.port == p.val))
  let again := (peer.retained.filter (fun c => decide (x.accepted ≤ c.seq))).map
    (fun c => ({ kind := 0, tile := n.val, port := p.val, chunk := c } : MeshChunk))
  .next (({ s with mesh := rest ++ again }).recredit b.2.1 b.2.2)

/-! ### Aperture accesses (R38, R41, R42) -/

/-- APERTURE_ACCESS: another engine reads or writes a tile store through its aperture. -/
def execApertureAccess (src : Fin 3) (n : TileId) (off : BitVec 22) (len : BitVec 13) (write : Bool) (data : List Byte)
    (s : State) : Host.Outcome State Fault Refusal :=
  let a := 0x7C000000000 + n.val * 0x400000 + off.toNat
  let remap : Bool := s.tst n.val == tsRemap && decide (off.toNat < 0x300000)
  if write then
    match s.localWrite src.val a data false with
    | (s1, .ok)     => .next { s1 with answer := if remap then .remap else .done }
    | (s1, .error)  => .next { s1 with answer := .error }
    | (s1, .absent) => .next { s1 with answer := .absent }
  else
    match s.localRead src.val a len.toNat with
    | (s1, .ok bs p) => .next { s1 with answer := if remap then .remap else .data bs p }
    | (s1, .error)   => .next { s1 with answer := .error }
    | (s1, .absent)  => .next { s1 with answer := .absent }

/-! ### The dispatcher (R39, R60, R61) -/

/-- A descriptor leaves the head of a work queue. -/
def State.wqPop (s : State) (n : Nat) (w : Work) : State :=
  (s.setTile n { s.tile n with wq := (s.tile n).wq.drop 1 }).groupBusy w

/-- A READY tile that is given work becomes BUSY (R39). -/
def State.busyTile (s : State) (n : Nat) : State := if s.tst n = tsReady then s.setTst n tsBusy else s

/-- A DMA queue of a tile. -/
def State.dq (s : State) (n q : Nat) : DmaQ := mget [] (s.tile n).dma q

/-- A DMA queue replaced; OCC follows (R58). -/
def State.setDq (s : State) (n q : Nat) (d : DmaQ) : State :=
  (s.setTile n { s.tile n with dma := mset [] (s.tile n).dma q d }).wr (TIL_DMA_STAT n q) TIL_DMA_STAT_OCC d.length

/-- A tile takes the work it waits for at TAKE: it is held, GD gets its type, and the sequencer goes on (R191); a
tile whose halt has taken effect takes none (R125). -/
def State.takeWake (s : State) (n : Nat) : State :=
  let t := s.tile n
  match t.offered with
  | none => s
  | some w =>
    if s.rd (TIL_SEQ_STAT n) TIL_SEQ_STAT_WAIT_KIND = 1 ∧ t.seq.run ∧ ¬ s.haltNow n then
      let gd := s.seqGd n
      let s1 := s.setTile n { t with offered := none, seq := { t.seq with held := some w, pos := t.pos, worst := 0, mvCounted := false } }
      (s1.seqResume n gd (BitVec.ofNat 64 (bits w.desc 7 0))).wr (TIL_SEQ_STAT n) TIL_SEQ_STAT_HELD 1
    else s

/-- The queue-6 entry of a DMA or WRITE_INLINE descriptor (R376, R377). -/
def State.queue6Ent (s : State) (w : Work) : DmaEnt :=
  { desc := BitVec.ofNat 256 (bits w.desc 511 256), inline := if bits w.desc 7 0 = 2 then some w.desc else none,
    pasid := s.pasidOf w, work := some w, started := false, moved := false }

/-- The descriptor at the head of a work queue delivered: to the loader, to DMA queue 6 or to the sequencer (R39, R60).  An OFFLINE ID
answers TILE_OFFLINE whatever else is wrong with a BIND (DESIGN CHOICE, log 75: R37 and R39 against the order of R51); a DMA descriptor
with a reserved bit of its header's rest set is refused with HIF_MALFORMED (R375, R377); one for queue 6 waits until every earlier
descriptor is taken (R60); those of a tile whose halt has taken effect stay queued (R125). -/
def State.dispatch (s : State) (n : Nat) : State :=
  let t := s.tile n
  match t.wq with
  | [] => s
  | w :: _ =>
    let ty := bits w.desc 7 0
    let st := s.tst n
    if s.computeHeld then s
    else if st = tsOffline then (s.wqPop n w).refuse w stTileOffline 0
    else if st = tsRemap ∨ st = tsLoading ∨ s.flag (EPO_STAT n) EPO_STAT_FROZEN ∨ s.ringHeld w ∨ s.haltNow n then s
    else if ty = 0x20 ∨ ty = 0x21 then
      if t.bindIn.isSome then s
      else let s1 := s.wqPop n w; s1.setTile n { s1.tile n with bindIn := some w }
    else if st = tsUnbound then (s.wqPop n w).refuse w stNotBound 0
    else if t.bindIn.isSome then s
    else if ty = 2 ∨ ty = 3 then
      if t.offered.isSome ∨ 64 ≤ (s.dq n 6).length then s
      else
        let s1 := s.wqPop n w
        match if ty = 3 then lowBit w.desc 255 64 else none with
        | some b => s1.refuse w stHifMalformed b
        | none => ((s1.setDq n 6 (s1.dq n 6 ++ [s.queue6Ent w])).busyTile n)
    else if t.offered.isSome ∨ (ty = 0x12 ∧ t.kern.isSome) then s
    else
      let s1 := s.wqPop n w
      ((s1.setTile n { s1.tile n with offered := some w, pos := t.pos + 1 }).busyTile n).takeWake n

/-- WORK_DISPATCH (R60). -/
def execWorkDispatch (n : TileId) (s : State) : Host.Outcome State Fault Refusal := .next (s.dispatch n.val)

/-- The head of a work queue is of a type. -/
def State.headType (s : State) (n ty : Nat) : Bool :=
  match (s.tile n).wq with
  | []     => false
  | w :: _ => bits w.desc 7 0 == ty

/-- DMA: the dispatcher carries the DMA descriptor at the head of a work queue to queue 6 (R60, R377). -/
def execDma (n : TileId) (s : State) : Host.Outcome State Fault Refusal :=
  if s.headType n.val 3 then .next (s.dispatch n.val) else .next s

/-- FACET_WORK: the dispatcher passes the FACET_WORK descriptor at the head of a work queue to the sequencer (R380). -/
def execFacetWork (n : TileId) (s : State) : Host.Outcome State Fault Refusal :=
  if s.headType n.val 0x11 then .next (s.dispatch n.val) else .next s

/-- The sequencer waits at TAKE with no descriptor held, or does not run: the loader acts on a BIND or UNBIND then (R191). -/
def State.seqIdle (s : State) (n : Nat) : Bool :=
  let t := s.tile n
  !t.seq.run || (t.seq.held.isNone && s.rd (TIL_SEQ_STAT n) TIL_SEQ_STAT_WAIT_KIND == 1)

/-- TILE_IDLE: a BUSY tile whose work queue is empty and whose sequencer is idle becomes READY and starts a deferred BIND
or UNBIND (R39). -/
def execTileIdle (n : TileId) (s : State) : Host.Outcome State Fault Refusal :=
  let t := s.tile n.val
  if s.tst n.val = tsBusy ∧ t.wq = [] ∧ t.offered = none ∧ t.bindIn = none ∧ s.seqIdle n ∧ t.mat = none ∧
     t.kern = none ∧ ¬ s.flag (EPO_STAT n) EPO_STAT_FROZEN then
    let s1 := s.setTst n.val tsReady
    .next ((s1.setTile n.val { t with deferred := none, bindIn := t.deferred }).wr (TIL_STATUS n.val) TIL_STATUS_BIND_PEND 0)
  else .next s

/-! ### Binding (R51, R52) -/

/-- References on a facet changed by one. -/
def State.refUp (s : State) (h : Nat) : State :=
  match mfind s.facets h with
  | some f => { s with facets := mput s.facets h { f with refs := f.refs + 1 } }
  | none   => s
def State.refDown (s : State) (h : Nat) : State :=
  match mfind s.facets h with
  | some f => { s with facets := mput s.facets h { f with refs := f.refs - 1 } }
  | none   => s

/-- The bind record cleared and its reference released (R52). -/
def State.unbind (s : State) (n : Nat) : State :=
  let t := s.tile n
  match t.bind with
  | none   => s
  | some b => (s.setTile n { t with bind := none }).refDown b.handle

/-- The 24 words of a parameter block. -/
def paramWords (bs : List Byte) : List Word := (List.range 24).map (fun i => BitVec.ofNat 64 (leAt bs (8 * i) 8))

/-- BAD_PARAM and BAD_PORT of R51, in their order. -/
def blockFault (img : List Byte) (ws : List Word) : Option Nat :=
  let decls := facetParams img
  let badParam := (List.range 16).any (fun i =>
    let v := (ws.getD i 0).toNat
    match decls[i]? with
    | some (lo, hi) => decide (v < lo) || decide (hi < v)
    | none          => v != 0)
  let badPort := (List.range 8).any (fun p =>
    let w := ws.getD (16 + p) 0
    bits w 63 19 != 0 || decide (3 < bits w 7 0) || decide (95 < bits w 15 8) ||
    (bits w 7 0 != 0 && decide ((facetPorts img).length ≤ p)))
  if badParam then some stBadParam else if badPort then some stBadPort else none

/-- The JRNL partition of an image holds at least one granule. -/
def hasJrnl (img : List Byte) : Bool :=
  match firstPart (facetParts img) 6 with
  | some q => decide (1 ≤ q.size)
  | none   => false

/-- A BIND served: the same handle and parameters on a READY ID need no load; otherwise the bind record is written, the
references move and the ID loads (R39, R52). -/
def State.bindServe (s : State) (n : Nat) (w : Work) (h : Nat) (ws : List Word) : State :=
  let b : BindRec := { handle := h, params := ws.take 16, ports := ws.drop 16 }
  if s.tst n = tsReady ∧ (s.tile n).bind = some b then (s.served w stServed 0).pacerLost n
  else
    let peers := s.peersOf n
    let s1 := ((s.unbind n).refUp h).setTst n tsLoading
    let t := s1.tile n
    let s2 := s1.setTile n { t with bind := some b, loadWork := some w, portDecls := [], seq := { t.seq with run := false } }
    (((s2.wr (TIL_STATUS n) TIL_STATUS_HANDLE h).pacerLost n).refreshPorts n).refreshList peers

/-- A BIND at the loader: the first outcome of R51 that applies.  A block whose translation is not at hand waits. -/
def State.bindWork (s : State) (n : Nat) (w : Work) : State :=
  let take (t : State) : State := t.setTile n { t.tile n with bindIn := none }
  let h := bits w.desc 71 64
  let va := bits w.desc 183 128
  match minOpt (lowBit w.desc 127 72) (minOpt (lowBit w.desc 133 128) (lowBit w.desc 511 184)) with
  | some b => (take s).refuse w stHifMalformed b
  | none =>
    match mfind s.facets h with
    | none => (take s).refuse w stBadHandle 0
    | some f =>
      if f.damaged then (take s).refuse w stFacetPoisoned 0 else
      match s.vread (tileDie n) (s.pasidOf w) va 192 with
      | (_, .miss)         => s
      | (s1, .error)       => (take s1).refuse w stParamFault 0
      | (s1, .absent)      => (take s1).refuse w stParamFault 0
      | (s1, .fault)       => (take s1).refuse w stParamFault 0
      | (s1, .ok bs pois)  =>
        if pois then (take s1).refuse w stParamFault 0 else
        let img := s1.facetImage f
        let ws := paramWords bs
        match blockFault img ws with
        | some st => (take s1).refuse w st 0
        | none =>
          if s1.tst n = tsOffline then (take s1).refuse w stTileOffline 0
          else if (s1.tile n).deferred.isSome then (take s1).refuse w stBindPending 0
          else if s1.resil ∧ ¬ hasJrnl img then (take s1).refuse w stMode 0
          else if s1.tst n = tsBusy then
            let r := (take s1).deferWork w stDeferred
            (r.1.setTile n { r.1.tile n with deferred := some r.2 }).wr (TIL_STATUS n) TIL_STATUS_BIND_PEND 1
          else if s1.tst n = tsLoading ∨ s1.tst n = tsRemap ∨ (s1.tst n = tsReady ∧ ¬ s1.seqIdle n) then s1
          else (take s1).bindServe n w h ws

/-- BIND (R51). -/
def execBind (n : TileId) (s : State) : Host.Outcome State Fault Refusal :=
  match (s.tile n.val).bindIn with
  | some w => if bits w.desc 7 0 = 0x20 then .next (s.bindWork n.val w) else .next s
  | none   => .next s

/-- An ID without a facet: UNBOUND, its handle no longer valid, its ports unbound. -/
def State.toUnbound (s : State) (n : Nat) : State :=
  let peers := s.peersOf n
  let t := (s.unbind n).tile n
  let s1 := (s.unbind n).setTile n { t with portDecls := [], routes := [], parts := [], micro := [], loadWork := none,
                                            seq := { t.seq with run := false } }
  ((s1.setTst n tsUnbound).refreshPorts n).refreshList peers

/-- An UNBIND at the loader (R39, R51). -/
def State.unbindWork (s : State) (n : Nat) (w : Work) : State :=
  let take (t : State) : State := t.setTile n { t.tile n with bindIn := none }
  let st := s.tst n
  match lowBit w.desc 511 64 with
  | some b => (take s).refuse w stHifMalformed b
  | none =>
    if st = tsOffline then (take s).refuse w stTileOffline 0
    else if (s.tile n).deferred.isSome then (take s).refuse w stBindPending 0
    else if st = tsBusy then
      let r := (take s).deferWork w stDeferred
      (r.1.setTile n { r.1.tile n with deferred := some r.2 }).wr (TIL_STATUS n) TIL_STATUS_BIND_PEND 1
    else if st = tsLoading ∨ st = tsRemap ∨ (st = tsReady ∧ ¬ s.seqIdle n) then s
    else if st = tsUnbound then (take s).refuse w stNotBound 0
    else ((take s).toUnbound n).served w stServed 0

/-- UNBIND (R51). -/
def execUnbind (n : TileId) (s : State) : Host.Outcome State Fault Refusal :=
  match (s.tile n.val).bindIn with
  | some w => if bits w.desc 7 0 = 0x21 then .next (s.unbindWork n.val w) else .next s
  | none   => .next s

/-! ### Loading (R53, R217) -/

/-- A tile store zeroed from an offset over a length, its poison included. -/
def zeroRange (m : List Host.Cell) (a len : Nat) : List Host.Cell :=
  m.filter (fun c => !(decide (a ≤ c.1) && decide (c.1 < a + len)))
def zeroPois (m : List (Nat × Bool)) (a len : Nat) : List (Nat × Bool) :=
  m.filter (fun c => !(decide (a ≤ c.1) && decide (c.1 < a + len)))

/-- The store after a load: the CONST section in the first CONST partition, every other partition zero (R53). -/
def State.loadStore (s : State) (n : Nat) (img : List Byte) : State :=
  let parts := facetParts img
  let const := sectBytes img 6
  let ci := if const = [] then none else parts.findIdx? (·.kind == 7)
  let zero (st : State) (i : Nat) : State :=
    match parts[i]? with
    | none   => st
    | some p =>
      if ci = some i then st else
      let t := st.tile n
      st.setTile n { t with store := zeroRange t.store (p.base * 65536) (p.size * 65536),
                            storePois := zeroPois t.storePois (p.base * 65536) (p.size * 65536) }
  let s1 := (List.range parts.length).foldl zero s
  match ci with
  | none   => s1
  | some i => match parts[i]? with
    | some p => s1.tsWrite n (p.base * 65536) const false
    | none   => s1

/-- What a load takes from the image, and the sequencer started at index 0 with all registers zero (R53, R188). -/
def State.loadFacet (s : State) (n : Nat) (img : List Byte) : State :=
  let s1 := s.loadStore n img
  let t := s1.tile n
  let s2 := s1.setTile n { t with micro := facetMicro img, routes := facetRoutes img, parts := facetParts img,
                                  portDecls := facetPorts img, seq := { Seq.reset with run := true }, mat := none, outs := [],
                                  wblk := none, wnext := none, banks := [], clv := [], mvc := [], cvc := [], matStop := false, kern := none, icache := [],
                                  dma := t.dma.filter (fun (p : Nat × DmaQ) => p.1 == 6) }
  let s3 := [0, 1, 2, 3, 4, 5, 7].foldl (fun u q =>
    ((u.wr (TIL_DMA_STAT n q) TIL_DMA_STAT_OCC 0).wr (TIL_DMA_STAT n q) TIL_DMA_STAT_HALTED 0).wr (TIL_DMA_STAT n q) TIL_DMA_STAT_ERR 0) s2
  let s4 := (((s3.wr (TIL_SEQ_STAT n) TIL_SEQ_STAT_PC 0).wr (TIL_SEQ_STAT n) TIL_SEQ_STAT_HELD 0).wr (TIL_SEQ_STAT n)
    TIL_SEQ_STAT_WAIT_KIND 0).wr (TIL_SEQ_STAT n) TIL_SEQ_STAT_CLV_OCC 0
  (List.range 8).foldl (fun u p =>
    let b := u.portBind n p
    let a := TIL_PORT_STAT n p
    ((u.wr a TIL_PORT_STAT_DIR (match u.portDecl n p with | some d => b2n d.out | none => 0)).wr a TIL_PORT_STAT_PEER_TILE
      b.2.1).wr a TIL_PORT_STAT_PEER_PORT b.2.2) s4

/-- The ports of a new binding: counts from zero, Prism's side likewise (R214). -/
def State.freshPorts (s : State) (n : Nat) : State :=
  let t := s.tile n
  let s1 := s.setTile n { t with ports := [] }
  let s2 := (List.range 8).foldl (fun u p =>
    let depth := match u.portDecl n p with | some d => if d.out then 0 else d.depth | none => 0
    u.setPrsPort n p { PrsPort.reset with credits := if (u.portBind n p).1 = 2 then depth else 0 }) s1
  (List.range 8).foldl (fun u p => u.wr (TIL_PORT_STAT n p) TIL_PORT_STAT_STATE psUnbound) s2

/-- A kernel relaunched for the replay of an epoch opens it again (R198, R217). -/
def State.replayKernel (s : State) (n : Nat) : State :=
  if s.epoSt n = esReplay then s.setEpo n { s.epo n with relaunch := true } else s

/-- The start or resume record put back on a spare; a sender drops the chunks that it sends again (R200, R215, R217). -/
def State.restored (s : State) (n : Nat) (r : EpoRec) : State :=
  let t := s.tile n
  let ports := r.ports.foldl (fun (m : List (Nat × PortSt)) q =>
    let x := mget PortSt.reset t.ports q.1
    mset PortSt.reset m q.1 { x with fifo := [], nextSeq := q.2.1, accepted := q.2.2, owed := 0,
                                             retained := x.retained.filter (fun c => decide (c.seq < q.2.1)) }) t.ports
  let s1 := s.setTile n { t with rc := r.rc, ports := ports, mat := r.mat,
                                 seq := { t.seq with g := r.g, rstack := r.rstack, held := r.held, pos := r.pos } }
  let s2 := ((s1.wr (TIL_SEQ_STAT n) TIL_SEQ_STAT_PC r.pc).wr (TIL_SEQ_STAT n) TIL_SEQ_STAT_HELD (b2n r.held.isSome))
  (List.range 8).foldl (fun u p => u.recredit n p) s2

/-- The record restored, and the kernel that opened the epoch launched again with its committed count in a2 (R200,
R217). launch is the launch of a kernel with a2. -/
def State.restore (s : State) (n : Nat) (r : EpoRec) (launch : State → Nat → Work → Bool → Nat → State) : State :=
  match r.kern with
  | some w => (launch (s.restored n r) n w r.kernBySeq r.kernEpochs).replayKernel n
  | none   => s.restored n r

/-- REGISTER: Betony checks, verifies and stores the facet image of the descriptor at its intake (R48, R49, R379). -/
def execRegister (hostBytes : List Byte) (s : State) : Host.Outcome State Fault Refusal :=
  match s.hif.betonyQ with
  | [] => .next s
  | w :: q =>
    if bits w.desc 7 0 ≠ 0x22 ∨ s.ringHeld w then .next s else
    let s1 := { s with hif := { s.hif with betonyQ := q } }
    match minOpt (lowBit w.desc 69 64) (lowBit w.desc 511 161) with
    | some b => .next (s1.refuse w stHifMalformed b)
    | none   => .next (s1.registerWork w hostBytes)

/-- UNREGISTER (R52, R379). -/
def execUnregister (s : State) : Host.Outcome State Fault Refusal :=
  match s.hif.betonyQ with
  | [] => .next s
  | w :: q =>
    if bits w.desc 7 0 ≠ 0x23 ∨ s.ringHeld w then .next s else
    let s1 := { s with hif := { s.hif with betonyQ := q } }
    match lowBit w.desc 511 72 with
    | some b => .next (s1.refuse w stHifMalformed b)
    | none   => .next (s1.unregisterWork w)

end Sys2Proof.Machine
end

