-- ==== Sys2Proof/Machine/Dma.lean ====
section
/-!
DEFINITION. Tile DMA (spec/02, R56 to R59; R376, R377, R548): the queues, starting and ending descriptors, and stopping.

Where the spec leaves open or is read by inference, and what is taken from outside it (DESIGN CHOICE, DEDUCED, PRESUMED):
notes/assumptions/40.md, 41.md, 78.md.
-/

namespace Sys2Proof.Machine

open Sys2Proof

/-! ### The sequencer's event word (R194) -/

/-- An umbel has stopped for an abort: its instruction in flight is complete, or it waits at a barrier (R159, R181). -/
def Umb.stopped (m : Umb) : Bool := m.wait == .bar || (!m.issued && m.wait != .epo)

/-- A kernel's boundary is reached: the last umbel has exited, or an abort has stopped every umbel (R153). -/
def Kern.atBoundary (k : Kern) : Bool := k.boundary || k.umbels.isEmpty || (k.abort.isSome && k.umbels.all (fun p => p.2.stopped))

/-- The event word: queues 0 to 3 empty, queues 0 to 3 halted, the clover, the matrix-vector path, the conversion requests,
the kernel boundary, and a stop under R85. -/
def State.seqEvents (s : State) (n : Nat) : Nat :=
  let t := s.tile n
  let bit (k : Nat) (b : Bool) : Nat := if b then 2 ^ k else 0
  ((List.range 4).map (fun q => bit q (s.dq n q == []) + bit (4 + q) (s.flag (TIL_DMA_STAT n q) TIL_DMA_STAT_HALTED))).sum +
  bit 8 (t.clv == [] && t.outs.all (fun o => o.bank == 2)) + bit 9 (t.mvc == [] && t.outs.all (fun o => o.bank != 2)) +
  bit 10 (t.cvc == []) + bit 11 (match t.kern with | some k => k.atBoundary | none => true) + bit 12 t.matStop

/-- A WAIT is over: every idle event of its mask is set, or some error event of it (R194). -/
def waitOver (mask ev : Nat) : Bool :=
  let idle := mask &&& 0xF0F
  let err := mask &&& 0x10F0
  (ev &&& idle) == idle || (ev &&& err) != 0

/-- A sequencer that waits at WAIT goes on when its events are there; one that waits for room in a queue looks again. -/
def State.seqWake (s : State) (n : Nat) : State :=
  let t := s.tile n
  let kind := s.rd (TIL_SEQ_STAT n) TIL_SEQ_STAT_WAIT_KIND
  if ¬ t.seq.run then s
  else if kind = 2 then
    let w := t.micro.getD (s.rd (TIL_SEQ_STAT n) TIL_SEQ_STAT_PC) 0
    let ev := s.seqEvents n
    if waitOver (bits w 17 0) ev then s.seqResume n (bits w 25 22) (BitVec.ofNat 64 ev) else s
  else if kind = 4 ∨ kind = 5 then s.seqRun n
  else s

/-! ### Descriptors (R57) -/

def dmaOp (d : W256) : Nat := bits d 7 0
def dmaLsrc (d : W256) : Bool := bitAt d 8
def dmaLdst (d : W256) : Bool := bitAt d 9
def dmaLen (d : W256) : Nat := bits d 63 32
def dmaSrc (d : W256) : Nat := bits d 119 64
def dmaPat (d : W256) : Nat := bits d 127 64
def dmaDst (d : W256) : Nat := bits d 183 128
def dmaRows (d : W256) : Nat := bits d 207 192

/-- A descriptor keeps the table of R57. -/
def dmaOk (d : W256) : Bool :=
  let op := dmaOp d
  decide (1 ≤ op) && decide (op ≤ 5) && bits d 15 10 == 0 && bits d 31 28 == 0 && bits d 191 184 == 0 &&
  (op == 3 || op == 5 || bits d 127 120 == 0) &&
  (if op ≤ 3 then dmaLen d != 0 else dmaLen d == 0) &&
  (if op = 2 then dmaRows d != 0 else dmaRows d == 0) &&
  (op != 5 || dmaDst d % 8 == 0)

/-- The R59 codes. -/
abbrev dcMalformed : Nat := 1
abbrev dcXlate : Nat := 2
abbrev dcError : Nat := 3
abbrev dcGuard : Nat := 4
abbrev dcAbsent : Nat := 5
abbrev dcAccess : Nat := 6

/-- The DMA status that matches a stop code. -/
def dmaStatus (code : Nat) : Nat := 0x57 + code
abbrev stDmaDiscarded : Nat := 0x5E

/-- What reading a piece of a source gave: bytes, or the code that stops the queue. -/
inductive DmaRd where
  | ok (bs : List Byte) (poison : Bool)
  | stop (code : Nat)
  deriving DecidableEq, Repr

/-- len bytes of a source: an offset of the tile's own store, or a virtual address. -/
def State.dmaRead (s : State) (n pasid : Nat) (loc : Bool) (a len : Nat) : State × DmaRd :=
  if loc then
    if s.tsRight n rtD a len then (s, .ok (s.tsBytes n a len) (s.tsPois n a len)) else (s.accessErr n, .stop dcAccess)
  else match s.vread (tileDie n) pasid a len with
  | (s1, .ok bs p) => (s1, .ok bs p)
  | (s1, .error)   => (s1, .stop dcError)
  | (s1, .absent)  => (s1, .stop dcAbsent)
  | (s1, .fault)   => (s1, .stop dcXlate)
  | (s1, .miss)    => (s1, .stop dcXlate)

/-- Bytes to a destination: the code that stops the queue, if one does (R59, R204). -/
def State.dmaWrite (s : State) (n pasid : Nat) (loc : Bool) (a : Nat) (bs : List Byte) (poison : Bool) :
    State × Option Nat :=
  if loc then
    if ¬ s.tsRight n rtD a bs.length then (s.accessErr n, some dcAccess)
    else if s.guarded n a bs.length then (s, some dcGuard)
    else (s.tsWrite n a bs poison, none)
  else if s.guarded n a bs.length then (s, some dcGuard)
  else match s.vwrite (tileDie n) pasid a bs poison with
  | (s1, .ok)     => (s1, none)
  | (s1, .error)  => (s1, some dcError)
  | (s1, .absent) => (s1, some dcAbsent)
  | (s1, .fault)  => (s1, some dcXlate)
  | (s1, .miss)   => (s1, some dcXlate)

/-- A run copied in pieces that each stay in one 64-byte line of the source; a poisoned piece is copied with its poison and
counted (R59).  k bounds the pieces. -/
def State.dmaRun (s : State) (n q pasid : Nat) (d : W256) (src dst len : Nat) : Nat → State × Option Nat
  | 0 => (s, none)
  | k + 1 =>
    if len = 0 then (s, none) else
    let m := min len (64 - src % 64)
    match s.dmaRead n pasid (dmaLsrc d) src m with
    | (s1, .stop c) => (s1, some c)
    | (s1, .ok bs p) =>
      let s2 := if p then s1.bump (TIL_DMA_STAT n q) TIL_DMA_STAT_POISON else s1
      match s2.dmaWrite n pasid (dmaLdst d) dst bs p with
      | (s3, some c) => (s3, some c)
      | (s3, none)   => s3.dmaRun n q pasid d (src + m) (dst + m) (len - m) k

/-- The rows of a COPY2D from row i on. -/
def State.dmaRowsFrom (s : State) (n q pasid : Nat) (d : W256) (i : Nat) : Nat → State × Option Nat
  | 0 => (s, none)
  | k + 1 =>
    let src := dmaSrc d + i * bits d 231 208
    let dst := dmaDst d + i * bits d 255 232
    match s.dmaRun n q pasid d src dst (dmaLen d) (dmaLen d / 64 + 2) with
    | (s1, some c) => (s1, some c)
    | (s1, none)   => s1.dmaRowsFrom n q pasid d (i + 1) k

/-- Pattern byte k mod 8 at address a. -/
def fillByte (d : W256) (a : Nat) : Byte := BitVec.ofNat 8 (dmaPat d >>> (8 * (a % 8)))

/-- A FILL in pieces that each stay in one line. -/
def State.dmaFillRun (s : State) (n pasid : Nat) (d : W256) (dst len : Nat) : Nat → State × Option Nat
  | 0 => (s, none)
  | k + 1 =>
    if len = 0 then (s, none) else
    let m := min len (64 - dst % 64)
    match s.dmaWrite n pasid (dmaLdst d) dst ((List.range m).map (fun i => fillByte d (dst + i))) false with
    | (s1, some c) => (s1, some c)
    | (s1, none)   => s1.dmaFillRun n pasid d (dst + m) (len - m) k

/-- Every page of a descriptor's addresses is translated or has faulted, so that nothing waits. -/
def State.dmaReady (s : State) (n pasid : Nat) (d : W256) : Bool :=
  let die := tileDie n
  let op := dmaOp d
  let rows := if op = 2 then dmaRows d else 1
  let len := if op = 5 then 8 else dmaLen d
  (List.range rows).all (fun i =>
    (dmaLsrc d || op == 3 || op == 5 || s.xready die pasid (dmaSrc d + i * bits d 231 208) len .read) &&
    (dmaLdst d || s.xready die pasid (dmaDst d + i * bits d 255 232) len .write))

/-! ### Starting, ending, stopping (R58, R59) -/

/-- The index of the first descriptor that has not started. -/
def firstIdle (d : DmaQ) : Option Nat := d.findIdx? (fun e => !e.started)

/-- A queue that carries its descriptors: not halted, and its tile is there. -/
def State.dqRuns (s : State) (n q : Nat) : Bool :=
  !s.flag (TIL_DMA_STAT n q) TIL_DMA_STAT_HALTED && s.tst n != tsRemap && s.tst n != tsOffline

/-- The descriptor at an index marked as started, with its data moved. -/
def State.dmaMark (s : State) (n q i : Nat) (moved : Bool) : State :=
  let d := s.dq n q
  match d[i]? with
  | some e => s.setDq n q (lset d i { e with started := true, moved := moved })
  | none   => s

/-- A queue stops at a descriptor: HALTED and ERR; a descriptor of queue 6 completes on its ring (R59, R377). -/
def State.dmaStop (s : State) (n q i code : Nat) (e : DmaEnt) : State :=
  let s1 := ((s.dmaMark n q i false).wr (TIL_DMA_STAT n q) TIL_DMA_STAT_HALTED 1).wr (TIL_DMA_STAT n q) TIL_DMA_STAT_ERR code
  let s2 := match e.work with
    | some w => if code = dcMalformed then s1.refuse w (dmaStatus code) code else s1.served w (dmaStatus code) code
    | none   => s1
  s2.seqWake n

/-- The effect of a descriptor of a queue by its operation, when it starts. -/
def State.dmaEffect (s : State) (n q : Nat) (e : DmaEnt) : State × Option Nat :=
  let d := e.desc
  match dmaOp d with
  | 1 => (s.gapDirty n).dmaRun n q e.pasid d (dmaSrc d) (dmaDst d) (dmaLen d) (dmaLen d / 64 + 2)
  | 2 => (s.gapDirty n).dmaRowsFrom n q e.pasid d 0 (dmaRows d)
  | 3 => (s.gapDirty n).dmaFillRun n e.pasid d (dmaDst d) (dmaLen d) (dmaLen d / 64 + 2)
  | _ => (s, none)

/-- A COPY, COPY2D or FILL that starts: the first descriptor of the queue that has not started, if op is its operation (or
its operation is unassigned and op is COPY).  One whose translations are not at hand waits. -/
def State.dmaStart (s : State) (n q op : Nat) : State :=
  if ¬ s.dqRuns n q then s else
  let d := s.dq n q
  match firstIdle d with
  | none => s
  | some i => match d[i]? with
    | none => s
    | some e =>
      let mine : Bool := e.inline.isNone &&
        (dmaOp e.desc == op || (op == 1 && (dmaOp e.desc == 0 || decide (5 < dmaOp e.desc))))
      if ¬ mine then s
      else if ¬ dmaOk e.desc then s.dmaStop n q i dcMalformed e
      else if ¬ s.dmaReady n e.pasid e.desc then s
      else match s.dmaEffect n q e with
      | (s1, some c) => s1.dmaStop n q i c e
      | (s1, none)   => s1.dmaMark n q i true

/-- DMA_COPY (R57). -/
def execDmaCopy (n : TileId) (q : DmaQueue) (s : State) : Host.Outcome State Fault Refusal := .next (s.dmaStart n.val q.val 1)
/-- DMA_COPY2D (R57). -/
def execDmaCopy2d (n : TileId) (q : DmaQueue) (s : State) : Host.Outcome State Fault Refusal :=
  .next (s.dmaStart n.val q.val 2)
/-- DMA_FILL (R57). -/
def execDmaFill (n : TileId) (q : DmaQueue) (s : State) : Host.Outcome State Fault Refusal := .next (s.dmaStart n.val q.val 3)

/-- The head of a queue with an operation, when it has not started: every earlier descriptor has ended. -/
def State.dmaHead (s : State) (n q op : Nat) : Option DmaEnt :=
  if ¬ s.dqRuns n q then none else
  match s.dq n q with
  | []     => none
  | e :: _ => if e.started ∨ e.inline.isSome ∨ dmaOp e.desc ≠ op then none else some e

/-- DMA_FENCE: a FENCE at the head of its queue, so that every earlier descriptor has completed and is visible (R58). -/
def execDmaFence (n : TileId) (q : DmaQueue) (s : State) : Host.Outcome State Fault Refusal :=
  match s.dmaHead n.val q.val 4 with
  | none => .next s
  | some e => if dmaOk e.desc then .next (s.dmaMark n.val q.val 0 true) else .next (s.dmaStop n.val q.val 0 dcMalformed e)

/-- The add of a SIGNAL (R58): a tile-store atomic at once, or a memory atomic, journaled in resilient mode; none where its
translation is not at hand. -/
def State.dmaSignal (s : State) (n : Nat) (e : DmaEnt) : Option (State × Option Nat) :=
  let d := e.desc
  let a := dmaDst d
  if dmaLdst d then
    if s.tsRight n rtD a 8 ∧ s.guarded n a 8 then some (s, some dcGuard)
    else if s.tsRight n rtD a 8 then
      let old := leVal (s.tsBytes n a 8)
      some ((s.gapDirty n).tsWrite n a (leBytes 8 (old + dmaPat d)) false, none)
    else some (s.accessErr n, some dcAccess)
  else if s.guarded n a 8 then some (s, some dcGuard)
  else match s.xlate (tileDie n) e.pasid a .write with
  | .miss  => none
  | .fault => some (s.takeFault (tileDie n) e.pasid a .write, some dcXlate)
  | .pa pa host =>
    if host then some (s, some dcError) else
    match s.semRelease n pa (dmaPat d) with
    | (s1, .ok)     => some (s1, none)
    | (s1, .error)  => some (s1, some dcError)
    | (s1, .absent) => some (s1, some dcAbsent)

/-- DMA_SIGNAL: a SIGNAL at the head of its queue; one whose add a failed tile had performed adds nothing again (R58,
R548). -/
def execDmaSignal (n : TileId) (q : DmaQueue) (s : State) : Host.Outcome State Fault Refusal :=
  match s.dmaHead n.val q.val 5 with
  | none => .next s
  | some e =>
    if ¬ dmaOk e.desc then .next (s.dmaStop n.val q.val 0 dcMalformed e)
    else if e.moved then .next (s.dmaMark n.val q.val 0 true)
    else match s.dmaSignal n.val e with
    | none              => .next s
    | some (s1, some c) => .next (s1.dmaStop n.val q.val 0 c e)
    | some (s1, none)   => .next (s1.dmaMark n.val q.val 0 true)

/-- DMA_DESCRIPTOR_END: the oldest descriptor's writes have completed; it ends without error (R58, R377). -/
def execDmaDescriptorEnd (n : TileId) (q : DmaQueue) (s : State) : Host.Outcome State Fault Refusal :=
  if s.tst n.val = tsRemap ∨ s.tst n.val = tsOffline then .next s else
  match s.dq n.val q.val with
  | [] => .next s
  | e :: r =>
    if ¬ (e.started ∧ e.moved) then .next s else
    let s1 := (s.setDq n.val q.val r).wrap (TIL_DMA_STAT n q) TIL_DMA_STAT_DONE 1
    let s2 := match e.work with
      | some w => s1.served w stServed 0
      | none   => s1
    .next (s2.seqWake n.val)

/-- A register write to a tile's window is refused while the ID is in REMAP or OFFLINE (R37, R38). -/
def State.windowShut (s : State) (n : Nat) : Bool := s.tst n == tsRemap || s.tst n == tsOffline

/-- TIL_DMA_RESUME: a HALTED queue discards its failing descriptor and goes on (R59). -/
def execTilDmaResume (n : TileId) (q : DmaQueue) (s : State) : Host.Outcome State Fault Refusal :=
  if s.windowShut n.val then .next (s.apertureRefuse n.val)
  else if s.flag (TIL_DMA_STAT n q) TIL_DMA_STAT_HALTED then
    let d := (s.dq n.val q.val).filter (fun e => !(e.started && !e.moved))
    .next (((s.setDq n.val q.val d).wr (TIL_DMA_STAT n q) TIL_DMA_STAT_HALTED 0).seqWake n.val)
  else .next s

/-- Descriptors discarded by FLUSH: those of queue 6 complete with DMA_DISCARDED (R59). -/
def State.discard (s : State) (ds : DmaQ) : State :=
  ds.foldl (fun t e => match e.work with
    | some w => t.served w stDmaDiscarded 0
    | none   => t) s

/-- FLUSH of a queue (R59). -/
def State.dmaFlush (s : State) (n q : Nat) : State :=
  let d := s.dq n q
  let stays (e : DmaEnt) : Bool := e.started && e.moved
  let s1 := s.setDq n q (d.filter stays)
  let s2 := s1.discard (d.filter (fun e => !e.started))
  (s2.wr (TIL_DMA_STAT n q) TIL_DMA_STAT_HALTED 0).seqWake n

/-- TIL_DMA_FLUSH (R59). -/
def execTilDmaFlush (n : TileId) (q : DmaQueue) (s : State) : Host.Outcome State Fault Refusal :=
  if s.windowShut n.val then .next (s.apertureRefuse n.val) else .next (s.dmaFlush n.val q.val)

/-! ### WRITE_INLINE (R376) -/

/-- The lowest offending bit of a WRITE_INLINE body. -/
def inlineFault (d : Line) : Option Nat :=
  let len := bits d 125 120
  let line : Option Nat := if len ≠ 0 ∧ bits d 119 64 % 64 + len ≤ 64 then none else some 64
  let badLen : Option Nat := if 1 ≤ len ∧ len ≤ 40 then none else some 120
  minOpt (if badLen.isSome then badLen else line) (minOpt (lowBit d 127 126) (lowBit d 191 140))

/-- WRITE_INLINE: queue 6 performs the WRITE_INLINE at its head as one write; a failure completes it and the queue goes on
(R376). -/
def execWriteInline (n : TileId) (s : State) : Host.Outcome State Fault Refusal :=
  if ¬ s.dqRuns n.val 6 then .next s else
  match s.dq n.val 6 with
  | [] => .next s
  | e :: r => match e.inline, e.work with
    | some d, some w =>
      let s0 := s.setDq n.val 6 r
      (match inlineFault d with
       | some b => .next (s0.refuse w stHifMalformed b)
       | none =>
         let va := bits d 119 64
         let len := bits d 125 120
         let bs := leBytes len (bits d 511 192)
         if s.guarded n.val va len then .next (s0.served w stHifInlineFault dcGuard) else
         match (s0.gapDirty n.val).vwrite (tileDie n) e.pasid va bs false with
         | (_, .miss)    => .next s
         | (s1, .ok)     => .next ((s1.wrap (TIL_DMA_STAT n 6) TIL_DMA_STAT_DONE 1).served w stServed 0)
         | (s1, .error)  => .next (s1.served w stHifInlineFault dcError)
         | (s1, .absent) => .next (s1.served w stHifInlineFault dcAbsent)
         | (s1, .fault)  => .next (s1.served w stHifInlineFault dcXlate))
    | _, _ => .next s

end Sys2Proof.Machine
end

