-- ==== Sys2Proof/Machine/Regs.lean ====
section
/-!
DEFINITION. A register write under the access codes and the lock of its table (R8, R9): what REGISTER_WRITE and the rows that
write a whole register share.

Where the spec leaves open or is read by inference, and what is taken from outside it (DESIGN CHOICE, DEDUCED, PRESUMED):
notes/assumptions/18.md, 19.md.
-/

namespace Sys2Proof.Machine

open Sys2Proof

/-- The W1S fields that stay set: locks, the enable of a shielded range, and failed pseudo-channels; every other W1S field starts
something and reads 0 again once it has (`State.startCmds`). -/
def stickyName (n : String) : Bool := ["LOCK", "CXL_LOCK", "EN", "PC"].contains n

/-- The W1C fields of several bits that their tables clear whole: the counters of 16 bits (R111, R127, R232, R259, R294,
R324, R364, R401, R435, R436, R459, R482, R505, R533, and the tables of the other chapters) and UMB_EXC0.LOST. -/
def clearedWhole (f : FieldSpec) : Bool := f.hi == f.lo + 15 || (f.name == "LOST" && f.hi == 18)

/-- A field after a write of v: RW takes it, RWL takes it unless locked, W1S sets what it keeps, W1C clears the bits written 1 (the
whole field where its table says so), RO and WO stay. -/
def fieldAfter (f : FieldSpec) (locked : Bool) (old v : Nat) : Nat :=
  match f.acc with
  | .rw  => v
  | .rwl => if locked then old else v
  | .w1s => if stickyName f.name then old ||| v else old
  | .w1c => if v = 0 then old else if clearedWhole f then 0 else old ^^^ (old &&& v)
  | .ro  => old
  | .wo  => old

/-- A register after a write of v. -/
def fieldsAfter (fs : List FieldSpec) (locked : Bool) (old v : Nat) : Nat :=
  fs.foldl (fun n f => nset n f.hi f.lo (fieldAfter f locked (nbits old f.hi f.lo) (nbits v f.hi f.lo))) old

/-- The register that holds the lock of a register, and whether the lock is set. -/
def State.locked (s : State) (r : RegSpec) (a : Nat) : Bool :=
  match r.lock with
  | none => false
  | some l => bitAt (s.reg (a + l.base - r.base)) l.bit

/-- A write that would change an RWL field of a locked register. -/
def lockedChange (fs : List FieldSpec) (old v : Nat) : Bool :=
  fs.any (fun f => f.acc == .rwl && nbits old f.hi f.lo != nbits v f.hi f.lo)

/-- A register written under its access codes; a refused change is recorded where the lock says (R8). -/
def State.regWrite (s : State) (a : Nat) (v : Word) : State :=
  match regSpec a with
  | none => s
  | some r =>
    let old := (s.reg a).toNat
    let locked := s.locked r a
    let s1 := s.setReg a (BitVec.ofNat 64 (fieldsAfter r.fields locked old v.toNat))
    match r.lock with
    | none => s1
    | some l =>
      match l.refused with
      | none => s1
      | some (b, bit) =>
        if locked && lockedChange r.fields old v.toNat then s1.wr (a + b - r.base) ⟨bit, bit⟩ 1 else s1

end Sys2Proof.Machine
end

