-- ==== Sys2Proof/Machine/Hbm.lean ====
section
/-!
DEFINITION. The HBM controllers (spec/11): the write-combining buffers, parity, failed
pseudo-channels, heat, repair and margining (R295, R299, R305 to R324).

Where the spec leaves open or is read by inference, and what is taken from outside it (DESIGN CHOICE, DEDUCED, PRESUMED):
notes/assumptions/35.md, 36.md, 37.md, 38.md, 87.md.
-/

namespace Sys2Proof.Machine

open Sys2Proof

/-! ### Reads -/

/-- HBM_READ: a line of an HBM address is read, and both codes find f in it. -/
def execHbmRead (addr : Word) (f : HbmFinding) (s : State) : Host.Outcome State Fault Refusal :=
  match hbmLine addr with
  | none => .next s
  | some key =>
    match s.hbmStop key with
    | some s1 => .next { s1 with answer := .error }
    | none => if s.shdBlocked key ∨ s.closedMem key then .next { s with answer := .error } else .next (s.hbmServe key f false)

/-! ### The write-combining buffer (R314 to R317) -/

/-- POCC of a stack: the stripe lines locked there. -/
def State.refreshPocc (s : State) (k : Nat) : State :=
  s.wr (HBM_WCB_STAT k) HBM_WCB_STAT_POCC (s.hbm.locks.filter (fun l => s.parStack l.2 == k)).length

/-- A partial write of a line merged into memory by a read-modify-write, whose read may find errors (R315, R501). -/
def State.rmwLine (s : State) (key : Nat) (f : HbmFinding) : State := (s.lineFetch key f).1

/-- The bytes a write brings, visible from now on (R299), with poison. -/
def State.hbmPut (s : State) (key mask : Nat) (data : Line) (p : Bool) : State :=
  let bs := leBytes 64 data.toNat
  let s1 := (byteRuns mask).foldl (fun (t : State) r => { t with mem := memPut t.mem (key + r.1) (slice bs r.1 r.2) }) s
  let s2 := if mask = fullMask then s1.setPois key p
    else { s1 with poison := mset false s1.poison key (mget false s1.poison key || p) }
  s2.dirtyKey key

/-- HBM_WRITE: a write of the bytes that a mask selects in a line (R299, R311, R314 to R316). -/
def execHbmWrite (addr : Word) (mask : Word) (data : Line) (poison : Bool) (s : State) : Host.Outcome State Fault Refusal :=
  match hbmLine addr with
  | none => .next s
  | some key =>
    let p := s.hbmPlace key
    let k := p.1
    let m := mask.toNat
    match s.hbmStop key with
    | some s1 => .next { s1 with answer := .error }
    | none =>
    if s.shdBlocked key ∨ s.closedMem key then .next { s with answer := .error }
    else if m = 0 then .next { s with answer := .done }
    else
      let stale := mset [] s.hbm.stale k ((mget [] s.hbm.stale k).filter (· != key))
      let s0 : State := { s with hbm := { s.hbm with stale := stale }, answer := .done }
      let put := s0.hbmPut key m data poison
      match s.keyShield key with
      | none =>
        if s.pcFailed k p.2.1 then
          .next { (s.bump (HBM_ECC2 k) HBM_ECC2_FAILED_WR).bump TST_SI_CNT TST_SI_CNT_HBM with answer := .error }
        else if m = fullMask then .next (put.setWcb k ((s.wcb k).filter (fun e => !(e.line == key && isOpen e.stage))))
        else if s.flag (HBM_WCB_CTL k) HBM_WCB_CTL_EN then .next ((put.wcbTake k key m).wcbFull k key)
        else .next ((put.rmwLine key .clean).bump (HBM_WCB_STAT k) HBM_WCB_STAT_RMW_EVICT)
      | some _ =>
        if s.pcFailed k p.2.1 then .next (put.bump HBM_SHD_ERR HBM_SHD_ERR_DEGR_WR)
        else .next (put.wcbTake k key m)

/-- WCB_DEADLINE: the open entry of a line reaches its deadline and starts to drain (R315). -/
def execWcbDeadline (addr : Word) (s : State) : Host.Outcome State Fault Refusal :=
  match hbmLine addr with
  | none => .next s
  | some key =>
    let k := (s.hbmPlace key).1
    .next (s.setWcb k (wcbStep (s.wcb k) key isOpen (some (.drain 1))))

/-- WCB_DRAIN_READ: the old line of a draining entry is read and merged: written, or for a shielded line its delta sent (R309,
R311, R315). -/
def execWcbDrainRead (addr : Word) (f : HbmFinding) (s : State) : Host.Outcome State Fault Refusal :=
  match hbmLine addr with
  | none => .next s
  | some key =>
    let k := (s.hbmPlace key).1
    match (s.wcb k).find? (fun e => e.line == key && isDrain e.stage) with
    | none => .next s
    | some e =>
      let free (t : State) : State := t.setWcb k (wcbStep (t.wcb k) key isDrain none)
      match s.keyShield key with
      | none =>
        (match e.stage with
         | .drain 1 => .next ((free (s.rmwLine key f)).bump (HBM_WCB_STAT k) HBM_WCB_STAT_RMW_DEADLINE)
         | .drain 2 => .next ((free (s.rmwLine key f)).bump (HBM_WCB_STAT k) HBM_WCB_STAT_RMW_EVICT)
         | _ => .next ((free s).wrap (HBM_WCB_STAT2 k) HBM_WCB_STAT2_MERGED_FULL 1))
      | some _ =>
        let s0 := (s.lineFetch key f).1
        if s0.parityFailed key then
          let s1 := { s0 with hbm := { s0.hbm with unprot := s0.hbm.unprot.filter (· != s0.stripeKey key) ++ [s0.stripeKey key] } }
          .next (((free s1).bump HBM_SHD_ERR HBM_SHD_ERR_UNPROT).wrap (HBM_WCB_STAT2 k) HBM_WCB_STAT2_SHD_WR 1)
        else
          let s1 := s0.setWcb k (wcbStep (s0.wcb k) key isDrain (some .delta))
          .next { s1 with hbm := { s1.hbm with deltas := s1.hbm.deltas ++ [(key, false)] } }

/-- PARITY_DELTA: the oldest delta of a stripe line at its parity controller: the line is locked, a parity entry taken, the parity
updated and acknowledged; with every entry in use it waits (R309, R317). -/
def execParityDelta (addr : Word) (s : State) : Host.Outcome State Fault Refusal :=
  match hbmLine addr with
  | none => .next s
  | some key =>
    let sk := s.stripeKey key
    let ps := s.parStack key
    match s.hbm.deltas.find? (fun d => s.stripeKey d.1 == sk) with
    | none => .next s
    | some d =>
      if d.1 ≠ key ∨ s.hbm.locks.any (fun l => l.1 == sk) then .next s
      else if 32 ≤ (s.hbm.locks.filter (fun l => s.parStack l.2 == ps)).length then
        if d.2 then .next s
        else
          let ds := s.hbm.deltas.map (fun x => if x = d then (x.1, true) else x)
          .next (({ s with hbm := { s.hbm with deltas := ds } }).bump (HBM_WCB_STAT ps) HBM_WCB_STAT_PAR_WAIT)
      else
        let k := (s.hbmPlace key).1
        let s1 := { s with hbm := { s.hbm with deltas := s.hbm.deltas.filter (· != d), locks := s.hbm.locks ++ [(sk, key)] } }
        .next ((s1.setWcb k (wcbStep (s1.wcb k) key (· == .delta) (some .acked))).refreshPocc ps)

/-- PARITY_ACK: the data controller writes the line and sends its release (R309). -/
def execParityAck (addr : Word) (s : State) : Host.Outcome State Fault Refusal :=
  match hbmLine addr with
  | none => .next s
  | some key =>
    let k := (s.hbmPlace key).1
    if (s.wcb k).any (fun e => e.line == key && e.stage == .acked) then
      .next ((s.setWcb k (wcbStep (s.wcb k) key (· == .acked) (some .released))).wrap (HBM_WCB_STAT2 k) HBM_WCB_STAT2_SHD_WR 1)
    else .next s

/-- A stripe line unlocked, with its parity entry freed. -/
def State.unlockStripe (s : State) (key : Nat) : State :=
  let ps := s.parStack key
  ({ s with hbm := { s.hbm with locks := s.hbm.locks.filter (· != (s.stripeKey key, key)) } }).refreshPocc ps

/-- PARITY_RELEASE: the stripe line is unlocked and both entries are freed (R309, R316). -/
def execParityRelease (addr : Word) (s : State) : Host.Outcome State Fault Refusal :=
  match hbmLine addr with
  | none => .next s
  | some key =>
    let k := (s.hbmPlace key).1
    if (s.wcb k).any (fun e => e.line == key && e.stage == .released) then
      .next ((s.unlockStripe key).setWcb k (wcbStep (s.wcb k) key (· == .released) none))
    else .next s

/-- A pseudo-channel marked failed by its controller, or a whole stack, with its record (R306, R311). -/
def State.failPc (s : State) (stack : Nat) (pc : Option Nat) : State :=
  match pc with
  | some p =>
    let s1 := s.setReg (HBM_FAIL_PC stack) (s.reg (HBM_FAIL_PC stack) ||| BitVec.ofNat 64 (2 ^ p))
    (s1.hbmRecord stack 4 p 0 0 0 0).refreshDegraded
  | none => ((s.wr (HBM_STAT stack) HBM_STAT_FAILED 1).hbmRecord stack 5 0 0 0 0 0).refreshDegraded

/-- RELEASE_TIMEOUT: no release within 200 µs: the stripe line is unlocked and the data line is stale, or its pseudo-channel fails
when the list is full (R312). -/
def execReleaseTimeout (addr : Word) (s : State) : Host.Outcome State Fault Refusal :=
  match hbmLine addr with
  | none => .next s
  | some key =>
    if ¬ s.hbm.locks.contains (s.stripeKey key, key) then .next s else
    let p := s.hbmPlace key
    let s1 := s.unlockStripe key
    let l := mget [] s1.hbm.stale p.1
    if l.length < 256 then
      .next (({ s1 with hbm := { s1.hbm with stale := mset [] s1.hbm.stale p.1 (l ++ [key]) } }).bump HBM_SHD_ERR HBM_SHD_ERR_STALE)
    else .next (s1.failPc p.1 (some p.2.1))

/-! ### Reconstruction and scrubbing (R305, R310) -/

/-- RECONSTRUCTION: the read reaches the parity controller, which waits until the stripe line is unlocked (R310). -/
def execReconstruction (addr : Word) (s : State) : Host.Outcome State Fault Refusal :=
  match hbmLine addr with
  | none => .next s
  | some key =>
    if s.hbm.locks.any (fun l => l.1 == s.stripeKey key) then .next s else
    match takeFirst (fun r => r.line == key && !r.started) s.hbm.recon with
    | none => .next s
    | some (r, rest) => .next { s with hbm := { s.hbm with recon := rest ++ [{ r with started := true }] } }

/-- RECONSTRUCTION_COMPLETE: the XOR of the other lines is returned, and written back where the member is not failed; bad: another
line was found uncorrectable (R310). -/
def execReconstructionComplete (addr : Word) (bad : Bool) (s : State) : Host.Outcome State Fault Refusal :=
  match hbmLine addr with
  | none => .next s
  | some key =>
    match takeFirst (fun r => r.line == key && r.started) s.hbm.recon with
    | none => .next s
    | some (r, rest) =>
      let x := ({ s with hbm := { s.hbm with recon := rest } }).reconEnd key bad
      let p := s.hbmPlace key
      .next (if ¬ r.scrub then x.1.answerLine key x.2
             else if s.pcFailed p.1 p.2.1 then x.1 else x.1.bump (HBM_ECC2 p.1) HBM_ECC2_SCRUB_FIX)

/-- The software line of a stack's line at an in-stack offset: none for a parity line. -/
def State.lineAt (s : State) (stack o : Nat) : Option Nat :=
  let h := granuleAt stack o
  let key := h * 2 ^ 21 + o % 2 ^ 21
  match (List.range 8).findSome? (fun x => match s.shdRange x with
      | some (b, n) => if b ≤ h ∧ h < b + n then some (b, n) else none
      | none => none) with
  | some (b, n) => s.slotKey b n h key
  | none => some key

/-- SCRUB_STEP: the scrubber of a stack reads its next line and rewrites it as it must; at the end of the stack a pass is complete
(R304, R305). -/
def execScrubStep (k : StackId) (f : HbmFinding) (s : State) : Host.Outcome State Fault Refusal :=
  if s.rd (HBM_CTL k) HBM_CTL_SCRUB_H = 0 ∨ s.flag (HBM_STAT k) HBM_STAT_QUIESCED then .next s else
  let i := mget 0 s.hbm.scrub k
  let s1 := match s.lineAt k (64 * i) with
    | some key => s.hbmServe key f true
    | none     => s
  let nx := (i + 1) % 2 ^ 30
  let s2 := { s1 with hbm := { s1.hbm with scrub := mset 0 s1.hbm.scrub k nx } }
  if nx ≠ 0 then .next s2 else
  .next (({ s2 with hbm := { s2.hbm with lanes := s2.hbm.lanes.filter (fun l => l.1 / 1024 != k.val) } }).wrap (HBM_STAT k)
    HBM_STAT_SCRUB_PASSES 1)

/-! ### Heat (R318, R319) -/

/-- The threshold of a throttle step. -/
def State.thrAt (s : State) (k step : Nat) : Nat :=
  s.rd (HBM_THR_CFG k) (match step with
    | 1 => HBM_THR_CFG_T1
    | 2 => HBM_THR_CFG_T2
    | 3 => HBM_THR_CFG_T3
    | _ => HBM_THR_CFG_T4)

/-- HBM_TEMP_READ: every 1 ms a controller reads its stack's temperature (R318, R319). -/
def execHbmTempRead (k : StackId) (temp : Byte) (s : State) : Host.Outcome State Fault Refusal :=
  let a := HBM_THR_STAT k
  let t := temp.toNat
  let step := s.rd a HBM_THR_STAT_STEP
  let want := ((List.range 5).filter (fun i => i != 0 && decide (s.thrAt k i ≤ t))).length
  let s1 := (s.wr a HBM_THR_STAT_TEMP t).wr a HBM_THR_STAT_TMAX (max (s.rd a HBM_THR_STAT_TMAX) t)
  let s2 := if step = 0 then s1 else s1.wrap a HBM_THR_STAT_THR_US 1000
  let s3 := s2.wr a HBM_THR_STAT_STEP (max step want)
  if s.rd (HBM_THR_CFG k) HBM_THR_CFG_TRIP ≤ t then
    let s4 := (s3.wr a HBM_THR_STAT_TRIPPED 1).wr a HBM_THR_STAT_STEP 4
    if s.flag a HBM_THR_STAT_TRIPPED then .next s4 else .next (s4.event 0x13 4 k subNone t)
  else .next s3

/-- THROTTLE_STEP_FALL: 10 ms below the threshold less HYST; a tripped stack stays at step 4 (R318, R319). -/
def execThrottleStepFall (k : StackId) (s : State) : Host.Outcome State Fault Refusal :=
  let a := HBM_THR_STAT k
  let step := s.rd a HBM_THR_STAT_STEP
  if step ≠ 0 ∧ ¬ s.flag a HBM_THR_STAT_TRIPPED ∧ s.rd a HBM_THR_STAT_TEMP + s.rd (HBM_THR_CFG k) HBM_THR_CFG_HYST < s.thrAt k step then
    .next (s.wr a HBM_THR_STAT_STEP (step - 1))
  else .next s

/-- HBM_THR_CFG_WRITE: ignored unless the thresholds rise strictly (R319). -/
def execHbmThrCfgWrite (k : StackId) (value : Word) (s : State) : Host.Outcome State Fault Refusal :=
  let f := fget value
  if f HBM_THR_CFG_T1 < f HBM_THR_CFG_T2 ∧ f HBM_THR_CFG_T2 < f HBM_THR_CFG_T3 ∧ f HBM_THR_CFG_T3 < f HBM_THR_CFG_T4 ∧
     f HBM_THR_CFG_T4 < f HBM_THR_CFG_TRIP then .next (s.regWrite (HBM_THR_CFG k) value)
  else .next s

/-! ### Shielded ranges, failures and rebuilds (R308, R311, R313) -/

/-- Two ranges share a granule. -/
def overlaps (b n c m : Nat) : Bool := decide (b < c + m) && decide (c < b + n)

/-- HBM_SHD_EN: HBM_SHD_CFGx written; EN = 1 establishes the range or sets BAD (R307, R308). -/
def execHbmShdEn (x : Fin 8) (value : Word) (s : State) : Host.Outcome State Fault Refusal :=
  if x.val = 7 then .next s else
  let a := HBM_SHD_CFG x
  let was := s.flag a HBM_SHD_CFG_EN
  let s1 := (s.regWrite a value)
  if was ∨ fget value HBM_SHD_CFG_EN = 0 then .next s1 else
  let b := 12 * s1.rd a HBM_SHD_CFG_STRIPE
  let n := s1.rd a HBM_SHD_CFG_GRANULES
  let bad : Bool := decide (n < 2) || decide (393216 < b + n) ||
    (List.range 8).any (fun y => y != x.val && (match s.shdRange y with
      | some (c, m) => overlaps b n c m
      | none => false)) ||
    (List.range 12).any (fun k => s.flag (HBM_STAT k) HBM_STAT_QUIESCED && rangeTouches b n k)
  if bad then .next ((s1.wr a HBM_SHD_CFG_EN 0).wr (HBM_SHD_STAT x) HBM_SHD_STAT_BAD 1)
  else .next (((s1.wr (HBM_SHD_STAT x) HBM_SHD_STAT_INIT 1).wr (HBM_SHD_STAT x) HBM_SHD_STAT_DATA (n - (n + 11) / 12)).refreshDegraded)

/-- Keys of a shielded range: its own granules, or, for the managed part, its frames. -/
def State.rangeKeys (s : State) (x : Nat) : Nat × Nat :=
  match s.shdRange x with
  | some (b, n) => (b * 2 ^ 21, n * 2 ^ 21)
  | none => (0, 0)

/-- SHIELD_ZEROING_DONE: the range is zero and INIT clears (R308). -/
def execShieldZeroingDone (x : Fin 8) (s : State) : Host.Outcome State Fault Refusal :=
  if ¬ s.flag (HBM_SHD_STAT x) HBM_SHD_STAT_INIT then .next s else
  let r := s.rangeKeys x
  let out (a : Nat) : Bool := !(decide (r.1 ≤ a) && decide (a < r.1 + r.2))
  let s0 := { s with hbm := { s.hbm with corrupt := s.hbm.corrupt.filter out } }
  let s1 := { s0 with mem := s.mem.filter (fun c => out c.1), poison := s.poison.filter (fun c => out c.1) }
  .next (s1.wr (HBM_SHD_STAT x) HBM_SHD_STAT_INIT 0)

/-- HBM_FAIL_PC_WRITE: pseudo-channels marked failed (R311). -/
def execHbmFailPcWrite (k : StackId) (value : Word) (s : State) : Host.Outcome State Fault Refusal :=
  .next ((s.setReg (HBM_FAIL_PC k) (s.reg (HBM_FAIL_PC k) ||| value)).refreshDegraded)

/-- PC_PHY_FAIL: the PHY or training of a pseudo-channel fails, or of the whole stack (R311). -/
def execPcPhyFail (k : StackId) (pc : Option (BitVec 6)) (s : State) : Host.Outcome State Fault Refusal :=
  .next (s.failPc k (pc.map (·.toNat)))

/-- HBM_REBUILD_GO (R313); ignored while a rebuild runs. -/
def execHbmRebuildGo (k : StackId) (pc : BitVec 6) (all : Bool) (s : State) : Host.Outcome State Fault Refusal :=
  let a := HBM_REBUILD k
  if s.flag a HBM_REBUILD_BUSY then .next s else
  .next ((((s.wr a HBM_REBUILD_PC pc.toNat).wr a HBM_REBUILD_ALL (b2n all)).wr a HBM_REBUILD_BUSY 1).wr (HBM_STAT k)
    HBM_STAT_REBUILDING 1)

/-- A pseudo-channel's lines lost: unshielded ones hold the poison marker, and shielded ones that another failure leaves without
their stripe do too (R310, R313, R497). -/
def State.wipePc (s : State) (k pc : Nat) : State :=
  let w := 64 * k + pc
  let both := (List.range 12).any (fun j => j != k && s.pcFailed j pc)
  let wiped := mput s.hbm.wiped w []
  let bad := (s.poison.map (·.1)) ++ s.hbm.corrupt
  let lost := bad.filterMap (fun a =>
    match s.keyShield a with
    | none => none
    | some (_, b, n) => (stripeOthers b n (s.keyGranule a)).findSome? (fun o =>
        if stackOfG o = k ∧ pcOfOff (offOfG o a) = pc then s.slotKey b n o a else none))
  let wiped1 := if both then mput wiped (w + 2 ^ 20) [] else wiped
  let left := s.hbm.corrupt.filter (fun a => s.hbmPlace a != (k, pc, (s.hbmPlace a).2.2))
  let s1 := { s with hbm := { s.hbm with wiped := wiped1, corrupt := left } }
  lost.foldl (fun t a => { t with poison := mset false t.poison a true }) s1

/-- A pseudo-channel rebuilt: parity in it protects its stripe lines again, and stale lines in it are written (R313). -/
def State.rebuildPc (s : State) (k pc : Nat) : State :=
  let un := s.hbm.unprot.filter (fun u =>
    !((List.range 8).any (fun x => match s.shdRange x with
      | some (b, n) =>
        let h := 12 * (u / 2 ^ 21)
        let g := parityGran b n h
        decide (b ≤ h) && decide (h < b + n) && stackOfG g == k && pcOfOff (offOfG g u) == pc
      | none => false)))
  let s1 := s.wipePc k pc
  let stale := mset [] s1.hbm.stale k ((mget [] s1.hbm.stale k).filter (fun a => (s.hbmPlace a).2.1 != pc))
  { s1 with hbm := { s1.hbm with unprot := un, stale := stale } }

/-- HBM_REBUILD_DONE: the rebuilt lines are in service, or the rebuild stopped because a PHY still fails (R313). -/
def execHbmRebuildDone (k : StackId) (phyFails : Bool) (lines : W32) (s : State) : Host.Outcome State Fault Refusal :=
  let a := HBM_REBUILD k
  if ¬ s.flag a HBM_REBUILD_BUSY then .next s else
  let s0 := ((s.wr a HBM_REBUILD_BUSY 0).wr (HBM_STAT k) HBM_STAT_REBUILDING 0).wr a HBM_REBUILD_LINES lines.toNat
  if phyFails then .next (s0.wr a HBM_REBUILD_ERR 1) else
  let pcs := if s.flag a HBM_REBUILD_ALL then List.range 64 else [s.rd a HBM_REBUILD_PC]
  let s1 := pcs.foldl (fun t p => t.rebuildPc k p) s0
  let mask := pcs.foldl (fun m p => m ||| 2 ^ p) 0
  let s2 := s1.setReg (HBM_FAIL_PC k) (s1.reg (HBM_FAIL_PC k) &&& ~~~(BitVec.ofNat 64 mask))
  .next ((if s.flag a HBM_REBUILD_ALL then s2.wr (HBM_STAT k) HBM_STAT_FAILED 0 else s2).refreshDegraded)

/-- HBM_QUIESCE_WRITE: HBM_CTLs written; QUIESCE is ignored while an enabled shielded range touches the stack (R322). -/
def execHbmQuiesceWrite (k : StackId) (value : Word) (s : State) : Host.Outcome State Fault Refusal :=
  let a := HBM_CTL k
  let was := s.rd a HBM_CTL_QUIESCE
  let s1 := s.regWrite a value
  let touched := (List.range 8).any (fun x => match s.shdRange x with
    | some (b, n) => rangeTouches b n k
    | none => false)
  if fget value HBM_CTL_QUIESCE = 1 ∧ touched then .next ((s1.wr a HBM_CTL_QUIESCE was).wr a HBM_CTL_Q_REFUSED 1)
  else .next (s1.wr (HBM_STAT k) HBM_STAT_QUIESCED (fget value HBM_CTL_QUIESCE))

/-- HBM_MARK_WRITE: eight pseudo-channels' marks; a lane above 8 with VALID = 1 is ignored (R304, R324). -/
def execHbmMarkWrite (k : StackId) (i : Fin 8) (value : Word) (s : State) : Host.Outcome State Fault Refusal :=
  let a := HBM_MARK k i
  let one (t : State) (j : Nat) : State :=
    let b := bits value (8 * j + 7) (8 * j)
    if nbits b 4 4 = 1 ∧ 8 < nbits b 3 0 then t else t.wr a ⟨8 * j + 7, 8 * j⟩ (nbits b 4 0)
  .next ((List.range 8).foldl one s)

/-! ### Repair and margining (R320 to R323) -/

/-- An Eyebright HBM_PC test runs on a stack (R504). -/
def State.ebOnStack (s : State) (k : Nat) : Bool := s.yar.tests.any (fun t => t.2.kind == 3 && t.2.index / 64 == k)

/-- A repair command: refused while an operation, a margining run or a test runs, when it needs a quiesced stack or when it is
invalid, else started (R320, R504). -/
def State.hbmRepair (s : State) (k : Nat) (r : HbmRep) : State :=
  let a := HBM_REPAIR_STAT k
  let c := HBM_REPAIR k
  let s0 := ((((s.wr c HBM_REPAIR_OP r.op).wr c HBM_REPAIR_PC r.pc).wr c HBM_REPAIR_BANK r.bank).wr c HBM_REPAIR_ROW r.row).wr c
    HBM_REPAIR_DQ r.dq
  if s.flag a HBM_REPAIR_STAT_BUSY ∨ s.flag (HBM_MRG_CTL k) HBM_MRG_CTL_BUSY ∨ s.ebOnStack k then s0.wr a HBM_REPAIR_STAT_RESULT 4
  else if 4 < r.op ∨ (r.op = 3 ∧ 35 < r.dq) then s0.wr a HBM_REPAIR_STAT_RESULT 5
  else if (r.op = 2 ∨ r.op = 4) ∧ ¬ s.flag (HBM_STAT k) HBM_STAT_QUIESCED then s0.wr a HBM_REPAIR_STAT_RESULT 3
  else { (s0.wr a HBM_REPAIR_STAT_BUSY 1) with hbm := { s0.hbm with repair := mput s0.hbm.repair k r } }

/-- HBM_REPAIR_QUERY: OP 0. -/
def execHbmRepairQuery (k : StackId) (pc bank : BitVec 6) (s : State) : Host.Outcome State Fault Refusal :=
  .next (s.hbmRepair k { op := 0, pc := pc.toNat, bank := bank.toNat, row := 0, dq := 0, yarrow := false })

/-- SOFT_ROW_REPAIR: OP 1. -/
def execSoftRowRepair (k : StackId) (pc bank : BitVec 6) (row : BitVec 14) (yarrow : Bool) (s : State) :
    Host.Outcome State Fault Refusal :=
  .next (s.hbmRepair k { op := 1, pc := pc.toNat, bank := bank.toNat, row := row.toNat, dq := 0, yarrow := yarrow })

/-- HARD_ROW_REPAIR: OP 2. -/
def execHardRowRepair (k : StackId) (pc bank : BitVec 6) (row : BitVec 14) (s : State) : Host.Outcome State Fault Refusal :=
  .next (s.hbmRepair k { op := 2, pc := pc.toNat, bank := bank.toNat, row := row.toNat, dq := 0, yarrow := false })

/-- DQ_REMAP: OP 3. -/
def execDqRemap (k : StackId) (pc dq : BitVec 6) (yarrow : Bool) (s : State) : Host.Outcome State Fault Refusal :=
  .next (s.hbmRepair k { op := 3, pc := pc.toNat, bank := 0, row := 0, dq := dq.toNat, yarrow := yarrow })

/-- CLEAR_REMAP: OP 4. -/
def execClearRemap (k : StackId) (pc : BitVec 6) (s : State) : Host.Outcome State Fault Refusal :=
  .next (s.hbmRepair k { op := 4, pc := pc.toNat, bank := 0, row := 0, dq := 0, yarrow := false })

/-- The software lines of a row. -/
def State.rowLines (s : State) (k : Nat) (r : HbmRep) : List Nat :=
  (List.range 16).filterMap (fun c => s.lineAt k (offAt r.pc r.bank r.row c))

/-- The number under which a row repair is recorded. -/
def rowKey (k : Nat) (r : HbmRep) : Nat × Nat := (64 * k + r.pc, r.bank * 2 ^ 14 + r.row)

/-- What a repair that is done leaves (R320, R321). -/
def State.repairEffect (s : State) (k : Nat) (r : HbmRep) : State :=
  match r.op with
  | 1 =>
    let s1 := (s.rowLines k r).foldl (fun (t : State) a =>
      if ¬ t.hbm.corrupt.contains a then t
      else if t.noShield a then t.markLine a (if (t.keyShield a).isSome then 2 else 0)
      else ((t.bump HBM_SHD_ERR HBM_SHD_ERR_RECON).setPois a false).lineRecord a 1) s
    { s1 with yar := { s1.yar with softRows := s1.yar.softRows ++ [rowKey k r] } }
  | 2 =>
    let s1 := (s.rowLines k r).foldl (fun (t : State) a =>
      ({ t with mem := t.mem.filter (fun c => !(decide (a ≤ c.1) && decide (c.1 < a + 64))) }).setPois a false) s
    let s2 := { s1 with yar := { s1.yar with hardRows := s1.yar.hardRows ++ [rowKey k r], queuedRows := s1.yar.queuedRows.filter (· != rowKey k r) } }
    s2.event 0x41 0 3 (64 * k + r.pc) 3
  | 3 =>
    let s1 := match s.mark k r.pc with
      | some l => if r.dq / 4 = l then s.setMark k r.pc none else s
      | none   => s
    { s1 with yar := { s1.yar with softDqs := s1.yar.softDqs ++ [(64 * k + r.pc, r.dq)] } }
  | 4 =>
    let dqs := s.yar.softDqs.filter (fun x => x.1 != 64 * k + r.pc)
    let rows := s.yar.softRows.filter (fun x => x.1 != 64 * k + r.pc)
    { s with yar := { s.yar with softDqs := dqs, softRows := rows } }
  | _ => s

/-- The spare DQ of a pseudo-channel in use, of two (R295). -/
def State.dqsUsed (s : State) (k pc : Nat) : Nat := (s.yar.softDqs.filter (fun x => x.1 == 64 * k + pc)).length

/-- HBM_REPAIR_DONE: an operation ends with its result; a query returns the spares left; a DQ remap finds none when both are in use (R295,
R320). -/
def execHbmRepairDone (k : StackId) (res : RepairEnd) (rows : BitVec 4) (s : State) : Host.Outcome State Fault Refusal :=
  match mfind s.hbm.repair k with
  | none => .next s
  | some r =>
    let a := HBM_REPAIR_STAT k
    let s1 := { (s.wr a HBM_REPAIR_STAT_BUSY 0) with hbm := { s.hbm with repair := mdel s.hbm.repair k } }
    let left := 2 - s.dqsUsed k r.pc
    match (if r.op = 3 then (if left = 0 then .noSpare else if res = .noSpare then .done else res) else res) with
    | .noSpare      => .next (s1.wr a HBM_REPAIR_STAT_RESULT 1)
    | .verifyFailed => .next (s1.wr a HBM_REPAIR_STAT_RESULT 2)
    | .done =>
      let s2 := s1.wr a HBM_REPAIR_STAT_RESULT 0
      if r.op = 0 then .next ((s2.wr a HBM_REPAIR_STAT_ROWS rows.toNat).wr a HBM_REPAIR_STAT_DQS left)
      else
        let s3 := s2.repairEffect k r
        .next (if r.yarrow then s3.event 0x41 0 3 (64 * k + r.pc) 1 else s3)

/-- HBM_MRG_GO: a margining run starts, or is refused (R323, R504). -/
def execHbmMrgGo (k : StackId) (pc : BitVec 6) (s : State) : Host.Outcome State Fault Refusal :=
  let a := HBM_MRG_CTL k
  if s.flag a HBM_MRG_CTL_BUSY then .next s else
  let s0 := s.wr a HBM_MRG_CTL_PC pc.toNat
  if ¬ s.flag (HBM_STAT k) HBM_STAT_QUIESCED then .next (s0.wr a HBM_MRG_CTL_RESULT 1)
  else if s.wcb k ≠ [] ∨ s.rd (HBM_WCB_STAT k) HBM_WCB_STAT_POCC ≠ 0 then .next (s0.wr a HBM_MRG_CTL_RESULT 2)
  else if s.flag (HBM_REPAIR_STAT k) HBM_REPAIR_STAT_BUSY ∨ s.ebOnStack k then .next (s0.wr a HBM_MRG_CTL_RESULT 3)
  else .next (s0.wr a HBM_MRG_CTL_BUSY 1)

/-- HBM_MRG_RESs shows the eye of READ_DQ (R323, R324). -/
def State.mrgShow (s : State) (k : Nat) : State :=
  s.setReg (HBM_MRG_RES k) (BitVec.ofNat 64 (mget 0 s.hbm.eyes (64 * k + s.rd (HBM_MRG_CTL k) HBM_MRG_CTL_READ_DQ)))

/-- HBM_MRG_DONE: a run ends with the eyes of the 38 DQ, each as HBM_MRG_RESs lays it out (R323). -/
def execHbmMrgDone (k : StackId) (eyes : List (BitVec 33)) (s : State) : Host.Outcome State Fault Refusal :=
  let a := HBM_MRG_CTL k
  if ¬ s.flag a HBM_MRG_CTL_BUSY then .next s else
  let es := (List.range 38).foldl (fun m i => mset 0 m (64 * k.val + i) (eyes.getD i 0).toNat) s.hbm.eyes
  let s1 := (s.wr a HBM_MRG_CTL_BUSY 0).wr a HBM_MRG_CTL_RESULT 0
  .next (({ s1 with hbm := { s1.hbm with eyes := es } }).mrgShow k)

end Sys2Proof.Machine
end

