-- ==== Sys2Proof/Machine/Prism.lean ====
section
/-!
DEFINITION. Prism (spec/15): communicators, the reduction of R429, running collectives, aborts and cap notices (R426 to R433).

Where the spec leaves open or is read by inference, and what is taken from outside it (DESIGN CHOICE, DEDUCED, PRESUMED):
notes/assumptions/25.md, 26.md.
-/

namespace Sys2Proof.Machine

open Sys2Proof

abbrev stPrsMalformed : Nat := 0x90
abbrev stPrsBadComm : Nat := 0x91
abbrev stPrsSeq : Nat := 0x92
abbrev stPrsFault : Nat := 0x93
abbrev stPrsAborted : Nat := 0x94
abbrev stPrsPeerLost : Nat := 0x95
abbrev stPrsPoison : Nat := 0x96

/-! ### The descriptor (R427) -/

def colOp (d : Line) : Nat := bits d 66 64
def colType (d : Line) : Nat := bits d 71 68
def colRop (d : Line) : Nat := bits d 74 72
def colIndep (d : Line) : Bool := bitAt d 75
/-- Ranks of a group: 1, 2, 4 or 8. -/
def colG (d : Line) : Nat := 2 ^ bits d 77 76
def colSrcStream (d : Line) : Bool := bitAt d 78
def colDstStream (d : Line) : Bool := bitAt d 79
def colComm (d : Line) : Nat := bits d 91 80
def colSrc (d : Line) : Nat := bits d 151 96
def colDst (d : Line) : Nat := bits d 215 160
def colE (d : Line) : Nat := bits d 263 224
def colSeq (d : Line) : Nat := bits d 303 272
def colSem (d : Line) : Nat := bits d 359 304
def colInc (d : Line) : Nat := bits d 415 384
def colStile (d : Line) : Nat := bits d 422 416
def colSport (d : Line) : Nat := bits d 425 423
def colDtile (d : Line) : Nat := bits d 432 426
def colDport (d : Line) : Nat := bits d 435 433

/-- Bytes of an element. -/
def colSize (d : Line) : Nat :=
  match colType d with
  | 2 => 8
  | 4 => 8
  | 8 => 2
  | 9 => 2
  | 0xB => 8
  | _ => 4

/-- Bytes of a value of the working type. -/
def colWide (d : Line) : Nat := max 4 (colSize d)

def colFloat (d : Line) : Bool := decide (8 ≤ colType d)

/-- The refusals of R428 that need no communicator. -/
def colBad (d : Line) : Bool :=
  bits d 95 92 != 0 || bits d 159 152 != 0 || bits d 223 216 != 0 || bits d 271 264 != 0 || bits d 383 360 != 0 ||
  bits d 511 436 != 0 || decide (4 < colOp d) || colOp d == 0 || !([1, 2, 3, 4, 8, 9, 0xA, 0xB] : List Nat).contains (colType d) ||
  decide (5 < colRop d) || (decide (3 ≤ colOp d) && colRop d != 0) || (decide (3 ≤ colRop d) && colFloat d) ||
  colSrc d % 64 != 0 || colDst d % 64 != 0 || colSem d % 8 != 0 || (colSrcStream d && colSrc d != 0) ||
  (colDstStream d && colDst d != 0)

/-- A streamed tile is not on the die, or its port is not bound to Prism (R51, R428). -/
def State.colStreamBad (s : State) (die : Nat) (d : Line) : Bool :=
  let bad (n p : Nat) : Bool := decide (95 < n) || tileDie n != die || (s.portBind n p).1 != 2
  (colSrcStream d && bad (colStile d) (colSport d)) || (colDstStream d && bad (colDtile d) (colDport d))

/-! ### Communicators (R426) -/

/-- The rank map of a communicator and the own rank; none where its entry is unreadable or breaks R426. -/
def State.comm (s : State) (die c : Nat) : Option (List Nat × Nat) :=
  let pa := s.rd (PRS_COMM_BASE die) PRS_COMM_BASE_BASE * 64 + 16 * c
  let a := localOf pa
  if s.rd (PRS_CFG die) PRS_CFG_COMM_CNT ≤ c ∨ ¬ s.isMem pa 16 ∨ s.cut die a ∨ s.closedMem a ∨ s.anyPoison a 1 then none else
  let e := s.memVal a 16
  let n := nbits e 13 0 + 1
  let my := nbits e 29 16
  let m := nbits e 119 64
  if nbits e 15 14 ≠ 0 ∨ nbits e 31 30 ≠ 0 ∨ nbits e 63 32 ≠ 0 ∨ nbits e 127 120 ≠ 0 ∨ m % 64 ≠ 0 ∨ n ≤ my ∨
     ¬ s.isMem m (2 * n) ∨ s.cut die (localOf m) ∨ s.closedMem (localOf m) ∨ s.anyPoison (localOf m) (lineCount (localOf m) (2 * n)) then none else
  let map := (List.range n).map (fun r => s.memVal (localOf m + 2 * r) 2)
  if map.any (fun x => decide (16383 < x)) ∨ map.getD my 0 ≠ s.node + die * 2 ^ 13 ∨ map.eraseDups.length ≠ n then none
  else some (map, my)

/-! ### The working type (R429) -/

/-- A NaN of a format, quieted; its payload stays (R101, R102). -/
def quietNan (f : Fmt) (x : Nat) : Nat := x ||| 2 ^ (f.p - 2)
def isNanEnc (f : Fmt) (x : Nat) : Bool := (fpDec f x).isNan

/-- A binary operation on floats, NaN operands first. -/
def colFop (f : Fmt) (rop x y : Nat) : Nat :=
  if isNanEnc f x then quietNan f x
  else if isNanEnc f y then quietNan f y
  else if rop = 0 then (encOut f .rne true 0 (accAdd f (decIeee f x) (decIeee f y))).1
  else
    let neg (v : Nat) : Bool := v / 2 ^ (f.width - 1) % 2 == 1
    let lt : Bool := fpLt (fpDec f x) (fpDec f y) || (fpEq (fpDec f x) (fpDec f y) && neg x && !neg y)
    if lt == (rop == 1) then x else y

/-- op of R429 on working values. -/
def colFn (d : Line) (x y : Nat) : Nat :=
  let w := 8 * colSize d
  if colFloat d then colFop (if colType d = 0xB then fB64 else fB32) (colRop d) x y
  else
    let signed : Bool := colType d == 1 || colType d == 2
    let lt : Bool := if signed then decide (sgn w x < sgn w y) else decide (x < y)
    match colRop d with
    | 0 => (x + y) % 2 ^ w
    | 1 => if lt then x else y
    | 2 => if lt then y else x
    | 3 => x &&& y
    | 4 => x ||| y
    | _ => x ^^^ y

/-- load and store of R429. -/
def colLoad (d : Line) (x : Nat) : Nat :=
  match colType d with
  | 8 => toB32 (decIeee fBf16 x)
  | 9 => toB32 (decIeee fFp16 x)
  | _ => x
def colStore (d : Line) (x : Nat) : Nat :=
  match colType d with
  | 8 => (encOut fBf16 .rne true 0 (decIeee fB32 x)).1
  | 9 => (encOut fFp16 .rne true 0 (decIeee fB32 x)).1
  | _ => x

/-! ### Contributions and results -/

/-- A value of size bytes at position e of a run of chunks under a base key, and whether its chunk is poisoned. -/
def chunkElem (m : List (Nat × ColChunk)) (base size e : Nat) : Option (Nat × Bool) :=
  match mfind m (base + e * size / 64) with
  | some c => some (bits c.data (8 * (e * size % 64 + size) - 1) (8 * (e * size % 64)), c.poison)
  | none   => none

/-- The input element e of a rank, once its chunk is here. -/
def Coll.raw (c : Coll) (r e : Nat) : Option (Nat × Bool) := chunkElem c.contrib (r * 2 ^ 40) (colSize c.work.desc) e

/-- Operands combined in order, poison joined; none while one is missing. -/
def foldAll (f : Nat → Nat → Nat) : List (Option (Nat × Bool)) → Option (Nat × Bool)
  | [] => none
  | x :: r => r.foldl (fun a b => match a, b with
    | some p, some q => some (f p.1 q.1, p.2 || q.2)
    | _, _ => none) x

/-- The partial of the group that begins at rank q, element e: folded here for the own group or without groups, else as its
lowest rank has sent it. -/
def Coll.part (c : Coll) (q e : Nat) : Option (Nat × Bool) :=
  let d := c.work.desc
  let g := colG d
  let n := c.map.length
  if g = 1 ∨ c.my / g = q / g then
    foldAll (colFn d) ((List.range (min g (n - q))).map (fun i => (c.raw (q + i) e).map (fun p => (colLoad d p.1, p.2))))
  else chunkElem c.contrib (q * 2 ^ 40) (colWide d) e

/-- red(e) of R429, from a result received or from the partials. -/
def Coll.red (c : Coll) (e : Nat) : Option (Nat × Bool) :=
  let d := c.work.desc
  match chunkElem c.result 0 (colSize d) e with
  | some x => some x
  | none =>
    let g := colG d
    (foldAll (colFn d) ((List.range ((c.map.length + g - 1) / g)).map (fun k => c.part (k * g) e))).map
      (fun p => (colStore d p.1, p.2))

/-- Output elements of a rank (R429). -/
def Coll.outCount (c : Coll) : Nat :=
  let d := c.work.desc
  match colOp d with
  | 2 => colE d / c.map.length
  | 3 => colE d * c.map.length
  | _ => colE d

/-- Output element i. -/
def Coll.out (c : Coll) (i : Nat) : Option (Nat × Bool) :=
  let d := c.work.desc
  let blk := colE d / c.map.length
  match colOp d with
  | 1 => c.red i
  | 2 => c.red (c.my * blk + i)
  | 3 => c.raw (i / colE d) (i % colE d)
  | _ => c.raw (i / blk) (c.my * blk + i % blk)

/-- Elements first to first + n − 1 of a function as bytes, and whether one is poisoned; none while one is missing. -/
def elemBytes (size : Nat) (f : Nat → Option (Nat × Bool)) (first : Nat) : Nat → Option (List Byte × Bool)
  | 0 => some ([], false)
  | k + 1 => match f first, elemBytes size f (first + 1) k with
    | some p, some q => some (leBytes size p.1 ++ q.1, p.2 || q.2)
    | _, _ => none

/-- Chunk k of an array of total elements. -/
def arrayChunk (size total : Nat) (f : Nat → Option (Nat × Bool)) (k : Nat) : Option (List Byte × Bool) :=
  let per := 64 / size
  elemBytes size f (k * per) (min per (total - k * per))

def chunksOf (size total : Nat) : Nat := (total * size + 63) / 64

/-! ### Prism's state -/

def State.prism (s : State) (d : Nat) : PrsSt := mget PrsSt.reset s.prs d
def State.setPrism (s : State) (d : Nat) (x : PrsSt) : State := { s with prs := mset PrsSt.reset s.prs d x }
def State.coll (s : State) (d c : Nat) : Option Coll := mfind (s.prism d).run c
def State.setColl (s : State) (d c : Nat) (x : Coll) : State :=
  s.setPrism d { s.prism d with run := mput (s.prism d).run c x }

/-- PWR_STAT.SYMP: some collective has passed a level to Meniscus (R472). -/
def State.sympNow (s : State) : Option Nat :=
  s.prs.foldl (fun a p => p.2.run.foldl (fun b q => match b, q.2.waitCap with
    | some x, some y => some (min x y)
    | none, y => y
    | x, none => x) a) none
def State.sympRefresh (s : State) : State := s.wr PWR_STAT PWR_STAT_SYMP (b2n s.sympNow.isSome)

/-- A COL packet to a rank: over Fugen, or over Craone to the other C-die of the package. -/
def State.colSend (s : State) (x : Coll) (rank op aux addr : Nat) (data : List Line) (poison : Bool) : State :=
  let e := x.map.getD rank 0
  let k := s.fgnPkt (e % 2 ^ 13) (e / 2 ^ 13 == 1) 0 addr aux data poison
  if e % 2 ^ 13 = s.node then
    { s with fgn := { s.fgn with loop := s.fgn.loop ++ [{ tc := 2, op := op, pkt := k, tries := 1 }] } }
  else match s.fgnReach (e % 2 ^ 13) with
  | (s1, true)  => s1.fgnSend 2 op k
  | (s1, false) => s1

/-- A CDATA chunk to a rank. -/
def State.colData (s : State) (x : Coll) (rank chunk : Nat) (result : Bool) (c : List Byte × Bool) : State :=
  s.colSend x rank 0x20 (colSeq x.work.desc + x.my * 2 ^ 32 + b2n result * 2 ^ 46) (colComm x.work.desc + chunk * 2 ^ 12)
    [BitVec.ofNat 512 (leVal c.1)] c.2

/-- The other ranks of a collective. -/
def Coll.others (x : Coll) : List Nat := (List.range x.map.length).filter (· != x.my)

/-- Own chunk k of the input sent where it is needed (R429). -/
def State.colShare (s : State) (x : Coll) (k : Nat) : State :=
  let d := x.work.desc
  let per := 64 / colSize d
  let n := x.map.length
  match mfind x.contrib (x.my * 2 ^ 40 + k) with
  | none => s
  | some c =>
    let bs := (leBytes 64 c.data.toNat, c.poison)
    let send (t : State) (r : Nat) : State := if r = x.my then t else t.colData x r k false bs
    match colOp d with
    | 3 => x.others.foldl send s
    | 4 =>
      let blk := colE d / n
      (((List.range per).map (fun i => (k * per + i) / blk)).eraseDups.filter (fun j => decide (j < n))).foldl send s
    | _ => send s (if colG d = 1 then Config.prsOwner k n % n else x.my / colG d * colG d)

/-- What a collective holds passed on: the own group's partial to the owner, and the owner's result to the ranks it is for; a
chunk once. -/
def State.colTell (s : State) (die comm k : Nat) : State :=
  match s.coll die comm with
  | none => s
  | some x =>
    let d := x.work.desc
    let n := x.map.length
    let g := colG d
    let own := Config.prsOwner k n % n
    let per := 64 / colSize d
    let s1 : State :=
      if 1 < g ∧ x.my % g = 0 ∧ own ≠ x.my ∧ ¬ x.told.contains (2 * k) then
        let wide := colWide d / colSize d
        let cs := (List.range wide).map (fun j => arrayChunk (colWide d) (colE d) (x.part x.my) (wide * k + j))
        if cs.all (·.isSome) then
          let s2 := (List.range wide).foldl (fun (t : State) j =>
            match cs.getD j none with
            | some c => t.colData x own (wide * k + j) false c
            | none   => t) s
          s2.setColl die comm { x with told := 2 * k :: x.told }
        else s
      else s
    match s1.coll die comm with
    | none => s1
    | some y =>
      if own = x.my ∧ ¬ y.told.contains (2 * k + 1) then
        match arrayChunk (colSize d) (colE d) y.red k with
        | none => s1
        | some c =>
          let blk := colE d / n
          let peers := if colOp d = 1 then y.others else
            ((List.range per).map (fun i => (k * per + i) / blk)).eraseDups.filter (fun j => decide (j < n) && j != y.my)
          (peers.foldl (fun (t : State) r => t.colData y r k true c) s1).setColl die comm { y with told := (2 * k + 1) :: y.told }
      else s1

/-- Everything a collective can pass on now; chunks of the source stream are taken first (R430). -/
def State.colPump (s : State) (die comm : Nat) : State :=
  match s.coll die comm with
  | none => s
  | some x =>
    let d := x.work.desc
    let total := chunksOf (colSize d) (colE d)
    let s1 : State :=
      if colSrcStream d then
        let y := s.prsPort (colStile d) (colSport d)
        let got := y.fwd.take (total - x.taken)
        let x1 := { x with taken := x.taken + got.length,
                           contrib := (got.zipIdx).foldl (fun m p =>
                             mput m (x.my * 2 ^ 40 + x.taken + p.2) { data := p.1.data, poison := p.1.poison }) x.contrib }
        let s2 := (s.setPrsPort (colStile d) (colSport d) { y with fwd := y.fwd.drop got.length }).setColl die comm x1
        (List.range got.length).foldl (fun t i => t.colShare x1 (x.taken + i)) s2
      else s
    if colOp d ≤ 2 then (List.range total).foldl (fun t k => t.colTell die comm k) s1 else s1

/-! ### Starting, ending, aborting -/

/-- The semaphore of a collective: nothing, done, or why not. -/
inductive SemRes where
  | done (s : State)
  | wait
  | bad (s : State)

/-- The release of a collective's semaphore (R431). -/
def State.colSemaphore (s : State) (die : Nat) (w : Work) : SemRes :=
  let d := w.desc
  if colSem d = 0 then .done s else
  match s.xlate die (s.pasidOf w) (colSem d) .write with
  | .miss  => .wait
  | .fault => .bad (s.takeFault die (s.pasidOf w) (colSem d) .write)
  | .pa pa host =>
    if host then .bad s else
    match s.memAmo die pa 8 0 (colInc d) with
    | (s1, .ok _ _) => .done s1
    | (s1, _)       => .bad s1

/-- The next collective of a communicator starts, with what has come early for it. -/
def State.colStart (s : State) (die comm : Nat) : State :=
  let p := s.prism die
  match mget [] p.queue comm with
  | [] => s
  | w :: r =>
    match s.comm die comm with
    | none => (s.setPrism die { p with queue := mset [] p.queue comm r }).served w stPrsBadComm 0
    | some (map, my) =>
      let early := mget [] p.early comm
      let x : Coll := { work := w, map := map, my := my, contrib := early.filter (fun c => decide (c.1 < 2 ^ 60)),
                        result := (early.filter (fun c => decide (2 ^ 60 ≤ c.1))).map (fun c => (c.1 - 2 ^ 60, c.2)),
                        loaded := false, taken := 0, given := 0, told := [], waitCap := none }
      (s.setPrism die { p with queue := mset [] p.queue comm r, early := mset [] p.early comm [],
                               run := mput p.run comm x }).wrap (PRS_STAT die) PRS_STAT_ACTIVE 1

/-- A collective ends with a status; the communicator goes on with the next (R428, R432). -/
def State.colEnd (s : State) (die comm status detail : Nat) : State :=
  match s.coll die comm with
  | none => s
  | some x =>
    let p := s.prism die
    let s1 := s.setPrism die { p with run := mdel p.run comm }
    let s2 := (s1.wr (PRS_STAT die) PRS_STAT_ACTIVE (s1.rd (PRS_STAT die) PRS_STAT_ACTIVE - 1)).wrap (PRS_STAT die) PRS_STAT_DONE 1
    let s3 := if s2.flag (PRS_STAT die) PRS_STAT_STALLED ∧ s2.rd (PRS_STAT die) PRS_STAT_STALL_COMM = comm then
        s2.wr (PRS_STAT die) PRS_STAT_STALLED 0 else s2
    (s3.sympRefresh.served x.work status detail).colStart die comm

/-- A collective aborted here: CABORT goes to every other member (R432). -/
def State.colAbort (s : State) (die comm status detail : Nat) : State :=
  match s.coll die comm with
  | none => s
  | some x =>
    let d := x.work.desc
    let s1 := x.others.foldl (fun (t : State) r =>
      t.colSend x r 0x21 (colSeq d + x.my * 2 ^ 32) comm [] false) s
    (s1.bump (PRS_CAP die) PRS_CAP_ABORTS).colEnd die comm status detail

/-- Chunks of the input read from memory: all of them, or the address that failed, or a wait. -/
inductive ColIn where
  | ok (cs : List ColChunk)
  | bad (addr : Nat)
  | wait

def State.colRead (s : State) (die pasid va left : Nat) : Nat → State × ColIn
  | 0 => (s, .ok [])
  | k + 1 =>
    match s.vread die pasid va (min 64 left) with
    | (s1, .ok bs p) =>
      (match s1.colRead die pasid (va + 64) (left - 64) k with
       | (s2, .ok cs) => (s2, .ok ({ data := BitVec.ofNat 512 (leVal bs), poison := p } :: cs))
       | r => r)
    | (s1, .miss) => (s1, .wait)
    | (s1, _)     => (s1, .bad va)

/-- The input of a collective that has not been read is read from memory and shared; one whose translation is not at hand
waits. -/
def State.colInput (s : State) (die comm : Nat) : State :=
  match s.coll die comm with
  | none => s
  | some x =>
    let d := x.work.desc
    if x.loaded ∨ colSrcStream d then s else
    let bytes := colE d * colSize d
    let pasid := s.pasidOf x.work
    if ¬ s.xready die pasid (colSrc d) bytes .read then s else
    match s.colRead die pasid (colSrc d) bytes (chunksOf (colSize d) (colE d)) with
    | (s1, .wait)  => s1
    | (s1, .bad a) => s1.colAbort die comm stPrsFault (a % 2 ^ 32)
    | (s1, .ok cs) =>
      let x1 := { x with loaded := true, contrib := (cs.zipIdx).foldl (fun m p => mput m (x.my * 2 ^ 40 + p.2) p.1) x.contrib }
      (List.range cs.length).foldl (fun t k => t.colShare x1 k) (s1.setColl die comm x1)

/-- COLLECTIVE: the descriptor at the head of a Prism's intake is checked, and starts in SEQ order (R428). -/
def execCollective (die : DieId) (s : State) : Host.Outcome State Fault Refusal :=
  match mget [] s.hif.prsQ die.val with
  | [] => .next s
  | w :: q =>
    if ¬ s.flag (PRS_CFG die) PRS_CFG_EN ∨ s.ringHeld w then .next s else
    let s1 := { s with hif := { s.hif with prsQ := mset [] s.hif.prsQ die.val q } }
    let d := w.desc
    let c := colComm d
    if colBad d ∨ s.colStreamBad die d then .next (s1.refuse w stPrsMalformed 0) else
    match s.comm die c with
    | none => .next (s1.refuse w stPrsBadComm 0)
    | some (map, _) =>
      if (colOp d = 2 ∨ colOp d = 4) ∧ colE d % map.length ≠ 0 then .next (s1.refuse w stPrsMalformed 0)
      else if colSeq d ≠ (mget 0 (s.prism die).last c + 1) % 2 ^ 32 then .next (s1.refuse w stPrsSeq 0)
      else
        let p := s1.prism die
        let admitted (t : State) : State := t.setPrism die { t.prism die with last := mset 0 (t.prism die).last c (colSeq d) }
        match p.aborts.find? (fun a => a.1 == c && a.2.1 == colSeq d) with
        | some a =>
          let s2 := admitted s1
          .next (((s2.setPrism die { s2.prism die with aborts := p.aborts.filter (· != a) }).wrap (PRS_STAT die) PRS_STAT_DONE
            1).served w stPrsAborted a.2.2)
        | none =>
          if colE d = 0 then
            match s1.colSemaphore die w with
            | .wait   => .next s
            | .done t => .next (((admitted t).wrap (PRS_STAT die) PRS_STAT_DONE 1).served w stServed 0)
            | .bad t  => .next (((admitted t).wrap (PRS_STAT die) PRS_STAT_DONE 1).served w stPrsFault (colSem d % 2 ^ 32))
          else
            let s2 := (admitted s1).setPrism die { (admitted s1).prism die with queue := mput p.queue c (mget [] p.queue c ++ [w]) }
            let s3 := if (s2.coll die c).isSome then s2 else s2.colStart die c
            .next ((s3.colInput die c).colPump die c)

/-- Output chunks written to memory, poisoned ones so; the address that failed, if one did. -/
def State.colWrite (s : State) (die pasid va : Nat) : List (List Byte × Bool) → State × Option Nat
  | [] => (s, none)
  | c :: r =>
    match s.vwrite die pasid va c.1 c.2 with
    | (s1, .ok) => (if c.2 then s1.bump (PRS_CNT die) PRS_CNT_POISON else s1).colWrite die pasid (va + 64) r
    | (s1, _)   => (s1, some va)

/-- Output chunks sent to a tile's input port while credits last; k bounds them (R430). -/
def State.colStream (s : State) (n p : Nat) (die : Nat) : List (List Byte × Bool) → State × Nat
  | [] => (s, 0)
  | c :: r =>
    let y := s.prsPort n p
    if y.credits = 0 then (s, 0) else
    let m : MeshChunk := { kind := 0, tile := n, port := p,
                           chunk := { data := BitVec.ofNat 512 (leVal c.1), poison := c.2, seq := y.nextSeq } }
    let s1 := { s.setPrsPort n p { y with credits := y.credits - 1, nextSeq := y.nextSeq + 1 } with mesh := s.mesh ++ [m] }
    let x := (if c.2 then s1.bump (PRS_CNT die) PRS_CNT_POISON else s1).colStream n p die r
    (x.1, x.2 + 1)

/-- COLLECTIVE_COMPLETE: once every output byte of this rank can be formed it is written or streamed, the semaphore is released
and the collective completes (R431). -/
def execCollectiveComplete (die : DieId) (comm : BitVec 12) (s : State) : Host.Outcome State Fault Refusal :=
  let c := comm.toNat
  let s0 := (s.colInput die c).colPump die c
  match s0.coll die c with
  | none => .next s0
  | some x =>
    let d := x.work.desc
    let outs := (List.range (chunksOf (colSize d) x.outCount)).map (arrayChunk (colSize d) x.outCount x.out)
    if ¬ outs.all (·.isSome) then .next s0 else
    let cs := outs.filterMap id
    let status := if cs.any (·.2) then stPrsPoison else stServed
    let fin (t : State) : State :=
      match t.colSemaphore die x.work with
      | .done t1 => t1.colEnd die c status 0
      | .wait    => t
      | .bad t1  => t1.colAbort die c stPrsFault (colSem d % 2 ^ 32)
    if colDstStream d then
      let r := s0.colStream (colDtile d) (colDport d) die (cs.drop x.given)
      let s1 := r.1.setColl die c { x with given := x.given + r.2 }
      .next (if x.given + r.2 = cs.length then fin s1 else s1)
    else
      let pasid := s0.pasidOf x.work
      if ¬ s0.xready die pasid (colDst d) (x.outCount * colSize d) .write ∨
         (colSem d ≠ 0 ∧ s0.xlate die pasid (colSem d) .write = .miss) then .next s0 else
      match s0.colWrite die pasid (colDst d) cs with
      | (s1, none)   => .next (fin s1)
      | (s1, some a) => .next (s1.colAbort die c stPrsFault (a % 2 ^ 32))

/-- PRS_ABORT: PRS_CTL written with COMM and ABORT 1 (R432). -/
def execPrsAbort (die : DieId) (comm : BitVec 12) (s : State) : Host.Outcome State Fault Refusal :=
  let s1 := s.wr (PRS_CTL die) PRS_CTL_COMM comm.toNat
  match s1.coll die comm.toNat with
  | none   => .next s1
  | some x => .next (s1.colAbort die comm.toNat stPrsAborted x.my)

/-- COLLECTIVE_STALL: a running collective has made no progress for STALL_MS (R432). -/
def execCollectiveStall (die : DieId) (comm : BitVec 12) (s : State) : Host.Outcome State Fault Refusal :=
  match s.coll die comm.toNat with
  | none => .next s
  | some x =>
    let s1 := (s.wr (PRS_STAT die) PRS_STAT_STALLED 1).wr (PRS_STAT die) PRS_STAT_STALL_COMM comm.toNat
    .next (s1.event 0x23 0 die comm.toNat (colSeq x.work.desc))

/-- A member of a node is lost: its collectives end with PRS_PEER_LOST (R425, R432). -/
def State.prsPeerLost (s : State) (node : Nat) : State :=
  s.prs.foldl (fun (t : State) p => p.2.run.foldl (fun (u : State) q =>
    match (List.range q.2.map.length).find? (fun r => q.2.map.getD r 0 % 2 ^ 13 == node) with
    | some r => u.colAbort p.1 q.1 stPrsPeerLost r
    | none   => u) t) s

/-- A streamed tile becomes FROZEN or OFFLINE: its collectives abort (R430, R432). -/
def State.prsTileLost (s : State) (n : Nat) : State :=
  s.prs.foldl (fun (t : State) p => p.2.run.foldl (fun (u : State) q =>
    let d := q.2.work.desc
    if (colSrcStream d ∧ colStile d = n) ∨ (colDstStream d ∧ colDtile d = n) then u.colAbort p.1 q.1 stPrsPeerLost q.2.my
    else u) t) s

/-! ### COL packets received (R426, R428, R432, R433) -/

/-- A notice of a cap: counted, and passed on while a sympathetic collective of the communicator waits (R433). -/
def State.capNotice (s : State) (die comm : Nat) (k : FPkt) : State :=
  if ¬ k.cap then s else
  let s1 := s.bump (PRS_CAP die) PRS_CAP_NOTICES
  match s1.coll die comm with
  | none => s1
  | some x =>
    if colIndep x.work.desc then s1 else
    let l := match x.waitCap with
      | some y => min y k.capLvl.toNat
      | none   => k.capLvl.toNat
    (s1.setColl die comm { x with waitCap := some l }).sympRefresh

/-- The SEQ the communicator runs now or runs next. -/
def State.colNow (s : State) (die comm : Nat) : Option Nat := (s.coll die comm).map (fun x => colSeq x.work.desc)

/-- A COL packet whose source matches its communicator's map: the rank it comes from. -/
def State.colSource (s : State) (die : Nat) (k : FPkt) : Option Nat :=
  match s.comm die (nbits k.addr.toNat 11 0) with
  | none => none
  | some (map, _) =>
    let r := bits k.aux 45 32
    if r < map.length ∧ map.getD r 0 % 2 ^ 13 = k.src.toNat then some r else none

/-- Chunks put under their keys. -/
def putChunks (m : List (Nat × ColChunk)) (key : Nat) (k : FPkt) : List (Nat × ColChunk) :=
  (k.data.zipIdx).foldl (fun m p => mput m (key + p.2) { data := p.1, poison := k.poison }) m

/-- A CDATA packet at its Prism: for the running SEQ it is staged and passed on, for the next one kept, else dropped. -/
def State.cdata (s : State) (k : FPkt) : State :=
  let die := b2n k.tdie
  let comm := nbits k.addr.toNat 11 0
  let s0 := s.capNotice die comm k
  match s0.colSource die k with
  | none => s0.bump (PRS_CNT die) PRS_CNT_MAP_MISMATCH
  | some r =>
    let seq := bits k.aux 31 0
    let chunk := nbits k.addr.toNat 42 12
    let result : Bool := bitAt k.aux 46
    let p := s0.prism die
    let early (t : State) : State :=
      let key := if result then 2 ^ 60 + chunk else r * 2 ^ 40 + chunk
      t.setPrism die { p with early := mput p.early comm (putChunks (mget [] p.early comm) key k) }
    match s0.coll die comm with
    | some x =>
      let now := colSeq x.work.desc
      if seq = now then
        let x1 := if result then { x with result := putChunks x.result chunk k }
                  else { x with contrib := putChunks x.contrib (r * 2 ^ 40 + chunk) k }
        (s0.setColl die comm x1).colPump die comm
      else if seq = (now + 1) % 2 ^ 32 then early s0
      else s0.bump (PRS_CNT die) PRS_CNT_SEQ_DROP
    | none =>
      if seq = (mget 0 p.last comm + 1) % 2 ^ 32 then early s0 else s0.bump (PRS_CNT die) PRS_CNT_SEQ_DROP

/-- A CABORT packet at its Prism: the collective of its SEQ completes with PRS_ABORTED, at once or when it is admitted. -/
def State.cabort (s : State) (k : FPkt) : State :=
  let die := b2n k.tdie
  let comm := nbits k.addr.toNat 11 0
  let s0 := s.capNotice die comm k
  match s0.colSource die k with
  | none => s0.bump (PRS_CNT die) PRS_CNT_MAP_MISMATCH
  | some r =>
    let seq := bits k.aux 31 0
    let p := s0.prism die
    if s0.colNow die comm = some seq then (s0.bump (PRS_CAP die) PRS_CAP_ABORTS).colEnd die comm stPrsAborted r
    else match (mget [] p.queue comm).find? (fun w => colSeq w.desc == seq) with
    | some w =>
      ((s0.setPrism die { p with queue := mset [] p.queue comm ((mget [] p.queue comm).filter (· != w)) }).wrap (PRS_STAT die)
        PRS_STAT_DONE 1).served w stPrsAborted r
    | none =>
      if seqLe (mget 0 p.last comm + 1) seq then s0.setPrism die { p with aborts := p.aborts ++ [(comm, (seq, r))] } else s0

/-- CAP_NOTICE_EXPIRE: 100 µs after the last notice, the sympathetic lowering of a Prism's collectives ends; us is the time it
lasted (R433, R472). -/
def execCapNoticeExpire (die : DieId) (us : W32) (s : State) : Host.Outcome State Fault Refusal :=
  let p := s.prism die
  if p.run.any (fun q => q.2.waitCap.isSome) then
    let s1 := s.setPrism die { p with run := p.run.map (fun q => (q.1, { q.2 with waitCap := none })) }
    .next ((s1.wrap (PRS_CAP die) PRS_CAP_SYMP_US us.toNat).sympRefresh)
  else .next s

end Sys2Proof.Machine
end

