-- ==== Sys2Proof/Machine/Fugen.lean ====
section
/-!
DEFINITION. The Fugen commands: links and ports, flits, packets received, and connections (R403 to R425).

Where the spec leaves open or is read by inference, and what is taken from outside it (DESIGN CHOICE, DEDUCED, PRESUMED):
notes/assumptions/23.md, 24.md, 26.md, 81.md, 86.md.
-/

namespace Sys2Proof.Machine

open Sys2Proof

/-! ### Links (R407 to R410) -/

/-- A link of a port enters DETECT from DISABLED when its port and the fabric are enabled and the Fugen logic is out of reset (R13, R408). -/
def State.lkEnable (s : State) (l : Nat) : State :=
  match s.linkPort l with
  | none => s
  | some p =>
    if s.lkSt l = lkDisabled ∧ ¬ s.computeHeld ∧ s.flag FGN_CFG FGN_CFG_EN ∧ s.flag (FGN_PORT_CFG p) FGN_PORT_CFG_EN then s.setLk l lkDetect else s

/-- A link disabled: it leaves any state, and its attempts start afresh. -/
def State.lkDisable (s : State) (l : Nat) : State :=
  (({ s with fgn := { s.fgn with attempts := mdel s.fgn.attempts l, idents := s.fgn.idents.filter (· != l) } }).setLk l lkDisabled)

/-- Every port brought up to date with its links. -/
def State.refreshFgnPorts (s : State) : State := (List.range 16).foldl (fun t p => t.refreshFgnPort p) s

/-- The incarnation raised by 1 and kept in the lifetime log (R424). -/
def State.incUp (s : State) : State :=
  let i := (s.rd FGN_NODE FGN_NODE_INC + 1) % 2 ^ 16
  let s1 := s.wr FGN_NODE FGN_NODE_INC i
  { s1 with mgt := { s1.mgt with incFlash := i, summary := { s1.mgt.summary with inc := i } } }

/-- FGN_CFG written: the ring sizes under their lock, then EN, unless FGN_NODE.BAD is set (R407, R408, R424). -/
def State.fgnCfgWrite (s : State) (v : Word) : State :=
  let en := s.rd FGN_CFG FGN_CFG_EN
  let s1 := ((s.regWrite FGN_CFG v).wr FGN_CFG FGN_CFG_EN en).fgnNode
  if s1.flag FGN_NODE FGN_NODE_BAD then s1
  else if fget v FGN_CFG_EN = 1 then
    let s2 := (s1.wr FGN_CFG FGN_CFG_EN 1).incUp
    ((List.range 24).foldl (fun t l => t.lkEnable l) s2).refreshFgnPorts
  else ((List.range 24).foldl (fun t l => t.lkDisable l) (s1.wr FGN_CFG FGN_CFG_EN 0)).refreshFgnPorts

/-- FGN_CFG_EN: FGN_CFG written with EN as the value gives it. -/
def execFgnCfgEn (value : Word) (s : State) : Host.Outcome State Fault Refusal := .next (s.fgnCfgWrite value)

/-- FGN_PORT_CFG_WRITE: EN written 0 disables the port's links, EN written 1 lets its DISABLED links train (R408). -/
def execFgnPortCfgWrite (p : PortId) (value : Word) (s : State) : Host.Outcome State Fault Refusal :=
  let old := s.portLinks p
  let s1 := s.regWrite (FGN_PORT_CFG p) value
  let now := s1.portLinks p
  let s2 := (old.filter (fun l => !now.contains l)).foldl (fun t l => t.lkDisable l) s1
  let s3 := now.foldl (fun t l => if fget value FGN_PORT_CFG_EN = 1 then t.lkEnable l else t.lkDisable l) s2
  .next s3.refreshFgnPorts

/-- SIGNAL_DETECT: the cable is identified and equalisation starts, from stored coefficients if the link holds them (R408, R410). -/
def execSignalDetect (l : LinkId) (active : Bool) (s : State) : Host.Outcome State Fault Refusal :=
  if s.lkSt l = lkDetect then
    let s1 := (s.wr (FGN_LINK_STAT l) FGN_LINK_STAT_CABLE (if active then 2 else 1)).wr (FGN_LINK_STAT l) FGN_LINK_STAT_WARM
      (b2n (s.fgn.coef.contains l.val))
    .next ((s1.setLk l lkTrain).refreshFgnPorts)
  else .next s

/-- EQUALISATION_CONVERGED (R408). -/
def execEqualisationConverged (l : LinkId) (s : State) : Host.Outcome State Fault Refusal :=
  if s.lkSt l = lkTrain then .next ((s.setLk l lkAlign).refreshFgnPorts) else .next s

/-- ALIGNMENT_LOCK: IDENT is sent (R408). -/
def execAlignmentLock (l : LinkId) (s : State) : Host.Outcome State Fault Refusal :=
  if s.lkSt l = lkAlign then
    let s1 := { s with fgn := { s.fgn with idents := s.fgn.idents.filter (· != l.val) ++ [l.val] } }
    .next ((s1.setLk l lkIdent).refreshFgnPorts)
  else .next s

/-- The peer R404 implies for a link: its node and its logical link. -/
def State.lkPeer (s : State) (l : Nat) : Nat × Nat :=
  let me := s.node
  let board (d : Nat) : Nat := nset me 2 0 ((nodeIdx me + d) % 8)
  if l ≤ 1 then (s.nodeStep me 0 true, l + 2)
  else if l ≤ 3 then (s.nodeStep me 0 false, l - 2)
  else if l = 4 then (s.nodeStep me 2 true, 16)
  else if l ≤ 11 then (board (l - 4), 12 - (l - 4))
  else if l ≤ 13 then (s.nodeStep me 1 true, l + 2)
  else if l ≤ 15 then (s.nodeStep me 1 false, l - 2)
  else if l = 16 then (s.nodeStep me 2 false, 4)
  else (board (l - 16), 24 - (l - 16))

/-- The peer's IDENT matches (R409). -/
def State.identOk (s : State) (l : Nat) (i : FIdent) : Bool :=
  (i.node.toNat, i.link.toNat) == s.lkPeer l && i.nx.toNat == s.rd FGN_CFG FGN_CFG_NX && i.ny.toNat == s.rd FGN_CFG FGN_CFG_NY &&
  i.nz.toNat == s.rd FGN_CFG FGN_CFG_NZ

/-- A link joins its port; a port that had no link starts its flits afresh with the credits the peer advertised (R408, R414). -/
def State.lkJoin (s : State) (l : Nat) (i : FIdent) : State :=
  match s.linkPort l with
  | none => s
  | some p =>
    let fresh : Bool := !s.portUp p
    let s1 := s.setLk l lkActive
    let f := s1.fport p
    let cr : List (Nat × Nat) := (List.range 16).foldl (fun m v => mset 0 m v (i.credits.getD v 0)) []
    let s2 := if fresh then s1.setFport p { f with rx := 0, naks := 0, credits := cr } else s1
    (s2.refreshFgnPorts).fgnPump p

/-- IDENT: the link becomes ACTIVE or MISWIRED (R408, R409). -/
def execIdent (l : LinkId) (i : FIdent) (s : State) : Host.Outcome State Fault Refusal :=
  if s.lkSt l = lkIdent then
    let s1 := (s.wr (FGN_LINK_STAT l) FGN_LINK_STAT_PEER_NODE i.node.toNat).wr (FGN_LINK_STAT l) FGN_LINK_STAT_PEER_LINK i.link.toNat
    if s.identOk l i then
      let s2 := { s1 with fgn := { s1.fgn with coef := s1.fgn.coef.filter (· != l.val) ++ [l.val],
                                               attempts := mdel s1.fgn.attempts l } }
      .next (s2.lkJoin l i)
    else .next (((s1.bump FGN_ERR2 FGN_ERR2_MISWIRE).setLk l lkMiswired).refreshFgnPorts)
  else .next s

/-- LINK_TRAIN_TIMEOUT: the link returns to DETECT, or after 8 consecutive attempts is FAILED (R408). -/
def execLinkTrainTimeout (l : LinkId) (s : State) : Host.Outcome State Fault Refusal :=
  if lkTrain ≤ s.lkSt l ∧ s.lkSt l ≤ lkIdent then
    let n := mget 0 s.fgn.attempts l + 1
    let s1 := s.bump (FGN_LINK_STAT l) FGN_LINK_STAT_TRAINS
    let s2 := { s1 with fgn := { s1.fgn with attempts := if 8 ≤ n then mdel s1.fgn.attempts l else mset 0 s1.fgn.attempts l n } }
    .next ((s2.setLk l (if 8 ≤ n then lkFailed else lkDetect)).refreshFgnPorts)
  else .next s

/-- An ACTIVE link is lost and leaves its port (R406, R408, R494). -/
def State.lkLose (s : State) (l : Nat) : State :=
  if s.lkSt l = lkActive then
    let p := s.linkPort l
    let s1 := match p with
      | some q => s.bump (FGN_PORT_STAT q) FGN_PORT_STAT_MEMBER_LOSS
      | none   => s
    let s2 := { s1 with fgn := { s1.fgn with losses := mset 0 s1.fgn.losses l (mget 0 s1.fgn.losses l + 1) } }
    ((s2.setLk l lkDetect).refreshFgnPorts).event 0x20 4 l (p.getD subNone) 0
  else s

/-- LINK_LOSS (R413). -/
def execLinkLoss (l : LinkId) (s : State) : Host.Outcome State Fault Refusal := .next (s.lkLose l)

/-- FALLBACK_INSTALL: the packets that wait for a port without links detour, or are dropped where FB_EN is 0 (R421). -/
def execFallbackInstall (p : PortId) (s : State) : Host.Outcome State Fault Refusal :=
  if s.flag (FGN_PORT_CFG p) FGN_PORT_CFG_EN ∧ ¬ s.portUp p ∧ s.ptSt p ≠ ptFallback then
    let f := s.fport p
    let s1 := s.setFport p { f with queue := [] }
    if s.flag (FGN_PORT_CFG p) FGN_PORT_CFG_FB_EN then
      let s2 := s1.wr (FGN_PORT_STAT p) FGN_PORT_STAT_STATE ptFallback
      let s3 := ((s2.bump FGN_REROUTE FGN_REROUTE_REROUTES).wr FGN_REROUTE FGN_REROUTE_LAST_PORT p).wr FGN_REROUTE
        FGN_REROUTE_LIFE_LO (s.life % 2 ^ 32)
      let s4 := (s3.psc 5 (256 + p) ptFallback).event 0x21 3 p (s.rd (FGN_PORT_CFG p) FGN_PORT_CFG_FB_PLANE) 0
      .next (f.queue.foldl (fun t q => t.fgnDetour p q.2) s4)
    else .next (s1.bumpBy FGN_REROUTE FGN_REROUTE_DOUBLE_DROP f.queue.length)
  else .next s

/-- FLIT: a flit on an ACTIVE link with its link header, whether its CRC holds, and the codewords corrected and not corrected under
it (R411 to R414). -/
def execFlit (p : PortId) (l : LinkId) (hdr : Word) (crcOk : Bool) (corr uncorr : BitVec 16) (s : State) :
    Host.Outcome State Fault Refusal :=
  if s.lkSt l = lkActive ∧ s.linkPort l = some p.val then
    let s0 := (s.wrap (FGN_LINK_ERR l) FGN_LINK_ERR_FEC_CORR corr.toNat).bumpBy (FGN_LINK_ERR l) FGN_LINK_ERR_FEC_UNCORR uncorr.toNat
    let f := s0.fport p
    if ¬ crcOk then
      .next ((s0.bump (FGN_LINK_ERR l) FGN_LINK_ERR_CRC_NAK).setFport p { f with naks := f.naks + 1 })
    else if bits hdr 11 0 ≠ f.rx then .next (s0.setFport p { f with naks := f.naks + 1 })
    else
      let vc := bits hdr 35 32
      let s1 := s0.setFport p { f with rx := (f.rx + 1) % 4096,
                                       credits := mset 0 f.credits vc (mget 0 f.credits vc + bits hdr 43 36) }
      let s2 := if bitAt hdr 25 then s1.bump (FGN_PORT_STAT p) FGN_PORT_STAT_RETRY else s1
      .next (s2.fgnPump p)
  else .next s

/-! ### Connections (R422 to R425) -/

/-- A sequence number is below another, counted modulo 2^32. -/
def seqBelow (a b : Nat) : Bool := decide (0 < (b + 2 ^ 32 - a % 2 ^ 32) % 2 ^ 32 ∧ (b + 2 ^ 32 - a % 2 ^ 32) % 2 ^ 32 < 2 ^ 31)

/-- A connection fails: every unacknowledged packet with it, its requests with an error response, its collectives under R432. -/
def State.connFail (s : State) (node cls : Nat) (restart : Bool) : State :=
  match mfind s.fgn.send node with
  | none => s
  | some c =>
    let c1 := if restart then SendConn.new else { c with unack := [] }
    let s1 := { s with fgn := { s.fgn with send := mput s.fgn.send node c1 } }
    let s2 := (s1.bump FGN_ERR FGN_ERR_CONN_FAIL).event 0x22 5 node cls c.unack.length
    let s2 := s2.pubAnswer (fun x => x.2.1 == node) false
    let s3 := if c.unack.any (fun t => t.tc == 0) then { s2 with answer := .error } else s2
    if c.unack.any (fun t => t.tc == 2) then s3.prsPeerLost node else s3

/-- The unacknowledged packets of a class sent again, oldest first, or the connection failed where the oldest has been sent
RETRY_MAX + 1 times (R423, R425). -/
def State.connResend (s : State) (node cls : Nat) : State :=
  match mfind s.fgn.send node with
  | none => s
  | some c =>
    match c.unack.filter (fun t => t.tc == cls) with
    | [] => s
    | t :: ts =>
      if s.rd FGN_CONN_CFG FGN_CONN_CFG_RETRY_MAX + 1 ≤ t.tries then s.connFail node cls false else
      let again (x : FTx) : FTx := { x with tries := x.tries + 1 }
      let c1 := { c with unack := c.unack.map (fun x => if x.tc = cls then again x else x) }
      let s1 := { s with fgn := { s.fgn with send := mput s.fgn.send node c1 } }
      (t :: ts).foldl (fun u x => u.fgnRoute none (again x)) s1

/-- An ACK or a NAK for a class to a node. -/
def State.fgnAck (s : State) (node cls seq : Nat) : State := s.fgnMgt 0x30 node (cls + seq * 2 ^ 32)
def State.fgnNak (s : State) (node cls seq : Nat) (reset : Bool) : State :=
  s.fgnMgt 0x31 node (cls + 4 * b2n reset + seq * 2 ^ 32)

/-- The number before one, modulo 2^32. -/
def seqPred (n : Nat) : Nat := (n + 2 ^ 32 - 1) % 2 ^ 32

/-- A packet of a sequenced class at its destination: whether it is the one to deliver (R423, R424). -/
def State.connRecv (s : State) (tc : Nat) (k : FPkt) : State × Bool :=
  let src := k.src.toNat
  let seq := k.seq.toNat
  let inc := k.inc.toNat
  let ent := mfind s.fgn.recv src
  let old : Bool := match ent with
    | some e => e.inc == inc
    | none   => false
  if ent = none ∧ seq ≠ 0 then (s.fgnNak src tc 0 true, false)
  else if ¬ old ∧ seq ≠ 0 then (s.bump FGN_ERR FGN_ERR_STALE_INC, false)
  else
    let s1 : State := if ent = none then s.wrap FGN_CONN_STAT FGN_CONN_STAT_RECV_USED 1 else s
    let e : RecvConn := if old then ent.getD (RecvConn.new inc) else RecvConn.new inc
    let exp := e.expect.getD tc 0
    let put (t : State) (x : RecvConn) : State := { t with fgn := { t.fgn with recv := mput t.fgn.recv src x } }
    if seq = exp then
      let n := e.since.getD tc 0 + 1
      let e1 : RecvConn := { e with expect := lset e.expect tc ((exp + 1) % 2 ^ 32), since := lset e.since tc (if 8 ≤ n then 0 else n) }
      let s2 := put s1 e1
      (if 8 ≤ n then s2.fgnAck src tc seq else s2, true)
    else if seqBelow seq exp then
      (((put s1 e).bump FGN_CONN_STAT FGN_CONN_STAT_DUP).fgnAck src tc (seqPred exp), false)
    else (((put s1 e).bump FGN_CONN_STAT FGN_CONN_STAT_OOO).fgnNak src tc exp false, false)

/-! ### Packets (R415, R416) -/

/-- Whether a packet may have so many chunks. -/
def lenOk (op n : Nat) : Bool :=
  match op with
  | 0x02 | 0x10 | 0x20 => decide (1 ≤ n) && decide (n ≤ 4)
  | 0x03 | 0x04 => n == 1
  | 0x11 => decide (n ≤ 1)
  | _ => n == 0

/-- A packet received on a port: a malformed one is dropped and counted, one for another node goes on, one for this package is
delivered, a sequenced one when its number is the expected one. -/
def State.fgnRecv (s : State) (p tc op : Nat) (k : FPkt) (deliver : State → State) : State :=
  if ¬ s.portUp p then s
  else if k.reserved ∨ ¬ lenOk op k.data.length then s.bump FGN_ERR FGN_ERR_NO_ROUTE
  else if k.dst.toNat ≠ s.node then s.fgnRoute (some p) { tc := tc, op := op, pkt := k, tries := 1 }
  else if tc = 3 then deliver s
  else match s.connRecv tc k with
  | (s1, true)  => deliver s1
  | (s1, false) => s1

/-- The regions a request of another package may reach (R234). -/
def State.remoteOk (s : State) (a : Nat) : Bool :=
  match s.region a with
  | .mem _ | .aperture _ _ | .scratch _ _ | .ledger _ _ _ => true
  | _ => false

/-- The response to a request: DATA or COMP, with the request's TXID. -/
def State.fgnRsp (s : State) (k : FPkt) (op aux : Nat) (data : List Line) (poison : Bool) : State :=
  s.fgnSend 1 op (s.fgnPkt k.src.toNat false k.txid.toNat 0 aux data poison)

/-- COMP: 0 done, 1 error response, 2 poisoned, 3 ABSENT. -/
def State.fgnComp (s : State) (k : FPkt) (r : Wr) : State :=
  s.fgnRsp k 0x11 (match r with
    | .ok => 0
    | .error => 1
    | .absent => 3) [] false

/-- The 64-byte lines of a list of bytes; k bounds them. -/
def linesOf (bs : List Byte) : Nat → List Line
  | 0 => []
  | k + 1 => if bs = [] then [] else BitVec.ofNat 512 (leVal (bs.take 64)) :: linesOf (bs.drop 64) k

/-- READ served. -/
def State.fgnServeRead (s : State) (die : Nat) (k : FPkt) : State :=
  let n := bits k.aux 2 0
  let a := k.addr.toNat
  if n = 0 ∨ 4 < n then s.bump FGN_ERR FGN_ERR_NO_ROUTE
  else if ¬ s.remoteOk a then s.fgnComp k .error
  else match s.localRead die a (64 * n) with
  | (s1, .ok bs p) => s1.fgnRsp k 0x10 0 (linesOf bs 4) p
  | (s1, .error)   => s1.fgnComp k .error
  | (s1, .absent)  => s1.fgnComp k .absent

/-- READ. -/
def execFgnRead (p : PortId) (k : FPkt) (s : State) : Host.Outcome State Fault Refusal :=
  .next (s.fgnRecv p 0 0x01 k (fun t => t.fgnServeRead (s.portDie p) k))

/-- WRITE. -/
def execFgnWrite (p : PortId) (k : FPkt) (s : State) : Host.Outcome State Fault Refusal :=
  .next (s.fgnRecv p 0 0x02 k (fun t =>
    if t.remoteOk k.addr.toNat then
      let r := t.localWrite (s.portDie p) k.addr.toNat (k.data.flatMap (fun c => leBytes 64 c.toNat)) k.poison
      r.1.fgnComp k r.2
    else t.fgnComp k .error))

/-- The runs of a masked write performed until one fails. -/
def State.maskedWrite (s : State) (die a : Nat) (bs : List Byte) (poison : Bool) : List (Nat × Nat) → State × Wr
  | [] => (s, .ok)
  | (o, n) :: rs =>
    match s.localWrite die (a + o) (slice bs o n) poison with
    | (s1, .ok) => s1.maskedWrite die a bs poison rs
    | r => r

/-- WRITE_MASKED. -/
def execFgnWriteMasked (p : PortId) (k : FPkt) (s : State) : Host.Outcome State Fault Refusal :=
  .next (s.fgnRecv p 0 0x03 k (fun t =>
    if t.remoteOk k.addr.toNat then
      let r := t.maskedWrite (s.portDie p) k.addr.toNat (k.data.flatMap (fun c => leBytes 64 c.toNat)) k.poison
        (byteRuns k.aux.toNat)
      r.1.fgnComp k r.2
    else t.fgnComp k .error))

/-- An atomic of another package on memory: by AUX, with its operand, and for a compare-and-swap the expected value before it. -/
def State.fgnRmw (s : State) (die pa kind op : Nat) (chunk : Line) : State × Rmw :=
  let size := if kind = 5 then 2 else if kind = 3 then 4 else if kind = 4 then 8 else if 8 ≤ op then 8 else 4
  let x := bits chunk (8 * size - 1) 0
  let y := bits chunk (16 * size - 1) (8 * size)
  match kind with
  | 0 => s.memRmw die pa size (fun old => amoFn (op % 8) (8 * size) old x) 0 0
  | 1 => s.memRmw die pa size (fun _ => x) 0 0
  | 2 => s.memRmw die pa size (fun old => if old = x then y else old) 0 0
  | 3 => s.memRmw die pa size (fun old => faddFn 2 old x) 0 0
  | 4 => s.memRmw die pa size (fun old => faddFn 3 old x) 0 0
  | 5 => s.memRmw die pa size (fun old => faddFn 1 old x) 0 0
  | _ => (s, .error)

/-- An ATOMIC on the ledger: a float add of binary32 or BF16 returns the cell's rounded value from before; any other is refused
(R225). -/
def State.fgnServeLedger (s : State) (d d1 c : Nat) (k : FPkt) : State :=
  if bits k.aux 7 4 = 3 ∨ bits k.aux 7 4 = 5 then
    let bf : Bool := bits k.aux 7 4 == 5
    let r := s.ledgerRead d1 c bf
    let x := k.data.headD 0
    let v := if bf then decIeee fBf16 (bits x 15 0) else decIeee fB32 (bits x 31 0)
    (r.1.ledgerAdd d1 c v).fgnRsp k 0x11 0 [BitVec.ofNat 512 r.2] false
  else (s.bump (EPO_LEDGER_STAT d) EPO_LEDGER_STAT_REFUSED).fgnComp k .error

/-- An ATOMIC answered with the old value and its poison, or refused. -/
def State.fgnServeOld (k : FPkt) (r : State × Rmw) : State :=
  match r.2 with
  | .ok old p => r.1.fgnRsp k 0x11 (if p then 2 else 0) [BitVec.ofNat 512 old] p
  | .error    => r.1.fgnComp k .error
  | .absent   => r.1.fgnComp k .absent

/-- ATOMIC served: a float add of a ledger view at its cell, any other atomic on memory; the old value travels in the chunk. -/
def State.fgnServeAtomic (s : State) (die : Nat) (k : FPkt) : State :=
  match s.region k.addr.toNat with
  | .ledger d _ _ =>
    (match s.ledgerAt (s.node * 2 ^ 43 + k.addr.toNat) (if bits k.aux 7 4 = 5 then 2 else 4) with
     | some (d1, c) => s.fgnServeLedger d d1 c k
     | none => (s.bump (EPO_LEDGER_STAT d) EPO_LEDGER_STAT_REFUSED).fgnComp k .error)
  | _ => State.fgnServeOld k
      (s.fgnRmw die (s.node * 2 ^ 43 + k.addr.toNat) (bits k.aux 7 4) (bits k.aux 3 0) (k.data.headD 0))

/-- ATOMIC. -/
def execFgnAtomic (p : PortId) (k : FPkt) (s : State) : Host.Outcome State Fault Refusal :=
  .next (s.fgnRecv p 0 0x04 k (fun t => t.fgnServeAtomic (s.portDie p) k))

/-- DATA: a read of this package is answered. -/
def execFgnData (p : PortId) (k : FPkt) (s : State) : Host.Outcome State Fault Refusal :=
  .next (s.fgnRecv p 1 0x10 k (fun t => { t with answer := .data (k.data.flatMap (fun c => leBytes 64 c.toNat)) k.poison }))

/-- COMP: a request of this package is answered. -/
def execFugenComp (p : PortId) (k : FPkt) (s : State) : Host.Outcome State Fault Refusal :=
  .next (s.fgnRecv p 1 0x11 k (fun t =>
    let bs := k.data.flatMap (fun c => leBytes 64 c.toNat)
    let t := t.pubAnswer (fun x => x.1 == k.txid.toNat && x.2.1 == k.src.toNat) (bits k.aux 1 0 == 0 || bits k.aux 1 0 == 2)
    { t with answer := match bits k.aux 1 0 with
      | 0 => if bs = [] then .done else .data bs k.poison
      | 1 => .error
      | 2 => .data bs true
      | _ => .absent }))

/-- A COL packet: on a port of Fugen, or the oldest one on its way from the other C-die, which link 0 must carry (R31). -/
def State.colRecv (s : State) (p : Option PortId) (op : Nat) (k : FPkt) (deliver : FPkt → State → State) : State :=
  match p with
  | some q => s.fgnRecv q 2 op k (deliver k)
  | none =>
    match s.fgn.loop with
    | [] => s
    | t :: ts =>
      let s1 := { s with fgn := { s.fgn with loop := ts } }
      if t.op ≠ op then s else if s.parted 0 1 then { s1 with answer := .absent } else deliver t.pkt s1

/-- CDATA (R428, R429). -/
def execCdata (p : Option PortId) (k : FPkt) (s : State) : Host.Outcome State Fault Refusal :=
  .next (s.colRecv p 0x20 k (fun x t => t.cdata x))

/-- CABORT (R432). -/
def execCabort (p : Option PortId) (k : FPkt) (s : State) : Host.Outcome State Fault Refusal :=
  .next (s.colRecv p 0x21 k (fun x t => t.cabort x))

/-- ACK: the packets of its class up to its number are acknowledged (R423). -/
def State.fgnAcked (s : State) (k : FPkt) : State :=
  let node := k.src.toNat
  let last := bits k.aux 63 32
  match mfind s.fgn.send node with
  | none => s
  | some c =>
    let keep (t : FTx) : Bool := !(t.tc == bits k.aux 1 0 && (t.pkt.seq.toNat == last || seqBelow t.pkt.seq.toNat last))
    { s with fgn := { s.fgn with send := mput s.fgn.send node { c with unack := c.unack.filter keep } } }

/-- ACK. -/
def execAck (p : PortId) (k : FPkt) (s : State) : Host.Outcome State Fault Refusal :=
  .next (s.fgnRecv p 3 0x30 k (fun t => t.fgnAcked k))

/-- NAK: packets are sent again, or, with RESET, the connection fails and restarts at 0 (R423, R424). -/
def execNak (p : PortId) (k : FPkt) (s : State) : Host.Outcome State Fault Refusal :=
  .next (s.fgnRecv p 3 0x31 k (fun t =>
    if bitAt k.aux 2 then (t.bump FGN_ERR FGN_ERR_PEER_RESET).connFail k.src.toNat (bits k.aux 1 0) true
    else t.connResend k.src.toNat (bits k.aux 1 0)))

/-- CLOSE: the receive entry of its source is freed (R422). -/
def execClose (p : PortId) (k : FPkt) (s : State) : Host.Outcome State Fault Refusal :=
  .next (s.fgnRecv p 3 0x32 k (fun t =>
    match mfind t.fgn.recv k.src.toNat with
    | none => t
    | some _ =>
      ({ t with fgn := { t.fgn with recv := mdel t.fgn.recv k.src.toNat } }).wr FGN_CONN_STAT FGN_CONN_STAT_RECV_USED
        (t.rd FGN_CONN_STAT FGN_CONN_STAT_RECV_USED - 1)))

/-- E2E_TIMEOUT: the oldest unacknowledged packet of a class has waited E2E_TO µs (R423, R425). -/
def execE2eTimeout (node : BitVec 13) (cls : Fin 3) (s : State) : Host.Outcome State Fault Refusal :=
  .next (s.connResend node.toNat cls)

/-- CONNECTION_IDLE_FREE: a send entry with nothing unacknowledged is freed, and the peer is told (R422). -/
def execConnectionIdleFree (node : BitVec 13) (s : State) : Host.Outcome State Fault Refusal :=
  match mfind s.fgn.send node.toNat with
  | none => .next s
  | some c =>
    if c.unack ≠ [] then .next s else
    let s1 := { s with fgn := { s.fgn with send := mdel s.fgn.send node.toNat } }
    .next ((s1.wr FGN_CONN_STAT FGN_CONN_STAT_SEND_USED (s.rd FGN_CONN_STAT FGN_CONN_STAT_SEND_USED - 1)).fgnMgt 0x32 node.toNat 0)

/-- ACK_TIMER: what a receive entry has accepted and not acknowledged is acknowledged (R423). -/
def execAckTimer (node : BitVec 13) (s : State) : Host.Outcome State Fault Refusal :=
  match mfind s.fgn.recv node.toNat with
  | none => .next s
  | some e =>
    let due := (List.range 3).filter (fun c => e.since.getD c 0 != 0)
    let s1 := { s with fgn := { s.fgn with recv := mput s.fgn.recv node.toNat { e with since := [0, 0, 0] } } }
    .next (due.foldl (fun t c => t.fgnAck node.toNat c (seqPred (e.expect.getD c 0))) s1)

end Sys2Proof.Machine
end

