-- ==== Sys2Proof/Machine/MatArith.lean ====
section
/-!
DEFINITION. Matrix arithmetic and layouts: shapes by format pair (R66), operand layout in memory and in the tile store (R68,
R192), group sums of R70 and R81, and the conversion of an output tile (R103 to R106, R112, R113).

Where the spec leaves open or is read by inference, and what is taken from outside it (DESIGN CHOICE, DEDUCED, PRESUMED):
notes/assumptions/48.md.
-/

namespace Sys2Proof.Machine

open Sys2Proof

/-! ### Shapes (R66, R92) -/

/-- The width in bits of an element of a format code. -/
def fmtBits (c : Nat) : Nat := match fmtOf c with | some f => f.width | none => 8

/-- A format pair the clover multiplies (R69). -/
def pairOk (fa fb : Nat) : Bool := (isMx fa && isMx fb) || (fa == fb && (fa == 8 || fa == 9 || fa == 0xA))

/-- The K-group G of a format pair. -/
def kGroup (fa fb : Nat) : Nat :=
  if fa = 1 ∧ fb = 1 then 256 else if isMx fa then 128 else if fa = 0xA then 24 else 32

/-- n rounded up to a multiple of 64. -/
def pad64 (n : Nat) : Nat := (n + 63) / 64 * 64

/-- n divided by k, rounded up. -/
def cdiv (n k : Nat) : Nat := (n + k - 1) / k

/-- Bytes of a packed row of n elements (R92). -/
def rowBytes (c n : Nat) : Nat := (fmtBits c * n + 7) / 8

/-! ### Reading runs of elements -/

/-- A run of n elements of b bits, the first at index i0 of a row that starts at a virtual address. -/
structure Req where
  va : Nat
  b  : Nat
  i0 : Nat
  n  : Nat
  deriving DecidableEq, Repr

/-- Elements of b bits from a bit offset of some bytes. -/
def elemsFrom (b sub : Nat) (bs : List Byte) (n : Nat) : List Nat :=
  (List.range n).map (fun i =>
    let o := sub + b * i
    nbits (leAt bs (o / 8) ((b + 7) / 8 + 1)) (o % 8 + b - 1) (o % 8))

/-- What reading operands gives: the runs and whether a line of them is poisoned, a stop under R85, or a translation to
wait for. -/
inductive GRes where
  | ok (runs : List (List Nat)) (poison : Bool)
  | stop
  | wait
  deriving DecidableEq, Repr

/-- Runs of elements read from memory by a tile. -/
def State.gather (s : State) (die pasid : Nat) : List Req → State × GRes
  | [] => (s, .ok [] false)
  | r :: rs =>
    let o := r.b * r.i0
    let len := (o + r.b * r.n + 7) / 8 - o / 8
    match s.vread die pasid (r.va + o / 8) len with
    | (_, .miss) => (s, .wait)
    | (s1, .ok bs p) =>
      (match s1.gather die pasid rs with
       | (s2, .ok xs q) => (s2, .ok (elemsFrom r.b (o % 8) bs r.n :: xs) (p || q))
       | x => x)
    | (s1, _) => (s1, .stop)

/-! ### Operands in memory (R68) -/

/-- An operand: base, format, whether the reduction runs down its stored rows, stride in bytes, its extent along the
reduction and across it. -/
structure Operand where
  va    : Nat
  fmt   : Nat
  tr    : Bool
  ld    : Nat
  kExt  : Nat
  mExt  : Nat
  deriving DecidableEq, Repr

def Operand.rows (o : Operand) : Nat := if o.tr then o.kExt else o.mExt
/-- The scale array begins where the data rows end. -/
def Operand.scaleVa (o : Operand) : Nat := o.va + o.rows * o.ld
/-- A row of the scale array in bytes. -/
def Operand.scaleRow (o : Operand) : Nat := if o.tr then pad64 o.mExt else pad64 (cdiv o.kExt 32)
/-- The metadata array of SPARSE B and its rows. -/
def Operand.metaVa (o : Operand) : Nat := if isMx o.fmt then o.scaleVa + o.rows * o.scaleRow else o.scaleVa
def Operand.metaRow (o : Operand) : Nat := pad64 (cdiv (cdiv o.kExt 4) 2)

/-- The runs of a segment: vectors m0 to m0 + cnt - 1 over reduction positions k0 to k0 + len - 1. -/
def Operand.dataReqs (o : Operand) (m0 cnt k0 len : Nat) : List Req :=
  if o.tr then (List.range len).map (fun k => { va := o.va + (k0 + k) * o.ld, b := fmtBits o.fmt, i0 := m0, n := cnt })
  else (List.range cnt).map (fun i => { va := o.va + (m0 + i) * o.ld, b := fmtBits o.fmt, i0 := k0, n := len })

def Operand.scaleReqs (o : Operand) (m0 cnt k0 len : Nat) : List Req :=
  if ¬ isMx o.fmt then [] else
  if o.tr then (List.range (cdiv len 32)).map (fun j =>
    { va := o.scaleVa + (k0 / 32 + j) * o.scaleRow, b := 8, i0 := m0, n := cnt })
  else (List.range cnt).map (fun i =>
    { va := o.scaleVa + (m0 + i) * o.scaleRow, b := 8, i0 := k0 / 32, n := cdiv len 32 })

/-- Rows turned into columns: row i of the result holds element i of each of the n rows given. -/
def transpose (cnt : Nat) (xs : List (List Nat)) : List (List Nat) :=
  (List.range cnt).map (fun i => xs.map (fun r => r.getD i 0))

/-- A list brought to n elements with a filler. -/
def padTo (n : Nat) (x : Nat) (l : List Nat) : List Nat := l.take n ++ List.replicate (n - l.length) x

/-- A segment of one vector: encodings by reduction position, zero at and beyond the operand's end, and its scale codes. -/
structure Seg where
  xs : List Nat
  sc : List Nat
  deriving DecidableEq, Repr

/-- What reading a segment of vectors gives. -/
inductive SegRes where
  | ok (v : List Seg) (poison : Bool)
  | stop
  | wait
  deriving DecidableEq, Repr

/-- Dense vectors m0 to m0 + cnt - 1 over span reduction positions from k0. -/
def State.readSegs (s : State) (die pasid : Nat) (o : Operand) (m0 cnt k0 span : Nat) : State × SegRes :=
  let len := min span (o.kExt - k0)
  let dq := o.dataReqs m0 cnt k0 len
  match s.gather die pasid (dq ++ o.scaleReqs m0 cnt k0 len) with
  | (s1, .ok runs p) =>
    let d := if o.tr then transpose cnt (runs.take dq.length) else runs.take dq.length
    let sc := if o.tr then transpose cnt (runs.drop dq.length) else runs.drop dq.length
    (s1, .ok ((List.range cnt).map (fun i =>
      { xs := padTo span 0 (d.getD i []), sc := padTo (span / 32) 127 (sc.getD i []) })) p)
  | (_, .wait)  => (s, .wait)
  | (s1, .stop) => (s1, .stop)

/-- A dense column of weights: each position keeps its one value. -/
def denseCol (g : Seg) : List (List Nat) × List Nat := (g.xs.map (fun x => [x]), g.sc)

/-- A sparse column: the kept values by the position their metadata names; positions at and beyond klen keep zeros
(R68, R81). -/
def sparseCol (klen span : Nat) (kept metas sc : List Nat) : List (List Nat) × List Nat :=
  ((List.range span).map (fun i =>
    let g := i / 4
    let e := metas.getD g 0
    let z (x : Nat) : Nat := if i < klen then x else 0
    (if e % 4 = i % 4 then [z (kept.getD (2 * g) 0)] else []) ++
    (if e / 4 % 4 = i % 4 then [z (kept.getD (2 * g + 1) 0)] else [])), sc)

/-- A weight block of columns n0 to n0 + cnt - 1 over span positions from k0. -/
def State.readBlock (s : State) (die pasid : Nat) (o : Operand) (sparse : Bool) (n0 cnt k0 span : Nat) :
    State × Option WBlk × Bool :=
  if ¬ sparse then
    match s.readSegs die pasid o n0 cnt k0 span with
    | (s1, .ok gs p) => (s1, some { cols := gs.map denseCol, poison := p }, false)
    | (s1, .stop)    => (s1, none, true)
    | (_, .wait)     => (s, none, false)
  else
    let len := min span (o.kExt - k0)
    let groups := cdiv len 4
    let dq := (List.range cnt).map (fun i => ({ va := o.va + (n0 + i) * o.ld, b := fmtBits o.fmt, i0 := k0 / 2, n := 2 * groups } : Req))
    let mq := (List.range cnt).map (fun i => ({ va := o.metaVa + (n0 + i) * o.metaRow, b := 4, i0 := k0 / 4, n := groups } : Req))
    match s.gather die pasid (dq ++ mq ++ o.scaleReqs n0 cnt k0 len) with
    | (s1, .ok runs p) =>
      let cols := (List.range cnt).map (fun i =>
        sparseCol len span (runs.getD i []) (runs.getD (cnt + i) []) (padTo (span / 32) 127 (runs.getD (2 * cnt + i) [])))
      (s1, some { cols := cols, poison := p }, false)
    | (s1, .stop) => (s1, none, true)
    | (_, .wait)  => (s, none, false)

/-! ### Group sums (R70, R81) -/

/-- The pairs of one 32-position block of an MX pair. -/
def mxPairs (fa fb : Nat) : List Nat → List (List Nat) → List (V × V)
  | a :: as, ws :: wss => ws.map (fun w => (decMx fa a, decMx fb w)) ++ mxPairs fa fb as wss
  | _, _ => []

/-- The leaf of a position of a BF16 or FP16 pair: the products of the kept values that name it (R70, R81). -/
def leaf (f : Fmt) (a : Nat) (ws : List Nat) : V :=
  match ws.map (fun w => accMul fB32 (decIeee f a) (decIeee f w)) with
  | [] => V.zero
  | p :: ps => ps.foldl (accAdd fB32) p

/-- The three-pass product of FP32 operands (R70). -/
def splitProduct (p a b : Nat) : V :=
  match p with
  | 0 => accMul fB32 (splitHi a) (splitHi b)
  | 1 => accMul fB32 (splitHi a) (splitLo b)
  | _ => accMul fB32 (splitLo a) (splitHi b)

/-- group_sum over G positions of a vector and a weight column (R70). -/
def groupSum (fa fb : Nat) (xs sa : List Nat) (ws : List (List Nat)) (sb : List Nat) : V :=
  if isMx fa then
    tree fExt ((List.range (xs.length / 32)).map (fun j =>
      mxPart (mxPairs fa fb ((xs.drop (32 * j)).take 32) ((ws.drop (32 * j)).take 32)) (sa.getD j 127) (sb.getD j 127)))
  else if fa = 0xA then
    let pass (p : Nat) : V := tree fB32 ((List.range 32).map (fun i =>
      if i < 24 then splitProduct p (xs.getD i 0) ((ws.getD i []).headD 0) else V.zero))
    accAdd fB32 (pass 0) (accAdd fB32 (pass 1) (pass 2))
  else
    let f := if fa = 8 then fBf16 else fFp16
    tree fB32 ((List.range 32).map (fun i => leaf f (xs.getD i 0) (ws.getD i [])))

/-- The sum of one set added to an accumulator: its K-groups of G positions one after the other (R70, R82). -/
def dotSet (fa fb : Nat) (acc : V) (a : Seg) (w : List (List Nat) × List Nat) : V :=
  let g := kGroup fa fb
  (List.range (a.xs.length / g)).foldl (fun v j =>
    accAdd (accFmt fa) v (groupSum fa fb ((a.xs.drop (g * j)).take g) (a.sc.drop (g * j / 32)) ((w.1.drop (g * j)).take g)
      (w.2.drop (g * j / 32)))) acc

/-- A set added to an output tile's sums, row by row. -/
def addSet (fa fb : Nat) (acc : List V) (rows : List Seg) (cols : List (List (List Nat) × List Nat)) : List V :=
  let c := cols.length
  (List.range rows.length).flatMap (fun i => (List.range c).map (fun j =>
    dotSet fa fb (acc.getD (i * c + j) V.zero) (rows.getD i { xs := [], sc := [] }) (cols.getD j ([], []))))

/-! ### What the conversion takes and gives -/

/-- The output parameters of a matrix descriptor (R67). -/
structure OutPar where
  fcd    : Nat
  round  : Nat
  sat    : Bool
  oscale : Bool
  oexp   : Nat
  alpha  : Nat
  beta   : Nat
  seed   : Nat
  deriving DecidableEq, Repr

def outPar (d : Line) : OutPar :=
  { fcd := bits d 251 248, round := bits d 369 368, sat := bitAt d 370, oscale := bitAt d 372, oexp := bits d 383 376,
    alpha := bits d 415 384, beta := bits d 447 416, seed := bits d 479 448 }

/-- β is not +0 or −0. -/
def OutPar.readsC (p : OutPar) : Bool := p.beta % 2 ^ 31 != 0

/-- v of R70 from the sum and, when it is read, c. -/
def OutPar.value (p : OutPar) (fa : Nat) (acc c : V) : V :=
  let f := accFmt fa
  let x := accMul f (decIeee fB32 p.alpha) acc
  if p.readsC then accAdd f x (accMul f (decIeee fB32 p.beta) c) else x

/-- The element of R72, K = 0. -/
def OutPar.edge (p : OutPar) (fa : Nat) (c : V) : V :=
  if p.readsC then accMul (accFmt fa) (decIeee fB32 p.beta) c else V.zero

/-- A block of up to 32 values of a row with their random numbers (R96). -/
def blockVals (p : OutPar) (row0 col0 cols : Nat) (vs : List V) (i b : Nat) : List (V × Nat) :=
  (List.range (min 32 (cols - 32 * b))).map (fun k =>
    let j := 32 * b + k
    (vs.getD (i * cols + j) V.zero, srRandom p.seed ((row0 + i) * 2 ^ 20 + (col0 + j))))

/-- A row written whole in 64-byte lines, zero beyond its last element (R106). -/
def padRow (c : Nat) (xs : List Nat) : List Byte :=
  let r := packRow (fmtBits c) xs
  r ++ List.replicate (pad64 r.length - r.length) 0

/-- A converted output tile: data rows, scale rows, counts. -/
structure Cvt where
  data   : List (List Byte)
  scales : List (List Byte)
  cnt    : CvtCnt
  deriving DecidableEq, Repr

/-- The scale code each block of a tile starts at: from its maximum, or OEXP (R104, R105, R112). -/
def startCodes (p : OutPar) (row0 col0 rows cols : Nat) (vs : List V) : List Nat :=
  match fmtOf p.fcd with
  | none => []
  | some f => (List.range rows).flatMap (fun i => (List.range (cdiv cols 32)).map (fun b =>
    if p.oscale then p.oexp else blockScale p.fcd f (rmodeOf p.round) (blockVals p row0 col0 cols vs i b)))

/-- The excess of each block at its code (R105, R112). -/
def excesses (p : OutPar) (row0 col0 rows cols : Nat) (vs : List V) (codes : List Nat) : List Nat :=
  match fmtOf p.fcd with
  | none => []
  | some f => (List.range rows).flatMap (fun i => (List.range (cdiv cols 32)).map (fun b =>
    blockExcess f (rmodeOf p.round) (codes.getD (i * cdiv cols 32 + b) 127) (blockVals p row0 col0 cols vs i b)))

/-- The codes of the next trial (R113). -/
def raiseCodes (codes ex : List Nat) : List Nat :=
  (List.range codes.length).map (fun i => codes.getD i 127 + min 15 (ex.getD i 0))

/-- Blocks in which a finite element still overflows at their code (R113). -/
def residuals (p : OutPar) (row0 col0 rows cols : Nat) (vs : List V) (codes : List Nat) : Nat :=
  match fmtOf p.fcd with
  | none => 0
  | some f => ((List.range rows).flatMap (fun i => (List.range (cdiv cols 32)).map (fun b =>
    let s := codes.getD (i * cdiv cols 32 + b) 127
    b2n (s != 0xFF && (blockVals p row0 col0 cols vs i b).any (fun q => mxOver f (rmodeOf p.round) s q.1 q.2))))).sum

/-- An output tile converted at its blocks' codes; a format without blocks has none (R103, R106). -/
def convertTile (p : OutPar) (row0 col0 rows cols : Nat) (vs : List V) (codes : List Nat) : Cvt :=
  match fmtOf p.fcd with
  | none => { data := [], scales := [], cnt := .zero }
  | some f =>
    let mode := rmodeOf p.round
    if isMx p.fcd then
      let nb := cdiv cols 32
      let row (i : Nat) : List (List Nat × Nat × CvtCnt) := (List.range nb).map (fun b =>
        encBlockAt p.fcd f mode p.sat (codes.getD (i * nb + b) 127) (blockVals p row0 col0 cols vs i b))
      let rs := (List.range rows).map row
      { data := rs.map (fun r => padRow p.fcd (r.flatMap (·.1))),
        scales := rs.map (fun r =>
          r.map (fun x => (BitVec.ofNat 8 x.2.1 : Byte))),
        cnt := rs.foldl (fun a r => r.foldl (fun a x => a.add x.2.2) a) .zero }
    else
      let row (i : Nat) : List (Nat × CvtCnt) := (List.range cols).map (fun j =>
        encOut f mode p.sat (srRandom p.seed ((row0 + i) * 2 ^ 20 + (col0 + j))) (vs.getD (i * cols + j) V.zero))
      let rs := (List.range rows).map row
      { data := rs.map (fun r => padRow p.fcd (r.map (·.1))), scales := [],
        cnt := rs.foldl (fun a r => r.foldl (fun a x => a.add x.2) a) .zero }

/-! ### Staged operands (R192, R193) -/

/-- A staged row: elements, then scale bytes, padded to 64 bytes. -/
def stagedRow (c span : Nat) : Nat := pad64 (rowBytes c span + (if isMx c then span / 32 else 0))

/-- Bytes of a staged weight block's data, scales and metadata regions, each from a 64-byte boundary. -/
def stagedData (fa fb : Nat) : Nat := pad64 (512 * rowBytes fb (kGroup fa fb))
def stagedScale (fb span : Nat) : Nat := if isMx fb then pad64 (512 * (span / 32)) else 0
def stagedMeta (sparse : Bool) (span : Nat) : Nat := if sparse then pad64 (512 * (span / 8)) else 0

/-- A staged row decoded: positions at and beyond klen read as zero. -/
def stagedSeg (c span klen : Nat) (bs : List Byte) : Seg :=
  let xs := elemsFrom (fmtBits c) 0 bs span
  { xs := (List.range span).map (fun i => if i < klen then xs.getD i 0 else 0),
    sc := if isMx c then (List.range (span / 32)).map (fun j => if 32 * j < klen then leAt bs (rowBytes c span + j) 1 else 127)
          else [] }

/-- A staged weight column decoded from the bytes of its block. -/
def stagedCol (fa fb : Nat) (sparse : Bool) (klen : Nat) (blk : List Byte) (col : Nat) : List (List Nat) × List Nat :=
  let g := kGroup fa fb
  let span := if sparse then 2 * g else g
  let cb := rowBytes fb g
  let xs := elemsFrom (fmtBits fb) 0 (slice blk (col * cb) cb) g
  let sc := if isMx fb then (List.range (span / 32)).map (fun j =>
      if 32 * j < klen then leAt blk (stagedData fa fb + col * (span / 32) + j) 1 else 127) else []
  if sparse then
    let mb := slice blk (stagedData fa fb + stagedScale fb span + col * (span / 8)) (span / 8)
    sparseCol klen span xs (elemsFrom 4 0 mb (span / 4)) sc
  else ((List.range span).map (fun i => [if i < klen then xs.getD i 0 else 0]), sc)

/-! ### Commands (R192, R193) -/

def cmdFa (c : Line) : Nat := bits c 11 8
def cmdFb (c : Line) : Nat := bits c 15 12
def cmdSparse (c : Line) : Bool := bitAt c 7
def cmdFirst (c : Line) : Bool := bitAt c 4
def cmdLast (c : Line) : Bool := bitAt c 5
def cmdBank (c : Line) : Nat := bits c 6 6
def cmdRows (c : Line) : Nat := bits c 28 20
def cmdCols (c : Line) : Nat := bits c 233 224
def cmdKlen (c : Line) : Nat := bits c 137 128
def cmdSpan (c : Line) : Nat := (if cmdSparse c then 2 else 1) * kGroup (cmdFa c) (cmdFb c)
def cmdAct (c : Line) : Nat := bits c 53 32
def cmdActStride (c : Line) : Nat := bits c 79 64 * 64
def cmdWgt (c : Line) : Nat := bits c 117 96
def cmdDst (c : Line) : Nat := bits c 165 144
def cmdDstStride (c : Line) : Nat := bits c 191 176 * 64
def cmdC (c : Line) : Nat := bits c 213 192
def cmdRow0 (c : Line) : Nat := bits c 275 256
def cmdCol0 (c : Line) : Nat := bits c 295 276

/-- The fields common to both kinds of command keep their table. -/
def cmdFieldsOk (c : Line) : Bool :=
  bits c 3 0 == 1 && bits c 31 29 == 0 && bits c 63 54 == 0 && bits c 95 80 == 0 && bits c 127 118 == 0 &&
  bits c 143 138 == 0 && bits c 175 166 == 0 && bits c 223 214 == 0 && bits c 255 234 == 0 && bits c 511 296 == 0 &&
  pairOk (cmdFa c) (cmdFb c) && decide (1 ≤ cmdKlen c) && decide (cmdKlen c ≤ cmdSpan c)

def clvFieldsOk (c : Line) : Bool :=
  cmdFieldsOk c && decide (1 ≤ cmdRows c) && decide (cmdRows c ≤ 256) && decide (1 ≤ cmdCols c) &&
  decide (cmdCols c ≤ 512) && !(cmdSparse c && cmdFa c == 0xA)

def mvcFieldsOk (c : Line) : Bool :=
  cmdFieldsOk c && decide (1 ≤ cmdRows c) && decide (cmdRows c ≤ 8) && decide (1 ≤ cmdCols c) && decide (cmdCols c ≤ 8) &&
  bits c 19 16 == 0 && cmdBank c == 0 && !cmdSparse c && cmdFa c != 0xA

/-- The bytes D or C takes in the tile store in FMT_CD layout: its rows, then its scale rows. -/
def cdBytes (fcd rows cols stride : Nat) : Nat :=
  rows * stride + (if isMx fcd then rows * pad64 (cdiv cols 32) else 0)

def cvcFrom (c : W256) : Nat := bits c 3 0
def cvcTo (c : W256) : Nat := bits c 7 4
def cvcSrc (c : W256) : Nat := bits c 53 32
def cvcDst (c : W256) : Nat := bits c 85 64

/-- Whether the unit converts stored values of one format to another (R107): from binary32 outward, or inward from an MX
format, BF16 or FP16. -/
def cvcPairOk (a b : Nat) : Bool :=
  (a == 0xA && (fmtOf b).isSome) || (isMx a && (b == 8 || b == 9 || b == 0xA)) || ((a == 8 || a == 9) && b == 0xA)

/-- A CVC command keeps R193: a conversion of R107, ROUND assigned, COUNT not zero, the rest zero. -/
def cvcFieldsOk (c : W256) : Bool :=
  cvcPairOk (cvcFrom c) (cvcTo c) && bits c 9 8 != 3 && bits c 31 11 != 0 &&
  bits c 63 54 == 0 && bits c 95 86 == 0 && bits c 255 192 == 0

/-- Values a CVC converts, and the bytes its source and its target take: packed elements, then for an MX format one scale
byte for each block of 32. -/
def cvcCount (c : W256) : Nat := 512 * bits c 31 11 / fmtBits (cvcFrom c)
def cvcSrcBytes (c : W256) : Nat := 64 * bits c 31 11 + (if isMx (cvcFrom c) then cdiv (cvcCount c) 32 else 0)
def cvcDstBytes (c : W256) : Nat := rowBytes (cvcTo c) (cvcCount c) + (if isMx (cvcTo c) then cdiv (cvcCount c) 32 else 0)

end Sys2Proof.Machine
end

