-- ==== Sys2Proof/Machine/Seq.lean ====
section
/-!
DEFINITION. The facet sequencer (spec/07, R188 to R196): formats, operations, descriptors, commands, waits and faults.  A row
executes the instruction at the program counter when it is that row's operation, and otherwise changes nothing.

Where the spec leaves open or is read by inference, and what is taken from outside it (DESIGN CHOICE, DEDUCED, PRESUMED):
notes/assumptions/47.md, 48.md, 53.md.
-/

namespace Sys2Proof.Machine

open Sys2Proof

/-! ### Faults (R195) -/

/-- TIL_SEQ_ERR codes (R197). -/
abbrev sfIllegal : Nat := 1
abbrev sfFetch : Nat := 2
abbrev sfStack : Nat := 3
abbrev sfAccess : Nat := 4
abbrev sfCommand : Nat := 5
abbrev sfDescriptor : Nat := 6
abbrev sfLaunch : Nat := 7
abbrev sfEpoch : Nat := 8

abbrev stSeqFault : Nat := 0x50

/-- The held descriptor released; a matrix descriptor run for it ends with it. -/
def State.release (s : State) (n : Nat) : State :=
  let t := s.tile n
  (s.setTile n { t with mat := if t.mat.map (·.work) = t.seq.held then none else t.mat,
                        seq := { t.seq with held := none, mvCounted := false } }).wr (TIL_SEQ_STAT n) TIL_SEQ_STAT_HELD 0

/-- An epoch is open on an ID. -/
def State.epoIsOpen (s : State) (n : Nat) : Bool := s.epoSt n == esOpen || s.epoSt n == esReplay

/-- Steps 2 to 6 of a sequencer fault, once no outstanding command remains; an open epoch commits before the restart
(R195, R202). -/
def State.seqFaultEnd (s : State) (n : Nat) : State :=
  let t := s.tile n
  match t.seq.fault with
  | none => s
  | some code =>
    if t.clv ≠ [] ∨ t.mvc ≠ [] ∨ t.cvc ≠ [] ∨ t.outs ≠ [] then s else
    let s1 : State := (List.range 4).foldl (fun u q => u.dmaFlush n q) s
    let s2 : State := match t.seq.held with
      | some w => (s1.tileDone n w t.seq.pos stSeqFault code).release n
      | none   => s1
    let t2 : Tile := s2.tile n
    let s3 : State := s2.setTile n { t2 with seq := { t2.seq with fault := none } }
    if s3.epoIsOpen n ∧ (s3.epo n).committer = 0 then
      let s4 := (if s3.epoSt n = esOpen then s3.bump (EPO_ERR n) EPO_ERR_AUTOCOMMIT else s3).epoSeal n 3
      let s5 := s4.setEpo n { s4.epo n with fault := true }
      if s.resil then s5 else s5.commitPoint n 0
    else if s3.epoSt n ≠ esClosed then s3.setEpo n { s3.epo n with fault := true }
    else s3.seqRestart n

/-- A sequencer fault: it is recorded and the sequencer stops issuing (R195, R197). -/
def State.seqFault (s : State) (n code : Nat) : State :=
  let a := TIL_SEQ_ERR n
  let s1 := ((s.wr a TIL_SEQ_ERR_CODE code).wr a TIL_SEQ_ERR_PC (s.rd (TIL_SEQ_STAT n) TIL_SEQ_STAT_PC)).bump a
    TIL_SEQ_ERR_COUNT
  let t := s1.tile n
  (s1.setTile n { t with seq := { t.seq with fault := some code } }).seqFaultEnd n

/-! ### Fetching and formats (R188, R189) -/

/-- The sequencer executes: its tile is READY or BUSY, it runs, waits for nothing, has no fault pending, and no start record
of its own is on its way. -/
def State.seqReady (s : State) (n : Nat) : Bool :=
  let t := s.tile n
  t.seq.run && t.seq.fault.isNone && (s.tst n == tsReady || s.tst n == tsBusy) &&
  s.rd (TIL_SEQ_STAT n) TIL_SEQ_STAT_WAIT_KIND == 0 && !(t.epo.opening && t.epo.opener == 1) && !t.epo.fault

/-- The instruction at the program counter; none at or beyond the MICRO length. -/
def State.seqWord (s : State) (n : Nat) : Option W32 :=
  let t := s.tile n
  if t.seq.beyond then none else t.micro[s.rd (TIL_SEQ_STAT n) TIL_SEQ_STAT_PC]?

/-- An operation code the table of R189 lists. -/
def seqLegal (o : Nat) : Bool :=
  decide (o ≤ 0x0C) || (decide (0x10 ≤ o) && decide (o ≤ 0x15)) || (decide (0x18 ≤ o) && decide (o ≤ 0x1E)) ||
  (decide (0x20 ≤ o) && decide (o ≤ 0x24)) || (decide (0x28 ≤ o) && decide (o ≤ 0x2E)) ||
  (decide (0x30 ≤ o) && decide (o ≤ 0x35))

/-- The bits that an instruction's format or row marks zero are zero. -/
def seqForm (w : W32) : Bool :=
  let z (hi lo : Nat) : Bool := bits w hi lo == 0
  match bits w 31 26 with
  | 0x00 => z 25 0
  | 0x13 => z 17 6
  | 0x14 => z 17 6
  | 0x15 => z 21 18
  | 0x1C => z 25 18
  | 0x1D => z 25 18
  | 0x1E => z 25 0
  | 0x22 => z 21 18
  | 0x23 => z 21 18
  | 0x24 => z 21 18
  | 0x28 => z 21 0
  | 0x29 => z 25 22
  | 0x2A => z 25 22
  | 0x2B => z 25 22 && z 17 0
  | 0x2C => z 25 22 && z 17 0
  | 0x2D => z 25 22 && z 17 0
  | 0x2E => z 21 18 && z 17 13
  | 0x30 => z 21 0
  | 0x31 => z 21 0
  | 0x32 => z 25 0
  | 0x33 => z 13 0
  | 0x34 => z 13 0
  | 0x35 => z 25 22 && z 13 0
  | o    => if 1 ≤ o ∧ o ≤ 0x0C then z 13 0 else true

/-- One command of the sequencer: the instruction at the program counter, when it is operation op. -/
def State.seqExec (s : State) (n op : Nat) (f : W32 → State) : State :=
  if ¬ s.seqReady n then s else
  match s.seqWord n with
  | none   => s
  | some w =>
    if bits w 31 26 ≠ op then s
    else if seqForm w then f w else s.seqFault n sfIllegal

/-! ### Registers and moving on -/

def gd (w : W32) : Nat := bits w 25 22
def ga (w : W32) : Nat := bits w 21 18
def gb (w : W32) : Nat := bits w 17 14
def imm (w : W32) : Nat := bits w 17 0
/-- IMM where the table says it is signed. -/
def simm (w : W32) : Int := sgn 18 (bits w 17 0)

/-- A sequencer register; g0 reads as zero. -/
def State.g (s : State) (n r : Nat) : Word := if r = 0 then 0 else mget 0 (s.tile n).seq.g r
/-- A sequencer register written; g0 ignores it. -/
def State.setG (s : State) (n r : Nat) (v : Word) : State :=
  if r = 0 then s else
  let t := s.tile n
  s.setTile n { t with seq := { t.seq with g := mset 0 t.seq.g r v } }

/-- The address GA + IMM, 64 bits. -/
def State.gaImm (s : State) (n : Nat) (w : W32) : Nat := unsgn 64 ((s.g n (ga w)).toNat + simm w)

def State.seqPcOf (s : State) (n : Nat) : Nat := s.rd (TIL_SEQ_STAT n) TIL_SEQ_STAT_PC
/-- An executed instruction is counted. -/
def State.seqCount (s : State) (n : Nat) : State := s.wrap (TIL_SEQ_STAT n) TIL_SEQ_STAT_INSTR 1
/-- The instruction is executed and the next one follows. -/
def State.seqNext (s : State) (n : Nat) : State := (s.seqCount n).seqPc n ((s.seqPcOf n : Int) + 1)
/-- The instruction is executed and control goes to its index plus IMM. -/
def State.seqJump (s : State) (n : Nat) (w : W32) : State := (s.seqCount n).seqPc n ((s.seqPcOf n : Int) + simm w)
/-- The sequencer waits at its instruction. -/
def State.seqWait (s : State) (n kind : Nat) : State := s.wr (TIL_SEQ_STAT n) TIL_SEQ_STAT_WAIT_KIND kind

/-- An instruction that writes GD from GA and GB. -/
def State.seqRR (s : State) (n op : Nat) (f : Nat → Nat → Nat) : State :=
  s.seqExec n op (fun w =>
    (s.setG n (gd w) (BitVec.ofNat 64 (f (s.g n (ga w)).toNat (s.g n (gb w)).toNat))).seqNext n)

/-- An instruction that writes GD from GA and the instruction. -/
def State.seqRI (s : State) (n op : Nat) (f : Nat → W32 → Nat) : State :=
  s.seqExec n op (fun w => (s.setG n (gd w) (BitVec.ofNat 64 (f (s.g n (ga w)).toNat w))).seqNext n)

/-- A branch on GX and GY, which sit where GD and GA do. -/
def State.seqBr (s : State) (n op : Nat) (p : Nat → Nat → Bool) : State :=
  s.seqExec n op (fun w =>
    if p (s.g n (gd w)).toNat (s.g n (ga w)).toNat then s.seqJump n w else s.seqNext n)

/-! ### Register and control instructions (R189) -/

/-- SEQ_NOP: no operation; at an operation the table does not list, or at or beyond the MICRO length, the fetch is the
sequencer's fault. -/
def execSeqNop (n : TileId) (s : State) : Host.Outcome State Fault Refusal :=
  if ¬ s.seqReady n.val then .next s else
  match s.seqWord n.val with
  | none   => .next (s.seqFault n.val sfFetch)
  | some w =>
    let o := bits w 31 26
    if ¬ seqLegal o then .next (s.seqFault n.val sfIllegal)
    else if o = 0 then .next (if seqForm w then s.seqNext n.val else s.seqFault n.val sfIllegal)
    else .next s

/-- ADD. -/
def execSeqAdd (n : TileId) (s : State) : Host.Outcome State Fault Refusal := .next (s.seqRR n 0x01 (fun a b => a + b))
/-- SUB. -/
def execSeqSub (n : TileId) (s : State) : Host.Outcome State Fault Refusal :=
  .next (s.seqRR n 0x02 (fun a b => a + 2 ^ 64 - b))
/-- AND. -/
def execSeqAnd (n : TileId) (s : State) : Host.Outcome State Fault Refusal := .next (s.seqRR n 0x03 (fun a b => a &&& b))
/-- OR. -/
def execSeqOr (n : TileId) (s : State) : Host.Outcome State Fault Refusal := .next (s.seqRR n 0x04 (fun a b => a ||| b))
/-- XOR. -/
def execSeqXor (n : TileId) (s : State) : Host.Outcome State Fault Refusal := .next (s.seqRR n 0x05 (fun a b => a ^^^ b))
/-- SLL. -/
def execSeqSll (n : TileId) (s : State) : Host.Outcome State Fault Refusal :=
  .next (s.seqRR n 0x06 (fun a b => a <<< (b % 64)))
/-- SRL. -/
def execSeqSrl (n : TileId) (s : State) : Host.Outcome State Fault Refusal :=
  .next (s.seqRR n 0x07 (fun a b => a >>> (b % 64)))
/-- SRA. -/
def execSeqSra (n : TileId) (s : State) : Host.Outcome State Fault Refusal :=
  .next (s.seqRR n 0x08 (fun a b => unsgn 64 (sgn 64 a / (2 ^ (b % 64) : Int))))
/-- MUL. -/
def execSeqMul (n : TileId) (s : State) : Host.Outcome State Fault Refusal := .next (s.seqRR n 0x09 (fun a b => a * b))
/-- MINU. -/
def execSeqMinu (n : TileId) (s : State) : Host.Outcome State Fault Refusal := .next (s.seqRR n 0x0A (fun a b => min a b))
/-- MAXU. -/
def execSeqMaxu (n : TileId) (s : State) : Host.Outcome State Fault Refusal := .next (s.seqRR n 0x0B (fun a b => max a b))
/-- SLTU. -/
def execSeqSltu (n : TileId) (s : State) : Host.Outcome State Fault Refusal :=
  .next (s.seqRR n 0x0C (fun a b => b2n (decide (a < b))))
/-- ADDI. -/
def execSeqAddi (n : TileId) (s : State) : Host.Outcome State Fault Refusal :=
  .next (s.seqRI n 0x10 (fun a w => unsgn 64 (a + simm w)))
/-- ANDI. -/
def execSeqAndi (n : TileId) (s : State) : Host.Outcome State Fault Refusal :=
  .next (s.seqRI n 0x11 (fun a w => a &&& imm w))
/-- ORI. -/
def execSeqOri (n : TileId) (s : State) : Host.Outcome State Fault Refusal :=
  .next (s.seqRI n 0x12 (fun a w => a ||| imm w))
/-- SLLI. -/
def execSeqSlli (n : TileId) (s : State) : Host.Outcome State Fault Refusal :=
  .next (s.seqRI n 0x13 (fun a w => a <<< (imm w % 64)))
/-- SRLI. -/
def execSeqSrli (n : TileId) (s : State) : Host.Outcome State Fault Refusal :=
  .next (s.seqRI n 0x14 (fun a w => a >>> (imm w % 64)))
/-- LSH: GD shifted left 18 bits with the immediate. -/
def execSeqLsh (n : TileId) (s : State) : Host.Outcome State Fault Refusal :=
  .next (s.seqExec n 0x15 (fun w =>
    (s.setG n (gd w) (BitVec.ofNat 64 ((s.g n (gd w)).toNat * 2 ^ 18 + imm w))).seqNext n))
/-- BEQ. -/
def execSeqBeq (n : TileId) (s : State) : Host.Outcome State Fault Refusal := .next (s.seqBr n 0x18 (fun a b => a == b))
/-- BNE. -/
def execSeqBne (n : TileId) (s : State) : Host.Outcome State Fault Refusal := .next (s.seqBr n 0x19 (fun a b => a != b))
/-- BLTU. -/
def execSeqBltu (n : TileId) (s : State) : Host.Outcome State Fault Refusal :=
  .next (s.seqBr n 0x1A (fun a b => decide (a < b)))
/-- BGEU. -/
def execSeqBgeu (n : TileId) (s : State) : Host.Outcome State Fault Refusal :=
  .next (s.seqBr n 0x1B (fun a b => decide (b ≤ a)))
/-- JMP. -/
def execSeqJmp (n : TileId) (s : State) : Host.Outcome State Fault Refusal :=
  .next (s.seqExec n 0x1C (fun w => s.seqJump n w))

/-- CALL: the next index is pushed on the stack of 8 entries; a push on a full one is a fault. -/
def execSeqCall (n : TileId) (s : State) : Host.Outcome State Fault Refusal :=
  .next (s.seqExec n 0x1D (fun w =>
    let t := s.tile n
    if 8 ≤ t.seq.rstack.length then s.seqFault n sfStack
    else (s.setTile n { t with seq := { t.seq with rstack := (s.seqPcOf n + 1) :: t.seq.rstack } }).seqJump n w))

/-- RET: the newest index is popped; a pop of an empty stack is a fault. -/
def execSeqRet (n : TileId) (s : State) : Host.Outcome State Fault Refusal :=
  .next (s.seqExec n 0x1E (fun _ =>
    let t := s.tile n
    match t.seq.rstack with
    | []      => s.seqFault n sfStack
    | r :: rs => ((s.setTile n { t with seq := { t.seq with rstack := rs } }).seqCount n).seqPc n r))

/-! ### Tile-store words and sources (R190, R193) -/

/-- len bytes from an offset lie in partitions, none of them JRNL, aligned to al bytes (R190). -/
def State.seqAcc (s : State) (n off len al : Nat) : Bool :=
  off % al == 0 && decide (off + len ≤ 0x300000) &&
  (match s.partAt n off with
   | some p => p.kind != 6
   | none   => false)

/-- LDT. -/
def execSeqLdt (n : TileId) (s : State) : Host.Outcome State Fault Refusal :=
  .next (s.seqExec n 0x20 (fun w =>
    let a := s.gaImm n w
    if s.seqAcc n a 8 8 then (s.setG n (gd w) (BitVec.ofNat 64 (leVal (s.tsBytes n a 8)))).seqNext n
    else s.seqFault n sfAccess))

/-- STT. -/
def execSeqStt (n : TileId) (s : State) : Host.Outcome State Fault Refusal :=
  .next (s.seqExec n 0x21 (fun w =>
    let a := s.gaImm n w
    if s.seqAcc n a 8 8 then (if s.guarded n a 8 then s else s.tsWrite n a (leBytes 8 (s.g n (gd w)).toNat) false).seqNext n
    else s.seqFault n sfAccess))

/-- PRM: a parameter of the bind record. -/
def execSeqPrm (n : TileId) (s : State) : Host.Outcome State Fault Refusal :=
  .next (s.seqExec n 0x22 (fun w =>
    let v : Word := match (s.tile n).bind with
      | some b => b.params.getD (imm w % 16) 0
      | none   => 0
    (s.setG n (gd w) v).seqNext n))

/-- DSC: a word of the held descriptor; a fault while none is held. -/
def execSeqDsc (n : TileId) (s : State) : Host.Outcome State Fault Refusal :=
  .next (s.seqExec n 0x23 (fun w =>
    match (s.tile n).seq.held with
    | none   => s.seqFault n sfDescriptor
    | some h => (s.setG n (gd w) (BitVec.ofNat 64 (h.desc.toNat >>> (64 * (imm w % 8))))).seqNext n))

/-- SST: a status source of R193; the array clocks since the facet loaded are a value the model leaves free. -/
def execSeqSst (n : TileId) (s : State) : Host.Outcome State Fault Refusal :=
  .next (s.seqExec n 0x24 (fun w =>
    let t := s.tile n
    match imm w % 16 with
    | 0 => (s.setG n (gd w) (BitVec.ofNat 64 n.val)).seqNext n
    | 1 => (s.setG n (gd w) (BitVec.ofNat 64 (b2n s.resil + 2 * b2n s.det))).seqNext n
    | 2 => (s.setG n (gd w) (BitVec.ofNat 64 t.seq.kout)).seqNext n
    | 3 => (s.setG n (gd w) (BitVec.ofNat 64 (b2n (s.epoSt n != esClosed) + 2 * s.epoNum n))).seqNext n
    | 4 => let f := s.fresh; (f.2.setG n (gd w) f.1).seqNext n
    | 5 => (s.setG n (gd w) (BitVec.ofNat 64 t.seq.worst)).seqNext n
    | _ => (s.setG n (gd w) 0).seqNext n))

/-! ### Descriptors (R191) -/

/-- TAKE: the offered descriptor is held and GD gets its type, or the sequencer waits; TAKE while holding is a fault. -/
def execSeqTake (n : TileId) (s : State) : Host.Outcome State Fault Refusal :=
  .next (s.seqExec n 0x28 (fun _ =>
    if (s.tile n).seq.held.isSome then s.seqFault n sfDescriptor
    else ((s.seqCount n).seqWait n 1).takeWake n))

/-- DONE: the held descriptor completes with IMM[7:0] and detail GA[31:0]. -/
def execSeqDone (n : TileId) (s : State) : Host.Outcome State Fault Refusal :=
  .next (s.seqExec n 0x29 (fun w =>
    let t := s.tile n
    match t.seq.held with
    | none   => s.seqFault n sfDescriptor
    | some h => ((s.tileDone n h t.seq.pos (imm w % 256) (bits (s.g n (ga w)) 31 0)).release n).seqNext n))

/-! ### Commands (R189, R192, R193) -/

/-- The process ID of the held descriptor's ring. -/
def State.seqPasid (s : State) (n : Nat) : Nat :=
  match (s.tile n).seq.held with
  | some h => s.pasidOf h
  | none   => 0

/-- DMAQ: a descriptor of the tile store is pushed to queue 0 to 3; a full queue makes the sequencer wait. -/
def execSeqDmaq (n : TileId) (s : State) : Host.Outcome State Fault Refusal :=
  .next (s.seqExec n 0x2A (fun w =>
    let a := (s.g n (ga w)).toNat
    let q := imm w % 4
    if ¬ s.seqAcc n a 32 32 then s.seqFault n sfAccess
    else if 64 ≤ (s.dq n q).length then s.seqWait n 5
    else
      let e : DmaEnt := { desc := BitVec.ofNat 256 (leVal (s.tsBytes n a 32)), inline := none, pasid := s.seqPasid n,
                          work := none, started := false, moved := false }
      ((s.gapDirty n).setDq n q (s.dq n q ++ [e])).seqNext n))

/-- The held matrix descriptor, from which a drain takes its output parameters (R192). -/
def State.heldMat (s : State) (n : Nat) : Option Line :=
  match (s.tile n).seq.held with
  | some h => if bits h.desc 7 0 = 0x10 then some h.desc else none
  | none   => none

/-- Rows of len bytes at a stride all grant a right. -/
def State.rowsRight (s : State) (n right off stride len : Nat) : Nat → Bool
  | 0 => true
  | k + 1 => s.tsRight n right off len && s.rowsRight n right (off + stride) stride len k

/-- The regions of a clover command have the rights R192 asks for; off a 64-byte line an offset is malformed. -/
def State.cmdRegions (s : State) (n : Nat) (c : Line) (mvc : Bool) : Bool :=
  let fa := cmdFa c
  let fb := cmdFb c
  let span := cmdSpan c
  let wgt := if mvc then stagedRow fb span * cmdCols c
             else stagedData fa fb + stagedScale fb span + stagedMeta (cmdSparse c) span
  s.rowsRight n rtA (cmdAct c) (cmdActStride c) (stagedRow fa span) (cmdRows c) && s.tsRight n rtA (cmdWgt c) wgt &&
  (!cmdLast c || (match s.heldMat n with
    | none   => s.tsRight n rtW (cmdDst c) (cmdRows c * cmdDstStride c)
    | some d =>
      let len := cdBytes (outPar d).fcd (cmdRows c) (cmdCols c) (cmdDstStride c)
      s.tsRight n rtW (cmdDst c) len && (!(outPar d).readsC || s.tsRight n rtA (cmdC c) len)))

/-- DST_OFF of a draining command lies in an ACC partition. -/
def State.cmdAcc (s : State) (n : Nat) (c : Line) : Bool :=
  !cmdLast c || (match s.partAt n (cmdDst c) with | some p => p.kind == 3 | none => false)

/-- A command refused: the fault, counted by TIL_ERR.ACCESS when a right is missing. -/
def State.cmdFault (s : State) (n : Nat) (right : Bool) : State :=
  if right then (s.accessErr n).seqFault n sfCommand else s.seqFault n sfCommand

/-- CLV_OCC follows the clover's queue (R197). -/
def State.setClv (s : State) (n : Nat) (q : List Line) : State :=
  (s.setTile n { s.tile n with clv := q }).wr (TIL_SEQ_STAT n) TIL_SEQ_STAT_CLV_OCC q.length

/-- CLV: a clover command is issued; a fifth waits. -/
def execSeqClv (n : TileId) (s : State) : Host.Outcome State Fault Refusal :=
  .next (s.seqExec n 0x2B (fun w =>
    let a := (s.g n (ga w)).toNat
    if ¬ s.seqAcc n a 64 64 then s.seqFault n sfAccess else
    let c : Line := BitVec.ofNat 512 (leVal (s.tsBytes n a 64))
    if ¬ clvFieldsOk c ∨ ¬ s.cmdAcc n c then s.cmdFault n false
    else if ¬ s.cmdRegions n c false then s.cmdFault n true
    else if 4 ≤ (s.tile n).clv.length then s.seqWait n 4
    else ((s.gapDirty n).setClv n ((s.tile n).clv ++ [c])).seqNext n))

/-- MVC: a matrix-vector command is issued; a third waits. -/
def execSeqMvc (n : TileId) (s : State) : Host.Outcome State Fault Refusal :=
  .next (s.seqExec n 0x2C (fun w =>
    let a := (s.g n (ga w)).toNat
    if ¬ s.seqAcc n a 64 64 then s.seqFault n sfAccess else
    let c : Line := BitVec.ofNat 512 (leVal (s.tsBytes n a 64))
    if ¬ mvcFieldsOk c ∨ ¬ s.cmdAcc n c then s.cmdFault n false
    else if ¬ s.cmdRegions n c true then s.cmdFault n true
    else if 2 ≤ (s.tile n).mvc.length then s.seqWait n 4
    else
      let s1 := s.gapDirty n
      (s1.setTile n { s1.tile n with mvc := (s1.tile n).mvc ++ [c] }).seqNext n))

/-- CVC: a conversion command is issued. -/
def execSeqCvc (n : TileId) (s : State) : Host.Outcome State Fault Refusal :=
  .next (s.seqExec n 0x2D (fun w =>
    let a := (s.g n (ga w)).toNat
    if ¬ s.seqAcc n a 64 64 then s.seqFault n sfAccess else
    let c : W256 := BitVec.ofNat 256 (leVal (s.tsBytes n a 32))
    if ¬ cvcFieldsOk c then s.cmdFault n false
    else if ¬ (s.tsRight n rtA (cvcSrc c) (cvcSrcBytes c) ∧ s.tsRight n rtW (cvcDst c) (cvcDstBytes c)) then
      s.cmdFault n true
    else
      let s1 := s.gapDirty n
      (s1.setTile n { s1.tile n with cvc := (s1.tile n).cvc ++ [c] }).seqNext n))

/-- A conversion command's values converted from its source bytes: the bytes written and the counts (R107, R193). -/
def cvcRun (c : W256) (src : List Byte) : List Byte × CvtCnt :=
  let cnt := cvcCount c
  let fi := cvcFrom c
  let fo := cvcTo c
  let xs := elemsFrom (fmtBits fi) 0 src cnt
  let sc := src.drop (64 * bits c 31 11)
  let vals := (List.range cnt).map (fun i =>
    if isMx fi then mxValue fi (xs.getD i 0) (leAt sc (i / 32) 1) else decElem fi (xs.getD i 0))
  let rnd (i : Nat) : Nat := srRandom (bits c 127 96) ((bits c 191 128 + i) % 2 ^ 64)
  let mode := rmodeOf (bits c 9 8)
  match fmtOf fo with
  | none => ([], .zero)
  | some f =>
    if fi ≠ 0xA then
      let rs := vals.map (fun v => let x := inConv f v; (encOut f .rne true 0 x.1, x.2))
      (packRow (fmtBits fo) (rs.map (fun r => r.1.1)), rs.foldl (fun a r => a.add r.2) .zero)
    else if isMx fo then
      let blk (b : Nat) : List (V × Nat) := (List.range (min 32 (cnt - 32 * b))).map (fun k =>
        (vals.getD (32 * b + k) V.zero, rnd (32 * b + k)))
      let rs := (List.range (cdiv cnt 32)).map (fun b =>
        encBlockAt fo f mode (bitAt c 10) (blockScale fo f mode (blk b)) (blk b))
      (packRow (fmtBits fo) (rs.flatMap (·.1)) ++ rs.map (fun r => BitVec.ofNat 8 r.2.1),
       rs.foldl (fun a r => a.add r.2.2) .zero)
    else
      let rs := (List.range cnt).map (fun i => encOut f mode (bitAt c 10) (rnd i) (vals.getD i V.zero))
      (packRow (fmtBits fo) (rs.map (·.1)), rs.foldl (fun a r => a.add r.2) .zero)

/-- The conversion counts of R111. -/
def State.cvtCount (s : State) (n : Nat) (c : CvtCnt) : State :=
  let a := ARR_CVT n
  (((s.bumpBy a ARR_CVT_SAT_ELEM c.sat).bumpBy a ARR_CVT_INF_ELEM c.inf).bumpBy a ARR_CVT_NAN_BLK c.nanBlk).bumpBy a
    ARR_CVT_IN_OVF c.inOvf

/-- CVC_END: the oldest conversion request finishes (R193); what it read of poisoned lines it writes with poison. -/
def execCvcEnd (n : TileId) (s : State) : Host.Outcome State Fault Refusal :=
  let t := s.tile n
  match t.cvc with
  | [] => .next s
  | c :: r =>
    let s1 := s.setTile n { t with cvc := r }
    let out := cvcRun c (s1.tsBytes n (cvcSrc c) (cvcSrcBytes c))
    let s2 := if s1.guarded n (cvcDst c) out.1.length then s1
              else s1.tsWrite n (cvcDst c) out.1 (s1.tsPois n (cvcSrc c) (cvcSrcBytes c))
    .next (((s2.cvtCount n out.2).seqWake n).seqFaultEnd n)

/-! ### Waits (R194) -/

/-- WAIT: over at once, or the sequencer waits for the events of its mask; GD gets the event word. -/
def execSeqWait (n : TileId) (s : State) : Host.Outcome State Fault Refusal :=
  .next (s.seqExec n 0x2E (fun _ => ((s.seqCount n).seqWait n 2).seqWake n))

/-! ### Epochs and semaphores (R189, R199, R203) -/

/-- A matrix descriptor's output tile accumulates, drains or awaits retirement, so that no epoch boundary may stand here (R77). -/
def State.midTile (s : State) (n : Nat) : Bool := s.resil && (s.tile n).mat.isSome && (s.tile n).outs != []

/-- EOPEN: with an epoch open a fault; between output tiles only (R77); a halted tile, or one that a host loss holds, waits; in resilient mode the instruction
ends when the start record is written, in lean mode at once. -/
def execSeqEopen (n : TileId) (s : State) : Host.Outcome State Fault Refusal :=
  .next (s.seqExec n 0x31 (fun w =>
    if s.epoSt n ≠ esClosed then s.seqFault n sfEpoch
    else if s.epoHeld n ∨ s.midTile n then s
    else
      let s1 := (s.seqCount n).epoOpen n 1
      if s.resil then s1 else s1.seqResume n (gd w) (BitVec.ofNat 64 (s1.epoNum n))))

/-- ECOMMIT: without an open epoch a fault; between output tiles only (R77); it ends when the epoch is committed. -/
def execSeqEcommit (n : TileId) (s : State) : Host.Outcome State Fault Refusal :=
  .next (s.seqExec n 0x32 (fun _ =>
    if s.epoSt n = esClosed then s.seqFault n sfEpoch
    else if s.midTile n then s
    else
      let s1 := ((s.seqCount n).seqWait n 6).epoSeal n 1
      if s.resil then s1 else s1.commitPoint n 0))

/-- EGUARD: a guard range is set; with an epoch open a fault. -/
def execSeqEguard (n : TileId) (s : State) : Host.Outcome State Fault Refusal :=
  .next (s.seqExec n 0x33 (fun w =>
    if s.epoSt n ≠ esClosed then s.seqFault n sfEpoch
    else (s.setGuard n (bits (s.g n (gd w)) 3 0) (s.g n (ga w)).toNat (s.g n (gb w)).toNat).seqNext n))

/-- A read of a semaphore word by the sequencer: it goes on with the value once the word is at least the target, or waits
and reads it again; poison ends the wait as it does for USEMWAIT (R182, R189). -/
def State.seqPoll (s : State) (n : Nat) (w : W32) : State :=
  let a := (s.g n (ga w)).toNat
  match s.vread (tileDie n) (s.seqPasid n) a 8 .read false with
  | (_, .miss)    => s.seqWait n 3
  | (s1, .ok bs p) =>
    if p then (s1.seqRun n).seqFault n sfAccess
    else if (s.g n (gb w)).toNat ≤ leVal bs then s1.seqResume n (gd w) (BitVec.ofNat 64 (leVal bs)) else s1.seqWait n 3
  | (s1, _)       => (s1.seqRun n).seqFault n sfAccess

/-- An address SEMW and SEMP take: 8-byte aligned, within the virtual addresses tile DMA has. -/
def semAddrOk (a : Nat) : Bool := a % 8 == 0 && decide (a < 2 ^ 56)

/-- SEMW: waits until the word at GA is at least GB. -/
def execSeqSemw (n : TileId) (s : State) : Host.Outcome State Fault Refusal :=
  .next (s.seqExec n 0x34 (fun w =>
    if semAddrOk (s.g n (ga w)).toNat then (s.seqCount n).seqPoll n w else s.seqFault n sfAccess))

/-- A release of the sequencer may be performed: every command issued before it has retired, and every descriptor pushed to queues 0
to 3 has ended (R183, R337). -/
def State.seqDrained (s : State) (n : Nat) : Bool :=
  let t := s.tile n
  t.clv == [] && t.mvc == [] && t.cvc == [] && t.outs.all (·.cmd.isNone) && (List.range 4).all (fun q => s.dq n q == [])

/-- SEMP: the release adds GB to the word at GA once every earlier command and descriptor is done; one whose translation is not at hand
waits. -/
def execSeqSemp (n : TileId) (s : State) : Host.Outcome State Fault Refusal :=
  .next (s.seqExec n 0x35 (fun w =>
    let a := (s.g n (ga w)).toNat
    if ¬ semAddrOk a then s.seqFault n sfAccess else
    if ¬ s.seqDrained n then s else
    match s.xlate (tileDie n) (s.seqPasid n) a .write with
    | .miss  => s
    | .fault => (s.takeFault (tileDie n) (s.seqPasid n) a .write).seqFault n sfAccess
    | .pa pa host =>
      if host then s.seqFault n sfAccess else
      match s.semRelease n pa (s.g n (gb w)).toNat with
      | (s1, .ok) => s1.seqNext n
      | (s1, _)   => s1.seqFault n sfAccess))

end Sys2Proof.Machine
end

