-- ==== Sys2Proof/Machine/Umbel.lean ====
section
/-!
DEFINITION. Umbels (spec/06): kernels, registers and their cache, divergence, the tile L1, exceptions, and the RV64IMFD
instructions of a thread (R132 to R163).

Where the spec leaves open or is read by inference, and what is taken from outside it (DESIGN CHOICE, DEDUCED, PRESUMED):
notes/assumptions/31.md, 50.md, 51.md, 52.md, 54.md, 78.md.
-/

namespace Sys2Proof.Machine

open Sys2Proof

/-! ### Kernel launch (R132 to R137) -/

abbrev stKrnMalformed : Nat := 0x40
abbrev stKrnResidency : Nat := 0x41
abbrev stKrnNoUmbel : Nat := 0x42
abbrev stKrnException : Nat := 0x43
abbrev stKrnPoison : Nat := 0x44

def kEntry (d : Line) : Nat := bits d 119 64
def kArg (d : Line) : Nat := bits d 183 128
def kUmbels (d : Line) : Nat := bits d 197 192
def kX (d : Line) : Nat := bits d 202 198
def kF (d : Line) : Nat := bits d 208 203
def kDiv (d : Line) : Bool := bitAt d 209
/-- Register slots of a thread and the residency limit (R135). -/
def kSlots (d : Line) : Nat := max 8 (8 * cdiv (kX d + kF d) 8)
def kLimit (d : Line) : Nat := min 32 (1024 / kSlots d)

/-- The refusals of R134. -/
def kernBad (d : Line) : Bool :=
  bits d 127 120 != 0 || bits d 191 184 != 0 || bits d 511 222 != 0 || kUmbels d == 0 || decide (32 < kUmbels d) ||
  decide (32 < kF d) || kEntry d % 4 != 0 || kArg d % 64 != 0

/-- FLAGS[0] of the facet bound on an ID: its kernels may run (R46, R132). -/
def State.facetUmbel (s : State) (n : Nat) : Bool :=
  match (s.tile n).bind with
  | some b => (match mfind s.facets b.handle with
    | some f => leAt (s.facetImage f) 0x17 1 % 2 == 1
    | none   => false)
  | none => false

/-- The code with which a launch is refused; 0 when it is admitted. -/
def State.kernRefusal (s : State) (n : Nat) (d : Line) : Nat :=
  if ¬ s.facetUmbel n then stKrnNoUmbel
  else if kernBad d then stKrnMalformed
  else if kLimit d < kUmbels d then stKrnResidency
  else 0

/-- An umbel as it starts; epochs is the count of a relaunch, for a2 (R137, R217). -/
def newUmb (d : Line) (epochs u : Nat) : Umb :=
  let lane (m : List (Nat × Word)) (l : Nat) : List (Nat × Word) :=
    let m1 := if 10 ≤ kX d then mset 0 m (64 * l + 10) (BitVec.ofNat 64 (kArg d)) else m
    let m2 := if 11 ≤ kX d then mset 0 m1 (64 * l + 11) (BitVec.ofNat 64 (32 * u + l)) else m1
    if 12 ≤ kX d then mset 0 m2 (64 * l + 12) (BitVec.ofNat 64 epochs) else m2
  { pc := kEntry d, active := 2 ^ 32 - 1, live := 2 ^ 32 - 1, stack := [], regs := (List.range 32).foldl lane [], fcsr := [],
    rc := [], fills := 0, instret := 0, issued := false, wait := .none, moved := 0 }

/-- A kernel starts, with the count of epochs its relaunch is told. -/
def State.launch (s : State) (n : Nat) (w : Work) (bySeq : Bool) (epochs : Nat) : State :=
  let d := w.desc
  let t := s.tile n
  let k : Kern := { work := w, bySeq := bySeq, umbels := (List.range (kUmbels d)).map (fun u => (u, newUmb d epochs u)),
                    l1en := s.flag (UMB_CFG n) UMB_CFG_L1_EN, epochs := epochs, abort := none, boundary := false }
  let s1 := s.setTile n { t with kern := some k, icache := [] }
  let a := UMB_STATUS n
  (((((s1.wr a UMB_STATUS_RESIDENT (kUmbels d)).wr a UMB_STATUS_LIMIT (kLimit d)).wr a UMB_STATUS_RUNNING 1).wr a
    UMB_STATUS_ABORTING 0).wr a UMB_STATUS_BOUNDARY 0).busyTile n

/-- The launch descriptor at hand: the one the sequencer holds, or the one offered to it, which it then holds. -/
def State.kernTake (s : State) (n : Nat) : Option (Work × State) :=
  let t := s.tile n
  match t.seq.held with
  | some w => if bits w.desc 7 0 = 0x12 then some (w, s) else none
  | none   => match t.offered with
    | some w =>
      if bits w.desc 7 0 = 0x12 then
        some (w, (s.setTile n { t with offered := none, seq := { t.seq with held := some w, pos := t.pos } }).wr
          (TIL_SEQ_STAT n) TIL_SEQ_STAT_HELD 1)
      else none
    | none => none

/-- KERNEL: the launch descriptor at hand starts its kernel or is refused; it waits while a kernel runs (R132 to R137).  A
descriptor only offered is not taken while a halt is in effect (R125). -/
def execKernel (n : TileId) (s : State) : Host.Outcome State Fault Refusal :=
  if (s.tst n.val ≠ tsReady ∧ s.tst n.val ≠ tsBusy) ∨ (s.tile n.val).kern.isSome ∨ (s.haltNow n.val ∧ (s.tile n.val).seq.held = none) then .next s
  else match s.kernTake n.val with
  | none => .next s
  | some (w, s1) =>
    let r := s.kernRefusal n.val w.desc
    if r = 0 then .next (s1.launch n.val w false 0)
    else .next ((s1.tileDone n.val w (s1.tile n.val).seq.pos r 0).release n.val)

/-- KLAUNCH: the kernel of the held launch descriptor starts, or GD receives the code of its refusal; without one held it is a
fault, and it waits while a kernel runs (R132, R189, R195). -/
def execSeqKlaunch (n : TileId) (s : State) : Host.Outcome State Fault Refusal :=
  .next (s.seqExec n 0x30 (fun w =>
    let t := s.tile n
    match t.seq.held with
    | none => s.seqFault n sfLaunch
    | some h =>
      if bits h.desc 7 0 ≠ 0x12 then s.seqFault n sfLaunch
      else if t.kern.isSome then s.seqWait n 6
      else
        let r := s.kernRefusal n h.desc
        let s1 := if r = 0 then s.launch n h true 0 else s
        (s1.setG n (gd w) (BitVec.ofNat 64 r)).seqNext n))

/-! ### Umbels of the state -/

def State.umb (s : State) (n u : Nat) : Option (Kern × Umb) :=
  match (s.tile n).kern with
  | some k => (match mfind k.umbels u with
    | some m => some (k, m)
    | none   => none)
  | none => none

def State.setUmb (s : State) (n u : Nat) (m : Umb) : State :=
  let t := s.tile n
  match t.kern with
  | some k => s.setTile n { t with kern := some { k with umbels := mput k.umbels u m } }
  | none   => s

/-- The process ID of a kernel. -/
def State.kPasid (s : State) (k : Kern) : Nat := s.pasidOf k.work

/-- The lanes of a mask, ascending. -/
def lanesOf (mask : Nat) : List Nat := (List.range 32).filter (fun l => nbits mask l l == 1)
def maskOf (ls : List Nat) : Nat := ls.foldl (fun m l => m ||| 2 ^ l) 0

/-- Register r of a lane: x registers 0 to 31, f registers from 32; x0 reads as zero. -/
def Umb.reg (m : Umb) (l r : Nat) : Nat := if r = 0 then 0 else (mget 0 m.regs (64 * l + r)).toNat
def Umb.setReg (m : Umb) (l r v : Nat) : Umb :=
  if r = 0 then m else { m with regs := mset 0 m.regs (64 * l + r) (BitVec.ofNat 64 v) }

/-- The umbel operand of a register: its value in the lowest active lane (R166). -/
def Umb.low (m : Umb) (r : Nat) : Nat := m.reg ((lanesOf m.active).headD 0) r

/-! ### Reconvergence (R145, R146) -/

/-- Push: in ascending order of pc, masks of one pc joined. -/
def rePush (st : List (Nat × Nat)) (pc mask : Nat) : List (Nat × Nat) :=
  match st with
  | [] => [(pc, mask)]
  | (q, a) :: r => if pc < q then (pc, mask) :: (q, a) :: r else if pc = q then (q, a ||| mask) :: r else (q, a) :: rePush r pc mask

/-- The while loop of R145; k bounds its turns. -/
def reLoop (pc a : Nat) (st : List (Nat × Nat)) : Nat → Nat × Nat × List (Nat × Nat)
  | 0 => (pc, a, st)
  | k + 1 => match st with
    | [] => (pc, a, [])
    | (q, b) :: r =>
      if q = pc then reLoop pc (a ||| b) r k
      else if q < pc then reLoop q b (rePush r pc a) k
      else (pc, a, (q, b) :: r)

/-- The procedure of R145 for the next program counters of the active lanes: the umbel after it, or none when it has exited;
and whether the lanes had more than one. -/
def Umb.advance (m : Umb) (next : Nat → Nat) : Option Umb × Bool :=
  let ls := lanesOf m.active
  match ls with
  | [] => (match m.stack with
    | [] => (none, false)
    | (q, b) :: r =>
      let x := reLoop q b r 64
      (some { m with pc := x.1, active := x.2.1, stack := x.2.2 }, false))
  | l0 :: _ =>
    let pc := ls.foldl (fun p l => min p (next l)) (next l0)
    let rest := ls.filter (fun l => next l != pc)
    let st := rest.foldl (fun t l => rePush t (next l) (2 ^ l)) m.stack
    let x := reLoop pc (maskOf (ls.filter (fun l => next l == pc))) st 64
    (some { m with pc := x.1, active := x.2.1, stack := x.2.2 }, decide (rest ≠ []))

/-! ### The tile L1 (R150 to R153) -/

/-- Tree pseudo-LRU: bits 0, 1 to 2 and 3 to 6 are the three levels; a bit of 1 points to the upper half. -/
def plruTouch (b way : Nat) : Nat :=
  let put (x i v : Nat) : Nat := nset x i i v
  put (put (put b 0 (1 - way / 4)) (1 + way / 4) (1 - way / 2 % 2)) (3 + way / 2) (1 - way % 2)

def plruVictim (b : Nat) : Nat :=
  let h := nbits b 0 0
  let q := nbits b (1 + h) (1 + h)
  4 * h + 2 * q + nbits b (3 + 2 * h + q) (3 + 2 * h + q)

def l1Set (line : Nat) : Nat := nbits line 13 6

/-- An access the L1 caches: enabled at the launch, to the own node's HBM, DDR and CXL ranges (R150). -/
def State.l1Caches (s : State) (k : Kern) (pa : Nat) (host : Bool) : Bool :=
  k.l1en && !host && nodeOf pa == s.node && decide (localOf pa < 0x70000000000)

/-- The line becomes the most recently used of its set. -/
def State.l1Touch (s : State) (n line : Nat) : State :=
  match s.l1Line n line with
  | some x =>
    let t := s.tile n
    s.setTile n { t with l1lru := mset 0 t.l1lru (l1Set line) (plruTouch (mget 0 t.l1lru (l1Set line)) x.way) }
  | none => s

/-- A place for a line: a free way of its set, or the victim's, which is written back and dropped. -/
def State.l1Alloc (s : State) (n line : Nat) : State :=
  if (s.l1Line n line).isSome then s else
  let t := s.tile n
  let set := t.l1.filter (fun p => l1Set p.1 == l1Set line)
  let used := set.map (·.2.way)
  let new (w : Nat) : L1Line := { data := 0, valid := 0, dirty := 0, pois := 0, way := w }
  match (List.range 8).find? (fun w => !used.contains w) with
  | some w => s.setL1 n line (new w)
  | none   =>
    let w := plruVictim (mget 0 t.l1lru (l1Set line))
    let s1 := match set.find? (fun p => p.2.way == w) with
      | some p => s.l1Inv n p.1
      | none   => s
    s1.setL1 n line (new w)

/-- Bytes of a line written: valid and dirty, no longer poisoned. -/
def L1Line.put (x : L1Line) (off : Nat) (bs : List Byte) : L1Line :=
  let m := ((2 ^ bs.length - 1) <<< off) % 2 ^ 64
  { x with data := BitVec.ofNat 512 (nset x.data.toNat (8 * (off + bs.length) - 1) (8 * off) (leVal bs)),
           valid := x.valid ||| m, dirty := x.dirty ||| m, pois := x.pois - (x.pois &&& m) }

/-- A fetched line merged: bytes already valid, dirty or clean, keep their values (R151; DESIGN CHOICE for valid clean bytes, log 78). -/
def L1Line.merge (x : L1Line) (bs : List Byte) (p : Bool) : L1Line :=
  let old := leBytes 64 x.data.toNat
  let data := (List.range 64).map (fun i => if nbits x.valid i i = 1 then old.getD i 0 else bs.getD i 0)
  { x with data := BitVec.ofNat 512 (leVal data), valid := 2 ^ 64 - 1,
           pois := if p then x.pois ||| (2 ^ 64 - 1 - x.valid) else x.pois }

/-- Bytes off to off + len − 1 of a line that is present are valid. -/
def State.l1Has (s : State) (n line off len : Nat) : Bool :=
  match s.l1Line n line with
  | some x => nbits x.valid (off + len - 1) off == 2 ^ len - 1
  | none   => false

/-! ### Memory accesses of the lanes (R151, R154, R160, R168) -/

/-- A lane's access: lane, virtual address, physical or host-bus address. -/
structure LaneAcc where
  lane : Nat
  va   : Nat
  pa   : Nat
  host : Bool
  deriving DecidableEq, Repr

/-- The outcome of the lanes' accesses: a value for each lane, an exception, or a wait for a translation or for memory. -/
inductive MRes where
  | ok (vals : List (Nat × Nat))
  | exc (cause mask tval : Nat) (poison : Bool)
  | wait
  deriving DecidableEq, Repr

/-- The exception of a set of lanes: its mask, and the address of the lowest. -/
def laneExc (cause : Nat) (bad : List (Nat × Nat)) (poison : Bool) : MRes :=
  .exc cause (maskOf (bad.map (·.1))) ((bad.map (·.2)).headD 0) poison

/-- The lanes' translations: all of them, or the state that took the faults and what ends the instruction. -/
def State.lanesXlate (s : State) (n pasid : Nat) (kind : AccessKind) (as : List (Nat × Nat)) :
    Sum (List LaneAcc) (State × MRes) :=
  let x := as.map (fun a => (a, s.xlate (tileDie n) pasid a.2 kind))
  if x.any (fun p => p.2 == .miss) then .inr (s, .wait) else
  let bad := (x.filter (fun p => p.2 == .fault)).map (·.1)
  if bad ≠ [] then
    .inr (bad.foldl (fun (t : State) a => t.takeFault (tileDie n) pasid a.2 kind) s,
          laneExc (if kind == .read then 13 else 15) bad false)
  else .inl (x.map (fun p => match p.2 with
    | .pa a h => { lane := p.1.1, va := p.1.2, pa := a, host := h }
    | _       => { lane := p.1.1, va := p.1.2, pa := 0, host := false }))

/-- Lanes of a load that were read, lanes whose access failed, lanes that read poison. -/
structure LoadAcc where
  vals : List (Nat × Nat)
  bad  : List (Nat × Nat)
  pois : List (Nat × Nat)
  deriving DecidableEq, Repr

/-- The lanes of one cached line read from it, the line fetched first when a byte is missing. -/
def State.loadLine (s : State) (n size line : Nat) (as : List LaneAcc) (fail : Bool) (acc : LoadAcc) : State × LoadAcc :=
  let r : State × Bool :=
    if as.all (fun a => s.l1Has n line (a.pa % 64) size) then (s.wrap (UMB_L1 n) UMB_L1_HIT 1, true)
    else if fail then (s, false)
    else match s.busRead (tileDie n) false line 64 with
    | (s1, .ok bs p) =>
      let s2 := s1.l1Alloc n line
      (match s2.l1Line n line with
       | some x => ((s2.setL1 n line (x.merge bs p)).wrap (UMB_L1 n) UMB_L1_MISS 1, true)
       | none   => (s2, false))
    | (s1, _) => (s1, false)
  if r.2 then
    let s1 := r.1.l1Touch n line
    match s1.l1Line n line with
    | some x =>
      let v (a : LaneAcc) : Nat × Nat := (a.lane, bits x.data (8 * (a.pa % 64 + size) - 1) (8 * (a.pa % 64)))
      let bad := as.filter (fun a => nbits x.pois (a.pa % 64 + size - 1) (a.pa % 64) != 0)
      (s1, { acc with vals := acc.vals ++ as.map v, pois := acc.pois ++ bad.map (fun a => (a.lane, a.va)) })
    | none => (s1, acc)
  else (r.1, { acc with bad := acc.bad ++ as.map (fun a => (a.lane, a.va)) })

/-- The lanes of one uncached address, which is read once. -/
def State.loadAt (s : State) (n size : Nat) (host : Bool) (pa : Nat) (as : List LaneAcc) (fail : Bool) (acc : LoadAcc) :
    State × LoadAcc :=
  let who := as.map (fun a => (a.lane, a.va))
  if fail then (s, { acc with bad := acc.bad ++ who }) else
  match s.busRead (tileDie n) host pa size with
  | (s1, .ok bs p) => (s1, { acc with vals := acc.vals ++ as.map (fun a => (a.lane, leVal bs)),
                                      pois := if p then acc.pois ++ who else acc.pois })
  | (s1, _) => (s1, { acc with bad := acc.bad ++ who })

/-- A load of size bytes by the lanes; resp is the answer from beyond the L1, once there is one. -/
def State.lanesLoad (s : State) (n : Nat) (k : Kern) (as : List (Nat × Nat)) (size : Nat) (resp : Option Answer) :
    State × MRes :=
  let mis := as.filter (fun a => decide (64 < a.2 % 64 + size))
  if mis ≠ [] then (s, laneExc 4 mis false) else
  match s.lanesXlate n (s.kPasid k) .read as with
  | .inr r => r
  | .inl xs =>
    let cached := xs.filter (fun a => s.l1Caches k a.pa a.host)
    let direct := xs.filter (fun a => !s.l1Caches k a.pa a.host)
    if resp.isNone ∧ (direct ≠ [] ∨ cached.any (fun a => !s.l1Has n (alignDown a.pa 64) (a.pa % 64) size)) then (s, .wait) else
    let fail : Bool := resp == some .error || resp == some .absent || resp == some .poisoned
    let lines := (cached.map (fun a => alignDown a.pa 64)).eraseDups
    let r1 := lines.foldl (fun (x : State × LoadAcc) line =>
      x.1.loadLine n size line (cached.filter (fun a => alignDown a.pa 64 == line)) fail x.2) (s, ⟨[], [], []⟩)
    let spots := (direct.map (fun a => (a.host, a.pa))).eraseDups
    let r2 := spots.foldl (fun (x : State × LoadAcc) p =>
      x.1.loadAt n size p.1 p.2 (direct.filter (fun a => a.host == p.1 && a.pa == p.2)) fail x.2) r1
    let bad := (r2.2.bad ++ r2.2.pois).mergeSort (fun a b => decide (a.1 ≤ b.1))
    if bad ≠ [] then (r2.1, laneExc 5 bad (decide (r2.2.pois ≠ []) || resp == some .poisoned)) else (r2.1, .ok r2.2.vals)

/-- One lane's bytes stored: into its line of the L1, or straight to the mesh; false where the target refuses them. -/
def State.storeLane (s : State) (n : Nat) (k : Kern) (a : LaneAcc) (bs : List Byte) : State × Bool :=
  if s.l1Caches k a.pa a.host then
    let line := alignDown a.pa 64
    let s1 := s.l1Alloc n line
    (match s1.l1Line n line with
     | some x => ((s1.setL1 n line (x.put (a.pa % 64) bs)).l1Touch n line, true)
     | none   => (s1, true))
  else match s.busWrite (tileDie n) a.host a.pa bs false with
  | (s1, .ok) => (s1, true)
  | (s1, _)   => (s1, false)

/-- A store of size bytes by the lanes, ascending; vals gives each lane's value. -/
def State.lanesStore (s : State) (n : Nat) (k : Kern) (as : List (Nat × Nat)) (size : Nat) (vals : Nat → Nat)
    (resp : Option Answer) : State × MRes :=
  let mis := as.filter (fun a => decide (64 < a.2 % 64 + size))
  if mis ≠ [] then (s, laneExc 6 mis false) else
  match s.lanesXlate n (s.kPasid k) .write as with
  | .inr r => r
  | .inl xs =>
    let who (a : LaneAcc) : Nat × Nat := (a.lane, a.va)
    let direct := xs.filter (fun a => !s.l1Caches k a.pa a.host)
    let fail : Bool := resp == some .error || resp == some .absent
    let refused := if fail then direct else
      direct.filter (fun a => !(s.storeLane n k a (leBytes size (vals a.lane))).2)
    if refused ≠ [] then
      (refused.foldl (fun (t : State) a => if fail then t else (t.storeLane n k a (leBytes size (vals a.lane))).1) s,
       laneExc 7 (refused.map who) false)
    else
    let shut := as.filter (fun a => s.guarded n a.2 size)
    if shut ≠ [] then (s, laneExc 26 shut false) else
    let lines := ((xs.filter (fun a => s.l1Caches k a.pa a.host)).map (fun a => alignDown a.pa 64)).eraseDups
    let hits := (lines.filter (fun l => (s.l1Line n l).isSome)).length
    let s1 := (s.gapDirty n).wrap (UMB_L1 n) UMB_L1_HIT hits
    ((xs.foldl (fun (t : State) a => (t.storeLane n k a (leBytes size (vals a.lane))).1) s1), .ok [])

/-! ### Instruction fields -/

def uOp (w : W32) : Nat := bits w 6 0
def uRd (w : W32) : Nat := bits w 11 7
def uF3 (w : W32) : Nat := bits w 14 12
def uRs1 (w : W32) : Nat := bits w 19 15
def uRs2 (w : W32) : Nat := bits w 24 20
def uRs3 (w : W32) : Nat := bits w 31 27
def uF7 (w : W32) : Nat := bits w 31 25
def immI (w : W32) : Int := sgn 12 (bits w 31 20)
def immS (w : W32) : Int := sgn 12 (bits w 31 25 * 32 + bits w 11 7)
def immB (w : W32) : Int := sgn 13 (bits w 31 31 * 4096 + bits w 7 7 * 2048 + bits w 30 25 * 32 + bits w 11 8 * 2)
def immU (w : W32) : Int := sgn 32 (bits w 31 12 * 4096)
def immJ (w : W32) : Int := sgn 21 (bits w 31 31 * 2 ^ 20 + bits w 19 12 * 4096 + bits w 20 20 * 2048 + bits w 30 21 * 2)

/-- x + i in 64 bits. -/
def plus64 (x : Nat) (i : Int) : Nat := unsgn 64 ((x : Int) + i)
/-- The low 32 bits sign-extended to 64. -/
def sext32 (x : Nat) : Nat := unsgn 64 (sgn 32 x)

/-- The counter CSRs a thread may read and the CSRs it may also write (R138, R139). -/
def csrRead (c : Nat) : Bool := [0xC00, 0xC02, 0xCC0, 0xCC1, 0xCC2, 0xCC3, 0xCC4].contains c
def csrWrite (c : Nat) : Bool := [1, 2, 3].contains c

/-- Registers an instruction reads and writes; f registers count from 32, and x0 is none. -/
structure UInfo where
  src : List Nat
  dst : List Nat
  deriving DecidableEq, Repr

/-- The information of an instruction of the given registers, legal under XREGS and FREGS (R139). -/
def uRegs (d : Line) (src dst : List Nat) : Option UInfo :=
  if (src ++ dst).all (fun r => if r < 32 then decide (r ≤ kX d) else decide (r - 32 < kF d)) then
    some { src := src.filter (· != 0), dst := dst.filter (· != 0) }
  else none

/-- The OP-FP instructions: registers by funct5, format, rs2 and funct3. -/
def fpRegs (w : W32) : Option (List Nat × List Nat) :=
  let a := uRs1 w
  let b := uRs2 w
  let r := uRd w
  let f3 := uF3 w
  let rmOk : Bool := f3 != 5 && f3 != 6
  if 1 < bits w 26 25 then none else
  let dbl := bits w 25 25
  match bits w 31 27 with
  | 0x00 => if rmOk then some ([a + 32, b + 32], [r + 32]) else none
  | 0x01 => if rmOk then some ([a + 32, b + 32], [r + 32]) else none
  | 0x02 => if rmOk then some ([a + 32, b + 32], [r + 32]) else none
  | 0x03 => if rmOk then some ([a + 32, b + 32], [r + 32]) else none
  | 0x0B => if rmOk && b == 0 then some ([a + 32], [r + 32]) else none
  | 0x04 => if f3 ≤ 2 then some ([a + 32, b + 32], [r + 32]) else none
  | 0x05 => if f3 ≤ 1 then some ([a + 32, b + 32], [r + 32]) else none
  | 0x14 => if f3 ≤ 2 then some ([a + 32, b + 32], [r]) else none
  | 0x18 => if rmOk && decide (b ≤ 3) then some ([a + 32], [r]) else none
  | 0x1A => if rmOk && decide (b ≤ 3) then some ([a], [r + 32]) else none
  | 0x08 => if rmOk && b == 1 - dbl then some ([a + 32], [r + 32]) else none
  | 0x1C => if b = 0 ∧ f3 ≤ 1 then some ([a + 32], [r]) else none
  | 0x1E => if b = 0 ∧ f3 = 0 then some ([a], [r + 32]) else none
  | _    => none

/-- The RV64IMFD instructions: the registers read and written, or none for an encoding they do not define (R139). -/
def baseRegs (w : W32) : Option (List Nat × List Nat) :=
  let a := uRs1 w
  let b := uRs2 w
  let r := uRd w
  let f3 := uF3 w
  let f7 := uF7 w
  match uOp w with
  | 0x37 => some ([], [r])
  | 0x17 => some ([], [r])
  | 0x6F => some ([], [r])
  | 0x67 => if f3 = 0 then some ([a], [r]) else none
  | 0x63 => if f3 = 2 ∨ f3 = 3 then none else some ([a, b], [])
  | 0x03 => if f3 = 7 then none else some ([a], [r])
  | 0x23 => if f3 ≤ 3 then some ([a, b], []) else none
  | 0x13 => if (f3 = 1 ∧ bits w 31 26 ≠ 0) ∨ (f3 = 5 ∧ bits w 31 26 ≠ 0 ∧ bits w 31 26 ≠ 0x10) then none else some ([a], [r])
  | 0x33 => if f7 = 0 ∨ f7 = 1 ∨ (f7 = 0x20 ∧ (f3 = 0 ∨ f3 = 5)) then some ([a, b], [r]) else none
  | 0x1B => if f3 = 0 ∨ (f3 = 1 ∧ f7 = 0) ∨ (f3 = 5 ∧ (f7 = 0 ∨ f7 = 0x20)) then some ([a], [r]) else none
  | 0x3B =>
    if (f7 = 0 ∧ (f3 = 0 ∨ f3 = 1 ∨ f3 = 5)) ∨ (f7 = 0x20 ∧ (f3 = 0 ∨ f3 = 5)) ∨ (f7 = 1 ∧ f3 ≠ 1 ∧ f3 ≠ 2 ∧ f3 ≠ 3) then
      some ([a, b], [r]) else none
  | 0x0F => if f3 = 0 then some ([], []) else none
  | 0x73 =>
    let c := bits w 31 20
    if f3 = 0 then (if w = 0x73 ∨ w = 0x100073 then some ([], []) else none)
    else if f3 = 4 then none
    else
      let wr : Bool := f3 % 4 == 1 || a != 0
      if csrWrite c || (csrRead c && !wr) then some (if f3 < 4 then ([a], [r]) else ([], [r])) else none
  | 0x07 => if f3 = 2 ∨ f3 = 3 then some ([a], [r + 32]) else none
  | 0x27 => if f3 = 2 ∨ f3 = 3 then some ([a, b + 32], []) else none
  | 0x43 => if bits w 26 25 ≤ 1 ∧ f3 ≠ 5 ∧ f3 ≠ 6 then some ([a + 32, b + 32, uRs3 w + 32], [r + 32]) else none
  | 0x47 => if bits w 26 25 ≤ 1 ∧ f3 ≠ 5 ∧ f3 ≠ 6 then some ([a + 32, b + 32, uRs3 w + 32], [r + 32]) else none
  | 0x4B => if bits w 26 25 ≤ 1 ∧ f3 ≠ 5 ∧ f3 ≠ 6 then some ([a + 32, b + 32, uRs3 w + 32], [r + 32]) else none
  | 0x4F => if bits w 26 25 ≤ 1 ∧ f3 ≠ 5 ∧ f3 ≠ 6 then some ([a + 32, b + 32, uRs3 w + 32], [r + 32]) else none
  | 0x53 => fpRegs w
  | _    => none

/-! ### Integer instructions -/

/-- The integer operations by funct3 in 64 bits; alt is bit 30. -/
def alu64 (f3 : Nat) (alt : Bool) (x y : Nat) : Nat :=
  match f3 with
  | 0 => if alt then (x + 2 ^ 64 - y) % 2 ^ 64 else (x + y) % 2 ^ 64
  | 1 => (x <<< (y % 64)) % 2 ^ 64
  | 2 => b2n (decide (sgn 64 x < sgn 64 y))
  | 3 => b2n (decide (x < y))
  | 4 => x ^^^ y
  | 5 => if alt then unsgn 64 (sgn 64 x / (2 ^ (y % 64) : Int)) else x >>> (y % 64)
  | 6 => x ||| y
  | _ => x &&& y

/-- The 32-bit operations: ADDW, SUBW, SLLW, SRLW, SRAW. -/
def alu32 (f3 : Nat) (alt : Bool) (x y : Nat) : Nat :=
  let a := x % 2 ^ 32
  let b := y % 2 ^ 32
  sext32 (match f3 with
    | 0 => if alt then a + 2 ^ 32 - b else a + b
    | 1 => a <<< (b % 32)
    | _ => if alt then unsgn 32 (sgn 32 a / (2 ^ (b % 32) : Int)) else a >>> (b % 32))

/-- Quotient and remainder of w-bit values, signed or not: RISC-V's results for a divisor of zero and for overflow. -/
def rvQuot (w : Nat) (signed : Bool) (x y : Nat) : Nat :=
  if y % 2 ^ w = 0 then 2 ^ w - 1
  else if signed then unsgn w ((sgn w x).tdiv (sgn w y)) else x % 2 ^ w / (y % 2 ^ w)
def rvRem (w : Nat) (signed : Bool) (x y : Nat) : Nat :=
  if y % 2 ^ w = 0 then x % 2 ^ w
  else if signed then unsgn w ((sgn w x).tmod (sgn w y)) else x % 2 ^ w % (y % 2 ^ w)

/-- The M operations by funct3 in 64 bits. -/
def mul64 (f3 : Nat) (x y : Nat) : Nat :=
  match f3 with
  | 0 => (x * y) % 2 ^ 64
  | 1 => unsgn 64 (sgn 64 x * sgn 64 y / (2 ^ 64 : Int))
  | 2 => unsgn 64 (sgn 64 x * (y : Int) / (2 ^ 64 : Int))
  | 3 => x * y / 2 ^ 64
  | 4 => rvQuot 64 true x y
  | 5 => rvQuot 64 false x y
  | 6 => rvRem 64 true x y
  | _ => rvRem 64 false x y

/-- The M operations in 32 bits. -/
def mul32 (f3 : Nat) (x y : Nat) : Nat :=
  sext32 (match f3 with
    | 0 => x * y
    | 4 => rvQuot 32 true x y
    | 5 => rvQuot 32 false x y
    | 6 => rvRem 32 true x y
    | _ => rvRem 32 false x y)

/-- The value an integer instruction writes, for a lane's rs1 and rs2 and the pc. -/
def intVal (w : W32) (pc x y : Nat) : Nat :=
  let f3 := uF3 w
  let alt := bitAt w 30
  match uOp w with
  | 0x37 => unsgn 64 (immU w)
  | 0x17 => plus64 pc (immU w)
  | 0x13 => if f3 = 1 ∨ f3 = 5 then alu64 f3 alt x (bits w 25 20) else alu64 f3 false x (unsgn 64 (immI w))
  | 0x33 => if uF7 w = 1 then mul64 f3 x y else alu64 f3 alt x y
  | 0x1B => if f3 = 0 then alu32 0 false x (unsgn 64 (immI w)) else alu32 f3 alt x (bits w 24 20)
  | _    => if uF7 w = 1 then mul32 f3 x y else alu32 f3 alt x y

/-- Whether a branch is taken. -/
def brTaken (f3 x y : Nat) : Bool :=
  match f3 with
  | 0 => x == y
  | 1 => x != y
  | 4 => decide (sgn 64 x < sgn 64 y)
  | 5 => decide (sgn 64 y ≤ sgn 64 x)
  | 6 => decide (x < y)
  | _ => decide (y ≤ x)

/-! ### Floating-point instructions -/

/-- A binary32 value in a 64-bit register, and back: one not properly boxed reads as the default NaN. -/
def box32 (x : Nat) : Nat := (2 ^ 32 - 1) * 2 ^ 32 + x % 2 ^ 32
def unbox32 (x : Nat) : Nat := if x / 2 ^ 32 = 2 ^ 32 - 1 then x % 2 ^ 32 else fpCanon fB32

/-- Whether an instruction rounds by its rm field. -/
def usesRm (w : W32) : Bool :=
  match uOp w with
  | 0x43 => true
  | 0x47 => true
  | 0x4B => true
  | 0x4F => true
  | 0x53 => [0x00, 0x01, 0x02, 0x03, 0x0B, 0x18, 0x1A, 0x08].contains (bits w 31 27)
  | _ => false

/-- The rounding mode of a lane: the rm field, or its frm. -/
def rmOf (w : W32) (frm : Nat) : Nat := if uF3 w = 7 then frm else uF3 w

/-- The sign of x replaced: by that of y, its complement, or the exclusive or of both. -/
def signInj (f : Fmt) (op x y : Nat) : Nat :=
  let h := 2 ^ (f.width - 1)
  let sy := y / h % 2
  let sg := match op with
    | 0 => sy
    | 1 => 1 - sy
    | _ => (x / h + sy) % 2
  x % h + sg * h

/-- The value an F or D instruction writes and the flags it raises; fa, fb, fc are f registers as they stand, xa an
x register. -/
def fpVal (w : W32) (mode fa fb fc xa : Nat) : Nat × Nat :=
  let dbl : Bool := bits w 25 25 == 1
  let f := if dbl then fB64 else fB32
  let un (x : Nat) : Nat := if dbl then x else unbox32 x
  let bx (r : Nat × Nat) : Nat × Nat := (if dbl then r.1 else box32 r.1, r.2)
  let a := un fa
  let b := un fb
  let c := un fc
  match uOp w with
  | 0x43 => bx (rvFma f mode a b c false false)
  | 0x47 => bx (rvFma f mode a b c false true)
  | 0x4B => bx (rvFma f mode a b c true false)
  | 0x4F => bx (rvFma f mode a b c true true)
  | _ =>
  match bits w 31 27 with
  | 0x00 => bx (rvAdd f mode a b false)
  | 0x01 => bx (rvAdd f mode a b true)
  | 0x02 => bx (rvMul f mode a b)
  | 0x03 => bx (rvDiv f mode a b)
  | 0x0B => bx (rvSqrt f mode a)
  | 0x04 => bx (signInj f (uF3 w) a b, 0)
  | 0x05 => bx (rvMinMax f (uF3 w == 1) a b)
  | 0x14 => rvCmp f (uF3 w) a b
  | 0x18 =>
    let wd := if 2 ≤ uRs2 w then 64 else 32
    let r := rvToInt f mode wd (uRs2 w % 2 == 0) a
    (if wd = 32 then sext32 (unsgn 32 r.1) else unsgn 64 r.1, r.2)
  | 0x1A =>
    let wd := if 2 ≤ uRs2 w then 64 else 32
    let v : Int := if uRs2 w % 2 = 0 then sgn wd xa else ((xa % 2 ^ wd : Nat) : Int)
    bx (rvFromInt f mode v)
  | 0x08 => if dbl then rvCvt fB32 fB64 mode (unbox32 fa) else bx (rvCvt fB64 fB32 mode fa)
  | 0x1C => if uF3 w = 1 then (rvClass f a, 0) else (if dbl then fa else sext32 fa, 0)
  | _    => bx (xa, 0)

/-! ### What an instruction does -/

/-- The outcome of an instruction for its umbel: it completes, with the register writes and the new fcsr values of the lanes
and their next program counters; it raises an exception; the umbel waits; it does not issue yet; or its lanes exit. -/
inductive URes where
  | ok (s : State) (wr : List (Nat × Nat × Nat)) (fc : List (Nat × Nat)) (next : Nat → Nat)
  | exc (s : State) (cause mask tval : Nat) (poison : Bool)
  | wait (s : State) (k : UWait) (moved : Nat)
  | hold
  | exit

/-- The lanes' results written to one register, and on to the next instruction. -/
def URes.put (s : State) (m : Umb) (rd : Nat) (v : Nat → Nat) : URes :=
  .ok s ((lanesOf m.active).map (fun l => (l, rd, v l))) [] (fun _ => (m.pc + 4) % 2 ^ 64)

/-- Nothing written. -/
def URes.nop (s : State) (m : Umb) : URes := .ok s [] [] (fun _ => (m.pc + 4) % 2 ^ 64)

/-- An exception of some active lanes, with the value of the lowest. -/
def excOf (s : State) (cause : Nat) (bad : List Nat) (tval : Nat → Nat) : URes :=
  .exc s cause (maskOf bad) (tval (bad.headD 0)) false

/-- A jump or branch to each lane's target; a misaligned one raises cause 0 (R139). -/
def uJump (s : State) (m : Umb) (wr : List (Nat × Nat × Nat)) (t : Nat → Nat) : URes :=
  let bad := (lanesOf m.active).filter (fun l => t l % 4 != 0)
  if bad ≠ [] then excOf s 0 bad t else .ok s wr [] t

/-- The value of a CSR in a lane; cyc stands for the cycles since the kernel started, which the model leaves free (R138). -/
def State.csrVal (_ : State) (n u : Nat) (k : Kern) (m : Umb) (c cyc l : Nat) : Nat :=
  match c with
  | 1 => mget 0 m.fcsr l % 32
  | 2 => mget 0 m.fcsr l / 32 % 8
  | 3 => mget 0 m.fcsr l % 256
  | 0xC00 => cyc
  | 0xC02 => m.instret
  | 0xCC0 => l
  | 0xCC1 => u
  | 0xCC2 => kUmbels k.work.desc
  | 0xCC3 => n
  | _ => m.active

/-- fcsr after CSR c of 1, 2, 3 is written. -/
def csrPut (c old v : Nat) : Nat :=
  match c with
  | 1 => old / 32 * 32 + v % 32
  | 2 => v % 8 * 32 + old % 32
  | _ => v % 256

/-- The CSR instructions. -/
def State.uCsr (s : State) (n u : Nat) (k : Kern) (m : Umb) (w : W32) : URes :=
  let c := bits w 31 20
  let f3 := uF3 w
  let f := s.fresh
  let s1 := if c = 0xC00 then f.2 else s
  let old (l : Nat) : Nat := s.csrVal n u k m c f.1.toNat l
  let arg (l : Nat) : Nat := if f3 < 4 then m.reg l (uRs1 w) else uRs1 w
  let new (l : Nat) : Nat := match f3 % 4 with
    | 1 => arg l
    | 2 => old l ||| arg l
    | _ => old l - (old l &&& arg l)
  let ls := lanesOf m.active
  let fc := if f3 % 4 = 1 ∨ uRs1 w ≠ 0 then ls.map (fun l => (l, csrPut c (mget 0 m.fcsr l) (new l))) else []
  .ok s1 (ls.map (fun l => (l, uRd w, old l))) fc (fun _ => (m.pc + 4) % 2 ^ 64)

/-- The F and D instructions that compute; a lane with a reserved dynamic rounding mode is illegal. -/
def State.uFp (s : State) (m : Umb) (w : W32) : URes :=
  let ls := lanesOf m.active
  let frm (l : Nat) : Nat := mget 0 m.fcsr l / 32 % 8
  let bad := if usesRm w then ls.filter (fun l => decide (4 < rmOf w (frm l))) else []
  if bad ≠ [] then excOf s 2 bad (fun _ => w.toNat) else
  let dst := match uOp w with
    | 0x53 => if [0x14, 0x18, 0x1C].contains (bits w 31 27) then uRd w else uRd w + 32
    | _    => uRd w + 32
  let r (l : Nat) : Nat × Nat := fpVal w (rmOf w (frm l)) (m.reg l (uRs1 w + 32)) (m.reg l (uRs2 w + 32))
    (m.reg l (uRs3 w + 32)) (m.reg l (uRs1 w))
  .ok s (ls.map (fun l => (l, dst, (r l).1))) (ls.map (fun l => (l, mget 0 m.fcsr l ||| (r l).2)))
    (fun _ => (m.pc + 4) % 2 ^ 64)

/-- The value a load writes, from size bytes: sign- or zero-extended, or boxed (funct3 as RISC-V numbers it). -/
def loadExt (fp : Bool) (f3 v : Nat) : Nat :=
  if fp then (if f3 = 2 then box32 v else v) else
  match f3 with
  | 0 => unsgn 64 (sgn 8 v)
  | 1 => unsgn 64 (sgn 16 v)
  | 2 => unsgn 64 (sgn 32 v)
  | _ => v

/-- A load from memory, once its bytes are there. -/
def State.uLoad (s : State) (n : Nat) (k : Kern) (m : Umb) (w : W32) (resp : Option Answer) : URes :=
  let as := (lanesOf m.active).map (fun l => (l, plus64 (m.reg l (uRs1 w)) (immI w)))
  let fp : Bool := uOp w == 0x07
  match s.lanesLoad n k as (2 ^ (uF3 w % 4)) resp with
  | (s1, .wait) => .wait s1 .mem 0
  | (s1, .exc c ms tv p) => .exc s1 c ms tv p
  | (s1, .ok vals) =>
    .ok s1 (vals.map (fun v => (v.1, if fp then uRd w + 32 else uRd w, loadExt fp (uF3 w) v.2))) []
      (fun _ => (m.pc + 4) % 2 ^ 64)

/-- A store to memory. -/
def State.uStore (s : State) (n : Nat) (k : Kern) (m : Umb) (w : W32) (resp : Option Answer) : URes :=
  let as := (lanesOf m.active).map (fun l => (l, plus64 (m.reg l (uRs1 w)) (immS w)))
  let r := if uOp w = 0x27 then uRs2 w + 32 else uRs2 w
  match s.lanesStore n k as (2 ^ (uF3 w % 4)) (fun l => m.reg l r) resp with
  | (s1, .wait) => .wait s1 .mem 0
  | (s1, .exc c ms tv p) => .exc s1 c ms tv p
  | (s1, .ok _) => URes.nop s1 m

/-- A legal base instruction (R139, R151, R160). -/
def State.uBase (s : State) (n u : Nat) (k : Kern) (m : Umb) (w : W32) (resp : Option Answer) : URes :=
  let ls := lanesOf m.active
  let link := ls.map (fun l => (l, uRd w, (m.pc + 4) % 2 ^ 64))
  match uOp w with
  | 0x6F => uJump s m link (fun _ => plus64 m.pc (immJ w))
  | 0x67 => uJump s m link (fun l => let t := plus64 (m.reg l (uRs1 w)) (immI w); t - t % 2)
  | 0x63 => uJump s m [] (fun l =>
      if brTaken (uF3 w) (m.reg l (uRs1 w)) (m.reg l (uRs2 w)) then plus64 m.pc (immB w) else (m.pc + 4) % 2 ^ 64)
  | 0x03 => s.uLoad n k m w resp
  | 0x07 => s.uLoad n k m w resp
  | 0x23 => s.uStore n k m w resp
  | 0x27 => s.uStore n k m w resp
  | 0x0F => URes.nop s m
  | 0x73 =>
    if w = 0x73 then excOf s 8 ls (fun _ => 0)
    else if w = 0x100073 then excOf s 3 ls (fun _ => 0)
    else s.uCsr n u k m w
  | 0x43 => s.uFp m w
  | 0x47 => s.uFp m w
  | 0x4B => s.uFp m w
  | 0x4F => s.uFp m w
  | 0x53 => s.uFp m w
  | _ => URes.put s m (uRd w) (fun l => intVal w m.pc (m.reg l (uRs1 w)) (m.reg l (uRs2 w)))

/-! ### Fetch, issue and retirement (R139 to R143) -/

/-- What a fetch brings. -/
inductive FRes where
  | word (w : W32)
  | exc (cause : Nat) (poison : Bool)
  | hold
  deriving DecidableEq, Repr

/-- The instruction at an umbel's program counter, through the instruction cache. -/
def State.uFetch (s : State) (n : Nat) (k : Kern) (m : Umb) : State × FRes :=
  match s.xlate (tileDie n) (s.kPasid k) m.pc .fetch with
  | .miss  => (s, .hold)
  | .fault => (s.takeFault (tileDie n) (s.kPasid k) m.pc .fetch, .exc 12 false)
  | .pa pa host =>
    let line := alignDown pa 64
    let key := 2 * line + b2n host
    let cut (x : Line) : FRes := .word (BitVec.ofNat 32 (x.toNat >>> (8 * (pa % 64))))
    match mfind (s.tile n).icache key with
    | some x => (s, cut x)
    | none => match s.busRead (tileDie n) host line 64 with
      | (s1, .ok bs false) =>
        let x : Line := BitVec.ofNat 512 (leVal bs)
        (s1.setTile n { s1.tile n with icache := mput (s1.tile n).icache key x }, cut x)
      | (s1, .ok _ true) => (s1, .exc 1 true)
      | (s1, _) => (s1, .exc 1 false)

/-- An exception ends the kernel: it is recorded, or counted as lost, and the abort begins (R159 to R161). -/
def State.uExcept (s : State) (n u : Nat) (m : Umb) (cause mask tval : Nat) (poison : Bool) : State :=
  let a := UMB_EXC0 n
  let s1 := if s.flag a UMB_EXC0_VALID then s.bump a UMB_EXC0_LOST else
    (((((((s.wr a UMB_EXC0_CAUSE cause).wr a UMB_EXC0_UMBEL u).wr a UMB_EXC0_VALID 1).wr a UMB_EXC0_POISON (b2n poison)).wr a
      UMB_EXC0_MASK mask).wr (UMB_EXC1 n) UMB_EXC1_EPC m.pc).wr (UMB_EXC2 n) UMB_EXC2_TVAL tval)
  let t := s1.tile n
  match t.kern with
  | none => s1
  | some k =>
    let code := k.abort.getD (if poison then stKrnPoison else stKrnException)
    (s1.setTile n { t with kern := some { k with abort := some code,
                                                 umbels := mput k.umbels u { m with wait := .none, issued := false } } }).wr
      (UMB_STATUS n) UMB_STATUS_ABORTING 1

/-- The instruction at the pc issues: it is counted once, and its cached sources are. -/
def State.uCount (s : State) (n u : Nat) (i : UInfo) : State :=
  match s.umb n u with
  | none => s
  | some (_, m) =>
    if m.issued then s else
    let s1 := s.setUmb n u { m with issued := true, instret := (m.instret + 1) % 2 ^ 64 }
    let s2 := s1.wrap (UMB_ISSUE n) UMB_ISSUE_INSTR 1
    let s3 := s2.wrap (UMB_RC n) UMB_RC_HIT (i.src.length - m.fills)
    if m.active = 2 ^ 32 - 1 then s3 else s3.wrap (UMB_DIV n) UMB_DIV_PARTIAL 1

/-- Register-cache entries after an instruction: what it named is newest; the oldest leave (R143). -/
def rcUse (en : Bool) (rc : List Nat) (i : UInfo) : List Nat :=
  if en then
    let touch (l : List Nat) (r : Nat) : List Nat := r :: l.filter (· != r)
    (i.dst.foldl touch ((i.src.filter rc.contains).foldl touch rc)).take 8
  else []

/-- An umbel leaves the kernel: fewer are resident, and the last one is an event for the sequencer (R194). -/
def State.uGone (s : State) (n u : Nat) : State :=
  let t := s.tile n
  match t.kern with
  | none => s
  | some k =>
    let us := mdel k.umbels u
    let s1 := (s.setTile n { t with kern := some { k with umbels := us } }).wr (UMB_STATUS n) UMB_STATUS_RESIDENT us.length
    if us.isEmpty then s1.seqWake n else s1

/-- The instruction is over: the umbel takes its next program counter (R145). -/
def State.uStep (s : State) (n u : Nat) (m : Umb) (next : Nat → Nat) : State :=
  let done := { m with wait := .none, issued := false, moved := 0, fills := 0 }
  match done.advance next with
  | (none, _)   => s.uGone n u
  | (some x, b) => let s1 := s.setUmb n u x; if b then s1.wrap (UMB_DIV n) UMB_DIV_SPLITS 1 else s1

/-- An instruction's outcome applied to its umbel. -/
def State.uApply (s : State) (n u : Nat) (i : UInfo) (r : URes) : State :=
  match r with
  | .hold => s
  | .exc s1 c ms tv p =>
    let s2 := s1.uCount n u i
    (match s2.umb n u with
     | some (_, m) => s2.uExcept n u m c ms tv p
     | none        => s2)
  | .wait s1 kd mv =>
    let s2 := s1.uCount n u i
    (match s2.umb n u with
     | some (_, m) => s2.setUmb n u { m with wait := kd, moved := mv }
     | none        => s2)
  | .exit =>
    let s2 := s.uCount n u i
    (match s2.umb n u with
     | some (_, m) =>
       s2.uStep n u { m with live := m.live - m.active, active := 0,
                             stack := (m.stack.map (fun p => (p.1, p.2 - (p.2 &&& m.active)))).filter (·.2 != 0) } id
     | none => s2)
  | .ok s1 wr fc next =>
    let s2 := s1.uCount n u i
    (match s2.umb n u with
     | some (_, m) =>
       let m1 := wr.foldl (fun (x : Umb) y => x.setReg y.1 y.2.1 y.2.2) m
       s2.uStep n u { m1 with fcsr := fc.foldl (fun f y => mset 0 f y.1 y.2) m.fcsr,
                              rc := rcUse (s.flag (UMB_CFG n) UMB_CFG_RC_EN) m.rc i } next
     | none => s2)

/-- An umbel that may issue: it waits for nothing, and its kernel runs without an abort or the instruction at its pc is already in
flight (R141, R159). -/
def State.uReady (s : State) (n u : Nat) : Option (Kern × Umb) :=
  match s.umb n u with
  | some (k, m) =>
    if (k.abort.isNone ∨ m.issued) ∧ ¬ k.boundary ∧ m.wait = .none ∧ (s.tst n = tsBusy ∨ s.tst n = tsReady) then some (k, m) else none
  | none => none

/-- The sources are in the register cache. -/
def rcHas (m : Umb) (i : UInfo) : Bool := i.src.all m.rc.contains

/-- The encodings for which the spec states cause 2: the custom opcodes, FENCE.I and WFI, and accesses of CSRs (R138, R139, R164). -/
def ruledOut (w : W32) : Bool :=
  [0x0B, 0x2B, 0x5B, 0x7B, 0x0F].contains (uOp w) || (uOp w == 0x73 && uF3 w % 4 != 0) || w == 0x10500073

/-- The exit instruction of a thread: R145 names it and the spec gives it no encoding, so it is some encoding that is otherwise undefined
and for which the spec states no exception. -/
def uExit (w : W32) : Bool := (baseRegs w).isNone && !ruledOut w && Config.isExit w

/-- UMBEL_BASE_INSTRUCTION's part for a word that is none of the extensions' (R139, R145, R160). -/
def State.uIssueBase (s : State) (n u : Nat) (custom : W32 → Bool) : State :=
  match s.uReady n u with
  | none => s
  | some (k, m) =>
    match s.uFetch n k m with
    | (s1, .hold)    => s1
    | (s1, .exc c p) => s1.uExcept n u m c m.active m.pc p
    | (s1, .word w)  =>
      if custom w then s1 else
      match (baseRegs w).bind (fun p => uRegs k.work.desc p.1 p.2) with
      | some i => if rcHas m i then s1.uApply n u i (s1.uBase n u k m w none) else s1
      | none =>
        let none2 : UInfo := { src := [], dst := [] }
        if uExit w then s1.uApply n u none2 .exit
        else s1.uApply n u none2 (excOf s1 2 (lanesOf m.active) (fun _ => w.toNat))

/-! ### The kernel's boundary (R153) -/

/-- KERNEL_BOUNDARY: the last umbel has exited, or an abort has stopped every umbel, the instructions in flight complete (R159); an epoch the
kernel left open commits, and the L1 is written back and invalidated (R153, R202). -/
def execKernelBoundary (n : TileId) (s : State) : Host.Outcome State Fault Refusal :=
  let t := s.tile n.val
  match t.kern with
  | none => .next s
  | some k =>
    if k.boundary ∨ ¬ k.atBoundary then .next s else
    let s1 := ((s.setTile n.val { t with kern := some { k with boundary := true, umbels := [] } }).wr (UMB_STATUS n)
      UMB_STATUS_BOUNDARY 1).wr (UMB_STATUS n) UMB_STATUS_RESIDENT 0
    let s2 := if s1.epoSt n.val ≠ esClosed ∧ (s1.epo n.val).opener = 2 ∧ (s1.epo n.val).committer = 0 then
        let x := (if s1.epoSt n.val = esOpen then s1.bump (EPO_ERR n) EPO_ERR_AUTOCOMMIT else s1).epoSeal n.val 3
        if s.resil then x else x.commitPoint n.val 0
      else s1
    .next ((s2.l1InvAll n.val).seqWake n.val)

/-- KERNEL_COMPLETE: every byte written back is visible; the kernel's completion is written, or its outcome is the
sequencer's to report (R153, R159, R160, R193). -/
def execKernelComplete (n : TileId) (s : State) : Host.Outcome State Fault Refusal :=
  let t := s.tile n.val
  match t.kern with
  | none => .next s
  | some k =>
    if ¬ k.boundary ∨ (s.epoSt n.val ≠ esClosed ∧ (s.epo n.val).opener = 2) then .next s else
    let code := k.abort.getD stServed
    let a := UMB_STATUS n
    let s1 := s.setTile n.val { t with kern := none, seq := { t.seq with kout := code } }
    let s2 := ((((s1.wr a UMB_STATUS_RUNNING 0).wr a UMB_STATUS_ABORTING 0).wr a UMB_STATUS_BOUNDARY 0).wr a UMB_STATUS_LIMIT
      0).wrap a UMB_STATUS_KERNELS 1
    let s3 := if ¬ k.bySeq ∧ t.seq.held = some k.work then (s2.tileDone n.val k.work t.seq.pos code 0).release n.val else s2
    let s4 := if s3.rd (TIL_SEQ_STAT n) TIL_SEQ_STAT_WAIT_KIND = 6 ∧ (s3.epo n.val).committer ≠ 1 then s3.seqRun n.val else s3
    .next (s4.seqWake n.val)

end Sys2Proof.Machine
end

