-- ==== Sys2Proof/Machine/UmbelExt.lean ====
section
/-!
DEFINITION. The Uluxo extensions of the umbels (spec/07, R164 to R187): tile-store accesses, atomics, group matrix, shuffles,
conversion, synchronisation, stream ports, epoch control and L1 maintenance.

Where the spec leaves open or is read by inference, and what is taken from outside it (DESIGN CHOICE, DEDUCED, PRESUMED):
notes/assumptions/41.md, 51.md, 52.md, 53.md, 75.md, 78.md, 89.md.
-/

namespace Sys2Proof.Machine

open Sys2Proof

/-! ### Encodings (R164) -/

/-- The extensions, in the order of spec/opcode_table.json. -/
inductive UExt where
  | utlb | utlh | utlw | utld | utlbu | utlhu | utlwu | utsb | utsh | utsw | utsd
  | uaadd | uaswap | uacas | uaxor | uaor | uaand | uamin | uamax | uaminu | uamaxu | ufadd
  | umma | ushflIdx | ushflXor | ushflUp | ushflDown | ushflBcast | uballot | ucvtO | ucvtI
  | ubar | usemwait | usempost | usput | usget | ustryput | ustryget | uepopen | uepcommit | uepguard
  | ul1flush | ul1inv | ul1flushall | ul1invall
  deriving DecidableEq, Repr

/-- The extension an encoding names by its class and operation fields; none for any other encoding. -/
def uExt (w : W32) : Option UExt :=
  let f3 := uF3 w
  let f7 := uF7 w
  match uOp w with
  | 0x0B => [UExt.utlb, .utlh, .utlw, .utld, .utlbu, .utlhu, .utlwu][f3]?
  | 0x2B => [UExt.utsb, .utsh, .utsw, .utsd][f3]?
  | 0x5B => (match bits w 31 27 with
    | 0x00 => some .uaadd
    | 0x01 => some .uaswap
    | 0x03 => some .uacas
    | 0x04 => some .uaxor
    | 0x08 => some .uaor
    | 0x0C => some .uaand
    | 0x10 => some .uamin
    | 0x14 => some .uamax
    | 0x18 => some .uaminu
    | 0x1C => some .uamaxu
    | 0x05 => some .ufadd
    | _    => none)
  | 0x7B => (match f3 with
    | 0 => some .umma
    | 1 => [UExt.ushflIdx, .ushflXor, .ushflUp, .ushflDown, .ushflBcast, .uballot][f7 / 16]?
    | 2 => some (if f7 / 64 = 0 then .ucvtO else .ucvtI)
    | 3 => [UExt.ubar, .usemwait, .usempost][f7]?
    | 4 => [UExt.usput, .usget, .ustryput, .ustryget][f7 / 8]?
    | 5 => [UExt.uepopen, .uepcommit, .uepguard][f7]?
    | 6 => [UExt.ul1flush, .ul1inv, .ul1flushall, .ul1invall][f7]?
    | _ => none)
  | _ => none

/-- The formats of a UMMA (R165, R175). -/
def ummaPair (fa fb : Nat) : Bool := (decide (fa ≤ 5) && decide (fb ≤ 5)) || (fa == 6 && fb == 6) || (fa == 7 && fb == 7)

/-- The registers an extension names, or none where a reserved field is not zero or a field is illegal (R164, R172 to R186). -/
def extRegs (x : UExt) (w : W32) : Option (List Nat × List Nat) :=
  let a := uRs1 w
  let b := uRs2 w
  let r := uRd w
  let f7 := uF7 w
  let size := bits w 13 12
  let load : Option (List Nat × List Nat) := some ([a], [r])
  let store : Option (List Nat × List Nat) := some ([a, b], [])
  let atom : Option (List Nat × List Nat) := if 2 ≤ size then some ([a, b], [r]) else none
  let f : Nat := if f7 / 8 % 2 = 1 then 32 else 0
  let shfl : Option (List Nat × List Nat) := if f7 % 8 = 0 then some ([a + f], [r + f]) else none
  let strm : Option (List Nat × List Nat) := some ([a, b], [r])
  match x with
  | .utlb => load
  | .utlh => load
  | .utlw => load
  | .utld => load
  | .utlbu => load
  | .utlhu => load
  | .utlwu => load
  | .utsb => store
  | .utsh => store
  | .utsw => store
  | .utsd => store
  | .uaadd => atom
  | .uaswap => atom
  | .uacas => if 2 ≤ size then some ([a, b, r], [r]) else none
  | .uaxor => atom
  | .uaor => atom
  | .uaand => atom
  | .uamin => atom
  | .uamax => atom
  | .uaminu => atom
  | .uamaxu => atom
  | .ufadd => if 1 ≤ size then some ([a, b + 32], [r + 32]) else none
  | .umma =>
    if f7 % 2 = 0 ∧ ummaPair (f7 / 16) (f7 / 2 % 8) ∧ r % 8 = 0 then
      some ([a, b], (List.range 8).map (fun j => r + j + 32)) else none
  | .ushflIdx => if f7 % 8 = 0 then some ([a + f, b], [r + f]) else none
  | .ushflXor => shfl
  | .ushflUp => shfl
  | .ushflDown => shfl
  | .ushflBcast => shfl
  | .uballot => if f7 % 16 = 0 ∧ b = 0 then some ([a], [r]) else none
  | .ucvtO => if f7 / 2 % 4 ≠ 3 then some ([a + 32, b, r], []) else none
  | .ucvtI => if f7 % 8 = 0 ∧ b = 0 then some ([a], [r + 32]) else none
  | .ubar => if a = 0 ∧ b = 0 ∧ r = 0 then some ([], []) else none
  | .usemwait => strm
  | .usempost => if r = 0 then some ([a, b], []) else none
  | .usput => strm
  | .usget => strm
  | .ustryput => strm
  | .ustryget => strm
  | .uepopen => if a = 0 ∧ b = 0 then some ([], [r]) else none
  | .uepcommit => if a = 0 ∧ b = 0 ∧ r = 0 then some ([], []) else none
  | .uepguard => if r < 16 then some ([a, b], []) else none
  | .ul1flush => if b = 0 ∧ r = 0 then some ([a], []) else none
  | .ul1inv => if b = 0 ∧ r = 0 then some ([a], []) else none
  | .ul1flushall => if b = 0 ∧ r = 0 then some ([], []) else none
  | .ul1invall => if b = 0 ∧ r = 0 then some ([], []) else none

/-- An access of the tile store refused or poisoned: cause 25, counted once an instruction, or the access fault of its kind
(R160, R167). -/
def State.tsCheck (s : State) (n : Nat) (as : List (Nat × Nat)) (len : Nat) (store readsOld : Bool) : Option URes :=
  let bad := as.filter (fun a => !s.tsRight n rtU a.2 len)
  if bad ≠ [] then some (.exc (s.accessErr n) 25 (maskOf (bad.map (·.1))) ((bad.map (·.2)).headD 0) false) else
  let pois := if store && !readsOld then [] else as.filter (fun a => s.tsPois n a.2 len)
  if pois ≠ [] then some (.exc s (if store then 7 else 5) (maskOf (pois.map (·.1))) ((pois.map (·.2)).headD 0) true) else
  let shut := if store then as.filter (fun a => s.guarded n a.2 len) else []
  if shut ≠ [] then some (.exc s 26 (maskOf (shut.map (·.1))) ((shut.map (·.2)).headD 0) false) else none

/-- Lanes whose address is not a multiple of al raise a misaligned exception. -/
def alignExc (s : State) (cause al : Nat) (as : List (Nat × Nat)) : Option URes :=
  let bad := as.filter (fun a => a.2 % al != 0)
  if bad ≠ [] then some (.exc s cause (maskOf (bad.map (·.1))) ((bad.map (·.2)).headD 0) false) else none

/-- The first outcome that is one. -/
def orElse2 (a b : Option URes) (c : URes) : URes :=
  match a with
  | some r => r
  | none   => match b with
    | some r => r
    | none   => c

/-- The lanes' addresses from x[rs1]. -/
def laneAddrs (m : Umb) (w : W32) (off : Int) : List (Nat × Nat) :=
  (lanesOf m.active).map (fun l => (l, plus64 (m.reg l (uRs1 w)) off))

/-- One address for the whole umbel, in every active lane (R166). -/
def umbelAddr (m : Umb) (r : Nat) : List (Nat × Nat) := (lanesOf m.active).map (fun l => (l, m.low r))

/-! ### Tile-store loads and stores (R170, R171) -/

def State.utLoad (s : State) (n : Nat) (m : Umb) (w : W32) : URes :=
  let as := laneAddrs m w (immI w)
  let size := 2 ^ (uF3 w % 4)
  orElse2 (alignExc s 4 size as) (s.tsCheck n as size false false)
    (.ok s (as.map (fun a => (a.1, uRd w, loadExt false (uF3 w) (leVal (s.tsBytes n a.2 size))))) []
      (fun _ => (m.pc + 4) % 2 ^ 64))

def State.utStore (s : State) (n : Nat) (m : Umb) (w : W32) : URes :=
  let as := laneAddrs m w (immS w)
  let size := 2 ^ uF3 w
  orElse2 (alignExc s 6 size as) (s.tsCheck n as size true false)
    (URes.nop (as.foldl (fun (t : State) a => t.tsWrite n a.2 (leBytes size (m.reg a.1 (uRs2 w))) false) s) m)

/-! ### Atomics (R155 to R158, R172 to R174, R208, R222) -/

/-- The commutative integer operation of an atomic, by its AUX code (R209). -/
def amoOf (x : UExt) : Option Nat :=
  match x with
  | .uaadd => some 0
  | .uaxor => some 1
  | .uaor => some 2
  | .uaand => some 3
  | .uamin => some 4
  | .uamax => some 5
  | .uaminu => some 6
  | .uamaxu => some 7
  | _ => none

def atomSize (w : W32) : Nat := 2 ^ bits w 13 12

/-- A lane's operand: an x register, or an f register as the float add's format takes it. -/
def atomOperand (x : UExt) (w : W32) (m : Umb) (l : Nat) : Nat :=
  if x = .ufadd then
    let v := m.reg l (uRs2 w + 32)
    match atomSize w with
    | 2 => v % 2 ^ 16
    | 4 => unbox32 v
    | _ => v
  else m.reg l (uRs2 w) % 2 ^ (8 * atomSize w)

/-- The value rd receives from an old value. -/
def atomResult (x : UExt) (w : W32) (v : Nat) : Nat :=
  match x, atomSize w with
  | .ufadd, 2 => (2 ^ 48 - 1) * 2 ^ 16 + v % 2 ^ 16
  | .ufadd, 4 => box32 v
  | _, 4 => sext32 v
  | _, _ => v

/-- One lane's step at an address that holds cur: what it leaves there. -/
def atomStep (x : UExt) (w : W32) (m : Umb) (l cur : Nat) : Nat :=
  let v := atomOperand x w m l
  match amoOf x with
  | some op => amoFn op (8 * atomSize w) cur v
  | none =>
    if x = .ufadd then faddFn (bits w 13 12) cur v
    else if x = .uaswap then v
    else if m.reg l (uRd w) % 2 ^ (8 * atomSize w) = cur then v else cur

/-- What each lane at one address receives, and what the address then holds. -/
def atomLanes (x : UExt) (w : W32) (m : Umb) (old : Nat) (ls : List Nat) : List (Nat × Nat) × Nat :=
  ls.foldl (fun (a : List (Nat × Nat) × Nat) l => (a.1 ++ [(l, a.2)], atomStep x w m l a.2)) ([], old)

/-- The distinct addresses in ascending order of their lowest lane, each with its lanes. -/
def atomGroups (as : List (Nat × Nat)) : List (Nat × List Nat) :=
  ((as.map (·.2)).eraseDups).map (fun a => (a, (as.filter (fun p => p.2 == a)).map (·.1)))

/-- A read-modify-write is counted, and its serial lane steps (R156, R157). -/
def State.atomCount (s : State) (n : Nat) (x : UExt) (ls : List Nat) : State :=
  let s1 := s.wrap (UMB_ATOM n) UMB_ATOM_RMW 1
  if x = .uaswap ∨ x = .uacas then s1.wrap (UMB_ATOM n) UMB_ATOM_SERIAL ls.length else s1

/-- A tile-store atomic (R174). -/
def State.tsAtomic (s : State) (n : Nat) (m : Umb) (w : W32) (x : UExt) : URes :=
  let size := atomSize w
  let as := (lanesOf m.active).map (fun l => (l, m.reg l (uRs1 w)))
  let one (acc : State × List (Nat × Nat × Nat)) (g : Nat × List Nat) : State × List (Nat × Nat × Nat) :=
    let r := atomLanes x w m (leVal (acc.1.tsBytes n g.1 size)) g.2
    ((acc.1.tsWrite n g.1 (leBytes size r.2) false).atomCount n x g.2,
     acc.2 ++ r.1.map (fun p => (p.1, if x = .ufadd then uRd w + 32 else uRd w, atomResult x w p.2)))
  let det : Option URes := if x = .ufadd ∧ s.det then some (.exc s 28 m.active ((as.map (·.2)).headD 0) false) else none
  match alignExc s 6 size as with
  | some r => r
  | none =>
    orElse2 (s.tsCheck n as size true true) det
      (let r := (atomGroups as).foldl one (s.gapDirty n, [])
       .ok r.1 r.2 [] (fun _ => (m.pc + 4) % 2 ^ 64))

/-- The ledger region of a node holds a physical address. -/
def State.inLedger (s : State) (pa : Nat) : Bool :=
  match s.region (localOf pa) with
  | .ledger _ _ _ => true
  | _ => false

/-- An add of a size fits the view of the ledger it addresses: a cell of the own node, or an aligned one of another node, which checks
its own cell count (R225). -/
def State.ledgerFits (s : State) (pa size : Nat) : Bool :=
  if nodeOf pa = s.node then (s.ledgerAt pa size).isSome else
  match s.region (localOf pa) with
  | .ledger _ _ bf => if bf then size == 2 && pa % 2 == 0 else size == 4 && pa % 4 == 0
  | _ => false

/-- A memory atomic that chapter 8 refuses: any but a fitting float add on the ledger, a float add outside the ledger or in
binary64 in deterministic mode, and an exchange inside a journaled epoch (R208, R222, R225). -/
def State.atomRefused (s : State) (n : Nat) (x : UExt) (size pa : Nat) : Bool :=
  if s.inLedger pa then x != .ufadd || !s.ledgerFits pa size
  else (x == .ufadd && s.det) || ((x == .uaswap || x == .uacas) && s.journaled n)

/-- A refused access of the own ledger is counted (R225). -/
def State.ledgerRefuseAt (s : State) (pa : Nat) : State :=
  if nodeOf pa ≠ s.node then s else
  match s.region (localOf pa) with
  | .ledger d _ _ => s.bump (EPO_LEDGER_STAT d) EPO_LEDGER_STAT_REFUSED
  | _ => s

/-- What the lanes at one address of a memory atomic receive, from the old value; cells of the own ledger give what lower lanes have made of
them (R155 to R158, R208). -/
def State.atomVals (s : State) (m : Umb) (w : W32) (x : UExt) (pa old : Nat) (ls : List Nat) : List (Nat × Nat) :=
  let size := atomSize w
  match if x = .ufadd then s.ledgerAt pa size else none with
  | some (d, c) =>
    let f := if size = 2 then fBf16 else fB32
    let step (a : State × List (Nat × Nat)) (l : Nat) : State × List (Nat × Nat) :=
      (a.1.ledgerAdd d c (decIeee f (atomOperand x w m l)), a.2 ++ [(l, (encOut f .rne true 0 ((a.1.lcell d c).read f)).1)])
    (ls.foldl step (s, [])).2
  | none => (atomLanes x w m old ls).1

/-- The kind and AUX of the entry of an atomic that chapter 8 can hold in the journal (R207, R209). -/
def State.atomKind (s : State) (w : W32) (x : UExt) (pa : Nat) : Option (Nat × Nat) :=
  let size := atomSize w
  match amoOf x with
  | some op => some (jkAtomic, op + (if size = 8 then 8 else 0))
  | none =>
    if x ≠ .ufadd then none
    else if s.inLedger pa then some (if size = 2 then jkLedger16 else jkLedger32, 0)
    else some (jkFadd, bits w 13 12)

/-- An effect of the journal's table, held in the journal or applied at once. -/
def State.atomEnt (s : State) (n pa : Nat) (kind : Nat × Nat) (v : Nat) : State :=
  (s.effectEnt n { addr := pa, kind := kind.1, aux := kind.2, operand := v, work := none, poison := false }).1

/-- The operand of a commutative atomic folded from its lanes (R156). -/
def atomFold (x : UExt) (w : W32) (m : Umb) (op : Nat) (ls : List Nat) : Nat :=
  match ls with
  | [] => 0
  | l :: rest => rest.foldl (fun a k => amoFn op (8 * atomSize w) a (atomOperand x w m k)) (atomOperand x w m l)

/-- An atomic is sent to another node: it is none that the journal holds. -/
def State.atomSent (s : State) (n : Nat) (w : W32) (x : UExt) (pa : Nat) : Bool :=
  nodeOf pa != s.node && !(s.journaled n && (s.atomKind w x pa).isSome)

/-- The one request for an address of another node: the folded operand, or the lanes' operands in order, a compare-and-swap's each after
its compare value (R155 to R158).  The spec gives the request one chunk and no layout for several lanes (DESIGN CHOICE, log 78). -/
def State.atomSend (s : State) (n : Nat) (m : Umb) (w : W32) (x : UExt) (pa : Nat) (ls : List Nat) : State :=
  let size := atomSize w
  let s0 := (s.gapDirty n).atomCount n x ls
  match amoOf x with
  | some op => s0.fgnAtomic pa (fgnAux (op + 1) size) (leBytes size (atomFold x w m op ls))
  | none =>
    let one (l : Nat) : List Byte :=
      (if x = .uacas then leBytes size (m.reg l (uRd w)) else []) ++ leBytes size (atomOperand x w m l)
    s0.fgnAtomic pa (fgnAux (if x = .ufadd then 11 else if x = .uacas then 10 else 9) size) (ls.flatMap one)

/-- One address of a memory atomic performed, but for the entries of a float add, which follow in the order of the lanes. -/
def State.atomAt (s : State) (n : Nat) (m : Umb) (w : W32) (x : UExt) (pa old : Nat) (ls : List Nat) : State :=
  if s.atomSent n w x pa then s.atomSend n m w x pa ls else
  let s0 := (s.gapDirty n).atomCount n x ls
  match amoOf x, s.atomKind w x pa with
  | some op, some kd => s0.atomEnt n pa kd (atomFold x w m op ls)
  | _, some _ => s0
  | _, none => (s0.busWrite (tileDie n) false pa (leBytes (atomSize w) (atomLanes x w m old ls).2) false).1

/-- The adds of a float add, lane by lane in ascending order, but for those sent to another node (R158, R207). -/
def State.faddEnts (s : State) (n : Nat) (m : Umb) (w : W32) (x : UExt) (as : List (Nat × Nat)) : State :=
  if x ≠ .ufadd then s else
  as.foldl (fun (t : State) a => match t.atomKind w x a.2 with
    | some kd => if s.atomSent n w x a.2 then t else t.atomEnt n a.2 kd (atomOperand x w m a.1)
    | none    => t) s

/-- The value that one distinct address of a memory atomic is read with, gathered with the lanes whose read failed: free where the
request goes to another node, and none yet at a ledger cell (R155, R208, R224). -/
def State.atomRead (s : State) (n : Nat) (w : W32) (x : UExt) (acc : State × List (Nat × Nat) × List Nat × Bool)
    (g : Nat × List Nat) : State × List (Nat × Nat) × List Nat × Bool :=
  if s.atomSent n w x g.1 then
    let f := acc.1.fresh
    (f.2, acc.2.1 ++ [(g.1, f.1.toNat % 2 ^ (8 * atomSize w))], acc.2.2)
  else if (s.ledgerAt g.1 (atomSize w)).isSome then (acc.1, acc.2.1 ++ [(g.1, 0)], acc.2.2) else
  match acc.1.busRead (tileDie n) false g.1 (atomSize w) with
  | (t, .ok bs p) => (t, acc.2.1 ++ [(g.1, leVal bs)], if p then acc.2.2.1 ++ g.2 else acc.2.2.1, acc.2.2.2 || p)
  | (t, _)        => (t, acc.2.1 ++ [(g.1, 0)], acc.2.2.1 ++ g.2, acc.2.2.2)

/-- The lines that a memory atomic names leave the L1, all of them written back first with the release bit (R151, R155). -/
def State.atomL1 (s : State) (n : Nat) (w : W32) (groups : List (Nat × List Nat)) : State :=
  groups.foldl (fun t g => t.l1Inv n (alignDown g.1 64)) (if bitAt w 25 then s.l1FlushAll n else s)

/-- A memory atomic, performed when its response is there, or, one held in the journal, when it issues (R154 to R158, R172 to R174,
R208). -/
def State.memAtomic (s : State) (n : Nat) (k : Kern) (m : Umb) (w : W32) (x : UExt) (resp : Option Answer) : URes :=
  let size := atomSize w
  let as := (lanesOf m.active).map (fun l => (l, m.reg l (uRs1 w)))
  match alignExc s 6 size as with
  | some r => r
  | none =>
  match s.lanesXlate n (s.kPasid k) .write as with
  | .inr (s1, .wait) => .wait s1 .mem 0
  | .inr (s1, .exc c ms tv p) => .exc s1 c ms tv p
  | .inr (s1, .ok _) => URes.nop s1 m
  | .inl xs =>
    let bad := xs.filter (fun a => a.host || !(s.atomOk a.pa || s.inLedger a.pa))
    let shut := xs.filter (fun a => s.guarded n a.va size)
    let no := xs.filter (fun a => s.atomRefused n x size a.pa)
    let exc (t : State) (c : Nat) (l : List LaneAcc) (p : Bool) : URes :=
      .exc t c (maskOf (l.map (·.lane))) ((l.map (·.va)).headD 0) p
    if bad ≠ [] then exc s 7 bad false
    else if shut ≠ [] then exc s 26 shut false
    else if no ≠ [] then
      exc (((no.map (·.pa)).eraseDups).foldl (fun t a => t.ledgerRefuseAt a) s) 28 no false
    else
    if resp.isNone ∧ ¬ (s.journaled n ∧ xs.all (fun a => (s.atomKind w x a.pa).isSome)) then .wait s .mem 0
    else
      let ans := resp.getD .ok
      if ans ≠ .ok then exc s 7 xs (ans == .poisoned) else
      let groups := atomGroups (xs.map (fun a => (a.lane, a.pa)))
      let r := groups.foldl (s.atomRead n w x) (s.atomL1 n w groups, [], [], false)
      let failed := xs.filter (fun a => r.2.2.1.contains a.lane)
      if failed ≠ [] then exc r.1 7 failed r.2.2.2 else
      let old (pa : Nat) : Nat := ((r.2.1.find? (fun p => p.1 == pa)).map (·.2)).getD 0
      let vals := groups.flatMap (fun g => r.1.atomVals m w x g.1 (old g.1) g.2)
      let s2 := groups.foldl (fun t g => t.atomAt n m w x g.1 (old g.1) g.2) r.1
      let s3 := s2.faddEnts n m w x (xs.map (fun a => (a.lane, a.pa)))
      let s4 := if bitAt w 26 then s3.l1InvAll n else s3
      .ok s4 (vals.map (fun p => (p.1, if x = .ufadd then uRd w + 32 else uRd w, atomResult x w p.2))) []
        (fun _ => (m.pc + 4) % 2 ^ 64)

/-- An atomic, on the tile store or on memory. -/
def State.uAtomic (s : State) (n : Nat) (k : Kern) (m : Umb) (w : W32) (x : UExt) (resp : Option Answer) : URes :=
  if bitAt w 14 then s.tsAtomic n m w x else s.memAtomic n k m w x resp

/-! ### Group-wide instructions (R148, R149, R175 to R178) -/

/-- The exception of a group-wide instruction on a partial mask, unless DIVMODE admits it. -/
def groupExc (s : State) (k : Kern) (m : Umb) : Option URes :=
  if m.active ≠ 2 ^ 32 - 1 ∧ ¬ kDiv k.work.desc then some (.exc s 24 m.active 0 false) else none

/-- The format code of a format index (R165). -/
def idxFmt (i : Nat) : Nat := if i ≤ 5 then i + 1 else if i = 6 then 8 else 9

/-- The elements and the scale byte of a row (R165). -/
def rowElems (i : Nat) (row : List Byte) : List Nat × Nat :=
  (elemsFrom (fmtBits (idxFmt i)) 0 row 32, leAt row 32 1)

/-- One new accumulator value of UMMA (R176). -/
def ummaVal (fa fb : Nat) (c : V) (a b : List Nat × Nat) : V :=
  if fa ≤ 5 then
    let ps := (List.range 32).map (fun i => (decMx (idxFmt fa) (a.1.getD i 0), decMx (idxFmt fb) (b.1.getD i 0)))
    accAdd fB32 c (mxExact ps a.2 b.2)
  else
    let f := if fa = 6 then fBf16 else fFp16
    accAdd fB32 c (tree fB32 ((List.range 32).map (fun i =>
      accMul fB32 (decIeee f (a.1.getD i 0)) (decIeee f (b.1.getD i 0)))))

def State.uUmma (s : State) (n : Nat) (k : Kern) (m : Umb) (w : W32) : URes :=
  let fa := uF7 w / 16
  let fb := uF7 w / 2 % 8
  let as := (lanesOf m.active).map (fun l => (l, m.reg l (uRs1 w)))
  let bs := umbelAddr m (uRs2 w)
  let b0 := m.low (uRs2 w)
  let run : URes :=
    let rowsB := (List.range 8).map (fun j => rowElems fb (s.tsBytes n (b0 + 64 * j) 64))
    let lane (a : Nat × Nat) : List (Nat × Nat × Nat) :=
      let rowA := rowElems fa (s.tsBytes n a.2 64)
      (List.range 8).map (fun j =>
        let c := decIeee fB32 (unbox32 (m.reg a.1 (uRd w + j + 32)))
        (a.1, uRd w + j + 32, box32 (toB32 (ummaVal fa fb c rowA (rowsB.getD j ([], 0))))))
    .ok s (as.flatMap lane) [] (fun _ => (m.pc + 4) % 2 ^ 64)
  match groupExc s k m with
  | some r => r
  | none =>
    let bad (a : Nat × Nat) : Option (Nat × Nat) :=
      if a.2 % 64 ≠ 0 then some a else if b0 % 64 ≠ 0 then some (a.1, b0) else none
    let mis := as.filterMap bad
    if mis ≠ [] then .exc s 4 (maskOf (mis.map (·.1))) ((mis.map (·.2)).headD 0) false
    else orElse2 (s.tsCheck n as 64 false false) (s.tsCheck n bs 512 false false) run

/-- The source lane of a shuffle; 32 and above name none. -/
def shuffleLane (x : UExt) (w : W32) (m : Umb) (l : Nat) : Nat :=
  let k := uRs2 w
  match x with
  | .ushflIdx => m.reg l k % 32
  | .ushflXor => l ^^^ k
  | .ushflUp => if l < k then l else l - k
  | .ushflDown => if 31 < l + k then l else l + k
  | _ => k

def State.uShuffle (s : State) (k : Kern) (m : Umb) (w : W32) (x : UExt) : URes :=
  let f : Nat := if uF7 w / 8 % 2 = 1 then 32 else 0
  let ls := lanesOf m.active
  let get (l : Nat) : Nat := if ls.contains l then m.reg l (uRs1 w + f) else 0
  orElse2 (groupExc s k m) none (URes.put s m (uRd w + f) (fun l => get (shuffleLane x w m l)))

def State.uBallot (s : State) (k : Kern) (m : Umb) (w : W32) : URes :=
  let v := maskOf ((lanesOf m.active).filter (fun l => m.reg l (uRs1 w) != 0))
  orElse2 (groupExc s k m) none (URes.put s m (uRd w) (fun _ => v))

/-! ### Conversion (R179, R180) -/

def State.uCvtO (s : State) (n : Nat) (m : Umb) (w : W32) : URes :=
  let fo := idxFmt (uF7 w / 8 % 8)
  let mode := rmodeOf (uF7 w / 2 % 4)
  let sat : Bool := uF7 w % 2 == 1
  let sc := m.low (uRd w)
  let off := m.low (uRs2 w)
  let val (l : Nat) : V :=
    if nbits m.active l l = 1 then decIeee fB32 (unbox32 (m.reg l (uRs1 w + 32))) else V.zero
  let rnd (l : Nat) : Nat := srRandom (nbits sc 31 0) ((32 * nbits sc 63 32 + l) % 2 ^ 64)
  let vs := (List.range 32).map (fun l => (val l, rnd l))
  let as := umbelAddr m (uRs2 w)
  let out : List Byte × CvtCnt :=
    match fmtOf fo with
    | none => ([], .zero)
    | some f =>
      if isMx fo then
        let r := encBlockAt fo f mode sat (blockScale fo f mode vs) vs
        let e := packRow (fmtBits fo) r.1
        (e ++ List.replicate (32 - e.length) 0 ++ [BitVec.ofNat 8 r.2.1] ++ List.replicate 31 0, r.2.2)
      else
        let rs := vs.map (fun p => encOut f mode sat p.2 p.1)
        (packRow (fmtBits fo) (rs.map (·.1)), rs.foldl (fun a r => a.add r.2) .zero)
  orElse2 (alignExc s 6 64 as) (s.tsCheck n as 64 true false)
    (URes.nop ((s.tsWrite n off out.1 false).cvtCount n out.2) m)

/-- Only elements of active lanes count in IN_OVF (DESIGN CHOICE beside R111 and R180, log 78). -/
def State.uCvtI (s : State) (n : Nat) (m : Umb) (w : W32) : URes :=
  let i := uF7 w / 8 % 8
  let fi := idxFmt i
  let as := umbelAddr m (uRs1 w)
  let row := rowElems i (s.tsBytes n (m.low (uRs1 w)) 64)
  let conv (l : Nat) : V × CvtCnt :=
    inConv fB32 (if isMx fi then mxValue fi (row.1.getD l 0) row.2 else decElem fi (row.1.getD l 0))
  let cnt := (lanesOf m.active).foldl (fun a l => CvtCnt.add a (conv l).2) CvtCnt.zero
  orElse2 (alignExc s 4 64 as) (s.tsCheck n as 64 false false)
    (URes.put (s.cvtCount n cnt) m (uRd w + 32) (fun l => box32 (toB32 (conv l).1)))

/-! ### Synchronisation (R181 to R183) -/

def State.uBar (s : State) (m : Umb) : URes :=
  if m.active ≠ m.live then .exc s 30 m.active 0 false else .wait s .bar 0

/-- A read of the word an umbel waits for: done when it has reached the target, or an exception, or on with the waiting. -/
def State.uSemPoll (s : State) (n : Nat) (k : Kern) (m : Umb) (w : W32) : URes :=
  let a := m.low (uRs1 w)
  if a % 8 ≠ 0 then .exc s 4 m.active a false else
  match s.vread (tileDie n) (s.kPasid k) a 8 .read false with
  | (s1, .miss)  => .wait s1 .sem 0
  | (s1, .fault) => .exc s1 13 m.active a false
  | (s1, .ok bs p) =>
    if p then .exc s1 5 m.active a true
    else if m.low (uRs2 w) ≤ leVal bs then URes.put (s1.l1InvAll n) m (uRd w) (fun _ => leVal bs)
    else .wait s1 .sem 0
  | (s1, _) => .exc s1 5 m.active a false

def State.uSemPost (s : State) (n : Nat) (k : Kern) (m : Umb) (w : W32) (resp : Option Answer) : URes :=
  let a := m.low (uRs1 w)
  if a % 8 ≠ 0 then .exc s 6 m.active a false else
  match s.xlate (tileDie n) (s.kPasid k) a .write with
  | .miss  => .wait s .mem 0
  | .fault => .exc (s.takeFault (tileDie n) (s.kPasid k) a .write) 15 m.active a false
  | .pa pa host =>
    if host ∨ ¬ s.atomOk pa then .exc s 7 m.active a false
    else if s.guarded n a 8 then .exc s 26 m.active a false
    else match resp with
    | none => .wait s .mem 0
    | some r =>
      if r ≠ .ok then .exc s 7 m.active a (r == .poisoned) else
      let s1 := (s.l1FlushAll n).l1Inv n (alignDown pa 64)
      match s1.semRelease n pa (m.low (uRs2 w)) with
      | (s2, .ok) => URes.nop s2 m
      | (s2, _)   => .exc s2 7 m.active a false

/-! ### Stream ports (R184) -/

/-- An enabled route joins stream port p and the Umbel engine in a direction: out from the engine, or in to it (R46). -/
def State.umbelRoute (s : State) (n p : Nat) (out : Bool) : Bool :=
  (s.tile n).routes.any (fun r =>
    bitAt r 13 && bits r 12 10 == p &&
    (if out then bits r 4 0 == 0x0A && bits r 9 5 == 0x09 else bits r 4 0 == 0x09 && bits r 9 5 == 0x0A))

/-- Chunks sent from the tile store while the port takes them; k bounds them. -/
def State.putChunks (s : State) (n p off : Nat) : Nat → State × Nat
  | 0 => (s, 0)
  | k + 1 =>
    if s.canSend n p then
      let c := BitVec.ofNat 512 (leVal (s.tsBytes n off 64))
      let r := (if s.portRight n p then s.sendChunk n p c (s.tsPois n off 64) else s.accessErr n).putChunks n p (off + 64) k
      (r.1, r.2 + 1)
    else (s, 0)

/-- Chunks taken to the tile store while the port holds some. -/
def State.getChunks (s : State) (n p off : Nat) : Nat → State × Nat
  | 0 => (s, 0)
  | k + 1 => match (s.port n p).fifo with
    | [] => (s, 0)
    | c :: _ =>
      let r := ((s.takeChunk n p).tsWrite n off (leBytes 64 c.data.toNat) c.poison).getChunks n p (off + 64) k
      (r.1, r.2 + 1)

def State.uStream (s : State) (n : Nat) (m : Umb) (w : W32) (out try_ : Bool) : URes :=
  let p := uF7 w % 8
  let off := m.low (uRs1 w)
  let cnt := m.low (uRs2 w)
  let declared : Bool := match s.portDecl n p with
    | some d => d.out == out
    | none   => false
  if ¬ declared ∨ ¬ s.umbelRoute n p out ∨ s.portSt n p = psError ∨ cnt = 0 ∨ 64 < cnt then .exc s 29 m.active 0 false else
  let as := umbelAddr m (uRs1 w)
  let go : URes :=
    let r := if out then s.putChunks n p (off + 64 * m.moved) (cnt - m.moved)
             else s.getChunks n p (off + 64 * m.moved) (cnt - m.moved)
    let moved := m.moved + r.2
    if try_ ∨ moved = cnt then URes.put r.1 m (uRd w) (fun _ => moved) else .wait r.1 .stream moved
  orElse2 (alignExc s (if out then 4 else 6) 64 as) (if out then
      (let bad := !s.tsRight n rtU off (64 * cnt)
       if bad then some (.exc (s.accessErr n) 25 m.active off false) else none)
    else s.tsCheck n as (64 * cnt) true false) go

/-! ### Epoch control (R185) -/

/-- Who may issue an epoch instruction. -/
def epoIssuer (u : Nat) (m : Umb) : Bool := u == 0 && m.active == m.live

/-- UEPOPEN: opens an epoch; the one of a kernel relaunched for a replay opens the replayed epoch again, under its number (R185, R198,
R217). -/
def State.uEpopen (s : State) (n u : Nat) (m : Umb) (w : W32) : URes :=
  if epoIssuer u m ∧ s.epoSt n = esReplay ∧ (s.epo n).relaunch then
    URes.put (s.setEpo n { s.epo n with relaunch := false }) m (uRd w) (fun _ => s.epoNum n)
  else if ¬ epoIssuer u m ∨ s.epoSt n ≠ esClosed then .exc s 27 m.active 0 false
  else if s.epoHeld n then .hold
  else
    let s1 := s.epoOpen n 2
    URes.put s1 m (uRd w) (fun _ => s1.epoNum n)

def State.uEpcommit (s : State) (n u : Nat) (m : Umb) : URes :=
  if ¬ epoIssuer u m ∨ s.epoSt n = esClosed then .exc s 27 m.active 0 false
  else
    let s1 := s.epoSeal n 2
    URes.nop (if s.resil then s1 else s1.commitPoint n 0) m

def State.uEpguard (s : State) (n u : Nat) (m : Umb) (w : W32) : URes :=
  if ¬ epoIssuer u m ∨ s.epoSt n ≠ esClosed then .exc s 27 m.active 0 false
  else URes.nop (s.setGuard n (uRd w) (m.low (uRs1 w)) (m.low (uRs2 w))) m

/-! ### L1 maintenance (R186) -/

/-- The by-line forms: f acts on the physical line of each active lane whose address translates and is cacheable; one whose translation
is not at hand waits for it, as a load does. -/
def State.uL1Line (s : State) (n : Nat) (k : Kern) (m : Umb) (w : W32) (f : State → Nat → State) : URes :=
  let one (t : State) (l : Nat) : State :=
    match s.xlate (tileDie n) (s.kPasid k) (m.reg l (uRs1 w)) .read with
    | .pa pa host => if s.l1Caches { k with l1en := true } pa host then f t (alignDown pa 64) else t
    | _ => t
  if (lanesOf m.active).any (fun l => s.xlate (tileDie n) (s.kPasid k) (m.reg l (uRs1 w)) .read == .miss) then .wait s .mem 0
  else URes.nop ((lanesOf m.active).foldl one s) m

/-! ### An extension's outcome -/

/-- A legal extension (R164 to R187). -/
def State.uExtSem (s : State) (n u : Nat) (k : Kern) (m : Umb) (w : W32) (x : UExt) (resp : Option Answer) : URes :=
  match x with
  | .utlb => s.utLoad n m w
  | .utlh => s.utLoad n m w
  | .utlw => s.utLoad n m w
  | .utld => s.utLoad n m w
  | .utlbu => s.utLoad n m w
  | .utlhu => s.utLoad n m w
  | .utlwu => s.utLoad n m w
  | .utsb => s.utStore n m w
  | .utsh => s.utStore n m w
  | .utsw => s.utStore n m w
  | .utsd => s.utStore n m w
  | .uaadd => s.uAtomic n k m w x resp
  | .uaswap => s.uAtomic n k m w x resp
  | .uacas => s.uAtomic n k m w x resp
  | .uaxor => s.uAtomic n k m w x resp
  | .uaor => s.uAtomic n k m w x resp
  | .uaand => s.uAtomic n k m w x resp
  | .uamin => s.uAtomic n k m w x resp
  | .uamax => s.uAtomic n k m w x resp
  | .uaminu => s.uAtomic n k m w x resp
  | .uamaxu => s.uAtomic n k m w x resp
  | .ufadd => s.uAtomic n k m w x resp
  | .umma => s.uUmma n k m w
  | .ushflIdx => s.uShuffle k m w x
  | .ushflXor => s.uShuffle k m w x
  | .ushflUp => s.uShuffle k m w x
  | .ushflDown => s.uShuffle k m w x
  | .ushflBcast => s.uShuffle k m w x
  | .uballot => s.uBallot k m w
  | .ucvtO => s.uCvtO n m w
  | .ucvtI => s.uCvtI n m w
  | .ubar => s.uBar m
  | .usemwait => s.uSemPoll n k m w
  | .usempost => s.uSemPost n k m w resp
  | .usput => s.uStream n m w true false
  | .usget => s.uStream n m w false false
  | .ustryput => s.uStream n m w true true
  | .ustryget => s.uStream n m w false true
  | .uepopen => s.uEpopen n u m w
  | .uepcommit => s.uEpcommit n u m
  | .uepguard => s.uEpguard n u m w
  | .ul1flush => s.uL1Line n k m w (fun t l => t.l1Flush n l)
  | .ul1inv => s.uL1Line n k m w (fun t l => t.l1Inv n l)
  | .ul1flushall => URes.nop (s.l1FlushAll n) m
  | .ul1invall => URes.nop (s.l1InvAll n) m

/-- The registers of a legal extension under XREGS and FREGS. -/
def extInfo (k : Kern) (x : UExt) (w : W32) : Option UInfo := (extRegs x w).bind (fun p => uRegs k.work.desc p.1 p.2)

/-- An umbel's instruction issues when it is extension x (R141, R164). -/
def State.uIssue (s : State) (n u : Nat) (x : UExt) : State :=
  match s.uReady n u with
  | none => s
  | some (k, m) =>
    match s.uFetch n k m with
    | (s1, .word w) =>
      if uExt w ≠ some x then s1 else
      (match extInfo k x w with
       | some i => if rcHas m i then s1.uApply n u i (s1.uExtSem n u k m w x none) else s1
       | none   => s1.uApply n u { src := [], dst := [] } (excOf s1 2 (lanesOf m.active) (fun _ => w.toNat)))
    | (s1, .hold) => s1
    | (_, .exc _ _) => s

/-! ### The commands -/

/-- UMBEL_BASE_INSTRUCTION: an umbel's instruction issues when it is no extension: an RV64IMFD instruction, an encoding that is
illegal, the exit instruction, or a fetch that fails (R139, R145, R160). -/
def execUmbelBaseInstruction (n : TileId) (u : UmbelId) (s : State) : Host.Outcome State Fault Refusal :=
  .next (s.uIssueBase n.val u.val (fun w => (uExt w).isSome))

/-- The registers of the instruction an umbel stands at. -/
def uInfoOf (k : Kern) (w : W32) : Option UInfo :=
  match uExt w with
  | some x => extInfo k x w
  | none   => (baseRegs w).bind (fun p => uRegs k.work.desc p.1 p.2)

/-- REGISTER_FILL: the first source the register cache lacks is read from the main file; the least recently used entry that the
instruction does not name makes room, or the oldest where it names them all (R143; DESIGN CHOICE for that, log 78). -/
def execRegisterFill (n : TileId) (u : UmbelId) (s : State) : Host.Outcome State Fault Refusal :=
  match s.uReady n.val u.val with
  | none => .next s
  | some (k, m) =>
    match s.uFetch n.val k m with
    | (s1, .word w) =>
      (match uInfoOf k w with
       | none => .next s1
       | some i => match i.src.find? (fun r => !m.rc.contains r) with
         | none => .next s1
         | some r =>
           let kept := if m.rc.length < 8 then m.rc else
             match m.rc.reverse.find? (fun x => !(i.src ++ i.dst).contains x) with
             | some x => m.rc.filter (· != x)
             | none   => m.rc.take 7
           .next ((s1.setUmb n.val u.val { m with rc := r :: kept, fills := m.fills + 1 }).wrap (UMB_RC n) UMB_RC_FILL 1))
    | (s1, .hold) => .next s1
    | (_, .exc _ _) => .next s

/-- UMBEL_MEMORY_RESPONSE: what an umbel waits for returns, and its access is performed (R151, R154, R159). -/
def execUmbelMemoryResponse (n : TileId) (u : UmbelId) (ans : Answer) (s : State) : Host.Outcome State Fault Refusal :=
  match s.umb n.val u.val with
  | none => .next s
  | some (k, m) =>
    if m.wait ≠ .mem then .next s else
    match s.uFetch n.val k m with
    | (s1, .word w) =>
      (match uInfoOf k w with
       | none => .next s1
       | some i =>
         let r := match uExt w with
           | some x => s1.uExtSem n.val u.val k m w x (some ans)
           | none   => s1.uBase n.val u.val k m w (some ans)
         .next (s1.uApply n.val u.val i r))
    | (_, _) => .next s

/-- UBAR_RELEASE: every umbel that still has live lanes has arrived; all go on (R181). -/
def execUbarRelease (n : TileId) (s : State) : Host.Outcome State Fault Refusal :=
  match (s.tile n.val).kern with
  | none => .next s
  | some k =>
    if k.abort.isNone ∧ k.umbels ≠ [] ∧ k.umbels.all (fun p => p.2.wait == .bar) then
      let rc (m : Umb) : Umb := if s.flag (UMB_CFG n) UMB_CFG_RC_EN then m else { m with rc := [] }
      .next (k.umbels.foldl (fun (t : State) p => t.uStep n.val p.1 (rc p.2) (fun _ => (p.2.pc + 4) % 2 ^ 64)) s)
    else .next s

/-- SEMAPHORE_POLL: the word that an umbel, or the sequencer, waits for is read again (R182, R189). -/
def execSemaphorePoll (n : TileId) (who : Option UmbelId) (s : State) : Host.Outcome State Fault Refusal :=
  match who with
  | none =>
    if (s.tile n.val).seq.run ∧ s.rd (TIL_SEQ_STAT n) TIL_SEQ_STAT_WAIT_KIND = 3 then
      match s.seqWord n.val with
      | some w => .next (s.seqPoll n.val w)
      | none   => .next s
    else .next s
  | some u =>
    match s.umb n.val u.val with
    | none => .next s
    | some (k, m) =>
      if m.wait ≠ .sem then .next s else
      match s.uFetch n.val k m with
      | (s1, .word w) =>
        (match uInfoOf k w with
         | some i => .next (s1.uApply n.val u.val i (s1.uSemPoll n.val k m w))
         | none   => .next s1)
      | (_, _) => .next s

/-- UTLB. -/
def execUtlb (n : TileId) (u : UmbelId) (s : State) : Host.Outcome State Fault Refusal := .next (s.uIssue n.val u.val .utlb)
/-- UTLH. -/
def execUtlh (n : TileId) (u : UmbelId) (s : State) : Host.Outcome State Fault Refusal := .next (s.uIssue n.val u.val .utlh)
/-- UTLW. -/
def execUtlw (n : TileId) (u : UmbelId) (s : State) : Host.Outcome State Fault Refusal := .next (s.uIssue n.val u.val .utlw)
/-- UTLD. -/
def execUtld (n : TileId) (u : UmbelId) (s : State) : Host.Outcome State Fault Refusal := .next (s.uIssue n.val u.val .utld)
/-- UTLBU. -/
def execUtlbu (n : TileId) (u : UmbelId) (s : State) : Host.Outcome State Fault Refusal := .next (s.uIssue n.val u.val .utlbu)
/-- UTLHU. -/
def execUtlhu (n : TileId) (u : UmbelId) (s : State) : Host.Outcome State Fault Refusal := .next (s.uIssue n.val u.val .utlhu)
/-- UTLWU. -/
def execUtlwu (n : TileId) (u : UmbelId) (s : State) : Host.Outcome State Fault Refusal := .next (s.uIssue n.val u.val .utlwu)
/-- UTSB. -/
def execUtsb (n : TileId) (u : UmbelId) (s : State) : Host.Outcome State Fault Refusal := .next (s.uIssue n.val u.val .utsb)
/-- UTSH. -/
def execUtsh (n : TileId) (u : UmbelId) (s : State) : Host.Outcome State Fault Refusal := .next (s.uIssue n.val u.val .utsh)
/-- UTSW. -/
def execUtsw (n : TileId) (u : UmbelId) (s : State) : Host.Outcome State Fault Refusal := .next (s.uIssue n.val u.val .utsw)
/-- UTSD. -/
def execUtsd (n : TileId) (u : UmbelId) (s : State) : Host.Outcome State Fault Refusal := .next (s.uIssue n.val u.val .utsd)
/-- UAADD. -/
def execUaadd (n : TileId) (u : UmbelId) (s : State) : Host.Outcome State Fault Refusal := .next (s.uIssue n.val u.val .uaadd)
/-- UASWAP. -/
def execUaswap (n : TileId) (u : UmbelId) (s : State) : Host.Outcome State Fault Refusal := .next (s.uIssue n.val u.val .uaswap)
/-- UACAS. -/
def execUacas (n : TileId) (u : UmbelId) (s : State) : Host.Outcome State Fault Refusal := .next (s.uIssue n.val u.val .uacas)
/-- UAXOR. -/
def execUaxor (n : TileId) (u : UmbelId) (s : State) : Host.Outcome State Fault Refusal := .next (s.uIssue n.val u.val .uaxor)
/-- UAOR. -/
def execUaor (n : TileId) (u : UmbelId) (s : State) : Host.Outcome State Fault Refusal := .next (s.uIssue n.val u.val .uaor)
/-- UAAND. -/
def execUaand (n : TileId) (u : UmbelId) (s : State) : Host.Outcome State Fault Refusal := .next (s.uIssue n.val u.val .uaand)
/-- UAMIN. -/
def execUamin (n : TileId) (u : UmbelId) (s : State) : Host.Outcome State Fault Refusal := .next (s.uIssue n.val u.val .uamin)
/-- UAMAX. -/
def execUamax (n : TileId) (u : UmbelId) (s : State) : Host.Outcome State Fault Refusal := .next (s.uIssue n.val u.val .uamax)
/-- UAMINU. -/
def execUaminu (n : TileId) (u : UmbelId) (s : State) : Host.Outcome State Fault Refusal := .next (s.uIssue n.val u.val .uaminu)
/-- UAMAXU. -/
def execUamaxu (n : TileId) (u : UmbelId) (s : State) : Host.Outcome State Fault Refusal := .next (s.uIssue n.val u.val .uamaxu)
/-- UFADD. -/
def execUfadd (n : TileId) (u : UmbelId) (s : State) : Host.Outcome State Fault Refusal := .next (s.uIssue n.val u.val .ufadd)
/-- UMMA. -/
def execUmma (n : TileId) (u : UmbelId) (s : State) : Host.Outcome State Fault Refusal := .next (s.uIssue n.val u.val .umma)
/-- USHFL.IDX. -/
def execUshflIdx (n : TileId) (u : UmbelId) (s : State) : Host.Outcome State Fault Refusal :=
  .next (s.uIssue n.val u.val .ushflIdx)
/-- USHFL.XOR. -/
def execUshflXor (n : TileId) (u : UmbelId) (s : State) : Host.Outcome State Fault Refusal :=
  .next (s.uIssue n.val u.val .ushflXor)
/-- USHFL.UP. -/
def execUshflUp (n : TileId) (u : UmbelId) (s : State) : Host.Outcome State Fault Refusal :=
  .next (s.uIssue n.val u.val .ushflUp)
/-- USHFL.DOWN. -/
def execUshflDown (n : TileId) (u : UmbelId) (s : State) : Host.Outcome State Fault Refusal :=
  .next (s.uIssue n.val u.val .ushflDown)
/-- USHFL.BCAST. -/
def execUshflBcast (n : TileId) (u : UmbelId) (s : State) : Host.Outcome State Fault Refusal :=
  .next (s.uIssue n.val u.val .ushflBcast)
/-- UBALLOT. -/
def execUballot (n : TileId) (u : UmbelId) (s : State) : Host.Outcome State Fault Refusal :=
  .next (s.uIssue n.val u.val .uballot)
/-- UCVT.O. -/
def execUcvtO (n : TileId) (u : UmbelId) (s : State) : Host.Outcome State Fault Refusal := .next (s.uIssue n.val u.val .ucvtO)
/-- UCVT.I. -/
def execUcvtI (n : TileId) (u : UmbelId) (s : State) : Host.Outcome State Fault Refusal := .next (s.uIssue n.val u.val .ucvtI)
/-- UBAR: the umbel waits at the barrier. -/
def execUbar (n : TileId) (u : UmbelId) (s : State) : Host.Outcome State Fault Refusal := .next (s.uIssue n.val u.val .ubar)
/-- USEMWAIT. -/
def execUsemwait (n : TileId) (u : UmbelId) (s : State) : Host.Outcome State Fault Refusal :=
  .next (s.uIssue n.val u.val .usemwait)
/-- USEMPOST. -/
def execUsempost (n : TileId) (u : UmbelId) (s : State) : Host.Outcome State Fault Refusal :=
  .next (s.uIssue n.val u.val .usempost)
/-- USPUT. -/
def execUsput (n : TileId) (u : UmbelId) (s : State) : Host.Outcome State Fault Refusal := .next (s.uIssue n.val u.val .usput)
/-- USGET. -/
def execUsget (n : TileId) (u : UmbelId) (s : State) : Host.Outcome State Fault Refusal := .next (s.uIssue n.val u.val .usget)
/-- USTRYPUT. -/
def execUstryput (n : TileId) (u : UmbelId) (s : State) : Host.Outcome State Fault Refusal :=
  .next (s.uIssue n.val u.val .ustryput)
/-- USTRYGET. -/
def execUstryget (n : TileId) (u : UmbelId) (s : State) : Host.Outcome State Fault Refusal :=
  .next (s.uIssue n.val u.val .ustryget)

/-- Umbel 0 waits for the epoch logic. -/
def State.umb0Wait (s : State) (n : Nat) : State :=
  match s.umb n 0 with
  | some (_, m) => s.setUmb n 0 { m with wait := .epo }
  | none        => s

/-- UEPOPEN: in resilient mode umbel 0 goes on when the start record is written (R185, R199). -/
def execUepopen (n : TileId) (u : UmbelId) (s : State) : Host.Outcome State Fault Refusal :=
  let t := s.uIssue n.val u.val .uepopen
  if s.epoSt n.val = esClosed ∧ t.epoSt n.val ≠ esClosed ∧ t.resil then .next (t.umb0Wait n.val) else .next t
/-- UEPCOMMIT: in resilient mode umbel 0 goes on when the commit is done (R185, R211). -/
def execUepcommit (n : TileId) (u : UmbelId) (s : State) : Host.Outcome State Fault Refusal :=
  let t := s.uIssue n.val u.val .uepcommit
  if (s.epo n.val).committer ≠ 2 ∧ (t.epo n.val).committer = 2 then .next (t.umb0Wait n.val) else .next t
/-- UEPGUARD. -/
def execUepguard (n : TileId) (u : UmbelId) (s : State) : Host.Outcome State Fault Refusal :=
  .next (s.uIssue n.val u.val .uepguard)
/-- UL1FLUSH. -/
def execUl1flush (n : TileId) (u : UmbelId) (s : State) : Host.Outcome State Fault Refusal :=
  .next (s.uIssue n.val u.val .ul1flush)
/-- UL1INV. -/
def execUl1inv (n : TileId) (u : UmbelId) (s : State) : Host.Outcome State Fault Refusal := .next (s.uIssue n.val u.val .ul1inv)
/-- UL1FLUSHALL. -/
def execUl1flushall (n : TileId) (u : UmbelId) (s : State) : Host.Outcome State Fault Refusal :=
  .next (s.uIssue n.val u.val .ul1flushall)
/-- UL1INVALL. -/
def execUl1invall (n : TileId) (u : UmbelId) (s : State) : Host.Outcome State Fault Refusal :=
  .next (s.uIssue n.val u.val .ul1invall)

end Sys2Proof.Machine
end

