-- ==== Sys2Proof/Machine/Load.lean ====
section
/-!
DEFINITION. The end of a facet load (R39, R53, R200, R217) and the EPOCH descriptor of a vendor facet (R380).

Where the spec leaves open or is read by inference, and what is taken from outside it (DESIGN CHOICE, DEDUCED, PRESUMED):
notes/assumptions/42.md, 45.md, 76.md.
-/

namespace Sys2Proof.Machine

open Sys2Proof

/-! ### Loading -/

/-- Any line of a registered image in the facet store is poisoned. -/
def State.facetPois (s : State) (f : Facet) : Bool :=
  s.anyPoison (s.facetBase + f.unit * 65536) (lineCount (s.facetBase + f.unit * 65536) f.imgLen)

/-- A load that meets poison: the BIND completes with FACET_POISONED, its reference is released, the bind record is cleared and
the registry entry is damaged; an epoch that waited for a replay is lost with the ID's binding (R39).  A BIND or UNBIND deferred before the
load starts then (DESIGN CHOICE, log 76). -/
def State.loadPoisoned (s : State) (n h : Nat) (f : Facet) : State :=
  let s1 := { s with facets := mput s.facets h { f with damaged := true } }
  let t := s1.tile n
  let s2 : State := match t.loadWork with
    | some w => (s1.setTile n { t with loadWork := none }).refuse w stFacetPoisoned 0
    | none   => s1
  let s3 : State := if s2.epoSt n = esClosed then s2 else (s2.epoClose n).bump (EPO_RPL n) EPO_RPL_LOST
  let s4 := s3.toUnbound n
  let u := s4.tile n
  if u.deferred.isNone then s4 else
  (s4.setTile n { u with deferred := none, bindIn := u.deferred, wq := u.bindIn.toList ++ u.wq }).wr (TIL_STATUS n) TIL_STATUS_BIND_PEND 0

/-- Words of the epoch logic that a load for a BIND starts anew (R198, R201, R203). -/
def State.freshEpoch (s : State) (n : Nat) : State :=
  let e := s.epo n
  ((s.setEpo n { EpoSt.reset with pub := e.pub }).wr (EPO_NUM n) EPO_NUM_NUMBER 0).clearGuards n

/-- A load on a spare goes on: a replay from the start record, the resume record, or index 0 (R199, R217, R220).  The ID is BUSY where
the resume record holds a descriptor (DESIGN CHOICE, log 76). -/
def State.loadResume (s : State) (n : Nat) : State :=
  let e := s.epo n
  if s.epoSt n = esReplay then
    match e.start with
    | some r => (s.restore n r State.launch).setTst n tsBusy
    | none   => s
  else match e.resume with
  | some r =>
    if s.resil ∧ ¬ s.flag (EPO_STAT n) EPO_STAT_FROZEN then
      let s1 := s.restore n r State.launch
      if r.held.isSome ∨ r.mat.isSome then s1.setTst n tsBusy else s1
    else s
  | none => s

/-- FACET_LOAD_COMPLETE: the image of the bind record is in; the ID becomes READY and its BIND completes, or the spare replays
or resumes (R39, R53). -/
def execFacetLoadComplete (n : TileId) (s : State) : Host.Outcome State Fault Refusal :=
  if s.tst n.val ≠ tsLoading then .next s else
  match (s.tile n.val).bind with
  | none => .next s
  | some b =>
    match mfind s.facets b.handle with
    | none => .next s
    | some f =>
      if s.facetPois f then .next (s.loadPoisoned n.val b.handle f) else
      let img := s.facetImage f
      let fresh : Bool := (s.tile n.val).loadWork.isSome
      let s1 := s.loadFacet n.val img
      let s2 := s1.wr (TIL_STATUS n) TIL_STATUS_DIGEST_LO (bits f.digest 31 0)
      let s3 := (s2.wr (EPO_STAT n) EPO_STAT_GAP_DIRTY 0).setTst n.val tsReady
      let s4 : State := if fresh then (s3.freshEpoch n.val).freshPorts n.val else s3.loadResume n.val
      let s5 := (if (s4.tile n.val).deferred.isSome then s4.setTst n.val tsBusy else s4).refreshPorts n.val
      match (s.tile n.val).loadWork with
      | some w => .next ((s5.setTile n.val { s5.tile n.val with loadWork := none }).served w stServed 0)
      | none   => .next s5

/-! ### The EPOCH descriptor (R380) -/

/-- A vendor facet is bound on an ID (R45). -/
def State.vendorBound (s : State) (n : Nat) : Bool :=
  match (s.tile n).bind with
  | some b => (match mfind s.facets b.handle with
    | some f => decide (0x101 ≤ f.facetId) && decide (f.facetId ≤ 0x106)
    | none   => false)
  | none => false

/-- The EPOCH descriptor at hand, taken by the sequencer if it was only offered. -/
def State.epochTake (s : State) (n : Nat) : Option (Work × State) :=
  let t := s.tile n
  match t.seq.held with
  | some w => if bits w.desc 7 0 = 0x13 then some (w, s) else none
  | none   => match t.offered with
    | some w =>
      if bits w.desc 7 0 = 0x13 then
        some (w, (s.setTile n { t with offered := none, seq := { t.seq with held := some w, pos := t.pos } }).wr
          (TIL_SEQ_STAT n) TIL_SEQ_STAT_HELD 1)
      else none
    | none => none

/-- EPOCH: OP 1 sets a guard range and OP 3 disables all of them once no epoch is open; OP 2 commits the open epoch once no
output tile is in progress; any other OP ends with SEQ_FAULT detail 6. -/
def execEpochDesc (n : TileId) (s : State) : Host.Outcome State Fault Refusal :=
  if ¬ s.vendorBound n.val ∨ (s.tst n.val ≠ tsReady ∧ s.tst n.val ≠ tsBusy) then .next s else
  match s.epochTake n.val with
  | none => .next s
  | some (w, s1) =>
    let d := w.desc
    let closed : Bool := s.epoSt n.val == esClosed
    let done (t : State) (st det : Nat) : State := (t.tileDone n.val w (s1.tile n.val).seq.pos st det).release n.val
    match bits d 67 64 with
    | 1 => if closed then .next (done (s1.setGuard n.val (bits d 71 68) (bits d 183 128) (bits d 247 192)) stServed 0)
           else .next s1
    | 2 =>
      if closed then .next (done s1 stServed 0)
      else if (s1.tile n.val).outs ≠ [] ∨ (s1.epo n.val).committer ≠ 0 ∨ (s1.epo n.val).opening then .next s1
      else
        let s2 := (done s1 stServed 0).epoSeal n.val 3
        .next (if s.resil then s2 else s2.commitPoint n.val 0)
    | 3 => if closed then .next (done (s1.clearGuards n.val) stServed 0) else .next s1
    | _ => .next (done s1 stSeqFault 6)

end Sys2Proof.Machine
end

