-- ==== Sys2Proof/Machine/Matrix.lean ====
section
/-!
DEFINITION. Matrix descriptors and clover commands (spec/03, R62 to R88; spec/05, R112 to R121): checks, weight fills, sets,
drains, conversion trials, retirement and faults.

Where the spec leaves open or is read by inference, and what is taken from outside it (DESIGN CHOICE, DEDUCED, PRESUMED):
notes/assumptions/11.md, 49.md, 77.md, 79.md.
-/

namespace Sys2Proof.Machine

open Sys2Proof

/-! ### The descriptor (R67, R69) -/

def matM (d : Line) : Nat := bits d 275 256
def matN (d : Line) : Nat := bits d 295 276
def matK (d : Line) : Nat := bits d 315 296
def matFa (d : Line) : Nat := bits d 123 120
def matFb (d : Line) : Nat := bits d 187 184
def matSparse (d : Line) : Bool := bitAt d 189
def matA (d : Line) : Operand :=
  { va := bits d 119 64, fmt := matFa d, tr := bitAt d 124, ld := bits d 335 320 * 64, kExt := matK d, mExt := matM d }
def matB (d : Line) : Operand :=
  { va := bits d 183 128, fmt := matFb d, tr := bitAt d 188, ld := bits d 351 336 * 64, kExt := matK d, mExt := matN d }
def matCd (d : Line) : Nat := bits d 247 192
def matLdcd (d : Line) : Nat := bits d 367 352 * 64
/-- The reduction positions of a set. -/
def matSpan (d : Line) : Nat := (if matSparse d then 2 else 1) * kGroup (matFa d) (matFb d)
/-- Sets of an output tile. -/
def matSets (d : Line) : Nat := cdiv (matK d) (matSpan d)
/-- Output tiles, and tile j's rows and columns of D. -/
def matTiles (d : Line) : Nat := cdiv (matM d) 256 * cdiv (matN d) 512
def tileRow0 (d : Line) (j : Nat) : Nat := 256 * (j / cdiv (matN d) 512)
def tileCol0 (d : Line) (j : Nat) : Nat := 512 * (j % cdiv (matN d) 512)
def tileRows (d : Line) (j : Nat) : Nat := min 256 (matM d - tileRow0 d j)
def tileCols (d : Line) (j : Nat) : Nat := min 512 (matN d - tileCol0 d j)

/-- The scale array of D and its rows (R68). -/
def cdScaleVa (d : Line) : Nat := matCd d + matM d * matLdcd d
def cdScaleRow (d : Line) : Nat := pad64 (cdiv (matN d) 32)

/-- A descriptor breaks R69. -/
def matBad (d : Line) : Bool :=
  let p := outPar d
  let fa := matFa d
  let fb := matFb d
  let a := matA d
  let b := matB d
  let rowA := rowBytes fa (if a.tr then matM d else matK d)
  let rowB := rowBytes fb (if b.tr then matN d else if matSparse d then 2 * cdiv (matK d) 4 else matK d)
  bits d 127 125 != 0 || bits d 191 190 != 0 || bits d 255 252 != 0 || bits d 319 316 != 0 || bits d 375 373 != 0 ||
  bits d 511 500 != 0 || (fmtOf p.fcd).isNone || !pairOk fa fb || p.round == 3 ||
  (matSparse d && (fa == 0xA || b.tr)) || (p.oscale && !isMx p.fcd) ||
  a.va % 64 != 0 || b.va % 64 != 0 || matCd d % 64 != 0 ||
  (matM d != 0 && matK d != 0 && decide (a.ld < rowA)) || (matN d != 0 && matK d != 0 && decide (b.ld < rowB)) ||
  (matM d != 0 && matN d != 0 && decide (matLdcd d < rowBytes p.fcd (matN d)))

/-- The array clocks of one output tile by the formula of R75 (R77). -/
def tileClocks (d : Line) : Nat :=
  let m := min (matM d) 256
  let f := kGroup (matFa d) (matFb d) * fmtBits (matFb d) / 4
  let pm := m * (if matFa d = 0xA then 3 else 1)
  if matSets d = 0 then m + 40 else f + (matSets d - 1) * max pm f + pm + m + 40

/-- A descriptor runs on the matrix-vector path (R78, R79). -/
def State.mvpOk (s : State) (n : Nat) (d : Line) : Bool :=
  bitAt d 371 && s.flag (ARR_CFG n) ARR_CFG_MVP_EN && matFa d != 0xA && !matSparse d &&
  decide (1 ≤ min (matM d) (matN d)) && decide (min (matM d) (matN d) ≤ 8)

/-! ### Ending a descriptor -/

/-- The statuses of spec/03 and spec/05. -/
abbrev stMatMalformed : Nat := 0x30
abbrev stMatFault : Nat := 0x31
abbrev stMatPoison : Nat := 0x32
abbrev stMatGuard : Nat := 0x33
abbrev stMatEpoch : Nat := 0x34
abbrev stMatRescaled : Nat := 0x35
abbrev stMatResidual : Nat := 0x36

/-- The rank of an outcome: MAT_FAULT and MAT_GUARD before those of R117. -/
def matRank (st : Nat) : Nat :=
  match st with
  | 0x31 => 5
  | 0x33 => 4
  | 0x32 => 3
  | 0x36 => 2
  | 0x35 => 1
  | _    => 0

/-- The worst matrix outcome since TAKE (R193). -/
def State.worse (s : State) (n st : Nat) : State :=
  let t := s.tile n
  if matRank t.seq.worst < matRank st then s.setTile n { t with seq := { t.seq with worst := st } } else s

/-- A matrix descriptor leaves the tile: what the sequencer held, or what was offered to it, or the job's own. -/
def State.matDrop (s : State) (n : Nat) (w : Work) : State :=
  let t := s.tile n
  if t.seq.held = some w then s.release n
  else if t.offered = some w then s.setTile n { t with offered := none }
  else s.setTile n { t with mat := none }

/-- A matrix descriptor completes (R117). -/
def State.matEnd (s : State) (n : Nat) (w : Work) (pos status : Nat) : State :=
  ((s.worse n status).matDrop n w).tileDone n w pos status 0

/-- The outcome a job reports (R117). -/
def MatJob.outcome (j : MatJob) : Nat :=
  if j.poison then stMatPoison else if j.residual then stMatResidual else if j.rescaled then stMatRescaled else 0

/-- A job whose last output tile has retired completes; its multiply-accumulates are counted. -/
def State.matFinish (s : State) (n : Nat) (j : MatJob) : State :=
  let d := j.work.desc
  let s1 := s.wrap (ARR_MACS n) ARR_MACS_COUNT (matM d * matN d * matK d)
  let s2 := if matK d = 0 then s1.wrap (ARR_STAT n) ARR_STAT_DESC_EMPTY 1 else s1
  (s2.matEnd n j.work j.pos j.outcome).seqFaultEnd n

/-- A job stops at the output tile in progress (R85, R204); an earlier one that has not retired is dropped unwritten with it (DESIGN
CHOICE, log 77). -/
def State.matStopAt (s : State) (n : Nat) (j : MatJob) (status : Nat) : State :=
  let t := s.tile n
  let s1 := s.setTile n { t with outs := t.outs.filter (fun o => o.cmd.isSome), matStop := t.matStop || status == stMatFault }
  let s2 := if status = stMatFault then s1.bump (ARR_ERR n) ARR_ERR_FAULT else s1.bump (ARR_ERR n) ARR_ERR_GUARD
  ((s2.matEnd n j.work j.pos status).seqWake n).seqFaultEnd n

/-! ### MATRIX (R69, R72, R73, R77, R79) -/

/-- The matrix descriptor a tile may start: the one its sequencer holds, or the one offered to it. -/
def State.matSrc (s : State) (n : Nat) : Option (Work × Nat) :=
  let t := s.tile n
  let mine (w : Work) : Bool := bits w.desc 7 0 == 0x10
  match t.seq.held with
  | some w => if mine w then some (w, t.seq.pos) else none
  | none   => match t.offered with
    | some w => if mine w then some (w, t.pos) else none
    | none   => none

/-- The job of a descriptor. -/
def newJob (w : Work) (pos : Nat) (path : MatPath) : MatJob :=
  { work := w, pos := pos, path := path, ot := 0, set := 0, active := none, filling := none, retired := 0, poison := false,
    residual := false, rescaled := false }

/-- A job placed on the tile; a descriptor that was only offered is taken. -/
def State.setJob (s : State) (n : Nat) (j : MatJob) : State :=
  let t := s.tile n
  s.setTile n { t with mat := some j, offered := if t.offered = some j.work then none else t.offered }

/-- MATRIX. -/
def execMatrix (n : TileId) (s : State) : Host.Outcome State Fault Refusal :=
  let t := s.tile n.val
  if (s.tst n.val ≠ tsReady ∧ s.tst n.val ≠ tsBusy) ∨ t.mat.isSome ∨ t.outs ≠ [] ∨ (s.haltNow n.val ∧ t.seq.held = none) then .next s else
  match s.matSrc n.val with
  | none => .next s
  | some (w, pos) =>
    let d := w.desc
    if matBad d then .next ((s.bump (ARR_ERR n) ARR_ERR_MALFORMED).matEnd n.val w pos stMatMalformed)
    else if matM d = 0 ∨ matN d = 0 then
      .next ((s.wrap (ARR_STAT n) ARR_STAT_DESC_EMPTY 1).matEnd n.val w pos stServed)
    else if s.resil ∧ 150000 < tileClocks d then .next (s.matEnd n.val w pos stMatEpoch)
    else if matK d = 0 then .next (s.setJob n.val (newJob w pos .edge))
    else if s.mvpOk n.val d then
      .next ((s.wrap (ARR_STAT n) ARR_STAT_DESC_MVP 1).setJob n.val (newJob w pos .mvp))
    else .next ((s.wrap (ARR_STAT n) ARR_STAT_DESC_ARRAY 1).setJob n.val (newJob w pos .clover))

/-! ### Weight fills and sets (R63, R64) -/

/-- The process ID of a job. -/
def State.jobPasid (s : State) (j : MatJob) : Nat := s.pasidOf j.work

/-- The output tile and set after (j, k). -/
def nextSet (d : Line) (ot set : Nat) : Nat × Nat := if set + 1 < matSets d then (ot, set + 1) else (ot + 1, 0)

/-- A fill of a job: the active half when it is empty, else the other half for the next set. -/
def State.jobFill (s : State) (n : Nat) (j : MatJob) : State :=
  let d := j.work.desc
  let tgt := if j.active.isNone then (j.ot, j.set) else nextSet d j.ot j.set
  if (j.active.isSome ∧ j.filling.isSome) ∨ matTiles d ≤ tgt.1 then s else
  match s.readBlock (tileDie n) (s.jobPasid j) (matB d) (matSparse d) (tileCol0 d tgt.1) (tileCols d tgt.1)
      (tgt.2 * matSpan d) (matSpan d) with
  | (_, none, false)  => s
  | (s1, none, true)  => s1.matStopAt n j stMatFault
  | (s1, some b, _)   =>
    s1.setJob n (if j.active.isNone then { j with active := some b } else { j with filling := some b })

/-- Array a of a clover command is in use for a column (R192). -/
def cmdUses (c : Line) (col : Nat) : Bool := bits c (16 + col / 128) (16 + col / 128) == 1

/-- Some run of a tile store that is used, an offset and a length, has a poisoned line. -/
def State.tsAnyPois (s : State) (n : Nat) (runs : List (Nat × Nat)) : Bool :=
  runs.any (fun r => r.2 != 0 && s.tsPois n r.1 r.2)

/-- The runs of a staged row that hold its first klen elements and their scales. -/
def rowRuns (c span klen off : Nat) : List (Nat × Nat) :=
  [(off, rowBytes c klen), (off + rowBytes c span, if isMx c then cdiv klen 32 else 0)]

/-- The runs of a staged weight block that a column's first klen positions use: elements, scales, metadata (R86, R192). -/
def colRuns (fa fb : Nat) (sparse : Bool) (klen off col : Nat) : List (Nat × Nat) :=
  let span := (if sparse then 2 else 1) * kGroup fa fb
  let cb := rowBytes fb (kGroup fa fb)
  let d := off + stagedData fa fb
  [(off + col * cb, rowBytes fb (if sparse then 2 * cdiv klen 4 else klen)),
   (d + col * (span / 32), if isMx fb then cdiv klen 32 else 0),
   (d + stagedScale fb span + col * (span / 8), if sparse then cdiv (cdiv klen 4) 2 else 0)]

/-- The weight block of a clover command read from the tile store; only lines of columns in use make it poisoned (R86). -/
def State.cmdFill (s : State) (n : Nat) (c : Line) : WBlk :=
  let fa := cmdFa c
  let fb := cmdFb c
  let span := cmdSpan c
  let len := stagedData fa fb + stagedScale fb span + stagedMeta (cmdSparse c) span
  let blk := s.tsBytes n (cmdWgt c) len
  { cols := (List.range (cmdCols c)).map (stagedCol fa fb (cmdSparse c) (cmdKlen c) blk),
    poison := s.tsAnyPois n (((List.range (cmdCols c)).filter (cmdUses c)).flatMap
      (colRuns fa fb (cmdSparse c) (cmdKlen c) (cmdWgt c))) }

/-- WEIGHT_FILL_COMPLETE: the active half, or else the filling half for the set after it (R63). -/
def execWeightFillComplete (n : TileId) (s : State) : Host.Outcome State Fault Refusal :=
  let t := s.tile n.val
  match t.mat with
  | some j => if j.path = .clover then .next (s.jobFill n.val j) else .next s
  | none   => match t.clv, t.wblk with
    | c :: _, none          => .next (s.setTile n.val { t with wblk := some (s.cmdFill n.val c) })
    | _ :: c :: _, some _ => if t.wnext.isSome then .next s
                             else .next (s.setTile n.val { t with wnext := some (s.cmdFill n.val c) })
    | _, _                  => .next s

/-- Output tiles that will have retired when one that starts now in a bank does: those retired, and those in another bank.  Tiles of
matrix-vector commands of a descriptor already counted are no more (R119). -/
def State.tileIdx (s : State) (n bank : Nat) : Nat :=
  let t := s.tile n
  let counts (b : Nat) : Bool := b != bank && !(b == 2 && t.seq.mvCounted)
  t.rc + (t.outs.filter (fun o => counts o.bank)).length + (t.banks.filter (fun p => p.2.live && counts p.1)).length

/-- The sample of an output tile that starts now, when Loupe samples it (R119, R120).  Of a descriptor's matrix-vector commands only the
first output tile is sampled (DESIGN CHOICE, log 77). -/
def State.newSamp (s : State) (n bank rows cols : Nat) : Option Samp :=
  let die := tileDie n
  let idx := s.tileIdx n bank
  let rate := s.rd (LOU_CFG die) LOU_CFG_RATE
  let num := idx / 2 ^ rate
  let r := srRandom (s.rd (LOU_CFG die) LOU_CFG_SEED) (n * 2 ^ 32 + num)
  let col := 8 * ((r / 65536) % cdiv cols 8)
  if s.flag (LOU_CFG die) LOU_CFG_EN && (idx + n) % 2 ^ rate == 0 && !(bank == 2 && (s.tile n).seq.mvCounted) then
    some { num := num, row := r % rows, col := col, ops := List.replicate (min 8 (cols - col)) ([], []), cs := [] }
  else none

/-- An output tile that starts at zero sums, with its sample (R70). -/
def State.newTile (s : State) (n bank rows cols row0 col0 : Nat) (cmd : Option Line) : OutTile :=
  { bank := bank, rows := rows, cols := cols, row0 := row0, col0 := col0, acc := List.replicate (rows * cols) V.zero,
    poison := false, codes := [], trial := 0, data := [], scales := [], cnt := .zero, residual := 0, phase := .acc,
    cmd := cmd, samp := s.newSamp n bank rows cols, desc := none, k := 0 }

/-- Operand pairs in ascending k: a kept weight beside its activation, a pruned position beside zero (R121, R123). -/
def patchOps (fa fb : Nat) (a : Seg) (w : List (List Nat) × List Nat) : List (V × V) :=
  (List.range a.xs.length).flatMap (fun i =>
    let av := if isMx fa then mxValue fa (a.xs.getD i 0) (a.sc.getD (i / 32) 127) else decElem fa (a.xs.getD i 0)
    match w.1.getD i [] with
    | [] => [(av, V.zero)]
    | ws => ws.map (fun x => (av, if isMx fb then mxValue fb x (w.2.getD (i / 32) 127) else decElem fb x)))

/-- A set's operands joined to a sample. -/
def Samp.grow (x : Samp) (fa fb : Nat) (rows : List Seg) (cols : List (List (List Nat) × List Nat)) : Samp :=
  let a := rows.getD x.row { xs := [], sc := [] }
  { x with ops := (List.range x.ops.length).map (fun i =>
      let o := x.ops.getD i ([], [])
      let ps := patchOps fa fb a (cols.getD (x.col + i) ([], []))
      (o.1 ++ ps.map (·.1), o.2 ++ ps.map (·.2))) }

/-- A set of len reduction positions added to an output tile. -/
def OutTile.addSet (o : OutTile) (fa fb : Nat) (rows : List Seg) (b : WBlk) (p : Bool) (len : Nat) : OutTile :=
  { o with acc := Machine.addSet fa fb o.acc rows b.cols, poison := o.poison || b.poison || p, k := o.k + len,
           samp := o.samp.map (fun x => x.grow fa fb rows b.cols) }

/-- The list of output tiles with the one in a bank replaced, or added. -/
def putOut (outs : List OutTile) (o : OutTile) : List OutTile :=
  if outs.any (fun x => x.bank == o.bank) then outs.map (fun x => if x.bank = o.bank then o else x) else outs ++ [o]

/-- A set of a job: its rows are streamed against the active half, and the halves swap (R63, R64). -/
def State.jobSet (s : State) (n : Nat) (j : MatJob) : State :=
  let d := j.work.desc
  let t := s.tile n
  match j.active with
  | none   => s
  | some b =>
    if matTiles d ≤ j.ot ∨ (j.set = 0 ∧ t.outs.any (fun o => o.bank == j.ot % 2)) then s else
    match s.readSegs (tileDie n) (s.jobPasid j) (matA d) (tileRow0 d j.ot) (tileRows d j.ot) (j.set * matSpan d) (matSpan d) with
    | (_, .wait)  => s
    | (s1, .stop) => s1.matStopAt n j stMatFault
    | (s1, .ok rows p) =>
      let o0 := if j.set = 0 then
          s1.newTile n (j.ot % 2) (tileRows d j.ot) (tileCols d j.ot) (tileRow0 d j.ot) (tileCol0 d j.ot) none
        else (t.outs.find? (fun o => o.bank == j.ot % 2)).getD
          (s1.newTile n (j.ot % 2) (tileRows d j.ot) (tileCols d j.ot) (tileRow0 d j.ot) (tileCol0 d j.ot) none)
      let o1 := o0.addSet (matFa d) (matFb d) rows b p (min (matSpan d) (matK d - j.set * matSpan d))
      let o2 := if j.set + 1 = matSets d then { o1 with phase := .wait } else o1
      let nx := nextSet d j.ot j.set
      let t1 := s1.tile n
      s1.setTile n { t1 with outs := putOut t1.outs o2,
                             mat := some { j with ot := nx.1, set := nx.2, active := j.filling, filling := none } }

/-- A bank's sum at a row and column. -/
def Bank.at (b : Bank) (i j : Nat) : V := if i < b.rows ∧ j < b.cols then b.acc.getD (i * b.cols + j) V.zero else V.zero

/-- The first rows and columns of a bank, row by row. -/
def Bank.part (b : Bank) (rows cols : Nat) : List V :=
  (List.range rows).flatMap (fun i => (List.range cols).map (fun j => b.at i j))

/-- The first rows and columns of a bank replaced; the rest keeps its sums. -/
def Bank.put (b : Bank) (rows cols : Nat) (acc : List V) : Bank :=
  let r := max rows b.rows
  let c := max cols b.cols
  { b with rows := r, cols := c,
           acc := (List.range r).flatMap (fun i => (List.range c).map (fun j =>
             if i < rows ∧ j < cols then acc.getD (i * cols + j) V.zero else b.at i j)) }

/-- Columns of arrays that a command leaves idle keep their sums (R192). -/
def keepIdle (uses : Nat → Bool) (cols : Nat) (old new : List V) : List V :=
  (List.range new.length).map (fun i => if uses (i % cols) then new.getD i V.zero else old.getD i V.zero)

/-- A set of a command added to its bank, which only FIRST clears; LAST makes an output tile of it that waits for its drain (R192, R193).
An output tile that starts on sums left in its bank is not sampled (DESIGN CHOICE, log 77). -/
def State.bankSet (s : State) (n bank : Nat) (c : Line) (rows : List Seg) (b : WBlk) (pois : Bool) (uses : Nat → Bool) : State :=
  let t := s.tile n
  let b0 := if cmdFirst c then Bank.zero else mget Bank.zero t.banks bank
  let o0 := s.newTile n bank (cmdRows c) (cmdCols c) (cmdRow0 c) (cmdCol0 c) (some c)
  let o1 := { o0 with acc := b0.part (cmdRows c) (cmdCols c), poison := b0.poison, k := b0.k,
                      samp := if b0.live then b0.samp else if b0.k = 0 then o0.samp else none }
  let o2 := o1.addSet (cmdFa c) (cmdFb c) rows b pois (cmdKlen c)
  let acc := keepIdle uses (cmdCols c) o1.acc o2.acc
  let b1 := { b0.put (cmdRows c) (cmdCols c) acc with
                poison := o2.poison, k := o2.k, samp := if cmdLast c then none else o2.samp, live := !cmdLast c }
  s.setTile n { t with banks := mset Bank.zero t.banks bank b1,
                       outs := if cmdLast c then t.outs ++ [{ o2 with acc := acc, phase := .wait }] else t.outs }

/-- A bank is held: an output tile in it has not retired (R65). -/
def State.bankHeld (s : State) (n bank : Nat) : Bool := (s.tile n).outs.any (fun o => o.bank == bank)

/-- A set of the oldest clover command (R192); the halves swap (R63). -/
def State.cmdSet (s : State) (n : Nat) (c : Line) (b : WBlk) (rest : List Line) : State :=
  if s.bankHeld n (cmdBank c) then s else
  let span := cmdSpan c
  let off (i : Nat) : Nat := cmdAct c + i * cmdActStride c
  let rows := (List.range (cmdRows c)).map (fun i =>
    stagedSeg (cmdFa c) span (cmdKlen c) (s.tsBytes n (off i) (stagedRow (cmdFa c) span)))
  let pois := s.tsAnyPois n ((List.range (cmdRows c)).flatMap (fun i => rowRuns (cmdFa c) span (cmdKlen c) (off i)))
  let s1 := s.bankSet n (cmdBank c) c rows b pois (cmdUses c)
  let t := s1.tile n
  ((((s1.setTile n { t with wblk := t.wnext, wnext := none }).setClv n rest).seqWake n).seqFaultEnd n)

/-- SET_COMPLETE (R64). -/
def execSetComplete (n : TileId) (s : State) : Host.Outcome State Fault Refusal :=
  let t := s.tile n.val
  match t.mat with
  | some j => if j.path = .clover then .next (s.jobSet n.val j) else .next s
  | none   => match t.clv, t.wblk with
    | c :: r, some b => .next (s.cmdSet n.val c b r)
    | _, _           => .next s

/-! ### Drains (R65, R70, R72, R206) -/

/-- What reading C gives: its values row by row with the overflows of the input direction. -/
inductive CRes where
  | ok (vs : List V) (cnt : CvtCnt) (poison : Bool)
  | stop
  | wait
  deriving DecidableEq, Repr

/-- A stored element of C in the accumulator type (R70, R107, R108). -/
def cValue (fa fcd x sc : Nat) : V × CvtCnt :=
  if isMx fcd then (if isMx fa then (mxValue fcd x sc, .zero) else inConv fB32 (mxValue fcd x sc))
  else (decElem fcd x, .zero)

/-- The values of C from its encodings and scale codes, row by row. -/
def cValues (fa fcd cols : Nat) (runs scs : List (List Nat)) : List V × CvtCnt :=
  let vs := (List.range runs.length).flatMap (fun i => (List.range cols).map (fun k =>
    cValue fa fcd ((runs.getD i []).getD k 0) ((scs.getD i []).getD (k / 32) 127)))
  (vs.map (·.1), vs.foldl (fun a x => a.add x.2) .zero)

/-- C of a range of D read from memory. -/
def State.readC (s : State) (n : Nat) (j : MatJob) (row0 rows col0 cols : Nat) : State × CRes :=
  let d := j.work.desc
  let p := outPar d
  if ¬ p.readsC then (s, .ok [] .zero false) else
  let dq := (List.range rows).map (fun i =>
    ({ va := matCd d + (row0 + i) * matLdcd d, b := fmtBits p.fcd, i0 := col0, n := cols } : Req))
  let sq := if isMx p.fcd then (List.range rows).map (fun i =>
      ({ va := cdScaleVa d + (row0 + i) * cdScaleRow d, b := 8, i0 := col0 / 32, n := cdiv cols 32 } : Req)) else []
  match s.gather (tileDie n) (s.jobPasid j) (dq ++ sq) with
  | (s1, .ok runs ps) =>
    let r := cValues (matFa d) p.fcd cols (runs.take rows) (runs.drop rows)
    (s1, .ok r.1 r.2 ps)
  | (_, .wait)  => (s, .wait)
  | (s1, .stop) => (s1, .stop)

/-- C of a command read from the tile store in FMT_CD layout. -/
def State.cmdReadC (s : State) (n : Nat) (c d : Line) : List V × CvtCnt × Bool :=
  let p := outPar d
  if ¬ p.readsC then ([], .zero, false) else
  let rows := cmdRows c
  let cols := cmdCols c
  let st := cmdDstStride c
  let run (i : Nat) : List Nat := elemsFrom (fmtBits p.fcd) 0 (s.tsBytes n (cmdC c + i * st) (rowBytes p.fcd cols)) cols
  let sc (i : Nat) : List Nat := if isMx p.fcd then
      elemsFrom 8 0 (s.tsBytes n (cmdC c + rows * st + i * pad64 (cdiv cols 32)) (cdiv cols 32)) (cdiv cols 32) else []
  let r := cValues (cmdFa c) p.fcd cols ((List.range rows).map run) ((List.range rows).map sc)
  (r.1, r.2, s.tsAnyPois n ((List.range rows).flatMap (fun i =>
    [(cmdC c + i * st, rowBytes p.fcd cols),
     (cmdC c + rows * st + i * pad64 (cdiv cols 32), if isMx p.fcd then cdiv cols 32 else 0)])))

/-- The first converted line of an in-place output tile is written: a tile fault now cannot be replayed (R206). -/
def State.noReplay (s : State) (n : Nat) (p : OutPar) : State :=
  if s.resil ∧ p.readsC then s.wr (EPO_STAT n) EPO_STAT_NOREPLAY 1 else s

/-- No other drain may start: an output tile drains, its trials have not ended, or it has replayed and not retired (R65, R116). -/
def draining (outs : List OutTile) : Bool :=
  outs.any (fun o => o.phase == .drain || (o.phase == .conv && (o.data == [] || o.trial != 0)))

/-- The values of an output tile to convert. -/
def drainVals (p : OutPar) (fa : Nat) (acc cs : List V) : List V :=
  (List.range acc.length).map (fun i => p.value fa (acc.getD i V.zero) (cs.getD i V.zero))

/-- The part of C that a sample takes: the values its drain used (R121). -/
def Samp.takeC (x : Samp) (cols : Nat) (cs : List V) : Samp :=
  { x with cs := (List.range x.ops.length).map (fun q => cs.getD (x.row * cols + x.col + q) V.zero) }

/-- What a bank holds once a descriptor's output tile drains from it: its sums. -/
def OutTile.bankOf (o : OutTile) : Bank :=
  { rows := o.rows, cols := o.cols, acc := o.acc, poison := o.poison, k := o.k, samp := none, live := false }

/-- An output tile starts to drain with the values to convert, the C values they took, and the matrix descriptor whose output parameters
hold until it retires (R109). -/
def State.setDrain (s : State) (n : Nat) (o : OutTile) (d : Option Line) (vs cs : List V) (cnt : CvtCnt) (pois : Bool) : State :=
  let t := s.tile n
  s.setTile n { t with banks := if o.cmd.isNone ∧ o.k ≠ 0 then mset Bank.zero t.banks o.bank o.bankOf else t.banks,
                       outs := putOut t.outs { o with acc := vs, cnt := cnt, poison := o.poison || pois, phase := .drain,
                                                      samp := o.samp.map (fun x => x.takeC o.cols cs), desc := d } }

/-- The drain of a job's tile. -/
def State.jobDrain (s : State) (n : Nat) (j : MatJob) (o : OutTile) (edge : Bool) : State :=
  let d := j.work.desc
  let p := outPar d
  match s.readC n j o.row0 o.rows o.col0 o.cols with
  | (_, .wait)  => s
  | (s1, .stop) => s1.matStopAt n j stMatFault
  | (s1, .ok cs cnt pois) =>
    let vs := if edge then (List.range o.acc.length).map (fun i => p.edge (matFa d) (cs.getD i V.zero))
              else drainVals p (matFa d) o.acc cs
    let s2 := s1.setDrain n o (some d) vs cs cnt pois
    if p.oscale then s2 else s2.noReplay n p

/-- The drain of a command's tile; without a held matrix descriptor there are no output parameters to take. -/
def State.cmdDrain (s : State) (n : Nat) (c : Line) (o : OutTile) : State :=
  match s.heldMat n with
  | none   => s.setDrain n o none o.acc [] .zero false
  | some d =>
    let p := outPar d
    let r := s.cmdReadC n c d
    let s1 := s.setDrain n o (some d) (drainVals p (cmdFa c) o.acc r.1) r.1 r.2.1 r.2.2
    if p.oscale then s1 else s1.noReplay n p

/-- DRAIN_START: the oldest output tile that waits starts to drain, once no other drains; with K = 0 output tiles drain one
after the other without sets. -/
def execDrainStart (n : TileId) (s : State) : Host.Outcome State Fault Refusal :=
  let t := s.tile n.val
  if draining t.outs then .next s else
  match t.outs.find? (fun o => o.phase == .wait), t.mat with
  | some o, some j => (match o.cmd with
    | some c => .next (s.cmdDrain n.val c o)
    | none   => .next (s.jobDrain n.val j o false))
  | some o, none => (match o.cmd with
    | some c => .next (s.cmdDrain n.val c o)
    | none   => .next s)
  | none, some j =>
    let d := j.work.desc
    if j.path = .edge ∧ j.ot < matTiles d ∧ ¬ t.outs.any (fun o => o.bank == j.ot % 2) then
      let o := s.newTile n.val (j.ot % 2) (tileRows d j.ot) (tileCols d j.ot) (tileRow0 d j.ot) (tileCol0 d j.ot) none
      let s1 := s.jobDrain n.val j o true
      match (s1.tile n.val).mat with
      | some j1 => if (s1.tile n.val).outs = t.outs then .next s1
                   else .next (s1.setTile n.val { s1.tile n.val with mat := some { j1 with ot := j1.ot + 1 } })
      | none    => .next s1
    else .next s
  | none, none => .next s

/-- The output parameters of an output tile, taken when its drain started (R109). -/
def OutTile.par (o : OutTile) : Option OutPar := o.desc.map outPar

/-- An output tile converted at its codes, with its counts beside those of reading C. -/
def OutTile.converted (o : OutTile) (p : OutPar) (codes : List Nat) : OutTile :=
  let r := convertTile p o.row0 o.col0 o.rows o.cols o.acc codes
  { o with phase := .conv, codes := codes, data := r.data, scales := r.scales, cnt := o.cnt.add r.cnt }

/-- k rows of n free bytes. -/
def State.freeRows (s : State) (n : Nat) : Nat → State × List (List Byte)
  | 0 => (s, [])
  | k + 1 =>
    let a := s.freeRead n
    let b := a.1.freeRows n k
    (b.1, a.2 :: b.2)

/-- DRAIN_COMPLETE: the tile is converted; under OSCALE = 1 its trials follow (R65, R112). -/
def execDrainComplete (n : TileId) (s : State) : Host.Outcome State Fault Refusal :=
  let t := s.tile n.val
  match t.outs.find? (fun o => o.phase == .drain) with
  | none => .next s
  | some o => match o.par with
    | none =>
      let stride := match o.cmd with | some c => cmdDstStride c | none => 64
      let r := s.freeRows stride o.rows
      .next (r.1.setTile n.val { r.1.tile n.val with outs := putOut (r.1.tile n.val).outs { o with phase := .conv, data := r.2 } })
    | some p =>
      let codes := startCodes p o.row0 o.col0 o.rows o.cols o.acc
      let o1 := if p.oscale then { o with phase := .conv, codes := codes, trial := 0, data := [] } else o.converted p codes
      .next (s.setTile n.val { t with outs := putOut t.outs o1 })

/-- The converted lines of a trial are staged in the facet's ACC partition: those of a command at DST_OFF, where they stay; those of a
matrix descriptor from the partition's base (R114; DESIGN CHOICE for the place, log 77). -/
def State.stage (s : State) (n : Nat) (o : OutTile) (p : OutPar) : State :=
  let t := s.tile n
  match o.cmd, firstPart t.parts 3 with
  | none, some q =>
    let r := convertTile p o.row0 o.col0 o.rows o.cols o.acc o.codes
    let bs := ((r.data ++ r.scales).flatMap id).take (q.size * 65536)
    s.tsWrite n (q.base * 65536) bs o.poison
  | _, _ => s

/-- One trial of an output tile under OSCALE = 1: blocks with excess are raised and replay, at most twice, else the trial's
results are final (R113). -/
def OutTile.trialStep (o : OutTile) (p : OutPar) : OutTile :=
  let ex := excesses p o.row0 o.col0 o.rows o.cols o.acc o.codes
  if o.trial < 2 ∧ ex.any (· != 0) then { o with codes := raiseCodes o.codes ex, trial := o.trial + 1 }
  else { o.converted p o.codes with residual := residuals p o.row0 o.col0 o.rows o.cols o.acc o.codes }

/-- CONVERSION_TRIAL: a trial ends, its lines staged; a replay's clocks are counted (R113, R114, R116). -/
def execConversionTrial (n : TileId) (s : State) : Host.Outcome State Fault Refusal :=
  let t := s.tile n.val
  match t.outs.find? (fun o => o.phase == .conv && o.data == []) with
  | none => .next s
  | some o => match o.par with
    | none   => .next s
    | some p =>
      let o1 := o.trialStep p
      let s0 := s.stage n.val o p
      let s1 := s0.setTile n.val { s0.tile n.val with outs := putOut t.outs o1 }
      if o1.data = [] then .next (s1.wrap (ARR_RPL_CLK n) ARR_RPL_CLK_CLOCKS (if o.bank = 2 then 8 else o.rows + 16))
      else .next (s1.noReplay n.val p)

/-! ### Patches for Loupe (R120, R121) -/

/-- The value at a place of a converted tile, as it was written. -/
def writtenVal (p : OutPar) (o : OutTile) (i k : Nat) : V :=
  let x := (elemsFrom (fmtBits p.fcd) 0 (o.data.getD i []) o.cols).getD k 0
  if isMx p.fcd then mxValue p.fcd x ((o.scales.getD i []).getD (k / 32) 0).toNat else decElem p.fcd x

/-- The exponent of the ulp of a value in a format at a scale (R94, R123). -/
def ulpExp (f : Fmt) (sh : Int) (v : V) : Int :=
  if f.int8 then sh - 6 else
  match v with
  | .fin _ m e => if m = 0 then f.emin - f.p + 1 + sh else max (ilog m e - sh) f.emin - f.p + 1 + sh
  | _ => f.emin - f.p + 1 + sh

/-- One element of a patch. -/
def patchEl (p : OutPar) (f : Fmt) (o : OutTile) (x : Samp) (q : Nat) : PatchEl :=
  let k := x.col + q
  let i := x.row * o.cols + k
  let code := if isMx p.fcd then ((o.scales.getD x.row []).getD (k / 32) 0).toNat else 127
  let sh : Int := if isMx p.fcd then (code : Int) - 127 else 0
  let r := srRandom p.seed ((o.row0 + x.row) * 2 ^ 20 + (o.col0 + k))
  let v := o.acc.getD i V.zero
  let beyond := if isMx p.fcd then code != 0xFF && mxOver f (rmodeOf p.round) code v r else
    (match v with
     | .fin _ m e => m != 0 && (let (g, u) := roundMag f (rmodeOf p.round) r m e; f.beyond g u)
     | _ => false)
  let ops := x.ops.getD q ([], [])
  { a := ops.1, b := ops.2, c := x.cs.getD q V.zero, dev := writtenVal p o x.row k, ulpE := ulpExp f sh (writtenVal p o x.row k),
    maxM := f.maxM, maxE := f.maxE + sh, beyond := beyond }

/-- The bytes of a patch (R121): the activation segment and cnt weight columns of k positions with their MX scales, c_in and D. -/
def patchBytes (fa fb : Nat) (sparse : Bool) (k cnt fcd : Nat) : Nat :=
  let sc (f : Nat) : Nat := if isMx f then cdiv k 32 else 0
  rowBytes fa k + sc fa + cnt * (rowBytes fb (if sparse then 2 * cdiv k 4 else k) + sc fb) + 2 * rowBytes fcd cnt

/-- A sampled tile's patch handed to its die's Loupe, with the formats of its operands. -/
def State.offerPatch (s : State) (n : Nat) (d : Line) (fa fb : Nat) (sparse : Bool) (o : OutTile) : State :=
  let p := outPar d
  match o.samp, fmtOf p.fcd with
  | some x, some f =>
    let pt : Patch := { tile := n, sample := x.num, desc := d, fa := fa, k := o.k,
                        bytes := patchBytes fa fb sparse o.k x.ops.length p.fcd, row := o.row0 + x.row, col := o.col0 + x.col,
                        els := (List.range x.ops.length).map (patchEl p f o x), poison := o.poison }
    let l := mget LouSt.reset s.loupe (tileDie n)
    { s with loupe := mset LouSt.reset s.loupe (tileDie n) { l with offered := l.offered ++ [pt] } }
  | _, _ => s

/-! ### Retirement (R65, R86, R106, R111, R118) -/

/-- A row that cannot be written: in a guard range, or its write fails; with the state the failure leaves. -/
def State.rowFails (s : State) (n pasid : Nat) (poison : Bool) (r : Nat × List Byte) : Option (State × Nat) :=
  if s.guarded n r.1 r.2.length then some (s, stMatGuard) else
  match s.vwrite (tileDie n) pasid r.1 r.2 poison with
  | (_, .ok) => none
  | (s1, _)  => some (s1, stMatFault)

/-- Rows written to memory, all or none: a row in a guard range or one whose write fails leaves every row unwritten (R85, R204). -/
def State.putRows (s : State) (n pasid : Nat) (poison : Bool) (rs : List (Nat × List Byte)) : State × Option Nat :=
  match rs.findSome? (s.rowFails n pasid poison) with
  | some (s1, st) => (s1, some st)
  | none => (rs.foldl (fun t r => (t.vwrite (tileDie n) pasid r.1 r.2 poison).1) s, none)

/-- The rows of D that an output tile of a job writes: data, then scales, the last column group padding its scale row. -/
def outRows (d : Line) (o : OutTile) : List (Nat × List Byte) :=
  let p := outPar d
  let last : Bool := decide (matN d ≤ o.col0 + o.cols)
  let data := (List.range o.rows).map (fun i =>
    (matCd d + (o.row0 + i) * matLdcd d + o.col0 * fmtBits p.fcd / 8, o.data.getD i []))
  let sc := if isMx p.fcd then (List.range o.rows).map (fun i =>
      let bs := o.scales.getD i []
      (cdScaleVa d + (o.row0 + i) * cdScaleRow d + o.col0 / 32,
       if last then bs ++ List.replicate (cdScaleRow d - o.col0 / 32 - bs.length) 0 else bs)) else []
  data ++ sc

/-- Every page of some rows has a translation at hand or a fault. -/
def State.rowsReady (s : State) (n pasid : Nat) (rs : List (Nat × List Byte)) : Bool :=
  rs.all (fun r => s.xready (tileDie n) pasid r.1 r.2.length .write)

/-- The counts of a retired output tile: conversions, replays, residual blocks and poison; RC rises, once for all the matrix-vector
commands of a held descriptor (R111, R118, R119). -/
def State.retireCounts (s : State) (n : Nat) (o : OutTile) : State :=
  let a := ARR_OVF n
  let s1 := s.cvtCount n o.cnt
  let s2 := if 1 ≤ o.trial then s1.bump a ARR_OVF_RESCALED else s1
  let s3 := if 2 ≤ o.trial then s2.bump a ARR_OVF_TWICE else s2
  let s4 := s3.bumpBy a ARR_OVF_RESIDUAL_BLK o.residual
  let s5 := if o.poison then s4.bump (ARR_ERR n) ARR_ERR_POISON else s4
  let t := s5.tile n
  if o.bank ≠ 2 ∨ o.cmd.isNone then s5.setTile n { t with rc := t.rc + 1 }
  else if t.seq.mvCounted then s5
  else s5.setTile n { t with rc := t.rc + 1, seq := { t.seq with mvCounted := t.seq.held.isSome } }

/-- A job after one more tile retired. -/
def MatJob.retire (j : MatJob) (o : OutTile) : MatJob :=
  { j with retired := j.retired + 1, poison := j.poison || o.poison, residual := j.residual || o.residual != 0,
           rescaled := j.rescaled || o.trial != 0 }

/-- An output tile of a job retires. -/
def State.jobRetire (s : State) (n : Nat) (j : MatJob) (o : OutTile) : State :=
  let d := j.work.desc
  let rs := outRows d o
  if ¬ s.rowsReady n (s.jobPasid j) rs then s else
  match (s.gapDirty n).putRows n (s.jobPasid j) o.poison rs with
  | (s1, some st) => s1.matStopAt n j st
  | (s1, none) =>
    let s2 := (s1.retireCounts n o).offerPatch n d (matFa d) (matFb d) (matSparse d) o
    let j1 := j.retire o
    let t := s2.tile n
    let s3 := s2.setTile n { t with outs := t.outs.filter (fun x => x.bank != o.bank), mat := some j1 }
    if j1.retired = matTiles d then s3.matFinish n j1 else s3

/-- A row or scale row of a command's output tile meets a guard range (R204). -/
def State.cmdShut (s : State) (n : Nat) (c : Line) (o : OutTile) : Bool :=
  let st := cmdDstStride c
  (List.range o.rows).any (fun i => s.guarded n (cmdDst c + i * st) (o.data.getD i []).length ||
    (o.scales != [] && s.guarded n (cmdDst c + o.rows * st + i * pad64 (cdiv o.cols 32)) (pad64 (cdiv o.cols 32))))

/-- A command's output tile that meets a guard range is not written: the outcome is MAT_GUARD (R204). -/
def State.cmdGuard (s : State) (n : Nat) (o : OutTile) : State :=
  let s1 := s.bump (ARR_ERR n) ARR_ERR_GUARD
  let t := s1.tile n
  (((s1.setTile n { t with outs := t.outs.filter (fun x => x.bank != o.bank) }).worse n stMatGuard).seqWake n).seqFaultEnd n

/-- An output tile of a command retires: its rows go to DST_OFF, or, without output parameters, free bytes do. -/
def State.cmdRetire (s : State) (n : Nat) (c : Line) (o : OutTile) : State :=
  let st := cmdDstStride c
  if s.cmdShut n c o then s.cmdGuard n o else
  let w (u : State) (i : Nat) : State := u.tsWrite n (cmdDst c + i * st) (o.data.getD i []) o.poison
  let s1 := (List.range o.rows).foldl w s
  let pad (bs : List Byte) : List Byte := bs ++ List.replicate (pad64 bs.length - bs.length) 0
  let ws (u : State) (i : Nat) : State :=
    u.tsWrite n (cmdDst c + o.rows * st + i * pad64 (cdiv o.cols 32)) (pad (o.scales.getD i [])) o.poison
  let s2 := if o.scales = [] then s1 else (List.range o.rows).foldl ws s1
  let s3 := s2.retireCounts n o
  let s4 := match o.desc with
    | some d => s3.offerPatch n d (cmdFa c) (cmdFb c) (cmdSparse c) o
    | none   => s3
  let out := if o.poison then stMatPoison else if o.residual ≠ 0 then stMatResidual
             else if o.trial ≠ 0 then stMatRescaled else 0
  let t := s4.tile n
  (((s4.setTile n { t with outs := t.outs.filter (fun x => x.bank != o.bank) }).worse n out).seqWake n).seqFaultEnd n

/-- OUTPUT_TILE_RETIRE: the oldest converted output tile is handed to the write path and its bank is freed (R65). -/
def execOutputTileRetire (n : TileId) (s : State) : Host.Outcome State Fault Refusal :=
  let t := s.tile n.val
  match t.outs.find? (fun o => o.phase == .conv && o.data != []) with
  | none => .next s
  | some o => match o.cmd, t.mat with
    | some c, _      => .next (s.cmdRetire n.val c o)
    | none, some j   => .next (s.jobRetire n.val j o)
    | none, none     => .next s

/-- MAT_FAULT: a translation fault, an error response or an ABSENT answer stops the matrix descriptor (R85). -/
def execMatFault (n : TileId) (s : State) : Host.Outcome State Fault Refusal :=
  match (s.tile n.val).mat with
  | some j => .next (s.matStopAt n.val j stMatFault)
  | none   => .next s

/-! ### The matrix-vector path (R78 to R80, R193) -/

/-- The trials of an output tile to their end (R113). -/
def OutTile.allTrials (o : OutTile) (p : OutPar) : OutTile :=
  let codes := startCodes p o.row0 o.col0 o.rows o.cols o.acc
  if p.oscale then
    (List.range 3).foldl (fun x _ => if x.data = [] then x.trialStep p else x) { o with codes := codes, trial := 0, data := [] }
  else o.converted p codes

/-- A whole descriptor on the matrix-vector path: operands read, summed, converted and written as one output tile. -/
def State.jobMvp (s : State) (n : Nat) (j : MatJob) : State :=
  let d := j.work.desc
  let p := outPar d
  let g := kGroup (matFa d) (matFb d)
  let span := cdiv (matK d) g * g
  match s.readSegs (tileDie n) (s.jobPasid j) (matA d) 0 (matM d) 0 span with
  | (_, .wait)  => s
  | (s1, .stop) => s1.matStopAt n j stMatFault
  | (s1, .ok rows pa) =>
    match s1.readBlock (tileDie n) (s.jobPasid j) (matB d) false 0 (matN d) 0 span with
    | (_, none, false) => s
    | (s2, none, true) => s2.matStopAt n j stMatFault
    | (s2, some b, _)  =>
      match s2.readC n j 0 (matM d) 0 (matN d) with
      | (_, .wait)  => s
      | (s3, .stop) => s3.matStopAt n j stMatFault
      | (s3, .ok cs cnt pc) =>
        let o0 := (s3.newTile n 2 (matM d) (matN d) 0 0 none).addSet (matFa d) (matFb d) rows b (pa || pc) (matK d)
        let o1 : OutTile := { o0 with acc := drainVals p (matFa d) o0.acc cs, cnt := cnt, desc := some d,
                                      samp := o0.samp.map (fun x => x.takeC o0.cols cs) }
        let o := o1.allTrials p
        if ¬ s3.rowsReady n (s.jobPasid j) (outRows d o) then s else
        let s4 := (if p.oscale then s3.stage n o p else s3).wrap (ARR_RPL_CLK n) ARR_RPL_CLK_CLOCKS (8 * o.trial)
        let t := s4.tile n
        (s4.setTile n { t with outs := [], banks := mset Bank.zero t.banks 2 o0.bankOf }).noReplay n p |>.jobRetire n j o

/-- The oldest matrix-vector command: each streamed row against each resident vector (R193). -/
def State.cmdMvp (s : State) (n : Nat) (c : Line) (rest : List Line) : State :=
  if s.bankHeld n 2 then s else
  let span := cmdSpan c
  let act (i : Nat) : Nat := cmdAct c + i * cmdActStride c
  let wgt (i : Nat) : Nat := cmdWgt c + i * stagedRow (cmdFb c) span
  let seg (fmt off : Nat) : Seg := stagedSeg fmt span (cmdKlen c) (s.tsBytes n off (stagedRow fmt span))
  let rows := (List.range (cmdRows c)).map (fun i => seg (cmdFa c) (act i))
  let cols := (List.range (cmdCols c)).map (fun i => denseCol (seg (cmdFb c) (wgt i)))
  let pois := s.tsAnyPois n ((List.range (cmdRows c)).flatMap (fun i => rowRuns (cmdFa c) span (cmdKlen c) (act i)) ++
    (List.range (cmdCols c)).flatMap (fun i => rowRuns (cmdFb c) span (cmdKlen c) (wgt i)))
  let s1 := s.bankSet n 2 c rows { cols := cols, poison := false } pois (fun _ => true)
  (((s1.setTile n { s1.tile n with mvc := rest }).seqWake n).seqFaultEnd n)

/-- MVP_DESCRIPTOR_END: the matrix-vector path finishes the descriptor it runs, or else its oldest command. -/
def execMvpDescriptorEnd (n : TileId) (s : State) : Host.Outcome State Fault Refusal :=
  let t := s.tile n.val
  match t.mat with
  | some j => if j.path = .mvp then .next (s.jobMvp n.val j) else .next s
  | none   => match t.mvc with
    | c :: r => .next (s.cmdMvp n.val c r)
    | []     => .next s

end Sys2Proof.Machine
end

