-- ==== Sys2Proof/Machine/Loupe.lean ====
section
/-!
DEFINITION. Loupe (spec/05, R119 to R127): patches arriving, the check, disagreements, halts and records.

Where the spec leaves open or is read by inference, and what is taken from outside it (DESIGN CHOICE, DEDUCED, PRESUMED):
notes/assumptions/72.md, 77.md.
-/

namespace Sys2Proof.Machine

open Sys2Proof

def State.lou (s : State) (d : Nat) : LouSt := mget LouSt.reset s.loupe d
def State.setLou (s : State) (d : Nat) (l : LouSt) : State := { s with loupe := mset LouSt.reset s.loupe d l }

/-! ### The check (R123) -/

/-- a · b + c with one rounding to binary32, nearest even. -/
def fmaV (a b c : V) : V :=
  match a, b, c with
  | .fin n1 m1 e1, .fin n2 m2 e2, .fin n3 m3 e3 =>
    let (n, m, e) := dyAdd (n1 != n2) (m1 * m2) (e1 + e2) n3 m3 e3
    accRound fB32 n m e
  | .fin n1 _ _, .fin n2 _ _, c => let _ := n1; let _ := n2; c
  | a, b, c => accAdd fB32 (accMul fB32 a b) c

def V.absV : V → V
  | .fin _ m e => .fin false m e
  | .inf _ => .inf false
  | v => v

/-- The sum of products in ascending k. -/
def fmaSum : V → List V → List V → V
  | acc, a :: as, b :: bs => fmaSum (fmaV a b acc) as bs
  | acc, _, _ => acc

/-- v_chk, or with absolute values S, of a patch element: the α term, then the β term, each one fused operation (DESIGN CHOICE, log 77);
with K = 0 α is not used (R72). -/
def patchVal (pt : Patch) (x : PatchEl) (mag : Bool) : V :=
  let p := outPar pt.desc
  let f (v : V) : V := if mag then v.absV else v
  let sum := fmaSum V.zero (x.a.map f) (x.b.map f)
  let t := if pt.k = 0 then V.zero else fmaV (f (decIeee fB32 p.alpha)) sum V.zero
  if p.readsC then fmaV (f (decIeee fB32 p.beta)) (f x.c) t else t

/-- The bound of R123 as an exact dyadic number; none when S is not finite. -/
def patchBound (pt : Patch) (x : PatchEl) : Option (Nat × Int) :=
  let p := outPar pt.desc
  match patchVal pt x true with
  | .fin _ m e =>
    let pacc : Int := if isMx pt.fa then 40 else 24
    let L := cdiv pt.k 32 + 8
    let phi : Nat := if pt.fa = 0xA then 1 else 0
    let base : Int := -63
    let c := scaleTo L (1 - pacc) base + scaleTo pt.k (-23) base + scaleTo phi (-14) base
    let s := dyAdd false (m * c) (e + base) false (if p.round = 0 then 1 else 2) (x.ulpE - 1)
    some (s.2.1, s.2.2)
  | _ => none

/-- A patch element agrees (R123). -/
def patchAgrees (pt : Patch) (x : PatchEl) : Bool :=
  let v := patchVal pt x false
  let big : Bool := match v with
    | .inf _ => true
    | .fin _ m e => !(magLe m e x.maxM x.maxE)
    | .nan _ _ => false
  match x.dev, v with
  | .nan _ _, .nan _ _ => true
  | .inf a, .inf b => a == b || (x.beyond && big)
  | .fin n1 m1 e1, .fin n2 m2 e2 =>
    if x.beyond && big then true else
    (match patchBound pt x with
     | none => true
     | some (bm, be) =>
       let (_, m, e) := dyAdd n1 m1 e1 (!n2) m2 e2
       magLe m e bm be)
  | _, _ => x.beyond && big

/-! ### Disagreements (R123, R127) -/

/-- Field i of 16 bits of a register of four counters. -/
def quarter (i : Nat) : Fld := { hi := 16 * i + 15, lo := 16 * i }

/-- The disagreement record of element k of a patch. -/
def disRecord (s : State) (pt : Patch) (x : PatchEl) (k : Nat) : List Word :=
  let d := pt.desc
  let p := outPar d
  let w0 := pt.tile + 2 ^ 7 + bits d 487 480 * 2 ^ 8 + p.fcd * 2 ^ 16 + p.round * 2 ^ 20 + b2n p.sat * 2 ^ 22 +
    (pt.row % 2 ^ 20) * 2 ^ 24 + ((pt.col + k) % 2 ^ 20) * 2 ^ 44
  let bound : V := match patchBound pt x with
    | some (m, e) => accRound fB32 false m e
    | none => .inf false
  [BitVec.ofNat 64 w0, BitVec.ofNat 64 (toB32 x.dev + toB32 (patchVal pt x false) * 2 ^ 32),
   BitVec.ofNat 64 (toB32 bound + (pt.sample % 2 ^ 32) * 2 ^ 32), BitVec.ofNat 64 s.life]

/-- The record registers and REC_CNT follow the records (R127). -/
def State.louRecs (s : State) (d : Nat) : State :=
  let rs := (s.lou d).recs
  let top := rs.headD []
  ((List.range 4).foldl (fun t i => t.setReg (LOU_REC d i) (top.getD i 0)) s).wr (LOU_STAT2 d) LOU_STAT2_REC_CNT rs.length

/-- Tiles halted by a Loupe; HALTED follows (R125). -/
def State.louHalt (s : State) (d : Nat) (tiles : List Nat) : State :=
  let l := s.lou d
  let all := tiles.foldl addOnce l.halted
  (s.setLou d { l with halted := all }).wr (LOU_STAT2 d) LOU_STAT2_HALTED (b2n (all != []))

/-- The action at the threshold (R124, R125). -/
def State.louAct (s : State) (d : Nat) (pt : Patch) (dr : List Word) : State :=
  let act := s.rd (LOU_CFG d) LOU_CFG_ACTION
  let th := max 1 (s.rd (LOU_CFG d) LOU_CFG_THRESH)
  if (act ≠ 1 ∧ act ≠ 2) ∨ (s.lou d).count % th ≠ 0 then s else
  let s1 := (s.event 0x06 0 d pt.tile (bits pt.desc 487 480)).psc 2 (dr.getD 0 0).toNat (dr.getD 1 0).toNat
  if act = 1 then s1
  else if s.flag (LOU_CFG d) LOU_CFG_SCOPE then
    let s2 := s1.louHalt d ((List.range 48).map (· + 48 * d))
    if s2.craSt 0 = clAbsent then s2 else s2.setLou d { s2.lou d with notice := true }
  else s1.louHalt d [pt.tile]

/-- One disagreement counted, recorded and acted on. -/
def State.disagree (s : State) (d : Nat) (pt : Patch) (x : PatchEl) (k : Nat) : State :=
  let fcd := (outPar pt.desc).fcd
  let tag := bits pt.desc 487 480
  let s1 := ((s.bump (LOU_FMT_CNT d (fcd / 4)) (quarter (fcd % 4))).bump (LOU_TAG_CNT d (tag / 4)) (quarter (tag % 4))).bump
    (LOU_TILE_CNT d (pt.tile % 48 / 4)) (quarter (pt.tile % 4))
  let dr := disRecord s pt x k
  let l := s1.lou d
  let s2 := if l.recs.length < 16 then s1.setLou d { l with recs := l.recs ++ [dr], count := l.count + 1 }
            else (s1.bump (LOU_STAT2 d) LOU_STAT2_REC_LOST).setLou d { l with count := l.count + 1 }
  (s2.louRecs d).louAct d pt dr

/-- The elements of a patch checked in order from k. -/
def State.checkEls (s : State) (d : Nat) (pt : Patch) (k : Nat) : List PatchEl → State
  | [] => s
  | x :: r => (if patchAgrees pt x then s else s.disagree d pt x k).checkEls d pt (k + 1) r

/-! ### The commands -/

/-- Bytes the patch buffer of a Loupe holds (R121). -/
def patchBufBytes : Nat := 0x40000

/-- PATCH_ARRIVE: the oldest patch offered reaches Loupe: dropped while Eyebright holds the checker or while the buffer has
no room, skipped when poisoned, discarded as a repeat, or buffered (R121, R122, R126).  One dropped does not count as having reached
Loupe, and poison is looked for before a repeat (DESIGN CHOICE, log 77). -/
def execPatchArrive (die : DieId) (s : State) : Host.Outcome State Fault Refusal :=
  let d := die.val
  let l := s.lou d
  match l.offered with
  | [] => .next s
  | pt :: r =>
    let s1 := s.setLou d { l with offered := r }
    let key := (pt.tile, pt.sample)
    if s.flag (LOU_STAT2 d) LOU_STAT2_BIST_OWNS then .next (s1.bump (LOU_STAT d) LOU_STAT_DROP_BIST)
    else if patchBufBytes < (l.buf.map (·.bytes)).sum + pt.bytes then .next (s1.bump (LOU_STAT d) LOU_STAT_DROP_BUSY)
    else
      let s2 := s1.setLou d { s1.lou d with seen := addOnce l.seen key }
      if pt.poison then .next (s2.bump (LOU_STAT2 d) LOU_STAT2_SKIP_POISON)
      else if l.seen.contains key then .next (s2.bump (LOU_STAT2 d) LOU_STAT2_REPEAT)
      else .next (s2.setLou d { s2.lou d with buf := (s2.lou d).buf ++ [pt] })

/-- PATCH_CHECK: the patch being checked is done; each disagreement is counted and recorded (R123). -/
def execPatchCheck (die : DieId) (s : State) : Host.Outcome State Fault Refusal :=
  let d := die.val
  let l := s.lou d
  match l.buf with
  | [] => .next s
  | pt :: r =>
    if s.flag (LOU_STAT2 d) LOU_STAT2_BIST_OWNS then .next s else
    .next (((s.setLou d { l with buf := r }).wrap (LOU_STAT d) LOU_STAT_CHECKED 1).checkEls d pt 0 pt.els)

/-- LOUPE_HALT_NOTICE: the Loupe of this die is told to halt every tile of its die; nothing is told over an ABSENT link 0
(R125).  Those tiles are then halted by this Loupe, whose RESUME releases them (DESIGN CHOICE, log 77). -/
def execLoupeHaltNotice (die : DieId) (s : State) : Host.Outcome State Fault Refusal :=
  let d := die.val
  let o := 1 - d
  if (s.lou o).notice then
    let s1 := s.setLou o { s.lou o with notice := false }
    if s.craSt 0 = clAbsent then .next s1 else .next (s1.louHalt d ((List.range 48).map (· + 48 * d)))
  else .next s

/-- LOU_RESUME: every tile this Loupe halted is released; in lean mode a sequencer that waits at TAKE looks again (R125). -/
def execLouResume (die : DieId) (s : State) : Host.Outcome State Fault Refusal :=
  let d := die.val
  let l := s.lou d
  let s1 := (s.setLou d { l with halted := [] }).wr (LOU_STAT2 d) LOU_STAT2_HALTED 0
  .next (l.halted.foldl (fun t n => t.takeWake n) s1)

/-- LOU_CLEAR: the threshold count becomes zero (R127). -/
def execLouClear (die : DieId) (s : State) : Host.Outcome State Fault Refusal :=
  .next (s.setLou die.val { s.lou die.val with count := 0 })

/-- LOU_POP: the oldest record is removed (R127). -/
def execLouPop (die : DieId) (s : State) : Host.Outcome State Fault Refusal :=
  let d := die.val
  .next ((s.setLou d { s.lou d with recs := (s.lou d).recs.drop 1 }).louRecs d)

/-- Eyebright takes the checker of a die: the patch in progress is abandoned (R126). -/
def State.bistTake (s : State) (d : Nat) : State :=
  let l := s.lou d
  let s1 := if l.buf = [] then s else (s.setLou d { l with buf := l.buf.drop 1 }).bump (LOU_STAT d) LOU_STAT_DROP_BIST
  s1.wr (LOU_STAT2 d) LOU_STAT2_BIST_OWNS 1

/-- Eyebright releases the checker. -/
def State.bistGive (s : State) (d : Nat) : State := s.wr (LOU_STAT2 d) LOU_STAT2_BIST_OWNS 0

end Sys2Proof.Machine
end

