-- ==== Sys2Proof/Machine/Yarrow.lean ====
section
/-!
DEFINITION. Tile faults and sparing (R36 to R39, R199, R217 to R221, R485 to R487, R548), Eyebright (R496 to R500), injection
(R501) and repair (R502, R503).

Where the spec leaves open or is read by inference, and what is taken from outside it (DESIGN CHOICE, DEDUCED, PRESUMED):
notes/assumptions/44.md.
-/

namespace Sys2Proof.Machine

open Sys2Proof

/-! ### Physical tiles (R34 to R36) -/

/-- The C-die and the logical row of a physical tile, and the physical tile of a position. -/
def physDie (p : Nat) : Nat := p / 52
def physRow (p : Nat) : Nat := if p < 52 then p / 13 else 3 - (p - 52) / 13
def physAt (d row col : Nat) : Nat := if d = 0 then 13 * row + (12 - col) else 52 + 13 * (3 - row) + (12 - col)

/-- The physical tile of a logical ID. -/
def State.phys (s : State) (n : Nat) : Nat := s.rd (TIL_MAP n) TIL_MAP_PHYS

/-- A logical ID placed on a physical tile: its place, its die and whether it is a nominal spare (R34). -/
def State.setPhys (s : State) (n p : Nat) : State :=
  (((s.wr (TIL_MAP n) TIL_MAP_PHYS p).wr (TIL_MAP n) TIL_MAP_SPARED (b2n (decide (p % 13 = 0)))).wr
    (TIL_STATUS n) TIL_STATUS_PHYS p).wr (TIL_STATUS n) TIL_STATUS_DIE (physDie p)

/-- The logical ID a physical tile carries. -/
def State.carried (s : State) (p : Nat) : Option Nat := (List.range 96).find? (fun n => s.phys n == p)

/-- A free spare: a good physical tile that carries no logical ID and is not chosen for one (R35, R36). -/
def State.spareFree (s : State) (p : Nat) : Bool :=
  decide (p < 104) && (s.carried p).isNone && !s.yar.isolated.contains p && !s.yar.fuseTiles.contains p &&
  !s.yar.mapping.any (fun m => m.2 == p)

/-- The free spares of a C-die. -/
def State.spares (s : State) (d : Nat) : List Nat := (List.range 104).filter (fun p => physDie p == d && s.spareFree p)

/-- TIL_SPARE brought up to date. -/
def State.refreshSpare (s : State) : State :=
  let act (d : Nat) : Nat := ((List.range 48).filter (fun i => s.tst (48 * d + i) != tsOffline)).length
  (((s.wr TIL_SPARE TIL_SPARE_C0_FREE (s.spares 0).length).wr TIL_SPARE TIL_SPARE_C1_FREE (s.spares 1).length).wr TIL_SPARE
    TIL_SPARE_C0_ACTIVE (act 0)).wr TIL_SPARE TIL_SPARE_C1_ACTIVE (act 1)

/-- The spare that takes the ID of a failed tile: in its own row, else in the closest row, the lower one on a tie (R36). -/
def State.pickSpare (s : State) (p : Nat) : Option Nat :=
  let sp := s.spares (physDie p)
  let dist (r : Nat) : Nat := (r - physRow p) + (physRow p - r)
  let rows := (List.range 4).flatMap (fun k => (List.range 4).filter (fun r => dist r == k))
  rows.findSome? (fun r => sp.find? (fun q => physRow q == r))

/-! ### Eyebright results (R499, R500) -/

/-- Verdicts and causes of R500. -/
abbrev evPass : Nat := 1
abbrev evFail : Nat := 2
abbrev evAborted : Nat := 3
abbrev evRefused : Nat := 4

/-- A result written to an engine's registers with its EB_RESULT event (R494, R500). -/
def State.ebResult (s : State) (e kind index verdict cause cov dur fails repair : Nat) (first : Word) : State :=
  let w0 := kind + (index % 4096) * 2 ^ 4 + verdict * 2 ^ 16 + cause * 2 ^ 19 + cov * 2 ^ 24
  let w1 := dur % 2 ^ 32 + (min fails 0xFFFF) * 2 ^ 32 + repair * 2 ^ 48
  let s1 := (((s.setReg (TST_EB_RES e 0) (BitVec.ofNat 64 w0)).setReg (TST_EB_RES e 1) (BitVec.ofNat 64 w1)).setReg
    (TST_EB_RES e 2) first).setReg (TST_EB_RES e 3) (BitVec.ofNat 64 s.life)
  let s2 := s1.wr (TST_EB_CTL e) TST_EB_CTL_BUSY 0
  s2.event 0x40 (if verdict = evFail then 4 else 0) e index w0

/-- The checker of a C-die is released after a tile test (R498). -/
def State.ebRelease (s : State) (r : EbRun) : State := if r.kind = 1 then s.bistGive (physDie r.index) else s

/-! ### Repairs (R502, R503) -/

/-- The free tile fuse entries of a C-die. -/
def fuseFree (d : Nat) : Fld := if d = 0 then TST_REPAIR_STAT_C0_FUSE_FREE else TST_REPAIR_STAT_C1_FUSE_FREE

/-- A fuse repair of a physical tile queued while an entry is free: the state and whether it was. -/
def State.queueTile (s : State) (p : Nat) : State × Bool :=
  let f := fuseFree (physDie p)
  if s.yar.queued.contains p ∨ s.yar.fuseTiles.contains p then (s, true)
  else if s.rd TST_REPAIR_STAT f = 0 then (s, false) else
  let s1 := { s with yar := { s.yar with queued := s.yar.queued ++ [p] } }
  let s2 := (s1.wr TST_REPAIR_STAT f (s.rd TST_REPAIR_STAT f - 1)).wr TST_REPAIR_STAT TST_REPAIR_STAT_QUEUED
    (s.yar.queued.length + s.yar.queuedWay.length + 1)
  (s2.event 0x41 0 1 p 2, true)

/-- A fuse repair of a way queued while one of the C-die's 16 entries is free. -/
def State.queueWay (s : State) (d w : Nat) : State × Bool :=
  let k := 16 * d + w
  if s.yar.queuedWay.contains k ∨ s.yar.fuseWays.contains k then (s, true)
  else if 16 ≤ ((s.yar.queuedWay ++ s.yar.fuseWays).filter (fun x => x / 16 == d)).length then (s, false) else
  let s1 := { s with yar := { s.yar with queuedWay := s.yar.queuedWay ++ [k] } }
  ((s1.wr TST_REPAIR_STAT TST_REPAIR_STAT_QUEUED (s.yar.queued.length + s.yar.queuedWay.length + 1)).event 0x41 0 2 w 2, true)

/-! ### Tile faults -/

/-- The descriptors a tile holds: its sequencer's, its running matrix descriptor and its kernel's, each once. -/
def Tile.heldWorks (t : Tile) : List Work :=
  (t.seq.held.toList ++ (t.mat.map (·.work)).toList ++ (t.kern.map (·.work)).toList).eraseDups

/-- A lean-mode tile is idle (R221). -/
def State.leanIdle (s : State) (n : Nat) : Bool :=
  let t := s.tile n
  t.seq.held.isNone && t.kern.isNone && t.mat.isNone && t.outs.isEmpty && t.clv.isEmpty && t.mvc.isEmpty && t.cvc.isEmpty &&
  t.dma.all (fun q => q.2.isEmpty) && !s.mesh.any (fun m => m.tile == n) &&
  !(List.range 8).any (fun p =>
    let b := s.portBind n p
    b.1 == 1 && s.mesh.any (fun m => m.kind == 0 && m.tile == b.2.1 && m.port == b.2.2))

/-- What a failed tile was doing is gone: its units stop and its queue-6 descriptors have not started; a SIGNAL keeps what it has
done (R548). -/
def State.tileStop (s : State) (n : Nat) : State :=
  let t := s.tile n
  let again (e : DmaEnt) : DmaEnt :=
    if e.started && !e.moved then e
    else { e with started := false, moved := e.moved && e.inline.isNone && bits e.desc 7 0 == 5 }
  s.setTile n { t with seq := { Seq.reset with run := false }, mat := none, outs := [], wblk := none, wnext := none, banks := [], clv := [], mvc := [], cvc := [],
                       matStop := false, kern := none, l1 := [], l1lru := [], icache := [], hbStopped := false,
                       dma := mset [] [] 6 ((mget [] t.dma 6).map again) }

/-- Descriptors put back in front of a work queue: those taken or offered since the record the spare resumes from. -/
def State.putBack (s : State) (n : Nat) (ws : List Work) : State :=
  let t := s.tile n
  let back := ws ++ t.offered.toList
  back.foldl (fun u w => u.groupBusy w) (s.setTile n { t with wq := back ++ t.wq, offered := none, pos := t.pos - back.length })

/-- Descriptors taken since a record: those of the journal's completions and those held, but for the record's own. -/
def takenSince (t : Tile) (jrnl : List JEnt) (r : Option EpoRec) : List Work :=
  let own : Option Work := r.bind (·.held)
  let kern : Option Work := r.bind (·.kern)
  ((jrnl.filterMap (·.work)) ++ t.heldWorks).eraseDups.filter (fun w => some w != own && some w != kern)

/-- The EPOCH_LOST records of a logical ID (R220, R494). -/
def State.epochLost (s : State) (n : Nat) : State :=
  (((s.event 0x04 5 n subNone (s.epoNum n)).event 0x04 5 n subNone (s.epo n).committed)).bump (EPO_RPL n) EPO_RPL_LOST

/-- The held descriptors of a lost epoch complete, and its journal is discarded (R37, R220). -/
def State.loseHeld (s : State) (n : Nat) : State :=
  let st := if s.flag (EPO_STAT n) EPO_STAT_NOREPLAY then stEpoNoreplay else stEpoLost
  let num := s.epoNum n % 2 ^ 32
  let t := s.tile n
  let ws := (((s.epo n).jrnl.filterMap (·.work)) ++ t.heldWorks).eraseDups
  let s1 := (if s.epoSt n = esClosed then s else s.epoClose n).wr (EPO_STAT n) EPO_STAT_NOREPLAY 0
  ws.foldl (fun u w => u.served w st num) s1

/-- A logical ID goes to OFFLINE: everything queued for it completes with TILE_OFFLINE, and its binding ends (R37). -/
def State.tileOffline (s : State) (n phys : Nat) : State :=
  let t := s.tile n
  let q6 := ((mget [] t.dma 6).filter (fun e => !(e.started && !e.moved))).filterMap (·.work)
  let peers := s.peersOf n
  let ws := t.loadWork.toList ++ t.bindIn.toList ++ t.offered.toList ++ t.wq ++ t.deferred.toList ++ q6
  let s1 := s.setTile n { t with loadWork := none, bindIn := none, offered := none, wq := [], deferred := none, dma := [] }
  let s2 := ((s1.setTst n tsOffline).wr (TIL_STATUS n) TIL_STATUS_BIND_PEND 0)
  let s3 := ws.foldl (fun u w => (u.refuse w stTileOffline 0).groupBusy w) s2
  let s4 := ((((s3.unbind n).refreshPorts n).refreshList peers).pacerLost n).refreshSpare
  (s4.event 0x02 4 n phys (s4.spares (tileDie n)).length).prsTileLost n

/-- An Eyebright TILE test of a spare stops because Yarrow takes the spare (R504). -/
def State.ebTaken (s : State) (spare : Nat) : State :=
  match s.yar.tests.find? (fun t => t.2.kind == 1 && t.2.index == spare) with
  | none => s
  | some (e, r) =>
    let f := s.fresh
    let s1 := { f.2 with yar := { f.2.yar with tests := f.2.yar.tests.filter (fun t => t.1 != e) } }
    (((s1.ebRelease r).bump (TST_EB_CNT e) TST_EB_CNT_ABORTS).ebResult e r.kind r.index evAborted 4 0 (f.1.toNat % 2 ^ 32) 0 0 0)

/-- What becomes of the epoch of a failed tile with a spare: replay, resume, or loss (R199, R220, R221). -/
inductive Fate where
  | replay | resume | lost
  deriving DecidableEq, Repr

def State.fate (s : State) (n : Nat) : Fate :=
  if ¬ s.resil then (if s.leanIdle n then .resume else .lost)
  else if s.epoSt n = esClosed then (if s.flag (EPO_STAT n) EPO_STAT_GAP_DIRTY then .lost else .resume)
  else if s.flag (EPO_STAT n) EPO_STAT_UNPROT ∨ s.flag (EPO_STAT n) EPO_STAT_NOREPLAY then .lost
  else .replay

/-- Yarrow declares a fault of the tile that carries a logical ID, with the cause of R494; an ID in REMAP or OFFLINE has none. -/
def State.tileFault (s : State) (n cause : Nat) : State :=
  if s.tst n = tsRemap ∨ s.tst n = tsOffline then s else
  let p := s.phys n
  let s1 := (s.bump TST_YAR_STAT TST_YAR_STAT_TILE_FAULTS)
  let again : Bool := s.yar.faulted.contains p
  let s2 := { s1 with yar := { s1.yar with isolated := s1.yar.isolated ++ [p],
                                           faulted := if again then s1.yar.faulted else s1.yar.faulted ++ [p] } }
  let s3 := if again then (s2.queueTile p).1 else s2
  match s3.pickSpare p with
  | none =>
    let lost : Bool := s.epoSt n != esClosed || (s.tile n).heldWorks != []
    let s4 := s3.event 0x01 (if lost then 5 else 3) n p (cause + 0xFF * 2 ^ 8)
    let s5 := if lost then (s4.epochLost n).loseHeld n else s4
    (s5.tileStop n).tileOffline n p
  | some q =>
    let fate := s.fate n
    let s4 := { s3 with yar := { s3.yar with mapping := mput s3.yar.mapping n q } }
    let s5 := s4.event 0x01 (if fate = .lost then 5 else 3) n p (cause + q * 2 ^ 8)
    let t := s.tile n
    let e := s.epo n
    let s6 : State := match fate with
      | .lost =>
        let a := ((s5.epochLost n).loseHeld n).tileStop n
        (a.wr (EPO_STAT n) EPO_STAT_FROZEN 1).prsTileLost n
      | .replay =>
        let a := (s5.tileStop n).putBack n (takenSince t e.jrnl e.start)
        let b := ((a.setEpoSt n esReplay).wr (EPO_STAT n) EPO_STAT_TIMER 0).wr (EPO_STAT n) EPO_STAT_JCOUNT 0
        b.setEpo n { b.epo n with jrnl := [], opening := false, committer := 0, sealed := false, sent := [], fault := false }
      | .resume => (s5.tileStop n).putBack n (takenSince t [] e.resume)
    ((s6.setTst n tsRemap).ebTaken q).refreshSpare

/-- TILE_FAULT_DECLARE: Yarrow's agent declares a tile fault by an uncorrectable error, a checker trip or an ageing limit (R484,
R486). -/
def execTileFaultDeclare (n : TileId) (cause : TileFaultCause) (s : State) : Host.Outcome State Fault Refusal :=
  .next (s.tileFault n.val (match cause with
    | .uncorrectable => 2
    | .checker => 3
    | .ageing => 4))

/-- HEARTBEAT_LOSS: four heartbeats in a row fail to arrive (R485). -/
def execHeartbeatLoss (n : TileId) (s : State) : Host.Outcome State Fault Refusal := .next (s.tileFault n.val 1)

/-- The ARR, UMB and sequencer registers of a window that restart at zero on a spare (R88, R163). -/
def restartReg (n a : Nat) : Bool :=
  let o := a - TIL_STATUS n
  decide (TIL_STATUS n ≤ a) && decide (o < 0x1000000) &&
  ((decide (0x1008 ≤ o) && decide (o ≤ 0x1048)) || (decide (0x2008 ≤ o) && decide (o ≤ 0x2060)) || decide (o = 0x3000) ||
   decide (o = 0x3008))

/-- MAPPING_INSTALLED: the spare takes the logical ID; its store is zero, and it loads from the bind record if there is one (R36,
R38, R39). -/
def execMappingInstalled (n : TileId) (s : State) : Host.Outcome State Fault Refusal :=
  match mfind s.yar.mapping n.val with
  | none => .next s
  | some q =>
    if s.tst n.val ≠ tsRemap then .next s else
    let s1 := { s with yar := { s.yar with mapping := mdel s.yar.mapping n.val },
                       regs := s.regs.filter (fun r => !restartReg n.val r.1 && r.1 != PWR_GOV n),
                       pwr := { s.pwr with withheld := mdel s.pwr.withheld n.val, boost := s.pwr.boost ++ [n.val] } }
    let s2 := s1.setPhys n.val q
    let t := s2.tile n.val
    let s3 := s2.setTile n.val { t with store := [], storePois := [] }
    .next ((s3.setTst n.val (if t.bind.isSome then tsLoading else tsUnbound)).refreshSpare)

end Sys2Proof.Machine
end

