-- ==== Sys2Proof/Machine/Eyebright.lean ====
section
/-!
DEFINITION. Eyebright's tests (R496 to R500, R504), fault injection (R501) and the repairs software and Eyebright ask for (R502,
R503).

Where the spec leaves open or is read by inference, and what is taken from outside it (DESIGN CHOICE, DEDUCED, PRESUMED):
notes/assumptions/61.md, 62.md.
-/

namespace Sys2Proof.Machine

open Sys2Proof

/-! ### Tests -/

/-- The target of a test is valid for its engine and meets its condition: 0, or the cause of a refusal (R496, R504). -/
def State.ebCheck (s : State) (e kind index : Nat) : Nat :=
  match kind with
  | 1 =>
    if 104 ≤ index ∨ physDie index ≠ e then 6
    else if s.yar.isolated.contains index || s.spareFree index then 0 else 1
  | 2 => if 16 ≤ index ∨ 2 ≤ e then 6 else if s.wayOn e index then 0 else 1
  | 3 =>
    let k := index / 64
    if 12 ≤ k ∨ k / 6 ≠ e then 6
    else if ¬ s.flag (HBM_STAT k) HBM_STAT_QUIESCED ∨ s.wcb k ≠ [] ∨ s.rd (HBM_WCB_STAT k) HBM_WCB_STAT_POCC ≠ 0 then 1
    else if s.flag (HBM_REPAIR_STAT k) HBM_REPAIR_STAT_BUSY ∨ s.flag (HBM_MRG_CTL k) HBM_MRG_CTL_BUSY then 2
    else 0
  | 4 =>
    if 24 ≤ index ∨ index / 12 ≠ e then 6 else
    match s.linkPort index with
    | none   => 0
    | some p =>
      if s.flag (FGN_PORT_CFG p) FGN_PORT_CFG_EN ∧
         ¬ (s.portLinks p).any (fun l => l != index && s.lkSt l == lkActive) then 1 else 0
  | 5 =>
    if 96 ≤ index ∨ e ≠ 2 then 6
    else if s.coreSt index = csOff ∨ s.coreSt index = csParked then 0 else 1
  | _ => 6

/-- A test isolates its target before the first pattern (R497, R498). -/
def State.ebIsolate (s : State) (e kind index : Nat) : State :=
  match kind with
  | 1 => s.bistTake e
  | 2 => s.scTrim e
  | 4 => ((s.lkLose index).lkDisable index).refreshFgnPorts
  | _ => s

/-- EB_GO: a test starts on its target, or is refused; ignored while a test runs. -/
def execEbGo (e : EbEngine) (kind : BitVec 4) (index : BitVec 12) (tapOwns : Bool) (s : State) : Host.Outcome State Fault Refusal :=
  if s.flag (TST_EB_CTL e) TST_EB_CTL_BUSY then .next s else
  let k := kind.toNat
  let i := index.toNat
  let s0 := (s.wr (TST_EB_CTL e) TST_EB_CTL_KIND k).wr (TST_EB_CTL e) TST_EB_CTL_INDEX i
  let cause := if tapOwns then 3 else s0.ebCheck e k i
  if cause ≠ 0 then .next (s0.ebResult e k i evRefused cause 0 0 0 0 0) else
  let s1 := { s0 with yar := { s0.yar with tests := mput s0.yar.tests e { kind := k, index := i } } }
  .next ((s1.wr (TST_EB_CTL e) TST_EB_CTL_BUSY 1).ebIsolate e k i)

/-- A test that has stopped re-initialises its target and releases it (R497). -/
def State.ebReinit (s : State) (e : Nat) (r : EbRun) : State :=
  let s1 := { s with yar := { s.yar with tests := mdel s.yar.tests e } }
  match r.kind with
  | 1 => s1.ebRelease r
  | 2 => s1.refreshWays e
  | 3 => s1.rebuildPc (r.index / 64) (r.index % 64)
  | 4 => (s1.lkEnable r.index).refreshFgnPorts
  | 5 => if s1.coreSt r.index = csParked then s1.setCoreSt r.index csOff else s1
  | _ => s1

/-- EB_ABORT: the test stops with ABORTED (R499). -/
def execEbAbort (e : EbEngine) (duration : W32) (s : State) : Host.Outcome State Fault Refusal :=
  match mfind s.yar.tests e with
  | none => .next s
  | some r =>
    let s1 := (s.ebReinit e r).bump (TST_EB_CNT e) TST_EB_CNT_ABORTS
    .next (s1.ebResult e r.kind r.index evAborted 5 0 duration.toNat 0 0 0)

/-- The soft repair of a failed target: the state, and REPAIR (0 where the policy has none; R502, R503). -/
def State.ebSoft (s : State) (e : Nat) (r : EbRun) (f : EbFinding) : State × Nat :=
  match r.kind with
  | 2 =>
    let w := s.wayOff e r.index
    (w.1, if w.2 then 1 else 3)
  | 3 =>
    let op : HbmRep := match f.dq with
      | some d => { op := 3, pc := r.index % 64, bank := 0, row := 0, dq := d.toNat, yarrow := true }
      | none   => { op := 1, pc := r.index % 64, bank := bits f.firstFail 5 0, row := bits f.firstFail 19 6, dq := 0, yarrow := true }
    (s.hbmRepair (r.index / 64) op, 1)
  | _ => (s, 0)

/-- The fuse repair of a failed target queued (R502, R503). -/
def State.ebFuse (s : State) (e : Nat) (r : EbRun) (f : EbFinding) : State × Nat :=
  match r.kind with
  | 1 =>
    if s.yar.isolated.contains r.index then
      let q := s.queueTile r.index
      (q.1, if q.2 then 2 else 3)
    else (s, 0)
  | 2 =>
    let q := s.queueWay e r.index
    (q.1, if q.2 then 2 else 3)
  | 3 =>
    if f.dq.isSome then (s, 0) else
    ({ s with yar := { s.yar with queuedRows := s.yar.queuedRows ++ [(r.index, bits f.firstFail 5 0 * 2 ^ 14 + bits f.firstFail 19 6)] } }, 2)
  | _ => (s, 0)

/-- EB_TEST_COMPLETE: the target is re-initialised, a FAIL is repaired as the policy says, and the result is written (R500, R502). -/
def execEbTestComplete (e : EbEngine) (f : EbFinding) (s : State) : Host.Outcome State Fault Refusal :=
  match mfind s.yar.tests e with
  | none => .next s
  | some r =>
    let s1 := (s.ebReinit e r).wrap (TST_EB_CNT e) TST_EB_CNT_RUNS 1
    let dur := f.duration.toNat
    let cov := min 1000 f.coverage.toNat
    if f.fails = 0 then .next (s1.ebResult e r.kind r.index evPass 0 cov dur 0 0 0) else
    let s2 := s1.bump (TST_EB_CNT e) TST_EB_CNT_FAILS
    let soft := if s2.flag (TST_EB_CTL e) TST_EB_CTL_REPAIR then s2.ebSoft e r f else (s2, 0)
    let fuse := if s2.flag (TST_EB_CTL e) TST_EB_CTL_QUEUE_FUSE then soft.1.ebFuse e r f else (soft.1, 0)
    let s3 : State := if r.kind = 5 then { fuse.1 with yar := { fuse.1.yar with badCores := fuse.1.yar.badCores ++ [r.index] } } else fuse.1
    .next (s3.ebResult e r.kind r.index evFail 0 cov dur f.fails.toNat (if fuse.2 = 0 then soft.2 else fuse.2) f.firstFail)

/-! ### Injection (R501) -/

/-- An injection's KIND and TARGET written. -/
def State.injWrite (s : State) (kind target : Nat) : State :=
  (s.wr TST_YAR_INJ TST_YAR_INJ_KIND kind).wr TST_YAR_INJ TST_YAR_INJ_TARGET target

/-- An injection into a tile: refused for an ID that is UNBOUND or OFFLINE or does not exist. -/
def State.injTile (s : State) (n : Nat) (f : State → State) : State :=
  if 96 ≤ n ∨ s.tst n = tsUnbound ∨ s.tst n = tsOffline then s.wr TST_YAR_INJ TST_YAR_INJ_REFUSED 1 else f s

/-- INJ_TILE_FAULT: TILE_FAULT with cause 5. -/
def execInjTileFault (target : BitVec 7) (s : State) : Host.Outcome State Fault Refusal :=
  .next ((s.injWrite 0 target.toNat).injTile target.toNat (fun t => t.tileFault target.toNat 5))

/-- INJ_HEARTBEAT_STOP: the heartbeat stops; HEARTBEAT_LOSS follows (R485). -/
def execInjHeartbeatStop (target : BitVec 7) (s : State) : Host.Outcome State Fault Refusal :=
  .next ((s.injWrite 1 target.toNat).injTile target.toNat (fun t => t.setTile target.toNat { t.tile target.toNat with hbStopped := true }))

/-- INJ_HBM_CORRUPT: the stored line of TST_YAR_INJ_ADDR can no longer be corrected. -/
def execInjHbmCorrupt (s : State) : Host.Outcome State Fault Refusal :=
  let s1 := s.wr TST_YAR_INJ TST_YAR_INJ_KIND 2
  match s1.region (localOf (s.rd TST_YAR_INJ_ADDR TST_YAR_INJ_ADDR_LINE * 64)) with
  | .mem k =>
    let key := alignDown k 64
    if key < 0xC000000000 ∧ ¬ s1.hbm.corrupt.contains key then
      .next { s1 with hbm := { s1.hbm with corrupt := s1.hbm.corrupt ++ [key] } }
    else .next s1
  | _ => .next s1

/-- INJ_LINK_DROP: the link loses codeword lock (R413). -/
def execInjLinkDrop (target : BitVec 7) (s : State) : Host.Outcome State Fault Refusal :=
  let s1 := s.injWrite 3 target.toNat
  if target.toNat < 24 then .next (s1.lkLose target.toNat) else .next s1

/-! ### Repairs by register (R502, R503) -/

/-- WAY and DIE of TST_REPAIR_CTL written. -/
def State.wayNamed (s : State) (d w : Nat) : State :=
  (s.wr TST_REPAIR_CTL TST_REPAIR_CTL_DIE d).wr TST_REPAIR_CTL TST_REPAIR_CTL_WAY w

/-- WAY_DIS: the way's lines are cleaned and invalidated and it stops caching, where 2 caching ways remain. -/
def execWayDis (die : DieId) (way : BitVec 4) (s : State) : Host.Outcome State Fault Refusal :=
  .next ((s.wayNamed die way.toNat).wayOff die way.toNat).1

/-- WAY_EN: a soft-disabled way caches again, empty. -/
def execWayEn (die : DieId) (way : BitVec 4) (s : State) : Host.Outcome State Fault Refusal :=
  let s1 := s.wayNamed die way.toNat
  let m := s1.rd TST_REPAIR_STAT (waysOff die)
  .next ((s1.wr TST_REPAIR_STAT (waysOff die) (nset m way.toNat way.toNat 0)).refreshWays die)

/-- QUEUE_TILE: a fuse repair of PTILE is queued while an entry of its die is free. -/
def execQueueTile (ptile : BitVec 7) (s : State) : Host.Outcome State Fault Refusal :=
  let s1 := s.wr TST_REPAIR_CTL TST_REPAIR_CTL_PTILE ptile.toNat
  if ptile.toNat < 104 then .next (s1.queueTile ptile.toNat).1 else .next s1

end Sys2Proof.Machine
end

