-- ==== Sys2Proof/Machine/Ledger.lean ====
section
/-!
DEFINITION. The ledger (spec/08, R224 to R228; R263): adds, reads, clearing and the lock of its size.

Where the spec leaves open or is read by inference, and what is taken from outside it (DESIGN CHOICE, DEDUCED, PRESUMED):
notes/assumptions/46.md.
-/

namespace Sys2Proof.Machine

open Sys2Proof

/-- An access to a cell at or beyond the cell count (R225). -/
def State.ledgerRefuse (s : State) (d : Nat) : State := s.bump (EPO_LEDGER_STAT d) EPO_LEDGER_STAT_REFUSED

/-- LEDGER_ADD: a float add of either view reaches a cell (R225, R226). -/
def execLedgerAdd (die : DieId) (cell : BitVec 18) (bf16 : Bool) (operand : W32) (s : State) :
    Host.Outcome State Fault Refusal :=
  if cell.toNat < s.lcells die then
    let v := if bf16 then decIeee fBf16 (operand.toNat % 2 ^ 16) else decIeee fB32 operand.toNat
    .next { s.ledgerAdd die cell.toNat v with answer := .done }
  else .next { s.ledgerRefuse die with answer := .error }

/-- LEDGER_READ: a load of either view (R225, R227). -/
def execLedgerRead (die : DieId) (cell : BitVec 18) (bf16 : Bool) (s : State) : Host.Outcome State Fault Refusal :=
  if cell.toNat < s.lcells die then
    let r := s.ledgerRead die cell.toNat bf16
    .next { r.1 with answer := .data (leBytes (if bf16 then 2 else 4) r.2) false }
  else .next { s.ledgerRefuse die with answer := .error }

/-- Cells first to first + n - 1 of a die zeroed, flags included, as far as the die has them. -/
def State.ledgerZero (s : State) (d first n : Nat) : State :=
  let lo := d * 2 ^ 18 + first
  let hi := d * 2 ^ 18 + min (first + n) (s.lcells d)
  { s with ledger := s.ledger.filter (fun c => !(decide (lo ≤ c.1) && decide (c.1 < hi))) }

/-- LEDGER_CLEAR_GO: the register is written with GO; while BUSY the write is ignored.  Adds and reads that come during the
clear act on zeroed cells, as they do when they wait for it (R228). -/
def execLedgerClearGo (die : DieId) (value : Word) (s : State) : Host.Outcome State Fault Refusal :=
  let a := EPO_LEDGER_CLR die
  if s.flag a EPO_LEDGER_CLR_BUSY then .next s else
  let s1 := (s.wr a EPO_LEDGER_CLR_FIRST (fget value EPO_LEDGER_CLR_FIRST)).wr a EPO_LEDGER_CLR_COUNT
    (fget value EPO_LEDGER_CLR_COUNT)
  .next ((s1.ledgerZero die (fget value EPO_LEDGER_CLR_FIRST) (fget value EPO_LEDGER_CLR_COUNT)).wr a EPO_LEDGER_CLR_BUSY 1)

/-- LEDGER_CLEAR_DONE: BUSY clears (R228). -/
def execLedgerClearDone (die : DieId) (s : State) : Host.Outcome State Fault Refusal :=
  .next (s.wr (EPO_LEDGER_CLR die) EPO_LEDGER_CLR_BUSY 0)

/-- SIZE of the ledger written: 0 to 25, before the lock. -/
def State.ledgerSize (s : State) (d size : Nat) : State :=
  if s.flag (EPO_LEDGER_CFG d) EPO_LEDGER_CFG_LOCK ∨ 25 < size then s else s.wr (EPO_LEDGER_CFG d) EPO_LEDGER_CFG_SIZE size

/-- LEDGER_LOCK: SIZE is written and locked, and the ledger ways are taken (R228, R263). -/
def execLedgerLock (die : DieId) (value : Word) (s : State) : Host.Outcome State Fault Refusal :=
  .next (((s.ledgerSize die (fget value EPO_LEDGER_CFG_SIZE)).wr (EPO_LEDGER_CFG die) EPO_LEDGER_CFG_LOCK 1).scTrim die)

end Sys2Proof.Machine
end

