-- ==== Sys2Proof/Machine/Craone.lean ====
section
/-!
DEFINITION. The Craone links (spec/01, R11 to R31): headers, training, capability negotiation, orientation and the map it gives,
credits, absence and the stand-ins' answers.

Where the spec leaves open or is read by inference, and what is taken from outside it (DESIGN CHOICE, DEDUCED, PRESUMED):
notes/assumptions/14.md, 55.md, 56.md, 82.md, 84.md.
-/

namespace Sys2Proof.Machine

open Sys2Proof

/-- A link's state set, with Periscope's entry (R525). -/
def State.setCra (s : State) (l st : Nat) : State :=
  let s1 := s.wr (MGT_CRA_STAT l) MGT_CRA_STAT_STATE st
  if s.craSt l = st then s1 else s1.psc 4 l st

/-- A list of link numbers with one of them in or out. -/
def withLink (ls : List Nat) (l : Nat) (is : Bool) : List Nat := ls.filter (· != l) ++ (if is then [l] else [])

/-- The capability blocks of a link: the local one and the last one received (R21). -/
def State.capLocal (s : State) (l : Nat) : Nat := (s.reg (MGT_CRA_CAPL_LO l)).toNat + (s.reg (MGT_CRA_CAPL_HI l)).toNat * 2 ^ 64
def State.capPeer (s : State) (l : Nat) : Nat := (s.reg (MGT_CRA_CAPR_LO l)).toNat + (s.reg (MGT_CRA_CAPR_HI l)).toNat * 2 ^ 64

/-! ### Headers (R18, R20) -/

/-- The opcodes that the spec names in a class; those of NCR beyond the home's two are not listed anywhere, so every one is known
(R18, R274). -/
def craOpcode (cls op : Nat) : Bool :=
  match cls with
  | 0 => decide (1 ≤ op) && decide (op ≤ 0x0B)
  | 1 => decide (0x10 ≤ op) && decide (op ≤ 0x16)
  | 2 => (decide (0x20 ≤ op) && decide (op ≤ 0x26)) || (decide (0x2C ≤ op) && decide (op ≤ 0x2F))
  | 3 => decide (0x30 ≤ op) && decide (op ≤ 0x34)
  | 4 => true
  | 5 => decide (1 ≤ op) && decide (op ≤ 5)
  | _ => false

/-- The number of chunks a message of a class and opcode carries, where the spec fixes it (R18, R274). -/
def craLen (cls op : Nat) : Option Nat :=
  match cls with
  | 0 => some (if op = 6 then 1 else 0)
  | 1 | 2 => some 0
  | 3 => some 1
  | 4 => if op = 0x48 then some 0 else if op = 0x49 then some 1 else none
  | _ => some (if op = 1 then 1 else 0)

/-- The bits of ADDR that a MGT message leaves zero: above DISCOVER's DIE_SIDE, above CREDIT's counts, and all of them elsewhere (R18). -/
def mgtAddrOk (op : Nat) (addr : Nat) : Bool :=
  if op = 2 then nbits addr 55 41 == 0 && (nbits addr 39 32 == 1 || nbits addr 39 32 == 2)
  else if op = 3 then nbits addr 55 48 == 0
  else addr == 0

/-- A malformed header: a class, opcode or length that the tables do not have, an ordering tag beyond the negotiated count, or a
field that must be zero (R10, R18, R20). -/
def State.hdrBad (s : State) (l : Nat) (h : CraHdr) : Bool :=
  let cls := h.cls.toNat
  let op := h.opcode.toNat
  !craOpcode cls op || decide (4 < h.len.toNat) || (craLen cls op).any (· != h.len.toNat) || h.rsv != 0 ||
  (s.craSt l == clActive && decide (2 ^ s.rd (MGT_CRA_STAT l) MGT_CRA_STAT_TAGS ≤ h.otag.toNat)) ||
  (cls == 5 && !mgtAddrOk op h.addr.toNat)

/-- A malformed message: dropped and counted; where its class is that of a request, which expects a response, its sender is answered
MALFORMED (R20, R29). -/
def State.craBad (s : State) (l : Nat) (h : CraHdr) : State :=
  let s1 := s.bump (MGT_CRA_ERR l) MGT_CRA_ERR_MALFORMED
  if h.cls = 0 ∨ h.cls = 1 ∨ h.cls = 4 then
    s1.cPush { cmsg .malformed h.src.toNat (alignDown (localOf h.addr.toNat) 64) with txid := h.txid.toNat }
  else s1

/-- A MGT message of an opcode: dropped where its header is malformed, without effect where it is another message's. -/
def State.mgtMsg (s : State) (l op : Nat) (h : CraHdr) (f : State → State) : State :=
  if s.hdrBad l h then s.craBad l h
  else if h.cls = 5 ∧ h.opcode.toNat = op then f s
  else s

/-- The block the local end of a link sends: version 1.0, C0 with its sampled DIE_SIDE on the peer link and the H-die as home on the
others, all six classes, POISON, STANDIN, 12 for TAGS; the receive depths are the implementation's, each at least the 5 units of a
message with one chunk (R21, R22, R24). -/
def State.sendCap (s : State) (l : Nat) : State :=
  let f := s.fresh
  let dtype := if l = 0 then 0x01 else 0x02
  let side := if l = 0 then s.rd MGT_DIE_MAP MGT_DIE_MAP_SIDE_W else 0
  let role := if l = 0 then 0 else 2
  let depths := (List.range 6).foldl (fun n c => nset n (8 * c + 7) (8 * c) (5 + nbits f.1.toNat (8 * c + 7) (8 * c) % 251)) 0
  let lo := 0x01 + dtype * 2 ^ 16 + side * 2 ^ 24 + 0x3F * 2 ^ 32 + role * 2 ^ 40 + 2 ^ 42 + 2 ^ 43 + 12 * 2 ^ 44
  let cap := lo + depths * 2 ^ 48
  (f.2.setReg (MGT_CRA_CAPL_LO l) (BitVec.ofNat 64 cap)).setReg (MGT_CRA_CAPL_HI l) (BitVec.ofNat 64 (cap / 2 ^ 64))

/-- The depth of a class in a capability block. -/
def capDepth (cap cls : Nat) : Nat := nbits cap (55 + 8 * cls) (48 + 8 * cls)

/-- A reserved bit or value of a capability block (R10, R21): bits that must be zero, a die type or a role that is reserved, more tags
than the table allows. -/
def capBad (cap : Nat) : Bool :=
  nbits cap 31 25 != 0 || nbits cap 39 38 != 0 || nbits cap 127 96 != 0 || (nbits cap 23 16 != 1 && nbits cap 23 16 != 2) ||
  nbits cap 41 40 == 3 || decide (12 < nbits cap 47 44)

/-- The item at which a negotiation fails, by its code, or none (R22). -/
def negFault (l loc peer : Nat) : Option Nat :=
  let both := nbits loc 37 32 &&& nbits peer 37 32
  let needed := if l = 0 then 0x3D else 0x3F
  let roles := (nbits loc 41 40, nbits peer 41 40)
  if nbits loc 7 0 ≠ nbits peer 7 0 then some 1
  else if both &&& needed ≠ needed then some 2
  else if ¬ (if l = 0 then roles = (0, 0) else roles = (2, 1) ∨ roles = (1, 2)) then some 3
  else if capDepth loc 5 < 4 ∨ capDepth peer 5 < 4 then some 4
  else none

/-- A link whose negotiation ends well: what both ends announced holds on it, at the lower minor version, and its credits are loaded;
on the peer link DISCOVER then leaves, a message of one unit (R13, R21, R22, R24, R25). -/
def State.negActive (s : State) (l loc peer : Nat) : State :=
  let a := MGT_CRA_STAT l
  let s1 := (((s.setCra l clActive).wr a MGT_CRA_STAT_NEG_CAUSE 0).wr a MGT_CRA_STAT_POISON_ON (nbits loc 42 42 * nbits peer 42 42)).wr a
    MGT_CRA_STAT_TAGS (min (nbits loc 47 44) (nbits peer 47 44))
  let cr := (List.range 6).foldl (fun m c => mset 0 m (8 * l + c) (capDepth peer c)) s1.cra.credits
  let s2 := { s1.wr a MGT_CRA_STAT_LOCAL_STANDIN 0 with cra := { s1.cra with
      credits := cr, vmin := mset 0 s1.cra.vmin l (min (nbits loc 15 8) (nbits peer 15 8)) } }
  if l = 0 then (s2.spend 0 5 1).refreshFgnPorts else s2.cohReturn (l - 1)

/-- Both CAPs are in: the link becomes ACTIVE with the negotiated values, or NEGOTIATE_FAIL with the failing item (R22, R25). -/
def State.negotiate (s : State) (l : Nat) : State :=
  if s.craSt l ≠ clNegotiate ∨ ¬ s.cra.capGot.contains l then s else
  match negFault l (s.capLocal l) (s.capPeer l) with
  | some c => (s.setCra l clNegFail).wr (MGT_CRA_STAT l) MGT_CRA_STAT_NEG_CAUSE c
  | none   => s.negActive l (s.capLocal l) (s.capPeer l)

/-- NEGOTIATE is entered: CAP is sent and credits are cleared (R25). -/
def State.negStart (s : State) (l : Nat) : State :=
  let s1 := (s.setCra l clNegotiate).sendCap l
  { s1 with cra := { s1.cra with credits := (List.range 6).foldl (fun m c => mdel m (8 * l + c)) s1.cra.credits,
                                 returned := withLink s1.cra.returned l false } }

/-! ### Orientation (R11 to R14) -/

/-- An orientation fault: the first one is kept; Teasel records it. -/
def State.orientFault (s : State) (east : Bool) (cause : Nat) : State :=
  if s.flag MGT_DIE_MAP MGT_DIE_MAP_FAULT then s else
  let s1 := ((s.wr MGT_DIE_MAP MGT_DIE_MAP_FAULT 1).wr MGT_DIE_MAP MGT_DIE_MAP_CAUSE cause).wr MGT_DIE_MAP MGT_DIE_MAP_CAUSE_DIE (b2n east)
  s1.logRec 2 6 [s1.reg MGT_DIE_MAP]

/-- The state of a host-link site of a physical C-die, and that site set. -/
def State.site (s : State) (d : Nat) (south : Bool) : SiteSt := mget .off s.cra.sites (2 * d + b2n south)
def State.setSite (s : State) (d : Nat) (south : Bool) (x : SiteSt) : State :=
  { s with cra := { s.cra with sites := mset .off s.cra.sites (2 * d + b2n south) x } }

/-- C-die reset is released: every host-link site has power and trains (R11). -/
def sitesUp : List (Nat × SiteSt) := [(0, .training), (1, .training), (2, .training), (3, .training)]

/-- The DIE_SIDE a C-die has sampled (R12). -/
def State.ownSide (s : State) (east : Bool) : Bool :=
  s.flag MGT_DIE_MAP (if east then MGT_DIE_MAP_SIDE_E else MGT_DIE_MAP_SIDE_W)

/-- The three sources of a C-die compared as far as they are known: two dies on one side, or a host link on the other site than its
own DIE_SIDE calls for, is a fault; when all three agree the die confirms, takes the power from its other site, and with both dies
confirmed VALID is set (R11 to R14). -/
def State.orient (s : State) (east : Bool) : State :=
  let d := b2n east
  let own := s.ownSide east
  if s.flag MGT_DIE_MAP MGT_DIE_MAP_FAULT then s
  else if mfind s.cra.heard d = some own then s.orientFault east 1
  else if s.site d (!own) = .trained then s.orientFault east 2
  else if s.site d own = .trained ∧ (mfind s.cra.heard d).isSome then
    let s1 := s.setSite d (!own) .off
    let o := withLink s1.cra.oriented d true
    let s2 := { s1 with cra := { s1.cra with oriented := o } }
    if o.contains 0 ∧ o.contains 1 then s2.wr MGT_DIE_MAP MGT_DIE_MAP_VALID 1 else s2
  else s

/-- DISCOVER: a C-die learns its peer's DIE_SIDE (R12 to R14, R18). -/
def execDiscover (east : Bool) (hdr : CraHdr) (s : State) : Host.Outcome State Fault Refusal :=
  .next (s.mgtMsg 0 2 hdr (fun t =>
    if t.craSt 0 ≠ clActive then t else
    ({ t with cra := { t.cra with heard := mput t.cra.heard (b2n east) (bitAt (hdr.addr.setWidth 64) 40) } }).orient east))

/-- ORIENTATION_TIMEOUT: 10 ms without confirmation: cause 3 when the peer link did not train, else 4 (R14). -/
def execOrientationTimeout (east : Bool) (s : State) : Host.Outcome State Fault Refusal :=
  if s.cra.oriented.contains (b2n east) then .next s
  else .next (s.orientFault east (if s.cra.up.contains 0 then 4 else 3))

/-! ### Training and negotiation -/

/-- UCIE_LINK_UP: training completes, of a host link on a site that has power; an ABSENT link that had RETURN negotiates again (R11,
R25). -/
def execUcieLinkUp (l : CraLink) (south : Bool) (s : State) : Host.Outcome State Fault Refusal :=
  let d := l.val - 1
  if l.val ≠ 0 ∧ s.site d south = .off then .next s else
  let s0 := if l.val = 0 then s else (s.setSite d south .trained).orient (d == 1)
  let s1 := { s0 with cra := { s0.cra with up := withLink s0.cra.up l true } }
  .next (if s.craSt l = clTrain then (s1.negStart l).negotiate l
         else if s.craSt l = clAbsent ∧ s.cra.returned.contains l then s1.negStart l
         else s1)

/-- CRAONE_TRAIN_TIMEOUT: 4 ms in TRAIN (R25). -/
def execCraoneTrainTimeout (l : CraLink) (s : State) : Host.Outcome State Fault Refusal :=
  .next (if s.craSt l = clTrain then (s.setCra l clDown).wr (MGT_CRA_STAT l) MGT_CRA_STAT_TRAIN_TO 1 else s)

/-- CAP: the peer's capability block in the chunk, zero-padded; negotiation runs once both are in (R18, R21, R22, R25). -/
def execCap (l : CraLink) (hdr : CraHdr) (chunk : Line) (s : State) : Host.Outcome State Fault Refusal :=
  .next (s.mgtMsg l 1 hdr (fun t =>
    let block := chunk.toNat % 2 ^ 128
    if capBad block ∨ 2 ^ 128 ≤ chunk.toNat then t.craBad l hdr
    else if t.craSt l = clTrain ∨ t.craSt l = clNegotiate then
      let s1 := (t.setReg (MGT_CRA_CAPR_LO l) (BitVec.ofNat 64 block)).setReg (MGT_CRA_CAPR_HI l) (BitVec.ofNat 64 (block / 2 ^ 64))
      ({ s1 with cra := { s1.cra with capGot := withLink s1.cra.capGot l true } }).negotiate l
    else t))

/-! ### Credits, absence and stand-ins -/

/-- CREDIT: the counts of the six classes are added to the transmitter's (R18, R24). -/
def execCredit (l : CraLink) (hdr : CraHdr) (s : State) : Host.Outcome State Fault Refusal :=
  .next (s.mgtMsg l 3 hdr (fun t =>
    if t.craSt l ≠ clActive then t else
    let cr := (List.range 6).foldl (fun m c =>
      let k := 8 * l.val + c
      mset 0 m k (mget 0 m k + nbits hdr.addr.toNat (8 * c + 7) (8 * c))) t.cra.credits
    { t with cra := { t.cra with credits := cr } }))

/-- A link becomes ABSENT: the stand-in takes over, the home drops the die, link 0's ports lose the other die's links, and Yarrow
raises the package fault.  The departures of a warm reset are no fault, and the reset itself writes the caches back (R25, R26, R28,
R31, R286, R484, R489, R508). -/
def State.craAbsent (s : State) (l : Nat) : State :=
  if s.craSt l ≠ clActive then s else
  let a := MGT_CRA_STAT l
  let s1 := ((s.setCra l clAbsent).wr a MGT_CRA_STAT_LOCAL_STANDIN (1 - nbits (s.capPeer l) 43 43)).bump (MGT_CRA_ERR l) MGT_CRA_ERR_ABSENT_CNT
  let s2 := { s1 with cra := { s1.cra with capGot := withLink s1.cra.capGot l false } }
  if s.mgt.warm ≠ .idle then s2 else
  let s3 := if l = 0 then s2.refreshFgnPorts else s2.cohAbsent (l - 1)
  (s3.event 0x19 6 l subNone 0).pkgFatal 0x19

/-- DEPART (R18, R25, R28). -/
def execDepart (l : CraLink) (hdr : CraHdr) (s : State) : Host.Outcome State Fault Refusal :=
  .next (s.mgtMsg l 4 hdr (fun t => t.craAbsent l))

/-- UCIE_LINK_DOWN: the adapter's retry is exhausted (R25). -/
def execUcieLinkDown (l : CraLink) (s : State) : Host.Outcome State Fault Refusal :=
  .next ({ s with cra := { s.cra with up := withLink s.cra.up l false } }.craAbsent l)

/-- RETURN: with the UCIe link up, negotiation starts again (R18, R25). -/
def execCraReturn (l : CraLink) (hdr : CraHdr) (s : State) : Host.Outcome State Fault Refusal :=
  .next (s.mgtMsg l 5 hdr (fun t =>
    if t.craSt l ≠ clAbsent then t
    else if t.cra.up.contains l.val then t.negStart l
    else { t with cra := { t.cra with returned := withLink t.cra.returned l true } }))

/-- STAND_IN_ANSWER: the final answer to a transaction outstanding on an ABSENT link, whose TXID its requester uses no more while the
link is ABSENT.  A requester that reads for its own use takes a read's poisoned data as ABSENT too, so every answer is ABSENT to it;
a caching agent's access ends with it (R26, R27, R287, R547). -/
def execStandInAnswer (l : CraLink) (src : BitVec 8) (txid : BitVec 16) (s : State) : Host.Outcome State Fault Refusal :=
  let x := (l.val, src.toNat, txid.toNat)
  if s.craSt l ≠ clAbsent ∨ s.cra.answered.contains x then .next s else
    .next (match s.cEnd l src.toNat txid.toNat with
      | some s1 => { s1 with cra := { s1.cra with answered := s1.cra.answered ++ [x] } }
      | none    => s)

/-- LATE_DROP: a real response for a transaction a stand-in has answered is discarded and counted (R27). -/
def execLateDrop (l : CraLink) (src : BitVec 8) (txid : BitVec 16) (s : State) : Host.Outcome State Fault Refusal :=
  if s.cra.answered.contains (l.val, src.toNat, txid.toNat) then .next (s.bump (MGT_CRA_ERR l) MGT_CRA_ERR_LATE_DROP) else .next s

/-! ### The map of a C-die (R15) -/

/-- The logical stack of a die-frame HBM PHY. -/
def stackOfPhy (east : Bool) (p : Nat) : Nat := if east then 11 - p else if p < 3 then 2 - p else 8 - p

/-- The logical Fugen link of a die-frame lane group, and the logical lane of a lane of it. -/
def linkOfGroup (east : Bool) (g : Nat) : Nat := if east then 23 - g else g
def laneOf (east : Bool) (k : Nat) : Nat := if east then 3 - k else k

/-- The FG_TX and FG_RX lands of a lane of a logical link (R16). -/
def fgnLand (link lane : Nat) : Nat := 4 * link + lane

/-- The host-link site that a die uses: north on C0, south on C1; the peer link is at die-frame east on both. -/
def hostSite (east : Bool) : Bool := east

/-- The UCIe modules of a link (R17). -/
def craModules (l : Nat) : Nat := if l = 0 then 32 else 16

/-- CRAONE_DEGRADE: a lane or module fault of one of the link's modules is repaired, or the module runs at half width (R17, R484). -/
def execCraoneDegrade (l : CraLink) (module : BitVec 5) (half : Bool) (s : State) : Host.Outcome State Fault Refusal :=
  if craModules l ≤ module.toNat then .next s else
  .next (s.event 0x18 (if half then 4 else 3) l module.toNat (b2n half))

end Sys2Proof.Machine
end

