-- ==== Sys2Proof/Machine/Power.lean ====
section
/-!
DEFINITION. Power, droop, heat and idle states (spec/17), and the 56 V input (spec/20, R537 to R542).

Where the spec leaves open or is read by inference, and what is taken from outside it (DESIGN CHOICE, DEDUCED, PRESUMED):
notes/assumptions/57.md, 58.md, 59.md.
-/

namespace Sys2Proof.Machine

open Sys2Proof

/-! ### The 56 V input and the P-dies (R462, R463, R539, R542) -/

/-- P-dies that carry load. -/
def State.pdies (s : State) : Nat := ((List.range 4).filter (fun k => bitAt (s.reg PWR_PDIE) k)).length

/-- The package loses power: PWR_GOOD goes low, and the cause shows after the next boot (R462, R463, R477, R539). -/
def State.powerLost (s : State) (cause : Nat) : State :=
  { s with mgt := { s.mgt with pwrGood := false, railUp := false }, pwr := { s.pwr with lastOff := cause } }

/-- VIN56_START: the P-dies start as VIN56 rises through 48.0 V, and PWR_GOOD goes high with the rail (R539, R542). -/
def execVin56Start (mv : BitVec 16) (s : State) : Host.Outcome State Fault Refusal :=
  if s.mgt.railUp ∨ mv.toNat < 48000 then .next s else
  let s1 := s.wr PWR_MEAS PWR_MEAS_VIN_MV mv.toNat
  .next { s1 with mgt := { s1.mgt with railUp := true, pwrGood := decide (2 ≤ s.pdies) } }

/-- VIN56_CHANGE: the band of R462 that VIN56 now lies in, with LOWLINE and HIGHLINE and their events as they begin; below 46 V or
above 63 V the P-dies stop. -/
def execVin56Change (mv : BitVec 16) (s : State) : Host.Outcome State Fault Refusal :=
  let v := mv.toNat
  let s1 := s.wr PWR_MEAS PWR_MEAS_VIN_MV v
  if ¬ s.mgt.railUp then .next s1
  else if v < 46000 then .next (s1.powerLost 1)
  else if 63000 < v then .next (s1.powerLost 2)
  else
    let low : Bool := decide (v < 50000)
    let high : Bool := decide (60000 < v)
    let s2 := (s1.wr PWR_STAT PWR_STAT_LOWLINE (b2n low)).wr PWR_STAT PWR_STAT_HIGHLINE (b2n high)
    let s3 := if low && !s.flag PWR_STAT PWR_STAT_LOWLINE then s2.event 0x31 0 0 subNone v else s2
    .next (if high && !s.flag PWR_STAT PWR_STAT_HIGHLINE then s3.event 0x32 0 0 subNone v else s3)

/-- PDIE_FAULT: a P-die disconnects; with one or none left the package stops (R463). -/
def execPdieFault (k : Fin 4) (s : State) : Host.Outcome State Fault Refusal :=
  if ¬ bitAt (s.reg PWR_PDIE) k then .next s else
  let ok := s.rd PWR_PDIE PWR_PDIE_OK - 2 ^ k.val
  let s1 := ((s.wr PWR_PDIE PWR_PDIE_OK ok).wr PWR_PDIE PWR_PDIE_FAULT (s.rd PWR_PDIE PWR_PDIE_FAULT ||| 2 ^ k.val)).bump PWR_PDIE
    PWR_PDIE_FAILOVERS
  let s2 := s1.event 0x30 4 k subNone s1.pdies
  .next (if s2.pdies ≤ 1 then s2.powerLost 3 else s2)

/-! ### The budget (R464 to R469) -/

/-- The effective cap in W: the lowest of the owner's, the sideband's, the line limit and the P-die limit (R465). -/
def State.effCap (s : State) : Nat :=
  let host := min 2600 (max 1000 (s.rd PWR_CAP PWR_CAP_HOST_W))
  let side := s.rd PWR_CAP PWR_CAP_SIDE_W
  let line := if s.flag PWR_STAT PWR_STAT_LOWLINE then 464 * s.rd PWR_MEAS PWR_MEAS_VIN_MV / 10000 else 2600
  let pd := if s.pdies ≤ 2 then 1700 else 2600
  min (min host side) (min line pd)

/-- The phase table's entry of a signature. -/
def State.phase (s : State) (sig : Nat) : Option PhEnt := s.pwr.phases.find? (fun e => e.sig == sig)

/-- The shares of a step in W, of the tiles, HBM and the H-die: those learned for the predicted phase, else the measured demand
(R467). -/
def State.shares (s : State) (m : MenInput) : Nat × Nat × Nat :=
  let meas := (m.tileW.toNat, m.hbmW.toNat, m.hdieW.toNat)
  if s.flag PWR_PHASE PWR_PHASE_EN then
    match s.pwr.next.bind s.phase with
    | some e => (e.tile / 256, e.hbm / 256, e.hdie / 256)
    | none   => meas
  else meas

/-- How a step divides the cap (R466): the budgets, and whether the sum of the shares exceeded it. -/
structure Budget where
  tile  : Nat
  hbm   : Nat
  hdie  : Nat
  beyond  : Bool
  deriving DecidableEq, Repr

def State.divide (s : State) (m : MenInput) : Budget :=
  let sh := s.shares m
  let hd := max sh.2.2 m.floorW.toNat
  let avail := s.effCap - m.fixedW.toNat
  let sum := sh.1 + sh.2.1 + hd
  if sum ≤ avail then { tile := sh.1, hbm := sh.2.1, hdie := hd, beyond := false } else
  let hd2 := max m.floorW.toNat (hd - (sum - avail))
  let rest := avail - hd2
  let two := sh.1 + sh.2.1
  if two ≤ rest then { tile := sh.1, hbm := sh.2.1, hdie := hd2, beyond := true }
  else { tile := sh.1 * rest / two, hbm := sh.2.1 * rest / two, hdie := hd2, beyond := true }

/-- Governor units of the tile class in W: 64 units are one tile's full power, 1,144 W / 96 (R469). -/
def govUnits (w : Nat) : Nat := w * 768 / 143

/-- The ceiling that heat and sympathetic mode leave a tile (R472, R476, R477). -/
def State.tileCap (s : State) (n : Nat) : Nat :=
  let heat := if s.pwr.crit.contains (tileDie n) then 0 else mget 64 s.pwr.heat (tileDie n)
  match s.sympNow with
  | some l => min heat (4 * (l + 1))
  | none   => heat

/-- The two governor limits of a step before heat and sympathy (R469, R470, R471): the ceiling of a tile with work, that of the
others, the floor, and whether the slope held the rise. -/
def State.governor (s : State) (m : MenInput) (b : Budget) : Nat × Nat × Nat × Bool :=
  let others := m.fixedW.toNat + m.hbmW.toNat + m.hdieW.toNat
  let w := min 390 (max 100 (s.rd PWR_SLOPE PWR_SLOPE_W)) - ((others - s.pwr.others) + (s.pwr.others - others))
  let du := govUnits w
  let boost := s.pwr.boost.length
  let k := ((List.range 96).filter (fun n => bitAt m.active n && !s.pwr.boost.contains n)).length
  let rise := s.pwr.units + du - 64 * boost
  let most := if b.beyond then min rise (govUnits b.tile - 64 * boost) else rise
  let act := if k = 0 then 64 else min 64 (most / k)
  let idle := if k + boost = 96 then 64 else min 64 ((most - k * (if k = 0 then 0 else act)) / (96 - k - boost))
  let floor := if s.flag PWR_SLOPE PWR_SLOPE_FALL_EN then min 64 ((s.pwr.units - du + 95) / 96) else 0
  (act, idle, floor, decide (0 < k) && decide (rise / (max 1 k) < 64))

/-- The ceiling and the floor of a tile in a step. -/
def State.govOf (s : State) (m : MenInput) (g : Nat × Nat × Nat × Bool) (n : Nat) : Nat × Nat :=
  let want := if s.pwr.boost.contains n then 64 else if bitAt m.active n then g.1 else g.2.1
  let ceil := min want (s.tileCap n)
  (ceil, min ceil g.2.2.1)

/-- The clocks withheld from a tile: 6,000 array clocks a step, in 64ths. -/
def govClocks (w : Nat) : Nat := (w * 375 + 3) / 4

/-- The governor registers of a tile after a step. -/
def State.govWrite (s : State) (n ceil floor : Nat) (work : Bool) : State :=
  let w := mget 0 s.pwr.withheld n + (if work then 64 - ceil else 0)
  let s1 := { s with pwr := { s.pwr with withheld := mset 0 s.pwr.withheld n w } }
  ((s1.wr (PWR_GOV n) PWR_GOV_CEIL ceil).wr (PWR_GOV n) PWR_GOV_FLOOR floor).wr (PWR_GOV n) PWR_GOV_GOV_CLK (govClocks w)

/-- A cluster's frequency after a step: the floor under a cap that took all it may, an open value between when it took a part, the
peak otherwise; and, on a hot H-die, 100 MHz lower down to 1.2 GHz (R466, R476, R477). -/
def State.clusterStep (s : State) (m : MenInput) (b : Budget) (want : Nat) : State :=
  let f := s.fresh
  let s1 := if b.beyond ∧ want ≠ b.hdie then f.2 else s
  let top := if b.hdie = want then 3000 else if b.hdie ≤ m.floorW.toNat then 2400 else 2400 + 100 * (f.1.toNat % 6)
  (List.range 4).foldl (fun (t : State) c =>
    let cur := mget 3000 t.pwr.freq c
    let now := if t.pwr.crit.contains (2 + c) then 1200
      else if t.pwr.hot.contains (2 + c) then max 1200 (min top cur - 100)
      else min top (if cur < 3000 then cur + 100 else 3000)
    { t with pwr := { t.pwr with freq := mset 3000 t.pwr.freq c now } }) s1

/-- The thermal ceilings of a step: 8 lower on a hot C-die, down to 8; 8 higher once it has been cool for 1 ms (R476). -/
def State.heatStep (s : State) : State :=
  [0, 1].foldl (fun (t : State) d =>
    let h := mget 64 t.pwr.heat d
    let now := if t.pwr.hot.contains d then max 8 (h - 8) else if 10 ≤ mget 0 t.pwr.cool d then min 64 (h + 8) else h
    { t with pwr := { t.pwr with heat := mset 64 t.pwr.heat d now } }) s

/-- PWR_STAT.THERMAL: a C-die or a cluster is throttled. -/
def State.thermalNow (s : State) : Bool := s.pwr.hot != [] || s.pwr.crit != [] || s.pwr.heat != []

/-- MENISCUS_STEP (R465 to R472): the cap is divided, the governor, HBM and cluster limits of the next step are set, and the
registers report it. -/
def execMeniscusStep (m : MenInput) (s : State) : Host.Outcome State Fault Refusal :=
  let s0 := s.heatStep
  let b := s0.divide m
  let g := s0.governor m b
  let capped : Bool := b.beyond && (decide (b.tile < m.tileW.toNat) || decide (b.hbm < m.hbmW.toNat) || decide (b.hdie < m.hdieW.toNat))
  let e := s0.effCap
  let gs := (List.range 96).map (fun n => (n, s0.govOf m g n))
  let units := (gs.map (fun x => if bitAt m.active x.1 then x.2.1 else x.2.2)).sum
  let idleF := (gs.map (fun x => if bitAt m.active x.1 then 0 else x.2.2)).sum
  let s1 := gs.foldl (fun (t : State) x => t.govWrite x.1 x.2.1 x.2.2 (bitAt m.active x.1)) s0
  let s2 := s1.clusterStep m b (max (s0.shares m).2.2 m.floorW.toNat)
  let filler := s2.pwr.filler + idleF
  let low : Bool := gs.any (fun x => bitAt m.active x.1 && decide (x.2.1 < s.rd PWR_CAP PWR_CAP_ADM_G))
  let s3 := { s2 with
    pwr := { s2.pwr with units := units, others := m.fixedW.toNat + m.hbmW.toNat + m.hdieW.toNat, filler := filler, boost := [],
                         hbmLevel := m.hbmLevel.val },
    hif := { s2.hif with capHold := capped && low, capCnt := s2.hif.capCnt + b2n capped } }
  let s4 := (s3.wr PWR_CAP PWR_CAP_EFF_W e).wr PWR_STAT PWR_STAT_CAPPED (b2n capped)
  let s5 := (s4.wrap PWR_STAT PWR_STAT_CAPPED_US (10 * b2n capped)).wr PWR_STAT PWR_STAT_CAPLVL (min 15 (16 * e / 2600))
  let s6 := (s5.wr PWR_STAT PWR_STAT_THERMAL (b2n s5.thermalNow)).sympRefresh
  let s7 := ((s6.wr PWR_BUDGET PWR_BUDGET_TILE_W b.tile).wr PWR_BUDGET PWR_BUDGET_HBM_W b.hbm).wr PWR_BUDGET PWR_BUDGET_HDIE_W b.hdie
  let s8 := ((s7.wr PWR_BUDGET PWR_BUDGET_FIXED_W m.fixedW.toNat).wr PWR_MEAS PWR_MEAS_IN_W m.inW.toNat).wr PWR_MEAS PWR_MEAS_IIN_MA
    m.iinMa.toNat
  let s9 := s8.wr PWR_SLOPE PWR_SLOPE_FILLER_MJ (filler * 1430 / 768000)
  let s10 := if g.2.2.2 then s9.bump PWR_SLOPE PWR_SLOPE_RISE_HELD else s9
  let f1 := s10.fresh
  let f2 := f1.2.fresh
  .next (f2.2.psc 3 f1.1.toNat f2.1.toNat)

/-- The measured power of a class averaged with weight 1/8, in 1/256 W. -/
def phAvg (old w : Nat) : Nat := old + w * 256 / 8 - old / 8

/-- PHASE_INTERVAL: the interval's signature and class powers enter the phase table, the prediction for it is scored, and the next
phase is predicted (R467). -/
def execPhaseInterval (sig : BitVec 16) (tileW hbmW hdieW fixedW : BitVec 16) (s : State) : Host.Outcome State Fault Refusal :=
  if ¬ s.flag PWR_PHASE PWR_PHASE_EN then .next s else
  let g := sig.toNat
  let s1 := s.wr PWR_PHASE PWR_PHASE_SIG g
  let s2 := if s.pwr.next = some g then s1.bump PWR_PHASE PWR_PHASE_HITS else s1.bump PWR_PHASE PWR_PHASE_MISSES
  let new : PhEnt := match s.phase g with
    | some e => { e with tile := phAvg e.tile tileW.toNat, hbm := phAvg e.hbm hbmW.toNat, hdie := phAvg e.hdie hdieW.toNat,
                         fixed := phAvg e.fixed fixedW.toNat }
    | none => { sig := g, tile := tileW.toNat * 256, hbm := hbmW.toNat * 256, hdie := hdieW.toNat * 256, fixed := fixedW.toNat * 256,
                next := none }
  let linked := s.pwr.phases.map (fun e => if s.pwr.lastSig = some e.sig then { e with next := some g } else e)
  let new2 := if s.pwr.lastSig = some g then { new with next := some g } else new
  let table := (new2 :: linked.filter (fun e => e.sig != g)).take 64
  .next { s2 with pwr := { s2.pwr with phases := table, lastSig := some g, next := new2.next } }

/-! ### Droop and ageing (R473 to R475) -/

/-- The key of a domain in the list of guard bands: its row in R464 and its instance. -/
def domKey : PwrDomain → Nat
  | .vtile p  => 256 * 0 + p.val
  | .vtsr p   => 256 * 1 + p.val
  | .vmesh d  => 256 * 2 + d.val
  | .vsc d    => 256 * 3 + d.val
  | .vhphy k  => 256 * 4 + k.val
  | .vfg d    => 256 * 6 + d.val
  | .vclus c  => 256 * 7 + c.val
  | .vunc     => 256 * 8
  | .vhio     => 256 * 9

/-- Every domain with monitors, as keys. -/
def domKeys : List Nat :=
  (List.range 104).map (256 * 0 + ·) ++ (List.range 104).map (256 * 1 + ·) ++ (List.range 2).map (256 * 2 + ·) ++
  (List.range 2).map (256 * 3 + ·) ++ (List.range 12).map (256 * 4 + ·) ++ (List.range 2).map (256 * 6 + ·) ++
  (List.range 4).map (256 * 7 + ·) ++ [256 * 8, 256 * 9]

/-- The guard band of a domain in 2.5 mV steps: at least 10 mV, at most 60 mV. -/
def State.band (s : State) (k : Nat) : Nat := mget 4 s.pwr.gb k

/-- A guard band set, and PWR_AGE's largest and smallest. -/
def State.setBand (s : State) (k v : Nat) : State :=
  { s with pwr := { s.pwr with gb := mset 4 s.pwr.gb k (min 24 (max 4 v)) } }

def State.bandRefresh (s : State) : State :=
  let bs := domKeys.map s.band
  (s.wr PWR_AGE PWR_AGE_WORST_GB (bs.foldl max 4)).wr PWR_AGE PWR_AGE_MIN_GB (bs.foldl min 24)

/-- The die whose firings a detector counts among: 0 and 1 the C-dies, 2 the H-die; the clock domain it stretches; and the domains
whose guard bands its firings raise. -/
def droopDie : DroopAt → Nat
  | .region d _ => d.val
  | _ => 2

def droopClock : DroopAt → Nat
  | .region d _ => d.val
  | .cluster c  => 2 + c.val
  | .unc        => 6

def droopBands : DroopAt → List Nat
  | .region d _ => (List.range 52).map (fun i => 256 * 0 + 52 * d.val + i) ++ [256 * 2 + d.val]
  | .cluster c  => [256 * 7 + c.val]
  | .unc        => [256 * 8]

/-- The firings counter of a die. -/
def droopCnt (d : Nat) : Fld := if d = 0 then PWR_DROOP_C0 else if d = 1 then PWR_DROOP_C1 else PWR_DROOP_HDIE

/-- DROOP_FIRE: a firing is counted and stretches its clocks; more than RATE on one die in one ms raise guard bands by one step, once
per ms (R473, R474). -/
def execDroopFire (at_ : DroopAt) (s : State) : Host.Outcome State Fault Refusal :=
  let d := droopDie at_
  let n := mget 0 s.pwr.fired d + 1
  let s1 := { s.bump PWR_DROOP (droopCnt d) with
    pwr := { s.pwr with fired := mset 0 s.pwr.fired d n, stretch := s.pwr.stretch.filter (· != droopClock at_) ++ [droopClock at_] } }
  if s.rd PWR_DROOP PWR_DROOP_RATE < n ∧ ¬ s.pwr.raised.contains d then
    let s2 := (droopBands at_).foldl (fun (t : State) k => t.setBand k (t.band k + 1)) s1
    let s2r : State := { s2 with pwr := { s2.pwr with raised := s2.pwr.raised ++ [d] } }
    let s3 := (s2r.bump PWR_AGE PWR_AGE_RAISES).bandRefresh
    .next (if s3.pwr.gb = s.pwr.gb then s3 else s3.logRec 8 0 [s3.reg PWR_AGE])
  else .next s1

/-- DROOP_RECOVERY: the stretched clocks are back to normal (R473). -/
def execDroopRecovery (at_ : DroopAt) (s : State) : Host.Outcome State Fault Refusal :=
  .next { s with pwr := { s.pwr with stretch := s.pwr.stretch.filter (· != droopClock at_) } }

/-- The physical tile of a tile domain. -/
def domTile : PwrDomain → Option Nat
  | .vtile p => some p.val
  | .vtsr p  => some p.val
  | _ => none

/-- One domain of an ageing check: the band that its margin needs, up at once or down by one step; a need above 60 mV raises AGEING
and is a tile fault for a tile (R475). -/
def State.ageOne (s : State) (d : PwrDomain) (needMv : Nat) : State :=
  let k := domKey d
  let want := ((needMv + 10) * 2 + 4) / 5
  let cur := s.band k
  let s1 := s.setBand k (if cur < want then want else cur - min 1 (cur - want))
  if 60 < needMv + 10 then
    let s2 := (s1.wr PWR_AGE PWR_AGE_LIMIT 1).event 0x33 0 (k / 256) (k % 256) (needMv + 10)
    match (domTile d).bind s2.carried with
    | some n => s2.tileFault n 4
    | none   => s2
  else s1

/-- AGEING_CHECK: the margins that the monitors of the listed domains show, in mV (R475). -/
def execAgeingCheck (needs : List (PwrDomain × Byte)) (s : State) : Host.Outcome State Fault Refusal :=
  let s1 := needs.foldl (fun (t : State) x => t.ageOne x.1 x.2.toNat) s
  let s2 := (s1.wrap PWR_AGE PWR_AGE_CHECKS 1).bandRefresh
  .next (if s2.pwr.gb = s.pwr.gb then s2 else s2.logRec 8 0 [s2.reg PWR_AGE])

/-! ### Heat (R476, R477) -/

/-- The lists of hot dies and clusters, of cool readings and of critical ones after a reading of key k: 0 and 1 the C-dies, 2 + c the
clusters. -/
def State.heatRead (s : State) (k t sensor : Nat) : State :=
  let thr := s.rd PWR_THERM PWR_THERM_TJ_THR
  let hot : Bool := decide (thr < t)
  let cool := if t + 3 < thr then mget 0 s.pwr.cool k + 1 else 0
  let crit : Bool := decide (s.rd PWR_THERM PWR_THERM_TJ_CRIT ≤ t)
  let s1 := { s with pwr := { s.pwr with
    hot := s.pwr.hot.filter (· != k) ++ (if hot then [k] else []),
    cool := mset 0 s.pwr.cool k cool,
    crit := s.pwr.crit.filter (· != k) ++ (if crit then [k] else []),
    heat := if crit && decide (k < 2) then mset 64 s.pwr.heat k 8 else s.pwr.heat } }
  if crit ∧ ¬ s.pwr.crit.contains k then (s1.wr PWR_STAT PWR_STAT_CRIT 1).event 0x34 4 (min k 2) sensor t else s1

/-- JUNCTION_READ: every 100 µs the hottest readings decide throttling; a junction at TJ_CRIT closes its die's ceilings or slows its
cluster at once (R476, R477). -/
def execJunctionRead (j : Junctions) (s : State) : Host.Outcome State Fault Refusal :=
  let hs := j.clus.map (·.toNat) ++ [j.hEdge.toNat]
  let h := hs.foldl max 0
  let top := max h (max j.c0.toNat j.c1.toNat)
  let die := if j.c0.toNat = top then 0 else if j.c1.toNat = top then 1 else 2
  let s0 := { s with pwr := { s.pwr with temps := [(0, j.c0.toNat), (1, j.c1.toNat), (2, h)] } }
  let s1 := (s0.wr PWR_THERM PWR_THERM_TJ_MAX top).wr PWR_THERM PWR_THERM_HOT die
  let s2 := (s1.heatRead 0 j.c0.toNat j.c0At.toNat).heatRead 1 j.c1.toNat j.c1At.toNat
  let s3 := (List.range 4).foldl (fun (t : State) c => t.heatRead (2 + c) (j.clus.getD c 0).toNat c) s2
  let s4 := s3.wr PWR_STAT PWR_STAT_THERMAL (b2n s3.thermalNow)
  let s5 := (List.range 96).foldl (fun (t : State) n =>
    if t.pwr.crit.contains (tileDie n) then t.wr (PWR_GOV n) PWR_GOV_CEIL 0 else t) s4
  let s6 := { s5 with pwr := { s5.pwr with freq := (List.range 4).foldl (fun m c =>
    if s5.pwr.crit.contains (2 + c) then mset 3000 m c 1200 else m) s5.pwr.freq } }
  .next (if s6.thermalNow then s6.wrap PWR_THERM PWR_THERM_THR_US 100 else s6)

/-- TJ_CRIT_HOLD_EXPIRE: a junction has stayed at TJ_CRIT for 10 ms, and the P-dies stop (R477). -/
def execTjCritHoldExpire (s : State) : Host.Outcome State Fault Refusal :=
  .next (if s.pwr.crit = [] then s else s.powerLost 4)

/-! ### Idle states (R478 to R480) -/

/-- PWR_IDLE.STATE codes, and the wake latency of a state in µs. -/
abbrev idActive : Nat := 0
abbrev idPoised : Nat := 1
abbrev idDormant : Nat := 2
abbrev idStowed : Nat := 3

def wakeLatency (st : Nat) : Nat := if st = 3 then 40000 else if st = 2 then 2000 else if st = 1 then 20 else 0

/-- The deepest idle state TOL_US allows. -/
def State.idleAllowed (s : State) : Nat :=
  let t := s.rd PWR_IDLE PWR_IDLE_TOL_US
  if 40000 ≤ t ∧ s.flag PWR_IDLE PWR_IDLE_FABRIC_OK then 3 else if 2000 ≤ t then 2 else if 20 ≤ t then 1 else 0

/-- Every store buffer issued, as before a state that gates the L2s (R478). -/
def State.sbIssueAll (s : State) : State := (List.range 96).foldl (fun (t : State) c => t.sbIssue c) s

/-- The conditions of R479 that the state shows: no admitted descriptor unfinished, every tile at rest with no epoch open, nothing in
progress, and every core off or waiting. -/
def State.idleReady (s : State) : Bool :=
  (List.range 1024).all (fun n => s.rd (HIF_RING_STAT n) HIF_RING_STAT_OUTSTANDING == 0) &&
  (List.range 96).all (fun n => [tsUnbound, tsReady, tsOffline].contains (s.tst n) && s.epoSt n == esClosed) &&
  s.spw.run.isNone && s.prs.all (fun p => p.2.run == []) && s.coh.mnt.isNone &&
  (List.range 12).all (fun k => !s.flag (HBM_REBUILD k) HBM_REBUILD_BUSY) && s.yar.tests == [] &&
  (List.range 96).all (fun c => [0, 4, 6].contains (s.rd (MGT_CORE_STAT c) MGT_CORE_STAT_STATE) || (s.core c).wfi)

/-- IDLE_ENTRY: the idle conditions have held for HYST_US and the package enters the deepest allowed state (R478, R479).  Dormant
waits until the store buffers are empty and empties the L2s; Stowed also cleans the system caches, loses the tile stores and takes the Fugen links down. -/
def execIdleEntry (s : State) : Host.Outcome State Fault Refusal :=
  let st := s.idleAllowed
  if s.rd PWR_IDLE PWR_IDLE_STATE ≠ idActive ∨ st = 0 ∨ ¬ s.idleReady then .next s else
  if st ≠ 1 ∧ s.cores.any (fun p => p.2.sb != []) then .next s.sbIssueAll else
  let s1 := (s.wr PWR_IDLE PWR_IDLE_STATE st).bump PWR_IDLE_STAT
    (if st = 1 then PWR_IDLE_STAT_POISED else if st = 2 then PWR_IDLE_STAT_DORMANT else PWR_IDLE_STAT_STOWED)
  let s2 := if st = 1 then s1 else (List.range 96).foldl (fun (t : State) c => t.agentFlush (0x80 + c)) s1
  if st ≠ 3 then .next s2 else
  let s3 := (s2.agentFlush 0x10).agentFlush 0x20
  let s4 := (List.range 96).foldl (fun (t : State) n =>
    t.setTile n { t.tile n with store := [], storePois := [] }) s3
  .next (((List.range 24).foldl (fun (t : State) l => t.lkDisable l) s4).refreshFgnPorts)

/-- A wake begins. -/
def State.wake (s : State) : State :=
  if s.rd PWR_IDLE PWR_IDLE_STATE = idActive then s else { s with pwr := { s.pwr with waking := true } }

/-- WAKE_EVENT: a doorbell, an interrupt, an access to a gated unit, or a TOL_US below the state's latency (R480). -/
def execWakeEvent (cause : WakeCause) (s : State) : Host.Outcome State Fault Refusal :=
  match cause with
  | .tolerance => .next (if s.rd PWR_IDLE PWR_IDLE_TOL_US < wakeLatency (s.rd PWR_IDLE PWR_IDLE_STATE) then s.wake else s)
  | _ => .next s.wake

/-- PWR_IDLE_WAKE: PWR_IDLE.WAKE written 1 (R480). -/
def execPwrIdleWake (s : State) : Host.Outcome State Fault Refusal := .next s.wake

/-- WAKE_COMPLETE: full operation is back; after Stowed each bound logical ID reloads its facet, and the links train again (R480). -/
def execWakeComplete (us : BitVec 16) (s : State) : Host.Outcome State Fault Refusal :=
  if ¬ s.pwr.waking then .next s else
  let st := s.rd PWR_IDLE PWR_IDLE_STATE
  let s1 := (s.wr PWR_IDLE PWR_IDLE_STATE idActive).wr PWR_IDLE_STAT PWR_IDLE_STAT_LAST_WAKE_US us.toNat
  let s2 := { s1 with pwr := { s1.pwr with waking := false } }
  if st ≠ idStowed then .next s2 else
  let s3 := (List.range 96).foldl (fun (t : State) n =>
    if (t.tile n).bind.isSome ∧ t.tst n = tsReady then t.setTst n tsLoading else t) s2
  .next (if s3.flag FGN_CFG FGN_CFG_EN then ((List.range 24).foldl (fun (t : State) l => t.lkEnable l) s3).refreshFgnPorts else s3)

/-- ENERGY_UPDATE: every 1 ms the input energy is added, in mJ; the ms of R474 begins anew (R481). -/
def execEnergyUpdate (mj : W32) (s : State) : Host.Outcome State Fault Refusal :=
  .next { s.wrap PWR_ENERGY PWR_ENERGY_MJ mj.toNat with pwr := { s.pwr with fired := [], raised := [] } }

end Sys2Proof.Machine
end

