-- ==== Sys2Proof/Machine/Yelry.lean ====
section
/-!
DEFINITION. The Yelry cores as the block sees them (spec/12, spec/16): the store buffer, loads and stores, reserved and atomic
accesses, I/O, cache-block operations, traps, start, park and offline, CSRs, interrupts and timers, and the DDR and CXL rows.
An address is physical: the hart's own page walk has given it, with the page's Svpbmt attribute.

Where the spec leaves open or is read by inference, and what is taken from outside it (DESIGN CHOICE, DEDUCED, PRESUMED):
notes/assumptions/28.md, 29.md, 30.md, 60.md, 85.md.
-/

namespace Sys2Proof.Machine

open Sys2Proof

/-! ### Harts -/

/-- The bytes of an access size. -/
def accBytesN : AccSize → Nat
  | .b1 => 1
  | .b2 => 2
  | .b4 => 4
  | .b8 => 8

/-- A hart executes instructions: its core is RUNNING, no warm reset holds it, and nothing it waits for is draining (R331, R333). -/
def State.hartRuns (s : State) (c : Nat) : Bool :=
  s.coreSt c == csRunning && s.mgt.warm == .idle && !((s.core c).draining && (s.core c).sb != [])

/-- An instruction of a hart; one that cannot execute now waits. -/
def State.hart (s : State) (c : Nat) (f : State → State) : Host.Outcome State Fault Refusal :=
  .next (if s.hartRuns c then f (s.setCore c { s.core c with wfi := false, draining := false }) else s)

/-- The buffer issues everything, and what follows waits until it is empty (R331). -/
def State.drain (s : State) (c : Nat) : State :=
  let s1 := s.sbIssue c
  s1.setCore c { s1.core c with draining := true }

/-- A trap with its cause and address: the reservation is lost, and the handler waits for the buffer to drain (R331, R334). -/
def State.hartTrap (s : State) (c cause addr : Nat) : State :=
  let s1 := s.setCore c { s.core c with exc := some (cause, addr), resv := none }
  s1.drain c

/-- An access is an I/O access: through an IO page, or to a device-kind range of this node (R329). -/
def State.ioAddr (s : State) (a : Nat) (page : PageAttr) : Bool :=
  page == .io || (nodeOf a == s.node && decide (0x70000000000 ≤ localOf a))

/-- An access consumed poison: the core's record gets it (R443). -/
def State.poisonUsed (s : State) (c a : Nat) : State := s.setCore c ((s.core c).record 5 true (alignDown a 64))

/-! ### The store buffer (R330 to R333) -/

/-- A drop is counted, recorded while no record is held, and raises interrupt 35 (R332, R448). -/
def YCore.dropped (x : YCore) (line cause : Nat) (issued : Bool) : YCore :=
  let n := min 0xFFFFFFFF (bits x.ysbcnt 31 0 + 1)
  let err := if bitAt x.ysberr 60 then x.ysberr
    else BitVec.ofNat 64 (line % 2 ^ 56 + cause * 2 ^ 56 + b2n issued * 2 ^ 59 + 2 ^ 60)
  { x with ysbcnt := BitVec.ofNat 64 (nset x.ysbcnt.toNat 31 0 n), ysberr := err, ras := true, wfi := false }

/-- Entries that remain 10 µs after a warm reset or a fault of the core are discarded: counted, and the first recorded (R333). -/
def YCore.discarded (x : YCore) : YCore :=
  match x.sb with
  | [] => x
  | e :: _ =>
    let n := min 0xFFFF (bits x.ysbcnt 47 32 + x.sb.length)
    let err := if bitAt x.ysberr 60 then x.ysberr
      else BitVec.ofNat 64 (e.line % 2 ^ 56 + 5 * 2 ^ 56 + b2n e.issued * 2 ^ 59 + 2 ^ 60)
    { x with ysbcnt := BitVec.ofNat 64 (nset x.ysbcnt.toNat 47 32 n), ysberr := err, sb := [], draining := false }

/-- Bytes the buffer holds of n bytes at an address, the youngest entry of each. -/
def sbByte (sb : List SbEnt) (a : Nat) : Option Byte :=
  ((sb.reverse.find? (fun e => e.line == alignDown a 64 && nbits e.mask (a % 64) (a % 64) == 1))).map
    (fun e => BitVec.ofNat 8 (bits e.data (8 * (a % 64) + 7) (8 * (a % 64))))

def sbOver (sb : List SbEnt) (a : Nat) : List Byte → List Byte
  | [] => []
  | b :: bs => (sbByte sb a).getD b :: sbOver sb (a + 1) bs

/-- The buffer holds every byte of an access. -/
def sbCovers (sb : List SbEnt) (a n : Nat) : Bool := (List.range n).all (fun i => (sbByte sb (a + i)).isSome)

/-- The buffer holds a store to a line. -/
def State.sbHas (s : State) (c line : Nat) : Bool := (s.core c).sb.any (fun e => e.line == line)

/-- The pieces of an access by line: address and bytes. -/
def linePieces (a : Nat) (bs : List Byte) : List (Nat × List Byte) :=
  let m := 64 - a % 64
  if bs.length ≤ m then [(a, bs)] else [(a, bs.take m), (a + m, bs.drop m)]

/-- One line's part of a store merged into the entry that has not issued, or put in a new entry (R330). -/
def sbMerge (st : Bool) (sb : List SbEnt) (p : Nat × List Byte) : List SbEnt :=
  let line := alignDown p.1 64
  let mask := (2 ^ p.2.length - 1) * 2 ^ (p.1 % 64)
  let data : Line := BitVec.ofNat 512 (leVal p.2 * 2 ^ (8 * (p.1 % 64)))
  if sb.any (fun e => e.line == line && !e.issued) then
    sb.map (fun e => if e.line = line ∧ ¬ e.issued then
      { e with mask := e.mask ||| mask, data := mergeLine e.data data mask, stream := e.stream && st } else e)
  else sb ++ [{ line := line, mask := mask, data := data, issued := false, stream := st }]

/-- The entry a completion or a timer is about: the oldest of its line. -/
def State.sbTake (s : State) (c line : Nat) : Option (SbEnt × State) :=
  (takeFirst (fun e => e.line == line) (s.core c).sb).map (fun p =>
    let x := s.core c
    (p.1, s.setCore c { x with sb := p.2, draining := x.draining && p.2 != [] }))

/-- An entry's write to memory of this node: its answer, or POISONED where its line would come over a link without poison (R23, R332). -/
def State.sbPerform (s : State) (c : Nat) (e : SbEnt) : State × StoreAnswer :=
  let a := localOf e.line
  let blind : Bool := match linkBetween 2 (s.dieAt a) with
    | some l => !s.flag (MGT_CRA_STAT l) MGT_CRA_STAT_POISON_ON && e.mask != 2 ^ 64 - 1 && s.cohPoison a (s.tierKey a)
    | none   => false
  if blind && s.isMem e.line 64 && !s.cut 2 a && (s.cLine (0x80 + c) a).isNone then
    (match linkBetween 2 (s.dieAt a) with
     | some l => (s.bump (MGT_CRA_ERR l) MGT_CRA_ERR_POISON_CONV, .poisoned)
     | none   => (s, .poisoned))
  else
    (byteRuns e.mask).foldl (fun (acc : State × StoreAnswer) r =>
      match acc.2 with
      | .ok =>
        (match acc.1.busWrite 2 false (e.line + r.1) (slice (leBytes 64 e.data.toNat) r.1 r.2) false (some (0x80 + c)) e.stream with
         | (t, .ok)     => (t, .ok)
         | (t, .error)  => (t, .error)
         | (t, .absent) => (t, .absent))
      | _ => acc) (s, .ok)

/-- An issued entry for this node that is given up: whether its target performs it is open (R332, R333). -/
def State.sbMaybe (s : State) (c : Nat) (e : SbEnt) : State :=
  if e.issued && nodeOf e.line == s.node then
    let f := s.fresh
    if bitAt f.1 0 then
      if f.2.cut 2 (localOf e.line) then
        if ¬ f.2.isMem e.line 64 then f.2 else
        (byteRuns e.mask).foldl (fun (t : State) r => t.memWrite (localOf e.line + r.1) (slice (leBytes 64 e.data.toNat) r.1 r.2) false) f.2
      else (f.2.sbPerform c e).1
    else f.2
  else s

/-- An entry's completion: freed, or dropped with the cause of its answer (R332). -/
def State.sbEnd (s : State) (c : Nat) (e : SbEnt) (ans : StoreAnswer) : State :=
  match ans with
  | .ok       => s
  | .error    => s.setCore c ((s.core c).dropped e.line 1 false)
  | .absent   => s.setCore c ((s.core c).dropped e.line 2 true)
  | .poisoned => s.setCore c ((s.core c).dropped e.line 3 false)

/-- STORE_BUFFER_COMPLETION: the oldest entry of a line completes.  An entry for this node is performed and answered by its target;
one for another node is answered as ans says. -/
def execStoreBufferCompletion (c : CoreId) (line : Word) (ans : StoreAnswer) (s : State) : Host.Outcome State Fault Refusal :=
  let l := alignDown line.toNat 64
  let s0 := if (s.core c).sb.any (fun e => e.line == l && e.issued) then s else s.sbIssue c
  .next (match s0.sbTake c l with
    | none => s
    | some (e, s1) =>
      if nodeOf e.line = s.node then
        let r := s1.sbPerform c e
        let old : Bool := (s.core c).sb.any (fun e => e.line == l && e.issued)
        (if old ∧ r.2 = .absent then r.1.sbMaybe c e else r.1).sbEnd c e r.2
      else s1.sbEnd c e ans)

/-- STORE_BUFFER_TIMEOUT: 200 µs after its allocation, the oldest entry of a line is dropped (R332). -/
def execStoreBufferTimeout (c : CoreId) (line : Word) (s : State) : Host.Outcome State Fault Refusal :=
  .next (match s.sbTake c (alignDown line.toNat 64) with
    | none => s
    | some (e, s1) =>
      let s2 := s1.sbMaybe c e
      s2.setCore c ((s2.core c).dropped e.line 4 e.issued))

/-- What a buffer still holds is given up. -/
def State.sbDiscard (s : State) (c : Nat) : State :=
  let s1 := (s.core c).sb.foldl (fun (t : State) e => t.sbMaybe c e) s
  s1.setCore c (s1.core c).discarded

/-- WARM_RESET_DISCARD: what every buffer still holds 10 µs after a warm reset was asserted (R333). -/
def execWarmResetDiscard (s : State) : Host.Outcome State Fault Refusal :=
  if s.mgt.warm = .idle then .next s else
  .next ((List.range 96).foldl (fun (t : State) c => t.sbDiscard c) s)

/-! ### Reads -/

/-- A line of the core's L2 as its arrays find it; an L1 data line lies in the L2 too (R261, R443). -/
def State.dataFind (s : State) (c line : Nat) (l2 : Bool) (f : CacheFinding) : State :=
  let ag := 0x80 + c
  if l2 then s.cacheFind ag line f else
  match s.cLine ag line, f with
  | some k, .corrected => if k.st.stable ∧ (mfind (s.core c).l1d line).isSome then s.setCore c ((s.core c).corrected 2 (s.node * 2 ^ 43 + line)) else s
  | some k, .uncorrectable =>
    if k.st.stable ∧ (mfind (s.core c).l1d line).isSome then (s.setLine ag line { k with poison := true }).setCore c ((s.core c).uncorrected 2 (s.node * 2 ^ 43 + line)) else s
  | _, _ => s

/-- A set of an L1 cache, 64 sets of 16 ways: the way for a line that is not there, a free one or the tree's victim (R261, R262, R266). -/
def yl1Way (ways : List Nat) (tree : Nat) : Nat :=
  ((List.range 16).find? (fun w => !ways.contains w)).getD (treeVictim (List.range 16) tree 4 1)

def yl1Set (line : Nat) : Nat := line / 64 % 64

/-- A line of the L2 read through the L1 data cache: a hit, or a fill, which as a streaming one leaves the tree (R261, R266, R441). -/
def YCore.l1dRead (x : YCore) (line : Nat) (stream : Bool) : YCore :=
  let set := yl1Set line
  let tree := mget 0 x.l1dLru set
  match mfind x.l1d line with
  | some w => { x with l1dLru := mset 0 x.l1dLru set (treeTouch tree w) }
  | none =>
    let ls := x.l1d.filter (fun p => yl1Set p.1 == set)
    let w := yl1Way (ls.map (·.2)) tree
    { x with l1d := mput (x.l1d.filter (fun p => !(yl1Set p.1 == set && p.2 == w))) line w,
             l1dLru := if stream then x.l1dLru else mset 0 x.l1dLru set (treeTouch tree w) }

/-- The L1 data cache's part in a load of a line that its L2 now holds. -/
def State.l1dLoad (s : State) (c line : Nat) (stream : Bool) : State :=
  if (s.cLine (0x80 + c) line).any (fun k => k.st.stable) then s.setCore c ((s.core c).l1dRead line stream) else s

/-- A hart's read of n bytes: another node through the H-die's buffer for a PMA page (R291); this node's memory through the core's L2,
which a PMA page fills (R276). -/
def State.hartRead (s : State) (c a n : Nat) (page : PageAttr) (kind : RdKind := .fill) : State × Rd :=
  if nodeOf a ≠ s.node ∧ page = .pma ∧ s.rrbOn 0 then s.bufRead 0 a n
  else s.busRead 2 false a n (if page = .pma then kind else .once) (some (0x80 + c))

/-- A fetched line entered in the L1 instruction cache: 64 sets of 16 ways, tree pseudo-LRU (R261, R266). -/
def YCore.l1iFill (x : YCore) (line : Nat) (data : Line) (poison : Bool) : YCore :=
  let set := yl1Set line
  let way := yl1Way ((x.l1i.filter (fun p => yl1Set p.1 == set && p.1 != line)).map (fun p => p.2.way)) (mget 0 x.l1iLru set)
  let rest := x.l1i.filter (fun p => !(yl1Set p.1 == set && (p.1 == line || p.2.way == way)))
  { x with l1i := mput rest line { data := data, poison := poison, way := way },
           l1iLru := mset 0 x.l1iLru set (treeTouch (mget 0 x.l1iLru set) way) }

/-- An instruction fetch of one line's bytes: from the L1 instruction cache, whose copy may be old, or by a fill (R442, R443). -/
def State.fetch (s : State) (c a n : Nat) (page : PageAttr) (f : CacheFinding) : State :=
  let line := alignDown a 64
  let x := s.core c
  let x1 := match mfind x.l1i line, f with
    | some _, .corrected => x.corrected 1 line
    | some _, .uncorrectable => { x.corrected 1 line with l1i := mdel x.l1i line }
    | _, _ => x
  let s1 := s.setCore c x1
  match mfind x1.l1i line with
  | some k =>
    let set := yl1Set line
    let s2 := s1.setCore c { x1 with l1iLru := mset 0 x1.l1iLru set (treeTouch (mget 0 x1.l1iLru set) k.way) }
    if k.poison then s2.hartTrap c 1 a else { s2 with answer := .data (slice (leBytes 64 k.data.toNat) (a % 64) n) false }
  | none =>
    if s.isMem line 64 then
      match s1.hartRead c line 64 page with
      | (s2, .ok bs p) =>
        let s3 := s2.setCore c ((s2.core c).l1iFill line (BitVec.ofNat 512 (leVal bs)) p)
        if p then s3.hartTrap c 1 a else { s3 with answer := .data (slice bs (a % 64) n) false }
      | (s2, _) => s2.hartTrap c 1 a
    else match s1.hartRead c a n page with
      | (s2, .ok bs p) => if p then s2.hartTrap c 1 a else { s2 with answer := .data bs false }
      | (s2, _)        => s2.hartTrap c 1 a

/-! ### I/O accesses (R329, R343) -/

/-- An I/O access once the buffer is empty: a load that fails or brings poison is an access fault; a store that fails is counted as a
drop (R343 case 15). -/
def State.ioAccess (s : State) (c a n : Nat) (store : Option Word) : State :=
  if (s.core c).sb != [] then s.sbIssue c else
  let s0 := s.setCore c { s.core c with resv := none }
  match store with
  | none =>
    (match s0.busRead 2 false a n with
     | (s1, .ok bs p) => if p then (s1.poisonUsed c a).hartTrap c 5 a else { s1 with answer := .data bs false }
     | (s1, _)        => s1.hartTrap c 5 a)
  | some v =>
    match s0.busWrite 2 false a (leBytes n v.toNat) false with
    | (s1, .ok)     => { s1 with answer := .done }
    | (s1, .error)  => s1.setCore c ((s1.core c).dropped (alignDown a 64) 1 false)
    | (s1, .absent) => s1.setCore c ((s1.core c).dropped (alignDown a 64) 2 true)

/-- IO_ACCESS. -/
def execIoAccess (c : CoreId) (pa : Word) (size : AccSize) (store : Option Word) (s : State) : Host.Outcome State Fault Refusal :=
  s.hart c (fun t => t.ioAccess c pa.toNat (accBytesN size) store)

/-! ### Loads and stores -/

/-- A load of memory or of another node: the buffer's bytes first, then the caches or the fabric (R330). -/
def State.load (s : State) (c a n : Nat) (page : PageAttr) (hint : Ntl) (l2 : Bool) (f : CacheFinding) : State :=
  let sb := (s.core c).sb
  if sbCovers sb a n then { s with answer := .data (sbOver sb a (List.replicate n 0)) false } else
  let mem : Bool := s.isMem a n
  let line := localOf (alignDown a 64)
  let s1 := if mem then s.dataFind c line l2 f else if f = .uncorrectable then s.rrbPoison 0 (alignDown a 64) else s
  match s1.hartRead c a n page (if hint = .all then .stream else .fill) with
  | (s2, .ok bs p) =>
    if p then (s2.poisonUsed c a).hartTrap c 5 a
    else { (if mem ∧ page = .pma then s2.l1dLoad c line (hint != .plain) else s2) with answer := .data (sbOver sb a bs) false }
  | (s2, _) => s2.hartTrap c 5 a

/-- YELRY_LOAD: a load, or, through the L1 instruction cache, a fetch; arr is the array whose finding f is. -/
def execYelryLoad (c : CoreId) (pa : Word) (size : AccSize) (page : PageAttr) (hint : Ntl) (arr : CoreArray) (f : CacheFinding) (s : State) :
    Host.Outcome State Fault Refusal :=
  let a := pa.toNat
  let n := accBytesN size
  s.hart c (fun t =>
    match arr with
    | .l1i => t.fetch c a n page f
    | .l1d => if t.ioAddr a page then t.ioAccess c a n none else t.load c a n page hint false f
    | .l2  => if t.ioAddr a page then t.ioAccess c a n none else t.load c a n page hint true f)

/-- YELRY_STORE: a retired store; issue says that its entry issues now.  A full buffer stalls it (R330). -/
def execYelryStore (c : CoreId) (pa : Word) (size : AccSize) (page : PageAttr) (hint : Ntl) (data : Word) (issue : Bool) (s : State) :
    Host.Outcome State Fault Refusal :=
  let a := pa.toNat
  let n := accBytesN size
  s.hart c (fun t =>
    if t.ioAddr a page then t.ioAccess c a n (some data) else
    let x := t.core c
    let sb := (linePieces a (leBytes n data.toNat)).foldl (sbMerge (hint == .all)) x.sb
    if 56 < sb.length then t else
    let t1 := t.setCore c { x with sb := sb }
    if issue then t1.sbIssue c else t1)

/-- YELRY_FENCE: one whose predecessor set (I, O, R, W from bit 3) includes W or O drains the buffer (R331). -/
def execYelryFence (c : CoreId) (pred : BitVec 4) (s : State) : Host.Outcome State Fault Refusal :=
  s.hart c (fun t =>
    let t1 := t.setCore c { t.core c with resv := none }
    if bitAt pred 0 || bitAt pred 2 then t1.drain c else t1)

/-- FENCE_I: the buffer drains and the L1 instruction cache is invalidated (R442). -/
def execFenceI (c : CoreId) (s : State) : Host.Outcome State Fault Refusal :=
  s.hart c (fun t => (t.setCore c { t.core c with l1i := [], l1iLru := [] }).drain c)

/-! ### Reserved and atomic accesses (R334, R335) -/

/-- LR and SC stay within memory of this node mapped PMA. -/
def State.resvOk (s : State) (a n : Nat) (page : PageAttr) : Bool := page == .pma && s.isMem a n

/-- LR: reads, reserves the line, and holds back its snoops for a while. -/
def execLr (c : CoreId) (pa : Word) (dw : Bool) (page : PageAttr) (aqrl : Bool) (s : State) : Host.Outcome State Fault Refusal :=
  let a := pa.toNat
  let n := if dw then 8 else 4
  s.hart c (fun t =>
    let sb := (t.core c).sb
    if a % n ≠ 0 then t.hartTrap c 4 a
    else if ¬ t.resvOk a n page then t.hartTrap c 5 a
    else if aqrl && sb != [] then t.sbIssue c
    else match t.hartRead c a n page with
      | (t1, .ok bs p) =>
        if p && !sbCovers sb a n then (t1.poisonUsed c a).hartTrap c 5 a else
        let t2 := t1.l1dLoad c (localOf (alignDown a 64)) false
        { t2.setCore c { t2.core c with resv := some { line := alignDown a 64, addr := a, size := n, held := true } } with
          answer := .data (sbOver sb a bs) false }
      | (t1, _) => t1.hartTrap c 5 a)

/-- SC: stores and answers 0 when the reservation of its address and size is held, else answers 1; the reservation ends. -/
def execSc (c : CoreId) (pa : Word) (dw : Bool) (page : PageAttr) (data : Word) (aqrl : Bool) (s : State) : Host.Outcome State Fault Refusal :=
  let a := pa.toNat
  let n := if dw then 8 else 4
  s.hart c (fun t =>
    if a % n ≠ 0 then t.hartTrap c 6 a
    else if ¬ t.resvOk a n page then t.hartTrap c 7 a
    else if (aqrl && (t.core c).sb != []) || t.sbHas c (alignDown a 64) then t.sbIssue c
    else
      let held : Bool := match (t.core c).resv with
        | some r => r.addr == a && r.size == n
        | none   => false
      let t1 := t.setCore c { t.core c with resv := none }
      if ¬ held then { t1 with answer := .data (leBytes 8 1) false } else
      match t1.busWrite 2 false a (leBytes n data.toNat) false (some (0x80 + c)) with
      | (t2, .ok) => { t2 with answer := .data (leBytes 8 0) false }
      | (t2, _)   => t2.hartTrap c 7 a)

/-- RESERVATION_HOLD_EXPIRE: after 64 cycles snoops of the line are answered. -/
def execReservationHoldExpire (c : CoreId) (s : State) : Host.Outcome State Fault Refusal :=
  match (s.core c).resv with
  | some r => .next (s.setCore c { s.core c with resv := some { r with held := false } })
  | none   => .next s

/-- The AUX operation of an AMO (R209); a swap has none. -/
def amoAux : AmoOp → Option Nat
  | .swap => none
  | .add  => some 0
  | .xor  => some 1
  | .or   => some 2
  | .and  => some 3
  | .min  => some 4
  | .max  => some 5
  | .minu => some 6
  | .maxu => some 7

/-- YELRY_AMO: the old value is answered; one for another node is sent to its target uncached (R291, R335). -/
def execYelryAmo (c : CoreId) (pa : Word) (dw : Bool) (op : AmoOp) (data : Word) (aqrl : Bool) (s : State) : Host.Outcome State Fault Refusal :=
  let a := pa.toNat
  let n := if dw then 8 else 4
  let v := data.toNat % 2 ^ (8 * n)
  s.hart c (fun t =>
    if a % n ≠ 0 then t.hartTrap c 6 a
    else if (aqrl && (t.core c).sb != []) || t.sbHas c (alignDown a 64) then t.sbIssue c
    else if t.isMem a n && t.anyPoison (localOf a) 1 then (t.poisonUsed c a).hartTrap c 7 a
    else
      let r := match amoAux op with
        | some k => t.memAmo 2 a n k v (some (0x80 + c))
        | none   => t.memRmw 2 a n (fun _ => v) 9 v (some (0x80 + c))
      match r with
      | (t1, .ok old p) => if p then (t1.poisonUsed c a).hartTrap c 7 a else { t1 with answer := .data (leBytes n old) false }
      | (t1, _)         => t1.hartTrap c 7 a)

/-! ### Cache-block operations and prefetches (R440, R293) -/

/-- CBO_ZERO: the whole line is written with zeros, which clears its poison (R444). -/
def execCboZero (c : CoreId) (pa : Word) (s : State) : Host.Outcome State Fault Refusal :=
  let a := alignDown pa.toNat 64
  s.hart c (fun t =>
    if t.sbHas c a then t.sbIssue c
    else if t.ioAddr a .pma then t.hartTrap c 7 a
    else match t.busWrite 2 false a (List.replicate 64 0) false (some (0x80 + c)) with
      | (t1, .ok) => { t1 with answer := .done }
      | (t1, _)   => t1.hartTrap c 7 a)

/-- CMO of a core on a line of this node's memory, after the buffer's stores to it; a remote line leaves the H-die's buffer. -/
def State.cboRun (s : State) (c a : Nat) (op : CohOp) (inval : Bool) : State :=
  if s.sbHas c a then s.sbIssue c else
  match s.cohLine a with
  | some l => s.cmo (0x80 + c) l op
  | none =>
    if inval && nodeOf a != s.node then { s with coh := { s.coh with rrb := mdel s.coh.rrb a } } else s

/-- CBO_CLEAN. -/
def execCboClean (c : CoreId) (pa : Word) (s : State) : Host.Outcome State Fault Refusal :=
  s.hart c (fun t => t.cboRun c (alignDown pa.toNat 64) .cmoClean false)

/-- CBO_FLUSH. -/
def execCboFlush (c : CoreId) (pa : Word) (s : State) : Host.Outcome State Fault Refusal :=
  s.hart c (fun t => t.cboRun c (alignDown pa.toNat 64) .cmoFlush true)

/-- CBO_INVAL. -/
def execCboInval (c : CoreId) (pa : Word) (s : State) : Host.Outcome State Fault Refusal :=
  s.hart c (fun t => t.cboRun c (alignDown pa.toNat 64) .cmoFlush true)

/-- PREFETCH: a normal fill of the L2; ignored for device-kind and remote addresses; one answered with an error is counted (R440,
R488). -/
def execPrefetch (c : CoreId) (pa : Word) (s : State) : Host.Outcome State Fault Refusal :=
  let a := alignDown pa.toNat 64
  s.hart c (fun t =>
    if nodeOf a ≠ t.node ∨ t.ioAddr a .pma then t else
    match t.localRead 2 (localOf a) 64 .fill (some (0x80 + c)) with
    | (t1, .ok _ _) => t1
    | (t1, _)       => t1.bump TST_DROP TST_DROP_PREFETCH)

/-! ### Start, park and offline (R455 to R458) -/

/-- An interrupt is pending at a core: interrupt 35, a timer, or an identity of its files. -/
def State.irqPending (s : State) (c : Nat) : Bool :=
  let x := s.core c
  x.ras || x.mtip || x.stip || mget 0 s.imsic c != 0 || mget 0 s.imsic (96 + c) != 0

/-- WFI: the core starts to park when a park is requested and nothing is pending; else it waits, unless something is pending. -/
def execWfi (c : CoreId) (s : State) : Host.Outcome State Fault Refusal :=
  s.hart c (fun t =>
    if t.irqPending c then t
    else if t.flag (MGT_CORE_STAT c) MGT_CORE_STAT_PARK_PEND then
      let t1 := (t.setCoreSt c csParking).sbIssue c
      t1.setCore c { t1.core c with drained := false }
    else t.setCore c { t.core c with wfi := true })

/-- What a core keeps without power: its store-buffer records, which only cold reset clears (R344, R457). -/
def YCore.unpowered (x : YCore) : YCore := { YCore.reset with ysberr := x.ysberr, ysbcnt := x.ysbcnt }

/-- A core that is OFF or PARKED starts, its caches empty; any other refuses (R455). -/
def State.coreStart (s : State) (c : Nat) : State :=
  if s.coreSt c = csOff ∨ s.coreSt c = csParked then
    let s1 := ((s.setCoreSt c csStarting).wrap (MGT_CORE_STAT c) MGT_CORE_STAT_STARTS 1).setCore c (s.core c).unpowered
    { s1 with caches := mset [] s1.caches (0x80 + c) [] }
  else s.wr (MGT_CORE_CTL c) MGT_CORE_CTL_START_REFUSED 1

/-- CORE_START. -/
def execCoreStart (c : CoreId) (s : State) : Host.Outcome State Fault Refusal := .next (s.coreStart c)

/-- CORE_POWER_GOOD: the core runs from MGT_CORE_PCc in M-mode, with a0 = mhartid and a1 = MGT_CORE_ARGc. -/
def execCorePowerGood (c : CoreId) (s : State) : Host.Outcome State Fault Refusal :=
  if s.coreSt c ≠ csStarting then .next s else
  let pc := s.reg (MGT_CORE_PC c)
  .next ((s.setCoreSt c csRunning).setCore c
    { s.core c with start := some (BitVec.ofNat 64 (pc.toNat - pc.toNat % 2), BitVec.ofNat 64 c.val, s.reg (MGT_CORE_ARG c)) })

/-- CORE_PARK: PARK_PEND is set, but for a core that is PARKING or PARKED (R456). -/
def execCorePark (c : CoreId) (s : State) : Host.Outcome State Fault Refusal :=
  if s.coreSt c = csParking ∨ s.coreSt c = csParked then .next s
  else .next (s.wr (MGT_CORE_STAT c) MGT_CORE_STAT_PARK_PEND 1)

/-- PARK_DRAIN_COMPLETE: with its buffer empty, a parking core's L2 writes back and invalidates every line. -/
def execParkDrainComplete (c : CoreId) (s : State) : Host.Outcome State Fault Refusal :=
  if s.coreSt c ≠ csParking ∨ (s.core c).sb ≠ [] then .next s else
  .next ((s.setCore c { s.core c with drained := true }).agentFlush (0x80 + c.val))

/-- L2_FLUSH_COMPLETE: power is removed and PARK_PEND clears; a line still in a transient state makes it wait. -/
def execL2FlushComplete (c : CoreId) (s : State) : Host.Outcome State Fault Refusal :=
  if s.coreSt c ≠ csParking ∨ ¬ (s.core c).drained ∨ s.cLines (0x80 + c.val) ≠ [] then .next s else
  .next (((s.setCoreSt c csParked).wr (MGT_CORE_STAT c) MGT_CORE_STAT_PARK_PEND 0).setCore c (s.core c).unpowered)

/-- The code of a cause in OFF_CAUSE. -/
def offCode : OffCause → Nat
  | .stateError => 1
  | .written    => 2
  | .l2Fault    => 3

/-- CORE_OFFLINE: a running or parking core stops and issues every store (R455, R458). -/
def execCoreOffline (c : CoreId) (cause : OffCause) (s : State) : Host.Outcome State Fault Refusal :=
  .next (s.coreOfflining c (offCode cause))

/-- OFFLINE_FLUSH_COMPLETE: stores that remain are discarded, the L2 is flushed or its flush abandoned, the core is isolated, and the
event and the core's error CSRs are recorded (R458, R495, R502). -/
def execOfflineFlushComplete (c : CoreId) (flushed : Bool) (s : State) : Host.Outcome State Fault Refusal :=
  if s.coreSt c ≠ csOfflining then .next s else
  let ag := 0x80 + c.val
  let s1 := s.sbDiscard c
  let s2 := if flushed then s1.agentFlush ag else (s1.wr (MGT_CORE_STAT c) MGT_CORE_STAT_FLUSH_FAIL 1).agentLost ag
  let cause := s.rd (MGT_CORE_STAT c) MGT_CORE_STAT_OFF_CAUSE
  let s3 := (s2.setCoreSt c csOffline).event 0x28 4 c.val subNone cause
  let x := s3.core c
  let s4 := s3.logRec 6 4 [BitVec.ofNat 64 c.val, x.ysberr, x.ysbcnt, x.yerrst, x.yerraddr, x.yerrcnt]
  if cause = 1 then .next { s4 with yar := { s4.yar with badCores := s4.yar.badCores ++ [c.val] } } else .next s4

/-! ### Interrupts and timers (R446 to R449) -/

/-- SETEIPNUM: a 4-byte write of an interrupt file, at offset 0 little-endian and at 4 big-endian; any other access is an error. -/
def execSeteipnum (c : CoreId) (sLevel : Bool) (off : BitVec 12) (data : W32) (s : State) : Host.Outcome State Fault Refusal :=
  let file := if sLevel then 96 + c.val else c.val
  if off = 0 then .next { s.setEip file data.toNat with answer := .done }
  else if off = 4 then .next { s.setEip file (leVal (leBytes 4 data.toNat).reverse) with answer := .done }
  else .next { s with answer := .error }

/-- MTIMER_COMPARE: mtime, which has counted on, reaches a hart's mtimecmp or, for super, its stimecmp. -/
def execMtimerCompare (c : CoreId) (super : Bool) (s : State) : Host.Outcome State Fault Refusal :=
  let x := s.core c
  let cmp := if super then x.stimecmp.toNat else (s.reg (MTIMECMP c)).toNat
  let s1 := s.setReg MTIME (BitVec.ofNat 64 (max (s.reg MTIME).toNat cmp))
  .next (s1.setCore c (if super then { x with stip := true, wfi := false } else { x with mtip := true, wfi := false }))

/-! ### CSRs (R344, R439, R448, R449, R460) -/

/-- The CSRs that the extensions of R438 define, and the cores' own. -/
def csrDefined (n : Nat) : Bool :=
  [0x001, 0x002, 0x003, 0x008, 0x009, 0x00A, 0x00F, 0xC20, 0xC21, 0xC22,
   0x100, 0x104, 0x105, 0x106, 0x10A, 0x140, 0x141, 0x142, 0x143, 0x144, 0x14D, 0x150, 0x151, 0x15C, 0x180, 0xDA0, 0xDB0,
   0x300, 0x301, 0x302, 0x303, 0x304, 0x305, 0x306, 0x308, 0x309, 0x30A, 0x320, 0x340, 0x341, 0x342, 0x343, 0x344,
   0x350, 0x351, 0x35C, 0x3A0, 0x3A2, 0xB00, 0xB02, 0xF11, 0xF12, 0xF13, 0xF14, 0xF15, 0xFB0,
   0x7C0, 0x7C1, 0x7C2, 0xFC0, 0xFC1].contains n ||
  (decide (0xC00 ≤ n) && decide (n ≤ 0xC1F)) || (decide (0x323 ≤ n) && decide (n ≤ 0x33F)) ||
  (decide (0xB03 ≤ n) && decide (n ≤ 0xB1F)) || (decide (0x3B0 ≤ n) && decide (n ≤ 0x3BF))

/-- The mode a hart is in, as its number. -/
def privNum : Priv → Nat
  | .u => 0
  | .s => 1
  | .m => 3

/-- What a CSR reads as. -/
def State.csrRead (s : State) (c n : Nat) : Word :=
  let x := s.core c
  if n = 0x7C0 then x.ysberr
  else if n = 0xFC0 then x.ysbcnt
  else if n = 0x7C1 then x.yerrst
  else if n = 0x7C2 then x.yerraddr
  else if n = 0xFC1 then x.yerrcnt
  else if n = 0xF14 then BitVec.ofNat 64 c
  else if n = 0xC01 then s.reg MTIME
  else if n = 0x301 then 0x800000000034112F
  else if n = 0xC22 then 32
  else if n = 0x14D then x.stimecmp
  else if n = 0x344 then
    let v := (mget 0 x.csrs 0x344).toNat
    BitVec.ofNat 64 (nset (nset (nset v 35 35 (b2n x.ras)) 7 7 (b2n x.mtip)) 5 5 (b2n x.stip))
  else mget 0 x.csrs n

/-- A CSR after a write: VALID of the two records is freed by a 1, THRESH is written, a 0 clears bit 35 of mip, and stimecmp compares
again; other CSRs hold what is written. -/
def State.csrWrite (s : State) (c n : Nat) (v : Word) : State :=
  let x := s.core c
  if n = 0x7C0 then (if bitAt v 60 then s.setCore c { x with ysberr := BitVec.ofNat 64 (nset x.ysberr.toNat 60 60 0) } else s)
  else if n = 0x7C1 then
    let st := if bitAt v 5 then nset x.yerrst.toNat 5 5 0 else x.yerrst.toNat
    s.setCore c { x with yerrst := BitVec.ofNat 64 (nset st 31 16 (bits v 31 16)) }
  else if n = 0x7C2 then s
  else if n = 0x344 then s.setCore c { x with ras := x.ras && bitAt v 35, csrs := mset 0 x.csrs 0x344 v }
  else if n = 0x14D then s.setCore c { x with stimecmp := v, stip := decide (v.toNat ≤ (s.reg MTIME).toNat) }
  else s.setCore c { x with csrs := mset 0 x.csrs n v }

/-- YELRY_CSR_ACCESS: the old value is answered and the new one written; a CSR that is not defined, whose lowest mode (bits [9:8] of its
number) is above the hart's, or that is read-only (bits [11:10]) and written, raises an illegal-instruction exception. -/
def execYelryCsrAccess (c : CoreId) (mode : Priv) (csr : BitVec 12) (op : CsrOp) (value : Word) (s : State) : Host.Outcome State Fault Refusal :=
  let n := csr.toNat
  s.hart c (fun t =>
    if ¬ csrDefined n ∨ privNum mode < nbits n 9 8 ∨ (op ≠ .read ∧ nbits n 11 10 = 3) then t.hartTrap c 2 0 else
    let old := t.csrRead c n
    let t1 := { t with answer := .data (leBytes 8 old.toNat) false }
    match op with
    | .read  => t1
    | .write => t1.csrWrite c n value
    | .set   => t1.csrWrite c n (old ||| value)
    | .clear => t1.csrWrite c n (old &&& ~~~value))

/-! ### DDR and CXL (R452, R453) -/

/-- The window a write of MGT_CXLWINw would enable is refused: it overlaps another enabled window, ends too high, or its port does
not run CXL. -/
def State.cxlBad (s : State) (w : Nat) (v : Word) : Bool :=
  let base := fget v MGT_CXLWIN_BASE_G
  let size := fget v MGT_CXLWIN_SIZE_G
  let port := fget v MGT_CXLWIN_PORT
  (List.range 8).any (fun o => o != w && s.cxlEn o &&
    decide (base < s.rd (MGT_CXLWIN o) MGT_CXLWIN_BASE_G + s.rd (MGT_CXLWIN o) MGT_CXLWIN_SIZE_G) &&
    decide (s.rd (MGT_CXLWIN o) MGT_CXLWIN_BASE_G < base + size)) ||
  decide (0x70000000000 < 0x40000000000 + (base + size) * 2 ^ 30) ||
  port == 0 || decide (8 < port) || nbits (s.rd HIF_PCIE_CFG HIF_PCIE_CFG_CXL_EN) (port - 1) (port - 1) == 0

/-- MGT_CXLWIN_EN: a write of MGT_CXLWINw; after CXL_LOCK it is ignored and sets REFUSED, and a refused EN sets ERR. -/
def execMgtCxlwinEn (w : Fin 8) (value : Word) (s : State) : Host.Outcome State Fault Refusal :=
  if s.flag MGT_MEM_CTL MGT_MEM_CTL_CXL_LOCK then .next (s.wr MGT_MEM_CTL MGT_MEM_CTL_REFUSED 1)
  else if fget value MGT_CXLWIN_EN = 1 ∧ s.cxlBad w value then .next (s.wr (MGT_CXLWIN w) MGT_CXLWIN_ERR 1)
  else .next (s.regWrite (MGT_CXLWIN w) value)

/-- CXL_LOCK: every window is locked until cold reset. -/
def execCxlLock (s : State) : Host.Outcome State Fault Refusal := .next (s.wr MGT_MEM_CTL MGT_MEM_CTL_CXL_LOCK 1)

/-- DDR_PATROL_SCRUB: the patrol scrubber reads a DDR line and rewrites a corrected one. -/
def execDdrPatrolScrub (addr : Word) (f : CacheFinding) (s : State) : Host.Outcome State Fault Refusal :=
  .next (s.ddrFind (localOf addr.toNat) f)

end Sys2Proof.Machine
end

