-- ==== Sys2Proof/Machine/Mgmt.lean ====
section
/-!
DEFINITION. Betony and Teasel (spec/19): firmware slots, measurement, key slots, attestation, the sideband, firmware update,
Periscope's marker, the life counter and the lifetime log, clock measurement, and a Teasel restart (R484).

Where the spec leaves open or is read by inference, and what is taken from outside it (DESIGN CHOICE, DEDUCED, PRESUMED):
notes/assumptions/66.md, 67.md, 68.md, 69.md, 70.md.
-/

namespace Sys2Proof.Machine

open Sys2Proof

/-! ### Firmware slots (R515, R516, R523, R524) -/

/-- The fields of MGT_FW_STAT and SEC_SVN of a component, 0 to 2 for components 1 to 3. -/
def fwActive (c : Nat) : Fld := ⟨8 * c, 8 * c⟩
def fwOther (c : Nat) : Fld := ⟨8 * c + 2, 8 * c + 1⟩
def fwTrial (c : Nat) : Fld := ⟨8 * c + 3, 8 * c + 3⟩
def svnMin (c : Nat) : Fld := ⟨8 * c + 5, 8 * c⟩

/-- OTHER codes. -/
abbrev fwEmpty : Nat := 0
abbrev fwValid : Nat := 1
abbrev fwPending : Nat := 2
abbrev fwFailed : Nat := 3

/-- The size of a component's slots in bytes. -/
def fwSlotSize (c : Nat) : Nat := if c = 0 then 2 ^ 20 else if c = 1 then 2 ^ 23 else 2 ^ 26

/-- The number of the active slot of a component and of the other one, and the image in a slot. -/
def State.fwSlot (s : State) (c : Nat) : Nat := s.rd MGT_FW_STAT (fwActive c)
def State.fwBytes (s : State) (c slot : Nat) : List Byte := mget [] s.mgt.fwImg (2 * (c + 1) + slot)

/-- The bytes of an image without its signature. -/
def fwBody (img : List Byte) : List Byte := img.take (leAt img 0xC 4 - 2820)

/-- An image is valid for a component (R515): its header, the vendor's key, its signature and its security version. -/
def State.fwOk (s : State) (c : Nat) (img : List Byte) : Bool :=
  let len := leAt img 0xC 4
  let pub := slice img 0x20 68
  leAt img 0 4 == 0xAE71F1A0 && leAt img 4 1 == c + 1 && decide (leAt img 5 1 ≤ 63) && leAt img 6 2 == 0 &&
  decide (0x100 + 2820 ≤ len) && decide (len ≤ img.length) && leAt img 0x14 4 == len - 2820 && leAt img 0x18 8 == 0 &&
  (slice img 0x64 156).all (· == 0) && shake256 pub == Config.vendorFwHash &&
  Config.xmssVerify pub 0x12 (fwBody img) (slice img (len - 2820) 2820) &&
  decide (s.rd SEC_SVN (svnMin c) ≤ leAt img 5 1)

/-- The digest of an image (R515). -/
def fwDigest (img : List Byte) : W256 := shake256 (img.take (leAt img 0xC 4))

/-- A record of a firmware activation or fallback (R529). -/
def State.fwLog (s : State) (c : Nat) : State := s.logRec 4 0 [BitVec.ofNat 64 (c + 1), s.reg MGT_FW_STAT]

/-- The slot that is not active becomes FAILED, and FALLBACKS counts it; a trial of it is over (R516, R524). -/
def State.fwFail (s : State) (c : Nat) : State :=
  (((s.wr MGT_FW_STAT (fwOther c) fwFailed).wr MGT_FW_STAT (fwTrial c) 0).bump MGT_FW_STAT MGT_FW_STAT_FALLBACKS).fwLog c

/-- A trial is confirmed: its slot becomes the active one (R524). -/
def State.fwConfirm (s : State) (c : Nat) : State :=
  if ¬ s.flag MGT_FW_STAT (fwTrial c) then s else
  (((s.wr MGT_FW_STAT (fwActive c) (1 - s.fwSlot c)).wr MGT_FW_STAT (fwOther c) fwValid).wr MGT_FW_STAT (fwTrial c) 0).fwLog c

/-- The active slot of a component, or the other one when it is not valid (R516). -/
def State.fwTakeActive (s : State) (c : Nat) : State × Option (List Byte) :=
  let a := s.fwSlot c
  let img := s.fwBytes c a
  let alt := s.fwBytes c (1 - a)
  if s.fwOk c img then (s, some img)
  else if s.fwOk c alt ∧ s.rd MGT_FW_STAT (fwOther c) ≠ fwEmpty ∧ s.rd MGT_FW_STAT (fwOther c) ≠ fwFailed then
    ((s.wr MGT_FW_STAT (fwActive c) (1 - a)).fwFail c, some alt)
  else (s, none)

/-- The image Betony runs (R516): the PENDING slot for one trial, else the active one; a trial that was never confirmed has failed
(R524). -/
def State.fwTake (s : State) (c : Nat) : State × Option (List Byte) :=
  let s1 := if s.flag MGT_FW_STAT (fwTrial c) then s.fwFail c else s
  if s1.rd MGT_FW_STAT (fwOther c) = fwPending then
    let img := s1.fwBytes c (1 - s1.fwSlot c)
    if s1.fwOk c img then (s1.wr MGT_FW_STAT (fwTrial c) 1, some img) else (s1.fwFail c).fwTakeActive c
  else s1.fwTakeActive c

/-! ### The sideband (R521, R522) -/

/-- Betony's ROM serves the sideband itself: the boot failed for want of a valid image of component 1 or 2 (R511). -/
def State.inRecovery (s : State) : Bool :=
  s.flag RST_BOOT RST_BOOT_FAILED && (s.rd RST_BOOT RST_BOOT_ERR == 1 || s.rd RST_BOOT RST_BOOT_ERR == 2)

/-- Teasel runs: it has been released, and it is not restarting. -/
def State.teaselRuns (s : State) : Bool :=
  s.mgt.teaselUp && (decide (2 ≤ s.rd RST_BOOT RST_BOOT_STEP) || decide (6 ≤ s.rd RST_CAUSE RST_CAUSE_LAST) || s.mgt.warm != .idle)

/-- A response with its completion code. -/
def State.respond (s : State) (code : Nat) (data : List Byte) : State :=
  { s with mgt := { s.mgt with resp := some { code := code, data := data } } }

/-- A sideband command: Teasel serves it; Betony's ROM answers 0x04 to all but those it accepts; nobody answers while Teasel does
not run. -/
def State.sideband (s : State) (inRom : Bool) (serve : State → State) : State :=
  if s.inRecovery then (if inRom then serve s else s.respond 4 [])
  else if s.teaselRuns then serve s
  else { s with mgt := { s.mgt with resp := none } }

/-- GET_BOOT. -/
def execGetBoot (s : State) : Host.Outcome State Fault Refusal :=
  .next (s.sideband true (fun t => t.respond 0 (leBytes 8 (t.reg RST_BOOT).toNat ++ leBytes 8 (t.reg RST_CAUSE).toNat)))

/-- A wall-time pair (R528). -/
def State.setWall (s : State) (secs : Word) : State :=
  let s1 := { s with mgt := { s.mgt with wall := some (s.life, secs.toNat) } }
  s1.logRec 5 0 [BitVec.ofNat 64 s.life, secs]

/-- SET_WALL. -/
def execSetWall (seconds : Word) (s : State) : Host.Outcome State Fault Refusal :=
  .next (s.sideband false (fun t => (t.setWall seconds).respond 0 []))

/-- MGT_WALL_WRITE (R528). -/
def execMgtWallWrite (seconds : Word) (s : State) : Host.Outcome State Fault Refusal := .next (s.setWall seconds)

/-- The 64 bytes of a journal record (R529). -/
def recBytes (r : LogRec) : List Byte :=
  leBytes 8 (r.kind + r.sev * 2 ^ 8 + b2n r.estimated * 2 ^ 11 + (r.seq % 2 ^ 32) * 2 ^ 32) ++ leBytes 8 r.life ++ leBytes 8 r.wall ++
  ((r.payload ++ List.replicate 5 0).take 5).flatMap (fun (w : Word) => leBytes 8 w.toNat)

/-- n bytes of the lifetime log from an offset: the journal's records lie after 64 KiB; what the summary's bytes are, and those of a
record not yet written, the spec does not say. -/
def State.logBytes (s : State) (off : Nat) : Nat → State × List Byte
  | 0 => (s, [])
  | n + 1 =>
    let one : State × Byte := match (if off < 65536 then none else s.mgt.log[(off - 65536) / 64]?) with
      | some r => (s, (recBytes r).getD ((off - 65536) % 64) 0)
      | none   => (s.fresh.2, BitVec.ofNat 8 s.fresh.1.toNat)
    let r := one.1.logBytes (off + 1) n
    (r.1, one.2 :: r.2)

/-- READ_LOG: up to 1,024 bytes of the 64 MiB. -/
def execReadLog (offset : W32) (len : BitVec 16) (s : State) : Host.Outcome State Fault Refusal :=
  .next (s.sideband false (fun t =>
    if 1024 < len.toNat ∨ 2 ^ 26 < offset.toNat + len.toNat then t.respond 2 [] else
    let r := t.logBytes offset.toNat len.toNat
    r.1.respond 0 r.2))

/-- SET_CAP: PWR_CAP.SIDE_W, clamped to 1,000 to 2,600 W (R465, R522). -/
def execSetCap (watts : BitVec 16) (s : State) : Host.Outcome State Fault Refusal :=
  .next (s.sideband false (fun t => (t.wr PWR_CAP PWR_CAP_SIDE_W (min 2600 (max 1000 watts.toNat))).respond 0 []))

/-! ### Security (R516 to R520) -/

/-- The number of a component as SEC_CTL.COMP names it, 1 to 3, as 0 to 2. -/
def compOf (c : BitVec 2) : Option Nat := if c = 0 then none else some (c.toNat - 1)

/-- SVN_COMMIT: the fused minimum rises to the security version of the active image; refused during a trial (R516). -/
def execSvnCommit (comp : BitVec 2) (s : State) : Host.Outcome State Fault Refusal :=
  let s1 := s.wr SEC_CTL SEC_CTL_COMP comp.toNat
  match compOf comp with
  | none => .next s1
  | some c =>
    if s1.flag MGT_FW_STAT (fwTrial c) then .next (s1.wr SEC_CTL SEC_CTL_SVN_REFUSED 1)
    else .next (s1.wr SEC_SVN (svnMin c) (max (s1.rd SEC_SVN (svnMin c)) (leAt (s1.fwBytes c (s1.fwSlot c)) 5 1)))

/-- Four 8-byte registers as one 256-bit value, the first the lowest. -/
def State.quad (s : State) (a : Nat) : W256 :=
  BitVec.ofNat 256 ((s.reg a).toNat + (s.reg (a + 8)).toNat * 2 ^ 64 + (s.reg (a + 16)).toNat * 2 ^ 128 + (s.reg (a + 24)).toNat * 2 ^ 192)

/-- SEC_EXT_GO: M6 or M7 is extended with SEC_EXT_DATA; any other register is refused (R517). -/
def execSecExtGo (reg : BitVec 3) (s : State) : Host.Outcome State Fault Refusal :=
  let s1 := s.wr SEC_EXT_CTL SEC_EXT_CTL_REG reg.toNat
  if reg = 6 ∨ reg = 7 then .next (s1.extend reg.toNat (s1.quad (SEC_EXT_DATA 0)))
  else .next (s1.wr SEC_EXT_CTL SEC_EXT_CTL_REFUSED 1)

/-- SEC_KEY_CTL.USED brought up to date. -/
def State.refreshKeys (s : State) : State :=
  s.wr SEC_KEY_CTL SEC_KEY_CTL_USED ((List.range 4).foldl (fun n k => n + b2n ((mfind s.mgt.keySlots (k + 1)).isSome) * 2 ^ k) 0)

/-- SEC_KEY_CTL written with a slot and an operation. -/
def State.keyCtl (s : State) (slot op : Nat) : State := (s.wr SEC_KEY_CTL SEC_KEY_CTL_SLOT slot).wr SEC_KEY_CTL SEC_KEY_CTL_OP op

/-- The key slots may change, and the slot named is one of the four (R518). -/
def State.keyOpen (s : State) (slot : Nat) : Bool := !s.flag SEC_CTL SEC_CTL_KEYLOCK && decide (1 ≤ slot) && decide (slot ≤ 4)

/-- KEY_ENROL: the hash in SEC_KEY_DATA is enrolled into an empty slot (R518). -/
def execKeyEnrol (slot : BitVec 3) (s : State) : Host.Outcome State Fault Refusal :=
  let s1 := s.keyCtl slot.toNat 0
  if ¬ s.keyOpen slot.toNat ∨ (mfind s.mgt.keySlots slot.toNat).isSome then .next (s1.wr SEC_KEY_CTL SEC_KEY_CTL_REFUSED 1) else
  let s2 := { s1 with mgt := { s1.mgt with keySlots := mput s1.mgt.keySlots slot.toNat (s1.quad (SEC_KEY_DATA 0)) } }
  .next s2.refreshKeys

/-- KEY_EMPTY (R518). -/
def execKeyEmpty (slot : BitVec 3) (s : State) : Host.Outcome State Fault Refusal :=
  let s1 := s.keyCtl slot.toNat 1
  if ¬ s.keyOpen slot.toNat then .next (s1.wr SEC_KEY_CTL SEC_KEY_CTL_REFUSED 1) else
  let s2 := { s1 with mgt := { s1.mgt with keySlots := mdel s1.mgt.keySlots slot.toNat } }
  .next s2.refreshKeys

/-- M3 extended with the hash of each owner key slot, zero for an empty one (R517). -/
def State.measureKeys (s : State) : State :=
  [1, 2, 3, 4].foldl (fun (t : State) k => t.extend 3 (mget 0 s.mgt.keySlots k)) s

/-- KEYLOCK (R517, R518). -/
def execKeylock (s : State) : Host.Outcome State Fault Refusal :=
  if s.flag SEC_CTL SEC_CTL_KEYLOCK then .next s else .next (s.wr SEC_CTL SEC_CTL_KEYLOCK 1).measureKeys

/-! ### Attestation (R519, R520) -/

/-- LOW and EXHAUSTED of the signature state (R520). -/
def State.refreshSig (s : State) : State :=
  let n := s.rd SEC_SIG_STAT SEC_SIG_STAT_NEXT
  (s.wr SEC_SIG_STAT SEC_SIG_STAT_LOW (b2n (decide (2 ^ 40 < n + 2 ^ 32)))).wr SEC_SIG_STAT SEC_SIG_STAT_EXHAUSTED (b2n (decide (2 ^ 40 ≤ n)))

/-- A request Betony starts to sign. -/
def State.attStart (s : State) (q : AttReq) : State :=
  let s1 := { s with mgt := { s.mgt with att := some q } }
  s1.wr SEC_ATT_CTL SEC_ATT_CTL_BUSY 1

/-- SEC_ATT_GO: a request of software, with its nonce in the buffer (R519). -/
def execSecAttGo (mask : Byte) (s : State) : Host.Outcome State Fault Refusal :=
  let s1 := s.wr SEC_ATT_CTL SEC_ATT_CTL_MASK mask.toNat
  let a := s.rd SEC_ATT_ADDR SEC_ATT_ADDR_BASE * 64
  if s.mgt.att.isSome then .next (s1.wr SEC_ATT_CTL SEC_ATT_CTL_RESULT 1)
  else if s.flag SEC_SIG_STAT SEC_SIG_STAT_EXHAUSTED then .next (s1.wr SEC_ATT_CTL SEC_ATT_CTL_RESULT 2)
  else if ¬ s.isMem a 16384 then .next (s1.wr SEC_ATT_CTL SEC_ATT_CTL_RESULT 3)
  else .next (s1.attStart { sideband := false, addr := a, nonce := BitVec.ofNat 256 (s.memVal (localOf a) 32), mask := mask,
                            discarded := false })

/-- ATTEST: a request over the sideband (R519, R522). -/
def execAttest (nonce : W256) (mask : Byte) (s : State) : Host.Outcome State Fault Refusal :=
  .next (s.sideband false (fun t =>
    if t.mgt.att.isSome then t.respond 1 []
    else if t.flag SEC_SIG_STAT SEC_SIG_STAT_EXHAUSTED then t.respond 3 []
    else
      let t1 := { t with mgt := { t.mgt with resp := none } }
      t1.attStart { sideband := true, addr := 0, nonce := nonce, mask := mask, discarded := false }))

/-- The message before its signature, with the signatures that remain after it (R519). -/
def State.attBody (s : State) (q : AttReq) (budget : Nat) : List Byte :=
  leBytes 4 0xAE71A77E ++ leBytes 2 1 ++ leBytes 2 s.node ++ leBytes 8 Config.serial.toNat ++ leBytes 8 s.life ++
  leBytes 2 (s.rd FGN_NODE FGN_NODE_INC) ++ [q.mask, Config.stepping] ++ leBytes 4 0 ++ leBytes 32 q.nonce.toNat ++
  (List.range 8).flatMap (fun i => leBytes 32 (if bitAt q.mask i then (s.measure i).toNat else 0)) ++
  (List.range 68).map Config.attPub ++ leBytes 4 0 ++ leBytes 8 budget

/-- ATTESTATION_SIGNED: the index and, with the first of a block, its fuse bit are consumed; the message goes to its requester, or
nowhere if the requester was reset (R509, R519, R520). -/
def execAttestationSigned (s : State) : Host.Outcome State Fault Refusal :=
  match s.mgt.att with
  | none => .next s
  | some q =>
    let i := s.rd SEC_SIG_STAT SEC_SIG_STAT_NEXT
    let blocks := max (s.rd SEC_SIG_STAT SEC_SIG_STAT_BLOCKS) (i / 2 ^ 32 + 1)
    let s1 := ((s.wr SEC_SIG_STAT SEC_SIG_STAT_NEXT (i + 1)).wr SEC_SIG_STAT SEC_SIG_STAT_BLOCKS blocks).refreshSig
    let s2 := { s1 with mgt := { s1.mgt with sigFlash := i + 1, att := none } }
    let s3 := s2.wr SEC_ATT_CTL SEC_ATT_CTL_BUSY 0
    let body := s.attBody q (2 ^ 40 - (i + 1))
    let msg := body ++ (List.range 9893).map (fun k => Config.attSignature i body k)
    if q.discarded then .next s3
    else if q.sideband then .next (if s3.teaselRuns then s3.respond 0 msg else s3)
    else .next (((s3.memWrite (localOf q.addr + 0x40) msg false).wr SEC_ATT_CTL SEC_ATT_CTL_DONE 1).wr SEC_ATT_CTL SEC_ATT_CTL_RESULT 0)

/-! ### Firmware update (R523) -/

/-- An update of a component may be served: Teasel runs, or Betony's ROM recovers that component (R511). -/
def State.updateServed (s : State) (c : Nat) : Bool :=
  if s.inRecovery then s.rd RST_BOOT RST_BOOT_ERR == c + 1 else s.teaselRuns

/-- FIRMWARE_IMAGE_WRITE: the image goes into the inactive slot, which reads empty; refused while the component has a PENDING slot or
a trial. -/
def execFirmwareImageWrite (comp : FwComp) (image : List Byte) (s : State) : Host.Outcome State Fault Refusal :=
  let c := comp.val
  if ¬ s.updateServed c ∨ s.rd MGT_FW_STAT (fwOther c) = fwPending ∨ s.flag MGT_FW_STAT (fwTrial c) ∨ fwSlotSize c < image.length then
    .next s
  else
    let s1 := { s with mgt := { s.mgt with fwImg := mset [] s.mgt.fwImg (2 * (c + 1) + (1 - s.fwSlot c)) image,
                                           fwVerified := mput s.mgt.fwVerified c false } }
    .next (s1.wr MGT_FW_STAT (fwOther c) fwEmpty)

/-- VERIFY_COMPLETE: Betony checks the image; a failure leaves the slot FAILED. -/
def execVerifyComplete (comp : FwComp) (s : State) : Host.Outcome State Fault Refusal :=
  let c := comp.val
  if ¬ s.updateServed c ∨ mfind s.mgt.fwVerified c ≠ some false then .next s
  else if s.fwOk c (s.fwBytes c (1 - s.fwSlot c)) then
    let s1 := { s with mgt := { s.mgt with fwVerified := mput s.mgt.fwVerified c true } }
    .next (s1.wr MGT_FW_STAT (fwOther c) fwValid)
  else
    let s1 := { s with mgt := { s.mgt with fwVerified := mdel s.mgt.fwVerified c } }
    .next (s1.fwFail c)

/-- APPLY_COMPLETE: the verified slot becomes PENDING. -/
def execApplyComplete (comp : FwComp) (s : State) : Host.Outcome State Fault Refusal :=
  let c := comp.val
  if ¬ s.updateServed c ∨ mfind s.mgt.fwVerified c ≠ some true then .next s else
  let s1 := { s with mgt := { s.mgt with fwVerified := mdel s.mgt.fwVerified c } }
  .next (((s1.wr MGT_FW_STAT (fwOther c) fwPending).bump MGT_FW_STAT MGT_FW_STAT_UPDATES).fwLog c)

/-- The slots that are being written are left empty (R523). -/
def State.fwAbandon (s : State) : State :=
  let ws := s.mgt.fwVerified.filter (fun p => !p.2)
  { s with mgt := { s.mgt with fwImg := ws.foldl (fun m p => mset [] m (2 * (p.1 + 1) + (1 - s.fwSlot p.1)) []) s.mgt.fwImg,
                               fwVerified := s.mgt.fwVerified.filter (fun p => p.2) } }

/-! ### Periscope's marker, life, the log, clocks (R525 to R531) -/

/-- MGT_PSC_MARK: an entry of source 0xF with the value. -/
def execMgtPscMark (value : Word) (s : State) : Host.Outcome State Fault Refusal := .next (s.psc 0xF value.toNat 0)

/-- LIFE_SAVE: every second the life counter is saved; the second falls into the bins of each die's junction and of VIN56. -/
def execLifeSave (s : State) : Host.Outcome State Fault Refusal :=
  if ¬ s.teaselRuns then .next s else
  let hj := s.pwr.temps.foldl (fun m p =>
    let k := 32 * p.1 + min 25 (p.2 / 5)
    mset 0 m k (mget 0 m k + 1)) s.mgt.histJ
  let v := min 39 ((s.rd PWR_MEAS PWR_MEAS_VIN_MV - 44000) / 500)
  .next { s with mgt := { s.mgt with lifeSaved := s.life, histJ := hj, histV := mset 0 s.mgt.histV v (mget 0 s.mgt.histV v + 1) } }

/-- The marked lanes of a stack. -/
def State.markedLanes (s : State) (k : Nat) : Nat :=
  ((List.range 64).filter (fun pc => nbits (s.reg (HBM_MARK k (pc / 8))).toNat (8 * (pc % 8) + 4) (8 * (pc % 8) + 4) == 1)).length

/-- The summary as it stands now: per stack 8 × stack + 0 corrected, 1 uncorrectable, 2 marked lanes, 3 hard repairs; per link 2 ×
link + 0 uncorrectable codewords, 1 losses; the repair record. -/
def State.summaryNow (s : State) : LogSummary :=
  { lifeSecs := s.life / 32768, cold := s.mgt.coldFlash, warm := s.mgt.summary.warm, junction := s.mgt.histJ, vin := s.mgt.histV,
    hbm := (List.range 12).flatMap (fun k =>
      [(8 * k, s.rd (HBM_ECC k) HBM_ECC_SEV_CORR + s.rd (HBM_ECC k) HBM_ECC_OUTER_CORR + s.rd (HBM_ECC k) HBM_ECC_ERASURE),
       (8 * k + 1, s.rd (HBM_ECC k) HBM_ECC_UNCORR), (8 * k + 2, s.markedLanes k),
       (8 * k + 3, (s.yar.hardRows.filter (fun r => r.1 / 64 == k)).length)]),
    links := (List.range 24).flatMap (fun l =>
      [(2 * l, s.rd (FGN_LINK_ERR l) FGN_LINK_ERR_FEC_UNCORR), (2 * l + 1, mget 0 s.fgn.losses l)]),
    guards := s.pwr.gb,
    repairs := s.yar.softRows ++ s.yar.softDqs ++ s.yar.hardRows, inc := s.mgt.incFlash }

/-- SUMMARY_REWRITE: every 60 s of life. -/
def execSummaryRewrite (s : State) : Host.Outcome State Fault Refusal :=
  if s.teaselRuns then .next { s with mgt := { s.mgt with summary := s.summaryNow } } else .next s

/-- CLK_MEAS_GO: a measurement of 1 ms of the domain SEL names; one at a time. -/
def execClkMeasGo (sel : BitVec 6) (s : State) : Host.Outcome State Fault Refusal :=
  let s1 := s.wr CLK_MEAS CLK_MEAS_SEL sel.toNat
  if s.flag CLK_MEAS CLK_MEAS_BUSY then .next s1 else
  let s2 := { s1 with mgt := { s1.mgt with clkSel := sel.toNat } }
  .next (s2.wr CLK_MEAS CLK_MEAS_BUSY 1)

/-- CLK_MEAS_DONE: the measured frequency in Hz. -/
def execClkMeasDone (hz : BitVec 36) (s : State) : Host.Outcome State Fault Refusal :=
  if ¬ s.flag CLK_MEAS CLK_MEAS_BUSY then .next s
  else .next ((s.wr CLK_MEAS CLK_MEAS_BUSY 0).wr CLK_MEAS CLK_MEAS_HZ hz.toNat)

/-! ### A Teasel restart (R484, R521) -/

/-- TEASEL_LOCKSTEP_MISMATCH: Teasel restarts; the sideband falls silent, and an image being written is lost (R523). -/
def execTeaselLockstepMismatch (s : State) : Host.Outcome State Fault Refusal :=
  if ¬ s.mgt.teaselUp then .next s else
  let s1 := s.fwAbandon
  .next { s1 with mgt := { s1.mgt with teaselUp := false, resp := none } }

/-- TEASEL_RESTART_COMPLETE: Teasel runs again and takes the records held for it. -/
def execTeaselRestartComplete (s : State) : Host.Outcome State Fault Refusal :=
  if s.mgt.teaselUp then .next s else
  let held := s.mgt.held
  let s1 := { s with mgt := { s.mgt with teaselUp := true, restarts := s.mgt.restarts + 1, held := [] } }
  let s2 := held.foldl (fun (t : State) r => t.logPut r) s1
  .next (s2.event 0x42 3 0 subNone s2.mgt.restarts)

end Sys2Proof.Machine
end

