-- ==== Sys2Proof/Machine/Reset.lean ====
section
/-!
DEFINITION. Reset and boot (spec/19, R506 to R512): cold and warm resets, the boot steps, and the end of a firmware trial (R524).

Where the spec leaves open or is read by inference, and what is taken from outside it (DESIGN CHOICE, DEDUCED, PRESUMED):
notes/assumptions/63.md, 64.md, 65.md, 66.md, 71.md, 84.md.
-/

namespace Sys2Proof.Machine

open Sys2Proof

/-! ### Cold reset (R506) -/

/-- The codes of RST_CAUSE.LAST. -/
def coldCode : ColdCause → Nat
  | .powerOn    => 1
  | .coldResetN => 2
  | .rstCtl     => 3
  | .sideband   => 4
  | .powerLoss  => 5

def warmCode : WarmCause → Nat
  | .warmResetN => 6
  | .rstCtl     => 7
  | .sideband   => 8
  | .autoWarm   => 9
  | .trial      => 10

/-- What Betony and Teasel hold in flash, and the pins: it outlives a cold reset; an image being written is lost (R523), the straps
are sampled anew (R537). -/
def MgtSt.cold (m : MgtSt) (straps : Straps) : MgtSt :=
  { MgtSt.reset with
    straps := straps, fwImg := m.fwImg, fwVerified := m.fwVerified, keySlots := m.keySlots, sigFlash := m.sigFlash, log := m.log,
    logSeq := m.logSeq, summary := m.summary, histJ := m.histJ, histV := m.histV, lifeSaved := m.lifeSaved, incFlash := m.incFlash,
    coldFlash := m.coldFlash + 1, pwrGood := m.pwrGood, railUp := m.railUp }

/-- Fuses and the repair record outlive a cold reset (R502, R503). -/
def YarSt.cold (y : YarSt) : YarSt :=
  { YarSt.reset with
    fuseTiles := y.fuseTiles, fuseWays := y.fuseWays, queued := y.queued, queuedWay := y.queuedWay, faulted := y.faulted,
    softRows := y.softRows, softDqs := y.softDqs, hardRows := y.hardRows, queuedRows := y.queuedRows, badCores := y.badCores }

/-- The free tile fuse entries of a C-die, and the queued repairs, as TST_REPAIR_STAT shows them. -/
def State.refreshFuses (s : State) : State :=
  let used (d : Nat) : Nat := ((s.yar.fuseTiles ++ s.yar.queued).filter (fun p => physDie p == d)).length
  let s1 := (s.wr TST_REPAIR_STAT TST_REPAIR_STAT_C0_FUSE_FREE (8 - used 0)).wr TST_REPAIR_STAT TST_REPAIR_STAT_C1_FUSE_FREE (8 - used 1)
  s1.wr TST_REPAIR_STAT TST_REPAIR_STAT_QUEUED (s.yar.queued.length + s.yar.queuedWay.length)

/-- The domains of R513 that run: at reset Betony, the life clock, the reference and the P-die controllers; then Teasel and
Periscope; the H-die; the C-dies and the Craone links. -/
def clkReset : Nat := 2 ^ 28 + 2 ^ 29 + 2 ^ 30 + 15 * 2 ^ 34
def clkTeasel : Nat := clkReset + 2 ^ 27 + 2 ^ 39
def clkHdie : Nat := clkTeasel + 127 * 2 ^ 20
def clkCdie : Nat := clkHdie + (2 ^ 20 - 1) + 7 * 2 ^ 31

/-- A cold reset with a cause and the straps: every block is reset; flash, fuses, the board's memory and the pins stay. -/
def State.coldReset (s0 : State) (code : Nat) (straps : Straps) : State :=
  let s := s0.fwAbandon
  let blank := { State.reset with
    pending := s.pending, freeCtr := s.freeCtr, hostMem := s.hostMem, mgt := s.mgt.cold straps, yar := s.yar.cold,
    pwr := { PwrSt.reset with lastOff := s.pwr.lastOff, gb := s.pwr.gb } }
  let sig := max s.mgt.sigFlash (s.rd SEC_SIG_STAT SEC_SIG_STAT_BLOCKS * 2 ^ 32)
  let s1 := (blank.wr RST_CAUSE RST_CAUSE_LAST code).wr RST_CAUSE RST_CAUSE_COLD_CNT blank.mgt.coldFlash
  let s2 := ((s1.wr SEC_SIG_STAT SEC_SIG_STAT_BLOCKS (s.rd SEC_SIG_STAT SEC_SIG_STAT_BLOCKS)).wr SEC_SIG_STAT SEC_SIG_STAT_NEXT sig).refreshSig
  let s3 := ((s2.setReg SEC_SVN (s.reg SEC_SVN)).refreshKeys.wr PWR_PDIE PWR_PDIE_LAST_OFF s.pwr.lastOff).refreshFuses
  let s4 := ((s3.setReg MGT_LIFE (s.reg MGT_LIFE)).wr MGT_LOG_STAT MGT_LOG_STAT_RECORDS (s.rd MGT_LOG_STAT MGT_LOG_STAT_RECORDS)).wr
    FGN_NODE FGN_NODE_INC s.mgt.incFlash
  let s5 := (s4.wr CLK_STAT CLK_STAT_LOCKED clkReset).setReg MGT_FW_STAT (BitVec.ofNat 64 (nset (s.reg MGT_FW_STAT).toNat 63 32 0))
  [0, 1, 2].foldl (fun (t : State) c => if t.flag MGT_FW_STAT (fwTrial c) then t.fwFail c else t) s5

/-- COLD_RESET. -/
def execColdReset (cause : ColdCause) (straps : Straps) (s : State) : Host.Outcome State Fault Refusal :=
  .next (s.coldReset (coldCode cause) straps)

/-- RST_CTL_COLD: RST_CTL.COLD written 1. -/
def execRstCtlCold (straps : Straps) (s : State) : Host.Outcome State Fault Refusal := .next (s.coldReset 3 straps)

/-! ### Warm reset (R506 to R509, R530) -/

/-- A warm boot runs: the last reset was a warm one. -/
def State.warmBoot (s : State) : Bool := decide (6 ≤ s.rd RST_CAUSE RST_CAUSE_LAST)

/-- A tile stops at a warm reset: what it runs and what is queued for it is gone; its committed journals stay with the publisher,
an open epoch and one short of its commit point are discarded (R212, R508). -/
def State.tileHalt (s : State) (n : Nat) : State :=
  let s1 := (s.tileStop n).setEpoSt n esClosed
  let t := s1.tile n
  (s1.setTile n { t with loadWork := none, bindIn := none, offered := none, wq := [], deferred := none, dma := [],
                         epo := { EpoSt.reset with pub := t.epo.pub, committed := t.epo.committed } }).groupsBusy

/-- A warm reset asserted: admission stops, tiles, Speedwell and Prism stop, stores issue, the endpoint link goes down, and a request of
software for a signature is discarded after it is signed.  One asserted before the last has completed step CORE0 is merged. -/
def State.warmAssert (s : State) (code : Nat) : State :=
  if s.mgt.warm ≠ .idle ∨ (s.warmBoot ∧ s.rd RST_BOOT RST_BOOT_STEP < 6 ∧ ¬ s.flag RST_BOOT RST_BOOT_FAILED) then s else
  let s1 := (s.wrap RST_CAUSE RST_CAUSE_WARM_CNT 1).wr RST_CAUSE RST_CAUSE_LAST code
  let s2 := if s1.flag RST_BOOT RST_BOOT_FAILED then s1 else s1.setReg RST_BOOT (regReset RST_BOOT)
  let att := s2.mgt.att.map (fun (q : AttReq) => { q with discarded := q.discarded || !q.sideband })
  let sum := { s2.summaryNow with warm := s2.mgt.summary.warm + 1 }
  let s3 : State := { s2 with
    hif := { s2.hif with stopped := true },
    spw := { s2.spw with run := none, objs := [], queue := [] },
    prs := [], mesh := [],
    mgt := { s2.mgt with warm := .asserted, warmCause := code, summary := sum, att := att } }
  let s4 := (s3.tiles.map (·.1)).foldl (fun (t : State) n => t.tileHalt n) s3
  let s5 := (s4.cores.map (·.1)).foldl (fun (t : State) c => t.sbIssue c) s4
  s5.wr HIF_PCIE_STAT HIF_PCIE_STAT_EP_UP 0

/-- WARM_RESET. -/
def execWarmReset (cause : WarmCause) (s : State) : Host.Outcome State Fault Refusal := .next (s.warmAssert (warmCode cause))

/-- RST_CTL_WARM: RST_CTL.WARM written 1. -/
def execRstCtlWarm (s : State) : Host.Outcome State Fault Refusal := .next (s.warmAssert 7)

/-- AUTO_WARM_DELAY: FATAL_DELAY_MS after a package-fatal fault (R489, R506). -/
def execAutoWarmDelay (s : State) : Host.Outcome State Fault Refusal :=
  .next (if s.flag RST_CFG RST_CFG_AUTO_WARM ∧ s.flag TST_YAR_STAT TST_YAR_STAT_FATAL then s.warmAssert 9 else s)

/-- WARM_JOURNALS_PUBLISHED: no journal committed before the assertion is left with a publisher, and each die that is reset sends DEPART
on its links (R28, R212, R508). -/
def execWarmJournalsPublished (s : State) : Host.Outcome State Fault Refusal :=
  if s.mgt.warm = .asserted ∧ s.tiles.all (fun p => p.2.epo.pub == []) then
    .next ([0, 1, 2].foldl (fun (t : State) l => t.craAbsent l) { s with mgt := { s.mgt with warm := .published } })
  else .next s

/-- A register across a warm reset: the fields that are kept, the others at their reset values (R507). -/
def warmReg (a : Nat) (v : Word) : Word :=
  match regSpec a with
  | none => regReset a
  | some r => BitVec.ofNat 64 (r.fields.foldl (fun n f => if f.keep then nset n f.hi f.lo (nbits v.toNat f.hi f.lo) else n) (regReset a).toNat)

/-- The registers across a warm reset. -/
def warmRegs (rs : List (Nat × Word)) : List (Nat × Word) :=
  rs.filterMap (fun p => if warmReg p.1 p.2 = regReset p.1 then none else some (p.1, warmReg p.1 p.2))

/-- What a core keeps across a warm reset: its store-buffer records and its yerr CSRs. -/
def YCore.warm (x : YCore) : YCore :=
  { YCore.reset with ysberr := x.ysberr, ysbcnt := x.ysbcnt, yerrst := x.yerrst, yerraddr := x.yerraddr, yerrcnt := x.yerrcnt }

/-- Every dirty line of the L2s, the L3 and the system caches is written back but for those that are lost; the caches are empty. -/
def State.cachesOut (s : State) (lost : List Nat) : State :=
  let cut (ls : List (Nat × CLine)) : List (Nat × CLine) := ls.filter (fun p => !lost.contains p.1)
  let s1 : State := { s with caches := s.caches.map (fun p => (p.1, cut p.2)), coh := CohSt.reset }
  let s2 := s1.caches.foldl (fun (t : State) ag => ag.2.foldl (fun (u : State) p =>
    if p.2.st.dirty then u.memWrite p.1 (leBytes 64 p.2.data.toNat) p.2.poison else u) t) s1
  { s2 with caches := [], coh := CohSt.reset }

/-- Bytes that the spec does not determine in place of those a memory lists. -/
def State.freeCells (s : State) : List Host.Cell → State × List Host.Cell
  | [] => (s, [])
  | c :: r =>
    let f := s.fresh
    let t := f.2.freeCells r
    (t.1, mset 0 t.2 c.1 (BitVec.ofNat 8 f.1.toNat))

/-- The lines an agent must write back. -/
def State.unwritten (s : State) : List Nat :=
  (s.caches.flatMap (fun ag => (ag.2.filter (fun p => p.2.st.dirty)).map (·.1))).eraseDups

/-- OFFLINE logical IDs and cores stay so (R507). -/
def State.stayOffline (s old : State) : State :=
  let s1 := (List.range 96).foldl (fun (t : State) n => if old.tst n = tsOffline then t.setTst n tsOffline else t) s
  (List.range 96).foldl (fun (t : State) c =>
    if old.coreSt c = csOffline then
      ((t.setCoreSt c csOffline).wr (MGT_CORE_STAT c) MGT_CORE_STAT_OFF_CAUSE (old.rd (MGT_CORE_STAT c) MGT_CORE_STAT_OFF_CAUSE)).wr
        (MGT_CORE_STAT c) MGT_CORE_STAT_FLUSH_FAIL (old.rd (MGT_CORE_STAT c) MGT_CORE_STAT_FLUSH_FAIL)
    else t) s1

/-- The state at the release of a warm reset, after the write-backs: what R507 keeps, the rest as after cold reset; a host-link site that
is without power stays so, and so does a failed negotiation (R11, R25). -/
def State.warmState (s : State) : State :=
  let sc := s.freeCells s.scratch
  let s0 := sc.1
  let facets := s0.facets.map (fun (f : Nat × Facet) => (f.1, { f.2 with refs := 0 }))
  let s1 : State := { State.reset with
    pending := s0.pending, regs := warmRegs s0.regs, mem := s0.mem, poison := s0.poison, hostMem := s0.hostMem, scratch := sc.2,
    gdirty := s0.gdirty,
    hbm := { s0.hbm with wcb := [], deltas := [], locks := [], scrub := [], recon := [], repair := [], eyes := [] },
    cores := (s0.cores.map (fun c => (c.1, c.2.warm))).filter (fun c => c.2 != YCore.reset),
    facets := facets,
    spw := s0.spw, fgn := { FgnSt.reset with coef := s0.fgn.coef, losses := s0.fgn.losses },
    pwr := { PwrSt.reset with gb := s0.pwr.gb, temps := s0.pwr.temps, lastOff := s0.pwr.lastOff },
    mgt := { s0.mgt with warm := .idle, warmCause := 0 },
    yar := { s0.yar with tests := [], mapping := [] }, freeCtr := s0.freeCtr }
  let s2 := s0.yar.mapping.foldl (fun (t : State) m => t.setPhys m.1 m.2) (s1.stayOffline s0)
  let s3 := [2, 3, 4, 5, 6, 7].foldl (fun (t : State) i => t.setMeasure i 0) s2
  let s4a := (s3.wr MGT_DIE_MAP MGT_DIE_MAP_SIDE_W (s0.rd MGT_DIE_MAP MGT_DIE_MAP_SIDE_W)).wr MGT_DIE_MAP MGT_DIE_MAP_SIDE_E
    (s0.rd MGT_DIE_MAP MGT_DIE_MAP_SIDE_E)
  let s4b := [0, 1, 2].foldl (fun (t : State) l => if s0.craSt l = clNegFail then
    (t.wr (MGT_CRA_STAT l) MGT_CRA_STAT_STATE clNegFail).wr (MGT_CRA_STAT l) MGT_CRA_STAT_NEG_CAUSE
      (s0.rd (MGT_CRA_STAT l) MGT_CRA_STAT_NEG_CAUSE) else t) s4a
  let s4 : State := { s4b with cra := { CraSt.reset with sites := s0.cra.sites } }
  let s5 := (s4.wr RST_CAUSE RST_CAUSE_LAST s0.mgt.warmCause).wr CLK_STAT CLK_STAT_LOCKED clkTeasel
  if s0.flag RST_BOOT RST_BOOT_FAILED then s5.setReg RST_BOOT (s0.reg RST_BOOT) else s5.wr RST_BOOT RST_BOOT_STEP 2

/-- WARM_RESET_RELEASE: 25 ms after the assertion; the dirty lines listed are lost, and Teasel records how many (R508). -/
def execWarmResetRelease (lost : List Word) (s : State) : Host.Outcome State Fault Refusal :=
  if s.mgt.warm ≠ .published then .next s else
  let ls := lost.map (fun a => alignDown a.toNat 64)
  let n := (s.unwritten.filter (fun l => ls.contains l)).length
  .next (((s.cachesOut ls).spwWarm.warmState).logRec 2 0 [BitVec.ofNat 64 n])

/-- RESET over the sideband: TYPE 0 warm, 1 cold; the response is sent first (R522). -/
def execSideReset (type : Byte) (straps : Straps) (s : State) : Host.Outcome State Fault Refusal :=
  .next (s.sideband false (fun t =>
    if type = 0 then (t.respond 0 []).warmAssert 8
    else if type = 1 then (t.coldReset 4 straps).respond 0 []
    else t.respond 2 []))

/-! ### Boot (R510, R511) -/

/-- A step cannot complete: FAILED and ERR; Teasel reports it and writes a log record. -/
def State.bootFail (s : State) (err : Nat) : State :=
  let s1 := (s.wr RST_BOOT RST_BOOT_FAILED 1).wr RST_BOOT RST_BOOT_ERR err
  let s2 := (s1.wr HIF_PCIE_STAT HIF_PCIE_STAT_EP_UP 0).logRec 2 6 [s1.reg RST_BOOT, s1.reg RST_CAUSE]
  { s2 with mgt := { s2.mgt with pldm := s2.mgt.pldm ++ [s1.reg RST_BOOT] } }

/-- A step is the last completed one. -/
def State.bootStep (s : State) (k : Nat) : State := s.wr RST_BOOT RST_BOOT_STEP k

/-- Steps BETONY, TEASEL and CORE0 select an image and extend a measurement register, or fail with the component's ERR. -/
def State.bootImage (s : State) (c : Nat) (done : State → List Byte → State) : State :=
  match s.fwTake c with
  | (s1, none)     => s1.bootFail (c + 1)
  | (s1, some img) => done (s1.extend c (fwDigest img)) img

/-- Queued fuse repairs burned; a burn waits while Betony signs (R502, R504). -/
def State.burnFuses (s : State) : State :=
  let ts := s.yar.queued
  let ws := s.yar.queuedWay
  let s1 := if s.mgt.att.isSome then s.bumpBy TST_REPAIR_STAT TST_REPAIR_STAT_FUSE_WAIT (ts.length + ws.length) else s
  let s2 := { s1 with yar := { s1.yar with fuseTiles := s1.yar.fuseTiles ++ ts, fuseWays := s1.yar.fuseWays ++ ws, queued := [], queuedWay := [] } }
  let s3 := ts.foldl (fun (t : State) p => (t.event 0x41 0 1 p 3).logRec 3 0 [1, BitVec.ofNat 64 p, 3]) s2
  let s4 := ws.foldl (fun (t : State) w => (t.event 0x41 0 2 w 3).logRec 3 0 [2, BitVec.ofNat 64 w, 3]) s3
  s4.refreshFuses

/-- The error CSRs of cores that hold an error, copied into the log on a warm boot (R333). -/
def State.copyErrors (s : State) : State :=
  s.cores.foldl (fun (t : State) c =>
    if c.2.ysberr = 0 ∧ c.2.ysbcnt = 0 ∧ c.2.yerrst = 0 ∧ c.2.yerraddr = 0 ∧ c.2.yerrcnt = 0 then t
    else t.logRec 6 0 [BitVec.ofNat 64 c.1, c.2.ysberr, c.2.ysbcnt, c.2.yerrst, c.2.yerraddr]) s

/-- Step RECORD. -/
def State.bootRecord (s : State) : State :=
  let s1 := if s.warmBoot then s.copyErrors
            else (s.setReg MGT_LIFE (BitVec.ofNat 64 (s.mgt.lifeSaved + 32768))).burnFuses
  let s2 := s1.bandRefresh.incUp
  ((s2.logRec 2 0 [s2.reg RST_CAUSE, s2.reg RST_BOOT]).fwConfirm 1).bootStep 3

/-- Step HDIE: DDR is found and trained; the C-dies then leave reset, sample DIE_SIDE and train their links (R12, R25, R450). -/
def State.bootHdie (s : State) (inp : BootInput) : State :=
  let ok : Bool := inp.ddrMods == 0xFFF && inp.ddrAlike && decide (1 ≤ inp.ddrSize.toNat) && decide (inp.ddrSize.toNat ≤ 4)
  let s1 := ((s.wr MGT_DDR_STAT MGT_DDR_STAT_PRESENT inp.ddrMods.toNat).wr MGT_DDR_STAT MGT_DDR_STAT_CH_SIZE
    (if ok then inp.ddrSize.toNat else 0)).wr MGT_DDR_STAT MGT_DDR_STAT_POP_ERR (b2n !ok)
  let s2 := if s1.warmBoot then s1 else
    (s1.wr MGT_DIE_MAP MGT_DIE_MAP_SIDE_W (b2n inp.sideW)).wr MGT_DIE_MAP MGT_DIE_MAP_SIDE_E (b2n inp.sideE)
  let sites := if s1.warmBoot then s1.cra.sites.map (fun p => (p.1, if p.2 = .off then SiteSt.off else .training)) else sitesUp
  let s3 := [0, 1, 2].foldl (fun (t : State) l => if t.craSt l = clDown then t.setCra l clTrain else t)
    { s2 with cra := { CraSt.reset with sites := sites } }
  (s3.wr CLK_STAT CLK_STAT_LOCKED clkHdie).bootStep 4

/-- The tile map of a cold boot (R34 to R37): every ID at its nominal position, but for those that a fused bad tile gives up. -/
def State.buildMap (s : State) : State :=
  let nominal (n : Nat) : Nat := physAt (n / 48) (n % 48 / 12) (n % 12)
  let s1 := (List.range 96).foldl (fun (t : State) n => t.setPhys n (nominal n)) s
  let bad := (List.range 96).filter (fun n => s.yar.fuseTiles.contains (nominal n))
  bad.foldl (fun (t : State) n => match t.pickSpare (nominal n) with
    | some q => t.setPhys n q
    | none   => t.setTst n tsOffline) s1

/-- Step CDIE: an orientation fault or a host link that did not train stops the boot; the step waits until both C-dies have confirmed
their orientation. -/
def State.bootCdie (s : State) (fails : Bool) : State :=
  let down (l : Nat) : Bool := s.craSt l == clDown || s.craSt l == clNegFail || s.craSt l == clAbsent
  if s.flag MGT_DIE_MAP MGT_DIE_MAP_FAULT then s.bootFail 4
  else if down 1 || down 2 then s.bootFail 5
  else if fails then s.bootFail 0
  else if ¬ s.flag MGT_DIE_MAP MGT_DIE_MAP_VALID ∨ s.craSt 1 ≠ clActive ∨ s.craSt 2 ≠ clActive then s
  else
    let s1 := if s.warmBoot then s else s.buildMap
    let s2 := (((s1.refreshSpare).refreshWays 0).refreshWays 1).fgnNode
    (s2.wr CLK_STAT CLK_STAT_LOCKED clkCdie).bootStep 5

/-- Step CORE0: the host boot firmware is verified and measured, on a warm boot M3 and M5 are extended again, and core 0 starts; where
its image lies for the core, the spec does not say (R517). -/
def State.bootCore0 (s : State) : State :=
  s.bootImage 2 (fun t img =>
    let t1 := if t.warmBoot then
        let k := if t.flag SEC_CTL SEC_CTL_KEYLOCK then t.measureKeys else t
        k.facets.foldl (fun (u : State) f => u.extend 5 f.2.digest) k
      else t
    let f := t1.fresh
    let t2 := f.2.setReg (MGT_CORE_PC 0) (f.1 + BitVec.ofNat 64 (leAt img 0x10 4))
    (t2.coreStart 0).bootStep 6)

/-- BOOT_STEP_COMPLETE: the step after STEP completes, or fails.  A warm boot goes from CORE0 to LOCKS. -/
def execBootStepComplete (inp : BootInput) (s : State) : Host.Outcome State Fault Refusal :=
  if s.flag RST_BOOT RST_BOOT_FAILED ∨ s.mgt.warm ≠ .idle then .next s else
  .next (match s.rd RST_BOOT RST_BOOT_STEP with
    | 0 => if inp.fails then s.bootFail 1 else
        s.bootImage 0 (fun t _ => t.bootStep 1)
    | 1 => if inp.fails then s.bootFail 2 else
        s.bootImage 1 (fun t _ => ((t.fwConfirm 0).wr CLK_STAT CLK_STAT_LOCKED clkTeasel).bootStep 2)
    | 2 => if inp.fails then s.bootFail 0 else s.bootRecord
    | 3 => if inp.fails then s.bootFail 0 else s.bootHdie inp
    | 4 => s.bootCdie inp.fails
    | 5 => if inp.fails then s.bootFail 3 else s.bootCore0
    | 6 => s.bootStep (if s.warmBoot then 8 else 7)
    | 7 => s.bootStep 8
    | _ => s)

/-! ### The locks and DONE (R512) -/

/-- A granule range in shielded ranges that are established: the range that holds its first granule holds them all and no longer
initialises. -/
def State.inShield (s : State) (a n : Nat) : Bool :=
  match s.shdOf (a / 2 ^ 21) with
  | some (x, _, _) =>
    !s.flag (HBM_SHD_STAT x) HBM_SHD_STAT_INIT &&
    (List.range ((n + 2 ^ 21 - 1) / 2 ^ 21)).all (fun i => match s.shdOf (a / 2 ^ 21 + i) with
      | some (y, _, _) => y == x
      | none => false)
  | none => false

/-- Lock k of R512 is set. -/
def State.lockSet (s : State) (k : Nat) : Bool :=
  match k with
  | 1  => s.flag HIF_PCIE_CFG HIF_PCIE_CFG_LOCK
  | 2  => s.flag MGT_MEM_CTL MGT_MEM_CTL_CXL_LOCK
  | 3  => s.flag XLT_CTL XLT_CTL_LOCK
  | 4  => s.flag CCH_REPL CCH_REPL_LOCK
  | 5  => s.flag (EPO_LEDGER_CFG 0) EPO_LEDGER_CFG_LOCK && s.flag (EPO_LEDGER_CFG 1) EPO_LEDGER_CFG_LOCK
  | 6  => s.flag (CCH_SC_CARVE 0) CCH_SC_CARVE_LOCK && s.flag (CCH_SC_CARVE 1) CCH_SC_CARVE_LOCK
  | 7  => s.inShield s.facetBase (2 ^ 26) && (!s.unified || s.inShield s.dirBase (8 * (s.unifiedSize / 2 ^ 21)))
  | 8  => s.flag TIL_FACET_BASE TIL_FACET_BASE_LOCK
  | 9  => s.flag SPW_TIER_CFG SPW_TIER_CFG_LOCK
  | 10 => s.flag HIF_HOLD_CFG HIF_HOLD_CFG_LOCK
  | 11 => s.flag FGN_CFG FGN_CFG_LOCK && s.flag FGN_CFG FGN_CFG_EN
  | 12 => s.flag SEC_CTL SEC_CTL_KEYLOCK
  | _  => true

/-- MISSING: bit k − 1 for each lock k that is clear. -/
def State.missing (s : State) : Nat := (List.range 12).foldl (fun n i => n + b2n (!s.lockSet (i + 1)) * 2 ^ i) 0

/-- The registers whose words M4 is extended with, in their order (R517). -/
def lockRegs : List Nat :=
  [HIF_PCIE_CFG, MGT_MEM_CTL] ++ (List.range 8).map MGT_CXLWIN ++ [XLT_CTL, CCH_REPL, EPO_LEDGER_CFG 0, EPO_LEDGER_CFG 1,
    CCH_SC_CARVE 0, CCH_SC_CARVE 1] ++ (List.range 8).map HBM_SHD_CFG ++ [TIL_FACET_BASE, SPW_TIER_CFG, SPW_TIER_DIR, HIF_HOLD_CFG,
    FGN_CFG, SEC_CTL]

/-- RST_BOOT_DONE: refused while a lock is clear; else the boot is done, M4 is extended, and a trial of the host boot firmware is
confirmed (R512, R517, R524). -/
def execRstBootDone (s : State) : Host.Outcome State Fault Refusal :=
  if s.flag RST_BOOT RST_BOOT_FAILED ∨ s.mgt.warm ≠ .idle then .next s
  else if s.missing ≠ 0 then .next ((s.wr RST_BOOT RST_BOOT_DONE_REFUSED 1).wr RST_BOOT RST_BOOT_MISSING s.missing)
  else if s.flag RST_BOOT RST_BOOT_DONE then .next s
  else
    let s1 := ((s.wr RST_BOOT RST_BOOT_DONE 1).wr RST_BOOT RST_BOOT_MISSING 0).bootStep 9
    .next ((s1.extend 4 (shake256 (lockRegs.flatMap (fun a => leBytes 8 (s.reg a).toNat)))).fwConfirm 2)

/-! ### The end of a trial (R524) -/

/-- FIRMWARE_TRIAL_TIMEOUT: the trial has failed; the boot restarts from the other slot, by a ROM restart for components 1 and 2, by a
warm reset with cause 0xA for component 3. -/
def execFirmwareTrialTimeout (comp : FwComp) (s : State) : Host.Outcome State Fault Refusal :=
  let c := comp.val
  if ¬ s.flag MGT_FW_STAT (fwTrial c) then .next s else
  let s1 := s.fwFail c
  if c = 2 then .next (s1.warmAssert 10)
  else .next (((s1.setReg RST_BOOT (regReset RST_BOOT)).setMeasure 0 0).setMeasure 1 0)

end Sys2Proof.Machine
end

