-- ==== Sys2Proof/Machine/Access.lean ====
section
/-!
DEFINITION. Accesses from outside: inbound PCIe accesses (R340, R391 to R393), and register writes without a row of their own (R8,
R238) with the values that the register tables say are ignored.

Where the spec leaves open or is read by inference, and what is taken from outside it (DESIGN CHOICE, DEDUCED, PRESUMED):
notes/assumptions/16.md, 17.md, 18.md, 86.md.
-/

namespace Sys2Proof.Machine

open Sys2Proof

/-! ### Inbound PCIe accesses -/

/-- What an inbound access meets: a physical address, or Unsupported Request for want of forwarding between ports (R393) or for any
other reason (R391). -/
inductive Inbound where
  | pa (a : Nat)
  | peer
  | bad
  deriving DecidableEq, Repr

/-- The root port whose window holds a local address (R454). -/
def rootPortOf (a : Nat) : Option Nat :=
  if 0x70000000000 ≤ a ∧ a < 0x71000000000 then some ((a - 0x70000000000) / 0x200000000 + 1) else none

/-- Where an inbound access of a port goes: port 0 through the device aperture (R362, R391); ports 1 to 8 with an address that the
H-die IOMMU has translated (R360, R392); a root port's window of this node is reached only where forwarding is enabled (R393). -/
def State.inbound (s : State) (port : PciePort) (addr : Word) : Inbound :=
  let a := addr.toNat % 2 ^ 56
  let own : Bool := decide (nodeOf a = s.node)
  let win := if own then rootPortOf (localOf a) else none
  if port.val = 0 then
    if ¬ s.flag HIF_PCIE_STAT HIF_PCIE_STAT_EP_UP ∨ ¬ s.flag XLT_APER XLT_APER_VALID ∨ addr.toNat / 2 ^ 56 ≠ s.rd XLT_APER XLT_APER_BASE then
      .bad
    else if win.isSome ∧ ¬ s.flag HIF_PCIE_CFG HIF_PCIE_CFG_PEER_BRIDGE then .peer
    else .pa a
  else if ¬ s.rpUp port.val ∨ 2 ^ 56 ≤ addr.toNat then .bad
  else match win with
  | some p => if p ≠ port.val ∧ ¬ s.flag HIF_PCIE_CFG HIF_PCIE_CFG_RP_P2P then .peer else .pa a
  | none   => .pa a

/-- Unsupported Request. -/
def State.inboundUr (s : State) : State := { s.bump HIF_PCIE_STAT HIF_PCIE_STAT_INB_UR with answer := .error }
def State.peerUr (s : State) : State := { s.bump HIF_PCIE_STAT HIF_PCIE_STAT_PEER_UR with answer := .error }

/-- PCIE_INBOUND_WRITE: EP marks poison (R491); commands come in the order in which the writes become visible (R340). -/
def execPcieInboundWrite (port : PciePort) (addr : Word) (data : List Byte) (ep _relaxed : Bool) (s : State) :
    Host.Outcome State Fault Refusal :=
  match s.inbound port addr with
  | .peer => .next s.peerUr
  | .bad  => .next s.inboundUr
  | .pa a =>
    match s.busWrite 2 false a data ep with
    | (s1, .ok) => .next { s1 with answer := .done }
    | (s1, _)   => .next s1.inboundUr

/-- PCIE_INBOUND_READ; page is the PBMT attribute of the page that translated the address.  A line of another node comes through the
H-die's buffer for a PMA page (R291). -/
def execPcieInboundRead (port : PciePort) (addr : Word) (len : BitVec 13) (page : PageAttr) (s : State) : Host.Outcome State Fault Refusal :=
  match s.inbound port addr with
  | .peer => .next s.peerUr
  | .bad  => .next s.inboundUr
  | .pa a =>
    match (if nodeOf a ≠ s.node ∧ page = .pma ∧ s.rrbOn 0 then s.bufRead 0 a len.toNat else s.busRead 2 false a len.toNat .once) with
    | (s1, .ok bs p) => .next { s1 with answer := .data bs p }
    | (s1, _)        => .next s1.inboundUr

/-! ### Reading descriptors (R372) -/

/-- SQ_READ: the next descriptor an accepted doorbell covers is read, at most 16 ahead, from this node's memory or, as the host answers,
from the host bus; an error or poison stops the ring (R367, R369, R372). -/
def execSqRead (r : RingId) (ans : Answer) (data : Line) (s : State) : Host.Outcome State Fault Refusal :=
  let n := r.val
  let ring := s.ring n
  let k := ring.fetched.length
  if s.ringSt n = rsActive ∧ k < 16 ∧ k < s.sqLevel n ∧ ¬ s.hif.stopped then
    let slot := (s.rd (HIF_RING_PTR n) HIF_RING_PTR_SQ_HEAD + k) % s.ringSize n
    let base := localOf (s.rd (HIF_SQ_BASE n) HIF_SQ_BASE_BASE * 4096) + 64 * slot
    let r : State × Rd :=
      if s.rd (HIF_RING_CFG n) HIF_RING_CFG_LOC = 1 then
        (s, match ans with
          | .ok       => .ok (leBytes 64 data.toNat) false
          | .poisoned => .ok [] true
          | _         => .error)
      else s.localRead 2 base 64
    .next (match r with
    | (s1, .ok bs false) => s1.setRing n { ring with fetched := ring.fetched ++ [BitVec.ofNat 512 (leVal bs)] }
    | (s1, .ok _ true)   => s1.stopRing n 2
    | (s1, _)            => s1.stopRing n 1)
  else .next s

/-! ### Register writes -/

/-- The index of an address in an array of n registers. -/
def arrIdx (base stride n a : Nat) : Option Nat :=
  if base ≤ a ∧ (a - base) % stride = 0 ∧ (a - base) / stride < n then some ((a - base) / stride) else none

/-- A field of the register at an address and whether the value a write gives it is out of the range its table allows. -/
def badFields (a : Nat) (v : Word) : List Fld :=
  let out (f : Fld) (lo hi : Nat) : List Fld := if lo ≤ fget v f ∧ fget v f ≤ hi then [] else [f]
  if a = EPO_LEDGER_CFG 0 ∨ a = EPO_LEDGER_CFG 1 then out EPO_LEDGER_CFG_SIZE 0 25
  else if a = CCH_SC_CARVE 0 ∨ a = CCH_SC_CARVE 1 then out CCH_SC_CARVE_SCRATCH_WAYS 0 8
  else if a = SPW_OBJ_CNT then out SPW_OBJ_CNT_COUNT 0 4096
  else if a = LOU_CFG 0 ∨ a = LOU_CFG 1 then out LOU_CFG_RATE 8 16
  else if a = PWR_PHASE then out PWR_PHASE_INTERVAL_US 100 1000
  else if a = TST_YAR_CFG then out TST_YAR_CFG_HB_US 2 8
  else if a = TST_EVQ_CFG then out TST_EVQ_CFG_LOG2N 6 14
  else if a = PRS_CFG 0 ∨ a = PRS_CFG 1 then out PRS_CFG_COMM_CNT 0 4096
  else []

/-- The communicators of a C-die are fixed while collectives run (R436). -/
def State.prsBusy (s : State) (d : Nat) : Bool := s.rd (PRS_STAT d) PRS_STAT_ACTIVE != 0

/-- Fields that a state of their unit holds fixed. -/
def State.heldFields (s : State) (a : Nat) : List Fld :=
  if (a = PRS_CFG 0 ∧ s.prsBusy 0) ∨ (a = PRS_CFG 1 ∧ s.prsBusy 1) then [PRS_CFG_COMM_CNT] else []

/-- A write that is ignored whole: the object table while a run is in progress (R259), the communicator table while collectives run
(R436), a ledger clear's register while it runs (R228), a thermal limit out of range (R477), a tile group with descriptors queued
(R61). -/
def State.writeIgnored (s : State) (a : Nat) (v : Word) : Bool :=
  if a = SPW_OBJ_BASE ∨ a = SPW_OBJ_CNT then s.flag SPW_STAT SPW_STAT_ACTIVE
  else if a = PRS_COMM_BASE 0 then s.prsBusy 0
  else if a = PRS_COMM_BASE 1 then s.prsBusy 1
  else if a = EPO_LEDGER_CLR 0 ∨ a = EPO_LEDGER_CLR 1 then s.flag a EPO_LEDGER_CLR_BUSY
  else if a = PWR_THERM then
    decide (fget v PWR_THERM_TJ_CRIT < fget v PWR_THERM_TJ_THR + 5) || decide (120 < fget v PWR_THERM_TJ_CRIT)
  else match arrIdx (TIL_GROUP_LO 0) 8 32 a with
  | some i => s.groupQueued (i / 2)
  | none   => false

/-- A base register of a ring is written only while the ring is DISABLED or HOST_LOST; else CFG_REFUSED (R366). -/
def State.ringBase (s : State) (n a : Nat) (v : Word) : State :=
  if s.ringSt n = rsDisabled ∨ s.ringSt n = rsHostLost then s.regWrite a v
  else if s.reg a = v then s
  else s.wr (HIF_RING_STAT n) HIF_RING_STAT_CFG_REFUSED 1

/-- The machine-timer and supervisor-timer interrupts as mtime now stands (R449). -/
def State.timers (s : State) : State :=
  let now := (s.reg MTIME).toNat
  (List.range 96).foldl (fun (t : State) c =>
    let x := t.core c
    t.setCore c { x with mtip := decide ((t.reg (MTIMECMP c)).toNat ≤ now), stip := decide (x.stimecmp.toNat ≤ now) }) s

/-- An MSI-X entry written: one that is unmasked while its message is pending sends it (R386, the PCIe format). -/
def State.msixWrite (s : State) (v : Nat) (w : Word) : State :=
  let s1 := s.regWrite (HIF_MSIX_DATA v) w
  let p := HIF_MSIX_PBA (v / 64)
  if ¬ s1.flag (HIF_MSIX_DATA v) HIF_MSIX_DATA_MASK ∧ bitAt (s1.reg p) (v % 64) then
    (s1.wr p ⟨v % 64, v % 64⟩ 0).message (s1.reg (HIF_MSIX_ADDR v)).toNat (s1.rd (HIF_MSIX_DATA v) HIF_MSIX_DATA_DATA)
  else s1

/-- What follows a write of a register: a group counts anew (R61), a pending message leaves, the timers compare, READ_DQ shows its
eye. -/
def State.afterWrite (s : State) (a : Nat) (v : Word) : State :=
  if a = MTIME then s.timers else
  match arrIdx (MTIMECMP 0) 8 96 a with
  | some c => s.setCore c { s.core c with mtip := decide (v.toNat ≤ (s.reg MTIME).toNat) }
  | none =>
  match arrIdx (TIL_GROUP_LO 0) 8 32 a with
  | some i => { s with hif := { s.hif with groupK := mdel s.hif.groupK (i / 2) } }
  | none =>
  match arrIdx (HBM_MRG_CTL 0) 0x1000000 12 a with
  | some k => s.mrgShow k
  | none => s

/-- A register written under its access codes, with the values its table ignores left out. -/
def State.plainWrite (s : State) (a : Nat) (v : Word) : State :=
  if s.writeIgnored a v then s else
  let v1 := (badFields a v ++ s.heldFields a).foldl (fun w f => fset w f (s.rd a f)) v
  (s.regWrite a v1).afterWrite a v1

/-! ### Registers that start something -/

/-- What a start bit begins, after what came before it. -/
def thenRun (o : Host.Outcome State Fault Refusal) (b : Bool) (f : State → Host.Outcome State Fault Refusal) :
    Host.Outcome State Fault Refusal :=
  match o with
  | .next s => if b then f s else .next s
  | x       => x

/-- The field f of a value that is a start bit. -/
def starts (v : Word) (f : Fld) : Bool := fget v f == 1

/-- The start bits of the registers of a tile, of a C-die's Loupe, ledger and Prism, of Speedwell and of the caches, in ascending
order of their bits (R8, R59, R125, R126, R220, R228, R257, R283, R294, R432). -/
def State.startUnits (s : State) (a : Nat) (v : Word) : Host.Outcome State Fault Refusal :=
  if a = SPW_CTL then
    thenRun (thenRun (.next s) (starts v SPW_CTL_CLEAR_FAILED) execSpwClearFailed) (starts v SPW_CTL_ABORT) execSpwAbort
  else if a = CCH_MNT_CTL then thenRun (.next s) (starts v CCH_MNT_CTL_GO) (fun t => execCchMntGo v t)
  else if a = CCH_RRB_INV then
    thenRun (.next s) (starts v CCH_RRB_INV_GO)
      (fun t => execCchRrbInvGo (starts v CCH_RRB_INV_BY_NODE) (BitVec.ofNat 13 (fget v CCH_RRB_INV_NODE)) t)
  else match arrIdx (LOU_CTL 0) 0x100000 2 a with
  | some d =>
    thenRun (thenRun (thenRun (.next s) (starts v LOU_CTL_RESUME) (fun t => execLouResume (Fin.ofNat 2 d) t))
      (starts v LOU_CTL_CLEAR) (fun t => execLouClear (Fin.ofNat 2 d) t))
      (starts v LOU_CTL_POP) (fun t => execLouPop (Fin.ofNat 2 d) t)
  | none =>
  match arrIdx (EPO_LEDGER_CLR 0) 0x40 2 a with
  | some d => thenRun (.next s) (starts v EPO_LEDGER_CLR_GO) (fun t => execLedgerClearGo (Fin.ofNat 2 d) v t)
  | none =>
  match arrIdx (PRS_CTL 0) 0x100000 2 a with
  | some d =>
    thenRun (.next s) (starts v PRS_CTL_ABORT) (fun t => execPrsAbort (Fin.ofNat 2 d) (BitVec.ofNat 12 (fget v PRS_CTL_COMM)) t)
  | none =>
  match arrIdx (EPO_CTL 0) 0x200 96 a with
  | some n =>
    thenRun (thenRun (.next s) (starts v EPO_CTL_RELEASE) (fun t => execEpoCtlRelease (Fin.ofNat 96 n) t))
      (starts v EPO_CTL_FLUSH) (fun t => execEpoCtlFlush (Fin.ofNat 96 n) t)
  | none =>
  match arrIdx (TIL_DMA_STAT 0 0) 8 (96 * 0x200000) a with
  | some i =>
    if i % 0x200000 < 8 then
      thenRun (thenRun (.next s) (starts v TIL_DMA_STAT_RESUME)
        (fun t => execTilDmaResume (Fin.ofNat 96 (i / 0x200000)) (Fin.ofNat 8 (i % 0x200000)) t))
        (starts v TIL_DMA_STAT_FLUSH) (fun t => execTilDmaFlush (Fin.ofNat 96 (i / 0x200000)) (Fin.ofNat 8 (i % 0x200000)) t)
    else .next s
  | none => .next s

/-- The start bits of the registers of an HBM stack: the operation of HBM_REPAIR that OP names, a margin run, a rebuild; an operation
that HBM_REPAIR does not know is answered (R313, R320, R323, R324). -/
def State.startHbm (s : State) (a : Nat) (v : Word) : Host.Outcome State Fault Refusal :=
  match arrIdx (HBM_REPAIR 0) 0x1000000 12 a with
  | some k =>
    let x : StackId := Fin.ofNat 12 k
    let pc : BitVec 6 := BitVec.ofNat 6 (fget v HBM_REPAIR_PC)
    let bank : BitVec 6 := BitVec.ofNat 6 (fget v HBM_REPAIR_BANK)
    let row : BitVec 14 := BitVec.ofNat 14 (fget v HBM_REPAIR_ROW)
    let dq : BitVec 6 := BitVec.ofNat 6 (fget v HBM_REPAIR_DQ)
    if ¬ starts v HBM_REPAIR_GO then .next s
    else match fget v HBM_REPAIR_OP with
    | 0 => execHbmRepairQuery x pc bank s
    | 1 => execSoftRowRepair x pc bank row false s
    | 2 => execHardRowRepair x pc bank row s
    | 3 => execDqRemap x pc dq false s
    | 4 => execClearRemap x pc s
    | _ => .next (s.wr (HBM_REPAIR_STAT k) HBM_REPAIR_STAT_RESULT 5)
  | none =>
  match arrIdx (HBM_MRG_CTL 0) 0x1000000 12 a with
  | some k =>
    thenRun (.next s) (starts v HBM_MRG_CTL_GO) (fun t => execHbmMrgGo (Fin.ofNat 12 k) (BitVec.ofNat 6 (fget v HBM_MRG_CTL_PC)) t)
  | none =>
  match arrIdx (HBM_REBUILD 0) 0x1000000 12 a with
  | some k =>
    thenRun (.next s) (starts v HBM_REBUILD_GO)
      (fun t => execHbmRebuildGo (Fin.ofNat 12 k) (BitVec.ofNat 6 (fget v HBM_REBUILD_PC)) (starts v HBM_REBUILD_ALL) t)
  | none => .next s

/-- An Eyebright engine's GO and ABORT: whether the test access port owns the engine's chains, and how long a stopped test had run,
are the environment's, so free values stand for them (R496, R499). -/
def State.startEb (s : State) (e : EbEngine) (v : Word) : Host.Outcome State Fault Refusal :=
  let x := s.fresh
  thenRun (thenRun (.next x.2) (starts v TST_EB_CTL_GO)
    (fun t => execEbGo e (BitVec.ofNat 4 (fget v TST_EB_CTL_KIND)) (BitVec.ofNat 12 (fget v TST_EB_CTL_INDEX)) (bitAt x.1 32) t))
    (starts v TST_EB_CTL_ABORT) (fun t => execEbAbort e (BitVec.ofNat 32 x.1.toNat) t)

/-- The start bits of the registers of Yarrow and Eyebright (R496, R499, R501, R502). -/
def State.startTest (s : State) (a : Nat) (v : Word) : Host.Outcome State Fault Refusal :=
  if a = TST_YAR_INJ then
    let n : BitVec 7 := BitVec.ofNat 7 (fget v TST_YAR_INJ_TARGET)
    if ¬ starts v TST_YAR_INJ_GO then .next s
    else match fget v TST_YAR_INJ_KIND with
    | 0 => execInjTileFault n s
    | 1 => execInjHeartbeatStop n s
    | 2 => execInjHbmCorrupt s
    | _ => execInjLinkDrop n s
  else if a = TST_REPAIR_CTL then
    let d : DieId := Fin.ofNat 2 (fget v TST_REPAIR_CTL_DIE)
    let w : BitVec 4 := BitVec.ofNat 4 (fget v TST_REPAIR_CTL_WAY)
    thenRun (thenRun (thenRun (.next s) (starts v TST_REPAIR_CTL_WAY_DIS) (fun t => execWayDis d w t))
      (starts v TST_REPAIR_CTL_WAY_EN) (fun t => execWayEn d w t))
      (starts v TST_REPAIR_CTL_QUEUE_TILE) (fun t => execQueueTile (BitVec.ofNat 7 (fget v TST_REPAIR_CTL_PTILE)) t)
  else match arrIdx (TST_EB_CTL 0) 0x40 3 a with
  | some e => if starts v TST_EB_CTL_GO ∨ starts v TST_EB_CTL_ABORT then s.startEb (Fin.ofNat 3 e) v else .next s
  | none => .next s

/-- The start bits of the registers of Betony and Teasel, of the cores and of Meniscus (R455, R480, R506, R512, R516, R518, R519,
R531, R533); a cold reset samples the straps as they stand. -/
def State.startMgmt (s : State) (a : Nat) (v : Word) : Host.Outcome State Fault Refusal :=
  if a = RST_CTL then
    if starts v RST_CTL_COLD then execColdReset .rstCtl s.mgt.straps s
    else thenRun (.next s) (starts v RST_CTL_WARM) (fun t => execWarmReset .rstCtl t)
  else if a = RST_BOOT then thenRun (.next s) (starts v RST_BOOT_DONE) execRstBootDone
  else if a = CLK_MEAS then
    thenRun (.next s) (starts v CLK_MEAS_GO) (fun t => execClkMeasGo (BitVec.ofNat 6 (fget v CLK_MEAS_SEL)) t)
  else if a = SEC_CTL then
    thenRun (thenRun (.next s) (starts v SEC_CTL_KEYLOCK) execKeylock)
      (starts v SEC_CTL_SVN_COMMIT) (fun t => execSvnCommit (BitVec.ofNat 2 (fget v SEC_CTL_COMP)) t)
  else if a = SEC_ATT_CTL then
    thenRun (.next s) (starts v SEC_ATT_CTL_GO) (fun t => execSecAttGo (BitVec.ofNat 8 (fget v SEC_ATT_CTL_MASK)) t)
  else if a = SEC_KEY_CTL then
    let k : BitVec 3 := BitVec.ofNat 3 (fget v SEC_KEY_CTL_SLOT)
    thenRun (.next s) (starts v SEC_KEY_CTL_GO)
      (fun t => if starts v SEC_KEY_CTL_OP then execKeyEmpty k t else execKeyEnrol k t)
  else if a = SEC_EXT_CTL then
    thenRun (.next s) (starts v SEC_EXT_CTL_GO) (fun t => execSecExtGo (BitVec.ofNat 3 (fget v SEC_EXT_CTL_REG)) t)
  else if a = PWR_IDLE then thenRun (.next s) (starts v PWR_IDLE_WAKE) execPwrIdleWake
  else match arrIdx (MGT_CORE_CTL 0) 0x20 96 a with
  | some c =>
    thenRun (thenRun (thenRun (.next s) (starts v MGT_CORE_CTL_START) (fun t => execCoreStart (Fin.ofNat 96 c) t))
      (starts v MGT_CORE_CTL_PARK) (fun t => execCorePark (Fin.ofNat 96 c) t))
      (starts v MGT_CORE_CTL_OFFLINE) (fun t => execCoreOffline (Fin.ofNat 96 c) .written t)
  | none => .next s

/-- The start bits of the registers of the host interface (R369, R399). -/
def State.startHif (s : State) (a : Nat) (v : Word) : Host.Outcome State Fault Refusal :=
  if a = HIF_ATTACH then thenRun (.next s) (starts v HIF_ATTACH_GO) execHifAttachGo
  else match arrIdx (HIF_RING_CTL 0) 0x40 1024 a with
  | some n =>
    thenRun (thenRun (thenRun (.next s) (starts v HIF_RING_CTL_STOP) (fun t => execHifRingStop (Fin.ofNat 1024 n) t))
      (starts v HIF_RING_CTL_RESUME) (fun t => execHifRingResume (Fin.ofNat 1024 n) t))
      (starts v HIF_RING_CTL_ABANDON) (fun t => execHifRingAbandon (Fin.ofNat 1024 n) t)
  | none => .next s

/-- What the start bits of a register begin: the row's own command, once the register's other fields are written (R8). -/
def State.startCmds (s : State) (a : Nat) (v : Word) : Host.Outcome State Fault Refusal :=
  if 0x7F000000000 ≤ a ∧ a < 0x7F100000000 then s.startMgmt a v
  else if a < 0x7F200000000 then s.startHif a v
  else if a < 0x7F300000000 then s.startUnits a v
  else if a < 0x7F400000000 then s.startHbm a v
  else if a < 0x7F700000000 then s.startUnits a v
  else if a < 0x7F780000000 then s.startMgmt a v
  else s.startTest a v

/-- A write of 8 bytes to a register: one whose write has a row of its own does what that row does; any other is written under its
access codes, and its start bits begin what they start. -/
def State.registerWrite (s : State) (a : Nat) (v : Word) : Host.Outcome State Fault Refusal :=
  if a = MGT_WALL then execMgtWallWrite v s
  else if a = MGT_PSC_MARK then execMgtPscMark v s
  else if a = HIF_PCIE_CFG then .next (s.pcieCfgWrite v)
  else if a = FGN_CFG then execFgnCfgEn v s
  else if a = EPO_MODE then execEpoModeWrite v s
  else if a = SPW_TIER_CFG then (if fget v SPW_TIER_CFG_LOCK = 1 then execSpwTierLock v s else .next (s.tierCfgWrite v))
  else if a = CCH_LEASE_CFG then execCchLeaseCfgWrite v s
  else if a = CCH_REPL ∧ fget v CCH_REPL_LOCK = 1 then execCchReplLock v s
  else if a = CCH_SC_CARVE 0 ∧ fget v CCH_SC_CARVE_LOCK = 1 then execCchScCarveLock 0 v s
  else if a = CCH_SC_CARVE 1 ∧ fget v CCH_SC_CARVE_LOCK = 1 then execCchScCarveLock 1 v s
  else if a = EPO_LEDGER_CFG 0 ∧ fget v EPO_LEDGER_CFG_LOCK = 1 then execLedgerLock 0 v s
  else if a = EPO_LEDGER_CFG 1 ∧ fget v EPO_LEDGER_CFG_LOCK = 1 then execLedgerLock 1 v s
  else match arrIdx (FGN_PORT_CFG 0) 16 16 a with
  | some p => execFgnPortCfgWrite (Fin.ofNat 16 p) v s
  | none =>
  match arrIdx (MGT_CXLWIN 0) 8 8 a with
  | some w => execMgtCxlwinEn (Fin.ofNat 8 w) v s
  | none =>
  match arrIdx (HBM_THR_CFG 0) 0x1000000 12 a with
  | some k => execHbmThrCfgWrite (Fin.ofNat 12 k) v s
  | none =>
  match arrIdx (HBM_FAIL_PC 0) 0x1000000 12 a with
  | some k => execHbmFailPcWrite (Fin.ofNat 12 k) v s
  | none =>
  match arrIdx (HBM_CTL 0) 0x1000000 12 a with
  | some k => execHbmQuiesceWrite (Fin.ofNat 12 k) v s
  | none =>
  match arrIdx (HBM_SHD_CFG 0) 16 8 a with
  | some x => execHbmShdEn (Fin.ofNat 8 x) v s
  | none =>
  match arrIdx (HIF_RING_CFG 0) 0x40 1024 a with
  | some n => if fget v HIF_RING_CFG_EN = 1 then execHifRingEnSet (Fin.ofNat 1024 n) v s else execHifRingEnClear (Fin.ofNat 1024 n) v s
  | none =>
  match arrIdx (HIF_SQ_BASE 0) 0x40 1024 a with
  | some n => .next (s.ringBase n a v)
  | none =>
  match arrIdx (HIF_CQ_BASE 0) 0x40 1024 a with
  | some n => .next (s.ringBase n a v)
  | none =>
  match arrIdx (HIF_MSIX_DATA 0) 16 2048 a with
  | some n => .next (s.msixWrite n v)
  | none =>
  match arrIdx (HBM_MARK 0 0) 8 (12 * 0x200000) a with
  | some i => if i % 0x200000 < 8 then execHbmMarkWrite (Fin.ofNat 12 (i / 0x200000)) (Fin.ofNat 8 (i % 0x200000)) v s else .next (s.plainWrite a v)
  | none => (s.plainWrite a v).startCmds a v

/-- REGISTER_WRITE: an address of this node that holds a register; its block is out of reset and its window is open (R37, R38, R238,
R492). -/
def execRegisterWrite (addr : Word) (value : Word) (s : State) : Host.Outcome State Fault Refusal :=
  let a := localOf addr.toNat
  if nodeOf addr.toNat ≠ s.node ∨ 2 ^ 56 ≤ addr.toNat ∨ a % 8 ≠ 0 then .next { s with answer := .error } else
  match s.region a with
  | .reg r =>
    if s.cut 2 a then .next { s with answer := .absent }
    else if s.regHeld r then .next { s.bump TST_SI_CNT TST_SI_CNT_REG with answer := .error }
    else match s.regShut r with
    | some n => .next { s.apertureRefuse n with answer := .error }
    | none   => ({ s with answer := .done }).registerWrite r value
  | _ => .next { s with answer := .error }

end Sys2Proof.Machine
end

