-- ==== Sys2Proof/Machine/Dispatch.lean ====
section
/-!
DEFINITION. The dispatch of commands to their meanings: one arm for each command, each arm one call.
-/

namespace Sys2Proof.Machine

open Sys2Proof

def exec (i : Instr) (s : State) : Host.Outcome State Fault Refusal :=
  match i with
  | .coldReset cause straps => Sys2Proof.Machine.execColdReset cause straps s
  | .vin56Start mv => Sys2Proof.Machine.execVin56Start mv s
  | .vin56Change mv => Sys2Proof.Machine.execVin56Change mv s
  | .pdieFault k => Sys2Proof.Machine.execPdieFault k s
  | .bootStepComplete inp => Sys2Proof.Machine.execBootStepComplete inp s
  | .ucieLinkUp l south => Sys2Proof.Machine.execUcieLinkUp l south s
  | .craoneTrainTimeout l => Sys2Proof.Machine.execCraoneTrainTimeout l s
  | .cap l hdr chunk => Sys2Proof.Machine.execCap l hdr chunk s
  | .discover east hdr => Sys2Proof.Machine.execDiscover east hdr s
  | .orientationTimeout east => Sys2Proof.Machine.execOrientationTimeout east s
  | .credit l hdr => Sys2Proof.Machine.execCredit l hdr s
  | .depart l hdr => Sys2Proof.Machine.execDepart l hdr s
  | .ucieLinkDown l => Sys2Proof.Machine.execUcieLinkDown l s
  | .craReturn l hdr => Sys2Proof.Machine.execCraReturn l hdr s
  | .standInAnswer l src txid => Sys2Proof.Machine.execStandInAnswer l src txid s
  | .lateDrop l src txid => Sys2Proof.Machine.execLateDrop l src txid s
  | .craoneDegrade l module half => Sys2Proof.Machine.execCraoneDegrade l module half s
  | .tileFaultDeclare n cause => Sys2Proof.Machine.execTileFaultDeclare n cause s
  | .heartbeatLoss n => Sys2Proof.Machine.execHeartbeatLoss n s
  | .mappingInstalled n => Sys2Proof.Machine.execMappingInstalled n s
  | .facetLoadComplete n => Sys2Proof.Machine.execFacetLoadComplete n s
  | .workDispatch n => Sys2Proof.Machine.execWorkDispatch n s
  | .tileIdle n => Sys2Proof.Machine.execTileIdle n s
  | .apertureAccess src n off len write data => Sys2Proof.Machine.execApertureAccess src n off len write data s
  | .register hostBytes => Sys2Proof.Machine.execRegister hostBytes s
  | .unregister => Sys2Proof.Machine.execUnregister s
  | .bind n => Sys2Proof.Machine.execBind n s
  | .unbind n => Sys2Proof.Machine.execUnbind n s
  | .streamChunk dst => Sys2Proof.Machine.execStreamChunk dst s
  | .streamCredit dst => Sys2Proof.Machine.execStreamCredit dst s
  | .dmaCopy n q => Sys2Proof.Machine.execDmaCopy n q s
  | .dmaCopy2d n q => Sys2Proof.Machine.execDmaCopy2d n q s
  | .dmaFill n q => Sys2Proof.Machine.execDmaFill n q s
  | .dmaFence n q => Sys2Proof.Machine.execDmaFence n q s
  | .dmaSignal n q => Sys2Proof.Machine.execDmaSignal n q s
  | .dmaDescriptorEnd n q => Sys2Proof.Machine.execDmaDescriptorEnd n q s
  | .tilDmaResume n q => Sys2Proof.Machine.execTilDmaResume n q s
  | .tilDmaFlush n q => Sys2Proof.Machine.execTilDmaFlush n q s
  | .matrix n => Sys2Proof.Machine.execMatrix n s
  | .weightFillComplete n => Sys2Proof.Machine.execWeightFillComplete n s
  | .setComplete n => Sys2Proof.Machine.execSetComplete n s
  | .drainStart n => Sys2Proof.Machine.execDrainStart n s
  | .drainComplete n => Sys2Proof.Machine.execDrainComplete n s
  | .outputTileRetire n => Sys2Proof.Machine.execOutputTileRetire n s
  | .conversionTrial n => Sys2Proof.Machine.execConversionTrial n s
  | .mvpDescriptorEnd n => Sys2Proof.Machine.execMvpDescriptorEnd n s
  | .matFault n => Sys2Proof.Machine.execMatFault n s
  | .patchArrive die => Sys2Proof.Machine.execPatchArrive die s
  | .patchCheck die => Sys2Proof.Machine.execPatchCheck die s
  | .loupeHaltNotice die => Sys2Proof.Machine.execLoupeHaltNotice die s
  | .louResume die => Sys2Proof.Machine.execLouResume die s
  | .louClear die => Sys2Proof.Machine.execLouClear die s
  | .louPop die => Sys2Proof.Machine.execLouPop die s
  | .kernel n => Sys2Proof.Machine.execKernel n s
  | .umbelBaseInstruction n u => Sys2Proof.Machine.execUmbelBaseInstruction n u s
  | .registerFill n u => Sys2Proof.Machine.execRegisterFill n u s
  | .umbelMemoryResponse n u ans => Sys2Proof.Machine.execUmbelMemoryResponse n u ans s
  | .kernelBoundary n => Sys2Proof.Machine.execKernelBoundary n s
  | .kernelComplete n => Sys2Proof.Machine.execKernelComplete n s
  | .utlb n u => Sys2Proof.Machine.execUtlb n u s
  | .utlh n u => Sys2Proof.Machine.execUtlh n u s
  | .utlw n u => Sys2Proof.Machine.execUtlw n u s
  | .utld n u => Sys2Proof.Machine.execUtld n u s
  | .utlbu n u => Sys2Proof.Machine.execUtlbu n u s
  | .utlhu n u => Sys2Proof.Machine.execUtlhu n u s
  | .utlwu n u => Sys2Proof.Machine.execUtlwu n u s
  | .utsb n u => Sys2Proof.Machine.execUtsb n u s
  | .utsh n u => Sys2Proof.Machine.execUtsh n u s
  | .utsw n u => Sys2Proof.Machine.execUtsw n u s
  | .utsd n u => Sys2Proof.Machine.execUtsd n u s
  | .uaadd n u => Sys2Proof.Machine.execUaadd n u s
  | .uaswap n u => Sys2Proof.Machine.execUaswap n u s
  | .uacas n u => Sys2Proof.Machine.execUacas n u s
  | .uaxor n u => Sys2Proof.Machine.execUaxor n u s
  | .uaor n u => Sys2Proof.Machine.execUaor n u s
  | .uaand n u => Sys2Proof.Machine.execUaand n u s
  | .uamin n u => Sys2Proof.Machine.execUamin n u s
  | .uamax n u => Sys2Proof.Machine.execUamax n u s
  | .uaminu n u => Sys2Proof.Machine.execUaminu n u s
  | .uamaxu n u => Sys2Proof.Machine.execUamaxu n u s
  | .ufadd n u => Sys2Proof.Machine.execUfadd n u s
  | .umma n u => Sys2Proof.Machine.execUmma n u s
  | .ushflIdx n u => Sys2Proof.Machine.execUshflIdx n u s
  | .ushflXor n u => Sys2Proof.Machine.execUshflXor n u s
  | .ushflUp n u => Sys2Proof.Machine.execUshflUp n u s
  | .ushflDown n u => Sys2Proof.Machine.execUshflDown n u s
  | .ushflBcast n u => Sys2Proof.Machine.execUshflBcast n u s
  | .uballot n u => Sys2Proof.Machine.execUballot n u s
  | .ucvtO n u => Sys2Proof.Machine.execUcvtO n u s
  | .ucvtI n u => Sys2Proof.Machine.execUcvtI n u s
  | .ubar n u => Sys2Proof.Machine.execUbar n u s
  | .ubarRelease n => Sys2Proof.Machine.execUbarRelease n s
  | .usemwait n u => Sys2Proof.Machine.execUsemwait n u s
  | .semaphorePoll n who => Sys2Proof.Machine.execSemaphorePoll n who s
  | .usempost n u => Sys2Proof.Machine.execUsempost n u s
  | .usput n u => Sys2Proof.Machine.execUsput n u s
  | .usget n u => Sys2Proof.Machine.execUsget n u s
  | .ustryput n u => Sys2Proof.Machine.execUstryput n u s
  | .ustryget n u => Sys2Proof.Machine.execUstryget n u s
  | .uepopen n u => Sys2Proof.Machine.execUepopen n u s
  | .uepcommit n u => Sys2Proof.Machine.execUepcommit n u s
  | .uepguard n u => Sys2Proof.Machine.execUepguard n u s
  | .ul1flush n u => Sys2Proof.Machine.execUl1flush n u s
  | .ul1inv n u => Sys2Proof.Machine.execUl1inv n u s
  | .ul1flushall n u => Sys2Proof.Machine.execUl1flushall n u s
  | .ul1invall n u => Sys2Proof.Machine.execUl1invall n u s
  | .seqNop n => Sys2Proof.Machine.execSeqNop n s
  | .seqAdd n => Sys2Proof.Machine.execSeqAdd n s
  | .seqSub n => Sys2Proof.Machine.execSeqSub n s
  | .seqAnd n => Sys2Proof.Machine.execSeqAnd n s
  | .seqOr n => Sys2Proof.Machine.execSeqOr n s
  | .seqXor n => Sys2Proof.Machine.execSeqXor n s
  | .seqSll n => Sys2Proof.Machine.execSeqSll n s
  | .seqSrl n => Sys2Proof.Machine.execSeqSrl n s
  | .seqSra n => Sys2Proof.Machine.execSeqSra n s
  | .seqMul n => Sys2Proof.Machine.execSeqMul n s
  | .seqMinu n => Sys2Proof.Machine.execSeqMinu n s
  | .seqMaxu n => Sys2Proof.Machine.execSeqMaxu n s
  | .seqSltu n => Sys2Proof.Machine.execSeqSltu n s
  | .seqAddi n => Sys2Proof.Machine.execSeqAddi n s
  | .seqAndi n => Sys2Proof.Machine.execSeqAndi n s
  | .seqOri n => Sys2Proof.Machine.execSeqOri n s
  | .seqSlli n => Sys2Proof.Machine.execSeqSlli n s
  | .seqSrli n => Sys2Proof.Machine.execSeqSrli n s
  | .seqLsh n => Sys2Proof.Machine.execSeqLsh n s
  | .seqBeq n => Sys2Proof.Machine.execSeqBeq n s
  | .seqBne n => Sys2Proof.Machine.execSeqBne n s
  | .seqBltu n => Sys2Proof.Machine.execSeqBltu n s
  | .seqBgeu n => Sys2Proof.Machine.execSeqBgeu n s
  | .seqJmp n => Sys2Proof.Machine.execSeqJmp n s
  | .seqCall n => Sys2Proof.Machine.execSeqCall n s
  | .seqRet n => Sys2Proof.Machine.execSeqRet n s
  | .seqLdt n => Sys2Proof.Machine.execSeqLdt n s
  | .seqStt n => Sys2Proof.Machine.execSeqStt n s
  | .seqPrm n => Sys2Proof.Machine.execSeqPrm n s
  | .seqDsc n => Sys2Proof.Machine.execSeqDsc n s
  | .seqSst n => Sys2Proof.Machine.execSeqSst n s
  | .seqTake n => Sys2Proof.Machine.execSeqTake n s
  | .seqDone n => Sys2Proof.Machine.execSeqDone n s
  | .seqDmaq n => Sys2Proof.Machine.execSeqDmaq n s
  | .seqClv n => Sys2Proof.Machine.execSeqClv n s
  | .seqMvc n => Sys2Proof.Machine.execSeqMvc n s
  | .seqCvc n => Sys2Proof.Machine.execSeqCvc n s
  | .cvcEnd n => Sys2Proof.Machine.execCvcEnd n s
  | .seqWait n => Sys2Proof.Machine.execSeqWait n s
  | .seqKlaunch n => Sys2Proof.Machine.execSeqKlaunch n s
  | .seqEopen n => Sys2Proof.Machine.execSeqEopen n s
  | .seqEcommit n => Sys2Proof.Machine.execSeqEcommit n s
  | .seqEguard n => Sys2Proof.Machine.execSeqEguard n s
  | .seqSemw n => Sys2Proof.Machine.execSeqSemw n s
  | .seqSemp n => Sys2Proof.Machine.execSeqSemp n s
  | .startRecordWritten n => Sys2Proof.Machine.execStartRecordWritten n s
  | .epochOverrun n => Sys2Proof.Machine.execEpochOverrun n s
  | .journalSealWrite n => Sys2Proof.Machine.execJournalSealWrite n s
  | .commitPoint n us => Sys2Proof.Machine.execCommitPoint n us s
  | .journalEntryPublish n => Sys2Proof.Machine.execJournalEntryPublish n s
  | .journalEntryFail n => Sys2Proof.Machine.execJournalEntryFail n s
  | .prismRelease n p => Sys2Proof.Machine.execPrismRelease n p s
  | .resendRequest n p => Sys2Proof.Machine.execResendRequest n p s
  | .epoCtlRelease n => Sys2Proof.Machine.execEpoCtlRelease n s
  | .epoCtlFlush n => Sys2Proof.Machine.execEpoCtlFlush n s
  | .epoModeWrite value => Sys2Proof.Machine.execEpoModeWrite value s
  | .ledgerAdd die cell bf16 operand => Sys2Proof.Machine.execLedgerAdd die cell bf16 operand s
  | .ledgerRead die cell bf16 => Sys2Proof.Machine.execLedgerRead die cell bf16 s
  | .ledgerClearGo die value => Sys2Proof.Machine.execLedgerClearGo die value s
  | .ledgerClearDone die => Sys2Proof.Machine.execLedgerClearDone die s
  | .ledgerLock die value => Sys2Proof.Machine.execLedgerLock die value s
  | .spwTierLock cfg => Sys2Proof.Machine.execSpwTierLock cfg s
  | .schedule => Sys2Proof.Machine.execSchedule s
  | .scheduleEntryIssue => Sys2Proof.Machine.execScheduleEntryIssue s
  | .acquire object => Sys2Proof.Machine.execAcquire object s
  | .release object => Sys2Proof.Machine.execRelease object s
  | .cancel object => Sys2Proof.Machine.execCancel object s
  | .writeback object => Sys2Proof.Machine.execWriteback object s
  | .evict object => Sys2Proof.Machine.execEvict object s
  | .spaceGrant => Sys2Proof.Machine.execSpaceGrant s
  | .granuleCopyComplete object => Sys2Proof.Machine.execGranuleCopyComplete object s
  | .copyFault object => Sys2Proof.Machine.execCopyFault object s
  | .spwClearFailed => Sys2Proof.Machine.execSpwClearFailed s
  | .spwAbort => Sys2Proof.Machine.execSpwAbort s
  | .rdShared a addr stream f => Sys2Proof.Machine.execRdShared a addr stream f s
  | .rdUnique a addr mask data => Sys2Proof.Machine.execRdUnique a addr mask data s
  | .upgrade a addr mask data => Sys2Proof.Machine.execUpgrade a addr mask data s
  | .claim a addr data => Sys2Proof.Machine.execClaim a addr data s
  | .rdOnce a addr => Sys2Proof.Machine.execRdOnce a addr s
  | .wbDirty a addr => Sys2Proof.Machine.execWbDirty a addr s
  | .evictClean a addr => Sys2Proof.Machine.execEvictClean a addr s
  | .cmoClean a addr => Sys2Proof.Machine.execCmoClean a addr s
  | .cmoFlush a addr => Sys2Proof.Machine.execCmoFlush a addr s
  | .snpShared a addr f => Sys2Proof.Machine.execSnpShared a addr f s
  | .snpUnique a addr => Sys2Proof.Machine.execSnpUnique a addr s
  | .snpInv a addr => Sys2Proof.Machine.execSnpInv a addr s
  | .snpOnce a addr => Sys2Proof.Machine.execSnpOnce a addr s
  | .snpClean a addr => Sys2Proof.Machine.execSnpClean a addr s
  | .snpFlush a addr f => Sys2Proof.Machine.execSnpFlush a addr f s
  | .comp a addr => Sys2Proof.Machine.execComp a addr s
  | .compAck a addr => Sys2Proof.Machine.execCompAck a addr s
  | .rspI a addr => Sys2Proof.Machine.execRspI a addr s
  | .rspS a addr => Sys2Proof.Machine.execRspS a addr s
  | .rspO a addr => Sys2Proof.Machine.execRspO a addr s
  | .rspKeep a addr => Sys2Proof.Machine.execRspKeep a addr s
  | .cohError a addr => Sys2Proof.Machine.execCohError a addr s
  | .cohPoisoned a addr => Sys2Proof.Machine.execCohPoisoned a addr s
  | .cohAbsent a addr => Sys2Proof.Machine.execCohAbsent a addr s
  | .cohMalformed a addr => Sys2Proof.Machine.execCohMalformed a addr s
  | .dataS a addr => Sys2Proof.Machine.execDataS a addr s
  | .dataE a addr => Sys2Proof.Machine.execDataE a addr s
  | .dataM a addr => Sys2Proof.Machine.execDataM a addr s
  | .dataOnce a addr => Sys2Proof.Machine.execDataOnce a addr s
  | .dataToHome a addr => Sys2Proof.Machine.execDataToHome a addr s
  | .hmemRd addr f h => Sys2Proof.Machine.execHmemRd addr f h s
  | .hmemWr addr => Sys2Proof.Machine.execHmemWr addr s
  | .leaseReq d addr acc => Sys2Proof.Machine.execLeaseReq d addr acc s
  | .leaseGrant d addr => Sys2Proof.Machine.execLeaseGrant d addr s
  | .leaseDeny d addr => Sys2Proof.Machine.execLeaseDeny d addr s
  | .leaseRecall d addr => Sys2Proof.Machine.execLeaseRecall d addr s
  | .leaseReturn d addr => Sys2Proof.Machine.execLeaseReturn d addr s
  | .leaseHoldoffExpire addr => Sys2Proof.Machine.execLeaseHoldoffExpire addr s
  | .cchLeaseCfgWrite value => Sys2Proof.Machine.execCchLeaseCfgWrite value s
  | .cchMntGo value => Sys2Proof.Machine.execCchMntGo value s
  | .cchMntDone => Sys2Proof.Machine.execCchMntDone s
  | .cchReplLock value => Sys2Proof.Machine.execCchReplLock value s
  | .cchScCarveLock die value => Sys2Proof.Machine.execCchScCarveLock die value s
  | .cchRrbInvGo byNode node => Sys2Proof.Machine.execCchRrbInvGo byNode node s
  | .cchRrbInvDone => Sys2Proof.Machine.execCchRrbInvDone s
  | .hbmRead addr f => Sys2Proof.Machine.execHbmRead addr f s
  | .hbmWrite addr mask data poison => Sys2Proof.Machine.execHbmWrite addr mask data poison s
  | .wcbDeadline addr => Sys2Proof.Machine.execWcbDeadline addr s
  | .wcbDrainRead addr f => Sys2Proof.Machine.execWcbDrainRead addr f s
  | .parityDelta addr => Sys2Proof.Machine.execParityDelta addr s
  | .parityAck addr => Sys2Proof.Machine.execParityAck addr s
  | .parityRelease addr => Sys2Proof.Machine.execParityRelease addr s
  | .releaseTimeout addr => Sys2Proof.Machine.execReleaseTimeout addr s
  | .reconstruction addr => Sys2Proof.Machine.execReconstruction addr s
  | .reconstructionComplete addr bad => Sys2Proof.Machine.execReconstructionComplete addr bad s
  | .scrubStep k f => Sys2Proof.Machine.execScrubStep k f s
  | .hbmTempRead k temp => Sys2Proof.Machine.execHbmTempRead k temp s
  | .throttleStepFall k => Sys2Proof.Machine.execThrottleStepFall k s
  | .hbmThrCfgWrite k value => Sys2Proof.Machine.execHbmThrCfgWrite k value s
  | .hbmShdEn x value => Sys2Proof.Machine.execHbmShdEn x value s
  | .shieldZeroingDone x => Sys2Proof.Machine.execShieldZeroingDone x s
  | .hbmFailPcWrite k value => Sys2Proof.Machine.execHbmFailPcWrite k value s
  | .pcPhyFail k pc => Sys2Proof.Machine.execPcPhyFail k pc s
  | .hbmRebuildGo k pc all => Sys2Proof.Machine.execHbmRebuildGo k pc all s
  | .hbmRebuildDone k phyFails lines => Sys2Proof.Machine.execHbmRebuildDone k phyFails lines s
  | .hbmQuiesceWrite k value => Sys2Proof.Machine.execHbmQuiesceWrite k value s
  | .hbmMarkWrite k j value => Sys2Proof.Machine.execHbmMarkWrite k j value s
  | .hbmRepairQuery k pc bank => Sys2Proof.Machine.execHbmRepairQuery k pc bank s
  | .softRowRepair k pc bank row yarrow => Sys2Proof.Machine.execSoftRowRepair k pc bank row yarrow s
  | .hardRowRepair k pc bank row => Sys2Proof.Machine.execHardRowRepair k pc bank row s
  | .dqRemap k pc dq yarrow => Sys2Proof.Machine.execDqRemap k pc dq yarrow s
  | .clearRemap k pc => Sys2Proof.Machine.execClearRemap k pc s
  | .hbmRepairDone k res rows => Sys2Proof.Machine.execHbmRepairDone k res rows s
  | .hbmMrgGo k pc => Sys2Proof.Machine.execHbmMrgGo k pc s
  | .hbmMrgDone k eyes => Sys2Proof.Machine.execHbmMrgDone k eyes s
  | .yelryLoad c pa size page hint arr f => Sys2Proof.Machine.execYelryLoad c pa size page hint arr f s
  | .yelryStore c pa size page hint data issue => Sys2Proof.Machine.execYelryStore c pa size page hint data issue s
  | .storeBufferCompletion c line ans => Sys2Proof.Machine.execStoreBufferCompletion c line ans s
  | .storeBufferTimeout c line => Sys2Proof.Machine.execStoreBufferTimeout c line s
  | .warmResetDiscard => Sys2Proof.Machine.execWarmResetDiscard s
  | .yelryFence c pred => Sys2Proof.Machine.execYelryFence c pred s
  | .fenceI c => Sys2Proof.Machine.execFenceI c s
  | .lr c pa dw page aqrl => Sys2Proof.Machine.execLr c pa dw page aqrl s
  | .sc c pa dw page data aqrl => Sys2Proof.Machine.execSc c pa dw page data aqrl s
  | .reservationHoldExpire c => Sys2Proof.Machine.execReservationHoldExpire c s
  | .yelryAmo c pa dw op data aqrl => Sys2Proof.Machine.execYelryAmo c pa dw op data aqrl s
  | .ioAccess c pa size store => Sys2Proof.Machine.execIoAccess c pa size store s
  | .cboZero c pa => Sys2Proof.Machine.execCboZero c pa s
  | .cboClean c pa => Sys2Proof.Machine.execCboClean c pa s
  | .cboFlush c pa => Sys2Proof.Machine.execCboFlush c pa s
  | .cboInval c pa => Sys2Proof.Machine.execCboInval c pa s
  | .prefetch c pa => Sys2Proof.Machine.execPrefetch c pa s
  | .wfi c => Sys2Proof.Machine.execWfi c s
  | .fence r => Sys2Proof.Machine.execFence r s
  | .fenceStart r => Sys2Proof.Machine.execFenceStart r s
  | .peerFlushCompletion r ans => Sys2Proof.Machine.execPeerFlushCompletion r ans s
  | .peerFlushTimeout r => Sys2Proof.Machine.execPeerFlushTimeout r s
  | .pcieInboundWrite port addr data ep relaxed => Sys2Proof.Machine.execPcieInboundWrite port addr data ep relaxed s
  | .pcieInboundRead port addr len page => Sys2Proof.Machine.execPcieInboundRead port addr len page s
  | .atcMiss die pasid va kind => Sys2Proof.Machine.execAtcMiss die pasid va kind s
  | .translationCompletion die pasid va kind dc res => Sys2Proof.Machine.execTranslationCompletion die pasid va kind dc res s
  | .pageRequestResponse die pasid va success => Sys2Proof.Machine.execPageRequestResponse die pasid va success s
  | .pageRequestTimeout die pasid va => Sys2Proof.Machine.execPageRequestTimeout die pasid va s
  | .iotinvalVma pasid va => Sys2Proof.Machine.execIotinvalVma pasid va s
  | .iotinvalGvma addr => Sys2Proof.Machine.execIotinvalGvma addr s
  | .iofenceC => Sys2Proof.Machine.execIofenceC s
  | .iofenceCComplete => Sys2Proof.Machine.execIofenceCComplete s
  | .atsInvalidate pasid va log2 => Sys2Proof.Machine.execAtsInvalidate pasid va log2 s
  | .doorbell page offset size write value => Sys2Proof.Machine.execDoorbell page offset size write value s
  | .sqRead r ans data => Sys2Proof.Machine.execSqRead r ans data s
  | .descriptorAdmit r => Sys2Proof.Machine.execDescriptorAdmit r s
  | .cqWriteFail r => Sys2Proof.Machine.execCqWriteFail r s
  | .coalesceTimer r => Sys2Proof.Machine.execCoalesceTimer r s
  | .nop r => Sys2Proof.Machine.execNop r s
  | .writeInline n => Sys2Proof.Machine.execWriteInline n s
  | .dma n => Sys2Proof.Machine.execDma n s
  | .facetWork n => Sys2Proof.Machine.execFacetWork n s
  | .epochDesc n => Sys2Proof.Machine.execEpochDesc n s
  | .collective d => Sys2Proof.Machine.execCollective d s
  | .hifRingEnSet r cfg => Sys2Proof.Machine.execHifRingEnSet r cfg s
  | .hifRingEnClear r cfg => Sys2Proof.Machine.execHifRingEnClear r cfg s
  | .hifRingStop r => Sys2Proof.Machine.execHifRingStop r s
  | .hifRingResume r => Sys2Proof.Machine.execHifRingResume r s
  | .hifRingAbandon r => Sys2Proof.Machine.execHifRingAbandon r s
  | .hostLoss cause => Sys2Proof.Machine.execHostLoss cause s
  | .hifAttachGo => Sys2Proof.Machine.execHifAttachGo s
  | .attachReady => Sys2Proof.Machine.execAttachReady s
  | .attachTimeout => Sys2Proof.Machine.execAttachTimeout s
  | .pcieRecovery port => Sys2Proof.Machine.execPcieRecovery port s
  | .rootPortDown port => Sys2Proof.Machine.execRootPortDown port s
  | .hifPcieLock cfg => Sys2Proof.Machine.execHifPcieLock cfg s
  | .fgnCfgEn value => Sys2Proof.Machine.execFgnCfgEn value s
  | .fgnPortCfgWrite p value => Sys2Proof.Machine.execFgnPortCfgWrite p value s
  | .signalDetect l active => Sys2Proof.Machine.execSignalDetect l active s
  | .equalisationConverged l => Sys2Proof.Machine.execEqualisationConverged l s
  | .alignmentLock l => Sys2Proof.Machine.execAlignmentLock l s
  | .ident l x => Sys2Proof.Machine.execIdent l x s
  | .linkTrainTimeout l => Sys2Proof.Machine.execLinkTrainTimeout l s
  | .linkLoss l => Sys2Proof.Machine.execLinkLoss l s
  | .fallbackInstall p => Sys2Proof.Machine.execFallbackInstall p s
  | .flit p l hdr crcOk corr uncorr => Sys2Proof.Machine.execFlit p l hdr crcOk corr uncorr s
  | .fgnRead p k => Sys2Proof.Machine.execFgnRead p k s
  | .fgnWrite p k => Sys2Proof.Machine.execFgnWrite p k s
  | .fgnWriteMasked p k => Sys2Proof.Machine.execFgnWriteMasked p k s
  | .fgnAtomic p k => Sys2Proof.Machine.execFgnAtomic p k s
  | .fgnData p k => Sys2Proof.Machine.execFgnData p k s
  | .fugenComp p k => Sys2Proof.Machine.execFugenComp p k s
  | .cdata p k => Sys2Proof.Machine.execCdata p k s
  | .cabort p k => Sys2Proof.Machine.execCabort p k s
  | .ack p k => Sys2Proof.Machine.execAck p k s
  | .nak p k => Sys2Proof.Machine.execNak p k s
  | .close p k => Sys2Proof.Machine.execClose p k s
  | .e2eTimeout node cls => Sys2Proof.Machine.execE2eTimeout node cls s
  | .connectionIdleFree node => Sys2Proof.Machine.execConnectionIdleFree node s
  | .collectiveComplete die comm => Sys2Proof.Machine.execCollectiveComplete die comm s
  | .prsAbort die comm => Sys2Proof.Machine.execPrsAbort die comm s
  | .collectiveStall die comm => Sys2Proof.Machine.execCollectiveStall die comm s
  | .capNoticeExpire die us => Sys2Proof.Machine.execCapNoticeExpire die us s
  | .coreStart c => Sys2Proof.Machine.execCoreStart c s
  | .corePowerGood c => Sys2Proof.Machine.execCorePowerGood c s
  | .corePark c => Sys2Proof.Machine.execCorePark c s
  | .parkDrainComplete c => Sys2Proof.Machine.execParkDrainComplete c s
  | .l2FlushComplete c => Sys2Proof.Machine.execL2FlushComplete c s
  | .coreOffline c cause => Sys2Proof.Machine.execCoreOffline c cause s
  | .offlineFlushComplete c flushed => Sys2Proof.Machine.execOfflineFlushComplete c flushed s
  | .seteipnum c sLevel off data => Sys2Proof.Machine.execSeteipnum c sLevel off data s
  | .mtimerCompare c super => Sys2Proof.Machine.execMtimerCompare c super s
  | .mgtCxlwinEn w value => Sys2Proof.Machine.execMgtCxlwinEn w value s
  | .cxlLock => Sys2Proof.Machine.execCxlLock s
  | .ddrPatrolScrub addr f => Sys2Proof.Machine.execDdrPatrolScrub addr f s
  | .meniscusStep m => Sys2Proof.Machine.execMeniscusStep m s
  | .phaseInterval sig tileW hbmW hdieW fixedW => Sys2Proof.Machine.execPhaseInterval sig tileW hbmW hdieW fixedW s
  | .droopFire at_ => Sys2Proof.Machine.execDroopFire at_ s
  | .droopRecovery at_ => Sys2Proof.Machine.execDroopRecovery at_ s
  | .ageingCheck needs => Sys2Proof.Machine.execAgeingCheck needs s
  | .junctionRead j => Sys2Proof.Machine.execJunctionRead j s
  | .tjCritHoldExpire => Sys2Proof.Machine.execTjCritHoldExpire s
  | .idleEntry => Sys2Proof.Machine.execIdleEntry s
  | .wakeEvent cause => Sys2Proof.Machine.execWakeEvent cause s
  | .pwrIdleWake => Sys2Proof.Machine.execPwrIdleWake s
  | .energyUpdate mj => Sys2Proof.Machine.execEnergyUpdate mj s
  | .autoWarmDelay => Sys2Proof.Machine.execAutoWarmDelay s
  | .ebGo e kind index tapOwns => Sys2Proof.Machine.execEbGo e kind index tapOwns s
  | .ebAbort e duration => Sys2Proof.Machine.execEbAbort e duration s
  | .ebTestComplete e f => Sys2Proof.Machine.execEbTestComplete e f s
  | .injTileFault target => Sys2Proof.Machine.execInjTileFault target s
  | .injHeartbeatStop target => Sys2Proof.Machine.execInjHeartbeatStop target s
  | .injHbmCorrupt => Sys2Proof.Machine.execInjHbmCorrupt s
  | .injLinkDrop target => Sys2Proof.Machine.execInjLinkDrop target s
  | .wayDis die way => Sys2Proof.Machine.execWayDis die way s
  | .wayEn die way => Sys2Proof.Machine.execWayEn die way s
  | .queueTile ptile => Sys2Proof.Machine.execQueueTile ptile s
  | .teaselLockstepMismatch => Sys2Proof.Machine.execTeaselLockstepMismatch s
  | .teaselRestartComplete => Sys2Proof.Machine.execTeaselRestartComplete s
  | .warmReset cause => Sys2Proof.Machine.execWarmReset cause s
  | .warmJournalsPublished => Sys2Proof.Machine.execWarmJournalsPublished s
  | .warmResetRelease lost => Sys2Proof.Machine.execWarmResetRelease lost s
  | .rstCtlWarm => Sys2Proof.Machine.execRstCtlWarm s
  | .rstCtlCold straps => Sys2Proof.Machine.execRstCtlCold straps s
  | .rstBootDone => Sys2Proof.Machine.execRstBootDone s
  | .svnCommit comp => Sys2Proof.Machine.execSvnCommit comp s
  | .secExtGo reg => Sys2Proof.Machine.execSecExtGo reg s
  | .keyEnrol slot => Sys2Proof.Machine.execKeyEnrol slot s
  | .keyEmpty slot => Sys2Proof.Machine.execKeyEmpty slot s
  | .keylock => Sys2Proof.Machine.execKeylock s
  | .secAttGo mask => Sys2Proof.Machine.execSecAttGo mask s
  | .attestationSigned => Sys2Proof.Machine.execAttestationSigned s
  | .getBoot => Sys2Proof.Machine.execGetBoot s
  | .setWall seconds => Sys2Proof.Machine.execSetWall seconds s
  | .readLog offset len => Sys2Proof.Machine.execReadLog offset len s
  | .attest nonce mask => Sys2Proof.Machine.execAttest nonce mask s
  | .setCap watts => Sys2Proof.Machine.execSetCap watts s
  | .sideReset type straps => Sys2Proof.Machine.execSideReset type straps s
  | .firmwareImageWrite comp image => Sys2Proof.Machine.execFirmwareImageWrite comp image s
  | .verifyComplete comp => Sys2Proof.Machine.execVerifyComplete comp s
  | .applyComplete comp => Sys2Proof.Machine.execApplyComplete comp s
  | .firmwareTrialTimeout comp => Sys2Proof.Machine.execFirmwareTrialTimeout comp s
  | .mgtPscMark value => Sys2Proof.Machine.execMgtPscMark value s
  | .lifeSave => Sys2Proof.Machine.execLifeSave s
  | .summaryRewrite => Sys2Proof.Machine.execSummaryRewrite s
  | .mgtWallWrite seconds => Sys2Proof.Machine.execMgtWallWrite seconds s
  | .clkMeasGo sel => Sys2Proof.Machine.execClkMeasGo sel s
  | .clkMeasDone hz => Sys2Proof.Machine.execClkMeasDone hz s
  | .registerWrite addr value => Sys2Proof.Machine.execRegisterWrite addr value s
  | .pcieLinkUp port => Sys2Proof.Machine.execPcieLinkUp port s
  | .barAssign base => Sys2Proof.Machine.execBarAssign base s
  | .ackTimer node => Sys2Proof.Machine.execAckTimer node s
  | .wakeComplete us => Sys2Proof.Machine.execWakeComplete us s
  | .yelryCsrAccess c mode csr op value => Sys2Proof.Machine.execYelryCsrAccess c mode csr op value s

end Sys2Proof.Machine
end

