-- ==== Sys2Proof/Machine/Step.lean ====
section
/-!
DEFINITION. One step of the block: the command at the front of the queue runs with the queue's rest; an empty queue lets one tick of
the life clock pass (notes/assumptions/1.md).

Where the spec leaves open or is read by inference, and what is taken from outside it (DESIGN CHOICE, DEDUCED, PRESUMED):
notes/assumptions/1.md, 6.md, 7.md, 9.md, 10.md.
-/

namespace Sys2Proof.Machine

open Sys2Proof

/-- One step. -/
def step (s : State) : Host.Outcome State Fault Refusal :=
  match s.pending with
  | []     => .next s.tick
  | c :: r => exec c { s with pending := r }

/-- The state with the command that a word spells in front of its queue; the state itself where the word spells none. -/
def State.withFetchWord (s : State) (nbits w : Nat) : State :=
  match decodeTableWord nbits w with
  | none   => s
  | some c => { s with pending := c :: s.pending }

end Sys2Proof.Machine
end

