-- ==== Sys2Proof/Safety.lean ====
section
/-!
DEFINITION. What counts as a safe step, and the canonical form of the state's memories that every step keeps;
after them the terms in which the statements are written: what changed and what did not, and where a command finds its unit ready.
-/

namespace Sys2Proof.Machine

open Sys2Proof

/-- The canonical form of a byte memory: addresses strictly rising, no listed byte equal to what an unlisted one reads as. -/
def Memory.wf (m : List Host.Cell) : Bool := mwf (0 : Byte) m

/-- Keys strictly rising, each above a bound. -/
def keysAbove {β : Type} : Nat → List (Nat × β) → Bool
  | _, []          => true
  | b, (k, _) :: r => decide (b ≤ k) && keysAbove (k + 1) r

/-- The canonical form of the registers: addresses strictly rising, no listed register at its reset value. -/
def regsWf (rs : List (Nat × Word)) : Bool := keysAbove 0 rs && rs.all (fun p => p.2 != regReset p.1)

/-- Every memory of the state, its poison and its registers are in canonical form, so that equal contents are equal data. -/
def State.canonical (s : State) : Prop :=
  Memory.wf s.mem = true ∧ mwf false s.poison = true ∧ Memory.wf s.hostMem = true ∧ Memory.wf s.scratch = true ∧
  mwf false s.gdirty = true ∧ regsWf s.regs = true

/-- What every operation of the machine keeps on its way from r to s: the queue of commands, the canonical form of the
memories and registers, and that no free value is used twice. -/
structure Keep (r s : State) : Prop where
  pending : s.pending = r.pending
  canon   : r.canonical → s.canonical
  free    : r.freeCtr ≤ s.freeCtr

/-- A step that goes on: its outcome is a next state. -/
def Goes (o : Host.Outcome State Fault Refusal) : Prop := ∃ t, o = .next t

/-! ### The terms of the statements -/

/-- The state t differs from s in registers only, and only in those listed. -/
def OnlyRegs (as : List Nat) (s t : State) : Prop := t = { s with regs := t.regs } ∧ ∀ a, a ∉ as → t.reg a = s.reg a

/-- Every register but those listed reads in t as in s. -/
def RegsBut (as : List Nat) (s t : State) : Prop := ∀ a, a ∉ as → t.reg a = s.reg a

/-- The sequencer of tile n stands ready at a well-formed instruction w of operation op. -/
def SeqAt (s : State) (n : Nat) (w : W32) (op : Nat) : Prop :=
  s.seqReady n = true ∧ s.seqWord n = some w ∧ bits w 31 26 = op ∧ seqForm w = true

/-- Nothing but tile n and its TIL_SEQ_STAT changes, and of the tile neither its store nor its descriptor. -/
def SeqOnly (n : Nat) (s t : State) : Prop :=
  RegsBut [TIL_SEQ_STAT n] s t ∧ (∀ k, k ≠ n → t.tile k = s.tile k) ∧ t.mem = s.mem ∧ (t.tile n).store = (s.tile n).store ∧
  (t.tile n).seq.held = (s.tile n).seq.held ∧ t.flag (TIL_SEQ_STAT n) TIL_SEQ_STAT_HELD = s.flag (TIL_SEQ_STAT n) TIL_SEQ_STAT_HELD

/-- The sequencer of tile n has written v to register d, where g0 takes no write, and stands at the next instruction. -/
def SeqWrote (n d : Nat) (v : Word) (s t : State) : Prop :=
  (∀ r, t.g n r = if r = d ∧ r ≠ 0 then v else s.g n r) ∧ t.seqPcOf n = (s.seqPcOf n + 1) % 8192 ∧ SeqOnly n s t

/-- The sequencer of tile n stands at instruction pc, its registers as they were. -/
def SeqWent (n pc : Nat) (s t : State) : Prop := (∀ r, t.g n r = s.g n r) ∧ t.seqPcOf n = pc ∧ SeqOnly n s t

/-- Umbel u of tile n stands ready at the cached instruction w, extension x, with its sources in the register cache. -/
def UmbAt (s : State) (n u : Nat) (k : Kern) (m : Umb) (w : W32) (x : UExt) : Prop :=
  s.uReady n u = some (k, m) ∧ lanesOf m.active ≠ [] ∧ s.uFetch n k m = (s, .word w) ∧ uExt w = some x ∧
  ∃ i, extInfo k x w = some i ∧ rcHas m i = true

/-- The umbel that was m has completed its instruction, without a pending reconvergence at the next one and with its lanes as
they were, and P holds of it. -/
def UmbDone (n u : Nat) (m : Umb) (t : State) (P : Umb → Prop) : Prop :=
  ∃ k' m', t.umb n u = some (k', m') ∧ m'.wait = .none ∧ m'.issued = false ∧ m'.live = m.live ∧ m'.fcsr = m.fcsr ∧
    (m.stack = [] → m'.pc = (m.pc + 4) % 2 ^ 64 ∧ lanesOf m'.active = lanesOf m.active) ∧ P m'

/-- Register d of the active lanes of m has the value v of its lane; x0 takes no write, and every other register is as it was. -/
def UmbWrote (m : Umb) (d : Nat) (v : Nat → Nat) (m' : Umb) : Prop :=
  (∀ l ∈ lanesOf m.active, d ≠ 0 → m'.reg l d = v l % 2 ^ 64) ∧
  ∀ l r, r < 64 → (l ∈ lanesOf m.active → r ≠ d) → m'.reg l r = m.reg l r

/-- No request waits for a way of a line's directory set. -/
def SetIdle (s : State) (l : Nat) : Prop := ∀ p ∈ s.coh.queue, p.1 = l ∨ dirIdx p.1 ≠ dirIdx l ∨ s.busyLine p.1 = true

/-- The home has nothing under way for a line, and no lease or lease request stands before it. -/
def HomeFree (s : State) (l : Nat) : Prop :=
  mfind s.coh.txn l = none ∧ mget [] s.coh.queue l = [] ∧ s.leased l = false ∧ mfind s.coh.rtxn (regionOf l) = none ∧
  s.sliceFull l = false ∧ s.dataDue l = false ∧ SetIdle s l

/-- A way of a line's directory set is free. -/
def DirFree (s : State) (l : Nat) : Prop := ∃ w, w < 16 ∧ ∀ p ∈ s.dirSet l, p.2.way ≠ w

/-- A line lies in a way in which its agent caches, or in none. -/
def WayKept (s : State) (a : CohAgent) (c : CLine) : Prop := ∀ d, a = .sc d → 16 ≤ c.way ∨ s.wayOn d c.way = true

/-- A caching agent that reaches the home for a line: its die is there, the line is open to it, and it is to ask for the line and not
for a lease. -/
def AgentHome (s : State) (a : CohAgent) (l : Nat) : Prop :=
  s.agentGone (agentId a) = false ∧ s.closedMem l = false ∧ ∀ d, a = .sc d → s.coh.recalls.contains (regionOf l) = false ∧ s.leaseEn d = false

/-- A saturating counter has counted once from s to t. -/
def Counted (a : Nat) (f : Fld) (s t : State) : Prop := t.rd a f = min (s.rd a f + 1) f.ones

/-- An event of this state leaves no record in memory: its queue is off and Periscope does not spill. -/
def Quiet (s : State) : Prop := s.flag TST_EVQ_CFG TST_EVQ_CFG_EN = false ∧ s.flag MGT_PSC_CFG MGT_PSC_CFG_SPILL_EN = false

/-- addr is an HBM address, and its line lies at key, in pseudo-channel pc of stack k. -/
def HbmAt (s : State) (addr : Word) (key k pc : Nat) : Prop :=
  hbmLine addr = some key ∧ (s.hbmPlace key).1 = k ∧ (s.hbmPlace key).2.1 = pc

/-- A line of HBM that is served: the compute blocks are out of reset, its stack is not quiesced, and no range that is not yet zero or
holds parity, no carve-out and no closed store covers it. -/
def HbmOpen (s : State) (key k : Nat) : Prop :=
  s.computeHeld = false ∧ s.flag (HBM_STAT k) HBM_STAT_QUIESCED = false ∧ s.shdBlocked key = false ∧ s.closedMem key = false

/-- A line whose stored bytes are good: nothing has failed, gone stale, been poisoned or been corrupted there. -/
def HbmGood (s : State) (key k pc : Nat) : Prop :=
  s.pcFailed k pc = false ∧ s.isStale key = false ∧ s.markerAt key = false ∧ s.hbm.corrupt.contains key = false

/-- A repair operation r runs on stack k in t, and nothing but its registers differs from s. -/
def RepairOn (k : Nat) (r : HbmRep) (s t : State) : Prop :=
  t.flag (HBM_REPAIR_STAT k) HBM_REPAIR_STAT_BUSY = true ∧ mfind t.hbm.repair k = some r ∧ t.mem = s.mem ∧
    RegsBut [HBM_REPAIR k, HBM_REPAIR_STAT k] s t

/-- The state in which hart c executes its next instruction: awake, and nothing it waited for is draining any more. -/
def hartAwake (s : State) (c : Nat) : State := s.setCore c { s.core c with wfi := false, draining := false }

/-- Hart c has taken a trap with a cause and an address: its reservation is lost and its store buffer drains. -/
def HartTrapped (c cause addr : Nat) (t : State) : Prop :=
  (t.core c).exc = some (cause, addr) ∧ (t.core c).resv = none ∧ (t.core c).draining = true

/-- The spare that would take logical ID n, were its tile isolated now (R36). -/
def State.spareFor (s : State) (n : Nat) : Option Nat :=
  { s with yar := { s.yar with isolated := s.yar.isolated ++ [s.phys n] } }.pickSpare (s.phys n)

/-- A MGT message of an opcode on a Craone link, with a good header (R18, R20). -/
def CraMgt (s : State) (l op : Nat) (h : CraHdr) : Prop := s.hdrBad l h = false ∧ h.cls = 5 ∧ h.opcode.toNat = op

/-- A response to packet k is on its way back to k's source: of class RSP and operation op, with k's TXID, and P of its packet. -/
def Answered (k : FPkt) (op : Nat) (t : State) (P : FPkt → Prop) : Prop :=
  ∃ c, mfind t.fgn.send k.src.toNat = some c ∧ ∃ x ∈ c.unack, x.tc = 1 ∧ x.op = op ∧ x.pkt.dst = k.src ∧ x.pkt.txid = k.txid ∧ P x.pkt

end Sys2Proof.Machine
end

