-- ==== Sys2Proof/Certificates/Slice0/Obligations.lean ====
section
/-!
DEFINITION. The statements about the AE-7116 block that the provers prove.  Each says for its commands that they answer a next state,
what that state holds, and what it leaves as it was.  Names such as OnlyRegs and RegsBut are in Sys2Proof/Safety.lean.
-/

open Sys2Proof Sys2Proof.Machine


/-! ### Steps, invariants, reset and boot (spec/19) -/

/-- One step takes the command at the front of the queue and runs it with the queue's rest; an empty queue lets one tick of the
life clock pass (notes/assumptions/1.md). Choices of the model it rests on: notes/assumptions/1.md, 9.md. -/
def Obligations.StepRunsFront : Prop :=
  (∀ (s : State) (c : Instr) (r : List Instr), step { s with pending := c :: r } = exec c { s with pending := r }) ∧
  (∀ s : State, s.pending = [] → step s = .next s.tick)

/-- No command faults and none is refused: every command answers a next state in every state. Choices of the model it rests on:
notes/assumptions/9.md. -/
def Obligations.EveryCommandCompletes : Prop := ∀ (c : Instr) (s : State), Goes (exec c s)

/-- A step that runs a command leaves exactly the rest of the queue: no command puts another one into it. -/
def Obligations.StepKeepsQueue : Prop :=
  ∀ (s t : State), step s = .next t → t.pending = s.pending.tail

/-- Every step keeps the canonical form of every memory and of the registers. -/
def Obligations.StepKeepsCanonical : Prop := ∀ (s t : State), s.canonical → step s = .next t → t.canonical

/-- The machine after reset: no command waits, every memory is canonical, and each register reads what the tables give it; some
of them in numbers: no boot step has completed, every tile is UNBOUND, every ring DISABLED, every Fugen link DOWN, the tier is
not unified, and no package fault is latched. Choices of the model it rests on: notes/assumptions/4.md, 8.md. -/
def Obligations.ResetState : Prop :=
  State.reset.pending = [] ∧ State.reset.canonical ∧ (∀ a, State.reset.reg a = regReset a) ∧
  State.reset.rd RST_BOOT RST_BOOT_STEP = 0 ∧ State.reset.flag RST_BOOT RST_BOOT_FAILED = false ∧
  (∀ n : TileId, State.reset.tst n = tsUnbound) ∧ (∀ n : RingId, State.reset.ringSt n = rsDisabled) ∧
  State.reset.unified = false ∧ State.reset.flag TST_YAR_STAT TST_YAR_STAT_FATAL = false

/-- A cold reset resets every block and records its cause; flash, fuses, the board's memory and the life counter stay; writing
RST_CTL.COLD is a cold reset of that cause. A warm reset is asserted (admission stops, Speedwell and Prism stop, the endpoint
link goes down), waits for the committed journals, and is released with the caches written back, rings and tiles reset and the
key slots kept; an assertion while one is under way is merged; RST_CTL.WARM and the automatic warm reset are assertions of their
causes. Choices of the model it rests on: notes/assumptions/63.md, 64.md. -/
def Obligations.Resets : Prop :=
  (∀ (s : State) (straps : Straps),
     (∀ cause : ColdCause, ∃ t, exec (.coldReset cause straps) s = .next t ∧
       t.rd RST_CAUSE RST_CAUSE_LAST = coldCode cause ∧ t.rd RST_BOOT RST_BOOT_STEP = 0 ∧ t.flag RST_BOOT RST_BOOT_FAILED = false ∧
       t.mem = [] ∧ t.poison = [] ∧ t.scratch = [] ∧ t.tiles = [] ∧ t.cores = [] ∧ t.caches = [] ∧ t.ledger = [] ∧ t.mesh = [] ∧
       t.facets = [] ∧ t.prs = [] ∧ t.hif = HifSt.reset ∧ t.fgn = FgnSt.reset ∧ t.spw = SpwSt.reset ∧ t.xlt = XltSt.reset ∧
       t.hostMem = s.hostMem ∧ t.mgt.straps = straps ∧ t.mgt.keySlots = s.mgt.keySlots ∧ t.mgt.summary = s.mgt.summary ∧
       t.yar.fuseTiles = s.yar.fuseTiles ∧ t.yar.fuseWays = s.yar.fuseWays ∧ t.reg SEC_SVN = s.reg SEC_SVN ∧
       t.reg MGT_LIFE = s.reg MGT_LIFE) ∧
     (∃ t, exec (.rstCtlCold straps) s = .next t ∧ exec (.coldReset .rstCtl straps) s = .next t)) ∧
  (∀ s : State,
     (∀ cause : WarmCause, s.mgt.warm = .idle →
       ¬(s.warmBoot = true ∧ s.rd RST_BOOT RST_BOOT_STEP < 6 ∧ ¬ s.flag RST_BOOT RST_BOOT_FAILED = true) →
       ∃ t, exec (.warmReset cause) s = .next t ∧ t.mgt.warm = .asserted ∧ t.mgt.warmCause = warmCode cause ∧
         t.hif.stopped = true ∧ t.spw.run = none ∧ t.prs = [] ∧ t.rd RST_CAUSE RST_CAUSE_LAST = warmCode cause ∧
         t.flag HIF_PCIE_STAT HIF_PCIE_STAT_EP_UP = false) ∧
     (∀ cause : WarmCause, s.mgt.warm ≠ .idle → exec (.warmReset cause) s = .next s) ∧
     (∃ t, exec .rstCtlWarm s = .next t ∧ exec (.warmReset .rstCtl) s = .next t) ∧
     (s.flag RST_CFG RST_CFG_AUTO_WARM = true → s.flag TST_YAR_STAT TST_YAR_STAT_FATAL = true →
       ∃ t, exec .autoWarmDelay s = .next t ∧ exec (.warmReset .autoWarm) s = .next t) ∧
     (s.flag RST_CFG RST_CFG_AUTO_WARM = false → exec .autoWarmDelay s = .next s) ∧
     (s.mgt.warm = .asserted → (∀ p ∈ s.tiles, p.2.epo.pub = []) →
       ∃ t, exec .warmJournalsPublished s = .next t ∧ t.mgt.warm = .published) ∧
     (∀ lost : List Word, s.mgt.warm = .published →
       ∃ t, exec (.warmResetRelease lost) s = .next t ∧ t.mgt.warm = .idle ∧ t.caches = [] ∧ t.tiles = [] ∧ t.hif.rings = [] ∧
         t.mgt.keySlots = s.mgt.keySlots ∧ t.hostMem = s.hostMem ∧ t.yar.fuseTiles = s.yar.fuseTiles) ∧
     (∀ lost : List Word, s.mgt.warm ≠ .published → exec (.warmResetRelease lost) s = .next s))

/-- RESET over the sideband, while Teasel runs: TYPE 0 is a warm reset of that cause after the response, TYPE 1 a cold one, any
other type is answered with code 2. The sideband's commands while Teasel runs: the boot registers, a wall time with its log
record, 1,024 bytes of the log at most, and the owner's cap between 1,000 and 2,600 W. Every sideband command but GET_BOOT is
answered with code 4 while Betony's ROM recovers, and nobody answers while Teasel does not run. Choices of the model it rests
on: notes/assumptions/69.md. -/
def Obligations.Sideband : Prop :=
  (∀ (s : State) (straps : Straps), s.inRecovery = false → s.teaselRuns = true →
     (∃ t, exec (.sideReset 0 straps) s = .next t ∧ exec (.warmReset .sideband) (s.respond 0 []) = .next t) ∧
     (∃ t, exec (.coldReset .sideband straps) s = .next t ∧ exec (.sideReset 1 straps) s = .next (t.respond 0 [])) ∧
     (∀ type : Byte, type ≠ 0 → type ≠ 1 → exec (.sideReset type straps) s = .next (s.respond 2 []))) ∧
  (∀ s : State, s.inRecovery = false → s.teaselRuns = true →
     exec .getBoot s = .next (s.respond 0 (leBytes 8 (s.reg RST_BOOT).toNat ++ leBytes 8 (s.reg RST_CAUSE).toNat)) ∧
     (∀ secs : Word, ∃ t, exec (.setWall secs) s = .next t ∧ t.mgt.wall = some (s.life, secs.toNat) ∧
       t.mgt.logSeq = s.mgt.logSeq + 1 ∧ t.mgt.resp = some { code := 0, data := [] }) ∧
     (∀ (offset : W32) (len : BitVec 16), len.toNat ≤ 1024 → offset.toNat + len.toNat ≤ 2 ^ 26 →
       ∃ t d, exec (.readLog offset len) s = .next t ∧ t.mgt.resp = some { code := 0, data := d } ∧ d.length = len.toNat ∧
         (∀ i r, i < len.toNat → 65536 ≤ offset.toNat + i → s.mgt.log[(offset.toNat + i - 65536) / 64]? = some r →
           d[i]? = (recBytes r)[(offset.toNat + i - 65536) % 64]?)) ∧
     (∀ (offset : W32) (len : BitVec 16), 1024 < len.toNat → exec (.readLog offset len) s = .next (s.respond 2 [])) ∧
     (∀ watts : BitVec 16, ∃ t, exec (.setCap watts) s = .next t ∧ t.rd PWR_CAP PWR_CAP_SIDE_W = min 2600 (max 1000 watts.toNat) ∧
       t.mgt.resp = some { code := 0, data := [] } ∧ ∀ a, a ≠ PWR_CAP → t.reg a = s.reg a)) ∧
  (∀ s : State, ∀ c ∈ [Instr.setWall 0, .readLog 0 64, .attest 0 0, .setCap 2000, .sideReset 0 ⟨0, false⟩],
     (s.inRecovery = true → exec c s = .next (s.respond 4 [])) ∧
     (s.inRecovery = false → s.teaselRuns = false → exec c s = .next { s with mgt := { s.mgt with resp := none } }))

/-- Boot steps complete in order, each under its own condition, or stop the boot with the ERR of the step. RST_BOOT.DONE is
refused while a lock is clear, with MISSING naming it; with every lock set it is the last step. Choices of the model it rests
on: notes/assumptions/65.md, 71.md. -/
def Obligations.Boot : Prop :=
  (∀ (s : State) (inp : BootInput), s.flag RST_BOOT RST_BOOT_FAILED = false → s.mgt.warm = .idle →
     (∀ k e, (k, e) ∈ [(0, 1), (1, 2), (2, 0), (3, 0), (5, 3)] → s.rd RST_BOOT RST_BOOT_STEP = k → inp.fails = true →
       ∃ t, exec (.bootStepComplete inp) s = .next t ∧ t.flag RST_BOOT RST_BOOT_FAILED = true ∧ t.rd RST_BOOT RST_BOOT_ERR = e ∧
         t.rd RST_BOOT RST_BOOT_STEP = k ∧ t.flag HIF_PCIE_STAT HIF_PCIE_STAT_EP_UP = false) ∧
     (∀ s1 img, s.rd RST_BOOT RST_BOOT_STEP = 0 → inp.fails = false → s.fwTake 0 = (s1, some img) →
       ∃ t, exec (.bootStepComplete inp) s = .next t ∧ t.rd RST_BOOT RST_BOOT_STEP = 1 ∧ t.flag RST_BOOT RST_BOOT_FAILED = false ∧
         t.measure 0 = (s1.extend 0 (fwDigest img)).measure 0) ∧
     (∀ s1 img, s.rd RST_BOOT RST_BOOT_STEP = 1 → inp.fails = false → s.fwTake 1 = (s1, some img) →
       ∃ t, exec (.bootStepComplete inp) s = .next t ∧ t.rd RST_BOOT RST_BOOT_STEP = 2 ∧ t.flag RST_BOOT RST_BOOT_FAILED = false ∧
         t.measure 1 = (s1.extend 1 (fwDigest img)).measure 1) ∧
     (s.rd RST_BOOT RST_BOOT_STEP = 2 → inp.fails = false →
       ∃ t, exec (.bootStepComplete inp) s = .next t ∧ t.rd RST_BOOT RST_BOOT_STEP = 3 ∧ t.flag RST_BOOT RST_BOOT_FAILED = false) ∧
     (s.rd RST_BOOT RST_BOOT_STEP = 3 → inp.fails = false →
       ∃ t, exec (.bootStepComplete inp) s = .next t ∧ t.rd RST_BOOT RST_BOOT_STEP = 4 ∧
         t.rd MGT_DDR_STAT MGT_DDR_STAT_PRESENT = inp.ddrMods.toNat ∧ t.rd CLK_STAT CLK_STAT_LOCKED = clkHdie) ∧
     (s.rd RST_BOOT RST_BOOT_STEP = 4 → s.flag MGT_DIE_MAP MGT_DIE_MAP_FAULT = true →
       ∃ t, exec (.bootStepComplete inp) s = .next t ∧ t.flag RST_BOOT RST_BOOT_FAILED = true ∧ t.rd RST_BOOT RST_BOOT_ERR = 4) ∧
     (s.rd RST_BOOT RST_BOOT_STEP = 4 → s.flag MGT_DIE_MAP MGT_DIE_MAP_FAULT = false → inp.fails = false →
       s.flag MGT_DIE_MAP MGT_DIE_MAP_VALID = true → s.craSt 1 = clActive → s.craSt 2 = clActive →
       ∃ t, exec (.bootStepComplete inp) s = .next t ∧ t.rd RST_BOOT RST_BOOT_STEP = 5 ∧ t.flag RST_BOOT RST_BOOT_FAILED = false ∧
         t.rd CLK_STAT CLK_STAT_LOCKED = clkCdie) ∧
     (∀ s1 img, s.rd RST_BOOT RST_BOOT_STEP = 5 → inp.fails = false → s.fwTake 2 = (s1, some img) →
       ∃ t, exec (.bootStepComplete inp) s = .next t ∧ t.rd RST_BOOT RST_BOOT_STEP = 6 ∧ t.flag RST_BOOT RST_BOOT_FAILED = false ∧
         t.measure 2 = (s1.extend 2 (fwDigest img)).measure 2) ∧
     (s.rd RST_BOOT RST_BOOT_STEP = 6 →
       exec (.bootStepComplete inp) s = .next (s.wr RST_BOOT RST_BOOT_STEP (if s.warmBoot then 8 else 7))) ∧
     (s.rd RST_BOOT RST_BOOT_STEP = 7 → exec (.bootStepComplete inp) s = .next (s.wr RST_BOOT RST_BOOT_STEP 8))) ∧
  (∀ s : State, s.flag RST_BOOT RST_BOOT_FAILED = false → s.mgt.warm = .idle →
     (∀ k, 1 ≤ k → k ≤ 12 → s.lockSet k = false →
       ∃ t, exec .rstBootDone s = .next t ∧ t.flag RST_BOOT RST_BOOT_DONE_REFUSED = true ∧
         nbits (t.rd RST_BOOT RST_BOOT_MISSING) (k - 1) (k - 1) = 1 ∧ t.rd RST_BOOT RST_BOOT_STEP = s.rd RST_BOOT RST_BOOT_STEP ∧
         OnlyRegs [RST_BOOT] s t) ∧
     ((∀ k, 1 ≤ k → k ≤ 12 → s.lockSet k = true) → s.flag RST_BOOT RST_BOOT_DONE = false →
       ∃ t, exec .rstBootDone s = .next t ∧ t.flag RST_BOOT RST_BOOT_DONE = true ∧ t.rd RST_BOOT RST_BOOT_STEP = 9 ∧
         t.rd RST_BOOT RST_BOOT_MISSING = 0))

/-- An update of a component: the image goes into the inactive slot, which reads EMPTY; Betony's check makes it VALID or FAILED;
the activation makes it PENDING; a component with a PENDING slot or a trial takes no image. A trial that ends without
confirmation has failed: the other slot is FAILED and no trial runs; components 1 and 2 restart the boot from the ROM with the
measurements of the images gone, component 3 by a warm reset. Choices of the model it rests on: notes/assumptions/66.md, 67.md. -/
def Obligations.Firmware : Prop :=
  (∀ (s : State) (comp : FwComp), s.updateServed comp.val = true →
     (∀ image : List Byte, s.rd MGT_FW_STAT (fwOther comp.val) ≠ fwPending → s.flag MGT_FW_STAT (fwTrial comp.val) = false →
       image.length ≤ fwSlotSize comp.val →
       ∃ t, exec (.firmwareImageWrite comp image) s = .next t ∧ t.fwBytes comp.val (1 - s.fwSlot comp.val) = image ∧
         t.rd MGT_FW_STAT (fwOther comp.val) = fwEmpty ∧ t.fwSlot comp.val = s.fwSlot comp.val ∧
         t.fwBytes comp.val (s.fwSlot comp.val) = s.fwBytes comp.val (s.fwSlot comp.val) ∧
         t = { s with regs := t.regs, mgt := { s.mgt with fwImg := t.mgt.fwImg, fwVerified := t.mgt.fwVerified } } ∧
         ∀ a, a ≠ MGT_FW_STAT → t.reg a = s.reg a) ∧
     (∀ image : List Byte, s.rd MGT_FW_STAT (fwOther comp.val) = fwPending ∨ s.flag MGT_FW_STAT (fwTrial comp.val) = true →
       exec (.firmwareImageWrite comp image) s = .next s) ∧
     (mfind s.mgt.fwVerified comp.val = some false →
       ∃ t, exec (.verifyComplete comp) s = .next t ∧
         (s.fwOk comp.val (s.fwBytes comp.val (1 - s.fwSlot comp.val)) = true → t.rd MGT_FW_STAT (fwOther comp.val) = fwValid ∧
           mfind t.mgt.fwVerified comp.val = some true ∧ t.mgt.fwImg = s.mgt.fwImg) ∧
         (s.fwOk comp.val (s.fwBytes comp.val (1 - s.fwSlot comp.val)) = false → t.rd MGT_FW_STAT (fwOther comp.val) = fwFailed ∧
           mfind t.mgt.fwVerified comp.val = none)) ∧
     (mfind s.mgt.fwVerified comp.val = some true →
       ∃ t, exec (.applyComplete comp) s = .next t ∧ t.rd MGT_FW_STAT (fwOther comp.val) = fwPending ∧
         mfind t.mgt.fwVerified comp.val = none ∧ t.mgt.fwImg = s.mgt.fwImg)) ∧
  (∀ (s : State) (comp : FwComp),
     (s.flag MGT_FW_STAT (fwTrial comp.val) = true → comp.val ≠ 2 →
       ∃ t, exec (.firmwareTrialTimeout comp) s = .next t ∧ t.rd MGT_FW_STAT (fwOther comp.val) = fwFailed ∧
         t.flag MGT_FW_STAT (fwTrial comp.val) = false ∧ t.reg RST_BOOT = regReset RST_BOOT ∧ t.measure 0 = 0 ∧ t.measure 1 = 0) ∧
     (s.flag MGT_FW_STAT (fwTrial comp.val) = true → comp.val = 2 →
       exec (.firmwareTrialTimeout comp) s = exec (.warmReset .trial) (s.fwFail 2)) ∧
     (s.flag MGT_FW_STAT (fwTrial comp.val) = false → exec (.firmwareTrialTimeout comp) s = .next s))

/-- The fused minimum security version rises to that of the active image and never falls; it is refused during a trial. Owner
keys: an empty slot takes the hash in SEC_KEY_DATA; a slot can be emptied; a full slot, a slot number outside 1 to 4 and any
change after KEYLOCK are refused, and the slots stay as they are. Choices of the model it rests on: notes/assumptions/68.md. -/
def Obligations.SvnAndKeys : Prop :=
  (∀ (s : State) (comp : BitVec 2),
     (comp ≠ 0 → s.flag MGT_FW_STAT (fwTrial (comp.toNat - 1)) = true →
       ∃ t, exec (.svnCommit comp) s = .next t ∧ t.flag SEC_CTL SEC_CTL_SVN_REFUSED = true ∧ t.reg SEC_SVN = s.reg SEC_SVN) ∧
     (comp ≠ 0 → s.flag MGT_FW_STAT (fwTrial (comp.toNat - 1)) = false →
       leAt (s.fwBytes (comp.toNat - 1) (s.fwSlot (comp.toNat - 1))) 5 1 ≤ 63 →
       ∃ t, exec (.svnCommit comp) s = .next t ∧
         t.rd SEC_SVN (svnMin (comp.toNat - 1))
           = max (s.rd SEC_SVN (svnMin (comp.toNat - 1))) (leAt (s.fwBytes (comp.toNat - 1) (s.fwSlot (comp.toNat - 1))) 5 1) ∧
         (∀ c, c ≤ 2 → c ≠ comp.toNat - 1 → t.rd SEC_SVN (svnMin c) = s.rd SEC_SVN (svnMin c)) ∧ OnlyRegs [SEC_CTL, SEC_SVN] s t)) ∧
  (∀ (s : State) (slot : BitVec 3),
     (s.flag SEC_CTL SEC_CTL_KEYLOCK = false → 1 ≤ slot.toNat → slot.toNat ≤ 4 → mfind s.mgt.keySlots slot.toNat = none →
       ∃ t, exec (.keyEnrol slot) s = .next t ∧ mfind t.mgt.keySlots slot.toNat = some (s.quad (SEC_KEY_DATA 0)) ∧
         (∀ k, k ≠ slot.toNat → mfind t.mgt.keySlots k = mfind s.mgt.keySlots k) ∧
         nbits (t.rd SEC_KEY_CTL SEC_KEY_CTL_USED) (slot.toNat - 1) (slot.toNat - 1) = 1) ∧
     (s.flag SEC_CTL SEC_CTL_KEYLOCK = false → 1 ≤ slot.toNat → slot.toNat ≤ 4 →
       ∃ t, exec (.keyEmpty slot) s = .next t ∧ mfind t.mgt.keySlots slot.toNat = none ∧
         (∀ k, k ≠ slot.toNat → mfind t.mgt.keySlots k = mfind s.mgt.keySlots k)) ∧
     (s.flag SEC_CTL SEC_CTL_KEYLOCK = true ∨ slot.toNat = 0 ∨ 4 < slot.toNat →
       (∃ t, exec (.keyEnrol slot) s = .next t ∧ t.mgt.keySlots = s.mgt.keySlots ∧ t.flag SEC_KEY_CTL SEC_KEY_CTL_REFUSED = true) ∧
       (∃ t, exec (.keyEmpty slot) s = .next t ∧ t.mgt.keySlots = s.mgt.keySlots ∧ t.flag SEC_KEY_CTL SEC_KEY_CTL_REFUSED = true)) ∧
     (mfind s.mgt.keySlots slot.toNat ≠ none →
       ∃ t, exec (.keyEnrol slot) s = .next t ∧ t.mgt.keySlots = s.mgt.keySlots ∧ t.flag SEC_KEY_CTL SEC_KEY_CTL_REFUSED = true))

/-- Software extends M6 and M7 only; KEYLOCK, once set, stays, and measures the four key slots into M3. One attestation at a
time: a request of software or over the sideband starts when none is in progress and the key is not exhausted; signing consumes
one index, and what the requester of a discarded request would have read is not written. Choices of the model it rests on:
notes/assumptions/3.md, 5.md, 68.md. -/
def Obligations.MeasurementsAndAttestation : Prop :=
  (∀ s : State,
     (∀ reg : BitVec 3, reg = 6 ∨ reg = 7 →
       ∃ t, exec (.secExtGo reg) s = .next t ∧
         t.measure reg.toNat = shake256 (leBytes 32 (s.measure reg.toNat).toNat ++ leBytes 32 (s.quad (SEC_EXT_DATA 0)).toNat) ∧
         (∀ k, k ≤ 7 → k ≠ reg.toNat → t.measure k = s.measure k)) ∧
     (∀ reg : BitVec 3, reg ≠ 6 → reg ≠ 7 →
       ∃ t, exec (.secExtGo reg) s = .next t ∧ t.flag SEC_EXT_CTL SEC_EXT_CTL_REFUSED = true ∧ ∀ k, k ≤ 7 → t.measure k = s.measure k) ∧
     (s.flag SEC_CTL SEC_CTL_KEYLOCK = false →
       ∃ t, exec .keylock s = .next t ∧ t.flag SEC_CTL SEC_CTL_KEYLOCK = true ∧ t.mgt.keySlots = s.mgt.keySlots ∧
         ∀ k, k ≤ 7 → k ≠ 3 → t.measure k = s.measure k) ∧
     (s.flag SEC_CTL SEC_CTL_KEYLOCK = true → exec .keylock s = .next s)) ∧
  (∀ s : State,
     (∀ mask : Byte, s.mgt.att = none → s.flag SEC_SIG_STAT SEC_SIG_STAT_EXHAUSTED = false →
       s.isMem (s.rd SEC_ATT_ADDR SEC_ATT_ADDR_BASE * 64) 16384 = true →
       ∃ t q, exec (.secAttGo mask) s = .next t ∧ t.mgt.att = some q ∧ q.sideband = false ∧ q.mask = mask ∧ q.discarded = false ∧
         q.addr = s.rd SEC_ATT_ADDR SEC_ATT_ADDR_BASE * 64 ∧ q.nonce.toNat = s.memVal (localOf q.addr) 32 ∧
         t.flag SEC_ATT_CTL SEC_ATT_CTL_BUSY = true) ∧
     (∀ mask : Byte, s.mgt.att ≠ none →
       ∃ t, exec (.secAttGo mask) s = .next t ∧ t.mgt.att = s.mgt.att ∧ t.rd SEC_ATT_CTL SEC_ATT_CTL_RESULT = 1) ∧
     (∀ nonce mask, s.inRecovery = false → s.teaselRuns = true → s.mgt.att = none → s.flag SEC_SIG_STAT SEC_SIG_STAT_EXHAUSTED = false →
       ∃ t q, exec (.attest nonce mask) s = .next t ∧ t.mgt.att = some q ∧ q.sideband = true ∧ q.mask = mask ∧ q.nonce = nonce) ∧
     (∀ q, s.mgt.att = some q →
       ∃ t, exec .attestationSigned s = .next t ∧ t.mgt.att = none ∧ t.mgt.sigFlash = s.rd SEC_SIG_STAT SEC_SIG_STAT_NEXT + 1 ∧
         t.flag SEC_ATT_CTL SEC_ATT_CTL_BUSY = false ∧ (q.discarded = true → t.mem = s.mem ∧ t.mgt.resp = s.mgt.resp)))

/-- Life, wall time, the summary and the clock measurement. Choices of the model it rests on: notes/assumptions/69.md, 70.md. -/
def Obligations.LifeAndClocks : Prop :=
  ∀ s : State,
    (∀ secs : Word, ∃ t, exec (.mgtWallWrite secs) s = .next t ∧ t.mgt.wall = some (s.life, secs.toNat) ∧
      t.mgt.logSeq = s.mgt.logSeq + 1 ∧ t.mem = s.mem) ∧
    (∀ value : Word, exec (.mgtPscMark value) s = .next (s.psc 0xF value.toNat 0)) ∧
    (s.teaselRuns = true → ∃ t, exec .lifeSave s = .next t ∧ t.mgt.lifeSaved = s.life ∧ t.regs = s.regs ∧ t.mem = s.mem) ∧
    (s.teaselRuns = true → ∃ t, exec .summaryRewrite s = .next t ∧ t.mgt.summary = s.summaryNow ∧ t.regs = s.regs ∧ t.mem = s.mem) ∧
    (∀ sel : BitVec 6, s.flag CLK_MEAS CLK_MEAS_BUSY = false →
      ∃ t, exec (.clkMeasGo sel) s = .next t ∧ t.flag CLK_MEAS CLK_MEAS_BUSY = true ∧ t.rd CLK_MEAS CLK_MEAS_SEL = sel.toNat ∧
        t.mgt.clkSel = sel.toNat ∧ ∀ a, a ≠ CLK_MEAS → t.reg a = s.reg a) ∧
    (∀ hz : BitVec 36, s.flag CLK_MEAS CLK_MEAS_BUSY = true →
      ∃ t, exec (.clkMeasDone hz) s = .next t ∧ t.flag CLK_MEAS CLK_MEAS_BUSY = false ∧ t.rd CLK_MEAS CLK_MEAS_HZ = hz.toNat ∧
        OnlyRegs [CLK_MEAS] s t) ∧
    (s.mgt.teaselUp = true → ∃ t, exec .teaselLockstepMismatch s = .next t ∧ t.mgt.teaselUp = false ∧ t.mgt.resp = none ∧
      t.mgt.log = s.mgt.log ∧ t.regs = s.regs ∧ t.mem = s.mem) ∧
    (s.mgt.teaselUp = false → ∃ t, exec .teaselRestartComplete s = .next t ∧ t.mgt.teaselUp = true ∧ t.mgt.held = [] ∧
      t.mgt.restarts = s.mgt.restarts + 1)


/-! ### Craone, power, heat, self-test (spec/01, 17, 18) -/

/-- Links train, negotiate and time out: UCIe up, on a site that has power, starts the negotiation with the local capability
block sent and the credits cleared; the peer's block ends it ACTIVE, with the poison and tag values and the lower minor version
both ends announced and the peer's depths as credits, of which DISCOVER spends one on the peer link, or in NEGOTIATE_FAIL with
the item that failed. A link that ends with DEPART or a UCIe failure is ABSENT and its absence is counted; the stand-in then
answers what its system cache has outstanding, the real response that comes late is dropped and counted, and RETURN over a UCIe
link that is up negotiates anew. The orientation of the C-dies: a die confirms when its DIE_SIDE, its peer's report and the site
of its host link agree, and both must confirm before VALID is set; two dies on one side, a host link on the wrong site and a
timeout are faults, of which the first is kept. Choices of the model it rests on: notes/assumptions/14.md, 55.md, 56.md. -/
def Obligations.CraoneLinks : Prop :=
  (∀ (s : State) (l : CraLink),
     (∀ south : Bool, s.craSt l = clTrain → (l.val ≠ 0 → s.site (l.val - 1) south ≠ .off) → s.cra.capGot.contains l.val = false →
       ∃ t, exec (.ucieLinkUp l south) s = .next t ∧ t.craSt l = clNegotiate ∧ t.cra.up.contains l.val = true ∧
         nbits (t.capLocal l) 37 32 = 0x3F ∧ 5 ≤ capDepth (t.capLocal l) 5 ∧ (∀ c, c < 6 → mget 0 t.cra.credits (8 * l.val + c) = 0) ∧
         (l.val ≠ 0 → t.site (l.val - 1) south = .trained)) ∧
     (∀ south : Bool, l.val ≠ 0 → s.site (l.val - 1) south = .off → exec (.ucieLinkUp l south) s = .next s) ∧
     (s.craSt l = clTrain →
       ∃ t, exec (.craoneTrainTimeout l) s = .next t ∧ t.craSt l = clDown ∧ t.rd (MGT_CRA_STAT l) MGT_CRA_STAT_TRAIN_TO = 1 ∧
         ∀ m : CraLink, m ≠ l → t.craSt m = s.craSt m) ∧
     (∀ (h : CraHdr) (chunk : Line), CraMgt s l 1 h → chunk.toNat < 2 ^ 128 → capBad chunk.toNat = false → s.craSt l = clNegotiate →
       negFault l (s.capLocal l) chunk.toNat = none →
       ∃ t, exec (.cap l h chunk) s = .next t ∧ t.craSt l = clActive ∧ t.capPeer l = chunk.toNat ∧
         t.rd (MGT_CRA_STAT l) MGT_CRA_STAT_TAGS = min (nbits (s.capLocal l) 47 44) (nbits chunk.toNat 47 44) ∧
         mget 0 t.cra.vmin l = min (nbits (s.capLocal l) 15 8) (nbits chunk.toNat 15 8) ∧
         ∀ c, c < 6 → mget 0 t.cra.credits (8 * l.val + c) + (if l.val = 0 ∧ c = 5 then 1 else 0) = capDepth chunk.toNat c) ∧
     (∀ (h : CraHdr) (chunk : Line) (c : Nat), CraMgt s l 1 h → chunk.toNat < 2 ^ 128 → capBad chunk.toNat = false →
       s.craSt l = clNegotiate → negFault l (s.capLocal l) chunk.toNat = some c →
       ∃ t, exec (.cap l h chunk) s = .next t ∧ t.craSt l = clNegFail ∧ t.rd (MGT_CRA_STAT l) MGT_CRA_STAT_NEG_CAUSE = c) ∧
     (∀ (h : CraHdr) (chunk : Line), s.hdrBad l h = true →
       ∀ c ∈ [Instr.cap l h chunk, .credit l h, .depart l h, .craReturn l h],
         exec c s = .next (s.craBad l h) ∧ Counted (MGT_CRA_ERR l) MGT_CRA_ERR_MALFORMED s (s.craBad l h)) ∧
     (∀ (module : BitVec 5) (half : Bool), module.toNat < craModules l →
       exec (.craoneDegrade l module half) s = .next (s.event 0x18 (if half then 4 else 3) l module.toNat (b2n half)))) ∧
  (∀ (s : State) (l : CraLink),
     (s.craSt l = clActive →
       (∀ h : CraHdr, CraMgt s l 4 h → ∃ t, exec (.depart l h) s = .next t ∧ t.craSt l = clAbsent ∧
         Counted (MGT_CRA_ERR l) MGT_CRA_ERR_ABSENT_CNT s t ∧
         (s.mgt.warm = .idle → t.flag TST_YAR_STAT TST_YAR_STAT_FATAL = true)) ∧
       (∃ t, exec (.ucieLinkDown l) s = .next t ∧ t.craSt l = clAbsent ∧ t.cra.up.contains l.val = false)) ∧
     (s.craSt l = clAbsent →
       (∀ (src : BitVec 8) (txid : BitVec 16), s.cra.answered.contains (l.val, src.toNat, txid.toNat) = false → l.val ≠ 0 →
         scDie src.toNat = some (l.val - 1) → s.coh.outst.any (fun o => o.agent == src.toNat && o.txid == txid.toNat) = true →
         ∃ t, exec (.standInAnswer l src txid) s = .next t ∧ t.answer = .absent ∧
           t.cra.answered = s.cra.answered ++ [(l.val, src.toNat, txid.toNat)] ∧
           t.coh.outst = s.coh.outst.filter (fun o => !(o.agent == src.toNat && o.txid == txid.toNat)) ∧ t.regs = s.regs ∧ t.mem = s.mem) ∧
       (∀ (src : BitVec 8) (txid : BitVec 16), s.cra.answered.contains (l.val, src.toNat, txid.toNat) = true →
         exec (.standInAnswer l src txid) s = .next s) ∧
       (∀ h : CraHdr, CraMgt s l 5 h →
         (s.cra.up.contains l.val = true → ∃ t, exec (.craReturn l h) s = .next t ∧ t.craSt l = clNegotiate) ∧
         (s.cra.up.contains l.val = false → ∃ t, exec (.craReturn l h) s = .next t ∧ t.cra.returned.contains l.val = true ∧
           t.regs = s.regs ∧ t.mem = s.mem))) ∧
     (∀ (src : BitVec 8) (txid : BitVec 16), s.cra.answered.contains (l.val, src.toNat, txid.toNat) = true →
       ∃ t, exec (.lateDrop l src txid) s = .next t ∧ Counted (MGT_CRA_ERR l) MGT_CRA_ERR_LATE_DROP s t ∧
         OnlyRegs [MGT_CRA_ERR l] s t) ∧
     (∀ h : CraHdr, CraMgt s l 3 h → s.craSt l = clActive →
       ∃ t, exec (.credit l h) s = .next t ∧
         t = { s with cra := { s.cra with credits := t.cra.credits } } ∧
         (∀ c, c < 6 → mget 0 t.cra.credits (8 * l.val + c)
           = mget 0 s.cra.credits (8 * l.val + c) + nbits h.addr.toNat (8 * c + 7) (8 * c)) ∧
         ∀ k, k / 8 ≠ l.val → mget 0 t.cra.credits k = mget 0 s.cra.credits k)) ∧
  (∀ (s : State) (east : Bool),
     (∀ h : CraHdr, CraMgt s 0 2 h → s.craSt 0 = clActive → s.flag MGT_DIE_MAP MGT_DIE_MAP_FAULT = false →
       (h.addr.getLsbD 40 = !s.ownSide east → s.site (b2n east) (s.ownSide east) = .trained →
         s.site (b2n east) (!s.ownSide east) ≠ .trained →
         ∃ t, exec (.discover east h) s = .next t ∧ t.cra.oriented.contains (b2n east) = true ∧
           t.site (b2n east) (!s.ownSide east) = .off ∧
           (t.flag MGT_DIE_MAP MGT_DIE_MAP_VALID = true ↔
             s.flag MGT_DIE_MAP MGT_DIE_MAP_VALID = true ∨ s.cra.oriented.contains (1 - b2n east) = true) ∧
           t.flag MGT_DIE_MAP MGT_DIE_MAP_FAULT = false ∧ RegsBut [MGT_DIE_MAP] s t) ∧
       (h.addr.getLsbD 40 = s.ownSide east →
         ∃ t, exec (.discover east h) s = .next t ∧ t.flag MGT_DIE_MAP MGT_DIE_MAP_FAULT = true ∧
           t.rd MGT_DIE_MAP MGT_DIE_MAP_CAUSE = 1 ∧ t.rd MGT_DIE_MAP MGT_DIE_MAP_CAUSE_DIE = b2n east) ∧
       (h.addr.getLsbD 40 = !s.ownSide east → s.site (b2n east) (!s.ownSide east) = .trained →
         ∃ t, exec (.discover east h) s = .next t ∧ t.flag MGT_DIE_MAP MGT_DIE_MAP_FAULT = true ∧
           t.rd MGT_DIE_MAP MGT_DIE_MAP_CAUSE = 2 ∧ t.rd MGT_DIE_MAP MGT_DIE_MAP_CAUSE_DIE = b2n east)) ∧
     (s.cra.oriented.contains (b2n east) = false → s.flag MGT_DIE_MAP MGT_DIE_MAP_FAULT = false →
       ∃ t, exec (.orientationTimeout east) s = .next t ∧ t.flag MGT_DIE_MAP MGT_DIE_MAP_FAULT = true ∧
         t.rd MGT_DIE_MAP MGT_DIE_MAP_CAUSE = (if s.cra.up.contains 0 then 4 else 3)) ∧
     (s.cra.oriented.contains (b2n east) = true → exec (.orientationTimeout east) s = .next s))

/-- VIN56 and the P-dies: start at 48.0 V, the LOWLINE and HIGHLINE bands, the loss of power below 46 V and above 63 V, and the
disconnection of a P-die, which stops the package when one or none is left. Choices of the model it rests on:
notes/assumptions/59.md. -/
def Obligations.PowerInput : Prop :=
  ∀ s : State,
    (∀ mv : BitVec 16, s.mgt.railUp = false → 48000 ≤ mv.toNat →
      ∃ t, exec (.vin56Start mv) s = .next t ∧ t.mgt.railUp = true ∧ (t.mgt.pwrGood = true ↔ 2 ≤ s.pdies) ∧
        t.rd PWR_MEAS PWR_MEAS_VIN_MV = mv.toNat ∧ RegsBut [PWR_MEAS] s t ∧ t.mem = s.mem) ∧
    (∀ mv : BitVec 16, mv.toNat < 48000 → exec (.vin56Start mv) s = .next s) ∧
    (∀ mv : BitVec 16, s.mgt.railUp = true → 46000 ≤ mv.toNat → mv.toNat ≤ 63000 →
      ∃ t, exec (.vin56Change mv) s = .next t ∧ t.rd PWR_MEAS PWR_MEAS_VIN_MV = mv.toNat ∧
        (t.flag PWR_STAT PWR_STAT_LOWLINE = true ↔ mv.toNat < 50000) ∧ (t.flag PWR_STAT PWR_STAT_HIGHLINE = true ↔ 60000 < mv.toNat) ∧
        t.mgt.pwrGood = s.mgt.pwrGood) ∧
    (∀ mv : BitVec 16, s.mgt.railUp = true → mv.toNat < 46000 ∨ 63000 < mv.toNat →
      ∃ t, exec (.vin56Change mv) s = .next t ∧ t.mgt.pwrGood = false ∧ t.mgt.railUp = false ∧
        t.pwr.lastOff = (if mv.toNat < 46000 then 1 else 2)) ∧
    (∀ k : Fin 4, bitAt (s.reg PWR_PDIE) k = true →
      ∃ t, exec (.pdieFault k) s = .next t ∧ bitAt (t.reg PWR_PDIE) k = false ∧
        nbits (t.rd PWR_PDIE PWR_PDIE_FAULT) k k = 1 ∧ (s.pdies ≤ 2 → t.mgt.pwrGood = false ∧ t.pwr.lastOff = 3) ∧
        (3 ≤ s.pdies → t.mgt.pwrGood = s.mgt.pwrGood)) ∧
    (∀ k : Fin 4, bitAt (s.reg PWR_PDIE) k = false → exec (.pdieFault k) s = .next s)

/-- A Meniscus step: the budgets of the tiles, HBM and the H-die never exceed the effective cap less the fixed power and the
H-die's floor, the registers report them, and no tile's ceiling exceeds 64 or what heat leaves it. Choices of the model it rests
on: notes/assumptions/57.md, 59.md. -/
def Obligations.MeniscusBudget : Prop :=
  ∀ (s : State) (m : MenInput),
    ∃ t, exec (.meniscusStep m) s = .next t ∧ t.rd PWR_CAP PWR_CAP_EFF_W = s.effCap ∧
      (t.rd PWR_BUDGET PWR_BUDGET_TILE_W + t.rd PWR_BUDGET PWR_BUDGET_HBM_W + t.rd PWR_BUDGET PWR_BUDGET_HDIE_W
        ≤ max (s.effCap - m.fixedW.toNat) m.floorW.toNat) ∧
      t.rd PWR_STAT PWR_STAT_CAPLVL = min 15 (16 * s.effCap / 2600) ∧
      (∀ n : TileId, t.rd (PWR_GOV n) PWR_GOV_CEIL ≤ 64 ∧ t.rd (PWR_GOV n) PWR_GOV_FLOOR ≤ t.rd (PWR_GOV n) PWR_GOV_CEIL) ∧
      t.pwr.boost = [] ∧ t.pwr.hbmLevel = m.hbmLevel.val

/-- Energy, and the phase table: an interval's signature is recorded, its prediction is scored as a hit or a miss, and the table
holds 64 entries at most. Droop and ageing: a firing is counted and stretches its clock domain until the recovery; guard bands
stay between 10 and 60 mV; an ageing check counts itself. Choices of the model it rests on: notes/assumptions/58.md. -/
def Obligations.EnergyDroopAgeing : Prop :=
  (∀ s : State,
     (∀ mj : W32, ∃ t, exec (.energyUpdate mj) s = .next t ∧
       t.rd PWR_ENERGY PWR_ENERGY_MJ = (s.rd PWR_ENERGY PWR_ENERGY_MJ + mj.toNat) % 2 ^ PWR_ENERGY_MJ.width ∧
       t.pwr.fired = [] ∧ t.pwr.raised = [] ∧ RegsBut [PWR_ENERGY] s t ∧ t.mem = s.mem) ∧
     (∀ sig a b c d : BitVec 16, s.flag PWR_PHASE PWR_PHASE_EN = true →
       ∃ t, exec (.phaseInterval sig a b c d) s = .next t ∧ t.rd PWR_PHASE PWR_PHASE_SIG = sig.toNat ∧
         t.pwr.lastSig = some sig.toNat ∧ t.pwr.phases.length ≤ 64 ∧ (t.phase sig.toNat).isSome = true ∧ t.mem = s.mem) ∧
     (∀ sig a b c d : BitVec 16, s.flag PWR_PHASE PWR_PHASE_EN = false → exec (.phaseInterval sig a b c d) s = .next s)) ∧
  (∀ s : State,
     (∀ d : DroopAt, ∃ t, exec (.droopFire d) s = .next t ∧
       t.rd PWR_DROOP (droopCnt (droopDie d)) = min (s.rd PWR_DROOP (droopCnt (droopDie d)) + 1) (droopCnt (droopDie d)).ones ∧
       t.pwr.stretch.contains (droopClock d) = true ∧ t.mem = s.mem ∧
       (mget 0 s.pwr.fired (droopDie d) + 1 ≤ s.rd PWR_DROOP PWR_DROOP_RATE → t.pwr.gb = s.pwr.gb)) ∧
     (∀ d : DroopAt, ∃ t, exec (.droopRecovery d) s = .next t ∧ t.pwr.stretch.contains (droopClock d) = false ∧
       t = { s with pwr := { s.pwr with stretch := t.pwr.stretch } }) ∧
     (∀ needs : List (PwrDomain × Byte), ∃ t, exec (.ageingCheck needs) s = .next t ∧
       t.rd PWR_AGE PWR_AGE_CHECKS = (s.rd PWR_AGE PWR_AGE_CHECKS + 1) % 2 ^ PWR_AGE_CHECKS.width ∧
       ((∀ k, 4 ≤ s.band k ∧ s.band k ≤ 24) → ∀ k, 4 ≤ t.band k ∧ t.band k ≤ 24)))

/-- Heat: a reading shows the hottest junction, a C-die at TJ_CRIT has its ceilings closed at once, and a critical junction that
lasts stops the package. Idle: the package enters the deepest state its tolerance allows, a wake cause begins the wake, and the
wake's end restores ACTIVE with its latency shown. Choices of the model it rests on: notes/assumptions/59.md. -/
def Obligations.HeatAndIdle : Prop :=
  (∀ s : State,
     (∀ j : Junctions, ∃ t, exec (.junctionRead j) s = .next t ∧
       (∀ x ∈ j.c0 :: j.c1 :: j.hEdge :: j.clus, x.toNat ≤ t.rd PWR_THERM PWR_THERM_TJ_MAX) ∧
       (s.rd PWR_THERM PWR_THERM_TJ_CRIT ≤ j.c0.toNat → ∀ n : TileId, n.val < 48 → t.rd (PWR_GOV n) PWR_GOV_CEIL = 0) ∧
       (s.rd PWR_THERM PWR_THERM_TJ_CRIT ≤ j.c1.toNat → ∀ n : TileId, 48 ≤ n.val → t.rd (PWR_GOV n) PWR_GOV_CEIL = 0) ∧
       (s.rd PWR_THERM PWR_THERM_TJ_THR < j.c0.toNat → t.flag PWR_STAT PWR_STAT_THERMAL = true)) ∧
     (s.pwr.crit ≠ [] → ∃ t, exec .tjCritHoldExpire s = .next t ∧ t.mgt.pwrGood = false ∧ t.pwr.lastOff = 4 ∧ t.regs = s.regs) ∧
     (s.pwr.crit = [] → exec .tjCritHoldExpire s = .next s)) ∧
  (∀ s : State,
     (s.rd PWR_IDLE PWR_IDLE_STATE = idActive → s.idleAllowed ≠ 0 → s.idleReady = true →
       ∃ t, exec .idleEntry s = .next t ∧ t.rd PWR_IDLE PWR_IDLE_STATE = s.idleAllowed ∧
         (s.idleAllowed = idPoised → t.mem = s.mem ∧ t.caches = s.caches) ∧
         (s.idleAllowed = idStowed → ∀ n : TileId, (t.tile n).store = [])) ∧
     (s.rd PWR_IDLE PWR_IDLE_STATE ≠ idActive ∨ s.idleAllowed = 0 ∨ s.idleReady = false → exec .idleEntry s = .next s) ∧
     (s.rd PWR_IDLE PWR_IDLE_STATE ≠ idActive →
       exec .pwrIdleWake s = .next { s with pwr := { s.pwr with waking := true } } ∧
       exec (.wakeEvent .doorbell) s = .next { s with pwr := { s.pwr with waking := true } } ∧
       (s.rd PWR_IDLE PWR_IDLE_TOL_US < wakeLatency (s.rd PWR_IDLE PWR_IDLE_STATE) →
         exec (.wakeEvent .tolerance) s = .next { s with pwr := { s.pwr with waking := true } })) ∧
     (∀ us : BitVec 16, s.pwr.waking = true →
       ∃ t, exec (.wakeComplete us) s = .next t ∧ t.rd PWR_IDLE PWR_IDLE_STATE = idActive ∧ t.pwr.waking = false ∧
         t.rd PWR_IDLE_STAT PWR_IDLE_STAT_LAST_WAKE_US = us.toNat ∧
         (s.rd PWR_IDLE PWR_IDLE_STATE ≠ idStowed → t.mem = s.mem ∧ t.tiles = s.tiles ∧ RegsBut [PWR_IDLE, PWR_IDLE_STAT] s t)))

/-- A test starts on a valid target and is refused, with a result, otherwise; an abort and a completion leave the engine free
with the verdict of R500. Choices of the model it rests on: notes/assumptions/61.md. -/
def Obligations.EyebrightTests : Prop :=
  ∀ (s : State) (e : EbEngine),
    (∀ (kind : BitVec 4) (index : BitVec 12), s.flag (TST_EB_CTL e) TST_EB_CTL_BUSY = false → s.ebCheck e kind.toNat index.toNat = 0 →
      kind.toNat = 3 ∨ kind.toNat = 5 →
      ∃ t, exec (.ebGo e kind index false) s = .next t ∧ t.flag (TST_EB_CTL e) TST_EB_CTL_BUSY = true ∧
        mfind t.yar.tests e = some { kind := kind.toNat, index := index.toNat } ∧ RegsBut [TST_EB_CTL e] s t) ∧
    (∀ (kind : BitVec 4) (index : BitVec 12) (tap : Bool), s.flag (TST_EB_CTL e) TST_EB_CTL_BUSY = false →
      tap = true ∨ s.ebCheck e kind.toNat index.toNat ≠ 0 →
      ∃ t, exec (.ebGo e kind index tap) s = .next t ∧ t.flag (TST_EB_CTL e) TST_EB_CTL_BUSY = false ∧
        nbits (t.reg (TST_EB_RES e 0)).toNat 18 16 = evRefused ∧ t.yar.tests = s.yar.tests) ∧
    (∀ (kind : BitVec 4) (index : BitVec 12) (tap : Bool), s.flag (TST_EB_CTL e) TST_EB_CTL_BUSY = true →
      exec (.ebGo e kind index tap) s = .next s) ∧
    (∀ (r : EbRun) (dur : W32), mfind s.yar.tests e = some r → r.kind < 16 →
      ∃ t, exec (.ebAbort e dur) s = .next t ∧ t.flag (TST_EB_CTL e) TST_EB_CTL_BUSY = false ∧ mfind t.yar.tests e = none ∧
        nbits (t.reg (TST_EB_RES e 0)).toNat 18 16 = evAborted) ∧
    (∀ (r : EbRun) (f : EbFinding), mfind s.yar.tests e = some r → r.kind < 16 →
      ∃ t, exec (.ebTestComplete e f) s = .next t ∧ t.flag (TST_EB_CTL e) TST_EB_CTL_BUSY = false ∧
        nbits (t.reg (TST_EB_RES e 0)).toNat 18 16 = (if f.fails = 0 then evPass else evFail))

/-- Injection: a tile fault and a stopped heartbeat are refused for an UNBOUND, OFFLINE or absent ID; a corrupted line can no
longer be corrected; a dropped link loses lock. Repair by register: a fuse repair of a tile is queued once while an entry of its
die is free; a way that is disabled stops caching and one that is enabled shows it. Choices of the model it rests on:
notes/assumptions/61.md, 62.md. -/
def Obligations.InjectionAndRepair : Prop :=
  (∀ s : State,
     (∀ target : BitVec 7, 96 ≤ target.toNat ∨ s.tst target.toNat = tsUnbound ∨ s.tst target.toNat = tsOffline →
       (∃ t, exec (.injTileFault target) s = .next t ∧ t.flag TST_YAR_INJ TST_YAR_INJ_REFUSED = true ∧ OnlyRegs [TST_YAR_INJ] s t) ∧
       (∃ t, exec (.injHeartbeatStop target) s = .next t ∧ t.flag TST_YAR_INJ TST_YAR_INJ_REFUSED = true ∧ OnlyRegs [TST_YAR_INJ] s t)) ∧
     (∀ target : BitVec 7, target.toNat < 96 → s.tst target.toNat ≠ tsUnbound → s.tst target.toNat ≠ tsOffline →
       exec (.injTileFault target) s = .next ((s.injWrite 0 target.toNat).tileFault target.toNat 5) ∧
       (∃ t, exec (.injHeartbeatStop target) s = .next t ∧ (t.tile target.toNat).hbStopped = true ∧
         (∀ n, n ≠ target.toNat → t.tile n = s.tile n) ∧ RegsBut [TST_YAR_INJ] s t)) ∧
     (∀ k : Nat, s.region (localOf (s.rd TST_YAR_INJ_ADDR TST_YAR_INJ_ADDR_LINE * 64)) = .mem k → alignDown k 64 < 0xC000000000 →
       ∃ t, exec .injHbmCorrupt s = .next t ∧ t.hbm.corrupt.contains (alignDown k 64) = true ∧ t.mem = s.mem) ∧
     (∀ target : BitVec 7, target.toNat < 24 → s.lkSt target.toNat = lkActive →
       ∃ t, exec (.injLinkDrop target) s = .next t ∧ t.lkSt target.toNat = lkDetect ∧
         mget 0 t.fgn.losses target.toNat = mget 0 s.fgn.losses target.toNat + 1)) ∧
  (∀ s : State,
     (∀ p : BitVec 7, p.toNat < 104 → s.yar.queued.contains p.toNat = false → s.yar.fuseTiles.contains p.toNat = false →
       s.rd TST_REPAIR_STAT (fuseFree (physDie p.toNat)) ≠ 0 →
       ∃ t, exec (.queueTile p) s = .next t ∧ t.yar.queued = s.yar.queued ++ [p.toNat] ∧
         t.rd TST_REPAIR_STAT (fuseFree (physDie p.toNat)) + 1 = s.rd TST_REPAIR_STAT (fuseFree (physDie p.toNat))) ∧
     (∀ p : BitVec 7, p.toNat < 104 → s.yar.queued.contains p.toNat = false → s.yar.fuseTiles.contains p.toNat = false →
       s.rd TST_REPAIR_STAT (fuseFree (physDie p.toNat)) = 0 → ∃ t, exec (.queueTile p) s = .next t ∧ t.yar = s.yar) ∧
     (∀ (die : DieId) (way : BitVec 4), ∃ t, exec (.wayEn die way) s = .next t ∧
       nbits (t.rd TST_REPAIR_STAT (waysOff die)) way.toNat way.toNat = 0 ∧ t.mem = s.mem) ∧
     (∀ (die : DieId) (way : BitVec 4), s.wayOn die way.toNat = true →
       (2 < s.rd (CCH_SC_CARVE die) CCH_SC_CARVE_CACHE_WAYS →
         ∃ t, exec (.wayDis die way) s = .next t ∧ nbits (t.rd TST_REPAIR_STAT (waysOff die)) way.toNat way.toNat = 1) ∧
       (s.rd (CCH_SC_CARVE die) CCH_SC_CARVE_CACHE_WAYS ≤ 2 →
         ∃ t, exec (.wayDis die way) s = .next t ∧ OnlyRegs [TST_REPAIR_CTL] s t)))


/-! ### Tiles, facets, streams, DMA, faults, epochs (spec/02, 08, 18) -/

/-- The dispatcher: the head of a work queue goes to the loader, to DMA queue 6 or to the sequencer, or is refused by an ID that
is OFFLINE or UNBOUND; DMA and FACET_WORK are dispatches of their types. -/
def Obligations.WorkDispatch : Prop :=
  ∀ (s : State) (n : TileId) (w : Work) (r : List Work), (s.tile n).wq = w :: r →
    s.computeHeld = false →
    (s.tst n = tsOffline → ∃ t, exec (.workDispatch n) s = .next t ∧ (t.tile n).wq = r ∧
      exec (.workDispatch n) s = .next ((s.wqPop n w).refuse w stTileOffline 0)) ∧
    (s.tst n = tsUnbound ∨ s.tst n = tsReady ∨ s.tst n = tsBusy → s.flag (EPO_STAT n) EPO_STAT_FROZEN = false → s.ringHeld w = false →
      s.haltNow n = false →
      (bits w.desc 7 0 = 0x20 ∨ bits w.desc 7 0 = 0x21 → (s.tile n).bindIn = none →
        ∃ t, exec (.workDispatch n) s = .next t ∧ (t.tile n).bindIn = some w ∧ (t.tile n).wq = r ∧ t.tst n = s.tst n ∧ t.mem = s.mem) ∧
      (bits w.desc 7 0 ≠ 0x20 → bits w.desc 7 0 ≠ 0x21 → s.tst n = tsUnbound →
        exec (.workDispatch n) s = .next ((s.wqPop n w).refuse w stNotBound 0)) ∧
      (bits w.desc 7 0 = 2 → s.tst n ≠ tsUnbound → (s.tile n).bindIn = none → (s.tile n).offered = none → (s.dq n 6).length < 64 →
        ∃ t, exec (.workDispatch n) s = .next t ∧ t.dq n 6 = s.dq n 6 ++ [s.queue6Ent w] ∧ (t.tile n).wq = r ∧ t.tst n = tsBusy ∧
          t.mem = s.mem) ∧
      (bits w.desc 7 0 = 3 → lowBit w.desc 255 64 = none → s.tst n ≠ tsUnbound → (s.tile n).bindIn = none →
        (s.tile n).offered = none → (s.dq n 6).length < 64 → ∀ c, c ∈ ([.workDispatch n, .dma n] : List Instr) →
        ∃ t, exec c s = .next t ∧ t.dq n 6 = s.dq n 6 ++ [s.queue6Ent w] ∧ (t.tile n).wq = r ∧ t.tst n = tsBusy ∧ t.mem = s.mem) ∧
      (∀ b, bits w.desc 7 0 = 3 → lowBit w.desc 255 64 = some b → s.tst n ≠ tsUnbound → (s.tile n).bindIn = none →
        (s.tile n).offered = none → (s.dq n 6).length < 64 →
        exec (.workDispatch n) s = .next ((s.wqPop n w).refuse w stHifMalformed b)) ∧
      (bits w.desc 7 0 = 0x11 → s.tst n ≠ tsUnbound → (s.tile n).bindIn = none → (s.tile n).offered = none →
        ∀ c, c ∈ ([.workDispatch n, .facetWork n] : List Instr) →
        ∃ t, exec c s = .next t ∧ ((t.tile n).offered = some w ∨ (t.tile n).seq.held = some w) ∧
          (t.tile n).wq = r ∧ (t.tile n).pos = (s.tile n).pos + 1 ∧ t.tst n = tsBusy ∧ t.mem = s.mem))

/-- Binding: a BIND whose block is good on an ID at rest writes the bind record and starts the load; an UNBIND at rest ends the
binding; a completed load makes the ID READY with its microprogram at index 0; a poisoned one unbinds it; an ID with nothing
left to do becomes READY and takes its deferred BIND or UNBIND. The registry: an image that passes every test of R49 and is new
is entered under the lowest free handle, its digest extended into M5; an unreferenced handle can be unregistered, a referenced
one cannot. Choices of the model it rests on: notes/assumptions/3.md, 5.md, 42.md. -/
def Obligations.Facets : Prop :=
  (∀ (s : State) (n : TileId),
     (∀ (w : Work) (f : Facet) (s1 : State) (bs : List Byte), (s.tile n).bindIn = some w → bits w.desc 7 0 = 0x20 →
       minOpt (lowBit w.desc 127 72) (minOpt (lowBit w.desc 133 128) (lowBit w.desc 511 184)) = none →
       mfind s.facets (bits w.desc 71 64) = some f → f.damaged = false →
       s.vread (tileDie n) (s.pasidOf w) (bits w.desc 183 128) 192 = (s1, .ok bs false) →
       blockFault (s1.facetImage f) (paramWords bs) = none → s1.tst n = tsUnbound → (s1.tile n).deferred = none → s1.resil = false →
       ∃ t, exec (.bind n) s = .next t ∧ t.tst n = tsLoading ∧ (t.tile n).loadWork = some w ∧ (t.tile n).bindIn = none ∧
         (t.tile n).bind = some { handle := bits w.desc 71 64, params := (paramWords bs).take 16, ports := (paramWords bs).drop 16 }) ∧
     (∀ w : Work, (s.tile n).bindIn = some w → bits w.desc 7 0 = 0x21 → lowBit w.desc 511 64 = none → s.tst n = tsReady →
       s.seqIdle n = true → (s.tile n).deferred = none →
       ∃ t, exec (.unbind n) s = .next t ∧ t.tst n = tsUnbound ∧ (t.tile n).bind = none ∧ (t.tile n).bindIn = none ∧
         (t.tile n).micro = []) ∧
     (∀ (b : BindRec) (f : Facet), s.tst n = tsLoading → (s.tile n).bind = some b → mfind s.facets b.handle = some f →
       s.facetPois f = false → (s.tile n).loadWork.isSome = true → (s.tile n).deferred = none →
       ∃ t, exec (.facetLoadComplete n) s = .next t ∧ t.tst n = tsReady ∧ (t.tile n).loadWork = none ∧
         (t.tile n).micro = facetMicro (s.facetImage f) ∧ (t.tile n).parts = facetParts (s.facetImage f) ∧
         (t.tile n).seq.run = true ∧ t.rd (TIL_SEQ_STAT n) TIL_SEQ_STAT_PC = 0 ∧
         t.rd (TIL_STATUS n) TIL_STATUS_DIGEST_LO = bits f.digest 31 0) ∧
     (∀ (b : BindRec) (f : Facet), s.tst n = tsLoading → (s.tile n).bind = some b → mfind s.facets b.handle = some f →
       s.facetPois f = true → ∃ t, exec (.facetLoadComplete n) s = .next t ∧ t.tst n = tsUnbound ∧ (t.tile n).bind = none) ∧
     (s.tst n = tsBusy → (s.tile n).wq = [] → (s.tile n).offered = none → (s.tile n).bindIn = none → s.seqIdle n = true →
       (s.tile n).mat = none → (s.tile n).kern = none → s.flag (EPO_STAT n) EPO_STAT_FROZEN = false →
       ∃ t, exec (.tileIdle n) s = .next t ∧ t.tst n = tsReady ∧ (t.tile n).bindIn = (s.tile n).deferred ∧
         (t.tile n).deferred = none ∧ RegsBut [TIL_STATUS n, TIL_MAP n] s t ∧ t.mem = s.mem)) ∧
  (∀ (s : State) (w : Work) (q : List Work), s.hif.betonyQ = w :: q → s.ringHeld w = false →
     (∀ bytes : List Byte, bits w.desc 7 0 = 0x22 → minOpt (lowBit w.desc 69 64) (lowBit w.desc 511 161) = none →
       0x100 ≤ bits w.desc 159 128 → bits w.desc 159 128 ≤ 0x100000 → (s.fetchImage w.desc bytes).ok = true →
       leAt (s.fetchImage w.desc bytes).img 0x10 4 = bits w.desc 159 128 →
       ∃ t, exec (.register bytes) s = .next t ∧ t.hif.betonyQ = q ∧
         ∀ h, s.registerOutcome (s.fetchImage w.desc bytes).img = .fresh h →
           mfind s.facets h = none ∧ ∃ e, mfind t.facets h = some e ∧ e.refs = 0 ∧ e.damaged = false ∧
             e.digest = shake256 ((s.fetchImage w.desc bytes).img.take (leAt (s.fetchImage w.desc bytes).img 0x1C 4)) ∧
             t.measure 5 = shake256 (leBytes 32 (s.measure 5).toNat ++ leBytes 32 e.digest.toNat)) ∧
     (∀ f : Facet, bits w.desc 7 0 = 0x23 → lowBit w.desc 511 72 = none → mfind s.facets (bits w.desc 71 64) = some f →
       (f.refs = 0 → ∃ t, exec .unregister s = .next t ∧ mfind t.facets (bits w.desc 71 64) = none ∧ t.hif.betonyQ = q) ∧
       (f.refs ≠ 0 → ∃ t, exec .unregister s = .next t ∧ t.facets = s.facets ∧ t.hif.betonyQ = q)))

/-- Streams: a chunk that arrives in order at a READY input port is kept, a repeat is discarded and counted, the place it takes
is owed to the sender, and a credit returns what is owed. A release of a Prism port reaches Prism: what it releases is
forwarded, and a repeat is counted; a receiver in REPLAY asks for the chunks its sender retains, which are sent again in order.
Choices of the model it rests on: notes/assumptions/43.md. -/
def Obligations.Streams : Prop :=
  (∀ (s : State) (n : TileId) (p : StreamPort),
     (∀ m rest, takeFirst (fun (m : MeshChunk) => m.kind == 0 && m.tile == n.val && m.port == p.val) s.mesh = some (m, rest) →
       s.tst n ≠ tsRemap → s.tst n ≠ tsLoading → s.portSt n p = psReady → s.portRight n p = true →
       s.parted (tileDie (s.portBind n p).2.1) (tileDie n) = false →
       (m.chunk.seq = (s.port n p).accepted →
         ∃ t, exec (.streamChunk (.tile n p)) s = .next t ∧ (t.port n p).fifo = (s.port n p).fifo ++ [m.chunk] ∧
           (t.port n p).accepted = (s.port n p).accepted + 1 ∧ t.mesh = rest ∧ t.regs = s.regs ∧ t.mem = s.mem) ∧
       (m.chunk.seq < (s.port n p).accepted →
         ∃ t, exec (.streamChunk (.tile n p)) s = .next t ∧ (t.port n p).fifo = (s.port n p).fifo ∧
           (t.port n p).owed = (s.port n p).owed + 1 ∧ t.mesh = rest ∧
           t.rd (EPO_ERR n) EPO_ERR_DUP = min (s.rd (EPO_ERR n) EPO_ERR_DUP + 1) EPO_ERR_DUP.ones ∧ RegsBut [EPO_ERR n] s t)) ∧
     (∀ m rest, takeFirst (fun (m : MeshChunk) => m.kind == 2 && m.tile == n.val && m.port == p.val) s.mesh = some (m, rest) →
       (s.prsPort n p).accepted ≤ m.chunk.seq →
       ∃ t, exec (.streamChunk (.prism n p)) s = .next t ∧ (t.prsPort n p).accepted = m.chunk.seq + 1 ∧ t.mesh = rest ∧
         m.chunk ∈ (t.prsPort n p).held ++ (t.prsPort n p).fwd ∧ t.regs = s.regs ∧ t.tiles = s.tiles) ∧
     (∀ m rest, takeFirst (fun (m : MeshChunk) => m.kind == 3 && m.tile == n.val && m.port == p.val) s.mesh = some (m, rest) →
       ∃ t, exec (.streamChunk (.speedwell n p)) s = .next t ∧ (t.prsPort n p).owed = (s.prsPort n p).owed + 1 ∧ t.mesh = rest) ∧
     ((s.portBind n p).1 = 1 →
       ∃ t, exec (.streamCredit (.tile n p)) s = .next t ∧
         (t.port n p).credits = (s.port n p).credits + (s.port (s.portBind n p).2.1 (s.portBind n p).2.2).owed ∧
         (t.port (s.portBind n p).2.1 (s.portBind n p).2.2).owed = 0 ∧ t.mesh = s.mesh ∧ t.regs = s.regs) ∧
     (∃ t, exec (.streamCredit (.prism n p)) s = .next t ∧ (t.port n p).owed = 0 ∧
       (t.prsPort n p).credits = (s.prsPort n p).credits + (s.port n p).owed ∧ t.mesh = s.mesh ∧ t.regs = s.regs)) ∧
  (∀ (s : State) (n : TileId) (p : StreamPort),
     (∀ r rest, takeFirst (fun (r : Nat × Nat) => r.1 == 8 * n.val + p.val) s.releases = some (r, rest) →
       (seqLe (r.2 + 1) (s.prsPort n p).released = false →
         ∃ t, exec (.prismRelease n p) s = .next t ∧ t.releases = rest ∧
           (t.prsPort n p).released % 2 ^ 32 = (r.2 + 1) % 2 ^ 32 ∧
           (s.resil = true → ∀ c ∈ (s.prsPort n p).held, c.seq < (t.prsPort n p).released → c ∈ (t.prsPort n p).fwd) ∧
           t.regs = s.regs ∧ t.mem = s.mem) ∧
       (seqLe (r.2 + 1) (s.prsPort n p).released = true →
         ∃ t, exec (.prismRelease n p) s = .next t ∧ t.releases = rest ∧ t.prsPorts = s.prsPorts ∧
           t.rd (PRS_CNT (tileDie n)) PRS_CNT_DUP
             = min (s.rd (PRS_CNT (tileDie n)) PRS_CNT_DUP + 1) PRS_CNT_DUP.ones)) ∧
     ((s.portBind n p).1 = 1 → s.epoSt n = esReplay →
       ∃ t, exec (.resendRequest n p) s = .next t ∧ t.regs = s.regs ∧ t.mem = s.mem ∧
         t.mesh.filter (fun m => m.kind == 0 && m.tile == n.val && m.port == p.val)
           = ((s.port (s.portBind n p).2.1 (s.portBind n p).2.2).retained.filter (fun c => decide ((s.port n p).accepted ≤ c.seq))).map
               (fun c => ({ kind := 0, tile := n.val, port := p.val, chunk := c } : MeshChunk))))

/-- Aperture accesses from another engine: a write with the right lands in the store and reads back; an ID in REMAP or OFFLINE,
and a missing right, leave the store as it was. -/
def Obligations.ApertureAccess : Prop :=
  ∀ (s : State) (src : Fin 3) (n : TileId) (off : BitVec 22),
    (∀ data : List Byte, s.cut src (0x7C000000000 + n.val * 0x400000 + off.toNat) = false → off.toNat < 0x300000 →
      s.tst n ≠ tsRemap → s.tst n ≠ tsOffline → s.tsRight n rtX off.toNat data.length = true →
      ∃ t, exec (.apertureAccess src n off 0 true data) s = .next t ∧ t.answer = .done ∧
        t.tsBytes n off.toNat data.length = data ∧
        (∀ a, (a < off.toNat ∨ off.toNat + data.length ≤ a) → t.tsBytes n a 1 = s.tsBytes n a 1) ∧ t.regs = s.regs ∧ t.mem = s.mem) ∧
    (∀ len : BitVec 13, s.cut src (0x7C000000000 + n.val * 0x400000 + off.toNat) = false → off.toNat < 0x300000 →
      s.tst n ≠ tsRemap → s.tst n ≠ tsOffline → s.tsRight n rtX off.toNat len.toNat = true →
      exec (.apertureAccess src n off len false []) s
        = .next { s with answer := .data (s.tsBytes n off.toNat len.toNat) (s.tsPois n off.toNat len.toNat) }) ∧
    (∀ (write : Bool) (len : BitVec 13) (data : List Byte), off.toNat < 0x300000 → s.tst n = tsRemap ∨ s.tst n = tsOffline →
      ∃ t, exec (.apertureAccess src n off len write data) s = .next t ∧ t.tiles = s.tiles ∧ t.mem = s.mem)

/-- DMA: a COPY, a FILL or a SIGNAL inside the tile store does what its descriptor says, a COPY2D of one row that its rights
allow starts and is marked moved, a FENCE at the head passes, an ended descriptor leaves its queue and is counted, a malformed
one halts its queue, and RESUME and FLUSH let it go on. DMA queues go on: the oldest descriptor that has moved its data ends;
RESUME drops the failing descriptor and FLUSH every one that has not moved data; both are refused while the ID is in REMAP or
OFFLINE. Choices of the model it rests on: notes/assumptions/40.md, 41.md. -/
def Obligations.TileDma : Prop :=
  (∀ (s : State) (n : TileId) (q : DmaQueue) (e : DmaEnt) (r : DmaQ), s.dq n q = e :: r → s.dqRuns n q = true →
     e.started = false → e.inline = none →
     (dmaOk e.desc = true → dmaOp e.desc = 1 → dmaLsrc e.desc = true → dmaLdst e.desc = true → 1 ≤ dmaLen e.desc →
       dmaLen e.desc ≤ 64 - dmaSrc e.desc % 64 → s.tsRight n rtD (dmaSrc e.desc) (dmaLen e.desc) = true →
       s.tsRight n rtD (dmaDst e.desc) (dmaLen e.desc) = true →
       ∃ t, exec (.dmaCopy n q) s = .next t ∧ t.tsBytes n (dmaDst e.desc) (dmaLen e.desc) = s.tsBytes n (dmaSrc e.desc) (dmaLen e.desc) ∧
         t.dq n q = { e with started := true, moved := true } :: r ∧ t.mem = s.mem) ∧
     (dmaOk e.desc = true → dmaOp e.desc = 2 → dmaLsrc e.desc = true → dmaLdst e.desc = true → dmaRows e.desc = 1 →
       1 ≤ dmaLen e.desc → dmaLen e.desc ≤ 64 - dmaSrc e.desc % 64 → s.tsRight n rtD (dmaSrc e.desc) (dmaLen e.desc) = true →
       s.tsRight n rtD (dmaDst e.desc) (dmaLen e.desc) = true →
       ∃ t, exec (.dmaCopy2d n q) s = .next t ∧
         t.tsBytes n (dmaDst e.desc) (dmaLen e.desc) = s.tsBytes n (dmaSrc e.desc) (dmaLen e.desc) ∧
         t.dq n q = { e with started := true, moved := true } :: r) ∧
     (dmaOk e.desc = true → dmaOp e.desc = 3 → dmaLdst e.desc = true → 1 ≤ dmaLen e.desc → dmaLen e.desc ≤ 64 - dmaDst e.desc % 64 →
       s.tsRight n rtD (dmaDst e.desc) (dmaLen e.desc) = true →
       ∃ t, exec (.dmaFill n q) s = .next t ∧
         t.tsBytes n (dmaDst e.desc) (dmaLen e.desc) = (List.range (dmaLen e.desc)).map (fun i => fillByte e.desc (dmaDst e.desc + i)) ∧
         t.dq n q = { e with started := true, moved := true } :: r ∧ t.mem = s.mem) ∧
     (dmaOk e.desc = true → dmaOp e.desc = 4 →
       ∃ t, exec (.dmaFence n q) s = .next t ∧ t.dq n q = { e with started := true, moved := true } :: r ∧ t.mem = s.mem ∧
         RegsBut [TIL_DMA_STAT n q] s t) ∧
     (dmaOk e.desc = true → dmaOp e.desc = 5 → e.moved = false → dmaLdst e.desc = true → s.tsRight n rtD (dmaDst e.desc) 8 = true →
       ∃ t, exec (.dmaSignal n q) s = .next t ∧
         t.tsBytes n (dmaDst e.desc) 8 = leBytes 8 (leVal (s.tsBytes n (dmaDst e.desc) 8) + dmaPat e.desc) ∧
         t.dq n q = { e with started := true, moved := true } :: r) ∧
     (dmaOk e.desc = false → dmaOp e.desc = 1 →
       ∃ t, exec (.dmaCopy n q) s = .next t ∧ t.flag (TIL_DMA_STAT n q) TIL_DMA_STAT_HALTED = true ∧
         t.rd (TIL_DMA_STAT n q) TIL_DMA_STAT_ERR = dcMalformed)) ∧
  (∀ (s : State) (n : TileId) (q : DmaQueue),
     (∀ e r, s.dq n q = e :: r → e.started = true → e.moved = true → s.tst n ≠ tsRemap → s.tst n ≠ tsOffline →
       ∃ t, exec (.dmaDescriptorEnd n q) s = .next t ∧ t.dq n q = r ∧
         t.rd (TIL_DMA_STAT n q) TIL_DMA_STAT_DONE
           = (s.rd (TIL_DMA_STAT n q) TIL_DMA_STAT_DONE + 1) % 2 ^ TIL_DMA_STAT_DONE.width) ∧
     (s.tst n ≠ tsRemap → s.tst n ≠ tsOffline → s.flag (TIL_DMA_STAT n q) TIL_DMA_STAT_HALTED = true →
       ∃ t, exec (.tilDmaResume n q) s = .next t ∧ t.flag (TIL_DMA_STAT n q) TIL_DMA_STAT_HALTED = false ∧
         t.dq n q = (s.dq n q).filter (fun e => !(e.started && !e.moved)) ∧ t.mem = s.mem) ∧
     (s.tst n ≠ tsRemap → s.tst n ≠ tsOffline →
       ∃ t, exec (.tilDmaFlush n q) s = .next t ∧ t.flag (TIL_DMA_STAT n q) TIL_DMA_STAT_HALTED = false ∧
         t.dq n q = (s.dq n q).filter (fun e => e.started && e.moved)) ∧
     (s.tst n = tsRemap ∨ s.tst n = tsOffline →
       exec (.tilDmaResume n q) s = .next (s.apertureRefuse n) ∧ exec (.tilDmaFlush n q) s = .next (s.apertureRefuse n)) ∧
     (∀ e r d w s1, s.dq n 6 = e :: r → s.dqRuns n 6 = true → e.inline = some d → e.work = some w → inlineFault d = none →
       s.guarded n (bits d 119 64) (bits d 125 120) = false →
       (((s.setDq n 6 r).gapDirty n).vwrite (tileDie n) e.pasid (bits d 119 64) (leBytes (bits d 125 120) (bits d 511 192)) false)
         = (s1, .ok) →
       exec (.writeInline n) s = .next ((s1.wrap (TIL_DMA_STAT n 6) TIL_DMA_STAT_DONE 1).served w stServed 0)))

/-- A tile fault: an ID in REMAP or OFFLINE has none; else the physical tile is isolated and counted, and the ID goes to REMAP
with a spare chosen, or to OFFLINE where its C-die has none; the installed mapping gives the ID its spare with an empty store.
Choices of the model it rests on: notes/assumptions/44.md. -/
def Obligations.TileFaults : Prop :=
  ∀ (s : State) (n : TileId),
    (s.tst n = tsRemap ∨ s.tst n = tsOffline →
      (∀ c, exec (.tileFaultDeclare n c) s = .next s) ∧ exec (.heartbeatLoss n) s = .next s) ∧
    (s.tst n ≠ tsRemap → s.tst n ≠ tsOffline →
      ∀ c, c ∈ ([.tileFaultDeclare n .uncorrectable, .tileFaultDeclare n .checker, .tileFaultDeclare n .ageing, .heartbeatLoss n] : List Instr) →
        (∀ q, s.spareFor n = some q →
          ∃ t, exec c s = .next t ∧ t.tst n = tsRemap ∧ mfind t.yar.mapping n = some q ∧ t.yar.isolated.contains (s.phys n) = true ∧
            t.rd TST_YAR_STAT TST_YAR_STAT_TILE_FAULTS
              = min (s.rd TST_YAR_STAT TST_YAR_STAT_TILE_FAULTS + 1) TST_YAR_STAT_TILE_FAULTS.ones ∧
            (t.tile n).seq.run = false ∧ (t.tile n).kern = none ∧ (t.tile n).mat = none ∧ (t.tile n).outs = []) ∧
        (s.spareFor n = none →
          ∃ t, exec c s = .next t ∧ t.tst n = tsOffline ∧ t.yar.isolated.contains (s.phys n) = true ∧ (t.tile n).bind = none ∧
            (t.tile n).wq = [] ∧ (t.tile n).offered = none ∧ (t.tile n).deferred = none)) ∧
    (∀ q, q < 104 → mfind s.yar.mapping n = some q → s.tst n = tsRemap →
      ∃ t, exec (.mappingInstalled n) s = .next t ∧ t.phys n = q ∧ mfind t.yar.mapping n = none ∧ (t.tile n).store = [] ∧
        (t.tile n).storePois = [] ∧ t.tst n = (if (s.tile n).bind.isSome then tsLoading else tsUnbound) ∧ t.mem = s.mem)

/-- Commit: the seal write follows the releases, the commit point closes the epoch and hands its journal to the publisher under
the epoch's number, and entries are published one by one in order; a poisoned entry is skipped, a failed one marks the journal.
The epoch logic's other commands: the start record lets the opener go on, an overrun leaves the epoch unprotected, a frozen
queue is released or flushed, and the modes change only while no epoch is open. The EPOCH descriptor of a vendor facet: OP 1
sets a guard range, OP 3 disables every range, and an OP the table does not give ends with SEQ_FAULT detail 6. Choices of the
model it rests on: notes/assumptions/45.md. -/
def Obligations.Epochs : Prop :=
  (∀ (s : State) (n : TileId),
     ((s.epo n).committer ≠ 0 → (s.epo n).sealed = false → s.epoBusy n = false →
       ∃ t, exec (.journalSealWrite n) s = .next t ∧ (t.epo n).sealed = true ∧ (t.epo n).sent = []) ∧
     (∀ us : BitVec 16, (s.epo n).sealed = true →
       ∃ t, exec (.commitPoint n us) s = .next t ∧ t.epoSt n = esClosed ∧ (t.epo n).committed = s.epoNum n ∧ (t.epo n).jrnl = [] ∧
         (t.epo n).sealed = false ∧
         (t.epo n).pub = (if (s.epo n).jrnl = [] then (s.epo n).pub
           else (s.epo n).pub ++ [{ num := s.epoNum n, ents := (s.epo n).jrnl, idx := 0, failed := none, pend := [] }])) ∧
     (∀ us : BitVec 16, (s.epo n).sealed = false → exec (.commitPoint n us) s = .next s) ∧
     (∀ e j r, nextEntry (s.epo n) = some (e, j, r) →
       (∀ s1, e.poison = false → e.remote s.node = false → s.applyEnt n e j.failed = (s1, .ok) →
         ∃ t, exec (.journalEntryPublish n) s = .next t ∧ (t.epo n).pub = (if j.ents = [] ∧ j.pend = [] then r else j :: r) ∧
           t.mem = s1.mem ∧ t.ledger = s1.ledger) ∧
       (∀ s1, e.poison = false → e.remote s.node = true → s.applyEnt n e j.failed = (s1, .ok) →
         ∃ t, exec (.journalEntryPublish n) s = .next t ∧
           (t.epo n).pub = { j with pend := j.pend ++ [(s.fgnTx.1, nodeOf e.addr, j.idx - 1)] } :: r ∧ t.ledger = s1.ledger) ∧
       (e.poison = true → ∃ t, exec (.journalEntryPublish n) s = .next t ∧
         (t.epo n).pub = (if j.ents = [] ∧ j.pend = [] then r else j :: r) ∧ t.ledger = s.ledger) ∧
       (∃ t, exec (.journalEntryFail n) s = .next t ∧ t.ledger = s.ledger ∧
         (t.epo n).pub = (if j.ents = [] ∧ j.pend = [] then r else { j with failed := some (j.failed.getD (j.idx - 1)) } :: r)))) ∧
  (∀ (s : State) (n : TileId),
     ((s.epo n).opening = true →
       ∃ t, exec (.startRecordWritten n) s = .next t ∧ (t.epo n).opening = false ∧ t.epoSt n = s.epoSt n ∧ t.mem = s.mem ∧
         ((s.epo n).opener = 1 → t.rd (TIL_SEQ_STAT n) TIL_SEQ_STAT_WAIT_KIND = 0)) ∧
     (s.resil = true → s.epoSt n = esOpen →
       ∃ t, exec (.epochOverrun n) s = .next t ∧ t.unprot n = true ∧ t.epoSt n = esOpen ∧
         t.rd (EPO_ERR n) EPO_ERR_OVERRUN = min (s.rd (EPO_ERR n) EPO_ERR_OVERRUN + 1) EPO_ERR_OVERRUN.ones) ∧
     (∃ t, exec (.epoCtlRelease n) s = .next t ∧ t.flag (EPO_STAT n) EPO_STAT_FROZEN = false ∧ OnlyRegs [EPO_STAT n] s t) ∧
     (s.flag (EPO_STAT n) EPO_STAT_FROZEN = true →
       ∃ t, exec (.epoCtlFlush n) s = .next t ∧ t.flag (EPO_STAT n) EPO_STAT_FROZEN = false ∧ (t.tile n).wq = [] ∧
         (t.tile n).deferred = none ∧ (t.tile n).bindIn = none ∧ (t.tile n).offered = none) ∧
     (∀ v : Word, s.rd EPO_MODE EPO_MODE_OPEN_CNT = 0 → fget v EPO_MODE_RESIL = 0 →
       ∃ t, exec (.epoModeWrite v) s = .next t ∧ t.resil = false ∧ t.rd EPO_MODE EPO_MODE_DET = fget v EPO_MODE_DET ∧
         OnlyRegs [EPO_MODE] s t) ∧
     (∀ v : Word, s.rd EPO_MODE EPO_MODE_OPEN_CNT ≠ 0 → fget v EPO_MODE_RESIL ≠ s.rd EPO_MODE EPO_MODE_RESIL →
       ∃ t, exec (.epoModeWrite v) s = .next t ∧ t.flag EPO_MODE EPO_MODE_REFUSED = true ∧ t.resil = s.resil ∧ t.det = s.det ∧
         OnlyRegs [EPO_MODE] s t)) ∧
  (∀ (s : State) (n : TileId) (w : Work), s.vendorBound n = true → s.tst n = tsBusy → (s.tile n).seq.held = some w →
     bits w.desc 7 0 = 0x13 → s.epoSt n = esClosed →
     (bits w.desc 67 64 = 1 → ∃ t, exec (.epochDesc n) s = .next t ∧ (t.tile n).seq.held = none ∧
       t.rd (EPO_GUARD_LO n (bits w.desc 71 68)) EPO_GUARD_LO_LO = bits w.desc 183 128 ∧
       t.rd (EPO_GUARD_HI n (bits w.desc 71 68)) EPO_GUARD_HI_HI = bits w.desc 247 192) ∧
     (bits w.desc 67 64 = 3 → ∃ t, exec (.epochDesc n) s = .next t ∧ (t.tile n).seq.held = none ∧
       ∀ g, g < 16 → t.rd (EPO_GUARD_LO n g) EPO_GUARD_LO_LO = 2 ^ 56 - 1 ∧ t.rd (EPO_GUARD_HI n g) EPO_GUARD_HI_HI = 0) ∧
     (bits w.desc 67 64 = 0 → exec (.epochDesc n) s
       = .next ((s.tileDone n w (s.tile n).seq.pos stSeqFault 6).release n)))

/-- The ledger: an add reaches its cell alone, a read leaves every cell as it is, a clear zeroes the cells it names, flags
included, and an access beyond the cells is refused and counted; the lock takes the size. Adds to a ledger cell commute: with
finite operands and no sum outside the cell, the order of two adds leaves the same cells. An infinity or a NaN sets its flag
whatever the order. Choices of the model it rests on: notes/assumptions/46.md. -/
def Obligations.Ledger : Prop :=
  (∀ (s : State) (die : DieId),
     (∀ (cell : BitVec 18) (bf16 : Bool) (operand : W32), cell.toNat < s.lcells die →
       (∃ t, exec (.ledgerAdd die cell bf16 operand) s = .next t ∧ t.answer = .done ∧
         (∀ d c, d < 2 → c < 2 ^ 18 → d ≠ die.val ∨ c ≠ cell.toNat → t.lcell d c = s.lcell d c) ∧ t.mem = s.mem ∧
         RegsBut [EPO_LEDGER_STAT die] s t) ∧
       (∃ t bs, exec (.ledgerRead die cell bf16) s = .next t ∧ t.answer = .data bs false ∧ bs.length = (if bf16 then 2 else 4) ∧
         t.ledger = s.ledger ∧ t.mem = s.mem)) ∧
     (∀ (cell : BitVec 18) (bf16 : Bool) (operand : W32), s.lcells die ≤ cell.toNat →
       exec (.ledgerAdd die cell bf16 operand) s = .next { s.bump (EPO_LEDGER_STAT die) EPO_LEDGER_STAT_REFUSED with answer := .error } ∧
       exec (.ledgerRead die cell bf16) s = .next { s.bump (EPO_LEDGER_STAT die) EPO_LEDGER_STAT_REFUSED with answer := .error }) ∧
     (∀ value : Word, s.flag (EPO_LEDGER_CLR die) EPO_LEDGER_CLR_BUSY = false →
       ∃ t, exec (.ledgerClearGo die value) s = .next t ∧ t.flag (EPO_LEDGER_CLR die) EPO_LEDGER_CLR_BUSY = true ∧
         (∀ c, fget value EPO_LEDGER_CLR_FIRST ≤ c → c < fget value EPO_LEDGER_CLR_FIRST + fget value EPO_LEDGER_CLR_COUNT →
           c < s.lcells die → t.lcell die c = LCell.reset) ∧
         (∀ d c, d < 2 → c < 2 ^ 18 → d ≠ die.val ∨ c < fget value EPO_LEDGER_CLR_FIRST → t.lcell d c = s.lcell d c)) ∧
     (∀ value : Word, s.flag (EPO_LEDGER_CLR die) EPO_LEDGER_CLR_BUSY = true → exec (.ledgerClearGo die value) s = .next s) ∧
     (∃ t, exec (.ledgerClearDone die) s = .next t ∧ t.flag (EPO_LEDGER_CLR die) EPO_LEDGER_CLR_BUSY = false ∧
       OnlyRegs [EPO_LEDGER_CLR die] s t) ∧
     (∀ value : Word, s.flag (EPO_LEDGER_CFG die) EPO_LEDGER_CFG_LOCK = false → fget value EPO_LEDGER_CFG_SIZE ≤ 25 →
       ∃ t, exec (.ledgerLock die value) s = .next t ∧ t.flag (EPO_LEDGER_CFG die) EPO_LEDGER_CFG_LOCK = true ∧
         t.rd (EPO_LEDGER_CFG die) EPO_LEDGER_CFG_SIZE = fget value EPO_LEDGER_CFG_SIZE ∧ t.ledger = s.ledger)) ∧
  (∀ (s t1 t2 u1 u2 : State) (die : DieId) (cell : BitVec 18) (b1 b2 : Bool) (x y : W32), cell.toNat < s.lcells die →
     exec (.ledgerAdd die cell b1 x) s = .next t1 → exec (.ledgerAdd die cell b2 y) t1 = .next t2 →
     exec (.ledgerAdd die cell b2 y) s = .next u1 → exec (.ledgerAdd die cell b1 x) u1 = .next u2 →
     (t2.lcell die cell.toNat).ovf = false → (u2.lcell die cell.toNat).ovf = false → ∀ d c, t2.lcell d c = u2.lcell d c)


/-! ### Sequencer, umbels and kernels (spec/06, 07) -/

/-- The register instructions of the sequencer: what each writes to GD, with the program counter, the frame and the discarded
writes to g0. The control instructions of the sequencer: where the program counter goes, and the return stack of eight entries.
Choices of the model it rests on: notes/assumptions/47.md. -/
def Obligations.SequencerRegistersAndControl : Prop :=
  (∀ (s : State) (n : TileId) (w : W32),
     (∀ (c : Instr) (op : Nat) (f : Word → Word → Word),
       (c, op, f) ∈ ([(.seqAdd n, 0x01, fun a b => a + b), (.seqSub n, 0x02, fun a b => a - b), (.seqAnd n, 0x03, fun a b => a &&& b),
         (.seqOr n, 0x04, fun a b => a ||| b), (.seqXor n, 0x05, fun a b => a ^^^ b), (.seqSll n, 0x06, fun a b => a <<< (b.toNat % 64)),
         (.seqSrl n, 0x07, fun a b => a >>> (b.toNat % 64)), (.seqSra n, 0x08, fun a b => a.sshiftRight (b.toNat % 64)),
         (.seqMul n, 0x09, fun a b => a * b), (.seqMinu n, 0x0A, fun a b => if a.toNat ≤ b.toNat then a else b),
         (.seqMaxu n, 0x0B, fun a b => if a.toNat ≤ b.toNat then b else a),
         (.seqSltu n, 0x0C, fun a b => if a.toNat < b.toNat then 1 else 0)] : List (Instr × Nat × (Word → Word → Word))) →
       SeqAt s n w op → ∃ t, exec c s = .next t ∧ SeqWrote n (gd w) (f (s.g n (ga w)) (s.g n (gb w))) s t) ∧
     (∀ (c : Instr) (op : Nat) (f : Word → Word),
       (c, op, f) ∈ ([(.seqAddi n, 0x10, fun a => a + (w.extractLsb' 0 18).signExtend 64),
         (.seqAndi n, 0x11, fun a => a &&& (w.extractLsb' 0 18).setWidth 64), (.seqOri n, 0x12, fun a => a ||| (w.extractLsb' 0 18).setWidth 64),
         (.seqSlli n, 0x13, fun a => a <<< bits w 5 0), (.seqSrli n, 0x14, fun a => a >>> bits w 5 0)] : List (Instr × Nat × (Word → Word))) →
       SeqAt s n w op → ∃ t, exec c s = .next t ∧ SeqWrote n (gd w) (f (s.g n (ga w))) s t) ∧
     (SeqAt s n w 0x15 → ∃ t, exec (.seqLsh n) s = .next t ∧
       SeqWrote n (gd w) ((s.g n (gd w)) <<< 18 ||| (w.extractLsb' 0 18).setWidth 64) s t)) ∧
  (∀ (s : State) (n : TileId) (w : W32),
     (SeqAt s n w 0x00 → ∃ t, exec (.seqNop n) s = .next t ∧ SeqWent n ((s.seqPcOf n + 1) % 8192) s t) ∧
     (∀ (c : Instr) (op : Nat) (p : Prop), (c, op, p) ∈ ([(.seqBeq n, 0x18, s.g n (gd w) = s.g n (ga w)),
         (.seqBne n, 0x19, s.g n (gd w) ≠ s.g n (ga w)), (.seqBltu n, 0x1A, (s.g n (gd w)).toNat < (s.g n (ga w)).toNat),
         (.seqBgeu n, 0x1B, (s.g n (ga w)).toNat ≤ (s.g n (gd w)).toNat), (.seqJmp n, 0x1C, True)] : List (Instr × Nat × Prop)) →
       SeqAt s n w op →
       (p → ∃ t, exec c s = .next t ∧ SeqWent n (unsgn 13 ((s.seqPcOf n : Int) + sgn 18 (bits w 17 0))) s t) ∧
       (¬ p → ∃ t, exec c s = .next t ∧ SeqWent n ((s.seqPcOf n + 1) % 8192) s t)) ∧
     (SeqAt s n w 0x1D → (s.tile n).seq.rstack.length < 8 → ∃ t, exec (.seqCall n) s = .next t ∧
       (t.tile n).seq.rstack = (s.seqPcOf n + 1) :: (s.tile n).seq.rstack ∧
       SeqWent n (unsgn 13 ((s.seqPcOf n : Int) + sgn 18 (bits w 17 0))) s t) ∧
     (∀ r rs, SeqAt s n w 0x1E → (s.tile n).seq.rstack = r :: rs → ∃ t, exec (.seqRet n) s = .next t ∧
       (t.tile n).seq.rstack = rs ∧ SeqWent n (r % 8192) s t) ∧
     (∀ (c : Instr) (op : Nat) (code : Nat), (c, op, code) ∈ ([(.seqCall n, 0x1D, 3), (.seqRet n, 0x1E, 3), (.seqTake n, 0x28, 6)]
         : List (Instr × Nat × Nat)) →
       SeqAt s n w op → (op = 0x1D → 8 ≤ (s.tile n).seq.rstack.length) → (op = 0x1E → (s.tile n).seq.rstack = []) →
       (op = 0x28 → (s.tile n).seq.held ≠ none) → (s.tile n).clv ≠ [] →
       ∃ t, exec c s = .next t ∧ t.rd (TIL_SEQ_ERR n) TIL_SEQ_ERR_CODE = code ∧
         t.rd (TIL_SEQ_ERR n) TIL_SEQ_ERR_PC = s.seqPcOf n ∧ (t.tile n).seq.fault = some code ∧
         (t.tile n).seq.rstack = (s.tile n).seq.rstack ∧ RegsBut [TIL_SEQ_ERR n] s t ∧ t.mem = s.mem))

/-- The words of the sequencer: tile-store loads and stores, parameters, descriptor words, status sources and guard ranges. The
work and commands of the sequencer: TAKE, DONE, DMAQ, CLV, MVC, CVC and its end, WAIT and KLAUNCH. Choices of the model it rests
on: notes/assumptions/47.md, 48.md, 50.md. -/
def Obligations.SequencerWordsAndWork : Prop :=
  (∀ (s : State) (n : TileId) (w : W32),
     (SeqAt s n w 0x20 → s.seqAcc n (s.gaImm n w) 8 8 = true → ∃ t, exec (.seqLdt n) s = .next t ∧
       SeqWrote n (gd w) (BitVec.ofNat 64 (leVal (s.tsBytes n (s.gaImm n w) 8))) s t) ∧
     (SeqAt s n w 0x21 → s.seqAcc n (s.gaImm n w) 8 8 = true → s.guarded n (s.gaImm n w) 8 = true →
       ∃ t, exec (.seqStt n) s = .next t ∧ SeqWent n ((s.seqPcOf n + 1) % 8192) s t) ∧
     (SeqAt s n w 0x21 → s.seqAcc n (s.gaImm n w) 8 8 = true → s.guarded n (s.gaImm n w) 8 = false → ∃ t, exec (.seqStt n) s = .next t ∧
       t.tsBytes n (s.gaImm n w) 8 = leBytes 8 (s.g n (gd w)).toNat ∧
       (∀ a, a < s.gaImm n w ∨ s.gaImm n w + 8 ≤ a → t.tsBytes n a 1 = s.tsBytes n a 1) ∧ (∀ r, t.g n r = s.g n r) ∧
       t.seqPcOf n = (s.seqPcOf n + 1) % 8192 ∧ RegsBut [TIL_SEQ_STAT n] s t ∧ (∀ k, k ≠ n.val → t.tile k = s.tile k) ∧ t.mem = s.mem) ∧
     (∀ b, SeqAt s n w 0x22 → (s.tile n).bind = some b → ∃ t, exec (.seqPrm n) s = .next t ∧
       SeqWrote n (gd w) (b.params.getD (bits w 3 0) 0) s t) ∧
     (∀ h, SeqAt s n w 0x23 → (s.tile n).seq.held = some h → ∃ t, exec (.seqDsc n) s = .next t ∧
       SeqWrote n (gd w) (h.desc.extractLsb' (64 * bits w 2 0) 64) s t) ∧
     (∀ v, (bits w 3 0, v) ∈ [(0, n.val), (1, b2n s.resil + 2 * b2n s.det), (2, (s.tile n).seq.kout),
         (3, b2n (decide (s.epoSt n ≠ esClosed)) + 2 * s.epoNum n), (5, (s.tile n).seq.worst)] ∨ 6 ≤ bits w 3 0 ∧ v = 0 →
       SeqAt s n w 0x24 → ∃ t, exec (.seqSst n) s = .next t ∧ SeqWrote n (gd w) (BitVec.ofNat 64 v) s t) ∧
     (SeqAt s n w 0x24 → bits w 3 0 = 4 → ∃ t v, exec (.seqSst n) s = .next t ∧ SeqWrote n (gd w) v s t) ∧
     (SeqAt s n w 0x33 → s.epoSt n = esClosed → ∃ t, exec (.seqEguard n) s = .next t ∧
       t.rd (EPO_GUARD_LO n (bits (s.g n (gd w)) 3 0)) EPO_GUARD_LO_LO = bits (s.g n (ga w)) 55 0 ∧
       t.rd (EPO_GUARD_HI n (bits (s.g n (gd w)) 3 0)) EPO_GUARD_HI_HI = bits (s.g n (gb w)) 55 0 ∧ (∀ r, t.g n r = s.g n r) ∧
       t.seqPcOf n = (s.seqPcOf n + 1) % 8192 ∧ t.mem = s.mem ∧
       RegsBut [TIL_SEQ_STAT n, EPO_GUARD_LO n (bits (s.g n (gd w)) 3 0), EPO_GUARD_HI n (bits (s.g n (gd w)) 3 0)] s t)) ∧
  (∀ (s : State) (n : TileId) (w : W32),
     (∀ o, SeqAt s n w 0x28 → (s.tile n).seq.held = none → (s.tile n).offered = some o → s.haltNow n = false →
       ∃ t, exec (.seqTake n) s = .next t ∧ (t.tile n).seq.held = some o ∧ (t.tile n).offered = none ∧
         t.flag (TIL_SEQ_STAT n) TIL_SEQ_STAT_HELD = true ∧ t.seqPcOf n = (s.seqPcOf n + 1) % 8192 ∧
         (∀ r, t.g n r = if r = gd w ∧ r ≠ 0 then BitVec.ofNat 64 (bits o.desc 7 0) else s.g n r) ∧
         RegsBut [TIL_SEQ_STAT n] s t ∧ t.mem = s.mem) ∧
     (∀ h, SeqAt s n w 0x29 → (s.tile n).seq.held = some h →
       exec (.seqDone n) s = .next (((s.tileDone n h (s.tile n).seq.pos (bits w 7 0) (bits (s.g n (ga w)) 31 0)).release n).seqNext n) ∧
       (s.journaled n = true → (s.epo n).jrnl.length < journalCap → ∃ t, exec (.seqDone n) s = .next t ∧ (t.tile n).seq.held = none ∧
         t.flag (TIL_SEQ_STAT n) TIL_SEQ_STAT_HELD = false ∧ t.seqPcOf n = (s.seqPcOf n + 1) % 8192 ∧ (∀ r, t.g n r = s.g n r) ∧
         (t.epo n).jrnl = (s.epo n).jrnl ++
           [⟨(s.tile n).seq.pos, jkCompletion, 0, bits w 7 0 + bits (s.g n (ga w)) 31 0 * 2 ^ 8, some h, false⟩] ∧
         RegsBut [TIL_SEQ_STAT n, EPO_STAT n] s t ∧ t.mem = s.mem)) ∧
     (SeqAt s n w 0x2A → s.seqAcc n (s.g n (ga w)).toNat 32 32 = true → (s.dq n (bits w 1 0)).length < 64 →
       ∃ t e, exec (.seqDmaq n) s = .next t ∧ t.dq n (bits w 1 0) = s.dq n (bits w 1 0) ++ [e] ∧
         e.desc = BitVec.ofNat 256 (leVal (s.tsBytes n (s.g n (ga w)).toNat 32)) ∧ e.started = false ∧ e.moved = false ∧
         e.inline = none ∧ t.seqPcOf n = (s.seqPcOf n + 1) % 8192 ∧ (∀ r, t.g n r = s.g n r) ∧
         RegsBut [TIL_SEQ_STAT n, EPO_STAT n, TIL_DMA_STAT n (bits w 1 0)] s t ∧ t.mem = s.mem) ∧
     (∀ c : Line, c = BitVec.ofNat 512 (leVal (s.tsBytes n (s.g n (ga w)).toNat 64)) → s.seqAcc n (s.g n (ga w)).toNat 64 64 = true →
       s.cmdAcc n c = true →
       (SeqAt s n w 0x2B → clvFieldsOk c = true → s.cmdRegions n c false = true → (s.tile n).clv.length < 4 →
         ∃ t, exec (.seqClv n) s = .next t ∧ (t.tile n).clv = (s.tile n).clv ++ [c] ∧
           t.rd (TIL_SEQ_STAT n) TIL_SEQ_STAT_CLV_OCC = (s.tile n).clv.length + 1 ∧ t.seqPcOf n = (s.seqPcOf n + 1) % 8192 ∧
           (∀ r, t.g n r = s.g n r) ∧ RegsBut [TIL_SEQ_STAT n, EPO_STAT n] s t ∧ t.mem = s.mem) ∧
       (SeqAt s n w 0x2B → clvFieldsOk c = true → s.cmdRegions n c false = true → 4 ≤ (s.tile n).clv.length →
         ∃ t, exec (.seqClv n) s = .next t ∧ t.tiles = s.tiles ∧ t.rd (TIL_SEQ_STAT n) TIL_SEQ_STAT_WAIT_KIND = 4 ∧
           t.seqPcOf n = s.seqPcOf n ∧ OnlyRegs [TIL_SEQ_STAT n] s t) ∧
       (SeqAt s n w 0x2C → mvcFieldsOk c = true → s.cmdRegions n c true = true → (s.tile n).mvc.length < 2 →
         ∃ t, exec (.seqMvc n) s = .next t ∧ (t.tile n).mvc = (s.tile n).mvc ++ [c] ∧ t.seqPcOf n = (s.seqPcOf n + 1) % 8192 ∧
           (∀ r, t.g n r = s.g n r) ∧ RegsBut [TIL_SEQ_STAT n, EPO_STAT n] s t ∧ t.mem = s.mem)) ∧
     (∀ c : W256, c = BitVec.ofNat 256 (leVal (s.tsBytes n (s.g n (ga w)).toNat 32)) → SeqAt s n w 0x2D →
       s.seqAcc n (s.g n (ga w)).toNat 64 64 = true → cvcFieldsOk c = true → s.tsRight n rtA (cvcSrc c) (cvcSrcBytes c) = true →
       s.tsRight n rtW (cvcDst c) (cvcDstBytes c) = true →
       ∃ t, exec (.seqCvc n) s = .next t ∧ (t.tile n).cvc = (s.tile n).cvc ++ [c] ∧ t.seqPcOf n = (s.seqPcOf n + 1) % 8192 ∧
         (∀ r, t.g n r = s.g n r) ∧ RegsBut [TIL_SEQ_STAT n, EPO_STAT n] s t ∧ t.mem = s.mem) ∧
     (∀ (c : W256) (r : List W256), (s.tile n).cvc = c :: r → (s.tile n).seq.fault = none →
       s.guarded n (cvcDst c) (cvcRun c (s.tsBytes n (cvcSrc c) (cvcSrcBytes c))).1.length = false →
       ∃ t, exec (.cvcEnd n) s = .next t ∧ (t.tile n).cvc = r ∧
         t.tsBytes n (cvcDst c) (cvcRun c (s.tsBytes n (cvcSrc c) (cvcSrcBytes c))).1.length
           = (cvcRun c (s.tsBytes n (cvcSrc c) (cvcSrcBytes c))).1 ∧ RegsBut [TIL_SEQ_STAT n, ARR_CVT n] s t ∧ t.mem = s.mem) ∧
     (SeqAt s n w 0x2E →
       (waitOver (bits w 17 0) (s.seqEvents n) = true → ∃ t, exec (.seqWait n) s = .next t ∧
         SeqWrote n (gd w) (BitVec.ofNat 64 (s.seqEvents n)) s t) ∧
       (waitOver (bits w 17 0) (s.seqEvents n) = false → ∃ t, exec (.seqWait n) s = .next t ∧
         SeqWent n (s.seqPcOf n) s t ∧ t.rd (TIL_SEQ_STAT n) TIL_SEQ_STAT_WAIT_KIND = 2)) ∧
     (∀ h, SeqAt s n w 0x30 → (s.tile n).seq.held = some h → bits h.desc 7 0 = 0x12 → (s.tile n).kern = none →
       (s.kernRefusal n h.desc ≠ 0 → ∃ t, exec (.seqKlaunch n) s = .next t ∧
         SeqWrote n (gd w) (BitVec.ofNat 64 (s.kernRefusal n h.desc)) s t ∧ (t.tile n).kern = none) ∧
       (s.kernRefusal n h.desc = 0 → ∃ t k, exec (.seqKlaunch n) s = .next t ∧ (t.tile n).kern = some k ∧ k.work = h ∧ k.bySeq = true ∧
         k.umbels.length = kUmbels h.desc ∧ t.flag (UMB_STATUS n) UMB_STATUS_RUNNING = true ∧
         t.seqPcOf n = (s.seqPcOf n + 1) % 8192 ∧ (∀ r, t.g n r = if r = gd w ∧ r ≠ 0 then 0 else s.g n r) ∧ t.mem = s.mem)))

/-- Epochs and semaphores of the sequencer: EOPEN, ECOMMIT, SEMW with its poll, and SEMP. Choices of the model it rests on:
notes/assumptions/47.md, 53.md. -/
def Obligations.SequencerEpochs : Prop :=
  ∀ (s : State) (n : TileId) (w : W32),
    (SeqAt s n w 0x31 → s.epoSt n = esClosed → s.epoHeld n = false → s.midTile n = false → s.spw.run = none →
      (s.resil = false → ∃ t, exec (.seqEopen n) s = .next t ∧ t.epoSt n = esOpen ∧ t.epoNum n = (s.epoNum n + 1) % 2 ^ 63 ∧
        t.seqPcOf n = (s.seqPcOf n + 1) % 8192 ∧
        (∀ r, t.g n r = if r = gd w ∧ r ≠ 0 then BitVec.ofNat 64 ((s.epoNum n + 1) % 2 ^ 63) else s.g n r) ∧
        RegsBut [TIL_SEQ_STAT n, EPO_STAT n, EPO_NUM n, EPO_MODE] s t ∧ t.mem = s.mem) ∧
      (s.resil = true → ∃ t, exec (.seqEopen n) s = .next t ∧ t.epoSt n = esOpen ∧ t.epoNum n = (s.epoNum n + 1) % 2 ^ 63 ∧
        (t.epo n).opening = true ∧ (t.epo n).start.isSome = true ∧ (t.epo n).jrnl = [] ∧ t.seqPcOf n = s.seqPcOf n ∧
        RegsBut [TIL_SEQ_STAT n, EPO_STAT n, EPO_NUM n, EPO_MODE] s t ∧ t.mem = s.mem)) ∧
    (SeqAt s n w 0x32 → s.midTile n = false →
      (s.epoSt n = esOpen → s.resil = true → ∃ t, exec (.seqEcommit n) s = .next t ∧ t.epoSt n = esSealing ∧ (t.epo n).committer = 1 ∧
        t.seqPcOf n = s.seqPcOf n ∧ t.rd (TIL_SEQ_STAT n) TIL_SEQ_STAT_WAIT_KIND = 6 ∧
        RegsBut [TIL_SEQ_STAT n, EPO_STAT n] s t ∧ t.mem = s.mem) ∧
      (s.epoSt n = esOpen → s.resil = false → ∃ t, exec (.seqEcommit n) s = .next t ∧ t.epoSt n = esClosed ∧
        (t.epo n).committed = s.epoNum n ∧ t.mem = s.mem)) ∧
    (∀ s1 bs, semAddrOk (s.g n (ga w)).toNat = true →
      (SeqAt s n w 0x34 → (s.seqCount n).vread (tileDie n) ((s.seqCount n).seqPasid n) (s.g n (ga w)).toNat 8 .read false
          = (s1, .ok bs false) →
        ((s.g n (gb w)).toNat ≤ leVal bs → ∃ t, exec (.seqSemw n) s = .next t ∧
          SeqWrote n (gd w) (BitVec.ofNat 64 (leVal bs)) s1 t) ∧
        (leVal bs < (s.g n (gb w)).toNat → ∃ t, exec (.seqSemw n) s = .next t ∧
          SeqWent n (s1.seqPcOf n) s1 t ∧ t.rd (TIL_SEQ_STAT n) TIL_SEQ_STAT_WAIT_KIND = 3)) ∧
      (s.seqWord n = some w → (s.tile n).seq.run = true → s.rd (TIL_SEQ_STAT n) TIL_SEQ_STAT_WAIT_KIND = 3 →
        s.vread (tileDie n) (s.seqPasid n) (s.g n (ga w)).toNat 8 .read false = (s1, .ok bs false) →
        (s.g n (gb w)).toNat ≤ leVal bs → ∃ t, exec (.semaphorePoll n none) s = .next t ∧
          SeqWrote n (gd w) (BitVec.ofNat 64 (leVal bs)) s1 t ∧ t.rd (TIL_SEQ_STAT n) TIL_SEQ_STAT_WAIT_KIND = 0)) ∧
    (∀ pa, SeqAt s n w 0x35 → semAddrOk (s.g n (ga w)).toNat = true → s.seqDrained n = true →
      s.xlate (tileDie n) (s.seqPasid n) (s.g n (ga w)).toNat .write = .pa pa false →
      (∀ s1, s.semRelease n pa (s.g n (gb w)).toNat = (s1, .ok) → exec (.seqSemp n) s = .next (s1.seqNext n)) ∧
      (s.journaled n = true → (s.epo n).jrnl.length < journalCap → ∃ t, exec (.seqSemp n) s = .next t ∧
        (t.epo n).jrnl = (s.epo n).jrnl ++ [⟨pa, jkSem, 0, (s.g n (gb w)).toNat, none, false⟩] ∧ t.seqPcOf n = (s.seqPcOf n + 1) % 8192 ∧ (∀ r, t.g n r = s.g n r) ∧
        RegsBut [TIL_SEQ_STAT n, EPO_STAT n] s t ∧ t.mem = s.mem))

/-- Kernels: a launch starts every umbel with its arguments or is refused, the boundary empties the L1, and the completion ends
the kernel. Choices of the model it rests on: notes/assumptions/50.md. -/
def Obligations.Kernels : Prop :=
  ∀ (s : State) (n : TileId),
    (∀ h s1, s.kernTake n = some (h, s1) → s.tst n = tsReady ∨ s.tst n = tsBusy → (s.tile n).kern = none →
      s.haltNow n = false ∨ (s.tile n).seq.held = some h →
      (s.kernRefusal n h.desc = 0 → ∃ t k, exec (.kernel n) s = .next t ∧ (t.tile n).kern = some k ∧ k.work = h ∧ k.bySeq = false ∧
        (∀ u, u < kUmbels h.desc → ∃ m, t.umb n u = some (k, m) ∧ m.pc = bits h.desc 119 64 ∧ m.wait = .none ∧
          lanesOf m.active = List.range 32 ∧ lanesOf m.live = List.range 32 ∧ m.stack = [] ∧
          ∀ l, l < 32 → (10 ≤ kX h.desc → m.reg l 10 = bits h.desc 183 128) ∧ (11 ≤ kX h.desc → m.reg l 11 = 32 * u + l)) ∧
        t.rd (UMB_STATUS n) UMB_STATUS_RESIDENT = kUmbels h.desc ∧ t.flag (UMB_STATUS n) UMB_STATUS_RUNNING = true ∧
        t.tst n = tsBusy ∧ t.mem = s.mem) ∧
      (s.kernRefusal n h.desc ≠ 0 →
        exec (.kernel n) s = .next ((s1.tileDone n h (s1.tile n).seq.pos (s.kernRefusal n h.desc) 0).release n))) ∧
    (∀ k, (s.tile n).kern = some k → k.boundary = false → k.atBoundary = true → s.epoSt n = esClosed →
      (∀ p ∈ (s.tile n).l1, p.2.dirty = 0) →
      ∃ t, exec (.kernelBoundary n) s = .next t ∧ (t.tile n).kern = some { k with boundary := true, umbels := [] } ∧ (t.tile n).l1 = [] ∧
        t.flag (UMB_STATUS n) UMB_STATUS_BOUNDARY = true ∧ t.rd (UMB_STATUS n) UMB_STATUS_RESIDENT = 0 ∧
        RegsBut [UMB_STATUS n, TIL_SEQ_STAT n] s t ∧ t.mem = s.mem) ∧
    (∀ k, (s.tile n).kern = some k → k.boundary = true → s.epoSt n = esClosed → k.bySeq = true →
      ∃ t, exec (.kernelComplete n) s = .next t ∧ (t.tile n).kern = none ∧ (t.tile n).seq.kout = k.abort.getD 0 ∧
        t.flag (UMB_STATUS n) UMB_STATUS_RUNNING = false ∧
        t.rd (UMB_STATUS n) UMB_STATUS_KERNELS = (s.rd (UMB_STATUS n) UMB_STATUS_KERNELS + 1) % 2 ^ 32 ∧
        RegsBut [UMB_STATUS n, TIL_SEQ_STAT n] s t ∧ t.mem = s.mem)

/-- The tile refuses a launch with KRN_MALFORMED, before any umbel starts, when a reserved field is non-zero, UMBELS is 0 or
above 32, FREGS is above 32, ENTRY_VA is not 4-byte aligned or ARG_VA is not 64-byte aligned; KLAUNCH answers the same code. -/
def Obligations.KernelMalformed : Prop :=
  ∀ (s : State) (n : TileId) (d : Line), s.facetUmbel n = true → (s.tile n).kern = none →
    (bits d 127 120 ≠ 0 ∨ bits d 191 184 ≠ 0 ∨ bits d 511 222 ≠ 0 ∨ bits d 197 192 = 0 ∨ 32 < bits d 197 192 ∨
      32 < bits d 208 203 ∨ bits d 119 64 % 4 ≠ 0 ∨ bits d 183 128 % 64 ≠ 0) →
    (∀ h s1, s.kernTake n = some (h, s1) → h.desc = d → s.tst n = tsReady ∨ s.tst n = tsBusy →
      s.haltNow n = false ∨ (s.tile n).seq.held ≠ none →
      exec (.kernel n) s = .next ((s1.tileDone n h (s1.tile n).seq.pos stKrnMalformed 0).release n) ∧
      ∃ t, exec (.kernel n) s = .next t ∧ (t.tile n).kern = none) ∧
    (∀ w h, SeqAt s n w 0x30 → (s.tile n).seq.held = some h → h.desc = d → bits d 7 0 = 0x12 →
      ∃ t, exec (.seqKlaunch n) s = .next t ∧ SeqWrote n (gd w) (BitVec.ofNat 64 stKrnMalformed) s t ∧ (t.tile n).kern = none)

/-- The base instructions of a thread: integer results, jumps and branches with their divergence, a fill of the register cache,
and the answer to a load. Choices of the model it rests on: notes/assumptions/51.md, 52.md, 54.md. -/
def Obligations.UmbelBase : Prop :=
  ∀ (s : State) (n : TileId) (u : UmbelId) (k : Kern) (m : Umb) (w : W32) (i : UInfo),
    s.uFetch n k m = (s, .word w) → lanesOf m.active ≠ [] →
    (s.uReady n u = some (k, m) → uExt w = none → (baseRegs w).bind (fun p => uRegs k.work.desc p.1 p.2) = some i → rcHas m i = true →
      (uOp w ∈ [0x37, 0x17, 0x13, 0x33, 0x1B, 0x3B] → ∃ t, exec (.umbelBaseInstruction n u) s = .next t ∧
        UmbDone n u m t (UmbWrote m (uRd w) (fun l => intVal w m.pc (m.reg l (uRs1 w)) (m.reg l (uRs2 w)))) ∧
        RegsBut [UMB_ISSUE n, UMB_RC n, UMB_DIV n] s t ∧ t.mem = s.mem) ∧
      (∀ f3 f7 (f : Word → Word → Word), (f3, f7, f) ∈ ([(0, 0, fun a b => a + b), (0, 0x20, fun a b => a - b),
          (1, 0, fun a b => a <<< (b.toNat % 64)), (2, 0, fun a b => if a.toInt < b.toInt then 1 else 0),
          (3, 0, fun a b => if a.toNat < b.toNat then 1 else 0), (4, 0, fun a b => a ^^^ b), (5, 0, fun a b => a >>> (b.toNat % 64)),
          (5, 0x20, fun a b => a.sshiftRight (b.toNat % 64)), (6, 0, fun a b => a ||| b), (7, 0, fun a b => a &&& b),
          (0, 1, fun a b => a * b)] : List (Nat × Nat × (Word → Word → Word))) →
        uOp w = 0x33 → uF3 w = f3 → uF7 w = f7 → ∃ t, exec (.umbelBaseInstruction n u) s = .next t ∧
          UmbDone n u m t (UmbWrote m (uRd w)
            (fun l => (f (BitVec.ofNat 64 (m.reg l (uRs1 w))) (BitVec.ofNat 64 (m.reg l (uRs2 w)))).toNat))) ∧
      (m.stack = [] → uOp w = 0x6F → plus64 m.pc (immJ w) % 4 = 0 → ∃ t k' m', exec (.umbelBaseInstruction n u) s = .next t ∧
        t.umb n u = some (k', m') ∧ m'.pc = plus64 m.pc (immJ w) ∧ lanesOf m'.active = lanesOf m.active ∧ m'.stack = [] ∧
        UmbWrote m (uRd w) (fun _ => m.pc + 4) m') ∧
      (∀ b, m.stack = [] → uOp w = 0x63 → (∀ l ∈ lanesOf m.active, brTaken (uF3 w) (m.reg l (uRs1 w)) (m.reg l (uRs2 w)) = b) →
        plus64 m.pc (immB w) % 4 = 0 → m.pc % 4 = 0 → ∃ t k' m', exec (.umbelBaseInstruction n u) s = .next t ∧
          t.umb n u = some (k', m') ∧ m'.pc = (if b then plus64 m.pc (immB w) else (m.pc + 4) % 2 ^ 64) ∧
          lanesOf m'.active = lanesOf m.active ∧ m'.stack = [] ∧ m'.regs = m.regs) ∧
      (∀ yes no, m.stack = [] → uOp w = 0x63 →
        yes = (lanesOf m.active).filter (fun l => brTaken (uF3 w) (m.reg l (uRs1 w)) (m.reg l (uRs2 w))) →
        no = (lanesOf m.active).filter (fun l => !brTaken (uF3 w) (m.reg l (uRs1 w)) (m.reg l (uRs2 w))) → yes ≠ [] → no ≠ [] →
        plus64 m.pc (immB w) % 4 = 0 → m.pc % 4 = 0 → plus64 m.pc (immB w) < (m.pc + 4) % 2 ^ 64 →
        ∃ t k' m', exec (.umbelBaseInstruction n u) s = .next t ∧ t.umb n u = some (k', m') ∧ m'.pc = plus64 m.pc (immB w) ∧
          lanesOf m'.active = yes ∧ m'.stack.map (fun p => (p.1, lanesOf p.2)) = [((m.pc + 4) % 2 ^ 64, no)] ∧ m'.live = m.live ∧
          m'.regs = m.regs)) ∧
    (∀ r, s.uReady n u = some (k, m) → uInfoOf k w = some i → i.src.find? (fun q => !m.rc.contains q) = some r → m.rc.length ≤ 8 →
      ∃ t k' m', exec (.registerFill n u) s = .next t ∧ t.umb n u = some (k', m') ∧ m'.rc.head? = some r ∧ m'.rc.length ≤ 8 ∧
        m'.pc = m.pc ∧ m'.regs = m.regs ∧ m'.active = m.active ∧ OnlyRegs [UMB_RC n] { s with tiles := t.tiles } t ∧
        t.rd (UMB_RC n) UMB_RC_FILL = (s.rd (UMB_RC n) UMB_RC_FILL + 1) % (UMB_RC_FILL.ones + 1)) ∧
    (∀ (ans : Answer) (s1 : State) (vals : List (Nat × Nat)), s.umb n u = some (k, m) → m.wait = .mem → uExt w = none →
      (baseRegs w).bind (fun p => uRegs k.work.desc p.1 p.2) = some i → uOp w = 0x03 →
      s.lanesLoad n k ((lanesOf m.active).map (fun l => (l, plus64 (m.reg l (uRs1 w)) (immI w)))) (2 ^ (uF3 w % 4)) (some ans)
        = (s1, .ok vals) →
      (vals.map (·.1)).Nodup → (s1.tile n).kern = (s.tile n).kern →
      ∃ t, exec (.umbelMemoryResponse n u ans) s = .next t ∧ t.mem = s1.mem ∧
        UmbDone n u m t (fun m' => ∀ p ∈ vals, uRd w ≠ 0 → m'.reg p.1 (uRd w) = loadExt false (uF3 w) p.2 % 2 ^ 64))

/-- Tile-store loads, stores and atomics of a thread: what each lane receives and what the store then holds. Choices of the
model it rests on: notes/assumptions/41.md, 52.md. -/
def Obligations.UmbelTileStore : Prop :=
  ∀ (s : State) (n : TileId) (u : UmbelId) (k : Kern) (m : Umb) (w : W32),
    (∀ (c : Instr) (x : UExt) (size : Nat) (ext : Nat → Nat),
      (c, x, size, ext) ∈ ([(.utlb n u, .utlb, 1, fun v => unsgn 64 (sgn 8 v)), (.utlh n u, .utlh, 2, fun v => unsgn 64 (sgn 16 v)),
        (.utlw n u, .utlw, 4, fun v => unsgn 64 (sgn 32 v)), (.utld n u, .utld, 8, fun v => v), (.utlbu n u, .utlbu, 1, fun v => v),
        (.utlhu n u, .utlhu, 2, fun v => v), (.utlwu n u, .utlwu, 4, fun v => v)] : List (Instr × UExt × Nat × (Nat → Nat))) →
      UmbAt s n u k m w x →
      (∀ l ∈ lanesOf m.active, plus64 (m.reg l (uRs1 w)) (immI w) % size = 0 ∧
        s.tsRight n rtU (plus64 (m.reg l (uRs1 w)) (immI w)) size = true ∧ s.tsPois n (plus64 (m.reg l (uRs1 w)) (immI w)) size = false) →
      ∃ t, exec c s = .next t ∧
        UmbDone n u m t (UmbWrote m (uRd w) (fun l => ext (leVal (s.tsBytes n (plus64 (m.reg l (uRs1 w)) (immI w)) size)))) ∧
        (t.tile n).store = (s.tile n).store ∧ RegsBut [UMB_ISSUE n, UMB_RC n, UMB_DIV n] s t ∧ t.mem = s.mem) ∧
    (∀ (c : Instr) (x : UExt) (size : Nat),
      (c, x, size) ∈ ([(.utsb n u, .utsb, 1), (.utsh n u, .utsh, 2), (.utsw n u, .utsw, 4), (.utsd n u, .utsd, 8)]
        : List (Instr × UExt × Nat)) →
      UmbAt s n u k m w x →
      (∀ l ∈ lanesOf m.active, plus64 (m.reg l (uRs1 w)) (immS w) % size = 0 ∧
        s.tsRight n rtU (plus64 (m.reg l (uRs1 w)) (immS w)) size = true ∧ s.guarded n (plus64 (m.reg l (uRs1 w)) (immS w)) size = false) →
      ∃ t, exec c s = .next t ∧ UmbDone n u m t (fun m' => m'.regs = m.regs) ∧
        (∀ l ∈ lanesOf m.active,
          (∀ l' ∈ lanesOf m.active, l < l' → plus64 (m.reg l' (uRs1 w)) (immS w) ≠ plus64 (m.reg l (uRs1 w)) (immS w)) →
          t.tsBytes n (plus64 (m.reg l (uRs1 w)) (immS w)) size = leBytes size (m.reg l (uRs2 w))) ∧
        (∀ a, (∀ l ∈ lanesOf m.active, a < plus64 (m.reg l (uRs1 w)) (immS w) ∨ plus64 (m.reg l (uRs1 w)) (immS w) + size ≤ a) →
          t.tsBytes n a 1 = s.tsBytes n a 1) ∧
        RegsBut [UMB_ISSUE n, UMB_RC n, UMB_DIV n] s t ∧ t.mem = s.mem) ∧
    (∀ (c : Instr) (x : UExt) (d : Nat),
      (c, x, d) ∈ ([(.uaadd n u, .uaadd, uRd w), (.uaswap n u, .uaswap, uRd w), (.uacas n u, .uacas, uRd w), (.uaxor n u, .uaxor, uRd w),
        (.uaor n u, .uaor, uRd w), (.uaand n u, .uaand, uRd w), (.uamin n u, .uamin, uRd w), (.uamax n u, .uamax, uRd w),
        (.uaminu n u, .uaminu, uRd w), (.uamaxu n u, .uamaxu, uRd w), (.ufadd n u, .ufadd, uRd w + 32)] : List (Instr × UExt × Nat)) →
      UmbAt s n u k m w x → bitAt w 14 = true → (x = .ufadd → s.det = false) →
      (∀ l ∈ lanesOf m.active, m.reg l (uRs1 w) % atomSize w = 0 ∧ s.tsRight n rtU (m.reg l (uRs1 w)) (atomSize w) = true ∧
        s.tsPois n (m.reg l (uRs1 w)) (atomSize w) = false ∧ s.guarded n (m.reg l (uRs1 w)) (atomSize w) = false) →
      ∃ t, exec c s = .next t ∧
        UmbDone n u m t (fun m' =>
          (∀ a ls, ls = (lanesOf m.active).filter (fun l => m.reg l (uRs1 w) == a) →
            ∀ p ∈ (atomLanes x w m (leVal (s.tsBytes n a (atomSize w))) ls).1, d ≠ 0 → m'.reg p.1 d = atomResult x w p.2 % 2 ^ 64) ∧
          ∀ l r, r < 64 → (l ∈ lanesOf m.active → r ≠ d) → m'.reg l r = m.reg l r) ∧
        (∀ a ls, ls = (lanesOf m.active).filter (fun l => m.reg l (uRs1 w) == a) → ls ≠ [] →
          t.tsBytes n a (atomSize w)
            = leBytes (atomSize w) (atomLanes x w m (leVal (s.tsBytes n a (atomSize w))) ls).2) ∧
        (∀ a, (∀ l ∈ lanesOf m.active, a < m.reg l (uRs1 w) ∨ m.reg l (uRs1 w) + atomSize w ≤ a) →
          t.tsBytes n a 1 = s.tsBytes n a 1) ∧
        RegsBut [UMB_ISSUE n, UMB_RC n, UMB_DIV n, UMB_ATOM n, EPO_STAT n] s t ∧ t.mem = s.mem) ∧
    (∀ (x : UExt) (l o v b : Nat) (f : Nat → Nat → Nat), b = 8 * atomSize w →
      (x, f) ∈ ([(.uaadd, fun o v => (o + v) % 2 ^ b), (.uaswap, fun _ v => v), (.uaxor, fun o v => o ^^^ v), (.uaor, fun o v => o ||| v),
        (.uaand, fun o v => o &&& v), (.uamin, fun o v => if sgn b o ≤ sgn b v then o else v),
        (.uamax, fun o v => if sgn b o ≤ sgn b v then v else o), (.uaminu, fun o v => if o ≤ v then o else v),
        (.uamaxu, fun o v => if o ≤ v then v else o), (.uacas, fun o v => if m.reg l (uRd w) % 2 ^ b = o then v else o)]
          : List (UExt × (Nat → Nat → Nat))) →
      v = m.reg l (uRs2 w) % 2 ^ b → atomLanes x w m o [l] = ([(l, o)], f o v))

/-- Group-wide instructions and conversions: UMMA, the shuffles, UBALLOT, UCVT.O and UCVT.I. Barriers, semaphores and stream
ports of a thread. Choices of the model it rests on: notes/assumptions/41.md, 51.md, 52.md, 53.md. -/
def Obligations.UmbelGroupAndSync : Prop :=
  (∀ (s : State) (n : TileId) (u : UmbelId) (k : Kern) (m : Umb) (w : W32),
     (m.active = 2 ^ 32 - 1 ∨ kDiv k.work.desc = true →
       (∀ fa fb b0, fa = uF7 w / 16 → fb = uF7 w / 2 % 8 → b0 = m.low (uRs2 w) → UmbAt s n u k m w .umma → b0 % 64 = 0 →
         s.tsRight n rtU b0 512 = true → s.tsPois n b0 512 = false →
         (∀ l ∈ lanesOf m.active, m.reg l (uRs1 w) % 64 = 0 ∧ s.tsRight n rtU (m.reg l (uRs1 w)) 64 = true ∧
           s.tsPois n (m.reg l (uRs1 w)) 64 = false) →
         ∃ t, exec (.umma n u) s = .next t ∧
           UmbDone n u m t (fun m' =>
             (∀ l ∈ lanesOf m.active, ∀ j, j < 8 → m'.reg l (uRd w + j + 32)
               = box32 (toB32 (ummaVal fa fb (decIeee fB32 (unbox32 (m.reg l (uRd w + j + 32))))
                   (rowElems fa (s.tsBytes n (m.reg l (uRs1 w)) 64)) (rowElems fb (s.tsBytes n (b0 + 64 * j) 64))))) ∧
             ∀ l r, r < 64 → (l ∈ lanesOf m.active → r < uRd w + 32 ∨ uRd w + 40 ≤ r) → m'.reg l r = m.reg l r) ∧
           (t.tile n).store = (s.tile n).store ∧ RegsBut [UMB_ISSUE n, UMB_RC n, UMB_DIV n] s t ∧ t.mem = s.mem) ∧
       (∀ (c : Instr) (x : UExt) (from_ : Nat → Nat) (f : Nat),
         (c, x, from_) ∈ ([(.ushflIdx n u, .ushflIdx, fun l => m.reg l (uRs2 w) % 32), (.ushflXor n u, .ushflXor, fun l => l ^^^ uRs2 w),
           (.ushflUp n u, .ushflUp, fun l => if l < uRs2 w then l else l - uRs2 w),
           (.ushflDown n u, .ushflDown, fun l => if 31 < l + uRs2 w then l else l + uRs2 w),
           (.ushflBcast n u, .ushflBcast, fun _ => uRs2 w)] : List (Instr × UExt × (Nat → Nat))) →
         f = (if bitAt w 28 then 32 else 0) → UmbAt s n u k m w x →
         ∃ t, exec c s = .next t ∧
           UmbDone n u m t (UmbWrote m (uRd w + f)
             (fun l => if from_ l ∈ lanesOf m.active then m.reg (from_ l) (uRs1 w + f) else 0)) ∧
           (t.tile n).store = (s.tile n).store ∧ RegsBut [UMB_ISSUE n, UMB_RC n, UMB_DIV n] s t ∧ t.mem = s.mem) ∧
       (UmbAt s n u k m w .uballot → ∃ t v, exec (.uballot n u) s = .next t ∧ UmbDone n u m t (UmbWrote m (uRd w) (fun _ => v)) ∧
         v < 2 ^ 32 ∧ (∀ l, v.testBit l = decide (l ∈ lanesOf m.active ∧ m.reg l (uRs1 w) ≠ 0)) ∧
         (t.tile n).store = (s.tile n).store ∧ RegsBut [UMB_ISSUE n, UMB_RC n, UMB_DIV n] s t ∧ t.mem = s.mem)) ∧
     (∀ (fo : Nat) (f : Fmt) (vs : List (V × Nat)), UmbAt s n u k m w .ucvtO → fo = idxFmt (uF7 w / 8 % 8) → fmtOf fo = some f →
       vs = (List.range 32).map (fun l => (if l ∈ lanesOf m.active then decIeee fB32 (unbox32 (m.reg l (uRs1 w + 32))) else V.zero,
         srRandom (nbits (m.low (uRd w)) 31 0) ((32 * nbits (m.low (uRd w)) 63 32 + l) % 2 ^ 64))) →
       m.low (uRs2 w) % 64 = 0 → s.tsRight n rtU (m.low (uRs2 w)) 64 = true → s.guarded n (m.low (uRs2 w)) 64 = false →
       ∃ t, exec (.ucvtO n u) s = .next t ∧ UmbDone n u m t (fun m' => m'.regs = m.regs) ∧
         (isMx fo = false → t.tsBytes n (m.low (uRs2 w)) 64
           = packRow (fmtBits fo) (vs.map (fun p => (encOut f (rmodeOf (uF7 w / 2 % 4)) (bitAt w 25) p.2 p.1).1))) ∧
         (isMx fo = true →
           t.tsBytes n (m.low (uRs2 w) + 32) 1 = [BitVec.ofNat 8 (encBlockAt fo f (rmodeOf (uF7 w / 2 % 4)) (bitAt w 25)
             (blockScale fo f (rmodeOf (uF7 w / 2 % 4)) vs) vs).2.1] ∧ t.tsBytes n (m.low (uRs2 w) + 33) 31 = List.replicate 31 0) ∧
         (∀ a, a < m.low (uRs2 w) ∨ m.low (uRs2 w) + 64 ≤ a → t.tsBytes n a 1 = s.tsBytes n a 1) ∧
         RegsBut [UMB_ISSUE n, UMB_RC n, UMB_DIV n, ARR_CVT n] s t ∧ t.mem = s.mem) ∧
     (∀ (i fi : Nat), UmbAt s n u k m w .ucvtI → i = uF7 w / 8 % 8 → fi = idxFmt i → m.low (uRs1 w) % 64 = 0 →
       s.tsRight n rtU (m.low (uRs1 w)) 64 = true → s.tsPois n (m.low (uRs1 w)) 64 = false →
       ∃ t, exec (.ucvtI n u) s = .next t ∧
         UmbDone n u m t (UmbWrote m (uRd w + 32) (fun l => box32 (toB32 (inConv fB32
           (if isMx fi then mxValue fi ((rowElems i (s.tsBytes n (m.low (uRs1 w)) 64)).1.getD l 0)
               (rowElems i (s.tsBytes n (m.low (uRs1 w)) 64)).2
             else decElem fi ((rowElems i (s.tsBytes n (m.low (uRs1 w)) 64)).1.getD l 0))).1))) ∧
         (t.tile n).store = (s.tile n).store ∧ RegsBut [UMB_ISSUE n, UMB_RC n, UMB_DIV n, ARR_CVT n] s t ∧ t.mem = s.mem)) ∧
  (∀ (s : State) (n : TileId) (u : UmbelId) (k : Kern) (m : Umb) (w : W32),
     (UmbAt s n u k m w .ubar → m.active = m.live → ∃ t k' m', exec (.ubar n u) s = .next t ∧ t.umb n u = some (k', m') ∧
       m'.wait = .bar ∧ m'.pc = m.pc ∧ m'.regs = m.regs ∧ RegsBut [UMB_ISSUE n, UMB_RC n, UMB_DIV n] s t ∧ t.mem = s.mem) ∧
     ((s.tile n).kern = some k → k.abort = none → (∀ p ∈ k.umbels, p.2.wait = .bar ∧ (p.1 = u.val → p.2 = m)) →
       mfind k.umbels u = some m → lanesOf m.active ≠ [] →
       ∃ t, exec (.ubarRelease n) s = .next t ∧ UmbDone n u m t (fun m' => m'.regs = m.regs) ∧ t.mem = s.mem) ∧
     (∀ (bs : List Byte) (s1 : State), UmbAt s n u k m w .usemwait → m.low (uRs1 w) % 8 = 0 →
       s.vread (tileDie n) (s.kPasid k) (m.low (uRs1 w)) 8 .read false = (s1, .ok bs false) → (s1.tile n).kern = (s.tile n).kern →
       (m.low (uRs2 w) ≤ leVal bs → (∀ p ∈ (s1.tile n).l1, p.2.dirty = 0) → ∃ t, exec (.usemwait n u) s = .next t ∧
         UmbDone n u m t (UmbWrote m (uRd w) (fun _ => leVal bs)) ∧ (t.tile n).l1 = [] ∧ t.mem = s1.mem) ∧
       (leVal bs < m.low (uRs2 w) → ∃ t k' m', exec (.usemwait n u) s = .next t ∧ t.umb n u = some (k', m') ∧ m'.wait = .sem ∧
         m'.pc = m.pc ∧ m'.regs = m.regs ∧ t.mem = s1.mem)) ∧
     (∀ (bs : List Byte) (s1 : State) (i : UInfo), s.umb n u = some (k, m) → m.wait = .sem → s.uFetch n k m = (s, .word w) →
       uInfoOf k w = some i → lanesOf m.active ≠ [] → m.low (uRs1 w) % 8 = 0 →
       s.vread (tileDie n) (s.kPasid k) (m.low (uRs1 w)) 8 .read false = (s1, .ok bs false) → (s1.tile n).kern = (s.tile n).kern →
       (m.low (uRs2 w) ≤ leVal bs → (∀ p ∈ (s1.tile n).l1, p.2.dirty = 0) → ∃ t, exec (.semaphorePoll n (some u)) s = .next t ∧
         UmbDone n u m t (UmbWrote m (uRd w) (fun _ => leVal bs)) ∧ (t.tile n).l1 = [] ∧ t.mem = s1.mem) ∧
       (leVal bs < m.low (uRs2 w) → ∃ t k' m', exec (.semaphorePoll n (some u)) s = .next t ∧ t.umb n u = some (k', m') ∧
         m'.wait = .sem ∧ m'.pc = m.pc ∧ m'.regs = m.regs ∧ t.mem = s1.mem)) ∧
     (∀ pa, m.low (uRs1 w) % 8 = 0 → s.xlate (tileDie n) (s.kPasid k) (m.low (uRs1 w)) .write = .pa pa false → s.atomOk pa = true →
       s.guarded n (m.low (uRs1 w)) 8 = false →
       (UmbAt s n u k m w .usempost → ∃ t k' m', exec (.usempost n u) s = .next t ∧ t.umb n u = some (k', m') ∧ m'.wait = .mem ∧
         m'.pc = m.pc ∧ m'.regs = m.regs ∧ t.mem = s.mem) ∧
       (∀ s2 i, s.umb n u = some (k, m) → m.wait = .mem → s.uFetch n k m = (s, .word w) → uExt w = some .usempost →
         extInfo k .usempost w = some i → lanesOf m.active ≠ [] →
         ((s.l1FlushAll n).l1Inv n (alignDown pa 64)).semRelease n pa (m.low (uRs2 w)) = (s2, .ok) →
         (s2.tile n).kern = (s.tile n).kern → ∃ t, exec (.umbelMemoryResponse n u .ok) s = .next t ∧ t.mem = s2.mem ∧
           UmbDone n u m t (fun m' => m'.regs = m.regs))) ∧
     (∀ (p off cnt j : Nat) (d : PortDecl), p = uF7 w % 8 → off = m.low (uRs1 w) → cnt = m.low (uRs2 w) → 1 ≤ cnt → cnt ≤ 64 →
       off % 64 = 0 → m.moved = 0 → s.portDecl n p = some d → s.portSt n p = psReady → s.umbelRoute n p d.out = true → s.portRight n p = true →
       s.tsRight n rtU off (64 * cnt) = true →
       (∀ c x, (c, x) ∈ ([(.usput n u, .usput), (.ustryput n u, .ustryput)] : List (Instr × UExt)) → UmbAt s n u k m w x → d.out = true →
         (x = .usput → cnt ≤ (s.port n p).credits) → j = min cnt (s.port n p).credits →
         (s.resil = true → (s.portBind n p).1 = 1 → (s.port n p).retained.length + j ≤ d.depth) →
         ∃ t, exec c s = .next t ∧ UmbDone n u m t (UmbWrote m (uRd w) (fun _ => j)) ∧
           t.mesh.map (·.chunk) = s.mesh.map (·.chunk) ++ (List.range j).map (fun q =>
             { data := BitVec.ofNat 512 (leVal (s.tsBytes n (off + 64 * q) 64)), poison := s.tsPois n (off + 64 * q) 64,
               seq := (s.port n p).nextSeq + q }) ∧
           (∀ e ∈ t.mesh.drop s.mesh.length, (e.kind, e.tile, e.port)
             = if (s.portBind n p).1 = 1 then (0, (s.portBind n p).2.1, (s.portBind n p).2.2) else ((s.portBind n p).1, n.val, p)) ∧
           (t.port n p).credits = (s.port n p).credits - j ∧ (t.port n p).nextSeq = (s.port n p).nextSeq + j ∧
           (t.tile n).store = (s.tile n).store ∧ t.mem = s.mem) ∧
       (∀ c x, (c, x) ∈ ([(.usget n u, .usget), (.ustryget n u, .ustryget)] : List (Instr × UExt)) → UmbAt s n u k m w x → d.out = false →
         (x = .usget → cnt ≤ (s.port n p).fifo.length) → j = min cnt (s.port n p).fifo.length → s.guarded n off (64 * cnt) = false →
         ∃ t, exec c s = .next t ∧ UmbDone n u m t (UmbWrote m (uRd w) (fun _ => j)) ∧
           t.tsBytes n off (64 * j) = ((s.port n p).fifo.take j).flatMap (fun c => leBytes 64 c.data.toNat) ∧
           (∀ a, a < off ∨ off + 64 * j ≤ a → t.tsBytes n a 1 = s.tsBytes n a 1) ∧ (t.port n p).fifo = (s.port n p).fifo.drop j ∧
           (t.port n p).owed = (s.port n p).owed + j ∧ t.mesh = s.mesh ∧ t.mem = s.mem)))

/-- A group-wide instruction issued with a lane inactive, while DIVMODE is 0, raises cause 24: no lane is changed, the umbel
stays at the instruction, the record takes the cause while it is free, and the kernel's abort begins. -/
def Obligations.DivergentGroup : Prop :=
  ∀ (s : State) (n : TileId) (u : UmbelId) (k : Kern) (m : Umb) (w : W32) (c : Instr) (x : UExt),
    (c, x) ∈ ([(.umma n u, .umma), (.ushflIdx n u, .ushflIdx), (.ushflXor n u, .ushflXor), (.ushflUp n u, .ushflUp),
      (.ushflDown n u, .ushflDown), (.ushflBcast n u, .ushflBcast), (.uballot n u, .uballot)] : List (Instr × UExt)) →
    UmbAt s n u k m w x → kDiv k.work.desc = false → m.active ≠ 2 ^ 32 - 1 →
    ∃ t k' m', exec c s = .next t ∧ t.umb n u = some (k', m') ∧ k'.abort = some stKrnException ∧ m'.regs = m.regs ∧ m'.pc = m.pc ∧
      m'.active = m.active ∧ m'.fcsr = m.fcsr ∧ (t.tile n).store = (s.tile n).store ∧ t.mem = s.mem ∧
      (s.flag (UMB_EXC0 n) UMB_EXC0_VALID = false → t.flag (UMB_EXC0 n) UMB_EXC0_VALID = true ∧
        t.rd (UMB_EXC0 n) UMB_EXC0_CAUSE = 24 ∧ t.rd (UMB_EXC0 n) UMB_EXC0_UMBEL = u.val) ∧
      RegsBut [UMB_EXC0 n, UMB_EXC1 n, UMB_EXC2 n, UMB_STATUS n, UMB_ISSUE n, UMB_RC n, UMB_DIV n] s t

/-- Epoch control by umbel 0, and the maintenance of the tile L1. Choices of the model it rests on: notes/assumptions/52.md. -/
def Obligations.UmbelEpochsAndL1 : Prop :=
  ∀ (s : State) (n : TileId) (u : UmbelId) (k : Kern) (m : Umb) (w : W32),
    (u = 0 → m.active = m.live → s.spw.run = none →
      (UmbAt s n u k m w .uepopen → s.epoSt n = esClosed → s.epoHeld n = false → ∃ t k' m', exec (.uepopen n u) s = .next t ∧
        t.epoSt n = esOpen ∧ t.epoNum n = (s.epoNum n + 1) % 2 ^ 63 ∧ t.umb n u = some (k', m') ∧
        m'.wait = (if s.resil then .epo else .none) ∧ UmbWrote m (uRd w) (fun _ => (s.epoNum n + 1) % 2 ^ 63) m' ∧
        (t.epo n).opening = s.resil ∧ t.mem = s.mem ∧
        RegsBut [EPO_STAT n, EPO_NUM n, EPO_MODE, UMB_ISSUE n, UMB_RC n, UMB_DIV n] s t) ∧
      (UmbAt s n u k m w .uepopen → s.epoSt n = esReplay → (s.epo n).relaunch = true → ∃ t k' m', exec (.uepopen n u) s = .next t ∧
        t.epoSt n = esReplay ∧ t.epoNum n = s.epoNum n ∧ (t.epo n).relaunch = false ∧ t.umb n u = some (k', m') ∧
        UmbWrote m (uRd w) (fun _ => s.epoNum n) m' ∧ RegsBut [UMB_ISSUE n, UMB_RC n, UMB_DIV n] s t ∧ t.mem = s.mem) ∧
      (UmbAt s n u k m w .uepcommit → s.epoSt n = esOpen → (s.epo n).committer = 0 →
        ∃ t k' m', exec (.uepcommit n u) s = .next t ∧ t.umb n u = some (k', m') ∧ m'.regs = m.regs ∧ t.mem = s.mem ∧
          (s.resil = true → t.epoSt n = esSealing ∧ (t.epo n).committer = 2 ∧ m'.wait = .epo) ∧
          (s.resil = false → t.epoSt n = esClosed ∧ (t.epo n).committed = s.epoNum n ∧ m'.wait = .none ∧ k'.epochs = k.epochs + 1)) ∧
      (UmbAt s n u k m w .uepguard → s.epoSt n = esClosed → ∃ t, exec (.uepguard n u) s = .next t ∧
        t.rd (EPO_GUARD_LO n (uRd w)) EPO_GUARD_LO_LO = m.low (uRs1 w) % 2 ^ 56 ∧
        t.rd (EPO_GUARD_HI n (uRd w)) EPO_GUARD_HI_HI = m.low (uRs2 w) % 2 ^ 56 ∧ UmbDone n u m t (fun m' => m'.regs = m.regs) ∧
        RegsBut [EPO_GUARD_LO n (uRd w), EPO_GUARD_HI n (uRd w), UMB_ISSUE n, UMB_RC n, UMB_DIV n] s t ∧ t.mem = s.mem)) ∧
    ((∀ p ∈ (s.tile n).l1, p.2.dirty = 0) →
      (∀ c x, (c, x) ∈ ([(.ul1flush n u, .ul1flush), (.ul1flushall n u, .ul1flushall)] : List (Instr × UExt)) → UmbAt s n u k m w x →
        (x = .ul1flush → ∀ l ∈ lanesOf m.active, s.xlate (tileDie n) (s.kPasid k) (m.reg l (uRs1 w)) .read ≠ .miss) →
        ∃ t, exec c s = .next t ∧ UmbDone n u m t (fun m' => m'.regs = m.regs) ∧ (t.tile n).l1 = (s.tile n).l1 ∧
          RegsBut [UMB_ISSUE n, UMB_RC n, UMB_DIV n] s t ∧ t.mem = s.mem) ∧
      (UmbAt s n u k m w .ul1invall → ∃ t, exec (.ul1invall n u) s = .next t ∧ UmbDone n u m t (fun m' => m'.regs = m.regs) ∧
        (t.tile n).l1 = [] ∧ RegsBut [UMB_ISSUE n, UMB_RC n, UMB_DIV n] s t ∧ t.mem = s.mem) ∧
      (∀ c x, (c, x) ∈ ([(.ul1flush n u, .ul1flush), (.ul1inv n u, .ul1inv)] : List (Instr × UExt)) → UmbAt s n u k m w x →
        (∃ l ∈ lanesOf m.active, s.xlate (tileDie n) (s.kPasid k) (m.reg l (uRs1 w)) .read = .miss) →
        ∃ t k' m', exec c s = .next t ∧ t.umb n u = some (k', m') ∧ m'.wait = .mem ∧ m'.pc = m.pc ∧ m'.regs = m.regs ∧
          (t.tile n).l1 = (s.tile n).l1 ∧ RegsBut [UMB_ISSUE n, UMB_RC n, UMB_DIV n] s t ∧ t.mem = s.mem) ∧
      (UmbAt s n u k m w .ul1inv →
        (∀ l ∈ lanesOf m.active, s.xlate (tileDie n) (s.kPasid k) (m.reg l (uRs1 w)) .read ≠ .miss) → ∃ t, exec (.ul1inv n u) s = .next t ∧ UmbDone n u m t (fun m' => m'.regs = m.regs) ∧
        (∀ l ∈ lanesOf m.active, ∀ pa, s.xlate (tileDie n) (s.kPasid k) (m.reg l (uRs1 w)) .read = .pa pa false →
          s.l1Caches { k with l1en := true } pa false = true → t.l1Line n (alignDown pa 64) = none) ∧
        (∀ line, t.l1Line n line = s.l1Line n line ∨ t.l1Line n line = none) ∧
        RegsBut [UMB_ISSUE n, UMB_RC n, UMB_DIV n] s t ∧ t.mem = s.mem)) ∧
    (∀ (line b len : Nat) (x : L1Line) (s1 : State), (s.tile n).l1 = [(line, x)] → maskRuns x.dirty = [(b, len)] →
      s1 = (s.busWrite (tileDie n) false (line + b) (slice (leBytes 64 x.data.toNat) b len) false).1 → s1.tiles = s.tiles →
      (UmbAt s n u k m w .ul1flushall → ∃ t, exec (.ul1flushall n u) s = .next t ∧ t.mem = s1.mem ∧
        t.l1Line n line = some { x with dirty := 0 } ∧ UmbDone n u m t (fun m' => m'.regs = m.regs)) ∧
      (UmbAt s n u k m w .ul1invall → ∃ t, exec (.ul1invall n u) s = .next t ∧ t.mem = s1.mem ∧ (t.tile n).l1 = [] ∧
        UmbDone n u m t (fun m' => m'.regs = m.regs)))


/-! ### Matrix arrays, Loupe, Speedwell (spec/03, 05, 09) -/

/-- Matrix descriptors and clover commands: what starts, what a weight fill and a set leave, and a stop under R85. Drains: an
output tile drains, is converted or tried again with raised codes, and retires with its rows written. Choices of the model it
rests on: notes/assumptions/48.md, 49.md. -/
def Obligations.Matrix : Prop :=
  (∀ (s : State) (n : TileId),
     (∀ w pos, s.matSrc n = some (w, pos) → s.tst n = tsReady ∨ s.tst n = tsBusy → (s.tile n).mat = none → (s.tile n).outs = [] →
       s.haltNow n = false ∨ (s.tile n).seq.held = some w →
       (matBad w.desc = false → matM w.desc ≠ 0 → matN w.desc ≠ 0 → (s.resil = true → tileClocks w.desc ≤ 150000) →
         ∃ t, exec (.matrix n) s = .next t ∧ (t.tile n).mat = some (newJob w pos
           (if matK w.desc = 0 then .edge else if s.mvpOk n w.desc then .mvp else .clover)) ∧ (t.tile n).outs = [] ∧
           (t.tile n).store = (s.tile n).store ∧ RegsBut [ARR_STAT n] s t ∧ t.mem = s.mem) ∧
       (matBad w.desc = true → exec (.matrix n) s = .next ((s.bump (ARR_ERR n) ARR_ERR_MALFORMED).matEnd n w pos 0x30)) ∧
       (matBad w.desc = false → matM w.desc = 0 ∨ matN w.desc = 0 →
         exec (.matrix n) s = .next ((s.wrap (ARR_STAT n) ARR_STAT_DESC_EMPTY 1).matEnd n w pos 0))) ∧
     (∀ (j : MatJob) (b : WBlk) (x : Bool) (s1 : State) (at_ : Nat × Nat), (s.tile n).mat = some j → j.path = .clover →
       j.active = none ∨ j.filling = none → at_ = (if j.active.isNone then (j.ot, j.set) else nextSet j.work.desc j.ot j.set) →
       at_.1 < matTiles j.work.desc →
       s.readBlock (tileDie n) (s.jobPasid j) (matB j.work.desc) (matSparse j.work.desc) (tileCol0 j.work.desc at_.1)
         (tileCols j.work.desc at_.1) (at_.2 * matSpan j.work.desc) (matSpan j.work.desc) = (s1, some b, x) → s1.tile n = s.tile n →
       ∃ t, exec (.weightFillComplete n) s = .next t ∧
         (t.tile n).mat = some (if j.active.isNone then { j with active := some b } else { j with filling := some b }) ∧
         (t.tile n).outs = (s.tile n).outs ∧ t.regs = s1.regs ∧ t.mem = s1.mem) ∧
     (∀ c r, (s.tile n).mat = none → (s.tile n).clv = c :: r →
       ((s.tile n).wblk = none → ∃ t b, exec (.weightFillComplete n) s = .next t ∧ (t.tile n).wblk = some b ∧
         b.cols.length = cmdCols c ∧ b = s.cmdFill n c ∧ (t.tile n).wnext = (s.tile n).wnext ∧ (t.tile n).clv = (s.tile n).clv ∧
         t.regs = s.regs ∧ t.mem = s.mem) ∧
       (∀ b1 c2 r2, (s.tile n).wblk = some b1 → (s.tile n).wnext = none → r = c2 :: r2 →
         ∃ t b, exec (.weightFillComplete n) s = .next t ∧ (t.tile n).wnext = some b ∧ b.cols.length = cmdCols c2 ∧
           b = s.cmdFill n c2 ∧ (t.tile n).wblk = some b1 ∧ (t.tile n).clv = (s.tile n).clv ∧ t.regs = s.regs ∧ t.mem = s.mem)) ∧
     (∀ (j : MatJob) (b : WBlk) (rows : List Seg) (p : Bool) (s1 : State), (s.tile n).mat = some j → j.path = .clover →
       j.active = some b → j.ot < matTiles j.work.desc →
       s.readSegs (tileDie n) (s.jobPasid j) (matA j.work.desc) (tileRow0 j.work.desc j.ot) (tileRows j.work.desc j.ot)
         (j.set * matSpan j.work.desc) (matSpan j.work.desc) = (s1, .ok rows p) → s1.tile n = s.tile n →
       (j.set = 0 → (s.tile n).outs.any (fun o => o.bank == j.ot % 2) = false →
         ∃ t o, exec (.setComplete n) s = .next t ∧ (t.tile n).outs = (s.tile n).outs ++ [o] ∧ o.bank = j.ot % 2 ∧
           o.rows = tileRows j.work.desc j.ot ∧ o.cols = tileCols j.work.desc j.ot ∧
           o.acc = addSet (matFa j.work.desc) (matFb j.work.desc) (List.replicate (o.rows * o.cols) V.zero) rows b.cols ∧
           o.poison = (b.poison || p) ∧ o.phase = (if matSets j.work.desc = 1 then .wait else .acc) ∧
           (t.tile n).mat = some { j with ot := (nextSet j.work.desc j.ot 0).1, set := (nextSet j.work.desc j.ot 0).2,
                                          active := j.filling, filling := none } ∧ t.regs = s1.regs ∧ t.mem = s1.mem) ∧
       (∀ o, j.set ≠ 0 → (s.tile n).outs = [o] → o.bank = j.ot % 2 →
         ∃ t o', exec (.setComplete n) s = .next t ∧ (t.tile n).outs = [o'] ∧ o'.bank = o.bank ∧ o'.rows = o.rows ∧ o'.cols = o.cols ∧
           o'.acc = addSet (matFa j.work.desc) (matFb j.work.desc) o.acc rows b.cols ∧ o'.poison = (o.poison || b.poison || p) ∧
           (j.set + 1 = matSets j.work.desc → o'.phase = .wait) ∧ (j.set + 1 ≠ matSets j.work.desc → o'.phase = o.phase) ∧
           (t.tile n).mat = some { j with ot := (nextSet j.work.desc j.ot j.set).1, set := (nextSet j.work.desc j.ot j.set).2,
                                          active := j.filling, filling := none } ∧ t.regs = s1.regs ∧ t.mem = s1.mem)) ∧
     (∀ (c : Line) (r : List Line) (b : WBlk) (b0 : Bank) (rows : List Seg) (sums : List V), (s.tile n).mat = none →
       (s.tile n).clv = c :: r → r.length < 4 → (s.tile n).wblk = some b → s.bankHeld n (cmdBank c) = false → (s.tile n).seq.fault = none →
       b0 = (if cmdFirst c then Bank.zero else mget Bank.zero (s.tile n).banks (cmdBank c)) →
       rows = (List.range (cmdRows c)).map (fun i => stagedSeg (cmdFa c) (cmdSpan c) (cmdKlen c)
         (s.tsBytes n (cmdAct c + i * cmdActStride c) (stagedRow (cmdFa c) (cmdSpan c)))) →
       sums = addSet (cmdFa c) (cmdFb c) (b0.part (cmdRows c) (cmdCols c)) rows b.cols → sums.length = cmdRows c * cmdCols c →
       ∃ t b', exec (.setComplete n) s = .next t ∧ (t.tile n).clv = r ∧ (t.tile n).wblk = (s.tile n).wnext ∧ (t.tile n).wnext = none ∧
         t.rd (TIL_SEQ_STAT n) TIL_SEQ_STAT_CLV_OCC = r.length ∧ b' = mget Bank.zero (t.tile n).banks (cmdBank c) ∧
         b'.live = !cmdLast c ∧
         (∀ i, i < cmdRows c → ∀ k, k < cmdCols c →
           b'.at i k = if cmdUses c k then sums.getD (i * cmdCols c + k) V.zero else b0.at i k) ∧
         (cmdLast c = false → (t.tile n).outs = (s.tile n).outs) ∧
         (cmdLast c = true → ∃ o, (t.tile n).outs = (s.tile n).outs ++ [o] ∧ o.bank = cmdBank c ∧ o.rows = cmdRows c ∧
           o.cols = cmdCols c ∧ o.phase = .wait ∧ o.cmd = some c ∧ o.acc = b'.part (cmdRows c) (cmdCols c)) ∧
         RegsBut [TIL_SEQ_STAT n] s t ∧ t.mem = s.mem) ∧
     (∀ (c : Line) (r : List Line) (b0 : Bank) (rows : List Seg) (cols : List (List (List Nat) × List Nat)) (sums : List V),
       (s.tile n).mat = none → (s.tile n).mvc = c :: r → s.bankHeld n 2 = false → (s.tile n).seq.fault = none →
       b0 = (if cmdFirst c then Bank.zero else mget Bank.zero (s.tile n).banks 2) →
       rows = (List.range (cmdRows c)).map (fun i => stagedSeg (cmdFa c) (cmdSpan c) (cmdKlen c)
         (s.tsBytes n (cmdAct c + i * cmdActStride c) (stagedRow (cmdFa c) (cmdSpan c)))) →
       cols = (List.range (cmdCols c)).map (fun i => denseCol (stagedSeg (cmdFb c) (cmdSpan c) (cmdKlen c)
         (s.tsBytes n (cmdWgt c + i * stagedRow (cmdFb c) (cmdSpan c)) (stagedRow (cmdFb c) (cmdSpan c))))) →
       sums = addSet (cmdFa c) (cmdFb c) (b0.part (cmdRows c) (cmdCols c)) rows cols → sums.length = cmdRows c * cmdCols c →
       ∃ t b', exec (.mvpDescriptorEnd n) s = .next t ∧ (t.tile n).mvc = r ∧ b' = mget Bank.zero (t.tile n).banks 2 ∧
         b'.live = !cmdLast c ∧
         (∀ i, i < cmdRows c → ∀ k, k < cmdCols c → b'.at i k = sums.getD (i * cmdCols c + k) V.zero) ∧
         (cmdLast c = false → (t.tile n).outs = (s.tile n).outs) ∧
         (cmdLast c = true → ∃ o, (t.tile n).outs = (s.tile n).outs ++ [o] ∧ o.bank = 2 ∧ o.rows = cmdRows c ∧ o.cols = cmdCols c ∧
           o.phase = .wait ∧ o.cmd = some c ∧ o.acc = sums) ∧ RegsBut [TIL_SEQ_STAT n] s t ∧ t.mem = s.mem) ∧
     (∀ j, (s.tile n).mat = some j → (s.tile n).seq.held = some j.work → (s.tile n).seq.fault = none → s.journaled n = true →
       (s.epo n).jrnl.length < journalCap →
       ∃ t, exec (.matFault n) s = .next t ∧ (t.tile n).mat = none ∧ (t.tile n).seq.held = none ∧ (t.tile n).matStop = true ∧
         (t.tile n).outs = (s.tile n).outs.filter (fun o => o.cmd.isSome) ∧ (t.tile n).seq.worst = 0x31 ∧
         (t.epo n).jrnl = (s.epo n).jrnl ++ [⟨j.pos, jkCompletion, 0, 0x31, some j.work, false⟩] ∧
         t.rd (ARR_ERR n) ARR_ERR_FAULT = min (s.rd (ARR_ERR n) ARR_ERR_FAULT + 1) ARR_ERR_FAULT.ones ∧
         RegsBut [ARR_ERR n, TIL_SEQ_STAT n, EPO_STAT n] s t ∧ t.mem = s.mem)) ∧
  (∀ (s : State) (n : TileId) (o : OutTile),
     (draining (s.tile n).outs = false → (s.tile n).outs.find? (fun o => o.phase == .wait) = some o →
       (∀ (j : MatJob) (cs : List V) (cnt : CvtCnt) (pois : Bool) (s1 : State), (s.tile n).mat = some j → o.cmd = none →
         s.readC n j o.row0 o.rows o.col0 o.cols = (s1, .ok cs cnt pois) → s1.tile n = s.tile n →
         ∃ t o', exec (.drainStart n) s = .next t ∧ o' ∈ (t.tile n).outs ∧ o'.bank = o.bank ∧ o'.phase = .drain ∧ o'.rows = o.rows ∧
           o'.acc = (List.range o.acc.length).map (fun i =>
             (outPar j.work.desc).value (matFa j.work.desc) (o.acc.getD i V.zero) (cs.getD i V.zero)) ∧
           o'.poison = (o.poison || pois) ∧ o'.desc = some j.work.desc ∧ (t.tile n).outs.length = (s.tile n).outs.length ∧
           (t.tile n).mat = some j ∧
           (s1.resil = true → (outPar j.work.desc).readsC = true → (outPar j.work.desc).oscale = false →
             t.flag (EPO_STAT n) EPO_STAT_NOREPLAY = true) ∧ RegsBut [EPO_STAT n] s1 t ∧ t.mem = s1.mem) ∧
       (∀ c d, o.cmd = some c → s.heldMat n = some d →
         ∃ t o', exec (.drainStart n) s = .next t ∧ o' ∈ (t.tile n).outs ∧ o'.bank = o.bank ∧ o'.phase = .drain ∧ o'.rows = o.rows ∧
           o'.acc = (List.range o.acc.length).map (fun i =>
             (outPar d).value (cmdFa c) (o.acc.getD i V.zero) ((s.cmdReadC n c d).1.getD i V.zero)) ∧
           o'.poison = (o.poison || (s.cmdReadC n c d).2.2) ∧ o'.desc = some d ∧ (t.tile n).store = (s.tile n).store ∧
           RegsBut [EPO_STAT n] s t ∧ t.mem = s.mem)) ∧
     (∀ (j : MatJob) (cs : List V) (cnt : CvtCnt) (pois : Bool) (s1 : State), draining (s.tile n).outs = false →
       (s.tile n).outs.find? (fun o => o.phase == .wait) = none → (s.tile n).mat = some j → j.path = .edge →
       j.ot < matTiles j.work.desc → (s.tile n).outs.any (fun o => o.bank == j.ot % 2) = false →
       s.readC n j (tileRow0 j.work.desc j.ot) (tileRows j.work.desc j.ot) (tileCol0 j.work.desc j.ot) (tileCols j.work.desc j.ot)
         = (s1, .ok cs cnt pois) → s1.tile n = s.tile n →
       ∃ t o', exec (.drainStart n) s = .next t ∧ (t.tile n).outs = (s.tile n).outs ++ [o'] ∧ o'.bank = j.ot % 2 ∧ o'.phase = .drain ∧
         o'.rows = tileRows j.work.desc j.ot ∧ o'.cols = tileCols j.work.desc j.ot ∧
         o'.acc = (List.range (o'.rows * o'.cols)).map (fun i => (outPar j.work.desc).edge (matFa j.work.desc) (cs.getD i V.zero)) ∧
         (t.tile n).mat = some { j with ot := j.ot + 1 } ∧ RegsBut [EPO_STAT n] s1 t ∧ t.mem = s1.mem) ∧
     ((s.tile n).outs.find? (fun o => o.phase == .drain) = some o →
       (∀ p, o.par = some p →
         ∃ t o', exec (.drainComplete n) s = .next t ∧ o' ∈ (t.tile n).outs ∧ o'.bank = o.bank ∧ o'.phase = .conv ∧
           o'.codes = startCodes p o.row0 o.col0 o.rows o.cols o.acc ∧ o'.acc = o.acc ∧
           (p.oscale = true → o'.data = [] ∧ o'.trial = 0) ∧
           (p.oscale = false → o'.data = (convertTile p o.row0 o.col0 o.rows o.cols o.acc o'.codes).data ∧
             o'.scales = (convertTile p o.row0 o.col0 o.rows o.cols o.acc o'.codes).scales) ∧ t.regs = s.regs ∧ t.mem = s.mem) ∧
       (o.par = none → ∃ t o', exec (.drainComplete n) s = .next t ∧ o' ∈ (t.tile n).outs ∧ o'.bank = o.bank ∧ o'.phase = .conv ∧
         o'.data.length = o.rows ∧ t.regs = s.regs ∧ t.mem = s.mem)) ∧
     (∀ p, (s.tile n).outs.find? (fun o => o.phase == .conv && o.data == []) = some o → o.par = some p →
       (o.trial < 2 → (excesses p o.row0 o.col0 o.rows o.cols o.acc o.codes).any (· != 0) = true →
         ∃ t o', exec (.conversionTrial n) s = .next t ∧ o' ∈ (t.tile n).outs ∧ o'.bank = o.bank ∧ o'.trial = o.trial + 1 ∧
           o'.data = [] ∧ o'.codes = raiseCodes o.codes (excesses p o.row0 o.col0 o.rows o.cols o.acc o.codes) ∧ o'.acc = o.acc ∧
           t.rd (ARR_RPL_CLK n) ARR_RPL_CLK_CLOCKS = (s.rd (ARR_RPL_CLK n) ARR_RPL_CLK_CLOCKS +
             (if o.bank = 2 then 8 else o.rows + 16)) % (ARR_RPL_CLK_CLOCKS.ones + 1) ∧ RegsBut [ARR_RPL_CLK n] s t ∧ t.mem = s.mem) ∧
       (o.trial = 2 ∨ (excesses p o.row0 o.col0 o.rows o.cols o.acc o.codes).any (· != 0) = false →
         (convertTile p o.row0 o.col0 o.rows o.cols o.acc o.codes).data ≠ [] →
         ∃ t o', exec (.conversionTrial n) s = .next t ∧ o' ∈ (t.tile n).outs ∧ o'.bank = o.bank ∧ o'.trial = o.trial ∧
           o'.data = (convertTile p o.row0 o.col0 o.rows o.cols o.acc o.codes).data ∧
           o'.residual = residuals p o.row0 o.col0 o.rows o.cols o.acc o.codes ∧ RegsBut [EPO_STAT n] s t ∧ t.mem = s.mem)) ∧
     ((s.tile n).outs.find? (fun o => o.phase == .conv && o.data != []) = some o →
       (∀ (j : MatJob) (s1 : State), o.cmd = none → (s.tile n).mat = some j →
         s.rowsReady n (s.jobPasid j) (outRows j.work.desc o) = true →
         (s.gapDirty n).putRows n (s.jobPasid j) o.poison (outRows j.work.desc o) = (s1, none) → s1.tile n = s.tile n →
         j.retired + 1 ≠ matTiles j.work.desc →
         ∃ t, exec (.outputTileRetire n) s = .next t ∧ (t.tile n).rc = (s.tile n).rc + 1 ∧
           (t.tile n).outs = (s.tile n).outs.filter (fun x => x.bank != o.bank) ∧
           (t.tile n).mat = some { j with retired := j.retired + 1, poison := j.poison || o.poison,
                                          residual := j.residual || o.residual != 0, rescaled := j.rescaled || o.trial != 0 } ∧
           t.mem = s1.mem) ∧
       (∀ c, o.cmd = some c → (s.tile n).seq.fault = none →
         (s.cmdShut n c o = false → o.data.length = o.rows →
           (1 < o.rows ∨ o.scales ≠ [] → ∀ row ∈ o.data, row.length ≤ cmdDstStride c) → (∀ sc ∈ o.scales, sc.length ≤ cdiv o.cols 32) →
           ∃ t, exec (.outputTileRetire n) s = .next t ∧
             (t.tile n).rc = (s.tile n).rc + (if o.bank = 2 ∧ (s.tile n).seq.mvCounted = true then 0 else 1) ∧
             (∀ i, i < o.rows → t.tsBytes n (cmdDst c + i * cmdDstStride c) (o.data.getD i []).length = o.data.getD i []) ∧
             (o.scales ≠ [] → ∀ i, i < o.rows →
               t.tsBytes n (cmdDst c + o.rows * cmdDstStride c + i * pad64 (cdiv o.cols 32)) (o.scales.getD i []).length
                 = o.scales.getD i []) ∧
             (∀ a, (∀ i, i < o.rows → a < cmdDst c + i * cmdDstStride c ∨ cmdDst c + i * cmdDstStride c + (o.data.getD i []).length ≤ a) →
               (o.scales ≠ [] → a < cmdDst c + o.rows * cmdDstStride c ∨
                 cmdDst c + o.rows * cmdDstStride c + o.rows * pad64 (cdiv o.cols 32) ≤ a) → t.tsBytes n a 1 = s.tsBytes n a 1) ∧
             (t.tile n).outs = (s.tile n).outs.filter (fun x => x.bank != o.bank) ∧ t.mem = s.mem) ∧
         (s.cmdShut n c o = true →
           ∃ t, exec (.outputTileRetire n) s = .next t ∧ (t.tile n).store = (s.tile n).store ∧ (t.tile n).rc = (s.tile n).rc ∧
             (t.tile n).outs = (s.tile n).outs.filter (fun x => x.bank != o.bank) ∧ Counted (ARR_ERR n) ARR_ERR_GUARD s t ∧
             (matRank (s.tile n).seq.worst < matRank 0x33 → (t.tile n).seq.worst = 0x33) ∧ t.mem = s.mem))))

/-- Loupe: a patch arrives once or is dropped and counted, a check leaves agreement alone and records a disagreement, and the
halt notice, resume, clear and pop do their one thing. Choices of the model it rests on: notes/assumptions/72.md. -/
def Obligations.LoupeChecks : Prop :=
  ∀ (s : State) (d : DieId),
    (∀ (pt : Patch) (r : List Patch) (room : Bool), (s.lou d).offered = pt :: r →
      room = decide (((s.lou d).buf.map (·.bytes)).sum + pt.bytes ≤ patchBufBytes) →
      (s.flag (LOU_STAT2 d) LOU_STAT2_BIST_OWNS = false → room = true → pt.poison = false →
        (s.lou d).seen.contains (pt.tile, pt.sample) = false →
        ∃ t, exec (.patchArrive d) s = .next t ∧ (t.lou d).buf = (s.lou d).buf ++ [pt] ∧ (t.lou d).offered = r ∧
          (pt.tile, pt.sample) ∈ (t.lou d).seen ∧ t.regs = s.regs ∧ t.mem = s.mem) ∧
      (∀ a f, (s.flag (LOU_STAT2 d) LOU_STAT2_BIST_OWNS, room, pt.poison,
            (s.lou d).seen.contains (pt.tile, pt.sample), a, f) ∈
          ([(true, true, pt.poison, (s.lou d).seen.contains (pt.tile, pt.sample), LOU_STAT d, LOU_STAT_DROP_BIST),
            (true, false, pt.poison, (s.lou d).seen.contains (pt.tile, pt.sample), LOU_STAT d, LOU_STAT_DROP_BIST),
            (false, false, pt.poison, (s.lou d).seen.contains (pt.tile, pt.sample), LOU_STAT d, LOU_STAT_DROP_BUSY),
            (false, true, true, (s.lou d).seen.contains (pt.tile, pt.sample), LOU_STAT2 d, LOU_STAT2_SKIP_POISON),
            (false, true, false, true, LOU_STAT2 d, LOU_STAT2_REPEAT)] : List (Bool × Bool × Bool × Bool × Nat × Fld)) →
        ∃ t, exec (.patchArrive d) s = .next t ∧ (t.lou d).buf = (s.lou d).buf ∧ (t.lou d).offered = r ∧
          t.rd a f = min (s.rd a f + 1) f.ones ∧ RegsBut [a] s t ∧ t.mem = s.mem)) ∧
    (∀ pt r, (s.lou d).buf = pt :: r → s.flag (LOU_STAT2 d) LOU_STAT2_BIST_OWNS = false →
      ((∀ x ∈ pt.els, patchAgrees pt x = true) →
        ∃ t, exec (.patchCheck d) s = .next t ∧ t.lou d = { s.lou d with buf := r } ∧
          t.rd (LOU_STAT d) LOU_STAT_CHECKED = (s.rd (LOU_STAT d) LOU_STAT_CHECKED + 1) % (LOU_STAT_CHECKED.ones + 1) ∧
          RegsBut [LOU_STAT d] s t ∧ t.mem = s.mem) ∧
      (∀ x, pt.els = [x] → patchAgrees pt x = false → (s.lou d).recs.length < 16 → s.rd (LOU_CFG d) LOU_CFG_ACTION = 0 →
        ∃ t, exec (.patchCheck d) s = .next t ∧ (t.lou d).recs = (s.lou d).recs ++ [disRecord s pt x 0] ∧
          (t.lou d).count = (s.lou d).count + 1 ∧ (t.lou d).halted = (s.lou d).halted ∧
          t.rd (LOU_STAT2 d) LOU_STAT2_REC_CNT = (s.lou d).recs.length + 1 ∧ t.mem = s.mem)) ∧
    ((s.lou (1 - d.val)).notice = true → s.craSt 0 ≠ clAbsent →
      ∃ t, exec (.loupeHaltNotice d) s = .next t ∧ (t.lou (1 - d.val)).notice = false ∧ (∀ k, k < 48 → t.halted (48 * d.val + k) = true) ∧
        t.flag (LOU_STAT2 d) LOU_STAT2_HALTED = true ∧ RegsBut [LOU_STAT2 d] s t ∧ t.mem = s.mem) ∧
    ((s.lou (1 - d.val)).notice = true → s.craSt 0 = clAbsent →
      ∃ t, exec (.loupeHaltNotice d) s = .next t ∧ (t.lou (1 - d.val)).notice = false ∧ t.regs = s.regs ∧ t.lou d = s.lou d) ∧
    (∃ t, exec (.louResume d) s = .next t ∧ (t.lou d).halted = [] ∧ t.flag (LOU_STAT2 d) LOU_STAT2_HALTED = false ∧
      (t.lou d).buf = (s.lou d).buf ∧ (t.lou d).count = (s.lou d).count ∧ t.mem = s.mem) ∧
    (∃ t, exec (.louClear d) s = .next t ∧ t.lou d = { s.lou d with count := 0 } ∧ t.lou (1 - d.val) = s.lou (1 - d.val) ∧
      t.regs = s.regs ∧ t.mem = s.mem) ∧
    ((s.lou d).recs.length ≤ 16 → ∃ t, exec (.louPop d) s = .next t ∧ t.lou d = { s.lou d with recs := (s.lou d).recs.drop 1 } ∧
      t.rd (LOU_STAT2 d) LOU_STAT2_REC_CNT = (s.lou d).recs.length - 1 ∧
      (∀ i, i < 4 → t.reg (LOU_REC d i) = ((s.lou d).recs.getD 1 []).getD i 0) ∧
      RegsBut (LOU_STAT2 d :: (List.range 4).map (fun i => LOU_REC d i)) s t ∧ t.mem = s.mem)

/-- Speedwell: the tier lock, a run's start and its entries, the residency state machine of R253, space, copies and the ends of
a run. Choices of the model it rests on: notes/assumptions/11.md, 39.md. -/
def Obligations.SpeedwellRuns : Prop :=
  ∀ (s : State),
    (∀ cfg : Word, s.flag SPW_TIER_CFG SPW_TIER_CFG_LOCK = false → 1 ≤ fget cfg SPW_TIER_CFG_DIRECT → fget cfg SPW_TIER_CFG_DIRECT ≤ 767 →
      ∃ t, exec (.spwTierLock cfg) s = .next t ∧ t.flag SPW_TIER_CFG SPW_TIER_CFG_LOCK = true ∧
        (∀ f ∈ [SPW_TIER_CFG_MODE, SPW_TIER_CFG_DIRECT, SPW_TIER_CFG_SHIELD], t.rd SPW_TIER_CFG f = fget cfg f) ∧
        RegsBut [SPW_TIER_CFG, SPW_FRAMES, HBM_SHD_CFG 7, HBM_SHD_STAT 7] s t ∧ t.mem = s.mem) ∧
    (∀ cfg : Word, s.flag SPW_TIER_CFG SPW_TIER_CFG_LOCK = true → s.rd SPW_TIER_CFG SPW_TIER_CFG_MODE ≠ fget cfg SPW_TIER_CFG_MODE →
      ∃ t, exec (.spwTierLock cfg) s = .next t ∧ t.flag SPW_TIER_CFG SPW_TIER_CFG_REFUSED = true ∧
        (∀ f ∈ [SPW_TIER_CFG_LOCK, SPW_TIER_CFG_MODE, SPW_TIER_CFG_DIRECT, SPW_TIER_CFG_SHIELD],
          t.rd SPW_TIER_CFG f = s.rd SPW_TIER_CFG f) ∧ OnlyRegs [SPW_TIER_CFG] s t) ∧
    (∀ w q, s.hif.spwQ = w :: q → s.spw.run = none → s.ringHeld w = false →
      (scheduleOk w.desc = true → s.spwGen < bits w.desc 189 160 →
        ∃ t, exec .schedule s = .next t ∧ t.spw.run = some { work := w, next := 0, ents := [] } ∧ t.hif.spwQ = q ∧
          t.flag SPW_STAT SPW_STAT_ACTIVE = true ∧ t.spwGen = bits w.desc 189 160 ∧ t.spw.objs = s.spw.objs ∧ t.spw.fresh = false ∧
          (s.spw.fresh = false → RegsBut [SPW_STAT] s t ∧ t.mem = s.mem)) ∧
      (scheduleOk w.desc = true → bits w.desc 189 160 ≤ s.spwGen →
        exec .schedule s = .next ((({ s with hif := { s.hif with spwQ := q } }).wr SPW_STAT SPW_STAT_PENDING 0).refuse w 0x71 0))) ∧
    (∀ (r : SpwRun) (e : SpwEnt) (x : State × Nat) (s1 : State) (ok : Bool), s.spw.run = some r → r.next ≠ r.entries →
      r.next ≤ ((r.ents.map (·.idx)).head?.getD r.next) + r.look → x = s.spwRead ((r.prog + 32 * r.next) % 2 ^ 56) 32 →
      schedEnt r.next x.2 (s.tile r.pacer).epo.committed = (e, ok) → s1 = x.1.objFetch e.object →
      (ok = true → s1.objOk e.object = true → e.stream = false ∨ nbits (s1.objFlags e.object) 0 0 = 0 →
        ∃ t, exec .scheduleEntryIssue s = .next t ∧ t.spw.run = some { r with next := r.next + 1, ents := r.ents ++ [e] } ∧
          t.spw.objs = s.spw.objs ∧ t.regs = s1.regs ∧ t.mem = s1.mem) ∧
      (ok = false ∨ s1.objOk e.object = false →
        ∃ t, exec .scheduleEntryIssue s = .next t ∧ t.spw.run = none ∧ t.flag SPW_STAT SPW_STAT_ACTIVE = false)) ∧
    (∀ (o : BitVec 12) (e : SpwEnt) (r : SpwRun), s.spw.run = some r → r.next ≠ r.entries →
      (s.nextEnt 1 o.toNat = some e →
        ((s.obj o.toNat).st = .resident → ∃ t, exec (.acquire o) s = .next t ∧ (t.obj o.toNat).st = .resident ∧
          (t.obj o.toNat).count = (s.obj o.toNat).count + 1 ∧ (∀ k, k ≠ o.toNat → t.obj k = s.obj k) ∧ t.spw.queue = s.spw.queue) ∧
        ((s.obj o.toNat).st = .absent → s.allRes o.toNat = false → ∃ t, exec (.acquire o) s = .next t ∧
          (t.obj o.toNat).st = .queued ∧ (t.obj o.toNat).count = 1 ∧ t.spw.queue = s.spw.queue ++ [o.toNat] ∧
          (∀ k, k ≠ o.toNat → t.obj k = s.obj k)) ∧
        ((s.obj o.toNat).st = .absent → s.allRes o.toNat = true → ∃ t, exec (.acquire o) s = .next t ∧
          (t.obj o.toNat).st = .resident ∧ (t.obj o.toNat).count = 1 ∧ (t.obj o.toNat).done = s.objGran o.toNat ∧
          (∀ k, k ≠ o.toNat → t.obj k = s.obj k) ∧ t.spw.queue = s.spw.queue) ∧
        ((s.obj o.toNat).st = .queued ∨ (s.obj o.toNat).st = .promoting → ∃ t, exec (.acquire o) s = .next t ∧
          (t.obj o.toNat).st = (s.obj o.toNat).st ∧ (t.obj o.toNat).count = (s.obj o.toNat).count + 1 ∧
          (∀ k, k ≠ o.toNat → t.obj k = s.obj k)) ∧
        ((s.obj o.toNat).st = .writingBack → ∃ t, exec (.acquire o) s = .next t ∧ (t.obj o.toNat).st = .writingBack ∧
          (t.obj o.toNat).mark = true ∧ (t.obj o.toNat).count = 1 ∧ (∀ k, k ≠ o.toNat → t.obj k = s.obj k)) ∧
        ((s.obj o.toNat).st = .cancelling → ∃ t, exec (.acquire o) s = .next t ∧ (t.obj o.toNat).st = .promoting ∧
          (t.obj o.toNat).count = 1 ∧ (∀ k, k ≠ o.toNat → t.obj k = s.obj k))) ∧
      (s.nextEnt 2 o.toNat = some e →
        (2 ≤ (s.obj o.toNat).count → (s.obj o.toNat).st = .resident → ∃ t, exec (.release o) s = .next t ∧
          t.obj o.toNat = { s.obj o.toNat with count := (s.obj o.toNat).count - 1 } ∧ (∀ k, k ≠ o.toNat → t.obj k = s.obj k)) ∧
        ((s.obj o.toNat).count = 1 → (s.obj o.toNat).st = .resident → e.reuse ≠ 2 → ∃ t, exec (.release o) s = .next t ∧
          (t.obj o.toNat).count = 0 ∧ (t.obj o.toNat).st = .resident ∧ (t.obj o.toNat).order = s.spw.relSeq + 1 ∧
          (∀ k, k ≠ o.toNat → t.obj k = s.obj k)) ∧
        ((s.obj o.toNat).st = .absent → ∃ t, exec (.release o) s = .next t ∧ t.spw.objs = s.spw.objs ∧
          t.rd SPW_CNT2 SPW_CNT2_BAD_REF = min (s.rd SPW_CNT2 SPW_CNT2_BAD_REF + 1) SPW_CNT2_BAD_REF.ones ∧ t.mem = s.mem)) ∧
      (s.nextEnt 3 o.toNat = some e → (s.obj o.toNat).count = 1 →
        ((s.obj o.toNat).st = .promoting → ∃ t, exec (.cancel o) s = .next t ∧ (t.obj o.toNat).st = .cancelling ∧
          (t.obj o.toNat).count = 0 ∧ (∀ k, k ≠ o.toNat → t.obj k = s.obj k)) ∧
        ((s.obj o.toNat).st = .queued → ∃ t, exec (.cancel o) s = .next t ∧ (t.obj o.toNat).st = .absent ∧
          o.toNat ∉ t.spw.queue ∧ (∀ k, k ≠ o.toNat → t.obj k = s.obj k))) ∧
      (s.nextEnt 4 o.toNat = some e → (s.obj o.toNat).st = .resident → s.dirtyGrans o.toNat ≠ [] →
        ∃ t, exec (.writeback o) s = .next t ∧ t.obj o.toNat = { s.obj o.toNat with wb := true, toWb := s.dirtyGrans o.toNat } ∧
          (∀ k, k ≠ o.toNat → t.obj k = s.obj k)) ∧
      (s.nextEnt 5 o.toNat = some e →
        ((s.obj o.toNat).st = .promoting → ∃ t, exec (.evict o) s = .next t ∧ t.obj o.toNat = { s.obj o.toNat with ep := true } ∧
          Counted SPW_CNT SPW_CNT_DEFER s t ∧ (∀ k, k ≠ o.toNat → t.obj k = s.obj k)) ∧
        ((s.obj o.toNat).st = .resident → (s.obj o.toNat).count ≠ 0 → ∃ t, exec (.evict o) s = .next t ∧ t.spw.objs = s.spw.objs ∧
          t.rd SPW_CNT SPW_CNT_REFUSED_INUSE = min (s.rd SPW_CNT SPW_CNT_REFUSED_INUSE + 1) SPW_CNT_REFUSED_INUSE.ones ∧
          t.mem = s.mem) ∧
        ((s.obj o.toNat).st = .resident → (s.obj o.toNat).count = 0 → s.dirtyGrans o.toNat ≠ [] → ∃ t, exec (.evict o) s = .next t ∧
          (t.obj o.toNat).st = .writingBack ∧ (t.obj o.toNat).toWb = s.dirtyGrans o.toNat ∧ (∀ k, k ≠ o.toNat → t.obj k = s.obj k)))) ∧
    (∀ o q, s.spw.queue = o :: q → s.unified = false → s.splitFree o = true →
      ∃ t, exec .spaceGrant s = .next t ∧ t.spw.queue = q ∧ (t.obj o).st = .promoting ∧ (t.obj o).done = 0 ∧
        (t.obj o).gen = (s.obj o).gen ∧ (t.obj o).count = (s.obj o).count ∧ (∀ k, k ≠ o → t.obj k = s.obj k)) ∧
    (∀ o q fr, s.spw.queue = o :: q → s.unified = true → s.objGran o ≤ s.frameCount → s.freeFrames (s.objGran o) = some fr →
      (∀ i, i < s.objGran o → s.dirEntry (uniIdx (s.objLo o) i) = 0) →
      ∃ t, exec .spaceGrant s = .next t ∧ t.spw.queue = q ∧ (t.obj o).st = .promoting ∧ (t.obj o).frames = fr ∧ (t.obj o).done = 0 ∧
        (∀ k, k ≠ o → t.obj k = s.obj k)) ∧
    (∀ (o : BitVec 12) (v : SpwObj), s.obj o.toNat = v →
      (v.st = .promoting → v.done + 1 ≠ s.objGran o.toNat → ∃ t, exec (.granuleCopyComplete o) s = .next t ∧
        t.obj o.toNat = { v with done := v.done + 1 }) ∧
      (v.st = .writingBack → ∀ i j r, v.toWb = i :: j :: r → ∃ t, exec (.granuleCopyComplete o) s = .next t ∧
        t.obj o.toNat = { v with toWb := j :: r }) ∧
      (v.st = .promoting → v.done + 1 = s.objGran o.toNat → ∃ t, exec (.granuleCopyComplete o) s = .next t ∧
        (t.obj o.toNat).st = .resident ∧ (t.obj o.toNat).done = s.objGran o.toNat) ∧
      (v.st = .cancelling ∨ (v.st = .writingBack ∧ v.mark = false ∧ v.toWb.length = 1) →
        ∃ t, exec (.granuleCopyComplete o) s = .next t ∧ (t.obj o.toNat).st = .absent) ∧
      (v.st = .promoting → ∃ t, exec (.copyFault o) s = .next t ∧ (t.obj o.toNat).st = .failed ∧ t.spw.run = none) ∧
      (v.st = .failed → ∃ t, exec .spwClearFailed s = .next t ∧ (t.obj o.toNat).st = .absent)) ∧
    (∃ t, exec .spwAbort s = .next t ∧ t.spw.run = none ∧
      (∀ r, s.spw.run = some r → t.flag SPW_STAT SPW_STAT_ACTIVE = false) ∧ (s.spw.run = none → t = s))


/-! ### Coherence (spec/10, 12) -/

/-- Requests of a caching agent: a hit sends nothing, a miss leaves the transient state of R276 and brings the home to the
message the home plans, an eviction hands the line over, and maintenance of an idle line completes at once. Choices of the model
it rests on: notes/assumptions/32.md, 33.md, 34.md. -/
def Obligations.CoherenceRequests : Prop :=
  ∀ (s : State) (a : CohAgent) (addr : Word) (l : Nat) (mask : Word) (data : Line), s.cohLine addr.toNat = some l → AgentHome s a l →
    (∀ c, s.cLine (agentId a) l = some c → c.st.stable = true → ∀ i, i ∈ ([.rdShared a addr false .clean, .rdOnce a addr] : List Instr) →
      ∃ t, exec i s = .next t ∧ t.answer = .data (leBytes 64 c.data.toNat) c.poison ∧ t.coh.net = s.coh.net ∧
        t.cSt (agentId a) l = c.st ∧ t.regs = s.regs ∧ t.mem = s.mem) ∧
    (∀ c, s.cLine (agentId a) l = some c → c.st = .M ∨ c.st = .E → ∃ t c', exec (.rdUnique a addr mask data) s = .next t ∧
      t.cLine (agentId a) l = some c' ∧ c'.st = .M ∧ c'.data = mergeLine c.data data mask.toNat ∧ t.coh.net = s.coh.net ∧
      t.regs = s.regs ∧ t.mem = s.mem) ∧
    (HomeFree s l → s.dirEnt l = DirEnt.reset → s.cLine l3Key l = none → s.cLine (agentId a) l = none →
      (∀ w, s.cWay (agentId a) l = some (s, w, none) → DirFree s l → ∀ i st want,
        (i, st, want) ∈ ([(.rdShared a addr false .clean, .IS_D, .dataE), (.rdUnique a addr mask data, .IM_D, .dataM)]
          : List (Instr × CSt × CMsgOp)) →
        ∃ t, exec i s = .next t ∧ t.cSt (agentId a) l = st ∧
          t.coh.net = s.coh.net ++ [{ cmsg .hmemRd (agentId a) l with want := want, txid := s.newTxid (agentId a) }] ∧
          t.coh.outst = s.coh.outst ++ [⟨agentId a, s.newTxid (agentId a), l, false⟩] ∧ (mfind t.coh.txn l).isSome = true ∧
          t.regs = s.regs ∧ t.mem = s.mem) ∧
      (∀ w, s.cWay (agentId a) l = some (s, w, none) → DirFree s l → ∃ t, exec (.claim a addr data) s = .next t ∧ t.cSt (agentId a) l = .IM_D ∧
        t.coh.net = s.coh.net ++ [{ cmsg .comp (agentId a) l with txid := s.newTxid (agentId a) }] ∧ t.regs = s.regs ∧ t.mem = s.mem) ∧
      (∃ t, exec (.rdOnce a addr) s = .next t ∧ t.cSt (agentId a) l = .I_ONCE ∧
        t.coh.net = s.coh.net ++ [{ cmsg .hmemRd (agentId a) l with want := .dataOnce, txid := s.newTxid (agentId a) }] ∧ t.regs = s.regs ∧ t.mem = s.mem)) ∧
    (∀ c, HomeFree s l → s.cLine (agentId a) l = some c → c.st = .S → (s.dirEnt l).owner = none → (s.dirEnt l).sharers = [agentId a] →
      ∃ t, exec (.upgrade a addr mask data) s = .next t ∧ t.cSt (agentId a) l = .SM_D ∧
        t.coh.net = s.coh.net ++ [{ cmsg .comp (agentId a) l with txid := s.newTxid (agentId a) }] ∧ t.regs = s.regs ∧ t.mem = s.mem) ∧
    (∀ c, HomeFree s l → s.cLine (agentId a) l = some c → c.st = .M ∨ c.st = .O → (s.dirEnt l).owner = some (agentId a) →
      ∃ t, exec (.wbDirty a addr) s = .next t ∧ t.cSt (agentId a) l = .MI_A ∧
        (∀ k, a = .l2 k → t.coh.net = s.coh.net ++ [{ cmsg .comp (agentId a) l with txid := s.newTxid (agentId a) }] ∧ (t.dirEnt l).owner = none) ∧
        (∀ d, a = .sc d → t.coh.net = s.coh.net ++ [{ cmsg .hmemWr 0 l with data := c.data, poison := c.poison }])) ∧
    (∀ c, HomeFree s l → s.cLine (agentId a) l = some c → c.st = .E ∨ c.st = .S →
      ∃ t, exec (.evictClean a addr) s = .next t ∧ t.cSt (agentId a) l = .EI_A ∧
        t.coh.net = s.coh.net ++ [{ cmsg .comp (agentId a) l with txid := s.newTxid (agentId a) }] ∧ (t.dirEnt l).owner ≠ some (agentId a)) ∧
    (HomeFree s l → s.dirEnt l = DirEnt.reset → s.cLine l3Key l = none →
      ∀ i, i ∈ ([.cmoClean a addr, .cmoFlush a addr] : List Instr) → ∃ t, exec i s = .next t ∧
        t.coh.net = s.coh.net ++ [{ cmsg .comp (agentId a) l with txid := s.newTxid (agentId a) }] ∧ mfind t.coh.txn l = none ∧ t.regs = s.regs ∧ t.mem = s.mem)

/-- Snoops, data and responses: what a cache answers to each snoop by R276 and R277, what data and completions make of a
transient state, and what a response leaves of the home's transaction. Choices of the model it rests on:
notes/assumptions/32.md, 33.md. -/
def Obligations.CoherenceMessages : Prop :=
  ∀ (s s1 : State) (a : CohAgent) (addr : Word) (l : Nat) (m : CMsg), s.cohLine addr.toNat = some l →
    (∀ (i : Instr) (op : CMsgOp) (st st' : CSt) (dat : Option CMsgOp) (rsp : CMsgOp) (c : CLine),
      (i, op, st, st', dat, rsp) ∈ ([(.snpShared a addr .clean, .snpShared, .M, .O, some .dataS, .rspO),
        (.snpShared a addr .clean, .snpShared, .E, .S, some .dataS, .rspS), (.snpShared a addr .clean, .snpShared, .O, .O, some .dataS, .rspO),
        (.snpUnique a addr, .snpUnique, .M, .I, some .dataM, .rspI), (.snpUnique a addr, .snpUnique, .O, .I, some .dataM, .rspI),
        (.snpUnique a addr, .snpUnique, .E, .I, some .dataM, .rspI), (.snpInv a addr, .snpInv, .M, .I, none, .rspI),
        (.snpInv a addr, .snpInv, .O, .I, none, .rspI), (.snpInv a addr, .snpInv, .E, .I, none, .rspI),
        (.snpInv a addr, .snpInv, .S, .I, none, .rspI), (.snpOnce a addr, .snpOnce, .M, .M, some .dataOnce, .rspKeep),
        (.snpOnce a addr, .snpOnce, .O, .O, some .dataOnce, .rspKeep), (.snpOnce a addr, .snpOnce, .E, .E, some .dataOnce, .rspKeep),
        (.snpClean a addr, .snpClean, .M, .E, some .dataHome, .rspKeep), (.snpClean a addr, .snpClean, .O, .S, some .dataHome, .rspS),
        (.snpClean a addr, .snpClean, .E, .E, none, .rspKeep), (.snpClean a addr, .snpClean, .S, .S, none, .rspKeep),
        (.snpFlush a addr .clean, .snpFlush, .M, .I, some .dataHome, .rspI), (.snpFlush a addr .clean, .snpFlush, .O, .I, some .dataHome, .rspI),
        (.snpFlush a addr .clean, .snpFlush, .E, .I, none, .rspI), (.snpFlush a addr .clean, .snpFlush, .S, .I, none, .rspI)]
          : List (Instr × CMsgOp × CSt × CSt × Option CMsgOp × CMsgOp)) →
      s.snoopHeld a l = false → s.cTake [op] (some (agentId a)) l = some (m, s1) →
      (s.cLine (agentId a) l = some c → c.st = st → c.poison = false → ∃ t, exec i s = .next t ∧ t.cSt (agentId a) l = st' ∧
        t.coh.net = s1.coh.net ++ (dat.toList.map (fun d =>
          if d = .dataHome then { cmsg d (agentId a) l with txid := m.txid, data := c.data }
          else { cmsg d m.rq l with src := if (scDie (agentId a)).isNone && (scDie m.rq).isSome then 0x01 else agentId a, txid := m.txid,
                                    rq := agentId a, data := c.data })) ++ [{ cmsg rsp (agentId a) l with txid := m.txid }] ∧
        t.regs = s.regs ∧ t.mem = s.mem) ∧
      (s.cLine (agentId a) l = none → ∃ t, exec i s = .next t ∧ t.caches = s.caches ∧
        t.coh.net = s1.coh.net ++ [{ cmsg .rspI (agentId a) l with txid := m.txid, stray := true }] ∧
        t.rd CCH_HOME_STAT CCH_HOME_STAT_STRAY = min (s.rd CCH_HOME_STAT CCH_HOME_STAT_STRAY + 1) CCH_HOME_STAT_STRAY.ones ∧
        RegsBut [CCH_HOME_STAT] s t ∧ t.mem = s.mem)) ∧
    (∀ (i : Instr) (op : CMsgOp) (st st' : CSt) (c : CLine),
      (i, op, st, st') ∈ ([(.dataS a addr, .dataS, .IS_D, .S), (.dataE a addr, .dataE, .IS_D, .E), (.dataOnce a addr, .dataOnce, .I_ONCE, .I)]
        : List (Instr × CMsgOp × CSt × CSt)) →
      s.cTake [op] (some (agentId a)) l = some (m, s1) → m.standin = false → s.cLine (agentId a) l = some c → c.st = st →
      WayKept s a c → ∃ t, exec i s = .next t ∧ t.cSt (agentId a) l = st' ∧ t.answer = .data (leBytes 64 m.data.toNat) m.poison ∧
        t.coh.net = s1.coh.net ++ [{ cmsg .compAck (agentId a) l with txid := s1.txOf (agentId a) l }] ∧ t.regs = s.regs ∧ t.mem = s.mem) ∧
    (∀ c mask x, s.cLine (agentId a) l = some c → c.pend = some (mask, x) → WayKept s a c →
      (s.cTake [.dataM] (some (agentId a)) l = some (m, s1) → m.standin = false → c.st = .IM_D →
        ∃ t c', exec (.dataM a addr) s = .next t ∧ t.cLine (agentId a) l = some c' ∧ c'.st = .M ∧ c'.data = mergeLine m.data x mask ∧
          t.coh.net = s1.coh.net ++ [{ cmsg .compAck (agentId a) l with txid := s1.txOf (agentId a) l }] ∧ t.regs = s.regs ∧
          t.mem = s.mem) ∧
      (s.cTake [.comp, .leaseComp] (some (agentId a)) l = some (m, s1) → m.op = .comp →
        s1.coh.outst.any (fun o => o.agent == agentId a && o.txid == m.txid && o.cmo) = false → c.st = .IM_D ∨ c.st = .SM_D ∨ c.st = .OM_D →
        ∃ t c', exec (.comp a addr) s = .next t ∧ t.cLine (agentId a) l = some c' ∧ c'.st = .M ∧ c'.data = mergeLine c.data x mask ∧
          t.coh.net = s1.coh.net ++ [{ cmsg .compAck (agentId a) l with txid := s1.txOf (agentId a) l }] ∧ t.regs = s.regs ∧
          t.mem = s.mem)) ∧
    (s.cTake [.comp, .leaseComp] (some (agentId a)) l = some (m, s1) → m.op = .comp →
      s1.coh.outst.any (fun o => o.agent == agentId a && o.txid == m.txid && o.cmo) = true →
      ∃ t, exec (.comp a addr) s = .next t ∧ t.answer = .done ∧ t.caches = s.caches ∧ t.coh.net = s1.coh.net ∧
        t.coh.outst = s1.coh.outst.filter (fun o => !(o.agent == agentId a && o.txid == m.txid)) ∧ t.regs = s.regs ∧ t.mem = s.mem) ∧
    (∀ c, s.cLine (agentId a) l = some c → s.cTake [.comp, .leaseComp] (some (agentId a)) l = some (m, s1) → m.op = .comp →
      s1.coh.outst.any (fun o => o.agent == agentId a && o.txid == m.txid && o.cmo) = false →
      c.st = .MI_A ∨ c.st = .EI_A ∨ c.st = .II_A → ∃ t, exec (.comp a addr) s = .next t ∧ t.cLine (agentId a) l = none ∧
        t.coh.net = s1.coh.net ∧ t.regs = s.regs ∧ t.mem = s.mem) ∧
    (∀ c i r, (i, r) ∈ ([(.cohError a addr, .error), (.cohPoisoned a addr, .data [] true), (.cohAbsent a addr, .absent),
        (.cohMalformed a addr, .malformed)] : List (Instr × Rsp)) →
      s.cLine (agentId a) l = some c → c.st = .IS_D ∨ c.st = .IM_D ∨ c.st = .I_ONCE →
      ∃ t, exec i s = .next t ∧ t.answer = r ∧ t.cLine (agentId a) l = none ∧ t.regs = s.regs ∧ t.mem = s.mem) ∧
    (∀ tx, s.cTake [.compAck, .leaseAck] (some (agentId a)) l = some (m, s1) → m.op = .compAck → mfind s.coh.txn l = some tx →
      tx.req.agent = agentId a → tx.req.op = .rdUnique → tx.wait = [] → tx.needComp = false → tx.lost = false → tx.failed = false →
      s1.dataDue l = false → mget [] s.coh.queue l = [] → (mfind s.coh.dir l).isSome = true → s.agentGone 0x10 = false →
      s.agentGone 0x20 = false → SetIdle s l →
      ∃ t, exec (.compAck a addr) s = .next t ∧ mfind t.coh.txn l = none ∧ (t.dirEnt l).owner = some (agentId a) ∧
        (t.dirEnt l).sharers = [] ∧ t.coh.net = s1.coh.net ∧ t.regs = s.regs ∧ t.mem = s.mem) ∧
    (∀ tx i op, (i, op) ∈ ([(.rspI a addr, .rspI), (.rspS a addr, .rspS), (.rspO a addr, .rspO), (.rspKeep a addr, .rspKeep)]
        : List (Instr × CMsgOp)) →
      s.cTake [op] (some (agentId a)) l = some (m, s1) → m.stray = false → mfind s.coh.txn l = some tx → SetIdle s l →
      tx.wait.filter (· != agentId a) ≠ [] →
      ∃ t tx', exec i s = .next t ∧ mfind t.coh.txn l = some tx' ∧ tx'.wait = tx.wait.filter (· != agentId a) ∧
        tx'.gone = (if op = .rspI then tx.gone ++ [agentId a] else tx.gone) ∧ tx'.gotO = (tx.gotO || op == .rspO) ∧
        tx'.gotS = (tx.gotS || op == .rspS) ∧ t.coh.net = s1.coh.net ∧ t.regs = s.regs ∧ t.mem = s.mem) ∧
    (s.cTake [.dataHome] (some (agentId a)) l = some (m, s1) → m.want ≠ .poisoned → ∃ t, exec (.dataToHome a addr) s = .next t ∧ t.cLine l3Key l = none ∧
      t.coh.net = s1.coh.net ++ [{ cmsg .hmemWr 0 l with data := m.data, poison := m.poison }] ∧ t.regs = s.regs ∧ t.mem = s.mem) ∧
    (∀ (h : HbmFinding) (x : State × Line × Bool), s.cTake [.hmemRd] none l = some (m, s1) → s.agentGone m.agent = false →
      s.cut 2 l = false → s1.hbmStop (s1.tierKey l) = none → x = s1.lineRead l h → x.2.2 = false →
      ∃ t, exec (.hmemRd addr .clean h) s = .next t ∧
        t.coh.net = x.1.coh.net ++ [{ cmsg m.want m.agent l with src := s.memTarget l, txid := m.txid, data := x.2.1 }]) ∧
    (s.cTake [.hmemWr] none l = some (m, s1) → s.cut 2 l = false → s1.hbmStop (s1.tierKey l) = none → s.droppedLines l 64 = [] →
      s.unified = false → mfind s.coh.txn l = none → mget [] s.coh.queue l = [] → SetIdle s l →
      ∃ t, exec (.hmemWr addr) s = .next t ∧ t.mem = memPut s.mem l (leBytes 64 m.data.toNat) ∧ t.coh.net = s1.coh.net ∧
        t.caches = s.caches)

/-- Leases, maintenance, ways, policies and the remote-read buffers' invalidation. Choices of the model it rests on:
notes/assumptions/31.md, 32.md, 34.md. -/
def Obligations.LeasesAndMaintenance : Prop :=
  ∀ (s : State),
    (∀ (d : DieId) (addr : Word) (l r ag : Nat), s.cohLine addr.toNat = some l → r = regionOf l → ag = agentId (.sc d) →
      (s.agentGone ag = false → leasable l = true → s.leaseDie r = d.val → s.coh.recalls.contains r = false → s.closedMem l = false →
        s.cLine ag l = none →
        (s.leased l = false → s.leaseEn d = true → mfind s.coh.lwait r = none → ∀ acc,
          (s.coh.holdoff.contains r = false → ∃ t, exec (.leaseReq d addr acc) s = .next t ∧ mfind t.coh.rtxn r = some (d.val, false) ∧
            mfind t.coh.lwait r = some (l, acc) ∧ t.coh.net = s.coh.net ∧ t.regs = s.regs ∧ t.mem = s.mem) ∧
          (s.coh.holdoff.contains r = true → ∃ t, exec (.leaseReq d addr acc) s = .next t ∧
            t.coh.net = s.coh.net ++ [cmsg .leaseDeny ag (r * 65536)] ∧ mfind t.coh.lwait r = some (l, acc) ∧
            RegsBut [CCH_LEASE_STAT d] s t ∧ t.mem = s.mem)) ∧
        (∀ x, s.leased l = true → x = s.lineRead l .clean → ∃ t, exec (.leaseReq d addr .once) s = .next t ∧
          t.answer = .data (leBytes 64 x.2.1.toNat) x.2.2 ∧ t.coh = x.1.coh ∧ t.regs = x.1.regs ∧ t.mem = x.1.mem)) ∧
      (mfind s.coh.rtxn r = some (d.val, false) → s.regionBusy r = false → s.regionHeld r ag = [] →
        ∃ t, exec (.leaseGrant d addr) s = .next t ∧ t.coh.leases = s.coh.leases ++ [r] ∧ mfind t.coh.rtxn r = some (d.val, true) ∧
          t.coh.net = s.coh.net ++ [cmsg .leaseComp ag (r * 65536)] ∧
          t.rd (CCH_LEASE_STAT d) CCH_LEASE_STAT_GRANT = min (s.rd (CCH_LEASE_STAT d) CCH_LEASE_STAT_GRANT + 1)
            CCH_LEASE_STAT_GRANT.ones) ∧
      (∀ m s1 x, s.cTake [.leaseDeny] (some ag) (r * 65536) = some (m, s1) → mfind s.coh.lwait r = some (x, .once) → HomeFree s x →
        ∃ t, exec (.leaseDeny d addr) s = .next t ∧ mfind t.coh.lwait r = none ∧ t.cSt ag x = .I_ONCE) ∧
      (∀ m s1, s.cTake [.leaseRecall] (some ag) (r * 65536) = some (m, s1) →
        ∃ t, exec (.leaseRecall d addr) s = .next t ∧ (∀ x, regionOf x = r → t.cLine ag x = none) ∧
          (∀ x, regionOf x ≠ r → t.cLine ag x = s.cLine ag x) ∧ t.coh.net = s1.coh.net ++ [cmsg .leaseReturn ag (r * 65536)]) ∧
      (∀ m s1, s.cTake [.leaseReturn] (some ag) (r * 65536) = some (m, s1) → mget [] s.coh.rqueue r = [] → s.leaseEn d = true →
        ∃ t, exec (.leaseReturn d addr) s = .next t ∧ t.coh.leases = s.coh.leases.filter (· != r) ∧
          t.coh.recalls = s.coh.recalls.filter (· != r) ∧
          (0 < s.rd CCH_LEASE_CFG CCH_LEASE_CFG_HOLDOFF → r ∈ t.coh.holdoff) ∧ t.coh.net = s1.coh.net ∧
          t.rd (CCH_LEASE_STAT d) CCH_LEASE_STAT_RECALL = min (s.rd (CCH_LEASE_STAT d) CCH_LEASE_STAT_RECALL + 1)
            CCH_LEASE_STAT_RECALL.ones ∧ t.mem = s.mem) ∧
      (∃ t, exec (.leaseHoldoffExpire addr) s = .next t ∧ t.coh.holdoff = s.coh.holdoff.filter (· != r) ∧
        t = { s with coh := { s.coh with holdoff := t.coh.holdoff } })) ∧
    (∀ v : Word, fget v CCH_LEASE_CFG_EN0 = 1 → fget v CCH_LEASE_CFG_EN1 = 1 →
      ∃ t, exec (.cchLeaseCfgWrite v) s = .next t ∧ t.leaseEn 0 = true ∧ t.leaseEn 1 = true ∧
        t.rd CCH_LEASE_CFG CCH_LEASE_CFG_HOLDOFF = fget v CCH_LEASE_CFG_HOLDOFF ∧ OnlyRegs [CCH_LEASE_CFG] s t) ∧
    (∀ (v : Word), s.flag CCH_MNT_CTL CCH_MNT_CTL_BUSY = false →
      (fget v CCH_MNT_CTL_OP < 3 → fget v CCH_MNT_CTL_MODE < 3 → fget v CCH_MNT_CTL_TARGET ≠ 0 →
        ∃ t, exec (.cchMntGo v) s = .next t ∧ t.flag CCH_MNT_CTL CCH_MNT_CTL_BUSY = true ∧
          t.coh.mnt = some { op := fget v CCH_MNT_CTL_OP, mode := fget v CCH_MNT_CTL_MODE, target := fget v CCH_MNT_CTL_TARGET,
                             lo := s.reg CCH_MNT_LO, hi := s.reg CCH_MNT_HI, todo := [] } ∧ RegsBut [CCH_MNT_CTL] s t ∧
          t.caches = s.caches) ∧
      (fget v CCH_MNT_CTL_OP < 3 → fget v CCH_MNT_CTL_MODE = 0 → fget v CCH_MNT_CTL_TARGET = 0 → s.caches = [] → s.coh.leases = [] →
        ∃ t, exec (.cchMntGo v) s = .next t ∧ t.flag CCH_MNT_CTL CCH_MNT_CTL_BUSY = true ∧ t.coh.mnt.isSome = true ∧
          RegsBut [CCH_MNT_CTL] s t) ∧
      (fget v CCH_MNT_CTL_OP = 3 → ∃ t, exec (.cchMntGo v) s = .next t ∧ t.flag CCH_MNT_CTL CCH_MNT_CTL_ERR = true ∧
        OnlyRegs [CCH_MNT_CTL] s t)) ∧
    (∀ (m : MntRun) (ag : Nat), s.coh.mnt = some m → m.op ≠ 0 → m.target ≠ 0 → mntAgent m.target = some ag →
      (∀ p ∈ s.cLines ag, m.names s.node ag p.1 p.2.way (s.carved ag p.2.way) = true → p.2.st.stable = true ∧ s.cSt ag p.1 = p.2.st ∧ s.busyLine p.1 = false) →
      ∃ t, exec .cchMntDone s = .next t ∧ t.coh.mnt = none ∧ t.flag CCH_MNT_CTL CCH_MNT_CTL_BUSY = false ∧
        t.flag CCH_MNT_CTL CCH_MNT_CTL_DONE = true ∧
        (∀ x c, s.cLine ag x = some c → m.names s.node ag x c.way (s.carved ag c.way) = true → t.cLine ag x = none)) ∧
    (∀ (m : MntRun), s.coh.mnt = some m → mntAgent m.target = none → m.todo = [] → s.mntLeases m = [] → s.mntOpen = false →
      ∃ t, exec .cchMntDone s = .next t ∧ t.coh.mnt = none ∧ t.flag CCH_MNT_CTL CCH_MNT_CTL_BUSY = false ∧
        t.flag CCH_MNT_CTL CCH_MNT_CTL_DONE = true ∧ OnlyRegs [CCH_MNT_CTL] { s with coh := t.coh } t) ∧
    (∀ v : Word, s.flag CCH_REPL CCH_REPL_LOCK = false →
      ∃ t, exec (.cchReplLock v) s = .next t ∧ t.flag CCH_REPL CCH_REPL_LOCK = true ∧ bits (t.reg CCH_REPL) 3 0 = bits v 3 0 ∧
        OnlyRegs [CCH_REPL] s t) ∧
    (∀ v : Word, s.flag CCH_REPL CCH_REPL_LOCK = true → bits v 3 0 ≠ bits (s.reg CCH_REPL) 3 0 →
      ∃ t, exec (.cchReplLock v) s = .next t ∧ t.flag CCH_REPL CCH_REPL_REFUSED = true ∧
        bits (t.reg CCH_REPL) 3 0 = bits (s.reg CCH_REPL) 3 0 ∧ OnlyRegs [CCH_REPL] s t) ∧
    (∀ (d : DieId) (v : Word), s.flag (CCH_SC_CARVE d) CCH_SC_CARVE_LOCK = false → fget v CCH_SC_CARVE_SCRATCH_WAYS ≤ 8 →
      ∃ t, exec (.cchScCarveLock d v) s = .next t ∧ t.flag (CCH_SC_CARVE d) CCH_SC_CARVE_LOCK = true ∧
        t.scratchWays d = fget v CCH_SC_CARVE_SCRATCH_WAYS ∧ t.scWays d = 15 - s.ledgerTaken d - fget v CCH_SC_CARVE_SCRATCH_WAYS ∧
        (s.cLines (agentId (.sc d)) = [] → OnlyRegs [CCH_SC_CARVE d] s t)) ∧
    (∀ (byNode : Bool) (node : BitVec 13), s.flag CCH_RRB_INV CCH_RRB_INV_BUSY = false →
      ∃ t, exec (.cchRrbInvGo byNode node) s = .next t ∧ t.flag CCH_RRB_INV CCH_RRB_INV_BUSY = true ∧
        t.coh.rrbInv = (if byNode then some node.toNat else none) ∧ t.coh.rrb = s.coh.rrb ∧ RegsBut [CCH_RRB_INV] s t ∧ t.mem = s.mem) ∧
    (s.flag CCH_RRB_INV CCH_RRB_INV_BUSY = true → s.hif.rings = [] →
      ∃ t, exec .cchRrbInvDone s = .next t ∧ t.flag CCH_RRB_INV CCH_RRB_INV_BUSY = false ∧
        (∀ p ∈ t.coh.rrb, s.coh.rrbInv ≠ none ∧ s.coh.rrbInv ≠ some (p.1 / 2 ^ 43 % 2 ^ 13)) ∧
        (∀ p ∈ s.coh.rrb, s.coh.rrbInv ≠ none → s.coh.rrbInv ≠ some (p.1 / 2 ^ 43 % 2 ^ 13) → p ∈ t.coh.rrb) ∧
        RegsBut [CCH_RRB_INV] s t ∧ t.mem = s.mem)


/-! ### HBM (spec/11) -/

/-- Placement: the HBM granule of an address outside the shielded ranges is its bits 39 to 21, and inside one R307 gives it; its
stack and in-stack offset are those of the rule; no two bytes share a place, and each stack holds 32,768 granules; the 64 lines
of an aligned 4 KiB block lie in 64 pseudo-channels. -/
def Obligations.HbmPlacement : Prop :=
  (∀ (s : State) (a : Nat), s.unified = false → s.shdOf (a / 2 ^ 21) = none → s.keyGranule a = a / 2 ^ 21) ∧
  (∀ (s : State) (a g q : Nat), s.keyGranule a = g → q = g / 3 →
    (s.hbmPlace a).1 = 4 * (g % 3) + (nbits q 1 0 ^^^ nbits q 3 2 ^^^ nbits q 5 4 ^^^ nbits q 7 6) ∧
    nbits (s.hbmPlace a).2.2 35 21 = nbits q 16 2 ∧ (s.hbmPlace a).2.2 % 2 ^ 21 = a % 2 ^ 21) ∧
  (∀ g h a b : Nat, g < 393216 → h < 393216 → stackOfG g = stackOfG h → offOfG g a = offOfG h b →
    g = h ∧ a % 2 ^ 21 = b % 2 ^ 21) ∧
  (∀ k m : Nat, k < 12 → m < 32768 → ∃ g, g < 393216 ∧ stackOfG g = k ∧ nbits (offOfG g 0) 35 21 = m) ∧
  (∀ o i j : Nat, o % 4096 = 0 → i < 64 → j < 64 → pcOfOff (o + 64 * i) = pcOfOff (o + 64 * j) → i = j)

/-- Reads: a stack in reset or quiesced and a range that is not zeroed yet answer with an error; what both codes find in a line
is corrected and counted by kind, an uncorrectable unshielded line takes the poison marker, a shielded or stale one is
reconstructed, a failed pseudo-channel reads as poison, and a lane that reaches MARK_THRESH is marked; the scrubber goes on line
by line. Writes: an accepted write gives the selected bytes their new value and leaves every other byte of memory as it was; a
partial write stands in the write-combining buffer, which merges it: a line whose bytes are all valid is written, another entry
is freed by a read-modify-write that is counted by its cause; with the buffer off the read-modify-write comes at once. Choices
of the model it rests on: notes/assumptions/35.md. -/
def Obligations.HbmLines : Prop :=
  (∀ (s : State) (addr : Word) (key k pc : Nat), HbmAt s addr key k pc → (∀ f : HbmFinding,
     (s.computeHeld = true → ∃ t, exec (.hbmRead addr f) s = .next t ∧ t.answer = .error ∧ Counted TST_SI_CNT TST_SI_CNT_HBM s t ∧
       t.mem = s.mem ∧ RegsBut [TST_SI_CNT] s t) ∧
     (s.computeHeld = false → s.flag (HBM_STAT k) HBM_STAT_QUIESCED = true → ∃ t, exec (.hbmRead addr f) s = .next t ∧
       t.answer = .error ∧ Counted (HBM_STAT k) HBM_STAT_Q_ACC s t ∧ Counted TST_SI_CNT TST_SI_CNT_HBM s t ∧ t.mem = s.mem ∧
       RegsBut [HBM_STAT k, TST_SI_CNT] s t) ∧
     (s.computeHeld = false → s.flag (HBM_STAT k) HBM_STAT_QUIESCED = false → s.shdBlocked key = true ∨ s.closedMem key = true →
       exec (.hbmRead addr f) s = .next { s with answer := .error }) ∧
     (HbmOpen s key k →
       (s.pcFailed k pc = true → s.keyShield key = none → ∃ t, exec (.hbmRead addr f) s = .next t ∧
         t.answer = .data (memBytes s.mem key 64) true ∧ Counted (HBM_ECC2 k) HBM_ECC2_POISON_RD s t ∧
         Counted TST_SI_CNT TST_SI_CNT_HBM s t ∧ t.mem = s.mem) ∧
       (s.pcFailed k pc = true ∧ s.keyShield key ≠ none ∨ s.pcFailed k pc = false ∧ s.isStale key = true → exec (.hbmRead addr f) s
         = .next { s with hbm := { s.hbm with recon := s.hbm.recon ++ [{ line := key, started := false, scrub := false }] } }) ∧
       (s.pcFailed k pc = false → s.isStale key = false → ∀ bs : List Byte,
         (s.lineFind key f = (.clean, bs) → ∃ t, exec (.hbmRead addr f) s = .next t ∧ t.answer = .data bs false ∧ t.mem = s.mem ∧
           (f.severity = true → Counted (HBM_ECC k) HBM_ECC_SEV_CORR s t ∧ RegsBut [HBM_ECC k] s t) ∧
           (f.severity = false → RegsBut [] s t)) ∧
         (∀ es, s.lineFind key f = (.corrected es, bs) → ∃ t, exec (.hbmRead addr f) s = .next t ∧ t.answer = .data bs false ∧
           Counted (HBM_ECC k) HBM_ECC_OUTER_CORR s t ∧ memBytes t.mem key 64 = bs ∧ mget false t.poison key = false ∧
           (∀ l, es ≠ [] → (∀ e ∈ es, symLane e.1 = l) → s.mark k pc = none →
             mget 0 s.hbm.lanes (16 * (64 * k + pc) + l) < s.rd (HBM_CTL k) HBM_CTL_MARK_THRESH →
             s.rd (HBM_CTL k) HBM_CTL_MARK_THRESH ≤ min (mget 0 s.hbm.lanes (16 * (64 * k + pc) + l) + es.length) 0xFF →
             t.mark k pc = some l)) ∧
         (s.lineFind key f = (.erasure, bs) → ∃ t, exec (.hbmRead addr f) s = .next t ∧ t.answer = .data bs false ∧
           Counted (HBM_ECC k) HBM_ECC_ERASURE s t ∧ RegsBut [HBM_ECC k] s t ∧ t.mem = s.mem) ∧
         (s.lineFind key f = (.poison, bs) → ∃ t, exec (.hbmRead addr f) s = .next t ∧ t.answer = .data bs true ∧
           Counted (HBM_ECC2 k) HBM_ECC2_POISON_RD s t ∧ RegsBut [HBM_ECC2 k] s t ∧ t.mem = s.mem) ∧
         (s.lineFind key f = (.uncorrectable, bs) → s.keyShield key = none → Quiet s → ∃ t, exec (.hbmRead addr f) s = .next t ∧
           t.answer = .data bs true ∧ mget false t.poison key = true ∧ Counted (HBM_ECC k) HBM_ECC_UNCORR s t ∧ t.mem = s.mem) ∧
         (s.lineFind key f = (.uncorrectable, bs) → s.keyShield key ≠ none → exec (.hbmRead addr f) s
           = .next { s with hbm := { s.hbm with recon := s.hbm.recon ++ [{ line := key, started := false, scrub := false }] } })))) ∧
     (HbmOpen s key k → HbmGood s key k pc →
       exec (.hbmRead addr .clean) s = .next { s with answer := .data (memBytes s.mem key 64) false }) ∧
     (∀ sk : StackId, s.rd (HBM_CTL sk) HBM_CTL_SCRUB_H ≠ 0 → s.flag (HBM_STAT sk) HBM_STAT_QUIESCED = false →
       ∀ f : HbmFinding, ∃ t, exec (.scrubStep sk f) s = .next t ∧
         mget 0 t.hbm.scrub sk = (mget 0 s.hbm.scrub sk + 1) % 2 ^ 30 ∧
         (mget 0 s.hbm.scrub sk + 1 = 2 ^ 30 →
           t.rd (HBM_STAT sk) HBM_STAT_SCRUB_PASSES = (s.rd (HBM_STAT sk) HBM_STAT_SCRUB_PASSES + 1) % 2 ^ 32))) ∧
  (∀ (s : State) (addr : Word) (key k pc : Nat), HbmAt s addr key k pc →
     (∀ (mask : Word) (data : Line) (p : Bool), HbmOpen s key k → mask ≠ 0 →
       ((s.keyShield key = none → s.pcFailed k pc = false) → Quiet s →
         ∃ t, exec (.hbmWrite addr mask data p) s = .next t ∧ t.answer = .done ∧
           (∀ i, i < 64 → mget 0 t.mem (key + i)
             = if bitAt mask i then BitVec.ofNat 8 (bits data (8 * i + 7) (8 * i)) else mget 0 s.mem (key + i)) ∧
           (∀ a, a < key ∨ key + 64 ≤ a → mget 0 t.mem a = mget 0 s.mem a) ∧
           (mask.toNat = fullMask → mget false t.poison key = p)) ∧
       (s.keyShield key = none → s.pcFailed k pc = true →
         ∃ t, exec (.hbmWrite addr mask data p) s = .next t ∧ t.answer = .error ∧ t.mem = s.mem ∧ t.poison = s.poison ∧
           Counted (HBM_ECC2 k) HBM_ECC2_FAILED_WR s t ∧ Counted TST_SI_CNT TST_SI_CNT_HBM s t) ∧
       (mask.toNat ≠ fullMask → s.pcFailed k pc = false → s.keyShield key = none →
         (s.flag (HBM_WCB_CTL k) HBM_WCB_CTL_EN = true → (∀ e ∈ s.wcb k, e.line ≠ key) → (s.wcb k).length < 224 →
           ∃ t, exec (.hbmWrite addr mask data p) s = .next t ∧
             t.wcb k = s.wcb k ++ [{ line := key, mask := mask.toNat, stage := .opened }] ∧
             t.rd (HBM_WCB_STAT k) HBM_WCB_STAT_OCC = (s.wcb k).length + 1 ∧ RegsBut [HBM_WCB_STAT k] s t) ∧
         (∀ e r, s.flag (HBM_WCB_CTL k) HBM_WCB_CTL_EN = true → s.wcb k = e :: r → e.line = key → e.stage = .opened →
           (∀ x ∈ r, x.line ≠ key) →
           (e.mask ||| mask.toNat = fullMask → ∃ t, exec (.hbmWrite addr mask data p) s = .next t ∧ t.wcb k = r ∧
             t.rd (HBM_WCB_STAT2 k) HBM_WCB_STAT2_MERGED_FULL = (s.rd (HBM_WCB_STAT2 k) HBM_WCB_STAT2_MERGED_FULL + 1) % 2 ^ 32) ∧
           (e.mask ||| mask.toNat ≠ fullMask → ∃ t, exec (.hbmWrite addr mask data p) s = .next t ∧
             t.wcb k = { e with mask := e.mask ||| mask.toNat } :: r)) ∧
         (s.flag (HBM_WCB_CTL k) HBM_WCB_CTL_EN = false → ∃ t, exec (.hbmWrite addr mask data p) s = .next t ∧ t.wcb k = s.wcb k ∧
           Counted (HBM_WCB_STAT k) HBM_WCB_STAT_RMW_EVICT s t))) ∧
     (∀ e r, s.wcb k = e :: r → e.line = key →
       (e.stage = .opened → ∃ t, exec (.wcbDeadline addr) s = .next t ∧ t.wcb k = { e with stage := .drain 1 } :: r ∧
         t.mem = s.mem ∧ RegsBut [HBM_WCB_STAT k] s t) ∧
       (s.keyShield key = none → ∀ f : HbmFinding,
         (e.stage = .drain 1 → ∃ t, exec (.wcbDrainRead addr f) s = .next t ∧ t.wcb k = r ∧
           Counted (HBM_WCB_STAT k) HBM_WCB_STAT_RMW_DEADLINE s t ∧
           (HbmGood s key k pc → f = .clean → RegsBut [HBM_WCB_STAT k] s t ∧ t.mem = s.mem)) ∧
         (e.stage = .drain 2 → ∃ t, exec (.wcbDrainRead addr f) s = .next t ∧ t.wcb k = r ∧
           Counted (HBM_WCB_STAT k) HBM_WCB_STAT_RMW_EVICT s t ∧
           (HbmGood s key k pc → f = .clean → RegsBut [HBM_WCB_STAT k] s t ∧ t.mem = s.mem)))))

/-- Shielded ranges: a write takes an entry, or is counted where the member has failed; a draining entry sends its delta, which
locks the stripe line at its parity controller while an entry is free there; acknowledgement and release end it; a release that
never comes makes the line stale; reconstruction answers the line, or poison where another line is bad. Choices of the model it
rests on: notes/assumptions/37.md. -/
def Obligations.HbmShield : Prop :=
  ∀ (s : State) (addr : Word) (key k pc : Nat), HbmAt s addr key k pc → s.keyShield key ≠ none →
    (∀ (mask : Word) (data : Line) (p : Bool), HbmOpen s key k → mask ≠ 0 →
      (s.pcFailed k pc = true → ∃ t, exec (.hbmWrite addr mask data p) s = .next t ∧ t.answer = .done ∧ t.wcb k = s.wcb k ∧
        Counted HBM_SHD_ERR HBM_SHD_ERR_DEGR_WR s t) ∧
      (s.pcFailed k pc = false → (∀ e ∈ s.wcb k, e.line ≠ key) → (s.wcb k).length < 224 →
        ∃ t, exec (.hbmWrite addr mask data p) s = .next t ∧ t.answer = .done ∧ t.isStale key = false ∧ t.wcb k = s.wcb k
          ++ [{ line := key, mask := mask.toNat, stage := if mask.toNat = fullMask then .drain 0 else .opened }])) ∧
    (∀ e r c, s.wcb k = e :: r → e.line = key → e.stage = .drain c → ∀ f : HbmFinding,
      (s.parityFailed key = false → ∃ t, exec (.wcbDrainRead addr f) s = .next t ∧ t.wcb k = { e with stage := .delta } :: r ∧
        t.hbm.deltas = s.hbm.deltas ++ [(key, false)] ∧ (HbmGood s key k pc → f = .clean → t.mem = s.mem)) ∧
      (s.parityFailed key = true → ∃ t, exec (.wcbDrainRead addr f) s = .next t ∧ t.wcb k = r ∧
        t.hbm.unprot.contains (s.stripeKey key) = true ∧ (HbmGood s key k pc → f = .clean →
          Counted HBM_SHD_ERR HBM_SHD_ERR_UNPROT s t ∧ t.mem = s.mem))) ∧
    (∀ w ds, s.hbm.deltas = (key, w) :: ds → s.hbm.locks.any (fun l => l.1 == s.stripeKey key) = false →
      ((s.hbm.locks.filter (fun l => s.parStack l.2 == s.parStack key)).length < 32 →
        ∃ t, exec (.parityDelta addr) s = .next t ∧ t.hbm.locks = s.hbm.locks ++ [(s.stripeKey key, key)] ∧
          (key, w) ∉ t.hbm.deltas ∧ t.mem = s.mem ∧ RegsBut [HBM_WCB_STAT k, HBM_WCB_STAT (s.parStack key)] s t) ∧
      (32 ≤ (s.hbm.locks.filter (fun l => s.parStack l.2 == s.parStack key)).length → w = false →
        ∃ t, exec (.parityDelta addr) s = .next t ∧ t.hbm.locks = s.hbm.locks ∧
          Counted (HBM_WCB_STAT (s.parStack key)) HBM_WCB_STAT_PAR_WAIT s t)) ∧
    (∀ e r, s.wcb k = e :: r → e.line = key →
      (e.stage = .acked → ∃ t, exec (.parityAck addr) s = .next t ∧ t.wcb k = { e with stage := .released } :: r ∧
        t.rd (HBM_WCB_STAT2 k) HBM_WCB_STAT2_SHD_WR = (s.rd (HBM_WCB_STAT2 k) HBM_WCB_STAT2_SHD_WR + 1) % 2 ^ 32 ∧ t.mem = s.mem) ∧
      (e.stage = .released → ∃ t, exec (.parityRelease addr) s = .next t ∧ t.wcb k = r ∧
        (s.stripeKey key, key) ∉ t.hbm.locks ∧ t.mem = s.mem)) ∧
    ((s.stripeKey key, key) ∈ s.hbm.locks →
      ((mget [] s.hbm.stale k).length < 256 → ∃ t, exec (.releaseTimeout addr) s = .next t ∧ t.isStale key = true ∧
        (s.stripeKey key, key) ∉ t.hbm.locks ∧ Counted HBM_SHD_ERR HBM_SHD_ERR_STALE s t ∧ t.mem = s.mem) ∧
      (256 ≤ (mget [] s.hbm.stale k).length → ∃ t, exec (.releaseTimeout addr) s = .next t ∧ t.pcFailed k pc = true ∧
        (s.stripeKey key, key) ∉ t.hbm.locks)) ∧
    (∀ r rs, s.hbm.recon = r :: rs → r.line = key → r.scrub = false →
      (r.started = false → s.hbm.locks.any (fun l => l.1 == s.stripeKey key) = false →
        exec (.reconstruction addr) s = .next { s with hbm := { s.hbm with recon := rs ++ [{ r with started := true }] } }) ∧
      (r.started = true → s.noShield key = false → Quiet s → ∃ t, exec (.reconstructionComplete addr false) s = .next t ∧
        t.answer = .data (memBytes s.mem key 64) false ∧ t.hbm.recon = rs ∧ Counted HBM_SHD_ERR HBM_SHD_ERR_RECON s t ∧
        (s.pcFailed k pc = false → mget false t.poison key = false) ∧ t.mem = s.mem) ∧
      (r.started = true → s.pcFailed k pc = false → Quiet s → ∃ t, exec (.reconstructionComplete addr true) s = .next t ∧
        t.answer = .data (memBytes s.mem key 64) true ∧ t.hbm.recon = rs ∧ mget false t.poison key = true ∧ t.mem = s.mem))

/-- Heat, ranges and failures: temperatures set the throttle step and the trip, which falls step by step; thresholds that do not
rise are ignored; a range is established or refused with BAD and reads zero once INIT clears; failed pseudo-channels, rebuilds,
quiesce and lane marks. Choices of the model it rests on: notes/assumptions/36.md, 37.md. -/
def Obligations.HbmControl : Prop :=
  ∀ (s : State) (k : StackId),
    (∀ temp : Byte, ∃ t, exec (.hbmTempRead k temp) s = .next t ∧ t.rd (HBM_THR_STAT k) HBM_THR_STAT_TEMP = temp.toNat ∧
      t.rd (HBM_THR_STAT k) HBM_THR_STAT_TMAX = max (s.rd (HBM_THR_STAT k) HBM_THR_STAT_TMAX) temp.toNat ∧
      (s.rd (HBM_THR_CFG k) HBM_THR_CFG_TRIP ≤ temp.toNat →
        t.flag (HBM_THR_STAT k) HBM_THR_STAT_TRIPPED = true ∧ t.rd (HBM_THR_STAT k) HBM_THR_STAT_STEP = 4) ∧
      (temp.toNat < s.rd (HBM_THR_CFG k) HBM_THR_CFG_TRIP → RegsBut [HBM_THR_STAT k] s t ∧ t.mem = s.mem ∧
        ∀ i, i ≤ 4 → (∀ j, j ∈ [1, 2, 3, 4] → (s.thrAt k j ≤ temp.toNat ↔ j ≤ i)) →
          t.rd (HBM_THR_STAT k) HBM_THR_STAT_STEP = max (s.rd (HBM_THR_STAT k) HBM_THR_STAT_STEP) i)) ∧
    (s.rd (HBM_THR_STAT k) HBM_THR_STAT_STEP ≠ 0 →
      s.rd (HBM_THR_STAT k) HBM_THR_STAT_TEMP + s.rd (HBM_THR_CFG k) HBM_THR_CFG_HYST
        < s.thrAt k (s.rd (HBM_THR_STAT k) HBM_THR_STAT_STEP) →
      ∃ t, exec (.throttleStepFall k) s = .next t ∧ OnlyRegs [HBM_THR_STAT k] s t ∧
        t.rd (HBM_THR_STAT k) HBM_THR_STAT_STEP + 1 = s.rd (HBM_THR_STAT k) HBM_THR_STAT_STEP) ∧
    (∀ v : Word, (fget v HBM_THR_CFG_T1 < fget v HBM_THR_CFG_T2 ∧ fget v HBM_THR_CFG_T2 < fget v HBM_THR_CFG_T3 ∧
        fget v HBM_THR_CFG_T3 < fget v HBM_THR_CFG_T4 ∧ fget v HBM_THR_CFG_T4 < fget v HBM_THR_CFG_TRIP →
      ∃ t, exec (.hbmThrCfgWrite k v) s = .next t ∧ OnlyRegs [HBM_THR_CFG k] s t ∧
        ∀ f, f ∈ [HBM_THR_CFG_T1, HBM_THR_CFG_T2, HBM_THR_CFG_T3, HBM_THR_CFG_T4, HBM_THR_CFG_TRIP, HBM_THR_CFG_HYST] →
          t.rd (HBM_THR_CFG k) f = fget v f) ∧
      (fget v HBM_THR_CFG_TRIP ≤ fget v HBM_THR_CFG_T4 → exec (.hbmThrCfgWrite k v) s = .next s)) ∧
    (∀ (x : Fin 8) (v : Word), x.val ≠ 7 → s.flag (HBM_SHD_CFG x) HBM_SHD_CFG_EN = false → fget v HBM_SHD_CFG_EN = 1 →
      (2 ≤ fget v HBM_SHD_CFG_GRANULES → 12 * fget v HBM_SHD_CFG_STRIPE + fget v HBM_SHD_CFG_GRANULES ≤ 393216 →
        (∀ y, y < 8 → s.shdRange y = none) → (∀ j, j < 12 → s.flag (HBM_STAT j) HBM_STAT_QUIESCED = false) →
        ∃ t, exec (.hbmShdEn x v) s = .next t ∧ t.shdRange x = some (12 * fget v HBM_SHD_CFG_STRIPE, fget v HBM_SHD_CFG_GRANULES) ∧
          t.flag (HBM_SHD_STAT x) HBM_SHD_STAT_INIT = true ∧
          t.rd (HBM_SHD_STAT x) HBM_SHD_STAT_DATA = fget v HBM_SHD_CFG_GRANULES - (fget v HBM_SHD_CFG_GRANULES + 11) / 12 ∧
          t.mem = s.mem) ∧
      (fget v HBM_SHD_CFG_GRANULES < 2 ∨ 393216 < 12 * fget v HBM_SHD_CFG_STRIPE + fget v HBM_SHD_CFG_GRANULES →
        ∃ t, exec (.hbmShdEn x v) s = .next t ∧ OnlyRegs [HBM_SHD_CFG x, HBM_SHD_STAT x] s t ∧
          t.flag (HBM_SHD_CFG x) HBM_SHD_CFG_EN = false ∧ t.flag (HBM_SHD_STAT x) HBM_SHD_STAT_BAD = true)) ∧
    (∀ (x : Fin 8) (b n : Nat), s.flag (HBM_SHD_STAT x) HBM_SHD_STAT_INIT = true → s.shdRange x = some (b, n) →
      ∃ t, exec (.shieldZeroingDone x) s = .next t ∧ t.flag (HBM_SHD_STAT x) HBM_SHD_STAT_INIT = false ∧
        ∀ a, mget 0 t.mem a = if b * 2 ^ 21 ≤ a ∧ a < (b + n) * 2 ^ 21 then 0 else mget 0 s.mem a) ∧
    (∀ v : Word, ∃ t, exec (.hbmFailPcWrite k v) s = .next t ∧ t.reg (HBM_FAIL_PC k) = s.reg (HBM_FAIL_PC k) ||| v ∧
      RegsBut (HBM_FAIL_PC k :: (List.range 8).map HBM_SHD_STAT) s t ∧ t.mem = s.mem) ∧
    (∀ pc : BitVec 6, ∃ t, exec (.pcPhyFail k (some pc)) s = .next t ∧ t.pcFailed k pc.toNat = true) ∧
    (∃ t, exec (.pcPhyFail k none) s = .next t ∧ t.flag (HBM_STAT k) HBM_STAT_FAILED = true) ∧
    (∀ (pc : BitVec 6) (all : Bool), s.flag (HBM_REBUILD k) HBM_REBUILD_BUSY = false →
      ∃ t, exec (.hbmRebuildGo k pc all) s = .next t ∧ OnlyRegs [HBM_REBUILD k, HBM_STAT k] s t ∧
        t.flag (HBM_REBUILD k) HBM_REBUILD_BUSY = true ∧ t.rd (HBM_REBUILD k) HBM_REBUILD_PC = pc.toNat ∧
        t.flag (HBM_REBUILD k) HBM_REBUILD_ALL = all ∧ t.flag (HBM_STAT k) HBM_STAT_REBUILDING = true) ∧
    (∀ (fails : Bool) (lines : W32), s.flag (HBM_REBUILD k) HBM_REBUILD_BUSY = true →
      ∃ t, exec (.hbmRebuildDone k fails lines) s = .next t ∧ t.flag (HBM_REBUILD k) HBM_REBUILD_BUSY = false ∧
        t.rd (HBM_REBUILD k) HBM_REBUILD_LINES = lines.toNat ∧ t.flag (HBM_STAT k) HBM_STAT_REBUILDING = false ∧ t.mem = s.mem ∧
        (fails = true → t.flag (HBM_REBUILD k) HBM_REBUILD_ERR = true ∧ t.reg (HBM_FAIL_PC k) = s.reg (HBM_FAIL_PC k)) ∧
        (fails = false → s.flag (HBM_REBUILD k) HBM_REBUILD_ALL = true →
          t.reg (HBM_FAIL_PC k) = 0 ∧ t.flag (HBM_STAT k) HBM_STAT_FAILED = false) ∧
        (fails = false → s.flag (HBM_REBUILD k) HBM_REBUILD_ALL = false →
          ∀ i, i < 64 → bitAt (t.reg (HBM_FAIL_PC k)) i
            = (bitAt (s.reg (HBM_FAIL_PC k)) i && i != s.rd (HBM_REBUILD k) HBM_REBUILD_PC))) ∧
    (∀ v : Word, (fget v HBM_CTL_QUIESCE = 1 → (∃ x, x < 8 ∧ ∃ b n, s.shdRange x = some (b, n) ∧ rangeTouches b n k = true) →
        ∃ t, exec (.hbmQuiesceWrite k v) s = .next t ∧ OnlyRegs [HBM_CTL k] s t ∧
          t.rd (HBM_CTL k) HBM_CTL_QUIESCE = s.rd (HBM_CTL k) HBM_CTL_QUIESCE ∧ t.flag (HBM_CTL k) HBM_CTL_Q_REFUSED = true) ∧
      ((∀ x, x < 8 → s.shdRange x = none) → ∃ t, exec (.hbmQuiesceWrite k v) s = .next t ∧ OnlyRegs [HBM_CTL k, HBM_STAT k] s t ∧
        t.rd (HBM_CTL k) HBM_CTL_QUIESCE = fget v HBM_CTL_QUIESCE ∧
        t.rd (HBM_STAT k) HBM_STAT_QUIESCED = fget v HBM_CTL_QUIESCE)) ∧
    (∀ (i : Fin 8) (v : Word), ∃ t, exec (.hbmMarkWrite k i v) s = .next t ∧ OnlyRegs [HBM_MARK k i] s t ∧
      ∀ j, j < 8 → t.mark k (8 * i + j)
        = if bitAt v (8 * j + 4) ∧ 8 < bits v (8 * j + 3) (8 * j) then s.mark k (8 * i + j)
          else if bitAt v (8 * j + 4) then some (bits v (8 * j + 3) (8 * j)) else none)

/-- Repair and margining: each operation runs when nothing else does, and a hard or a clearing one only on a quiesced stack; its
end gives the result, the spares left, and the rows and DQ it replaced; a margining run needs a quiesced and empty stack and
leaves the eye of every DQ. Choices of the model it rests on: notes/assumptions/37.md, 38.md. -/
def Obligations.HbmRepairs : Prop :=
  ∀ (s : State) (k : StackId) (pc bank dq : BitVec 6) (row : BitVec 14),
    (s.flag (HBM_REPAIR_STAT k) HBM_REPAIR_STAT_BUSY = false → s.flag (HBM_MRG_CTL k) HBM_MRG_CTL_BUSY = false → s.ebOnStack k = false →
      (∃ t, exec (.hbmRepairQuery k pc bank) s = .next t ∧ RepairOn k ⟨0, pc.toNat, bank.toNat, 0, 0, false⟩ s t) ∧
      (∀ y : Bool, ∃ t, exec (.softRowRepair k pc bank row y) s = .next t ∧
        RepairOn k ⟨1, pc.toNat, bank.toNat, row.toNat, 0, y⟩ s t) ∧
      (∀ y : Bool, dq.toNat < 36 → ∃ t, exec (.dqRemap k pc dq y) s = .next t ∧ RepairOn k ⟨3, pc.toNat, 0, 0, dq.toNat, y⟩ s t) ∧
      (∀ y : Bool, 36 ≤ dq.toNat → ∃ t, exec (.dqRemap k pc dq y) s = .next t ∧
        t.rd (HBM_REPAIR_STAT k) HBM_REPAIR_STAT_RESULT = 5 ∧ OnlyRegs [HBM_REPAIR k, HBM_REPAIR_STAT k] s t) ∧
      (s.flag (HBM_STAT k) HBM_STAT_QUIESCED = true →
        (∃ t, exec (.hardRowRepair k pc bank row) s = .next t ∧ RepairOn k ⟨2, pc.toNat, bank.toNat, row.toNat, 0, false⟩ s t) ∧
        (∃ t, exec (.clearRemap k pc) s = .next t ∧ RepairOn k ⟨4, pc.toNat, 0, 0, 0, false⟩ s t)) ∧
      (s.flag (HBM_STAT k) HBM_STAT_QUIESCED = false → ∀ c ∈ [Instr.hardRowRepair k pc bank row, .clearRemap k pc],
        ∃ t, exec c s = .next t ∧ t.rd (HBM_REPAIR_STAT k) HBM_REPAIR_STAT_RESULT = 3 ∧
          OnlyRegs [HBM_REPAIR k, HBM_REPAIR_STAT k] s t)) ∧
    (s.flag (HBM_REPAIR_STAT k) HBM_REPAIR_STAT_BUSY = true ∨ s.flag (HBM_MRG_CTL k) HBM_MRG_CTL_BUSY = true ∨ s.ebOnStack k = true →
      ∀ y : Bool, ∀ c ∈ [Instr.hbmRepairQuery k pc bank, .softRowRepair k pc bank row y, .hardRowRepair k pc bank row,
          .dqRemap k pc dq y, .clearRemap k pc],
        ∃ t, exec c s = .next t ∧ t.rd (HBM_REPAIR_STAT k) HBM_REPAIR_STAT_RESULT = 4 ∧
          OnlyRegs [HBM_REPAIR k, HBM_REPAIR_STAT k] s t) ∧
    (∀ (r : HbmRep) (res : RepairEnd) (rows : BitVec 4), mfind s.hbm.repair k = some r →
      (r.op = 3 ∧ 2 ≤ s.dqsUsed k r.pc ∨ r.op ≠ 3 ∧ res = .noSpare →
        ∃ t, exec (.hbmRepairDone k res rows) s = .next t ∧ t.rd (HBM_REPAIR_STAT k) HBM_REPAIR_STAT_RESULT = 1 ∧
          t.flag (HBM_REPAIR_STAT k) HBM_REPAIR_STAT_BUSY = false ∧ mfind t.hbm.repair k = none ∧ t.mem = s.mem) ∧
      (res = .verifyFailed → (r.op = 3 → s.dqsUsed k r.pc < 2) →
        ∃ t, exec (.hbmRepairDone k res rows) s = .next t ∧ t.rd (HBM_REPAIR_STAT k) HBM_REPAIR_STAT_RESULT = 2 ∧
          t.flag (HBM_REPAIR_STAT k) HBM_REPAIR_STAT_BUSY = false ∧ mfind t.hbm.repair k = none ∧ t.mem = s.mem) ∧
      (res = .done → (r.op = 3 → s.dqsUsed k r.pc < 2) →
        ∃ t, exec (.hbmRepairDone k res rows) s = .next t ∧ t.rd (HBM_REPAIR_STAT k) HBM_REPAIR_STAT_RESULT = 0 ∧
          t.flag (HBM_REPAIR_STAT k) HBM_REPAIR_STAT_BUSY = false ∧ mfind t.hbm.repair k = none ∧
          (r.op = 0 → t.rd (HBM_REPAIR_STAT k) HBM_REPAIR_STAT_ROWS = rows.toNat ∧
            t.rd (HBM_REPAIR_STAT k) HBM_REPAIR_STAT_DQS = 2 - s.dqsUsed k r.pc ∧ t.mem = s.mem) ∧
          (r.op = 1 → t.yar.softRows = s.yar.softRows ++ [rowKey k r]) ∧
          (r.op = 2 → t.yar.hardRows = s.yar.hardRows ++ [rowKey k r] ∧ rowKey k r ∉ t.yar.queuedRows ∧
            (Quiet s → ∀ a ∈ s.rowLines k r, ∀ i, i < 64 → mget 0 t.mem (a + i) = 0)) ∧
          (r.op = 3 → t.yar.softDqs = s.yar.softDqs ++ [(64 * k.val + r.pc, r.dq)] ∧
            ∀ l, s.mark k r.pc = some l → r.dq / 4 = l → t.mark k r.pc = none) ∧
          (r.op = 4 → (∀ x ∈ t.yar.softRows ++ t.yar.softDqs.map (fun d => (d.1, 0)), x.1 ≠ 64 * k.val + r.pc)))) ∧
    (s.flag (HBM_MRG_CTL k) HBM_MRG_CTL_BUSY = false →
      (s.flag (HBM_STAT k) HBM_STAT_QUIESCED = false → ∃ t, exec (.hbmMrgGo k pc) s = .next t ∧ OnlyRegs [HBM_MRG_CTL k] s t ∧
        t.rd (HBM_MRG_CTL k) HBM_MRG_CTL_RESULT = 1 ∧ t.flag (HBM_MRG_CTL k) HBM_MRG_CTL_BUSY = false) ∧
      (s.flag (HBM_STAT k) HBM_STAT_QUIESCED = true → s.wcb k = [] → s.rd (HBM_WCB_STAT k) HBM_WCB_STAT_POCC = 0 →
        s.flag (HBM_REPAIR_STAT k) HBM_REPAIR_STAT_BUSY = false → s.ebOnStack k = false →
        ∃ t, exec (.hbmMrgGo k pc) s = .next t ∧ OnlyRegs [HBM_MRG_CTL k] s t ∧
          t.rd (HBM_MRG_CTL k) HBM_MRG_CTL_PC = pc.toNat ∧ t.flag (HBM_MRG_CTL k) HBM_MRG_CTL_BUSY = true)) ∧
    (∀ eyes : List (BitVec 33), eyes.length = 38 → s.flag (HBM_MRG_CTL k) HBM_MRG_CTL_BUSY = true →
      ∃ t, exec (.hbmMrgDone k eyes) s = .next t ∧ t.flag (HBM_MRG_CTL k) HBM_MRG_CTL_BUSY = false ∧
        t.rd (HBM_MRG_CTL k) HBM_MRG_CTL_RESULT = 0 ∧ RegsBut [HBM_MRG_CTL k, HBM_MRG_RES k] s t ∧ t.mem = s.mem ∧
        (∀ i, i < 38 → mget 0 t.hbm.eyes (64 * k + i) = (eyes.getD i 0).toNat) ∧
        (s.rd (HBM_MRG_CTL k) HBM_MRG_CTL_READ_DQ < 38 →
          (t.reg (HBM_MRG_RES k)).toNat = (eyes.getD (s.rd (HBM_MRG_CTL k) HBM_MRG_CTL_READ_DQ) 0).toNat))


/-! ### Yelry cores (spec/16) -/

/-- Loads, stores, fetches and I/O of a running hart: a load takes the store buffer's bytes first, a store stands in the buffer
with all its bytes, poison and failed reads trap, a fetch takes the instruction cache's copy or fills it, I/O waits for an empty
buffer, and a hart that does not run does nothing. Choices of the model it rests on: notes/assumptions/29.md, 30.md. -/
def Obligations.HartAccesses : Prop :=
  ∀ (s u : State) (c : CoreId) (pa : Word) (size : AccSize) (page : PageAttr) (a n : Nat),
    u = hartAwake s c → a = pa.toNat → n = accBytesN size →
    (s.hartRuns c = false → ∀ (i : Instr), i ∈ ([.yelryLoad c pa size page .plain .l1d .clean,
        .yelryStore c pa size page .plain 0 false,
        .ioAccess c pa size none, .yelryFence c 0, .fenceI c, .lr c pa true page false, .cboZero c pa, .wfi c] : List Instr) →
      exec i s = .next s) ∧
    (s.hartRuns c = true →
      (∀ (hint : Ntl) (arr : CoreArray) (f : CacheFinding), arr ≠ .l1i → u.ioAddr a page = false → sbCovers (u.core c).sb a n = true →
        exec (.yelryLoad c pa size page hint arr f) s
          = .next { u with answer := .data (sbOver (u.core c).sb a (List.replicate n 0)) false }) ∧
      (∀ (hint : Ntl) (s2 : State), u.ioAddr a page = false → sbCovers (u.core c).sb a n = false →
        (∀ bs, u.hartRead c a n page (if hint = .all then .stream else .fill) = (s2, .ok bs false) →
          ∃ t, exec (.yelryLoad c pa size page hint .l1d .clean) s = .next t ∧
            t.answer = .data (sbOver (u.core c).sb a bs) false ∧ t.mem = s2.mem ∧ t.regs = s2.regs ∧ t.caches = s2.caches) ∧
        (∀ bs, u.hartRead c a n page (if hint = .all then .stream else .fill) = (s2, .ok bs true) →
          ∃ t, exec (.yelryLoad c pa size page hint .l1d .clean) s = .next t ∧ HartTrapped c 5 a t ∧ bitAt (t.core c).yerrst 5 = true) ∧
        (u.hartRead c a n page (if hint = .all then .stream else .fill) = (s2, .error) ∨
            u.hartRead c a n page (if hint = .all then .stream else .fill) = (s2, .absent) →
          ∃ t, exec (.yelryLoad c pa size page hint .l1d .clean) s = .next t ∧ HartTrapped c 5 a t)) ∧
      (∀ (k : IcLine) (hint : Ntl), mfind (u.core c).l1i (alignDown a 64) = some k →
        (k.poison = false → ∃ t, exec (.yelryLoad c pa size page hint .l1i .clean) s = .next t ∧
          t.answer = .data (slice (leBytes 64 k.data.toNat) (a % 64) n) false ∧ t.mem = s.mem ∧ t.regs = s.regs) ∧
        (k.poison = true → ∃ t, exec (.yelryLoad c pa size page hint .l1i .clean) s = .next t ∧ HartTrapped c 1 a t)) ∧
      (∀ (s2 : State) (bs : List Byte) (hint : Ntl), mfind (u.core c).l1i (alignDown a 64) = none → u.isMem (alignDown a 64) 64 = true →
        u.hartRead c (alignDown a 64) 64 page = (s2, .ok bs false) →
        ∃ t, exec (.yelryLoad c pa size page hint .l1i .clean) s = .next t ∧ t.answer = .data (slice bs (a % 64) n) false ∧
          ∃ k, mfind (t.core c).l1i (alignDown a 64) = some k ∧ k.data = BitVec.ofNat 512 (leVal bs) ∧ k.poison = false) ∧
      (∀ (hint : Ntl) (data : Word) (issue : Bool) (sb : List SbEnt), u.ioAddr a page = false →
        sb = (linePieces a (leBytes n data.toNat)).foldl (sbMerge (hint == .all)) (u.core c).sb →
        (sb.length ≤ 56 → (∀ e ∈ (u.core c).sb, e.issued = false) ∨ (∀ e ∈ (u.core c).sb, e.issued = true) →
          ∃ t, exec (.yelryStore c pa size page hint data issue) s = .next t ∧ t.mem = s.mem ∧
            (∀ i, i < n → sbByte (t.core c).sb (a + i) = some (BitVec.ofNat 8 (bits data (8 * i + 7) (8 * i)))) ∧
            (issue = true → ∀ e ∈ (t.core c).sb, e.issued = true) ∧ (issue = false → t = u.setCore c { u.core c with sb := sb })) ∧
        (56 < sb.length → exec (.yelryStore c pa size page hint data issue) s = .next u)) ∧
      ((u.core c).sb ≠ [] → ∀ st, exec (.ioAccess c pa size st) s = .next (u.sbIssue c)) ∧
      (∀ v : State, v = u.setCore c { u.core c with resv := none } → (u.core c).sb = [] →
        (∀ (s1 : State) (bs : List Byte) (i : Instr), v.busRead 2 false a n = (s1, .ok bs false) →
          i = .ioAccess c pa size none ∨ (u.ioAddr a page = true ∧ i = .yelryLoad c pa size page .plain .l1d .clean) →
          exec i s = .next { s1 with answer := .data bs false }) ∧
        (∀ (s1 : State) (data : Word) (i : Instr),
          i = .ioAccess c pa size (some data) ∨ (u.ioAddr a page = true ∧ i = .yelryStore c pa size page .plain data false) →
          (v.busWrite 2 false a (leBytes n data.toNat) false = (s1, .ok) → exec i s = .next { s1 with answer := .done }) ∧
          (v.busWrite 2 false a (leBytes n data.toNat) false = (s1, .error) → ∃ t, exec i s = .next t ∧ t.mem = s1.mem ∧
            (t.core c).ras = true ∧ bits (t.core c).ysbcnt 31 0 = min 0xFFFFFFFF (bits (s1.core c).ysbcnt 31 0 + 1)))))

/-- Ordering, reserved and atomic accesses and cache-block operations of a running hart: FENCE and FENCE.I, LR, SC and AMOs with
their alignment rule, CBO, prefetch and WFI. Choices of the model it rests on: notes/assumptions/28.md, 30.md. -/
def Obligations.HartAtomics : Prop :=
  ∀ (s u t1 : State) (c : CoreId) (pa : Word) (a : Nat), s.hartRuns c = true → u = hartAwake s c → a = pa.toNat →
    (∀ pred : BitVec 4, (bitAt pred 0 = true ∨ bitAt pred 2 = true → ∃ t, exec (.yelryFence c pred) s = .next t ∧
        (t.core c).draining = true ∧ (t.core c).resv = none ∧ (∀ e ∈ (t.core c).sb, e.issued = true) ∧ t.mem = s.mem) ∧
      (bitAt pred 0 = false → bitAt pred 2 = false → exec (.yelryFence c pred) s = .next (u.setCore c { u.core c with resv := none }))) ∧
    (∃ t, exec (.fenceI c) s = .next t ∧ (t.core c).l1i = [] ∧ (t.core c).draining = true ∧ t.mem = s.mem) ∧
    (∀ (dw : Bool) (n : Nat) (page : PageAttr) (data : Word), n = (if dw then 8 else 4) →
      (a % n ≠ 0 → (∃ t, exec (.lr c pa dw page false) s = .next t ∧ HartTrapped c 4 a t) ∧
        (∃ t, exec (.sc c pa dw page data false) s = .next t ∧ HartTrapped c 6 a t) ∧
        ∀ op, ∃ t, exec (.yelryAmo c pa dw op data false) s = .next t ∧ HartTrapped c 6 a t) ∧
      (a % n = 0 → u.resvOk a n page = false → (∃ t, exec (.lr c pa dw page false) s = .next t ∧ HartTrapped c 5 a t) ∧
        (∃ t, exec (.sc c pa dw page data false) s = .next t ∧ HartTrapped c 7 a t)) ∧
      (∀ (aqrl : Bool) (bs : List Byte), a % n = 0 → u.resvOk a n page = true → (aqrl = true → (u.core c).sb = []) →
        u.hartRead c a n page = (t1, .ok bs false) → ∃ t, exec (.lr c pa dw page aqrl) s = .next t ∧
          t.answer = .data (sbOver (u.core c).sb a bs) false ∧
          (t.core c).resv = some { line := alignDown a 64, addr := a, size := n, held := true }) ∧
      (∀ aqrl : Bool, a % n = 0 → u.resvOk a n page = true → (aqrl = true → (u.core c).sb = []) → u.sbHas c (alignDown a 64) = false →
        (∀ r, (u.core c).resv = some r → r.addr = a → r.size = n →
          (u.setCore c { u.core c with resv := none }).busWrite 2 false a (leBytes n data.toNat) false (some (0x80 + c.val))
            = (t1, .ok) →
          exec (.sc c pa dw page data aqrl) s = .next { t1 with answer := .data (leBytes 8 0) false }) ∧
        ((∀ r, (u.core c).resv = some r → r.addr ≠ a ∨ r.size ≠ n) →
          exec (.sc c pa dw page data aqrl) s
            = .next { u.setCore c { u.core c with resv := none } with answer := .data (leBytes 8 1) false })) ∧
      (∀ (aqrl : Bool) (op : AmoOp) (old : Nat), a % n = 0 → (aqrl = true → (u.core c).sb = []) → u.sbHas c (alignDown a 64) = false →
        (u.isMem a n = true → u.anyPoison (localOf a) 1 = false) →
        (match amoAux op with
         | some k => u.memAmo 2 a n k (data.toNat % 2 ^ (8 * n)) (some (0x80 + c.val))
         | none   => u.memRmw 2 a n (fun _ => data.toNat % 2 ^ (8 * n)) 9 (data.toNat % 2 ^ (8 * n)) (some (0x80 + c.val)))
          = (t1, .ok old false) →
        exec (.yelryAmo c pa dw op data aqrl) s = .next { t1 with answer := .data (leBytes n old) false })) ∧
    (∀ r, (s.core c).resv = some r → exec (.reservationHoldExpire c) s
      = .next (s.setCore c { s.core c with resv := some { r with held := false } })) ∧
    (u.sbHas c (alignDown a 64) = true → ∀ i, i ∈ ([.cboZero c pa, .cboClean c pa, .cboFlush c pa, .cboInval c pa] : List Instr) →
      exec i s = .next (u.sbIssue c)) ∧
    (u.sbHas c (alignDown a 64) = false →
      (u.ioAddr (alignDown a 64) .pma = true → ∃ t, exec (.cboZero c pa) s = .next t ∧ HartTrapped c 7 (alignDown a 64) t) ∧
      (u.ioAddr (alignDown a 64) .pma = false → 
        u.busWrite 2 false (alignDown a 64) (List.replicate 64 0) false (some (0x80 + c.val)) = (t1, .ok) →
        exec (.cboZero c pa) s = .next { t1 with answer := .done }) ∧
      (∀ l, u.cohLine (alignDown a 64) = some l →
        (u.agentGone (0x80 + c.val) = false → u.sliceFull l = false →
          exec (.cboClean c pa) s = .next (u.cReq .cmoClean (0x80 + c.val) l) ∧
          exec (.cboFlush c pa) s = .next (u.cReq .cmoFlush (0x80 + c.val) l) ∧
          exec (.cboInval c pa) s = .next (u.cReq .cmoFlush (0x80 + c.val) l)) ∧
        (HomeFree u l → u.agentGone (0x80 + c.val) = false → u.dirEnt l = DirEnt.reset → u.cLine l3Key l = none →
          ∀ i, i ∈ ([.cboClean c pa, .cboFlush c pa, .cboInval c pa] : List Instr) → ∃ t, exec i s = .next t ∧
            t.coh.net = s.coh.net ++ [{ cmsg .comp (0x80 + c.val) l with txid := u.newTxid (0x80 + c.val) }] ∧ t.mem = s.mem ∧
            t.regs = s.regs)) ∧
      (u.cohLine (alignDown a 64) = none → nodeOf a ≠ s.node → ∀ i, i ∈ ([.cboFlush c pa, .cboInval c pa] : List Instr) →
        ∃ t, exec i s = .next t ∧ mfind t.coh.rrb (alignDown a 64) = none ∧ t.mem = s.mem ∧ t.regs = s.regs)) ∧
    (nodeOf a = s.node → u.ioAddr (alignDown a 64) .pma = false →
      (∀ bs p, u.localRead 2 (localOf (alignDown a 64)) 64 .fill (some (0x80 + c.val)) = (t1, .ok bs p) →
        exec (.prefetch c pa) s = .next t1) ∧
      (u.localRead 2 (localOf (alignDown a 64)) 64 .fill (some (0x80 + c.val)) = (t1, .error) ∨
          u.localRead 2 (localOf (alignDown a 64)) 64 .fill (some (0x80 + c.val)) = (t1, .absent) →
        ∃ t, exec (.prefetch c pa) s = .next t ∧ Counted TST_DROP TST_DROP_PREFETCH t1 t ∧ t.mem = t1.mem)) ∧
    (nodeOf a ≠ s.node → exec (.prefetch c pa) s = .next u) ∧
    ((u.irqPending c = true → exec (.wfi c) s = .next u) ∧
      (u.irqPending c = false → s.flag (MGT_CORE_STAT c) MGT_CORE_STAT_PARK_PEND = false →
        exec (.wfi c) s = .next (u.setCore c { u.core c with wfi := true })) ∧
      (u.irqPending c = false → s.flag (MGT_CORE_STAT c) MGT_CORE_STAT_PARK_PEND = true →
        ∃ t, exec (.wfi c) s = .next t ∧ t.coreSt c = csParking ∧ (∀ e ∈ (t.core c).sb, e.issued = true)))

/-- The store buffer's ends and the cores' states: completions, drops and discards with their records, and start, park and
offline step by step. Choices of the model it rests on: notes/assumptions/60.md. -/
def Obligations.CoreStates : Prop :=
  ∀ (s : State) (c : CoreId),
    (∀ (e : SbEnt) (r : List SbEnt) (line : Word), (s.core c).sb = e :: r → e.line = alignDown line.toNat 64 → e.issued = true →
      (nodeOf e.line = s.node → ∀ (v t1 : State) (ans : StoreAnswer),
        v = s.setCore c { s.core c with sb := r, draining := (s.core c).draining && r != [] } → v.sbPerform c e = (t1, .ok) →
        exec (.storeBufferCompletion c line ans) s = .next t1) ∧
      (nodeOf e.line ≠ s.node →
        (exec (.storeBufferCompletion c line .ok) s
          = .next (s.setCore c { s.core c with sb := r, draining := (s.core c).draining && r != [] })) ∧
        (∀ (ans : StoreAnswer) (cause : Nat), (ans, cause) ∈ [(StoreAnswer.error, 1), (StoreAnswer.absent, 2), (StoreAnswer.poisoned, 3)] →
          ∃ t, exec (.storeBufferCompletion c line ans) s = .next t ∧ (t.core c).sb = r ∧ (t.core c).ras = true ∧
            bits (t.core c).ysbcnt 31 0 = min 0xFFFFFFFF (bits (s.core c).ysbcnt 31 0 + 1) ∧
            (bitAt (s.core c).ysberr 60 = false → bitAt (t.core c).ysberr 60 = true ∧ bits (t.core c).ysberr 58 56 = cause ∧
              bits (t.core c).ysberr 55 0 = e.line % 2 ^ 56) ∧ t.mem = s.mem ∧ t.regs = s.regs)) ∧
      (∃ t, exec (.storeBufferTimeout c line) s = .next t ∧ (t.core c).sb = r ∧ (t.core c).ras = true ∧
        bits (t.core c).ysbcnt 31 0 = min 0xFFFFFFFF (bits (s.core c).ysbcnt 31 0 + 1) ∧
        (bitAt (s.core c).ysberr 60 = false → bits (t.core c).ysberr 58 56 = 4 ∧ bitAt (t.core c).ysberr 59 = true) ∧
        (nodeOf e.line ≠ s.node → t.mem = s.mem ∧ t.regs = s.regs))) ∧
    (∀ (e : SbEnt) (r : List SbEnt) (line : Word), (s.core c).sb = e :: r → e.line = alignDown line.toNat 64 → e.issued = false →
      ∃ t, exec (.storeBufferTimeout c line) s = .next t ∧ (t.core c).sb = r ∧ (t.core c).ras = true ∧ t.mem = s.mem ∧ t.regs = s.regs ∧
        bits (t.core c).ysbcnt 31 0 = min 0xFFFFFFFF (bits (s.core c).ysbcnt 31 0 + 1)) ∧
    (s.mgt.warm ≠ .idle → ∃ t, exec .warmResetDiscard s = .next t ∧
      (∀ k, k < 96 → (t.core k).sb = [] ∧ ((s.core k).sb ≠ [] →
        bits (t.core k).ysbcnt 47 32 = min 0xFFFF (bits (s.core k).ysbcnt 47 32 + (s.core k).sb.length))) ∧
      ((∀ k, k < 96 → ∀ e ∈ (s.core k).sb, e.issued = true → nodeOf e.line ≠ s.node) → t.mem = s.mem ∧ t.regs = s.regs)) ∧
    (s.coreSt c = csOff ∨ s.coreSt c = csParked → ∃ t, exec (.coreStart c) s = .next t ∧ t.coreSt c = csStarting ∧
      t.cLines (0x80 + c.val) = [] ∧ (t.core c).sb = [] ∧ t.mem = s.mem ∧ RegsBut [MGT_CORE_STAT c] s t ∧
      t.rd (MGT_CORE_STAT c) MGT_CORE_STAT_STARTS = (s.rd (MGT_CORE_STAT c) MGT_CORE_STAT_STARTS + 1) % 2 ^ 32) ∧
    (s.coreSt c ≠ csOff → s.coreSt c ≠ csParked → ∃ t, exec (.coreStart c) s = .next t ∧ OnlyRegs [MGT_CORE_CTL c] s t ∧
      t.flag (MGT_CORE_CTL c) MGT_CORE_CTL_START_REFUSED = true) ∧
    (s.coreSt c = csStarting → ∃ t, exec (.corePowerGood c) s = .next t ∧ t.coreSt c = csRunning ∧
      (t.core c).start = some (s.reg (MGT_CORE_PC c) - s.reg (MGT_CORE_PC c) % 2, BitVec.ofNat 64 c.val, s.reg (MGT_CORE_ARG c)) ∧
      t.mem = s.mem ∧ RegsBut [MGT_CORE_STAT c] s t) ∧
    (s.coreSt c ≠ csParking → s.coreSt c ≠ csParked → ∃ t, exec (.corePark c) s = .next t ∧ OnlyRegs [MGT_CORE_STAT c] s t ∧
      t.flag (MGT_CORE_STAT c) MGT_CORE_STAT_PARK_PEND = true ∧ t.coreSt c = s.coreSt c) ∧
    (s.coreSt c = csParking → (s.core c).sb = [] → ∃ t, exec (.parkDrainComplete c) s = .next t ∧ (t.core c).drained = true ∧
      ∀ l k, s.cLine (0x80 + c.val) l = some k → k.st.stable = true → t.cLine (0x80 + c.val) l = none) ∧
    (s.coreSt c = csParking → (s.core c).drained = true → s.cLines (0x80 + c.val) = [] →
      ∃ t, exec (.l2FlushComplete c) s = .next t ∧ t.coreSt c = csParked ∧
        t.flag (MGT_CORE_STAT c) MGT_CORE_STAT_PARK_PEND = false ∧ (t.core c).ysberr = (s.core c).ysberr ∧
        (t.core c).ysbcnt = (s.core c).ysbcnt ∧ t.mem = s.mem ∧ RegsBut [MGT_CORE_STAT c] s t) ∧
    (∀ (cause : OffCause), s.coreSt c = csRunning ∨ s.coreSt c = csParking → ∃ t, exec (.coreOffline c cause) s = .next t ∧
      t.coreSt c = csOfflining ∧ t.rd (MGT_CORE_STAT c) MGT_CORE_STAT_OFF_CAUSE = offCode cause ∧
      (∀ e ∈ (t.core c).sb, e.issued = true) ∧ t.mem = s.mem) ∧
    (∀ flushed : Bool, s.coreSt c = csOfflining → ∃ t, exec (.offlineFlushComplete c flushed) s = .next t ∧ t.coreSt c = csOffline ∧
      (t.core c).sb = [] ∧ (flushed = false → t.flag (MGT_CORE_STAT c) MGT_CORE_STAT_FLUSH_FAIL = true) ∧
      (s.rd (MGT_CORE_STAT c) MGT_CORE_STAT_OFF_CAUSE = 1 → c.val ∈ t.yar.badCores))

/-- Interrupts, timers, CSRs and the DDR and CXL rows: an identity becomes pending in its file, mtime reaches a comparator, a
CSR answers its old value and takes the new one, a CSR that the mode may not use is illegal, windows are checked and locked.
Choices of the model it rests on: notes/assumptions/28.md, 60.md. -/
def Obligations.HartInterruptsAndCsrs : Prop :=
  ∀ (s : State) (c : CoreId),
    (∀ (sLevel : Bool) (off : BitVec 12) (data : W32) (file v : Nat), file = (if sLevel then 96 + c.val else c.val) →
      (off = 0 ∧ v = data.toNat) ∨ (off = 4 ∧ v = leVal (leBytes 4 data.toNat).reverse) →
      1 ≤ v → v ≤ (if sLevel then 2047 else 255) →
      ∃ t, exec (.seteipnum c sLevel off data) s = .next t ∧ t.answer = .done ∧ bitAt (mget 0 t.imsic file) v = true ∧
        (∀ k, k ≠ v → k < 2048 → bitAt (mget 0 t.imsic file) k = bitAt (mget 0 s.imsic file) k) ∧
        (∀ g, g ≠ file → mget 0 t.imsic g = mget 0 s.imsic g) ∧ (t.core c).wfi = false ∧ t.regs = s.regs ∧ t.mem = s.mem) ∧
    (∀ (sLevel : Bool) (off : BitVec 12) (data : W32), off ≠ 0 → off ≠ 4 →
      exec (.seteipnum c sLevel off data) s = .next { s with answer := .error }) ∧
    (∃ t, exec (.mtimerCompare c false) s = .next t ∧ (t.core c).mtip = true ∧ (t.core c).wfi = false ∧
      (s.reg (MTIMECMP c)).toNat ≤ (t.reg MTIME).toNat ∧ (s.reg MTIME).toNat ≤ (t.reg MTIME).toNat ∧ RegsBut [MTIME] s t ∧ t.mem = s.mem) ∧
    (∃ t, exec (.mtimerCompare c true) s = .next t ∧ (t.core c).stip = true ∧ (t.core c).wfi = false ∧
      (s.core c).stimecmp.toNat ≤ (t.reg MTIME).toNat ∧ RegsBut [MTIME] s t ∧ t.mem = s.mem) ∧
    (∀ (u : State) (mode : Priv) (csr : BitVec 12) (v : Word), s.hartRuns c = true → u = hartAwake s c →
      (csrDefined csr.toNat = true → nbits csr.toNat 9 8 ≤ privNum mode →
        (exec (.yelryCsrAccess c mode csr .read v) s
          = .next { u with answer := .data (leBytes 8 (u.csrRead c csr.toNat).toNat) false }) ∧
        (nbits csr.toNat 11 10 ≠ 3 → csr.toNat ∉ [0x7C0, 0x7C1, 0x7C2, 0x344] → ∀ (op : CsrOp) (w : Word),
          (op, w) ∈ [(CsrOp.write, v), (CsrOp.set, u.csrRead c csr.toNat ||| v), (CsrOp.clear, u.csrRead c csr.toNat &&& ~~~v)] →
          ∃ t, exec (.yelryCsrAccess c mode csr op v) s = .next t ∧
            t.answer = .data (leBytes 8 (u.csrRead c csr.toNat).toNat) false ∧ t.csrRead c csr.toNat = w ∧
            (∀ n, n ≠ csr.toNat → n ≠ 0x344 → t.csrRead c n = u.csrRead c n) ∧ t.regs = s.regs ∧ t.mem = s.mem) ∧
        (csr = 0x7C0 → bitAt v 60 = true → ∃ t, exec (.yelryCsrAccess c mode csr .write v) s = .next t ∧
          bitAt (t.core c).ysberr 60 = false ∧ bits (t.core c).ysberr 59 0 = bits (s.core c).ysberr 59 0) ∧
        (csr = 0x344 → bitAt v 35 = false → ∃ t, exec (.yelryCsrAccess c mode csr .write v) s = .next t ∧ (t.core c).ras = false)) ∧
      (csrDefined csr.toNat = false ∨ privNum mode < nbits csr.toNat 9 8 ∨ nbits csr.toNat 11 10 = 3 →
        ∃ t, exec (.yelryCsrAccess c mode csr .write v) s = .next t ∧ HartTrapped c 2 0 t)) ∧
    (∀ (w : Fin 8) (v : Word),
      (s.flag MGT_MEM_CTL MGT_MEM_CTL_CXL_LOCK = true → ∃ t, exec (.mgtCxlwinEn w v) s = .next t ∧ OnlyRegs [MGT_MEM_CTL] s t ∧
        t.flag MGT_MEM_CTL MGT_MEM_CTL_REFUSED = true ∧ t.flag MGT_MEM_CTL MGT_MEM_CTL_CXL_LOCK = true) ∧
      (s.flag MGT_MEM_CTL MGT_MEM_CTL_CXL_LOCK = false →
        (fget v MGT_CXLWIN_EN = 1 → s.cxlBad w v = true → ∃ t, exec (.mgtCxlwinEn w v) s = .next t ∧ OnlyRegs [MGT_CXLWIN w] s t ∧
          t.flag (MGT_CXLWIN w) MGT_CXLWIN_ERR = true ∧ ∀ f, f ∈ [MGT_CXLWIN_EN, MGT_CXLWIN_BASE_G, MGT_CXLWIN_SIZE_G, MGT_CXLWIN_PORT] →
            t.rd (MGT_CXLWIN w) f = s.rd (MGT_CXLWIN w) f) ∧
        (fget v MGT_CXLWIN_EN = 0 ∨ s.cxlBad w v = false → ∃ t, exec (.mgtCxlwinEn w v) s = .next t ∧ OnlyRegs [MGT_CXLWIN w] s t ∧
          ∀ f, f ∈ [MGT_CXLWIN_EN, MGT_CXLWIN_BASE_G, MGT_CXLWIN_SIZE_G, MGT_CXLWIN_PORT] → t.rd (MGT_CXLWIN w) f = fget v f))) ∧
    (∃ t, exec .cxlLock s = .next t ∧ OnlyRegs [MGT_MEM_CTL] s t ∧ t.flag MGT_MEM_CTL MGT_MEM_CTL_CXL_LOCK = true) ∧
    (∀ (addr : Word) (k : Nat), k = localOf addr.toNat → 0x10000000000 ≤ k → k < 0x10000000000 + s.ddrSize →
      exec (.ddrPatrolScrub addr .clean) s = .next s ∧
      (∃ t, exec (.ddrPatrolScrub addr .corrected) s = .next t ∧ OnlyRegs [MGT_DDR_ERR] s t ∧
        Counted MGT_DDR_ERR MGT_DDR_ERR_CORR s t) ∧
      (Quiet s → ∃ t, exec (.ddrPatrolScrub addr .uncorrectable) s = .next t ∧ mget false t.poison (alignDown k 64) = true ∧
        Counted MGT_DDR_ERR MGT_DDR_ERR_UNCORR s t ∧ t.mem = s.mem))


/-! ### Host interface and translation (spec/13, 14) -/

/-- Doorbells and admission: a doorbell that is accepted moves its pointer, any other is counted with its code; descriptors are
read ahead or stop the ring; the descriptor at the head is refused, deferred with its first cause, or admitted and handed to its
target. FENCE: its body is checked, it waits for what was admitted before it, XPKG invalidates the remote-read buffers,
PEER_FLUSH waits for its read, and the FENCE ends its hold when neither is outstanding, with HIF_FLUSH_FAIL when the read fails.
Choices of the model it rests on: notes/assumptions/14.md, 16.md, 27.md. -/
def Obligations.RingAdmissionAndFences : Prop :=
  (∀ (s : State) (r : RingId),
     (∀ (off : BitVec 12) (size : BitVec 4) (write : Bool) (v : Word),
       (off = 0 → size = 8 → write = true → s.doorbellCode r v = 0 → ∃ t, exec (.doorbell r off size write v) s = .next t ∧
         (bits v 10 10 = 0 → t.rd (HIF_RING_PTR r) HIF_RING_PTR_SQ_TAIL = bits v 31 16 ∧
           t.rd (HIF_RING_PTR r) HIF_RING_PTR_CQ_HEAD = s.rd (HIF_RING_PTR r) HIF_RING_PTR_CQ_HEAD) ∧
         (bits v 10 10 = 1 → t.rd (HIF_RING_PTR r) HIF_RING_PTR_CQ_HEAD = bits v 31 16 ∧
           t.rd (HIF_RING_PTR r) HIF_RING_PTR_SQ_TAIL = s.rd (HIF_RING_PTR r) HIF_RING_PTR_SQ_TAIL) ∧
         t.rd (HIF_RING_DBST r) HIF_RING_DBST_LAST = 0 ∧ OnlyRegs [HIF_RING_PTR r, HIF_RING_DBST r] s t) ∧
       (off = 0 → size = 8 → write = true → s.doorbellCode r v ≠ 0 → ∃ t, exec (.doorbell r off size write v) s = .next t ∧
         t.rd (HIF_RING_DBST r) HIF_RING_DBST_LAST = s.doorbellCode r v ∧ Counted (HIF_RING_DBST r) HIF_RING_DBST_REFUSED s t ∧
         (bits v 9 0 ≠ r.val → Counted HIF_DB_ERR HIF_DB_ERR_BAD_RING s t ∧ t.rd HIF_DB_ERR HIF_DB_ERR_LAST_PAGE = r.val) ∧
         OnlyRegs [HIF_RING_DBST r, HIF_DB_ERR] s t) ∧
       (off ≠ 0 ∨ size ≠ 8 ∨ write = false → ∃ t, exec (.doorbell r off size write v) s = .next t ∧
         Counted HIF_DB_ERR HIF_DB_ERR_BAD_PAGE s t ∧ t.rd HIF_DB_ERR HIF_DB_ERR_LAST_PAGE = r.val ∧ OnlyRegs [HIF_DB_ERR] s t)) ∧
     (∀ data : Line, s.ringSt r = rsActive → (s.ring r).fetched.length < 16 → (s.ring r).fetched.length < s.sqLevel r →
       s.hif.stopped = false →
       (s.rd (HIF_RING_CFG r) HIF_RING_CFG_LOC = 1 → ∃ t, exec (.sqRead r .ok data) s = .next t ∧
         (t.ring r).fetched = (s.ring r).fetched ++ [data] ∧ t.regs = s.regs ∧ t.mem = s.mem) ∧
       (∀ (a : Nat) (t1 : State), s.rd (HIF_RING_CFG r) HIF_RING_CFG_LOC ≠ 1 →
         a = localOf (s.rd (HIF_SQ_BASE r) HIF_SQ_BASE_BASE * 4096) +
           64 * ((s.rd (HIF_RING_PTR r) HIF_RING_PTR_SQ_HEAD + (s.ring r).fetched.length) % s.ringSize r) →
         (∀ bs, s.localRead 2 a 64 = (t1, .ok bs false) → exec (.sqRead r .ok data) s
           = .next (t1.setRing r { s.ring r with fetched := (s.ring r).fetched ++ [BitVec.ofNat 512 (leVal bs)] })) ∧
         (∀ bs, s.localRead 2 a 64 = (t1, .ok bs true) → ∃ t, exec (.sqRead r .ok data) s = .next t ∧ t.ringSt r = rsStopped ∧
           t.rd (HIF_RING_STAT r) HIF_RING_STAT_CAUSE = 2 ∧ (t.ring r).fetched = [] ∧ t.mem = t1.mem) ∧
         (s.localRead 2 a 64 = (t1, .error) ∨ s.localRead 2 a 64 = (t1, .absent) → ∃ t, exec (.sqRead r .ok data) s = .next t ∧
           t.ringSt r = rsStopped ∧ t.rd (HIF_RING_STAT r) HIF_RING_STAT_CAUSE = 1 ∧ (t.ring r).fetched = [] ∧ t.mem = t1.mem)) ∧
       (∀ (ans : Answer) (cause : Nat), s.rd (HIF_RING_CFG r) HIF_RING_CFG_LOC = 1 →
         (ans, cause) ∈ [(Answer.error, 1), (Answer.absent, 1), (Answer.poisoned, 2)] →
         ∃ t, exec (.sqRead r ans data) s = .next t ∧ t.ringSt r = rsStopped ∧
           t.rd (HIF_RING_STAT r) HIF_RING_STAT_CAUSE = cause ∧ (t.ring r).fetched = [] ∧ RegsBut [HIF_RING_STAT r] s t ∧ t.mem = s.mem)) ∧
     (∀ (d : Line) (rest : List Line), (s.ring r).fetched = d :: rest → s.ringSt r = rsActive → s.hif.stopped = false →
       s.rd PWR_IDLE PWR_IDLE_STATE = 0 → s.rd (HIF_RING_CFG r) HIF_RING_CFG_LOG2SIZE ≤ 16 →
       (∀ st det, s.headerRefusal r d = some (st, det) → s.cqFull r = false → ∃ t, exec (.descriptorAdmit r) s = .next t ∧
         (t.ring r).fetched = rest ∧
         t.rd (HIF_RING_PTR r) HIF_RING_PTR_SQ_HEAD = (s.rd (HIF_RING_PTR r) HIF_RING_PTR_SQ_HEAD + 1) % s.ringSize r ∧
         t.rd (HIF_RING_PTR r) HIF_RING_PTR_CQ_TAIL = (s.rd (HIF_RING_PTR r) HIF_RING_PTR_CQ_TAIL + 1) % s.ringSize r ∧
         t.rd (HIF_RING_STAT r) HIF_RING_STAT_OUTSTANDING = s.rd (HIF_RING_STAT r) HIF_RING_STAT_OUTSTANDING) ∧
       (s.headerRefusal r d = none → (s.ring r).fence = none → s.allRingsWait = false →
         (s.deferCauses r d = [] → s.nextRing ≠ some r.val → exec (.descriptorAdmit r) s = .next s) ∧
         (s.deferCauses r d = [] → s.hif.turn = r.val → s.hif.turnUsed < 2 ^ s.rd (HIF_RING_CFG r) HIF_RING_CFG_PRIO →
           s.nextRing = some r.val) ∧
         (s.deferCauses r d = [] → s.nextRing = some r.val → ∃ t, exec (.descriptorAdmit r) s = .next t ∧ (t.ring r).fetched = rest ∧
           t.hif.turn = r.val ∧
           t.rd (HIF_RING_PTR r) HIF_RING_PTR_SQ_HEAD = (s.rd (HIF_RING_PTR r) HIF_RING_PTR_SQ_HEAD + 1) % s.ringSize r ∧
           (bits d 7 0 = 0x00 → t.hif.nopQ = s.hif.nopQ ++ [s.newWork r d]) ∧
           (bits d 7 0 = 0x01 → (t.ring r).fence
             = some { work := s.newWork r d, checked := false, started := false, flush := false }) ∧
           (bits d 7 0 = 0x22 ∨ bits d 7 0 = 0x23 → t.hif.betonyQ = s.hif.betonyQ ++ [s.newWork r d]) ∧
           (bits d 7 0 = 0x30 → t.hif.spwQ = s.hif.spwQ ++ [s.newWork r d]) ∧
           (bits d 7 0 = 0x31 → mget [] t.hif.prsQ (bits d 64 64) = mget [] s.hif.prsQ (bits d 64 64) ++ [s.newWork r d]) ∧
           (tileType (bits d 7 0) = true → s.tst (s.targetTile d) ≠ tsOffline →
             (t.tile (s.targetTile d)).wq = (s.tile (s.targetTile d)).wq ++ [s.newWork r d] ∧
             t.rd (HIF_RING_STAT r) HIF_RING_STAT_OUTSTANDING = (s.rd (HIF_RING_STAT r) HIF_RING_STAT_OUTSTANDING + 1) % 2 ^ 16)) ∧
         (∀ c cs, s.deferCauses r d = c :: cs → (s.ring r).deferred = false → (s.ring r).causes = [] →
           ∃ t, exec (.descriptorAdmit r) s = .next t ∧ (t.ring r).deferred = true ∧ (t.ring r).firstC = c ∧
             (t.ring r).fetched = d :: rest ∧
             t.rd (HIF_RING_PTR r) HIF_RING_PTR_SQ_HEAD = s.rd (HIF_RING_PTR r) HIF_RING_PTR_SQ_HEAD))) ∧
     (∀ w q, takeFirst (fun w : Work => w.ring == r.val) s.hif.nopQ = some (w, q) →
       exec (.nop r) s = .next (({ s with hif := { s.hif with nopQ := q } }).served w stServed 0)) ∧
     (s.ringSt r = rsActive → ∃ t, exec (.cqWriteFail r) s = .next t ∧ t.ringSt r = rsStopped ∧
       t.rd (HIF_RING_STAT r) HIF_RING_STAT_CAUSE = 3 ∧ RegsBut [HIF_RING_STAT r] s t ∧ t.mem = s.mem) ∧
     (s.flag (HIF_RING_CFG r) HIF_RING_CFG_IRQ_EN = true → s.rd (HIF_RING_CFG r) HIF_RING_CFG_COAL_US ≠ 0 → (s.ring r).unsig ≠ 0 →
       ∃ t, exec (.coalesceTimer r) s = .next t ∧ (t.ring r).unsig = 0 ∧ t.mem = s.mem)) ∧
  (∀ (s : State) (r : RingId) (f : FenceSt), (s.ring r).fence = some f →
     (f.checked = false → fenceFault f.work.desc = none →
       exec (.fence r) s = .next (s.setRing r { s.ring r with fence := some { f with checked := true } })) ∧
     (∀ b, f.checked = false → fenceFault f.work.desc = some b →
       exec (.fence r) s = .next ((s.setRing r { s.ring r with fence := none }).refuse f.work stHifMalformed b)) ∧
     (f.started = false → f.checked = true → s.fenceReady r f = true →
       (bitAt f.work.desc 65 = false → bitAt f.work.desc 66 = false →
         exec (.fenceStart r) s = .next ((s.setRing r { s.ring r with fence := none }).served f.work stServed 0)) ∧
       (bitAt f.work.desc 65 = true ∨ bitAt f.work.desc 66 = true → ∃ t, exec (.fenceStart r) s = .next t ∧
         (t.ring r).fence = some { f with started := true, flush := bitAt f.work.desc 66 } ∧
         (bitAt f.work.desc 65 = true → t.flag CCH_RRB_INV CCH_RRB_INV_BUSY = true ∧ t.coh.rrbInv = none) ∧
         RegsBut [CCH_RRB_INV] s t ∧ t.mem = s.mem)) ∧
     (f.started = true → f.flush = true →
       (s.flag CCH_RRB_INV CCH_RRB_INV_BUSY = true → ∃ t, exec (.peerFlushCompletion r .ok) s = .next t ∧
         (t.ring r).fence = some { f with flush := false } ∧ t.regs = s.regs ∧ t.mem = s.mem) ∧
       (s.flag CCH_RRB_INV CCH_RRB_INV_BUSY = false → ∃ t, exec (.peerFlushCompletion r .ok) s = .next t ∧ (t.ring r).fence = none) ∧
       (exec (.peerFlushTimeout r) s = .next ((s.setRing r { s.ring r with fence := none }).served f.work stHifFlushFail 0)) ∧
       (∀ ans, ans ≠ .ok → exec (.peerFlushCompletion r ans) s
         = .next ((s.setRing r { s.ring r with fence := none }).served f.work stHifFlushFail 0))))

/-- The ring state machine and host loss: enable, disable, stop, resume and abandon; a host loss takes every host ring in use,
re-attach resumes the rings whose RESUME waited, and its timeout abandons the rest. The attach timer: a loss starts it unless
TIMEOUT_S is 0, GO stops it, and when it runs out every HOST_LOST ring is abandoned, with nothing held or outstanding, and
TIMED_OUT is set. The command is the timer's end: the seconds themselves are not in the state. Choices of the model it rests on:
notes/assumptions/15.md. -/
def Obligations.RingStates : Prop :=
  (∀ (s : State) (r : RingId),
     (∀ cfg : Word, s.ringSt r = rsDisabled →
       ((s.ringCfg r cfg).ringCfgOk r = true → ∃ t, exec (.hifRingEnSet r cfg) s = .next t ∧ t.ringSt r = rsActive ∧
         t.rd (HIF_RING_CFG r) HIF_RING_CFG_EN = 1 ∧ t.rd (HIF_RING_CFG r) HIF_RING_CFG_LOG2SIZE = fget cfg HIF_RING_CFG_LOG2SIZE ∧
         t.rd (HIF_RING_STAT r) HIF_RING_STAT_CAUSE = 0 ∧ t.rd (HIF_RING_STAT r) HIF_RING_STAT_PHASE = 1 ∧
         t.reg (HIF_RING_PTR r) = 0 ∧ (t.ring r).fetched = [] ∧ RegsBut [HIF_RING_CFG r, HIF_RING_STAT r, HIF_RING_PTR r] s t) ∧
       ((s.ringCfg r cfg).ringCfgOk r = false → ∃ t, exec (.hifRingEnSet r cfg) s = .next t ∧ t.ringSt r = rsDisabled ∧
         t.rd (HIF_RING_STAT r) HIF_RING_STAT_CAUSE = 5 ∧ OnlyRegs [HIF_RING_CFG r, HIF_RING_STAT r] s t)) ∧
     (∀ cfg : Word, s.ringSt r = rsActive → s.rd (HIF_RING_STAT r) HIF_RING_STAT_OUTSTANDING ≠ 0 →
       ∃ t, exec (.hifRingEnClear r cfg) s = .next t ∧ t.ringSt r = rsDraining ∧ (t.ring r).enCleared = true ∧
         t.rd (HIF_RING_CFG r) HIF_RING_CFG_EN = 0 ∧ t.mem = s.mem) ∧
     (∀ cfg : Word, s.ringSt r = rsStopped ∨ (s.ringSt r = rsActive ∧ s.rd (HIF_RING_STAT r) HIF_RING_STAT_OUTSTANDING = 0) →
       ∃ t, exec (.hifRingEnClear r cfg) s = .next t ∧ t.ringSt r = rsDisabled ∧ t.rd (HIF_RING_CFG r) HIF_RING_CFG_EN = 0 ∧
         (t.ring r).fetched = [] ∧ t.mem = s.mem) ∧
     (s.ringSt r = rsActive → (s.ring r).enCleared = false →
       (s.rd (HIF_RING_STAT r) HIF_RING_STAT_OUTSTANDING ≠ 0 → ∃ t, exec (.hifRingStop r) s = .next t ∧ t.ringSt r = rsDraining ∧
         OnlyRegs [HIF_RING_STAT r] s t) ∧
       (s.rd (HIF_RING_STAT r) HIF_RING_STAT_OUTSTANDING = 0 → ∃ t, exec (.hifRingStop r) s = .next t ∧ t.ringSt r = rsStopped ∧
         t.rd (HIF_RING_STAT r) HIF_RING_STAT_CAUSE = 4 ∧ OnlyRegs [HIF_RING_STAT r] s t)) ∧
     (s.ringSt r = rsStopped → (∃ t, exec (.hifRingResume r) s = .next t ∧ t.ringSt r = rsActive ∧
         t.rd (HIF_RING_STAT r) HIF_RING_STAT_CAUSE = 0 ∧ (t.ring r).fetched = [] ∧ RegsBut [HIF_RING_STAT r] s t ∧ t.mem = s.mem) ∧
       (∃ t, exec (.hifRingAbandon r) s = .next t ∧ t.ringSt r = rsDisabled ∧ t.rd (HIF_RING_CFG r) HIF_RING_CFG_EN = 0 ∧ t.mem = s.mem)) ∧
     (s.ringSt r = rsHostLost →
       (s.flag HIF_ATTACH HIF_ATTACH_READY = false →
         exec (.hifRingResume r) s = .next (s.setRing r { s.ring r with resume := true })) ∧
       (s.flag HIF_ATTACH HIF_ATTACH_READY = true → ∃ t, exec (.hifRingResume r) s = .next t ∧ t.ringSt r = rsActive ∧
         t.rd (HIF_RING_STAT r) HIF_RING_STAT_HELD = 0 ∧ t.rd (HIF_RING_PTR r) HIF_RING_PTR_CQ_HEAD = 0 ∧
         t.rd (HIF_RING_PTR r) HIF_RING_PTR_SQ_TAIL = s.rd (HIF_RING_PTR r) HIF_RING_PTR_SQ_HEAD) ∧
       (∃ t, exec (.hifRingAbandon r) s = .next t ∧ t.ringSt r = rsDisabled ∧ t.rd (HIF_RING_STAT r) HIF_RING_STAT_HELD = 0 ∧
         t.rd (HIF_RING_STAT r) HIF_RING_STAT_OUTSTANDING = 0 ∧ (∀ w ∈ t.hif.nopQ ++ t.hif.betonyQ ++ t.hif.spwQ, w.ring ≠ r.val) ∧
         t.rd HIF_HOSTLOST HIF_HOSTLOST_ABANDONED = min (s.rd HIF_HOSTLOST HIF_HOSTLOST_ABANDONED +
           s.rd (HIF_RING_STAT r) HIF_RING_STAT_HELD) HIF_HOSTLOST_ABANDONED.ones ∧ t.mem = s.mem)) ∧
     (∀ cause : HostLossCause, ∃ t, exec (.hostLoss cause) s = .next t ∧
       (∀ n : RingId, s.rd (HIF_RING_CFG n) HIF_RING_CFG_LOC = 1 → s.ringSt n ≠ rsDisabled → t.ringSt n = rsHostLost) ∧
       (∀ n : RingId, s.rd (HIF_RING_CFG n) HIF_RING_CFG_LOC ≠ 1 → t.ringSt n = s.ringSt n) ∧
       t.flag HIF_HOSTLOST HIF_HOSTLOST_LOST = true ∧ Counted HIF_HOSTLOST HIF_HOSTLOST_EVENTS s t ∧
       t.flag HIF_PCIE_STAT HIF_PCIE_STAT_EP_UP = (cause == .flr && s.flag HIF_PCIE_STAT HIF_PCIE_STAT_EP_UP) ∧ t.flag XLT_APER XLT_APER_VALID = false ∧
       t.flag HIF_ATTACH HIF_ATTACH_READY = false ∧ (∀ e ∈ t.xlt.atc, e.ats = false)) ∧
     (∃ t, exec .hifAttachGo s = .next t ∧ t.hif = { s.hif with attachTimer := false, attachGo := true } ∧ OnlyRegs [HIF_HOSTLOST] { s with hif := t.hif } t ∧
       ((∀ n : RingId, s.ringSt n ≠ rsHostLost) → t.flag HIF_HOSTLOST HIF_HOSTLOST_LOST = false) ∧
       (s.ringSt r = rsHostLost → t.reg HIF_HOSTLOST = s.reg HIF_HOSTLOST)) ∧
     (s.hif.attachGo = true → ∃ t, exec .attachReady s = .next t ∧ t.flag HIF_ATTACH HIF_ATTACH_READY = true ∧
       ∀ n : RingId, s.ringSt n = rsHostLost → (s.ring n).resume = true → t.ringSt n = rsActive) ∧
     (s.hif.attachTimer = true → ∃ t, exec .attachTimeout s = .next t ∧ t.flag HIF_ATTACH HIF_ATTACH_TIMED_OUT = true ∧
       ∀ n : RingId, s.ringSt n = rsHostLost → t.ringSt n = rsDisabled)) ∧
  (∀ s : State,
     (∀ cause : HostLossCause, ∃ t, exec (.hostLoss cause) s = .next t ∧
       t.hif.attachTimer = decide (s.rd HIF_ATTACH HIF_ATTACH_TIMEOUT_S ≠ 0) ∧ t.hif.attachGo = false) ∧
     (∃ t, exec .hifAttachGo s = .next t ∧ t.hif.attachTimer = false ∧ RegsBut [HIF_HOSTLOST] s t ∧ t.mem = s.mem) ∧
     (s.hif.attachTimer = true → ∃ t, exec .attachTimeout s = .next t ∧ t.flag HIF_ATTACH HIF_ATTACH_TIMED_OUT = true ∧
       t.hif.attachTimer = false ∧ t.mem = s.mem ∧
       (∀ n : RingId, s.ringSt n = rsHostLost → t.ringSt n = rsDisabled ∧ t.rd (HIF_RING_CFG n) HIF_RING_CFG_EN = 0 ∧
         t.rd (HIF_RING_STAT n) HIF_RING_STAT_HELD = 0 ∧ t.rd (HIF_RING_STAT n) HIF_RING_STAT_OUTSTANDING = 0) ∧
       ∀ n : RingId, s.ringSt n ≠ rsHostLost → t.reg (HIF_RING_STAT n) = s.reg (HIF_RING_STAT n)) ∧
     (s.hif.attachTimer = false → exec .attachTimeout s = .next s))

/-- A write of EN = 1 to a DISABLED ring whose LOG2SIZE is outside 4 to 16, whose base is not own-node memory (LOC = 0; a base
is always aligned, as its field holds it in units of 4,096 bytes), or whose host link is down or hold area not locked (LOC = 1),
is refused: the ring stays DISABLED with cause 0x5. -/
def Obligations.RingEnableRefused : Prop :=
  ∀ (s : State) (r : RingId) (cfg : Word), s.ringSt r = rsDisabled →
    (fget cfg HIF_RING_CFG_LOG2SIZE < 4 ∨ 16 < fget cfg HIF_RING_CFG_LOG2SIZE ∨
      (fget cfg HIF_RING_CFG_LOC = 0 ∧
        (s.isMem (s.rd (HIF_SQ_BASE r) HIF_SQ_BASE_BASE * 4096) (2 ^ fget cfg HIF_RING_CFG_LOG2SIZE * 64) = false ∨
          s.isMem (s.rd (HIF_CQ_BASE r) HIF_CQ_BASE_BASE * 4096) (2 ^ fget cfg HIF_RING_CFG_LOG2SIZE * 64) = false)) ∨
      (fget cfg HIF_RING_CFG_LOC = 1 ∧
        (s.flag HIF_PCIE_STAT HIF_PCIE_STAT_EP_UP = false ∨ s.flag HIF_HOLD_CFG HIF_HOLD_CFG_LOCK = false))) →
    ∃ t, exec (.hifRingEnSet r cfg) s = .next t ∧ t.ringSt r = rsDisabled ∧ t.rd (HIF_RING_STAT r) HIF_RING_STAT_CAUSE = 5 ∧
      OnlyRegs [HIF_RING_CFG r, HIF_RING_STAT r] s t

/-- The PCIe ports and what they bring: recovery and containment are counted and reported, the configuration is locked once,
links come up, and inbound accesses reach what they name, or end as Unsupported Request; registers are written under their
access codes. Choices of the model it rests on: notes/assumptions/17.md, 18.md, 19.md. -/
def Obligations.PortsAndRegisters : Prop :=
  ∀ (s : State) (port : PciePort),
    (∃ t, exec (.pcieRecovery port) s = .next t ∧ Counted HIF_PCIE_STAT HIF_PCIE_STAT_RETRAIN s t ∧ OnlyRegs [HIF_PCIE_STAT] s t) ∧
    (∀ p : Fin 8, ∃ t, exec (.rootPortDown p) s = .next t ∧ t.rpUp (p.val + 1) = false ∧
      ∀ q : Fin 8, q ≠ p → t.rpUp (q.val + 1) = s.rpUp (q.val + 1)) ∧
    (∀ cfg : Word, ∃ t, exec (.hifPcieLock cfg) s = .next t ∧ OnlyRegs [HIF_PCIE_CFG] s t ∧
      t.flag HIF_PCIE_CFG HIF_PCIE_CFG_LOCK = true ∧
      (s.flag HIF_PCIE_CFG HIF_PCIE_CFG_LOCK = false → fget cfg HIF_PCIE_CFG_BIF_A ≠ 3 → fget cfg HIF_PCIE_CFG_BIF_B ≠ 3 →
        ∀ f, f ∈ [HIF_PCIE_CFG_BIF_A, HIF_PCIE_CFG_BIF_B, HIF_PCIE_CFG_CXL_EN] → t.rd HIF_PCIE_CFG f = fget cfg f) ∧
      (s.flag HIF_PCIE_CFG HIF_PCIE_CFG_LOCK = true →
        (∀ f, f ∈ [HIF_PCIE_CFG_BIF_A, HIF_PCIE_CFG_BIF_B, HIF_PCIE_CFG_CXL_EN] → t.rd HIF_PCIE_CFG f = s.rd HIF_PCIE_CFG f) ∧
        (s.rd HIF_PCIE_CFG HIF_PCIE_CFG_BIF_A ≠ fget cfg HIF_PCIE_CFG_BIF_A → t.flag HIF_PCIE_CFG HIF_PCIE_CFG_REFUSED = true))) ∧
    (port.val = 0 → s.flag RST_BOOT RST_BOOT_FAILED = false → ∃ t, exec (.pcieLinkUp port) s = .next t ∧
      t.flag HIF_PCIE_STAT HIF_PCIE_STAT_EP_UP = true ∧ OnlyRegs [HIF_PCIE_STAT] s t) ∧
    (port.val ≠ 0 → s.flag HIF_PCIE_CFG HIF_PCIE_CFG_LOCK = true → s.rpExists port.val = true →
      ∃ t, exec (.pcieLinkUp port) s = .next t ∧ t.rpUp port.val = true ∧ OnlyRegs [HIF_PCIE_STAT] s t) ∧
    (∀ b : Byte, ∃ t, exec (.barAssign b) s = .next t ∧ t.flag XLT_APER XLT_APER_VALID = true ∧
      t.rd XLT_APER XLT_APER_BASE = b.toNat ∧ OnlyRegs [XLT_APER] s t) ∧
    (∀ (addr : Word) (data : List Byte) (ep relaxed : Bool) (len : BitVec 13) (page : PageAttr),
      (s.inbound port addr = .bad → ∀ i, i ∈ ([.pcieInboundWrite port addr data ep relaxed, .pcieInboundRead port addr len page] : List Instr) →
        ∃ t, exec i s = .next t ∧ t.answer = .error ∧ Counted HIF_PCIE_STAT HIF_PCIE_STAT_INB_UR s t ∧ t.mem = s.mem ∧
          RegsBut [HIF_PCIE_STAT] s t) ∧
      (s.inbound port addr = .peer → ∀ i, i ∈ ([.pcieInboundWrite port addr data ep relaxed, .pcieInboundRead port addr len page] : List Instr) →
        ∃ t, exec i s = .next t ∧ t.answer = .error ∧ Counted HIF_PCIE_STAT HIF_PCIE_STAT_PEER_UR s t ∧ t.mem = s.mem ∧
          RegsBut [HIF_PCIE_STAT] s t) ∧
      (∀ (a : Nat) (t : State), s.inbound port addr = .pa a →
        (s.busWrite 2 false a data ep = (t, .ok) → exec (.pcieInboundWrite port addr data ep relaxed) s = .next { t with answer := .done }) ∧
        (∀ bs p, nodeOf a = s.node ∨ page ≠ .pma ∨ s.rrbOn 0 = false → s.busRead 2 false a len.toNat .once = (t, .ok bs p) →
          exec (.pcieInboundRead port addr len page) s = .next { t with answer := .data bs p }) ∧
        (∀ bs p, nodeOf a ≠ s.node → s.rrbOn 0 = true → s.bufRead 0 a len.toNat = (t, .ok bs p) →
          exec (.pcieInboundRead port addr len .pma) s = .next { t with answer := .data bs p }))) ∧
    (∀ (addr v : Word) (a : Nat) (spec : RegSpec), nodeOf addr.toNat = s.node → addr.toNat < 2 ^ 56 → a = localOf addr.toNat →
      a % 8 = 0 → s.region a = .reg a → regSpec a = some spec → s.cut 2 a = false → s.regHeld a = false → s.regShut a = none →
      ({ s with answer := .done }).registerWrite a v = .next (({ s with answer := .done }).plainWrite a v) →
      ({ s with answer := .done }).writeIgnored a v = false → badFields a v = [] → s.heldFields a = [] →
      ∃ t, exec (.registerWrite addr v) s = .next t ∧ t.answer = .done ∧
        ∀ f ∈ spec.fields,
          (f.acc = .ro → nbits (t.reg a).toNat f.hi f.lo = nbits (s.reg a).toNat f.hi f.lo) ∧
          (f.acc = .rw → nbits (t.reg a).toNat f.hi f.lo = nbits v.toNat f.hi f.lo) ∧
          (f.acc = .w1c → s.locked spec a = false → nbits (t.reg a).toNat f.hi f.lo = if nbits v.toNat f.hi f.lo = 0 then nbits (s.reg a).toNat f.hi f.lo
            else if clearedWhole f then 0
            else nbits (s.reg a).toNat f.hi f.lo ^^^ (nbits (s.reg a).toNat f.hi f.lo &&& nbits v.toNat f.hi f.lo)) ∧
          (f.acc = .rwl → nbits (t.reg a).toNat f.hi f.lo
            = if s.locked spec a then nbits (s.reg a).toNat f.hi f.lo else nbits v.toNat f.hi f.lo)) ∧
    (∀ (addr v : Word) (a : Nat), nodeOf addr.toNat = s.node → addr.toNat < 2 ^ 56 → a = localOf addr.toNat → a % 8 = 0 →
      s.region a = .reg a →
      (s.cut 2 a = true → exec (.registerWrite addr v) s = .next { s with answer := .absent }) ∧
      (s.cut 2 a = false → s.regHeld a = true → ∃ t, exec (.registerWrite addr v) s = .next t ∧ t.answer = .error ∧
        Counted TST_SI_CNT TST_SI_CNT_REG s t ∧ RegsBut [TST_SI_CNT] s t ∧ t.mem = s.mem))

/-- Translation: a miss asks, a returned translation that grants the access is entered and found by the next lookup, anything
else becomes a page request or a fault; responses, timeouts and invalidations end what they name. Choices of the model it rests
on: notes/assumptions/12.md, 20.md, 21.md. -/
def Obligations.Translation : Prop :=
  ∀ (s : State) (die : DieId) (pasid : BitVec 20) (va : Word) (kind : AccessKind) (q : XReq), q = xreq die pasid.toNat va.toNat kind →
    (∃ t, exec (.atcMiss die pasid va kind) s = .next t ∧ q ∈ t.xlt.inflight ∧ RegsBut [XLT_ATC_STAT die] s t ∧ t.mem = s.mem ∧
      t.rd (XLT_ATC_STAT die) XLT_ATC_STAT_MISS = (s.rd (XLT_ATC_STAT die) XLT_ATC_STAT_MISS + 1) % 2 ^ 32) ∧
    (∀ dc : DevCtx, q ∈ s.xlt.inflight →
      (q ∈ s.xlt.stale → ∀ res, ∃ t, exec (.translationCompletion die pasid va kind dc res) s = .next t ∧
        q ∈ t.xlt.inflight ∧ q ∉ t.xlt.stale ∧ t.xlt.atc = s.xlt.atc ∧ Counted XLT_ERR XLT_ERR_INV_RETRY s t ∧ RegsBut [XLT_ERR] s t) ∧
      (q ∉ s.xlt.stale → s.flag XLT_CTL XLT_CTL_HOSTSIDE = false → dc.stage2 ≠ 0 → ∀ res,
        ∃ t, exec (.translationCompletion die pasid va kind dc res) s = .next t ∧
          t.xlate die pasid.toNat va.toNat kind = .fault ∧ t.xlt.faultQ = s.xlt.faultQ ++ [{ cause := ddtMisconfigured, req := q }] ∧
          t.xlt.prq = s.xlt.prq ∧ t.xlt.atc = s.xlt.atc ∧ Counted XLT_ERR XLT_ERR_FAULT s t ∧ RegsBut [XLT_ERR] s t) ∧
      (q ∉ s.xlt.stale → q ∉ s.xlt.failed → (s.flag XLT_CTL XLT_CTL_HOSTSIDE = false → dc.stage2 = 0) →
        (∀ (size : PageSize) (ptes : List Word) (p : Word), p = ptes.getD (va.toNat / 2 ^ pageShift size % 16) 0 →
          s.flag XLT_CTL XLT_CTL_MERGE_EN = false → bitAt p 63 = false → bitAt p 0 = true → bitAt p 6 = true → bitAt p 4 = true →
          (kind = .read → bitAt p 1 = true) → (kind = .write → bitAt p 2 = true ∧ bitAt p 7 = true) → (kind = .fetch → bitAt p 3 = true) →
          ∃ t, exec (.translationCompletion die pasid va kind dc (.leaves size ptes)) s = .next t ∧
            t.xlate die pasid.toNat va.toNat kind = .pa (bits p 53 10 * 4096 + va.toNat % 2 ^ pageShift size) false ∧
            t.regs = s.regs ∧ t.mem = s.mem) ∧
        (∀ (addr : Word) (log2 : Fin 64) (r w x : Bool), log2.val ≤ 12 → (kind = .read → r = true) → (kind = .write → w = true) →
          (kind = .fetch → x = true) → s.flag XLT_APER XLT_APER_VALID = false →
          ∃ t, exec (.translationCompletion die pasid va kind dc (.ats addr log2 r w x)) s = .next t ∧
            t.xlate die pasid.toNat va.toNat kind = .pa (alignDown addr.toNat 4096 + va.toNat % 4096) true ∧ t.regs = s.regs) ∧
        (∀ cause : BitVec 12,
          (s.flag XLT_PRI_CFG XLT_PRI_CFG_EN = false ∨ q ∈ s.xlt.retried ∨ (s.flag XLT_CTL XLT_CTL_HOSTSIDE = false ∧ dc.enPri = false) →
            ∃ t, exec (.translationCompletion die pasid va kind dc (.fault cause)) s = .next t ∧
              t.xlate die pasid.toNat va.toNat kind = .fault ∧ t.xlt.faultQ = s.xlt.faultQ ++ [{ cause := cause.toNat, req := q }] ∧
              Counted XLT_ERR XLT_ERR_FAULT s t ∧ RegsBut [XLT_ERR] s t) ∧
          (s.flag XLT_PRI_CFG XLT_PRI_CFG_EN = true → q ∉ s.xlt.retried → s.flag XLT_CTL XLT_CTL_HOSTSIDE = true ∨ dc.enPri = true →
            ∃ t, exec (.translationCompletion die pasid va kind dc (.fault cause)) s = .next t ∧ q ∈ t.xlt.prq ∧
              t.xlt.faultQ = s.xlt.faultQ ∧ RegsBut [XLT_ATC_STAT die] s t)) ∧
        (∃ t, exec (.translationCompletion die pasid va kind dc .walkPoison) s = .next t ∧
          t.xlt.faultQ = s.xlt.faultQ ++ [{ cause := 274, req := q }] ∧ Counted XLT_ERR XLT_ERR_WALK_POISON s t))) ∧
    (s.xlt.prq.any (·.samePage q) = true →
      (∃ t, exec (.pageRequestResponse die pasid va true) s = .next t ∧ t.xlt.prq.any (·.samePage q) = false ∧
        (∀ x ∈ s.xlt.prq, x.samePage q = true → x ∈ t.xlt.inflight ∧ x ∈ t.xlt.retried) ∧ t.regs = s.regs ∧ t.mem = s.mem) ∧
      (∃ t, exec (.pageRequestResponse die pasid va false) s = .next t ∧ t.xlt.prq.any (·.samePage q) = false ∧
        (∀ x ∈ s.xlt.prq, x.samePage q = true → x ∈ t.xlt.failed) ∧ RegsBut [XLT_ERR] s t) ∧
      (∃ t, exec (.pageRequestTimeout die pasid va) s = .next t ∧ t.xlt.prq.any (·.samePage q) = false ∧
        (∀ x ∈ s.xlt.prq, x.samePage q = true → x ∈ t.xlt.failed) ∧ t.xlt.timedOut.any (·.samePage q) = true ∧
        Counted (XLT_ATC_STAT die) XLT_ATC_STAT_PRQ_TIMEOUT s t)) ∧
    (s.xlt.prq.any (·.samePage q) = false → s.xlt.timedOut.any (·.samePage q) = true → ∀ ok,
      ∃ t, exec (.pageRequestResponse die pasid va ok) s = .next t ∧ Counted XLT_ERR XLT_ERR_LATE_PRGR s t ∧
        t.xlt.timedOut.any (·.samePage q) = false ∧ RegsBut [XLT_ERR] s t) ∧
    (∃ t, exec (.iotinvalVma (some pasid) (some va)) s = .next t ∧
      (∀ d, ∀ e ∈ t.xlt.atc, e.pasid = pasid.toNat → e.g = false → e.covers d pasid.toNat va.toNat = false) ∧
      (∀ e ∈ t.xlt.atc, e ∈ s.xlt.atc) ∧ (∀ e ∈ s.xlt.atc, e.g = true ∨ e.pasid ≠ pasid.toNat → e ∈ t.xlt.atc) ∧
      (q ∈ s.xlt.inflight → q ∈ t.xlt.stale) ∧ t.regs = s.regs ∧ t.mem = s.mem) ∧
    (∃ t, exec (.iotinvalGvma none) s = .next t ∧ t.xlt.atc = [] ∧ (∀ x ∈ s.xlt.inflight, x ∈ t.xlt.stale) ∧ t.regs = s.regs) ∧
    (∃ t, exec (.atsInvalidate (some pasid) va 0) s = .next t ∧ t.xlt.atsDone = s.xlt.atsDone + 1 ∧
      (∀ d, ∀ e ∈ t.xlt.atc, e.pasid = pasid.toNat → e.covers d pasid.toNat va.toNat = false) ∧
      (∀ e ∈ s.xlt.atc, e.pasid ≠ pasid.toNat → e ∈ t.xlt.atc) ∧ (q ∈ s.xlt.inflight → q ∈ t.xlt.stale) ∧ t.regs = s.regs) ∧
    (exec .iofenceC s = .next { s with xlt := { s.xlt with fences := s.xlt.fences + 1 } }) ∧
    (s.xlt.fences ≠ 0 → exec .iofenceCComplete s
      = .next { s with xlt := { s.xlt with fences := s.xlt.fences - 1, fencesOk := s.xlt.fencesOk + 1 } })


/-! ### Fugen and Prism (spec/15) -/

/-- Links and ports: enabling lets links train and raises the incarnation, training goes state by state to ACTIVE or MISWIRED,
fails after 8 attempts, an ACTIVE link that is lost returns to DETECT, a port without links falls back, and flits are accepted
in order. Choices of the model it rests on: notes/assumptions/24.md. -/
def Obligations.FugenLinks : Prop :=
  ∀ (s : State) (l : LinkId),
    (∀ v : Word, (s.regWrite FGN_CFG v).onRings s.node = true →
      (fget v FGN_CFG_EN = 1 → ∃ t, exec (.fgnCfgEn v) s = .next t ∧ t.flag FGN_CFG FGN_CFG_EN = true ∧
        t.rd FGN_NODE FGN_NODE_INC = (s.rd FGN_NODE FGN_NODE_INC + 1) % 2 ^ 16 ∧
        t.mgt.incFlash = (s.rd FGN_NODE FGN_NODE_INC + 1) % 2 ^ 16 ∧
        ∀ p, s.linkPort l = some p → s.flag (FGN_PORT_CFG p) FGN_PORT_CFG_EN = true → s.computeHeld = false → s.lkSt l = lkDisabled →
          t.lkSt l = lkDetect) ∧
      (fget v FGN_CFG_EN = 0 → ∃ t, exec (.fgnCfgEn v) s = .next t ∧ t.flag FGN_CFG FGN_CFG_EN = false ∧ t.lkSt l = lkDisabled)) ∧
    (∀ v : Word, (s.regWrite FGN_CFG v).onRings s.node = false → ∃ t, exec (.fgnCfgEn v) s = .next t ∧
      t.flag FGN_NODE FGN_NODE_BAD = true ∧ t.rd FGN_CFG FGN_CFG_EN = s.rd FGN_CFG FGN_CFG_EN ∧ OnlyRegs [FGN_CFG, FGN_NODE] s t) ∧
    (∀ (p : PortId) (v : Word), fget v FGN_PORT_CFG_EN = 0 → ∃ t, exec (.fgnPortCfgWrite p v) s = .next t ∧
      t.flag (FGN_PORT_CFG p) FGN_PORT_CFG_EN = false ∧ t.rd (FGN_PORT_CFG p) FGN_PORT_CFG_LINKS = fget v FGN_PORT_CFG_LINKS ∧
      (l.val ∈ s.portLinks p → t.lkSt l = lkDisabled)) ∧
    (∀ (p : PortId) (v : Word), fget v FGN_PORT_CFG_EN = 1 → s.flag FGN_CFG FGN_CFG_EN = true → s.computeHeld = false →
      s.lkSt l = lkDisabled → ∃ t, exec (.fgnPortCfgWrite p v) s = .next t ∧ t.flag (FGN_PORT_CFG p) FGN_PORT_CFG_EN = true ∧
        (t.linkPort l = some p.val → t.lkSt l = lkDetect)) ∧
    (∀ active : Bool, s.lkSt l = lkDetect → ∃ t, exec (.signalDetect l active) s = .next t ∧ t.lkSt l = lkTrain ∧
      t.rd (FGN_LINK_STAT l) FGN_LINK_STAT_CABLE = (if active then 2 else 1) ∧
      t.flag (FGN_LINK_STAT l) FGN_LINK_STAT_WARM = s.fgn.coef.contains l.val) ∧
    (s.lkSt l = lkTrain → ∃ t, exec (.equalisationConverged l) s = .next t ∧ t.lkSt l = lkAlign) ∧
    (s.lkSt l = lkAlign → ∃ t, exec (.alignmentLock l) s = .next t ∧ t.lkSt l = lkIdent ∧ l.val ∈ t.fgn.idents) ∧
    (∀ i : FIdent, s.lkSt l = lkIdent →
      (∀ p, s.identOk l i = true → s.linkPort l = some p → ∃ t, exec (.ident l i) s = .next t ∧ t.lkSt l = lkActive ∧
        t.rd (FGN_LINK_STAT l) FGN_LINK_STAT_PEER_NODE = i.node.toNat ∧ l.val ∈ t.fgn.coef ∧
        (s.portUp p = false → (s.fport p).queue = [] → (t.fport p).rx = 0 ∧
          ∀ c, c < 16 → mget 0 (t.fport p).credits c = i.credits.getD c 0)) ∧
      (s.identOk l i = false → ∃ t, exec (.ident l i) s = .next t ∧ t.lkSt l = lkMiswired ∧ Counted FGN_ERR2 FGN_ERR2_MISWIRE s t)) ∧
    (lkTrain ≤ s.lkSt l → s.lkSt l ≤ lkIdent →
      (mget 0 s.fgn.attempts l < 7 → ∃ t, exec (.linkTrainTimeout l) s = .next t ∧ t.lkSt l = lkDetect ∧
        mget 0 t.fgn.attempts l = mget 0 s.fgn.attempts l + 1 ∧ Counted (FGN_LINK_STAT l) FGN_LINK_STAT_TRAINS s t) ∧
      (7 ≤ mget 0 s.fgn.attempts l → ∃ t, exec (.linkTrainTimeout l) s = .next t ∧ t.lkSt l = lkFailed)) ∧
    (∀ p, s.lkSt l = lkActive → s.linkPort l = some p → ∃ t, exec (.linkLoss l) s = .next t ∧ t.lkSt l = lkDetect ∧
      Counted (FGN_PORT_STAT p) FGN_PORT_STAT_MEMBER_LOSS s t) ∧
    (∀ p : PortId, s.flag (FGN_PORT_CFG p) FGN_PORT_CFG_EN = true → s.portUp p = false → s.ptSt p ≠ ptFallback →
      (s.flag (FGN_PORT_CFG p) FGN_PORT_CFG_FB_EN = true → ∃ t, exec (.fallbackInstall p) s = .next t ∧ t.ptSt p = ptFallback ∧
        Counted FGN_REROUTE FGN_REROUTE_REROUTES s t ∧ t.rd FGN_REROUTE FGN_REROUTE_LAST_PORT = p.val) ∧
      (s.flag (FGN_PORT_CFG p) FGN_PORT_CFG_FB_EN = false → ∃ t, exec (.fallbackInstall p) s = .next t ∧ (t.fport p).queue = [] ∧
        t.rd FGN_REROUTE FGN_REROUTE_DOUBLE_DROP = min (s.rd FGN_REROUTE FGN_REROUTE_DOUBLE_DROP + (s.fport p).queue.length)
          FGN_REROUTE_DOUBLE_DROP.ones ∧ RegsBut [FGN_REROUTE] s t)) ∧
    (∀ (p : PortId) (hdr : Word) (corr uncorr : BitVec 16), s.lkSt l = lkActive → s.linkPort l = some p.val →
      (∃ t, exec (.flit p l hdr false corr uncorr) s = .next t ∧ Counted (FGN_LINK_ERR l) FGN_LINK_ERR_CRC_NAK s t ∧
        (t.fport p).naks = (s.fport p).naks + 1 ∧ (t.fport p).rx = (s.fport p).rx ∧ RegsBut [FGN_LINK_ERR l] s t) ∧
      (bits hdr 11 0 ≠ (s.fport p).rx → ∃ t, exec (.flit p l hdr true corr uncorr) s = .next t ∧
        (t.fport p).naks = (s.fport p).naks + 1 ∧ (t.fport p).rx = (s.fport p).rx) ∧
      (bits hdr 11 0 = (s.fport p).rx → (s.fport p).queue = [] → ∃ t, exec (.flit p l hdr true corr uncorr) s = .next t ∧
        (t.fport p).rx = ((s.fport p).rx + 1) % 4096 ∧ (t.fport p).naks = (s.fport p).naks ∧
        mget 0 (t.fport p).credits (bits hdr 35 32) = mget 0 (s.fport p).credits (bits hdr 35 32) + bits hdr 43 36))

/-- What a port sends when a flit that it accepts brings credits: the oldest packet of a channel, covered by credits; MGT first,
but with 15 units of the other classes between its own while these wait; the other classes by packet in turn; and on a guarded
port on which transit and slice packets wait, no slice packet before three times its units have gone to transit. Packets
received on a port that is up: a malformed one is counted and dropped, one for another node goes on, and one for this node is
delivered when it is the expected one: requests are performed and answered with their TXID, answers end this package's requests;
repeats, gaps and stale incarnations are counted and not delivered. Connections: ACK ends what it acknowledges, NAK and the
end-to-end timeout send the class again or fail the connection, NAK with RESET restarts it, CLOSE and idleness free entries, and
the ACK timer acknowledges what was accepted. Choices of the model it rests on: notes/assumptions/13.md, 23.md. -/
def Obligations.FugenTraffic : Prop :=
  (∀ (s : State) (p : PortId) (l : LinkId) (hdr : Word) (f : FPort), s.lkSt l = lkActive → s.linkPort l = some p.val → s.portUp p = true →
     bits hdr 11 0 = (s.fport p).rx →
     f = { s.fport p with rx := ((s.fport p).rx + 1) % 4096,
                          credits := mset 0 (s.fport p).credits (bits hdr 35 32) (mget 0 (s.fport p).credits (bits hdr 35 32) + bits hdr 43 36) } →
     (s.fgnPick p f = none → ∃ t, exec (.flit p l hdr true 0 0) s = .next t ∧ t.fgn.out = s.fgn.out) ∧
     ((∀ q ∈ f.queue, q.2.tc ≤ 3) → fgnHeads f ≠ [] → (s.fgnPick p f).isSome = true) ∧
     (∀ (i vc : Nat) (x : FTx) (f1 : FPort), s.fgnPick p f = some ((i, vc, x), f1) →
       (∃ t, exec (.flit p l hdr true 0 0) s = .next t ∧
         t.fgn.out.take (s.fgn.out.length + 1) = s.fgn.out ++ [{ port := p, vc := vc, tx := x }]) ∧
       f.queue[i]? = some (vc, x) ∧ (∀ y ∈ f.queue.take i, y.1 ≠ vc) ∧ x.units ≤ mget 0 f.credits vc ∧
       (x.tc = 3 → (∃ q ∈ fgnHeads f, q.2.2.tc ≠ 3) → f.mgtDebt = 0 ∧ f1.mgtDebt = 15 * x.units) ∧
       (x.tc ≠ 3 → f1.mgtDebt = f.mgtDebt - x.units ∧ f1.turn = x.tc ∧ ((∃ q ∈ fgnHeads f, q.2.2.tc = 3) → 0 < f.mgtDebt) ∧
         (s.flag (FGN_PORT_CFG p) FGN_PORT_CFG_GUARD = false → ∀ q ∈ fgnHeads f, q.2.2.tc < 3 →
           (x.tc + 2 - f.turn % 3) % 3 ≤ (q.2.2.tc + 2 - f.turn % 3) % 3) ∧
         (s.flag (FGN_PORT_CFG p) FGN_PORT_CFG_GUARD = true →
           (∃ q ∈ fgnHeads f, q.2.2.tc ≠ 3 ∧ q.2.2.pkt.slice.toNat ≠ s.rd FGN_SLICE FGN_SLICE_ID) →
           (∃ q ∈ fgnHeads f, q.2.2.tc ≠ 3 ∧ q.2.2.pkt.slice.toNat = s.rd FGN_SLICE FGN_SLICE_ID) →
           (x.pkt.slice.toNat = s.rd FGN_SLICE FGN_SLICE_ID → x.units ≤ f.room ∧ f1.room = f.room - x.units) ∧
           (x.pkt.slice.toNat ≠ s.rd FGN_SLICE FGN_SLICE_ID → f1.room = f.room + 3 * x.units))))) ∧
  (∀ (s s1 t1 : State) (p : PortId) (k : FPkt), s.portUp p = true →
     (∀ i, i ∈ ([.fgnRead p k, .fgnWrite p k, .fgnWriteMasked p k, .fgnAtomic p k, .fgnData p k, .fugenComp p k, .cdata (some p) k,
         .cabort (some p) k, .ack p k, .nak p k, .close p k] : List Instr) →
       k.reserved = true → exec i s = .next (s.bump FGN_ERR FGN_ERR_NO_ROUTE)) ∧
     (∀ (i : Instr) (tc op : Nat), (i, tc, op) ∈ ([(.fgnRead p k, 0, 0x01), (.fgnWrite p k, 0, 0x02), (.fgnWriteMasked p k, 0, 0x03),
         (.fgnAtomic p k, 0, 0x04), (.fgnData p k, 1, 0x10), (.fugenComp p k, 1, 0x11), (.cdata (some p) k, 2, 0x20),
         (.cabort (some p) k, 2, 0x21)] : List (Instr × Nat × Nat)) →
       k.reserved = false → lenOk op k.data.length = true →
       (k.dst.toNat ≠ s.node → exec i s = .next (s.fgnRoute (some p.val) { tc := tc, op := op, pkt := k, tries := 1 })) ∧
       (k.dst.toNat = s.node →
         (∀ e, mfind s.fgn.recv k.src.toNat = some e → e.inc = k.inc.toNat → k.seq.toNat ≠ e.expect.getD tc 0 →
           seqBelow k.seq.toNat (e.expect.getD tc 0) = true → ∃ t, exec i s = .next t ∧
             Counted FGN_CONN_STAT FGN_CONN_STAT_DUP s t ∧ t.mem = s.mem ∧ t.answer = s.answer) ∧
         (∀ e, mfind s.fgn.recv k.src.toNat = some e → e.inc = k.inc.toNat → k.seq.toNat ≠ e.expect.getD tc 0 →
           seqBelow k.seq.toNat (e.expect.getD tc 0) = false → ∃ t, exec i s = .next t ∧
             Counted FGN_CONN_STAT FGN_CONN_STAT_OOO s t ∧ t.mem = s.mem ∧ t.answer = s.answer) ∧
         (∀ e, mfind s.fgn.recv k.src.toNat = some e → e.inc ≠ k.inc.toNat → k.seq ≠ 0 →
           exec i s = .next (s.bump FGN_ERR FGN_ERR_STALE_INC)))) ∧
     (k.reserved = false → k.dst.toNat = s.node →
       (s.connRecv 0 k = (s1, true) →
         (∀ bs q, k.data = [] → 1 ≤ bits k.aux 2 0 → bits k.aux 2 0 ≤ 4 → s1.remoteOk k.addr.toNat = true →
           s1.localRead (s.portDie p) k.addr.toNat (64 * bits k.aux 2 0) = (t1, .ok bs q) →
           ∃ t, exec (.fgnRead p k) s = .next t ∧ t.mem = t1.mem ∧ Answered k 0x10 t (fun x => x.data = linesOf bs 4 ∧ x.poison = q)) ∧
         (∀ w, 1 ≤ k.data.length → k.data.length ≤ 4 → s1.remoteOk k.addr.toNat = true →
           s1.localWrite (s.portDie p) k.addr.toNat (k.data.flatMap (fun c => leBytes 64 c.toNat)) k.poison = (t1, w) →
           ∃ t, exec (.fgnWrite p k) s = .next t ∧ t.mem = t1.mem ∧
             Answered k 0x11 t (fun x => x.data = [] ∧ x.aux.toNat = match w with
               | .ok => 0
               | .error => 1
               | .absent => 3)) ∧
         (∀ w d, k.data = [d] → s1.remoteOk k.addr.toNat = true →
           s1.maskedWrite (s.portDie p) k.addr.toNat (leBytes 64 d.toNat) k.poison (byteRuns k.aux.toNat) = (t1, w) →
           ∃ t, exec (.fgnWriteMasked p k) s = .next t ∧ t.mem = t1.mem ∧
             Answered k 0x11 t (fun x => x.data = [] ∧ (w = .ok → x.aux = 0))) ∧
         (∀ d old q m, k.data = [d] → s1.region k.addr.toNat = .mem m →
           s1.fgnRmw (s.portDie p) (s1.node * 2 ^ 43 + k.addr.toNat) (bits k.aux 7 4) (bits k.aux 3 0) d = (t1, .ok old q) →
           ∃ t, exec (.fgnAtomic p k) s = .next t ∧ t.mem = t1.mem ∧
             Answered k 0x11 t (fun x => x.data = [BitVec.ofNat 512 old] ∧ x.poison = q ∧ x.aux = if q then 2 else 0)) ∧
         (∀ d d0 c0 o0 n0 d1 c, k.data = [d] → s1.region k.addr.toNat = .ledger d0 c0 o0 → n0 = (if bits k.aux 7 4 = 5 then 2 else 4) →
           s1.ledgerAt (s1.node * 2 ^ 43 + k.addr.toNat) n0 = some (d1, c) → bits k.aux 7 4 = 3 ∨ bits k.aux 7 4 = 5 →
           ∃ t, exec (.fgnAtomic p k) s = .next t ∧ t.mem = s1.mem ∧
             t.ledger = ((s1.ledgerRead d1 c (bits k.aux 7 4 == 5)).1.ledgerAdd d1 c (if bits k.aux 7 4 = 5 then decIeee fBf16 (bits d 15 0)
               else decIeee fB32 (bits d 31 0))).ledger ∧
             Answered k 0x11 t (fun x => x.data = [BitVec.ofNat 512 (s1.ledgerRead d1 c (bits k.aux 7 4 == 5)).2]))) ∧
       (s.connRecv 1 k = (s1, true) →
         (1 ≤ k.data.length → k.data.length ≤ 4 → exec (.fgnData p k) s
           = .next { s1 with answer := .data (k.data.flatMap (fun c => leBytes 64 c.toNat)) k.poison }) ∧
         (k.data.length ≤ 1 → ∀ bs ok, bs = k.data.flatMap (fun c => leBytes 64 c.toNat) → ok = (bits k.aux 1 0 == 0 || bits k.aux 1 0 == 2) →
           ∃ t, exec (.fugenComp p k) s = .next t ∧
           t = { s1.pubAnswer (fun x => x.1 == k.txid.toNat && x.2.1 == k.src.toNat) ok with answer := t.answer } ∧
           ((∀ q ∈ s.tiles, ∀ j r, (s.epo q.1).pub = j :: r → ∀ x ∈ j.pend, x.1 ≠ k.txid.toNat ∨ x.2.1 ≠ k.src.toNat) →
             t = { s1 with answer := t.answer }) ∧
           (bits k.aux 1 0 = 0 → t.answer = if bs = [] then .done else .data bs k.poison) ∧ (bits k.aux 1 0 = 1 → t.answer = .error) ∧
           (bits k.aux 1 0 = 2 → t.answer = .data bs true) ∧ (bits k.aux 1 0 = 3 → t.answer = .absent))) ∧
       (s.connRecv 2 k = (s1, true) →
         (1 ≤ k.data.length → k.data.length ≤ 4 → exec (.cdata (some p) k) s = .next (s1.cdata k)) ∧
         (k.data = [] → exec (.cabort (some p) k) s = .next (s1.cabort k)))) ∧
     (∀ tc, tc < 3 →
       (mfind s.fgn.recv k.src.toNat = none → k.seq = 0 → (s.connRecv tc k).2 = true) ∧
       (∀ e, mfind s.fgn.recv k.src.toNat = some e →
         (e.inc = k.inc.toNat → k.seq.toNat = e.expect.getD tc 0 → (s.connRecv tc k).2 = true) ∧
         (e.inc ≠ k.inc.toNat → k.seq = 0 → (s.connRecv tc k).2 = true)))) ∧
  (∀ (s : State) (p : PortId) (k : FPkt) (c : SendConn), s.portUp p = true → k.reserved = false → k.data = [] → k.dst.toNat = s.node →
     mfind s.fgn.send k.src.toNat = some c →
     (∃ t c', exec (.ack p k) s = .next t ∧ mfind t.fgn.send k.src.toNat = some c' ∧ c'.next = c.next ∧
       (∀ x ∈ c'.unack, x ∈ c.unack ∧ (x.tc = bits k.aux 1 0 → x.pkt.seq.toNat ≠ bits k.aux 63 32)) ∧
       (∀ x ∈ c.unack, x.tc ≠ bits k.aux 1 0 → x ∈ c'.unack) ∧ t.regs = s.regs ∧ t.mem = s.mem) ∧
     ((∀ x ∈ c.unack, x.tc ≠ 2) →
       (bitAt k.aux 2 = true → ∃ t, exec (.nak p k) s = .next t ∧ mfind t.fgn.send k.src.toNat = some SendConn.new ∧
         Counted FGN_ERR FGN_ERR_PEER_RESET s t ∧ Counted FGN_ERR FGN_ERR_CONN_FAIL s t) ∧
       (∀ (cls : Fin 3) (x : FTx) (r : List FTx), c.unack.filter (fun y => y.tc == cls.val) = x :: r →
         (bitAt k.aux 2 = false → bits k.aux 1 0 = cls.val → exec (.nak p k) s = exec (.e2eTimeout k.src cls) s) ∧
         (x.tries ≤ s.rd FGN_CONN_CFG FGN_CONN_CFG_RETRY_MAX → ∃ t c', exec (.e2eTimeout k.src cls) s = .next t ∧
           mfind t.fgn.send k.src.toNat = some c' ∧ c'.next = c.next ∧ c'.unack.length = c.unack.length ∧
           { x with tries := x.tries + 1 } ∈ c'.unack) ∧
         (s.rd FGN_CONN_CFG FGN_CONN_CFG_RETRY_MAX + 1 ≤ x.tries → ∃ t, exec (.e2eTimeout k.src cls) s = .next t ∧
           mfind t.fgn.send k.src.toNat = some { c with unack := [] } ∧ Counted FGN_ERR FGN_ERR_CONN_FAIL s t ∧
           (cls = 0 → t.answer = .error)))) ∧
     (∀ e, mfind s.fgn.recv k.src.toNat = some e →
       (∃ t, exec (.close p k) s = .next t ∧ mfind t.fgn.recv k.src.toNat = none ∧ t.fgn.send = s.fgn.send ∧
         t.rd FGN_CONN_STAT FGN_CONN_STAT_RECV_USED = s.rd FGN_CONN_STAT FGN_CONN_STAT_RECV_USED - 1 ∧ RegsBut [FGN_CONN_STAT] s t) ∧
       (∃ t, exec (.ackTimer k.src) s = .next t ∧ mfind t.fgn.recv k.src.toNat = some { e with since := [0, 0, 0] } ∧ t.mem = s.mem)) ∧
     (c.unack = [] → ∃ t, exec (.connectionIdleFree k.src) s = .next t ∧ mfind t.fgn.send k.src.toNat = none ∧
       t.rd FGN_CONN_STAT FGN_CONN_STAT_SEND_USED = s.rd FGN_CONN_STAT FGN_CONN_STAT_SEND_USED - 1 ∧ t.mem = s.mem))

/-- Collectives: a descriptor is refused for its form, its communicator or its number, else it runs; a member's chunks are
staged under their rank, an abort ends the collective and is told, completion writes the output, and stalls and cap notices are
shown. Choices of the model it rests on: notes/assumptions/25.md, 26.md. -/
def Obligations.Collectives : Prop :=
  ∀ (s : State) (die : DieId) (comm : BitVec 12) (c : Nat), c = comm.toNat →
    (∀ (w : Work) (q : List Work) (s1 : State), mget [] s.hif.prsQ die.val = w :: q → s.flag (PRS_CFG die) PRS_CFG_EN = true →
      s.ringHeld w = false → colComm w.desc = c → s1 = { s with hif := { s.hif with prsQ := mset [] s.hif.prsQ die.val q } } →
      (colBad w.desc = true ∨ s.colStreamBad die w.desc = true → exec (.collective die) s = .next (s1.refuse w stPrsMalformed 0)) ∧
      (colBad w.desc = false → s.colStreamBad die w.desc = false →
        (s.comm die c = none → exec (.collective die) s = .next (s1.refuse w stPrsBadComm 0)) ∧
        (∀ map my, s.comm die c = some (map, my) →
          (colOp w.desc = 2 ∨ colOp w.desc = 4 → colE w.desc % map.length ≠ 0 →
            exec (.collective die) s = .next (s1.refuse w stPrsMalformed 0)) ∧
          ((colOp w.desc = 2 ∨ colOp w.desc = 4 → colE w.desc % map.length = 0) →
            (colSeq w.desc ≠ (mget 0 (s.prism die).last c + 1) % 2 ^ 32 →
              exec (.collective die) s = .next (s1.refuse w stPrsSeq 0)) ∧
            (colSeq w.desc = (mget 0 (s.prism die).last c + 1) % 2 ^ 32 → (s.prism die).aborts = [] → colE w.desc ≠ 0 →
              s.coll die c = none → mget [] (s.prism die).queue c = [] → mget [] (s.prism die).early c = [] →
              colSrcStream w.desc = false →
              s.xready die (s.pasidOf w) (colSrc w.desc) (colE w.desc * colSize w.desc) .read = false →
              ∃ t x, exec (.collective die) s = .next t ∧ t.coll die c = some x ∧ x.work = w ∧ x.map = map ∧ x.my = my ∧
                mget 0 (t.prism die).last c = colSeq w.desc ∧ mget [] t.hif.prsQ die.val = q ∧ t.mem = s.mem ∧
                t.rd (PRS_STAT die) PRS_STAT_ACTIVE = (s.rd (PRS_STAT die) PRS_STAT_ACTIVE + 1) % 2 ^ 13))))) ∧
    (∀ (s0 t1 : State) (x : Coll) (cs : List (List Byte × Bool)), s0 = (s.colInput die c).colPump die c → s0.coll die c = some x →
      (List.range (chunksOf (colSize x.work.desc) x.outCount)).map (arrayChunk (colSize x.work.desc) x.outCount x.out) = cs.map some →
      colDstStream x.work.desc = false → colSem x.work.desc = 0 →
      s0.xready die (s0.pasidOf x.work) (colDst x.work.desc) (x.outCount * colSize x.work.desc) .write = true →
      (s0.colWrite die (s0.pasidOf x.work) (colDst x.work.desc) cs = (t1, none) →
        exec (.collectiveComplete die comm) s = .next (t1.colEnd die c (if cs.any (·.2) then stPrsPoison else stServed) 0)) ∧
      (∀ a, s0.colWrite die (s0.pasidOf x.work) (colDst x.work.desc) cs = (t1, some a) →
        exec (.collectiveComplete die comm) s = .next (t1.colAbort die c stPrsFault (a % 2 ^ 32)))) ∧
    (∀ x, s.coll die c = some x →
      (mget [] (s.prism die).queue c = [] → ∃ t, exec (.prsAbort die comm) s = .next t ∧ t.coll die c = none ∧
        t.rd (PRS_CTL die) PRS_CTL_COMM = c ∧ Counted (PRS_CAP die) PRS_CAP_ABORTS s t) ∧
      (∃ t, exec (.collectiveStall die comm) s = .next t ∧ t.flag (PRS_STAT die) PRS_STAT_STALLED = true ∧
        t.rd (PRS_STAT die) PRS_STAT_STALL_COMM = c ∧ t.coll die c = some x)) ∧
    ((s.prism die).run.any (fun q => q.2.waitCap.isSome) = true → ∀ us : W32,
      ∃ t, exec (.capNoticeExpire die us) s = .next t ∧ (t.prism die).run.any (fun q => q.2.waitCap.isSome) = false ∧
        t.rd (PRS_CAP die) PRS_CAP_SYMP_US = (s.rd (PRS_CAP die) PRS_CAP_SYMP_US + us.toNat) % 2 ^ 32 ∧
        RegsBut [PRS_CAP die, PWR_STAT] s t ∧ t.mem = s.mem) ∧
    (∀ (t0 : FTx) (ts : List FTx) (k : FPkt), s.fgn.loop = t0 :: ts → s.parted 0 1 = true →
      (t0.op = 0x20 → exec (.cdata none k) s = .next { s with fgn := { s.fgn with loop := ts }, answer := .absent }) ∧
      (t0.op = 0x21 → exec (.cabort none k) s = .next { s with fgn := { s.fgn with loop := ts }, answer := .absent })) ∧
    (∀ (t0 : FTx) (ts : List FTx) (k : FPkt) (r : Nat), s.fgn.loop = t0 :: ts → s.parted 0 1 = false → t0.pkt.cap = false → b2n t0.pkt.tdie = die.val →
      bits t0.pkt.addr 11 0 = c → s.colSource die t0.pkt = some r →
      (t0.op = 0x20 → ∀ x, s.coll die c = some x → bits t0.pkt.aux 31 0 = colSeq x.work.desc → bitAt t0.pkt.aux 46 = false →
        colSrcStream x.work.desc = false → ∀ (d : Line), t0.pkt.data = [d] →
        ∃ t x', exec (.cdata none k) s = .next t ∧ t.fgn.loop.take ts.length = ts ∧ t.coll die c = some x' ∧
          mfind x'.contrib (r * 2 ^ 40 + bits t0.pkt.addr 42 12) = some { data := d, poison := t0.pkt.poison }) ∧
      (t0.op = 0x21 → ∀ x, s.coll die c = some x → bits t0.pkt.aux 31 0 = colSeq x.work.desc → mget [] (s.prism die).queue c = [] →
        ∃ t, exec (.cabort none k) s = .next t ∧ t.coll die c = none ∧ Counted (PRS_CAP die) PRS_CAP_ABORTS s t)) ∧
    (∀ (t0 : FTx) (ts : List FTx) (k : FPkt), s.fgn.loop = t0 :: ts → s.parted 0 1 = false → t0.pkt.cap = false → b2n t0.pkt.tdie = die.val →
      s.colSource die t0.pkt = none → (t0.op = 0x20 → ∃ t, exec (.cdata none k) s = .next t ∧ t.fgn.loop = ts ∧
        Counted (PRS_CNT die) PRS_CNT_MAP_MISMATCH s t ∧ RegsBut [PRS_CNT die] s t ∧ t.mem = s.mem) ∧
      (t0.op = 0x21 → ∃ t, exec (.cabort none k) s = .next t ∧ t.fgn.loop = ts ∧
        Counted (PRS_CNT die) PRS_CNT_MAP_MISMATCH s t ∧ RegsBut [PRS_CNT die] s t ∧ t.mem = s.mem))
end

