-- ==== Sys2Proof/Laws/Maps.lean ====
section
/-!
SUPPORT. The laws of sparse maps: what a map reads after an update, and that every update keeps the canonical form.
-/

namespace Sys2Proof.Machine

open Sys2Proof

section
variable {β : Type}

/-! ### Reading after an update -/

theorem mfind_mput_same (m : List (Nat × β)) (a : Nat) (v : β) : mfind (mput m a v) a = some v := by
  induction m with
  | nil => simp [mput, mfind]
  | cons p r ih =>
    obtain ⟨k, w⟩ := p
    simp only [mput]
    split
    · simp [mfind]
    · split
      · simp [mfind]
      · next h => simp [mfind, h, ih]

theorem mfind_mput_other (m : List (Nat × β)) {a b : Nat} (v : β) (h : b ≠ a) : mfind (mput m a v) b = mfind m b := by
  induction m with
  | nil => simp [mput, mfind, Ne.symm h]
  | cons p r ih =>
    obtain ⟨k, w⟩ := p
    simp only [mput]
    split
    · simp [mfind, Ne.symm h]
    · split
      · next hk => subst hk; simp [mfind, Ne.symm h]
      · simp only [mfind, ih]

theorem mfind_filter (m : List (Nat × β)) (p : Nat → Bool) (a : Nat) :
    mfind (m.filter (fun q => p q.1)) a = if p a then mfind m a else none := by
  induction m with
  | nil => simp [mfind]
  | cons q r ih =>
    obtain ⟨k, w⟩ := q
    by_cases hk : k = a
    · subst hk
      cases hp : p k <;> simp [List.filter, mfind, hp, ih]
    · cases hp : p k <;> simp [List.filter, mfind, hp, ih, hk]

theorem mfind_mdel_same (m : List (Nat × β)) (a : Nat) : mfind (mdel m a) a = none := by
  have := mfind_filter m (fun k => k != a) a
  simpa [mdel] using this

theorem mfind_mdel_other (m : List (Nat × β)) {a b : Nat} (h : b ≠ a) : mfind (mdel m a) b = mfind m b := by
  have := mfind_filter m (fun k => k != a) b
  simpa [mdel, h] using this

variable [DecidableEq β]

/-- A key reads the value it was given. -/
@[simp] theorem mget_mset_same (d : β) (m : List (Nat × β)) (a : Nat) (v : β) : mget d (mset d m a v) a = v := by
  unfold mset
  split
  · next h => simp [mget, mfind_mdel_same, h]
  · simp [mget, mfind_mput_same]

/-- Every other key reads as before. -/
theorem mget_mset_other (d : β) (m : List (Nat × β)) {a b : Nat} (v : β) (h : b ≠ a) :
    mget d (mset d m a v) b = mget d m b := by
  unfold mset
  split
  · simp [mget, mfind_mdel_other m h]
  · simp [mget, mfind_mput_other m v h]

/-- What a key reads after an update. -/
theorem mget_mset (d : β) (m : List (Nat × β)) (a b : Nat) (v : β) :
    mget d (mset d m a v) b = if b = a then v else mget d m b := by
  split
  · next h => subst h; exact mget_mset_same d m b v
  · next h => exact mget_mset_other d m v h

omit [DecidableEq β] in
@[simp] theorem mget_nil (d : β) (a : Nat) : mget d [] a = d := rfl

/-! ### Keys above a bound -/

omit [DecidableEq β] in
theorem keysAbove_weaken {b c : Nat} (h : c ≤ b) {m : List (Nat × β)} (hm : keysAbove b m = true) : keysAbove c m = true := by
  cases m with
  | nil => rfl
  | cons p r =>
    obtain ⟨k, v⟩ := p
    simp only [keysAbove, Bool.and_eq_true, decide_eq_true_eq] at hm ⊢
    exact ⟨by omega, hm.2⟩

omit [DecidableEq β] in
theorem keysAbove_filterMap {γ : Type} (f : Nat × β → Option (Nat × γ)) (hf : ∀ p q, f p = some q → q.1 = p.1)
    {m : List (Nat × β)} : ∀ {b : Nat}, keysAbove b m = true → keysAbove b (m.filterMap f) = true := by
  induction m with
  | nil => intro b _; rfl
  | cons p r ih =>
    intro b hm
    obtain ⟨k, v⟩ := p
    simp only [keysAbove, Bool.and_eq_true, decide_eq_true_eq] at hm
    have hr := ih hm.2
    cases h : f (k, v) with
    | none => simpa [List.filterMap, h] using keysAbove_weaken (by omega) hr
    | some q =>
      have hq := hf _ _ h
      obtain ⟨k', w⟩ := q
      simp only at hq
      subst hq
      simp [List.filterMap, h, keysAbove, hm.1, hr]

omit [DecidableEq β] in
theorem keysAbove_filter (p : Nat × β → Bool) {m : List (Nat × β)} {b : Nat} (hm : keysAbove b m = true) :
    keysAbove b (m.filter p) = true := by
  have := keysAbove_filterMap (m := m) (b := b) (fun q => if p q then some q else none)
    (by intro x q h; split at h <;> simp_all) hm
  have e : (m.filterMap fun q => if p q then some q else none) = m.filter p := by
    clear this hm
    induction m with
    | nil => rfl
    | cons x r ih => cases hp : p x <;> simp [List.filterMap, List.filter, hp, ih]
  rw [e] at this
  exact this

omit [DecidableEq β] in
theorem keysAbove_mput (a : Nat) (v : β) {m : List (Nat × β)} :
    ∀ {b : Nat}, b ≤ a → keysAbove b m = true → keysAbove b (mput m a v) = true := by
  induction m with
  | nil => intro b h _; simp [mput, keysAbove, h]
  | cons p r ih =>
    intro b h hm
    obtain ⟨k, w⟩ := p
    simp only [keysAbove, Bool.and_eq_true, decide_eq_true_eq] at hm
    simp only [mput]
    split
    · next hk => simp [keysAbove, h, hm.2]; omega
    · split
      · next _ hk => subst hk; simp [keysAbove, h, hm.2]
      · next h1 h2 => simp [keysAbove, hm.1, ih (b := k + 1) (by omega) hm.2]

/-! ### The canonical form as rising keys and no default value -/

theorem mwf_iff (d : β) : ∀ (m : List (Nat × β)), mwf d m = true ↔ keysAbove 0 m = true ∧ ∀ p ∈ m, p.2 ≠ d := by
  have key : ∀ (m : List (Nat × β)) (k : Nat) (v : β),
      mwf d ((k, v) :: m) = true ↔ v ≠ d ∧ keysAbove (k + 1) m = true ∧ ∀ p ∈ m, p.2 ≠ d := by
    intro m
    induction m with
    | nil => intro k v; simp [mwf, keysAbove]
    | cons q r ih =>
      intro k v
      obtain ⟨l, w⟩ := q
      simp only [mwf, Bool.and_eq_true, decide_eq_true_eq, ih, keysAbove, List.mem_cons, forall_eq_or_imp]
      constructor
      · rintro ⟨⟨h1, h2⟩, h3, h4, h5⟩; exact ⟨h1, ⟨by omega, h4⟩, h3, h5⟩
      · rintro ⟨h1, ⟨h2, h4⟩, h3, h5⟩; exact ⟨⟨h1, by omega⟩, h3, h4, h5⟩
  intro m
  cases m with
  | nil => simp [mwf, keysAbove]
  | cons p r =>
    obtain ⟨k, v⟩ := p
    simp only [key, keysAbove, Bool.and_eq_true, decide_eq_true_eq, List.mem_cons, forall_eq_or_imp]
    constructor
    · rintro ⟨h1, h2, h3⟩; exact ⟨⟨by omega, h2⟩, h1, h3⟩
    · rintro ⟨⟨_, h2⟩, h1, h3⟩; exact ⟨h1, h2, h3⟩

omit [DecidableEq β] in
theorem mem_mput {m : List (Nat × β)} {a : Nat} {v : β} {p : Nat × β} (h : p ∈ mput m a v) : p ∈ m ∨ p = (a, v) := by
  induction m with
  | nil => simp_all [mput]
  | cons q r ih =>
    obtain ⟨k, w⟩ := q
    simp only [mput] at h
    split at h
    · simp only [List.mem_cons] at h ⊢
      rcases h with h | h | h <;> simp [h]
    · split at h
      · simp only [List.mem_cons] at h ⊢
        rcases h with h | h <;> simp [h]
      · simp only [List.mem_cons] at h ⊢
        rcases h with h | h
        · simp [h]
        · rcases ih h with h | h <;> simp [h]

/-- Dropping entries keeps the canonical form. -/
theorem mwf_filter {d : β} {m : List (Nat × β)} (p : Nat × β → Bool) (h : mwf d m = true) : mwf d (m.filter p) = true := by
  rw [mwf_iff] at h ⊢
  exact ⟨keysAbove_filter p h.1, fun q hq => h.2 q ((List.mem_filter.mp hq).1)⟩

theorem mwf_mdel {d : β} {m : List (Nat × β)} (a : Nat) (h : mwf d m = true) : mwf d (mdel m a) = true :=
  mwf_filter _ h

/-- An update keeps the canonical form. -/
theorem mwf_mset {d : β} {m : List (Nat × β)} (a : Nat) (v : β) (h : mwf d m = true) : mwf d (mset d m a v) = true := by
  unfold mset
  split
  · exact mwf_mdel a h
  · next hv =>
    rw [mwf_iff] at h ⊢
    refine ⟨keysAbove_mput a v (Nat.zero_le a) h.1, fun q hq => ?_⟩
    rcases mem_mput hq with hm | rfl
    · exact h.2 q hm
    · exact hv

/-- Updates one after the other keep it. -/
theorem mwf_foldl_mset {d : β} {γ : Type} (k : γ → Nat) (v : γ → β) (l : List γ) :
    ∀ {m : List (Nat × β)}, mwf d m = true → mwf d (l.foldl (fun a c => mset d a (k c) (v c)) m) = true := by
  induction l with
  | nil => intro m h; exact h
  | cons c r ih => intro m h; exact ih (mwf_mset _ _ h)

end

/-! ### Bytes and registers -/

/-- Bytes put one after the other keep the canonical form of a memory. -/
theorem memPut_wf (bs : List Byte) : ∀ {m : List Host.Cell} (a : Nat), Memory.wf m = true → Memory.wf (memPut m a bs) = true := by
  induction bs with
  | nil => intro m a h; exact h
  | cons b r ih => intro m a h; exact ih (a + 1) (mwf_mset (d := (0 : Byte)) a b h)

/-- A register set keeps the canonical form of the registers. -/
theorem regsWf_mset (rs : List (Nat × Word)) (a : Nat) (v : Word) (h : regsWf rs = true) :
    regsWf (mset (regReset a) rs a v) = true := by
  simp only [regsWf, Bool.and_eq_true, List.all_eq_true, bne_iff_ne] at h ⊢
  unfold mset
  split
  · exact ⟨keysAbove_filter _ h.1, fun p hp => h.2 p ((List.mem_filter.mp hp).1)⟩
  · next hv =>
    refine ⟨keysAbove_mput a v (Nat.zero_le a) h.1, fun p hp => ?_⟩
    rcases mem_mput hp with hm | rfl
    · exact h.2 p hm
    · exact hv

theorem regsWf_filter (p : Nat × Word → Bool) {rs : List (Nat × Word)} (h : regsWf rs = true) :
    regsWf (rs.filter p) = true := by
  simp only [regsWf, Bool.and_eq_true, List.all_eq_true, bne_iff_ne] at h ⊢
  exact ⟨keysAbove_filter p h.1, fun q hq => h.2 q ((List.mem_filter.mp hq).1)⟩

end Sys2Proof.Machine
end

