-- ==== Sys2Proof/Laws/Fields.lean ====
section
/-!
SUPPORT. The laws of bit fields and registers: what a field reads after a write of it, of another field of its register, and of
another register.
-/

namespace Sys2Proof.Machine

open Sys2Proof

/-! ### Bit fields of numbers -/

theorem nbits_testBit (x hi lo i : Nat) : (nbits x hi lo).testBit i = (decide (i < hi + 1 - lo) && x.testBit (lo + i)) := by
  unfold nbits
  rw [Nat.testBit_mod_two_pow, Nat.testBit_shiftRight]

theorem nset_testBit (n v i : Nat) {hi lo : Nat} (h : lo ≤ hi) :
    (nset n hi lo v).testBit i = if lo ≤ i ∧ i ≤ hi then v.testBit (i - lo) else n.testBit i := by
  have e : nset n hi lo v
      = 2 ^ lo * (2 ^ (hi + 1 - lo) * (n >>> (hi + 1)) + v % 2 ^ (hi + 1 - lo)) + n % 2 ^ lo := by
    have hp : 2 ^ (hi + 1) = 2 ^ lo * 2 ^ (hi + 1 - lo) := by rw [← Nat.pow_add]; congr 1; omega
    unfold nset
    rw [Nat.shiftLeft_eq, Nat.shiftLeft_eq, hp, Nat.mul_add]
    congr 1
    · congr 1
      · rw [Nat.mul_comm (n >>> (hi + 1)), Nat.mul_assoc]
      · rw [Nat.mul_comm]
  rw [e, Nat.testBit_two_pow_mul_add _ (Nat.mod_lt _ (Nat.two_pow_pos lo)),
    Nat.testBit_mod_two_pow]
  by_cases h1 : i < lo
  · simp [h1, Nat.not_le.mpr h1]
  · rw [if_neg h1, Nat.testBit_two_pow_mul_add _ (Nat.mod_lt _ (Nat.two_pow_pos _)), Nat.testBit_mod_two_pow]
    by_cases h2 : i ≤ hi
    · have h3 : i - lo < hi + 1 - lo := by omega
      simp [h3, h2, Nat.not_lt.mp h1]
    · have h3 : ¬ i - lo < hi + 1 - lo := by omega
      simp only [h3, if_false, h2, and_false, Nat.testBit_shiftRight]
      congr 1
      omega

/-- A field reads what it was given. -/
theorem nbits_nset_same (n v : Nat) {hi lo : Nat} (h : lo ≤ hi) : nbits (nset n hi lo v) hi lo = v % 2 ^ (hi + 1 - lo) := by
  apply Nat.eq_of_testBit_eq
  intro i
  rw [nbits_testBit, nset_testBit _ _ _ h, Nat.testBit_mod_two_pow]
  by_cases hi' : i < hi + 1 - lo
  · have h1 : lo ≤ lo + i ∧ lo + i ≤ hi := by omega
    simp [hi', h1]
  · simp [hi']

/-- A field apart from it reads as before. -/
theorem nbits_nset_other (n v : Nat) {hi lo a b : Nat} (h : lo ≤ hi) (hd : a < lo ∨ hi < b) :
    nbits (nset n hi lo v) a b = nbits n a b := by
  apply Nat.eq_of_testBit_eq
  intro i
  rw [nbits_testBit, nbits_testBit, nset_testBit _ _ _ h]
  by_cases hi' : i < a + 1 - b
  · have h1 : ¬ (lo ≤ b + i ∧ b + i ≤ hi) := by omega
    simp [h1]
  · simp [hi']

theorem nset_lt (n v : Nat) {hi lo w : Nat} (h : lo ≤ hi) (hw : hi < w) (hn : n < 2 ^ w) : nset n hi lo v < 2 ^ w := by
  apply Nat.lt_pow_two_of_testBit
  intro i hi'
  rw [nset_testBit _ _ _ h]
  have h1 : ¬ (lo ≤ i ∧ i ≤ hi) := by omega
  rw [if_neg h1]
  exact Nat.testBit_lt_two_pow (Nat.lt_of_lt_of_le hn (Nat.pow_le_pow_right (by omega) hi'))

/-! ### Fields of registers -/

/-- A place within a register. -/
def Fld.ok (f : Fld) : Bool := decide (f.lo ≤ f.hi) && decide (f.hi < 64)

/-- Two places that share no bit. -/
def Fld.apart (f g : Fld) : Bool := decide (f.hi < g.lo) || decide (g.hi < f.lo)

theorem fset_toNat (x : Word) {f : Fld} (v : Nat) (h : f.ok = true) : (fset x f v).toNat = nset x.toNat f.hi f.lo v := by
  simp only [Fld.ok, Bool.and_eq_true, decide_eq_true_eq] at h
  unfold fset
  rw [BitVec.toNat_ofNat, Nat.mod_eq_of_lt (nset_lt _ _ h.1 h.2 x.isLt)]

theorem fget_fset_same (x : Word) {f : Fld} (v : Nat) (h : f.ok = true) : fget (fset x f v) f = v % 2 ^ f.width := by
  unfold fget bits
  rw [fset_toNat _ _ h]
  simp only [Fld.ok, Bool.and_eq_true, decide_eq_true_eq] at h
  exact nbits_nset_same _ _ h.1

theorem fget_fset_other (x : Word) {f g : Fld} (v : Nat) (h : f.ok = true) (hd : g.apart f = true) :
    fget (fset x f v) g = fget x g := by
  unfold fget bits
  rw [fset_toNat _ _ h]
  simp only [Fld.ok, Bool.and_eq_true, decide_eq_true_eq] at h
  simp only [Fld.apart, Bool.or_eq_true, decide_eq_true_eq] at hd
  exact nbits_nset_other _ _ h.1 hd

theorem fget_lt (x : Word) (f : Fld) : fget x f < 2 ^ f.width := by
  unfold fget bits nbits Fld.width
  exact Nat.mod_lt _ (Nat.two_pow_pos _)

/-! ### Registers of the state -/

@[simp] theorem reg_setReg_same (s : State) (a : Nat) (v : Word) : (s.setReg a v).reg a = v :=
  mget_mset_same (regReset a) s.regs a v

theorem reg_setReg_other (s : State) {a b : Nat} (v : Word) (h : b ≠ a) : (s.setReg a v).reg b = s.reg b := by
  unfold State.reg
  rw [show (s.setReg a v).regs = mset (regReset a) s.regs a v from rfl]
  generalize regReset a = d
  unfold mset
  split
  · simp [mget, mfind_mdel_other _ h]
  · simp [mget, mfind_mput_other _ v h]

@[simp] theorem reg_wr_same (s : State) (a : Nat) (f : Fld) (v : Nat) : (s.wr a f v).reg a = fset (s.reg a) f v :=
  reg_setReg_same _ _ _

theorem reg_wr_other (s : State) {a b : Nat} (f : Fld) (v : Nat) (h : b ≠ a) : (s.wr a f v).reg b = s.reg b :=
  reg_setReg_other _ _ h

theorem rd_wr_same (s : State) (a : Nat) {f : Fld} (v : Nat) (h : f.ok = true) : (s.wr a f v).rd a f = v % 2 ^ f.width := by
  unfold State.rd
  rw [reg_wr_same, fget_fset_same _ _ h]

theorem rd_wr_field (s : State) (a : Nat) {f g : Fld} (v : Nat) (h : f.ok = true) (hd : g.apart f = true) :
    (s.wr a f v).rd a g = s.rd a g := by
  unfold State.rd
  rw [reg_wr_same, fget_fset_other _ _ h hd]

theorem rd_wr_other (s : State) {a b : Nat} {f g : Fld} (v : Nat) (h : b ≠ a) : (s.wr a f v).rd b g = s.rd b g := by
  unfold State.rd
  rw [reg_wr_other _ _ _ h]

theorem rd_setReg_other (s : State) {a b : Nat} {g : Fld} (v : Word) (h : b ≠ a) : (s.setReg a v).rd b g = s.rd b g := by
  unfold State.rd
  rw [reg_setReg_other _ _ h]

theorem reg_bumpBy_other (s : State) {a b : Nat} (f : Fld) (n : Nat) (h : b ≠ a) : (s.bumpBy a f n).reg b = s.reg b :=
  reg_wr_other _ _ _ h

theorem reg_bump_other (s : State) {a b : Nat} (f : Fld) (h : b ≠ a) : (s.bump a f).reg b = s.reg b := reg_wr_other _ _ _ h

theorem reg_wrap_other (s : State) {a b : Nat} (f : Fld) (n : Nat) (h : b ≠ a) : (s.wrap a f n).reg b = s.reg b :=
  reg_wr_other _ _ _ h

/-- A counter that stops at all ones. -/
theorem rd_bump_same (s : State) (a : Nat) {f : Fld} (h : f.ok = true) : (s.bump a f).rd a f = min (s.rd a f + 1) f.ones := by
  unfold State.bump State.bumpBy
  rw [rd_wr_same _ _ _ h, Nat.mod_eq_of_lt]
  have : 0 < 2 ^ f.width := Nat.two_pow_pos _
  unfold Fld.ones
  omega

end Sys2Proof.Machine
end

