-- ==== Sys2Proof/Laws/Keep.lean ====
section
/-!
SUPPORT. The calculus of `Keep`: how it passes through updates, choices, folds and answers.
-/

namespace Sys2Proof.Machine

open Sys2Proof

variable {r s t : State}

theorem Keep.refl (s : State) : Keep s s := ⟨rfl, id, Nat.le_refl _⟩

theorem Keep.trans (h : Keep r s) (k : Keep s t) : Keep r t :=
  ⟨k.pending.trans h.pending, fun c => k.canon (h.canon c), Nat.le_trans h.free k.free⟩

/-- An update of no field that `Keep` speaks of. -/
theorem Keep.same (h : Keep r s) (hp : t.pending = s.pending) (hf : t.freeCtr = s.freeCtr) (h1 : t.mem = s.mem)
    (h2 : t.poison = s.poison) (h3 : t.hostMem = s.hostMem) (h4 : t.scratch = s.scratch) (h5 : t.gdirty = s.gdirty)
    (h6 : t.regs = s.regs) : Keep r t := by
  refine ⟨hp.trans h.pending, fun c => ?_, by rw [hf]; exact h.free⟩
  have := h.canon c
  unfold State.canonical at this ⊢
  rw [h1, h2, h3, h4, h5, h6]
  exact this

/-- An update of the memories and registers that keeps each in canonical form. -/
theorem Keep.wf (h : Keep r s) (hp : t.pending = s.pending) (hf : t.freeCtr = s.freeCtr)
    (h1 : Memory.wf s.mem = true → Memory.wf t.mem = true)
    (h2 : mwf false s.poison = true → mwf false t.poison = true)
    (h3 : Memory.wf s.hostMem = true → Memory.wf t.hostMem = true)
    (h4 : Memory.wf s.scratch = true → Memory.wf t.scratch = true)
    (h5 : mwf false s.gdirty = true → mwf false t.gdirty = true)
    (h6 : regsWf s.regs = true → regsWf t.regs = true) : Keep r t := by
  refine ⟨hp.trans h.pending, fun c => ?_, by rw [hf]; exact h.free⟩
  obtain ⟨c1, c2, c3, c4, c5, c6⟩ := h.canon c
  exact ⟨h1 c1, h2 c2, h3 c3, h4 c4, h5 c5, h6 c6⟩

theorem Keep.ite {c : Prop} [Decidable c] {a b : State} (h1 : c → Keep r a) (h2 : ¬c → Keep r b) :
    Keep r (if c then a else b) := by
  split
  · next h => exact h1 h
  · next h => exact h2 h

theorem Keep.foldl {α : Type} {f : State → α → State} {l : List α} (h : Keep r s)
    (hf : ∀ t x, Keep r t → Keep r (f t x)) : Keep r (l.foldl f s) := by
  induction l generalizing s with
  | nil => exact h
  | cons x l ih => exact ih (hf s x h)

theorem Keep.foldl_fst {α β : Type} {f : State × β → α → State × β} {l : List α} {p : State × β} (h : Keep r p.1)
    (hf : ∀ t x, Keep r t.1 → Keep r (f t x).1) : Keep r (l.foldl f p).1 := by
  induction l generalizing p with
  | nil => exact h
  | cons x l ih => exact ih (hf p x h)

theorem Keep.fst_eq {α : Type} {p : State × α} {x : α} (e : p = (t, x)) (h : Keep r p.1) : Keep r t := by
  subst e; exact h

theorem Keep.snd_eq {α : Type} {p : α × State} {x : α} (e : p = (x, t)) (h : Keep r p.2) : Keep r t := by
  subst e; exact h

/-- An answer that may hold a state. -/
def KeepO (r : State) (o : Option State) : Prop := ∀ t, o = some t → Keep r t

/-- An answer that may hold a state beside a value. -/
def KeepF {α : Type} (r : State) (o : Option (State × α)) : Prop := ∀ t x, o = some (t, x) → Keep r t
def KeepS {α : Type} (r : State) (o : Option (α × State)) : Prop := ∀ x t, o = some (x, t) → Keep r t

/-- The outcome of a command. -/
def KeepN (r : State) (o : Host.Outcome State Fault Refusal) : Prop := ∀ t, o = .next t → Keep r t

theorem KeepO.none : KeepO r none := by intro t h; cases h
theorem KeepO.some (h : Keep r s) : KeepO r (some s) := by intro t e; cases e; exact h
theorem KeepO.of_eq {o : Option State} (e : o = Option.some t) (h : KeepO r o) : Keep r t := h t e
theorem KeepO.ite {c : Prop} [Decidable c] {a b : Option State} (h1 : c → KeepO r a) (h2 : ¬c → KeepO r b) :
    KeepO r (if c then a else b) := by
  split
  · next h => exact h1 h
  · next h => exact h2 h
theorem KeepO.getD {o : Option State} (h : KeepO r o) (hs : Keep r s) : Keep r (o.getD s) := by
  cases o with
  | none => exact hs
  | some t => exact h t rfl
theorem KeepO.map {α : Type} {o : Option α} {f : α → State} (h : ∀ x, o = Option.some x → Keep r (f x)) :
    KeepO r (o.map f) := by
  cases o with
  | none => exact KeepO.none
  | some x => exact KeepO.some (h x rfl)

theorem KeepF.none {α : Type} : KeepF (α := α) r none := by intro t x h; cases h
theorem KeepF.some {α : Type} {x : α} (h : Keep r s) : KeepF r (some (s, x)) := by intro t y e; cases e; exact h
theorem KeepF.of_eq {α : Type} {o : Option (State × α)} {x : α} (e : o = Option.some (t, x)) (h : KeepF r o) : Keep r t := h t x e
theorem KeepF.ite {α : Type} {c : Prop} [Decidable c] {a b : Option (State × α)} (h1 : c → KeepF r a) (h2 : ¬c → KeepF r b) :
    KeepF r (if c then a else b) := by
  split
  · next h => exact h1 h
  · next h => exact h2 h

theorem KeepS.none {α : Type} : KeepS (α := α) r none := by intro t x h; cases h
theorem KeepS.some {α : Type} {x : α} (h : Keep r s) : KeepS r (some (x, s)) := by intro t y e; cases e; exact h
theorem KeepS.of_eq {α : Type} {o : Option (α × State)} {x : α} (e : o = Option.some (x, t)) (h : KeepS r o) : Keep r t := h x t e
theorem KeepS.ite {α : Type} {c : Prop} [Decidable c] {a b : Option (α × State)} (h1 : c → KeepS r a) (h2 : ¬c → KeepS r b) :
    KeepS r (if c then a else b) := by
  split
  · next h => exact h1 h
  · next h => exact h2 h

theorem KeepN.next (h : Keep r s) : KeepN r (.next s) := by intro t e; cases e; exact h
theorem KeepN.ite {c : Prop} [Decidable c] {a b : Host.Outcome State Fault Refusal} (h1 : c → KeepN r a)
    (h2 : ¬c → KeepN r b) : KeepN r (if c then a else b) := by
  split
  · next h => exact h1 h
  · next h => exact h2 h

theorem Keep.fst_ite {α : Type} {c : Prop} [Decidable c] {a b : State × α} (h1 : c → Keep r a.1) (h2 : ¬c → Keep r b.1) :
    Keep r (if c then a else b).1 := by
  split
  · next h => exact h1 h
  · next h => exact h2 h

end Sys2Proof.Machine
end

