-- ==== Sys2Proof/Laws/KeepOps.lean ====
section
/-!
SUPPORT. The operations of Machine/Ops.lean keep the queue, the canonical forms and the freshness of free values.
-/

namespace Sys2Proof.Machine

open Sys2Proof

/-- An update of a state that leaves alone what `Keep` speaks of. -/
theorem keep_mk (r s : State)
    (sent : List SentWr) (hbm : HbmSt) (cores : List (Nat × YCore)) (cra : CraSt) (pwr : PwrSt) (spw : SpwSt) (ledger : List (Nat × LCell)) (loupe : List (Nat × LouSt)) (tiles : List (Nat × Tile)) (mesh : List MeshChunk) (prsPorts : List (Nat × PrsPort)) (releases : List (Nat × Nat)) (facets : List (Nat × Facet)) (fgn : FgnSt) (prs : List (Nat × PrsSt)) (caches : List (Nat × List (Nat × CLine))) (coh : CohSt) (xlt : XltSt) (imsic : List (Nat × BitVec 2048)) (hif : HifSt) (mgt : MgtSt) (yar : YarSt) (answer : Rsp) :
    Keep r (State.mk s.pending s.regs s.mem s.poison s.hostMem sent s.scratch s.gdirty hbm cores cra pwr spw ledger loupe tiles mesh prsPorts releases facets fgn prs caches coh xlt imsic hif mgt yar answer s.freeCtr) = Keep r s :=
  propext ⟨fun h => Keep.same h rfl rfl rfl rfl rfl rfl rfl rfl, fun h => Keep.same h rfl rfl rfl rfl rfl rfl rfl rfl⟩

theorem State.setReg_keep {r s : State} (h : Keep r s) (a : Nat) (v : Word) : Keep r (State.setReg s a v) :=
  Keep.wf h rfl rfl id id id id id (fun c => regsWf_mset _ _ _ c)

theorem State.wr_keep {r s : State} (h : Keep r s) (a : Nat) (f : Fld) (v : Nat) : Keep r (State.wr s a f v) := by
  unfold State.wr
  try dsimp only
  repeat' first
    | with_reducible assumption
    | with_reducible exact Keep.refl _
    | with_reducible apply State.setReg_keep
    | split
    | dsimp only

theorem State.ack_keep {r s : State} (h : Keep r s) (a : Nat) (f : Fld) (v : Word) : Keep r (State.ack s a f v) := by
  unfold State.ack
  try dsimp only
  repeat' first
    | with_reducible assumption
    | with_reducible exact Keep.refl _
    | with_reducible refine Keep.ite (fun _ => ?_) (fun _ => ?_)
    | with_reducible apply State.wr_keep
    | split
    | dsimp only

theorem State.bumpBy_keep {r s : State} (h : Keep r s) (a : Nat) (f : Fld) (n : Nat) : Keep r (State.bumpBy s a f n) := by
  unfold State.bumpBy
  try dsimp only
  repeat' first
    | with_reducible assumption
    | with_reducible exact Keep.refl _
    | with_reducible apply State.wr_keep
    | split
    | dsimp only

theorem State.bump_keep {r s : State} (h : Keep r s) (a : Nat) (f : Fld) : Keep r (State.bump s a f) := by
  unfold State.bump
  try dsimp only
  repeat' first
    | with_reducible assumption
    | with_reducible exact Keep.refl _
    | with_reducible apply State.bumpBy_keep
    | split
    | dsimp only

theorem State.wrap_keep {r s : State} (h : Keep r s) (a : Nat) (f : Fld) (n : Nat) : Keep r (State.wrap s a f n) := by
  unfold State.wrap
  try dsimp only
  repeat' first
    | with_reducible assumption
    | with_reducible exact Keep.refl _
    | with_reducible apply State.wr_keep
    | split
    | dsimp only

theorem State.fresh_keep {r s : State} (h : Keep r s) : Keep r (State.fresh s).2 :=
  ⟨h.pending, h.canon, Nat.le_succ_of_le h.free⟩

theorem State.tick_keep {r s : State} (h : Keep r s) : Keep r (State.tick s) := by
  unfold State.tick
  try dsimp only
  repeat' first
    | with_reducible assumption
    | with_reducible exact Keep.refl _
    | with_reducible refine Keep.ite (fun _ => ?_) (fun _ => ?_)
    | with_reducible apply State.setReg_keep
    | split
    | dsimp only

theorem State.setTile_keep {r s : State} (h : Keep r s) (n : Nat) (t : Tile) : Keep r (State.setTile s n t) := by
  unfold State.setTile
  try dsimp only
  repeat' first
    | with_reducible assumption
    | with_reducible exact Keep.refl _
    | simp only [keep_mk]
    | split
    | dsimp only

theorem State.setTst_keep {r s : State} (h : Keep r s) (n : Nat) (st : Nat) : Keep r (State.setTst s n st) := by
  unfold State.setTst
  try dsimp only
  repeat' first
    | with_reducible assumption
    | with_reducible exact Keep.refl _
    | with_reducible apply State.wr_keep
    | split
    | dsimp only

/-- The poison of a line changed. -/
theorem keep_poison {r s : State} (h : Keep r s) (a : Nat) (p : Bool) :
    Keep r { s with poison := mset false s.poison a p } :=
  Keep.wf h rfl rfl id (fun c => mwf_mset _ _ c) id id id id

/-- Memory bytes put at a key. -/
theorem keep_mem {r s : State} (h : Keep r s) (k : Nat) (bs : List Byte) : Keep r { s with mem := memPut s.mem k bs } :=
  Keep.wf h rfl rfl (fun c => memPut_wf bs k c) id id id id id

/-- One memory byte changed. -/
theorem keep_cell {r s : State} (h : Keep r s) (k : Nat) (b : Byte) : Keep r { s with mem := mset 0 s.mem k b } :=
  Keep.wf h rfl rfl (mwf_mset (d := (0 : Byte)) k b) id id id id id

/-- A granule's dirty bit changed. -/
theorem keep_gdirty {r s : State} (h : Keep r s) (g : Nat) (b : Bool) :
    Keep r { s with gdirty := mset false s.gdirty g b } :=
  Keep.wf h rfl rfl id id id id (mwf_mset g b) id

theorem State.setPois_keep {r s : State} (h : Keep r s) (key : Nat) (p : Bool) : Keep r (State.setPois s key p) := by
  unfold State.setPois
  have h1 := keep_poison h key p
  exact Keep.ite (fun _ => Keep.same h1 rfl rfl rfl rfl rfl rfl rfl rfl) (fun _ => h1)

theorem State.setWcb_keep {r s : State} (h : Keep r s) (k : Nat) (es : List WcbEnt) : Keep r (State.setWcb s k es) := by
  unfold State.setWcb
  try dsimp only
  repeat' first
    | with_reducible assumption
    | with_reducible exact Keep.refl _
    | with_reducible apply State.wr_keep
    | simp only [keep_mk]
    | split
    | dsimp only

theorem State.wcbTake_keep {r s : State} (h : Keep r s) (k : Nat) (key : Nat) (mask : Nat) : Keep r (State.wcbTake s k key mask) := by
  unfold State.wcbTake
  try dsimp only
  repeat' first
    | with_reducible assumption
    | with_reducible exact Keep.refl _
    | with_reducible refine Keep.ite (fun _ => ?_) (fun _ => ?_)
    | with_reducible apply State.setWcb_keep
    | simp only [keep_mk]
    | split
    | dsimp only

theorem State.wcbFull_keep {r s : State} (h : Keep r s) (k : Nat) (key : Nat) : Keep r (State.wcbFull s k key) := by
  unfold State.wcbFull
  try dsimp only
  repeat' first
    | with_reducible assumption
    | with_reducible exact Keep.refl _
    | with_reducible refine Keep.ite (fun _ => ?_) (fun _ => ?_)
    | with_reducible apply State.wrap_keep
    | with_reducible apply State.setWcb_keep
    | simp only [keep_mk]
    | split
    | dsimp only

theorem State.hbmTake_keep {r s : State} (h : Keep r s) (key : Nat) (mask : Nat) : Keep r (State.hbmTake s key mask) := by
  unfold State.hbmTake
  try dsimp only
  repeat' first
    | with_reducible assumption
    | with_reducible exact Keep.refl _
    | with_reducible refine Keep.ite (fun _ => ?_) (fun _ => ?_)
    | with_reducible apply State.bump_keep
    | with_reducible apply State.wcbTake_keep
    | with_reducible apply State.setWcb_keep
    | with_reducible apply State.wcbFull_keep
    | simp only [keep_mk]
    | split
    | dsimp only

theorem State.dirtyKey_keep {r s : State} (h : Keep r s) (key : Nat) : Keep r (State.dirtyKey s key) := by
  unfold State.dirtyKey
  refine Keep.ite (fun _ => ?_) (fun _ => h)
  exact keep_gdirty h _ _

theorem State.tierWrite_keep {r s : State} (h : Keep r s) (line : Nat) : Keep r (State.tierWrite s line) := by
  unfold State.tierWrite
  try dsimp only
  repeat' first
    | with_reducible assumption
    | with_reducible exact Keep.refl _
    | with_reducible refine Keep.ite (fun _ => ?_) (fun _ => ?_)
    | with_reducible apply State.bump_keep
    | with_reducible apply State.wrap_keep
    | split
    | dsimp only

theorem State.tierRead_keep {r s : State} (h : Keep r s) (line : Nat) : Keep r (State.tierRead s line) := by
  unfold State.tierRead
  try dsimp only
  repeat' first
    | with_reducible assumption
    | with_reducible exact Keep.refl _
    | with_reducible refine Keep.ite (fun _ => ?_) (fun _ => ?_)
    | with_reducible apply State.wrap_keep
    | split
    | dsimp only

theorem State.holdLine_keep {r s : State} (h : Keep r s) (line : Nat) (data : Line) (poison : Bool) : Keep r (State.holdLine s line data poison) := by
  unfold State.holdLine
  try dsimp only
  repeat' first
    | with_reducible assumption
    | with_reducible exact Keep.refl _
    | simp only [keep_mk]
    | with_reducible refine Keep.foldl ?_ (fun _ _ _ => ?_)
    | with_reducible refine Keep.foldl_fst ?_ (fun _ _ _ => ?_)
    | split
    | dsimp only

theorem State.memLine_keep {r s : State} (h : Keep r s) (line : Nat) (data : Line) (poison : Bool) :
    Keep r (State.memLine s line data poison) := by
  unfold State.memLine
  dsimp only
  split
  · refine Keep.ite (fun _ => State.holdLine_keep (State.tierWrite_keep h _) _ _ _) (fun _ => ?_)
    exact State.hbmTake_keep (State.dirtyKey_keep (State.setPois_keep (keep_mem (State.tierWrite_keep h _) _ _) _ _) _) _ _
  · exact State.bump_keep h _ _

theorem State.settle_keep {r s : State} (h : Keep r s) (line : Nat) : Keep r (State.settle s line) := by
  unfold State.settle
  dsimp only
  rw [keep_mk]
  refine Keep.foldl ?_ (fun t x ht => State.memLine_keep ht _ _ _)
  split
  · exact State.memLine_keep h _ _ _
  · exact h

theorem State.rrbDrop_keep {r s : State} (h : Keep r s) (a : Nat) (n : Nat) : Keep r (State.rrbDrop s a n) := by
  unfold State.rrbDrop
  try dsimp only
  repeat' first
    | with_reducible assumption
    | with_reducible exact Keep.refl _
    | simp only [keep_mk]
    | split
    | dsimp only

theorem State.rrbClear_keep {r s : State} (h : Keep r s) (node : Option Nat) : Keep r (State.rrbClear s node) := by
  unfold State.rrbClear
  try dsimp only
  repeat' first
    | with_reducible assumption
    | with_reducible exact Keep.refl _
    | simp only [keep_mk]
    | split
    | dsimp only

theorem State.putOne_keep {r s : State} (h : Keep r s) (a : Nat) (b : Byte) : Keep r (State.putOne s a b) := by
  unfold State.putOne
  refine Keep.ite (fun _ => ?_) (fun _ => keep_cell h _ _)
  rw [keep_mk]
  exact h

theorem State.putBytes_keep {r s : State} (h : Keep r s) (a : Nat) (bs : List Byte) : Keep r (State.putBytes s a bs) := by
  induction bs generalizing s a with
  | nil => exact h
  | cons b bs ih => exact ih (State.putOne_keep h _ _) _

theorem State.putSome_keep {r s : State} (h : Keep r s) (lost : List Nat) (a : Nat) (bs : List Byte) :
    Keep r (State.putSome s lost a bs) := by
  induction bs generalizing s a with
  | nil => exact h
  | cons b bs ih => exact ih (Keep.ite (fun _ => h) (fun _ => State.putOne_keep h _ _)) _

theorem State.putPoison_keep {r s : State} (h : Keep r s) (line a n : Nat) (p : Bool) (k : Nat) :
    Keep r (State.putPoison s line a n p k) := by
  induction k generalizing s line with
  | zero => exact h
  | succ k ih =>
    refine ih (Keep.ite (fun _ => h) (fun _ => Keep.ite (fun _ => ?_) (fun _ => Keep.ite (fun _ => ?_) (fun _ => ?_)))) _
    · rw [keep_mk]; exact h
    · exact State.setPois_keep h _ _
    · exact keep_poison h _ _

theorem State.settleAll_keep {r s : State} (h : Keep r s) (line k : Nat) : Keep r (State.settleAll s line k) := by
  induction k generalizing s line with
  | zero => exact h
  | succ k ih => exact ih (State.settle_keep h line) _

theorem State.wroteLines_keep {r s : State} (h : Keep r s) (a n line k : Nat) : Keep r (State.wroteLines s a n line k) := by
  induction k generalizing s line with
  | zero => exact h
  | succ k ih =>
    refine ih (Keep.ite (fun _ => State.tierWrite_keep h _) (fun _ => Keep.ite (fun _ => h) (fun _ => ?_))) _
    exact State.hbmTake_keep (State.dirtyKey_keep (State.tierWrite_keep h _) _) _ _

theorem State.leaseBack_keep {r s : State} (h : Keep r s) (rx : Nat) : Keep r (State.leaseBack s rx) := by
  unfold State.leaseBack
  refine Keep.ite (fun _ => h) (fun _ => ?_)
  refine State.bump_keep ?_ _ _
  rw [keep_mk]
  exact Keep.foldl h (fun t x ht => State.memLine_keep ht _ _ _)

theorem State.leasesBack_keep {r s : State} (h : Keep r s) (a : Nat) (n : Nat) : Keep r (State.leasesBack s a n) := by
  unfold State.leasesBack
  try dsimp only
  repeat' first
    | with_reducible assumption
    | with_reducible exact Keep.refl _
    | with_reducible apply State.leaseBack_keep
    | with_reducible refine Keep.foldl ?_ (fun _ _ _ => ?_)
    | with_reducible refine Keep.foldl_fst ?_ (fun _ _ _ => ?_)
    | split
    | dsimp only

theorem State.memWrite_keep {r s : State} (h : Keep r s) (a : Nat) (bs : List Byte) (poison : Bool) : Keep r (State.memWrite s a bs poison) := by
  unfold State.memWrite
  try dsimp only
  repeat' first
    | with_reducible assumption
    | with_reducible exact Keep.refl _
    | with_reducible refine Keep.ite (fun _ => ?_) (fun _ => ?_)
    | with_reducible apply State.settleAll_keep
    | with_reducible apply State.leasesBack_keep
    | with_reducible apply State.putPoison_keep
    | with_reducible apply State.putBytes_keep
    | with_reducible apply State.putSome_keep
    | with_reducible apply State.wroteLines_keep
    | split
    | dsimp only

theorem State.memStore_keep {r s : State} (h : Keep r s) (a : Nat) (n : Nat) (v : Nat) : Keep r (State.memStore s a n v) := by
  unfold State.memStore
  try dsimp only
  repeat' first
    | with_reducible assumption
    | with_reducible exact Keep.refl _
    | with_reducible apply State.memWrite_keep
    | split
    | dsimp only

/-- Scratch bytes put. -/
theorem keep_scratch {r s : State} (h : Keep r s) (a : Nat) (bs : List Byte) :
    Keep r { s with scratch := memPut s.scratch a bs } :=
  Keep.wf h rfl rfl id id id (fun c => memPut_wf bs a c) id id

theorem State.hostWrite_keep {r s : State} (h : Keep r s) (a : Nat) (bs : List Byte) : Keep r (State.hostWrite s a bs) := by
  unfold State.hostWrite
  refine Keep.ite (fun _ => State.wrap_keep h _ _ _) (fun _ => ?_)
  exact Keep.wf h rfl rfl id id (fun c => memPut_wf bs a c) id id id

theorem State.pscSpill_keep {r s : State} (h : Keep r s) (wr : Nat) : Keep r (State.pscSpill s wr) := by
  unfold State.pscSpill
  try dsimp only
  repeat' first
    | with_reducible assumption
    | with_reducible exact Keep.refl _
    | with_reducible refine Keep.ite (fun _ => ?_) (fun _ => ?_)
    | with_reducible apply State.memWrite_keep
    | simp only [keep_mk]
    | split
    | dsimp only

theorem State.psc_keep {r s : State} (h : Keep r s) (src : Nat) (d2 : Nat) (d3 : Nat) : Keep r (State.psc s src d2 d3) := by
  unfold State.psc
  try dsimp only
  repeat' first
    | with_reducible assumption
    | with_reducible exact Keep.refl _
    | with_reducible refine Keep.ite (fun _ => ?_) (fun _ => ?_)
    | with_reducible apply State.wrap_keep
    | with_reducible apply State.fresh_keep
    | with_reducible apply State.pscSpill_keep
    | simp only [keep_mk]
    | with_reducible refine Keep.snd_eq (by assumption) ?_
    | split
    | dsimp only

theorem State.logPut_keep {r s : State} (h : Keep r s) (rx : LogRec) : Keep r (State.logPut s rx) := by
  unfold State.logPut
  try dsimp only
  repeat' first
    | with_reducible assumption
    | with_reducible exact Keep.refl _
    | with_reducible refine Keep.ite (fun _ => ?_) (fun _ => ?_)
    | with_reducible apply State.wrap_keep
    | with_reducible apply State.bump_keep
    | simp only [keep_mk]
    | split
    | dsimp only

theorem State.logRec_keep {r s : State} (h : Keep r s) (kind : Nat) (sev : Nat) (payload : List Word) : Keep r (State.logRec s kind sev payload) := by
  unfold State.logRec
  try dsimp only
  repeat' first
    | with_reducible assumption
    | with_reducible exact Keep.refl _
    | with_reducible refine Keep.ite (fun _ => ?_) (fun _ => ?_)
    | with_reducible apply State.logPut_keep
    | simp only [keep_mk]
    | split
    | dsimp only

theorem State.setEip_keep {r s : State} (h : Keep r s) (file : Nat) (ident : Nat) : Keep r (State.setEip s file ident) := by
  unfold State.setEip
  try dsimp only
  repeat' first
    | with_reducible assumption
    | with_reducible exact Keep.refl _
    | with_reducible refine Keep.ite (fun _ => ?_) (fun _ => ?_)
    | simp only [keep_mk]
    | split
    | dsimp only

theorem State.message_keep {r s : State} (h : Keep r s) (addr : Nat) (data : Nat) : Keep r (State.message s addr data) := by
  unfold State.message
  try dsimp only
  repeat' first
    | with_reducible assumption
    | with_reducible exact Keep.refl _
    | with_reducible refine Keep.ite (fun _ => ?_) (fun _ => ?_)
    | with_reducible apply State.setEip_keep
    | simp only [keep_mk]
    | split
    | dsimp only

theorem State.msixSend_keep {r s : State} (h : Keep r s) (v : Nat) : Keep r (State.msixSend s v) := by
  unfold State.msixSend
  try dsimp only
  repeat' first
    | with_reducible assumption
    | with_reducible exact Keep.refl _
    | with_reducible refine Keep.ite (fun _ => ?_) (fun _ => ?_)
    | with_reducible apply State.setReg_keep
    | with_reducible apply State.message_keep
    | split
    | dsimp only

theorem State.evqPut_keep {r s : State} (h : Keep r s) (sev : Nat) (rec : List Word) : Keep r (State.evqPut s sev rec) := by
  unfold State.evqPut
  try dsimp only
  repeat' first
    | with_reducible assumption
    | with_reducible exact Keep.refl _
    | with_reducible refine Keep.ite (fun _ => ?_) (fun _ => ?_)
    | with_reducible apply State.bump_keep
    | with_reducible apply State.memWrite_keep
    | with_reducible apply State.wr_keep
    | with_reducible apply State.msixSend_keep
    | split
    | dsimp only

theorem State.event_keep {r s : State} (h : Keep r s) (code : Nat) (sev : Nat) (loc : Nat) (sub : Nat) (detail : Nat) : Keep r (State.event s code sev loc sub detail) := by
  unfold State.event
  try dsimp only
  repeat' first
    | with_reducible assumption
    | with_reducible exact Keep.refl _
    | with_reducible refine Keep.ite (fun _ => ?_) (fun _ => ?_)
    | with_reducible apply State.evqPut_keep
    | with_reducible apply State.logRec_keep
    | with_reducible apply State.psc_keep
    | with_reducible apply State.bump_keep
    | simp only [keep_mk]
    | split
    | dsimp only

theorem State.pkgFatal_keep {r s : State} (h : Keep r s) (code : Nat) : Keep r (State.pkgFatal s code) := by
  unfold State.pkgFatal
  try dsimp only
  repeat' first
    | with_reducible assumption
    | with_reducible exact Keep.refl _
    | with_reducible refine Keep.ite (fun _ => ?_) (fun _ => ?_)
    | with_reducible apply State.wr_keep
    | with_reducible apply State.event_keep
    | split
    | dsimp only

theorem State.setRing_keep {r s : State} (h : Keep r s) (n : Nat) (rx : Ring) : Keep r (State.setRing s n rx) := by
  unfold State.setRing
  try dsimp only
  repeat' first
    | with_reducible assumption
    | with_reducible exact Keep.refl _
    | simp only [keep_mk]
    | split
    | dsimp only

theorem State.setRingSt_keep {r s : State} (h : Keep r s) (n : Nat) (st : Nat) : Keep r (State.setRingSt s n st) := by
  unfold State.setRingSt
  try dsimp only
  repeat' first
    | with_reducible assumption
    | with_reducible exact Keep.refl _
    | with_reducible apply State.wr_keep
    | split
    | dsimp only

theorem State.cqPut_keep {r s : State} (h : Keep r s) (n : Nat) (entry : Nat) : Keep r (State.cqPut s n entry) := by
  unfold State.cqPut
  try dsimp only
  repeat' first
    | with_reducible assumption
    | with_reducible exact Keep.refl _
    | with_reducible refine Keep.ite (fun _ => ?_) (fun _ => ?_)
    | with_reducible apply State.hostWrite_keep
    | with_reducible apply State.memWrite_keep
    | with_reducible apply State.wr_keep
    | split
    | dsimp only

theorem State.holdPut_keep {r s : State} (h : Keep r s) (n : Nat) (entry : Nat) : Keep r (State.holdPut s n entry) := by
  unfold State.holdPut
  try dsimp only
  repeat' first
    | with_reducible assumption
    | with_reducible exact Keep.refl _
    | with_reducible apply State.wrap_keep
    | with_reducible apply State.memWrite_keep
    | split
    | dsimp only

theorem State.ringIrq_keep {r s : State} (h : Keep r s) (n : Nat) (irq : Bool) : Keep r (State.ringIrq s n irq) := by
  unfold State.ringIrq
  try dsimp only
  repeat' first
    | with_reducible assumption
    | with_reducible exact Keep.refl _
    | with_reducible refine Keep.ite (fun _ => ?_) (fun _ => ?_)
    | with_reducible apply State.msixSend_keep
    | with_reducible apply State.setRing_keep
    | simp only [keep_mk]
    | split
    | dsimp only

theorem State.ringDrained_keep {r s : State} (h : Keep r s) (n : Nat) : Keep r (State.ringDrained s n) := by
  unfold State.ringDrained
  try dsimp only
  repeat' first
    | with_reducible assumption
    | with_reducible exact Keep.refl _
    | with_reducible refine Keep.ite (fun _ => ?_) (fun _ => ?_)
    | with_reducible apply State.wr_keep
    | with_reducible apply State.setRing_keep
    | with_reducible apply State.setRingSt_keep
    | simp only [keep_mk]
    | split
    | dsimp only

theorem State.outstandingDown_keep {r s : State} (h : Keep r s) (n : Nat) : Keep r (State.outstandingDown s n) := by
  unfold State.outstandingDown
  try dsimp only
  repeat' first
    | with_reducible assumption
    | with_reducible exact Keep.refl _
    | with_reducible apply State.wr_keep
    | split
    | dsimp only

theorem State.entry_keep {r s : State} (h : Keep r s) (w : Work) (entry : Nat) : Keep r (State.entry s w entry) := by
  unfold State.entry
  try dsimp only
  repeat' first
    | with_reducible assumption
    | with_reducible exact Keep.refl _
    | with_reducible refine Keep.ite (fun _ => ?_) (fun _ => ?_)
    | with_reducible apply State.bump_keep
    | with_reducible apply State.holdPut_keep
    | with_reducible apply State.ringIrq_keep
    | with_reducible apply State.cqPut_keep
    | split
    | dsimp only

theorem State.finish_keep {r s : State} (h : Keep r s) (w : Work) (status : Nat) (adm : Nat) (detail : Nat) (result : Nat) : Keep r (State.finish s w status adm detail result) := by
  unfold State.finish
  try dsimp only
  repeat' first
    | with_reducible assumption
    | with_reducible exact Keep.refl _
    | with_reducible refine Keep.ite (fun _ => ?_) (fun _ => ?_)
    | with_reducible apply State.entry_keep
    | with_reducible apply State.ringDrained_keep
    | with_reducible apply State.outstandingDown_keep
    | simp only [keep_mk]
    | split
    | dsimp only

theorem State.served_keep {r s : State} (h : Keep r s) (w : Work) (status : Nat) (detail : Nat) : Keep r (State.served s w status detail) := by
  unfold State.served
  try dsimp only
  repeat' first
    | with_reducible assumption
    | with_reducible exact Keep.refl _
    | with_reducible refine Keep.ite (fun _ => ?_) (fun _ => ?_)
    | with_reducible apply State.finish_keep
    | split
    | dsimp only

theorem State.refuse_keep {r s : State} (h : Keep r s) (w : Work) (status : Nat) (detail : Nat) : Keep r (State.refuse s w status detail) := by
  unfold State.refuse
  try dsimp only
  repeat' first
    | with_reducible assumption
    | with_reducible exact Keep.refl _
    | with_reducible apply State.finish_keep
    | split
    | dsimp only

theorem State.notice_keep {r s : State} (h : Keep r s) (w : Work) (status : Nat) (cause : Nat) : Keep r (State.notice s w status cause) := by
  unfold State.notice
  try dsimp only
  repeat' first
    | with_reducible assumption
    | with_reducible exact Keep.refl _
    | with_reducible refine Keep.ite (fun _ => ?_) (fun _ => ?_)
    | with_reducible apply State.entry_keep
    | with_reducible apply State.bump_keep
    | simp only [keep_mk]
    | split
    | dsimp only

theorem State.deferWork_keep {r s : State} (h : Keep r s) (w : Work) (status : Nat) : Keep r (State.deferWork s w status).1 := by
  unfold State.deferWork
  try dsimp only
  repeat' first
    | with_reducible assumption
    | with_reducible exact Keep.refl _
    | with_reducible refine Keep.ite (fun _ => ?_) (fun _ => ?_)
    | with_reducible refine Keep.fst_ite (fun _ => ?_) (fun _ => ?_)
    | with_reducible apply State.notice_keep
    | simp only [keep_mk]
    | split
    | dsimp only

end Sys2Proof.Machine
end

