-- ==== Sys2Proof/Laws/KeepBus.lean ====
section
/-!
SUPPORT. The operations of Machine/Bus.lean keep the queue, the canonical forms and the freshness of free values.
-/

namespace Sys2Proof.Machine

open Sys2Proof

theorem State.poisonConv_keep {r s : State} (h : Keep r s) (a : Nat) (b : Nat) (poison : Bool) : Keep r (State.poisonConv s a b poison) := by
  unfold State.poisonConv
  try dsimp only
  repeat' first
    | with_reducible assumption
    | with_reducible exact Keep.refl _
    | with_reducible refine Keep.ite (fun _ => ?_) (fun _ => ?_)
    | with_reducible apply State.bump_keep
    | simp only [keep_mk]
    | split
    | dsimp only

theorem State.tsWrite_keep {r s : State} (h : Keep r s) (n : Nat) (off : Nat) (bs : List Byte) (poison : Bool) : Keep r (State.tsWrite s n off bs poison) := by
  unfold State.tsWrite
  try dsimp only
  repeat' first
    | with_reducible assumption
    | with_reducible exact Keep.refl _
    | with_reducible apply State.setTile_keep
    | simp only [keep_mk]
    | split
    | dsimp only

theorem State.apertureRefuse_keep {r s : State} (h : Keep r s) (n : Nat) : Keep r (State.apertureRefuse s n) := by
  unfold State.apertureRefuse
  try dsimp only
  repeat' first
    | with_reducible assumption
    | with_reducible exact Keep.refl _
    | with_reducible refine Keep.ite (fun _ => ?_) (fun _ => ?_)
    | with_reducible apply State.bump_keep
    | split
    | dsimp only

theorem State.setLcell_keep {r s : State} (h : Keep r s) (d : Nat) (c : Nat) (v : LCell) : Keep r (State.setLcell s d c v) := by
  unfold State.setLcell
  try dsimp only
  repeat' first
    | with_reducible assumption
    | with_reducible exact Keep.refl _
    | simp only [keep_mk]
    | split
    | dsimp only

theorem State.ledgerAdd_keep {r s : State} (h : Keep r s) (d : Nat) (c : Nat) (v : V) : Keep r (State.ledgerAdd s d c v) := by
  unfold State.ledgerAdd
  try dsimp only
  repeat' first
    | with_reducible assumption
    | with_reducible exact Keep.refl _
    | with_reducible refine Keep.ite (fun _ => ?_) (fun _ => ?_)
    | with_reducible apply State.setLcell_keep
    | with_reducible apply State.bump_keep
    | simp only [keep_mk]
    | split
    | dsimp only

theorem State.ledgerRead_keep {r s : State} (h : Keep r s) (d : Nat) (c : Nat) (bf16 : Bool) : Keep r (State.ledgerRead s d c bf16).1 := by
  unfold State.ledgerRead
  try dsimp only
  repeat' first
    | with_reducible assumption
    | with_reducible exact Keep.refl _
    | with_reducible refine Keep.ite (fun _ => ?_) (fun _ => ?_)
    | with_reducible refine Keep.fst_ite (fun _ => ?_) (fun _ => ?_)
    | with_reducible apply State.bump_keep
    | split
    | dsimp only

theorem State.freeBytes_keep {r s : State} (h : Keep r s) (a1 : Nat) : Keep r (State.freeBytes s a1).1 := by
  induction a1 generalizing s  with
  | zero => exact h
  | succ k ih =>
    unfold State.freeBytes
    try dsimp only
    repeat' first
      | with_reducible assumption
      | with_reducible exact Keep.refl _
      | with_reducible apply State.fresh_keep
      | with_reducible apply ih
      | with_reducible refine Keep.snd_eq (by assumption) ?_
      | split
      | dsimp only

theorem State.freeRead_keep {r s : State} (h : Keep r s) (n : Nat) : Keep r (State.freeRead s n).1 := by
  unfold State.freeRead
  try dsimp only
  repeat' first
    | with_reducible assumption
    | with_reducible exact Keep.refl _
    | with_reducible apply State.freeBytes_keep
    | with_reducible refine Keep.fst_eq (by assumption) ?_
    | split
    | dsimp only

theorem State.hbmStop_keep {r s : State} (h : Keep r s) (key : Nat) : KeepO r (State.hbmStop s key) := by
  unfold State.hbmStop
  try dsimp only
  repeat' first
    | with_reducible assumption
    | with_reducible exact Keep.refl _
    | with_reducible refine Keep.ite (fun _ => ?_) (fun _ => ?_)
    | with_reducible exact KeepO.none
    | with_reducible refine KeepO.some ?_
    | with_reducible refine KeepO.ite (fun _ => ?_) (fun _ => ?_)
    | with_reducible apply State.bump_keep
    | split
    | dsimp only

theorem State.regRead_keep {r s : State} (h : Keep r s) (a : Nat) : Keep r (State.regRead s a).1 := by
  unfold State.regRead
  try dsimp only
  repeat' first
    | with_reducible assumption
    | with_reducible exact Keep.refl _
    | with_reducible refine Keep.ite (fun _ => ?_) (fun _ => ?_)
    | with_reducible refine Keep.fst_ite (fun _ => ?_) (fun _ => ?_)
    | with_reducible apply State.bump_keep
    | with_reducible apply State.apertureRefuse_keep
    | simp only [keep_mk]
    | split
    | dsimp only

end Sys2Proof.Machine
end

