-- ==== Sys2Proof/Laws/KeepFugenNet.lean ====
section
/-!
SUPPORT. The operations of Machine/FugenNet.lean keep the queue, the canonical forms and the freshness of free values.
-/

namespace Sys2Proof.Machine

open Sys2Proof

theorem State.fgnNode_keep {r s : State} (h : Keep r s) : Keep r (State.fgnNode s) := by
  unfold State.fgnNode
  try dsimp only
  repeat' first
    | with_reducible assumption
    | with_reducible exact Keep.refl _
    | with_reducible apply State.wr_keep
    | split
    | dsimp only

theorem State.setLk_keep {r s : State} (h : Keep r s) (l : Nat) (st : Nat) : Keep r (State.setLk s l st) := by
  unfold State.setLk
  try dsimp only
  repeat' first
    | with_reducible assumption
    | with_reducible exact Keep.refl _
    | with_reducible refine Keep.ite (fun _ => ?_) (fun _ => ?_)
    | with_reducible apply State.wr_keep
    | with_reducible apply State.psc_keep
    | split
    | dsimp only

theorem State.refreshFgnPort_keep {r s : State} (h : Keep r s) (p : Nat) : Keep r (State.refreshFgnPort s p) := by
  unfold State.refreshFgnPort
  try dsimp only
  repeat' first
    | with_reducible assumption
    | with_reducible exact Keep.refl _
    | with_reducible refine Keep.ite (fun _ => ?_) (fun _ => ?_)
    | with_reducible apply State.wr_keep
    | with_reducible apply State.psc_keep
    | with_reducible refine Keep.foldl ?_ (fun _ _ _ => ?_)
    | with_reducible refine Keep.foldl_fst ?_ (fun _ _ _ => ?_)
    | split
    | dsimp only

theorem State.setFport_keep {r s : State} (h : Keep r s) (p : Nat) (x : FPort) : Keep r (State.setFport s p x) := by
  unfold State.setFport
  try dsimp only
  repeat' first
    | with_reducible assumption
    | with_reducible exact Keep.refl _
    | simp only [keep_mk]
    | split
    | dsimp only

theorem State.fgnPumpK_keep {r s : State} (h : Keep r s) (p : Nat) (a2 : Nat) : Keep r (State.fgnPumpK s p a2) := by
  induction a2 generalizing s p with
  | zero => exact h
  | succ k ih =>
    unfold State.fgnPumpK
    try dsimp only
    repeat' first
      | with_reducible assumption
      | with_reducible exact Keep.refl _
      | with_reducible apply State.setFport_keep
      | with_reducible apply ih
      | simp only [keep_mk]
      | split
      | dsimp only

theorem State.fgnPump_keep {r s : State} (h : Keep r s) (p : Nat) : Keep r (State.fgnPump s p) := by
  unfold State.fgnPump
  try dsimp only
  repeat' first
    | with_reducible assumption
    | with_reducible exact Keep.refl _
    | with_reducible refine Keep.ite (fun _ => ?_) (fun _ => ?_)
    | with_reducible apply State.fgnPumpK_keep
    | split
    | dsimp only

theorem State.fgnQueue_keep {r s : State} (h : Keep r s) (p : Nat) (vc : Nat) (t : FTx) : Keep r (State.fgnQueue s p vc t) := by
  unfold State.fgnQueue
  try dsimp only
  repeat' first
    | with_reducible assumption
    | with_reducible exact Keep.refl _
    | with_reducible apply State.fgnPump_keep
    | with_reducible apply State.setFport_keep
    | simp only [keep_mk]
    | split
    | dsimp only

theorem State.fgnDetour_keep {r s : State} (h : Keep r s) (p : Nat) (t : FTx) : Keep r (State.fgnDetour s p t) := by
  unfold State.fgnDetour
  try dsimp only
  repeat' first
    | with_reducible assumption
    | with_reducible exact Keep.refl _
    | with_reducible refine Keep.ite (fun _ => ?_) (fun _ => ?_)
    | with_reducible apply State.bump_keep
    | with_reducible apply State.fgnQueue_keep
    | simp only [keep_mk]
    | split
    | dsimp only

theorem State.fgnRoute_keep {r s : State} (h : Keep r s) (from_ : Option Nat) (t : FTx) : Keep r (State.fgnRoute s from_ t) := by
  unfold State.fgnRoute
  try dsimp only
  repeat' first
    | with_reducible assumption
    | with_reducible exact Keep.refl _
    | with_reducible refine Keep.ite (fun _ => ?_) (fun _ => ?_)
    | with_reducible apply State.bump_keep
    | with_reducible apply State.fgnQueue_keep
    | with_reducible apply State.fgnDetour_keep
    | simp only [keep_mk]
    | split
    | dsimp only

theorem State.fgnSend_keep {r s : State} (h : Keep r s) (tc : Nat) (op : Nat) (k : FPkt) : Keep r (State.fgnSend s tc op k) := by
  unfold State.fgnSend
  try dsimp only
  repeat' first
    | with_reducible assumption
    | with_reducible exact Keep.refl _
    | with_reducible refine Keep.ite (fun _ => ?_) (fun _ => ?_)
    | with_reducible apply State.wrap_keep
    | with_reducible apply State.fgnRoute_keep
    | simp only [keep_mk]
    | split
    | dsimp only

theorem State.fgnMgt_keep {r s : State} (h : Keep r s) (op : Nat) (dst : Nat) (aux : Nat) : Keep r (State.fgnMgt s op dst aux) := by
  unfold State.fgnMgt
  try dsimp only
  repeat' first
    | with_reducible assumption
    | with_reducible exact Keep.refl _
    | with_reducible apply State.fgnRoute_keep
    | split
    | dsimp only

theorem State.fgnReach_keep {r s : State} (h : Keep r s) (dst : Nat) : Keep r (State.fgnReach s dst).1 := by
  unfold State.fgnReach
  try dsimp only
  repeat' first
    | with_reducible assumption
    | with_reducible exact Keep.refl _
    | with_reducible refine Keep.ite (fun _ => ?_) (fun _ => ?_)
    | with_reducible refine Keep.fst_ite (fun _ => ?_) (fun _ => ?_)
    | with_reducible apply State.bump_keep
    | split
    | dsimp only

theorem State.fgnTx_keep {r s : State} (h : Keep r s) : Keep r (State.fgnTx s).2 := by
  unfold State.fgnTx
  try dsimp only
  repeat' first
    | with_reducible assumption
    | with_reducible exact Keep.refl _
    | simp only [keep_mk]
    | split
    | dsimp only

theorem State.fgnRead_keep {r s : State} (h : Keep r s) (pa : Nat) (n : Nat) : Keep r (State.fgnRead s pa n) := by
  unfold State.fgnRead
  try dsimp only
  repeat' first
    | with_reducible assumption
    | with_reducible exact Keep.refl _
    | with_reducible apply State.fgnTx_keep
    | with_reducible apply State.fgnSend_keep
    | with_reducible refine Keep.foldl ?_ (fun _ _ _ => ?_)
    | with_reducible refine Keep.foldl_fst ?_ (fun _ _ _ => ?_)
    | with_reducible refine Keep.snd_eq (by assumption) ?_
    | split
    | dsimp only

theorem State.fgnWriteLine_keep {r s : State} (h : Keep r s) (pa : Nat) (bs : List Byte) (poison : Bool) : Keep r (State.fgnWriteLine s pa bs poison) := by
  unfold State.fgnWriteLine
  try dsimp only
  repeat' first
    | with_reducible assumption
    | with_reducible exact Keep.refl _
    | with_reducible refine Keep.ite (fun _ => ?_) (fun _ => ?_)
    | with_reducible apply State.rrbDrop_keep
    | with_reducible apply State.fgnTx_keep
    | with_reducible apply State.fgnSend_keep
    | with_reducible refine Keep.snd_eq (by assumption) ?_
    | split
    | dsimp only

theorem State.fgnWrite_keep {r s : State} (h : Keep r s) (pa : Nat) (bs : List Byte) (poison : Bool) (a4 : Nat) : Keep r (State.fgnWrite s pa bs poison a4) := by
  induction a4 generalizing s pa bs poison with
  | zero => exact h
  | succ k ih =>
    unfold State.fgnWrite
    try dsimp only
    repeat' first
      | with_reducible assumption
      | with_reducible exact Keep.refl _
      | with_reducible refine Keep.ite (fun _ => ?_) (fun _ => ?_)
      | with_reducible apply State.fgnWriteLine_keep
      | with_reducible apply ih
      | split
      | dsimp only

theorem State.fgnAtomic_keep {r s : State} (h : Keep r s) (pa : Nat) (aux : Nat) (bs : List Byte) : Keep r (State.fgnAtomic s pa aux bs) := by
  unfold State.fgnAtomic
  try dsimp only
  repeat' first
    | with_reducible assumption
    | with_reducible exact Keep.refl _
    | with_reducible apply State.rrbDrop_keep
    | with_reducible apply State.fgnTx_keep
    | with_reducible apply State.fgnSend_keep
    | with_reducible refine Keep.snd_eq (by assumption) ?_
    | split
    | dsimp only

end Sys2Proof.Machine
end

