-- ==== Sys2Proof/Laws/KeepCache.lean ====
section
/-!
SUPPORT. The operations of Machine/Cache.lean keep the queue, the canonical forms and the freshness of free values.
-/

namespace Sys2Proof.Machine

open Sys2Proof

theorem State.refreshWays_keep {r s : State} (h : Keep r s) (d : Nat) : Keep r (State.refreshWays s d) := by
  unfold State.refreshWays
  try dsimp only
  repeat' first
    | with_reducible assumption
    | with_reducible exact Keep.refl _
    | with_reducible apply State.wr_keep
    | split
    | dsimp only

theorem State.setLine_keep {r s : State} (h : Keep r s) (ag : Nat) (line : Nat) (c : CLine) : Keep r (State.setLine s ag line c) := by
  unfold State.setLine
  try dsimp only
  repeat' first
    | with_reducible assumption
    | with_reducible exact Keep.refl _
    | simp only [keep_mk]
    | split
    | dsimp only

theorem State.delLine_keep {r s : State} (h : Keep r s) (ag : Nat) (line : Nat) : Keep r (State.delLine s ag line) := by
  unfold State.delLine
  try dsimp only
  repeat' first
    | with_reducible assumption
    | with_reducible exact Keep.refl _
    | with_reducible refine Keep.ite (fun _ => ?_) (fun _ => ?_)
    | simp only [keep_mk]
    | split
    | dsimp only

theorem State.setCore_keep {r s : State} (h : Keep r s) (c : Nat) (x : YCore) : Keep r (State.setCore s c x) := by
  unfold State.setCore
  try dsimp only
  repeat' first
    | with_reducible assumption
    | with_reducible exact Keep.refl _
    | simp only [keep_mk]
    | split
    | dsimp only

theorem State.setCoreSt_keep {r s : State} (h : Keep r s) (c : Nat) (st : Nat) : Keep r (State.setCoreSt s c st) := by
  unfold State.setCoreSt
  try dsimp only
  repeat' first
    | with_reducible assumption
    | with_reducible exact Keep.refl _
    | with_reducible apply State.wr_keep
    | split
    | dsimp only

theorem State.sbIssue_keep {r s : State} (h : Keep r s) (c : Nat) : Keep r (State.sbIssue s c) := by
  unfold State.sbIssue
  try dsimp only
  repeat' first
    | with_reducible assumption
    | with_reducible exact Keep.refl _
    | with_reducible apply State.fgnReach_keep
    | with_reducible apply State.fgnWriteLine_keep
    | with_reducible apply State.setCore_keep
    | simp only [keep_mk]
    | with_reducible refine Keep.foldl ?_ (fun _ _ _ => ?_)
    | with_reducible refine Keep.foldl_fst ?_ (fun _ _ _ => ?_)
    | with_reducible refine Keep.fst_eq (by assumption) ?_
    | split
    | dsimp only

theorem State.coreOfflining_keep {r s : State} (h : Keep r s) (c : Nat) (cause : Nat) : Keep r (State.coreOfflining s c cause) := by
  unfold State.coreOfflining
  try dsimp only
  repeat' first
    | with_reducible assumption
    | with_reducible exact Keep.refl _
    | with_reducible refine Keep.ite (fun _ => ?_) (fun _ => ?_)
    | with_reducible apply State.sbIssue_keep
    | with_reducible apply State.wr_keep
    | with_reducible apply State.setCoreSt_keep
    | with_reducible apply State.setCore_keep
    | simp only [keep_mk]
    | split
    | dsimp only

theorem State.treeHit_keep {r s : State} (h : Keep r s) (ag : Nat) (line : Nat) (way : Nat) : Keep r (State.treeHit s ag line way) := by
  unfold State.treeHit
  try dsimp only
  repeat' first
    | with_reducible assumption
    | with_reducible exact Keep.refl _
    | simp only [keep_mk]
    | split
    | dsimp only

theorem State.cHit_keep {r s : State} (h : Keep r s) (ag : Nat) (line : Nat) : Keep r (State.cHit s ag line) := by
  unfold State.cHit
  try dsimp only
  repeat' first
    | with_reducible assumption
    | with_reducible exact Keep.refl _
    | with_reducible refine Keep.ite (fun _ => ?_) (fun _ => ?_)
    | with_reducible apply State.treeHit_keep
    | with_reducible apply State.setLine_keep
    | simp only [keep_mk]
    | split
    | dsimp only

theorem State.cWay_keep {r s : State} (h : Keep r s) (ag : Nat) (line : Nat) : KeepF r (State.cWay s ag line) := by
  unfold State.cWay
  try dsimp only
  repeat' first
    | with_reducible assumption
    | with_reducible exact Keep.refl _
    | with_reducible refine Keep.ite (fun _ => ?_) (fun _ => ?_)
    | with_reducible exact KeepF.none
    | with_reducible refine KeepF.some ?_
    | with_reducible refine KeepF.ite (fun _ => ?_) (fun _ => ?_)
    | with_reducible apply State.setLine_keep
    | simp only [keep_mk]
    | with_reducible refine Keep.foldl ?_ (fun _ _ _ => ?_)
    | with_reducible refine Keep.foldl_fst ?_ (fun _ _ _ => ?_)
    | split
    | dsimp only

theorem State.cEnter_keep {r s : State} (h : Keep r s) (ag : Nat) (line : Nat) (way : Nat) (stream : Bool) (c : CLine) : Keep r (State.cEnter s ag line way stream c) := by
  unfold State.cEnter
  try dsimp only
  repeat' first
    | with_reducible assumption
    | with_reducible exact Keep.refl _
    | with_reducible refine Keep.ite (fun _ => ?_) (fun _ => ?_)
    | with_reducible apply State.setLine_keep
    | with_reducible apply State.treeHit_keep
    | simp only [keep_mk]
    | split
    | dsimp only

theorem State.rrbPut_keep {r s : State} (h : Keep r s) (key : Nat) (rx : RrbLine) : Keep r (State.rrbPut s key rx) := by
  unfold State.rrbPut
  try dsimp only
  repeat' first
    | with_reducible assumption
    | with_reducible exact Keep.refl _
    | simp only [keep_mk]
    | split
    | dsimp only

theorem State.rrbPoison_keep {r s : State} (h : Keep r s) (b : Nat) (a : Nat) : Keep r (State.rrbPoison s b a) := by
  unfold State.rrbPoison
  try dsimp only
  repeat' first
    | with_reducible assumption
    | with_reducible exact Keep.refl _
    | with_reducible apply State.rrbPut_keep
    | simp only [keep_mk]
    | split
    | dsimp only

theorem State.rrbEnter_keep {r s : State} (h : Keep r s) (b : Nat) (a : Nat) (data : Line) (poison : Bool) : Keep r (State.rrbEnter s b a data poison) := by
  unfold State.rrbEnter
  try dsimp only
  repeat' first
    | with_reducible assumption
    | with_reducible exact Keep.refl _
    | with_reducible apply State.rrbPut_keep
    | simp only [keep_mk]
    | with_reducible refine Keep.foldl ?_ (fun _ _ _ => ?_)
    | with_reducible refine Keep.foldl_fst ?_ (fun _ _ _ => ?_)
    | split
    | dsimp only

end Sys2Proof.Machine
end

