-- ==== Sys2Proof/Laws/KeepHbmRead.lean ====
section
/-!
SUPPORT. The operations of Machine/HbmRead.lean keep the queue, the canonical forms and the freshness of free values.
-/

namespace Sys2Proof.Machine

open Sys2Proof

theorem State.refreshDegraded_keep {r s : State} (h : Keep r s) : Keep r (State.refreshDegraded s) := by
  unfold State.refreshDegraded
  try dsimp only
  repeat' first
    | with_reducible assumption
    | with_reducible exact Keep.refl _
    | with_reducible apply State.wr_keep
    | simp only [keep_mk]
    | with_reducible refine Keep.foldl ?_ (fun _ _ _ => ?_)
    | with_reducible refine Keep.foldl_fst ?_ (fun _ _ _ => ?_)
    | split
    | dsimp only

theorem State.hbmRecord_keep {r s : State} (h : Keep r s) (stack : Nat) (kind : Nat) (pc : Nat) (bank : Nat) (row : Nat) (col : Nat) (pa : Nat) : Keep r (State.hbmRecord s stack kind pc bank row col pa) := by
  unfold State.hbmRecord
  try dsimp only
  repeat' first
    | with_reducible assumption
    | with_reducible exact Keep.refl _
    | with_reducible refine Keep.ite (fun _ => ?_) (fun _ => ?_)
    | with_reducible apply State.bump_keep
    | with_reducible apply State.wr_keep
    | with_reducible apply State.setReg_keep
    | with_reducible apply State.event_keep
    | split
    | dsimp only

theorem State.lineRecord_keep {r s : State} (h : Keep r s) (key : Nat) (kind : Nat) : Keep r (State.lineRecord s key kind) := by
  unfold State.lineRecord
  try dsimp only
  repeat' first
    | with_reducible assumption
    | with_reducible exact Keep.refl _
    | with_reducible apply State.hbmRecord_keep
    | split
    | dsimp only

theorem State.setMark_keep {r s : State} (h : Keep r s) (stack : Nat) (pc : Nat) (l : Option Nat) : Keep r (State.setMark s stack pc l) := by
  unfold State.setMark
  try dsimp only
  repeat' first
    | with_reducible assumption
    | with_reducible exact Keep.refl _
    | with_reducible apply State.wr_keep
    | simp only [keep_mk]
    | split
    | dsimp only

theorem State.laneCount_keep {r s : State} (h : Keep r s) (stack : Nat) (pc : Nat) (lane : Nat) (n : Nat) : Keep r (State.laneCount s stack pc lane n) := by
  unfold State.laneCount
  try dsimp only
  repeat' first
    | with_reducible assumption
    | with_reducible exact Keep.refl _
    | with_reducible refine Keep.ite (fun _ => ?_) (fun _ => ?_)
    | with_reducible apply State.fresh_keep
    | with_reducible apply State.hbmRecord_keep
    | with_reducible apply State.bump_keep
    | with_reducible apply State.setMark_keep
    | simp only [keep_mk]
    | with_reducible refine Keep.snd_eq (by assumption) ?_
    | split
    | dsimp only

theorem State.markLine_keep {r s : State} (h : Keep r s) (key : Nat) (kind : Nat) : Keep r (State.markLine s key kind) := by
  unfold State.markLine
  try dsimp only
  repeat' first
    | with_reducible assumption
    | with_reducible exact Keep.refl _
    | with_reducible apply State.lineRecord_keep
    | with_reducible apply State.bump_keep
    | with_reducible apply State.setPois_keep
    | split
    | dsimp only

theorem State.askRecon_keep {r s : State} (h : Keep r s) (key : Nat) (scrub : Bool) : Keep r (State.askRecon s key scrub) := by
  unfold State.askRecon
  try dsimp only
  repeat' first
    | with_reducible assumption
    | with_reducible exact Keep.refl _
    | simp only [keep_mk]
    | split
    | dsimp only

theorem State.answerLine_keep {r s : State} (h : Keep r s) (key : Nat) (p : Bool) : Keep r (State.answerLine s key p) := by
  unfold State.answerLine
  try dsimp only
  repeat' first
    | with_reducible assumption
    | with_reducible exact Keep.refl _
    | simp only [keep_mk]
    | split
    | dsimp only

theorem State.countLanes_keep {r s : State} (h : Keep r s) (key : Nat) (es : List (Nat × Nat)) : Keep r (State.countLanes s key es) := by
  unfold State.countLanes
  try dsimp only
  repeat' first
    | with_reducible assumption
    | with_reducible exact Keep.refl _
    | with_reducible refine Keep.ite (fun _ => ?_) (fun _ => ?_)
    | with_reducible apply State.laneCount_keep
    | with_reducible refine Keep.foldl ?_ (fun _ _ _ => ?_)
    | with_reducible refine Keep.foldl_fst ?_ (fun _ _ _ => ?_)
    | split
    | dsimp only

theorem State.writeBack_keep {r s : State} (h : Keep r s) (key : Nat) (bs : List Byte) : Keep r (State.writeBack s key bs) := by
  unfold State.writeBack
  exact Keep.ite (fun _ => h) (fun _ => State.setPois_keep (keep_mem h _ _) _ _)

theorem State.reconEnd_keep {r s : State} (h : Keep r s) (key : Nat) (bad : Bool) : Keep r (State.reconEnd s key bad).1 := by
  unfold State.reconEnd
  try dsimp only
  repeat' first
    | with_reducible assumption
    | with_reducible exact Keep.refl _
    | with_reducible refine Keep.ite (fun _ => ?_) (fun _ => ?_)
    | with_reducible refine Keep.fst_ite (fun _ => ?_) (fun _ => ?_)
    | with_reducible apply State.lineRecord_keep
    | with_reducible apply State.markLine_keep
    | with_reducible apply State.bump_keep
    | with_reducible apply State.setPois_keep
    | split
    | dsimp only

theorem State.hbmServe_keep {r s : State} (h : Keep r s) (key : Nat) (f : HbmFinding) (scrub : Bool) : Keep r (State.hbmServe s key f scrub) := by
  unfold State.hbmServe
  try dsimp only
  repeat' first
    | with_reducible assumption
    | with_reducible exact Keep.refl _
    | with_reducible refine Keep.ite (fun _ => ?_) (fun _ => ?_)
    | with_reducible apply State.bump_keep
    | with_reducible apply State.askRecon_keep
    | with_reducible apply State.answerLine_keep
    | with_reducible apply State.writeBack_keep
    | with_reducible apply State.countLanes_keep
    | with_reducible apply State.markLine_keep
    | simp only [keep_mk]
    | split
    | dsimp only

theorem State.lineFetch_keep {r s : State} (h : Keep r s) (key : Nat) (f : HbmFinding) : Keep r (State.lineFetch s key f).1 := by
  unfold State.lineFetch
  try dsimp only
  repeat' first
    | with_reducible assumption
    | with_reducible exact Keep.refl _
    | with_reducible refine Keep.ite (fun _ => ?_) (fun _ => ?_)
    | with_reducible refine Keep.fst_ite (fun _ => ?_) (fun _ => ?_)
    | with_reducible apply State.reconEnd_keep
    | with_reducible apply State.bump_keep
    | with_reducible apply State.writeBack_keep
    | with_reducible apply State.countLanes_keep
    | with_reducible apply State.markLine_keep
    | simp only [keep_mk]
    | with_reducible refine Keep.fst_eq (by assumption) ?_
    | split
    | dsimp only

end Sys2Proof.Machine
end

