-- ==== Sys2Proof/Laws/KeepTranslate.lean ====
section
/-!
SUPPORT. The operations of Machine/Translate.lean keep the queue, the canonical forms and the freshness of free values.
-/

namespace Sys2Proof.Machine

open Sys2Proof

theorem State.takeFault_keep {r s : State} (h : Keep r s) (die : Nat) (pasid : Nat) (va : Nat) (k : AccessKind) : Keep r (State.takeFault s die pasid va k) := by
  unfold State.takeFault
  try dsimp only
  repeat' first
    | with_reducible assumption
    | with_reducible exact Keep.refl _
    | simp only [keep_mk]
    | split
    | dsimp only

theorem State.xfail_keep {r s : State} (h : Keep r s) (q : XReq) (cause : Nat) : Keep r (State.xfail s q cause) := by
  unfold State.xfail
  try dsimp only
  repeat' first
    | with_reducible assumption
    | with_reducible exact Keep.refl _
    | with_reducible apply State.bump_keep
    | simp only [keep_mk]
    | split
    | dsimp only

theorem State.xnone_keep {r s : State} (h : Keep r s) (q : XReq) (cause : Nat) (enPri : Bool) : Keep r (State.xnone s q cause enPri) := by
  unfold State.xnone
  try dsimp only
  repeat' first
    | with_reducible assumption
    | with_reducible exact Keep.refl _
    | with_reducible refine Keep.ite (fun _ => ?_) (fun _ => ?_)
    | with_reducible apply State.bump_keep
    | with_reducible apply State.xfail_keep
    | simp only [keep_mk]
    | split
    | dsimp only

theorem State.atcAdd_keep {r s : State} (h : Keep r s) (e : AtcEnt) (va : Nat) : Keep r (State.atcAdd s e va) := by
  unfold State.atcAdd
  try dsimp only
  repeat' first
    | with_reducible assumption
    | with_reducible exact Keep.refl _
    | with_reducible refine Keep.ite (fun _ => ?_) (fun _ => ?_)
    | simp only [keep_mk]
    | split
    | dsimp only

theorem State.xenter_keep {r s : State} (h : Keep r s) (q : XReq) (va : Nat) (e : AtcEnt) (valid : Bool) (cause : Nat) (enPri : Bool) : Keep r (State.xenter s q va e valid cause enPri) := by
  unfold State.xenter
  try dsimp only
  repeat' first
    | with_reducible assumption
    | with_reducible exact Keep.refl _
    | with_reducible refine Keep.ite (fun _ => ?_) (fun _ => ?_)
    | with_reducible apply State.atcAdd_keep
    | with_reducible apply State.xnone_keep
    | simp only [keep_mk]
    | split
    | dsimp only

theorem execAtcMiss_keep {r s : State} (h : Keep r s) (die : DieId) (pasid : BitVec 20) (va : Word) (kind : AccessKind) : KeepN r (execAtcMiss die pasid va kind s) := by
  unfold execAtcMiss
  try dsimp only
  repeat' first
    | with_reducible assumption
    | with_reducible exact Keep.refl _
    | with_reducible refine KeepN.next ?_
    | with_reducible apply State.wrap_keep
    | simp only [keep_mk]
    | split
    | dsimp only

theorem execTranslationCompletion_keep {r s : State} (h : Keep r s) (die : DieId) (pasid : BitVec 20) (va : Word) (kind : AccessKind) (dc : DevCtx) (res : XlateResult) : KeepN r (execTranslationCompletion die pasid va kind dc res s) := by
  unfold execTranslationCompletion
  try dsimp only
  repeat' first
    | with_reducible assumption
    | with_reducible exact Keep.refl _
    | with_reducible refine Keep.ite (fun _ => ?_) (fun _ => ?_)
    | with_reducible refine KeepN.next ?_
    | with_reducible refine KeepN.ite (fun _ => ?_) (fun _ => ?_)
    | with_reducible apply State.bump_keep
    | with_reducible apply State.xfail_keep
    | with_reducible apply State.xenter_keep
    | with_reducible apply State.xnone_keep
    | simp only [keep_mk]
    | split
    | dsimp only

theorem execPageRequestResponse_keep {r s : State} (h : Keep r s) (die : DieId) (pasid : BitVec 20) (va : Word) (success : Bool) : KeepN r (execPageRequestResponse die pasid va success s) := by
  unfold execPageRequestResponse
  try dsimp only
  repeat' first
    | with_reducible assumption
    | with_reducible exact Keep.refl _
    | with_reducible refine Keep.ite (fun _ => ?_) (fun _ => ?_)
    | with_reducible refine KeepN.next ?_
    | with_reducible refine KeepN.ite (fun _ => ?_) (fun _ => ?_)
    | with_reducible apply State.xfail_keep
    | with_reducible apply State.bump_keep
    | simp only [keep_mk]
    | with_reducible refine Keep.foldl ?_ (fun _ _ _ => ?_)
    | with_reducible refine Keep.foldl_fst ?_ (fun _ _ _ => ?_)
    | split
    | dsimp only

theorem execPageRequestTimeout_keep {r s : State} (h : Keep r s) (die : DieId) (pasid : BitVec 20) (va : Word) : KeepN r (execPageRequestTimeout die pasid va s) := by
  unfold execPageRequestTimeout
  try dsimp only
  repeat' first
    | with_reducible assumption
    | with_reducible exact Keep.refl _
    | with_reducible refine Keep.ite (fun _ => ?_) (fun _ => ?_)
    | with_reducible refine KeepN.next ?_
    | with_reducible refine KeepN.ite (fun _ => ?_) (fun _ => ?_)
    | with_reducible apply State.bump_keep
    | with_reducible apply State.xfail_keep
    | simp only [keep_mk]
    | with_reducible refine Keep.foldl ?_ (fun _ _ _ => ?_)
    | with_reducible refine Keep.foldl_fst ?_ (fun _ _ _ => ?_)
    | split
    | dsimp only

theorem State.invalidate_keep {r s : State} (h : Keep r s) (p : AtcEnt → Bool) (q : XReq → Bool) : Keep r (State.invalidate s p q) := by
  unfold State.invalidate
  try dsimp only
  repeat' first
    | with_reducible assumption
    | with_reducible exact Keep.refl _
    | simp only [keep_mk]
    | with_reducible refine Keep.foldl ?_ (fun _ _ _ => ?_)
    | with_reducible refine Keep.foldl_fst ?_ (fun _ _ _ => ?_)
    | split
    | dsimp only

theorem execIotinvalVma_keep {r s : State} (h : Keep r s) (pasid : Option (BitVec 20)) (va : Option Word) : KeepN r (execIotinvalVma pasid va s) := by
  unfold execIotinvalVma
  try dsimp only
  repeat' first
    | with_reducible assumption
    | with_reducible exact Keep.refl _
    | with_reducible refine KeepN.next ?_
    | with_reducible apply State.invalidate_keep
    | simp only [keep_mk]
    | split
    | dsimp only

theorem execIotinvalGvma_keep {r s : State} (h : Keep r s) (addr : Option Word) : KeepN r (execIotinvalGvma addr s) := by
  unfold execIotinvalGvma
  try dsimp only
  repeat' first
    | with_reducible assumption
    | with_reducible exact Keep.refl _
    | with_reducible refine KeepN.next ?_
    | with_reducible apply State.invalidate_keep
    | simp only [keep_mk]
    | split
    | dsimp only

theorem execIofenceC_keep {r s : State} (h : Keep r s) : KeepN r (execIofenceC s) := by
  unfold execIofenceC
  try dsimp only
  repeat' first
    | with_reducible assumption
    | with_reducible exact Keep.refl _
    | with_reducible refine KeepN.next ?_
    | simp only [keep_mk]
    | split
    | dsimp only

theorem execIofenceCComplete_keep {r s : State} (h : Keep r s) : KeepN r (execIofenceCComplete s) := by
  unfold execIofenceCComplete
  try dsimp only
  repeat' first
    | with_reducible assumption
    | with_reducible exact Keep.refl _
    | with_reducible refine Keep.ite (fun _ => ?_) (fun _ => ?_)
    | with_reducible refine KeepN.next ?_
    | with_reducible refine KeepN.ite (fun _ => ?_) (fun _ => ?_)
    | simp only [keep_mk]
    | split
    | dsimp only

theorem execAtsInvalidate_keep {r s : State} (h : Keep r s) (pasid : Option (BitVec 20)) (va : Word) (log2 : Fin 64) : KeepN r (execAtsInvalidate pasid va log2 s) := by
  unfold execAtsInvalidate
  try dsimp only
  repeat' first
    | with_reducible assumption
    | with_reducible exact Keep.refl _
    | with_reducible refine KeepN.next ?_
    | with_reducible apply State.invalidate_keep
    | simp only [keep_mk]
    | split
    | dsimp only

end Sys2Proof.Machine
end

