-- ==== Sys2Proof/Laws/KeepHostIf.lean ====
section
/-!
SUPPORT. The operations of Machine/HostIf.lean keep the queue, the canonical forms and the freshness of free values.
-/

namespace Sys2Proof.Machine

open Sys2Proof

theorem State.stopRing_keep {r s : State} (h : Keep r s) (n : Nat) (cause : Nat) : Keep r (State.stopRing s n cause) := by
  unfold State.stopRing
  try dsimp only
  repeat' first
    | with_reducible assumption
    | with_reducible exact Keep.refl _
    | with_reducible apply State.setRing_keep
    | with_reducible apply State.wr_keep
    | with_reducible apply State.setRingSt_keep
    | simp only [keep_mk]
    | split
    | dsimp only

theorem State.disableRing_keep {r s : State} (h : Keep r s) (n : Nat) : Keep r (State.disableRing s n) := by
  unfold State.disableRing
  try dsimp only
  repeat' first
    | with_reducible assumption
    | with_reducible exact Keep.refl _
    | with_reducible apply State.setRing_keep
    | with_reducible apply State.wr_keep
    | with_reducible apply State.setRingSt_keep
    | simp only [keep_mk]
    | split
    | dsimp only

theorem State.doorbell_keep {r s : State} (h : Keep r s) (n : Nat) (v : Word) : Keep r (State.doorbell s n v) := by
  unfold State.doorbell
  try dsimp only
  repeat' first
    | with_reducible assumption
    | with_reducible exact Keep.refl _
    | with_reducible refine Keep.ite (fun _ => ?_) (fun _ => ?_)
    | with_reducible apply State.wr_keep
    | with_reducible apply State.wrap_keep
    | with_reducible apply State.bump_keep
    | split
    | dsimp only

theorem State.doorbellAccess_keep {r s : State} (h : Keep r s) (n : Nat) (off : Nat) (size : Nat) (write : Bool) (v : Word) : Keep r (State.doorbellAccess s n off size write v) := by
  unfold State.doorbellAccess
  try dsimp only
  repeat' first
    | with_reducible assumption
    | with_reducible exact Keep.refl _
    | with_reducible refine Keep.ite (fun _ => ?_) (fun _ => ?_)
    | with_reducible apply State.doorbell_keep
    | with_reducible apply State.wr_keep
    | with_reducible apply State.bump_keep
    | split
    | dsimp only

theorem execDoorbell_keep {r s : State} (h : Keep r s) (page : RingId) (offset : BitVec 12) (size : BitVec 4) (write : Bool) (value : Word) : KeepN r (execDoorbell page offset size write value s) := by
  unfold execDoorbell
  try dsimp only
  repeat' first
    | with_reducible assumption
    | with_reducible exact Keep.refl _
    | with_reducible refine KeepN.next ?_
    | with_reducible apply State.doorbellAccess_keep
    | split
    | dsimp only

theorem State.countCause_keep {r s : State} (h : Keep r s) (n : Nat) (c : Nat) (d : Line) : Keep r (State.countCause s n c d) := by
  unfold State.countCause
  try dsimp only
  repeat' first
    | with_reducible assumption
    | with_reducible exact Keep.refl _
    | with_reducible refine Keep.ite (fun _ => ?_) (fun _ => ?_)
    | with_reducible apply State.bump_keep
    | with_reducible apply State.wrap_keep
    | simp only [keep_mk]
    | split
    | dsimp only

theorem State.advance_keep {r s : State} (h : Keep r s) (n : Nat) : Keep r (State.advance s n) := by
  unfold State.advance
  try dsimp only
  repeat' first
    | with_reducible assumption
    | with_reducible exact Keep.refl _
    | with_reducible apply State.setRing_keep
    | with_reducible apply State.wr_keep
    | simp only [keep_mk]
    | split
    | dsimp only

theorem State.arrive_keep {r s : State} (h : Keep r s) (n : Nat) (w : Work) : Keep r (State.arrive s n w) := by
  unfold State.arrive
  try dsimp only
  repeat' first
    | with_reducible assumption
    | with_reducible exact Keep.refl _
    | with_reducible refine Keep.ite (fun _ => ?_) (fun _ => ?_)
    | with_reducible apply State.refuse_keep
    | with_reducible apply State.setTile_keep
    | simp only [keep_mk]
    | split
    | dsimp only

theorem State.groupBusy_keep {r s : State} (h : Keep r s) (w : Work) : Keep r (State.groupBusy s w) := by
  unfold State.groupBusy
  try dsimp only
  repeat' first
    | with_reducible assumption
    | with_reducible exact Keep.refl _
    | with_reducible refine Keep.ite (fun _ => ?_) (fun _ => ?_)
    | with_reducible apply State.wr_keep
    | split
    | dsimp only

theorem State.groupsBusy_keep {r s : State} (h : Keep r s) : Keep r (State.groupsBusy s) := by
  unfold State.groupsBusy
  try dsimp only
  repeat' first
    | with_reducible assumption
    | with_reducible exact Keep.refl _
    | with_reducible apply State.wr_keep
    | with_reducible refine Keep.foldl ?_ (fun _ _ _ => ?_)
    | with_reducible refine Keep.foldl_fst ?_ (fun _ _ _ => ?_)
    | split
    | dsimp only

theorem State.handOver_keep {r s : State} (h : Keep r s) (n : Nat) (w : Work) : Keep r (State.handOver s n w) := by
  unfold State.handOver
  try dsimp only
  repeat' first
    | with_reducible assumption
    | with_reducible exact Keep.refl _
    | with_reducible refine Keep.ite (fun _ => ?_) (fun _ => ?_)
    | with_reducible apply State.groupBusy_keep
    | with_reducible apply State.arrive_keep
    | with_reducible apply State.setRing_keep
    | simp only [keep_mk]
    | split
    | dsimp only

theorem State.takeTurn_keep {r s : State} (h : Keep r s) (n : Nat) : Keep r (State.takeTurn s n) := by
  unfold State.takeTurn
  try dsimp only
  repeat' first
    | with_reducible assumption
    | with_reducible exact Keep.refl _
    | with_reducible refine Keep.ite (fun _ => ?_) (fun _ => ?_)
    | simp only [keep_mk]
    | split
    | dsimp only

theorem execDescriptorAdmit_keep {r s : State} (h : Keep r s) (rx : RingId) : KeepN r (execDescriptorAdmit rx s) := by
  unfold execDescriptorAdmit
  try dsimp only
  repeat' first
    | with_reducible assumption
    | with_reducible exact Keep.refl _
    | with_reducible refine Keep.ite (fun _ => ?_) (fun _ => ?_)
    | with_reducible refine KeepN.next ?_
    | with_reducible refine KeepN.ite (fun _ => ?_) (fun _ => ?_)
    | with_reducible apply State.advance_keep
    | with_reducible apply State.entry_keep
    | with_reducible apply State.wrap_keep
    | with_reducible apply State.takeTurn_keep
    | with_reducible apply State.handOver_keep
    | with_reducible apply State.countCause_keep
    | with_reducible apply State.setRing_keep
    | with_reducible apply State.notice_keep
    | simp only [keep_mk]
    | with_reducible refine Keep.foldl ?_ (fun _ _ _ => ?_)
    | with_reducible refine Keep.foldl_fst ?_ (fun _ _ _ => ?_)
    | split
    | dsimp only

theorem execNop_keep {r s : State} (h : Keep r s) (rx : RingId) : KeepN r (execNop rx s) := by
  unfold execNop
  try dsimp only
  repeat' first
    | with_reducible assumption
    | with_reducible exact Keep.refl _
    | with_reducible refine KeepN.next ?_
    | with_reducible apply State.served_keep
    | simp only [keep_mk]
    | split
    | dsimp only

theorem State.fenceEnd_keep {r s : State} (h : Keep r s) (n : Nat) (w : Work) (status : Nat) : Keep r (State.fenceEnd s n w status) := by
  unfold State.fenceEnd
  try dsimp only
  repeat' first
    | with_reducible assumption
    | with_reducible exact Keep.refl _
    | with_reducible apply State.served_keep
    | with_reducible apply State.setRing_keep
    | simp only [keep_mk]
    | split
    | dsimp only

theorem execFence_keep {r s : State} (h : Keep r s) (rx : RingId) : KeepN r (execFence rx s) := by
  unfold execFence
  try dsimp only
  repeat' first
    | with_reducible assumption
    | with_reducible exact Keep.refl _
    | with_reducible refine Keep.ite (fun _ => ?_) (fun _ => ?_)
    | with_reducible refine KeepN.next ?_
    | with_reducible refine KeepN.ite (fun _ => ?_) (fun _ => ?_)
    | with_reducible apply State.refuse_keep
    | with_reducible apply State.setRing_keep
    | simp only [keep_mk]
    | split
    | dsimp only

theorem execFenceStart_keep {r s : State} (h : Keep r s) (rx : RingId) : KeepN r (execFenceStart rx s) := by
  unfold execFenceStart
  try dsimp only
  repeat' first
    | with_reducible assumption
    | with_reducible exact Keep.refl _
    | with_reducible refine Keep.ite (fun _ => ?_) (fun _ => ?_)
    | with_reducible refine KeepN.next ?_
    | with_reducible refine KeepN.ite (fun _ => ?_) (fun _ => ?_)
    | with_reducible apply State.wr_keep
    | with_reducible apply State.setRing_keep
    | with_reducible apply State.fenceEnd_keep
    | simp only [keep_mk]
    | split
    | dsimp only

theorem State.fenceCheck_keep {r s : State} (h : Keep r s) (n : Nat) : Keep r (State.fenceCheck s n) := by
  unfold State.fenceCheck
  try dsimp only
  repeat' first
    | with_reducible assumption
    | with_reducible exact Keep.refl _
    | with_reducible refine Keep.ite (fun _ => ?_) (fun _ => ?_)
    | with_reducible apply State.fenceEnd_keep
    | simp only [keep_mk]
    | split
    | dsimp only

theorem State.flushEnd_keep {r s : State} (h : Keep r s) (n : Nat) (ok : Bool) : Keep r (State.flushEnd s n ok) := by
  unfold State.flushEnd
  try dsimp only
  repeat' first
    | with_reducible assumption
    | with_reducible exact Keep.refl _
    | with_reducible refine Keep.ite (fun _ => ?_) (fun _ => ?_)
    | with_reducible apply State.fenceCheck_keep
    | with_reducible apply State.setRing_keep
    | with_reducible apply State.fenceEnd_keep
    | simp only [keep_mk]
    | split
    | dsimp only

theorem execPeerFlushCompletion_keep {r s : State} (h : Keep r s) (rx : RingId) (ans : Answer) : KeepN r (execPeerFlushCompletion rx ans s) := by
  unfold execPeerFlushCompletion
  try dsimp only
  repeat' first
    | with_reducible assumption
    | with_reducible exact Keep.refl _
    | with_reducible refine KeepN.next ?_
    | with_reducible apply State.flushEnd_keep
    | split
    | dsimp only

theorem execPeerFlushTimeout_keep {r s : State} (h : Keep r s) (rx : RingId) : KeepN r (execPeerFlushTimeout rx s) := by
  unfold execPeerFlushTimeout
  try dsimp only
  repeat' first
    | with_reducible assumption
    | with_reducible exact Keep.refl _
    | with_reducible refine KeepN.next ?_
    | with_reducible apply State.flushEnd_keep
    | split
    | dsimp only

theorem State.ringCfg_keep {r s : State} (h : Keep r s) (n : Nat) (v : Word) : Keep r (State.ringCfg s n v) := by
  unfold State.ringCfg
  try dsimp only
  repeat' first
    | with_reducible assumption
    | with_reducible exact Keep.refl _
    | with_reducible refine Keep.ite (fun _ => ?_) (fun _ => ?_)
    | with_reducible apply State.wr_keep
    | with_reducible refine Keep.foldl ?_ (fun _ _ _ => ?_)
    | with_reducible refine Keep.foldl_fst ?_ (fun _ _ _ => ?_)
    | split
    | dsimp only

theorem execHifRingEnSet_keep {r s : State} (h : Keep r s) (rx : RingId) (cfg : Word) : KeepN r (execHifRingEnSet rx cfg s) := by
  unfold execHifRingEnSet
  try dsimp only
  repeat' first
    | with_reducible assumption
    | with_reducible exact Keep.refl _
    | with_reducible refine Keep.ite (fun _ => ?_) (fun _ => ?_)
    | with_reducible refine KeepN.next ?_
    | with_reducible refine KeepN.ite (fun _ => ?_) (fun _ => ?_)
    | with_reducible apply State.ringCfg_keep
    | with_reducible apply State.wr_keep
    | with_reducible apply State.setRingSt_keep
    | with_reducible apply State.setRing_keep
    | with_reducible apply State.setReg_keep
    | simp only [keep_mk]
    | split
    | dsimp only

theorem execHifRingEnClear_keep {r s : State} (h : Keep r s) (rx : RingId) (cfg : Word) : KeepN r (execHifRingEnClear rx cfg s) := by
  unfold execHifRingEnClear
  try dsimp only
  repeat' first
    | with_reducible assumption
    | with_reducible exact Keep.refl _
    | with_reducible refine Keep.ite (fun _ => ?_) (fun _ => ?_)
    | with_reducible refine KeepN.next ?_
    | with_reducible refine KeepN.ite (fun _ => ?_) (fun _ => ?_)
    | with_reducible apply State.wr_keep
    | with_reducible apply State.ringCfg_keep
    | with_reducible apply State.setRingSt_keep
    | with_reducible apply State.ringDrained_keep
    | with_reducible apply State.setRing_keep
    | with_reducible apply State.disableRing_keep
    | simp only [keep_mk]
    | split
    | dsimp only

theorem execHifRingStop_keep {r s : State} (h : Keep r s) (rx : RingId) : KeepN r (execHifRingStop rx s) := by
  unfold execHifRingStop
  try dsimp only
  repeat' first
    | with_reducible assumption
    | with_reducible exact Keep.refl _
    | with_reducible refine Keep.ite (fun _ => ?_) (fun _ => ?_)
    | with_reducible refine KeepN.next ?_
    | with_reducible refine KeepN.ite (fun _ => ?_) (fun _ => ?_)
    | with_reducible apply State.ringDrained_keep
    | with_reducible apply State.setRingSt_keep
    | split
    | dsimp only

theorem State.replayHeld_keep {r s : State} (h : Keep r s) (n : Nat) (i : Nat) (a3 : Nat) : Keep r (State.replayHeld s n i a3) := by
  induction a3 generalizing s n i with
  | zero => exact h
  | succ k ih =>
    unfold State.replayHeld
    try dsimp only
    repeat' first
      | with_reducible assumption
      | with_reducible exact Keep.refl _
      | with_reducible apply State.cqPut_keep
      | with_reducible apply State.ringIrq_keep
      | with_reducible apply ih
      | split
      | dsimp only

theorem State.lostCheck_keep {r s : State} (h : Keep r s) : Keep r (State.lostCheck s) := by
  unfold State.lostCheck
  try dsimp only
  repeat' first
    | with_reducible assumption
    | with_reducible exact Keep.refl _
    | with_reducible refine Keep.ite (fun _ => ?_) (fun _ => ?_)
    | with_reducible apply State.wr_keep
    | split
    | dsimp only

theorem State.resumeLost_keep {r s : State} (h : Keep r s) (n : Nat) : Keep r (State.resumeLost s n) := by
  unfold State.resumeLost
  try dsimp only
  repeat' first
    | with_reducible assumption
    | with_reducible exact Keep.refl _
    | with_reducible apply State.wr_keep
    | with_reducible apply State.setRing_keep
    | with_reducible apply State.setRingSt_keep
    | with_reducible apply State.lostCheck_keep
    | with_reducible apply State.replayHeld_keep
    | simp only [keep_mk]
    | split
    | dsimp only

theorem State.abandonLost_keep {r s : State} (h : Keep r s) (n : Nat) : Keep r (State.abandonLost s n) := by
  unfold State.abandonLost
  try dsimp only
  repeat' first
    | with_reducible assumption
    | with_reducible exact Keep.refl _
    | with_reducible apply State.bumpBy_keep
    | with_reducible apply State.wr_keep
    | with_reducible apply State.groupsBusy_keep
    | with_reducible apply State.lostCheck_keep
    | with_reducible apply State.disableRing_keep
    | simp only [keep_mk]
    | split
    | dsimp only

theorem execHifRingResume_keep {r s : State} (h : Keep r s) (rx : RingId) : KeepN r (execHifRingResume rx s) := by
  unfold execHifRingResume
  try dsimp only
  repeat' first
    | with_reducible assumption
    | with_reducible exact Keep.refl _
    | with_reducible refine Keep.ite (fun _ => ?_) (fun _ => ?_)
    | with_reducible refine KeepN.next ?_
    | with_reducible refine KeepN.ite (fun _ => ?_) (fun _ => ?_)
    | with_reducible apply State.setRing_keep
    | with_reducible apply State.wr_keep
    | with_reducible apply State.setRingSt_keep
    | with_reducible apply State.resumeLost_keep
    | simp only [keep_mk]
    | split
    | dsimp only

theorem execHifRingAbandon_keep {r s : State} (h : Keep r s) (rx : RingId) : KeepN r (execHifRingAbandon rx s) := by
  unfold execHifRingAbandon
  try dsimp only
  repeat' first
    | with_reducible assumption
    | with_reducible exact Keep.refl _
    | with_reducible refine Keep.ite (fun _ => ?_) (fun _ => ?_)
    | with_reducible refine KeepN.next ?_
    | with_reducible refine KeepN.ite (fun _ => ?_) (fun _ => ?_)
    | with_reducible apply State.disableRing_keep
    | with_reducible apply State.abandonLost_keep
    | split
    | dsimp only

theorem execCqWriteFail_keep {r s : State} (h : Keep r s) (rx : RingId) : KeepN r (execCqWriteFail rx s) := by
  unfold execCqWriteFail
  try dsimp only
  repeat' first
    | with_reducible assumption
    | with_reducible exact Keep.refl _
    | with_reducible refine Keep.ite (fun _ => ?_) (fun _ => ?_)
    | with_reducible refine KeepN.next ?_
    | with_reducible refine KeepN.ite (fun _ => ?_) (fun _ => ?_)
    | with_reducible apply State.stopRing_keep
    | split
    | dsimp only

theorem execCoalesceTimer_keep {r s : State} (h : Keep r s) (rx : RingId) : KeepN r (execCoalesceTimer rx s) := by
  unfold execCoalesceTimer
  try dsimp only
  repeat' first
    | with_reducible assumption
    | with_reducible exact Keep.refl _
    | with_reducible refine Keep.ite (fun _ => ?_) (fun _ => ?_)
    | with_reducible refine KeepN.next ?_
    | with_reducible refine KeepN.ite (fun _ => ?_) (fun _ => ?_)
    | with_reducible apply State.msixSend_keep
    | with_reducible apply State.setRing_keep
    | simp only [keep_mk]
    | split
    | dsimp only

theorem execHostLoss_keep {r s : State} (h : Keep r s) (cause : HostLossCause) : KeepN r (execHostLoss cause s) := by
  unfold execHostLoss
  try dsimp only
  repeat' first
    | with_reducible assumption
    | with_reducible exact Keep.refl _
    | with_reducible refine Keep.ite (fun _ => ?_) (fun _ => ?_)
    | with_reducible refine KeepN.next ?_
    | with_reducible refine KeepN.ite (fun _ => ?_) (fun _ => ?_)
    | with_reducible apply State.setRing_keep
    | with_reducible apply State.setRingSt_keep
    | with_reducible apply State.xfail_keep
    | with_reducible apply State.wr_keep
    | with_reducible apply State.bump_keep
    | with_reducible apply State.event_keep
    | simp only [keep_mk]
    | with_reducible refine Keep.foldl ?_ (fun _ _ _ => ?_)
    | with_reducible refine Keep.foldl_fst ?_ (fun _ _ _ => ?_)
    | split
    | dsimp only

theorem execHifAttachGo_keep {r s : State} (h : Keep r s) : KeepN r (execHifAttachGo s) := by
  unfold execHifAttachGo
  try dsimp only
  repeat' first
    | with_reducible assumption
    | with_reducible exact Keep.refl _
    | with_reducible refine KeepN.next ?_
    | with_reducible apply State.lostCheck_keep
    | simp only [keep_mk]
    | split
    | dsimp only

theorem execAttachReady_keep {r s : State} (h : Keep r s) : KeepN r (execAttachReady s) := by
  unfold execAttachReady
  try dsimp only
  repeat' first
    | with_reducible assumption
    | with_reducible exact Keep.refl _
    | with_reducible refine Keep.ite (fun _ => ?_) (fun _ => ?_)
    | with_reducible refine KeepN.next ?_
    | with_reducible refine KeepN.ite (fun _ => ?_) (fun _ => ?_)
    | with_reducible apply State.wr_keep
    | with_reducible apply State.resumeLost_keep
    | with_reducible refine Keep.foldl ?_ (fun _ _ _ => ?_)
    | with_reducible refine Keep.foldl_fst ?_ (fun _ _ _ => ?_)
    | split
    | dsimp only

theorem execAttachTimeout_keep {r s : State} (h : Keep r s) : KeepN r (execAttachTimeout s) := by
  unfold execAttachTimeout
  try dsimp only
  repeat' first
    | with_reducible assumption
    | with_reducible exact Keep.refl _
    | with_reducible refine Keep.ite (fun _ => ?_) (fun _ => ?_)
    | with_reducible refine KeepN.next ?_
    | with_reducible refine KeepN.ite (fun _ => ?_) (fun _ => ?_)
    | with_reducible apply State.abandonLost_keep
    | with_reducible apply State.wr_keep
    | simp only [keep_mk]
    | with_reducible refine Keep.foldl ?_ (fun _ _ _ => ?_)
    | with_reducible refine Keep.foldl_fst ?_ (fun _ _ _ => ?_)
    | split
    | dsimp only

theorem execPcieRecovery_keep {r s : State} (h : Keep r s) (a0 : PciePort) : KeepN r (execPcieRecovery a0 s) := by
  unfold execPcieRecovery
  try dsimp only
  repeat' first
    | with_reducible assumption
    | with_reducible exact Keep.refl _
    | with_reducible refine KeepN.next ?_
    | with_reducible apply State.bump_keep
    | split
    | dsimp only

theorem State.setRpUp_keep {r s : State} (h : Keep r s) (p : Nat) (up : Bool) : Keep r (State.setRpUp s p up) := by
  unfold State.setRpUp
  try dsimp only
  repeat' first
    | with_reducible assumption
    | with_reducible exact Keep.refl _
    | with_reducible apply State.wr_keep
    | split
    | dsimp only

theorem execRootPortDown_keep {r s : State} (h : Keep r s) (port : Fin 8) : KeepN r (execRootPortDown port s) := by
  unfold execRootPortDown
  try dsimp only
  repeat' first
    | with_reducible assumption
    | with_reducible exact Keep.refl _
    | with_reducible refine KeepN.next ?_
    | with_reducible apply State.event_keep
    | with_reducible apply State.setRpUp_keep
    | split
    | dsimp only

theorem State.pcieFields_keep {r s : State} (h : Keep r s) (v : Word) : Keep r (State.pcieFields s v) := by
  unfold State.pcieFields
  try dsimp only
  repeat' first
    | with_reducible assumption
    | with_reducible exact Keep.refl _
    | with_reducible refine Keep.ite (fun _ => ?_) (fun _ => ?_)
    | with_reducible apply State.wr_keep
    | split
    | dsimp only

theorem State.pcieCfgWrite_keep {r s : State} (h : Keep r s) (v : Word) : Keep r (State.pcieCfgWrite s v) := by
  unfold State.pcieCfgWrite
  try dsimp only
  repeat' first
    | with_reducible assumption
    | with_reducible exact Keep.refl _
    | with_reducible refine Keep.ite (fun _ => ?_) (fun _ => ?_)
    | with_reducible apply State.wr_keep
    | with_reducible apply State.pcieFields_keep
    | split
    | dsimp only

theorem execHifPcieLock_keep {r s : State} (h : Keep r s) (cfg : Word) : KeepN r (execHifPcieLock cfg s) := by
  unfold execHifPcieLock
  try dsimp only
  repeat' first
    | with_reducible assumption
    | with_reducible exact Keep.refl _
    | with_reducible refine KeepN.next ?_
    | with_reducible apply State.wr_keep
    | with_reducible apply State.pcieCfgWrite_keep
    | split
    | dsimp only

theorem execPcieLinkUp_keep {r s : State} (h : Keep r s) (port : PciePort) : KeepN r (execPcieLinkUp port s) := by
  unfold execPcieLinkUp
  try dsimp only
  repeat' first
    | with_reducible assumption
    | with_reducible exact Keep.refl _
    | with_reducible refine Keep.ite (fun _ => ?_) (fun _ => ?_)
    | with_reducible refine KeepN.next ?_
    | with_reducible refine KeepN.ite (fun _ => ?_) (fun _ => ?_)
    | with_reducible apply State.wr_keep
    | with_reducible apply State.setRpUp_keep
    | split
    | dsimp only

theorem execBarAssign_keep {r s : State} (h : Keep r s) (base : Byte) : KeepN r (execBarAssign base s) := by
  unfold execBarAssign
  try dsimp only
  repeat' first
    | with_reducible assumption
    | with_reducible exact Keep.refl _
    | with_reducible refine KeepN.next ?_
    | with_reducible apply State.wr_keep
    | split
    | dsimp only

end Sys2Proof.Machine
end

