-- ==== Sys2Proof/Laws/KeepCoherence.lean ====
section
/-!
SUPPORT. The operations of Machine/Coherence.lean keep the queue, the canonical forms and the freshness of free values.
-/

namespace Sys2Proof.Machine

open Sys2Proof

theorem State.cPush_keep {r s : State} (h : Keep r s) (m : CMsg) : Keep r (State.cPush s m) := by
  unfold State.cPush
  try dsimp only
  repeat' first
    | with_reducible assumption
    | with_reducible exact Keep.refl _
    | simp only [keep_mk]
    | split
    | dsimp only

theorem State.spend_keep {r s : State} (h : Keep r s) (l : Nat) (cls : Nat) (n : Nat) : Keep r (State.spend s l cls n) := by
  unfold State.spend
  try dsimp only
  repeat' first
    | with_reducible assumption
    | with_reducible exact Keep.refl _
    | simp only [keep_mk]
    | split
    | dsimp only

theorem State.crossOne_keep {r s : State} (h : Keep r s) (m : CMsg) (x : Nat × Nat) : KeepO r (State.crossOne s m x) := by
  unfold State.crossOne
  try dsimp only
  repeat' first
    | with_reducible assumption
    | with_reducible exact Keep.refl _
    | with_reducible refine Keep.ite (fun _ => ?_) (fun _ => ?_)
    | with_reducible exact KeepO.none
    | with_reducible refine KeepO.some ?_
    | with_reducible refine KeepO.ite (fun _ => ?_) (fun _ => ?_)
    | with_reducible apply State.spend_keep
    | split
    | dsimp only

theorem State.crossed_keep {r s : State} (h : Keep r s) (m : CMsg) : KeepO r (State.crossed s m) := by
  unfold State.crossed
  have key : ∀ (l : List (Nat × Nat)) (o : Option State), KeepO r o →
      KeepO r (l.foldl (fun (o : Option State) x => o.bind (fun t => t.crossOne m x)) o) := by
    intro l
    induction l with
    | nil => exact fun o ho => ho
    | cons x l ih =>
      intro o ho
      refine ih _ ?_
      cases o with
      | none => exact KeepO.none
      | some t => exact State.crossOne_keep (ho t rfl) m x
  exact key _ _ (KeepO.some h)

theorem State.cTake_keep {r s : State} (h : Keep r s) (ops : List CMsgOp) (ag : Option Nat) (line : Nat) : KeepS r (State.cTake s ops ag line) := by
  unfold State.cTake
  dsimp only
  split
  · exact KeepS.none
  · refine KeepS.ite (fun _ => KeepS.none) (fun _ => ?_)
    intro x t e
    obtain ⟨u, hu, e2⟩ := Option.map_eq_some_iff.mp e
    cases e2
    rw [keep_mk]
    exact State.crossed_keep h _ u hu

theorem State.cData_keep {r s : State} (h : Keep r s) (m : CMsg) : Keep r (State.cData s m) := by
  unfold State.cData
  try dsimp only
  repeat' first
    | with_reducible assumption
    | with_reducible exact Keep.refl _
    | with_reducible refine Keep.ite (fun _ => ?_) (fun _ => ?_)
    | with_reducible apply State.cPush_keep
    | with_reducible apply State.bump_keep
    | simp only [keep_mk]
    | split
    | dsimp only

theorem State.txOpen_keep {r s : State} (h : Keep r s) (ag : Nat) (line : Nat) (txid : Nat) (cmo : Bool) : Keep r (State.txOpen s ag line txid cmo) := by
  unfold State.txOpen
  try dsimp only
  repeat' first
    | with_reducible assumption
    | with_reducible exact Keep.refl _
    | simp only [keep_mk]
    | split
    | dsimp only

theorem State.txDone_keep {r s : State} (h : Keep r s) (ag : Nat) (txid : Nat) : Keep r (State.txDone s ag txid) := by
  unfold State.txDone
  try dsimp only
  repeat' first
    | with_reducible assumption
    | with_reducible exact Keep.refl _
    | simp only [keep_mk]
    | split
    | dsimp only

theorem State.cSnoop_keep {r s : State} (h : Keep r s) (op : CMsgOp) (ag : Nat) (line : Nat) (rq : Nat) (txid : Nat) : Keep r (State.cSnoop s op ag line rq txid) := by
  unfold State.cSnoop
  try dsimp only
  repeat' first
    | with_reducible assumption
    | with_reducible exact Keep.refl _
    | with_reducible refine Keep.ite (fun _ => ?_) (fun _ => ?_)
    | with_reducible apply State.cPush_keep
    | with_reducible apply State.bump_keep
    | simp only [keep_mk]
    | split
    | dsimp only

theorem State.lineRead_keep {r s : State} (h : Keep r s) (line : Nat) (hx : HbmFinding) : Keep r (State.lineRead s line hx).1 := by
  unfold State.lineRead
  try dsimp only
  repeat' first
    | with_reducible assumption
    | with_reducible exact Keep.refl _
    | with_reducible refine Keep.ite (fun _ => ?_) (fun _ => ?_)
    | with_reducible refine Keep.fst_ite (fun _ => ?_) (fun _ => ?_)
    | with_reducible apply State.lineFetch_keep
    | with_reducible refine Keep.fst_eq (by assumption) ?_
    | split
    | dsimp only

theorem State.memPast_keep {r s : State} (h : Keep r s) (line : Nat) (data : Line) (poison : Bool) : Keep r (State.memPast s line data poison) := by
  unfold State.memPast
  try dsimp only
  repeat' first
    | with_reducible assumption
    | with_reducible exact Keep.refl _
    | with_reducible apply State.delLine_keep
    | with_reducible apply State.memLine_keep
    | split
    | dsimp only

theorem State.l3Fill_keep {r s : State} (h : Keep r s) (line : Nat) (dirty : Bool) (data : Line) (poison : Bool) (stream : Bool) : Keep r (State.l3Fill s line dirty data poison stream) := by
  unfold State.l3Fill
  try dsimp only
  repeat' first
    | with_reducible assumption
    | with_reducible exact Keep.refl _
    | with_reducible refine Keep.ite (fun _ => ?_) (fun _ => ?_)
    | with_reducible apply State.cHit_keep
    | with_reducible apply State.setLine_keep
    | with_reducible apply State.cWay_keep
    | with_reducible apply State.memLine_keep
    | with_reducible apply State.delLine_keep
    | with_reducible apply State.cEnter_keep
    | simp only [keep_mk]
    | with_reducible refine KeepF.of_eq (by assumption) ?_
    | split
    | dsimp only

theorem State.setTxn_keep {r s : State} (h : Keep r s) (line : Nat) (t : HTxn) : Keep r (State.setTxn s line t) := by
  unfold State.setTxn
  try dsimp only
  repeat' first
    | with_reducible assumption
    | with_reducible exact Keep.refl _
    | simp only [keep_mk]
    | split
    | dsimp only

theorem State.setQueue_keep {r s : State} (h : Keep r s) (line : Nat) (q : List CReq) : Keep r (State.setQueue s line q) := by
  unfold State.setQueue
  try dsimp only
  repeat' first
    | with_reducible assumption
    | with_reducible exact Keep.refl _
    | simp only [keep_mk]
    | split
    | dsimp only

theorem State.keepDir_keep {r s : State} (h : Keep r s) (line : Nat) (e : DirEnt) : Keep r (State.keepDir s line e) := by
  unfold State.keepDir
  try dsimp only
  repeat' first
    | with_reducible assumption
    | with_reducible exact Keep.refl _
    | simp only [keep_mk]
    | split
    | dsimp only

theorem State.putDir_keep {r s : State} (h : Keep r s) (line : Nat) (e : DirEnt) : Keep r (State.putDir s line e) := by
  unfold State.putDir
  try dsimp only
  repeat' first
    | with_reducible assumption
    | with_reducible exact Keep.refl _
    | with_reducible refine Keep.ite (fun _ => ?_) (fun _ => ?_)
    | simp only [keep_mk]
    | split
    | dsimp only

theorem State.standinPoison_keep {r s : State} (h : Keep r s) (line : Nat) : Keep r (State.standinPoison s line) := by
  unfold State.standinPoison
  try dsimp only
  repeat' first
    | with_reducible assumption
    | with_reducible exact Keep.refl _
    | with_reducible apply State.bump_keep
    | with_reducible apply State.setPois_keep
    | with_reducible apply State.delLine_keep
    | split
    | dsimp only

theorem State.dirGone_keep {r s : State} (h : Keep r s) (ag : Nat) (line : Nat) : Keep r (State.dirGone s ag line) := by
  unfold State.dirGone
  try dsimp only
  repeat' first
    | with_reducible assumption
    | with_reducible exact Keep.refl _
    | with_reducible refine Keep.ite (fun _ => ?_) (fun _ => ?_)
    | with_reducible apply State.standinPoison_keep
    | with_reducible apply State.putDir_keep
    | simp only [keep_mk]
    | split
    | dsimp only

theorem State.cSupply_keep {r s : State} (h : Keep r s) (line : Nat) (rq : Nat) (txid : Nat) (want : CMsgOp) : Keep r (State.cSupply s line rq txid want) := by
  unfold State.cSupply
  try dsimp only
  repeat' first
    | with_reducible assumption
    | with_reducible exact Keep.refl _
    | with_reducible apply State.cData_keep
    | with_reducible apply State.cHit_keep
    | with_reducible apply State.cPush_keep
    | simp only [keep_mk]
    | split
    | dsimp only

theorem State.homeWb_keep {r s : State} (h : Keep r s) (line : Nat) (q : CReq) : Keep r (State.homeWb s line q) := by
  unfold State.homeWb
  try dsimp only
  repeat' first
    | with_reducible assumption
    | with_reducible exact Keep.refl _
    | with_reducible refine Keep.ite (fun _ => ?_) (fun _ => ?_)
    | with_reducible apply State.l3Fill_keep
    | with_reducible apply State.cPush_keep
    | with_reducible apply State.delLine_keep
    | with_reducible apply State.bump_keep
    | simp only [keep_mk]
    | split
    | dsimp only

theorem State.homeOpen_keep {r s : State} (h : Keep r s) (line : Nat) (q : CReq) : Keep r (State.homeOpen s line q) := by
  unfold State.homeOpen
  try dsimp only
  repeat' first
    | with_reducible assumption
    | with_reducible exact Keep.refl _
    | with_reducible refine Keep.ite (fun _ => ?_) (fun _ => ?_)
    | with_reducible apply State.cSnoop_keep
    | with_reducible apply State.setTxn_keep
    | with_reducible apply State.cSupply_keep
    | with_reducible apply State.homeWb_keep
    | with_reducible apply State.keepDir_keep
    | simp only [keep_mk]
    | with_reducible refine Keep.foldl ?_ (fun _ _ _ => ?_)
    | with_reducible refine Keep.foldl_fst ?_ (fun _ _ _ => ?_)
    | split
    | dsimp only

theorem State.dirEnter_keep {r s : State} (h : Keep r s) (line : Nat) (e : DirEnt) : Keep r (State.dirEnter s line e) := by
  unfold State.dirEnter
  try dsimp only
  repeat' first
    | with_reducible assumption
    | with_reducible exact Keep.refl _
    | with_reducible apply State.keepDir_keep
    | with_reducible apply State.bump_keep
    | with_reducible apply State.homeOpen_keep
    | simp only [keep_mk]
    | with_reducible refine Keep.foldl ?_ (fun _ _ _ => ?_)
    | with_reducible refine Keep.foldl_fst ?_ (fun _ _ _ => ?_)
    | split
    | dsimp only

theorem State.homeStart_keep {r s : State} (h : Keep r s) (line : Nat) (q : CReq) : Keep r (State.homeStart s line q) := by
  unfold State.homeStart
  try dsimp only
  repeat' first
    | with_reducible assumption
    | with_reducible exact Keep.refl _
    | with_reducible refine Keep.ite (fun _ => ?_) (fun _ => ?_)
    | with_reducible apply State.homeOpen_keep
    | with_reducible apply State.dirEnter_keep
    | split
    | dsimp only

theorem State.homeEnd_keep {r s : State} (h : Keep r s) (line : Nat) (t : HTxn) : Keep r (State.homeEnd s line t) := by
  unfold State.homeEnd
  try dsimp only
  repeat' first
    | with_reducible assumption
    | with_reducible exact Keep.refl _
    | with_reducible refine Keep.ite (fun _ => ?_) (fun _ => ?_)
    | with_reducible apply State.standinPoison_keep
    | with_reducible apply State.cPush_keep
    | with_reducible apply State.putDir_keep
    | with_reducible apply State.dirGone_keep
    | simp only [keep_mk]
    | with_reducible refine Keep.foldl ?_ (fun _ _ _ => ?_)
    | with_reducible refine Keep.foldl_fst ?_ (fun _ _ _ => ?_)
    | split
    | dsimp only

theorem State.homeMove_keep {r s : State} (h : Keep r s) (line : Nat) : KeepO r (State.homeMove s line) := by
  unfold State.homeMove
  try dsimp only
  repeat' first
    | with_reducible assumption
    | with_reducible exact Keep.refl _
    | with_reducible refine Keep.ite (fun _ => ?_) (fun _ => ?_)
    | with_reducible exact KeepO.none
    | with_reducible refine KeepO.some ?_
    | with_reducible refine KeepO.ite (fun _ => ?_) (fun _ => ?_)
    | with_reducible apply State.cPush_keep
    | with_reducible apply State.setLine_keep
    | with_reducible apply State.setTxn_keep
    | with_reducible apply State.homeEnd_keep
    | with_reducible apply State.delLine_keep
    | with_reducible apply State.homeStart_keep
    | with_reducible apply State.setQueue_keep
    | simp only [keep_mk]
    | split
    | dsimp only

theorem State.homeRun_keep {r s : State} (h : Keep r s) (line : Nat) (a2 : Nat) : Keep r (State.homeRun s line a2) := by
  induction a2 generalizing s line with
  | zero => exact h
  | succ k ih =>
    unfold State.homeRun
    try dsimp only
    repeat' first
      | with_reducible assumption
      | with_reducible exact Keep.refl _
      | with_reducible apply State.homeMove_keep
      | with_reducible apply ih
      | simp only [keep_mk]
      | with_reducible refine KeepO.of_eq (by assumption) ?_
      | split
      | dsimp only

theorem State.homeLine_keep {r s : State} (h : Keep r s) (line : Nat) : Keep r (State.homeLine s line) := by
  unfold State.homeLine
  try dsimp only
  repeat' first
    | with_reducible assumption
    | with_reducible exact Keep.refl _
    | with_reducible apply State.homeRun_keep
    | split
    | dsimp only

theorem State.homePump_keep {r s : State} (h : Keep r s) (line : Nat) : Keep r (State.homePump s line) := by
  unfold State.homePump
  try dsimp only
  repeat' first
    | with_reducible assumption
    | with_reducible exact Keep.refl _
    | with_reducible apply State.homeLine_keep
    | with_reducible refine Keep.foldl ?_ (fun _ _ _ => ?_)
    | with_reducible refine Keep.foldl_fst ?_ (fun _ _ _ => ?_)
    | split
    | dsimp only

theorem State.recallStart_keep {r s : State} (h : Keep r s) (rx : Nat) : Keep r (State.recallStart s rx) := by
  unfold State.recallStart
  try dsimp only
  repeat' first
    | with_reducible assumption
    | with_reducible exact Keep.refl _
    | with_reducible refine Keep.ite (fun _ => ?_) (fun _ => ?_)
    | with_reducible apply State.cPush_keep
    | simp only [keep_mk]
    | split
    | dsimp only

theorem State.recallNext_keep {r s : State} (h : Keep r s) (d : Nat) : Keep r (State.recallNext s d) := by
  unfold State.recallNext
  try dsimp only
  repeat' first
    | with_reducible assumption
    | with_reducible exact Keep.refl _
    | with_reducible refine Keep.ite (fun _ => ?_) (fun _ => ?_)
    | with_reducible apply State.recallStart_keep
    | simp only [keep_mk]
    | split
    | dsimp only

theorem State.homeAccept_keep {r s : State} (h : Keep r s) (line : Nat) (q : CReq) : Keep r (State.homeAccept s line q) := by
  unfold State.homeAccept
  try dsimp only
  repeat' first
    | with_reducible assumption
    | with_reducible exact Keep.refl _
    | with_reducible refine Keep.ite (fun _ => ?_) (fun _ => ?_)
    | with_reducible apply State.recallStart_keep
    | with_reducible apply State.homePump_keep
    | with_reducible apply State.setQueue_keep
    | simp only [keep_mk]
    | split
    | dsimp only

theorem State.regionFree_keep {r s : State} (h : Keep r s) (rx : Nat) : Keep r (State.regionFree s rx) := by
  unfold State.regionFree
  try dsimp only
  repeat' first
    | with_reducible assumption
    | with_reducible exact Keep.refl _
    | with_reducible apply State.homeAccept_keep
    | simp only [keep_mk]
    | with_reducible refine Keep.foldl ?_ (fun _ _ _ => ?_)
    | with_reducible refine Keep.foldl_fst ?_ (fun _ _ _ => ?_)
    | split
    | dsimp only

theorem State.cReq_keep {r s : State} (h : Keep r s) (op : CohOp) (ag : Nat) (line : Nat) (stream : optParam Bool false) (data : optParam Line 0) (poison : optParam Bool false) : Keep r (State.cReq s op ag line stream data poison) := by
  unfold State.cReq
  try dsimp only
  repeat' first
    | with_reducible assumption
    | with_reducible exact Keep.refl _
    | with_reducible apply State.homeAccept_keep
    | with_reducible apply State.txOpen_keep
    | split
    | dsimp only

theorem State.l1Evict_keep {r s : State} (h : Keep r s) (ag : Nat) (line : Nat) : Keep r (State.l1Evict s ag line) := by
  unfold State.l1Evict
  try dsimp only
  repeat' first
    | with_reducible assumption
    | with_reducible exact Keep.refl _
    | with_reducible refine Keep.ite (fun _ => ?_) (fun _ => ?_)
    | with_reducible apply State.setCore_keep
    | simp only [keep_mk]
    | split
    | dsimp only

theorem State.cEvict_keep {r s : State} (h : Keep r s) (ag : Nat) (line : Nat) : Keep r (State.cEvict s ag line) := by
  unfold State.cEvict
  try dsimp only
  repeat' first
    | with_reducible assumption
    | with_reducible exact Keep.refl _
    | with_reducible refine Keep.ite (fun _ => ?_) (fun _ => ?_)
    | with_reducible apply State.delLine_keep
    | with_reducible apply State.memPast_keep
    | with_reducible apply State.l1Evict_keep
    | with_reducible apply State.cReq_keep
    | with_reducible apply State.setLine_keep
    | simp only [keep_mk]
    | split
    | dsimp only

theorem State.cPlace_keep {r s : State} (h : Keep r s) (ag : Nat) (line : Nat) (stream : Bool) (c : CLine) : KeepO r (State.cPlace s ag line stream c) := by
  unfold State.cPlace
  try dsimp only
  repeat' first
    | with_reducible assumption
    | with_reducible exact Keep.refl _
    | with_reducible refine Keep.ite (fun _ => ?_) (fun _ => ?_)
    | with_reducible exact KeepO.none
    | with_reducible refine KeepO.some ?_
    | with_reducible refine KeepO.ite (fun _ => ?_) (fun _ => ?_)
    | with_reducible apply State.cWay_keep
    | with_reducible apply State.cEnter_keep
    | with_reducible apply State.cEvict_keep
    | simp only [keep_mk]
    | with_reducible refine KeepF.of_eq (by assumption) ?_
    | split
    | dsimp only

theorem State.cRest_keep {r s : State} (h : Keep r s) (ag : Nat) (line : Nat) : Keep r (State.cRest s ag line) := by
  unfold State.cRest
  try dsimp only
  repeat' first
    | with_reducible assumption
    | with_reducible exact Keep.refl _
    | with_reducible refine Keep.ite (fun _ => ?_) (fun _ => ?_)
    | with_reducible apply State.cEvict_keep
    | simp only [keep_mk]
    | split
    | dsimp only

theorem State.cAnswer_keep {r s : State} (h : Keep r s) (data : Line) (poison : Bool) : Keep r (State.cAnswer s data poison) := by
  unfold State.cAnswer
  try dsimp only
  repeat' first
    | with_reducible assumption
    | with_reducible exact Keep.refl _
    | simp only [keep_mk]
    | split
    | dsimp only

theorem State.cSend_keep {r s : State} (h : Keep r s) (ag : Nat) (line : Nat) (acc : LineAccess) : Keep r (State.cSend s ag line acc) := by
  unfold State.cSend
  try dsimp only
  repeat' first
    | with_reducible assumption
    | with_reducible exact Keep.refl _
    | with_reducible refine Keep.ite (fun _ => ?_) (fun _ => ?_)
    | with_reducible apply State.cReq_keep
    | with_reducible apply State.setLine_keep
    | with_reducible apply State.cPlace_keep
    | simp only [keep_mk]
    | with_reducible refine KeepO.of_eq (by assumption) ?_
    | split
    | dsimp only

theorem State.leaseServe_keep {r s : State} (h : Keep r s) (ag : Nat) (line : Nat) (acc : LineAccess) : Keep r (State.leaseServe s ag line acc) := by
  unfold State.leaseServe
  try dsimp only
  repeat' first
    | with_reducible assumption
    | with_reducible exact Keep.refl _
    | with_reducible apply State.lineRead_keep
    | with_reducible apply State.cAnswer_keep
    | with_reducible apply State.cPlace_keep
    | simp only [keep_mk]
    | with_reducible refine Keep.fst_eq (by assumption) ?_
    | with_reducible refine KeepO.of_eq (by assumption) ?_
    | with_reducible refine KeepO.getD ?_ ?_
    | split
    | dsimp only

theorem State.cOwn_keep {r s : State} (h : Keep r s) (ag : Nat) (line : Nat) (c : CLine) (acc : LineAccess) : Keep r (State.cOwn s ag line c acc) := by
  unfold State.cOwn
  try dsimp only
  repeat' first
    | with_reducible assumption
    | with_reducible exact Keep.refl _
    | with_reducible refine Keep.ite (fun _ => ?_) (fun _ => ?_)
    | with_reducible apply State.cAnswer_keep
    | with_reducible apply State.cHit_keep
    | with_reducible apply State.setLine_keep
    | with_reducible apply State.cReq_keep
    | simp only [keep_mk]
    | split
    | dsimp only

theorem State.islandPut_keep {r s : State} (h : Keep r s) (d : Nat) (line : Nat) (m : Nat) (x : Line) : Keep r (State.islandPut s d line m x) := by
  unfold State.islandPut
  try dsimp only
  repeat' first
    | with_reducible assumption
    | with_reducible exact Keep.refl _
    | with_reducible apply State.memLine_keep
    | simp only [keep_mk]
    | split
    | dsimp only

theorem State.islandServe_keep {r s : State} (h : Keep r s) (d : Nat) (line : Nat) (acc : LineAccess) : Keep r (State.islandServe s d line acc) := by
  unfold State.islandServe
  try dsimp only
  repeat' first
    | with_reducible assumption
    | with_reducible exact Keep.refl _
    | with_reducible refine Keep.ite (fun _ => ?_) (fun _ => ?_)
    | with_reducible apply State.cAnswer_keep
    | with_reducible apply State.islandPut_keep
    | simp only [keep_mk]
    | split
    | dsimp only

theorem State.cAccess_keep {r s : State} (h : Keep r s) (ag : Nat) (line : Nat) (acc : LineAccess) : Keep r (State.cAccess s ag line acc) := by
  unfold State.cAccess
  try dsimp only
  repeat' first
    | with_reducible assumption
    | with_reducible exact Keep.refl _
    | with_reducible refine Keep.ite (fun _ => ?_) (fun _ => ?_)
    | with_reducible apply State.islandServe_keep
    | with_reducible apply State.cOwn_keep
    | with_reducible apply State.leaseServe_keep
    | with_reducible apply State.bump_keep
    | with_reducible apply State.cPush_keep
    | with_reducible apply State.cSend_keep
    | simp only [keep_mk]
    | split
    | dsimp only

theorem State.dirLeave_keep {r s : State} (h : Keep r s) (ag : Nat) (line : Nat) : Keep r (State.dirLeave s ag line) := by
  unfold State.dirLeave
  try dsimp only
  repeat' first
    | with_reducible assumption
    | with_reducible exact Keep.refl _
    | with_reducible refine Keep.ite (fun _ => ?_) (fun _ => ?_)
    | with_reducible apply State.putDir_keep
    | simp only [keep_mk]
    | split
    | dsimp only

theorem State.dirShare_keep {r s : State} (h : Keep r s) (ag : Nat) (line : Nat) : Keep r (State.dirShare s ag line) := by
  unfold State.dirShare
  try dsimp only
  repeat' first
    | with_reducible assumption
    | with_reducible exact Keep.refl _
    | with_reducible refine Keep.ite (fun _ => ?_) (fun _ => ?_)
    | with_reducible apply State.putDir_keep
    | simp only [keep_mk]
    | split
    | dsimp only

theorem State.cClean_keep {r s : State} (h : Keep r s) (ag : Nat) (line : Nat) (keep : Bool) : Keep r (State.cClean s ag line keep) := by
  unfold State.cClean
  try dsimp only
  repeat' first
    | with_reducible assumption
    | with_reducible exact Keep.refl _
    | with_reducible refine Keep.ite (fun _ => ?_) (fun _ => ?_)
    | with_reducible apply State.memLine_keep
    | with_reducible apply State.memPast_keep
    | with_reducible apply State.dirShare_keep
    | with_reducible apply State.setLine_keep
    | with_reducible apply State.delLine_keep
    | with_reducible apply State.dirLeave_keep
    | simp only [keep_mk]
    | split
    | dsimp only

theorem State.scTrim_keep {r s : State} (h : Keep r s) (d : Nat) : Keep r (State.scTrim s d) := by
  unfold State.scTrim
  try dsimp only
  repeat' first
    | with_reducible assumption
    | with_reducible exact Keep.refl _
    | with_reducible apply State.refreshWays_keep
    | with_reducible apply State.cClean_keep
    | with_reducible refine Keep.foldl ?_ (fun _ _ _ => ?_)
    | with_reducible refine Keep.foldl_fst ?_ (fun _ _ _ => ?_)
    | split
    | dsimp only

theorem State.wayOff_keep {r s : State} (h : Keep r s) (d : Nat) (w : Nat) : Keep r (State.wayOff s d w).1 := by
  unfold State.wayOff
  try dsimp only
  repeat' first
    | with_reducible assumption
    | with_reducible exact Keep.refl _
    | with_reducible refine Keep.ite (fun _ => ?_) (fun _ => ?_)
    | with_reducible refine Keep.fst_ite (fun _ => ?_) (fun _ => ?_)
    | with_reducible apply State.event_keep
    | with_reducible apply State.scTrim_keep
    | with_reducible apply State.wr_keep
    | split
    | dsimp only

theorem State.wayErr_keep {r s : State} (h : Keep r s) (d : Nat) (w : Nat) (line : Nat) : Keep r (State.wayErr s d w line) := by
  unfold State.wayErr
  try dsimp only
  repeat' first
    | with_reducible assumption
    | with_reducible exact Keep.refl _
    | with_reducible refine Keep.ite (fun _ => ?_) (fun _ => ?_)
    | with_reducible apply State.event_keep
    | with_reducible apply State.wayOff_keep
    | simp only [keep_mk]
    | with_reducible refine Keep.fst_eq (by assumption) ?_
    | split
    | dsimp only

theorem State.cacheFind_keep {r s : State} (h : Keep r s) (ag : Nat) (line : Nat) (f : CacheFinding) : Keep r (State.cacheFind s ag line f) := by
  unfold State.cacheFind
  try dsimp only
  repeat' first
    | with_reducible assumption
    | with_reducible exact Keep.refl _
    | with_reducible refine Keep.ite (fun _ => ?_) (fun _ => ?_)
    | with_reducible apply State.setLine_keep
    | with_reducible apply State.delLine_keep
    | with_reducible apply State.memLine_keep
    | with_reducible apply State.cEvict_keep
    | with_reducible apply State.bump_keep
    | with_reducible apply State.event_keep
    | with_reducible apply State.wayErr_keep
    | with_reducible apply State.wayOff_keep
    | with_reducible apply State.setCore_keep
    | with_reducible apply State.coreOfflining_keep
    | simp only [keep_mk]
    | with_reducible refine Keep.fst_eq (by assumption) ?_
    | split
    | dsimp only

theorem State.onLine_keep {r s : State} (h : Keep r s) (a : Word) (f : Nat → State)
    (hf : ∀ l, Keep r (f l)) : KeepN r (State.onLine s a f) := by
  unfold State.onLine
  refine KeepN.next ?_
  split
  · exact hf _
  · exact h

theorem execRdShared_keep {r s : State} (h : Keep r s) (a : CohAgent) (addr : Word) (stream : Bool) (f : CacheFinding) : KeepN r (execRdShared a addr stream f s) := by
  unfold execRdShared
  try dsimp only
  repeat' first
    | with_reducible assumption
    | with_reducible exact Keep.refl _
    | with_reducible refine Keep.ite (fun _ => ?_) (fun _ => ?_)
    | with_reducible refine KeepN.next ?_
    | with_reducible refine KeepN.ite (fun _ => ?_) (fun _ => ?_)
    | with_reducible apply State.onLine_keep
    | with_reducible apply State.cAccess_keep
    | with_reducible apply State.cacheFind_keep
    | with_reducible intro _ _ _
    | with_reducible intro _ _
    | with_reducible intro _
    | split
    | dsimp only

theorem execRdOnce_keep {r s : State} (h : Keep r s) (a : CohAgent) (addr : Word) : KeepN r (execRdOnce a addr s) := by
  unfold execRdOnce
  try dsimp only
  repeat' first
    | with_reducible assumption
    | with_reducible exact Keep.refl _
    | with_reducible refine KeepN.next ?_
    | with_reducible apply State.onLine_keep
    | with_reducible apply State.cAccess_keep
    | with_reducible intro _ _ _
    | with_reducible intro _ _
    | with_reducible intro _
    | split
    | dsimp only

theorem execRdUnique_keep {r s : State} (h : Keep r s) (a : CohAgent) (addr : Word) (mask : Word) (data : Line) : KeepN r (execRdUnique a addr mask data s) := by
  unfold execRdUnique
  try dsimp only
  repeat' first
    | with_reducible assumption
    | with_reducible exact Keep.refl _
    | with_reducible refine Keep.ite (fun _ => ?_) (fun _ => ?_)
    | with_reducible refine KeepN.next ?_
    | with_reducible refine KeepN.ite (fun _ => ?_) (fun _ => ?_)
    | with_reducible apply State.onLine_keep
    | with_reducible apply State.cAccess_keep
    | with_reducible intro _ _ _
    | with_reducible intro _ _
    | with_reducible intro _
    | split
    | dsimp only

theorem execUpgrade_keep {r s : State} (h : Keep r s) (a : CohAgent) (addr : Word) (mask : Word) (data : Line) : KeepN r (execUpgrade a addr mask data s) := by
  unfold execUpgrade
  try dsimp only
  repeat' first
    | with_reducible assumption
    | with_reducible exact Keep.refl _
    | with_reducible refine Keep.ite (fun _ => ?_) (fun _ => ?_)
    | with_reducible refine KeepN.next ?_
    | with_reducible refine KeepN.ite (fun _ => ?_) (fun _ => ?_)
    | with_reducible apply State.onLine_keep
    | with_reducible apply State.cAccess_keep
    | with_reducible intro _ _ _
    | with_reducible intro _ _
    | with_reducible intro _
    | split
    | dsimp only

theorem execClaim_keep {r s : State} (h : Keep r s) (a : CohAgent) (addr : Word) (data : Line) : KeepN r (execClaim a addr data s) := by
  unfold execClaim
  try dsimp only
  repeat' first
    | with_reducible assumption
    | with_reducible exact Keep.refl _
    | with_reducible refine Keep.ite (fun _ => ?_) (fun _ => ?_)
    | with_reducible refine KeepN.next ?_
    | with_reducible refine KeepN.ite (fun _ => ?_) (fun _ => ?_)
    | with_reducible apply State.onLine_keep
    | with_reducible apply State.cAccess_keep
    | with_reducible intro _ _ _
    | with_reducible intro _ _
    | with_reducible intro _
    | split
    | dsimp only

theorem execWbDirty_keep {r s : State} (h : Keep r s) (a : CohAgent) (addr : Word) : KeepN r (execWbDirty a addr s) := by
  unfold execWbDirty
  try dsimp only
  repeat' first
    | with_reducible assumption
    | with_reducible exact Keep.refl _
    | with_reducible refine Keep.ite (fun _ => ?_) (fun _ => ?_)
    | with_reducible refine KeepN.next ?_
    | with_reducible refine KeepN.ite (fun _ => ?_) (fun _ => ?_)
    | with_reducible apply State.onLine_keep
    | with_reducible apply State.cEvict_keep
    | with_reducible intro _ _ _
    | with_reducible intro _ _
    | with_reducible intro _
    | split
    | dsimp only

theorem execEvictClean_keep {r s : State} (h : Keep r s) (a : CohAgent) (addr : Word) : KeepN r (execEvictClean a addr s) := by
  unfold execEvictClean
  try dsimp only
  repeat' first
    | with_reducible assumption
    | with_reducible exact Keep.refl _
    | with_reducible refine Keep.ite (fun _ => ?_) (fun _ => ?_)
    | with_reducible refine KeepN.next ?_
    | with_reducible refine KeepN.ite (fun _ => ?_) (fun _ => ?_)
    | with_reducible apply State.onLine_keep
    | with_reducible apply State.cEvict_keep
    | with_reducible intro _ _ _
    | with_reducible intro _ _
    | with_reducible intro _
    | split
    | dsimp only

theorem State.cmo_keep {r s : State} (h : Keep r s) (ag : Nat) (line : Nat) (op : CohOp) : Keep r (State.cmo s ag line op) := by
  unfold State.cmo
  try dsimp only
  repeat' first
    | with_reducible assumption
    | with_reducible exact Keep.refl _
    | with_reducible refine Keep.ite (fun _ => ?_) (fun _ => ?_)
    | with_reducible apply State.cReq_keep
    | simp only [keep_mk]
    | split
    | dsimp only

theorem execCmoClean_keep {r s : State} (h : Keep r s) (a : CohAgent) (addr : Word) : KeepN r (execCmoClean a addr s) := by
  unfold execCmoClean
  try dsimp only
  repeat' first
    | with_reducible assumption
    | with_reducible exact Keep.refl _
    | with_reducible refine KeepN.next ?_
    | with_reducible apply State.onLine_keep
    | with_reducible apply State.cmo_keep
    | with_reducible intro _ _ _
    | with_reducible intro _ _
    | with_reducible intro _
    | split
    | dsimp only

theorem execCmoFlush_keep {r s : State} (h : Keep r s) (a : CohAgent) (addr : Word) : KeepN r (execCmoFlush a addr s) := by
  unfold execCmoFlush
  try dsimp only
  repeat' first
    | with_reducible assumption
    | with_reducible exact Keep.refl _
    | with_reducible refine KeepN.next ?_
    | with_reducible apply State.onLine_keep
    | with_reducible apply State.cmo_keep
    | with_reducible intro _ _ _
    | with_reducible intro _ _
    | with_reducible intro _
    | split
    | dsimp only

theorem State.snooped_keep {r s : State} (h : Keep r s) (m : CMsg) : Keep r (State.snooped s m) := by
  unfold State.snooped
  try dsimp only
  repeat' first
    | with_reducible assumption
    | with_reducible exact Keep.refl _
    | with_reducible refine Keep.ite (fun _ => ?_) (fun _ => ?_)
    | with_reducible apply State.cPush_keep
    | with_reducible apply State.bump_keep
    | with_reducible apply State.delLine_keep
    | with_reducible apply State.setLine_keep
    | with_reducible apply State.cData_keep
    | simp only [keep_mk]
    | split
    | dsimp only

theorem State.resvLost_keep {r s : State} (h : Keep r s) (a : CohAgent) (line : Nat) : Keep r (State.resvLost s a line) := by
  unfold State.resvLost
  try dsimp only
  repeat' first
    | with_reducible assumption
    | with_reducible exact Keep.refl _
    | with_reducible refine Keep.ite (fun _ => ?_) (fun _ => ?_)
    | with_reducible apply State.setCore_keep
    | simp only [keep_mk]
    | split
    | dsimp only

theorem State.snoop_keep {r s : State} (h : Keep r s) (op : CMsgOp) (a : CohAgent) (line : Nat) (f : CacheFinding) : Keep r (State.snoop s op a line f) := by
  unfold State.snoop
  try dsimp only
  repeat' first
    | with_reducible assumption
    | with_reducible exact Keep.refl _
    | with_reducible refine Keep.ite (fun _ => ?_) (fun _ => ?_)
    | with_reducible apply State.cTake_keep
    | with_reducible apply State.resvLost_keep
    | with_reducible apply State.snooped_keep
    | with_reducible apply State.cacheFind_keep
    | simp only [keep_mk]
    | with_reducible refine KeepS.of_eq (by assumption) ?_
    | split
    | dsimp only

theorem execSnpShared_keep {r s : State} (h : Keep r s) (a : CohAgent) (addr : Word) (f : CacheFinding) : KeepN r (execSnpShared a addr f s) := by
  unfold execSnpShared
  try dsimp only
  repeat' first
    | with_reducible assumption
    | with_reducible exact Keep.refl _
    | with_reducible refine KeepN.next ?_
    | with_reducible apply State.onLine_keep
    | with_reducible apply State.snoop_keep
    | with_reducible intro _ _ _
    | with_reducible intro _ _
    | with_reducible intro _
    | split
    | dsimp only

theorem execSnpUnique_keep {r s : State} (h : Keep r s) (a : CohAgent) (addr : Word) : KeepN r (execSnpUnique a addr s) := by
  unfold execSnpUnique
  try dsimp only
  repeat' first
    | with_reducible assumption
    | with_reducible exact Keep.refl _
    | with_reducible refine KeepN.next ?_
    | with_reducible apply State.onLine_keep
    | with_reducible apply State.snoop_keep
    | with_reducible intro _ _ _
    | with_reducible intro _ _
    | with_reducible intro _
    | split
    | dsimp only

theorem execSnpInv_keep {r s : State} (h : Keep r s) (a : CohAgent) (addr : Word) : KeepN r (execSnpInv a addr s) := by
  unfold execSnpInv
  try dsimp only
  repeat' first
    | with_reducible assumption
    | with_reducible exact Keep.refl _
    | with_reducible refine KeepN.next ?_
    | with_reducible apply State.onLine_keep
    | with_reducible apply State.snoop_keep
    | with_reducible intro _ _ _
    | with_reducible intro _ _
    | with_reducible intro _
    | split
    | dsimp only

theorem execSnpOnce_keep {r s : State} (h : Keep r s) (a : CohAgent) (addr : Word) : KeepN r (execSnpOnce a addr s) := by
  unfold execSnpOnce
  try dsimp only
  repeat' first
    | with_reducible assumption
    | with_reducible exact Keep.refl _
    | with_reducible refine KeepN.next ?_
    | with_reducible apply State.onLine_keep
    | with_reducible apply State.snoop_keep
    | with_reducible intro _ _ _
    | with_reducible intro _ _
    | with_reducible intro _
    | split
    | dsimp only

theorem execSnpClean_keep {r s : State} (h : Keep r s) (a : CohAgent) (addr : Word) : KeepN r (execSnpClean a addr s) := by
  unfold execSnpClean
  try dsimp only
  repeat' first
    | with_reducible assumption
    | with_reducible exact Keep.refl _
    | with_reducible refine KeepN.next ?_
    | with_reducible apply State.onLine_keep
    | with_reducible apply State.snoop_keep
    | with_reducible intro _ _ _
    | with_reducible intro _ _
    | with_reducible intro _
    | split
    | dsimp only

theorem execSnpFlush_keep {r s : State} (h : Keep r s) (a : CohAgent) (addr : Word) (f : CacheFinding) : KeepN r (execSnpFlush a addr f s) := by
  unfold execSnpFlush
  try dsimp only
  repeat' first
    | with_reducible assumption
    | with_reducible exact Keep.refl _
    | with_reducible refine KeepN.next ?_
    | with_reducible apply State.onLine_keep
    | with_reducible apply State.snoop_keep
    | with_reducible intro _ _ _
    | with_reducible intro _ _
    | with_reducible intro _
    | split
    | dsimp only

theorem State.cAck_keep {r s : State} (h : Keep r s) (ag : Nat) (line : Nat) : Keep r (State.cAck s ag line) := by
  unfold State.cAck
  try dsimp only
  repeat' first
    | with_reducible assumption
    | with_reducible exact Keep.refl _
    | with_reducible apply State.cPush_keep
    | with_reducible apply State.txDone_keep
    | simp only [keep_mk]
    | split
    | dsimp only

theorem State.cFail_keep {r s : State} (h : Keep r s) (ag : Nat) (line : Nat) (rx : Rsp) : Keep r (State.cFail s ag line rx) := by
  unfold State.cFail
  try dsimp only
  repeat' first
    | with_reducible assumption
    | with_reducible exact Keep.refl _
    | with_reducible refine Keep.ite (fun _ => ?_) (fun _ => ?_)
    | with_reducible apply State.setLine_keep
    | with_reducible apply State.delLine_keep
    | with_reducible apply State.cRest_keep
    | with_reducible apply State.cAck_keep
    | with_reducible apply State.setTxn_keep
    | simp only [keep_mk]
    | split
    | dsimp only

theorem State.cGet_keep {r s : State} (h : Keep r s) (op : CMsgOp) (ag : Nat) (line : Nat) : Keep r (State.cGet s op ag line) := by
  unfold State.cGet
  try dsimp only
  repeat' first
    | with_reducible assumption
    | with_reducible exact Keep.refl _
    | with_reducible refine Keep.ite (fun _ => ?_) (fun _ => ?_)
    | with_reducible apply State.cTake_keep
    | with_reducible apply State.cFail_keep
    | with_reducible apply State.cRest_keep
    | with_reducible apply State.cAck_keep
    | with_reducible apply State.cAnswer_keep
    | with_reducible apply State.setLine_keep
    | with_reducible apply State.delLine_keep
    | simp only [keep_mk]
    | with_reducible refine KeepS.of_eq (by assumption) ?_
    | split
    | dsimp only

theorem execDataS_keep {r s : State} (h : Keep r s) (a : CohAgent) (addr : Word) : KeepN r (execDataS a addr s) := by
  unfold execDataS
  try dsimp only
  repeat' first
    | with_reducible assumption
    | with_reducible exact Keep.refl _
    | with_reducible refine KeepN.next ?_
    | with_reducible apply State.onLine_keep
    | with_reducible apply State.cGet_keep
    | with_reducible intro _ _ _
    | with_reducible intro _ _
    | with_reducible intro _
    | split
    | dsimp only

theorem execDataE_keep {r s : State} (h : Keep r s) (a : CohAgent) (addr : Word) : KeepN r (execDataE a addr s) := by
  unfold execDataE
  try dsimp only
  repeat' first
    | with_reducible assumption
    | with_reducible exact Keep.refl _
    | with_reducible refine KeepN.next ?_
    | with_reducible apply State.onLine_keep
    | with_reducible apply State.cGet_keep
    | with_reducible intro _ _ _
    | with_reducible intro _ _
    | with_reducible intro _
    | split
    | dsimp only

theorem execDataM_keep {r s : State} (h : Keep r s) (a : CohAgent) (addr : Word) : KeepN r (execDataM a addr s) := by
  unfold execDataM
  try dsimp only
  repeat' first
    | with_reducible assumption
    | with_reducible exact Keep.refl _
    | with_reducible refine KeepN.next ?_
    | with_reducible apply State.onLine_keep
    | with_reducible apply State.cGet_keep
    | with_reducible intro _ _ _
    | with_reducible intro _ _
    | with_reducible intro _
    | split
    | dsimp only

theorem execDataOnce_keep {r s : State} (h : Keep r s) (a : CohAgent) (addr : Word) : KeepN r (execDataOnce a addr s) := by
  unfold execDataOnce
  try dsimp only
  repeat' first
    | with_reducible assumption
    | with_reducible exact Keep.refl _
    | with_reducible refine KeepN.next ?_
    | with_reducible apply State.onLine_keep
    | with_reducible apply State.cGet_keep
    | with_reducible intro _ _ _
    | with_reducible intro _ _
    | with_reducible intro _
    | split
    | dsimp only

theorem State.cComp_keep {r s : State} (h : Keep r s) (ag : Nat) (line : Nat) : Keep r (State.cComp s ag line) := by
  unfold State.cComp
  try dsimp only
  repeat' first
    | with_reducible assumption
    | with_reducible exact Keep.refl _
    | with_reducible refine Keep.ite (fun _ => ?_) (fun _ => ?_)
    | with_reducible apply State.cTake_keep
    | with_reducible apply State.cPush_keep
    | with_reducible apply State.cAccess_keep
    | with_reducible apply State.txDone_keep
    | with_reducible apply State.cRest_keep
    | with_reducible apply State.cAck_keep
    | with_reducible apply State.setLine_keep
    | with_reducible apply State.delLine_keep
    | simp only [keep_mk]
    | with_reducible refine KeepS.of_eq (by assumption) ?_
    | split
    | dsimp only

theorem execComp_keep {r s : State} (h : Keep r s) (a : CohAgent) (addr : Word) : KeepN r (execComp a addr s) := by
  unfold execComp
  try dsimp only
  repeat' first
    | with_reducible assumption
    | with_reducible exact Keep.refl _
    | with_reducible refine KeepN.next ?_
    | with_reducible apply State.onLine_keep
    | with_reducible apply State.cComp_keep
    | with_reducible intro _ _ _
    | with_reducible intro _ _
    | with_reducible intro _
    | split
    | dsimp only

theorem State.cStatus_keep {r s : State} (h : Keep r s) (op : CMsgOp) (ag line : Nat) (rx : Rsp) :
    Keep r (State.cStatus s op ag line rx) := by
  unfold State.cStatus
  refine State.cFail_keep ?_ _ _ _
  cases e : s.cTake [op] (some ag) line with
  | none => exact h
  | some p => exact KeepS.of_eq e (State.cTake_keep h _ _ _)

theorem execCohError_keep {r s : State} (h : Keep r s) (a : CohAgent) (addr : Word) : KeepN r (execCohError a addr s) := by
  unfold execCohError
  try dsimp only
  repeat' first
    | with_reducible assumption
    | with_reducible exact Keep.refl _
    | with_reducible refine KeepN.next ?_
    | with_reducible apply State.onLine_keep
    | with_reducible apply State.cStatus_keep
    | with_reducible intro _ _ _
    | with_reducible intro _ _
    | with_reducible intro _
    | split
    | dsimp only

theorem execCohPoisoned_keep {r s : State} (h : Keep r s) (a : CohAgent) (addr : Word) : KeepN r (execCohPoisoned a addr s) := by
  unfold execCohPoisoned
  try dsimp only
  repeat' first
    | with_reducible assumption
    | with_reducible exact Keep.refl _
    | with_reducible refine KeepN.next ?_
    | with_reducible apply State.onLine_keep
    | with_reducible apply State.cStatus_keep
    | with_reducible intro _ _ _
    | with_reducible intro _ _
    | with_reducible intro _
    | split
    | dsimp only

theorem execCohAbsent_keep {r s : State} (h : Keep r s) (a : CohAgent) (addr : Word) : KeepN r (execCohAbsent a addr s) := by
  unfold execCohAbsent
  try dsimp only
  repeat' first
    | with_reducible assumption
    | with_reducible exact Keep.refl _
    | with_reducible refine KeepN.next ?_
    | with_reducible apply State.onLine_keep
    | with_reducible apply State.cStatus_keep
    | with_reducible intro _ _ _
    | with_reducible intro _ _
    | with_reducible intro _
    | split
    | dsimp only

theorem execCohMalformed_keep {r s : State} (h : Keep r s) (a : CohAgent) (addr : Word) : KeepN r (execCohMalformed a addr s) := by
  unfold execCohMalformed
  try dsimp only
  repeat' first
    | with_reducible assumption
    | with_reducible exact Keep.refl _
    | with_reducible refine KeepN.next ?_
    | with_reducible apply State.onLine_keep
    | with_reducible apply State.cStatus_keep
    | with_reducible intro _ _ _
    | with_reducible intro _ _
    | with_reducible intro _
    | split
    | dsimp only

theorem State.homeAck_keep {r s : State} (h : Keep r s) (ag : Nat) (line : Nat) : Keep r (State.homeAck s ag line) := by
  unfold State.homeAck
  try dsimp only
  repeat' first
    | with_reducible assumption
    | with_reducible exact Keep.refl _
    | with_reducible refine Keep.ite (fun _ => ?_) (fun _ => ?_)
    | with_reducible apply State.cTake_keep
    | with_reducible apply State.recallNext_keep
    | with_reducible apply State.recallStart_keep
    | with_reducible apply State.homePump_keep
    | with_reducible apply State.setTxn_keep
    | simp only [keep_mk]
    | with_reducible refine KeepS.of_eq (by assumption) ?_
    | split
    | dsimp only

theorem execCompAck_keep {r s : State} (h : Keep r s) (a : CohAgent) (addr : Word) : KeepN r (execCompAck a addr s) := by
  unfold execCompAck
  try dsimp only
  repeat' first
    | with_reducible assumption
    | with_reducible exact Keep.refl _
    | with_reducible refine KeepN.next ?_
    | with_reducible apply State.onLine_keep
    | with_reducible apply State.homeAck_keep
    | with_reducible intro _ _ _
    | with_reducible intro _ _
    | with_reducible intro _
    | split
    | dsimp only

theorem State.homeRsp_keep {r s : State} (h : Keep r s) (op : CMsgOp) (ag : Nat) (line : Nat) : Keep r (State.homeRsp s op ag line) := by
  unfold State.homeRsp
  try dsimp only
  repeat' first
    | with_reducible assumption
    | with_reducible exact Keep.refl _
    | with_reducible refine Keep.ite (fun _ => ?_) (fun _ => ?_)
    | with_reducible apply State.cTake_keep
    | with_reducible apply State.setTxn_keep
    | with_reducible apply State.homePump_keep
    | with_reducible apply State.cSupply_keep
    | simp only [keep_mk]
    | with_reducible refine KeepS.of_eq (by assumption) ?_
    | split
    | dsimp only

theorem execRspI_keep {r s : State} (h : Keep r s) (a : CohAgent) (addr : Word) : KeepN r (execRspI a addr s) := by
  unfold execRspI
  try dsimp only
  repeat' first
    | with_reducible assumption
    | with_reducible exact Keep.refl _
    | with_reducible refine KeepN.next ?_
    | with_reducible apply State.onLine_keep
    | with_reducible apply State.homeRsp_keep
    | with_reducible intro _ _ _
    | with_reducible intro _ _
    | with_reducible intro _
    | split
    | dsimp only

theorem execRspS_keep {r s : State} (h : Keep r s) (a : CohAgent) (addr : Word) : KeepN r (execRspS a addr s) := by
  unfold execRspS
  try dsimp only
  repeat' first
    | with_reducible assumption
    | with_reducible exact Keep.refl _
    | with_reducible refine KeepN.next ?_
    | with_reducible apply State.onLine_keep
    | with_reducible apply State.homeRsp_keep
    | with_reducible intro _ _ _
    | with_reducible intro _ _
    | with_reducible intro _
    | split
    | dsimp only

theorem execRspO_keep {r s : State} (h : Keep r s) (a : CohAgent) (addr : Word) : KeepN r (execRspO a addr s) := by
  unfold execRspO
  try dsimp only
  repeat' first
    | with_reducible assumption
    | with_reducible exact Keep.refl _
    | with_reducible refine KeepN.next ?_
    | with_reducible apply State.onLine_keep
    | with_reducible apply State.homeRsp_keep
    | with_reducible intro _ _ _
    | with_reducible intro _ _
    | with_reducible intro _
    | split
    | dsimp only

theorem execRspKeep_keep {r s : State} (h : Keep r s) (a : CohAgent) (addr : Word) : KeepN r (execRspKeep a addr s) := by
  unfold execRspKeep
  try dsimp only
  repeat' first
    | with_reducible assumption
    | with_reducible exact Keep.refl _
    | with_reducible refine KeepN.next ?_
    | with_reducible apply State.onLine_keep
    | with_reducible apply State.homeRsp_keep
    | with_reducible intro _ _ _
    | with_reducible intro _ _
    | with_reducible intro _
    | split
    | dsimp only

theorem execDataToHome_keep {r s : State} (h : Keep r s) (a : CohAgent) (addr : Word) : KeepN r (execDataToHome a addr s) := by
  unfold execDataToHome
  try dsimp only
  repeat' first
    | with_reducible assumption
    | with_reducible exact Keep.refl _
    | with_reducible refine Keep.ite (fun _ => ?_) (fun _ => ?_)
    | with_reducible refine KeepN.next ?_
    | with_reducible refine KeepN.ite (fun _ => ?_) (fun _ => ?_)
    | with_reducible apply State.onLine_keep
    | with_reducible apply State.cTake_keep
    | with_reducible apply State.homePump_keep
    | with_reducible apply State.setPois_keep
    | with_reducible apply State.delLine_keep
    | with_reducible apply State.cPush_keep
    | with_reducible intro _ _ _
    | with_reducible intro _ _
    | with_reducible intro _
    | simp only [keep_mk]
    | with_reducible refine KeepS.of_eq (by assumption) ?_
    | split
    | dsimp only

theorem State.ddrFind_keep {r s : State} (h : Keep r s) (key : Nat) (f : CacheFinding) : Keep r (State.ddrFind s key f) := by
  unfold State.ddrFind
  try dsimp only
  repeat' first
    | with_reducible assumption
    | with_reducible exact Keep.refl _
    | with_reducible refine Keep.ite (fun _ => ?_) (fun _ => ?_)
    | with_reducible apply State.bump_keep
    | with_reducible apply State.event_keep
    | with_reducible apply State.wr_keep
    | with_reducible apply State.setPois_keep
    | simp only [keep_mk]
    | split
    | dsimp only

theorem State.cPull_keep {r s : State} (h : Keep r s) (op : CMsgOp) (line : Nat) : KeepS r (State.cPull s op line) := by
  unfold State.cPull
  intro x t e
  obtain ⟨u, _, e2⟩ := Option.map_eq_some_iff.mp e
  cases e2
  rw [keep_mk]
  exact h

theorem State.hmemAbsent_keep {r s : State} (h : Keep r s) (m : CMsg) : Keep r (State.hmemAbsent s m) := by
  unfold State.hmemAbsent
  try dsimp only
  repeat' first
    | with_reducible assumption
    | with_reducible exact Keep.refl _
    | with_reducible apply State.cData_keep
    | simp only [keep_mk]
    | split
    | dsimp only

theorem execHmemRd_keep {r s : State} (h : Keep r s) (addr : Word) (f : CacheFinding) (hx : HbmFinding) : KeepN r (execHmemRd addr f hx s) := by
  unfold execHmemRd
  try dsimp only
  repeat' first
    | with_reducible assumption
    | with_reducible exact Keep.refl _
    | with_reducible refine Keep.ite (fun _ => ?_) (fun _ => ?_)
    | with_reducible refine KeepN.next ?_
    | with_reducible refine KeepN.ite (fun _ => ?_) (fun _ => ?_)
    | with_reducible apply State.onLine_keep
    | with_reducible apply State.cPull_keep
    | with_reducible apply State.hmemAbsent_keep
    | with_reducible apply State.cTake_keep
    | with_reducible apply State.ddrFind_keep
    | with_reducible apply State.hbmStop_keep
    | with_reducible apply State.cPush_keep
    | with_reducible apply State.lineRead_keep
    | with_reducible apply State.tierRead_keep
    | with_reducible apply State.l3Fill_keep
    | with_reducible apply State.cData_keep
    | with_reducible intro _ _ _
    | with_reducible intro _ _
    | with_reducible intro _
    | simp only [keep_mk]
    | with_reducible refine Keep.fst_eq (by assumption) ?_
    | with_reducible refine KeepO.of_eq (by assumption) ?_
    | with_reducible refine KeepS.of_eq (by assumption) ?_
    | split
    | dsimp only

theorem execHmemWr_keep {r s : State} (h : Keep r s) (addr : Word) : KeepN r (execHmemWr addr s) := by
  unfold execHmemWr
  refine State.onLine_keep h _ _ (fun l => ?_)
  refine Keep.ite (fun _ => ?_) (fun _ => ?_)
  · refine State.homePump_keep ?_ _
    cases e : s.cPull .hmemWr l with
    | none => exact h
    | some x => exact State.cPull_keep h _ _ x.1 x.2 e
  · split
    · exact h
    · next e =>
      have h1 := State.cTake_keep h _ _ _ _ _ e
      exact State.homePump_keep (KeepO.getD (State.hbmStop_keep h1 _) (State.memLine_keep h1 _ _ _)) _

theorem execLeaseReq_keep {r s : State} (h : Keep r s) (d : DieId) (addr : Word) (acc : LineAccess) : KeepN r (execLeaseReq d addr acc s) := by
  unfold execLeaseReq
  try dsimp only
  repeat' first
    | with_reducible assumption
    | with_reducible exact Keep.refl _
    | with_reducible refine KeepN.next ?_
    | with_reducible apply State.onLine_keep
    | with_reducible apply State.cAccess_keep
    | with_reducible intro _ _ _
    | with_reducible intro _ _
    | with_reducible intro _
    | split
    | dsimp only

theorem State.l3Region_keep {r s : State} (h : Keep r s) (rx : Nat) : Keep r (State.l3Region s rx) := by
  unfold State.l3Region
  try dsimp only
  repeat' first
    | with_reducible assumption
    | with_reducible exact Keep.refl _
    | with_reducible refine Keep.ite (fun _ => ?_) (fun _ => ?_)
    | with_reducible apply State.delLine_keep
    | with_reducible apply State.memLine_keep
    | with_reducible refine Keep.foldl ?_ (fun _ _ _ => ?_)
    | with_reducible refine Keep.foldl_fst ?_ (fun _ _ _ => ?_)
    | split
    | dsimp only

theorem execLeaseGrant_keep {r s : State} (h : Keep r s) (d : DieId) (addr : Word) : KeepN r (execLeaseGrant d addr s) := by
  unfold execLeaseGrant
  try dsimp only
  repeat' first
    | with_reducible assumption
    | with_reducible exact Keep.refl _
    | with_reducible refine Keep.ite (fun _ => ?_) (fun _ => ?_)
    | with_reducible refine KeepN.next ?_
    | with_reducible refine KeepN.ite (fun _ => ?_) (fun _ => ?_)
    | with_reducible apply State.onLine_keep
    | with_reducible apply State.l3Region_keep
    | with_reducible apply State.bump_keep
    | with_reducible apply State.cPush_keep
    | with_reducible apply State.homeStart_keep
    | with_reducible intro _ _ _
    | with_reducible intro _ _
    | with_reducible intro _
    | simp only [keep_mk]
    | with_reducible refine Keep.foldl ?_ (fun _ _ _ => ?_)
    | with_reducible refine Keep.foldl_fst ?_ (fun _ _ _ => ?_)
    | split
    | dsimp only

theorem execLeaseDeny_keep {r s : State} (h : Keep r s) (d : DieId) (addr : Word) : KeepN r (execLeaseDeny d addr s) := by
  unfold execLeaseDeny
  try dsimp only
  repeat' first
    | with_reducible assumption
    | with_reducible exact Keep.refl _
    | with_reducible refine KeepN.next ?_
    | with_reducible apply State.onLine_keep
    | with_reducible apply State.cTake_keep
    | with_reducible apply State.cSend_keep
    | with_reducible intro _ _ _
    | with_reducible intro _ _
    | with_reducible intro _
    | simp only [keep_mk]
    | with_reducible refine KeepS.of_eq (by assumption) ?_
    | split
    | dsimp only

theorem execLeaseRecall_keep {r s : State} (h : Keep r s) (d : DieId) (addr : Word) : KeepN r (execLeaseRecall d addr s) := by
  unfold execLeaseRecall
  try dsimp only
  repeat' first
    | with_reducible assumption
    | with_reducible exact Keep.refl _
    | with_reducible refine Keep.ite (fun _ => ?_) (fun _ => ?_)
    | with_reducible refine KeepN.next ?_
    | with_reducible refine KeepN.ite (fun _ => ?_) (fun _ => ?_)
    | with_reducible apply State.onLine_keep
    | with_reducible apply State.cTake_keep
    | with_reducible apply State.delLine_keep
    | with_reducible apply State.memLine_keep
    | with_reducible apply State.cPush_keep
    | with_reducible intro _ _ _
    | with_reducible intro _ _
    | with_reducible intro _
    | simp only [keep_mk]
    | with_reducible refine Keep.foldl ?_ (fun _ _ _ => ?_)
    | with_reducible refine Keep.foldl_fst ?_ (fun _ _ _ => ?_)
    | with_reducible refine KeepS.of_eq (by assumption) ?_
    | split
    | dsimp only

theorem execLeaseReturn_keep {r s : State} (h : Keep r s) (d : DieId) (addr : Word) : KeepN r (execLeaseReturn d addr s) := by
  unfold execLeaseReturn
  try dsimp only
  repeat' first
    | with_reducible assumption
    | with_reducible exact Keep.refl _
    | with_reducible refine Keep.ite (fun _ => ?_) (fun _ => ?_)
    | with_reducible refine KeepN.next ?_
    | with_reducible refine KeepN.ite (fun _ => ?_) (fun _ => ?_)
    | with_reducible apply State.onLine_keep
    | with_reducible apply State.cTake_keep
    | with_reducible apply State.recallNext_keep
    | with_reducible apply State.regionFree_keep
    | with_reducible apply State.bump_keep
    | with_reducible intro _ _ _
    | with_reducible intro _ _
    | with_reducible intro _
    | simp only [keep_mk]
    | with_reducible refine KeepS.of_eq (by assumption) ?_
    | split
    | dsimp only

theorem execLeaseHoldoffExpire_keep {r s : State} (h : Keep r s) (addr : Word) : KeepN r (execLeaseHoldoffExpire addr s) := by
  unfold execLeaseHoldoffExpire
  try dsimp only
  repeat' first
    | with_reducible assumption
    | with_reducible exact Keep.refl _
    | with_reducible refine KeepN.next ?_
    | with_reducible apply State.onLine_keep
    | with_reducible intro _ _ _
    | with_reducible intro _ _
    | with_reducible intro _
    | simp only [keep_mk]
    | split
    | dsimp only

theorem execCchLeaseCfgWrite_keep {r s : State} (h : Keep r s) (value : Word) : KeepN r (execCchLeaseCfgWrite value s) := by
  unfold execCchLeaseCfgWrite
  try dsimp only
  repeat' first
    | with_reducible assumption
    | with_reducible exact Keep.refl _
    | with_reducible refine KeepN.next ?_
    | with_reducible apply State.wr_keep
    | with_reducible apply State.recallNext_keep
    | split
    | dsimp only

theorem State.mntIssue_keep {r s : State} (h : Keep r s) (m : MntRun) : Keep r (State.mntIssue s m) := by
  unfold State.mntIssue
  try dsimp only
  repeat' first
    | with_reducible assumption
    | with_reducible exact Keep.refl _
    | with_reducible refine Keep.ite (fun _ => ?_) (fun _ => ?_)
    | with_reducible apply State.homeAccept_keep
    | simp only [keep_mk]
    | with_reducible refine Keep.foldl ?_ (fun _ _ _ => ?_)
    | with_reducible refine Keep.foldl_fst ?_ (fun _ _ _ => ?_)
    | split
    | dsimp only

theorem execCchMntGo_keep {r s : State} (h : Keep r s) (value : Word) : KeepN r (execCchMntGo value s) := by
  unfold execCchMntGo
  try dsimp only
  repeat' first
    | with_reducible assumption
    | with_reducible exact Keep.refl _
    | with_reducible refine Keep.ite (fun _ => ?_) (fun _ => ?_)
    | with_reducible refine KeepN.next ?_
    | with_reducible refine KeepN.ite (fun _ => ?_) (fun _ => ?_)
    | with_reducible apply State.ack_keep
    | with_reducible apply State.wr_keep
    | with_reducible apply State.mntIssue_keep
    | with_reducible apply State.recallStart_keep
    | simp only [keep_mk]
    | with_reducible refine Keep.foldl ?_ (fun _ _ _ => ?_)
    | with_reducible refine Keep.foldl_fst ?_ (fun _ _ _ => ?_)
    | split
    | dsimp only

theorem execCchMntDone_keep {r s : State} (h : Keep r s) : KeepN r (execCchMntDone s) := by
  unfold execCchMntDone
  try dsimp only
  repeat' first
    | with_reducible assumption
    | with_reducible exact Keep.refl _
    | with_reducible refine Keep.ite (fun _ => ?_) (fun _ => ?_)
    | with_reducible refine KeepN.next ?_
    | with_reducible refine KeepN.ite (fun _ => ?_) (fun _ => ?_)
    | with_reducible apply State.wr_keep
    | with_reducible apply State.mntIssue_keep
    | with_reducible apply State.recallStart_keep
    | with_reducible apply State.cClean_keep
    | simp only [keep_mk]
    | with_reducible refine Keep.foldl ?_ (fun _ _ _ => ?_)
    | with_reducible refine Keep.foldl_fst ?_ (fun _ _ _ => ?_)
    | split
    | dsimp only

theorem execCchReplLock_keep {r s : State} (h : Keep r s) (value : Word) : KeepN r (execCchReplLock value s) := by
  unfold execCchReplLock
  try dsimp only
  repeat' first
    | with_reducible assumption
    | with_reducible exact Keep.refl _
    | with_reducible refine Keep.ite (fun _ => ?_) (fun _ => ?_)
    | with_reducible refine KeepN.next ?_
    | with_reducible refine KeepN.ite (fun _ => ?_) (fun _ => ?_)
    | with_reducible apply State.ack_keep
    | with_reducible apply State.wr_keep
    | with_reducible apply State.setReg_keep
    | split
    | dsimp only

theorem execCchScCarveLock_keep {r s : State} (h : Keep r s) (die : DieId) (value : Word) : KeepN r (execCchScCarveLock die value s) := by
  unfold execCchScCarveLock
  try dsimp only
  repeat' first
    | with_reducible assumption
    | with_reducible exact Keep.refl _
    | with_reducible refine Keep.ite (fun _ => ?_) (fun _ => ?_)
    | with_reducible refine KeepN.next ?_
    | with_reducible refine KeepN.ite (fun _ => ?_) (fun _ => ?_)
    | with_reducible apply State.ack_keep
    | with_reducible apply State.wr_keep
    | with_reducible apply State.scTrim_keep
    | split
    | dsimp only

theorem execCchRrbInvGo_keep {r s : State} (h : Keep r s) (byNode : Bool) (node : BitVec 13) : KeepN r (execCchRrbInvGo byNode node s) := by
  unfold execCchRrbInvGo
  try dsimp only
  repeat' first
    | with_reducible assumption
    | with_reducible exact Keep.refl _
    | with_reducible refine Keep.ite (fun _ => ?_) (fun _ => ?_)
    | with_reducible refine KeepN.next ?_
    | with_reducible refine KeepN.ite (fun _ => ?_) (fun _ => ?_)
    | with_reducible apply State.wr_keep
    | simp only [keep_mk]
    | split
    | dsimp only

theorem execCchRrbInvDone_keep {r s : State} (h : Keep r s) : KeepN r (execCchRrbInvDone s) := by
  unfold execCchRrbInvDone
  try dsimp only
  repeat' first
    | with_reducible assumption
    | with_reducible exact Keep.refl _
    | with_reducible refine Keep.ite (fun _ => ?_) (fun _ => ?_)
    | with_reducible refine KeepN.next ?_
    | with_reducible refine KeepN.ite (fun _ => ?_) (fun _ => ?_)
    | with_reducible apply State.wr_keep
    | with_reducible apply State.rrbClear_keep
    | with_reducible apply State.fenceCheck_keep
    | with_reducible refine Keep.foldl ?_ (fun _ _ _ => ?_)
    | with_reducible refine Keep.foldl_fst ?_ (fun _ _ _ => ?_)
    | split
    | dsimp only

theorem State.agentFlush_keep {r s : State} (h : Keep r s) (ag : Nat) : Keep r (State.agentFlush s ag) := by
  unfold State.agentFlush
  try dsimp only
  repeat' first
    | with_reducible assumption
    | with_reducible exact Keep.refl _
    | with_reducible refine Keep.ite (fun _ => ?_) (fun _ => ?_)
    | with_reducible apply State.cClean_keep
    | with_reducible refine Keep.foldl ?_ (fun _ _ _ => ?_)
    | with_reducible refine Keep.foldl_fst ?_ (fun _ _ _ => ?_)
    | split
    | dsimp only

theorem State.goneMsg_keep {r s : State} (h : Keep r s) (ag : Nat) (m : CMsg) : Keep r (State.goneMsg s ag m) := by
  unfold State.goneMsg
  try dsimp only
  repeat' first
    | with_reducible assumption
    | with_reducible exact Keep.refl _
    | with_reducible refine Keep.ite (fun _ => ?_) (fun _ => ?_)
    | with_reducible apply State.setTxn_keep
    | with_reducible apply State.cSnoop_keep
    | with_reducible apply State.cPush_keep
    | simp only [keep_mk]
    | split
    | dsimp only

theorem State.agentLost_keep {r s : State} (h : Keep r s) (ag : Nat) : Keep r (State.agentLost s ag) := by
  unfold State.agentLost
  try dsimp only
  repeat' first
    | with_reducible assumption
    | with_reducible exact Keep.refl _
    | with_reducible refine Keep.ite (fun _ => ?_) (fun _ => ?_)
    | with_reducible apply State.goneMsg_keep
    | with_reducible apply State.homePump_keep
    | with_reducible apply State.setTxn_keep
    | with_reducible apply State.dirGone_keep
    | simp only [keep_mk]
    | with_reducible refine Keep.foldl ?_ (fun _ _ _ => ?_)
    | with_reducible refine Keep.foldl_fst ?_ (fun _ _ _ => ?_)
    | split
    | dsimp only

theorem State.cohAbsent_keep {r s : State} (h : Keep r s) (d : Nat) : Keep r (State.cohAbsent s d) := by
  unfold State.cohAbsent
  try dsimp only
  repeat' first
    | with_reducible assumption
    | with_reducible exact Keep.refl _
    | with_reducible apply State.regionFree_keep
    | with_reducible apply State.agentLost_keep
    | simp only [keep_mk]
    | with_reducible refine Keep.foldl ?_ (fun _ _ _ => ?_)
    | with_reducible refine Keep.foldl_fst ?_ (fun _ _ _ => ?_)
    | split
    | dsimp only

theorem State.cEnd_keep {r s : State} (h : Keep r s) (l : Nat) (ag : Nat) (txid : Nat) : KeepO r (State.cEnd s l ag txid) := by
  unfold State.cEnd
  try dsimp only
  repeat' first
    | with_reducible assumption
    | with_reducible exact Keep.refl _
    | with_reducible refine Keep.ite (fun _ => ?_) (fun _ => ?_)
    | with_reducible exact KeepO.none
    | with_reducible refine KeepO.some ?_
    | with_reducible refine KeepO.ite (fun _ => ?_) (fun _ => ?_)
    | with_reducible apply State.txDone_keep
    | with_reducible apply State.hmemAbsent_keep
    | simp only [keep_mk]
    | split
    | dsimp only

theorem State.cohReturn_keep {r s : State} (h : Keep r s) (d : Nat) : Keep r (State.cohReturn s d) := by
  unfold State.cohReturn
  try dsimp only
  repeat' first
    | with_reducible assumption
    | with_reducible exact Keep.refl _
    | simp only [keep_mk]
    | split
    | dsimp only

end Sys2Proof.Machine
end

