-- ==== Sys2Proof/Laws/KeepPath.lean ====
section
/-!
SUPPORT. The operations of Machine/Path.lean keep the queue, the canonical forms and the freshness of free values.
-/

namespace Sys2Proof.Machine

open Sys2Proof

theorem State.leaseTake_keep {r s : State} (h : Keep r s) (d : Nat) (rx : Nat) : Keep r (State.leaseTake s d rx) := by
  unfold State.leaseTake
  try dsimp only
  repeat' first
    | with_reducible assumption
    | with_reducible exact Keep.refl _
    | with_reducible apply State.l3Region_keep
    | with_reducible apply State.cClean_keep
    | with_reducible apply State.bump_keep
    | simp only [keep_mk]
    | with_reducible refine Keep.foldl ?_ (fun _ _ _ => ?_)
    | with_reducible refine Keep.foldl_fst ?_ (fun _ _ _ => ?_)
    | split
    | dsimp only

theorem State.flowRegion_keep {r s : State} (h : Keep r s) (ag : Nat) (line : Nat) : Keep r (State.flowRegion s ag line) := by
  unfold State.flowRegion
  try dsimp only
  repeat' first
    | with_reducible assumption
    | with_reducible exact Keep.refl _
    | with_reducible refine Keep.ite (fun _ => ?_) (fun _ => ?_)
    | with_reducible apply State.leaseBack_keep
    | with_reducible apply State.bump_keep
    | with_reducible apply State.leaseTake_keep
    | split
    | dsimp only

theorem State.fetchLine_keep {r s : State} (h : Keep r s) (line : Nat) : Keep r (State.fetchLine s line) := by
  unfold State.fetchLine
  try dsimp only
  repeat' first
    | with_reducible assumption
    | with_reducible exact Keep.refl _
    | with_reducible refine Keep.ite (fun _ => ?_) (fun _ => ?_)
    | with_reducible apply State.tierRead_keep
    | with_reducible apply State.lineFetch_keep
    | with_reducible refine Keep.fst_eq (by assumption) ?_
    | split
    | dsimp only

theorem State.fetchLines_keep {r s : State} (h : Keep r s) (line k : Nat) : Keep r (State.fetchLines s line k) := by
  induction k generalizing s line with
  | zero => exact h
  | succ k ih => exact ih (Keep.ite (fun _ => State.fetchLine_keep h _) (fun _ => h)) _

theorem State.flowShare_keep {r s : State} (h : Keep r s) (ag : Nat) (line : Nat) (stream : Bool) : Keep r (State.flowShare s ag line stream) := by
  unfold State.flowShare
  try dsimp only
  repeat' first
    | with_reducible assumption
    | with_reducible exact Keep.refl _
    | with_reducible refine Keep.ite (fun _ => ?_) (fun _ => ?_)
    | with_reducible apply State.cPlace_keep
    | with_reducible apply State.setLine_keep
    | with_reducible apply State.l3Fill_keep
    | with_reducible apply State.dirEnter_keep
    | with_reducible apply State.putDir_keep
    | simp only [keep_mk]
    | with_reducible refine KeepO.of_eq (by assumption) ?_
    | split
    | dsimp only

theorem State.flowRead_keep {r s : State} (h : Keep r s) (ag : Nat) (line : Nat) (k : RdKind) : Keep r (State.flowRead s ag line k) := by
  unfold State.flowRead
  try dsimp only
  repeat' first
    | with_reducible assumption
    | with_reducible exact Keep.refl _
    | with_reducible refine Keep.ite (fun _ => ?_) (fun _ => ?_)
    | with_reducible apply State.cHit_keep
    | with_reducible apply State.flowRegion_keep
    | with_reducible apply State.cPlace_keep
    | with_reducible apply State.flowShare_keep
    | simp only [keep_mk]
    | with_reducible refine KeepO.of_eq (by assumption) ?_
    | with_reducible refine KeepO.getD ?_ ?_
    | split
    | dsimp only

theorem State.flowWrite_keep {r s : State} (h : Keep r s) (ag : Nat) (line : Nat) (m : Nat) (data : Line) (poison : Bool) (st : optParam Bool false) : Keep r (State.flowWrite s ag line m data poison st) := by
  unfold State.flowWrite
  try dsimp only
  repeat' first
    | with_reducible assumption
    | with_reducible exact Keep.refl _
    | with_reducible refine Keep.ite (fun _ => ?_) (fun _ => ?_)
    | with_reducible apply State.cHit_keep
    | with_reducible apply State.setLine_keep
    | with_reducible apply State.fetchLine_keep
    | with_reducible apply State.settle_keep
    | with_reducible apply State.flowRegion_keep
    | with_reducible apply State.cPlace_keep
    | with_reducible apply State.memLine_keep
    | with_reducible apply State.keepDir_keep
    | with_reducible apply State.dirEnter_keep
    | simp only [keep_mk]
    | with_reducible refine KeepO.of_eq (by assumption) ?_
    | with_reducible refine KeepO.getD ?_ ?_
    | split
    | dsimp only

theorem State.flowReads_keep {r s : State} (h : Keep r s) (ag line : Nat) (kind : RdKind) (k : Nat) :
    Keep r (State.flowReads s ag line kind k) := by
  induction k generalizing s line with
  | zero => exact h
  | succ k ih => exact ih (State.flowRead_keep h _ _ _) _

theorem State.flowWrites_keep {r s : State} (h : Keep r s) (ag line a : Nat) (bs : List Byte) (poison : Bool) (st : Bool := false)
    (k : Nat) : Keep r (State.flowWrites s ag line a bs poison st k) := by
  induction k generalizing s line with
  | zero => exact h
  | succ k ih => exact ih (State.flowWrite_keep h _ _ _ _ _ _) _

theorem State.islandPuts_keep {r s : State} (h : Keep r s) (d line a : Nat) (bs : List Byte) (k : Nat) :
    Keep r (State.islandPuts s d line a bs k) := by
  induction k generalizing s line with
  | zero => exact h
  | succ k ih => exact ih (State.islandPut_keep h _ _ _ _) _

theorem State.memRead_keep {r s : State} (h : Keep r s) (src : Nat) (ag : Option Nat) (kind : RdKind) (k : Nat) (a : Nat) (n : Nat) : Keep r (State.memRead s src ag kind k a n).1 := by
  unfold State.memRead
  try dsimp only
  repeat' first
    | with_reducible assumption
    | with_reducible exact Keep.refl _
    | with_reducible refine Keep.ite (fun _ => ?_) (fun _ => ?_)
    | with_reducible refine Keep.fst_ite (fun _ => ?_) (fun _ => ?_)
    | with_reducible apply State.flowReads_keep
    | with_reducible apply State.fetchLines_keep
    | with_reducible apply State.poisonConv_keep
    | with_reducible apply State.leasesBack_keep
    | with_reducible apply State.hbmStop_keep
    | simp only [keep_mk]
    | with_reducible refine KeepO.of_eq (by assumption) ?_
    | split
    | dsimp only

theorem State.memStoreBy_keep {r s : State} (h : Keep r s) (src : Nat) (ag : Option Nat) (k : Nat) (a : Nat) (bs : List Byte) (poison : Bool) (st : optParam Bool false) : Keep r (State.memStoreBy s src ag k a bs poison st).1 := by
  unfold State.memStoreBy
  try dsimp only
  repeat' first
    | with_reducible assumption
    | with_reducible exact Keep.refl _
    | with_reducible refine Keep.ite (fun _ => ?_) (fun _ => ?_)
    | with_reducible refine Keep.fst_ite (fun _ => ?_) (fun _ => ?_)
    | with_reducible apply State.islandPuts_keep
    | with_reducible apply State.hbmStop_keep
    | with_reducible apply State.flowWrites_keep
    | with_reducible apply State.memWrite_keep
    | with_reducible apply State.bump_keep
    | simp only [keep_mk]
    | with_reducible refine Keep.foldl ?_ (fun _ _ _ => ?_)
    | with_reducible refine Keep.foldl_fst ?_ (fun _ _ _ => ?_)
    | with_reducible refine KeepO.of_eq (by assumption) ?_
    | split
    | dsimp only

theorem State.localRead_keep {r s : State} (h : Keep r s) (src : Nat) (a : Nat) (n : Nat) (kind : optParam RdKind RdKind.once) (ag : optParam (Option Nat) none) : Keep r (State.localRead s src a n kind ag).1 := by
  unfold State.localRead
  try dsimp only
  repeat' first
    | with_reducible assumption
    | with_reducible exact Keep.refl _
    | with_reducible refine Keep.ite (fun _ => ?_) (fun _ => ?_)
    | with_reducible refine Keep.fst_ite (fun _ => ?_) (fun _ => ?_)
    | with_reducible apply State.memRead_keep
    | with_reducible apply State.apertureRefuse_keep
    | with_reducible apply State.poisonConv_keep
    | with_reducible apply State.ledgerRead_keep
    | with_reducible apply State.bump_keep
    | with_reducible apply State.regRead_keep
    | with_reducible apply State.doorbellAccess_keep
    | with_reducible apply State.freeRead_keep
    | simp only [keep_mk]
    | with_reducible refine Keep.fst_eq (by assumption) ?_
    | split
    | dsimp only

theorem State.remoteRead_keep {r s : State} (h : Keep r s) (a : Nat) (n : Nat) : Keep r (State.remoteRead s a n).1 := by
  unfold State.remoteRead
  try dsimp only
  repeat' first
    | with_reducible assumption
    | with_reducible exact Keep.refl _
    | with_reducible refine Keep.ite (fun _ => ?_) (fun _ => ?_)
    | with_reducible refine Keep.fst_ite (fun _ => ?_) (fun _ => ?_)
    | with_reducible apply State.fgnReach_keep
    | with_reducible apply State.freeRead_keep
    | with_reducible apply State.fgnRead_keep
    | with_reducible apply State.fresh_keep
    | simp only [keep_mk]
    | with_reducible refine Keep.fst_eq (by assumption) ?_
    | with_reducible refine Keep.snd_eq (by assumption) ?_
    | split
    | dsimp only

theorem State.busRead_keep {r s : State} (h : Keep r s) (src : Nat) (host : Bool) (a : Nat) (n : Nat) (kind : optParam RdKind RdKind.fill) (ag : optParam (Option Nat) none) : Keep r (State.busRead s src host a n kind ag).1 := by
  unfold State.busRead
  try dsimp only
  repeat' first
    | with_reducible assumption
    | with_reducible exact Keep.refl _
    | with_reducible refine Keep.ite (fun _ => ?_) (fun _ => ?_)
    | with_reducible refine Keep.fst_ite (fun _ => ?_) (fun _ => ?_)
    | with_reducible apply State.freeRead_keep
    | with_reducible apply State.localRead_keep
    | with_reducible apply State.remoteRead_keep
    | with_reducible refine Keep.fst_eq (by assumption) ?_
    | split
    | dsimp only

theorem State.rrbLinesRead_keep {r s : State} (h : Keep r s) (b : Nat) (line : Nat) (a3 : Nat) : Keep r (State.rrbLinesRead s b line a3).1 := by
  induction a3 generalizing s b line with
  | zero => exact h
  | succ k ih =>
    unfold State.rrbLinesRead
    try dsimp only
    repeat' first
      | with_reducible assumption
      | with_reducible exact Keep.refl _
      | with_reducible apply State.bump_keep
      | with_reducible apply State.rrbPut_keep
      | with_reducible apply State.rrbEnter_keep
      | with_reducible apply State.remoteRead_keep
      | with_reducible apply ih
      | simp only [keep_mk]
      | with_reducible refine Keep.fst_eq (by assumption) ?_
      | split
      | dsimp only

theorem State.bufRead_keep {r s : State} (h : Keep r s) (b : Nat) (a : Nat) (n : Nat) : Keep r (State.bufRead s b a n).1 := by
  unfold State.bufRead
  try dsimp only
  repeat' first
    | with_reducible assumption
    | with_reducible exact Keep.refl _
    | with_reducible apply State.rrbLinesRead_keep
    | simp only [keep_mk]
    | with_reducible refine Keep.fst_eq (by assumption) ?_
    | split
    | dsimp only

theorem State.localWrite_keep {r s : State} (h : Keep r s) (src a : Nat) (bs : List Byte) (poison : Bool) (ag : Option Nat := none)
    (st : Bool := false) : Keep r (State.localWrite s src a bs poison ag st).1 := by
  unfold State.localWrite
  dsimp only
  split
  · exact Keep.fst_ite (fun _ => h) (fun _ => State.memStoreBy_keep h _ _ _ _ _ _ _)
  refine Keep.fst_ite (fun _ => h) (fun _ => ?_)
  split
  · exact h
  · refine Keep.fst_ite (fun _ => State.apertureRefuse_keep h _) (fun _ => Keep.fst_ite (fun _ => State.apertureRefuse_keep h _)
      (fun _ => State.tsWrite_keep h _ _ _ _))
  · exact keep_scratch h _ _
  · exact State.bump_keep h _ _
  · refine Keep.fst_ite (fun _ => Keep.fst_ite (fun _ => State.bump_keep h _ _) (fun _ => ?_)) (fun _ => h)
    split
    · exact State.apertureRefuse_keep h _
    · dsimp only; rw [keep_mk]; exact h
  · exact Keep.fst_ite (fun _ => State.message_keep h _ _) (fun _ => h)
  · exact State.doorbellAccess_keep h _ _ _ _ _
  · refine Keep.fst_ite (fun _ => ?_) (fun _ => h)
    dsimp only; rw [keep_mk]; exact h
  · exact h

theorem State.busWrite_keep {r s : State} (h : Keep r s) (src : Nat) (host : Bool) (a : Nat) (bs : List Byte) (poison : Bool) (ag : optParam (Option Nat) none) (st : optParam Bool false) : Keep r (State.busWrite s src host a bs poison ag st).1 := by
  unfold State.busWrite
  try dsimp only
  repeat' first
    | with_reducible assumption
    | with_reducible exact Keep.refl _
    | with_reducible refine Keep.ite (fun _ => ?_) (fun _ => ?_)
    | with_reducible refine Keep.fst_ite (fun _ => ?_) (fun _ => ?_)
    | with_reducible apply State.bump_keep
    | with_reducible apply State.hostWrite_keep
    | with_reducible apply State.localWrite_keep
    | with_reducible apply State.fgnReach_keep
    | with_reducible apply State.fgnWrite_keep
    | simp only [keep_mk]
    | with_reducible refine Keep.fst_eq (by assumption) ?_
    | split
    | dsimp only

theorem State.vread1_keep {r s : State} (h : Keep r s) (die : Nat) (pasid : Nat) (va : Nat) (n : Nat) (k : AccessKind) (buf : Bool) (rk : RdKind) : Keep r (State.vread1 s die pasid va n k buf rk).1 := by
  unfold State.vread1
  try dsimp only
  repeat' first
    | with_reducible assumption
    | with_reducible exact Keep.refl _
    | with_reducible refine Keep.ite (fun _ => ?_) (fun _ => ?_)
    | with_reducible refine Keep.fst_ite (fun _ => ?_) (fun _ => ?_)
    | with_reducible apply State.takeFault_keep
    | with_reducible apply State.bufRead_keep
    | with_reducible apply State.busRead_keep
    | simp only [keep_mk]
    | with_reducible refine Keep.fst_eq (by assumption) ?_
    | split
    | dsimp only

theorem State.vreadK_keep {r s : State} (h : Keep r s) (die : Nat) (pasid : Nat) (va : Nat) (n : Nat) (kind : AccessKind) (buf : Bool) (rk : RdKind) (a8 : Nat) : Keep r (State.vreadK s die pasid va n kind buf rk a8).1 := by
  induction a8 generalizing s die pasid va n kind buf rk with
  | zero => exact h
  | succ k ih =>
    unfold State.vreadK
    try dsimp only
    repeat' first
      | with_reducible assumption
      | with_reducible exact Keep.refl _
      | with_reducible refine Keep.ite (fun _ => ?_) (fun _ => ?_)
      | with_reducible refine Keep.fst_ite (fun _ => ?_) (fun _ => ?_)
      | with_reducible apply State.vread1_keep
      | with_reducible apply ih
      | simp only [keep_mk]
      | with_reducible refine Keep.fst_eq (by assumption) ?_
      | split
      | dsimp only

theorem State.vread_keep {r s : State} (h : Keep r s) (die : Nat) (pasid : Nat) (va : Nat) (n : Nat) (kind : optParam AccessKind AccessKind.read) (buf : optParam Bool true) : Keep r (State.vread s die pasid va n kind buf).1 := by
  unfold State.vread
  try dsimp only
  repeat' first
    | with_reducible assumption
    | with_reducible exact Keep.refl _
    | with_reducible refine Keep.ite (fun _ => ?_) (fun _ => ?_)
    | with_reducible refine Keep.fst_ite (fun _ => ?_) (fun _ => ?_)
    | with_reducible apply State.vreadK_keep
    | with_reducible refine Keep.fst_eq (by assumption) ?_
    | split
    | dsimp only

theorem State.vwriteK_keep {r s : State} (h : Keep r s) (die : Nat) (pasid : Nat) (va : Nat) (bs : List Byte) (poison : Bool) (a6 : Nat) : Keep r (State.vwriteK s die pasid va bs poison a6).1 := by
  induction a6 generalizing s die pasid va bs poison with
  | zero => exact h
  | succ k ih =>
    unfold State.vwriteK
    try dsimp only
    repeat' first
      | with_reducible assumption
      | with_reducible exact Keep.refl _
      | with_reducible refine Keep.ite (fun _ => ?_) (fun _ => ?_)
      | with_reducible refine Keep.fst_ite (fun _ => ?_) (fun _ => ?_)
      | with_reducible apply State.takeFault_keep
      | with_reducible apply State.busWrite_keep
      | with_reducible apply ih
      | simp only [keep_mk]
      | with_reducible refine Keep.fst_eq (by assumption) ?_
      | split
      | dsimp only

theorem State.vwrite_keep {r s : State} (h : Keep r s) (die : Nat) (pasid : Nat) (va : Nat) (bs : List Byte) (poison : Bool) : Keep r (State.vwrite s die pasid va bs poison).1 := by
  unfold State.vwrite
  try dsimp only
  repeat' first
    | with_reducible assumption
    | with_reducible exact Keep.refl _
    | with_reducible apply State.vwriteK_keep
    | with_reducible refine Keep.fst_eq (by assumption) ?_
    | split
    | dsimp only

theorem State.setL1_keep {r s : State} (h : Keep r s) (n : Nat) (line : Nat) (x : L1Line) : Keep r (State.setL1 s n line x) := by
  unfold State.setL1
  try dsimp only
  repeat' first
    | with_reducible assumption
    | with_reducible exact Keep.refl _
    | with_reducible apply State.setTile_keep
    | simp only [keep_mk]
    | split
    | dsimp only

theorem State.l1Flush_keep {r s : State} (h : Keep r s) (n : Nat) (line : Nat) : Keep r (State.l1Flush s n line) := by
  unfold State.l1Flush
  try dsimp only
  repeat' first
    | with_reducible assumption
    | with_reducible exact Keep.refl _
    | with_reducible refine Keep.ite (fun _ => ?_) (fun _ => ?_)
    | with_reducible apply State.busWrite_keep
    | with_reducible apply State.wrap_keep
    | with_reducible apply State.setL1_keep
    | simp only [keep_mk]
    | with_reducible refine Keep.foldl ?_ (fun _ _ _ => ?_)
    | with_reducible refine Keep.foldl_fst ?_ (fun _ _ _ => ?_)
    | with_reducible refine Keep.fst_eq (by assumption) ?_
    | split
    | dsimp only

theorem State.l1Inv_keep {r s : State} (h : Keep r s) (n : Nat) (line : Nat) : Keep r (State.l1Inv s n line) := by
  unfold State.l1Inv
  try dsimp only
  repeat' first
    | with_reducible assumption
    | with_reducible exact Keep.refl _
    | with_reducible apply State.l1Flush_keep
    | with_reducible apply State.setTile_keep
    | simp only [keep_mk]
    | split
    | dsimp only

theorem State.l1FlushAll_keep {r s : State} (h : Keep r s) (n : Nat) : Keep r (State.l1FlushAll s n) := by
  unfold State.l1FlushAll
  try dsimp only
  repeat' first
    | with_reducible assumption
    | with_reducible exact Keep.refl _
    | with_reducible apply State.l1Flush_keep
    | with_reducible refine Keep.foldl ?_ (fun _ _ _ => ?_)
    | with_reducible refine Keep.foldl_fst ?_ (fun _ _ _ => ?_)
    | split
    | dsimp only

theorem State.l1InvAll_keep {r s : State} (h : Keep r s) (n : Nat) : Keep r (State.l1InvAll s n) := by
  unfold State.l1InvAll
  try dsimp only
  repeat' first
    | with_reducible assumption
    | with_reducible exact Keep.refl _
    | with_reducible apply State.l1Inv_keep
    | with_reducible refine Keep.foldl ?_ (fun _ _ _ => ?_)
    | with_reducible refine Keep.foldl_fst ?_ (fun _ _ _ => ?_)
    | split
    | dsimp only

end Sys2Proof.Machine
end

