-- ==== Sys2Proof/Laws/KeepSpeedwell.lean ====
section
/-!
SUPPORT. The operations of Machine/Speedwell.lean keep the queue, the canonical forms and the freshness of free values.
-/

namespace Sys2Proof.Machine

open Sys2Proof

theorem State.spwRead_keep {r s : State} (h : Keep r s) (a : Nat) (n : Nat) : Keep r (State.spwRead s a n).1 := by
  unfold State.spwRead
  try dsimp only
  repeat' first
    | with_reducible assumption
    | with_reducible exact Keep.refl _
    | with_reducible apply State.busRead_keep
    | simp only [keep_mk]
    | with_reducible refine Keep.fst_eq (by assumption) ?_
    | split
    | dsimp only

theorem State.spwStore_keep {r s : State} (h : Keep r s) (a : Nat) (n : Nat) (v : Nat) : Keep r (State.spwStore s a n v) := by
  unfold State.spwStore
  try dsimp only
  repeat' first
    | with_reducible assumption
    | with_reducible exact Keep.refl _
    | with_reducible apply State.busWrite_keep
    | with_reducible refine Keep.fst_eq (by assumption) ?_
    | split
    | dsimp only

theorem State.objFetch_keep {r s : State} (h : Keep r s) (o : Nat) : Keep r (State.objFetch s o) := by
  unfold State.objFetch
  try dsimp only
  repeat' first
    | with_reducible assumption
    | with_reducible exact Keep.refl _
    | with_reducible apply State.spwRead_keep
    | simp only [keep_mk]
    | with_reducible refine Keep.fst_eq (by assumption) ?_
    | split
    | dsimp only

theorem State.setObj_keep {r s : State} (h : Keep r s) (o : Nat) (v : SpwObj) : Keep r (State.setObj s o v) := by
  unfold State.setObj
  try dsimp only
  repeat' first
    | with_reducible assumption
    | with_reducible exact Keep.refl _
    | with_reducible apply State.spwStore_keep
    | simp only [keep_mk]
    | split
    | dsimp only

theorem State.word_keep {r s : State} (h : Keep r s) (o : Nat) (gen : Nat) (S : Nat) : Keep r (State.word s o gen S) := by
  unfold State.word
  try dsimp only
  repeat' first
    | with_reducible assumption
    | with_reducible exact Keep.refl _
    | with_reducible apply State.spwStore_keep
    | split
    | dsimp only

theorem State.setDir_keep {r s : State} (h : Keep r s) (i v : Nat) : Keep r (State.setDir s i v) := keep_mem h _ _

theorem State.unhold_keep {r s : State} (h : Keep r s) (i : Nat) : Keep r (State.unhold s i) := by
  unfold State.unhold
  try dsimp only
  repeat' first
    | with_reducible assumption
    | with_reducible exact Keep.refl _
    | with_reducible apply State.dirtyKey_keep
    | with_reducible apply State.putOne_keep
    | with_reducible apply State.setPois_keep
    | simp only [keep_mk]
    | with_reducible refine Keep.foldl ?_ (fun _ _ _ => ?_)
    | with_reducible refine Keep.foldl_fst ?_ (fun _ _ _ => ?_)
    | split
    | dsimp only

theorem State.settleRange_keep {r s : State} (h : Keep r s) (a : Nat) (len : Nat) : Keep r (State.settleRange s a len) := by
  unfold State.settleRange
  try dsimp only
  repeat' first
    | with_reducible assumption
    | with_reducible exact Keep.refl _
    | with_reducible apply State.settle_keep
    | simp only [keep_mk]
    | with_reducible refine Keep.foldl ?_ (fun _ _ _ => ?_)
    | with_reducible refine Keep.foldl_fst ?_ (fun _ _ _ => ?_)
    | split
    | dsimp only

/-- A granule's cells and poison moved. -/
theorem keep_copy {r s : State} (h : Keep r s) (src dst len : Nat) :
    Keep r { s with mem := cellCopy s.mem src dst len, poison := poisCopy s.poison src dst len } :=
  Keep.wf h rfl rfl (fun c => mwf_foldl_mset (d := (0 : Byte)) _ _ _ (mwf_filter _ c))
    (fun c => mwf_foldl_mset _ _ _ (mwf_filter _ c)) id id id id

theorem State.copyGran_keep {r s : State} (h : Keep r s) (src dst : Nat) : Keep r (State.copyGran s src dst) := by
  unfold State.copyGran
  extract_lets lines poisoned seen s' s0 s1 s2
  have h' : Keep r s' := Keep.foldl h (fun _ _ ht => State.lineFetch_keep ht _ _)
  have h0 : Keep r s0 := keep_copy h' _ _ _
  have h1 : Keep r s1 := Keep.ite (fun _ => Keep.foldl h0 (fun _ _ ht => State.setPois_keep ht _ _)) (fun _ => h0)
  have h2 : Keep r s2 := State.wrap_keep (Keep.ite (fun _ => State.wrap_keep h1 _ _ _) (fun _ => h1)) _ _ _
  exact Keep.ite (fun _ => State.bump_keep h2 _ _) (fun _ => h2)

theorem State.copyUp_keep {r s : State} (h : Keep r s) (o : Nat) (i : Nat) : Keep r (State.copyUp s o i) := by
  unfold State.copyUp
  try dsimp only
  repeat' first
    | with_reducible assumption
    | with_reducible exact Keep.refl _
    | with_reducible refine Keep.ite (fun _ => ?_) (fun _ => ?_)
    | with_reducible apply State.copyGran_keep
    | with_reducible apply State.settleRange_keep
    | split
    | dsimp only

theorem State.copyDown_keep {r s : State} (h : Keep r s) (o i : Nat) : Keep r (State.copyDown s o i) := by
  unfold State.copyDown
  dsimp only
  refine State.copyGran_keep (keep_gdirty ?_ _ _) _ _
  exact Keep.ite (fun _ => h) (fun _ => State.settleRange_keep (State.settleRange_keep h _ _) _ _)

theorem State.framesTake_keep {r s : State} (h : Keep r s) (n : Nat) : Keep r (State.framesTake s n) := by
  unfold State.framesTake
  try dsimp only
  repeat' first
    | with_reducible assumption
    | with_reducible exact Keep.refl _
    | with_reducible apply State.wr_keep
    | split
    | dsimp only

theorem State.framesGive_keep {r s : State} (h : Keep r s) (n : Nat) : Keep r (State.framesGive s n) := by
  unfold State.framesGive
  try dsimp only
  repeat' first
    | with_reducible assumption
    | with_reducible exact Keep.refl _
    | with_reducible apply State.wr_keep
    | split
    | dsimp only

theorem State.freeSpace_keep {r s : State} (h : Keep r s) (o : Nat) : Keep r (State.freeSpace s o) := by
  unfold State.freeSpace
  try dsimp only
  repeat' first
    | with_reducible assumption
    | with_reducible exact Keep.refl _
    | with_reducible refine Keep.ite (fun _ => ?_) (fun _ => ?_)
    | with_reducible apply State.framesGive_keep
    | with_reducible apply State.unhold_keep
    | with_reducible apply State.setDir_keep
    | with_reducible refine Keep.foldl ?_ (fun _ _ _ => ?_)
    | with_reducible refine Keep.foldl_fst ?_ (fun _ _ _ => ?_)
    | split
    | dsimp only

theorem State.setRun_keep {r s : State} (h : Keep r s) (rx : Option SpwRun) : Keep r (State.setRun s rx) := by
  unfold State.setRun
  try dsimp only
  repeat' first
    | with_reducible assumption
    | with_reducible exact Keep.refl _
    | simp only [keep_mk]
    | split
    | dsimp only

theorem State.objWord_keep {r s : State} (h : Keep r s) (o : Nat) (v : SpwObj) (S : Nat) : Keep r (State.objWord s o v S) := by
  unfold State.objWord
  try dsimp only
  repeat' first
    | with_reducible assumption
    | with_reducible exact Keep.refl _
    | with_reducible apply State.word_keep
    | with_reducible apply State.setObj_keep
    | simp only [keep_mk]
    | split
    | dsimp only

theorem State.objAbsent_keep {r s : State} (h : Keep r s) (o : Nat) : Keep r (State.objAbsent s o) := by
  unfold State.objAbsent
  try dsimp only
  repeat' first
    | with_reducible assumption
    | with_reducible exact Keep.refl _
    | with_reducible apply State.objWord_keep
    | with_reducible apply State.freeSpace_keep
    | split
    | dsimp only

theorem State.objEvict_keep {r s : State} (h : Keep r s) (o : Nat) : Keep r (State.objEvict s o) := by
  unfold State.objEvict
  try dsimp only
  repeat' first
    | with_reducible assumption
    | with_reducible exact Keep.refl _
    | with_reducible refine Keep.ite (fun _ => ?_) (fun _ => ?_)
    | with_reducible apply State.bump_keep
    | with_reducible apply State.setObj_keep
    | with_reducible apply State.objAbsent_keep
    | with_reducible apply State.objWord_keep
    | simp only [keep_mk]
    | split
    | dsimp only

theorem State.objRelease_keep {r s : State} (h : Keep r s) (o : Nat) (cancel : Bool) (evictDone : Bool) : Keep r (State.objRelease s o cancel evictDone) := by
  unfold State.objRelease
  try dsimp only
  repeat' first
    | with_reducible assumption
    | with_reducible exact Keep.refl _
    | with_reducible refine Keep.ite (fun _ => ?_) (fun _ => ?_)
    | with_reducible apply State.bump_keep
    | with_reducible apply State.setObj_keep
    | with_reducible apply State.objWord_keep
    | with_reducible apply State.objEvict_keep
    | simp only [keep_mk]
    | split
    | dsimp only

theorem State.objAcquire_keep {r s : State} (h : Keep r s) (o : Nat) (keep : Bool) : Keep r (State.objAcquire s o keep) := by
  unfold State.objAcquire
  try dsimp only
  repeat' first
    | with_reducible assumption
    | with_reducible exact Keep.refl _
    | with_reducible refine Keep.ite (fun _ => ?_) (fun _ => ?_)
    | with_reducible apply State.objWord_keep
    | with_reducible apply State.setObj_keep
    | simp only [keep_mk]
    | split
    | dsimp only

theorem State.objWriteback_keep {r s : State} (h : Keep r s) (o : Nat) : Keep r (State.objWriteback s o) := by
  unfold State.objWriteback
  try dsimp only
  repeat' first
    | with_reducible assumption
    | with_reducible exact Keep.refl _
    | with_reducible apply State.setObj_keep
    | simp only [keep_mk]
    | split
    | dsimp only

theorem State.cancelAll_keep {r s : State} (h : Keep r s) (o : Nat) (a2 : Nat) : Keep r (State.cancelAll s o a2) := by
  induction a2 generalizing s o with
  | zero => exact h
  | succ k ih =>
    unfold State.cancelAll
    try dsimp only
    repeat' first
      | with_reducible assumption
      | with_reducible exact Keep.refl _
      | with_reducible apply State.objRelease_keep
      | with_reducible apply ih
      | split
      | dsimp only

theorem State.runEnd_keep {r s : State} (h : Keep r s) (status : Nat) (detail : Nat) : Keep r (State.runEnd s status detail) := by
  unfold State.runEnd
  try dsimp only
  repeat' first
    | with_reducible assumption
    | with_reducible exact Keep.refl _
    | with_reducible apply State.bumpBy_keep
    | with_reducible apply State.cancelAll_keep
    | with_reducible apply State.wr_keep
    | with_reducible apply State.setRun_keep
    | with_reducible apply State.served_keep
    | simp only [keep_mk]
    | with_reducible refine Keep.foldl ?_ (fun _ _ _ => ?_)
    | with_reducible refine Keep.foldl_fst ?_ (fun _ _ _ => ?_)
    | split
    | dsimp only

theorem State.spwCheck_keep {r s : State} (h : Keep r s) : Keep r (State.spwCheck s) := by
  unfold State.spwCheck
  try dsimp only
  repeat' first
    | with_reducible assumption
    | with_reducible exact Keep.refl _
    | with_reducible refine Keep.ite (fun _ => ?_) (fun _ => ?_)
    | with_reducible apply State.setRun_keep
    | with_reducible apply State.runEnd_keep
    | simp only [keep_mk]
    | split
    | dsimp only

theorem State.spwCommit_keep {r s : State} (h : Keep r s) (tile : Nat) (num : Nat) : Keep r (State.spwCommit s tile num) := by
  unfold State.spwCommit
  try dsimp only
  repeat' first
    | with_reducible assumption
    | with_reducible exact Keep.refl _
    | with_reducible refine Keep.ite (fun _ => ?_) (fun _ => ?_)
    | with_reducible apply State.setRun_keep
    | simp only [keep_mk]
    | split
    | dsimp only

theorem State.lateOne_keep {r s : State} (h : Keep r s) (e : SpwEnt) : Keep r (State.lateOne s e) := by
  unfold State.lateOne
  try dsimp only
  repeat' first
    | with_reducible assumption
    | with_reducible exact Keep.refl _
    | with_reducible refine Keep.ite (fun _ => ?_) (fun _ => ?_)
    | with_reducible apply State.bump_keep
    | with_reducible apply State.setReg_keep
    | with_reducible apply State.word_keep
    | split
    | dsimp only

theorem State.spwOpen_keep {r s : State} (h : Keep r s) (tile : Nat) (num : Nat) : Keep r (State.spwOpen s tile num) := by
  unfold State.spwOpen
  try dsimp only
  repeat' first
    | with_reducible assumption
    | with_reducible exact Keep.refl _
    | with_reducible refine Keep.ite (fun _ => ?_) (fun _ => ?_)
    | with_reducible apply State.lateOne_keep
    | with_reducible apply State.setRun_keep
    | simp only [keep_mk]
    | with_reducible refine Keep.foldl ?_ (fun _ _ _ => ?_)
    | with_reducible refine Keep.foldl_fst ?_ (fun _ _ _ => ?_)
    | split
    | dsimp only

theorem State.pacerLost_keep {r s : State} (h : Keep r s) (tile : Nat) : Keep r (State.pacerLost s tile) := by
  unfold State.pacerLost
  try dsimp only
  repeat' first
    | with_reducible assumption
    | with_reducible exact Keep.refl _
    | with_reducible refine Keep.ite (fun _ => ?_) (fun _ => ?_)
    | with_reducible apply State.runEnd_keep
    | simp only [keep_mk]
    | split
    | dsimp only

theorem State.spwWarm_keep {r s : State} (h : Keep r s) : Keep r (State.spwWarm s) := by
  unfold State.spwWarm
  try dsimp only
  repeat' first
    | with_reducible assumption
    | with_reducible exact Keep.refl _
    | with_reducible refine Keep.ite (fun _ => ?_) (fun _ => ?_)
    | with_reducible apply State.setDir_keep
    | with_reducible apply State.unhold_keep
    | simp only [keep_mk]
    | with_reducible refine Keep.foldl ?_ (fun _ _ _ => ?_)
    | with_reducible refine Keep.foldl_fst ?_ (fun _ _ _ => ?_)
    | split
    | dsimp only

theorem State.tierLock_keep {r s : State} (h : Keep r s) : Keep r (State.tierLock s) := by
  unfold State.tierLock
  try dsimp only
  repeat' first
    | with_reducible assumption
    | with_reducible exact Keep.refl _
    | with_reducible refine Keep.ite (fun _ => ?_) (fun _ => ?_)
    | with_reducible apply State.wr_keep
    | split
    | dsimp only

theorem State.tierCfgWrite_keep {r s : State} (h : Keep r s) (v : Word) : Keep r (State.tierCfgWrite s v) := by
  unfold State.tierCfgWrite
  try dsimp only
  repeat' first
    | with_reducible assumption
    | with_reducible exact Keep.refl _
    | with_reducible refine Keep.ite (fun _ => ?_) (fun _ => ?_)
    | with_reducible apply State.wr_keep
    | with_reducible apply State.tierLock_keep
    | split
    | dsimp only

theorem execSpwTierLock_keep {r s : State} (h : Keep r s) (cfg : Word) : KeepN r (execSpwTierLock cfg s) := by
  unfold execSpwTierLock
  try dsimp only
  repeat' first
    | with_reducible assumption
    | with_reducible exact Keep.refl _
    | with_reducible refine KeepN.next ?_
    | with_reducible apply State.tierLock_keep
    | with_reducible apply State.tierCfgWrite_keep
    | split
    | dsimp only

theorem State.spwRebuild_keep {r s : State} (h : Keep r s) : Keep r (State.spwRebuild s) := by
  unfold State.spwRebuild
  refine Keep.ite (fun _ => h) (fun _ => ?_)
  extract_lets objs s' named drop s1 _sp s2
  have h' : Keep r s' := Keep.ite (fun _ => Keep.foldl h (fun _ _ ht => State.objFetch_keep ht _)) (fun _ => h)
  have hd : ∀ t i, Keep r t → Keep r (drop t i) := by
    intro t i ht
    refine Keep.ite (fun _ => ?_) (fun _ => ht)
    extract_lets key t1
    have h1 : Keep r t1 := Keep.ite (fun _ => State.copyGran_keep (keep_gdirty ht _ _) _ _) (fun _ => ht)
    rw [keep_mk]
    exact State.setDir_keep h1 _ _
  have h1 : Keep r s1 := Keep.ite (fun _ => Keep.foldl h' (fun t i ht => hd t i ht)) (fun _ => h')
  have h2 : Keep r s2 := by
    show Keep r { s1 with spw := { s1.spw with fresh := false } }
    rw [keep_mk]; exact h1
  exact Keep.ite (fun _ => State.wr_keep h2 _ _ _) (fun _ => h2)

theorem execSchedule_keep {r s : State} (h : Keep r s) : KeepN r (execSchedule s) := by
  unfold execSchedule
  try dsimp only
  repeat' first
    | with_reducible assumption
    | with_reducible exact Keep.refl _
    | with_reducible refine Keep.ite (fun _ => ?_) (fun _ => ?_)
    | with_reducible refine KeepN.next ?_
    | with_reducible refine KeepN.ite (fun _ => ?_) (fun _ => ?_)
    | with_reducible apply State.deferWork_keep
    | with_reducible apply State.wr_keep
    | with_reducible apply State.refuse_keep
    | with_reducible apply State.setRun_keep
    | with_reducible apply State.spwRebuild_keep
    | simp only [keep_mk]
    | with_reducible refine Keep.fst_eq (by assumption) ?_
    | split
    | dsimp only

theorem execScheduleEntryIssue_keep {r s : State} (h : Keep r s) : KeepN r (execScheduleEntryIssue s) := by
  unfold execScheduleEntryIssue
  try dsimp only
  repeat' first
    | with_reducible assumption
    | with_reducible exact Keep.refl _
    | with_reducible refine Keep.ite (fun _ => ?_) (fun _ => ?_)
    | with_reducible refine KeepN.next ?_
    | with_reducible refine KeepN.ite (fun _ => ?_) (fun _ => ?_)
    | with_reducible apply State.spwRead_keep
    | with_reducible apply State.objFetch_keep
    | with_reducible apply State.runEnd_keep
    | with_reducible apply State.setRun_keep
    | simp only [keep_mk]
    | with_reducible refine Keep.fst_eq (by assumption) ?_
    | split
    | dsimp only

theorem State.entDone_keep {r s : State} (h : Keep r s) (e : SpwEnt) : Keep r (State.entDone s e) := by
  unfold State.entDone
  try dsimp only
  repeat' first
    | with_reducible assumption
    | with_reducible exact Keep.refl _
    | with_reducible refine Keep.ite (fun _ => ?_) (fun _ => ?_)
    | with_reducible apply State.setRun_keep
    | simp only [keep_mk]
    | split
    | dsimp only

theorem execAcquire_keep {r s : State} (h : Keep r s) (object : BitVec 12) : KeepN r (execAcquire object s) := by
  unfold execAcquire
  try dsimp only
  repeat' first
    | with_reducible assumption
    | with_reducible exact Keep.refl _
    | with_reducible refine KeepN.next ?_
    | with_reducible apply State.spwCheck_keep
    | with_reducible apply State.entDone_keep
    | with_reducible apply State.objAcquire_keep
    | simp only [keep_mk]
    | split
    | dsimp only

theorem execRelease_keep {r s : State} (h : Keep r s) (object : BitVec 12) : KeepN r (execRelease object s) := by
  unfold execRelease
  try dsimp only
  repeat' first
    | with_reducible assumption
    | with_reducible exact Keep.refl _
    | with_reducible refine KeepN.next ?_
    | with_reducible apply State.spwCheck_keep
    | with_reducible apply State.entDone_keep
    | with_reducible apply State.objRelease_keep
    | simp only [keep_mk]
    | split
    | dsimp only

theorem execCancel_keep {r s : State} (h : Keep r s) (object : BitVec 12) : KeepN r (execCancel object s) := by
  unfold execCancel
  try dsimp only
  repeat' first
    | with_reducible assumption
    | with_reducible exact Keep.refl _
    | with_reducible refine KeepN.next ?_
    | with_reducible apply State.spwCheck_keep
    | with_reducible apply State.entDone_keep
    | with_reducible apply State.objRelease_keep
    | simp only [keep_mk]
    | split
    | dsimp only

theorem execWriteback_keep {r s : State} (h : Keep r s) (object : BitVec 12) : KeepN r (execWriteback object s) := by
  unfold execWriteback
  try dsimp only
  repeat' first
    | with_reducible assumption
    | with_reducible exact Keep.refl _
    | with_reducible refine KeepN.next ?_
    | with_reducible apply State.spwCheck_keep
    | with_reducible apply State.entDone_keep
    | with_reducible apply State.objWriteback_keep
    | simp only [keep_mk]
    | split
    | dsimp only

theorem execEvict_keep {r s : State} (h : Keep r s) (object : BitVec 12) : KeepN r (execEvict object s) := by
  unfold execEvict
  try dsimp only
  repeat' first
    | with_reducible assumption
    | with_reducible exact Keep.refl _
    | with_reducible refine Keep.ite (fun _ => ?_) (fun _ => ?_)
    | with_reducible refine KeepN.next ?_
    | with_reducible refine KeepN.ite (fun _ => ?_) (fun _ => ?_)
    | with_reducible apply State.spwCheck_keep
    | with_reducible apply State.entDone_keep
    | with_reducible apply State.objEvict_keep
    | simp only [keep_mk]
    | split
    | dsimp only

theorem execSpaceGrant_keep {r s : State} (h : Keep r s) : KeepN r (execSpaceGrant s) := by
  unfold execSpaceGrant
  try dsimp only
  repeat' first
    | with_reducible assumption
    | with_reducible exact Keep.refl _
    | with_reducible refine Keep.ite (fun _ => ?_) (fun _ => ?_)
    | with_reducible refine KeepN.next ?_
    | with_reducible refine KeepN.ite (fun _ => ?_) (fun _ => ?_)
    | with_reducible apply State.runEnd_keep
    | with_reducible apply State.setDir_keep
    | with_reducible apply State.setObj_keep
    | with_reducible apply State.framesTake_keep
    | simp only [keep_mk]
    | with_reducible refine Keep.foldl ?_ (fun _ _ _ => ?_)
    | with_reducible refine Keep.foldl_fst ?_ (fun _ _ _ => ?_)
    | split
    | dsimp only

theorem State.stallEnd_keep {r s : State} (h : Keep r s) (o : Nat) : Keep r (State.stallEnd s o) := by
  unfold State.stallEnd
  try dsimp only
  repeat' first
    | with_reducible assumption
    | with_reducible exact Keep.refl _
    | with_reducible refine Keep.ite (fun _ => ?_) (fun _ => ?_)
    | with_reducible apply State.fresh_keep
    | with_reducible apply State.wrap_keep
    | simp only [keep_mk]
    | with_reducible refine Keep.snd_eq (by assumption) ?_
    | split
    | dsimp only

theorem State.promoted_keep {r s : State} (h : Keep r s) (o : Nat) : Keep r (State.promoted s o) := by
  unfold State.promoted
  extract_lets v g s1 s2 s3
  have h1 : Keep r s1 := Keep.ite (fun _ => Keep.foldl h (fun _ _ ht => State.setDir_keep ht _ _)) (fun _ => h)
  have h2 : Keep r s2 := Keep.foldl h1 (fun _ _ ht =>
    Keep.ite (fun _ => State.unhold_keep (keep_gdirty ht _ _) _) (fun _ => keep_gdirty ht _ _))
  have h3 : Keep r s3 := State.objWord_keep h2 _ _ _
  exact State.stallEnd_keep (Keep.ite (fun _ => State.bump_keep h3 _ _) (fun _ => h3)) _

theorem execGranuleCopyComplete_keep {r s : State} (h : Keep r s) (object : BitVec 12) : KeepN r (execGranuleCopyComplete object s) := by
  unfold execGranuleCopyComplete
  try dsimp only
  repeat' first
    | with_reducible assumption
    | with_reducible exact Keep.refl _
    | with_reducible refine Keep.ite (fun _ => ?_) (fun _ => ?_)
    | with_reducible refine KeepN.next ?_
    | with_reducible refine KeepN.ite (fun _ => ?_) (fun _ => ?_)
    | with_reducible apply State.setObj_keep
    | with_reducible apply State.copyUp_keep
    | with_reducible apply State.spwCheck_keep
    | with_reducible apply State.promoted_keep
    | with_reducible apply State.objAbsent_keep
    | with_reducible apply State.copyDown_keep
    | with_reducible apply State.stallEnd_keep
    | with_reducible apply State.bump_keep
    | with_reducible apply State.objWord_keep
    | simp only [keep_mk]
    | split
    | dsimp only

theorem execCopyFault_keep {r s : State} (h : Keep r s) (object : BitVec 12) : KeepN r (execCopyFault object s) := by
  unfold execCopyFault
  try dsimp only
  repeat' first
    | with_reducible assumption
    | with_reducible exact Keep.refl _
    | with_reducible refine Keep.ite (fun _ => ?_) (fun _ => ?_)
    | with_reducible refine KeepN.next ?_
    | with_reducible refine KeepN.ite (fun _ => ?_) (fun _ => ?_)
    | with_reducible apply State.runEnd_keep
    | with_reducible apply State.setObj_keep
    | simp only [keep_mk]
    | split
    | dsimp only

theorem execSpwClearFailed_keep {r s : State} (h : Keep r s) : KeepN r (execSpwClearFailed s) := by
  unfold execSpwClearFailed
  try dsimp only
  repeat' first
    | with_reducible assumption
    | with_reducible exact Keep.refl _
    | with_reducible refine KeepN.next ?_
    | with_reducible apply State.spwCheck_keep
    | with_reducible apply State.setObj_keep
    | with_reducible apply State.freeSpace_keep
    | simp only [keep_mk]
    | with_reducible refine Keep.foldl ?_ (fun _ _ _ => ?_)
    | with_reducible refine Keep.foldl_fst ?_ (fun _ _ _ => ?_)
    | split
    | dsimp only

theorem execSpwAbort_keep {r s : State} (h : Keep r s) : KeepN r (execSpwAbort s) := by
  unfold execSpwAbort
  try dsimp only
  repeat' first
    | with_reducible assumption
    | with_reducible exact Keep.refl _
    | with_reducible refine KeepN.next ?_
    | with_reducible apply State.runEnd_keep
    | split
    | dsimp only

end Sys2Proof.Machine
end

