-- ==== Sys2Proof/Laws/KeepEpoch.lean ====
section
/-!
SUPPORT. The operations of Machine/Epoch.lean keep the queue, the canonical forms and the freshness of free values.
-/

namespace Sys2Proof.Machine

open Sys2Proof

theorem State.setEpoSt_keep {r s : State} (h : Keep r s) (n : Nat) (st : Nat) : Keep r (State.setEpoSt s n st) := by
  unfold State.setEpoSt
  try dsimp only
  repeat' first
    | with_reducible assumption
    | with_reducible exact Keep.refl _
    | with_reducible apply State.wr_keep
    | split
    | dsimp only

theorem State.setEpo_keep {r s : State} (h : Keep r s) (n : Nat) (e : EpoSt) : Keep r (State.setEpo s n e) := by
  unfold State.setEpo
  try dsimp only
  repeat' first
    | with_reducible assumption
    | with_reducible exact Keep.refl _
    | with_reducible apply State.setTile_keep
    | simp only [keep_mk]
    | split
    | dsimp only

theorem State.gapDirty_keep {r s : State} (h : Keep r s) (n : Nat) : Keep r (State.gapDirty s n) := by
  unfold State.gapDirty
  try dsimp only
  repeat' first
    | with_reducible assumption
    | with_reducible exact Keep.refl _
    | with_reducible refine Keep.ite (fun _ => ?_) (fun _ => ?_)
    | with_reducible apply State.wr_keep
    | split
    | dsimp only

theorem State.setGuard_keep {r s : State} (h : Keep r s) (n : Nat) (g : Nat) (lo : Nat) (hi : Nat) : Keep r (State.setGuard s n g lo hi) := by
  unfold State.setGuard
  try dsimp only
  repeat' first
    | with_reducible assumption
    | with_reducible exact Keep.refl _
    | with_reducible apply State.wr_keep
    | split
    | dsimp only

theorem State.clearGuards_keep {r s : State} (h : Keep r s) (n : Nat) : Keep r (State.clearGuards s n) := by
  unfold State.clearGuards
  try dsimp only
  repeat' first
    | with_reducible assumption
    | with_reducible exact Keep.refl _
    | with_reducible apply State.setGuard_keep
    | with_reducible refine Keep.foldl ?_ (fun _ _ _ => ?_)
    | with_reducible refine Keep.foldl_fst ?_ (fun _ _ _ => ?_)
    | split
    | dsimp only

theorem State.memRmw_keep {r s : State} (h : Keep r s) (die : Nat) (pa : Nat) (size : Nat) (f : Nat → Nat) (op : Nat) (v : Nat) (ag : optParam (Option Nat) none) : Keep r (State.memRmw s die pa size f op v ag).1 := by
  unfold State.memRmw
  try dsimp only
  repeat' first
    | with_reducible assumption
    | with_reducible exact Keep.refl _
    | with_reducible refine Keep.ite (fun _ => ?_) (fun _ => ?_)
    | with_reducible refine Keep.fst_ite (fun _ => ?_) (fun _ => ?_)
    | with_reducible apply State.fresh_keep
    | with_reducible apply State.fgnAtomic_keep
    | with_reducible apply State.busRead_keep
    | with_reducible apply State.busWrite_keep
    | simp only [keep_mk]
    | with_reducible refine Keep.fst_eq (by assumption) ?_
    | with_reducible refine Keep.snd_eq (by assumption) ?_
    | split
    | dsimp only

theorem State.memAmo_keep {r s : State} (h : Keep r s) (die : Nat) (pa : Nat) (size : Nat) (op : Nat) (v : Nat) (ag : optParam (Option Nat) none) : Keep r (State.memAmo s die pa size op v ag).1 := by
  unfold State.memAmo
  try dsimp only
  repeat' first
    | with_reducible assumption
    | with_reducible exact Keep.refl _
    | with_reducible apply State.memRmw_keep
    | with_reducible refine Keep.fst_eq (by assumption) ?_
    | split
    | dsimp only

theorem State.memFadd_keep {r s : State} (h : Keep r s) (die : Nat) (pa : Nat) (aux : Nat) (v : Nat) : Keep r (State.memFadd s die pa aux v).1 := by
  unfold State.memFadd
  try dsimp only
  repeat' first
    | with_reducible assumption
    | with_reducible exact Keep.refl _
    | with_reducible apply State.memRmw_keep
    | with_reducible refine Keep.fst_eq (by assumption) ?_
    | split
    | dsimp only

theorem State.applyEnt_keep {r s : State} (h : Keep r s) (n : Nat) (e : JEnt) (failed : Option Nat) : Keep r (State.applyEnt s n e failed).1 := by
  unfold State.applyEnt
  try dsimp only
  repeat' first
    | with_reducible assumption
    | with_reducible exact Keep.refl _
    | with_reducible refine Keep.ite (fun _ => ?_) (fun _ => ?_)
    | with_reducible refine Keep.fst_ite (fun _ => ?_) (fun _ => ?_)
    | with_reducible apply State.fgnAtomic_keep
    | with_reducible apply State.ledgerAdd_keep
    | with_reducible apply State.memAmo_keep
    | with_reducible apply State.served_keep
    | with_reducible apply State.memFadd_keep
    | simp only [keep_mk]
    | with_reducible refine Keep.fst_eq (by assumption) ?_
    | split
    | dsimp only

theorem State.journalFull_keep {r s : State} (h : Keep r s) (n : Nat) : Keep r (State.journalFull s n) := by
  unfold State.journalFull
  try dsimp only
  repeat' first
    | with_reducible assumption
    | with_reducible exact Keep.refl _
    | with_reducible apply State.bump_keep
    | with_reducible apply State.wr_keep
    | split
    | dsimp only

theorem State.effectEnt_keep {r s : State} (h : Keep r s) (n : Nat) (e : JEnt) : Keep r (State.effectEnt s n e).1 := by
  unfold State.effectEnt
  try dsimp only
  repeat' first
    | with_reducible assumption
    | with_reducible exact Keep.refl _
    | with_reducible refine Keep.ite (fun _ => ?_) (fun _ => ?_)
    | with_reducible refine Keep.fst_ite (fun _ => ?_) (fun _ => ?_)
    | with_reducible apply State.wr_keep
    | with_reducible apply State.setEpo_keep
    | with_reducible apply State.applyEnt_keep
    | with_reducible apply State.journalFull_keep
    | with_reducible apply State.gapDirty_keep
    | simp only [keep_mk]
    | with_reducible refine Keep.fst_eq (by assumption) ?_
    | split
    | dsimp only

theorem State.semRelease_keep {r s : State} (h : Keep r s) (n : Nat) (pa : Nat) (v : Nat) : Keep r (State.semRelease s n pa v).1 := by
  unfold State.semRelease
  try dsimp only
  repeat' first
    | with_reducible assumption
    | with_reducible exact Keep.refl _
    | with_reducible apply State.effectEnt_keep
    | with_reducible refine Keep.fst_eq (by assumption) ?_
    | split
    | dsimp only

theorem State.tileDone_keep {r s : State} (h : Keep r s) (n : Nat) (w : Work) (pos : Nat) (status : Nat) (detail : Nat) : Keep r (State.tileDone s n w pos status detail) := by
  unfold State.tileDone
  try dsimp only
  repeat' first
    | with_reducible assumption
    | with_reducible exact Keep.refl _
    | with_reducible apply State.effectEnt_keep
    | with_reducible refine Keep.fst_eq (by assumption) ?_
    | split
    | dsimp only

theorem State.seqRun_keep {r s : State} (h : Keep r s) (n : Nat) : Keep r (State.seqRun s n) := by
  unfold State.seqRun
  try dsimp only
  repeat' first
    | with_reducible assumption
    | with_reducible exact Keep.refl _
    | with_reducible apply State.wr_keep
    | split
    | dsimp only

theorem State.seqPc_keep {r s : State} (h : Keep r s) (n : Nat) (pc : Int) : Keep r (State.seqPc s n pc) := by
  unfold State.seqPc
  try dsimp only
  repeat' first
    | with_reducible assumption
    | with_reducible exact Keep.refl _
    | with_reducible apply State.wr_keep
    | with_reducible apply State.setTile_keep
    | simp only [keep_mk]
    | split
    | dsimp only

theorem State.seqResume_keep {r s : State} (h : Keep r s) (n : Nat) (gd : Nat) (v : Word) : Keep r (State.seqResume s n gd v) := by
  unfold State.seqResume
  try dsimp only
  repeat' first
    | with_reducible assumption
    | with_reducible exact Keep.refl _
    | with_reducible refine Keep.ite (fun _ => ?_) (fun _ => ?_)
    | with_reducible apply State.setTile_keep
    | with_reducible apply State.seqPc_keep
    | with_reducible apply State.seqRun_keep
    | simp only [keep_mk]
    | split
    | dsimp only

theorem State.seqRestart_keep {r s : State} (h : Keep r s) (n : Nat) : Keep r (State.seqRestart s n) := by
  unfold State.seqRestart
  try dsimp only
  repeat' first
    | with_reducible assumption
    | with_reducible exact Keep.refl _
    | with_reducible apply State.wr_keep
    | with_reducible apply State.seqRun_keep
    | with_reducible apply State.setTile_keep
    | simp only [keep_mk]
    | split
    | dsimp only

theorem State.umb0Wake_keep {r s : State} (h : Keep r s) (n : Nat) (done : Bool) : Keep r (State.umb0Wake s n done) := by
  unfold State.umb0Wake
  try dsimp only
  repeat' first
    | with_reducible assumption
    | with_reducible exact Keep.refl _
    | with_reducible refine Keep.ite (fun _ => ?_) (fun _ => ?_)
    | with_reducible apply State.setTile_keep
    | simp only [keep_mk]
    | split
    | dsimp only

theorem State.epoOpen_keep {r s : State} (h : Keep r s) (n : Nat) (who : Nat) : Keep r (State.epoOpen s n who) := by
  unfold State.epoOpen
  try dsimp only
  repeat' first
    | with_reducible assumption
    | with_reducible exact Keep.refl _
    | with_reducible refine Keep.ite (fun _ => ?_) (fun _ => ?_)
    | with_reducible apply State.wr_keep
    | with_reducible apply State.setEpoSt_keep
    | with_reducible apply State.setEpo_keep
    | with_reducible apply State.spwOpen_keep
    | simp only [keep_mk]
    | split
    | dsimp only

theorem State.epoSeal_keep {r s : State} (h : Keep r s) (n : Nat) (who : Nat) : Keep r (State.epoSeal s n who) := by
  unfold State.epoSeal
  try dsimp only
  repeat' first
    | with_reducible assumption
    | with_reducible exact Keep.refl _
    | with_reducible refine Keep.ite (fun _ => ?_) (fun _ => ?_)
    | with_reducible apply State.setEpoSt_keep
    | with_reducible apply State.setEpo_keep
    | simp only [keep_mk]
    | split
    | dsimp only

theorem State.dropRetained_keep {r s : State} (h : Keep r s) (n : Nat) : Keep r (State.dropRetained s n) := by
  unfold State.dropRetained
  try dsimp only
  repeat' first
    | with_reducible assumption
    | with_reducible exact Keep.refl _
    | with_reducible refine Keep.ite (fun _ => ?_) (fun _ => ?_)
    | with_reducible apply State.setTile_keep
    | simp only [keep_mk]
    | with_reducible refine Keep.foldl ?_ (fun _ _ _ => ?_)
    | with_reducible refine Keep.foldl_fst ?_ (fun _ _ _ => ?_)
    | split
    | dsimp only

theorem State.epoClose_keep {r s : State} (h : Keep r s) (n : Nat) : Keep r (State.epoClose s n) := by
  unfold State.epoClose
  try dsimp only
  repeat' first
    | with_reducible assumption
    | with_reducible exact Keep.refl _
    | with_reducible apply State.wr_keep
    | with_reducible apply State.setEpo_keep
    | simp only [keep_mk]
    | with_reducible refine Keep.foldl ?_ (fun _ _ _ => ?_)
    | with_reducible refine Keep.foldl_fst ?_ (fun _ _ _ => ?_)
    | split
    | dsimp only

theorem State.commitPoint_keep {r s : State} (h : Keep r s) (n : Nat) (us : Nat) : Keep r (State.commitPoint s n us) := by
  unfold State.commitPoint
  try dsimp only
  repeat' first
    | with_reducible assumption
    | with_reducible exact Keep.refl _
    | with_reducible refine Keep.ite (fun _ => ?_) (fun _ => ?_)
    | with_reducible apply State.epoClose_keep
    | with_reducible apply State.setEpo_keep
    | with_reducible apply State.wr_keep
    | with_reducible apply State.event_keep
    | with_reducible apply State.bump_keep
    | with_reducible apply State.seqResume_keep
    | with_reducible apply State.umb0Wake_keep
    | with_reducible apply State.seqRestart_keep
    | with_reducible apply State.spwCommit_keep
    | with_reducible apply State.dropRetained_keep
    | simp only [keep_mk]
    | split
    | dsimp only

theorem execStartRecordWritten_keep {r s : State} (h : Keep r s) (n : TileId) : KeepN r (execStartRecordWritten n s) := by
  unfold execStartRecordWritten
  try dsimp only
  repeat' first
    | with_reducible assumption
    | with_reducible exact Keep.refl _
    | with_reducible refine Keep.ite (fun _ => ?_) (fun _ => ?_)
    | with_reducible refine KeepN.next ?_
    | with_reducible refine KeepN.ite (fun _ => ?_) (fun _ => ?_)
    | with_reducible apply State.setEpo_keep
    | with_reducible apply State.seqResume_keep
    | with_reducible apply State.umb0Wake_keep
    | simp only [keep_mk]
    | split
    | dsimp only

theorem execEpochOverrun_keep {r s : State} (h : Keep r s) (n : TileId) : KeepN r (execEpochOverrun n s) := by
  unfold execEpochOverrun
  try dsimp only
  repeat' first
    | with_reducible assumption
    | with_reducible exact Keep.refl _
    | with_reducible refine Keep.ite (fun _ => ?_) (fun _ => ?_)
    | with_reducible refine KeepN.next ?_
    | with_reducible refine KeepN.ite (fun _ => ?_) (fun _ => ?_)
    | with_reducible apply State.wr_keep
    | with_reducible apply State.event_keep
    | with_reducible apply State.bump_keep
    | split
    | dsimp only

theorem State.sealReleases_keep {r s : State} (h : Keep r s) (n : Nat) : Keep r (State.sealReleases s n) := by
  unfold State.sealReleases
  try dsimp only
  repeat' first
    | with_reducible assumption
    | with_reducible exact Keep.refl _
    | with_reducible apply State.effectEnt_keep
    | with_reducible refine Keep.foldl ?_ (fun _ _ _ => ?_)
    | with_reducible refine Keep.foldl_fst ?_ (fun _ _ _ => ?_)
    | with_reducible refine Keep.fst_eq (by assumption) ?_
    | split
    | dsimp only

theorem execJournalSealWrite_keep {r s : State} (h : Keep r s) (n : TileId) : KeepN r (execJournalSealWrite n s) := by
  unfold execJournalSealWrite
  try dsimp only
  repeat' first
    | with_reducible assumption
    | with_reducible exact Keep.refl _
    | with_reducible refine Keep.ite (fun _ => ?_) (fun _ => ?_)
    | with_reducible refine KeepN.next ?_
    | with_reducible refine KeepN.ite (fun _ => ?_) (fun _ => ?_)
    | with_reducible apply State.sealReleases_keep
    | with_reducible apply State.l1FlushAll_keep
    | with_reducible apply State.setEpo_keep
    | simp only [keep_mk]
    | split
    | dsimp only

theorem execCommitPoint_keep {r s : State} (h : Keep r s) (n : TileId) (us : BitVec 16) : KeepN r (execCommitPoint n us s) := by
  unfold execCommitPoint
  try dsimp only
  repeat' first
    | with_reducible assumption
    | with_reducible exact Keep.refl _
    | with_reducible refine Keep.ite (fun _ => ?_) (fun _ => ?_)
    | with_reducible refine KeepN.next ?_
    | with_reducible refine KeepN.ite (fun _ => ?_) (fun _ => ?_)
    | with_reducible apply State.commitPoint_keep
    | split
    | dsimp only

theorem State.published_keep {r s : State} (h : Keep r s) (n : Nat) (j : Journal) (rx : List Journal) : Keep r (State.published s n j rx) := by
  unfold State.published
  try dsimp only
  repeat' first
    | with_reducible assumption
    | with_reducible exact Keep.refl _
    | with_reducible refine Keep.ite (fun _ => ?_) (fun _ => ?_)
    | with_reducible apply State.setEpo_keep
    | simp only [keep_mk]
    | split
    | dsimp only

theorem State.entryFailAt_keep {r s : State} (h : Keep r s) (n : Nat) (j : Journal) (rx : List Journal) (i : Nat) : Keep r (State.entryFailAt s n j rx i) := by
  unfold State.entryFailAt
  try dsimp only
  repeat' first
    | with_reducible assumption
    | with_reducible exact Keep.refl _
    | with_reducible apply State.event_keep
    | with_reducible apply State.bump_keep
    | with_reducible apply State.published_keep
    | simp only [keep_mk]
    | split
    | dsimp only

theorem State.entryFail_keep {r s : State} (h : Keep r s) (n : Nat) (j : Journal) (rx : List Journal) : Keep r (State.entryFail s n j rx) := by
  unfold State.entryFail
  try dsimp only
  repeat' first
    | with_reducible assumption
    | with_reducible exact Keep.refl _
    | with_reducible apply State.entryFailAt_keep
    | split
    | dsimp only

theorem State.pubAnswer_keep {r s : State} (h : Keep r s) (hit : Nat × Nat × Nat → Bool) (ok : Bool) : Keep r (State.pubAnswer s hit ok) := by
  unfold State.pubAnswer
  try dsimp only
  repeat' first
    | with_reducible assumption
    | with_reducible exact Keep.refl _
    | with_reducible refine Keep.ite (fun _ => ?_) (fun _ => ?_)
    | with_reducible apply State.published_keep
    | with_reducible apply State.entryFailAt_keep
    | simp only [keep_mk]
    | with_reducible refine Keep.foldl ?_ (fun _ _ _ => ?_)
    | with_reducible refine Keep.foldl_fst ?_ (fun _ _ _ => ?_)
    | split
    | dsimp only

theorem execJournalEntryPublish_keep {r s : State} (h : Keep r s) (n : TileId) : KeepN r (execJournalEntryPublish n s) := by
  unfold execJournalEntryPublish
  try dsimp only
  repeat' first
    | with_reducible assumption
    | with_reducible exact Keep.refl _
    | with_reducible refine Keep.ite (fun _ => ?_) (fun _ => ?_)
    | with_reducible refine KeepN.next ?_
    | with_reducible refine KeepN.ite (fun _ => ?_) (fun _ => ?_)
    | with_reducible apply State.event_keep
    | with_reducible apply State.bump_keep
    | with_reducible apply State.published_keep
    | with_reducible apply State.applyEnt_keep
    | with_reducible apply State.fgnTx_keep
    | with_reducible apply State.entryFail_keep
    | simp only [keep_mk]
    | with_reducible refine Keep.fst_eq (by assumption) ?_
    | with_reducible refine Keep.snd_eq (by assumption) ?_
    | split
    | dsimp only

theorem execJournalEntryFail_keep {r s : State} (h : Keep r s) (n : TileId) : KeepN r (execJournalEntryFail n s) := by
  unfold execJournalEntryFail
  try dsimp only
  repeat' first
    | with_reducible assumption
    | with_reducible exact Keep.refl _
    | with_reducible refine KeepN.next ?_
    | with_reducible apply State.entryFail_keep
    | simp only [keep_mk]
    | split
    | dsimp only

theorem execEpoCtlRelease_keep {r s : State} (h : Keep r s) (n : TileId) : KeepN r (execEpoCtlRelease n s) := by
  unfold execEpoCtlRelease
  try dsimp only
  repeat' first
    | with_reducible assumption
    | with_reducible exact Keep.refl _
    | with_reducible refine KeepN.next ?_
    | with_reducible apply State.wr_keep
    | split
    | dsimp only

theorem execEpoCtlFlush_keep {r s : State} (h : Keep r s) (n : TileId) : KeepN r (execEpoCtlFlush n s) := by
  unfold execEpoCtlFlush
  try dsimp only
  repeat' first
    | with_reducible assumption
    | with_reducible exact Keep.refl _
    | with_reducible refine Keep.ite (fun _ => ?_) (fun _ => ?_)
    | with_reducible refine KeepN.next ?_
    | with_reducible refine KeepN.ite (fun _ => ?_) (fun _ => ?_)
    | with_reducible apply State.setTile_keep
    | with_reducible apply State.groupBusy_keep
    | with_reducible apply State.served_keep
    | with_reducible apply State.wr_keep
    | simp only [keep_mk]
    | with_reducible refine Keep.foldl ?_ (fun _ _ _ => ?_)
    | with_reducible refine Keep.foldl_fst ?_ (fun _ _ _ => ?_)
    | split
    | dsimp only

theorem State.epoModeWrite_keep {r s : State} (h : Keep r s) (v : Word) : Keep r (State.epoModeWrite s v) := by
  unfold State.epoModeWrite
  try dsimp only
  repeat' first
    | with_reducible assumption
    | with_reducible exact Keep.refl _
    | with_reducible refine Keep.ite (fun _ => ?_) (fun _ => ?_)
    | with_reducible apply State.wr_keep
    | split
    | dsimp only

theorem execEpoModeWrite_keep {r s : State} (h : Keep r s) (value : Word) : KeepN r (execEpoModeWrite value s) := by
  unfold execEpoModeWrite
  try dsimp only
  repeat' first
    | with_reducible assumption
    | with_reducible exact Keep.refl _
    | with_reducible refine KeepN.next ?_
    | with_reducible apply State.epoModeWrite_keep
    | split
    | dsimp only

end Sys2Proof.Machine
end

