-- ==== Sys2Proof/Laws/KeepFacet.lean ====
section
/-!
SUPPORT. The operations of Machine/Facet.lean keep the queue, the canonical forms and the freshness of free values.
-/

namespace Sys2Proof.Machine

open Sys2Proof

theorem State.storeImage_keep {r s : State} (h : Keep r s) (u : Nat) (img : List Byte) : Keep r (State.storeImage s u img) := by
  unfold State.storeImage
  try dsimp only
  repeat' first
    | with_reducible assumption
    | with_reducible exact Keep.refl _
    | with_reducible apply State.memWrite_keep
    | split
    | dsimp only

theorem State.moveImage_keep {r s : State} (h : Keep r s) (hx : Nat) (f : Facet) (u : Nat) : Keep r (State.moveImage s hx f u) := by
  unfold State.moveImage
  try dsimp only
  repeat' first
    | with_reducible assumption
    | with_reducible exact Keep.refl _
    | with_reducible refine Keep.ite (fun _ => ?_) (fun _ => ?_)
    | with_reducible apply State.memWrite_keep
    | simp only [keep_mk]
    | with_reducible refine Keep.foldl ?_ (fun _ _ _ => ?_)
    | with_reducible refine Keep.foldl_fst ?_ (fun _ _ _ => ?_)
    | split
    | dsimp only

theorem State.compact_keep {r s : State} (h : Keep r s) : Keep r (State.compact s) := by
  unfold State.compact
  try dsimp only
  repeat' first
    | with_reducible assumption
    | with_reducible exact Keep.refl _
    | with_reducible apply State.moveImage_keep
    | with_reducible refine Keep.foldl ?_ (fun _ _ _ => ?_)
    | with_reducible refine Keep.foldl_fst ?_ (fun _ _ _ => ?_)
    | split
    | dsimp only

theorem State.setMeasure_keep {r s : State} (h : Keep r s) (i : Nat) (d : W256) : Keep r (State.setMeasure s i d) := by
  unfold State.setMeasure
  try dsimp only
  repeat' first
    | with_reducible assumption
    | with_reducible exact Keep.refl _
    | with_reducible apply State.setReg_keep
    | split
    | dsimp only

theorem State.extend_keep {r s : State} (h : Keep r s) (i : Nat) (d : W256) : Keep r (State.extend s i d) := by
  unfold State.extend
  try dsimp only
  repeat' first
    | with_reducible assumption
    | with_reducible exact Keep.refl _
    | with_reducible apply State.setMeasure_keep
    | split
    | dsimp only

theorem State.placeImage_keep {r s : State} (h : Keep r s) (img : List Byte) : Keep r (State.placeImage s img).1 := by
  unfold State.placeImage
  try dsimp only
  repeat' first
    | with_reducible assumption
    | with_reducible exact Keep.refl _
    | with_reducible apply State.storeImage_keep
    | with_reducible apply State.compact_keep
    | simp only [keep_mk]
    | split
    | dsimp only

theorem State.registerWork_keep {r s : State} (h : Keep r s) (w : Work) (hostBytes : List Byte) : Keep r (State.registerWork s w hostBytes) := by
  unfold State.registerWork
  try dsimp only
  repeat' first
    | with_reducible assumption
    | with_reducible exact Keep.refl _
    | with_reducible refine Keep.ite (fun _ => ?_) (fun _ => ?_)
    | with_reducible apply State.refuse_keep
    | with_reducible apply State.storeImage_keep
    | with_reducible apply State.finish_keep
    | with_reducible apply State.placeImage_keep
    | with_reducible apply State.extend_keep
    | simp only [keep_mk]
    | with_reducible refine Keep.fst_eq (by assumption) ?_
    | split
    | dsimp only

theorem State.unregisterWork_keep {r s : State} (h : Keep r s) (w : Work) : Keep r (State.unregisterWork s w) := by
  unfold State.unregisterWork
  try dsimp only
  repeat' first
    | with_reducible assumption
    | with_reducible exact Keep.refl _
    | with_reducible refine Keep.ite (fun _ => ?_) (fun _ => ?_)
    | with_reducible apply State.refuse_keep
    | with_reducible apply State.served_keep
    | simp only [keep_mk]
    | split
    | dsimp only

end Sys2Proof.Machine
end

