-- ==== Sys2Proof/Laws/KeepTile.lean ====
section
/-!
SUPPORT. The operations of Machine/Tile.lean keep the queue, the canonical forms and the freshness of free values.
-/

namespace Sys2Proof.Machine

open Sys2Proof

theorem State.setPort_keep {r s : State} (h : Keep r s) (n : Nat) (p : Nat) (x : PortSt) : Keep r (State.setPort s n p x) := by
  unfold State.setPort
  try dsimp only
  repeat' first
    | with_reducible assumption
    | with_reducible exact Keep.refl _
    | with_reducible apply State.setTile_keep
    | simp only [keep_mk]
    | split
    | dsimp only

theorem State.setPrsPort_keep {r s : State} (h : Keep r s) (n : Nat) (p : Nat) (x : PrsPort) : Keep r (State.setPrsPort s n p x) := by
  unfold State.setPrsPort
  try dsimp only
  repeat' first
    | with_reducible assumption
    | with_reducible exact Keep.refl _
    | simp only [keep_mk]
    | split
    | dsimp only

theorem State.recredit_keep {r s : State} (h : Keep r s) (n : Nat) (p : Nat) : Keep r (State.recredit s n p) := by
  unfold State.recredit
  try dsimp only
  repeat' first
    | with_reducible assumption
    | with_reducible exact Keep.refl _
    | with_reducible refine Keep.ite (fun _ => ?_) (fun _ => ?_)
    | with_reducible apply State.setPort_keep
    | simp only [keep_mk]
    | split
    | dsimp only

theorem State.refreshPort_keep {r s : State} (h : Keep r s) (n : Nat) (p : Nat) : Keep r (State.refreshPort s n p) := by
  unfold State.refreshPort
  try dsimp only
  repeat' first
    | with_reducible assumption
    | with_reducible exact Keep.refl _
    | with_reducible refine Keep.ite (fun _ => ?_) (fun _ => ?_)
    | with_reducible apply State.wr_keep
    | with_reducible apply State.bump_keep
    | with_reducible apply State.recredit_keep
    | split
    | dsimp only

theorem State.refreshList_keep {r s : State} (h : Keep r s) (l : List (Nat × Nat)) : Keep r (State.refreshList s l) := by
  unfold State.refreshList
  try dsimp only
  repeat' first
    | with_reducible assumption
    | with_reducible exact Keep.refl _
    | with_reducible apply State.refreshPort_keep
    | with_reducible refine Keep.foldl ?_ (fun _ _ _ => ?_)
    | with_reducible refine Keep.foldl_fst ?_ (fun _ _ _ => ?_)
    | split
    | dsimp only

theorem State.refreshPorts_keep {r s : State} (h : Keep r s) (n : Nat) : Keep r (State.refreshPorts s n) := by
  unfold State.refreshPorts
  try dsimp only
  repeat' first
    | with_reducible assumption
    | with_reducible exact Keep.refl _
    | with_reducible refine Keep.ite (fun _ => ?_) (fun _ => ?_)
    | with_reducible apply State.refreshPort_keep
    | with_reducible apply State.refreshList_keep
    | with_reducible refine Keep.foldl ?_ (fun _ _ _ => ?_)
    | with_reducible refine Keep.foldl_fst ?_ (fun _ _ _ => ?_)
    | split
    | dsimp only

theorem State.streamWake_keep {r s : State} (h : Keep r s) (n : Nat) : Keep r (State.streamWake s n) := by
  unfold State.streamWake
  try dsimp only
  repeat' first
    | with_reducible assumption
    | with_reducible exact Keep.refl _
    | with_reducible refine Keep.ite (fun _ => ?_) (fun _ => ?_)
    | with_reducible apply State.setTile_keep
    | simp only [keep_mk]
    | split
    | dsimp only

theorem State.accessErr_keep {r s : State} (h : Keep r s) (n : Nat) : Keep r (State.accessErr s n) := by
  unfold State.accessErr
  try dsimp only
  repeat' first
    | with_reducible assumption
    | with_reducible exact Keep.refl _
    | with_reducible apply State.bump_keep
    | split
    | dsimp only

theorem State.sendChunk_keep {r s : State} (h : Keep r s) (n : Nat) (p : Nat) (data : Line) (poison : Bool) : Keep r (State.sendChunk s n p data poison) := by
  unfold State.sendChunk
  try dsimp only
  repeat' first
    | with_reducible assumption
    | with_reducible exact Keep.refl _
    | with_reducible refine Keep.ite (fun _ => ?_) (fun _ => ?_)
    | with_reducible apply State.setPort_keep
    | with_reducible apply State.gapDirty_keep
    | with_reducible apply State.setEpo_keep
    | simp only [keep_mk]
    | split
    | dsimp only

theorem State.takeChunk_keep {r s : State} (h : Keep r s) (n : Nat) (p : Nat) : Keep r (State.takeChunk s n p) := by
  unfold State.takeChunk
  try dsimp only
  repeat' first
    | with_reducible assumption
    | with_reducible exact Keep.refl _
    | with_reducible apply State.gapDirty_keep
    | with_reducible apply State.setPort_keep
    | simp only [keep_mk]
    | split
    | dsimp only

theorem State.prsForward_keep {r s : State} (h : Keep r s) (n : Nat) (p : Nat) : Keep r (State.prsForward s n p) := by
  unfold State.prsForward
  try dsimp only
  repeat' first
    | with_reducible assumption
    | with_reducible exact Keep.refl _
    | with_reducible apply State.setPrsPort_keep
    | simp only [keep_mk]
    | split
    | dsimp only

theorem execStreamChunk_keep {r s : State} (h : Keep r s) (dst : StreamDst) : KeepN r (execStreamChunk dst s) := by
  unfold execStreamChunk
  try dsimp only
  repeat' first
    | with_reducible assumption
    | with_reducible exact Keep.refl _
    | with_reducible refine Keep.ite (fun _ => ?_) (fun _ => ?_)
    | with_reducible refine KeepN.next ?_
    | with_reducible refine KeepN.ite (fun _ => ?_) (fun _ => ?_)
    | with_reducible apply State.setPort_keep
    | with_reducible apply State.accessErr_keep
    | with_reducible apply State.streamWake_keep
    | with_reducible apply State.bump_keep
    | with_reducible apply State.setPrsPort_keep
    | with_reducible apply State.prsForward_keep
    | simp only [keep_mk]
    | split
    | dsimp only

theorem execStreamCredit_keep {r s : State} (h : Keep r s) (dst : StreamDst) : KeepN r (execStreamCredit dst s) := by
  unfold execStreamCredit
  try dsimp only
  repeat' first
    | with_reducible assumption
    | with_reducible exact Keep.refl _
    | with_reducible refine Keep.ite (fun _ => ?_) (fun _ => ?_)
    | with_reducible refine KeepN.next ?_
    | with_reducible refine KeepN.ite (fun _ => ?_) (fun _ => ?_)
    | with_reducible apply State.setPort_keep
    | with_reducible apply State.streamWake_keep
    | with_reducible apply State.setPrsPort_keep
    | simp only [keep_mk]
    | split
    | dsimp only

theorem execPrismRelease_keep {r s : State} (h : Keep r s) (n : TileId) (p : StreamPort) : KeepN r (execPrismRelease n p s) := by
  unfold execPrismRelease
  try dsimp only
  repeat' first
    | with_reducible assumption
    | with_reducible exact Keep.refl _
    | with_reducible refine Keep.ite (fun _ => ?_) (fun _ => ?_)
    | with_reducible refine KeepN.next ?_
    | with_reducible refine KeepN.ite (fun _ => ?_) (fun _ => ?_)
    | with_reducible apply State.bump_keep
    | with_reducible apply State.prsForward_keep
    | with_reducible apply State.setPrsPort_keep
    | simp only [keep_mk]
    | split
    | dsimp only

theorem execResendRequest_keep {r s : State} (h : Keep r s) (n : TileId) (p : StreamPort) : KeepN r (execResendRequest n p s) := by
  unfold execResendRequest
  try dsimp only
  repeat' first
    | with_reducible assumption
    | with_reducible exact Keep.refl _
    | with_reducible refine Keep.ite (fun _ => ?_) (fun _ => ?_)
    | with_reducible refine KeepN.next ?_
    | with_reducible refine KeepN.ite (fun _ => ?_) (fun _ => ?_)
    | with_reducible apply State.recredit_keep
    | simp only [keep_mk]
    | split
    | dsimp only

theorem execApertureAccess_keep {r s : State} (h : Keep r s) (src : Fin 3) (n : TileId) (off : BitVec 22) (len : BitVec 13) (write : Bool) (data : List Byte) : KeepN r (execApertureAccess src n off len write data s) := by
  unfold execApertureAccess
  try dsimp only
  repeat' first
    | with_reducible assumption
    | with_reducible exact Keep.refl _
    | with_reducible refine Keep.ite (fun _ => ?_) (fun _ => ?_)
    | with_reducible refine KeepN.next ?_
    | with_reducible refine KeepN.ite (fun _ => ?_) (fun _ => ?_)
    | with_reducible apply State.localWrite_keep
    | with_reducible apply State.localRead_keep
    | simp only [keep_mk]
    | with_reducible refine Keep.fst_eq (by assumption) ?_
    | split
    | dsimp only

theorem State.wqPop_keep {r s : State} (h : Keep r s) (n : Nat) (w : Work) : Keep r (State.wqPop s n w) := by
  unfold State.wqPop
  try dsimp only
  repeat' first
    | with_reducible assumption
    | with_reducible exact Keep.refl _
    | with_reducible apply State.groupBusy_keep
    | with_reducible apply State.setTile_keep
    | simp only [keep_mk]
    | split
    | dsimp only

theorem State.busyTile_keep {r s : State} (h : Keep r s) (n : Nat) : Keep r (State.busyTile s n) := by
  unfold State.busyTile
  try dsimp only
  repeat' first
    | with_reducible assumption
    | with_reducible exact Keep.refl _
    | with_reducible refine Keep.ite (fun _ => ?_) (fun _ => ?_)
    | with_reducible apply State.setTst_keep
    | split
    | dsimp only

theorem State.setDq_keep {r s : State} (h : Keep r s) (n : Nat) (q : Nat) (d : DmaQ) : Keep r (State.setDq s n q d) := by
  unfold State.setDq
  try dsimp only
  repeat' first
    | with_reducible assumption
    | with_reducible exact Keep.refl _
    | with_reducible apply State.wr_keep
    | with_reducible apply State.setTile_keep
    | simp only [keep_mk]
    | split
    | dsimp only

theorem State.takeWake_keep {r s : State} (h : Keep r s) (n : Nat) : Keep r (State.takeWake s n) := by
  unfold State.takeWake
  try dsimp only
  repeat' first
    | with_reducible assumption
    | with_reducible exact Keep.refl _
    | with_reducible refine Keep.ite (fun _ => ?_) (fun _ => ?_)
    | with_reducible apply State.setTile_keep
    | with_reducible apply State.wr_keep
    | with_reducible apply State.seqResume_keep
    | simp only [keep_mk]
    | split
    | dsimp only

theorem State.dispatch_keep {r s : State} (h : Keep r s) (n : Nat) : Keep r (State.dispatch s n) := by
  unfold State.dispatch
  try dsimp only
  repeat' first
    | with_reducible assumption
    | with_reducible exact Keep.refl _
    | with_reducible refine Keep.ite (fun _ => ?_) (fun _ => ?_)
    | with_reducible apply State.refuse_keep
    | with_reducible apply State.wqPop_keep
    | with_reducible apply State.setTile_keep
    | with_reducible apply State.busyTile_keep
    | with_reducible apply State.setDq_keep
    | with_reducible apply State.takeWake_keep
    | simp only [keep_mk]
    | split
    | dsimp only

theorem execWorkDispatch_keep {r s : State} (h : Keep r s) (n : TileId) : KeepN r (execWorkDispatch n s) := by
  unfold execWorkDispatch
  try dsimp only
  repeat' first
    | with_reducible assumption
    | with_reducible exact Keep.refl _
    | with_reducible refine KeepN.next ?_
    | with_reducible apply State.dispatch_keep
    | split
    | dsimp only

theorem execDma_keep {r s : State} (h : Keep r s) (n : TileId) : KeepN r (execDma n s) := by
  unfold execDma
  try dsimp only
  repeat' first
    | with_reducible assumption
    | with_reducible exact Keep.refl _
    | with_reducible refine Keep.ite (fun _ => ?_) (fun _ => ?_)
    | with_reducible refine KeepN.next ?_
    | with_reducible refine KeepN.ite (fun _ => ?_) (fun _ => ?_)
    | with_reducible apply State.dispatch_keep
    | split
    | dsimp only

theorem execFacetWork_keep {r s : State} (h : Keep r s) (n : TileId) : KeepN r (execFacetWork n s) := by
  unfold execFacetWork
  try dsimp only
  repeat' first
    | with_reducible assumption
    | with_reducible exact Keep.refl _
    | with_reducible refine Keep.ite (fun _ => ?_) (fun _ => ?_)
    | with_reducible refine KeepN.next ?_
    | with_reducible refine KeepN.ite (fun _ => ?_) (fun _ => ?_)
    | with_reducible apply State.dispatch_keep
    | split
    | dsimp only

theorem execTileIdle_keep {r s : State} (h : Keep r s) (n : TileId) : KeepN r (execTileIdle n s) := by
  unfold execTileIdle
  try dsimp only
  repeat' first
    | with_reducible assumption
    | with_reducible exact Keep.refl _
    | with_reducible refine Keep.ite (fun _ => ?_) (fun _ => ?_)
    | with_reducible refine KeepN.next ?_
    | with_reducible refine KeepN.ite (fun _ => ?_) (fun _ => ?_)
    | with_reducible apply State.setTst_keep
    | with_reducible apply State.wr_keep
    | with_reducible apply State.setTile_keep
    | simp only [keep_mk]
    | split
    | dsimp only

theorem State.refUp_keep {r s : State} (h : Keep r s) (hx : Nat) : Keep r (State.refUp s hx) := by
  unfold State.refUp
  try dsimp only
  repeat' first
    | with_reducible assumption
    | with_reducible exact Keep.refl _
    | simp only [keep_mk]
    | split
    | dsimp only

theorem State.refDown_keep {r s : State} (h : Keep r s) (hx : Nat) : Keep r (State.refDown s hx) := by
  unfold State.refDown
  try dsimp only
  repeat' first
    | with_reducible assumption
    | with_reducible exact Keep.refl _
    | simp only [keep_mk]
    | split
    | dsimp only

theorem State.unbind_keep {r s : State} (h : Keep r s) (n : Nat) : Keep r (State.unbind s n) := by
  unfold State.unbind
  try dsimp only
  repeat' first
    | with_reducible assumption
    | with_reducible exact Keep.refl _
    | with_reducible apply State.refDown_keep
    | with_reducible apply State.setTile_keep
    | simp only [keep_mk]
    | split
    | dsimp only

theorem State.bindServe_keep {r s : State} (h : Keep r s) (n : Nat) (w : Work) (hx : Nat) (ws : List Word) : Keep r (State.bindServe s n w hx ws) := by
  unfold State.bindServe
  try dsimp only
  repeat' first
    | with_reducible assumption
    | with_reducible exact Keep.refl _
    | with_reducible refine Keep.ite (fun _ => ?_) (fun _ => ?_)
    | with_reducible apply State.pacerLost_keep
    | with_reducible apply State.served_keep
    | with_reducible apply State.setTst_keep
    | with_reducible apply State.refUp_keep
    | with_reducible apply State.unbind_keep
    | with_reducible apply State.setTile_keep
    | with_reducible apply State.refreshList_keep
    | with_reducible apply State.refreshPorts_keep
    | with_reducible apply State.wr_keep
    | simp only [keep_mk]
    | split
    | dsimp only

theorem State.bindWork_keep {r s : State} (h : Keep r s) (n : Nat) (w : Work) : Keep r (State.bindWork s n w) := by
  unfold State.bindWork
  try dsimp only
  repeat' first
    | with_reducible assumption
    | with_reducible exact Keep.refl _
    | with_reducible refine Keep.ite (fun _ => ?_) (fun _ => ?_)
    | with_reducible apply State.setTile_keep
    | with_reducible apply State.refuse_keep
    | with_reducible apply State.vread_keep
    | with_reducible apply State.deferWork_keep
    | with_reducible apply State.wr_keep
    | with_reducible apply State.bindServe_keep
    | simp only [keep_mk]
    | with_reducible refine Keep.fst_eq (by assumption) ?_
    | split
    | dsimp only

theorem execBind_keep {r s : State} (h : Keep r s) (n : TileId) : KeepN r (execBind n s) := by
  unfold execBind
  try dsimp only
  repeat' first
    | with_reducible assumption
    | with_reducible exact Keep.refl _
    | with_reducible refine Keep.ite (fun _ => ?_) (fun _ => ?_)
    | with_reducible refine KeepN.next ?_
    | with_reducible refine KeepN.ite (fun _ => ?_) (fun _ => ?_)
    | with_reducible apply State.bindWork_keep
    | simp only [keep_mk]
    | split
    | dsimp only

theorem State.toUnbound_keep {r s : State} (h : Keep r s) (n : Nat) : Keep r (State.toUnbound s n) := by
  unfold State.toUnbound
  try dsimp only
  repeat' first
    | with_reducible assumption
    | with_reducible exact Keep.refl _
    | with_reducible apply State.unbind_keep
    | with_reducible apply State.setTile_keep
    | with_reducible apply State.refreshList_keep
    | with_reducible apply State.refreshPorts_keep
    | with_reducible apply State.setTst_keep
    | simp only [keep_mk]
    | split
    | dsimp only

theorem State.unbindWork_keep {r s : State} (h : Keep r s) (n : Nat) (w : Work) : Keep r (State.unbindWork s n w) := by
  unfold State.unbindWork
  try dsimp only
  repeat' first
    | with_reducible assumption
    | with_reducible exact Keep.refl _
    | with_reducible refine Keep.ite (fun _ => ?_) (fun _ => ?_)
    | with_reducible apply State.setTile_keep
    | with_reducible apply State.refuse_keep
    | with_reducible apply State.deferWork_keep
    | with_reducible apply State.wr_keep
    | with_reducible apply State.served_keep
    | with_reducible apply State.toUnbound_keep
    | simp only [keep_mk]
    | with_reducible refine Keep.fst_eq (by assumption) ?_
    | split
    | dsimp only

theorem execUnbind_keep {r s : State} (h : Keep r s) (n : TileId) : KeepN r (execUnbind n s) := by
  unfold execUnbind
  try dsimp only
  repeat' first
    | with_reducible assumption
    | with_reducible exact Keep.refl _
    | with_reducible refine Keep.ite (fun _ => ?_) (fun _ => ?_)
    | with_reducible refine KeepN.next ?_
    | with_reducible refine KeepN.ite (fun _ => ?_) (fun _ => ?_)
    | with_reducible apply State.unbindWork_keep
    | simp only [keep_mk]
    | split
    | dsimp only

theorem State.loadStore_keep {r s : State} (h : Keep r s) (n : Nat) (img : List Byte) : Keep r (State.loadStore s n img) := by
  unfold State.loadStore
  try dsimp only
  repeat' first
    | with_reducible assumption
    | with_reducible exact Keep.refl _
    | with_reducible refine Keep.ite (fun _ => ?_) (fun _ => ?_)
    | with_reducible apply State.setTile_keep
    | with_reducible apply State.tsWrite_keep
    | simp only [keep_mk]
    | with_reducible refine Keep.foldl ?_ (fun _ _ _ => ?_)
    | with_reducible refine Keep.foldl_fst ?_ (fun _ _ _ => ?_)
    | split
    | dsimp only

theorem State.loadFacet_keep {r s : State} (h : Keep r s) (n : Nat) (img : List Byte) : Keep r (State.loadFacet s n img) := by
  unfold State.loadFacet
  try dsimp only
  repeat' first
    | with_reducible assumption
    | with_reducible exact Keep.refl _
    | with_reducible apply State.loadStore_keep
    | with_reducible apply State.setTile_keep
    | with_reducible apply State.wr_keep
    | simp only [keep_mk]
    | with_reducible refine Keep.foldl ?_ (fun _ _ _ => ?_)
    | with_reducible refine Keep.foldl_fst ?_ (fun _ _ _ => ?_)
    | split
    | dsimp only

theorem State.freshPorts_keep {r s : State} (h : Keep r s) (n : Nat) : Keep r (State.freshPorts s n) := by
  unfold State.freshPorts
  try dsimp only
  repeat' first
    | with_reducible assumption
    | with_reducible exact Keep.refl _
    | with_reducible refine Keep.ite (fun _ => ?_) (fun _ => ?_)
    | with_reducible apply State.setTile_keep
    | with_reducible apply State.setPrsPort_keep
    | with_reducible apply State.wr_keep
    | simp only [keep_mk]
    | with_reducible refine Keep.foldl ?_ (fun _ _ _ => ?_)
    | with_reducible refine Keep.foldl_fst ?_ (fun _ _ _ => ?_)
    | split
    | dsimp only

theorem State.replayKernel_keep {r s : State} (h : Keep r s) (n : Nat) : Keep r (State.replayKernel s n) := by
  unfold State.replayKernel
  try dsimp only
  repeat' first
    | with_reducible assumption
    | with_reducible exact Keep.refl _
    | with_reducible refine Keep.ite (fun _ => ?_) (fun _ => ?_)
    | with_reducible apply State.setEpo_keep
    | simp only [keep_mk]
    | split
    | dsimp only

theorem State.restored_keep {r s : State} (h : Keep r s) (n : Nat) (rx : EpoRec) : Keep r (State.restored s n rx) := by
  unfold State.restored
  try dsimp only
  repeat' first
    | with_reducible assumption
    | with_reducible exact Keep.refl _
    | with_reducible apply State.setTile_keep
    | with_reducible apply State.wr_keep
    | with_reducible apply State.recredit_keep
    | simp only [keep_mk]
    | with_reducible refine Keep.foldl ?_ (fun _ _ _ => ?_)
    | with_reducible refine Keep.foldl_fst ?_ (fun _ _ _ => ?_)
    | split
    | dsimp only

theorem State.restore_keep {r s : State} (h : Keep r s) (n : Nat) (rx : EpoRec) (launch : State → Nat → Work → Bool → Nat → State)
    (hf : ∀ t n w b k, Keep r t → Keep r (launch t n w b k)) : Keep r (State.restore s n rx launch) := by
  unfold State.restore
  split
  · exact State.replayKernel_keep (hf _ _ _ _ _ (State.restored_keep h _ _)) _
  · exact State.restored_keep h _ _

theorem execRegister_keep {r s : State} (h : Keep r s) (hostBytes : List Byte) : KeepN r (execRegister hostBytes s) := by
  unfold execRegister
  try dsimp only
  repeat' first
    | with_reducible assumption
    | with_reducible exact Keep.refl _
    | with_reducible refine Keep.ite (fun _ => ?_) (fun _ => ?_)
    | with_reducible refine KeepN.next ?_
    | with_reducible refine KeepN.ite (fun _ => ?_) (fun _ => ?_)
    | with_reducible apply State.refuse_keep
    | with_reducible apply State.registerWork_keep
    | simp only [keep_mk]
    | split
    | dsimp only

theorem execUnregister_keep {r s : State} (h : Keep r s) : KeepN r (execUnregister s) := by
  unfold execUnregister
  try dsimp only
  repeat' first
    | with_reducible assumption
    | with_reducible exact Keep.refl _
    | with_reducible refine Keep.ite (fun _ => ?_) (fun _ => ?_)
    | with_reducible refine KeepN.next ?_
    | with_reducible refine KeepN.ite (fun _ => ?_) (fun _ => ?_)
    | with_reducible apply State.refuse_keep
    | with_reducible apply State.unregisterWork_keep
    | simp only [keep_mk]
    | split
    | dsimp only

end Sys2Proof.Machine
end

