-- ==== Sys2Proof/Laws/KeepDma.lean ====
section
/-!
SUPPORT. The operations of Machine/Dma.lean keep the queue, the canonical forms and the freshness of free values.
-/

namespace Sys2Proof.Machine

open Sys2Proof

theorem State.seqWake_keep {r s : State} (h : Keep r s) (n : Nat) : Keep r (State.seqWake s n) := by
  unfold State.seqWake
  try dsimp only
  repeat' first
    | with_reducible assumption
    | with_reducible exact Keep.refl _
    | with_reducible refine Keep.ite (fun _ => ?_) (fun _ => ?_)
    | with_reducible apply State.seqResume_keep
    | with_reducible apply State.seqRun_keep
    | split
    | dsimp only

theorem State.dmaRead_keep {r s : State} (h : Keep r s) (n : Nat) (pasid : Nat) (loc : Bool) (a : Nat) (len : Nat) : Keep r (State.dmaRead s n pasid loc a len).1 := by
  unfold State.dmaRead
  try dsimp only
  repeat' first
    | with_reducible assumption
    | with_reducible exact Keep.refl _
    | with_reducible refine Keep.ite (fun _ => ?_) (fun _ => ?_)
    | with_reducible refine Keep.fst_ite (fun _ => ?_) (fun _ => ?_)
    | with_reducible apply State.accessErr_keep
    | with_reducible apply State.vread_keep
    | simp only [keep_mk]
    | with_reducible refine Keep.fst_eq (by assumption) ?_
    | split
    | dsimp only

theorem State.dmaWrite_keep {r s : State} (h : Keep r s) (n : Nat) (pasid : Nat) (loc : Bool) (a : Nat) (bs : List Byte) (poison : Bool) : Keep r (State.dmaWrite s n pasid loc a bs poison).1 := by
  unfold State.dmaWrite
  try dsimp only
  repeat' first
    | with_reducible assumption
    | with_reducible exact Keep.refl _
    | with_reducible refine Keep.ite (fun _ => ?_) (fun _ => ?_)
    | with_reducible refine Keep.fst_ite (fun _ => ?_) (fun _ => ?_)
    | with_reducible apply State.accessErr_keep
    | with_reducible apply State.tsWrite_keep
    | with_reducible apply State.vwrite_keep
    | simp only [keep_mk]
    | with_reducible refine Keep.fst_eq (by assumption) ?_
    | split
    | dsimp only

theorem State.dmaRun_keep {r s : State} (h : Keep r s) (n : Nat) (q : Nat) (pasid : Nat) (d : W256) (src : Nat) (dst : Nat) (len : Nat) (a8 : Nat) : Keep r (State.dmaRun s n q pasid d src dst len a8).1 := by
  induction a8 generalizing s n q pasid d src dst len with
  | zero => exact h
  | succ k ih =>
    unfold State.dmaRun
    try dsimp only
    repeat' first
      | with_reducible assumption
      | with_reducible exact Keep.refl _
      | with_reducible refine Keep.ite (fun _ => ?_) (fun _ => ?_)
      | with_reducible refine Keep.fst_ite (fun _ => ?_) (fun _ => ?_)
      | with_reducible apply State.bump_keep
      | with_reducible apply State.dmaRead_keep
      | with_reducible apply State.dmaWrite_keep
      | with_reducible apply ih
      | simp only [keep_mk]
      | with_reducible refine Keep.fst_eq (by assumption) ?_
      | split
      | dsimp only

theorem State.dmaRowsFrom_keep {r s : State} (h : Keep r s) (n : Nat) (q : Nat) (pasid : Nat) (d : W256) (i : Nat) (a6 : Nat) : Keep r (State.dmaRowsFrom s n q pasid d i a6).1 := by
  induction a6 generalizing s n q pasid d i with
  | zero => exact h
  | succ k ih =>
    unfold State.dmaRowsFrom
    try dsimp only
    repeat' first
      | with_reducible assumption
      | with_reducible exact Keep.refl _
      | with_reducible apply State.dmaRun_keep
      | with_reducible apply ih
      | simp only [keep_mk]
      | with_reducible refine Keep.fst_eq (by assumption) ?_
      | split
      | dsimp only

theorem State.dmaFillRun_keep {r s : State} (h : Keep r s) (n : Nat) (pasid : Nat) (d : W256) (dst : Nat) (len : Nat) (a6 : Nat) : Keep r (State.dmaFillRun s n pasid d dst len a6).1 := by
  induction a6 generalizing s n pasid d dst len with
  | zero => exact h
  | succ k ih =>
    unfold State.dmaFillRun
    try dsimp only
    repeat' first
      | with_reducible assumption
      | with_reducible exact Keep.refl _
      | with_reducible refine Keep.ite (fun _ => ?_) (fun _ => ?_)
      | with_reducible refine Keep.fst_ite (fun _ => ?_) (fun _ => ?_)
      | with_reducible apply State.dmaWrite_keep
      | with_reducible apply ih
      | simp only [keep_mk]
      | with_reducible refine Keep.fst_eq (by assumption) ?_
      | split
      | dsimp only

theorem State.dmaMark_keep {r s : State} (h : Keep r s) (n : Nat) (q : Nat) (i : Nat) (moved : Bool) : Keep r (State.dmaMark s n q i moved) := by
  unfold State.dmaMark
  try dsimp only
  repeat' first
    | with_reducible assumption
    | with_reducible exact Keep.refl _
    | with_reducible apply State.setDq_keep
    | simp only [keep_mk]
    | split
    | dsimp only

theorem State.dmaStop_keep {r s : State} (h : Keep r s) (n : Nat) (q : Nat) (i : Nat) (code : Nat) (e : DmaEnt) : Keep r (State.dmaStop s n q i code e) := by
  unfold State.dmaStop
  try dsimp only
  repeat' first
    | with_reducible assumption
    | with_reducible exact Keep.refl _
    | with_reducible refine Keep.ite (fun _ => ?_) (fun _ => ?_)
    | with_reducible apply State.wr_keep
    | with_reducible apply State.dmaMark_keep
    | with_reducible apply State.refuse_keep
    | with_reducible apply State.served_keep
    | with_reducible apply State.seqWake_keep
    | simp only [keep_mk]
    | split
    | dsimp only

theorem State.dmaEffect_keep {r s : State} (h : Keep r s) (n : Nat) (q : Nat) (e : DmaEnt) : Keep r (State.dmaEffect s n q e).1 := by
  unfold State.dmaEffect
  try dsimp only
  repeat' first
    | with_reducible assumption
    | with_reducible exact Keep.refl _
    | with_reducible apply State.dmaRun_keep
    | with_reducible apply State.gapDirty_keep
    | with_reducible apply State.dmaRowsFrom_keep
    | with_reducible apply State.dmaFillRun_keep
    | simp only [keep_mk]
    | with_reducible refine Keep.fst_eq (by assumption) ?_
    | split
    | dsimp only

theorem State.dmaStart_keep {r s : State} (h : Keep r s) (n : Nat) (q : Nat) (op : Nat) : Keep r (State.dmaStart s n q op) := by
  unfold State.dmaStart
  try dsimp only
  repeat' first
    | with_reducible assumption
    | with_reducible exact Keep.refl _
    | with_reducible refine Keep.ite (fun _ => ?_) (fun _ => ?_)
    | with_reducible apply State.dmaStop_keep
    | with_reducible apply State.dmaEffect_keep
    | with_reducible apply State.dmaMark_keep
    | simp only [keep_mk]
    | with_reducible refine Keep.fst_eq (by assumption) ?_
    | split
    | dsimp only

theorem execDmaCopy_keep {r s : State} (h : Keep r s) (n : TileId) (q : DmaQueue) : KeepN r (execDmaCopy n q s) := by
  unfold execDmaCopy
  try dsimp only
  repeat' first
    | with_reducible assumption
    | with_reducible exact Keep.refl _
    | with_reducible refine KeepN.next ?_
    | with_reducible apply State.dmaStart_keep
    | split
    | dsimp only

theorem execDmaCopy2d_keep {r s : State} (h : Keep r s) (n : TileId) (q : DmaQueue) : KeepN r (execDmaCopy2d n q s) := by
  unfold execDmaCopy2d
  try dsimp only
  repeat' first
    | with_reducible assumption
    | with_reducible exact Keep.refl _
    | with_reducible refine KeepN.next ?_
    | with_reducible apply State.dmaStart_keep
    | split
    | dsimp only

theorem execDmaFill_keep {r s : State} (h : Keep r s) (n : TileId) (q : DmaQueue) : KeepN r (execDmaFill n q s) := by
  unfold execDmaFill
  try dsimp only
  repeat' first
    | with_reducible assumption
    | with_reducible exact Keep.refl _
    | with_reducible refine KeepN.next ?_
    | with_reducible apply State.dmaStart_keep
    | split
    | dsimp only

theorem execDmaFence_keep {r s : State} (h : Keep r s) (n : TileId) (q : DmaQueue) : KeepN r (execDmaFence n q s) := by
  unfold execDmaFence
  try dsimp only
  repeat' first
    | with_reducible assumption
    | with_reducible exact Keep.refl _
    | with_reducible refine Keep.ite (fun _ => ?_) (fun _ => ?_)
    | with_reducible refine KeepN.next ?_
    | with_reducible refine KeepN.ite (fun _ => ?_) (fun _ => ?_)
    | with_reducible apply State.dmaMark_keep
    | with_reducible apply State.dmaStop_keep
    | simp only [keep_mk]
    | split
    | dsimp only

theorem State.dmaSignal_keep {r s : State} (h : Keep r s) (n : Nat) (e : DmaEnt) : KeepF r (State.dmaSignal s n e) := by
  unfold State.dmaSignal
  try dsimp only
  repeat' first
    | with_reducible assumption
    | with_reducible exact Keep.refl _
    | with_reducible refine Keep.ite (fun _ => ?_) (fun _ => ?_)
    | with_reducible exact KeepF.none
    | with_reducible refine KeepF.some ?_
    | with_reducible refine KeepF.ite (fun _ => ?_) (fun _ => ?_)
    | with_reducible apply State.tsWrite_keep
    | with_reducible apply State.gapDirty_keep
    | with_reducible apply State.accessErr_keep
    | with_reducible apply State.takeFault_keep
    | with_reducible apply State.semRelease_keep
    | simp only [keep_mk]
    | with_reducible refine Keep.fst_eq (by assumption) ?_
    | split
    | dsimp only

theorem execDmaSignal_keep {r s : State} (h : Keep r s) (n : TileId) (q : DmaQueue) : KeepN r (execDmaSignal n q s) := by
  unfold execDmaSignal
  try dsimp only
  repeat' first
    | with_reducible assumption
    | with_reducible exact Keep.refl _
    | with_reducible refine Keep.ite (fun _ => ?_) (fun _ => ?_)
    | with_reducible refine KeepN.next ?_
    | with_reducible refine KeepN.ite (fun _ => ?_) (fun _ => ?_)
    | with_reducible apply State.dmaStop_keep
    | with_reducible apply State.dmaMark_keep
    | with_reducible apply State.dmaSignal_keep
    | simp only [keep_mk]
    | with_reducible refine KeepF.of_eq (by assumption) ?_
    | split
    | dsimp only

theorem execDmaDescriptorEnd_keep {r s : State} (h : Keep r s) (n : TileId) (q : DmaQueue) : KeepN r (execDmaDescriptorEnd n q s) := by
  unfold execDmaDescriptorEnd
  try dsimp only
  repeat' first
    | with_reducible assumption
    | with_reducible exact Keep.refl _
    | with_reducible refine Keep.ite (fun _ => ?_) (fun _ => ?_)
    | with_reducible refine KeepN.next ?_
    | with_reducible refine KeepN.ite (fun _ => ?_) (fun _ => ?_)
    | with_reducible apply State.wrap_keep
    | with_reducible apply State.setDq_keep
    | with_reducible apply State.served_keep
    | with_reducible apply State.seqWake_keep
    | simp only [keep_mk]
    | split
    | dsimp only

theorem execTilDmaResume_keep {r s : State} (h : Keep r s) (n : TileId) (q : DmaQueue) : KeepN r (execTilDmaResume n q s) := by
  unfold execTilDmaResume
  try dsimp only
  repeat' first
    | with_reducible assumption
    | with_reducible exact Keep.refl _
    | with_reducible refine Keep.ite (fun _ => ?_) (fun _ => ?_)
    | with_reducible refine KeepN.next ?_
    | with_reducible refine KeepN.ite (fun _ => ?_) (fun _ => ?_)
    | with_reducible apply State.apertureRefuse_keep
    | with_reducible apply State.seqWake_keep
    | with_reducible apply State.wr_keep
    | with_reducible apply State.setDq_keep
    | split
    | dsimp only

theorem State.discard_keep {r s : State} (h : Keep r s) (ds : DmaQ) : Keep r (State.discard s ds) := by
  unfold State.discard
  try dsimp only
  repeat' first
    | with_reducible assumption
    | with_reducible exact Keep.refl _
    | with_reducible apply State.served_keep
    | simp only [keep_mk]
    | with_reducible refine Keep.foldl ?_ (fun _ _ _ => ?_)
    | with_reducible refine Keep.foldl_fst ?_ (fun _ _ _ => ?_)
    | split
    | dsimp only

theorem State.dmaFlush_keep {r s : State} (h : Keep r s) (n : Nat) (q : Nat) : Keep r (State.dmaFlush s n q) := by
  unfold State.dmaFlush
  try dsimp only
  repeat' first
    | with_reducible assumption
    | with_reducible exact Keep.refl _
    | with_reducible apply State.setDq_keep
    | with_reducible apply State.discard_keep
    | with_reducible apply State.seqWake_keep
    | with_reducible apply State.wr_keep
    | split
    | dsimp only

theorem execTilDmaFlush_keep {r s : State} (h : Keep r s) (n : TileId) (q : DmaQueue) : KeepN r (execTilDmaFlush n q s) := by
  unfold execTilDmaFlush
  try dsimp only
  repeat' first
    | with_reducible assumption
    | with_reducible exact Keep.refl _
    | with_reducible refine Keep.ite (fun _ => ?_) (fun _ => ?_)
    | with_reducible refine KeepN.next ?_
    | with_reducible refine KeepN.ite (fun _ => ?_) (fun _ => ?_)
    | with_reducible apply State.apertureRefuse_keep
    | with_reducible apply State.dmaFlush_keep
    | split
    | dsimp only

theorem execWriteInline_keep {r s : State} (h : Keep r s) (n : TileId) : KeepN r (execWriteInline n s) := by
  unfold execWriteInline
  try dsimp only
  repeat' first
    | with_reducible assumption
    | with_reducible exact Keep.refl _
    | with_reducible refine Keep.ite (fun _ => ?_) (fun _ => ?_)
    | with_reducible refine KeepN.next ?_
    | with_reducible refine KeepN.ite (fun _ => ?_) (fun _ => ?_)
    | with_reducible apply State.setDq_keep
    | with_reducible apply State.refuse_keep
    | with_reducible apply State.served_keep
    | with_reducible apply State.vwrite_keep
    | with_reducible apply State.gapDirty_keep
    | with_reducible apply State.wrap_keep
    | simp only [keep_mk]
    | with_reducible refine Keep.fst_eq (by assumption) ?_
    | split
    | dsimp only

end Sys2Proof.Machine
end

