-- ==== Sys2Proof/Laws/KeepPrism.lean ====
section
/-!
SUPPORT. The operations of Machine/Prism.lean keep the queue, the canonical forms and the freshness of free values.
-/

namespace Sys2Proof.Machine

open Sys2Proof

theorem State.setPrism_keep {r s : State} (h : Keep r s) (d : Nat) (x : PrsSt) : Keep r (State.setPrism s d x) := by
  unfold State.setPrism
  try dsimp only
  repeat' first
    | with_reducible assumption
    | with_reducible exact Keep.refl _
    | simp only [keep_mk]
    | split
    | dsimp only

theorem State.setColl_keep {r s : State} (h : Keep r s) (d : Nat) (c : Nat) (x : Coll) : Keep r (State.setColl s d c x) := by
  unfold State.setColl
  try dsimp only
  repeat' first
    | with_reducible assumption
    | with_reducible exact Keep.refl _
    | with_reducible apply State.setPrism_keep
    | simp only [keep_mk]
    | split
    | dsimp only

theorem State.sympRefresh_keep {r s : State} (h : Keep r s) : Keep r (State.sympRefresh s) := by
  unfold State.sympRefresh
  try dsimp only
  repeat' first
    | with_reducible assumption
    | with_reducible exact Keep.refl _
    | with_reducible apply State.wr_keep
    | split
    | dsimp only

theorem State.colSend_keep {r s : State} (h : Keep r s) (x : Coll) (rank : Nat) (op : Nat) (aux : Nat) (addr : Nat) (data : List Line) (poison : Bool) : Keep r (State.colSend s x rank op aux addr data poison) := by
  unfold State.colSend
  try dsimp only
  repeat' first
    | with_reducible assumption
    | with_reducible exact Keep.refl _
    | with_reducible refine Keep.ite (fun _ => ?_) (fun _ => ?_)
    | with_reducible apply State.fgnReach_keep
    | with_reducible apply State.fgnSend_keep
    | simp only [keep_mk]
    | with_reducible refine Keep.fst_eq (by assumption) ?_
    | split
    | dsimp only

theorem State.colData_keep {r s : State} (h : Keep r s) (x : Coll) (rank : Nat) (chunk : Nat) (result : Bool) (c : List Byte × Bool) : Keep r (State.colData s x rank chunk result c) := by
  unfold State.colData
  try dsimp only
  repeat' first
    | with_reducible assumption
    | with_reducible exact Keep.refl _
    | with_reducible apply State.colSend_keep
    | split
    | dsimp only

theorem State.colShare_keep {r s : State} (h : Keep r s) (x : Coll) (k : Nat) : Keep r (State.colShare s x k) := by
  unfold State.colShare
  try dsimp only
  repeat' first
    | with_reducible assumption
    | with_reducible exact Keep.refl _
    | with_reducible refine Keep.ite (fun _ => ?_) (fun _ => ?_)
    | with_reducible apply State.colData_keep
    | simp only [keep_mk]
    | with_reducible refine Keep.foldl ?_ (fun _ _ _ => ?_)
    | with_reducible refine Keep.foldl_fst ?_ (fun _ _ _ => ?_)
    | split
    | dsimp only

theorem State.colTell_keep {r s : State} (h : Keep r s) (die : Nat) (comm : Nat) (k : Nat) : Keep r (State.colTell s die comm k) := by
  unfold State.colTell
  try dsimp only
  repeat' first
    | with_reducible assumption
    | with_reducible exact Keep.refl _
    | with_reducible refine Keep.ite (fun _ => ?_) (fun _ => ?_)
    | with_reducible apply State.colData_keep
    | with_reducible apply State.setColl_keep
    | simp only [keep_mk]
    | with_reducible refine Keep.foldl ?_ (fun _ _ _ => ?_)
    | with_reducible refine Keep.foldl_fst ?_ (fun _ _ _ => ?_)
    | split
    | dsimp only

theorem State.colPump_keep {r s : State} (h : Keep r s) (die : Nat) (comm : Nat) : Keep r (State.colPump s die comm) := by
  unfold State.colPump
  try dsimp only
  repeat' first
    | with_reducible assumption
    | with_reducible exact Keep.refl _
    | with_reducible refine Keep.ite (fun _ => ?_) (fun _ => ?_)
    | with_reducible apply State.setColl_keep
    | with_reducible apply State.setPrsPort_keep
    | with_reducible apply State.colShare_keep
    | with_reducible apply State.colTell_keep
    | simp only [keep_mk]
    | with_reducible refine Keep.foldl ?_ (fun _ _ _ => ?_)
    | with_reducible refine Keep.foldl_fst ?_ (fun _ _ _ => ?_)
    | split
    | dsimp only

/-- A semaphore release, as far as it holds a state. -/
def KeepM (r : State) : SemRes → Prop
  | .done s => Keep r s
  | .bad s => Keep r s
  | .wait => True

theorem KeepM.done {r s : State} (h : Keep r s) : KeepM r (.done s) := h
theorem KeepM.bad {r s : State} (h : Keep r s) : KeepM r (.bad s) := h
theorem KeepM.wait {r : State} : KeepM r .wait := trivial
theorem KeepM.of_done {r s : State} {x} (e : x = SemRes.done s) (h : KeepM r x) : Keep r s := by subst e; exact h
theorem KeepM.of_bad {r s : State} {x} (e : x = SemRes.bad s) (h : KeepM r x) : Keep r s := by subst e; exact h

theorem State.colSemaphore_keep {r s : State} (h : Keep r s) (die : Nat) (w : Work) : KeepM r (State.colSemaphore s die w) := by
  unfold State.colSemaphore
  dsimp only
  split
  · exact h
  · split
    · trivial
    · exact State.takeFault_keep h _ _ _ _
    · split
      · exact h
      · split
        · next e => exact Keep.fst_eq e (State.memAmo_keep h _ _ _ _ _)
        · next e => exact Keep.fst_eq e (State.memAmo_keep h _ _ _ _ _)

theorem State.colStart_keep {r s : State} (h : Keep r s) (die : Nat) (comm : Nat) : Keep r (State.colStart s die comm) := by
  unfold State.colStart
  try dsimp only
  repeat' first
    | with_reducible assumption
    | with_reducible exact Keep.refl _
    | with_reducible apply State.served_keep
    | with_reducible apply State.setPrism_keep
    | with_reducible apply State.wrap_keep
    | simp only [keep_mk]
    | split
    | dsimp only

theorem State.colEnd_keep {r s : State} (h : Keep r s) (die : Nat) (comm : Nat) (status : Nat) (detail : Nat) : Keep r (State.colEnd s die comm status detail) := by
  unfold State.colEnd
  try dsimp only
  repeat' first
    | with_reducible assumption
    | with_reducible exact Keep.refl _
    | with_reducible refine Keep.ite (fun _ => ?_) (fun _ => ?_)
    | with_reducible apply State.setPrism_keep
    | with_reducible apply State.wrap_keep
    | with_reducible apply State.wr_keep
    | with_reducible apply State.colStart_keep
    | with_reducible apply State.served_keep
    | with_reducible apply State.sympRefresh_keep
    | simp only [keep_mk]
    | split
    | dsimp only

theorem State.colAbort_keep {r s : State} (h : Keep r s) (die : Nat) (comm : Nat) (status : Nat) (detail : Nat) : Keep r (State.colAbort s die comm status detail) := by
  unfold State.colAbort
  try dsimp only
  repeat' first
    | with_reducible assumption
    | with_reducible exact Keep.refl _
    | with_reducible apply State.colSend_keep
    | with_reducible apply State.colEnd_keep
    | with_reducible apply State.bump_keep
    | simp only [keep_mk]
    | with_reducible refine Keep.foldl ?_ (fun _ _ _ => ?_)
    | with_reducible refine Keep.foldl_fst ?_ (fun _ _ _ => ?_)
    | split
    | dsimp only

theorem State.colRead_keep {r s : State} (h : Keep r s) (die : Nat) (pasid : Nat) (va : Nat) (left : Nat) (a5 : Nat) : Keep r (State.colRead s die pasid va left a5).1 := by
  induction a5 generalizing s die pasid va left with
  | zero => exact h
  | succ k ih =>
    unfold State.colRead
    try dsimp only
    repeat' first
      | with_reducible assumption
      | with_reducible exact Keep.refl _
      | with_reducible apply State.vread_keep
      | with_reducible apply ih
      | simp only [keep_mk]
      | with_reducible refine Keep.fst_eq (by assumption) ?_
      | split
      | dsimp only

theorem State.colInput_keep {r s : State} (h : Keep r s) (die : Nat) (comm : Nat) : Keep r (State.colInput s die comm) := by
  unfold State.colInput
  try dsimp only
  repeat' first
    | with_reducible assumption
    | with_reducible exact Keep.refl _
    | with_reducible refine Keep.ite (fun _ => ?_) (fun _ => ?_)
    | with_reducible apply State.colRead_keep
    | with_reducible apply State.colAbort_keep
    | with_reducible apply State.colShare_keep
    | with_reducible apply State.setColl_keep
    | simp only [keep_mk]
    | with_reducible refine Keep.foldl ?_ (fun _ _ _ => ?_)
    | with_reducible refine Keep.foldl_fst ?_ (fun _ _ _ => ?_)
    | with_reducible refine Keep.fst_eq (by assumption) ?_
    | split
    | dsimp only

theorem execCollective_keep {r s : State} (h : Keep r s) (die : DieId) : KeepN r (execCollective die s) := by
  unfold execCollective
  try dsimp only
  repeat' first
    | with_reducible assumption
    | with_reducible exact Keep.refl _
    | with_reducible refine Keep.ite (fun _ => ?_) (fun _ => ?_)
    | with_reducible refine KeepN.next ?_
    | with_reducible refine KeepN.ite (fun _ => ?_) (fun _ => ?_)
    | with_reducible refine KeepM.of_done (by assumption) ?_
    | with_reducible refine KeepM.of_bad (by assumption) ?_
    | with_reducible apply State.refuse_keep
    | with_reducible apply State.setPrism_keep
    | with_reducible apply State.served_keep
    | with_reducible apply State.wrap_keep
    | with_reducible apply State.colSemaphore_keep
    | with_reducible apply State.colStart_keep
    | with_reducible apply State.colPump_keep
    | with_reducible apply State.colInput_keep
    | simp only [keep_mk]
    | split
    | dsimp only

theorem State.colWrite_keep {r s : State} (h : Keep r s) (die : Nat) (pasid : Nat) (va : Nat) (a4 : List (List Byte × Bool)) : Keep r (State.colWrite s die pasid va a4).1 := by
  induction a4 generalizing s die pasid va with
  | nil => exact h
  | cons x l ih =>
    unfold State.colWrite
    try dsimp only
    repeat' first
      | with_reducible assumption
      | with_reducible exact Keep.refl _
      | with_reducible refine Keep.ite (fun _ => ?_) (fun _ => ?_)
      | with_reducible refine Keep.fst_ite (fun _ => ?_) (fun _ => ?_)
      | with_reducible apply State.bump_keep
      | with_reducible apply State.vwrite_keep
      | with_reducible apply ih
      | simp only [keep_mk]
      | with_reducible refine Keep.fst_eq (by assumption) ?_
      | split
      | dsimp only

theorem State.colStream_keep {r s : State} (h : Keep r s) (n : Nat) (p : Nat) (die : Nat) (a4 : List (List Byte × Bool)) : Keep r (State.colStream s n p die a4).1 := by
  induction a4 generalizing s n p die with
  | nil => exact h
  | cons x l ih =>
    unfold State.colStream
    try dsimp only
    repeat' first
      | with_reducible assumption
      | with_reducible exact Keep.refl _
      | with_reducible refine Keep.ite (fun _ => ?_) (fun _ => ?_)
      | with_reducible refine Keep.fst_ite (fun _ => ?_) (fun _ => ?_)
      | with_reducible apply State.bump_keep
      | with_reducible apply State.setPrsPort_keep
      | with_reducible apply ih
      | simp only [keep_mk]
      | split
      | dsimp only

theorem execCollectiveComplete_keep {r s : State} (h : Keep r s) (die : DieId) (comm : BitVec 12) : KeepN r (execCollectiveComplete die comm s) := by
  unfold execCollectiveComplete
  try dsimp only
  repeat' first
    | with_reducible assumption
    | with_reducible exact Keep.refl _
    | with_reducible refine Keep.ite (fun _ => ?_) (fun _ => ?_)
    | with_reducible refine KeepN.next ?_
    | with_reducible refine KeepN.ite (fun _ => ?_) (fun _ => ?_)
    | with_reducible refine KeepM.of_done (by assumption) ?_
    | with_reducible refine KeepM.of_bad (by assumption) ?_
    | with_reducible apply State.colPump_keep
    | with_reducible apply State.colInput_keep
    | with_reducible apply State.colSemaphore_keep
    | with_reducible apply State.colEnd_keep
    | with_reducible apply State.colAbort_keep
    | with_reducible apply State.colStream_keep
    | with_reducible apply State.setColl_keep
    | with_reducible apply State.colWrite_keep
    | simp only [keep_mk]
    | with_reducible refine Keep.fst_eq (by assumption) ?_
    | split
    | dsimp only

theorem execPrsAbort_keep {r s : State} (h : Keep r s) (die : DieId) (comm : BitVec 12) : KeepN r (execPrsAbort die comm s) := by
  unfold execPrsAbort
  try dsimp only
  repeat' first
    | with_reducible assumption
    | with_reducible exact Keep.refl _
    | with_reducible refine KeepN.next ?_
    | with_reducible apply State.wr_keep
    | with_reducible apply State.colAbort_keep
    | simp only [keep_mk]
    | split
    | dsimp only

theorem execCollectiveStall_keep {r s : State} (h : Keep r s) (die : DieId) (comm : BitVec 12) : KeepN r (execCollectiveStall die comm s) := by
  unfold execCollectiveStall
  try dsimp only
  repeat' first
    | with_reducible assumption
    | with_reducible exact Keep.refl _
    | with_reducible refine KeepN.next ?_
    | with_reducible apply State.wr_keep
    | with_reducible apply State.event_keep
    | simp only [keep_mk]
    | split
    | dsimp only

theorem State.prsPeerLost_keep {r s : State} (h : Keep r s) (node : Nat) : Keep r (State.prsPeerLost s node) := by
  unfold State.prsPeerLost
  try dsimp only
  repeat' first
    | with_reducible assumption
    | with_reducible exact Keep.refl _
    | with_reducible apply State.colAbort_keep
    | simp only [keep_mk]
    | with_reducible refine Keep.foldl ?_ (fun _ _ _ => ?_)
    | with_reducible refine Keep.foldl_fst ?_ (fun _ _ _ => ?_)
    | split
    | dsimp only

theorem State.prsTileLost_keep {r s : State} (h : Keep r s) (n : Nat) : Keep r (State.prsTileLost s n) := by
  unfold State.prsTileLost
  try dsimp only
  repeat' first
    | with_reducible assumption
    | with_reducible exact Keep.refl _
    | with_reducible refine Keep.ite (fun _ => ?_) (fun _ => ?_)
    | with_reducible apply State.colAbort_keep
    | with_reducible refine Keep.foldl ?_ (fun _ _ _ => ?_)
    | with_reducible refine Keep.foldl_fst ?_ (fun _ _ _ => ?_)
    | split
    | dsimp only

theorem State.capNotice_keep {r s : State} (h : Keep r s) (die : Nat) (comm : Nat) (k : FPkt) : Keep r (State.capNotice s die comm k) := by
  unfold State.capNotice
  try dsimp only
  repeat' first
    | with_reducible assumption
    | with_reducible exact Keep.refl _
    | with_reducible refine Keep.ite (fun _ => ?_) (fun _ => ?_)
    | with_reducible apply State.bump_keep
    | with_reducible apply State.sympRefresh_keep
    | with_reducible apply State.setColl_keep
    | simp only [keep_mk]
    | split
    | dsimp only

theorem State.cdata_keep {r s : State} (h : Keep r s) (k : FPkt) : Keep r (State.cdata s k) := by
  unfold State.cdata
  try dsimp only
  repeat' first
    | with_reducible assumption
    | with_reducible exact Keep.refl _
    | with_reducible refine Keep.ite (fun _ => ?_) (fun _ => ?_)
    | with_reducible apply State.capNotice_keep
    | with_reducible apply State.bump_keep
    | with_reducible apply State.setPrism_keep
    | with_reducible apply State.colPump_keep
    | with_reducible apply State.setColl_keep
    | simp only [keep_mk]
    | split
    | dsimp only

theorem State.cabort_keep {r s : State} (h : Keep r s) (k : FPkt) : Keep r (State.cabort s k) := by
  unfold State.cabort
  try dsimp only
  repeat' first
    | with_reducible assumption
    | with_reducible exact Keep.refl _
    | with_reducible refine Keep.ite (fun _ => ?_) (fun _ => ?_)
    | with_reducible apply State.capNotice_keep
    | with_reducible apply State.bump_keep
    | with_reducible apply State.colEnd_keep
    | with_reducible apply State.served_keep
    | with_reducible apply State.wrap_keep
    | with_reducible apply State.setPrism_keep
    | simp only [keep_mk]
    | split
    | dsimp only

theorem execCapNoticeExpire_keep {r s : State} (h : Keep r s) (die : DieId) (us : W32) : KeepN r (execCapNoticeExpire die us s) := by
  unfold execCapNoticeExpire
  try dsimp only
  repeat' first
    | with_reducible assumption
    | with_reducible exact Keep.refl _
    | with_reducible refine Keep.ite (fun _ => ?_) (fun _ => ?_)
    | with_reducible refine KeepN.next ?_
    | with_reducible refine KeepN.ite (fun _ => ?_) (fun _ => ?_)
    | with_reducible apply State.setPrism_keep
    | with_reducible apply State.sympRefresh_keep
    | with_reducible apply State.wrap_keep
    | simp only [keep_mk]
    | split
    | dsimp only

end Sys2Proof.Machine
end

