-- ==== Sys2Proof/Laws/KeepRegs.lean ====
section
/-!
SUPPORT. The operations of Machine/Regs.lean keep the queue, the canonical forms and the freshness of free values.
-/

namespace Sys2Proof.Machine

open Sys2Proof

theorem State.regWrite_keep {r s : State} (h : Keep r s) (a : Nat) (v : Word) : Keep r (State.regWrite s a v) := by
  unfold State.regWrite
  try dsimp only
  repeat' first
    | with_reducible assumption
    | with_reducible exact Keep.refl _
    | with_reducible refine Keep.ite (fun _ => ?_) (fun _ => ?_)
    | with_reducible apply State.setReg_keep
    | with_reducible apply State.wr_keep
    | simp only [keep_mk]
    | split
    | dsimp only

end Sys2Proof.Machine
end

