-- ==== Sys2Proof/Laws/KeepFugen.lean ====
section
/-!
SUPPORT. The operations of Machine/Fugen.lean keep the queue, the canonical forms and the freshness of free values.
-/

namespace Sys2Proof.Machine

open Sys2Proof

theorem State.lkEnable_keep {r s : State} (h : Keep r s) (l : Nat) : Keep r (State.lkEnable s l) := by
  unfold State.lkEnable
  try dsimp only
  repeat' first
    | with_reducible assumption
    | with_reducible exact Keep.refl _
    | with_reducible refine Keep.ite (fun _ => ?_) (fun _ => ?_)
    | with_reducible apply State.setLk_keep
    | simp only [keep_mk]
    | split
    | dsimp only

theorem State.lkDisable_keep {r s : State} (h : Keep r s) (l : Nat) : Keep r (State.lkDisable s l) := by
  unfold State.lkDisable
  try dsimp only
  repeat' first
    | with_reducible assumption
    | with_reducible exact Keep.refl _
    | with_reducible apply State.setLk_keep
    | simp only [keep_mk]
    | split
    | dsimp only

theorem State.refreshFgnPorts_keep {r s : State} (h : Keep r s) : Keep r (State.refreshFgnPorts s) := by
  unfold State.refreshFgnPorts
  try dsimp only
  repeat' first
    | with_reducible assumption
    | with_reducible exact Keep.refl _
    | with_reducible apply State.refreshFgnPort_keep
    | with_reducible refine Keep.foldl ?_ (fun _ _ _ => ?_)
    | with_reducible refine Keep.foldl_fst ?_ (fun _ _ _ => ?_)
    | split
    | dsimp only

theorem State.incUp_keep {r s : State} (h : Keep r s) : Keep r (State.incUp s) := by
  unfold State.incUp
  try dsimp only
  repeat' first
    | with_reducible assumption
    | with_reducible exact Keep.refl _
    | with_reducible apply State.wr_keep
    | simp only [keep_mk]
    | split
    | dsimp only

theorem State.fgnCfgWrite_keep {r s : State} (h : Keep r s) (v : Word) : Keep r (State.fgnCfgWrite s v) := by
  unfold State.fgnCfgWrite
  try dsimp only
  repeat' first
    | with_reducible assumption
    | with_reducible exact Keep.refl _
    | with_reducible refine Keep.ite (fun _ => ?_) (fun _ => ?_)
    | with_reducible apply State.fgnNode_keep
    | with_reducible apply State.wr_keep
    | with_reducible apply State.regWrite_keep
    | with_reducible apply State.incUp_keep
    | with_reducible apply State.refreshFgnPorts_keep
    | with_reducible apply State.lkEnable_keep
    | with_reducible apply State.lkDisable_keep
    | with_reducible refine Keep.foldl ?_ (fun _ _ _ => ?_)
    | with_reducible refine Keep.foldl_fst ?_ (fun _ _ _ => ?_)
    | split
    | dsimp only

theorem execFgnCfgEn_keep {r s : State} (h : Keep r s) (value : Word) : KeepN r (execFgnCfgEn value s) := by
  unfold execFgnCfgEn
  try dsimp only
  repeat' first
    | with_reducible assumption
    | with_reducible exact Keep.refl _
    | with_reducible refine KeepN.next ?_
    | with_reducible apply State.fgnCfgWrite_keep
    | split
    | dsimp only

theorem execFgnPortCfgWrite_keep {r s : State} (h : Keep r s) (p : PortId) (value : Word) : KeepN r (execFgnPortCfgWrite p value s) := by
  unfold execFgnPortCfgWrite
  try dsimp only
  repeat' first
    | with_reducible assumption
    | with_reducible exact Keep.refl _
    | with_reducible refine Keep.ite (fun _ => ?_) (fun _ => ?_)
    | with_reducible refine KeepN.next ?_
    | with_reducible refine KeepN.ite (fun _ => ?_) (fun _ => ?_)
    | with_reducible apply State.regWrite_keep
    | with_reducible apply State.lkDisable_keep
    | with_reducible apply State.lkEnable_keep
    | with_reducible apply State.refreshFgnPorts_keep
    | with_reducible refine Keep.foldl ?_ (fun _ _ _ => ?_)
    | with_reducible refine Keep.foldl_fst ?_ (fun _ _ _ => ?_)
    | split
    | dsimp only

theorem execSignalDetect_keep {r s : State} (h : Keep r s) (l : LinkId) (active : Bool) : KeepN r (execSignalDetect l active s) := by
  unfold execSignalDetect
  try dsimp only
  repeat' first
    | with_reducible assumption
    | with_reducible exact Keep.refl _
    | with_reducible refine Keep.ite (fun _ => ?_) (fun _ => ?_)
    | with_reducible refine KeepN.next ?_
    | with_reducible refine KeepN.ite (fun _ => ?_) (fun _ => ?_)
    | with_reducible apply State.wr_keep
    | with_reducible apply State.refreshFgnPorts_keep
    | with_reducible apply State.setLk_keep
    | split
    | dsimp only

theorem execEqualisationConverged_keep {r s : State} (h : Keep r s) (l : LinkId) : KeepN r (execEqualisationConverged l s) := by
  unfold execEqualisationConverged
  try dsimp only
  repeat' first
    | with_reducible assumption
    | with_reducible exact Keep.refl _
    | with_reducible refine Keep.ite (fun _ => ?_) (fun _ => ?_)
    | with_reducible refine KeepN.next ?_
    | with_reducible refine KeepN.ite (fun _ => ?_) (fun _ => ?_)
    | with_reducible apply State.refreshFgnPorts_keep
    | with_reducible apply State.setLk_keep
    | split
    | dsimp only

theorem execAlignmentLock_keep {r s : State} (h : Keep r s) (l : LinkId) : KeepN r (execAlignmentLock l s) := by
  unfold execAlignmentLock
  try dsimp only
  repeat' first
    | with_reducible assumption
    | with_reducible exact Keep.refl _
    | with_reducible refine Keep.ite (fun _ => ?_) (fun _ => ?_)
    | with_reducible refine KeepN.next ?_
    | with_reducible refine KeepN.ite (fun _ => ?_) (fun _ => ?_)
    | with_reducible apply State.refreshFgnPorts_keep
    | with_reducible apply State.setLk_keep
    | simp only [keep_mk]
    | split
    | dsimp only

theorem State.lkJoin_keep {r s : State} (h : Keep r s) (l : Nat) (i : FIdent) : Keep r (State.lkJoin s l i) := by
  unfold State.lkJoin
  try dsimp only
  repeat' first
    | with_reducible assumption
    | with_reducible exact Keep.refl _
    | with_reducible refine Keep.ite (fun _ => ?_) (fun _ => ?_)
    | with_reducible apply State.setLk_keep
    | with_reducible apply State.setFport_keep
    | with_reducible apply State.fgnPump_keep
    | with_reducible apply State.refreshFgnPorts_keep
    | simp only [keep_mk]
    | with_reducible refine Keep.foldl ?_ (fun _ _ _ => ?_)
    | with_reducible refine Keep.foldl_fst ?_ (fun _ _ _ => ?_)
    | split
    | dsimp only

theorem execIdent_keep {r s : State} (h : Keep r s) (l : LinkId) (i : FIdent) : KeepN r (execIdent l i s) := by
  unfold execIdent
  try dsimp only
  repeat' first
    | with_reducible assumption
    | with_reducible exact Keep.refl _
    | with_reducible refine Keep.ite (fun _ => ?_) (fun _ => ?_)
    | with_reducible refine KeepN.next ?_
    | with_reducible refine KeepN.ite (fun _ => ?_) (fun _ => ?_)
    | with_reducible apply State.wr_keep
    | with_reducible apply State.lkJoin_keep
    | with_reducible apply State.refreshFgnPorts_keep
    | with_reducible apply State.setLk_keep
    | with_reducible apply State.bump_keep
    | simp only [keep_mk]
    | split
    | dsimp only

theorem execLinkTrainTimeout_keep {r s : State} (h : Keep r s) (l : LinkId) : KeepN r (execLinkTrainTimeout l s) := by
  unfold execLinkTrainTimeout
  try dsimp only
  repeat' first
    | with_reducible assumption
    | with_reducible exact Keep.refl _
    | with_reducible refine Keep.ite (fun _ => ?_) (fun _ => ?_)
    | with_reducible refine KeepN.next ?_
    | with_reducible refine KeepN.ite (fun _ => ?_) (fun _ => ?_)
    | with_reducible apply State.bump_keep
    | with_reducible apply State.refreshFgnPorts_keep
    | with_reducible apply State.setLk_keep
    | simp only [keep_mk]
    | split
    | dsimp only

theorem State.lkLose_keep {r s : State} (h : Keep r s) (l : Nat) : Keep r (State.lkLose s l) := by
  unfold State.lkLose
  try dsimp only
  repeat' first
    | with_reducible assumption
    | with_reducible exact Keep.refl _
    | with_reducible refine Keep.ite (fun _ => ?_) (fun _ => ?_)
    | with_reducible apply State.bump_keep
    | with_reducible apply State.event_keep
    | with_reducible apply State.refreshFgnPorts_keep
    | with_reducible apply State.setLk_keep
    | simp only [keep_mk]
    | split
    | dsimp only

theorem execLinkLoss_keep {r s : State} (h : Keep r s) (l : LinkId) : KeepN r (execLinkLoss l s) := by
  unfold execLinkLoss
  try dsimp only
  repeat' first
    | with_reducible assumption
    | with_reducible exact Keep.refl _
    | with_reducible refine KeepN.next ?_
    | with_reducible apply State.lkLose_keep
    | split
    | dsimp only

theorem execFallbackInstall_keep {r s : State} (h : Keep r s) (p : PortId) : KeepN r (execFallbackInstall p s) := by
  unfold execFallbackInstall
  try dsimp only
  repeat' first
    | with_reducible assumption
    | with_reducible exact Keep.refl _
    | with_reducible refine Keep.ite (fun _ => ?_) (fun _ => ?_)
    | with_reducible refine KeepN.next ?_
    | with_reducible refine KeepN.ite (fun _ => ?_) (fun _ => ?_)
    | with_reducible apply State.setFport_keep
    | with_reducible apply State.wr_keep
    | with_reducible apply State.bump_keep
    | with_reducible apply State.event_keep
    | with_reducible apply State.psc_keep
    | with_reducible apply State.fgnDetour_keep
    | with_reducible apply State.bumpBy_keep
    | simp only [keep_mk]
    | with_reducible refine Keep.foldl ?_ (fun _ _ _ => ?_)
    | with_reducible refine Keep.foldl_fst ?_ (fun _ _ _ => ?_)
    | split
    | dsimp only

theorem execFlit_keep {r s : State} (h : Keep r s) (p : PortId) (l : LinkId) (hdr : Word) (crcOk : Bool) (corr : BitVec 16) (uncorr : BitVec 16) : KeepN r (execFlit p l hdr crcOk corr uncorr s) := by
  unfold execFlit
  try dsimp only
  repeat' first
    | with_reducible assumption
    | with_reducible exact Keep.refl _
    | with_reducible refine Keep.ite (fun _ => ?_) (fun _ => ?_)
    | with_reducible refine KeepN.next ?_
    | with_reducible refine KeepN.ite (fun _ => ?_) (fun _ => ?_)
    | with_reducible apply State.bumpBy_keep
    | with_reducible apply State.wrap_keep
    | with_reducible apply State.setFport_keep
    | with_reducible apply State.bump_keep
    | with_reducible apply State.fgnPump_keep
    | simp only [keep_mk]
    | split
    | dsimp only

theorem State.connFail_keep {r s : State} (h : Keep r s) (node : Nat) (cls : Nat) (restart : Bool) : Keep r (State.connFail s node cls restart) := by
  unfold State.connFail
  try dsimp only
  repeat' first
    | with_reducible assumption
    | with_reducible exact Keep.refl _
    | with_reducible refine Keep.ite (fun _ => ?_) (fun _ => ?_)
    | with_reducible apply State.event_keep
    | with_reducible apply State.bump_keep
    | with_reducible apply State.pubAnswer_keep
    | with_reducible apply State.prsPeerLost_keep
    | simp only [keep_mk]
    | split
    | dsimp only

theorem State.connResend_keep {r s : State} (h : Keep r s) (node : Nat) (cls : Nat) : Keep r (State.connResend s node cls) := by
  unfold State.connResend
  try dsimp only
  repeat' first
    | with_reducible assumption
    | with_reducible exact Keep.refl _
    | with_reducible refine Keep.ite (fun _ => ?_) (fun _ => ?_)
    | with_reducible apply State.connFail_keep
    | with_reducible apply State.fgnRoute_keep
    | simp only [keep_mk]
    | with_reducible refine Keep.foldl ?_ (fun _ _ _ => ?_)
    | with_reducible refine Keep.foldl_fst ?_ (fun _ _ _ => ?_)
    | split
    | dsimp only

theorem State.fgnAck_keep {r s : State} (h : Keep r s) (node : Nat) (cls : Nat) (seq : Nat) : Keep r (State.fgnAck s node cls seq) := by
  unfold State.fgnAck
  try dsimp only
  repeat' first
    | with_reducible assumption
    | with_reducible exact Keep.refl _
    | with_reducible apply State.fgnMgt_keep
    | split
    | dsimp only

theorem State.fgnNak_keep {r s : State} (h : Keep r s) (node : Nat) (cls : Nat) (seq : Nat) (reset : Bool) : Keep r (State.fgnNak s node cls seq reset) := by
  unfold State.fgnNak
  try dsimp only
  repeat' first
    | with_reducible assumption
    | with_reducible exact Keep.refl _
    | with_reducible apply State.fgnMgt_keep
    | split
    | dsimp only

theorem State.connRecv_keep {r s : State} (h : Keep r s) (tc : Nat) (k : FPkt) : Keep r (State.connRecv s tc k).1 := by
  unfold State.connRecv
  try dsimp only
  repeat' first
    | with_reducible assumption
    | with_reducible exact Keep.refl _
    | with_reducible refine Keep.ite (fun _ => ?_) (fun _ => ?_)
    | with_reducible refine Keep.fst_ite (fun _ => ?_) (fun _ => ?_)
    | with_reducible apply State.fgnNak_keep
    | with_reducible apply State.bump_keep
    | with_reducible apply State.wrap_keep
    | with_reducible apply State.fgnAck_keep
    | simp only [keep_mk]
    | split
    | dsimp only

theorem State.fgnRecv_keep {r s : State} (h : Keep r s) (p tc op : Nat) (k : FPkt) (deliver : State → State)
    (hf : ∀ t, Keep r t → Keep r (deliver t)) : Keep r (State.fgnRecv s p tc op k deliver) := by
  unfold State.fgnRecv
  refine Keep.ite (fun _ => h) (fun _ => Keep.ite (fun _ => State.bump_keep h _ _) (fun _ => Keep.ite (fun _ => ?_) (fun _ =>
    Keep.ite (fun _ => hf _ h) (fun _ => ?_))))
  · exact State.fgnRoute_keep h _ _
  · split
    · next e => exact hf _ (Keep.fst_eq e (State.connRecv_keep h _ _))
    · next e => exact Keep.fst_eq e (State.connRecv_keep h _ _)

theorem State.fgnRsp_keep {r s : State} (h : Keep r s) (k : FPkt) (op : Nat) (aux : Nat) (data : List Line) (poison : Bool) : Keep r (State.fgnRsp s k op aux data poison) := by
  unfold State.fgnRsp
  try dsimp only
  repeat' first
    | with_reducible assumption
    | with_reducible exact Keep.refl _
    | with_reducible apply State.fgnSend_keep
    | split
    | dsimp only

theorem State.fgnComp_keep {r s : State} (h : Keep r s) (k : FPkt) (rx : Wr) : Keep r (State.fgnComp s k rx) := by
  unfold State.fgnComp
  try dsimp only
  repeat' first
    | with_reducible assumption
    | with_reducible exact Keep.refl _
    | with_reducible apply State.fgnRsp_keep
    | simp only [keep_mk]
    | split
    | dsimp only

theorem State.fgnServeRead_keep {r s : State} (h : Keep r s) (die : Nat) (k : FPkt) : Keep r (State.fgnServeRead s die k) := by
  unfold State.fgnServeRead
  try dsimp only
  repeat' first
    | with_reducible assumption
    | with_reducible exact Keep.refl _
    | with_reducible refine Keep.ite (fun _ => ?_) (fun _ => ?_)
    | with_reducible apply State.bump_keep
    | with_reducible apply State.fgnComp_keep
    | with_reducible apply State.localRead_keep
    | with_reducible apply State.fgnRsp_keep
    | simp only [keep_mk]
    | with_reducible refine Keep.fst_eq (by assumption) ?_
    | split
    | dsimp only

theorem execFgnRead_keep {r s : State} (h : Keep r s) (p : PortId) (k : FPkt) : KeepN r (execFgnRead p k s) := by
  unfold execFgnRead
  try dsimp only
  repeat' first
    | with_reducible assumption
    | with_reducible exact Keep.refl _
    | with_reducible refine KeepN.next ?_
    | with_reducible apply State.fgnRecv_keep
    | with_reducible apply State.fgnServeRead_keep
    | with_reducible intro _ _ _
    | with_reducible intro _ _
    | with_reducible intro _
    | split
    | dsimp only

theorem execFgnWrite_keep {r s : State} (h : Keep r s) (p : PortId) (k : FPkt) : KeepN r (execFgnWrite p k s) := by
  unfold execFgnWrite
  try dsimp only
  repeat' first
    | with_reducible assumption
    | with_reducible exact Keep.refl _
    | with_reducible refine Keep.ite (fun _ => ?_) (fun _ => ?_)
    | with_reducible refine KeepN.next ?_
    | with_reducible refine KeepN.ite (fun _ => ?_) (fun _ => ?_)
    | with_reducible apply State.fgnRecv_keep
    | with_reducible apply State.localWrite_keep
    | with_reducible apply State.fgnComp_keep
    | with_reducible intro _ _ _
    | with_reducible intro _ _
    | with_reducible intro _
    | with_reducible refine Keep.fst_eq (by assumption) ?_
    | split
    | dsimp only

theorem State.maskedWrite_keep {r s : State} (h : Keep r s) (die : Nat) (a : Nat) (bs : List Byte) (poison : Bool) (a5 : List (Nat × Nat)) : Keep r (State.maskedWrite s die a bs poison a5).1 := by
  induction a5 generalizing s die a bs poison with
  | nil => exact h
  | cons x l ih =>
    unfold State.maskedWrite
    try dsimp only
    repeat' first
      | with_reducible assumption
      | with_reducible exact Keep.refl _
      | with_reducible apply State.localWrite_keep
      | with_reducible apply ih
      | simp only [keep_mk]
      | with_reducible refine Keep.fst_eq (by assumption) ?_
      | split
      | dsimp only

theorem execFgnWriteMasked_keep {r s : State} (h : Keep r s) (p : PortId) (k : FPkt) : KeepN r (execFgnWriteMasked p k s) := by
  unfold execFgnWriteMasked
  try dsimp only
  repeat' first
    | with_reducible assumption
    | with_reducible exact Keep.refl _
    | with_reducible refine Keep.ite (fun _ => ?_) (fun _ => ?_)
    | with_reducible refine KeepN.next ?_
    | with_reducible refine KeepN.ite (fun _ => ?_) (fun _ => ?_)
    | with_reducible apply State.fgnRecv_keep
    | with_reducible apply State.maskedWrite_keep
    | with_reducible apply State.fgnComp_keep
    | with_reducible intro _ _ _
    | with_reducible intro _ _
    | with_reducible intro _
    | with_reducible refine Keep.fst_eq (by assumption) ?_
    | split
    | dsimp only

theorem State.fgnRmw_keep {r s : State} (h : Keep r s) (die : Nat) (pa : Nat) (kind : Nat) (op : Nat) (chunk : Line) : Keep r (State.fgnRmw s die pa kind op chunk).1 := by
  unfold State.fgnRmw
  try dsimp only
  repeat' first
    | with_reducible assumption
    | with_reducible exact Keep.refl _
    | with_reducible refine Keep.ite (fun _ => ?_) (fun _ => ?_)
    | with_reducible refine Keep.fst_ite (fun _ => ?_) (fun _ => ?_)
    | with_reducible apply State.memRmw_keep
    | simp only [keep_mk]
    | with_reducible refine Keep.fst_eq (by assumption) ?_
    | split
    | dsimp only

theorem State.fgnServeLedger_keep {r s : State} (h : Keep r s) (d : Nat) (d1 : Nat) (c : Nat) (k : FPkt) : Keep r (State.fgnServeLedger s d d1 c k) := by
  unfold State.fgnServeLedger
  try dsimp only
  repeat' first
    | with_reducible assumption
    | with_reducible exact Keep.refl _
    | with_reducible refine Keep.ite (fun _ => ?_) (fun _ => ?_)
    | with_reducible apply State.ledgerRead_keep
    | with_reducible apply State.fgnRsp_keep
    | with_reducible apply State.ledgerAdd_keep
    | with_reducible apply State.fgnComp_keep
    | with_reducible apply State.bump_keep
    | with_reducible refine Keep.fst_eq (by assumption) ?_
    | split
    | dsimp only

theorem State.fgnServeOld_keep {r : State} (k : FPkt) {p : State × Rmw} (h : Keep r p.1) :
    Keep r (State.fgnServeOld k p) := by
  unfold State.fgnServeOld
  split
  · exact State.fgnRsp_keep h _ _ _ _ _
  · exact State.fgnComp_keep h _ _
  · exact State.fgnComp_keep h _ _

theorem State.fgnServeAtomic_keep {r s : State} (h : Keep r s) (die : Nat) (k : FPkt) :
    Keep r (State.fgnServeAtomic s die k) := by
  unfold State.fgnServeAtomic
  cases s.region k.addr.toNat with
  | ledger d c b =>
    generalize s.ledgerAt _ _ = o
    cases o with
    | none => exact State.fgnComp_keep (State.bump_keep h _ _) _ _
    | some p => exact State.fgnServeLedger_keep h _ _ _ _
  | _ => exact State.fgnServeOld_keep k (State.fgnRmw_keep h _ _ _ _ _)

theorem execFgnAtomic_keep {r s : State} (h : Keep r s) (p : PortId) (k : FPkt) : KeepN r (execFgnAtomic p k s) := by
  unfold execFgnAtomic
  try dsimp only
  repeat' first
    | with_reducible assumption
    | with_reducible exact Keep.refl _
    | with_reducible refine KeepN.next ?_
    | with_reducible apply State.fgnRecv_keep
    | with_reducible apply State.fgnServeAtomic_keep
    | with_reducible intro _ _ _
    | with_reducible intro _ _
    | with_reducible intro _
    | split
    | dsimp only

theorem execFgnData_keep {r s : State} (h : Keep r s) (p : PortId) (k : FPkt) : KeepN r (execFgnData p k s) := by
  unfold execFgnData
  try dsimp only
  repeat' first
    | with_reducible assumption
    | with_reducible exact Keep.refl _
    | with_reducible refine KeepN.next ?_
    | with_reducible apply State.fgnRecv_keep
    | with_reducible intro _ _ _
    | with_reducible intro _ _
    | with_reducible intro _
    | simp only [keep_mk]
    | split
    | dsimp only

theorem execFugenComp_keep {r s : State} (h : Keep r s) (p : PortId) (k : FPkt) : KeepN r (execFugenComp p k s) := by
  unfold execFugenComp
  try dsimp only
  repeat' first
    | with_reducible assumption
    | with_reducible exact Keep.refl _
    | with_reducible refine Keep.ite (fun _ => ?_) (fun _ => ?_)
    | with_reducible refine KeepN.next ?_
    | with_reducible refine KeepN.ite (fun _ => ?_) (fun _ => ?_)
    | with_reducible apply State.fgnRecv_keep
    | with_reducible apply State.pubAnswer_keep
    | with_reducible intro _ _ _
    | with_reducible intro _ _
    | with_reducible intro _
    | simp only [keep_mk]
    | split
    | dsimp only

theorem State.colRecv_keep {r s : State} (h : Keep r s) (p : Option PortId) (op : Nat) (k : FPkt) (deliver : FPkt → State → State)
    (hf : ∀ x t, Keep r t → Keep r (deliver x t)) : Keep r (State.colRecv s p op k deliver) := by
  unfold State.colRecv
  split
  · exact State.fgnRecv_keep h _ _ _ _ _ (fun t ht => hf _ t ht)
  · split
    · exact h
    · dsimp only
      refine Keep.ite (fun _ => h) (fun _ => Keep.ite (fun _ => ?_) (fun _ => hf _ _ ?_))
      · rw [keep_mk]; exact h
      · rw [keep_mk]; exact h

theorem execCdata_keep {r s : State} (h : Keep r s) (p : Option PortId) (k : FPkt) : KeepN r (execCdata p k s) := by
  unfold execCdata
  try dsimp only
  repeat' first
    | with_reducible assumption
    | with_reducible exact Keep.refl _
    | with_reducible refine KeepN.next ?_
    | with_reducible apply State.colRecv_keep
    | with_reducible apply State.cdata_keep
    | with_reducible intro _ _ _
    | with_reducible intro _ _
    | with_reducible intro _
    | split
    | dsimp only

theorem execCabort_keep {r s : State} (h : Keep r s) (p : Option PortId) (k : FPkt) : KeepN r (execCabort p k s) := by
  unfold execCabort
  try dsimp only
  repeat' first
    | with_reducible assumption
    | with_reducible exact Keep.refl _
    | with_reducible refine KeepN.next ?_
    | with_reducible apply State.colRecv_keep
    | with_reducible apply State.cabort_keep
    | with_reducible intro _ _ _
    | with_reducible intro _ _
    | with_reducible intro _
    | split
    | dsimp only

theorem State.fgnAcked_keep {r s : State} (h : Keep r s) (k : FPkt) : Keep r (State.fgnAcked s k) := by
  unfold State.fgnAcked
  try dsimp only
  repeat' first
    | with_reducible assumption
    | with_reducible exact Keep.refl _
    | simp only [keep_mk]
    | split
    | dsimp only

theorem execAck_keep {r s : State} (h : Keep r s) (p : PortId) (k : FPkt) : KeepN r (execAck p k s) := by
  unfold execAck
  try dsimp only
  repeat' first
    | with_reducible assumption
    | with_reducible exact Keep.refl _
    | with_reducible refine KeepN.next ?_
    | with_reducible apply State.fgnRecv_keep
    | with_reducible apply State.fgnAcked_keep
    | with_reducible intro _ _ _
    | with_reducible intro _ _
    | with_reducible intro _
    | split
    | dsimp only

theorem execNak_keep {r s : State} (h : Keep r s) (p : PortId) (k : FPkt) : KeepN r (execNak p k s) := by
  unfold execNak
  try dsimp only
  repeat' first
    | with_reducible assumption
    | with_reducible exact Keep.refl _
    | with_reducible refine Keep.ite (fun _ => ?_) (fun _ => ?_)
    | with_reducible refine KeepN.next ?_
    | with_reducible refine KeepN.ite (fun _ => ?_) (fun _ => ?_)
    | with_reducible apply State.fgnRecv_keep
    | with_reducible apply State.connFail_keep
    | with_reducible apply State.bump_keep
    | with_reducible apply State.connResend_keep
    | with_reducible intro _ _ _
    | with_reducible intro _ _
    | with_reducible intro _
    | split
    | dsimp only

theorem execClose_keep {r s : State} (h : Keep r s) (p : PortId) (k : FPkt) : KeepN r (execClose p k s) := by
  unfold execClose
  try dsimp only
  repeat' first
    | with_reducible assumption
    | with_reducible exact Keep.refl _
    | with_reducible refine KeepN.next ?_
    | with_reducible apply State.fgnRecv_keep
    | with_reducible apply State.wr_keep
    | with_reducible intro _ _ _
    | with_reducible intro _ _
    | with_reducible intro _
    | simp only [keep_mk]
    | split
    | dsimp only

theorem execE2eTimeout_keep {r s : State} (h : Keep r s) (node : BitVec 13) (cls : Fin 3) : KeepN r (execE2eTimeout node cls s) := by
  unfold execE2eTimeout
  try dsimp only
  repeat' first
    | with_reducible assumption
    | with_reducible exact Keep.refl _
    | with_reducible refine KeepN.next ?_
    | with_reducible apply State.connResend_keep
    | split
    | dsimp only

theorem execConnectionIdleFree_keep {r s : State} (h : Keep r s) (node : BitVec 13) : KeepN r (execConnectionIdleFree node s) := by
  unfold execConnectionIdleFree
  try dsimp only
  repeat' first
    | with_reducible assumption
    | with_reducible exact Keep.refl _
    | with_reducible refine Keep.ite (fun _ => ?_) (fun _ => ?_)
    | with_reducible refine KeepN.next ?_
    | with_reducible refine KeepN.ite (fun _ => ?_) (fun _ => ?_)
    | with_reducible apply State.fgnMgt_keep
    | with_reducible apply State.wr_keep
    | simp only [keep_mk]
    | split
    | dsimp only

theorem execAckTimer_keep {r s : State} (h : Keep r s) (node : BitVec 13) : KeepN r (execAckTimer node s) := by
  unfold execAckTimer
  try dsimp only
  repeat' first
    | with_reducible assumption
    | with_reducible exact Keep.refl _
    | with_reducible refine KeepN.next ?_
    | with_reducible apply State.fgnAck_keep
    | simp only [keep_mk]
    | with_reducible refine Keep.foldl ?_ (fun _ _ _ => ?_)
    | with_reducible refine Keep.foldl_fst ?_ (fun _ _ _ => ?_)
    | split
    | dsimp only

end Sys2Proof.Machine
end

