-- ==== Sys2Proof/Laws/KeepHbm.lean ====
section
/-!
SUPPORT. The operations of Machine/Hbm.lean keep the queue, the canonical forms and the freshness of free values.
-/

namespace Sys2Proof.Machine

open Sys2Proof

theorem execHbmRead_keep {r s : State} (h : Keep r s) (addr : Word) (f : HbmFinding) : KeepN r (execHbmRead addr f s) := by
  unfold execHbmRead
  try dsimp only
  repeat' first
    | with_reducible assumption
    | with_reducible exact Keep.refl _
    | with_reducible refine Keep.ite (fun _ => ?_) (fun _ => ?_)
    | with_reducible refine KeepN.next ?_
    | with_reducible refine KeepN.ite (fun _ => ?_) (fun _ => ?_)
    | with_reducible apply State.hbmStop_keep
    | with_reducible apply State.hbmServe_keep
    | simp only [keep_mk]
    | with_reducible refine KeepO.of_eq (by assumption) ?_
    | split
    | dsimp only

theorem State.refreshPocc_keep {r s : State} (h : Keep r s) (k : Nat) : Keep r (State.refreshPocc s k) := by
  unfold State.refreshPocc
  try dsimp only
  repeat' first
    | with_reducible assumption
    | with_reducible exact Keep.refl _
    | with_reducible apply State.wr_keep
    | split
    | dsimp only

theorem State.rmwLine_keep {r s : State} (h : Keep r s) (key : Nat) (f : HbmFinding) : Keep r (State.rmwLine s key f) := by
  unfold State.rmwLine
  try dsimp only
  repeat' first
    | with_reducible assumption
    | with_reducible exact Keep.refl _
    | with_reducible apply State.lineFetch_keep
    | with_reducible refine Keep.fst_eq (by assumption) ?_
    | split
    | dsimp only

theorem State.hbmPut_keep {r s : State} (h : Keep r s) (key mask : Nat) (data : Line) (p : Bool) :
    Keep r (State.hbmPut s key mask data p) := by
  unfold State.hbmPut
  have h1 : ∀ l : List (Nat × Nat), Keep r (l.foldl (fun (t : State) q =>
      { t with mem := memPut t.mem (key + q.1) (slice (leBytes 64 data.toNat) q.1 q.2) }) s) :=
    fun l => Keep.foldl h (fun _ _ ht => keep_mem ht _ _)
  exact State.dirtyKey_keep (Keep.ite (fun _ => State.setPois_keep (h1 _) _ _) (fun _ => keep_poison (h1 _) _ _)) _

theorem execHbmWrite_keep {r s : State} (h : Keep r s) (addr : Word) (mask : Word) (data : Line) (poison : Bool) : KeepN r (execHbmWrite addr mask data poison s) := by
  unfold execHbmWrite
  try dsimp only
  repeat' first
    | with_reducible assumption
    | with_reducible exact Keep.refl _
    | with_reducible refine Keep.ite (fun _ => ?_) (fun _ => ?_)
    | with_reducible refine KeepN.next ?_
    | with_reducible refine KeepN.ite (fun _ => ?_) (fun _ => ?_)
    | with_reducible apply State.hbmStop_keep
    | with_reducible apply State.hbmPut_keep
    | with_reducible apply State.bump_keep
    | with_reducible apply State.setWcb_keep
    | with_reducible apply State.wcbFull_keep
    | with_reducible apply State.wcbTake_keep
    | with_reducible apply State.rmwLine_keep
    | simp only [keep_mk]
    | with_reducible refine KeepO.of_eq (by assumption) ?_
    | split
    | dsimp only

theorem execWcbDeadline_keep {r s : State} (h : Keep r s) (addr : Word) : KeepN r (execWcbDeadline addr s) := by
  unfold execWcbDeadline
  try dsimp only
  repeat' first
    | with_reducible assumption
    | with_reducible exact Keep.refl _
    | with_reducible refine KeepN.next ?_
    | with_reducible apply State.setWcb_keep
    | simp only [keep_mk]
    | split
    | dsimp only

theorem execWcbDrainRead_keep {r s : State} (h : Keep r s) (addr : Word) (f : HbmFinding) : KeepN r (execWcbDrainRead addr f s) := by
  unfold execWcbDrainRead
  try dsimp only
  repeat' first
    | with_reducible assumption
    | with_reducible exact Keep.refl _
    | with_reducible refine Keep.ite (fun _ => ?_) (fun _ => ?_)
    | with_reducible refine KeepN.next ?_
    | with_reducible refine KeepN.ite (fun _ => ?_) (fun _ => ?_)
    | with_reducible apply State.setWcb_keep
    | with_reducible apply State.bump_keep
    | with_reducible apply State.rmwLine_keep
    | with_reducible apply State.wrap_keep
    | with_reducible apply State.lineFetch_keep
    | simp only [keep_mk]
    | with_reducible refine Keep.fst_eq (by assumption) ?_
    | split
    | dsimp only

theorem execParityDelta_keep {r s : State} (h : Keep r s) (addr : Word) : KeepN r (execParityDelta addr s) := by
  unfold execParityDelta
  try dsimp only
  repeat' first
    | with_reducible assumption
    | with_reducible exact Keep.refl _
    | with_reducible refine Keep.ite (fun _ => ?_) (fun _ => ?_)
    | with_reducible refine KeepN.next ?_
    | with_reducible refine KeepN.ite (fun _ => ?_) (fun _ => ?_)
    | with_reducible apply State.bump_keep
    | with_reducible apply State.refreshPocc_keep
    | with_reducible apply State.setWcb_keep
    | simp only [keep_mk]
    | split
    | dsimp only

theorem execParityAck_keep {r s : State} (h : Keep r s) (addr : Word) : KeepN r (execParityAck addr s) := by
  unfold execParityAck
  try dsimp only
  repeat' first
    | with_reducible assumption
    | with_reducible exact Keep.refl _
    | with_reducible refine Keep.ite (fun _ => ?_) (fun _ => ?_)
    | with_reducible refine KeepN.next ?_
    | with_reducible refine KeepN.ite (fun _ => ?_) (fun _ => ?_)
    | with_reducible apply State.wrap_keep
    | with_reducible apply State.setWcb_keep
    | simp only [keep_mk]
    | split
    | dsimp only

theorem State.unlockStripe_keep {r s : State} (h : Keep r s) (key : Nat) : Keep r (State.unlockStripe s key) := by
  unfold State.unlockStripe
  try dsimp only
  repeat' first
    | with_reducible assumption
    | with_reducible exact Keep.refl _
    | with_reducible apply State.refreshPocc_keep
    | simp only [keep_mk]
    | split
    | dsimp only

theorem execParityRelease_keep {r s : State} (h : Keep r s) (addr : Word) : KeepN r (execParityRelease addr s) := by
  unfold execParityRelease
  try dsimp only
  repeat' first
    | with_reducible assumption
    | with_reducible exact Keep.refl _
    | with_reducible refine Keep.ite (fun _ => ?_) (fun _ => ?_)
    | with_reducible refine KeepN.next ?_
    | with_reducible refine KeepN.ite (fun _ => ?_) (fun _ => ?_)
    | with_reducible apply State.setWcb_keep
    | with_reducible apply State.unlockStripe_keep
    | simp only [keep_mk]
    | split
    | dsimp only

theorem State.failPc_keep {r s : State} (h : Keep r s) (stack : Nat) (pc : Option Nat) : Keep r (State.failPc s stack pc) := by
  unfold State.failPc
  try dsimp only
  repeat' first
    | with_reducible assumption
    | with_reducible exact Keep.refl _
    | with_reducible apply State.setReg_keep
    | with_reducible apply State.refreshDegraded_keep
    | with_reducible apply State.hbmRecord_keep
    | with_reducible apply State.wr_keep
    | simp only [keep_mk]
    | split
    | dsimp only

theorem execReleaseTimeout_keep {r s : State} (h : Keep r s) (addr : Word) : KeepN r (execReleaseTimeout addr s) := by
  unfold execReleaseTimeout
  try dsimp only
  repeat' first
    | with_reducible assumption
    | with_reducible exact Keep.refl _
    | with_reducible refine Keep.ite (fun _ => ?_) (fun _ => ?_)
    | with_reducible refine KeepN.next ?_
    | with_reducible refine KeepN.ite (fun _ => ?_) (fun _ => ?_)
    | with_reducible apply State.unlockStripe_keep
    | with_reducible apply State.bump_keep
    | with_reducible apply State.failPc_keep
    | simp only [keep_mk]
    | split
    | dsimp only

theorem execReconstruction_keep {r s : State} (h : Keep r s) (addr : Word) : KeepN r (execReconstruction addr s) := by
  unfold execReconstruction
  try dsimp only
  repeat' first
    | with_reducible assumption
    | with_reducible exact Keep.refl _
    | with_reducible refine Keep.ite (fun _ => ?_) (fun _ => ?_)
    | with_reducible refine KeepN.next ?_
    | with_reducible refine KeepN.ite (fun _ => ?_) (fun _ => ?_)
    | simp only [keep_mk]
    | split
    | dsimp only

theorem execReconstructionComplete_keep {r s : State} (h : Keep r s) (addr : Word) (bad : Bool) : KeepN r (execReconstructionComplete addr bad s) := by
  unfold execReconstructionComplete
  try dsimp only
  repeat' first
    | with_reducible assumption
    | with_reducible exact Keep.refl _
    | with_reducible refine Keep.ite (fun _ => ?_) (fun _ => ?_)
    | with_reducible refine KeepN.next ?_
    | with_reducible refine KeepN.ite (fun _ => ?_) (fun _ => ?_)
    | with_reducible apply State.reconEnd_keep
    | with_reducible apply State.answerLine_keep
    | with_reducible apply State.bump_keep
    | simp only [keep_mk]
    | with_reducible refine Keep.fst_eq (by assumption) ?_
    | split
    | dsimp only

theorem execScrubStep_keep {r s : State} (h : Keep r s) (k : StackId) (f : HbmFinding) : KeepN r (execScrubStep k f s) := by
  unfold execScrubStep
  try dsimp only
  repeat' first
    | with_reducible assumption
    | with_reducible exact Keep.refl _
    | with_reducible refine Keep.ite (fun _ => ?_) (fun _ => ?_)
    | with_reducible refine KeepN.next ?_
    | with_reducible refine KeepN.ite (fun _ => ?_) (fun _ => ?_)
    | with_reducible apply State.hbmServe_keep
    | with_reducible apply State.wrap_keep
    | simp only [keep_mk]
    | split
    | dsimp only

theorem execHbmTempRead_keep {r s : State} (h : Keep r s) (k : StackId) (temp : Byte) : KeepN r (execHbmTempRead k temp s) := by
  unfold execHbmTempRead
  try dsimp only
  repeat' first
    | with_reducible assumption
    | with_reducible exact Keep.refl _
    | with_reducible refine Keep.ite (fun _ => ?_) (fun _ => ?_)
    | with_reducible refine KeepN.next ?_
    | with_reducible refine KeepN.ite (fun _ => ?_) (fun _ => ?_)
    | with_reducible apply State.wr_keep
    | with_reducible apply State.wrap_keep
    | with_reducible apply State.event_keep
    | split
    | dsimp only

theorem execThrottleStepFall_keep {r s : State} (h : Keep r s) (k : StackId) : KeepN r (execThrottleStepFall k s) := by
  unfold execThrottleStepFall
  try dsimp only
  repeat' first
    | with_reducible assumption
    | with_reducible exact Keep.refl _
    | with_reducible refine Keep.ite (fun _ => ?_) (fun _ => ?_)
    | with_reducible refine KeepN.next ?_
    | with_reducible refine KeepN.ite (fun _ => ?_) (fun _ => ?_)
    | with_reducible apply State.wr_keep
    | split
    | dsimp only

theorem execHbmThrCfgWrite_keep {r s : State} (h : Keep r s) (k : StackId) (value : Word) : KeepN r (execHbmThrCfgWrite k value s) := by
  unfold execHbmThrCfgWrite
  try dsimp only
  repeat' first
    | with_reducible assumption
    | with_reducible exact Keep.refl _
    | with_reducible refine Keep.ite (fun _ => ?_) (fun _ => ?_)
    | with_reducible refine KeepN.next ?_
    | with_reducible refine KeepN.ite (fun _ => ?_) (fun _ => ?_)
    | with_reducible apply State.regWrite_keep
    | split
    | dsimp only

theorem execHbmShdEn_keep {r s : State} (h : Keep r s) (x : Fin 8) (value : Word) : KeepN r (execHbmShdEn x value s) := by
  unfold execHbmShdEn
  try dsimp only
  repeat' first
    | with_reducible assumption
    | with_reducible exact Keep.refl _
    | with_reducible refine Keep.ite (fun _ => ?_) (fun _ => ?_)
    | with_reducible refine KeepN.next ?_
    | with_reducible refine KeepN.ite (fun _ => ?_) (fun _ => ?_)
    | with_reducible apply State.regWrite_keep
    | with_reducible apply State.wr_keep
    | with_reducible apply State.refreshDegraded_keep
    | simp only [keep_mk]
    | split
    | dsimp only

theorem execShieldZeroingDone_keep {r s : State} (h : Keep r s) (x : Fin 8) : KeepN r (execShieldZeroingDone x s) := by
  unfold execShieldZeroingDone
  refine KeepN.ite (fun _ => KeepN.next h) (fun _ => KeepN.next (State.wr_keep ?_ _ _ _))
  exact Keep.wf h rfl rfl (fun c => mwf_filter (d := (0 : Byte)) _ c) (fun c => mwf_filter _ c) id id id id

theorem execHbmFailPcWrite_keep {r s : State} (h : Keep r s) (k : StackId) (value : Word) : KeepN r (execHbmFailPcWrite k value s) := by
  unfold execHbmFailPcWrite
  try dsimp only
  repeat' first
    | with_reducible assumption
    | with_reducible exact Keep.refl _
    | with_reducible refine KeepN.next ?_
    | with_reducible apply State.refreshDegraded_keep
    | with_reducible apply State.setReg_keep
    | split
    | dsimp only

theorem execPcPhyFail_keep {r s : State} (h : Keep r s) (k : StackId) (pc : Option (BitVec 6)) : KeepN r (execPcPhyFail k pc s) := by
  unfold execPcPhyFail
  try dsimp only
  repeat' first
    | with_reducible assumption
    | with_reducible exact Keep.refl _
    | with_reducible refine KeepN.next ?_
    | with_reducible apply State.failPc_keep
    | split
    | dsimp only

theorem execHbmRebuildGo_keep {r s : State} (h : Keep r s) (k : StackId) (pc : BitVec 6) (all : Bool) : KeepN r (execHbmRebuildGo k pc all s) := by
  unfold execHbmRebuildGo
  try dsimp only
  repeat' first
    | with_reducible assumption
    | with_reducible exact Keep.refl _
    | with_reducible refine Keep.ite (fun _ => ?_) (fun _ => ?_)
    | with_reducible refine KeepN.next ?_
    | with_reducible refine KeepN.ite (fun _ => ?_) (fun _ => ?_)
    | with_reducible apply State.wr_keep
    | split
    | dsimp only

theorem State.wipePc_keep {r s : State} (h : Keep r s) (k pc : Nat) : Keep r (State.wipePc s k pc) := by
  unfold State.wipePc
  refine Keep.foldl ?_ (fun _ _ ht => keep_poison ht _ _)
  exact Keep.same h rfl rfl rfl rfl rfl rfl rfl rfl

theorem State.rebuildPc_keep {r s : State} (h : Keep r s) (k : Nat) (pc : Nat) : Keep r (State.rebuildPc s k pc) := by
  unfold State.rebuildPc
  try dsimp only
  repeat' first
    | with_reducible assumption
    | with_reducible exact Keep.refl _
    | with_reducible apply State.wipePc_keep
    | simp only [keep_mk]
    | split
    | dsimp only

theorem execHbmRebuildDone_keep {r s : State} (h : Keep r s) (k : StackId) (phyFails : Bool) (lines : W32) : KeepN r (execHbmRebuildDone k phyFails lines s) := by
  unfold execHbmRebuildDone
  try dsimp only
  repeat' first
    | with_reducible assumption
    | with_reducible exact Keep.refl _
    | with_reducible refine Keep.ite (fun _ => ?_) (fun _ => ?_)
    | with_reducible refine KeepN.next ?_
    | with_reducible refine KeepN.ite (fun _ => ?_) (fun _ => ?_)
    | with_reducible apply State.wr_keep
    | with_reducible apply State.rebuildPc_keep
    | with_reducible apply State.setReg_keep
    | with_reducible apply State.refreshDegraded_keep
    | with_reducible refine Keep.foldl ?_ (fun _ _ _ => ?_)
    | with_reducible refine Keep.foldl_fst ?_ (fun _ _ _ => ?_)
    | split
    | dsimp only

theorem execHbmQuiesceWrite_keep {r s : State} (h : Keep r s) (k : StackId) (value : Word) : KeepN r (execHbmQuiesceWrite k value s) := by
  unfold execHbmQuiesceWrite
  try dsimp only
  repeat' first
    | with_reducible assumption
    | with_reducible exact Keep.refl _
    | with_reducible refine Keep.ite (fun _ => ?_) (fun _ => ?_)
    | with_reducible refine KeepN.next ?_
    | with_reducible refine KeepN.ite (fun _ => ?_) (fun _ => ?_)
    | with_reducible apply State.regWrite_keep
    | with_reducible apply State.wr_keep
    | simp only [keep_mk]
    | split
    | dsimp only

theorem execHbmMarkWrite_keep {r s : State} (h : Keep r s) (k : StackId) (i : Fin 8) (value : Word) : KeepN r (execHbmMarkWrite k i value s) := by
  unfold execHbmMarkWrite
  try dsimp only
  repeat' first
    | with_reducible assumption
    | with_reducible exact Keep.refl _
    | with_reducible refine Keep.ite (fun _ => ?_) (fun _ => ?_)
    | with_reducible refine KeepN.next ?_
    | with_reducible refine KeepN.ite (fun _ => ?_) (fun _ => ?_)
    | with_reducible apply State.wr_keep
    | with_reducible refine Keep.foldl ?_ (fun _ _ _ => ?_)
    | with_reducible refine Keep.foldl_fst ?_ (fun _ _ _ => ?_)
    | split
    | dsimp only

theorem State.hbmRepair_keep {r s : State} (h : Keep r s) (k : Nat) (rx : HbmRep) : Keep r (State.hbmRepair s k rx) := by
  unfold State.hbmRepair
  try dsimp only
  repeat' first
    | with_reducible assumption
    | with_reducible exact Keep.refl _
    | with_reducible refine Keep.ite (fun _ => ?_) (fun _ => ?_)
    | with_reducible apply State.wr_keep
    | simp only [keep_mk]
    | split
    | dsimp only

theorem execHbmRepairQuery_keep {r s : State} (h : Keep r s) (k : StackId) (pc : BitVec 6) (bank : BitVec 6) : KeepN r (execHbmRepairQuery k pc bank s) := by
  unfold execHbmRepairQuery
  try dsimp only
  repeat' first
    | with_reducible assumption
    | with_reducible exact Keep.refl _
    | with_reducible refine KeepN.next ?_
    | with_reducible apply State.hbmRepair_keep
    | split
    | dsimp only

theorem execSoftRowRepair_keep {r s : State} (h : Keep r s) (k : StackId) (pc : BitVec 6) (bank : BitVec 6) (row : BitVec 14) (yarrow : Bool) : KeepN r (execSoftRowRepair k pc bank row yarrow s) := by
  unfold execSoftRowRepair
  try dsimp only
  repeat' first
    | with_reducible assumption
    | with_reducible exact Keep.refl _
    | with_reducible refine KeepN.next ?_
    | with_reducible apply State.hbmRepair_keep
    | split
    | dsimp only

theorem execHardRowRepair_keep {r s : State} (h : Keep r s) (k : StackId) (pc : BitVec 6) (bank : BitVec 6) (row : BitVec 14) : KeepN r (execHardRowRepair k pc bank row s) := by
  unfold execHardRowRepair
  try dsimp only
  repeat' first
    | with_reducible assumption
    | with_reducible exact Keep.refl _
    | with_reducible refine KeepN.next ?_
    | with_reducible apply State.hbmRepair_keep
    | split
    | dsimp only

theorem execDqRemap_keep {r s : State} (h : Keep r s) (k : StackId) (pc : BitVec 6) (dq : BitVec 6) (yarrow : Bool) : KeepN r (execDqRemap k pc dq yarrow s) := by
  unfold execDqRemap
  try dsimp only
  repeat' first
    | with_reducible assumption
    | with_reducible exact Keep.refl _
    | with_reducible refine KeepN.next ?_
    | with_reducible apply State.hbmRepair_keep
    | split
    | dsimp only

theorem execClearRemap_keep {r s : State} (h : Keep r s) (k : StackId) (pc : BitVec 6) : KeepN r (execClearRemap k pc s) := by
  unfold execClearRemap
  try dsimp only
  repeat' first
    | with_reducible assumption
    | with_reducible exact Keep.refl _
    | with_reducible refine KeepN.next ?_
    | with_reducible apply State.hbmRepair_keep
    | split
    | dsimp only

theorem State.repairEffect_keep {r s : State} (h : Keep r s) (k : Nat) (x : HbmRep) : Keep r (State.repairEffect s k x) := by
  unfold State.repairEffect
  dsimp only
  split
  · rw [keep_mk]
    refine Keep.foldl h (fun t a ht => Keep.ite (fun _ => ht) (fun _ => Keep.ite (fun _ => State.markLine_keep ht _ _) (fun _ => ?_)))
    exact State.lineRecord_keep (State.setPois_keep (State.bump_keep ht _ _) _ _) _ _
  · refine State.event_keep ?_ _ _ _ _ _
    rw [keep_mk]
    refine Keep.foldl h (fun t a ht => State.setPois_keep ?_ _ _)
    exact Keep.wf ht rfl rfl (fun c => mwf_filter (d := (0 : Byte)) _ c) id id id id id
  · rw [keep_mk]
    split
    · exact Keep.ite (fun _ => State.setMark_keep h _ _ _) (fun _ => h)
    · exact h
  · rw [keep_mk]; exact h
  · exact h

theorem execHbmRepairDone_keep {r s : State} (h : Keep r s) (k : StackId) (res : RepairEnd) (rows : BitVec 4) : KeepN r (execHbmRepairDone k res rows s) := by
  unfold execHbmRepairDone
  try dsimp only
  repeat' first
    | with_reducible assumption
    | with_reducible exact Keep.refl _
    | with_reducible refine Keep.ite (fun _ => ?_) (fun _ => ?_)
    | with_reducible refine KeepN.next ?_
    | with_reducible refine KeepN.ite (fun _ => ?_) (fun _ => ?_)
    | with_reducible apply State.wr_keep
    | with_reducible apply State.repairEffect_keep
    | with_reducible apply State.event_keep
    | simp only [keep_mk]
    | split
    | dsimp only

theorem execHbmMrgGo_keep {r s : State} (h : Keep r s) (k : StackId) (pc : BitVec 6) : KeepN r (execHbmMrgGo k pc s) := by
  unfold execHbmMrgGo
  try dsimp only
  repeat' first
    | with_reducible assumption
    | with_reducible exact Keep.refl _
    | with_reducible refine Keep.ite (fun _ => ?_) (fun _ => ?_)
    | with_reducible refine KeepN.next ?_
    | with_reducible refine KeepN.ite (fun _ => ?_) (fun _ => ?_)
    | with_reducible apply State.wr_keep
    | split
    | dsimp only

theorem State.mrgShow_keep {r s : State} (h : Keep r s) (k : Nat) : Keep r (State.mrgShow s k) := by
  unfold State.mrgShow
  try dsimp only
  repeat' first
    | with_reducible assumption
    | with_reducible exact Keep.refl _
    | with_reducible apply State.setReg_keep
    | split
    | dsimp only

theorem execHbmMrgDone_keep {r s : State} (h : Keep r s) (k : StackId) (eyes : List (BitVec 33)) : KeepN r (execHbmMrgDone k eyes s) := by
  unfold execHbmMrgDone
  try dsimp only
  repeat' first
    | with_reducible assumption
    | with_reducible exact Keep.refl _
    | with_reducible refine Keep.ite (fun _ => ?_) (fun _ => ?_)
    | with_reducible refine KeepN.next ?_
    | with_reducible refine KeepN.ite (fun _ => ?_) (fun _ => ?_)
    | with_reducible apply State.wr_keep
    | with_reducible apply State.mrgShow_keep
    | simp only [keep_mk]
    | with_reducible refine Keep.foldl ?_ (fun _ _ _ => ?_)
    | with_reducible refine Keep.foldl_fst ?_ (fun _ _ _ => ?_)
    | split
    | dsimp only

end Sys2Proof.Machine
end

