-- ==== Sys2Proof/Laws/KeepLoupe.lean ====
section
/-!
SUPPORT. The operations of Machine/Loupe.lean keep the queue, the canonical forms and the freshness of free values.
-/

namespace Sys2Proof.Machine

open Sys2Proof

theorem State.setLou_keep {r s : State} (h : Keep r s) (d : Nat) (l : LouSt) : Keep r (State.setLou s d l) := by
  unfold State.setLou
  try dsimp only
  repeat' first
    | with_reducible assumption
    | with_reducible exact Keep.refl _
    | simp only [keep_mk]
    | split
    | dsimp only

theorem State.louRecs_keep {r s : State} (h : Keep r s) (d : Nat) : Keep r (State.louRecs s d) := by
  unfold State.louRecs
  try dsimp only
  repeat' first
    | with_reducible assumption
    | with_reducible exact Keep.refl _
    | with_reducible apply State.wr_keep
    | with_reducible apply State.setReg_keep
    | with_reducible refine Keep.foldl ?_ (fun _ _ _ => ?_)
    | with_reducible refine Keep.foldl_fst ?_ (fun _ _ _ => ?_)
    | split
    | dsimp only

theorem State.louHalt_keep {r s : State} (h : Keep r s) (d : Nat) (tiles : List Nat) : Keep r (State.louHalt s d tiles) := by
  unfold State.louHalt
  try dsimp only
  repeat' first
    | with_reducible assumption
    | with_reducible exact Keep.refl _
    | with_reducible apply State.wr_keep
    | with_reducible apply State.setLou_keep
    | simp only [keep_mk]
    | with_reducible refine Keep.foldl ?_ (fun _ _ _ => ?_)
    | with_reducible refine Keep.foldl_fst ?_ (fun _ _ _ => ?_)
    | split
    | dsimp only

theorem State.louAct_keep {r s : State} (h : Keep r s) (d : Nat) (pt : Patch) (dr : List Word) : Keep r (State.louAct s d pt dr) := by
  unfold State.louAct
  try dsimp only
  repeat' first
    | with_reducible assumption
    | with_reducible exact Keep.refl _
    | with_reducible refine Keep.ite (fun _ => ?_) (fun _ => ?_)
    | with_reducible apply State.psc_keep
    | with_reducible apply State.event_keep
    | with_reducible apply State.louHalt_keep
    | with_reducible apply State.setLou_keep
    | simp only [keep_mk]
    | split
    | dsimp only

theorem State.disagree_keep {r s : State} (h : Keep r s) (d : Nat) (pt : Patch) (x : PatchEl) (k : Nat) : Keep r (State.disagree s d pt x k) := by
  unfold State.disagree
  try dsimp only
  repeat' first
    | with_reducible assumption
    | with_reducible exact Keep.refl _
    | with_reducible refine Keep.ite (fun _ => ?_) (fun _ => ?_)
    | with_reducible apply State.bump_keep
    | with_reducible apply State.setLou_keep
    | with_reducible apply State.louAct_keep
    | with_reducible apply State.louRecs_keep
    | simp only [keep_mk]
    | split
    | dsimp only

theorem State.checkEls_keep {r s : State} (h : Keep r s) (d : Nat) (pt : Patch) (k : Nat) (a4 : List PatchEl) : Keep r (State.checkEls s d pt k a4) := by
  induction a4 generalizing s d pt k with
  | nil => exact h
  | cons x l ih =>
    unfold State.checkEls
    try dsimp only
    repeat' first
      | with_reducible assumption
      | with_reducible exact Keep.refl _
      | with_reducible refine Keep.ite (fun _ => ?_) (fun _ => ?_)
      | with_reducible apply State.disagree_keep
      | with_reducible apply ih
      | split
      | dsimp only

theorem execPatchArrive_keep {r s : State} (h : Keep r s) (die : DieId) : KeepN r (execPatchArrive die s) := by
  unfold execPatchArrive
  try dsimp only
  repeat' first
    | with_reducible assumption
    | with_reducible exact Keep.refl _
    | with_reducible refine Keep.ite (fun _ => ?_) (fun _ => ?_)
    | with_reducible refine KeepN.next ?_
    | with_reducible refine KeepN.ite (fun _ => ?_) (fun _ => ?_)
    | with_reducible apply State.setLou_keep
    | with_reducible apply State.bump_keep
    | simp only [keep_mk]
    | split
    | dsimp only

theorem execPatchCheck_keep {r s : State} (h : Keep r s) (die : DieId) : KeepN r (execPatchCheck die s) := by
  unfold execPatchCheck
  try dsimp only
  repeat' first
    | with_reducible assumption
    | with_reducible exact Keep.refl _
    | with_reducible refine Keep.ite (fun _ => ?_) (fun _ => ?_)
    | with_reducible refine KeepN.next ?_
    | with_reducible refine KeepN.ite (fun _ => ?_) (fun _ => ?_)
    | with_reducible apply State.checkEls_keep
    | with_reducible apply State.wrap_keep
    | with_reducible apply State.setLou_keep
    | simp only [keep_mk]
    | split
    | dsimp only

theorem execLoupeHaltNotice_keep {r s : State} (h : Keep r s) (die : DieId) : KeepN r (execLoupeHaltNotice die s) := by
  unfold execLoupeHaltNotice
  try dsimp only
  repeat' first
    | with_reducible assumption
    | with_reducible exact Keep.refl _
    | with_reducible refine Keep.ite (fun _ => ?_) (fun _ => ?_)
    | with_reducible refine KeepN.next ?_
    | with_reducible refine KeepN.ite (fun _ => ?_) (fun _ => ?_)
    | with_reducible apply State.setLou_keep
    | with_reducible apply State.louHalt_keep
    | simp only [keep_mk]
    | split
    | dsimp only

theorem execLouResume_keep {r s : State} (h : Keep r s) (die : DieId) : KeepN r (execLouResume die s) := by
  unfold execLouResume
  try dsimp only
  repeat' first
    | with_reducible assumption
    | with_reducible exact Keep.refl _
    | with_reducible refine KeepN.next ?_
    | with_reducible apply State.wr_keep
    | with_reducible apply State.setLou_keep
    | with_reducible apply State.takeWake_keep
    | simp only [keep_mk]
    | with_reducible refine Keep.foldl ?_ (fun _ _ _ => ?_)
    | with_reducible refine Keep.foldl_fst ?_ (fun _ _ _ => ?_)
    | split
    | dsimp only

theorem execLouClear_keep {r s : State} (h : Keep r s) (die : DieId) : KeepN r (execLouClear die s) := by
  unfold execLouClear
  try dsimp only
  repeat' first
    | with_reducible assumption
    | with_reducible exact Keep.refl _
    | with_reducible refine KeepN.next ?_
    | with_reducible apply State.setLou_keep
    | simp only [keep_mk]
    | split
    | dsimp only

theorem execLouPop_keep {r s : State} (h : Keep r s) (die : DieId) : KeepN r (execLouPop die s) := by
  unfold execLouPop
  try dsimp only
  repeat' first
    | with_reducible assumption
    | with_reducible exact Keep.refl _
    | with_reducible refine KeepN.next ?_
    | with_reducible apply State.louRecs_keep
    | with_reducible apply State.setLou_keep
    | simp only [keep_mk]
    | split
    | dsimp only

theorem State.bistTake_keep {r s : State} (h : Keep r s) (d : Nat) : Keep r (State.bistTake s d) := by
  unfold State.bistTake
  try dsimp only
  repeat' first
    | with_reducible assumption
    | with_reducible exact Keep.refl _
    | with_reducible refine Keep.ite (fun _ => ?_) (fun _ => ?_)
    | with_reducible apply State.bump_keep
    | with_reducible apply State.setLou_keep
    | with_reducible apply State.wr_keep
    | simp only [keep_mk]
    | split
    | dsimp only

theorem State.bistGive_keep {r s : State} (h : Keep r s) (d : Nat) : Keep r (State.bistGive s d) := by
  unfold State.bistGive
  try dsimp only
  repeat' first
    | with_reducible assumption
    | with_reducible exact Keep.refl _
    | with_reducible apply State.wr_keep
    | split
    | dsimp only

end Sys2Proof.Machine
end

