-- ==== Sys2Proof/Laws/KeepYarrow.lean ====
section
/-!
SUPPORT. The operations of Machine/Yarrow.lean keep the queue, the canonical forms and the freshness of free values.
-/

namespace Sys2Proof.Machine

open Sys2Proof

theorem State.setPhys_keep {r s : State} (h : Keep r s) (n : Nat) (p : Nat) : Keep r (State.setPhys s n p) := by
  unfold State.setPhys
  try dsimp only
  repeat' first
    | with_reducible assumption
    | with_reducible exact Keep.refl _
    | with_reducible apply State.wr_keep
    | split
    | dsimp only

theorem State.refreshSpare_keep {r s : State} (h : Keep r s) : Keep r (State.refreshSpare s) := by
  unfold State.refreshSpare
  try dsimp only
  repeat' first
    | with_reducible assumption
    | with_reducible exact Keep.refl _
    | with_reducible apply State.wr_keep
    | split
    | dsimp only

theorem State.ebResult_keep {r s : State} (h : Keep r s) (e : Nat) (kind : Nat) (index : Nat) (verdict : Nat) (cause : Nat) (cov : Nat) (dur : Nat) (fails : Nat) (repair : Nat) (first : Word) : Keep r (State.ebResult s e kind index verdict cause cov dur fails repair first) := by
  unfold State.ebResult
  try dsimp only
  repeat' first
    | with_reducible assumption
    | with_reducible exact Keep.refl _
    | with_reducible refine Keep.ite (fun _ => ?_) (fun _ => ?_)
    | with_reducible apply State.setReg_keep
    | with_reducible apply State.wr_keep
    | with_reducible apply State.event_keep
    | split
    | dsimp only

theorem State.ebRelease_keep {r s : State} (h : Keep r s) (rx : EbRun) : Keep r (State.ebRelease s rx) := by
  unfold State.ebRelease
  try dsimp only
  repeat' first
    | with_reducible assumption
    | with_reducible exact Keep.refl _
    | with_reducible refine Keep.ite (fun _ => ?_) (fun _ => ?_)
    | with_reducible apply State.bistGive_keep
    | split
    | dsimp only

theorem State.queueTile_keep {r s : State} (h : Keep r s) (p : Nat) : Keep r (State.queueTile s p).1 := by
  unfold State.queueTile
  try dsimp only
  repeat' first
    | with_reducible assumption
    | with_reducible exact Keep.refl _
    | with_reducible refine Keep.ite (fun _ => ?_) (fun _ => ?_)
    | with_reducible refine Keep.fst_ite (fun _ => ?_) (fun _ => ?_)
    | with_reducible apply State.wr_keep
    | with_reducible apply State.event_keep
    | simp only [keep_mk]
    | split
    | dsimp only

theorem State.queueWay_keep {r s : State} (h : Keep r s) (d : Nat) (w : Nat) : Keep r (State.queueWay s d w).1 := by
  unfold State.queueWay
  try dsimp only
  repeat' first
    | with_reducible assumption
    | with_reducible exact Keep.refl _
    | with_reducible refine Keep.ite (fun _ => ?_) (fun _ => ?_)
    | with_reducible refine Keep.fst_ite (fun _ => ?_) (fun _ => ?_)
    | with_reducible apply State.event_keep
    | with_reducible apply State.wr_keep
    | simp only [keep_mk]
    | split
    | dsimp only

theorem State.tileStop_keep {r s : State} (h : Keep r s) (n : Nat) : Keep r (State.tileStop s n) := by
  unfold State.tileStop
  try dsimp only
  repeat' first
    | with_reducible assumption
    | with_reducible exact Keep.refl _
    | with_reducible refine Keep.ite (fun _ => ?_) (fun _ => ?_)
    | with_reducible apply State.setTile_keep
    | simp only [keep_mk]
    | split
    | dsimp only

theorem State.putBack_keep {r s : State} (h : Keep r s) (n : Nat) (ws : List Work) : Keep r (State.putBack s n ws) := by
  unfold State.putBack
  try dsimp only
  repeat' first
    | with_reducible assumption
    | with_reducible exact Keep.refl _
    | with_reducible apply State.groupBusy_keep
    | with_reducible apply State.setTile_keep
    | simp only [keep_mk]
    | with_reducible refine Keep.foldl ?_ (fun _ _ _ => ?_)
    | with_reducible refine Keep.foldl_fst ?_ (fun _ _ _ => ?_)
    | split
    | dsimp only

theorem State.epochLost_keep {r s : State} (h : Keep r s) (n : Nat) : Keep r (State.epochLost s n) := by
  unfold State.epochLost
  try dsimp only
  repeat' first
    | with_reducible assumption
    | with_reducible exact Keep.refl _
    | with_reducible apply State.bump_keep
    | with_reducible apply State.event_keep
    | split
    | dsimp only

theorem State.loseHeld_keep {r s : State} (h : Keep r s) (n : Nat) : Keep r (State.loseHeld s n) := by
  unfold State.loseHeld
  try dsimp only
  repeat' first
    | with_reducible assumption
    | with_reducible exact Keep.refl _
    | with_reducible refine Keep.ite (fun _ => ?_) (fun _ => ?_)
    | with_reducible apply State.wr_keep
    | with_reducible apply State.epoClose_keep
    | with_reducible apply State.served_keep
    | with_reducible refine Keep.foldl ?_ (fun _ _ _ => ?_)
    | with_reducible refine Keep.foldl_fst ?_ (fun _ _ _ => ?_)
    | split
    | dsimp only

theorem State.tileOffline_keep {r s : State} (h : Keep r s) (n : Nat) (phys : Nat) : Keep r (State.tileOffline s n phys) := by
  unfold State.tileOffline
  try dsimp only
  repeat' first
    | with_reducible assumption
    | with_reducible exact Keep.refl _
    | with_reducible apply State.setTile_keep
    | with_reducible apply State.wr_keep
    | with_reducible apply State.setTst_keep
    | with_reducible apply State.groupBusy_keep
    | with_reducible apply State.refuse_keep
    | with_reducible apply State.refreshSpare_keep
    | with_reducible apply State.pacerLost_keep
    | with_reducible apply State.refreshList_keep
    | with_reducible apply State.refreshPorts_keep
    | with_reducible apply State.unbind_keep
    | with_reducible apply State.prsTileLost_keep
    | with_reducible apply State.event_keep
    | simp only [keep_mk]
    | with_reducible refine Keep.foldl ?_ (fun _ _ _ => ?_)
    | with_reducible refine Keep.foldl_fst ?_ (fun _ _ _ => ?_)
    | split
    | dsimp only

theorem State.ebTaken_keep {r s : State} (h : Keep r s) (spare : Nat) : Keep r (State.ebTaken s spare) := by
  unfold State.ebTaken
  try dsimp only
  repeat' first
    | with_reducible assumption
    | with_reducible exact Keep.refl _
    | with_reducible apply State.fresh_keep
    | with_reducible apply State.ebResult_keep
    | with_reducible apply State.bump_keep
    | with_reducible apply State.ebRelease_keep
    | simp only [keep_mk]
    | with_reducible refine Keep.snd_eq (by assumption) ?_
    | split
    | dsimp only

theorem State.tileFault_keep {r s : State} (h : Keep r s) (n : Nat) (cause : Nat) : Keep r (State.tileFault s n cause) := by
  unfold State.tileFault
  try dsimp only
  repeat' first
    | with_reducible assumption
    | with_reducible exact Keep.refl _
    | with_reducible refine Keep.ite (fun _ => ?_) (fun _ => ?_)
    | with_reducible apply State.bump_keep
    | with_reducible apply State.queueTile_keep
    | with_reducible apply State.event_keep
    | with_reducible apply State.loseHeld_keep
    | with_reducible apply State.epochLost_keep
    | with_reducible apply State.tileOffline_keep
    | with_reducible apply State.tileStop_keep
    | with_reducible apply State.prsTileLost_keep
    | with_reducible apply State.wr_keep
    | with_reducible apply State.putBack_keep
    | with_reducible apply State.setEpoSt_keep
    | with_reducible apply State.setEpo_keep
    | with_reducible apply State.refreshSpare_keep
    | with_reducible apply State.ebTaken_keep
    | with_reducible apply State.setTst_keep
    | simp only [keep_mk]
    | with_reducible refine Keep.fst_eq (by assumption) ?_
    | split
    | dsimp only

theorem execTileFaultDeclare_keep {r s : State} (h : Keep r s) (n : TileId) (cause : TileFaultCause) : KeepN r (execTileFaultDeclare n cause s) := by
  unfold execTileFaultDeclare
  try dsimp only
  repeat' first
    | with_reducible assumption
    | with_reducible exact Keep.refl _
    | with_reducible refine KeepN.next ?_
    | with_reducible apply State.tileFault_keep
    | simp only [keep_mk]
    | split
    | dsimp only

theorem execHeartbeatLoss_keep {r s : State} (h : Keep r s) (n : TileId) : KeepN r (execHeartbeatLoss n s) := by
  unfold execHeartbeatLoss
  try dsimp only
  repeat' first
    | with_reducible assumption
    | with_reducible exact Keep.refl _
    | with_reducible refine KeepN.next ?_
    | with_reducible apply State.tileFault_keep
    | split
    | dsimp only

theorem execMappingInstalled_keep {r s : State} (h : Keep r s) (n : TileId) : KeepN r (execMappingInstalled n s) := by
  unfold execMappingInstalled
  split
  · exact KeepN.next h
  · refine KeepN.ite (fun _ => KeepN.next h) (fun _ => KeepN.next ?_)
    refine State.refreshSpare_keep (State.setTst_keep (State.setTile_keep (State.setPhys_keep ?_ _ _) _ _) _ _)
    exact Keep.wf h rfl rfl id id id id id (fun c => regsWf_filter _ c)

end Sys2Proof.Machine
end

