-- ==== Sys2Proof/Laws/KeepEyebright.lean ====
section
/-!
SUPPORT. The operations of Machine/Eyebright.lean keep the queue, the canonical forms and the freshness of free values.
-/

namespace Sys2Proof.Machine

open Sys2Proof

theorem State.ebIsolate_keep {r s : State} (h : Keep r s) (e : Nat) (kind : Nat) (index : Nat) : Keep r (State.ebIsolate s e kind index) := by
  unfold State.ebIsolate
  try dsimp only
  repeat' first
    | with_reducible assumption
    | with_reducible exact Keep.refl _
    | with_reducible apply State.bistTake_keep
    | with_reducible apply State.scTrim_keep
    | with_reducible apply State.refreshFgnPorts_keep
    | with_reducible apply State.lkDisable_keep
    | with_reducible apply State.lkLose_keep
    | simp only [keep_mk]
    | split
    | dsimp only

theorem execEbGo_keep {r s : State} (h : Keep r s) (e : EbEngine) (kind : BitVec 4) (index : BitVec 12) (tapOwns : Bool) : KeepN r (execEbGo e kind index tapOwns s) := by
  unfold execEbGo
  try dsimp only
  repeat' first
    | with_reducible assumption
    | with_reducible exact Keep.refl _
    | with_reducible refine Keep.ite (fun _ => ?_) (fun _ => ?_)
    | with_reducible refine KeepN.next ?_
    | with_reducible refine KeepN.ite (fun _ => ?_) (fun _ => ?_)
    | with_reducible apply State.wr_keep
    | with_reducible apply State.ebResult_keep
    | with_reducible apply State.ebIsolate_keep
    | simp only [keep_mk]
    | split
    | dsimp only

theorem State.ebReinit_keep {r s : State} (h : Keep r s) (e : Nat) (rx : EbRun) : Keep r (State.ebReinit s e rx) := by
  unfold State.ebReinit
  try dsimp only
  repeat' first
    | with_reducible assumption
    | with_reducible exact Keep.refl _
    | with_reducible refine Keep.ite (fun _ => ?_) (fun _ => ?_)
    | with_reducible apply State.ebRelease_keep
    | with_reducible apply State.refreshWays_keep
    | with_reducible apply State.rebuildPc_keep
    | with_reducible apply State.refreshFgnPorts_keep
    | with_reducible apply State.lkEnable_keep
    | with_reducible apply State.setCoreSt_keep
    | simp only [keep_mk]
    | split
    | dsimp only

theorem execEbAbort_keep {r s : State} (h : Keep r s) (e : EbEngine) (duration : W32) : KeepN r (execEbAbort e duration s) := by
  unfold execEbAbort
  try dsimp only
  repeat' first
    | with_reducible assumption
    | with_reducible exact Keep.refl _
    | with_reducible refine KeepN.next ?_
    | with_reducible apply State.bump_keep
    | with_reducible apply State.ebReinit_keep
    | with_reducible apply State.ebResult_keep
    | simp only [keep_mk]
    | split
    | dsimp only

theorem State.ebSoft_keep {r s : State} (h : Keep r s) (e : Nat) (rx : EbRun) (f : EbFinding) : Keep r (State.ebSoft s e rx f).1 := by
  unfold State.ebSoft
  try dsimp only
  repeat' first
    | with_reducible assumption
    | with_reducible exact Keep.refl _
    | with_reducible refine Keep.ite (fun _ => ?_) (fun _ => ?_)
    | with_reducible refine Keep.fst_ite (fun _ => ?_) (fun _ => ?_)
    | with_reducible apply State.wayOff_keep
    | with_reducible apply State.hbmRepair_keep
    | simp only [keep_mk]
    | with_reducible refine Keep.fst_eq (by assumption) ?_
    | split
    | dsimp only

theorem State.ebFuse_keep {r s : State} (h : Keep r s) (e : Nat) (rx : EbRun) (f : EbFinding) : Keep r (State.ebFuse s e rx f).1 := by
  unfold State.ebFuse
  try dsimp only
  repeat' first
    | with_reducible assumption
    | with_reducible exact Keep.refl _
    | with_reducible refine Keep.ite (fun _ => ?_) (fun _ => ?_)
    | with_reducible refine Keep.fst_ite (fun _ => ?_) (fun _ => ?_)
    | with_reducible apply State.queueTile_keep
    | with_reducible apply State.queueWay_keep
    | simp only [keep_mk]
    | with_reducible refine Keep.fst_eq (by assumption) ?_
    | split
    | dsimp only

theorem execEbTestComplete_keep {r s : State} (h : Keep r s) (e : EbEngine) (f : EbFinding) : KeepN r (execEbTestComplete e f s) := by
  unfold execEbTestComplete
  try dsimp only
  repeat' first
    | with_reducible assumption
    | with_reducible exact Keep.refl _
    | with_reducible refine Keep.ite (fun _ => ?_) (fun _ => ?_)
    | with_reducible refine KeepN.next ?_
    | with_reducible refine KeepN.ite (fun _ => ?_) (fun _ => ?_)
    | with_reducible apply State.wrap_keep
    | with_reducible apply State.ebReinit_keep
    | with_reducible apply State.ebResult_keep
    | with_reducible apply State.bump_keep
    | with_reducible apply State.ebSoft_keep
    | with_reducible apply State.ebFuse_keep
    | simp only [keep_mk]
    | with_reducible refine Keep.fst_eq (by assumption) ?_
    | split
    | dsimp only

theorem State.injWrite_keep {r s : State} (h : Keep r s) (kind : Nat) (target : Nat) : Keep r (State.injWrite s kind target) := by
  unfold State.injWrite
  try dsimp only
  repeat' first
    | with_reducible assumption
    | with_reducible exact Keep.refl _
    | with_reducible apply State.wr_keep
    | split
    | dsimp only

theorem State.injTile_keep {r s : State} (h : Keep r s) (n : Nat) (f : State → State)
    (hf : Keep r (f s)) : Keep r (State.injTile s n f) := by
  unfold State.injTile
  exact Keep.ite (fun _ => State.wr_keep h _ _ _) (fun _ => hf)

theorem execInjTileFault_keep {r s : State} (h : Keep r s) (target : BitVec 7) : KeepN r (execInjTileFault target s) := by
  unfold execInjTileFault
  try dsimp only
  repeat' first
    | with_reducible assumption
    | with_reducible exact Keep.refl _
    | with_reducible refine KeepN.next ?_
    | with_reducible apply State.injTile_keep
    | with_reducible apply State.injWrite_keep
    | with_reducible apply State.tileFault_keep
    | split
    | dsimp only

theorem execInjHeartbeatStop_keep {r s : State} (h : Keep r s) (target : BitVec 7) : KeepN r (execInjHeartbeatStop target s) := by
  unfold execInjHeartbeatStop
  try dsimp only
  repeat' first
    | with_reducible assumption
    | with_reducible exact Keep.refl _
    | with_reducible refine KeepN.next ?_
    | with_reducible apply State.injTile_keep
    | with_reducible apply State.injWrite_keep
    | with_reducible apply State.setTile_keep
    | simp only [keep_mk]
    | split
    | dsimp only

theorem execInjHbmCorrupt_keep {r s : State} (h : Keep r s) : KeepN r (execInjHbmCorrupt s) := by
  unfold execInjHbmCorrupt
  try dsimp only
  repeat' first
    | with_reducible assumption
    | with_reducible exact Keep.refl _
    | with_reducible refine Keep.ite (fun _ => ?_) (fun _ => ?_)
    | with_reducible refine KeepN.next ?_
    | with_reducible refine KeepN.ite (fun _ => ?_) (fun _ => ?_)
    | with_reducible apply State.wr_keep
    | simp only [keep_mk]
    | split
    | dsimp only

theorem execInjLinkDrop_keep {r s : State} (h : Keep r s) (target : BitVec 7) : KeepN r (execInjLinkDrop target s) := by
  unfold execInjLinkDrop
  try dsimp only
  repeat' first
    | with_reducible assumption
    | with_reducible exact Keep.refl _
    | with_reducible refine Keep.ite (fun _ => ?_) (fun _ => ?_)
    | with_reducible refine KeepN.next ?_
    | with_reducible refine KeepN.ite (fun _ => ?_) (fun _ => ?_)
    | with_reducible apply State.injWrite_keep
    | with_reducible apply State.lkLose_keep
    | split
    | dsimp only

theorem State.wayNamed_keep {r s : State} (h : Keep r s) (d : Nat) (w : Nat) : Keep r (State.wayNamed s d w) := by
  unfold State.wayNamed
  try dsimp only
  repeat' first
    | with_reducible assumption
    | with_reducible exact Keep.refl _
    | with_reducible apply State.wr_keep
    | split
    | dsimp only

theorem execWayDis_keep {r s : State} (h : Keep r s) (die : DieId) (way : BitVec 4) : KeepN r (execWayDis die way s) := by
  unfold execWayDis
  try dsimp only
  repeat' first
    | with_reducible assumption
    | with_reducible exact Keep.refl _
    | with_reducible refine KeepN.next ?_
    | with_reducible apply State.wayOff_keep
    | with_reducible apply State.wayNamed_keep
    | with_reducible refine Keep.fst_eq (by assumption) ?_
    | split
    | dsimp only

theorem execWayEn_keep {r s : State} (h : Keep r s) (die : DieId) (way : BitVec 4) : KeepN r (execWayEn die way s) := by
  unfold execWayEn
  try dsimp only
  repeat' first
    | with_reducible assumption
    | with_reducible exact Keep.refl _
    | with_reducible refine KeepN.next ?_
    | with_reducible apply State.wayNamed_keep
    | with_reducible apply State.refreshWays_keep
    | with_reducible apply State.wr_keep
    | split
    | dsimp only

theorem execQueueTile_keep {r s : State} (h : Keep r s) (ptile : BitVec 7) : KeepN r (execQueueTile ptile s) := by
  unfold execQueueTile
  try dsimp only
  repeat' first
    | with_reducible assumption
    | with_reducible exact Keep.refl _
    | with_reducible refine Keep.ite (fun _ => ?_) (fun _ => ?_)
    | with_reducible refine KeepN.next ?_
    | with_reducible refine KeepN.ite (fun _ => ?_) (fun _ => ?_)
    | with_reducible apply State.wr_keep
    | with_reducible apply State.queueTile_keep
    | with_reducible refine Keep.fst_eq (by assumption) ?_
    | split
    | dsimp only

end Sys2Proof.Machine
end

