-- ==== Sys2Proof/Laws/KeepLedger.lean ====
section
/-!
SUPPORT. The operations of Machine/Ledger.lean keep the queue, the canonical forms and the freshness of free values.
-/

namespace Sys2Proof.Machine

open Sys2Proof

theorem State.ledgerRefuse_keep {r s : State} (h : Keep r s) (d : Nat) : Keep r (State.ledgerRefuse s d) := by
  unfold State.ledgerRefuse
  try dsimp only
  repeat' first
    | with_reducible assumption
    | with_reducible exact Keep.refl _
    | with_reducible apply State.bump_keep
    | split
    | dsimp only

theorem execLedgerAdd_keep {r s : State} (h : Keep r s) (die : DieId) (cell : BitVec 18) (bf16 : Bool) (operand : W32) : KeepN r (execLedgerAdd die cell bf16 operand s) := by
  unfold execLedgerAdd
  try dsimp only
  repeat' first
    | with_reducible assumption
    | with_reducible exact Keep.refl _
    | with_reducible refine Keep.ite (fun _ => ?_) (fun _ => ?_)
    | with_reducible refine KeepN.next ?_
    | with_reducible refine KeepN.ite (fun _ => ?_) (fun _ => ?_)
    | with_reducible apply State.ledgerAdd_keep
    | with_reducible apply State.ledgerRefuse_keep
    | simp only [keep_mk]
    | split
    | dsimp only

theorem execLedgerRead_keep {r s : State} (h : Keep r s) (die : DieId) (cell : BitVec 18) (bf16 : Bool) : KeepN r (execLedgerRead die cell bf16 s) := by
  unfold execLedgerRead
  try dsimp only
  repeat' first
    | with_reducible assumption
    | with_reducible exact Keep.refl _
    | with_reducible refine Keep.ite (fun _ => ?_) (fun _ => ?_)
    | with_reducible refine KeepN.next ?_
    | with_reducible refine KeepN.ite (fun _ => ?_) (fun _ => ?_)
    | with_reducible apply State.ledgerRead_keep
    | with_reducible apply State.ledgerRefuse_keep
    | simp only [keep_mk]
    | with_reducible refine Keep.fst_eq (by assumption) ?_
    | split
    | dsimp only

theorem State.ledgerZero_keep {r s : State} (h : Keep r s) (d : Nat) (first : Nat) (n : Nat) : Keep r (State.ledgerZero s d first n) := by
  unfold State.ledgerZero
  try dsimp only
  repeat' first
    | with_reducible assumption
    | with_reducible exact Keep.refl _
    | simp only [keep_mk]
    | split
    | dsimp only

theorem execLedgerClearGo_keep {r s : State} (h : Keep r s) (die : DieId) (value : Word) : KeepN r (execLedgerClearGo die value s) := by
  unfold execLedgerClearGo
  try dsimp only
  repeat' first
    | with_reducible assumption
    | with_reducible exact Keep.refl _
    | with_reducible refine Keep.ite (fun _ => ?_) (fun _ => ?_)
    | with_reducible refine KeepN.next ?_
    | with_reducible refine KeepN.ite (fun _ => ?_) (fun _ => ?_)
    | with_reducible apply State.wr_keep
    | with_reducible apply State.ledgerZero_keep
    | split
    | dsimp only

theorem execLedgerClearDone_keep {r s : State} (h : Keep r s) (die : DieId) : KeepN r (execLedgerClearDone die s) := by
  unfold execLedgerClearDone
  try dsimp only
  repeat' first
    | with_reducible assumption
    | with_reducible exact Keep.refl _
    | with_reducible refine KeepN.next ?_
    | with_reducible apply State.wr_keep
    | split
    | dsimp only

theorem State.ledgerSize_keep {r s : State} (h : Keep r s) (d : Nat) (size : Nat) : Keep r (State.ledgerSize s d size) := by
  unfold State.ledgerSize
  try dsimp only
  repeat' first
    | with_reducible assumption
    | with_reducible exact Keep.refl _
    | with_reducible refine Keep.ite (fun _ => ?_) (fun _ => ?_)
    | with_reducible apply State.wr_keep
    | split
    | dsimp only

theorem execLedgerLock_keep {r s : State} (h : Keep r s) (die : DieId) (value : Word) : KeepN r (execLedgerLock die value s) := by
  unfold execLedgerLock
  try dsimp only
  repeat' first
    | with_reducible assumption
    | with_reducible exact Keep.refl _
    | with_reducible refine KeepN.next ?_
    | with_reducible apply State.scTrim_keep
    | with_reducible apply State.wr_keep
    | with_reducible apply State.ledgerSize_keep
    | split
    | dsimp only

end Sys2Proof.Machine
end

