-- ==== Sys2Proof/Laws/KeepMgmt.lean ====
section
/-!
SUPPORT. The operations of Machine/Mgmt.lean keep the queue, the canonical forms and the freshness of free values.
-/

namespace Sys2Proof.Machine

open Sys2Proof

theorem State.fwLog_keep {r s : State} (h : Keep r s) (c : Nat) : Keep r (State.fwLog s c) := by
  unfold State.fwLog
  try dsimp only
  repeat' first
    | with_reducible assumption
    | with_reducible exact Keep.refl _
    | with_reducible apply State.logRec_keep
    | split
    | dsimp only

theorem State.fwFail_keep {r s : State} (h : Keep r s) (c : Nat) : Keep r (State.fwFail s c) := by
  unfold State.fwFail
  try dsimp only
  repeat' first
    | with_reducible assumption
    | with_reducible exact Keep.refl _
    | with_reducible apply State.fwLog_keep
    | with_reducible apply State.bump_keep
    | with_reducible apply State.wr_keep
    | split
    | dsimp only

theorem State.fwConfirm_keep {r s : State} (h : Keep r s) (c : Nat) : Keep r (State.fwConfirm s c) := by
  unfold State.fwConfirm
  try dsimp only
  repeat' first
    | with_reducible assumption
    | with_reducible exact Keep.refl _
    | with_reducible refine Keep.ite (fun _ => ?_) (fun _ => ?_)
    | with_reducible apply State.fwLog_keep
    | with_reducible apply State.wr_keep
    | split
    | dsimp only

theorem State.fwTakeActive_keep {r s : State} (h : Keep r s) (c : Nat) : Keep r (State.fwTakeActive s c).1 := by
  unfold State.fwTakeActive
  try dsimp only
  repeat' first
    | with_reducible assumption
    | with_reducible exact Keep.refl _
    | with_reducible refine Keep.ite (fun _ => ?_) (fun _ => ?_)
    | with_reducible refine Keep.fst_ite (fun _ => ?_) (fun _ => ?_)
    | with_reducible apply State.fwFail_keep
    | with_reducible apply State.wr_keep
    | split
    | dsimp only

theorem State.fwTake_keep {r s : State} (h : Keep r s) (c : Nat) : Keep r (State.fwTake s c).1 := by
  unfold State.fwTake
  try dsimp only
  repeat' first
    | with_reducible assumption
    | with_reducible exact Keep.refl _
    | with_reducible refine Keep.ite (fun _ => ?_) (fun _ => ?_)
    | with_reducible refine Keep.fst_ite (fun _ => ?_) (fun _ => ?_)
    | with_reducible apply State.fwFail_keep
    | with_reducible apply State.wr_keep
    | with_reducible apply State.fwTakeActive_keep
    | with_reducible refine Keep.fst_eq (by assumption) ?_
    | split
    | dsimp only

theorem State.respond_keep {r s : State} (h : Keep r s) (code : Nat) (data : List Byte) : Keep r (State.respond s code data) := by
  unfold State.respond
  try dsimp only
  repeat' first
    | with_reducible assumption
    | with_reducible exact Keep.refl _
    | simp only [keep_mk]
    | split
    | dsimp only

theorem State.sideband_keep {r s : State} (h : Keep r s) (inRom : Bool) (serve : State → State)
    (hf : Keep r (serve s)) : Keep r (State.sideband s inRom serve) := by
  unfold State.sideband
  refine Keep.ite (fun _ => Keep.ite (fun _ => hf) (fun _ => State.respond_keep h _ _)) (fun _ =>
    Keep.ite (fun _ => hf) (fun _ => ?_))
  rw [keep_mk]; exact h

theorem execGetBoot_keep {r s : State} (h : Keep r s) : KeepN r (execGetBoot s) := by
  unfold execGetBoot
  try dsimp only
  repeat' first
    | with_reducible assumption
    | with_reducible exact Keep.refl _
    | with_reducible refine KeepN.next ?_
    | with_reducible apply State.sideband_keep
    | with_reducible apply State.respond_keep
    | split
    | dsimp only

theorem State.setWall_keep {r s : State} (h : Keep r s) (secs : Word) : Keep r (State.setWall s secs) := by
  unfold State.setWall
  try dsimp only
  repeat' first
    | with_reducible assumption
    | with_reducible exact Keep.refl _
    | with_reducible apply State.logRec_keep
    | simp only [keep_mk]
    | split
    | dsimp only

theorem execSetWall_keep {r s : State} (h : Keep r s) (seconds : Word) : KeepN r (execSetWall seconds s) := by
  unfold execSetWall
  try dsimp only
  repeat' first
    | with_reducible assumption
    | with_reducible exact Keep.refl _
    | with_reducible refine KeepN.next ?_
    | with_reducible apply State.sideband_keep
    | with_reducible apply State.respond_keep
    | with_reducible apply State.setWall_keep
    | split
    | dsimp only

theorem execMgtWallWrite_keep {r s : State} (h : Keep r s) (seconds : Word) : KeepN r (execMgtWallWrite seconds s) := by
  unfold execMgtWallWrite
  try dsimp only
  repeat' first
    | with_reducible assumption
    | with_reducible exact Keep.refl _
    | with_reducible refine KeepN.next ?_
    | with_reducible apply State.setWall_keep
    | split
    | dsimp only

theorem State.logBytes_keep {r s : State} (h : Keep r s) (off : Nat) (a2 : Nat) : Keep r (State.logBytes s off a2).1 := by
  induction a2 generalizing s off with
  | zero => exact h
  | succ k ih =>
    unfold State.logBytes
    try dsimp only
    repeat' first
      | with_reducible assumption
      | with_reducible exact Keep.refl _
      | with_reducible refine Keep.ite (fun _ => ?_) (fun _ => ?_)
      | with_reducible refine Keep.fst_ite (fun _ => ?_) (fun _ => ?_)
      | with_reducible apply State.fresh_keep
      | with_reducible apply ih
      | simp only [keep_mk]
      | with_reducible refine Keep.snd_eq (by assumption) ?_
      | split
      | dsimp only

theorem execReadLog_keep {r s : State} (h : Keep r s) (offset : W32) (len : BitVec 16) : KeepN r (execReadLog offset len s) := by
  unfold execReadLog
  try dsimp only
  repeat' first
    | with_reducible assumption
    | with_reducible exact Keep.refl _
    | with_reducible refine Keep.ite (fun _ => ?_) (fun _ => ?_)
    | with_reducible refine KeepN.next ?_
    | with_reducible refine KeepN.ite (fun _ => ?_) (fun _ => ?_)
    | with_reducible apply State.sideband_keep
    | with_reducible apply State.respond_keep
    | with_reducible apply State.logBytes_keep
    | with_reducible refine Keep.fst_eq (by assumption) ?_
    | split
    | dsimp only

theorem execSetCap_keep {r s : State} (h : Keep r s) (watts : BitVec 16) : KeepN r (execSetCap watts s) := by
  unfold execSetCap
  try dsimp only
  repeat' first
    | with_reducible assumption
    | with_reducible exact Keep.refl _
    | with_reducible refine KeepN.next ?_
    | with_reducible apply State.sideband_keep
    | with_reducible apply State.respond_keep
    | with_reducible apply State.wr_keep
    | split
    | dsimp only

theorem execSvnCommit_keep {r s : State} (h : Keep r s) (comp : BitVec 2) : KeepN r (execSvnCommit comp s) := by
  unfold execSvnCommit
  try dsimp only
  repeat' first
    | with_reducible assumption
    | with_reducible exact Keep.refl _
    | with_reducible refine Keep.ite (fun _ => ?_) (fun _ => ?_)
    | with_reducible refine KeepN.next ?_
    | with_reducible refine KeepN.ite (fun _ => ?_) (fun _ => ?_)
    | with_reducible apply State.wr_keep
    | simp only [keep_mk]
    | split
    | dsimp only

theorem execSecExtGo_keep {r s : State} (h : Keep r s) (reg : BitVec 3) : KeepN r (execSecExtGo reg s) := by
  unfold execSecExtGo
  try dsimp only
  repeat' first
    | with_reducible assumption
    | with_reducible exact Keep.refl _
    | with_reducible refine Keep.ite (fun _ => ?_) (fun _ => ?_)
    | with_reducible refine KeepN.next ?_
    | with_reducible refine KeepN.ite (fun _ => ?_) (fun _ => ?_)
    | with_reducible apply State.wr_keep
    | with_reducible apply State.extend_keep
    | split
    | dsimp only

theorem State.refreshKeys_keep {r s : State} (h : Keep r s) : Keep r (State.refreshKeys s) := by
  unfold State.refreshKeys
  try dsimp only
  repeat' first
    | with_reducible assumption
    | with_reducible exact Keep.refl _
    | with_reducible apply State.wr_keep
    | with_reducible refine Keep.foldl ?_ (fun _ _ _ => ?_)
    | with_reducible refine Keep.foldl_fst ?_ (fun _ _ _ => ?_)
    | split
    | dsimp only

theorem State.keyCtl_keep {r s : State} (h : Keep r s) (slot : Nat) (op : Nat) : Keep r (State.keyCtl s slot op) := by
  unfold State.keyCtl
  try dsimp only
  repeat' first
    | with_reducible assumption
    | with_reducible exact Keep.refl _
    | with_reducible apply State.wr_keep
    | split
    | dsimp only

theorem execKeyEnrol_keep {r s : State} (h : Keep r s) (slot : BitVec 3) : KeepN r (execKeyEnrol slot s) := by
  unfold execKeyEnrol
  try dsimp only
  repeat' first
    | with_reducible assumption
    | with_reducible exact Keep.refl _
    | with_reducible refine Keep.ite (fun _ => ?_) (fun _ => ?_)
    | with_reducible refine KeepN.next ?_
    | with_reducible refine KeepN.ite (fun _ => ?_) (fun _ => ?_)
    | with_reducible apply State.keyCtl_keep
    | with_reducible apply State.wr_keep
    | with_reducible apply State.refreshKeys_keep
    | simp only [keep_mk]
    | split
    | dsimp only

theorem execKeyEmpty_keep {r s : State} (h : Keep r s) (slot : BitVec 3) : KeepN r (execKeyEmpty slot s) := by
  unfold execKeyEmpty
  try dsimp only
  repeat' first
    | with_reducible assumption
    | with_reducible exact Keep.refl _
    | with_reducible refine Keep.ite (fun _ => ?_) (fun _ => ?_)
    | with_reducible refine KeepN.next ?_
    | with_reducible refine KeepN.ite (fun _ => ?_) (fun _ => ?_)
    | with_reducible apply State.keyCtl_keep
    | with_reducible apply State.wr_keep
    | with_reducible apply State.refreshKeys_keep
    | simp only [keep_mk]
    | split
    | dsimp only

theorem State.measureKeys_keep {r s : State} (h : Keep r s) : Keep r (State.measureKeys s) := by
  unfold State.measureKeys
  try dsimp only
  repeat' first
    | with_reducible assumption
    | with_reducible exact Keep.refl _
    | with_reducible apply State.extend_keep
    | with_reducible refine Keep.foldl ?_ (fun _ _ _ => ?_)
    | with_reducible refine Keep.foldl_fst ?_ (fun _ _ _ => ?_)
    | split
    | dsimp only

theorem execKeylock_keep {r s : State} (h : Keep r s) : KeepN r (execKeylock s) := by
  unfold execKeylock
  try dsimp only
  repeat' first
    | with_reducible assumption
    | with_reducible exact Keep.refl _
    | with_reducible refine Keep.ite (fun _ => ?_) (fun _ => ?_)
    | with_reducible refine KeepN.next ?_
    | with_reducible refine KeepN.ite (fun _ => ?_) (fun _ => ?_)
    | with_reducible apply State.measureKeys_keep
    | with_reducible apply State.wr_keep
    | split
    | dsimp only

theorem State.refreshSig_keep {r s : State} (h : Keep r s) : Keep r (State.refreshSig s) := by
  unfold State.refreshSig
  try dsimp only
  repeat' first
    | with_reducible assumption
    | with_reducible exact Keep.refl _
    | with_reducible apply State.wr_keep
    | split
    | dsimp only

theorem State.attStart_keep {r s : State} (h : Keep r s) (q : AttReq) : Keep r (State.attStart s q) := by
  unfold State.attStart
  try dsimp only
  repeat' first
    | with_reducible assumption
    | with_reducible exact Keep.refl _
    | with_reducible apply State.wr_keep
    | simp only [keep_mk]
    | split
    | dsimp only

theorem execSecAttGo_keep {r s : State} (h : Keep r s) (mask : Byte) : KeepN r (execSecAttGo mask s) := by
  unfold execSecAttGo
  try dsimp only
  repeat' first
    | with_reducible assumption
    | with_reducible exact Keep.refl _
    | with_reducible refine Keep.ite (fun _ => ?_) (fun _ => ?_)
    | with_reducible refine KeepN.next ?_
    | with_reducible refine KeepN.ite (fun _ => ?_) (fun _ => ?_)
    | with_reducible apply State.wr_keep
    | with_reducible apply State.attStart_keep
    | split
    | dsimp only

theorem execAttest_keep {r s : State} (h : Keep r s) (nonce : W256) (mask : Byte) : KeepN r (execAttest nonce mask s) := by
  unfold execAttest
  try dsimp only
  repeat' first
    | with_reducible assumption
    | with_reducible exact Keep.refl _
    | with_reducible refine Keep.ite (fun _ => ?_) (fun _ => ?_)
    | with_reducible refine KeepN.next ?_
    | with_reducible refine KeepN.ite (fun _ => ?_) (fun _ => ?_)
    | with_reducible apply State.sideband_keep
    | with_reducible apply State.respond_keep
    | with_reducible apply State.attStart_keep
    | simp only [keep_mk]
    | split
    | dsimp only

theorem execAttestationSigned_keep {r s : State} (h : Keep r s) : KeepN r (execAttestationSigned s) := by
  unfold execAttestationSigned
  try dsimp only
  repeat' first
    | with_reducible assumption
    | with_reducible exact Keep.refl _
    | with_reducible refine Keep.ite (fun _ => ?_) (fun _ => ?_)
    | with_reducible refine KeepN.next ?_
    | with_reducible refine KeepN.ite (fun _ => ?_) (fun _ => ?_)
    | with_reducible apply State.refreshSig_keep
    | with_reducible apply State.wr_keep
    | with_reducible apply State.respond_keep
    | with_reducible apply State.memWrite_keep
    | simp only [keep_mk]
    | split
    | dsimp only

theorem execFirmwareImageWrite_keep {r s : State} (h : Keep r s) (comp : FwComp) (image : List Byte) : KeepN r (execFirmwareImageWrite comp image s) := by
  unfold execFirmwareImageWrite
  try dsimp only
  repeat' first
    | with_reducible assumption
    | with_reducible exact Keep.refl _
    | with_reducible refine Keep.ite (fun _ => ?_) (fun _ => ?_)
    | with_reducible refine KeepN.next ?_
    | with_reducible refine KeepN.ite (fun _ => ?_) (fun _ => ?_)
    | with_reducible apply State.wr_keep
    | simp only [keep_mk]
    | split
    | dsimp only

theorem execVerifyComplete_keep {r s : State} (h : Keep r s) (comp : FwComp) : KeepN r (execVerifyComplete comp s) := by
  unfold execVerifyComplete
  try dsimp only
  repeat' first
    | with_reducible assumption
    | with_reducible exact Keep.refl _
    | with_reducible refine Keep.ite (fun _ => ?_) (fun _ => ?_)
    | with_reducible refine KeepN.next ?_
    | with_reducible refine KeepN.ite (fun _ => ?_) (fun _ => ?_)
    | with_reducible apply State.wr_keep
    | with_reducible apply State.fwFail_keep
    | simp only [keep_mk]
    | split
    | dsimp only

theorem execApplyComplete_keep {r s : State} (h : Keep r s) (comp : FwComp) : KeepN r (execApplyComplete comp s) := by
  unfold execApplyComplete
  try dsimp only
  repeat' first
    | with_reducible assumption
    | with_reducible exact Keep.refl _
    | with_reducible refine Keep.ite (fun _ => ?_) (fun _ => ?_)
    | with_reducible refine KeepN.next ?_
    | with_reducible refine KeepN.ite (fun _ => ?_) (fun _ => ?_)
    | with_reducible apply State.fwLog_keep
    | with_reducible apply State.bump_keep
    | with_reducible apply State.wr_keep
    | simp only [keep_mk]
    | split
    | dsimp only

theorem State.fwAbandon_keep {r s : State} (h : Keep r s) : Keep r (State.fwAbandon s) := by
  unfold State.fwAbandon
  try dsimp only
  repeat' first
    | with_reducible assumption
    | with_reducible exact Keep.refl _
    | simp only [keep_mk]
    | with_reducible refine Keep.foldl ?_ (fun _ _ _ => ?_)
    | with_reducible refine Keep.foldl_fst ?_ (fun _ _ _ => ?_)
    | split
    | dsimp only

theorem execMgtPscMark_keep {r s : State} (h : Keep r s) (value : Word) : KeepN r (execMgtPscMark value s) := by
  unfold execMgtPscMark
  try dsimp only
  repeat' first
    | with_reducible assumption
    | with_reducible exact Keep.refl _
    | with_reducible refine KeepN.next ?_
    | with_reducible apply State.psc_keep
    | split
    | dsimp only

theorem execLifeSave_keep {r s : State} (h : Keep r s) : KeepN r (execLifeSave s) := by
  unfold execLifeSave
  try dsimp only
  repeat' first
    | with_reducible assumption
    | with_reducible exact Keep.refl _
    | with_reducible refine Keep.ite (fun _ => ?_) (fun _ => ?_)
    | with_reducible refine KeepN.next ?_
    | with_reducible refine KeepN.ite (fun _ => ?_) (fun _ => ?_)
    | simp only [keep_mk]
    | with_reducible refine Keep.foldl ?_ (fun _ _ _ => ?_)
    | with_reducible refine Keep.foldl_fst ?_ (fun _ _ _ => ?_)
    | split
    | dsimp only

theorem execSummaryRewrite_keep {r s : State} (h : Keep r s) : KeepN r (execSummaryRewrite s) := by
  unfold execSummaryRewrite
  try dsimp only
  repeat' first
    | with_reducible assumption
    | with_reducible exact Keep.refl _
    | with_reducible refine Keep.ite (fun _ => ?_) (fun _ => ?_)
    | with_reducible refine KeepN.next ?_
    | with_reducible refine KeepN.ite (fun _ => ?_) (fun _ => ?_)
    | simp only [keep_mk]
    | split
    | dsimp only

theorem execClkMeasGo_keep {r s : State} (h : Keep r s) (sel : BitVec 6) : KeepN r (execClkMeasGo sel s) := by
  unfold execClkMeasGo
  try dsimp only
  repeat' first
    | with_reducible assumption
    | with_reducible exact Keep.refl _
    | with_reducible refine Keep.ite (fun _ => ?_) (fun _ => ?_)
    | with_reducible refine KeepN.next ?_
    | with_reducible refine KeepN.ite (fun _ => ?_) (fun _ => ?_)
    | with_reducible apply State.wr_keep
    | simp only [keep_mk]
    | split
    | dsimp only

theorem execClkMeasDone_keep {r s : State} (h : Keep r s) (hz : BitVec 36) : KeepN r (execClkMeasDone hz s) := by
  unfold execClkMeasDone
  try dsimp only
  repeat' first
    | with_reducible assumption
    | with_reducible exact Keep.refl _
    | with_reducible refine Keep.ite (fun _ => ?_) (fun _ => ?_)
    | with_reducible refine KeepN.next ?_
    | with_reducible refine KeepN.ite (fun _ => ?_) (fun _ => ?_)
    | with_reducible apply State.wr_keep
    | split
    | dsimp only

theorem execTeaselLockstepMismatch_keep {r s : State} (h : Keep r s) : KeepN r (execTeaselLockstepMismatch s) := by
  unfold execTeaselLockstepMismatch
  try dsimp only
  repeat' first
    | with_reducible assumption
    | with_reducible exact Keep.refl _
    | with_reducible refine Keep.ite (fun _ => ?_) (fun _ => ?_)
    | with_reducible refine KeepN.next ?_
    | with_reducible refine KeepN.ite (fun _ => ?_) (fun _ => ?_)
    | with_reducible apply State.fwAbandon_keep
    | simp only [keep_mk]
    | split
    | dsimp only

theorem execTeaselRestartComplete_keep {r s : State} (h : Keep r s) : KeepN r (execTeaselRestartComplete s) := by
  unfold execTeaselRestartComplete
  try dsimp only
  repeat' first
    | with_reducible assumption
    | with_reducible exact Keep.refl _
    | with_reducible refine Keep.ite (fun _ => ?_) (fun _ => ?_)
    | with_reducible refine KeepN.next ?_
    | with_reducible refine KeepN.ite (fun _ => ?_) (fun _ => ?_)
    | with_reducible apply State.logPut_keep
    | with_reducible apply State.event_keep
    | simp only [keep_mk]
    | with_reducible refine Keep.foldl ?_ (fun _ _ _ => ?_)
    | with_reducible refine Keep.foldl_fst ?_ (fun _ _ _ => ?_)
    | split
    | dsimp only

end Sys2Proof.Machine
end

