-- ==== Sys2Proof/Laws/KeepPower.lean ====
section
/-!
SUPPORT. The operations of Machine/Power.lean keep the queue, the canonical forms and the freshness of free values.
-/

namespace Sys2Proof.Machine

open Sys2Proof

theorem State.powerLost_keep {r s : State} (h : Keep r s) (cause : Nat) : Keep r (State.powerLost s cause) := by
  unfold State.powerLost
  try dsimp only
  repeat' first
    | with_reducible assumption
    | with_reducible exact Keep.refl _
    | simp only [keep_mk]
    | split
    | dsimp only

theorem execVin56Start_keep {r s : State} (h : Keep r s) (mv : BitVec 16) : KeepN r (execVin56Start mv s) := by
  unfold execVin56Start
  try dsimp only
  repeat' first
    | with_reducible assumption
    | with_reducible exact Keep.refl _
    | with_reducible refine Keep.ite (fun _ => ?_) (fun _ => ?_)
    | with_reducible refine KeepN.next ?_
    | with_reducible refine KeepN.ite (fun _ => ?_) (fun _ => ?_)
    | with_reducible apply State.wr_keep
    | simp only [keep_mk]
    | split
    | dsimp only

theorem execVin56Change_keep {r s : State} (h : Keep r s) (mv : BitVec 16) : KeepN r (execVin56Change mv s) := by
  unfold execVin56Change
  try dsimp only
  repeat' first
    | with_reducible assumption
    | with_reducible exact Keep.refl _
    | with_reducible refine Keep.ite (fun _ => ?_) (fun _ => ?_)
    | with_reducible refine KeepN.next ?_
    | with_reducible refine KeepN.ite (fun _ => ?_) (fun _ => ?_)
    | with_reducible apply State.wr_keep
    | with_reducible apply State.powerLost_keep
    | with_reducible apply State.event_keep
    | split
    | dsimp only

theorem execPdieFault_keep {r s : State} (h : Keep r s) (k : Fin 4) : KeepN r (execPdieFault k s) := by
  unfold execPdieFault
  try dsimp only
  repeat' first
    | with_reducible assumption
    | with_reducible exact Keep.refl _
    | with_reducible refine Keep.ite (fun _ => ?_) (fun _ => ?_)
    | with_reducible refine KeepN.next ?_
    | with_reducible refine KeepN.ite (fun _ => ?_) (fun _ => ?_)
    | with_reducible apply State.bump_keep
    | with_reducible apply State.wr_keep
    | with_reducible apply State.event_keep
    | with_reducible apply State.powerLost_keep
    | split
    | dsimp only

theorem State.govWrite_keep {r s : State} (h : Keep r s) (n : Nat) (ceil : Nat) (floor : Nat) (work : Bool) : Keep r (State.govWrite s n ceil floor work) := by
  unfold State.govWrite
  try dsimp only
  repeat' first
    | with_reducible assumption
    | with_reducible exact Keep.refl _
    | with_reducible refine Keep.ite (fun _ => ?_) (fun _ => ?_)
    | with_reducible apply State.wr_keep
    | simp only [keep_mk]
    | split
    | dsimp only

theorem State.clusterStep_keep {r s : State} (h : Keep r s) (m : MenInput) (b : Budget) (want : Nat) : Keep r (State.clusterStep s m b want) := by
  unfold State.clusterStep
  try dsimp only
  repeat' first
    | with_reducible assumption
    | with_reducible exact Keep.refl _
    | with_reducible refine Keep.ite (fun _ => ?_) (fun _ => ?_)
    | with_reducible apply State.fresh_keep
    | simp only [keep_mk]
    | with_reducible refine Keep.foldl ?_ (fun _ _ _ => ?_)
    | with_reducible refine Keep.foldl_fst ?_ (fun _ _ _ => ?_)
    | with_reducible refine Keep.snd_eq (by assumption) ?_
    | split
    | dsimp only

theorem State.heatStep_keep {r s : State} (h : Keep r s) : Keep r (State.heatStep s) := by
  unfold State.heatStep
  try dsimp only
  repeat' first
    | with_reducible assumption
    | with_reducible exact Keep.refl _
    | with_reducible refine Keep.ite (fun _ => ?_) (fun _ => ?_)
    | simp only [keep_mk]
    | with_reducible refine Keep.foldl ?_ (fun _ _ _ => ?_)
    | with_reducible refine Keep.foldl_fst ?_ (fun _ _ _ => ?_)
    | split
    | dsimp only

theorem execMeniscusStep_keep {r s : State} (h : Keep r s) (m : MenInput) : KeepN r (execMeniscusStep m s) := by
  unfold execMeniscusStep
  try dsimp only
  repeat' first
    | with_reducible assumption
    | with_reducible exact Keep.refl _
    | with_reducible refine Keep.ite (fun _ => ?_) (fun _ => ?_)
    | with_reducible refine KeepN.next ?_
    | with_reducible refine KeepN.ite (fun _ => ?_) (fun _ => ?_)
    | with_reducible apply State.heatStep_keep
    | with_reducible apply State.govWrite_keep
    | with_reducible apply State.clusterStep_keep
    | with_reducible apply State.wr_keep
    | with_reducible apply State.wrap_keep
    | with_reducible apply State.sympRefresh_keep
    | with_reducible apply State.bump_keep
    | with_reducible apply State.fresh_keep
    | with_reducible apply State.psc_keep
    | simp only [keep_mk]
    | with_reducible refine Keep.foldl ?_ (fun _ _ _ => ?_)
    | with_reducible refine Keep.foldl_fst ?_ (fun _ _ _ => ?_)
    | with_reducible refine Keep.snd_eq (by assumption) ?_
    | split
    | dsimp only

theorem execPhaseInterval_keep {r s : State} (h : Keep r s) (sig : BitVec 16) (tileW : BitVec 16) (hbmW : BitVec 16) (hdieW : BitVec 16) (fixedW : BitVec 16) : KeepN r (execPhaseInterval sig tileW hbmW hdieW fixedW s) := by
  unfold execPhaseInterval
  try dsimp only
  repeat' first
    | with_reducible assumption
    | with_reducible exact Keep.refl _
    | with_reducible refine Keep.ite (fun _ => ?_) (fun _ => ?_)
    | with_reducible refine KeepN.next ?_
    | with_reducible refine KeepN.ite (fun _ => ?_) (fun _ => ?_)
    | with_reducible apply State.wr_keep
    | with_reducible apply State.bump_keep
    | simp only [keep_mk]
    | split
    | dsimp only

theorem State.setBand_keep {r s : State} (h : Keep r s) (k : Nat) (v : Nat) : Keep r (State.setBand s k v) := by
  unfold State.setBand
  try dsimp only
  repeat' first
    | with_reducible assumption
    | with_reducible exact Keep.refl _
    | simp only [keep_mk]
    | split
    | dsimp only

theorem State.bandRefresh_keep {r s : State} (h : Keep r s) : Keep r (State.bandRefresh s) := by
  unfold State.bandRefresh
  try dsimp only
  repeat' first
    | with_reducible assumption
    | with_reducible exact Keep.refl _
    | with_reducible apply State.wr_keep
    | with_reducible refine Keep.foldl ?_ (fun _ _ _ => ?_)
    | with_reducible refine Keep.foldl_fst ?_ (fun _ _ _ => ?_)
    | split
    | dsimp only

theorem execDroopFire_keep {r s : State} (h : Keep r s) (at_ : DroopAt) : KeepN r (execDroopFire at_ s) := by
  unfold execDroopFire
  try dsimp only
  repeat' first
    | with_reducible assumption
    | with_reducible exact Keep.refl _
    | with_reducible refine Keep.ite (fun _ => ?_) (fun _ => ?_)
    | with_reducible refine KeepN.next ?_
    | with_reducible refine KeepN.ite (fun _ => ?_) (fun _ => ?_)
    | with_reducible apply State.bump_keep
    | with_reducible apply State.setBand_keep
    | with_reducible apply State.bandRefresh_keep
    | with_reducible apply State.logRec_keep
    | simp only [keep_mk]
    | with_reducible refine Keep.foldl ?_ (fun _ _ _ => ?_)
    | with_reducible refine Keep.foldl_fst ?_ (fun _ _ _ => ?_)
    | split
    | dsimp only

theorem execDroopRecovery_keep {r s : State} (h : Keep r s) (at_ : DroopAt) : KeepN r (execDroopRecovery at_ s) := by
  unfold execDroopRecovery
  try dsimp only
  repeat' first
    | with_reducible assumption
    | with_reducible exact Keep.refl _
    | with_reducible refine KeepN.next ?_
    | simp only [keep_mk]
    | split
    | dsimp only

theorem State.ageOne_keep {r s : State} (h : Keep r s) (d : PwrDomain) (needMv : Nat) : Keep r (State.ageOne s d needMv) := by
  unfold State.ageOne
  try dsimp only
  repeat' first
    | with_reducible assumption
    | with_reducible exact Keep.refl _
    | with_reducible refine Keep.ite (fun _ => ?_) (fun _ => ?_)
    | with_reducible apply State.setBand_keep
    | with_reducible apply State.event_keep
    | with_reducible apply State.wr_keep
    | with_reducible apply State.tileFault_keep
    | simp only [keep_mk]
    | split
    | dsimp only

theorem execAgeingCheck_keep {r s : State} (h : Keep r s) (needs : List (PwrDomain × Byte)) : KeepN r (execAgeingCheck needs s) := by
  unfold execAgeingCheck
  try dsimp only
  repeat' first
    | with_reducible assumption
    | with_reducible exact Keep.refl _
    | with_reducible refine Keep.ite (fun _ => ?_) (fun _ => ?_)
    | with_reducible refine KeepN.next ?_
    | with_reducible refine KeepN.ite (fun _ => ?_) (fun _ => ?_)
    | with_reducible apply State.ageOne_keep
    | with_reducible apply State.bandRefresh_keep
    | with_reducible apply State.wrap_keep
    | with_reducible apply State.logRec_keep
    | with_reducible refine Keep.foldl ?_ (fun _ _ _ => ?_)
    | with_reducible refine Keep.foldl_fst ?_ (fun _ _ _ => ?_)
    | split
    | dsimp only

theorem State.heatRead_keep {r s : State} (h : Keep r s) (k : Nat) (t : Nat) (sensor : Nat) : Keep r (State.heatRead s k t sensor) := by
  unfold State.heatRead
  try dsimp only
  repeat' first
    | with_reducible assumption
    | with_reducible exact Keep.refl _
    | with_reducible refine Keep.ite (fun _ => ?_) (fun _ => ?_)
    | with_reducible apply State.event_keep
    | with_reducible apply State.wr_keep
    | simp only [keep_mk]
    | split
    | dsimp only

theorem execJunctionRead_keep {r s : State} (h : Keep r s) (j : Junctions) : KeepN r (execJunctionRead j s) := by
  unfold execJunctionRead
  try dsimp only
  repeat' first
    | with_reducible assumption
    | with_reducible exact Keep.refl _
    | with_reducible refine Keep.ite (fun _ => ?_) (fun _ => ?_)
    | with_reducible refine KeepN.next ?_
    | with_reducible refine KeepN.ite (fun _ => ?_) (fun _ => ?_)
    | with_reducible apply State.wr_keep
    | with_reducible apply State.heatRead_keep
    | with_reducible apply State.wrap_keep
    | simp only [keep_mk]
    | with_reducible refine Keep.foldl ?_ (fun _ _ _ => ?_)
    | with_reducible refine Keep.foldl_fst ?_ (fun _ _ _ => ?_)
    | split
    | dsimp only

theorem execTjCritHoldExpire_keep {r s : State} (h : Keep r s) : KeepN r (execTjCritHoldExpire s) := by
  unfold execTjCritHoldExpire
  try dsimp only
  repeat' first
    | with_reducible assumption
    | with_reducible exact Keep.refl _
    | with_reducible refine Keep.ite (fun _ => ?_) (fun _ => ?_)
    | with_reducible refine KeepN.next ?_
    | with_reducible refine KeepN.ite (fun _ => ?_) (fun _ => ?_)
    | with_reducible apply State.powerLost_keep
    | split
    | dsimp only

theorem State.sbIssueAll_keep {r s : State} (h : Keep r s) : Keep r (State.sbIssueAll s) := by
  unfold State.sbIssueAll
  try dsimp only
  repeat' first
    | with_reducible assumption
    | with_reducible exact Keep.refl _
    | with_reducible apply State.sbIssue_keep
    | with_reducible refine Keep.foldl ?_ (fun _ _ _ => ?_)
    | with_reducible refine Keep.foldl_fst ?_ (fun _ _ _ => ?_)
    | split
    | dsimp only

theorem execIdleEntry_keep {r s : State} (h : Keep r s) : KeepN r (execIdleEntry s) := by
  unfold execIdleEntry
  try dsimp only
  repeat' first
    | with_reducible assumption
    | with_reducible exact Keep.refl _
    | with_reducible refine Keep.ite (fun _ => ?_) (fun _ => ?_)
    | with_reducible refine KeepN.next ?_
    | with_reducible refine KeepN.ite (fun _ => ?_) (fun _ => ?_)
    | with_reducible apply State.sbIssueAll_keep
    | with_reducible apply State.bump_keep
    | with_reducible apply State.wr_keep
    | with_reducible apply State.agentFlush_keep
    | with_reducible apply State.setTile_keep
    | with_reducible apply State.refreshFgnPorts_keep
    | with_reducible apply State.lkDisable_keep
    | simp only [keep_mk]
    | with_reducible refine Keep.foldl ?_ (fun _ _ _ => ?_)
    | with_reducible refine Keep.foldl_fst ?_ (fun _ _ _ => ?_)
    | split
    | dsimp only

theorem State.wake_keep {r s : State} (h : Keep r s) : Keep r (State.wake s) := by
  unfold State.wake
  try dsimp only
  repeat' first
    | with_reducible assumption
    | with_reducible exact Keep.refl _
    | with_reducible refine Keep.ite (fun _ => ?_) (fun _ => ?_)
    | simp only [keep_mk]
    | split
    | dsimp only

theorem execWakeEvent_keep {r s : State} (h : Keep r s) (cause : WakeCause) : KeepN r (execWakeEvent cause s) := by
  unfold execWakeEvent
  try dsimp only
  repeat' first
    | with_reducible assumption
    | with_reducible exact Keep.refl _
    | with_reducible refine Keep.ite (fun _ => ?_) (fun _ => ?_)
    | with_reducible refine KeepN.next ?_
    | with_reducible refine KeepN.ite (fun _ => ?_) (fun _ => ?_)
    | with_reducible apply State.wake_keep
    | simp only [keep_mk]
    | split
    | dsimp only

theorem execPwrIdleWake_keep {r s : State} (h : Keep r s) : KeepN r (execPwrIdleWake s) := by
  unfold execPwrIdleWake
  try dsimp only
  repeat' first
    | with_reducible assumption
    | with_reducible exact Keep.refl _
    | with_reducible refine KeepN.next ?_
    | with_reducible apply State.wake_keep
    | split
    | dsimp only

theorem execWakeComplete_keep {r s : State} (h : Keep r s) (us : BitVec 16) : KeepN r (execWakeComplete us s) := by
  unfold execWakeComplete
  try dsimp only
  repeat' first
    | with_reducible assumption
    | with_reducible exact Keep.refl _
    | with_reducible refine Keep.ite (fun _ => ?_) (fun _ => ?_)
    | with_reducible refine KeepN.next ?_
    | with_reducible refine KeepN.ite (fun _ => ?_) (fun _ => ?_)
    | with_reducible apply State.wr_keep
    | with_reducible apply State.setTst_keep
    | with_reducible apply State.refreshFgnPorts_keep
    | with_reducible apply State.lkEnable_keep
    | simp only [keep_mk]
    | with_reducible refine Keep.foldl ?_ (fun _ _ _ => ?_)
    | with_reducible refine Keep.foldl_fst ?_ (fun _ _ _ => ?_)
    | split
    | dsimp only

theorem execEnergyUpdate_keep {r s : State} (h : Keep r s) (mj : W32) : KeepN r (execEnergyUpdate mj s) := by
  unfold execEnergyUpdate
  try dsimp only
  repeat' first
    | with_reducible assumption
    | with_reducible exact Keep.refl _
    | with_reducible refine KeepN.next ?_
    | with_reducible apply State.wrap_keep
    | simp only [keep_mk]
    | split
    | dsimp only

end Sys2Proof.Machine
end

