-- ==== Sys2Proof/Laws/KeepCraone.lean ====
section
/-!
SUPPORT. The operations of Machine/Craone.lean keep the queue, the canonical forms and the freshness of free values.
-/

namespace Sys2Proof.Machine

open Sys2Proof

theorem State.setCra_keep {r s : State} (h : Keep r s) (l : Nat) (st : Nat) : Keep r (State.setCra s l st) := by
  unfold State.setCra
  try dsimp only
  repeat' first
    | with_reducible assumption
    | with_reducible exact Keep.refl _
    | with_reducible refine Keep.ite (fun _ => ?_) (fun _ => ?_)
    | with_reducible apply State.wr_keep
    | with_reducible apply State.psc_keep
    | split
    | dsimp only

theorem State.craBad_keep {r s : State} (h : Keep r s) (l : Nat) (hx : CraHdr) : Keep r (State.craBad s l hx) := by
  unfold State.craBad
  try dsimp only
  repeat' first
    | with_reducible assumption
    | with_reducible exact Keep.refl _
    | with_reducible refine Keep.ite (fun _ => ?_) (fun _ => ?_)
    | with_reducible apply State.bump_keep
    | with_reducible apply State.cPush_keep
    | simp only [keep_mk]
    | split
    | dsimp only

theorem State.mgtMsg_keep {r s : State} (h : Keep r s) (l op : Nat) (hd : CraHdr) (f : State → State)
    (hf : ∀ t, Keep r t → Keep r (f t)) : Keep r (State.mgtMsg s l op hd f) := by
  unfold State.mgtMsg
  exact Keep.ite (fun _ => State.craBad_keep h _ _) (fun _ => Keep.ite (fun _ => hf _ h) (fun _ => h))

theorem State.sendCap_keep {r s : State} (h : Keep r s) (l : Nat) : Keep r (State.sendCap s l) := by
  unfold State.sendCap
  try dsimp only
  repeat' first
    | with_reducible assumption
    | with_reducible exact Keep.refl _
    | with_reducible refine Keep.ite (fun _ => ?_) (fun _ => ?_)
    | with_reducible apply State.fresh_keep
    | with_reducible apply State.setReg_keep
    | with_reducible refine Keep.foldl ?_ (fun _ _ _ => ?_)
    | with_reducible refine Keep.foldl_fst ?_ (fun _ _ _ => ?_)
    | with_reducible refine Keep.snd_eq (by assumption) ?_
    | split
    | dsimp only

/-- Credits loaded. -/
theorem keep_cra {r s : State} (h : Keep r s) (x : CraSt) : Keep r { s with cra := x } :=
  Keep.same h rfl rfl rfl rfl rfl rfl rfl rfl

theorem State.negActive_keep {r s : State} (h : Keep r s) (l loc peer : Nat) : Keep r (State.negActive s l loc peer) := by
  unfold State.negActive
  refine Keep.ite (fun _ => State.refreshFgnPorts_keep (State.spend_keep (keep_cra ?_ _) _ _ _)) (fun _ => State.cohReturn_keep (keep_cra ?_ _) _)
  all_goals
    exact State.wr_keep (State.wr_keep (State.wr_keep (State.wr_keep (State.setCra_keep h _ _) _ _ _) _ _ _) _ _ _) _ _ _

theorem State.negotiate_keep {r s : State} (h : Keep r s) (l : Nat) : Keep r (State.negotiate s l) := by
  unfold State.negotiate
  refine Keep.ite (fun _ => h) (fun _ => ?_)
  generalize negFault _ _ _ = o
  cases o with
  | none => exact State.negActive_keep h _ _ _
  | some c => exact State.wr_keep (State.setCra_keep h _ _) _ _ _

theorem State.negStart_keep {r s : State} (h : Keep r s) (l : Nat) : Keep r (State.negStart s l) := by
  unfold State.negStart
  try dsimp only
  repeat' first
    | with_reducible assumption
    | with_reducible exact Keep.refl _
    | with_reducible apply State.sendCap_keep
    | with_reducible apply State.setCra_keep
    | simp only [keep_mk]
    | with_reducible refine Keep.foldl ?_ (fun _ _ _ => ?_)
    | with_reducible refine Keep.foldl_fst ?_ (fun _ _ _ => ?_)
    | split
    | dsimp only

theorem State.orientFault_keep {r s : State} (h : Keep r s) (east : Bool) (cause : Nat) : Keep r (State.orientFault s east cause) := by
  unfold State.orientFault
  try dsimp only
  repeat' first
    | with_reducible assumption
    | with_reducible exact Keep.refl _
    | with_reducible refine Keep.ite (fun _ => ?_) (fun _ => ?_)
    | with_reducible apply State.wr_keep
    | with_reducible apply State.logRec_keep
    | split
    | dsimp only

theorem State.setSite_keep {r s : State} (h : Keep r s) (d : Nat) (south : Bool) (x : SiteSt) : Keep r (State.setSite s d south x) := by
  unfold State.setSite
  try dsimp only
  repeat' first
    | with_reducible assumption
    | with_reducible exact Keep.refl _
    | simp only [keep_mk]
    | split
    | dsimp only

theorem State.orient_keep {r s : State} (h : Keep r s) (east : Bool) : Keep r (State.orient s east) := by
  unfold State.orient
  try dsimp only
  repeat' first
    | with_reducible assumption
    | with_reducible exact Keep.refl _
    | with_reducible refine Keep.ite (fun _ => ?_) (fun _ => ?_)
    | with_reducible apply State.orientFault_keep
    | with_reducible apply State.setSite_keep
    | with_reducible apply State.wr_keep
    | simp only [keep_mk]
    | split
    | dsimp only

theorem execDiscover_keep {r s : State} (h : Keep r s) (east : Bool) (hdr : CraHdr) : KeepN r (execDiscover east hdr s) := by
  unfold execDiscover
  try dsimp only
  repeat' first
    | with_reducible assumption
    | with_reducible exact Keep.refl _
    | with_reducible refine Keep.ite (fun _ => ?_) (fun _ => ?_)
    | with_reducible refine KeepN.next ?_
    | with_reducible refine KeepN.ite (fun _ => ?_) (fun _ => ?_)
    | with_reducible apply State.mgtMsg_keep
    | with_reducible apply State.orient_keep
    | with_reducible intro _ _ _
    | with_reducible intro _ _
    | with_reducible intro _
    | simp only [keep_mk]
    | split
    | dsimp only

theorem execOrientationTimeout_keep {r s : State} (h : Keep r s) (east : Bool) : KeepN r (execOrientationTimeout east s) := by
  unfold execOrientationTimeout
  try dsimp only
  repeat' first
    | with_reducible assumption
    | with_reducible exact Keep.refl _
    | with_reducible refine Keep.ite (fun _ => ?_) (fun _ => ?_)
    | with_reducible refine KeepN.next ?_
    | with_reducible refine KeepN.ite (fun _ => ?_) (fun _ => ?_)
    | with_reducible apply State.orientFault_keep
    | split
    | dsimp only

theorem execUcieLinkUp_keep {r s : State} (h : Keep r s) (l : CraLink) (south : Bool) : KeepN r (execUcieLinkUp l south s) := by
  unfold execUcieLinkUp
  try dsimp only
  repeat' first
    | with_reducible assumption
    | with_reducible exact Keep.refl _
    | with_reducible refine Keep.ite (fun _ => ?_) (fun _ => ?_)
    | with_reducible refine KeepN.next ?_
    | with_reducible refine KeepN.ite (fun _ => ?_) (fun _ => ?_)
    | with_reducible apply State.orient_keep
    | with_reducible apply State.setSite_keep
    | with_reducible apply State.negotiate_keep
    | with_reducible apply State.negStart_keep
    | simp only [keep_mk]
    | split
    | dsimp only

theorem execCraoneTrainTimeout_keep {r s : State} (h : Keep r s) (l : CraLink) : KeepN r (execCraoneTrainTimeout l s) := by
  unfold execCraoneTrainTimeout
  try dsimp only
  repeat' first
    | with_reducible assumption
    | with_reducible exact Keep.refl _
    | with_reducible refine Keep.ite (fun _ => ?_) (fun _ => ?_)
    | with_reducible refine KeepN.next ?_
    | with_reducible refine KeepN.ite (fun _ => ?_) (fun _ => ?_)
    | with_reducible apply State.wr_keep
    | with_reducible apply State.setCra_keep
    | split
    | dsimp only

theorem execCap_keep {r s : State} (h : Keep r s) (l : CraLink) (hdr : CraHdr) (chunk : Line) : KeepN r (execCap l hdr chunk s) := by
  unfold execCap
  try dsimp only
  repeat' first
    | with_reducible assumption
    | with_reducible exact Keep.refl _
    | with_reducible refine Keep.ite (fun _ => ?_) (fun _ => ?_)
    | with_reducible refine KeepN.next ?_
    | with_reducible refine KeepN.ite (fun _ => ?_) (fun _ => ?_)
    | with_reducible apply State.mgtMsg_keep
    | with_reducible apply State.craBad_keep
    | with_reducible apply State.setReg_keep
    | with_reducible apply State.negotiate_keep
    | with_reducible intro _ _ _
    | with_reducible intro _ _
    | with_reducible intro _
    | simp only [keep_mk]
    | split
    | dsimp only

theorem execCredit_keep {r s : State} (h : Keep r s) (l : CraLink) (hdr : CraHdr) : KeepN r (execCredit l hdr s) := by
  unfold execCredit
  try dsimp only
  repeat' first
    | with_reducible assumption
    | with_reducible exact Keep.refl _
    | with_reducible refine Keep.ite (fun _ => ?_) (fun _ => ?_)
    | with_reducible refine KeepN.next ?_
    | with_reducible refine KeepN.ite (fun _ => ?_) (fun _ => ?_)
    | with_reducible apply State.mgtMsg_keep
    | with_reducible intro _ _ _
    | with_reducible intro _ _
    | with_reducible intro _
    | simp only [keep_mk]
    | with_reducible refine Keep.foldl ?_ (fun _ _ _ => ?_)
    | with_reducible refine Keep.foldl_fst ?_ (fun _ _ _ => ?_)
    | split
    | dsimp only

theorem State.craAbsent_keep {r s : State} (h : Keep r s) (l : Nat) : Keep r (State.craAbsent s l) := by
  unfold State.craAbsent
  try dsimp only
  repeat' first
    | with_reducible assumption
    | with_reducible exact Keep.refl _
    | with_reducible refine Keep.ite (fun _ => ?_) (fun _ => ?_)
    | with_reducible apply State.bump_keep
    | with_reducible apply State.wr_keep
    | with_reducible apply State.setCra_keep
    | with_reducible apply State.refreshFgnPorts_keep
    | with_reducible apply State.cohAbsent_keep
    | with_reducible apply State.pkgFatal_keep
    | with_reducible apply State.event_keep
    | simp only [keep_mk]
    | split
    | dsimp only

theorem execDepart_keep {r s : State} (h : Keep r s) (l : CraLink) (hdr : CraHdr) : KeepN r (execDepart l hdr s) := by
  unfold execDepart
  try dsimp only
  repeat' first
    | with_reducible assumption
    | with_reducible exact Keep.refl _
    | with_reducible refine KeepN.next ?_
    | with_reducible apply State.mgtMsg_keep
    | with_reducible apply State.craAbsent_keep
    | with_reducible intro _ _ _
    | with_reducible intro _ _
    | with_reducible intro _
    | split
    | dsimp only

theorem execUcieLinkDown_keep {r s : State} (h : Keep r s) (l : CraLink) : KeepN r (execUcieLinkDown l s) := by
  unfold execUcieLinkDown
  try dsimp only
  repeat' first
    | with_reducible assumption
    | with_reducible exact Keep.refl _
    | with_reducible refine KeepN.next ?_
    | with_reducible apply State.craAbsent_keep
    | simp only [keep_mk]
    | split
    | dsimp only

theorem execCraReturn_keep {r s : State} (h : Keep r s) (l : CraLink) (hdr : CraHdr) : KeepN r (execCraReturn l hdr s) := by
  unfold execCraReturn
  try dsimp only
  repeat' first
    | with_reducible assumption
    | with_reducible exact Keep.refl _
    | with_reducible refine Keep.ite (fun _ => ?_) (fun _ => ?_)
    | with_reducible refine KeepN.next ?_
    | with_reducible refine KeepN.ite (fun _ => ?_) (fun _ => ?_)
    | with_reducible apply State.mgtMsg_keep
    | with_reducible apply State.negStart_keep
    | with_reducible intro _ _ _
    | with_reducible intro _ _
    | with_reducible intro _
    | simp only [keep_mk]
    | split
    | dsimp only

theorem execStandInAnswer_keep {r s : State} (h : Keep r s) (l : CraLink) (src : BitVec 8) (txid : BitVec 16) : KeepN r (execStandInAnswer l src txid s) := by
  unfold execStandInAnswer
  try dsimp only
  repeat' first
    | with_reducible assumption
    | with_reducible exact Keep.refl _
    | with_reducible refine Keep.ite (fun _ => ?_) (fun _ => ?_)
    | with_reducible refine KeepN.next ?_
    | with_reducible refine KeepN.ite (fun _ => ?_) (fun _ => ?_)
    | with_reducible apply State.cEnd_keep
    | simp only [keep_mk]
    | with_reducible refine KeepO.of_eq (by assumption) ?_
    | split
    | dsimp only

theorem execLateDrop_keep {r s : State} (h : Keep r s) (l : CraLink) (src : BitVec 8) (txid : BitVec 16) : KeepN r (execLateDrop l src txid s) := by
  unfold execLateDrop
  try dsimp only
  repeat' first
    | with_reducible assumption
    | with_reducible exact Keep.refl _
    | with_reducible refine Keep.ite (fun _ => ?_) (fun _ => ?_)
    | with_reducible refine KeepN.next ?_
    | with_reducible refine KeepN.ite (fun _ => ?_) (fun _ => ?_)
    | with_reducible apply State.bump_keep
    | split
    | dsimp only

theorem execCraoneDegrade_keep {r s : State} (h : Keep r s) (l : CraLink) (module : BitVec 5) (half : Bool) : KeepN r (execCraoneDegrade l module half s) := by
  unfold execCraoneDegrade
  try dsimp only
  repeat' first
    | with_reducible assumption
    | with_reducible exact Keep.refl _
    | with_reducible refine Keep.ite (fun _ => ?_) (fun _ => ?_)
    | with_reducible refine KeepN.next ?_
    | with_reducible refine KeepN.ite (fun _ => ?_) (fun _ => ?_)
    | with_reducible apply State.event_keep
    | split
    | dsimp only

end Sys2Proof.Machine
end

