-- ==== Sys2Proof/Laws/KeepYelry.lean ====
section
/-!
SUPPORT. The operations of Machine/Yelry.lean keep the queue, the canonical forms and the freshness of free values.
-/

namespace Sys2Proof.Machine

open Sys2Proof

theorem State.hart_keep {r s : State} (h : Keep r s) (c : Nat) (f : State → State)
    (hf : ∀ t, Keep r t → Keep r (f t)) : KeepN r (State.hart s c f) := by
  unfold State.hart
  exact KeepN.next (Keep.ite (fun _ => hf _ (State.setCore_keep h _ _)) (fun _ => h))

theorem State.drain_keep {r s : State} (h : Keep r s) (c : Nat) : Keep r (State.drain s c) := by
  unfold State.drain
  try dsimp only
  repeat' first
    | with_reducible assumption
    | with_reducible exact Keep.refl _
    | with_reducible apply State.sbIssue_keep
    | with_reducible apply State.setCore_keep
    | simp only [keep_mk]
    | split
    | dsimp only

theorem State.hartTrap_keep {r s : State} (h : Keep r s) (c : Nat) (cause : Nat) (addr : Nat) : Keep r (State.hartTrap s c cause addr) := by
  unfold State.hartTrap
  try dsimp only
  repeat' first
    | with_reducible assumption
    | with_reducible exact Keep.refl _
    | with_reducible apply State.setCore_keep
    | with_reducible apply State.drain_keep
    | simp only [keep_mk]
    | split
    | dsimp only

theorem State.poisonUsed_keep {r s : State} (h : Keep r s) (c : Nat) (a : Nat) : Keep r (State.poisonUsed s c a) := by
  unfold State.poisonUsed
  try dsimp only
  repeat' first
    | with_reducible assumption
    | with_reducible exact Keep.refl _
    | with_reducible apply State.setCore_keep
    | split
    | dsimp only

theorem State.sbTake_keep {r s : State} (h : Keep r s) (c line : Nat) : KeepS r (State.sbTake s c line) := by
  unfold State.sbTake
  cases takeFirst (fun e => e.line == line) (s.core c).sb with
  | none => exact KeepS.none
  | some p => exact KeepS.some (State.setCore_keep h _ _)

theorem State.sbPerform_keep {r s : State} (h : Keep r s) (c : Nat) (e : SbEnt) : Keep r (State.sbPerform s c e).1 := by
  unfold State.sbPerform
  try dsimp only
  repeat' first
    | with_reducible assumption
    | with_reducible exact Keep.refl _
    | with_reducible refine Keep.ite (fun _ => ?_) (fun _ => ?_)
    | with_reducible refine Keep.fst_ite (fun _ => ?_) (fun _ => ?_)
    | with_reducible apply State.bump_keep
    | with_reducible apply State.busWrite_keep
    | simp only [keep_mk]
    | with_reducible refine Keep.foldl ?_ (fun _ _ _ => ?_)
    | with_reducible refine Keep.foldl_fst ?_ (fun _ _ _ => ?_)
    | with_reducible refine Keep.fst_eq (by assumption) ?_
    | split
    | dsimp only

theorem State.sbMaybe_keep {r s : State} (h : Keep r s) (c : Nat) (e : SbEnt) : Keep r (State.sbMaybe s c e) := by
  unfold State.sbMaybe
  try dsimp only
  repeat' first
    | with_reducible assumption
    | with_reducible exact Keep.refl _
    | with_reducible refine Keep.ite (fun _ => ?_) (fun _ => ?_)
    | with_reducible apply State.fresh_keep
    | with_reducible apply State.memWrite_keep
    | with_reducible apply State.sbPerform_keep
    | with_reducible refine Keep.foldl ?_ (fun _ _ _ => ?_)
    | with_reducible refine Keep.foldl_fst ?_ (fun _ _ _ => ?_)
    | with_reducible refine Keep.fst_eq (by assumption) ?_
    | with_reducible refine Keep.snd_eq (by assumption) ?_
    | split
    | dsimp only

theorem State.sbEnd_keep {r s : State} (h : Keep r s) (c : Nat) (e : SbEnt) (ans : StoreAnswer) : Keep r (State.sbEnd s c e ans) := by
  unfold State.sbEnd
  try dsimp only
  repeat' first
    | with_reducible assumption
    | with_reducible exact Keep.refl _
    | with_reducible apply State.setCore_keep
    | simp only [keep_mk]
    | split
    | dsimp only

theorem execStoreBufferCompletion_keep {r s : State} (h : Keep r s) (c : CoreId) (line : Word) (ans : StoreAnswer) : KeepN r (execStoreBufferCompletion c line ans s) := by
  unfold execStoreBufferCompletion
  try dsimp only
  repeat' first
    | with_reducible assumption
    | with_reducible exact Keep.refl _
    | with_reducible refine Keep.ite (fun _ => ?_) (fun _ => ?_)
    | with_reducible refine KeepN.next ?_
    | with_reducible refine KeepN.ite (fun _ => ?_) (fun _ => ?_)
    | with_reducible apply State.sbIssue_keep
    | with_reducible apply State.sbTake_keep
    | with_reducible apply State.sbPerform_keep
    | with_reducible apply State.sbEnd_keep
    | with_reducible apply State.sbMaybe_keep
    | simp only [keep_mk]
    | with_reducible refine Keep.fst_eq (by assumption) ?_
    | with_reducible refine KeepS.of_eq (by assumption) ?_
    | split
    | dsimp only

theorem execStoreBufferTimeout_keep {r s : State} (h : Keep r s) (c : CoreId) (line : Word) : KeepN r (execStoreBufferTimeout c line s) := by
  unfold execStoreBufferTimeout
  try dsimp only
  repeat' first
    | with_reducible assumption
    | with_reducible exact Keep.refl _
    | with_reducible refine KeepN.next ?_
    | with_reducible apply State.sbTake_keep
    | with_reducible apply State.sbMaybe_keep
    | with_reducible apply State.setCore_keep
    | simp only [keep_mk]
    | with_reducible refine KeepS.of_eq (by assumption) ?_
    | split
    | dsimp only

theorem State.sbDiscard_keep {r s : State} (h : Keep r s) (c : Nat) : Keep r (State.sbDiscard s c) := by
  unfold State.sbDiscard
  try dsimp only
  repeat' first
    | with_reducible assumption
    | with_reducible exact Keep.refl _
    | with_reducible apply State.sbMaybe_keep
    | with_reducible apply State.setCore_keep
    | with_reducible refine Keep.foldl ?_ (fun _ _ _ => ?_)
    | with_reducible refine Keep.foldl_fst ?_ (fun _ _ _ => ?_)
    | split
    | dsimp only

theorem execWarmResetDiscard_keep {r s : State} (h : Keep r s) : KeepN r (execWarmResetDiscard s) := by
  unfold execWarmResetDiscard
  try dsimp only
  repeat' first
    | with_reducible assumption
    | with_reducible exact Keep.refl _
    | with_reducible refine Keep.ite (fun _ => ?_) (fun _ => ?_)
    | with_reducible refine KeepN.next ?_
    | with_reducible refine KeepN.ite (fun _ => ?_) (fun _ => ?_)
    | with_reducible apply State.sbDiscard_keep
    | with_reducible refine Keep.foldl ?_ (fun _ _ _ => ?_)
    | with_reducible refine Keep.foldl_fst ?_ (fun _ _ _ => ?_)
    | split
    | dsimp only

theorem State.dataFind_keep {r s : State} (h : Keep r s) (c : Nat) (line : Nat) (l2 : Bool) (f : CacheFinding) : Keep r (State.dataFind s c line l2 f) := by
  unfold State.dataFind
  try dsimp only
  repeat' first
    | with_reducible assumption
    | with_reducible exact Keep.refl _
    | with_reducible refine Keep.ite (fun _ => ?_) (fun _ => ?_)
    | with_reducible apply State.cacheFind_keep
    | with_reducible apply State.setCore_keep
    | with_reducible apply State.setLine_keep
    | simp only [keep_mk]
    | split
    | dsimp only

theorem State.l1dLoad_keep {r s : State} (h : Keep r s) (c : Nat) (line : Nat) (stream : Bool) : Keep r (State.l1dLoad s c line stream) := by
  unfold State.l1dLoad
  try dsimp only
  repeat' first
    | with_reducible assumption
    | with_reducible exact Keep.refl _
    | with_reducible refine Keep.ite (fun _ => ?_) (fun _ => ?_)
    | with_reducible apply State.setCore_keep
    | split
    | dsimp only

theorem State.hartRead_keep {r s : State} (h : Keep r s) (c : Nat) (a : Nat) (n : Nat) (page : PageAttr) (kind : optParam RdKind RdKind.fill) : Keep r (State.hartRead s c a n page kind).1 := by
  unfold State.hartRead
  try dsimp only
  repeat' first
    | with_reducible assumption
    | with_reducible exact Keep.refl _
    | with_reducible refine Keep.ite (fun _ => ?_) (fun _ => ?_)
    | with_reducible refine Keep.fst_ite (fun _ => ?_) (fun _ => ?_)
    | with_reducible apply State.bufRead_keep
    | with_reducible apply State.busRead_keep
    | with_reducible refine Keep.fst_eq (by assumption) ?_
    | split
    | dsimp only

theorem State.fetch_keep {r s : State} (h : Keep r s) (c : Nat) (a : Nat) (n : Nat) (page : PageAttr) (f : CacheFinding) : Keep r (State.fetch s c a n page f) := by
  unfold State.fetch
  try dsimp only
  repeat' first
    | with_reducible assumption
    | with_reducible exact Keep.refl _
    | with_reducible refine Keep.ite (fun _ => ?_) (fun _ => ?_)
    | with_reducible apply State.setCore_keep
    | with_reducible apply State.hartTrap_keep
    | with_reducible apply State.hartRead_keep
    | simp only [keep_mk]
    | with_reducible refine Keep.fst_eq (by assumption) ?_
    | split
    | dsimp only

theorem State.ioAccess_keep {r s : State} (h : Keep r s) (c : Nat) (a : Nat) (n : Nat) (store : Option Word) : Keep r (State.ioAccess s c a n store) := by
  unfold State.ioAccess
  try dsimp only
  repeat' first
    | with_reducible assumption
    | with_reducible exact Keep.refl _
    | with_reducible refine Keep.ite (fun _ => ?_) (fun _ => ?_)
    | with_reducible apply State.sbIssue_keep
    | with_reducible apply State.setCore_keep
    | with_reducible apply State.busRead_keep
    | with_reducible apply State.hartTrap_keep
    | with_reducible apply State.poisonUsed_keep
    | with_reducible apply State.busWrite_keep
    | simp only [keep_mk]
    | with_reducible refine Keep.fst_eq (by assumption) ?_
    | split
    | dsimp only

theorem execIoAccess_keep {r s : State} (h : Keep r s) (c : CoreId) (pa : Word) (size : AccSize) (store : Option Word) : KeepN r (execIoAccess c pa size store s) := by
  unfold execIoAccess
  try dsimp only
  repeat' first
    | with_reducible assumption
    | with_reducible exact Keep.refl _
    | with_reducible refine KeepN.next ?_
    | with_reducible apply State.hart_keep
    | with_reducible apply State.ioAccess_keep
    | with_reducible intro _ _ _
    | with_reducible intro _ _
    | with_reducible intro _
    | split
    | dsimp only

theorem State.load_keep {r s : State} (h : Keep r s) (c : Nat) (a : Nat) (n : Nat) (page : PageAttr) (hint : Ntl) (l2 : Bool) (f : CacheFinding) : Keep r (State.load s c a n page hint l2 f) := by
  unfold State.load
  try dsimp only
  repeat' first
    | with_reducible assumption
    | with_reducible exact Keep.refl _
    | with_reducible refine Keep.ite (fun _ => ?_) (fun _ => ?_)
    | with_reducible apply State.dataFind_keep
    | with_reducible apply State.rrbPoison_keep
    | with_reducible apply State.hartRead_keep
    | with_reducible apply State.hartTrap_keep
    | with_reducible apply State.poisonUsed_keep
    | with_reducible apply State.l1dLoad_keep
    | simp only [keep_mk]
    | with_reducible refine Keep.fst_eq (by assumption) ?_
    | split
    | dsimp only

theorem execYelryLoad_keep {r s : State} (h : Keep r s) (c : CoreId) (pa : Word) (size : AccSize) (page : PageAttr) (hint : Ntl) (arr : CoreArray) (f : CacheFinding) : KeepN r (execYelryLoad c pa size page hint arr f s) := by
  unfold execYelryLoad
  try dsimp only
  repeat' first
    | with_reducible assumption
    | with_reducible exact Keep.refl _
    | with_reducible refine Keep.ite (fun _ => ?_) (fun _ => ?_)
    | with_reducible refine KeepN.next ?_
    | with_reducible refine KeepN.ite (fun _ => ?_) (fun _ => ?_)
    | with_reducible apply State.hart_keep
    | with_reducible apply State.fetch_keep
    | with_reducible apply State.ioAccess_keep
    | with_reducible apply State.load_keep
    | with_reducible intro _ _ _
    | with_reducible intro _ _
    | with_reducible intro _
    | simp only [keep_mk]
    | split
    | dsimp only

theorem execYelryStore_keep {r s : State} (h : Keep r s) (c : CoreId) (pa : Word) (size : AccSize) (page : PageAttr) (hint : Ntl) (data : Word) (issue : Bool) : KeepN r (execYelryStore c pa size page hint data issue s) := by
  unfold execYelryStore
  try dsimp only
  repeat' first
    | with_reducible assumption
    | with_reducible exact Keep.refl _
    | with_reducible refine Keep.ite (fun _ => ?_) (fun _ => ?_)
    | with_reducible refine KeepN.next ?_
    | with_reducible refine KeepN.ite (fun _ => ?_) (fun _ => ?_)
    | with_reducible apply State.hart_keep
    | with_reducible apply State.ioAccess_keep
    | with_reducible apply State.setCore_keep
    | with_reducible apply State.sbIssue_keep
    | with_reducible intro _ _ _
    | with_reducible intro _ _
    | with_reducible intro _
    | simp only [keep_mk]
    | with_reducible refine Keep.foldl ?_ (fun _ _ _ => ?_)
    | with_reducible refine Keep.foldl_fst ?_ (fun _ _ _ => ?_)
    | split
    | dsimp only

theorem execYelryFence_keep {r s : State} (h : Keep r s) (c : CoreId) (pred : BitVec 4) : KeepN r (execYelryFence c pred s) := by
  unfold execYelryFence
  try dsimp only
  repeat' first
    | with_reducible assumption
    | with_reducible exact Keep.refl _
    | with_reducible refine Keep.ite (fun _ => ?_) (fun _ => ?_)
    | with_reducible refine KeepN.next ?_
    | with_reducible refine KeepN.ite (fun _ => ?_) (fun _ => ?_)
    | with_reducible apply State.hart_keep
    | with_reducible apply State.setCore_keep
    | with_reducible apply State.drain_keep
    | with_reducible intro _ _ _
    | with_reducible intro _ _
    | with_reducible intro _
    | simp only [keep_mk]
    | split
    | dsimp only

theorem execFenceI_keep {r s : State} (h : Keep r s) (c : CoreId) : KeepN r (execFenceI c s) := by
  unfold execFenceI
  try dsimp only
  repeat' first
    | with_reducible assumption
    | with_reducible exact Keep.refl _
    | with_reducible refine KeepN.next ?_
    | with_reducible apply State.hart_keep
    | with_reducible apply State.drain_keep
    | with_reducible apply State.setCore_keep
    | with_reducible intro _ _ _
    | with_reducible intro _ _
    | with_reducible intro _
    | simp only [keep_mk]
    | split
    | dsimp only

theorem execLr_keep {r s : State} (h : Keep r s) (c : CoreId) (pa : Word) (dw : Bool) (page : PageAttr) (aqrl : Bool) : KeepN r (execLr c pa dw page aqrl s) := by
  unfold execLr
  try dsimp only
  repeat' first
    | with_reducible assumption
    | with_reducible exact Keep.refl _
    | with_reducible refine Keep.ite (fun _ => ?_) (fun _ => ?_)
    | with_reducible refine KeepN.next ?_
    | with_reducible refine KeepN.ite (fun _ => ?_) (fun _ => ?_)
    | with_reducible apply State.hart_keep
    | with_reducible apply State.hartTrap_keep
    | with_reducible apply State.sbIssue_keep
    | with_reducible apply State.hartRead_keep
    | with_reducible apply State.poisonUsed_keep
    | with_reducible apply State.l1dLoad_keep
    | with_reducible apply State.setCore_keep
    | with_reducible intro _ _ _
    | with_reducible intro _ _
    | with_reducible intro _
    | simp only [keep_mk]
    | with_reducible refine Keep.fst_eq (by assumption) ?_
    | split
    | dsimp only

theorem execSc_keep {r s : State} (h : Keep r s) (c : CoreId) (pa : Word) (dw : Bool) (page : PageAttr) (data : Word) (aqrl : Bool) : KeepN r (execSc c pa dw page data aqrl s) := by
  unfold execSc
  try dsimp only
  repeat' first
    | with_reducible assumption
    | with_reducible exact Keep.refl _
    | with_reducible refine Keep.ite (fun _ => ?_) (fun _ => ?_)
    | with_reducible refine KeepN.next ?_
    | with_reducible refine KeepN.ite (fun _ => ?_) (fun _ => ?_)
    | with_reducible apply State.hart_keep
    | with_reducible apply State.hartTrap_keep
    | with_reducible apply State.sbIssue_keep
    | with_reducible apply State.setCore_keep
    | with_reducible apply State.busWrite_keep
    | with_reducible intro _ _ _
    | with_reducible intro _ _
    | with_reducible intro _
    | simp only [keep_mk]
    | with_reducible refine Keep.fst_eq (by assumption) ?_
    | split
    | dsimp only

theorem execReservationHoldExpire_keep {r s : State} (h : Keep r s) (c : CoreId) : KeepN r (execReservationHoldExpire c s) := by
  unfold execReservationHoldExpire
  try dsimp only
  repeat' first
    | with_reducible assumption
    | with_reducible exact Keep.refl _
    | with_reducible refine KeepN.next ?_
    | with_reducible apply State.setCore_keep
    | simp only [keep_mk]
    | split
    | dsimp only

theorem execYelryAmo_keep {r s : State} (h : Keep r s) (c : CoreId) (pa : Word) (dw : Bool) (op : AmoOp) (data : Word) (aqrl : Bool) : KeepN r (execYelryAmo c pa dw op data aqrl s) := by
  unfold execYelryAmo
  try dsimp only
  repeat' first
    | with_reducible assumption
    | with_reducible exact Keep.refl _
    | with_reducible refine Keep.ite (fun _ => ?_) (fun _ => ?_)
    | with_reducible refine KeepN.next ?_
    | with_reducible refine KeepN.ite (fun _ => ?_) (fun _ => ?_)
    | with_reducible apply State.hart_keep
    | with_reducible apply State.hartTrap_keep
    | with_reducible apply State.sbIssue_keep
    | with_reducible apply State.poisonUsed_keep
    | with_reducible apply State.memAmo_keep
    | with_reducible apply State.memRmw_keep
    | with_reducible intro _ _ _
    | with_reducible intro _ _
    | with_reducible intro _
    | simp only [keep_mk]
    | with_reducible refine Keep.fst_eq (by assumption) ?_
    | split
    | dsimp only

theorem execCboZero_keep {r s : State} (h : Keep r s) (c : CoreId) (pa : Word) : KeepN r (execCboZero c pa s) := by
  unfold execCboZero
  try dsimp only
  repeat' first
    | with_reducible assumption
    | with_reducible exact Keep.refl _
    | with_reducible refine Keep.ite (fun _ => ?_) (fun _ => ?_)
    | with_reducible refine KeepN.next ?_
    | with_reducible refine KeepN.ite (fun _ => ?_) (fun _ => ?_)
    | with_reducible apply State.hart_keep
    | with_reducible apply State.sbIssue_keep
    | with_reducible apply State.hartTrap_keep
    | with_reducible apply State.busWrite_keep
    | with_reducible intro _ _ _
    | with_reducible intro _ _
    | with_reducible intro _
    | simp only [keep_mk]
    | with_reducible refine Keep.fst_eq (by assumption) ?_
    | split
    | dsimp only

theorem State.cboRun_keep {r s : State} (h : Keep r s) (c a : Nat) (op : CohOp) (inval : Bool) :
    Keep r (State.cboRun s c a op inval) := by
  unfold State.cboRun
  refine Keep.ite (fun _ => State.sbIssue_keep h _) (fun _ => ?_)
  split
  · exact State.cmo_keep h _ _ _
  · refine Keep.ite (fun _ => ?_) (fun _ => h)
    rw [keep_mk]; exact h

theorem execCboClean_keep {r s : State} (h : Keep r s) (c : CoreId) (pa : Word) : KeepN r (execCboClean c pa s) := by
  unfold execCboClean
  try dsimp only
  repeat' first
    | with_reducible assumption
    | with_reducible exact Keep.refl _
    | with_reducible refine KeepN.next ?_
    | with_reducible apply State.hart_keep
    | with_reducible apply State.cboRun_keep
    | with_reducible intro _ _ _
    | with_reducible intro _ _
    | with_reducible intro _
    | split
    | dsimp only

theorem execCboFlush_keep {r s : State} (h : Keep r s) (c : CoreId) (pa : Word) : KeepN r (execCboFlush c pa s) := by
  unfold execCboFlush
  try dsimp only
  repeat' first
    | with_reducible assumption
    | with_reducible exact Keep.refl _
    | with_reducible refine KeepN.next ?_
    | with_reducible apply State.hart_keep
    | with_reducible apply State.cboRun_keep
    | with_reducible intro _ _ _
    | with_reducible intro _ _
    | with_reducible intro _
    | split
    | dsimp only

theorem execCboInval_keep {r s : State} (h : Keep r s) (c : CoreId) (pa : Word) : KeepN r (execCboInval c pa s) := by
  unfold execCboInval
  try dsimp only
  repeat' first
    | with_reducible assumption
    | with_reducible exact Keep.refl _
    | with_reducible refine KeepN.next ?_
    | with_reducible apply State.hart_keep
    | with_reducible apply State.cboRun_keep
    | with_reducible intro _ _ _
    | with_reducible intro _ _
    | with_reducible intro _
    | split
    | dsimp only

theorem execPrefetch_keep {r s : State} (h : Keep r s) (c : CoreId) (pa : Word) : KeepN r (execPrefetch c pa s) := by
  unfold execPrefetch
  try dsimp only
  repeat' first
    | with_reducible assumption
    | with_reducible exact Keep.refl _
    | with_reducible refine Keep.ite (fun _ => ?_) (fun _ => ?_)
    | with_reducible refine KeepN.next ?_
    | with_reducible refine KeepN.ite (fun _ => ?_) (fun _ => ?_)
    | with_reducible apply State.hart_keep
    | with_reducible apply State.localRead_keep
    | with_reducible apply State.bump_keep
    | with_reducible intro _ _ _
    | with_reducible intro _ _
    | with_reducible intro _
    | simp only [keep_mk]
    | with_reducible refine Keep.fst_eq (by assumption) ?_
    | split
    | dsimp only

theorem execWfi_keep {r s : State} (h : Keep r s) (c : CoreId) : KeepN r (execWfi c s) := by
  unfold execWfi
  try dsimp only
  repeat' first
    | with_reducible assumption
    | with_reducible exact Keep.refl _
    | with_reducible refine Keep.ite (fun _ => ?_) (fun _ => ?_)
    | with_reducible refine KeepN.next ?_
    | with_reducible refine KeepN.ite (fun _ => ?_) (fun _ => ?_)
    | with_reducible apply State.hart_keep
    | with_reducible apply State.sbIssue_keep
    | with_reducible apply State.setCoreSt_keep
    | with_reducible apply State.setCore_keep
    | with_reducible intro _ _ _
    | with_reducible intro _ _
    | with_reducible intro _
    | simp only [keep_mk]
    | split
    | dsimp only

theorem State.coreStart_keep {r s : State} (h : Keep r s) (c : Nat) : Keep r (State.coreStart s c) := by
  unfold State.coreStart
  try dsimp only
  repeat' first
    | with_reducible assumption
    | with_reducible exact Keep.refl _
    | with_reducible refine Keep.ite (fun _ => ?_) (fun _ => ?_)
    | with_reducible apply State.setCore_keep
    | with_reducible apply State.wrap_keep
    | with_reducible apply State.setCoreSt_keep
    | with_reducible apply State.wr_keep
    | simp only [keep_mk]
    | split
    | dsimp only

theorem execCoreStart_keep {r s : State} (h : Keep r s) (c : CoreId) : KeepN r (execCoreStart c s) := by
  unfold execCoreStart
  try dsimp only
  repeat' first
    | with_reducible assumption
    | with_reducible exact Keep.refl _
    | with_reducible refine KeepN.next ?_
    | with_reducible apply State.coreStart_keep
    | split
    | dsimp only

theorem execCorePowerGood_keep {r s : State} (h : Keep r s) (c : CoreId) : KeepN r (execCorePowerGood c s) := by
  unfold execCorePowerGood
  try dsimp only
  repeat' first
    | with_reducible assumption
    | with_reducible exact Keep.refl _
    | with_reducible refine Keep.ite (fun _ => ?_) (fun _ => ?_)
    | with_reducible refine KeepN.next ?_
    | with_reducible refine KeepN.ite (fun _ => ?_) (fun _ => ?_)
    | with_reducible apply State.setCore_keep
    | with_reducible apply State.setCoreSt_keep
    | simp only [keep_mk]
    | split
    | dsimp only

theorem execCorePark_keep {r s : State} (h : Keep r s) (c : CoreId) : KeepN r (execCorePark c s) := by
  unfold execCorePark
  try dsimp only
  repeat' first
    | with_reducible assumption
    | with_reducible exact Keep.refl _
    | with_reducible refine Keep.ite (fun _ => ?_) (fun _ => ?_)
    | with_reducible refine KeepN.next ?_
    | with_reducible refine KeepN.ite (fun _ => ?_) (fun _ => ?_)
    | with_reducible apply State.wr_keep
    | split
    | dsimp only

theorem execParkDrainComplete_keep {r s : State} (h : Keep r s) (c : CoreId) : KeepN r (execParkDrainComplete c s) := by
  unfold execParkDrainComplete
  try dsimp only
  repeat' first
    | with_reducible assumption
    | with_reducible exact Keep.refl _
    | with_reducible refine Keep.ite (fun _ => ?_) (fun _ => ?_)
    | with_reducible refine KeepN.next ?_
    | with_reducible refine KeepN.ite (fun _ => ?_) (fun _ => ?_)
    | with_reducible apply State.agentFlush_keep
    | with_reducible apply State.setCore_keep
    | simp only [keep_mk]
    | split
    | dsimp only

theorem execL2FlushComplete_keep {r s : State} (h : Keep r s) (c : CoreId) : KeepN r (execL2FlushComplete c s) := by
  unfold execL2FlushComplete
  try dsimp only
  repeat' first
    | with_reducible assumption
    | with_reducible exact Keep.refl _
    | with_reducible refine Keep.ite (fun _ => ?_) (fun _ => ?_)
    | with_reducible refine KeepN.next ?_
    | with_reducible refine KeepN.ite (fun _ => ?_) (fun _ => ?_)
    | with_reducible apply State.setCore_keep
    | with_reducible apply State.wr_keep
    | with_reducible apply State.setCoreSt_keep
    | split
    | dsimp only

theorem execCoreOffline_keep {r s : State} (h : Keep r s) (c : CoreId) (cause : OffCause) : KeepN r (execCoreOffline c cause s) := by
  unfold execCoreOffline
  try dsimp only
  repeat' first
    | with_reducible assumption
    | with_reducible exact Keep.refl _
    | with_reducible refine KeepN.next ?_
    | with_reducible apply State.coreOfflining_keep
    | split
    | dsimp only

theorem execOfflineFlushComplete_keep {r s : State} (h : Keep r s) (c : CoreId) (flushed : Bool) : KeepN r (execOfflineFlushComplete c flushed s) := by
  unfold execOfflineFlushComplete
  try dsimp only
  repeat' first
    | with_reducible assumption
    | with_reducible exact Keep.refl _
    | with_reducible refine Keep.ite (fun _ => ?_) (fun _ => ?_)
    | with_reducible refine KeepN.next ?_
    | with_reducible refine KeepN.ite (fun _ => ?_) (fun _ => ?_)
    | with_reducible apply State.sbDiscard_keep
    | with_reducible apply State.agentFlush_keep
    | with_reducible apply State.agentLost_keep
    | with_reducible apply State.wr_keep
    | with_reducible apply State.event_keep
    | with_reducible apply State.setCoreSt_keep
    | with_reducible apply State.logRec_keep
    | simp only [keep_mk]
    | split
    | dsimp only

theorem execSeteipnum_keep {r s : State} (h : Keep r s) (c : CoreId) (sLevel : Bool) (off : BitVec 12) (data : W32) : KeepN r (execSeteipnum c sLevel off data s) := by
  unfold execSeteipnum
  try dsimp only
  repeat' first
    | with_reducible assumption
    | with_reducible exact Keep.refl _
    | with_reducible refine Keep.ite (fun _ => ?_) (fun _ => ?_)
    | with_reducible refine KeepN.next ?_
    | with_reducible refine KeepN.ite (fun _ => ?_) (fun _ => ?_)
    | with_reducible apply State.setEip_keep
    | simp only [keep_mk]
    | split
    | dsimp only

theorem execMtimerCompare_keep {r s : State} (h : Keep r s) (c : CoreId) (super : Bool) : KeepN r (execMtimerCompare c super s) := by
  unfold execMtimerCompare
  try dsimp only
  repeat' first
    | with_reducible assumption
    | with_reducible exact Keep.refl _
    | with_reducible refine Keep.ite (fun _ => ?_) (fun _ => ?_)
    | with_reducible refine KeepN.next ?_
    | with_reducible refine KeepN.ite (fun _ => ?_) (fun _ => ?_)
    | with_reducible apply State.setReg_keep
    | with_reducible apply State.setCore_keep
    | simp only [keep_mk]
    | split
    | dsimp only

theorem State.csrWrite_keep {r s : State} (h : Keep r s) (c : Nat) (n : Nat) (v : Word) : Keep r (State.csrWrite s c n v) := by
  unfold State.csrWrite
  try dsimp only
  repeat' first
    | with_reducible assumption
    | with_reducible exact Keep.refl _
    | with_reducible refine Keep.ite (fun _ => ?_) (fun _ => ?_)
    | with_reducible apply State.setCore_keep
    | simp only [keep_mk]
    | split
    | dsimp only

theorem execYelryCsrAccess_keep {r s : State} (h : Keep r s) (c : CoreId) (mode : Priv) (csr : BitVec 12) (op : CsrOp) (value : Word) : KeepN r (execYelryCsrAccess c mode csr op value s) := by
  unfold execYelryCsrAccess
  try dsimp only
  repeat' first
    | with_reducible assumption
    | with_reducible exact Keep.refl _
    | with_reducible refine Keep.ite (fun _ => ?_) (fun _ => ?_)
    | with_reducible refine KeepN.next ?_
    | with_reducible refine KeepN.ite (fun _ => ?_) (fun _ => ?_)
    | with_reducible apply State.hart_keep
    | with_reducible apply State.hartTrap_keep
    | with_reducible apply State.csrWrite_keep
    | with_reducible intro _ _ _
    | with_reducible intro _ _
    | with_reducible intro _
    | simp only [keep_mk]
    | split
    | dsimp only

theorem execMgtCxlwinEn_keep {r s : State} (h : Keep r s) (w : Fin 8) (value : Word) : KeepN r (execMgtCxlwinEn w value s) := by
  unfold execMgtCxlwinEn
  try dsimp only
  repeat' first
    | with_reducible assumption
    | with_reducible exact Keep.refl _
    | with_reducible refine Keep.ite (fun _ => ?_) (fun _ => ?_)
    | with_reducible refine KeepN.next ?_
    | with_reducible refine KeepN.ite (fun _ => ?_) (fun _ => ?_)
    | with_reducible apply State.wr_keep
    | with_reducible apply State.regWrite_keep
    | split
    | dsimp only

theorem execCxlLock_keep {r s : State} (h : Keep r s) : KeepN r (execCxlLock s) := by
  unfold execCxlLock
  try dsimp only
  repeat' first
    | with_reducible assumption
    | with_reducible exact Keep.refl _
    | with_reducible refine KeepN.next ?_
    | with_reducible apply State.wr_keep
    | split
    | dsimp only

theorem execDdrPatrolScrub_keep {r s : State} (h : Keep r s) (addr : Word) (f : CacheFinding) : KeepN r (execDdrPatrolScrub addr f s) := by
  unfold execDdrPatrolScrub
  try dsimp only
  repeat' first
    | with_reducible assumption
    | with_reducible exact Keep.refl _
    | with_reducible refine KeepN.next ?_
    | with_reducible apply State.ddrFind_keep
    | split
    | dsimp only

end Sys2Proof.Machine
end

