-- ==== Sys2Proof/Laws/KeepReset.lean ====
section
/-!
SUPPORT. The operations of Machine/Reset.lean keep the queue, the canonical forms and the freshness of free values.
-/

namespace Sys2Proof.Machine

open Sys2Proof

theorem State.refreshFuses_keep {r s : State} (h : Keep r s) : Keep r (State.refreshFuses s) := by
  unfold State.refreshFuses
  try dsimp only
  repeat' first
    | with_reducible assumption
    | with_reducible exact Keep.refl _
    | with_reducible apply State.wr_keep
    | split
    | dsimp only

theorem State.coldReset_keep {r s : State} (h : Keep r s) (code : Nat) (straps : Straps) :
    Keep r (State.coldReset s code straps) := by
  have ha := State.fwAbandon_keep h
  unfold State.coldReset
  dsimp only
  refine Keep.foldl ?_ (fun _ _ ht => Keep.ite (fun _ => State.fwFail_keep ht _) (fun _ => ht))
  refine State.setReg_keep (State.wr_keep (State.wr_keep (State.wr_keep (State.setReg_keep (State.refreshFuses_keep (State.wr_keep
    (State.refreshKeys_keep (State.setReg_keep (State.refreshSig_keep (State.wr_keep (State.wr_keep (State.wr_keep (State.wr_keep
    ?_ _ _ _) _ _ _) _ _ _) _ _ _)) _ _)) _ _ _)) _ _) _ _ _) _ _ _) _ _ _) _ _
  exact Keep.wf ha rfl rfl (fun _ => rfl) (fun _ => rfl) id (fun _ => rfl) (fun _ => rfl) (fun _ => rfl)

theorem execColdReset_keep {r s : State} (h : Keep r s) (cause : ColdCause) (straps : Straps) : KeepN r (execColdReset cause straps s) := by
  unfold execColdReset
  try dsimp only
  repeat' first
    | with_reducible assumption
    | with_reducible exact Keep.refl _
    | with_reducible refine KeepN.next ?_
    | with_reducible apply State.coldReset_keep
    | split
    | dsimp only

theorem execRstCtlCold_keep {r s : State} (h : Keep r s) (straps : Straps) : KeepN r (execRstCtlCold straps s) := by
  unfold execRstCtlCold
  try dsimp only
  repeat' first
    | with_reducible assumption
    | with_reducible exact Keep.refl _
    | with_reducible refine KeepN.next ?_
    | with_reducible apply State.coldReset_keep
    | split
    | dsimp only

theorem State.tileHalt_keep {r s : State} (h : Keep r s) (n : Nat) : Keep r (State.tileHalt s n) := by
  unfold State.tileHalt
  try dsimp only
  repeat' first
    | with_reducible assumption
    | with_reducible exact Keep.refl _
    | with_reducible apply State.setEpoSt_keep
    | with_reducible apply State.tileStop_keep
    | with_reducible apply State.groupsBusy_keep
    | with_reducible apply State.setTile_keep
    | simp only [keep_mk]
    | split
    | dsimp only

theorem State.warmAssert_keep {r s : State} (h : Keep r s) (code : Nat) : Keep r (State.warmAssert s code) := by
  unfold State.warmAssert
  try dsimp only
  repeat' first
    | with_reducible assumption
    | with_reducible exact Keep.refl _
    | with_reducible refine Keep.ite (fun _ => ?_) (fun _ => ?_)
    | with_reducible apply State.wr_keep
    | with_reducible apply State.wrap_keep
    | with_reducible apply State.setReg_keep
    | with_reducible apply State.tileHalt_keep
    | with_reducible apply State.sbIssue_keep
    | simp only [keep_mk]
    | with_reducible refine Keep.foldl ?_ (fun _ _ _ => ?_)
    | with_reducible refine Keep.foldl_fst ?_ (fun _ _ _ => ?_)
    | split
    | dsimp only

theorem execWarmReset_keep {r s : State} (h : Keep r s) (cause : WarmCause) : KeepN r (execWarmReset cause s) := by
  unfold execWarmReset
  try dsimp only
  repeat' first
    | with_reducible assumption
    | with_reducible exact Keep.refl _
    | with_reducible refine KeepN.next ?_
    | with_reducible apply State.warmAssert_keep
    | split
    | dsimp only

theorem execRstCtlWarm_keep {r s : State} (h : Keep r s) : KeepN r (execRstCtlWarm s) := by
  unfold execRstCtlWarm
  try dsimp only
  repeat' first
    | with_reducible assumption
    | with_reducible exact Keep.refl _
    | with_reducible refine KeepN.next ?_
    | with_reducible apply State.warmAssert_keep
    | split
    | dsimp only

theorem execAutoWarmDelay_keep {r s : State} (h : Keep r s) : KeepN r (execAutoWarmDelay s) := by
  unfold execAutoWarmDelay
  try dsimp only
  repeat' first
    | with_reducible assumption
    | with_reducible exact Keep.refl _
    | with_reducible refine Keep.ite (fun _ => ?_) (fun _ => ?_)
    | with_reducible refine KeepN.next ?_
    | with_reducible refine KeepN.ite (fun _ => ?_) (fun _ => ?_)
    | with_reducible apply State.warmAssert_keep
    | split
    | dsimp only

theorem execWarmJournalsPublished_keep {r s : State} (h : Keep r s) : KeepN r (execWarmJournalsPublished s) := by
  unfold execWarmJournalsPublished
  try dsimp only
  repeat' first
    | with_reducible assumption
    | with_reducible exact Keep.refl _
    | with_reducible refine Keep.ite (fun _ => ?_) (fun _ => ?_)
    | with_reducible refine KeepN.next ?_
    | with_reducible refine KeepN.ite (fun _ => ?_) (fun _ => ?_)
    | with_reducible apply State.craAbsent_keep
    | simp only [keep_mk]
    | with_reducible refine Keep.foldl ?_ (fun _ _ _ => ?_)
    | with_reducible refine Keep.foldl_fst ?_ (fun _ _ _ => ?_)
    | split
    | dsimp only

theorem State.cachesOut_keep {r s : State} (h : Keep r s) (lost : List Nat) : Keep r (State.cachesOut s lost) := by
  unfold State.cachesOut
  try dsimp only
  repeat' first
    | with_reducible assumption
    | with_reducible exact Keep.refl _
    | with_reducible refine Keep.ite (fun _ => ?_) (fun _ => ?_)
    | with_reducible apply State.memWrite_keep
    | simp only [keep_mk]
    | with_reducible refine Keep.foldl ?_ (fun _ _ _ => ?_)
    | with_reducible refine Keep.foldl_fst ?_ (fun _ _ _ => ?_)
    | split
    | dsimp only

theorem State.freeCells_keep {r s : State} (h : Keep r s) (cs : List Host.Cell) : Keep r (State.freeCells s cs).1 := by
  induction cs generalizing s with
  | nil => exact h
  | cons c cs ih => exact ih (State.fresh_keep h)

theorem State.freeCells_wf (s : State) (cs : List Host.Cell) : Memory.wf (State.freeCells s cs).2 = true := by
  induction cs generalizing s with
  | nil => rfl
  | cons c cs ih => exact mwf_mset (d := (0 : Byte)) _ _ (ih _)

theorem State.stayOffline_keep {r s : State} (h : Keep r s) (old : State) : Keep r (State.stayOffline s old) := by
  unfold State.stayOffline
  try dsimp only
  repeat' first
    | with_reducible assumption
    | with_reducible exact Keep.refl _
    | with_reducible refine Keep.ite (fun _ => ?_) (fun _ => ?_)
    | with_reducible apply State.setTst_keep
    | with_reducible apply State.wr_keep
    | with_reducible apply State.setCoreSt_keep
    | with_reducible refine Keep.foldl ?_ (fun _ _ _ => ?_)
    | with_reducible refine Keep.foldl_fst ?_ (fun _ _ _ => ?_)
    | split
    | dsimp only

/-- The registers that a warm reset keeps stay in canonical form. -/
theorem warmRegs_wf {rs : List (Nat × Word)} (h : regsWf rs = true) : regsWf (warmRegs rs) = true := by
  simp only [regsWf, Bool.and_eq_true, List.all_eq_true, bne_iff_ne] at h ⊢
  refine ⟨keysAbove_filterMap _ ?_ h.1, ?_⟩
  · intro p q hq
    split at hq
    · cases hq
    · cases hq; rfl
  · intro p hp
    obtain ⟨q, _, hq⟩ := List.mem_filterMap.mp hp
    split at hq
    · cases hq
    · next hn => cases hq; exact hn

theorem State.warmState_keep {r s : State} (h : Keep r s) : Keep r (State.warmState s) := by
  have h0 := State.freeCells_keep h s.scratch
  have hs := State.freeCells_wf s s.scratch
  unfold State.warmState
  dsimp only
  have h1 : ∀ (a b c d e f g i j : _), Keep r { State.reset with
      pending := (s.freeCells s.scratch).1.pending, regs := warmRegs (s.freeCells s.scratch).1.regs,
      mem := (s.freeCells s.scratch).1.mem, poison := (s.freeCells s.scratch).1.poison,
      hostMem := (s.freeCells s.scratch).1.hostMem, scratch := (s.freeCells s.scratch).2,
      gdirty := (s.freeCells s.scratch).1.gdirty, hbm := a, cores := b, facets := c, spw := d, fgn := e, pwr := f, mgt := g,
      yar := i, freeCtr := (s.freeCells s.scratch).1.freeCtr, answer := j } :=
    fun _ _ _ _ _ _ _ _ _ => Keep.wf h0 rfl rfl id id id (fun _ => hs) id warmRegs_wf
  refine Keep.ite (fun _ => State.setReg_keep ?_ _ _) (fun _ => State.wr_keep ?_ _ _ _)
  all_goals
    refine State.wr_keep (State.wr_keep ?_ _ _ _) _ _ _
    rw [keep_mk]
    refine Keep.foldl ?_ (fun _ _ ht => Keep.ite (fun _ => State.wr_keep (State.wr_keep ht _ _ _) _ _ _) (fun _ => ht))
    refine State.wr_keep (State.wr_keep ?_ _ _ _) _ _ _
    refine Keep.foldl ?_ (fun _ _ ht => State.setMeasure_keep ht _ _)
    refine Keep.foldl ?_ (fun _ _ ht => State.setPhys_keep ht _ _)
    exact State.stayOffline_keep (h1 _ _ _ _ _ _ _ _ _) _

theorem execWarmResetRelease_keep {r s : State} (h : Keep r s) (lost : List Word) : KeepN r (execWarmResetRelease lost s) := by
  unfold execWarmResetRelease
  try dsimp only
  repeat' first
    | with_reducible assumption
    | with_reducible exact Keep.refl _
    | with_reducible refine Keep.ite (fun _ => ?_) (fun _ => ?_)
    | with_reducible refine KeepN.next ?_
    | with_reducible refine KeepN.ite (fun _ => ?_) (fun _ => ?_)
    | with_reducible apply State.logRec_keep
    | with_reducible apply State.warmState_keep
    | with_reducible apply State.spwWarm_keep
    | with_reducible apply State.cachesOut_keep
    | split
    | dsimp only

theorem execSideReset_keep {r s : State} (h : Keep r s) (type : Byte) (straps : Straps) : KeepN r (execSideReset type straps s) := by
  unfold execSideReset
  try dsimp only
  repeat' first
    | with_reducible assumption
    | with_reducible exact Keep.refl _
    | with_reducible refine Keep.ite (fun _ => ?_) (fun _ => ?_)
    | with_reducible refine KeepN.next ?_
    | with_reducible refine KeepN.ite (fun _ => ?_) (fun _ => ?_)
    | with_reducible apply State.sideband_keep
    | with_reducible apply State.warmAssert_keep
    | with_reducible apply State.respond_keep
    | with_reducible apply State.coldReset_keep
    | split
    | dsimp only

theorem State.bootFail_keep {r s : State} (h : Keep r s) (err : Nat) : Keep r (State.bootFail s err) := by
  unfold State.bootFail
  try dsimp only
  repeat' first
    | with_reducible assumption
    | with_reducible exact Keep.refl _
    | with_reducible apply State.wr_keep
    | with_reducible apply State.logRec_keep
    | simp only [keep_mk]
    | split
    | dsimp only

theorem State.bootStep_keep {r s : State} (h : Keep r s) (k : Nat) : Keep r (State.bootStep s k) := by
  unfold State.bootStep
  try dsimp only
  repeat' first
    | with_reducible assumption
    | with_reducible exact Keep.refl _
    | with_reducible apply State.wr_keep
    | split
    | dsimp only

theorem State.bootImage_keep {r s : State} (h : Keep r s) (c : Nat) (done : State → List Byte → State)
    (hf : ∀ t i, Keep r t → Keep r (done t i)) : Keep r (State.bootImage s c done) := by
  unfold State.bootImage
  split
  · next e => exact State.bootFail_keep (Keep.fst_eq e (State.fwTake_keep h _)) _
  · next e => exact hf _ _ (State.extend_keep (Keep.fst_eq e (State.fwTake_keep h _)) _ _)

theorem State.burnFuses_keep {r s : State} (h : Keep r s) : Keep r (State.burnFuses s) := by
  unfold State.burnFuses
  try dsimp only
  repeat' first
    | with_reducible assumption
    | with_reducible exact Keep.refl _
    | with_reducible refine Keep.ite (fun _ => ?_) (fun _ => ?_)
    | with_reducible apply State.bumpBy_keep
    | with_reducible apply State.logRec_keep
    | with_reducible apply State.event_keep
    | with_reducible apply State.refreshFuses_keep
    | simp only [keep_mk]
    | with_reducible refine Keep.foldl ?_ (fun _ _ _ => ?_)
    | with_reducible refine Keep.foldl_fst ?_ (fun _ _ _ => ?_)
    | split
    | dsimp only

theorem State.copyErrors_keep {r s : State} (h : Keep r s) : Keep r (State.copyErrors s) := by
  unfold State.copyErrors
  try dsimp only
  repeat' first
    | with_reducible assumption
    | with_reducible exact Keep.refl _
    | with_reducible refine Keep.ite (fun _ => ?_) (fun _ => ?_)
    | with_reducible apply State.logRec_keep
    | with_reducible refine Keep.foldl ?_ (fun _ _ _ => ?_)
    | with_reducible refine Keep.foldl_fst ?_ (fun _ _ _ => ?_)
    | split
    | dsimp only

theorem State.bootRecord_keep {r s : State} (h : Keep r s) : Keep r (State.bootRecord s) := by
  unfold State.bootRecord
  try dsimp only
  repeat' first
    | with_reducible assumption
    | with_reducible exact Keep.refl _
    | with_reducible refine Keep.ite (fun _ => ?_) (fun _ => ?_)
    | with_reducible apply State.copyErrors_keep
    | with_reducible apply State.burnFuses_keep
    | with_reducible apply State.setReg_keep
    | with_reducible apply State.incUp_keep
    | with_reducible apply State.bandRefresh_keep
    | with_reducible apply State.bootStep_keep
    | with_reducible apply State.fwConfirm_keep
    | with_reducible apply State.logRec_keep
    | split
    | dsimp only

theorem State.bootHdie_keep {r s : State} (h : Keep r s) (inp : BootInput) : Keep r (State.bootHdie s inp) := by
  unfold State.bootHdie
  try dsimp only
  repeat' first
    | with_reducible assumption
    | with_reducible exact Keep.refl _
    | with_reducible refine Keep.ite (fun _ => ?_) (fun _ => ?_)
    | with_reducible apply State.wr_keep
    | with_reducible apply State.setCra_keep
    | with_reducible apply State.bootStep_keep
    | simp only [keep_mk]
    | with_reducible refine Keep.foldl ?_ (fun _ _ _ => ?_)
    | with_reducible refine Keep.foldl_fst ?_ (fun _ _ _ => ?_)
    | split
    | dsimp only

theorem State.buildMap_keep {r s : State} (h : Keep r s) : Keep r (State.buildMap s) := by
  unfold State.buildMap
  try dsimp only
  repeat' first
    | with_reducible assumption
    | with_reducible exact Keep.refl _
    | with_reducible apply State.setPhys_keep
    | with_reducible apply State.setTst_keep
    | simp only [keep_mk]
    | with_reducible refine Keep.foldl ?_ (fun _ _ _ => ?_)
    | with_reducible refine Keep.foldl_fst ?_ (fun _ _ _ => ?_)
    | split
    | dsimp only

theorem State.bootCdie_keep {r s : State} (h : Keep r s) (fails : Bool) : Keep r (State.bootCdie s fails) := by
  unfold State.bootCdie
  try dsimp only
  repeat' first
    | with_reducible assumption
    | with_reducible exact Keep.refl _
    | with_reducible refine Keep.ite (fun _ => ?_) (fun _ => ?_)
    | with_reducible apply State.bootFail_keep
    | with_reducible apply State.buildMap_keep
    | with_reducible apply State.fgnNode_keep
    | with_reducible apply State.refreshWays_keep
    | with_reducible apply State.refreshSpare_keep
    | with_reducible apply State.bootStep_keep
    | with_reducible apply State.wr_keep
    | split
    | dsimp only

theorem State.bootCore0_keep {r s : State} (h : Keep r s) : Keep r (State.bootCore0 s) := by
  unfold State.bootCore0
  try dsimp only
  repeat' first
    | with_reducible assumption
    | with_reducible exact Keep.refl _
    | with_reducible refine Keep.ite (fun _ => ?_) (fun _ => ?_)
    | with_reducible apply State.bootImage_keep
    | with_reducible apply State.measureKeys_keep
    | with_reducible apply State.extend_keep
    | with_reducible apply State.fresh_keep
    | with_reducible apply State.setReg_keep
    | with_reducible apply State.bootStep_keep
    | with_reducible apply State.coreStart_keep
    | with_reducible intro _ _ _
    | with_reducible intro _ _
    | with_reducible intro _
    | with_reducible refine Keep.foldl ?_ (fun _ _ _ => ?_)
    | with_reducible refine Keep.foldl_fst ?_ (fun _ _ _ => ?_)
    | with_reducible refine Keep.snd_eq (by assumption) ?_
    | split
    | dsimp only

theorem execBootStepComplete_keep {r s : State} (h : Keep r s) (inp : BootInput) : KeepN r (execBootStepComplete inp s) := by
  unfold execBootStepComplete
  try dsimp only
  repeat' first
    | with_reducible assumption
    | with_reducible exact Keep.refl _
    | with_reducible refine Keep.ite (fun _ => ?_) (fun _ => ?_)
    | with_reducible refine KeepN.next ?_
    | with_reducible refine KeepN.ite (fun _ => ?_) (fun _ => ?_)
    | with_reducible apply State.bootFail_keep
    | with_reducible apply State.bootImage_keep
    | with_reducible apply State.bootStep_keep
    | with_reducible apply State.wr_keep
    | with_reducible apply State.fwConfirm_keep
    | with_reducible apply State.bootRecord_keep
    | with_reducible apply State.bootHdie_keep
    | with_reducible apply State.bootCdie_keep
    | with_reducible apply State.bootCore0_keep
    | with_reducible intro _ _ _
    | with_reducible intro _ _
    | with_reducible intro _
    | simp only [keep_mk]
    | split
    | dsimp only

theorem execRstBootDone_keep {r s : State} (h : Keep r s) : KeepN r (execRstBootDone s) := by
  unfold execRstBootDone
  try dsimp only
  repeat' first
    | with_reducible assumption
    | with_reducible exact Keep.refl _
    | with_reducible refine Keep.ite (fun _ => ?_) (fun _ => ?_)
    | with_reducible refine KeepN.next ?_
    | with_reducible refine KeepN.ite (fun _ => ?_) (fun _ => ?_)
    | with_reducible apply State.wr_keep
    | with_reducible apply State.bootStep_keep
    | with_reducible apply State.fwConfirm_keep
    | with_reducible apply State.extend_keep
    | split
    | dsimp only

theorem execFirmwareTrialTimeout_keep {r s : State} (h : Keep r s) (comp : FwComp) : KeepN r (execFirmwareTrialTimeout comp s) := by
  unfold execFirmwareTrialTimeout
  try dsimp only
  repeat' first
    | with_reducible assumption
    | with_reducible exact Keep.refl _
    | with_reducible refine Keep.ite (fun _ => ?_) (fun _ => ?_)
    | with_reducible refine KeepN.next ?_
    | with_reducible refine KeepN.ite (fun _ => ?_) (fun _ => ?_)
    | with_reducible apply State.fwFail_keep
    | with_reducible apply State.warmAssert_keep
    | with_reducible apply State.setMeasure_keep
    | with_reducible apply State.setReg_keep
    | split
    | dsimp only

end Sys2Proof.Machine
end

