-- ==== Sys2Proof/Laws/KeepAccess.lean ====
section
/-!
SUPPORT. The operations of Machine/Access.lean keep the queue, the canonical forms and the freshness of free values.
-/

namespace Sys2Proof.Machine

open Sys2Proof

theorem State.inboundUr_keep {r s : State} (h : Keep r s) : Keep r (State.inboundUr s) := by
  unfold State.inboundUr
  try dsimp only
  repeat' first
    | with_reducible assumption
    | with_reducible exact Keep.refl _
    | with_reducible apply State.bump_keep
    | simp only [keep_mk]
    | split
    | dsimp only

theorem State.peerUr_keep {r s : State} (h : Keep r s) : Keep r (State.peerUr s) := by
  unfold State.peerUr
  try dsimp only
  repeat' first
    | with_reducible assumption
    | with_reducible exact Keep.refl _
    | with_reducible apply State.bump_keep
    | simp only [keep_mk]
    | split
    | dsimp only

theorem execPcieInboundWrite_keep {r s : State} (h : Keep r s) (port : PciePort) (addr : Word) (data : List Byte) (ep : Bool) (a4 : Bool) : KeepN r (execPcieInboundWrite port addr data ep a4 s) := by
  unfold execPcieInboundWrite
  try dsimp only
  repeat' first
    | with_reducible assumption
    | with_reducible exact Keep.refl _
    | with_reducible refine KeepN.next ?_
    | with_reducible apply State.peerUr_keep
    | with_reducible apply State.inboundUr_keep
    | with_reducible apply State.busWrite_keep
    | simp only [keep_mk]
    | with_reducible refine Keep.fst_eq (by assumption) ?_
    | split
    | dsimp only

theorem execPcieInboundRead_keep {r s : State} (h : Keep r s) (port : PciePort) (addr : Word) (len : BitVec 13) (page : PageAttr) : KeepN r (execPcieInboundRead port addr len page s) := by
  unfold execPcieInboundRead
  try dsimp only
  repeat' first
    | with_reducible assumption
    | with_reducible exact Keep.refl _
    | with_reducible refine Keep.ite (fun _ => ?_) (fun _ => ?_)
    | with_reducible refine KeepN.next ?_
    | with_reducible refine KeepN.ite (fun _ => ?_) (fun _ => ?_)
    | with_reducible apply State.peerUr_keep
    | with_reducible apply State.inboundUr_keep
    | with_reducible apply State.bufRead_keep
    | with_reducible apply State.busRead_keep
    | simp only [keep_mk]
    | with_reducible refine Keep.fst_eq (by assumption) ?_
    | split
    | dsimp only

theorem execSqRead_keep {r s : State} (h : Keep r s) (rx : RingId) (ans : Answer) (data : Line) : KeepN r (execSqRead rx ans data s) := by
  unfold execSqRead
  try dsimp only
  repeat' first
    | with_reducible assumption
    | with_reducible exact Keep.refl _
    | with_reducible refine Keep.ite (fun _ => ?_) (fun _ => ?_)
    | with_reducible refine KeepN.next ?_
    | with_reducible refine KeepN.ite (fun _ => ?_) (fun _ => ?_)
    | with_reducible apply State.localRead_keep
    | with_reducible apply State.setRing_keep
    | with_reducible apply State.stopRing_keep
    | simp only [keep_mk]
    | with_reducible refine Keep.fst_eq (by assumption) ?_
    | split
    | dsimp only

theorem State.ringBase_keep {r s : State} (h : Keep r s) (n : Nat) (a : Nat) (v : Word) : Keep r (State.ringBase s n a v) := by
  unfold State.ringBase
  try dsimp only
  repeat' first
    | with_reducible assumption
    | with_reducible exact Keep.refl _
    | with_reducible refine Keep.ite (fun _ => ?_) (fun _ => ?_)
    | with_reducible apply State.regWrite_keep
    | with_reducible apply State.wr_keep
    | split
    | dsimp only

theorem State.timers_keep {r s : State} (h : Keep r s) : Keep r (State.timers s) := by
  unfold State.timers
  try dsimp only
  repeat' first
    | with_reducible assumption
    | with_reducible exact Keep.refl _
    | with_reducible apply State.setCore_keep
    | simp only [keep_mk]
    | with_reducible refine Keep.foldl ?_ (fun _ _ _ => ?_)
    | with_reducible refine Keep.foldl_fst ?_ (fun _ _ _ => ?_)
    | split
    | dsimp only

theorem State.msixWrite_keep {r s : State} (h : Keep r s) (v : Nat) (w : Word) : Keep r (State.msixWrite s v w) := by
  unfold State.msixWrite
  try dsimp only
  repeat' first
    | with_reducible assumption
    | with_reducible exact Keep.refl _
    | with_reducible refine Keep.ite (fun _ => ?_) (fun _ => ?_)
    | with_reducible apply State.regWrite_keep
    | with_reducible apply State.message_keep
    | with_reducible apply State.wr_keep
    | split
    | dsimp only

theorem State.afterWrite_keep {r s : State} (h : Keep r s) (a : Nat) (v : Word) : Keep r (State.afterWrite s a v) := by
  unfold State.afterWrite
  try dsimp only
  repeat' first
    | with_reducible assumption
    | with_reducible exact Keep.refl _
    | with_reducible refine Keep.ite (fun _ => ?_) (fun _ => ?_)
    | with_reducible apply State.timers_keep
    | with_reducible apply State.setCore_keep
    | with_reducible apply State.mrgShow_keep
    | simp only [keep_mk]
    | split
    | dsimp only

theorem State.plainWrite_keep {r s : State} (h : Keep r s) (a : Nat) (v : Word) : Keep r (State.plainWrite s a v) := by
  unfold State.plainWrite
  try dsimp only
  repeat' first
    | with_reducible assumption
    | with_reducible exact Keep.refl _
    | with_reducible refine Keep.ite (fun _ => ?_) (fun _ => ?_)
    | with_reducible apply State.afterWrite_keep
    | with_reducible apply State.regWrite_keep
    | with_reducible refine Keep.foldl ?_ (fun _ _ _ => ?_)
    | with_reducible refine Keep.foldl_fst ?_ (fun _ _ _ => ?_)
    | split
    | dsimp only

theorem thenRun_keep {r : State} {o : Host.Outcome State Fault Refusal} {b : Bool} {f : State → Host.Outcome State Fault Refusal}
    (ho : KeepN r o) (hf : ∀ s, Keep r s → KeepN r (f s)) : KeepN r (thenRun o b f) := by
  unfold thenRun
  cases o with
  | next s =>
    dsimp only
    exact KeepN.ite (fun _ => hf s (ho s rfl)) (fun _ => ho)
  | fault x => exact ho
  | refused x => exact ho

theorem State.startUnits_keep {r s : State} (h : Keep r s) (a : Nat) (v : Word) : KeepN r (State.startUnits s a v) := by
  unfold State.startUnits
  try dsimp only
  repeat' first
    | with_reducible assumption
    | with_reducible exact Keep.refl _
    | with_reducible refine Keep.ite (fun _ => ?_) (fun _ => ?_)
    | with_reducible refine KeepN.next ?_
    | with_reducible refine KeepN.ite (fun _ => ?_) (fun _ => ?_)
    | with_reducible apply thenRun_keep
    | with_reducible apply execSpwClearFailed_keep
    | with_reducible apply execSpwAbort_keep
    | with_reducible apply execCchMntGo_keep
    | with_reducible apply execCchRrbInvGo_keep
    | with_reducible apply execLouResume_keep
    | with_reducible apply execLouClear_keep
    | with_reducible apply execLouPop_keep
    | with_reducible apply execLedgerClearGo_keep
    | with_reducible apply execPrsAbort_keep
    | with_reducible apply execEpoCtlRelease_keep
    | with_reducible apply execEpoCtlFlush_keep
    | with_reducible apply execTilDmaResume_keep
    | with_reducible apply execTilDmaFlush_keep
    | with_reducible intro _ _ _
    | with_reducible intro _ _
    | with_reducible intro _
    | simp only [keep_mk]
    | split
    | dsimp only

theorem State.startHbm_keep {r s : State} (h : Keep r s) (a : Nat) (v : Word) : KeepN r (State.startHbm s a v) := by
  unfold State.startHbm
  try dsimp only
  repeat' first
    | with_reducible assumption
    | with_reducible exact Keep.refl _
    | with_reducible refine Keep.ite (fun _ => ?_) (fun _ => ?_)
    | with_reducible refine KeepN.next ?_
    | with_reducible refine KeepN.ite (fun _ => ?_) (fun _ => ?_)
    | with_reducible apply execHbmRepairQuery_keep
    | with_reducible apply execSoftRowRepair_keep
    | with_reducible apply execHardRowRepair_keep
    | with_reducible apply execDqRemap_keep
    | with_reducible apply execClearRemap_keep
    | with_reducible apply State.wr_keep
    | with_reducible apply thenRun_keep
    | with_reducible apply execHbmMrgGo_keep
    | with_reducible apply execHbmRebuildGo_keep
    | with_reducible intro _ _ _
    | with_reducible intro _ _
    | with_reducible intro _
    | simp only [keep_mk]
    | split
    | dsimp only

theorem State.startEb_keep {r s : State} (h : Keep r s) (e : EbEngine) (v : Word) : KeepN r (State.startEb s e v) := by
  unfold State.startEb
  try dsimp only
  repeat' first
    | with_reducible assumption
    | with_reducible exact Keep.refl _
    | with_reducible refine KeepN.next ?_
    | with_reducible apply State.fresh_keep
    | with_reducible apply thenRun_keep
    | with_reducible apply execEbGo_keep
    | with_reducible apply execEbAbort_keep
    | with_reducible intro _ _ _
    | with_reducible intro _ _
    | with_reducible intro _
    | with_reducible refine Keep.snd_eq (by assumption) ?_
    | split
    | dsimp only

theorem State.startTest_keep {r s : State} (h : Keep r s) (a : Nat) (v : Word) : KeepN r (State.startTest s a v) := by
  unfold State.startTest
  try dsimp only
  repeat' first
    | with_reducible assumption
    | with_reducible exact Keep.refl _
    | with_reducible refine Keep.ite (fun _ => ?_) (fun _ => ?_)
    | with_reducible refine KeepN.next ?_
    | with_reducible refine KeepN.ite (fun _ => ?_) (fun _ => ?_)
    | with_reducible apply execInjTileFault_keep
    | with_reducible apply execInjHeartbeatStop_keep
    | with_reducible apply execInjHbmCorrupt_keep
    | with_reducible apply execInjLinkDrop_keep
    | with_reducible apply thenRun_keep
    | with_reducible apply execWayDis_keep
    | with_reducible apply execWayEn_keep
    | with_reducible apply execQueueTile_keep
    | with_reducible apply State.startEb_keep
    | with_reducible intro _ _ _
    | with_reducible intro _ _
    | with_reducible intro _
    | simp only [keep_mk]
    | split
    | dsimp only

theorem State.startMgmt_keep {r s : State} (h : Keep r s) (a : Nat) (v : Word) : KeepN r (State.startMgmt s a v) := by
  unfold State.startMgmt
  try dsimp only
  repeat' first
    | with_reducible assumption
    | with_reducible exact Keep.refl _
    | with_reducible refine Keep.ite (fun _ => ?_) (fun _ => ?_)
    | with_reducible refine KeepN.next ?_
    | with_reducible refine KeepN.ite (fun _ => ?_) (fun _ => ?_)
    | with_reducible apply execColdReset_keep
    | with_reducible apply thenRun_keep
    | with_reducible apply execWarmReset_keep
    | with_reducible apply execRstBootDone_keep
    | with_reducible apply execClkMeasGo_keep
    | with_reducible apply execKeylock_keep
    | with_reducible apply execSvnCommit_keep
    | with_reducible apply execSecAttGo_keep
    | with_reducible apply execKeyEmpty_keep
    | with_reducible apply execKeyEnrol_keep
    | with_reducible apply execSecExtGo_keep
    | with_reducible apply execPwrIdleWake_keep
    | with_reducible apply execCoreStart_keep
    | with_reducible apply execCorePark_keep
    | with_reducible apply execCoreOffline_keep
    | with_reducible intro _ _ _
    | with_reducible intro _ _
    | with_reducible intro _
    | simp only [keep_mk]
    | split
    | dsimp only

theorem State.startHif_keep {r s : State} (h : Keep r s) (a : Nat) (v : Word) : KeepN r (State.startHif s a v) := by
  unfold State.startHif
  try dsimp only
  repeat' first
    | with_reducible assumption
    | with_reducible exact Keep.refl _
    | with_reducible refine Keep.ite (fun _ => ?_) (fun _ => ?_)
    | with_reducible refine KeepN.next ?_
    | with_reducible refine KeepN.ite (fun _ => ?_) (fun _ => ?_)
    | with_reducible apply thenRun_keep
    | with_reducible apply execHifAttachGo_keep
    | with_reducible apply execHifRingStop_keep
    | with_reducible apply execHifRingResume_keep
    | with_reducible apply execHifRingAbandon_keep
    | with_reducible intro _ _ _
    | with_reducible intro _ _
    | with_reducible intro _
    | simp only [keep_mk]
    | split
    | dsimp only

theorem State.startCmds_keep {r s : State} (h : Keep r s) (a : Nat) (v : Word) : KeepN r (State.startCmds s a v) := by
  unfold State.startCmds
  try dsimp only
  repeat' first
    | with_reducible assumption
    | with_reducible exact Keep.refl _
    | with_reducible refine Keep.ite (fun _ => ?_) (fun _ => ?_)
    | with_reducible refine KeepN.next ?_
    | with_reducible refine KeepN.ite (fun _ => ?_) (fun _ => ?_)
    | with_reducible apply State.startMgmt_keep
    | with_reducible apply State.startHif_keep
    | with_reducible apply State.startUnits_keep
    | with_reducible apply State.startHbm_keep
    | with_reducible apply State.startTest_keep
    | split
    | dsimp only

theorem State.registerWrite_keep {r s : State} (h : Keep r s) (a : Nat) (v : Word) : KeepN r (State.registerWrite s a v) := by
  unfold State.registerWrite
  try dsimp only
  repeat' first
    | with_reducible assumption
    | with_reducible exact Keep.refl _
    | with_reducible refine Keep.ite (fun _ => ?_) (fun _ => ?_)
    | with_reducible refine KeepN.next ?_
    | with_reducible refine KeepN.ite (fun _ => ?_) (fun _ => ?_)
    | with_reducible apply execMgtWallWrite_keep
    | with_reducible apply execMgtPscMark_keep
    | with_reducible apply State.pcieCfgWrite_keep
    | with_reducible apply execFgnCfgEn_keep
    | with_reducible apply execEpoModeWrite_keep
    | with_reducible apply execSpwTierLock_keep
    | with_reducible apply State.tierCfgWrite_keep
    | with_reducible apply execCchLeaseCfgWrite_keep
    | with_reducible apply execCchReplLock_keep
    | with_reducible apply execCchScCarveLock_keep
    | with_reducible apply execLedgerLock_keep
    | with_reducible apply execFgnPortCfgWrite_keep
    | with_reducible apply execMgtCxlwinEn_keep
    | with_reducible apply execHbmThrCfgWrite_keep
    | with_reducible apply execHbmFailPcWrite_keep
    | with_reducible apply execHbmQuiesceWrite_keep
    | with_reducible apply execHbmShdEn_keep
    | with_reducible apply execHifRingEnSet_keep
    | with_reducible apply execHifRingEnClear_keep
    | with_reducible apply State.ringBase_keep
    | with_reducible apply State.msixWrite_keep
    | with_reducible apply execHbmMarkWrite_keep
    | with_reducible apply State.plainWrite_keep
    | with_reducible apply State.startCmds_keep
    | simp only [keep_mk]
    | split
    | dsimp only

theorem execRegisterWrite_keep {r s : State} (h : Keep r s) (addr : Word) (value : Word) : KeepN r (execRegisterWrite addr value s) := by
  unfold execRegisterWrite
  try dsimp only
  repeat' first
    | with_reducible assumption
    | with_reducible exact Keep.refl _
    | with_reducible refine Keep.ite (fun _ => ?_) (fun _ => ?_)
    | with_reducible refine KeepN.next ?_
    | with_reducible refine KeepN.ite (fun _ => ?_) (fun _ => ?_)
    | with_reducible apply State.bump_keep
    | with_reducible apply State.apertureRefuse_keep
    | with_reducible apply State.registerWrite_keep
    | simp only [keep_mk]
    | split
    | dsimp only

end Sys2Proof.Machine
end

