-- ==== Sys2Proof/Laws/KeepSeq.lean ====
section
/-!
SUPPORT. The operations of Machine/Seq.lean keep the queue, the canonical forms and the freshness of free values.
-/

namespace Sys2Proof.Machine

open Sys2Proof

theorem State.release_keep {r s : State} (h : Keep r s) (n : Nat) : Keep r (State.release s n) := by
  unfold State.release
  try dsimp only
  repeat' first
    | with_reducible assumption
    | with_reducible exact Keep.refl _
    | with_reducible refine Keep.ite (fun _ => ?_) (fun _ => ?_)
    | with_reducible apply State.wr_keep
    | with_reducible apply State.setTile_keep
    | simp only [keep_mk]
    | split
    | dsimp only

theorem State.seqFaultEnd_keep {r s : State} (h : Keep r s) (n : Nat) : Keep r (State.seqFaultEnd s n) := by
  unfold State.seqFaultEnd
  try dsimp only
  repeat' first
    | with_reducible assumption
    | with_reducible exact Keep.refl _
    | with_reducible refine Keep.ite (fun _ => ?_) (fun _ => ?_)
    | with_reducible apply State.dmaFlush_keep
    | with_reducible apply State.release_keep
    | with_reducible apply State.tileDone_keep
    | with_reducible apply State.setTile_keep
    | with_reducible apply State.epoSeal_keep
    | with_reducible apply State.bump_keep
    | with_reducible apply State.setEpo_keep
    | with_reducible apply State.commitPoint_keep
    | with_reducible apply State.seqRestart_keep
    | simp only [keep_mk]
    | with_reducible refine Keep.foldl ?_ (fun _ _ _ => ?_)
    | with_reducible refine Keep.foldl_fst ?_ (fun _ _ _ => ?_)
    | split
    | dsimp only

theorem State.seqFault_keep {r s : State} (h : Keep r s) (n : Nat) (code : Nat) : Keep r (State.seqFault s n code) := by
  unfold State.seqFault
  try dsimp only
  repeat' first
    | with_reducible assumption
    | with_reducible exact Keep.refl _
    | with_reducible apply State.bump_keep
    | with_reducible apply State.wr_keep
    | with_reducible apply State.seqFaultEnd_keep
    | with_reducible apply State.setTile_keep
    | simp only [keep_mk]
    | split
    | dsimp only

theorem State.seqExec_keep {r s : State} (h : Keep r s) (n op : Nat) (f : W32 → State)
    (hf : ∀ w, Keep r (f w)) : Keep r (State.seqExec s n op f) := by
  unfold State.seqExec
  refine Keep.ite (fun _ => h) (fun _ => ?_)
  split
  · exact h
  · exact Keep.ite (fun _ => h) (fun _ => Keep.ite (fun _ => hf _) (fun _ => State.seqFault_keep h _ _))

theorem State.setG_keep {r s : State} (h : Keep r s) (n : Nat) (rx : Nat) (v : Word) : Keep r (State.setG s n rx v) := by
  unfold State.setG
  try dsimp only
  repeat' first
    | with_reducible assumption
    | with_reducible exact Keep.refl _
    | with_reducible refine Keep.ite (fun _ => ?_) (fun _ => ?_)
    | with_reducible apply State.setTile_keep
    | simp only [keep_mk]
    | split
    | dsimp only

theorem State.seqCount_keep {r s : State} (h : Keep r s) (n : Nat) : Keep r (State.seqCount s n) := by
  unfold State.seqCount
  try dsimp only
  repeat' first
    | with_reducible assumption
    | with_reducible exact Keep.refl _
    | with_reducible apply State.wrap_keep
    | split
    | dsimp only

theorem State.seqNext_keep {r s : State} (h : Keep r s) (n : Nat) : Keep r (State.seqNext s n) := by
  unfold State.seqNext
  try dsimp only
  repeat' first
    | with_reducible assumption
    | with_reducible exact Keep.refl _
    | with_reducible apply State.seqPc_keep
    | with_reducible apply State.seqCount_keep
    | split
    | dsimp only

theorem State.seqJump_keep {r s : State} (h : Keep r s) (n : Nat) (w : W32) : Keep r (State.seqJump s n w) := by
  unfold State.seqJump
  try dsimp only
  repeat' first
    | with_reducible assumption
    | with_reducible exact Keep.refl _
    | with_reducible apply State.seqPc_keep
    | with_reducible apply State.seqCount_keep
    | split
    | dsimp only

theorem State.seqWait_keep {r s : State} (h : Keep r s) (n : Nat) (kind : Nat) : Keep r (State.seqWait s n kind) := by
  unfold State.seqWait
  try dsimp only
  repeat' first
    | with_reducible assumption
    | with_reducible exact Keep.refl _
    | with_reducible apply State.wr_keep
    | split
    | dsimp only

theorem State.seqRR_keep {r s : State} (h : Keep r s) (n : Nat) (op : Nat) (f : Nat → Nat → Nat) : Keep r (State.seqRR s n op f) := by
  unfold State.seqRR
  try dsimp only
  repeat' first
    | with_reducible assumption
    | with_reducible exact Keep.refl _
    | with_reducible apply State.seqExec_keep
    | with_reducible apply State.seqNext_keep
    | with_reducible apply State.setG_keep
    | with_reducible intro _ _ _
    | with_reducible intro _ _
    | with_reducible intro _
    | split
    | dsimp only

theorem State.seqRI_keep {r s : State} (h : Keep r s) (n : Nat) (op : Nat) (f : Nat → W32 → Nat) : Keep r (State.seqRI s n op f) := by
  unfold State.seqRI
  try dsimp only
  repeat' first
    | with_reducible assumption
    | with_reducible exact Keep.refl _
    | with_reducible apply State.seqExec_keep
    | with_reducible apply State.seqNext_keep
    | with_reducible apply State.setG_keep
    | with_reducible intro _ _ _
    | with_reducible intro _ _
    | with_reducible intro _
    | split
    | dsimp only

theorem State.seqBr_keep {r s : State} (h : Keep r s) (n : Nat) (op : Nat) (p : Nat → Nat → Bool) : Keep r (State.seqBr s n op p) := by
  unfold State.seqBr
  try dsimp only
  repeat' first
    | with_reducible assumption
    | with_reducible exact Keep.refl _
    | with_reducible refine Keep.ite (fun _ => ?_) (fun _ => ?_)
    | with_reducible apply State.seqExec_keep
    | with_reducible apply State.seqJump_keep
    | with_reducible apply State.seqNext_keep
    | with_reducible intro _ _ _
    | with_reducible intro _ _
    | with_reducible intro _
    | split
    | dsimp only

theorem execSeqNop_keep {r s : State} (h : Keep r s) (n : TileId) : KeepN r (execSeqNop n s) := by
  unfold execSeqNop
  try dsimp only
  repeat' first
    | with_reducible assumption
    | with_reducible exact Keep.refl _
    | with_reducible refine Keep.ite (fun _ => ?_) (fun _ => ?_)
    | with_reducible refine KeepN.next ?_
    | with_reducible refine KeepN.ite (fun _ => ?_) (fun _ => ?_)
    | with_reducible apply State.seqFault_keep
    | with_reducible apply State.seqNext_keep
    | simp only [keep_mk]
    | split
    | dsimp only

theorem execSeqAdd_keep {r s : State} (h : Keep r s) (n : TileId) : KeepN r (execSeqAdd n s) := by
  unfold execSeqAdd
  try dsimp only
  repeat' first
    | with_reducible assumption
    | with_reducible exact Keep.refl _
    | with_reducible refine KeepN.next ?_
    | with_reducible apply State.seqRR_keep
    | split
    | dsimp only

theorem execSeqSub_keep {r s : State} (h : Keep r s) (n : TileId) : KeepN r (execSeqSub n s) := by
  unfold execSeqSub
  try dsimp only
  repeat' first
    | with_reducible assumption
    | with_reducible exact Keep.refl _
    | with_reducible refine KeepN.next ?_
    | with_reducible apply State.seqRR_keep
    | split
    | dsimp only

theorem execSeqAnd_keep {r s : State} (h : Keep r s) (n : TileId) : KeepN r (execSeqAnd n s) := by
  unfold execSeqAnd
  try dsimp only
  repeat' first
    | with_reducible assumption
    | with_reducible exact Keep.refl _
    | with_reducible refine KeepN.next ?_
    | with_reducible apply State.seqRR_keep
    | split
    | dsimp only

theorem execSeqOr_keep {r s : State} (h : Keep r s) (n : TileId) : KeepN r (execSeqOr n s) := by
  unfold execSeqOr
  try dsimp only
  repeat' first
    | with_reducible assumption
    | with_reducible exact Keep.refl _
    | with_reducible refine KeepN.next ?_
    | with_reducible apply State.seqRR_keep
    | split
    | dsimp only

theorem execSeqXor_keep {r s : State} (h : Keep r s) (n : TileId) : KeepN r (execSeqXor n s) := by
  unfold execSeqXor
  try dsimp only
  repeat' first
    | with_reducible assumption
    | with_reducible exact Keep.refl _
    | with_reducible refine KeepN.next ?_
    | with_reducible apply State.seqRR_keep
    | split
    | dsimp only

theorem execSeqSll_keep {r s : State} (h : Keep r s) (n : TileId) : KeepN r (execSeqSll n s) := by
  unfold execSeqSll
  try dsimp only
  repeat' first
    | with_reducible assumption
    | with_reducible exact Keep.refl _
    | with_reducible refine KeepN.next ?_
    | with_reducible apply State.seqRR_keep
    | split
    | dsimp only

theorem execSeqSrl_keep {r s : State} (h : Keep r s) (n : TileId) : KeepN r (execSeqSrl n s) := by
  unfold execSeqSrl
  try dsimp only
  repeat' first
    | with_reducible assumption
    | with_reducible exact Keep.refl _
    | with_reducible refine KeepN.next ?_
    | with_reducible apply State.seqRR_keep
    | split
    | dsimp only

theorem execSeqSra_keep {r s : State} (h : Keep r s) (n : TileId) : KeepN r (execSeqSra n s) := by
  unfold execSeqSra
  try dsimp only
  repeat' first
    | with_reducible assumption
    | with_reducible exact Keep.refl _
    | with_reducible refine KeepN.next ?_
    | with_reducible apply State.seqRR_keep
    | split
    | dsimp only

theorem execSeqMul_keep {r s : State} (h : Keep r s) (n : TileId) : KeepN r (execSeqMul n s) := by
  unfold execSeqMul
  try dsimp only
  repeat' first
    | with_reducible assumption
    | with_reducible exact Keep.refl _
    | with_reducible refine KeepN.next ?_
    | with_reducible apply State.seqRR_keep
    | split
    | dsimp only

theorem execSeqMinu_keep {r s : State} (h : Keep r s) (n : TileId) : KeepN r (execSeqMinu n s) := by
  unfold execSeqMinu
  try dsimp only
  repeat' first
    | with_reducible assumption
    | with_reducible exact Keep.refl _
    | with_reducible refine KeepN.next ?_
    | with_reducible apply State.seqRR_keep
    | split
    | dsimp only

theorem execSeqMaxu_keep {r s : State} (h : Keep r s) (n : TileId) : KeepN r (execSeqMaxu n s) := by
  unfold execSeqMaxu
  try dsimp only
  repeat' first
    | with_reducible assumption
    | with_reducible exact Keep.refl _
    | with_reducible refine KeepN.next ?_
    | with_reducible apply State.seqRR_keep
    | split
    | dsimp only

theorem execSeqSltu_keep {r s : State} (h : Keep r s) (n : TileId) : KeepN r (execSeqSltu n s) := by
  unfold execSeqSltu
  try dsimp only
  repeat' first
    | with_reducible assumption
    | with_reducible exact Keep.refl _
    | with_reducible refine KeepN.next ?_
    | with_reducible apply State.seqRR_keep
    | split
    | dsimp only

theorem execSeqAddi_keep {r s : State} (h : Keep r s) (n : TileId) : KeepN r (execSeqAddi n s) := by
  unfold execSeqAddi
  try dsimp only
  repeat' first
    | with_reducible assumption
    | with_reducible exact Keep.refl _
    | with_reducible refine KeepN.next ?_
    | with_reducible apply State.seqRI_keep
    | split
    | dsimp only

theorem execSeqAndi_keep {r s : State} (h : Keep r s) (n : TileId) : KeepN r (execSeqAndi n s) := by
  unfold execSeqAndi
  try dsimp only
  repeat' first
    | with_reducible assumption
    | with_reducible exact Keep.refl _
    | with_reducible refine KeepN.next ?_
    | with_reducible apply State.seqRI_keep
    | split
    | dsimp only

theorem execSeqOri_keep {r s : State} (h : Keep r s) (n : TileId) : KeepN r (execSeqOri n s) := by
  unfold execSeqOri
  try dsimp only
  repeat' first
    | with_reducible assumption
    | with_reducible exact Keep.refl _
    | with_reducible refine KeepN.next ?_
    | with_reducible apply State.seqRI_keep
    | split
    | dsimp only

theorem execSeqSlli_keep {r s : State} (h : Keep r s) (n : TileId) : KeepN r (execSeqSlli n s) := by
  unfold execSeqSlli
  try dsimp only
  repeat' first
    | with_reducible assumption
    | with_reducible exact Keep.refl _
    | with_reducible refine KeepN.next ?_
    | with_reducible apply State.seqRI_keep
    | split
    | dsimp only

theorem execSeqSrli_keep {r s : State} (h : Keep r s) (n : TileId) : KeepN r (execSeqSrli n s) := by
  unfold execSeqSrli
  try dsimp only
  repeat' first
    | with_reducible assumption
    | with_reducible exact Keep.refl _
    | with_reducible refine KeepN.next ?_
    | with_reducible apply State.seqRI_keep
    | split
    | dsimp only

theorem execSeqLsh_keep {r s : State} (h : Keep r s) (n : TileId) : KeepN r (execSeqLsh n s) := by
  unfold execSeqLsh
  try dsimp only
  repeat' first
    | with_reducible assumption
    | with_reducible exact Keep.refl _
    | with_reducible refine KeepN.next ?_
    | with_reducible apply State.seqExec_keep
    | with_reducible apply State.seqNext_keep
    | with_reducible apply State.setG_keep
    | with_reducible intro _ _ _
    | with_reducible intro _ _
    | with_reducible intro _
    | split
    | dsimp only

theorem execSeqBeq_keep {r s : State} (h : Keep r s) (n : TileId) : KeepN r (execSeqBeq n s) := by
  unfold execSeqBeq
  try dsimp only
  repeat' first
    | with_reducible assumption
    | with_reducible exact Keep.refl _
    | with_reducible refine KeepN.next ?_
    | with_reducible apply State.seqBr_keep
    | split
    | dsimp only

theorem execSeqBne_keep {r s : State} (h : Keep r s) (n : TileId) : KeepN r (execSeqBne n s) := by
  unfold execSeqBne
  try dsimp only
  repeat' first
    | with_reducible assumption
    | with_reducible exact Keep.refl _
    | with_reducible refine KeepN.next ?_
    | with_reducible apply State.seqBr_keep
    | split
    | dsimp only

theorem execSeqBltu_keep {r s : State} (h : Keep r s) (n : TileId) : KeepN r (execSeqBltu n s) := by
  unfold execSeqBltu
  try dsimp only
  repeat' first
    | with_reducible assumption
    | with_reducible exact Keep.refl _
    | with_reducible refine KeepN.next ?_
    | with_reducible apply State.seqBr_keep
    | split
    | dsimp only

theorem execSeqBgeu_keep {r s : State} (h : Keep r s) (n : TileId) : KeepN r (execSeqBgeu n s) := by
  unfold execSeqBgeu
  try dsimp only
  repeat' first
    | with_reducible assumption
    | with_reducible exact Keep.refl _
    | with_reducible refine KeepN.next ?_
    | with_reducible apply State.seqBr_keep
    | split
    | dsimp only

theorem execSeqJmp_keep {r s : State} (h : Keep r s) (n : TileId) : KeepN r (execSeqJmp n s) := by
  unfold execSeqJmp
  try dsimp only
  repeat' first
    | with_reducible assumption
    | with_reducible exact Keep.refl _
    | with_reducible refine KeepN.next ?_
    | with_reducible apply State.seqExec_keep
    | with_reducible apply State.seqJump_keep
    | with_reducible intro _ _ _
    | with_reducible intro _ _
    | with_reducible intro _
    | split
    | dsimp only

theorem execSeqCall_keep {r s : State} (h : Keep r s) (n : TileId) : KeepN r (execSeqCall n s) := by
  unfold execSeqCall
  try dsimp only
  repeat' first
    | with_reducible assumption
    | with_reducible exact Keep.refl _
    | with_reducible refine Keep.ite (fun _ => ?_) (fun _ => ?_)
    | with_reducible refine KeepN.next ?_
    | with_reducible refine KeepN.ite (fun _ => ?_) (fun _ => ?_)
    | with_reducible apply State.seqExec_keep
    | with_reducible apply State.seqFault_keep
    | with_reducible apply State.seqJump_keep
    | with_reducible apply State.setTile_keep
    | with_reducible intro _ _ _
    | with_reducible intro _ _
    | with_reducible intro _
    | simp only [keep_mk]
    | split
    | dsimp only

theorem execSeqRet_keep {r s : State} (h : Keep r s) (n : TileId) : KeepN r (execSeqRet n s) := by
  unfold execSeqRet
  try dsimp only
  repeat' first
    | with_reducible assumption
    | with_reducible exact Keep.refl _
    | with_reducible refine KeepN.next ?_
    | with_reducible apply State.seqExec_keep
    | with_reducible apply State.seqFault_keep
    | with_reducible apply State.seqPc_keep
    | with_reducible apply State.seqCount_keep
    | with_reducible apply State.setTile_keep
    | with_reducible intro _ _ _
    | with_reducible intro _ _
    | with_reducible intro _
    | simp only [keep_mk]
    | split
    | dsimp only

theorem execSeqLdt_keep {r s : State} (h : Keep r s) (n : TileId) : KeepN r (execSeqLdt n s) := by
  unfold execSeqLdt
  try dsimp only
  repeat' first
    | with_reducible assumption
    | with_reducible exact Keep.refl _
    | with_reducible refine Keep.ite (fun _ => ?_) (fun _ => ?_)
    | with_reducible refine KeepN.next ?_
    | with_reducible refine KeepN.ite (fun _ => ?_) (fun _ => ?_)
    | with_reducible apply State.seqExec_keep
    | with_reducible apply State.seqNext_keep
    | with_reducible apply State.setG_keep
    | with_reducible apply State.seqFault_keep
    | with_reducible intro _ _ _
    | with_reducible intro _ _
    | with_reducible intro _
    | split
    | dsimp only

theorem execSeqStt_keep {r s : State} (h : Keep r s) (n : TileId) : KeepN r (execSeqStt n s) := by
  unfold execSeqStt
  try dsimp only
  repeat' first
    | with_reducible assumption
    | with_reducible exact Keep.refl _
    | with_reducible refine Keep.ite (fun _ => ?_) (fun _ => ?_)
    | with_reducible refine KeepN.next ?_
    | with_reducible refine KeepN.ite (fun _ => ?_) (fun _ => ?_)
    | with_reducible apply State.seqExec_keep
    | with_reducible apply State.seqNext_keep
    | with_reducible apply State.tsWrite_keep
    | with_reducible apply State.seqFault_keep
    | with_reducible intro _ _ _
    | with_reducible intro _ _
    | with_reducible intro _
    | split
    | dsimp only

theorem execSeqPrm_keep {r s : State} (h : Keep r s) (n : TileId) : KeepN r (execSeqPrm n s) := by
  unfold execSeqPrm
  try dsimp only
  repeat' first
    | with_reducible assumption
    | with_reducible exact Keep.refl _
    | with_reducible refine KeepN.next ?_
    | with_reducible apply State.seqExec_keep
    | with_reducible apply State.seqNext_keep
    | with_reducible apply State.setG_keep
    | with_reducible intro _ _ _
    | with_reducible intro _ _
    | with_reducible intro _
    | simp only [keep_mk]
    | split
    | dsimp only

theorem execSeqDsc_keep {r s : State} (h : Keep r s) (n : TileId) : KeepN r (execSeqDsc n s) := by
  unfold execSeqDsc
  try dsimp only
  repeat' first
    | with_reducible assumption
    | with_reducible exact Keep.refl _
    | with_reducible refine KeepN.next ?_
    | with_reducible apply State.seqExec_keep
    | with_reducible apply State.seqFault_keep
    | with_reducible apply State.seqNext_keep
    | with_reducible apply State.setG_keep
    | with_reducible intro _ _ _
    | with_reducible intro _ _
    | with_reducible intro _
    | simp only [keep_mk]
    | split
    | dsimp only

theorem execSeqSst_keep {r s : State} (h : Keep r s) (n : TileId) : KeepN r (execSeqSst n s) := by
  unfold execSeqSst
  try dsimp only
  repeat' first
    | with_reducible assumption
    | with_reducible exact Keep.refl _
    | with_reducible refine KeepN.next ?_
    | with_reducible apply State.seqExec_keep
    | with_reducible apply State.seqNext_keep
    | with_reducible apply State.setG_keep
    | with_reducible apply State.fresh_keep
    | with_reducible intro _ _ _
    | with_reducible intro _ _
    | with_reducible intro _
    | simp only [keep_mk]
    | with_reducible refine Keep.snd_eq (by assumption) ?_
    | split
    | dsimp only

theorem execSeqTake_keep {r s : State} (h : Keep r s) (n : TileId) : KeepN r (execSeqTake n s) := by
  unfold execSeqTake
  try dsimp only
  repeat' first
    | with_reducible assumption
    | with_reducible exact Keep.refl _
    | with_reducible refine Keep.ite (fun _ => ?_) (fun _ => ?_)
    | with_reducible refine KeepN.next ?_
    | with_reducible refine KeepN.ite (fun _ => ?_) (fun _ => ?_)
    | with_reducible apply State.seqExec_keep
    | with_reducible apply State.seqFault_keep
    | with_reducible apply State.takeWake_keep
    | with_reducible apply State.seqWait_keep
    | with_reducible apply State.seqCount_keep
    | with_reducible intro _ _ _
    | with_reducible intro _ _
    | with_reducible intro _
    | split
    | dsimp only

theorem execSeqDone_keep {r s : State} (h : Keep r s) (n : TileId) : KeepN r (execSeqDone n s) := by
  unfold execSeqDone
  try dsimp only
  repeat' first
    | with_reducible assumption
    | with_reducible exact Keep.refl _
    | with_reducible refine KeepN.next ?_
    | with_reducible apply State.seqExec_keep
    | with_reducible apply State.seqFault_keep
    | with_reducible apply State.seqNext_keep
    | with_reducible apply State.release_keep
    | with_reducible apply State.tileDone_keep
    | with_reducible intro _ _ _
    | with_reducible intro _ _
    | with_reducible intro _
    | simp only [keep_mk]
    | split
    | dsimp only

theorem execSeqDmaq_keep {r s : State} (h : Keep r s) (n : TileId) : KeepN r (execSeqDmaq n s) := by
  unfold execSeqDmaq
  try dsimp only
  repeat' first
    | with_reducible assumption
    | with_reducible exact Keep.refl _
    | with_reducible refine Keep.ite (fun _ => ?_) (fun _ => ?_)
    | with_reducible refine KeepN.next ?_
    | with_reducible refine KeepN.ite (fun _ => ?_) (fun _ => ?_)
    | with_reducible apply State.seqExec_keep
    | with_reducible apply State.seqFault_keep
    | with_reducible apply State.seqWait_keep
    | with_reducible apply State.seqNext_keep
    | with_reducible apply State.setDq_keep
    | with_reducible apply State.gapDirty_keep
    | with_reducible intro _ _ _
    | with_reducible intro _ _
    | with_reducible intro _
    | split
    | dsimp only

theorem State.cmdFault_keep {r s : State} (h : Keep r s) (n : Nat) (right : Bool) : Keep r (State.cmdFault s n right) := by
  unfold State.cmdFault
  try dsimp only
  repeat' first
    | with_reducible assumption
    | with_reducible exact Keep.refl _
    | with_reducible refine Keep.ite (fun _ => ?_) (fun _ => ?_)
    | with_reducible apply State.seqFault_keep
    | with_reducible apply State.accessErr_keep
    | split
    | dsimp only

theorem State.setClv_keep {r s : State} (h : Keep r s) (n : Nat) (q : List Line) : Keep r (State.setClv s n q) := by
  unfold State.setClv
  try dsimp only
  repeat' first
    | with_reducible assumption
    | with_reducible exact Keep.refl _
    | with_reducible apply State.wr_keep
    | with_reducible apply State.setTile_keep
    | simp only [keep_mk]
    | split
    | dsimp only

theorem execSeqClv_keep {r s : State} (h : Keep r s) (n : TileId) : KeepN r (execSeqClv n s) := by
  unfold execSeqClv
  try dsimp only
  repeat' first
    | with_reducible assumption
    | with_reducible exact Keep.refl _
    | with_reducible refine Keep.ite (fun _ => ?_) (fun _ => ?_)
    | with_reducible refine KeepN.next ?_
    | with_reducible refine KeepN.ite (fun _ => ?_) (fun _ => ?_)
    | with_reducible apply State.seqExec_keep
    | with_reducible apply State.seqFault_keep
    | with_reducible apply State.cmdFault_keep
    | with_reducible apply State.seqWait_keep
    | with_reducible apply State.seqNext_keep
    | with_reducible apply State.setClv_keep
    | with_reducible apply State.gapDirty_keep
    | with_reducible intro _ _ _
    | with_reducible intro _ _
    | with_reducible intro _
    | split
    | dsimp only

theorem execSeqMvc_keep {r s : State} (h : Keep r s) (n : TileId) : KeepN r (execSeqMvc n s) := by
  unfold execSeqMvc
  try dsimp only
  repeat' first
    | with_reducible assumption
    | with_reducible exact Keep.refl _
    | with_reducible refine Keep.ite (fun _ => ?_) (fun _ => ?_)
    | with_reducible refine KeepN.next ?_
    | with_reducible refine KeepN.ite (fun _ => ?_) (fun _ => ?_)
    | with_reducible apply State.seqExec_keep
    | with_reducible apply State.seqFault_keep
    | with_reducible apply State.cmdFault_keep
    | with_reducible apply State.seqWait_keep
    | with_reducible apply State.gapDirty_keep
    | with_reducible apply State.seqNext_keep
    | with_reducible apply State.setTile_keep
    | with_reducible intro _ _ _
    | with_reducible intro _ _
    | with_reducible intro _
    | simp only [keep_mk]
    | split
    | dsimp only

theorem execSeqCvc_keep {r s : State} (h : Keep r s) (n : TileId) : KeepN r (execSeqCvc n s) := by
  unfold execSeqCvc
  try dsimp only
  repeat' first
    | with_reducible assumption
    | with_reducible exact Keep.refl _
    | with_reducible refine Keep.ite (fun _ => ?_) (fun _ => ?_)
    | with_reducible refine KeepN.next ?_
    | with_reducible refine KeepN.ite (fun _ => ?_) (fun _ => ?_)
    | with_reducible apply State.seqExec_keep
    | with_reducible apply State.seqFault_keep
    | with_reducible apply State.cmdFault_keep
    | with_reducible apply State.gapDirty_keep
    | with_reducible apply State.seqNext_keep
    | with_reducible apply State.setTile_keep
    | with_reducible intro _ _ _
    | with_reducible intro _ _
    | with_reducible intro _
    | simp only [keep_mk]
    | split
    | dsimp only

theorem State.cvtCount_keep {r s : State} (h : Keep r s) (n : Nat) (c : CvtCnt) : Keep r (State.cvtCount s n c) := by
  unfold State.cvtCount
  try dsimp only
  repeat' first
    | with_reducible assumption
    | with_reducible exact Keep.refl _
    | with_reducible apply State.bumpBy_keep
    | split
    | dsimp only

theorem execCvcEnd_keep {r s : State} (h : Keep r s) (n : TileId) : KeepN r (execCvcEnd n s) := by
  unfold execCvcEnd
  try dsimp only
  repeat' first
    | with_reducible assumption
    | with_reducible exact Keep.refl _
    | with_reducible refine Keep.ite (fun _ => ?_) (fun _ => ?_)
    | with_reducible refine KeepN.next ?_
    | with_reducible refine KeepN.ite (fun _ => ?_) (fun _ => ?_)
    | with_reducible apply State.setTile_keep
    | with_reducible apply State.tsWrite_keep
    | with_reducible apply State.seqFaultEnd_keep
    | with_reducible apply State.seqWake_keep
    | with_reducible apply State.cvtCount_keep
    | simp only [keep_mk]
    | split
    | dsimp only

theorem execSeqWait_keep {r s : State} (h : Keep r s) (n : TileId) : KeepN r (execSeqWait n s) := by
  unfold execSeqWait
  try dsimp only
  repeat' first
    | with_reducible assumption
    | with_reducible exact Keep.refl _
    | with_reducible refine KeepN.next ?_
    | with_reducible apply State.seqExec_keep
    | with_reducible apply State.seqWake_keep
    | with_reducible apply State.seqWait_keep
    | with_reducible apply State.seqCount_keep
    | with_reducible intro _ _ _
    | with_reducible intro _ _
    | with_reducible intro _
    | split
    | dsimp only

theorem execSeqEopen_keep {r s : State} (h : Keep r s) (n : TileId) : KeepN r (execSeqEopen n s) := by
  unfold execSeqEopen
  try dsimp only
  repeat' first
    | with_reducible assumption
    | with_reducible exact Keep.refl _
    | with_reducible refine Keep.ite (fun _ => ?_) (fun _ => ?_)
    | with_reducible refine KeepN.next ?_
    | with_reducible refine KeepN.ite (fun _ => ?_) (fun _ => ?_)
    | with_reducible apply State.seqExec_keep
    | with_reducible apply State.seqFault_keep
    | with_reducible apply State.epoOpen_keep
    | with_reducible apply State.seqCount_keep
    | with_reducible apply State.seqResume_keep
    | with_reducible intro _ _ _
    | with_reducible intro _ _
    | with_reducible intro _
    | split
    | dsimp only

theorem execSeqEcommit_keep {r s : State} (h : Keep r s) (n : TileId) : KeepN r (execSeqEcommit n s) := by
  unfold execSeqEcommit
  try dsimp only
  repeat' first
    | with_reducible assumption
    | with_reducible exact Keep.refl _
    | with_reducible refine Keep.ite (fun _ => ?_) (fun _ => ?_)
    | with_reducible refine KeepN.next ?_
    | with_reducible refine KeepN.ite (fun _ => ?_) (fun _ => ?_)
    | with_reducible apply State.seqExec_keep
    | with_reducible apply State.seqFault_keep
    | with_reducible apply State.epoSeal_keep
    | with_reducible apply State.seqWait_keep
    | with_reducible apply State.seqCount_keep
    | with_reducible apply State.commitPoint_keep
    | with_reducible intro _ _ _
    | with_reducible intro _ _
    | with_reducible intro _
    | split
    | dsimp only

theorem execSeqEguard_keep {r s : State} (h : Keep r s) (n : TileId) : KeepN r (execSeqEguard n s) := by
  unfold execSeqEguard
  try dsimp only
  repeat' first
    | with_reducible assumption
    | with_reducible exact Keep.refl _
    | with_reducible refine Keep.ite (fun _ => ?_) (fun _ => ?_)
    | with_reducible refine KeepN.next ?_
    | with_reducible refine KeepN.ite (fun _ => ?_) (fun _ => ?_)
    | with_reducible apply State.seqExec_keep
    | with_reducible apply State.seqFault_keep
    | with_reducible apply State.seqNext_keep
    | with_reducible apply State.setGuard_keep
    | with_reducible intro _ _ _
    | with_reducible intro _ _
    | with_reducible intro _
    | split
    | dsimp only

theorem State.seqPoll_keep {r s : State} (h : Keep r s) (n : Nat) (w : W32) : Keep r (State.seqPoll s n w) := by
  unfold State.seqPoll
  try dsimp only
  repeat' first
    | with_reducible assumption
    | with_reducible exact Keep.refl _
    | with_reducible refine Keep.ite (fun _ => ?_) (fun _ => ?_)
    | with_reducible apply State.vread_keep
    | with_reducible apply State.seqWait_keep
    | with_reducible apply State.seqFault_keep
    | with_reducible apply State.seqRun_keep
    | with_reducible apply State.seqResume_keep
    | simp only [keep_mk]
    | with_reducible refine Keep.fst_eq (by assumption) ?_
    | split
    | dsimp only

theorem execSeqSemw_keep {r s : State} (h : Keep r s) (n : TileId) : KeepN r (execSeqSemw n s) := by
  unfold execSeqSemw
  try dsimp only
  repeat' first
    | with_reducible assumption
    | with_reducible exact Keep.refl _
    | with_reducible refine Keep.ite (fun _ => ?_) (fun _ => ?_)
    | with_reducible refine KeepN.next ?_
    | with_reducible refine KeepN.ite (fun _ => ?_) (fun _ => ?_)
    | with_reducible apply State.seqExec_keep
    | with_reducible apply State.seqPoll_keep
    | with_reducible apply State.seqCount_keep
    | with_reducible apply State.seqFault_keep
    | with_reducible intro _ _ _
    | with_reducible intro _ _
    | with_reducible intro _
    | split
    | dsimp only

theorem execSeqSemp_keep {r s : State} (h : Keep r s) (n : TileId) : KeepN r (execSeqSemp n s) := by
  unfold execSeqSemp
  try dsimp only
  repeat' first
    | with_reducible assumption
    | with_reducible exact Keep.refl _
    | with_reducible refine Keep.ite (fun _ => ?_) (fun _ => ?_)
    | with_reducible refine KeepN.next ?_
    | with_reducible refine KeepN.ite (fun _ => ?_) (fun _ => ?_)
    | with_reducible apply State.seqExec_keep
    | with_reducible apply State.seqFault_keep
    | with_reducible apply State.takeFault_keep
    | with_reducible apply State.semRelease_keep
    | with_reducible apply State.seqNext_keep
    | with_reducible intro _ _ _
    | with_reducible intro _ _
    | with_reducible intro _
    | simp only [keep_mk]
    | with_reducible refine Keep.fst_eq (by assumption) ?_
    | split
    | dsimp only

end Sys2Proof.Machine
end

