-- ==== Sys2Proof/Laws/KeepUmbel.lean ====
section
/-!
SUPPORT. The operations of Machine/Umbel.lean keep the queue, the canonical forms and the freshness of free values.
-/

namespace Sys2Proof.Machine

open Sys2Proof

theorem State.launch_keep {r s : State} (h : Keep r s) (n : Nat) (w : Work) (bySeq : Bool) (epochs : Nat) : Keep r (State.launch s n w bySeq epochs) := by
  unfold State.launch
  try dsimp only
  repeat' first
    | with_reducible assumption
    | with_reducible exact Keep.refl _
    | with_reducible apply State.setTile_keep
    | with_reducible apply State.busyTile_keep
    | with_reducible apply State.wr_keep
    | simp only [keep_mk]
    | split
    | dsimp only

theorem State.kernTake_keep {r s : State} (h : Keep r s) (n : Nat) : KeepS r (State.kernTake s n) := by
  unfold State.kernTake
  try dsimp only
  repeat' first
    | with_reducible assumption
    | with_reducible exact Keep.refl _
    | with_reducible refine Keep.ite (fun _ => ?_) (fun _ => ?_)
    | with_reducible exact KeepS.none
    | with_reducible refine KeepS.some ?_
    | with_reducible refine KeepS.ite (fun _ => ?_) (fun _ => ?_)
    | with_reducible apply State.wr_keep
    | with_reducible apply State.setTile_keep
    | simp only [keep_mk]
    | split
    | dsimp only

theorem execKernel_keep {r s : State} (h : Keep r s) (n : TileId) : KeepN r (execKernel n s) := by
  unfold execKernel
  try dsimp only
  repeat' first
    | with_reducible assumption
    | with_reducible exact Keep.refl _
    | with_reducible refine Keep.ite (fun _ => ?_) (fun _ => ?_)
    | with_reducible refine KeepN.next ?_
    | with_reducible refine KeepN.ite (fun _ => ?_) (fun _ => ?_)
    | with_reducible apply State.kernTake_keep
    | with_reducible apply State.launch_keep
    | with_reducible apply State.release_keep
    | with_reducible apply State.tileDone_keep
    | simp only [keep_mk]
    | with_reducible refine KeepS.of_eq (by assumption) ?_
    | split
    | dsimp only

theorem execSeqKlaunch_keep {r s : State} (h : Keep r s) (n : TileId) : KeepN r (execSeqKlaunch n s) := by
  unfold execSeqKlaunch
  try dsimp only
  repeat' first
    | with_reducible assumption
    | with_reducible exact Keep.refl _
    | with_reducible refine Keep.ite (fun _ => ?_) (fun _ => ?_)
    | with_reducible refine KeepN.next ?_
    | with_reducible refine KeepN.ite (fun _ => ?_) (fun _ => ?_)
    | with_reducible apply State.seqExec_keep
    | with_reducible apply State.seqFault_keep
    | with_reducible apply State.seqWait_keep
    | with_reducible apply State.launch_keep
    | with_reducible apply State.seqNext_keep
    | with_reducible apply State.setG_keep
    | with_reducible intro _ _ _
    | with_reducible intro _ _
    | with_reducible intro _
    | simp only [keep_mk]
    | split
    | dsimp only

theorem State.setUmb_keep {r s : State} (h : Keep r s) (n : Nat) (u : Nat) (m : Umb) : Keep r (State.setUmb s n u m) := by
  unfold State.setUmb
  try dsimp only
  repeat' first
    | with_reducible assumption
    | with_reducible exact Keep.refl _
    | with_reducible apply State.setTile_keep
    | simp only [keep_mk]
    | split
    | dsimp only

theorem State.l1Touch_keep {r s : State} (h : Keep r s) (n : Nat) (line : Nat) : Keep r (State.l1Touch s n line) := by
  unfold State.l1Touch
  try dsimp only
  repeat' first
    | with_reducible assumption
    | with_reducible exact Keep.refl _
    | with_reducible apply State.setTile_keep
    | simp only [keep_mk]
    | split
    | dsimp only

theorem State.l1Alloc_keep {r s : State} (h : Keep r s) (n : Nat) (line : Nat) : Keep r (State.l1Alloc s n line) := by
  unfold State.l1Alloc
  try dsimp only
  repeat' first
    | with_reducible assumption
    | with_reducible exact Keep.refl _
    | with_reducible refine Keep.ite (fun _ => ?_) (fun _ => ?_)
    | with_reducible apply State.setL1_keep
    | with_reducible apply State.l1Inv_keep
    | simp only [keep_mk]
    | split
    | dsimp only

theorem State.loadLine_keep {r s : State} (h : Keep r s) (n : Nat) (size : Nat) (line : Nat) (as : List LaneAcc) (fail : Bool) (acc : LoadAcc) : Keep r (State.loadLine s n size line as fail acc).1 := by
  unfold State.loadLine
  try dsimp only
  repeat' first
    | with_reducible assumption
    | with_reducible exact Keep.refl _
    | with_reducible refine Keep.ite (fun _ => ?_) (fun _ => ?_)
    | with_reducible refine Keep.fst_ite (fun _ => ?_) (fun _ => ?_)
    | with_reducible apply State.wrap_keep
    | with_reducible apply State.busRead_keep
    | with_reducible apply State.l1Alloc_keep
    | with_reducible apply State.setL1_keep
    | with_reducible apply State.l1Touch_keep
    | simp only [keep_mk]
    | with_reducible refine Keep.fst_eq (by assumption) ?_
    | split
    | dsimp only

theorem State.loadAt_keep {r s : State} (h : Keep r s) (n : Nat) (size : Nat) (host : Bool) (pa : Nat) (as : List LaneAcc) (fail : Bool) (acc : LoadAcc) : Keep r (State.loadAt s n size host pa as fail acc).1 := by
  unfold State.loadAt
  try dsimp only
  repeat' first
    | with_reducible assumption
    | with_reducible exact Keep.refl _
    | with_reducible refine Keep.ite (fun _ => ?_) (fun _ => ?_)
    | with_reducible refine Keep.fst_ite (fun _ => ?_) (fun _ => ?_)
    | with_reducible apply State.busRead_keep
    | simp only [keep_mk]
    | with_reducible refine Keep.fst_eq (by assumption) ?_
    | split
    | dsimp only

theorem State.lanesXlate_keep {r s : State} (h : Keep r s) (n pasid : Nat) (kind : AccessKind) (as : List (Nat × Nat))
    {p : State × MRes} (e : s.lanesXlate n pasid kind as = .inr p) : Keep r p.1 := by
  unfold State.lanesXlate at e
  dsimp only at e
  split at e
  · cases e; exact h
  · split at e
    · cases e; exact Keep.foldl h (fun _ _ ht => State.takeFault_keep ht _ _ _ _)
    · cases e

theorem State.lanesLoad_keep {r s : State} (h : Keep r s) (n : Nat) (k : Kern) (as : List (Nat × Nat)) (size : Nat)
    (resp : Option Answer) : Keep r (State.lanesLoad s n k as size resp).1 := by
  unfold State.lanesLoad
  refine Keep.fst_ite (fun _ => h) (fun _ => ?_)
  split
  · next e => exact State.lanesXlate_keep h _ _ _ _ e
  · refine Keep.fst_ite (fun _ => h) (fun _ => ?_)
    refine Keep.fst_ite (fun _ => ?_) (fun _ => ?_)
    all_goals
      refine Keep.foldl_fst ?_ (fun x _ hx => State.loadAt_keep hx _ _ _ _ _ _ _)
      exact Keep.foldl_fst h (fun x _ hx => State.loadLine_keep hx _ _ _ _ _ _)

theorem State.storeLane_keep {r s : State} (h : Keep r s) (n : Nat) (k : Kern) (a : LaneAcc) (bs : List Byte) : Keep r (State.storeLane s n k a bs).1 := by
  unfold State.storeLane
  try dsimp only
  repeat' first
    | with_reducible assumption
    | with_reducible exact Keep.refl _
    | with_reducible refine Keep.ite (fun _ => ?_) (fun _ => ?_)
    | with_reducible refine Keep.fst_ite (fun _ => ?_) (fun _ => ?_)
    | with_reducible apply State.l1Alloc_keep
    | with_reducible apply State.l1Touch_keep
    | with_reducible apply State.setL1_keep
    | with_reducible apply State.busWrite_keep
    | simp only [keep_mk]
    | with_reducible refine Keep.fst_eq (by assumption) ?_
    | split
    | dsimp only

theorem State.lanesStore_keep {r s : State} (h : Keep r s) (n : Nat) (k : Kern) (as : List (Nat × Nat)) (size : Nat)
    (vals : Nat → Nat) (resp : Option Answer) : Keep r (State.lanesStore s n k as size vals resp).1 := by
  unfold State.lanesStore
  refine Keep.fst_ite (fun _ => h) (fun _ => ?_)
  split
  · next e => exact State.lanesXlate_keep h _ _ _ _ e
  · refine Keep.fst_ite (fun _ => ?_) (fun _ => Keep.fst_ite (fun _ => h) (fun _ => ?_))
    · exact Keep.foldl h (fun _ _ ht => Keep.ite (fun _ => ht) (fun _ => State.storeLane_keep ht _ _ _ _))
    · exact Keep.foldl (State.wrap_keep (State.gapDirty_keep h _) _ _ _) (fun _ _ ht => State.storeLane_keep ht _ _ _ _)

/-- What an instruction leaves behind, as far as it holds a state. -/
def KeepU (r : State) : URes → Prop
  | .ok s _ _ _ => Keep r s
  | .exc s _ _ _ _ => Keep r s
  | .wait s _ _ => Keep r s
  | .hold => True
  | .exit => True

/-- The same of an answer that may be one. -/
def KeepUO (r : State) (o : Option URes) : Prop := ∀ x, o = some x → KeepU r x

theorem KeepU.ok {r s : State} {a b c} (h : Keep r s) : KeepU r (.ok s a b c) := h
theorem KeepU.exc {r s : State} {a b c d} (h : Keep r s) : KeepU r (.exc s a b c d) := h
theorem KeepU.wait {r s : State} {a b} (h : Keep r s) : KeepU r (.wait s a b) := h
theorem KeepU.hold {r : State} : KeepU r .hold := trivial
theorem KeepU.exit {r : State} : KeepU r .exit := trivial
theorem KeepU.of_ok {r s : State} {a b c x} (e : x = URes.ok s a b c) (h : KeepU r x) : Keep r s := by subst e; exact h
theorem KeepU.of_exc {r s : State} {a b c d x} (e : x = URes.exc s a b c d) (h : KeepU r x) : Keep r s := by subst e; exact h
theorem KeepU.of_wait {r s : State} {a b x} (e : x = URes.wait s a b) (h : KeepU r x) : Keep r s := by subst e; exact h
theorem KeepU.ite {r : State} {c : Prop} [Decidable c] {a b : URes} (h1 : c → KeepU r a) (h2 : ¬c → KeepU r b) :
    KeepU r (if c then a else b) := by
  split
  · next h => exact h1 h
  · next h => exact h2 h
theorem KeepUO.none {r : State} : KeepUO r none := by intro x e; cases e
theorem KeepUO.some {r : State} {x : URes} (h : KeepU r x) : KeepUO r (some x) := by intro y e; cases e; exact h
theorem KeepUO.ite {r : State} {c : Prop} [Decidable c] {a b : Option URes} (h1 : c → KeepUO r a) (h2 : ¬c → KeepUO r b) :
    KeepUO r (if c then a else b) := by
  split
  · next h => exact h1 h
  · next h => exact h2 h

theorem KeepUO.elim {r : State} {o : Option URes} {c : URes} (h : KeepUO r o) (hc : KeepU r c) :
    KeepU r (match (generalizing := false) o with
      | Option.some x => x
      | Option.none => c) := by
  cases o with
  | none => exact hc
  | some x => exact h x rfl

theorem URes.put_keep {r s : State} (h : Keep r s) (m : Umb) (rd : Nat) (v : Nat → Nat) : KeepU r (URes.put s m rd v) := h

theorem URes.nop_keep {r s : State} (h : Keep r s) (m : Umb) : KeepU r (URes.nop s m) := h

theorem excOf_keep {r s : State} (h : Keep r s) (cause : Nat) (bad : List Nat) (tval : Nat → Nat) : KeepU r (excOf s cause bad tval) := by
  unfold excOf
  try dsimp only
  repeat' first
    | with_reducible assumption
    | with_reducible exact Keep.refl _
    | with_reducible refine KeepU.ok ?_
    | with_reducible refine KeepU.exc ?_
    | with_reducible refine KeepU.wait ?_
    | with_reducible exact KeepU.hold
    | with_reducible exact KeepU.exit
    | split
    | dsimp only

theorem uJump_keep {r s : State} (h : Keep r s) (m : Umb) (wr : List (Nat × Nat × Nat)) (t : Nat → Nat) : KeepU r (uJump s m wr t) := by
  unfold uJump
  try dsimp only
  repeat' first
    | with_reducible assumption
    | with_reducible exact Keep.refl _
    | with_reducible refine Keep.ite (fun _ => ?_) (fun _ => ?_)
    | with_reducible refine KeepU.ok ?_
    | with_reducible refine KeepU.exc ?_
    | with_reducible refine KeepU.wait ?_
    | with_reducible exact KeepU.hold
    | with_reducible exact KeepU.exit
    | with_reducible refine KeepU.ite (fun _ => ?_) (fun _ => ?_)
    | with_reducible refine KeepU.of_ok (by assumption) ?_
    | with_reducible refine KeepU.of_exc (by assumption) ?_
    | with_reducible refine KeepU.of_wait (by assumption) ?_
    | with_reducible apply excOf_keep
    | split
    | dsimp only

theorem State.uCsr_keep {r s : State} (h : Keep r s) (n : Nat) (u : Nat) (k : Kern) (m : Umb) (w : W32) : KeepU r (State.uCsr s n u k m w) := by
  unfold State.uCsr
  try dsimp only
  repeat' first
    | with_reducible assumption
    | with_reducible exact Keep.refl _
    | with_reducible refine Keep.ite (fun _ => ?_) (fun _ => ?_)
    | with_reducible refine KeepU.ok ?_
    | with_reducible refine KeepU.exc ?_
    | with_reducible refine KeepU.wait ?_
    | with_reducible exact KeepU.hold
    | with_reducible exact KeepU.exit
    | with_reducible refine KeepU.ite (fun _ => ?_) (fun _ => ?_)
    | with_reducible apply State.fresh_keep
    | simp only [keep_mk]
    | with_reducible refine Keep.snd_eq (by assumption) ?_
    | split
    | dsimp only

theorem State.uFp_keep {r s : State} (h : Keep r s) (m : Umb) (w : W32) : KeepU r (State.uFp s m w) := by
  unfold State.uFp
  try dsimp only
  repeat' first
    | with_reducible assumption
    | with_reducible exact Keep.refl _
    | with_reducible refine Keep.ite (fun _ => ?_) (fun _ => ?_)
    | with_reducible refine KeepU.ok ?_
    | with_reducible refine KeepU.exc ?_
    | with_reducible refine KeepU.wait ?_
    | with_reducible exact KeepU.hold
    | with_reducible exact KeepU.exit
    | with_reducible refine KeepU.ite (fun _ => ?_) (fun _ => ?_)
    | with_reducible refine KeepU.of_ok (by assumption) ?_
    | with_reducible refine KeepU.of_exc (by assumption) ?_
    | with_reducible refine KeepU.of_wait (by assumption) ?_
    | with_reducible apply excOf_keep
    | simp only [keep_mk]
    | split
    | dsimp only

theorem State.uLoad_keep {r s : State} (h : Keep r s) (n : Nat) (k : Kern) (m : Umb) (w : W32) (resp : Option Answer) : KeepU r (State.uLoad s n k m w resp) := by
  unfold State.uLoad
  try dsimp only
  repeat' first
    | with_reducible assumption
    | with_reducible exact Keep.refl _
    | with_reducible refine Keep.ite (fun _ => ?_) (fun _ => ?_)
    | with_reducible refine KeepU.ok ?_
    | with_reducible refine KeepU.exc ?_
    | with_reducible refine KeepU.wait ?_
    | with_reducible exact KeepU.hold
    | with_reducible exact KeepU.exit
    | with_reducible refine KeepU.ite (fun _ => ?_) (fun _ => ?_)
    | with_reducible apply State.lanesLoad_keep
    | simp only [keep_mk]
    | with_reducible refine Keep.fst_eq (by assumption) ?_
    | split
    | dsimp only

theorem State.uStore_keep {r s : State} (h : Keep r s) (n : Nat) (k : Kern) (m : Umb) (w : W32) (resp : Option Answer) : KeepU r (State.uStore s n k m w resp) := by
  unfold State.uStore
  try dsimp only
  repeat' first
    | with_reducible assumption
    | with_reducible exact Keep.refl _
    | with_reducible refine Keep.ite (fun _ => ?_) (fun _ => ?_)
    | with_reducible refine KeepU.ok ?_
    | with_reducible refine KeepU.exc ?_
    | with_reducible refine KeepU.wait ?_
    | with_reducible exact KeepU.hold
    | with_reducible exact KeepU.exit
    | with_reducible refine KeepU.ite (fun _ => ?_) (fun _ => ?_)
    | with_reducible refine KeepU.of_ok (by assumption) ?_
    | with_reducible refine KeepU.of_exc (by assumption) ?_
    | with_reducible refine KeepU.of_wait (by assumption) ?_
    | with_reducible apply State.lanesStore_keep
    | with_reducible apply URes.nop_keep
    | simp only [keep_mk]
    | with_reducible refine Keep.fst_eq (by assumption) ?_
    | split
    | dsimp only

theorem State.uBase_keep {r s : State} (h : Keep r s) (n : Nat) (u : Nat) (k : Kern) (m : Umb) (w : W32) (resp : Option Answer) : KeepU r (State.uBase s n u k m w resp) := by
  unfold State.uBase
  try dsimp only
  repeat' first
    | with_reducible assumption
    | with_reducible exact Keep.refl _
    | with_reducible refine Keep.ite (fun _ => ?_) (fun _ => ?_)
    | with_reducible refine KeepU.ok ?_
    | with_reducible refine KeepU.exc ?_
    | with_reducible refine KeepU.wait ?_
    | with_reducible exact KeepU.hold
    | with_reducible exact KeepU.exit
    | with_reducible refine KeepU.ite (fun _ => ?_) (fun _ => ?_)
    | with_reducible refine KeepU.of_ok (by assumption) ?_
    | with_reducible refine KeepU.of_exc (by assumption) ?_
    | with_reducible refine KeepU.of_wait (by assumption) ?_
    | with_reducible apply uJump_keep
    | with_reducible apply State.uLoad_keep
    | with_reducible apply State.uStore_keep
    | with_reducible apply URes.nop_keep
    | with_reducible apply excOf_keep
    | with_reducible apply State.uCsr_keep
    | with_reducible apply State.uFp_keep
    | with_reducible apply URes.put_keep
    | simp only [keep_mk]
    | split
    | dsimp only

theorem State.uFetch_keep {r s : State} (h : Keep r s) (n : Nat) (k : Kern) (m : Umb) : Keep r (State.uFetch s n k m).1 := by
  unfold State.uFetch
  try dsimp only
  repeat' first
    | with_reducible assumption
    | with_reducible exact Keep.refl _
    | with_reducible apply State.takeFault_keep
    | with_reducible apply State.busRead_keep
    | with_reducible apply State.setTile_keep
    | simp only [keep_mk]
    | with_reducible refine Keep.fst_eq (by assumption) ?_
    | split
    | dsimp only

theorem State.uExcept_keep {r s : State} (h : Keep r s) (n : Nat) (u : Nat) (m : Umb) (cause : Nat) (mask : Nat) (tval : Nat) (poison : Bool) : Keep r (State.uExcept s n u m cause mask tval poison) := by
  unfold State.uExcept
  try dsimp only
  repeat' first
    | with_reducible assumption
    | with_reducible exact Keep.refl _
    | with_reducible refine Keep.ite (fun _ => ?_) (fun _ => ?_)
    | with_reducible apply State.bump_keep
    | with_reducible apply State.wr_keep
    | with_reducible apply State.setTile_keep
    | simp only [keep_mk]
    | split
    | dsimp only

theorem State.uCount_keep {r s : State} (h : Keep r s) (n : Nat) (u : Nat) (i : UInfo) : Keep r (State.uCount s n u i) := by
  unfold State.uCount
  try dsimp only
  repeat' first
    | with_reducible assumption
    | with_reducible exact Keep.refl _
    | with_reducible refine Keep.ite (fun _ => ?_) (fun _ => ?_)
    | with_reducible apply State.setUmb_keep
    | with_reducible apply State.wrap_keep
    | simp only [keep_mk]
    | split
    | dsimp only

theorem State.uGone_keep {r s : State} (h : Keep r s) (n : Nat) (u : Nat) : Keep r (State.uGone s n u) := by
  unfold State.uGone
  try dsimp only
  repeat' first
    | with_reducible assumption
    | with_reducible exact Keep.refl _
    | with_reducible refine Keep.ite (fun _ => ?_) (fun _ => ?_)
    | with_reducible apply State.wr_keep
    | with_reducible apply State.setTile_keep
    | with_reducible apply State.seqWake_keep
    | simp only [keep_mk]
    | split
    | dsimp only

theorem State.uStep_keep {r s : State} (h : Keep r s) (n : Nat) (u : Nat) (m : Umb) (next : Nat → Nat) : Keep r (State.uStep s n u m next) := by
  unfold State.uStep
  try dsimp only
  repeat' first
    | with_reducible assumption
    | with_reducible exact Keep.refl _
    | with_reducible refine Keep.ite (fun _ => ?_) (fun _ => ?_)
    | with_reducible apply State.uGone_keep
    | with_reducible apply State.setUmb_keep
    | with_reducible apply State.wrap_keep
    | simp only [keep_mk]
    | split
    | dsimp only

theorem State.uApply_keep {r s : State} (h : Keep r s) (n u : Nat) (i : UInfo) {x : URes} (hx : KeepU r x) :
    Keep r (State.uApply s n u i x) := by
  unfold State.uApply
  split
  · exact h
  · dsimp only
    split
    · exact State.uExcept_keep (State.uCount_keep hx _ _ _) _ _ _ _ _ _ _
    · exact State.uCount_keep hx _ _ _
  · dsimp only
    split
    · exact State.setUmb_keep (State.uCount_keep hx _ _ _) _ _ _
    · exact State.uCount_keep hx _ _ _
  · dsimp only
    split
    · exact State.uStep_keep (State.uCount_keep h _ _ _) _ _ _ _
    · exact State.uCount_keep h _ _ _
  · dsimp only
    split
    · exact State.uStep_keep (State.uCount_keep hx _ _ _) _ _ _ _
    · exact State.uCount_keep hx _ _ _

theorem State.uIssueBase_keep {r s : State} (h : Keep r s) (n u : Nat) (custom : W32 → Bool) :
    Keep r (State.uIssueBase s n u custom) := by
  unfold State.uIssueBase
  split
  · exact h
  · split
    · next e => exact Keep.fst_eq e (State.uFetch_keep h _ _ _)
    · next e => exact State.uExcept_keep (Keep.fst_eq e (State.uFetch_keep h _ _ _)) _ _ _ _ _ _ _
    · next e =>
      have h1 := Keep.fst_eq e (State.uFetch_keep h _ _ _)
      refine Keep.ite (fun _ => h1) (fun _ => ?_)
      split
      · exact Keep.ite (fun _ => State.uApply_keep h1 _ _ _ (State.uBase_keep h1 _ _ _ _ _ _)) (fun _ => h1)
      · exact Keep.ite (fun _ => State.uApply_keep h1 _ _ _ trivial) (fun _ => State.uApply_keep h1 _ _ _ (excOf_keep h1 _ _ _))

theorem execKernelBoundary_keep {r s : State} (h : Keep r s) (n : TileId) : KeepN r (execKernelBoundary n s) := by
  unfold execKernelBoundary
  try dsimp only
  repeat' first
    | with_reducible assumption
    | with_reducible exact Keep.refl _
    | with_reducible refine Keep.ite (fun _ => ?_) (fun _ => ?_)
    | with_reducible refine KeepN.next ?_
    | with_reducible refine KeepN.ite (fun _ => ?_) (fun _ => ?_)
    | with_reducible apply State.wr_keep
    | with_reducible apply State.setTile_keep
    | with_reducible apply State.epoSeal_keep
    | with_reducible apply State.bump_keep
    | with_reducible apply State.commitPoint_keep
    | with_reducible apply State.seqWake_keep
    | with_reducible apply State.l1InvAll_keep
    | simp only [keep_mk]
    | split
    | dsimp only

theorem execKernelComplete_keep {r s : State} (h : Keep r s) (n : TileId) : KeepN r (execKernelComplete n s) := by
  unfold execKernelComplete
  try dsimp only
  repeat' first
    | with_reducible assumption
    | with_reducible exact Keep.refl _
    | with_reducible refine Keep.ite (fun _ => ?_) (fun _ => ?_)
    | with_reducible refine KeepN.next ?_
    | with_reducible refine KeepN.ite (fun _ => ?_) (fun _ => ?_)
    | with_reducible apply State.setTile_keep
    | with_reducible apply State.wrap_keep
    | with_reducible apply State.wr_keep
    | with_reducible apply State.release_keep
    | with_reducible apply State.tileDone_keep
    | with_reducible apply State.seqRun_keep
    | with_reducible apply State.seqWake_keep
    | simp only [keep_mk]
    | split
    | dsimp only

end Sys2Proof.Machine
end

