-- ==== Sys2Proof/Laws/KeepLoad.lean ====
section
/-!
SUPPORT. The operations of Machine/Load.lean keep the queue, the canonical forms and the freshness of free values.
-/

namespace Sys2Proof.Machine

open Sys2Proof

theorem State.loadPoisoned_keep {r s : State} (h : Keep r s) (n : Nat) (hx : Nat) (f : Facet) : Keep r (State.loadPoisoned s n hx f) := by
  unfold State.loadPoisoned
  try dsimp only
  repeat' first
    | with_reducible assumption
    | with_reducible exact Keep.refl _
    | with_reducible refine Keep.ite (fun _ => ?_) (fun _ => ?_)
    | with_reducible apply State.refuse_keep
    | with_reducible apply State.setTile_keep
    | with_reducible apply State.bump_keep
    | with_reducible apply State.epoClose_keep
    | with_reducible apply State.toUnbound_keep
    | with_reducible apply State.wr_keep
    | simp only [keep_mk]
    | split
    | dsimp only

theorem State.freshEpoch_keep {r s : State} (h : Keep r s) (n : Nat) : Keep r (State.freshEpoch s n) := by
  unfold State.freshEpoch
  try dsimp only
  repeat' first
    | with_reducible assumption
    | with_reducible exact Keep.refl _
    | with_reducible apply State.clearGuards_keep
    | with_reducible apply State.wr_keep
    | with_reducible apply State.setEpo_keep
    | simp only [keep_mk]
    | split
    | dsimp only

theorem State.loadResume_keep {r s : State} (h : Keep r s) (n : Nat) : Keep r (State.loadResume s n) := by
  unfold State.loadResume
  try dsimp only
  repeat' first
    | with_reducible assumption
    | with_reducible exact Keep.refl _
    | with_reducible refine Keep.ite (fun _ => ?_) (fun _ => ?_)
    | with_reducible apply State.setTst_keep
    | with_reducible apply State.restore_keep
    | with_reducible apply State.launch_keep
    | with_reducible intro _ _ _
    | with_reducible intro _ _
    | with_reducible intro _
    | simp only [keep_mk]
    | split
    | dsimp only

theorem execFacetLoadComplete_keep {r s : State} (h : Keep r s) (n : TileId) : KeepN r (execFacetLoadComplete n s) := by
  unfold execFacetLoadComplete
  try dsimp only
  repeat' first
    | with_reducible assumption
    | with_reducible exact Keep.refl _
    | with_reducible refine Keep.ite (fun _ => ?_) (fun _ => ?_)
    | with_reducible refine KeepN.next ?_
    | with_reducible refine KeepN.ite (fun _ => ?_) (fun _ => ?_)
    | with_reducible apply State.loadPoisoned_keep
    | with_reducible apply State.loadFacet_keep
    | with_reducible apply State.wr_keep
    | with_reducible apply State.setTst_keep
    | with_reducible apply State.freshPorts_keep
    | with_reducible apply State.freshEpoch_keep
    | with_reducible apply State.loadResume_keep
    | with_reducible apply State.refreshPorts_keep
    | with_reducible apply State.served_keep
    | with_reducible apply State.setTile_keep
    | simp only [keep_mk]
    | split
    | dsimp only

theorem State.epochTake_keep {r s : State} (h : Keep r s) (n : Nat) : KeepS r (State.epochTake s n) := by
  unfold State.epochTake
  try dsimp only
  repeat' first
    | with_reducible assumption
    | with_reducible exact Keep.refl _
    | with_reducible refine Keep.ite (fun _ => ?_) (fun _ => ?_)
    | with_reducible exact KeepS.none
    | with_reducible refine KeepS.some ?_
    | with_reducible refine KeepS.ite (fun _ => ?_) (fun _ => ?_)
    | with_reducible apply State.wr_keep
    | with_reducible apply State.setTile_keep
    | simp only [keep_mk]
    | split
    | dsimp only

theorem execEpochDesc_keep {r s : State} (h : Keep r s) (n : TileId) : KeepN r (execEpochDesc n s) := by
  unfold execEpochDesc
  try dsimp only
  repeat' first
    | with_reducible assumption
    | with_reducible exact Keep.refl _
    | with_reducible refine Keep.ite (fun _ => ?_) (fun _ => ?_)
    | with_reducible refine KeepN.next ?_
    | with_reducible refine KeepN.ite (fun _ => ?_) (fun _ => ?_)
    | with_reducible apply State.epochTake_keep
    | with_reducible apply State.release_keep
    | with_reducible apply State.tileDone_keep
    | with_reducible apply State.setGuard_keep
    | with_reducible apply State.epoSeal_keep
    | with_reducible apply State.commitPoint_keep
    | with_reducible apply State.clearGuards_keep
    | simp only [keep_mk]
    | with_reducible refine KeepS.of_eq (by assumption) ?_
    | split
    | dsimp only

end Sys2Proof.Machine
end

