-- ==== Sys2Proof/Laws/KeepMatArith.lean ====
section
/-!
SUPPORT. The operations of Machine/MatArith.lean keep the queue, the canonical forms and the freshness of free values.
-/

namespace Sys2Proof.Machine

open Sys2Proof

theorem State.gather_keep {r s : State} (h : Keep r s) (die : Nat) (pasid : Nat) (a3 : List Req) : Keep r (State.gather s die pasid a3).1 := by
  induction a3 generalizing s die pasid with
  | nil => exact h
  | cons x l ih =>
    unfold State.gather
    try dsimp only
    repeat' first
      | with_reducible assumption
      | with_reducible exact Keep.refl _
      | with_reducible apply State.vread_keep
      | with_reducible apply ih
      | simp only [keep_mk]
      | with_reducible refine Keep.fst_eq (by assumption) ?_
      | split
      | dsimp only

theorem State.readSegs_keep {r s : State} (h : Keep r s) (die : Nat) (pasid : Nat) (o : Operand) (m0 : Nat) (cnt : Nat) (k0 : Nat) (span : Nat) : Keep r (State.readSegs s die pasid o m0 cnt k0 span).1 := by
  unfold State.readSegs
  try dsimp only
  repeat' first
    | with_reducible assumption
    | with_reducible exact Keep.refl _
    | with_reducible refine Keep.ite (fun _ => ?_) (fun _ => ?_)
    | with_reducible refine Keep.fst_ite (fun _ => ?_) (fun _ => ?_)
    | with_reducible apply State.gather_keep
    | simp only [keep_mk]
    | with_reducible refine Keep.fst_eq (by assumption) ?_
    | split
    | dsimp only

theorem State.readBlock_keep {r s : State} (h : Keep r s) (die : Nat) (pasid : Nat) (o : Operand) (sparse : Bool) (n0 : Nat) (cnt : Nat) (k0 : Nat) (span : Nat) : Keep r (State.readBlock s die pasid o sparse n0 cnt k0 span).1 := by
  unfold State.readBlock
  try dsimp only
  repeat' first
    | with_reducible assumption
    | with_reducible exact Keep.refl _
    | with_reducible refine Keep.ite (fun _ => ?_) (fun _ => ?_)
    | with_reducible refine Keep.fst_ite (fun _ => ?_) (fun _ => ?_)
    | with_reducible apply State.readSegs_keep
    | with_reducible apply State.gather_keep
    | simp only [keep_mk]
    | with_reducible refine Keep.fst_eq (by assumption) ?_
    | split
    | dsimp only

end Sys2Proof.Machine
end

