-- ==== Sys2Proof/Laws/KeepMatrix.lean ====
section
/-!
SUPPORT. The operations of Machine/Matrix.lean keep the queue, the canonical forms and the freshness of free values.
-/

namespace Sys2Proof.Machine

open Sys2Proof

theorem State.worse_keep {r s : State} (h : Keep r s) (n : Nat) (st : Nat) : Keep r (State.worse s n st) := by
  unfold State.worse
  try dsimp only
  repeat' first
    | with_reducible assumption
    | with_reducible exact Keep.refl _
    | with_reducible refine Keep.ite (fun _ => ?_) (fun _ => ?_)
    | with_reducible apply State.setTile_keep
    | simp only [keep_mk]
    | split
    | dsimp only

theorem State.matDrop_keep {r s : State} (h : Keep r s) (n : Nat) (w : Work) : Keep r (State.matDrop s n w) := by
  unfold State.matDrop
  try dsimp only
  repeat' first
    | with_reducible assumption
    | with_reducible exact Keep.refl _
    | with_reducible refine Keep.ite (fun _ => ?_) (fun _ => ?_)
    | with_reducible apply State.release_keep
    | with_reducible apply State.setTile_keep
    | simp only [keep_mk]
    | split
    | dsimp only

theorem State.matEnd_keep {r s : State} (h : Keep r s) (n : Nat) (w : Work) (pos : Nat) (status : Nat) : Keep r (State.matEnd s n w pos status) := by
  unfold State.matEnd
  try dsimp only
  repeat' first
    | with_reducible assumption
    | with_reducible exact Keep.refl _
    | with_reducible apply State.tileDone_keep
    | with_reducible apply State.matDrop_keep
    | with_reducible apply State.worse_keep
    | split
    | dsimp only

theorem State.matFinish_keep {r s : State} (h : Keep r s) (n : Nat) (j : MatJob) : Keep r (State.matFinish s n j) := by
  unfold State.matFinish
  try dsimp only
  repeat' first
    | with_reducible assumption
    | with_reducible exact Keep.refl _
    | with_reducible refine Keep.ite (fun _ => ?_) (fun _ => ?_)
    | with_reducible apply State.wrap_keep
    | with_reducible apply State.seqFaultEnd_keep
    | with_reducible apply State.matEnd_keep
    | split
    | dsimp only

theorem State.matStopAt_keep {r s : State} (h : Keep r s) (n : Nat) (j : MatJob) (status : Nat) : Keep r (State.matStopAt s n j status) := by
  unfold State.matStopAt
  try dsimp only
  repeat' first
    | with_reducible assumption
    | with_reducible exact Keep.refl _
    | with_reducible refine Keep.ite (fun _ => ?_) (fun _ => ?_)
    | with_reducible apply State.setTile_keep
    | with_reducible apply State.bump_keep
    | with_reducible apply State.seqFaultEnd_keep
    | with_reducible apply State.seqWake_keep
    | with_reducible apply State.matEnd_keep
    | simp only [keep_mk]
    | split
    | dsimp only

theorem State.setJob_keep {r s : State} (h : Keep r s) (n : Nat) (j : MatJob) : Keep r (State.setJob s n j) := by
  unfold State.setJob
  try dsimp only
  repeat' first
    | with_reducible assumption
    | with_reducible exact Keep.refl _
    | with_reducible refine Keep.ite (fun _ => ?_) (fun _ => ?_)
    | with_reducible apply State.setTile_keep
    | simp only [keep_mk]
    | split
    | dsimp only

theorem execMatrix_keep {r s : State} (h : Keep r s) (n : TileId) : KeepN r (execMatrix n s) := by
  unfold execMatrix
  try dsimp only
  repeat' first
    | with_reducible assumption
    | with_reducible exact Keep.refl _
    | with_reducible refine Keep.ite (fun _ => ?_) (fun _ => ?_)
    | with_reducible refine KeepN.next ?_
    | with_reducible refine KeepN.ite (fun _ => ?_) (fun _ => ?_)
    | with_reducible apply State.matEnd_keep
    | with_reducible apply State.bump_keep
    | with_reducible apply State.wrap_keep
    | with_reducible apply State.setJob_keep
    | simp only [keep_mk]
    | split
    | dsimp only

theorem State.jobFill_keep {r s : State} (h : Keep r s) (n : Nat) (j : MatJob) : Keep r (State.jobFill s n j) := by
  unfold State.jobFill
  try dsimp only
  repeat' first
    | with_reducible assumption
    | with_reducible exact Keep.refl _
    | with_reducible refine Keep.ite (fun _ => ?_) (fun _ => ?_)
    | with_reducible apply State.readBlock_keep
    | with_reducible apply State.matStopAt_keep
    | with_reducible apply State.setJob_keep
    | simp only [keep_mk]
    | with_reducible refine Keep.fst_eq (by assumption) ?_
    | split
    | dsimp only

theorem execWeightFillComplete_keep {r s : State} (h : Keep r s) (n : TileId) : KeepN r (execWeightFillComplete n s) := by
  unfold execWeightFillComplete
  try dsimp only
  repeat' first
    | with_reducible assumption
    | with_reducible exact Keep.refl _
    | with_reducible refine Keep.ite (fun _ => ?_) (fun _ => ?_)
    | with_reducible refine KeepN.next ?_
    | with_reducible refine KeepN.ite (fun _ => ?_) (fun _ => ?_)
    | with_reducible apply State.jobFill_keep
    | with_reducible apply State.setTile_keep
    | simp only [keep_mk]
    | split
    | dsimp only

theorem State.jobSet_keep {r s : State} (h : Keep r s) (n : Nat) (j : MatJob) : Keep r (State.jobSet s n j) := by
  unfold State.jobSet
  try dsimp only
  repeat' first
    | with_reducible assumption
    | with_reducible exact Keep.refl _
    | with_reducible refine Keep.ite (fun _ => ?_) (fun _ => ?_)
    | with_reducible apply State.readSegs_keep
    | with_reducible apply State.matStopAt_keep
    | with_reducible apply State.setTile_keep
    | simp only [keep_mk]
    | with_reducible refine Keep.fst_eq (by assumption) ?_
    | split
    | dsimp only

theorem State.bankSet_keep {r s : State} (h : Keep r s) (n : Nat) (bank : Nat) (c : Line) (rows : List Seg) (b : WBlk) (pois : Bool) (uses : Nat → Bool) : Keep r (State.bankSet s n bank c rows b pois uses) := by
  unfold State.bankSet
  try dsimp only
  repeat' first
    | with_reducible assumption
    | with_reducible exact Keep.refl _
    | with_reducible refine Keep.ite (fun _ => ?_) (fun _ => ?_)
    | with_reducible apply State.setTile_keep
    | simp only [keep_mk]
    | split
    | dsimp only

theorem State.cmdSet_keep {r s : State} (h : Keep r s) (n : Nat) (c : Line) (b : WBlk) (rest : List Line) : Keep r (State.cmdSet s n c b rest) := by
  unfold State.cmdSet
  try dsimp only
  repeat' first
    | with_reducible assumption
    | with_reducible exact Keep.refl _
    | with_reducible refine Keep.ite (fun _ => ?_) (fun _ => ?_)
    | with_reducible apply State.bankSet_keep
    | with_reducible apply State.seqFaultEnd_keep
    | with_reducible apply State.seqWake_keep
    | with_reducible apply State.setClv_keep
    | with_reducible apply State.setTile_keep
    | simp only [keep_mk]
    | split
    | dsimp only

theorem execSetComplete_keep {r s : State} (h : Keep r s) (n : TileId) : KeepN r (execSetComplete n s) := by
  unfold execSetComplete
  try dsimp only
  repeat' first
    | with_reducible assumption
    | with_reducible exact Keep.refl _
    | with_reducible refine Keep.ite (fun _ => ?_) (fun _ => ?_)
    | with_reducible refine KeepN.next ?_
    | with_reducible refine KeepN.ite (fun _ => ?_) (fun _ => ?_)
    | with_reducible apply State.jobSet_keep
    | with_reducible apply State.cmdSet_keep
    | simp only [keep_mk]
    | split
    | dsimp only

theorem State.readC_keep {r s : State} (h : Keep r s) (n : Nat) (j : MatJob) (row0 : Nat) (rows : Nat) (col0 : Nat) (cols : Nat) : Keep r (State.readC s n j row0 rows col0 cols).1 := by
  unfold State.readC
  try dsimp only
  repeat' first
    | with_reducible assumption
    | with_reducible exact Keep.refl _
    | with_reducible refine Keep.ite (fun _ => ?_) (fun _ => ?_)
    | with_reducible refine Keep.fst_ite (fun _ => ?_) (fun _ => ?_)
    | with_reducible apply State.gather_keep
    | simp only [keep_mk]
    | with_reducible refine Keep.fst_eq (by assumption) ?_
    | split
    | dsimp only

theorem State.noReplay_keep {r s : State} (h : Keep r s) (n : Nat) (p : OutPar) : Keep r (State.noReplay s n p) := by
  unfold State.noReplay
  try dsimp only
  repeat' first
    | with_reducible assumption
    | with_reducible exact Keep.refl _
    | with_reducible refine Keep.ite (fun _ => ?_) (fun _ => ?_)
    | with_reducible apply State.wr_keep
    | split
    | dsimp only

theorem State.setDrain_keep {r s : State} (h : Keep r s) (n : Nat) (o : OutTile) (d : Option Line) (vs : List V) (cs : List V) (cnt : CvtCnt) (pois : Bool) : Keep r (State.setDrain s n o d vs cs cnt pois) := by
  unfold State.setDrain
  try dsimp only
  repeat' first
    | with_reducible assumption
    | with_reducible exact Keep.refl _
    | with_reducible refine Keep.ite (fun _ => ?_) (fun _ => ?_)
    | with_reducible apply State.setTile_keep
    | simp only [keep_mk]
    | split
    | dsimp only

theorem State.jobDrain_keep {r s : State} (h : Keep r s) (n : Nat) (j : MatJob) (o : OutTile) (edge : Bool) : Keep r (State.jobDrain s n j o edge) := by
  unfold State.jobDrain
  try dsimp only
  repeat' first
    | with_reducible assumption
    | with_reducible exact Keep.refl _
    | with_reducible refine Keep.ite (fun _ => ?_) (fun _ => ?_)
    | with_reducible apply State.readC_keep
    | with_reducible apply State.matStopAt_keep
    | with_reducible apply State.setDrain_keep
    | with_reducible apply State.noReplay_keep
    | simp only [keep_mk]
    | with_reducible refine Keep.fst_eq (by assumption) ?_
    | split
    | dsimp only

theorem State.cmdDrain_keep {r s : State} (h : Keep r s) (n : Nat) (c : Line) (o : OutTile) : Keep r (State.cmdDrain s n c o) := by
  unfold State.cmdDrain
  try dsimp only
  repeat' first
    | with_reducible assumption
    | with_reducible exact Keep.refl _
    | with_reducible refine Keep.ite (fun _ => ?_) (fun _ => ?_)
    | with_reducible apply State.setDrain_keep
    | with_reducible apply State.noReplay_keep
    | simp only [keep_mk]
    | split
    | dsimp only

theorem execDrainStart_keep {r s : State} (h : Keep r s) (n : TileId) : KeepN r (execDrainStart n s) := by
  unfold execDrainStart
  try dsimp only
  repeat' first
    | with_reducible assumption
    | with_reducible exact Keep.refl _
    | with_reducible refine Keep.ite (fun _ => ?_) (fun _ => ?_)
    | with_reducible refine KeepN.next ?_
    | with_reducible refine KeepN.ite (fun _ => ?_) (fun _ => ?_)
    | with_reducible apply State.cmdDrain_keep
    | with_reducible apply State.jobDrain_keep
    | with_reducible apply State.setTile_keep
    | simp only [keep_mk]
    | split
    | dsimp only

theorem State.freeRows_keep {r s : State} (h : Keep r s) (n : Nat) (a2 : Nat) : Keep r (State.freeRows s n a2).1 := by
  induction a2 generalizing s n with
  | zero => exact h
  | succ k ih =>
    unfold State.freeRows
    try dsimp only
    repeat' first
      | with_reducible assumption
      | with_reducible exact Keep.refl _
      | with_reducible apply State.freeRead_keep
      | with_reducible apply ih
      | with_reducible refine Keep.fst_eq (by assumption) ?_
      | split
      | dsimp only

theorem execDrainComplete_keep {r s : State} (h : Keep r s) (n : TileId) : KeepN r (execDrainComplete n s) := by
  unfold execDrainComplete
  try dsimp only
  repeat' first
    | with_reducible assumption
    | with_reducible exact Keep.refl _
    | with_reducible refine Keep.ite (fun _ => ?_) (fun _ => ?_)
    | with_reducible refine KeepN.next ?_
    | with_reducible refine KeepN.ite (fun _ => ?_) (fun _ => ?_)
    | with_reducible apply State.freeRows_keep
    | with_reducible apply State.setTile_keep
    | simp only [keep_mk]
    | with_reducible refine Keep.fst_eq (by assumption) ?_
    | split
    | dsimp only

theorem State.stage_keep {r s : State} (h : Keep r s) (n : Nat) (o : OutTile) (p : OutPar) : Keep r (State.stage s n o p) := by
  unfold State.stage
  try dsimp only
  repeat' first
    | with_reducible assumption
    | with_reducible exact Keep.refl _
    | with_reducible apply State.tsWrite_keep
    | simp only [keep_mk]
    | split
    | dsimp only

theorem execConversionTrial_keep {r s : State} (h : Keep r s) (n : TileId) : KeepN r (execConversionTrial n s) := by
  unfold execConversionTrial
  try dsimp only
  repeat' first
    | with_reducible assumption
    | with_reducible exact Keep.refl _
    | with_reducible refine Keep.ite (fun _ => ?_) (fun _ => ?_)
    | with_reducible refine KeepN.next ?_
    | with_reducible refine KeepN.ite (fun _ => ?_) (fun _ => ?_)
    | with_reducible apply State.stage_keep
    | with_reducible apply State.setTile_keep
    | with_reducible apply State.wrap_keep
    | with_reducible apply State.noReplay_keep
    | simp only [keep_mk]
    | split
    | dsimp only

theorem State.offerPatch_keep {r s : State} (h : Keep r s) (n : Nat) (d : Line) (fa : Nat) (fb : Nat) (sparse : Bool) (o : OutTile) : Keep r (State.offerPatch s n d fa fb sparse o) := by
  unfold State.offerPatch
  try dsimp only
  repeat' first
    | with_reducible assumption
    | with_reducible exact Keep.refl _
    | simp only [keep_mk]
    | split
    | dsimp only

theorem State.rowFails_keep {r s : State} (h : Keep r s) (n : Nat) (pasid : Nat) (poison : Bool) (rx : Nat × List Byte) : KeepF r (State.rowFails s n pasid poison rx) := by
  unfold State.rowFails
  try dsimp only
  repeat' first
    | with_reducible assumption
    | with_reducible exact Keep.refl _
    | with_reducible refine Keep.ite (fun _ => ?_) (fun _ => ?_)
    | with_reducible exact KeepF.none
    | with_reducible refine KeepF.some ?_
    | with_reducible refine KeepF.ite (fun _ => ?_) (fun _ => ?_)
    | with_reducible apply State.vwrite_keep
    | simp only [keep_mk]
    | with_reducible refine Keep.fst_eq (by assumption) ?_
    | split
    | dsimp only

theorem State.putRows_keep {r s : State} (h : Keep r s) (n pasid : Nat) (poison : Bool) (rs : List (Nat × List Byte)) :
    Keep r (State.putRows s n pasid poison rs).1 := by
  unfold State.putRows
  split
  · next s1 st e =>
    obtain ⟨a, _, ha⟩ := List.exists_of_findSome?_eq_some e
    exact KeepF.of_eq ha (State.rowFails_keep h _ _ _ _)
  · exact Keep.foldl h (fun _ _ ht => State.vwrite_keep ht _ _ _ _ _)

theorem State.retireCounts_keep {r s : State} (h : Keep r s) (n : Nat) (o : OutTile) : Keep r (State.retireCounts s n o) := by
  unfold State.retireCounts
  try dsimp only
  repeat' first
    | with_reducible assumption
    | with_reducible exact Keep.refl _
    | with_reducible refine Keep.ite (fun _ => ?_) (fun _ => ?_)
    | with_reducible apply State.cvtCount_keep
    | with_reducible apply State.bump_keep
    | with_reducible apply State.bumpBy_keep
    | with_reducible apply State.setTile_keep
    | simp only [keep_mk]
    | split
    | dsimp only

theorem State.jobRetire_keep {r s : State} (h : Keep r s) (n : Nat) (j : MatJob) (o : OutTile) : Keep r (State.jobRetire s n j o) := by
  unfold State.jobRetire
  try dsimp only
  repeat' first
    | with_reducible assumption
    | with_reducible exact Keep.refl _
    | with_reducible refine Keep.ite (fun _ => ?_) (fun _ => ?_)
    | with_reducible apply State.putRows_keep
    | with_reducible apply State.gapDirty_keep
    | with_reducible apply State.matStopAt_keep
    | with_reducible apply State.offerPatch_keep
    | with_reducible apply State.retireCounts_keep
    | with_reducible apply State.setTile_keep
    | with_reducible apply State.matFinish_keep
    | simp only [keep_mk]
    | with_reducible refine Keep.fst_eq (by assumption) ?_
    | split
    | dsimp only

theorem State.cmdGuard_keep {r s : State} (h : Keep r s) (n : Nat) (o : OutTile) : Keep r (State.cmdGuard s n o) := by
  unfold State.cmdGuard
  try dsimp only
  repeat' first
    | with_reducible assumption
    | with_reducible exact Keep.refl _
    | with_reducible apply State.bump_keep
    | with_reducible apply State.seqFaultEnd_keep
    | with_reducible apply State.seqWake_keep
    | with_reducible apply State.worse_keep
    | with_reducible apply State.setTile_keep
    | simp only [keep_mk]
    | split
    | dsimp only

theorem State.cmdRetire_keep {r s : State} (h : Keep r s) (n : Nat) (c : Line) (o : OutTile) : Keep r (State.cmdRetire s n c o) := by
  unfold State.cmdRetire
  try dsimp only
  repeat' first
    | with_reducible assumption
    | with_reducible exact Keep.refl _
    | with_reducible refine Keep.ite (fun _ => ?_) (fun _ => ?_)
    | with_reducible apply State.cmdGuard_keep
    | with_reducible apply State.tsWrite_keep
    | with_reducible apply State.retireCounts_keep
    | with_reducible apply State.offerPatch_keep
    | with_reducible apply State.seqFaultEnd_keep
    | with_reducible apply State.seqWake_keep
    | with_reducible apply State.worse_keep
    | with_reducible apply State.setTile_keep
    | simp only [keep_mk]
    | with_reducible refine Keep.foldl ?_ (fun _ _ _ => ?_)
    | with_reducible refine Keep.foldl_fst ?_ (fun _ _ _ => ?_)
    | split
    | dsimp only

theorem execOutputTileRetire_keep {r s : State} (h : Keep r s) (n : TileId) : KeepN r (execOutputTileRetire n s) := by
  unfold execOutputTileRetire
  try dsimp only
  repeat' first
    | with_reducible assumption
    | with_reducible exact Keep.refl _
    | with_reducible refine KeepN.next ?_
    | with_reducible apply State.cmdRetire_keep
    | with_reducible apply State.jobRetire_keep
    | simp only [keep_mk]
    | split
    | dsimp only

theorem execMatFault_keep {r s : State} (h : Keep r s) (n : TileId) : KeepN r (execMatFault n s) := by
  unfold execMatFault
  try dsimp only
  repeat' first
    | with_reducible assumption
    | with_reducible exact Keep.refl _
    | with_reducible refine KeepN.next ?_
    | with_reducible apply State.matStopAt_keep
    | simp only [keep_mk]
    | split
    | dsimp only

theorem State.jobMvp_keep {r s : State} (h : Keep r s) (n : Nat) (j : MatJob) : Keep r (State.jobMvp s n j) := by
  unfold State.jobMvp
  try dsimp only
  repeat' first
    | with_reducible assumption
    | with_reducible exact Keep.refl _
    | with_reducible refine Keep.ite (fun _ => ?_) (fun _ => ?_)
    | with_reducible apply State.readSegs_keep
    | with_reducible apply State.matStopAt_keep
    | with_reducible apply State.readBlock_keep
    | with_reducible apply State.readC_keep
    | with_reducible apply State.wrap_keep
    | with_reducible apply State.stage_keep
    | with_reducible apply State.jobRetire_keep
    | with_reducible apply State.noReplay_keep
    | with_reducible apply State.setTile_keep
    | simp only [keep_mk]
    | with_reducible refine Keep.fst_eq (by assumption) ?_
    | split
    | dsimp only

theorem State.cmdMvp_keep {r s : State} (h : Keep r s) (n : Nat) (c : Line) (rest : List Line) : Keep r (State.cmdMvp s n c rest) := by
  unfold State.cmdMvp
  try dsimp only
  repeat' first
    | with_reducible assumption
    | with_reducible exact Keep.refl _
    | with_reducible refine Keep.ite (fun _ => ?_) (fun _ => ?_)
    | with_reducible apply State.bankSet_keep
    | with_reducible apply State.seqFaultEnd_keep
    | with_reducible apply State.seqWake_keep
    | with_reducible apply State.setTile_keep
    | simp only [keep_mk]
    | split
    | dsimp only

theorem execMvpDescriptorEnd_keep {r s : State} (h : Keep r s) (n : TileId) : KeepN r (execMvpDescriptorEnd n s) := by
  unfold execMvpDescriptorEnd
  try dsimp only
  repeat' first
    | with_reducible assumption
    | with_reducible exact Keep.refl _
    | with_reducible refine Keep.ite (fun _ => ?_) (fun _ => ?_)
    | with_reducible refine KeepN.next ?_
    | with_reducible refine KeepN.ite (fun _ => ?_) (fun _ => ?_)
    | with_reducible apply State.jobMvp_keep
    | with_reducible apply State.cmdMvp_keep
    | simp only [keep_mk]
    | split
    | dsimp only

end Sys2Proof.Machine
end

