-- ==== Sys2Proof/Laws/KeepUmbelExt.lean ====
section
/-!
SUPPORT. The operations of Machine/UmbelExt.lean keep the queue, the canonical forms and the freshness of free values.
-/

namespace Sys2Proof.Machine

open Sys2Proof

theorem State.tsCheck_keep {r s : State} (h : Keep r s) (n : Nat) (as : List (Nat × Nat)) (len : Nat) (store : Bool) (readsOld : Bool) : KeepUO r (State.tsCheck s n as len store readsOld) := by
  unfold State.tsCheck
  try dsimp only
  repeat' first
    | with_reducible assumption
    | with_reducible exact Keep.refl _
    | with_reducible refine Keep.ite (fun _ => ?_) (fun _ => ?_)
    | with_reducible exact KeepUO.none
    | with_reducible refine KeepUO.some ?_
    | with_reducible refine KeepUO.ite (fun _ => ?_) (fun _ => ?_)
    | with_reducible refine KeepU.ok ?_
    | with_reducible refine KeepU.exc ?_
    | with_reducible refine KeepU.wait ?_
    | with_reducible refine KeepUO.some ?_
    | with_reducible refine KeepUO.ite (fun _ => ?_) (fun _ => ?_)
    | with_reducible exact KeepUO.none
    | with_reducible apply State.accessErr_keep
    | split
    | dsimp only

theorem alignExc_keep {r s : State} (h : Keep r s) (cause : Nat) (al : Nat) (as : List (Nat × Nat)) : KeepUO r (alignExc s cause al as) := by
  unfold alignExc
  try dsimp only
  repeat' first
    | with_reducible assumption
    | with_reducible exact Keep.refl _
    | with_reducible refine Keep.ite (fun _ => ?_) (fun _ => ?_)
    | with_reducible exact KeepUO.none
    | with_reducible refine KeepUO.some ?_
    | with_reducible refine KeepUO.ite (fun _ => ?_) (fun _ => ?_)
    | with_reducible refine KeepU.ok ?_
    | with_reducible refine KeepU.exc ?_
    | with_reducible refine KeepU.wait ?_
    | with_reducible refine KeepUO.some ?_
    | with_reducible refine KeepUO.ite (fun _ => ?_) (fun _ => ?_)
    | with_reducible exact KeepUO.none
    | split
    | dsimp only

theorem orElse2_keep {r : State} {a b : Option URes} {c : URes} (h1 : KeepUO r a) (h2 : KeepUO r b) (h3 : KeepU r c) :
    KeepU r (orElse2 a b c) := by
  unfold orElse2
  split
  · exact h1 _ rfl
  · split
    · exact h2 _ rfl
    · exact h3

theorem State.utLoad_keep {r s : State} (h : Keep r s) (n : Nat) (m : Umb) (w : W32) : KeepU r (State.utLoad s n m w) := by
  unfold State.utLoad
  try dsimp only
  repeat' first
    | with_reducible assumption
    | with_reducible exact Keep.refl _
    | with_reducible refine KeepU.ok ?_
    | with_reducible refine KeepU.exc ?_
    | with_reducible refine KeepU.wait ?_
    | with_reducible exact KeepU.hold
    | with_reducible exact KeepU.exit
    | with_reducible refine orElse2_keep ?_ ?_ ?_
    | with_reducible exact KeepUO.none
    | with_reducible refine KeepU.of_ok (by assumption) ?_
    | with_reducible refine KeepU.of_exc (by assumption) ?_
    | with_reducible refine KeepU.of_wait (by assumption) ?_
    | with_reducible apply orElse2_keep
    | with_reducible apply alignExc_keep
    | with_reducible apply State.tsCheck_keep
    | split
    | dsimp only

theorem State.utStore_keep {r s : State} (h : Keep r s) (n : Nat) (m : Umb) (w : W32) : KeepU r (State.utStore s n m w) := by
  unfold State.utStore
  try dsimp only
  repeat' first
    | with_reducible assumption
    | with_reducible exact Keep.refl _
    | with_reducible refine KeepU.ok ?_
    | with_reducible refine KeepU.exc ?_
    | with_reducible refine KeepU.wait ?_
    | with_reducible exact KeepU.hold
    | with_reducible exact KeepU.exit
    | with_reducible refine orElse2_keep ?_ ?_ ?_
    | with_reducible exact KeepUO.none
    | with_reducible refine KeepU.of_ok (by assumption) ?_
    | with_reducible refine KeepU.of_exc (by assumption) ?_
    | with_reducible refine KeepU.of_wait (by assumption) ?_
    | with_reducible apply orElse2_keep
    | with_reducible apply alignExc_keep
    | with_reducible apply State.tsCheck_keep
    | with_reducible apply URes.nop_keep
    | with_reducible apply State.tsWrite_keep
    | with_reducible refine Keep.foldl ?_ (fun _ _ _ => ?_)
    | with_reducible refine Keep.foldl_fst ?_ (fun _ _ _ => ?_)
    | split
    | dsimp only

theorem State.atomCount_keep {r s : State} (h : Keep r s) (n : Nat) (x : UExt) (ls : List Nat) : Keep r (State.atomCount s n x ls) := by
  unfold State.atomCount
  try dsimp only
  repeat' first
    | with_reducible assumption
    | with_reducible exact Keep.refl _
    | with_reducible refine Keep.ite (fun _ => ?_) (fun _ => ?_)
    | with_reducible apply State.wrap_keep
    | split
    | dsimp only

theorem State.tsAtomic_keep {r s : State} (h : Keep r s) (n : Nat) (m : Umb) (w : W32) (x : UExt) :
    KeepU r (State.tsAtomic s n m w x) := by
  unfold State.tsAtomic
  dsimp only
  refine KeepUO.elim (alignExc_keep h _ _ _) ?_
  · refine orElse2_keep (State.tsCheck_keep h _ _ _ _ _) (KeepUO.ite (fun _ => KeepUO.some h) (fun _ => KeepUO.none)) ?_
    exact Keep.foldl_fst (State.gapDirty_keep h _) (fun _ _ ht => State.atomCount_keep (State.tsWrite_keep ht _ _ _ _) _ _ _)

theorem State.ledgerRefuseAt_keep {r s : State} (h : Keep r s) (pa : Nat) : Keep r (State.ledgerRefuseAt s pa) := by
  unfold State.ledgerRefuseAt
  try dsimp only
  repeat' first
    | with_reducible assumption
    | with_reducible exact Keep.refl _
    | with_reducible refine Keep.ite (fun _ => ?_) (fun _ => ?_)
    | with_reducible apply State.bump_keep
    | simp only [keep_mk]
    | split
    | dsimp only

theorem State.atomEnt_keep {r s : State} (h : Keep r s) (n : Nat) (pa : Nat) (kind : Nat × Nat) (v : Nat) : Keep r (State.atomEnt s n pa kind v) := by
  unfold State.atomEnt
  try dsimp only
  repeat' first
    | with_reducible assumption
    | with_reducible exact Keep.refl _
    | with_reducible apply State.effectEnt_keep
    | with_reducible refine Keep.fst_eq (by assumption) ?_
    | split
    | dsimp only

theorem State.atomSend_keep {r s : State} (h : Keep r s) (n : Nat) (m : Umb) (w : W32) (x : UExt) (pa : Nat) (ls : List Nat) : Keep r (State.atomSend s n m w x pa ls) := by
  unfold State.atomSend
  try dsimp only
  repeat' first
    | with_reducible assumption
    | with_reducible exact Keep.refl _
    | with_reducible refine Keep.ite (fun _ => ?_) (fun _ => ?_)
    | with_reducible apply State.atomCount_keep
    | with_reducible apply State.gapDirty_keep
    | with_reducible apply State.fgnAtomic_keep
    | simp only [keep_mk]
    | split
    | dsimp only

theorem State.atomAt_keep {r s : State} (h : Keep r s) (n : Nat) (m : Umb) (w : W32) (x : UExt) (pa : Nat) (old : Nat) (ls : List Nat) : Keep r (State.atomAt s n m w x pa old ls) := by
  unfold State.atomAt
  try dsimp only
  repeat' first
    | with_reducible assumption
    | with_reducible exact Keep.refl _
    | with_reducible refine Keep.ite (fun _ => ?_) (fun _ => ?_)
    | with_reducible apply State.atomSend_keep
    | with_reducible apply State.atomCount_keep
    | with_reducible apply State.gapDirty_keep
    | with_reducible apply State.atomEnt_keep
    | with_reducible apply State.busWrite_keep
    | simp only [keep_mk]
    | with_reducible refine Keep.fst_eq (by assumption) ?_
    | split
    | dsimp only

theorem State.faddEnts_keep {r s : State} (h : Keep r s) (n : Nat) (m : Umb) (w : W32) (x : UExt) (as : List (Nat × Nat)) : Keep r (State.faddEnts s n m w x as) := by
  unfold State.faddEnts
  try dsimp only
  repeat' first
    | with_reducible assumption
    | with_reducible exact Keep.refl _
    | with_reducible refine Keep.ite (fun _ => ?_) (fun _ => ?_)
    | with_reducible apply State.atomEnt_keep
    | simp only [keep_mk]
    | with_reducible refine Keep.foldl ?_ (fun _ _ _ => ?_)
    | with_reducible refine Keep.foldl_fst ?_ (fun _ _ _ => ?_)
    | split
    | dsimp only

theorem State.atomRead_keep {r : State} (s : State) (n : Nat) (w : W32) (x : UExt)
    {acc : State × List (Nat × Nat) × List Nat × Bool} (h : Keep r acc.1) (g : Nat × List Nat) :
    Keep r (State.atomRead s n w x acc g).1 := by
  unfold State.atomRead
  refine Keep.fst_ite (fun _ => State.fresh_keep h) (fun _ => Keep.fst_ite (fun _ => h) (fun _ => ?_))
  split
  · next e => exact Keep.fst_eq e (State.busRead_keep h _ _ _ _)
  · next e => exact Keep.fst_eq e (State.busRead_keep h _ _ _ _)

theorem State.atomL1_keep {r s : State} (h : Keep r s) (n : Nat) (w : W32) (groups : List (Nat × List Nat)) : Keep r (State.atomL1 s n w groups) := by
  unfold State.atomL1
  try dsimp only
  repeat' first
    | with_reducible assumption
    | with_reducible exact Keep.refl _
    | with_reducible refine Keep.ite (fun _ => ?_) (fun _ => ?_)
    | with_reducible apply State.l1Inv_keep
    | with_reducible apply State.l1FlushAll_keep
    | with_reducible refine Keep.foldl ?_ (fun _ _ _ => ?_)
    | with_reducible refine Keep.foldl_fst ?_ (fun _ _ _ => ?_)
    | split
    | dsimp only

theorem State.memAtomic_keep {r s : State} (h : Keep r s) (n : Nat) (k : Kern) (m : Umb) (w : W32) (x : UExt)
    (resp : Option Answer) : KeepU r (State.memAtomic s n k m w x resp) := by
  unfold State.memAtomic
  dsimp only
  refine KeepUO.elim (alignExc_keep h _ _ _) ?_
  · split
    · next e => exact State.lanesXlate_keep h _ _ _ _ e
    · next e => exact State.lanesXlate_keep h _ _ _ _ e
    · next e => exact State.lanesXlate_keep h _ _ _ _ e
    · refine KeepU.ite (fun _ => h) (fun _ => KeepU.ite (fun _ => h) (fun _ => KeepU.ite (fun _ => ?_) (fun _ => ?_)))
      · exact Keep.foldl h (fun _ _ ht => State.ledgerRefuseAt_keep ht _)
      · split
        · exact h
        · refine KeepU.ite (fun _ => h) (fun _ => ?_)
          have h2 : ∀ g q : List (Nat × List Nat), Keep r (q.foldl (State.atomRead s n w x) (s.atomL1 n w g, [], [], false)).1 :=
            fun g q => Keep.foldl_fst (State.atomL1_keep h _ _ _) (fun _ _ ht => State.atomRead_keep s n w x ht _)
          refine KeepU.ite (fun _ => h2 _ _) (fun _ => Keep.ite (fun _ => State.l1InvAll_keep ?_ _) (fun _ => ?_))
          all_goals exact State.faddEnts_keep (Keep.foldl (h2 _ _) (fun _ _ ht => State.atomAt_keep ht _ _ _ _ _ _ _)) _ _ _ _ _

theorem State.uAtomic_keep {r s : State} (h : Keep r s) (n : Nat) (k : Kern) (m : Umb) (w : W32) (x : UExt) (resp : Option Answer) : KeepU r (State.uAtomic s n k m w x resp) := by
  unfold State.uAtomic
  try dsimp only
  repeat' first
    | with_reducible assumption
    | with_reducible exact Keep.refl _
    | with_reducible refine Keep.ite (fun _ => ?_) (fun _ => ?_)
    | with_reducible refine KeepU.ok ?_
    | with_reducible refine KeepU.exc ?_
    | with_reducible refine KeepU.wait ?_
    | with_reducible exact KeepU.hold
    | with_reducible exact KeepU.exit
    | with_reducible refine KeepU.ite (fun _ => ?_) (fun _ => ?_)
    | with_reducible refine KeepU.of_ok (by assumption) ?_
    | with_reducible refine KeepU.of_exc (by assumption) ?_
    | with_reducible refine KeepU.of_wait (by assumption) ?_
    | with_reducible apply State.tsAtomic_keep
    | with_reducible apply State.memAtomic_keep
    | split
    | dsimp only

theorem groupExc_keep {r s : State} (h : Keep r s) (k : Kern) (m : Umb) : KeepUO r (groupExc s k m) := by
  unfold groupExc
  try dsimp only
  repeat' first
    | with_reducible assumption
    | with_reducible exact Keep.refl _
    | with_reducible refine Keep.ite (fun _ => ?_) (fun _ => ?_)
    | with_reducible exact KeepUO.none
    | with_reducible refine KeepUO.some ?_
    | with_reducible refine KeepUO.ite (fun _ => ?_) (fun _ => ?_)
    | with_reducible refine KeepU.ok ?_
    | with_reducible refine KeepU.exc ?_
    | with_reducible refine KeepU.wait ?_
    | with_reducible refine KeepUO.some ?_
    | with_reducible refine KeepUO.ite (fun _ => ?_) (fun _ => ?_)
    | with_reducible exact KeepUO.none
    | split
    | dsimp only

theorem State.uUmma_keep {r s : State} (h : Keep r s) (n : Nat) (k : Kern) (m : Umb) (w : W32) :
    KeepU r (State.uUmma s n k m w) := by
  unfold State.uUmma
  have hg := groupExc_keep h k m
  split
  · next e => exact hg _ e
  · refine KeepU.ite (fun _ => h) (fun _ => orElse2_keep (State.tsCheck_keep h _ _ _ _ _) (State.tsCheck_keep h _ _ _ _ _) h)

theorem State.uShuffle_keep {r s : State} (h : Keep r s) (k : Kern) (m : Umb) (w : W32) (x : UExt) : KeepU r (State.uShuffle s k m w x) := by
  unfold State.uShuffle
  try dsimp only
  repeat' first
    | with_reducible assumption
    | with_reducible exact Keep.refl _
    | with_reducible refine Keep.ite (fun _ => ?_) (fun _ => ?_)
    | with_reducible refine KeepU.ok ?_
    | with_reducible refine KeepU.exc ?_
    | with_reducible refine KeepU.wait ?_
    | with_reducible exact KeepU.hold
    | with_reducible exact KeepU.exit
    | with_reducible refine KeepU.ite (fun _ => ?_) (fun _ => ?_)
    | with_reducible refine orElse2_keep ?_ ?_ ?_
    | with_reducible exact KeepUO.none
    | with_reducible refine KeepU.of_ok (by assumption) ?_
    | with_reducible refine KeepU.of_exc (by assumption) ?_
    | with_reducible refine KeepU.of_wait (by assumption) ?_
    | with_reducible apply orElse2_keep
    | with_reducible apply groupExc_keep
    | with_reducible apply URes.put_keep
    | split
    | dsimp only

theorem State.uBallot_keep {r s : State} (h : Keep r s) (k : Kern) (m : Umb) (w : W32) : KeepU r (State.uBallot s k m w) := by
  unfold State.uBallot
  try dsimp only
  repeat' first
    | with_reducible assumption
    | with_reducible exact Keep.refl _
    | with_reducible refine KeepU.ok ?_
    | with_reducible refine KeepU.exc ?_
    | with_reducible refine KeepU.wait ?_
    | with_reducible exact KeepU.hold
    | with_reducible exact KeepU.exit
    | with_reducible refine orElse2_keep ?_ ?_ ?_
    | with_reducible exact KeepUO.none
    | with_reducible refine KeepU.of_ok (by assumption) ?_
    | with_reducible refine KeepU.of_exc (by assumption) ?_
    | with_reducible refine KeepU.of_wait (by assumption) ?_
    | with_reducible apply orElse2_keep
    | with_reducible apply groupExc_keep
    | with_reducible apply URes.put_keep
    | split
    | dsimp only

theorem State.uCvtO_keep {r s : State} (h : Keep r s) (n : Nat) (m : Umb) (w : W32) : KeepU r (State.uCvtO s n m w) := by
  unfold State.uCvtO
  try dsimp only
  repeat' first
    | with_reducible assumption
    | with_reducible exact Keep.refl _
    | with_reducible refine Keep.ite (fun _ => ?_) (fun _ => ?_)
    | with_reducible refine KeepU.ok ?_
    | with_reducible refine KeepU.exc ?_
    | with_reducible refine KeepU.wait ?_
    | with_reducible exact KeepU.hold
    | with_reducible exact KeepU.exit
    | with_reducible refine KeepU.ite (fun _ => ?_) (fun _ => ?_)
    | with_reducible refine orElse2_keep ?_ ?_ ?_
    | with_reducible exact KeepUO.none
    | with_reducible refine KeepUO.some ?_
    | with_reducible refine KeepUO.ite (fun _ => ?_) (fun _ => ?_)
    | with_reducible exact KeepUO.none
    | with_reducible refine KeepU.of_ok (by assumption) ?_
    | with_reducible refine KeepU.of_exc (by assumption) ?_
    | with_reducible refine KeepU.of_wait (by assumption) ?_
    | with_reducible apply orElse2_keep
    | with_reducible apply alignExc_keep
    | with_reducible apply State.tsCheck_keep
    | with_reducible apply URes.nop_keep
    | with_reducible apply State.cvtCount_keep
    | with_reducible apply State.tsWrite_keep
    | simp only [keep_mk]
    | with_reducible refine Keep.foldl ?_ (fun _ _ _ => ?_)
    | with_reducible refine Keep.foldl_fst ?_ (fun _ _ _ => ?_)
    | split
    | dsimp only

theorem State.uCvtI_keep {r s : State} (h : Keep r s) (n : Nat) (m : Umb) (w : W32) : KeepU r (State.uCvtI s n m w) := by
  unfold State.uCvtI
  try dsimp only
  repeat' first
    | with_reducible assumption
    | with_reducible exact Keep.refl _
    | with_reducible refine Keep.ite (fun _ => ?_) (fun _ => ?_)
    | with_reducible refine KeepU.ok ?_
    | with_reducible refine KeepU.exc ?_
    | with_reducible refine KeepU.wait ?_
    | with_reducible exact KeepU.hold
    | with_reducible exact KeepU.exit
    | with_reducible refine KeepU.ite (fun _ => ?_) (fun _ => ?_)
    | with_reducible refine orElse2_keep ?_ ?_ ?_
    | with_reducible exact KeepUO.none
    | with_reducible refine KeepU.of_ok (by assumption) ?_
    | with_reducible refine KeepU.of_exc (by assumption) ?_
    | with_reducible refine KeepU.of_wait (by assumption) ?_
    | with_reducible apply orElse2_keep
    | with_reducible apply alignExc_keep
    | with_reducible apply State.tsCheck_keep
    | with_reducible apply URes.put_keep
    | with_reducible apply State.cvtCount_keep
    | with_reducible refine Keep.foldl ?_ (fun _ _ _ => ?_)
    | with_reducible refine Keep.foldl_fst ?_ (fun _ _ _ => ?_)
    | split
    | dsimp only

theorem State.uBar_keep {r s : State} (h : Keep r s) (m : Umb) : KeepU r (State.uBar s m) := by
  unfold State.uBar
  try dsimp only
  repeat' first
    | with_reducible assumption
    | with_reducible exact Keep.refl _
    | with_reducible refine Keep.ite (fun _ => ?_) (fun _ => ?_)
    | with_reducible refine KeepU.ok ?_
    | with_reducible refine KeepU.exc ?_
    | with_reducible refine KeepU.wait ?_
    | with_reducible exact KeepU.hold
    | with_reducible exact KeepU.exit
    | with_reducible refine KeepU.ite (fun _ => ?_) (fun _ => ?_)
    | split
    | dsimp only

theorem State.uSemPoll_keep {r s : State} (h : Keep r s) (n : Nat) (k : Kern) (m : Umb) (w : W32) : KeepU r (State.uSemPoll s n k m w) := by
  unfold State.uSemPoll
  try dsimp only
  repeat' first
    | with_reducible assumption
    | with_reducible exact Keep.refl _
    | with_reducible refine Keep.ite (fun _ => ?_) (fun _ => ?_)
    | with_reducible refine KeepU.ok ?_
    | with_reducible refine KeepU.exc ?_
    | with_reducible refine KeepU.wait ?_
    | with_reducible exact KeepU.hold
    | with_reducible exact KeepU.exit
    | with_reducible refine KeepU.ite (fun _ => ?_) (fun _ => ?_)
    | with_reducible refine KeepU.of_ok (by assumption) ?_
    | with_reducible refine KeepU.of_exc (by assumption) ?_
    | with_reducible refine KeepU.of_wait (by assumption) ?_
    | with_reducible apply State.vread_keep
    | with_reducible apply URes.put_keep
    | with_reducible apply State.l1InvAll_keep
    | simp only [keep_mk]
    | with_reducible refine Keep.fst_eq (by assumption) ?_
    | split
    | dsimp only

theorem State.uSemPost_keep {r s : State} (h : Keep r s) (n : Nat) (k : Kern) (m : Umb) (w : W32) (resp : Option Answer) : KeepU r (State.uSemPost s n k m w resp) := by
  unfold State.uSemPost
  try dsimp only
  repeat' first
    | with_reducible assumption
    | with_reducible exact Keep.refl _
    | with_reducible refine Keep.ite (fun _ => ?_) (fun _ => ?_)
    | with_reducible refine KeepU.ok ?_
    | with_reducible refine KeepU.exc ?_
    | with_reducible refine KeepU.wait ?_
    | with_reducible exact KeepU.hold
    | with_reducible exact KeepU.exit
    | with_reducible refine KeepU.ite (fun _ => ?_) (fun _ => ?_)
    | with_reducible refine KeepUO.some ?_
    | with_reducible refine KeepUO.ite (fun _ => ?_) (fun _ => ?_)
    | with_reducible exact KeepUO.none
    | with_reducible refine KeepU.of_ok (by assumption) ?_
    | with_reducible refine KeepU.of_exc (by assumption) ?_
    | with_reducible refine KeepU.of_wait (by assumption) ?_
    | with_reducible apply State.takeFault_keep
    | with_reducible apply State.l1Inv_keep
    | with_reducible apply State.l1FlushAll_keep
    | with_reducible apply State.semRelease_keep
    | with_reducible apply URes.nop_keep
    | simp only [keep_mk]
    | with_reducible refine Keep.fst_eq (by assumption) ?_
    | split
    | dsimp only

theorem State.putChunks_keep {r s : State} (h : Keep r s) (n : Nat) (p : Nat) (off : Nat) (a4 : Nat) : Keep r (State.putChunks s n p off a4).1 := by
  induction a4 generalizing s n p off with
  | zero => exact h
  | succ k ih =>
    unfold State.putChunks
    try dsimp only
    repeat' first
      | with_reducible assumption
      | with_reducible exact Keep.refl _
      | with_reducible refine Keep.ite (fun _ => ?_) (fun _ => ?_)
      | with_reducible refine Keep.fst_ite (fun _ => ?_) (fun _ => ?_)
      | with_reducible apply State.accessErr_keep
      | with_reducible apply State.sendChunk_keep
      | with_reducible apply ih
      | split
      | dsimp only

theorem State.getChunks_keep {r s : State} (h : Keep r s) (n : Nat) (p : Nat) (off : Nat) (a4 : Nat) : Keep r (State.getChunks s n p off a4).1 := by
  induction a4 generalizing s n p off with
  | zero => exact h
  | succ k ih =>
    unfold State.getChunks
    try dsimp only
    repeat' first
      | with_reducible assumption
      | with_reducible exact Keep.refl _
      | with_reducible apply State.tsWrite_keep
      | with_reducible apply State.takeChunk_keep
      | with_reducible apply ih
      | simp only [keep_mk]
      | split
      | dsimp only

theorem State.uStream_keep {r s : State} (h : Keep r s) (n : Nat) (m : Umb) (w : W32) (out : Bool) (try_ : Bool) : KeepU r (State.uStream s n m w out try_) := by
  unfold State.uStream
  try dsimp only
  repeat' first
    | with_reducible assumption
    | with_reducible exact Keep.refl _
    | with_reducible refine Keep.ite (fun _ => ?_) (fun _ => ?_)
    | with_reducible refine KeepU.ok ?_
    | with_reducible refine KeepU.exc ?_
    | with_reducible refine KeepU.wait ?_
    | with_reducible exact KeepU.hold
    | with_reducible exact KeepU.exit
    | with_reducible refine KeepU.ite (fun _ => ?_) (fun _ => ?_)
    | with_reducible refine orElse2_keep ?_ ?_ ?_
    | with_reducible exact KeepUO.none
    | with_reducible refine KeepUO.some ?_
    | with_reducible refine KeepUO.ite (fun _ => ?_) (fun _ => ?_)
    | with_reducible exact KeepUO.none
    | with_reducible refine KeepU.of_ok (by assumption) ?_
    | with_reducible refine KeepU.of_exc (by assumption) ?_
    | with_reducible refine KeepU.of_wait (by assumption) ?_
    | with_reducible apply State.putChunks_keep
    | with_reducible apply State.getChunks_keep
    | with_reducible apply URes.put_keep
    | with_reducible apply orElse2_keep
    | with_reducible apply alignExc_keep
    | with_reducible apply State.accessErr_keep
    | with_reducible apply State.tsCheck_keep
    | simp only [keep_mk]
    | with_reducible refine Keep.fst_eq (by assumption) ?_
    | split
    | dsimp only

theorem State.uEpopen_keep {r s : State} (h : Keep r s) (n : Nat) (u : Nat) (m : Umb) (w : W32) : KeepU r (State.uEpopen s n u m w) := by
  unfold State.uEpopen
  try dsimp only
  repeat' first
    | with_reducible assumption
    | with_reducible exact Keep.refl _
    | with_reducible refine Keep.ite (fun _ => ?_) (fun _ => ?_)
    | with_reducible refine KeepU.ok ?_
    | with_reducible refine KeepU.exc ?_
    | with_reducible refine KeepU.wait ?_
    | with_reducible exact KeepU.hold
    | with_reducible exact KeepU.exit
    | with_reducible refine KeepU.ite (fun _ => ?_) (fun _ => ?_)
    | with_reducible refine KeepU.of_ok (by assumption) ?_
    | with_reducible refine KeepU.of_exc (by assumption) ?_
    | with_reducible refine KeepU.of_wait (by assumption) ?_
    | with_reducible apply URes.put_keep
    | with_reducible apply State.setEpo_keep
    | with_reducible apply State.epoOpen_keep
    | simp only [keep_mk]
    | split
    | dsimp only

theorem State.uEpcommit_keep {r s : State} (h : Keep r s) (n : Nat) (u : Nat) (m : Umb) : KeepU r (State.uEpcommit s n u m) := by
  unfold State.uEpcommit
  try dsimp only
  repeat' first
    | with_reducible assumption
    | with_reducible exact Keep.refl _
    | with_reducible refine Keep.ite (fun _ => ?_) (fun _ => ?_)
    | with_reducible refine KeepU.ok ?_
    | with_reducible refine KeepU.exc ?_
    | with_reducible refine KeepU.wait ?_
    | with_reducible exact KeepU.hold
    | with_reducible exact KeepU.exit
    | with_reducible refine KeepU.ite (fun _ => ?_) (fun _ => ?_)
    | with_reducible refine KeepU.of_ok (by assumption) ?_
    | with_reducible refine KeepU.of_exc (by assumption) ?_
    | with_reducible refine KeepU.of_wait (by assumption) ?_
    | with_reducible apply State.epoSeal_keep
    | with_reducible apply URes.nop_keep
    | with_reducible apply State.commitPoint_keep
    | split
    | dsimp only

theorem State.uEpguard_keep {r s : State} (h : Keep r s) (n : Nat) (u : Nat) (m : Umb) (w : W32) : KeepU r (State.uEpguard s n u m w) := by
  unfold State.uEpguard
  try dsimp only
  repeat' first
    | with_reducible assumption
    | with_reducible exact Keep.refl _
    | with_reducible refine Keep.ite (fun _ => ?_) (fun _ => ?_)
    | with_reducible refine KeepU.ok ?_
    | with_reducible refine KeepU.exc ?_
    | with_reducible refine KeepU.wait ?_
    | with_reducible exact KeepU.hold
    | with_reducible exact KeepU.exit
    | with_reducible refine KeepU.ite (fun _ => ?_) (fun _ => ?_)
    | with_reducible refine KeepU.of_ok (by assumption) ?_
    | with_reducible refine KeepU.of_exc (by assumption) ?_
    | with_reducible refine KeepU.of_wait (by assumption) ?_
    | with_reducible apply URes.nop_keep
    | with_reducible apply State.setGuard_keep
    | split
    | dsimp only

theorem State.uL1Line_keep {r s : State} (h : Keep r s) (n : Nat) (k : Kern) (m : Umb) (w : W32) (f : State → Nat → State)
    (hf : ∀ t l, Keep r t → Keep r (f t l)) : KeepU r (State.uL1Line s n k m w f) := by
  unfold State.uL1Line
  extract_lets one
  refine KeepU.ite (fun _ => KeepU.wait h) (fun _ => URes.nop_keep (Keep.foldl h (fun t l ht => ?_)) m)
  show Keep r (one t l)
  dsimp only [one]
  split
  · exact Keep.ite (fun _ => hf _ _ ht) (fun _ => ht)
  · exact ht

theorem State.uExtSem_keep {r s : State} (h : Keep r s) (n : Nat) (u : Nat) (k : Kern) (m : Umb) (w : W32) (x : UExt) (resp : Option Answer) : KeepU r (State.uExtSem s n u k m w x resp) := by
  unfold State.uExtSem
  try dsimp only
  repeat' first
    | with_reducible assumption
    | with_reducible exact Keep.refl _
    | with_reducible refine KeepU.ok ?_
    | with_reducible refine KeepU.exc ?_
    | with_reducible refine KeepU.wait ?_
    | with_reducible exact KeepU.hold
    | with_reducible exact KeepU.exit
    | with_reducible refine KeepU.of_ok (by assumption) ?_
    | with_reducible refine KeepU.of_exc (by assumption) ?_
    | with_reducible refine KeepU.of_wait (by assumption) ?_
    | with_reducible apply State.utLoad_keep
    | with_reducible apply State.utStore_keep
    | with_reducible apply State.uAtomic_keep
    | with_reducible apply State.uUmma_keep
    | with_reducible apply State.uShuffle_keep
    | with_reducible apply State.uBallot_keep
    | with_reducible apply State.uCvtO_keep
    | with_reducible apply State.uCvtI_keep
    | with_reducible apply State.uBar_keep
    | with_reducible apply State.uSemPoll_keep
    | with_reducible apply State.uSemPost_keep
    | with_reducible apply State.uStream_keep
    | with_reducible apply State.uEpopen_keep
    | with_reducible apply State.uEpcommit_keep
    | with_reducible apply State.uEpguard_keep
    | with_reducible apply State.uL1Line_keep
    | with_reducible apply State.l1Flush_keep
    | with_reducible apply State.l1Inv_keep
    | with_reducible apply URes.nop_keep
    | with_reducible apply State.l1FlushAll_keep
    | with_reducible apply State.l1InvAll_keep
    | with_reducible intro _ _ _
    | with_reducible intro _ _
    | with_reducible intro _
    | simp only [keep_mk]
    | split
    | dsimp only

theorem State.uIssue_keep {r s : State} (h : Keep r s) (n : Nat) (u : Nat) (x : UExt) : Keep r (State.uIssue s n u x) := by
  unfold State.uIssue
  try dsimp only
  repeat' first
    | with_reducible assumption
    | with_reducible exact Keep.refl _
    | with_reducible refine Keep.ite (fun _ => ?_) (fun _ => ?_)
    | with_reducible refine KeepU.of_ok (by assumption) ?_
    | with_reducible refine KeepU.of_exc (by assumption) ?_
    | with_reducible refine KeepU.of_wait (by assumption) ?_
    | with_reducible apply State.uFetch_keep
    | with_reducible apply State.uApply_keep
    | with_reducible apply State.uExtSem_keep
    | with_reducible apply excOf_keep
    | simp only [keep_mk]
    | with_reducible refine Keep.fst_eq (by assumption) ?_
    | split
    | dsimp only

theorem execUmbelBaseInstruction_keep {r s : State} (h : Keep r s) (n : TileId) (u : UmbelId) : KeepN r (execUmbelBaseInstruction n u s) := by
  unfold execUmbelBaseInstruction
  try dsimp only
  repeat' first
    | with_reducible assumption
    | with_reducible exact Keep.refl _
    | with_reducible refine KeepN.next ?_
    | with_reducible apply State.uIssueBase_keep
    | split
    | dsimp only

theorem execRegisterFill_keep {r s : State} (h : Keep r s) (n : TileId) (u : UmbelId) : KeepN r (execRegisterFill n u s) := by
  unfold execRegisterFill
  try dsimp only
  repeat' first
    | with_reducible assumption
    | with_reducible exact Keep.refl _
    | with_reducible refine Keep.ite (fun _ => ?_) (fun _ => ?_)
    | with_reducible refine KeepN.next ?_
    | with_reducible refine KeepN.ite (fun _ => ?_) (fun _ => ?_)
    | with_reducible apply State.uFetch_keep
    | with_reducible apply State.wrap_keep
    | with_reducible apply State.setUmb_keep
    | simp only [keep_mk]
    | with_reducible refine Keep.fst_eq (by assumption) ?_
    | split
    | dsimp only

theorem execUmbelMemoryResponse_keep {r s : State} (h : Keep r s) (n : TileId) (u : UmbelId) (ans : Answer) : KeepN r (execUmbelMemoryResponse n u ans s) := by
  unfold execUmbelMemoryResponse
  try dsimp only
  repeat' first
    | with_reducible assumption
    | with_reducible exact Keep.refl _
    | with_reducible refine Keep.ite (fun _ => ?_) (fun _ => ?_)
    | with_reducible refine KeepN.next ?_
    | with_reducible refine KeepN.ite (fun _ => ?_) (fun _ => ?_)
    | with_reducible refine KeepU.of_ok (by assumption) ?_
    | with_reducible refine KeepU.of_exc (by assumption) ?_
    | with_reducible refine KeepU.of_wait (by assumption) ?_
    | with_reducible apply State.uFetch_keep
    | with_reducible apply State.uExtSem_keep
    | with_reducible apply State.uBase_keep
    | with_reducible apply State.uApply_keep
    | simp only [keep_mk]
    | with_reducible refine Keep.fst_eq (by assumption) ?_
    | split
    | dsimp only

theorem execUbarRelease_keep {r s : State} (h : Keep r s) (n : TileId) : KeepN r (execUbarRelease n s) := by
  unfold execUbarRelease
  try dsimp only
  repeat' first
    | with_reducible assumption
    | with_reducible exact Keep.refl _
    | with_reducible refine Keep.ite (fun _ => ?_) (fun _ => ?_)
    | with_reducible refine KeepN.next ?_
    | with_reducible refine KeepN.ite (fun _ => ?_) (fun _ => ?_)
    | with_reducible apply State.uStep_keep
    | simp only [keep_mk]
    | with_reducible refine Keep.foldl ?_ (fun _ _ _ => ?_)
    | with_reducible refine Keep.foldl_fst ?_ (fun _ _ _ => ?_)
    | split
    | dsimp only

theorem execSemaphorePoll_keep {r s : State} (h : Keep r s) (n : TileId) (who : Option UmbelId) : KeepN r (execSemaphorePoll n who s) := by
  unfold execSemaphorePoll
  try dsimp only
  repeat' first
    | with_reducible assumption
    | with_reducible exact Keep.refl _
    | with_reducible refine Keep.ite (fun _ => ?_) (fun _ => ?_)
    | with_reducible refine KeepN.next ?_
    | with_reducible refine KeepN.ite (fun _ => ?_) (fun _ => ?_)
    | with_reducible refine KeepU.of_ok (by assumption) ?_
    | with_reducible refine KeepU.of_exc (by assumption) ?_
    | with_reducible refine KeepU.of_wait (by assumption) ?_
    | with_reducible apply State.seqPoll_keep
    | with_reducible apply State.uFetch_keep
    | with_reducible apply State.uApply_keep
    | with_reducible apply State.uSemPoll_keep
    | simp only [keep_mk]
    | with_reducible refine Keep.fst_eq (by assumption) ?_
    | split
    | dsimp only

theorem execUtlb_keep {r s : State} (h : Keep r s) (n : TileId) (u : UmbelId) : KeepN r (execUtlb n u s) := by
  unfold execUtlb
  try dsimp only
  repeat' first
    | with_reducible assumption
    | with_reducible exact Keep.refl _
    | with_reducible refine KeepN.next ?_
    | with_reducible apply State.uIssue_keep
    | split
    | dsimp only

theorem execUtlh_keep {r s : State} (h : Keep r s) (n : TileId) (u : UmbelId) : KeepN r (execUtlh n u s) := by
  unfold execUtlh
  try dsimp only
  repeat' first
    | with_reducible assumption
    | with_reducible exact Keep.refl _
    | with_reducible refine KeepN.next ?_
    | with_reducible apply State.uIssue_keep
    | split
    | dsimp only

theorem execUtlw_keep {r s : State} (h : Keep r s) (n : TileId) (u : UmbelId) : KeepN r (execUtlw n u s) := by
  unfold execUtlw
  try dsimp only
  repeat' first
    | with_reducible assumption
    | with_reducible exact Keep.refl _
    | with_reducible refine KeepN.next ?_
    | with_reducible apply State.uIssue_keep
    | split
    | dsimp only

theorem execUtld_keep {r s : State} (h : Keep r s) (n : TileId) (u : UmbelId) : KeepN r (execUtld n u s) := by
  unfold execUtld
  try dsimp only
  repeat' first
    | with_reducible assumption
    | with_reducible exact Keep.refl _
    | with_reducible refine KeepN.next ?_
    | with_reducible apply State.uIssue_keep
    | split
    | dsimp only

theorem execUtlbu_keep {r s : State} (h : Keep r s) (n : TileId) (u : UmbelId) : KeepN r (execUtlbu n u s) := by
  unfold execUtlbu
  try dsimp only
  repeat' first
    | with_reducible assumption
    | with_reducible exact Keep.refl _
    | with_reducible refine KeepN.next ?_
    | with_reducible apply State.uIssue_keep
    | split
    | dsimp only

theorem execUtlhu_keep {r s : State} (h : Keep r s) (n : TileId) (u : UmbelId) : KeepN r (execUtlhu n u s) := by
  unfold execUtlhu
  try dsimp only
  repeat' first
    | with_reducible assumption
    | with_reducible exact Keep.refl _
    | with_reducible refine KeepN.next ?_
    | with_reducible apply State.uIssue_keep
    | split
    | dsimp only

theorem execUtlwu_keep {r s : State} (h : Keep r s) (n : TileId) (u : UmbelId) : KeepN r (execUtlwu n u s) := by
  unfold execUtlwu
  try dsimp only
  repeat' first
    | with_reducible assumption
    | with_reducible exact Keep.refl _
    | with_reducible refine KeepN.next ?_
    | with_reducible apply State.uIssue_keep
    | split
    | dsimp only

theorem execUtsb_keep {r s : State} (h : Keep r s) (n : TileId) (u : UmbelId) : KeepN r (execUtsb n u s) := by
  unfold execUtsb
  try dsimp only
  repeat' first
    | with_reducible assumption
    | with_reducible exact Keep.refl _
    | with_reducible refine KeepN.next ?_
    | with_reducible apply State.uIssue_keep
    | split
    | dsimp only

theorem execUtsh_keep {r s : State} (h : Keep r s) (n : TileId) (u : UmbelId) : KeepN r (execUtsh n u s) := by
  unfold execUtsh
  try dsimp only
  repeat' first
    | with_reducible assumption
    | with_reducible exact Keep.refl _
    | with_reducible refine KeepN.next ?_
    | with_reducible apply State.uIssue_keep
    | split
    | dsimp only

theorem execUtsw_keep {r s : State} (h : Keep r s) (n : TileId) (u : UmbelId) : KeepN r (execUtsw n u s) := by
  unfold execUtsw
  try dsimp only
  repeat' first
    | with_reducible assumption
    | with_reducible exact Keep.refl _
    | with_reducible refine KeepN.next ?_
    | with_reducible apply State.uIssue_keep
    | split
    | dsimp only

theorem execUtsd_keep {r s : State} (h : Keep r s) (n : TileId) (u : UmbelId) : KeepN r (execUtsd n u s) := by
  unfold execUtsd
  try dsimp only
  repeat' first
    | with_reducible assumption
    | with_reducible exact Keep.refl _
    | with_reducible refine KeepN.next ?_
    | with_reducible apply State.uIssue_keep
    | split
    | dsimp only

theorem execUaadd_keep {r s : State} (h : Keep r s) (n : TileId) (u : UmbelId) : KeepN r (execUaadd n u s) := by
  unfold execUaadd
  try dsimp only
  repeat' first
    | with_reducible assumption
    | with_reducible exact Keep.refl _
    | with_reducible refine KeepN.next ?_
    | with_reducible apply State.uIssue_keep
    | split
    | dsimp only

theorem execUaswap_keep {r s : State} (h : Keep r s) (n : TileId) (u : UmbelId) : KeepN r (execUaswap n u s) := by
  unfold execUaswap
  try dsimp only
  repeat' first
    | with_reducible assumption
    | with_reducible exact Keep.refl _
    | with_reducible refine KeepN.next ?_
    | with_reducible apply State.uIssue_keep
    | split
    | dsimp only

theorem execUacas_keep {r s : State} (h : Keep r s) (n : TileId) (u : UmbelId) : KeepN r (execUacas n u s) := by
  unfold execUacas
  try dsimp only
  repeat' first
    | with_reducible assumption
    | with_reducible exact Keep.refl _
    | with_reducible refine KeepN.next ?_
    | with_reducible apply State.uIssue_keep
    | split
    | dsimp only

theorem execUaxor_keep {r s : State} (h : Keep r s) (n : TileId) (u : UmbelId) : KeepN r (execUaxor n u s) := by
  unfold execUaxor
  try dsimp only
  repeat' first
    | with_reducible assumption
    | with_reducible exact Keep.refl _
    | with_reducible refine KeepN.next ?_
    | with_reducible apply State.uIssue_keep
    | split
    | dsimp only

theorem execUaor_keep {r s : State} (h : Keep r s) (n : TileId) (u : UmbelId) : KeepN r (execUaor n u s) := by
  unfold execUaor
  try dsimp only
  repeat' first
    | with_reducible assumption
    | with_reducible exact Keep.refl _
    | with_reducible refine KeepN.next ?_
    | with_reducible apply State.uIssue_keep
    | split
    | dsimp only

theorem execUaand_keep {r s : State} (h : Keep r s) (n : TileId) (u : UmbelId) : KeepN r (execUaand n u s) := by
  unfold execUaand
  try dsimp only
  repeat' first
    | with_reducible assumption
    | with_reducible exact Keep.refl _
    | with_reducible refine KeepN.next ?_
    | with_reducible apply State.uIssue_keep
    | split
    | dsimp only

theorem execUamin_keep {r s : State} (h : Keep r s) (n : TileId) (u : UmbelId) : KeepN r (execUamin n u s) := by
  unfold execUamin
  try dsimp only
  repeat' first
    | with_reducible assumption
    | with_reducible exact Keep.refl _
    | with_reducible refine KeepN.next ?_
    | with_reducible apply State.uIssue_keep
    | split
    | dsimp only

theorem execUamax_keep {r s : State} (h : Keep r s) (n : TileId) (u : UmbelId) : KeepN r (execUamax n u s) := by
  unfold execUamax
  try dsimp only
  repeat' first
    | with_reducible assumption
    | with_reducible exact Keep.refl _
    | with_reducible refine KeepN.next ?_
    | with_reducible apply State.uIssue_keep
    | split
    | dsimp only

theorem execUaminu_keep {r s : State} (h : Keep r s) (n : TileId) (u : UmbelId) : KeepN r (execUaminu n u s) := by
  unfold execUaminu
  try dsimp only
  repeat' first
    | with_reducible assumption
    | with_reducible exact Keep.refl _
    | with_reducible refine KeepN.next ?_
    | with_reducible apply State.uIssue_keep
    | split
    | dsimp only

theorem execUamaxu_keep {r s : State} (h : Keep r s) (n : TileId) (u : UmbelId) : KeepN r (execUamaxu n u s) := by
  unfold execUamaxu
  try dsimp only
  repeat' first
    | with_reducible assumption
    | with_reducible exact Keep.refl _
    | with_reducible refine KeepN.next ?_
    | with_reducible apply State.uIssue_keep
    | split
    | dsimp only

theorem execUfadd_keep {r s : State} (h : Keep r s) (n : TileId) (u : UmbelId) : KeepN r (execUfadd n u s) := by
  unfold execUfadd
  try dsimp only
  repeat' first
    | with_reducible assumption
    | with_reducible exact Keep.refl _
    | with_reducible refine KeepN.next ?_
    | with_reducible apply State.uIssue_keep
    | split
    | dsimp only

theorem execUmma_keep {r s : State} (h : Keep r s) (n : TileId) (u : UmbelId) : KeepN r (execUmma n u s) := by
  unfold execUmma
  try dsimp only
  repeat' first
    | with_reducible assumption
    | with_reducible exact Keep.refl _
    | with_reducible refine KeepN.next ?_
    | with_reducible apply State.uIssue_keep
    | split
    | dsimp only

theorem execUshflIdx_keep {r s : State} (h : Keep r s) (n : TileId) (u : UmbelId) : KeepN r (execUshflIdx n u s) := by
  unfold execUshflIdx
  try dsimp only
  repeat' first
    | with_reducible assumption
    | with_reducible exact Keep.refl _
    | with_reducible refine KeepN.next ?_
    | with_reducible apply State.uIssue_keep
    | split
    | dsimp only

theorem execUshflXor_keep {r s : State} (h : Keep r s) (n : TileId) (u : UmbelId) : KeepN r (execUshflXor n u s) := by
  unfold execUshflXor
  try dsimp only
  repeat' first
    | with_reducible assumption
    | with_reducible exact Keep.refl _
    | with_reducible refine KeepN.next ?_
    | with_reducible apply State.uIssue_keep
    | split
    | dsimp only

theorem execUshflUp_keep {r s : State} (h : Keep r s) (n : TileId) (u : UmbelId) : KeepN r (execUshflUp n u s) := by
  unfold execUshflUp
  try dsimp only
  repeat' first
    | with_reducible assumption
    | with_reducible exact Keep.refl _
    | with_reducible refine KeepN.next ?_
    | with_reducible apply State.uIssue_keep
    | split
    | dsimp only

theorem execUshflDown_keep {r s : State} (h : Keep r s) (n : TileId) (u : UmbelId) : KeepN r (execUshflDown n u s) := by
  unfold execUshflDown
  try dsimp only
  repeat' first
    | with_reducible assumption
    | with_reducible exact Keep.refl _
    | with_reducible refine KeepN.next ?_
    | with_reducible apply State.uIssue_keep
    | split
    | dsimp only

theorem execUshflBcast_keep {r s : State} (h : Keep r s) (n : TileId) (u : UmbelId) : KeepN r (execUshflBcast n u s) := by
  unfold execUshflBcast
  try dsimp only
  repeat' first
    | with_reducible assumption
    | with_reducible exact Keep.refl _
    | with_reducible refine KeepN.next ?_
    | with_reducible apply State.uIssue_keep
    | split
    | dsimp only

theorem execUballot_keep {r s : State} (h : Keep r s) (n : TileId) (u : UmbelId) : KeepN r (execUballot n u s) := by
  unfold execUballot
  try dsimp only
  repeat' first
    | with_reducible assumption
    | with_reducible exact Keep.refl _
    | with_reducible refine KeepN.next ?_
    | with_reducible apply State.uIssue_keep
    | split
    | dsimp only

theorem execUcvtO_keep {r s : State} (h : Keep r s) (n : TileId) (u : UmbelId) : KeepN r (execUcvtO n u s) := by
  unfold execUcvtO
  try dsimp only
  repeat' first
    | with_reducible assumption
    | with_reducible exact Keep.refl _
    | with_reducible refine KeepN.next ?_
    | with_reducible apply State.uIssue_keep
    | split
    | dsimp only

theorem execUcvtI_keep {r s : State} (h : Keep r s) (n : TileId) (u : UmbelId) : KeepN r (execUcvtI n u s) := by
  unfold execUcvtI
  try dsimp only
  repeat' first
    | with_reducible assumption
    | with_reducible exact Keep.refl _
    | with_reducible refine KeepN.next ?_
    | with_reducible apply State.uIssue_keep
    | split
    | dsimp only

theorem execUbar_keep {r s : State} (h : Keep r s) (n : TileId) (u : UmbelId) : KeepN r (execUbar n u s) := by
  unfold execUbar
  try dsimp only
  repeat' first
    | with_reducible assumption
    | with_reducible exact Keep.refl _
    | with_reducible refine KeepN.next ?_
    | with_reducible apply State.uIssue_keep
    | split
    | dsimp only

theorem execUsemwait_keep {r s : State} (h : Keep r s) (n : TileId) (u : UmbelId) : KeepN r (execUsemwait n u s) := by
  unfold execUsemwait
  try dsimp only
  repeat' first
    | with_reducible assumption
    | with_reducible exact Keep.refl _
    | with_reducible refine KeepN.next ?_
    | with_reducible apply State.uIssue_keep
    | split
    | dsimp only

theorem execUsempost_keep {r s : State} (h : Keep r s) (n : TileId) (u : UmbelId) : KeepN r (execUsempost n u s) := by
  unfold execUsempost
  try dsimp only
  repeat' first
    | with_reducible assumption
    | with_reducible exact Keep.refl _
    | with_reducible refine KeepN.next ?_
    | with_reducible apply State.uIssue_keep
    | split
    | dsimp only

theorem execUsput_keep {r s : State} (h : Keep r s) (n : TileId) (u : UmbelId) : KeepN r (execUsput n u s) := by
  unfold execUsput
  try dsimp only
  repeat' first
    | with_reducible assumption
    | with_reducible exact Keep.refl _
    | with_reducible refine KeepN.next ?_
    | with_reducible apply State.uIssue_keep
    | split
    | dsimp only

theorem execUsget_keep {r s : State} (h : Keep r s) (n : TileId) (u : UmbelId) : KeepN r (execUsget n u s) := by
  unfold execUsget
  try dsimp only
  repeat' first
    | with_reducible assumption
    | with_reducible exact Keep.refl _
    | with_reducible refine KeepN.next ?_
    | with_reducible apply State.uIssue_keep
    | split
    | dsimp only

theorem execUstryput_keep {r s : State} (h : Keep r s) (n : TileId) (u : UmbelId) : KeepN r (execUstryput n u s) := by
  unfold execUstryput
  try dsimp only
  repeat' first
    | with_reducible assumption
    | with_reducible exact Keep.refl _
    | with_reducible refine KeepN.next ?_
    | with_reducible apply State.uIssue_keep
    | split
    | dsimp only

theorem execUstryget_keep {r s : State} (h : Keep r s) (n : TileId) (u : UmbelId) : KeepN r (execUstryget n u s) := by
  unfold execUstryget
  try dsimp only
  repeat' first
    | with_reducible assumption
    | with_reducible exact Keep.refl _
    | with_reducible refine KeepN.next ?_
    | with_reducible apply State.uIssue_keep
    | split
    | dsimp only

theorem State.umb0Wait_keep {r s : State} (h : Keep r s) (n : Nat) : Keep r (State.umb0Wait s n) := by
  unfold State.umb0Wait
  try dsimp only
  repeat' first
    | with_reducible assumption
    | with_reducible exact Keep.refl _
    | with_reducible apply State.setUmb_keep
    | simp only [keep_mk]
    | split
    | dsimp only

theorem execUepopen_keep {r s : State} (h : Keep r s) (n : TileId) (u : UmbelId) : KeepN r (execUepopen n u s) := by
  unfold execUepopen
  try dsimp only
  repeat' first
    | with_reducible assumption
    | with_reducible exact Keep.refl _
    | with_reducible refine Keep.ite (fun _ => ?_) (fun _ => ?_)
    | with_reducible refine KeepN.next ?_
    | with_reducible refine KeepN.ite (fun _ => ?_) (fun _ => ?_)
    | with_reducible apply State.uIssue_keep
    | with_reducible apply State.umb0Wait_keep
    | split
    | dsimp only

theorem execUepcommit_keep {r s : State} (h : Keep r s) (n : TileId) (u : UmbelId) : KeepN r (execUepcommit n u s) := by
  unfold execUepcommit
  try dsimp only
  repeat' first
    | with_reducible assumption
    | with_reducible exact Keep.refl _
    | with_reducible refine Keep.ite (fun _ => ?_) (fun _ => ?_)
    | with_reducible refine KeepN.next ?_
    | with_reducible refine KeepN.ite (fun _ => ?_) (fun _ => ?_)
    | with_reducible apply State.uIssue_keep
    | with_reducible apply State.umb0Wait_keep
    | split
    | dsimp only

theorem execUepguard_keep {r s : State} (h : Keep r s) (n : TileId) (u : UmbelId) : KeepN r (execUepguard n u s) := by
  unfold execUepguard
  try dsimp only
  repeat' first
    | with_reducible assumption
    | with_reducible exact Keep.refl _
    | with_reducible refine KeepN.next ?_
    | with_reducible apply State.uIssue_keep
    | split
    | dsimp only

theorem execUl1flush_keep {r s : State} (h : Keep r s) (n : TileId) (u : UmbelId) : KeepN r (execUl1flush n u s) := by
  unfold execUl1flush
  try dsimp only
  repeat' first
    | with_reducible assumption
    | with_reducible exact Keep.refl _
    | with_reducible refine KeepN.next ?_
    | with_reducible apply State.uIssue_keep
    | split
    | dsimp only

theorem execUl1inv_keep {r s : State} (h : Keep r s) (n : TileId) (u : UmbelId) : KeepN r (execUl1inv n u s) := by
  unfold execUl1inv
  try dsimp only
  repeat' first
    | with_reducible assumption
    | with_reducible exact Keep.refl _
    | with_reducible refine KeepN.next ?_
    | with_reducible apply State.uIssue_keep
    | split
    | dsimp only

theorem execUl1flushall_keep {r s : State} (h : Keep r s) (n : TileId) (u : UmbelId) : KeepN r (execUl1flushall n u s) := by
  unfold execUl1flushall
  try dsimp only
  repeat' first
    | with_reducible assumption
    | with_reducible exact Keep.refl _
    | with_reducible refine KeepN.next ?_
    | with_reducible apply State.uIssue_keep
    | split
    | dsimp only

theorem execUl1invall_keep {r s : State} (h : Keep r s) (n : TileId) (u : UmbelId) : KeepN r (execUl1invall n u s) := by
  unfold execUl1invall
  try dsimp only
  repeat' first
    | with_reducible assumption
    | with_reducible exact Keep.refl _
    | with_reducible refine KeepN.next ?_
    | with_reducible apply State.uIssue_keep
    | split
    | dsimp only

end Sys2Proof.Machine
end

