-- ==== Sys2Proof/Laws/State.lean ====
section
/-!
SUPPORT. What each update of the state leaves of each of its fields, so that no proof unfolds an update.
-/

namespace Sys2Proof.Machine

open Sys2Proof

/-! ### setReg -/

@[simp] theorem setReg_regs (s : State) (a : Nat) (v : Word) : (s.setReg a v).regs = mset (regReset a) s.regs a v := rfl
@[simp] theorem setReg_pending (s : State) (a : Nat) (v : Word) : (s.setReg a v).pending = s.pending := rfl
@[simp] theorem setReg_mem (s : State) (a : Nat) (v : Word) : (s.setReg a v).mem = s.mem := rfl
@[simp] theorem setReg_poison (s : State) (a : Nat) (v : Word) : (s.setReg a v).poison = s.poison := rfl
@[simp] theorem setReg_hostMem (s : State) (a : Nat) (v : Word) : (s.setReg a v).hostMem = s.hostMem := rfl
@[simp] theorem setReg_sent (s : State) (a : Nat) (v : Word) : (s.setReg a v).sent = s.sent := rfl
@[simp] theorem setReg_scratch (s : State) (a : Nat) (v : Word) : (s.setReg a v).scratch = s.scratch := rfl
@[simp] theorem setReg_gdirty (s : State) (a : Nat) (v : Word) : (s.setReg a v).gdirty = s.gdirty := rfl
@[simp] theorem setReg_hbm (s : State) (a : Nat) (v : Word) : (s.setReg a v).hbm = s.hbm := rfl
@[simp] theorem setReg_cores (s : State) (a : Nat) (v : Word) : (s.setReg a v).cores = s.cores := rfl
@[simp] theorem setReg_cra (s : State) (a : Nat) (v : Word) : (s.setReg a v).cra = s.cra := rfl
@[simp] theorem setReg_pwr (s : State) (a : Nat) (v : Word) : (s.setReg a v).pwr = s.pwr := rfl
@[simp] theorem setReg_spw (s : State) (a : Nat) (v : Word) : (s.setReg a v).spw = s.spw := rfl
@[simp] theorem setReg_ledger (s : State) (a : Nat) (v : Word) : (s.setReg a v).ledger = s.ledger := rfl
@[simp] theorem setReg_loupe (s : State) (a : Nat) (v : Word) : (s.setReg a v).loupe = s.loupe := rfl
@[simp] theorem setReg_tiles (s : State) (a : Nat) (v : Word) : (s.setReg a v).tiles = s.tiles := rfl
@[simp] theorem setReg_mesh (s : State) (a : Nat) (v : Word) : (s.setReg a v).mesh = s.mesh := rfl
@[simp] theorem setReg_prsPorts (s : State) (a : Nat) (v : Word) : (s.setReg a v).prsPorts = s.prsPorts := rfl
@[simp] theorem setReg_releases (s : State) (a : Nat) (v : Word) : (s.setReg a v).releases = s.releases := rfl
@[simp] theorem setReg_facets (s : State) (a : Nat) (v : Word) : (s.setReg a v).facets = s.facets := rfl
@[simp] theorem setReg_fgn (s : State) (a : Nat) (v : Word) : (s.setReg a v).fgn = s.fgn := rfl
@[simp] theorem setReg_prs (s : State) (a : Nat) (v : Word) : (s.setReg a v).prs = s.prs := rfl
@[simp] theorem setReg_caches (s : State) (a : Nat) (v : Word) : (s.setReg a v).caches = s.caches := rfl
@[simp] theorem setReg_coh (s : State) (a : Nat) (v : Word) : (s.setReg a v).coh = s.coh := rfl
@[simp] theorem setReg_xlt (s : State) (a : Nat) (v : Word) : (s.setReg a v).xlt = s.xlt := rfl
@[simp] theorem setReg_imsic (s : State) (a : Nat) (v : Word) : (s.setReg a v).imsic = s.imsic := rfl
@[simp] theorem setReg_hif (s : State) (a : Nat) (v : Word) : (s.setReg a v).hif = s.hif := rfl
@[simp] theorem setReg_mgt (s : State) (a : Nat) (v : Word) : (s.setReg a v).mgt = s.mgt := rfl
@[simp] theorem setReg_yar (s : State) (a : Nat) (v : Word) : (s.setReg a v).yar = s.yar := rfl
@[simp] theorem setReg_answer (s : State) (a : Nat) (v : Word) : (s.setReg a v).answer = s.answer := rfl
@[simp] theorem setReg_freeCtr (s : State) (a : Nat) (v : Word) : (s.setReg a v).freeCtr = s.freeCtr := rfl

/-! ### wr -/

@[simp] theorem wr_regs (s : State) (a : Nat) (f : Fld) (v : Nat) : (s.wr a f v).regs = mset (regReset a) s.regs a (fset (s.reg a) f v) := rfl
@[simp] theorem wr_pending (s : State) (a : Nat) (f : Fld) (v : Nat) : (s.wr a f v).pending = s.pending := rfl
@[simp] theorem wr_mem (s : State) (a : Nat) (f : Fld) (v : Nat) : (s.wr a f v).mem = s.mem := rfl
@[simp] theorem wr_poison (s : State) (a : Nat) (f : Fld) (v : Nat) : (s.wr a f v).poison = s.poison := rfl
@[simp] theorem wr_hostMem (s : State) (a : Nat) (f : Fld) (v : Nat) : (s.wr a f v).hostMem = s.hostMem := rfl
@[simp] theorem wr_sent (s : State) (a : Nat) (f : Fld) (v : Nat) : (s.wr a f v).sent = s.sent := rfl
@[simp] theorem wr_scratch (s : State) (a : Nat) (f : Fld) (v : Nat) : (s.wr a f v).scratch = s.scratch := rfl
@[simp] theorem wr_gdirty (s : State) (a : Nat) (f : Fld) (v : Nat) : (s.wr a f v).gdirty = s.gdirty := rfl
@[simp] theorem wr_hbm (s : State) (a : Nat) (f : Fld) (v : Nat) : (s.wr a f v).hbm = s.hbm := rfl
@[simp] theorem wr_cores (s : State) (a : Nat) (f : Fld) (v : Nat) : (s.wr a f v).cores = s.cores := rfl
@[simp] theorem wr_cra (s : State) (a : Nat) (f : Fld) (v : Nat) : (s.wr a f v).cra = s.cra := rfl
@[simp] theorem wr_pwr (s : State) (a : Nat) (f : Fld) (v : Nat) : (s.wr a f v).pwr = s.pwr := rfl
@[simp] theorem wr_spw (s : State) (a : Nat) (f : Fld) (v : Nat) : (s.wr a f v).spw = s.spw := rfl
@[simp] theorem wr_ledger (s : State) (a : Nat) (f : Fld) (v : Nat) : (s.wr a f v).ledger = s.ledger := rfl
@[simp] theorem wr_loupe (s : State) (a : Nat) (f : Fld) (v : Nat) : (s.wr a f v).loupe = s.loupe := rfl
@[simp] theorem wr_tiles (s : State) (a : Nat) (f : Fld) (v : Nat) : (s.wr a f v).tiles = s.tiles := rfl
@[simp] theorem wr_mesh (s : State) (a : Nat) (f : Fld) (v : Nat) : (s.wr a f v).mesh = s.mesh := rfl
@[simp] theorem wr_prsPorts (s : State) (a : Nat) (f : Fld) (v : Nat) : (s.wr a f v).prsPorts = s.prsPorts := rfl
@[simp] theorem wr_releases (s : State) (a : Nat) (f : Fld) (v : Nat) : (s.wr a f v).releases = s.releases := rfl
@[simp] theorem wr_facets (s : State) (a : Nat) (f : Fld) (v : Nat) : (s.wr a f v).facets = s.facets := rfl
@[simp] theorem wr_fgn (s : State) (a : Nat) (f : Fld) (v : Nat) : (s.wr a f v).fgn = s.fgn := rfl
@[simp] theorem wr_prs (s : State) (a : Nat) (f : Fld) (v : Nat) : (s.wr a f v).prs = s.prs := rfl
@[simp] theorem wr_caches (s : State) (a : Nat) (f : Fld) (v : Nat) : (s.wr a f v).caches = s.caches := rfl
@[simp] theorem wr_coh (s : State) (a : Nat) (f : Fld) (v : Nat) : (s.wr a f v).coh = s.coh := rfl
@[simp] theorem wr_xlt (s : State) (a : Nat) (f : Fld) (v : Nat) : (s.wr a f v).xlt = s.xlt := rfl
@[simp] theorem wr_imsic (s : State) (a : Nat) (f : Fld) (v : Nat) : (s.wr a f v).imsic = s.imsic := rfl
@[simp] theorem wr_hif (s : State) (a : Nat) (f : Fld) (v : Nat) : (s.wr a f v).hif = s.hif := rfl
@[simp] theorem wr_mgt (s : State) (a : Nat) (f : Fld) (v : Nat) : (s.wr a f v).mgt = s.mgt := rfl
@[simp] theorem wr_yar (s : State) (a : Nat) (f : Fld) (v : Nat) : (s.wr a f v).yar = s.yar := rfl
@[simp] theorem wr_answer (s : State) (a : Nat) (f : Fld) (v : Nat) : (s.wr a f v).answer = s.answer := rfl
@[simp] theorem wr_freeCtr (s : State) (a : Nat) (f : Fld) (v : Nat) : (s.wr a f v).freeCtr = s.freeCtr := rfl

/-! ### bumpBy -/

@[simp] theorem bumpBy_pending (s : State) (a : Nat) (f : Fld) (n : Nat) : (s.bumpBy a f n).pending = s.pending := rfl
@[simp] theorem bumpBy_mem (s : State) (a : Nat) (f : Fld) (n : Nat) : (s.bumpBy a f n).mem = s.mem := rfl
@[simp] theorem bumpBy_poison (s : State) (a : Nat) (f : Fld) (n : Nat) : (s.bumpBy a f n).poison = s.poison := rfl
@[simp] theorem bumpBy_hostMem (s : State) (a : Nat) (f : Fld) (n : Nat) : (s.bumpBy a f n).hostMem = s.hostMem := rfl
@[simp] theorem bumpBy_sent (s : State) (a : Nat) (f : Fld) (n : Nat) : (s.bumpBy a f n).sent = s.sent := rfl
@[simp] theorem bumpBy_scratch (s : State) (a : Nat) (f : Fld) (n : Nat) : (s.bumpBy a f n).scratch = s.scratch := rfl
@[simp] theorem bumpBy_gdirty (s : State) (a : Nat) (f : Fld) (n : Nat) : (s.bumpBy a f n).gdirty = s.gdirty := rfl
@[simp] theorem bumpBy_hbm (s : State) (a : Nat) (f : Fld) (n : Nat) : (s.bumpBy a f n).hbm = s.hbm := rfl
@[simp] theorem bumpBy_cores (s : State) (a : Nat) (f : Fld) (n : Nat) : (s.bumpBy a f n).cores = s.cores := rfl
@[simp] theorem bumpBy_cra (s : State) (a : Nat) (f : Fld) (n : Nat) : (s.bumpBy a f n).cra = s.cra := rfl
@[simp] theorem bumpBy_pwr (s : State) (a : Nat) (f : Fld) (n : Nat) : (s.bumpBy a f n).pwr = s.pwr := rfl
@[simp] theorem bumpBy_spw (s : State) (a : Nat) (f : Fld) (n : Nat) : (s.bumpBy a f n).spw = s.spw := rfl
@[simp] theorem bumpBy_ledger (s : State) (a : Nat) (f : Fld) (n : Nat) : (s.bumpBy a f n).ledger = s.ledger := rfl
@[simp] theorem bumpBy_loupe (s : State) (a : Nat) (f : Fld) (n : Nat) : (s.bumpBy a f n).loupe = s.loupe := rfl
@[simp] theorem bumpBy_tiles (s : State) (a : Nat) (f : Fld) (n : Nat) : (s.bumpBy a f n).tiles = s.tiles := rfl
@[simp] theorem bumpBy_mesh (s : State) (a : Nat) (f : Fld) (n : Nat) : (s.bumpBy a f n).mesh = s.mesh := rfl
@[simp] theorem bumpBy_prsPorts (s : State) (a : Nat) (f : Fld) (n : Nat) : (s.bumpBy a f n).prsPorts = s.prsPorts := rfl
@[simp] theorem bumpBy_releases (s : State) (a : Nat) (f : Fld) (n : Nat) : (s.bumpBy a f n).releases = s.releases := rfl
@[simp] theorem bumpBy_facets (s : State) (a : Nat) (f : Fld) (n : Nat) : (s.bumpBy a f n).facets = s.facets := rfl
@[simp] theorem bumpBy_fgn (s : State) (a : Nat) (f : Fld) (n : Nat) : (s.bumpBy a f n).fgn = s.fgn := rfl
@[simp] theorem bumpBy_prs (s : State) (a : Nat) (f : Fld) (n : Nat) : (s.bumpBy a f n).prs = s.prs := rfl
@[simp] theorem bumpBy_caches (s : State) (a : Nat) (f : Fld) (n : Nat) : (s.bumpBy a f n).caches = s.caches := rfl
@[simp] theorem bumpBy_coh (s : State) (a : Nat) (f : Fld) (n : Nat) : (s.bumpBy a f n).coh = s.coh := rfl
@[simp] theorem bumpBy_xlt (s : State) (a : Nat) (f : Fld) (n : Nat) : (s.bumpBy a f n).xlt = s.xlt := rfl
@[simp] theorem bumpBy_imsic (s : State) (a : Nat) (f : Fld) (n : Nat) : (s.bumpBy a f n).imsic = s.imsic := rfl
@[simp] theorem bumpBy_hif (s : State) (a : Nat) (f : Fld) (n : Nat) : (s.bumpBy a f n).hif = s.hif := rfl
@[simp] theorem bumpBy_mgt (s : State) (a : Nat) (f : Fld) (n : Nat) : (s.bumpBy a f n).mgt = s.mgt := rfl
@[simp] theorem bumpBy_yar (s : State) (a : Nat) (f : Fld) (n : Nat) : (s.bumpBy a f n).yar = s.yar := rfl
@[simp] theorem bumpBy_answer (s : State) (a : Nat) (f : Fld) (n : Nat) : (s.bumpBy a f n).answer = s.answer := rfl
@[simp] theorem bumpBy_freeCtr (s : State) (a : Nat) (f : Fld) (n : Nat) : (s.bumpBy a f n).freeCtr = s.freeCtr := rfl

/-! ### bump -/

@[simp] theorem bump_pending (s : State) (a : Nat) (f : Fld) : (s.bump a f).pending = s.pending := rfl
@[simp] theorem bump_mem (s : State) (a : Nat) (f : Fld) : (s.bump a f).mem = s.mem := rfl
@[simp] theorem bump_poison (s : State) (a : Nat) (f : Fld) : (s.bump a f).poison = s.poison := rfl
@[simp] theorem bump_hostMem (s : State) (a : Nat) (f : Fld) : (s.bump a f).hostMem = s.hostMem := rfl
@[simp] theorem bump_sent (s : State) (a : Nat) (f : Fld) : (s.bump a f).sent = s.sent := rfl
@[simp] theorem bump_scratch (s : State) (a : Nat) (f : Fld) : (s.bump a f).scratch = s.scratch := rfl
@[simp] theorem bump_gdirty (s : State) (a : Nat) (f : Fld) : (s.bump a f).gdirty = s.gdirty := rfl
@[simp] theorem bump_hbm (s : State) (a : Nat) (f : Fld) : (s.bump a f).hbm = s.hbm := rfl
@[simp] theorem bump_cores (s : State) (a : Nat) (f : Fld) : (s.bump a f).cores = s.cores := rfl
@[simp] theorem bump_cra (s : State) (a : Nat) (f : Fld) : (s.bump a f).cra = s.cra := rfl
@[simp] theorem bump_pwr (s : State) (a : Nat) (f : Fld) : (s.bump a f).pwr = s.pwr := rfl
@[simp] theorem bump_spw (s : State) (a : Nat) (f : Fld) : (s.bump a f).spw = s.spw := rfl
@[simp] theorem bump_ledger (s : State) (a : Nat) (f : Fld) : (s.bump a f).ledger = s.ledger := rfl
@[simp] theorem bump_loupe (s : State) (a : Nat) (f : Fld) : (s.bump a f).loupe = s.loupe := rfl
@[simp] theorem bump_tiles (s : State) (a : Nat) (f : Fld) : (s.bump a f).tiles = s.tiles := rfl
@[simp] theorem bump_mesh (s : State) (a : Nat) (f : Fld) : (s.bump a f).mesh = s.mesh := rfl
@[simp] theorem bump_prsPorts (s : State) (a : Nat) (f : Fld) : (s.bump a f).prsPorts = s.prsPorts := rfl
@[simp] theorem bump_releases (s : State) (a : Nat) (f : Fld) : (s.bump a f).releases = s.releases := rfl
@[simp] theorem bump_facets (s : State) (a : Nat) (f : Fld) : (s.bump a f).facets = s.facets := rfl
@[simp] theorem bump_fgn (s : State) (a : Nat) (f : Fld) : (s.bump a f).fgn = s.fgn := rfl
@[simp] theorem bump_prs (s : State) (a : Nat) (f : Fld) : (s.bump a f).prs = s.prs := rfl
@[simp] theorem bump_caches (s : State) (a : Nat) (f : Fld) : (s.bump a f).caches = s.caches := rfl
@[simp] theorem bump_coh (s : State) (a : Nat) (f : Fld) : (s.bump a f).coh = s.coh := rfl
@[simp] theorem bump_xlt (s : State) (a : Nat) (f : Fld) : (s.bump a f).xlt = s.xlt := rfl
@[simp] theorem bump_imsic (s : State) (a : Nat) (f : Fld) : (s.bump a f).imsic = s.imsic := rfl
@[simp] theorem bump_hif (s : State) (a : Nat) (f : Fld) : (s.bump a f).hif = s.hif := rfl
@[simp] theorem bump_mgt (s : State) (a : Nat) (f : Fld) : (s.bump a f).mgt = s.mgt := rfl
@[simp] theorem bump_yar (s : State) (a : Nat) (f : Fld) : (s.bump a f).yar = s.yar := rfl
@[simp] theorem bump_answer (s : State) (a : Nat) (f : Fld) : (s.bump a f).answer = s.answer := rfl
@[simp] theorem bump_freeCtr (s : State) (a : Nat) (f : Fld) : (s.bump a f).freeCtr = s.freeCtr := rfl

/-! ### wrap -/

@[simp] theorem wrap_pending (s : State) (a : Nat) (f : Fld) (n : Nat) : (s.wrap a f n).pending = s.pending := rfl
@[simp] theorem wrap_mem (s : State) (a : Nat) (f : Fld) (n : Nat) : (s.wrap a f n).mem = s.mem := rfl
@[simp] theorem wrap_poison (s : State) (a : Nat) (f : Fld) (n : Nat) : (s.wrap a f n).poison = s.poison := rfl
@[simp] theorem wrap_hostMem (s : State) (a : Nat) (f : Fld) (n : Nat) : (s.wrap a f n).hostMem = s.hostMem := rfl
@[simp] theorem wrap_sent (s : State) (a : Nat) (f : Fld) (n : Nat) : (s.wrap a f n).sent = s.sent := rfl
@[simp] theorem wrap_scratch (s : State) (a : Nat) (f : Fld) (n : Nat) : (s.wrap a f n).scratch = s.scratch := rfl
@[simp] theorem wrap_gdirty (s : State) (a : Nat) (f : Fld) (n : Nat) : (s.wrap a f n).gdirty = s.gdirty := rfl
@[simp] theorem wrap_hbm (s : State) (a : Nat) (f : Fld) (n : Nat) : (s.wrap a f n).hbm = s.hbm := rfl
@[simp] theorem wrap_cores (s : State) (a : Nat) (f : Fld) (n : Nat) : (s.wrap a f n).cores = s.cores := rfl
@[simp] theorem wrap_cra (s : State) (a : Nat) (f : Fld) (n : Nat) : (s.wrap a f n).cra = s.cra := rfl
@[simp] theorem wrap_pwr (s : State) (a : Nat) (f : Fld) (n : Nat) : (s.wrap a f n).pwr = s.pwr := rfl
@[simp] theorem wrap_spw (s : State) (a : Nat) (f : Fld) (n : Nat) : (s.wrap a f n).spw = s.spw := rfl
@[simp] theorem wrap_ledger (s : State) (a : Nat) (f : Fld) (n : Nat) : (s.wrap a f n).ledger = s.ledger := rfl
@[simp] theorem wrap_loupe (s : State) (a : Nat) (f : Fld) (n : Nat) : (s.wrap a f n).loupe = s.loupe := rfl
@[simp] theorem wrap_tiles (s : State) (a : Nat) (f : Fld) (n : Nat) : (s.wrap a f n).tiles = s.tiles := rfl
@[simp] theorem wrap_mesh (s : State) (a : Nat) (f : Fld) (n : Nat) : (s.wrap a f n).mesh = s.mesh := rfl
@[simp] theorem wrap_prsPorts (s : State) (a : Nat) (f : Fld) (n : Nat) : (s.wrap a f n).prsPorts = s.prsPorts := rfl
@[simp] theorem wrap_releases (s : State) (a : Nat) (f : Fld) (n : Nat) : (s.wrap a f n).releases = s.releases := rfl
@[simp] theorem wrap_facets (s : State) (a : Nat) (f : Fld) (n : Nat) : (s.wrap a f n).facets = s.facets := rfl
@[simp] theorem wrap_fgn (s : State) (a : Nat) (f : Fld) (n : Nat) : (s.wrap a f n).fgn = s.fgn := rfl
@[simp] theorem wrap_prs (s : State) (a : Nat) (f : Fld) (n : Nat) : (s.wrap a f n).prs = s.prs := rfl
@[simp] theorem wrap_caches (s : State) (a : Nat) (f : Fld) (n : Nat) : (s.wrap a f n).caches = s.caches := rfl
@[simp] theorem wrap_coh (s : State) (a : Nat) (f : Fld) (n : Nat) : (s.wrap a f n).coh = s.coh := rfl
@[simp] theorem wrap_xlt (s : State) (a : Nat) (f : Fld) (n : Nat) : (s.wrap a f n).xlt = s.xlt := rfl
@[simp] theorem wrap_imsic (s : State) (a : Nat) (f : Fld) (n : Nat) : (s.wrap a f n).imsic = s.imsic := rfl
@[simp] theorem wrap_hif (s : State) (a : Nat) (f : Fld) (n : Nat) : (s.wrap a f n).hif = s.hif := rfl
@[simp] theorem wrap_mgt (s : State) (a : Nat) (f : Fld) (n : Nat) : (s.wrap a f n).mgt = s.mgt := rfl
@[simp] theorem wrap_yar (s : State) (a : Nat) (f : Fld) (n : Nat) : (s.wrap a f n).yar = s.yar := rfl
@[simp] theorem wrap_answer (s : State) (a : Nat) (f : Fld) (n : Nat) : (s.wrap a f n).answer = s.answer := rfl
@[simp] theorem wrap_freeCtr (s : State) (a : Nat) (f : Fld) (n : Nat) : (s.wrap a f n).freeCtr = s.freeCtr := rfl

/-! ### setTile -/

@[simp] theorem setTile_regs (s : State) (n : Nat) (t : Tile) : (s.setTile n t).regs = s.regs := rfl
@[simp] theorem setTile_pending (s : State) (n : Nat) (t : Tile) : (s.setTile n t).pending = s.pending := rfl
@[simp] theorem setTile_mem (s : State) (n : Nat) (t : Tile) : (s.setTile n t).mem = s.mem := rfl
@[simp] theorem setTile_poison (s : State) (n : Nat) (t : Tile) : (s.setTile n t).poison = s.poison := rfl
@[simp] theorem setTile_hostMem (s : State) (n : Nat) (t : Tile) : (s.setTile n t).hostMem = s.hostMem := rfl
@[simp] theorem setTile_sent (s : State) (n : Nat) (t : Tile) : (s.setTile n t).sent = s.sent := rfl
@[simp] theorem setTile_scratch (s : State) (n : Nat) (t : Tile) : (s.setTile n t).scratch = s.scratch := rfl
@[simp] theorem setTile_gdirty (s : State) (n : Nat) (t : Tile) : (s.setTile n t).gdirty = s.gdirty := rfl
@[simp] theorem setTile_hbm (s : State) (n : Nat) (t : Tile) : (s.setTile n t).hbm = s.hbm := rfl
@[simp] theorem setTile_cores (s : State) (n : Nat) (t : Tile) : (s.setTile n t).cores = s.cores := rfl
@[simp] theorem setTile_cra (s : State) (n : Nat) (t : Tile) : (s.setTile n t).cra = s.cra := rfl
@[simp] theorem setTile_pwr (s : State) (n : Nat) (t : Tile) : (s.setTile n t).pwr = s.pwr := rfl
@[simp] theorem setTile_spw (s : State) (n : Nat) (t : Tile) : (s.setTile n t).spw = s.spw := rfl
@[simp] theorem setTile_ledger (s : State) (n : Nat) (t : Tile) : (s.setTile n t).ledger = s.ledger := rfl
@[simp] theorem setTile_loupe (s : State) (n : Nat) (t : Tile) : (s.setTile n t).loupe = s.loupe := rfl
@[simp] theorem setTile_tiles (s : State) (n : Nat) (t : Tile) : (s.setTile n t).tiles = mset Tile.reset s.tiles n t := rfl
@[simp] theorem setTile_mesh (s : State) (n : Nat) (t : Tile) : (s.setTile n t).mesh = s.mesh := rfl
@[simp] theorem setTile_prsPorts (s : State) (n : Nat) (t : Tile) : (s.setTile n t).prsPorts = s.prsPorts := rfl
@[simp] theorem setTile_releases (s : State) (n : Nat) (t : Tile) : (s.setTile n t).releases = s.releases := rfl
@[simp] theorem setTile_facets (s : State) (n : Nat) (t : Tile) : (s.setTile n t).facets = s.facets := rfl
@[simp] theorem setTile_fgn (s : State) (n : Nat) (t : Tile) : (s.setTile n t).fgn = s.fgn := rfl
@[simp] theorem setTile_prs (s : State) (n : Nat) (t : Tile) : (s.setTile n t).prs = s.prs := rfl
@[simp] theorem setTile_caches (s : State) (n : Nat) (t : Tile) : (s.setTile n t).caches = s.caches := rfl
@[simp] theorem setTile_coh (s : State) (n : Nat) (t : Tile) : (s.setTile n t).coh = s.coh := rfl
@[simp] theorem setTile_xlt (s : State) (n : Nat) (t : Tile) : (s.setTile n t).xlt = s.xlt := rfl
@[simp] theorem setTile_imsic (s : State) (n : Nat) (t : Tile) : (s.setTile n t).imsic = s.imsic := rfl
@[simp] theorem setTile_hif (s : State) (n : Nat) (t : Tile) : (s.setTile n t).hif = s.hif := rfl
@[simp] theorem setTile_mgt (s : State) (n : Nat) (t : Tile) : (s.setTile n t).mgt = s.mgt := rfl
@[simp] theorem setTile_yar (s : State) (n : Nat) (t : Tile) : (s.setTile n t).yar = s.yar := rfl
@[simp] theorem setTile_answer (s : State) (n : Nat) (t : Tile) : (s.setTile n t).answer = s.answer := rfl
@[simp] theorem setTile_freeCtr (s : State) (n : Nat) (t : Tile) : (s.setTile n t).freeCtr = s.freeCtr := rfl

/-! ### setTst -/

@[simp] theorem setTst_pending (s : State) (n st : Nat) : (s.setTst n st).pending = s.pending :=
  (wr_pending _ _ _ _).trans (wr_pending _ _ _ _)
@[simp] theorem setTst_mem (s : State) (n st : Nat) : (s.setTst n st).mem = s.mem :=
  (wr_mem _ _ _ _).trans (wr_mem _ _ _ _)
@[simp] theorem setTst_poison (s : State) (n st : Nat) : (s.setTst n st).poison = s.poison :=
  (wr_poison _ _ _ _).trans (wr_poison _ _ _ _)
@[simp] theorem setTst_hostMem (s : State) (n st : Nat) : (s.setTst n st).hostMem = s.hostMem :=
  (wr_hostMem _ _ _ _).trans (wr_hostMem _ _ _ _)
@[simp] theorem setTst_sent (s : State) (n st : Nat) : (s.setTst n st).sent = s.sent :=
  (wr_sent _ _ _ _).trans (wr_sent _ _ _ _)
@[simp] theorem setTst_scratch (s : State) (n st : Nat) : (s.setTst n st).scratch = s.scratch :=
  (wr_scratch _ _ _ _).trans (wr_scratch _ _ _ _)
@[simp] theorem setTst_gdirty (s : State) (n st : Nat) : (s.setTst n st).gdirty = s.gdirty :=
  (wr_gdirty _ _ _ _).trans (wr_gdirty _ _ _ _)
@[simp] theorem setTst_hbm (s : State) (n st : Nat) : (s.setTst n st).hbm = s.hbm :=
  (wr_hbm _ _ _ _).trans (wr_hbm _ _ _ _)
@[simp] theorem setTst_cores (s : State) (n st : Nat) : (s.setTst n st).cores = s.cores :=
  (wr_cores _ _ _ _).trans (wr_cores _ _ _ _)
@[simp] theorem setTst_cra (s : State) (n st : Nat) : (s.setTst n st).cra = s.cra :=
  (wr_cra _ _ _ _).trans (wr_cra _ _ _ _)
@[simp] theorem setTst_pwr (s : State) (n st : Nat) : (s.setTst n st).pwr = s.pwr :=
  (wr_pwr _ _ _ _).trans (wr_pwr _ _ _ _)
@[simp] theorem setTst_spw (s : State) (n st : Nat) : (s.setTst n st).spw = s.spw :=
  (wr_spw _ _ _ _).trans (wr_spw _ _ _ _)
@[simp] theorem setTst_ledger (s : State) (n st : Nat) : (s.setTst n st).ledger = s.ledger :=
  (wr_ledger _ _ _ _).trans (wr_ledger _ _ _ _)
@[simp] theorem setTst_loupe (s : State) (n st : Nat) : (s.setTst n st).loupe = s.loupe :=
  (wr_loupe _ _ _ _).trans (wr_loupe _ _ _ _)
@[simp] theorem setTst_tiles (s : State) (n st : Nat) : (s.setTst n st).tiles = s.tiles :=
  (wr_tiles _ _ _ _).trans (wr_tiles _ _ _ _)
@[simp] theorem setTst_mesh (s : State) (n st : Nat) : (s.setTst n st).mesh = s.mesh :=
  (wr_mesh _ _ _ _).trans (wr_mesh _ _ _ _)
@[simp] theorem setTst_prsPorts (s : State) (n st : Nat) : (s.setTst n st).prsPorts = s.prsPorts :=
  (wr_prsPorts _ _ _ _).trans (wr_prsPorts _ _ _ _)
@[simp] theorem setTst_releases (s : State) (n st : Nat) : (s.setTst n st).releases = s.releases :=
  (wr_releases _ _ _ _).trans (wr_releases _ _ _ _)
@[simp] theorem setTst_facets (s : State) (n st : Nat) : (s.setTst n st).facets = s.facets :=
  (wr_facets _ _ _ _).trans (wr_facets _ _ _ _)
@[simp] theorem setTst_fgn (s : State) (n st : Nat) : (s.setTst n st).fgn = s.fgn :=
  (wr_fgn _ _ _ _).trans (wr_fgn _ _ _ _)
@[simp] theorem setTst_prs (s : State) (n st : Nat) : (s.setTst n st).prs = s.prs :=
  (wr_prs _ _ _ _).trans (wr_prs _ _ _ _)
@[simp] theorem setTst_caches (s : State) (n st : Nat) : (s.setTst n st).caches = s.caches :=
  (wr_caches _ _ _ _).trans (wr_caches _ _ _ _)
@[simp] theorem setTst_coh (s : State) (n st : Nat) : (s.setTst n st).coh = s.coh :=
  (wr_coh _ _ _ _).trans (wr_coh _ _ _ _)
@[simp] theorem setTst_xlt (s : State) (n st : Nat) : (s.setTst n st).xlt = s.xlt :=
  (wr_xlt _ _ _ _).trans (wr_xlt _ _ _ _)
@[simp] theorem setTst_imsic (s : State) (n st : Nat) : (s.setTst n st).imsic = s.imsic :=
  (wr_imsic _ _ _ _).trans (wr_imsic _ _ _ _)
@[simp] theorem setTst_hif (s : State) (n st : Nat) : (s.setTst n st).hif = s.hif :=
  (wr_hif _ _ _ _).trans (wr_hif _ _ _ _)
@[simp] theorem setTst_mgt (s : State) (n st : Nat) : (s.setTst n st).mgt = s.mgt :=
  (wr_mgt _ _ _ _).trans (wr_mgt _ _ _ _)
@[simp] theorem setTst_yar (s : State) (n st : Nat) : (s.setTst n st).yar = s.yar :=
  (wr_yar _ _ _ _).trans (wr_yar _ _ _ _)
@[simp] theorem setTst_answer (s : State) (n st : Nat) : (s.setTst n st).answer = s.answer :=
  (wr_answer _ _ _ _).trans (wr_answer _ _ _ _)
@[simp] theorem setTst_freeCtr (s : State) (n st : Nat) : (s.setTst n st).freeCtr = s.freeCtr :=
  (wr_freeCtr _ _ _ _).trans (wr_freeCtr _ _ _ _)

/-! ### setRing -/

@[simp] theorem setRing_regs (s : State) (n : Nat) (r : Ring) : (s.setRing n r).regs = s.regs := rfl
@[simp] theorem setRing_pending (s : State) (n : Nat) (r : Ring) : (s.setRing n r).pending = s.pending := rfl
@[simp] theorem setRing_mem (s : State) (n : Nat) (r : Ring) : (s.setRing n r).mem = s.mem := rfl
@[simp] theorem setRing_poison (s : State) (n : Nat) (r : Ring) : (s.setRing n r).poison = s.poison := rfl
@[simp] theorem setRing_hostMem (s : State) (n : Nat) (r : Ring) : (s.setRing n r).hostMem = s.hostMem := rfl
@[simp] theorem setRing_sent (s : State) (n : Nat) (r : Ring) : (s.setRing n r).sent = s.sent := rfl
@[simp] theorem setRing_scratch (s : State) (n : Nat) (r : Ring) : (s.setRing n r).scratch = s.scratch := rfl
@[simp] theorem setRing_gdirty (s : State) (n : Nat) (r : Ring) : (s.setRing n r).gdirty = s.gdirty := rfl
@[simp] theorem setRing_hbm (s : State) (n : Nat) (r : Ring) : (s.setRing n r).hbm = s.hbm := rfl
@[simp] theorem setRing_cores (s : State) (n : Nat) (r : Ring) : (s.setRing n r).cores = s.cores := rfl
@[simp] theorem setRing_cra (s : State) (n : Nat) (r : Ring) : (s.setRing n r).cra = s.cra := rfl
@[simp] theorem setRing_pwr (s : State) (n : Nat) (r : Ring) : (s.setRing n r).pwr = s.pwr := rfl
@[simp] theorem setRing_spw (s : State) (n : Nat) (r : Ring) : (s.setRing n r).spw = s.spw := rfl
@[simp] theorem setRing_ledger (s : State) (n : Nat) (r : Ring) : (s.setRing n r).ledger = s.ledger := rfl
@[simp] theorem setRing_loupe (s : State) (n : Nat) (r : Ring) : (s.setRing n r).loupe = s.loupe := rfl
@[simp] theorem setRing_tiles (s : State) (n : Nat) (r : Ring) : (s.setRing n r).tiles = s.tiles := rfl
@[simp] theorem setRing_mesh (s : State) (n : Nat) (r : Ring) : (s.setRing n r).mesh = s.mesh := rfl
@[simp] theorem setRing_prsPorts (s : State) (n : Nat) (r : Ring) : (s.setRing n r).prsPorts = s.prsPorts := rfl
@[simp] theorem setRing_releases (s : State) (n : Nat) (r : Ring) : (s.setRing n r).releases = s.releases := rfl
@[simp] theorem setRing_facets (s : State) (n : Nat) (r : Ring) : (s.setRing n r).facets = s.facets := rfl
@[simp] theorem setRing_fgn (s : State) (n : Nat) (r : Ring) : (s.setRing n r).fgn = s.fgn := rfl
@[simp] theorem setRing_prs (s : State) (n : Nat) (r : Ring) : (s.setRing n r).prs = s.prs := rfl
@[simp] theorem setRing_caches (s : State) (n : Nat) (r : Ring) : (s.setRing n r).caches = s.caches := rfl
@[simp] theorem setRing_coh (s : State) (n : Nat) (r : Ring) : (s.setRing n r).coh = s.coh := rfl
@[simp] theorem setRing_xlt (s : State) (n : Nat) (r : Ring) : (s.setRing n r).xlt = s.xlt := rfl
@[simp] theorem setRing_imsic (s : State) (n : Nat) (r : Ring) : (s.setRing n r).imsic = s.imsic := rfl
@[simp] theorem setRing_mgt (s : State) (n : Nat) (r : Ring) : (s.setRing n r).mgt = s.mgt := rfl
@[simp] theorem setRing_yar (s : State) (n : Nat) (r : Ring) : (s.setRing n r).yar = s.yar := rfl
@[simp] theorem setRing_answer (s : State) (n : Nat) (r : Ring) : (s.setRing n r).answer = s.answer := rfl
@[simp] theorem setRing_freeCtr (s : State) (n : Nat) (r : Ring) : (s.setRing n r).freeCtr = s.freeCtr := rfl

/-! ### setRingSt -/

@[simp] theorem setRingSt_pending (s : State) (n st : Nat) : (s.setRingSt n st).pending = s.pending := wr_pending _ _ _ _
@[simp] theorem setRingSt_mem (s : State) (n st : Nat) : (s.setRingSt n st).mem = s.mem := wr_mem _ _ _ _
@[simp] theorem setRingSt_poison (s : State) (n st : Nat) : (s.setRingSt n st).poison = s.poison := wr_poison _ _ _ _
@[simp] theorem setRingSt_hostMem (s : State) (n st : Nat) : (s.setRingSt n st).hostMem = s.hostMem := wr_hostMem _ _ _ _
@[simp] theorem setRingSt_sent (s : State) (n st : Nat) : (s.setRingSt n st).sent = s.sent := wr_sent _ _ _ _
@[simp] theorem setRingSt_scratch (s : State) (n st : Nat) : (s.setRingSt n st).scratch = s.scratch := wr_scratch _ _ _ _
@[simp] theorem setRingSt_gdirty (s : State) (n st : Nat) : (s.setRingSt n st).gdirty = s.gdirty := wr_gdirty _ _ _ _
@[simp] theorem setRingSt_hbm (s : State) (n st : Nat) : (s.setRingSt n st).hbm = s.hbm := wr_hbm _ _ _ _
@[simp] theorem setRingSt_cores (s : State) (n st : Nat) : (s.setRingSt n st).cores = s.cores := wr_cores _ _ _ _
@[simp] theorem setRingSt_cra (s : State) (n st : Nat) : (s.setRingSt n st).cra = s.cra := wr_cra _ _ _ _
@[simp] theorem setRingSt_pwr (s : State) (n st : Nat) : (s.setRingSt n st).pwr = s.pwr := wr_pwr _ _ _ _
@[simp] theorem setRingSt_spw (s : State) (n st : Nat) : (s.setRingSt n st).spw = s.spw := wr_spw _ _ _ _
@[simp] theorem setRingSt_ledger (s : State) (n st : Nat) : (s.setRingSt n st).ledger = s.ledger := wr_ledger _ _ _ _
@[simp] theorem setRingSt_loupe (s : State) (n st : Nat) : (s.setRingSt n st).loupe = s.loupe := wr_loupe _ _ _ _
@[simp] theorem setRingSt_tiles (s : State) (n st : Nat) : (s.setRingSt n st).tiles = s.tiles := wr_tiles _ _ _ _
@[simp] theorem setRingSt_mesh (s : State) (n st : Nat) : (s.setRingSt n st).mesh = s.mesh := wr_mesh _ _ _ _
@[simp] theorem setRingSt_prsPorts (s : State) (n st : Nat) : (s.setRingSt n st).prsPorts = s.prsPorts := wr_prsPorts _ _ _ _
@[simp] theorem setRingSt_releases (s : State) (n st : Nat) : (s.setRingSt n st).releases = s.releases := wr_releases _ _ _ _
@[simp] theorem setRingSt_facets (s : State) (n st : Nat) : (s.setRingSt n st).facets = s.facets := wr_facets _ _ _ _
@[simp] theorem setRingSt_fgn (s : State) (n st : Nat) : (s.setRingSt n st).fgn = s.fgn := wr_fgn _ _ _ _
@[simp] theorem setRingSt_prs (s : State) (n st : Nat) : (s.setRingSt n st).prs = s.prs := wr_prs _ _ _ _
@[simp] theorem setRingSt_caches (s : State) (n st : Nat) : (s.setRingSt n st).caches = s.caches := wr_caches _ _ _ _
@[simp] theorem setRingSt_coh (s : State) (n st : Nat) : (s.setRingSt n st).coh = s.coh := wr_coh _ _ _ _
@[simp] theorem setRingSt_xlt (s : State) (n st : Nat) : (s.setRingSt n st).xlt = s.xlt := wr_xlt _ _ _ _
@[simp] theorem setRingSt_imsic (s : State) (n st : Nat) : (s.setRingSt n st).imsic = s.imsic := wr_imsic _ _ _ _
@[simp] theorem setRingSt_hif (s : State) (n st : Nat) : (s.setRingSt n st).hif = s.hif := wr_hif _ _ _ _
@[simp] theorem setRingSt_mgt (s : State) (n st : Nat) : (s.setRingSt n st).mgt = s.mgt := wr_mgt _ _ _ _
@[simp] theorem setRingSt_yar (s : State) (n st : Nat) : (s.setRingSt n st).yar = s.yar := wr_yar _ _ _ _
@[simp] theorem setRingSt_answer (s : State) (n st : Nat) : (s.setRingSt n st).answer = s.answer := wr_answer _ _ _ _
@[simp] theorem setRingSt_freeCtr (s : State) (n st : Nat) : (s.setRingSt n st).freeCtr = s.freeCtr := wr_freeCtr _ _ _ _

/-! ### fresh -/

@[simp] theorem fresh_regs (s : State) : s.fresh.2.regs = s.regs := rfl
@[simp] theorem fresh_pending (s : State) : s.fresh.2.pending = s.pending := rfl
@[simp] theorem fresh_mem (s : State) : s.fresh.2.mem = s.mem := rfl
@[simp] theorem fresh_poison (s : State) : s.fresh.2.poison = s.poison := rfl
@[simp] theorem fresh_hostMem (s : State) : s.fresh.2.hostMem = s.hostMem := rfl
@[simp] theorem fresh_sent (s : State) : s.fresh.2.sent = s.sent := rfl
@[simp] theorem fresh_scratch (s : State) : s.fresh.2.scratch = s.scratch := rfl
@[simp] theorem fresh_gdirty (s : State) : s.fresh.2.gdirty = s.gdirty := rfl
@[simp] theorem fresh_hbm (s : State) : s.fresh.2.hbm = s.hbm := rfl
@[simp] theorem fresh_cores (s : State) : s.fresh.2.cores = s.cores := rfl
@[simp] theorem fresh_cra (s : State) : s.fresh.2.cra = s.cra := rfl
@[simp] theorem fresh_pwr (s : State) : s.fresh.2.pwr = s.pwr := rfl
@[simp] theorem fresh_spw (s : State) : s.fresh.2.spw = s.spw := rfl
@[simp] theorem fresh_ledger (s : State) : s.fresh.2.ledger = s.ledger := rfl
@[simp] theorem fresh_loupe (s : State) : s.fresh.2.loupe = s.loupe := rfl
@[simp] theorem fresh_tiles (s : State) : s.fresh.2.tiles = s.tiles := rfl
@[simp] theorem fresh_mesh (s : State) : s.fresh.2.mesh = s.mesh := rfl
@[simp] theorem fresh_prsPorts (s : State) : s.fresh.2.prsPorts = s.prsPorts := rfl
@[simp] theorem fresh_releases (s : State) : s.fresh.2.releases = s.releases := rfl
@[simp] theorem fresh_facets (s : State) : s.fresh.2.facets = s.facets := rfl
@[simp] theorem fresh_fgn (s : State) : s.fresh.2.fgn = s.fgn := rfl
@[simp] theorem fresh_prs (s : State) : s.fresh.2.prs = s.prs := rfl
@[simp] theorem fresh_caches (s : State) : s.fresh.2.caches = s.caches := rfl
@[simp] theorem fresh_coh (s : State) : s.fresh.2.coh = s.coh := rfl
@[simp] theorem fresh_xlt (s : State) : s.fresh.2.xlt = s.xlt := rfl
@[simp] theorem fresh_imsic (s : State) : s.fresh.2.imsic = s.imsic := rfl
@[simp] theorem fresh_hif (s : State) : s.fresh.2.hif = s.hif := rfl
@[simp] theorem fresh_mgt (s : State) : s.fresh.2.mgt = s.mgt := rfl
@[simp] theorem fresh_yar (s : State) : s.fresh.2.yar = s.yar := rfl
@[simp] theorem fresh_answer (s : State) : s.fresh.2.answer = s.answer := rfl
@[simp] theorem fresh_freeCtr (s : State) : s.fresh.2.freeCtr = s.freeCtr + 1 := rfl
@[simp] theorem fresh_reg (s : State) (a : Nat) : s.fresh.2.reg a = s.reg a := rfl

/-! ### What the updates of one field read -/

@[simp] theorem setTile_reg (s : State) (n : Nat) (t : Tile) (a : Nat) : (s.setTile n t).reg a = s.reg a := rfl
@[simp] theorem setRing_reg (s : State) (n : Nat) (r : Ring) (a : Nat) : (s.setRing n r).reg a = s.reg a := rfl
@[simp] theorem setReg_tile (s : State) (a : Nat) (v : Word) (n : Nat) : (s.setReg a v).tile n = s.tile n := rfl
@[simp] theorem wr_tile (s : State) (a : Nat) (f : Fld) (v n : Nat) : (s.wr a f v).tile n = s.tile n := rfl
@[simp] theorem setReg_ring (s : State) (a : Nat) (v : Word) (n : Nat) : (s.setReg a v).ring n = s.ring n := rfl
@[simp] theorem wr_ring (s : State) (a : Nat) (f : Fld) (v n : Nat) : (s.wr a f v).ring n = s.ring n := rfl

end Sys2Proof.Machine
end

