-- ==== Sys2Proof/WellFormed.lean ====
section
/-!
DEFINITION. Which commands are well formed: the lengths and the ranges that the operands' types do not fix by themselves.
-/

namespace Sys2Proof

/-- A physical address has 56 bits (R233). -/
def paWf (a : Word) : Bool := decide (a.toNat < 2 ^ 56)

/-- A packet's LEN has three bits (R415). -/
def pktWf (k : FPkt) : Bool := decide (k.data.length ≤ 7)

/-- An IDENT gives credits for each of the 16 virtual channels (R408, R417). -/
def identWf (i : FIdent) : Bool := i.credits.length == 16

/-- A walk returns the 16 leaf PTEs of the aligned group (R352). -/
def xlateWf (r : XlateResult) : Bool :=
  match r with
  | .leaves _ ptes => ptes.length == 16
  | .ats _ _ _ _ _ => true
  | .fault _       => true
  | .walkPoison    => true

/-- There are four clusters (R437). -/
def junctionsWf (j : Junctions) : Bool := j.clus.length == 4

/-- A pseudo-channel has 38 DQ (R323). -/
def eyesWf (eyes : List (BitVec 33)) : Bool := eyes.length == 38

/-- A PCIe request carries 1 to 4,096 bytes. -/
def tlpWf (n : Nat) : Bool := decide (1 ≤ n) && decide (n ≤ 4096)

/-- An aperture access carries 1 to 4,096 bytes, a write those it stores. -/
def apertureWf (len : Nat) (write : Bool) (data : List Byte) : Bool := tlpWf len && (!write || data.length == len)

/-- A facet image has at most 1 MiB (R48), a firmware image at most 64 MiB (R515). -/
def facetImageWf (img : List Byte) : Bool := decide (img.length ≤ 2 ^ 20)
def firmwareWf (img : List Byte) : Bool := decide (img.length ≤ 2 ^ 26)

/-- The checks of each command's operands. -/
def Instr.wf : Instr → Bool
  | .coldReset _ _ => true
  | .vin56Start _ => true
  | .vin56Change _ => true
  | .pdieFault _ => true
  | .bootStepComplete _ => true
  | .ucieLinkUp _ _ => true
  | .craoneTrainTimeout _ => true
  | .cap _ _ _ => true
  | .discover _ _ => true
  | .orientationTimeout _ => true
  | .credit _ _ => true
  | .depart _ _ => true
  | .ucieLinkDown _ => true
  | .craReturn _ _ => true
  | .standInAnswer _ _ _ => true
  | .lateDrop _ _ _ => true
  | .craoneDegrade _ _ _ => true
  | .tileFaultDeclare _ _ => true
  | .heartbeatLoss _ => true
  | .mappingInstalled _ => true
  | .facetLoadComplete _ => true
  | .workDispatch _ => true
  | .tileIdle _ => true
  | .apertureAccess _ _ _ len write data => apertureWf len.toNat write data
  | .register hostBytes => facetImageWf hostBytes
  | .unregister => true
  | .bind _ => true
  | .unbind _ => true
  | .streamChunk _ => true
  | .streamCredit _ => true
  | .dmaCopy _ _ => true
  | .dmaCopy2d _ _ => true
  | .dmaFill _ _ => true
  | .dmaFence _ _ => true
  | .dmaSignal _ _ => true
  | .dmaDescriptorEnd _ _ => true
  | .tilDmaResume _ _ => true
  | .tilDmaFlush _ _ => true
  | .matrix _ => true
  | .weightFillComplete _ => true
  | .setComplete _ => true
  | .drainStart _ => true
  | .drainComplete _ => true
  | .outputTileRetire _ => true
  | .conversionTrial _ => true
  | .mvpDescriptorEnd _ => true
  | .matFault _ => true
  | .patchArrive _ => true
  | .patchCheck _ => true
  | .loupeHaltNotice _ => true
  | .louResume _ => true
  | .louClear _ => true
  | .louPop _ => true
  | .kernel _ => true
  | .umbelBaseInstruction _ _ => true
  | .registerFill _ _ => true
  | .umbelMemoryResponse _ _ _ => true
  | .kernelBoundary _ => true
  | .kernelComplete _ => true
  | .utlb _ _ => true
  | .utlh _ _ => true
  | .utlw _ _ => true
  | .utld _ _ => true
  | .utlbu _ _ => true
  | .utlhu _ _ => true
  | .utlwu _ _ => true
  | .utsb _ _ => true
  | .utsh _ _ => true
  | .utsw _ _ => true
  | .utsd _ _ => true
  | .uaadd _ _ => true
  | .uaswap _ _ => true
  | .uacas _ _ => true
  | .uaxor _ _ => true
  | .uaor _ _ => true
  | .uaand _ _ => true
  | .uamin _ _ => true
  | .uamax _ _ => true
  | .uaminu _ _ => true
  | .uamaxu _ _ => true
  | .ufadd _ _ => true
  | .umma _ _ => true
  | .ushflIdx _ _ => true
  | .ushflXor _ _ => true
  | .ushflUp _ _ => true
  | .ushflDown _ _ => true
  | .ushflBcast _ _ => true
  | .uballot _ _ => true
  | .ucvtO _ _ => true
  | .ucvtI _ _ => true
  | .ubar _ _ => true
  | .ubarRelease _ => true
  | .usemwait _ _ => true
  | .semaphorePoll _ _ => true
  | .usempost _ _ => true
  | .usput _ _ => true
  | .usget _ _ => true
  | .ustryput _ _ => true
  | .ustryget _ _ => true
  | .uepopen _ _ => true
  | .uepcommit _ _ => true
  | .uepguard _ _ => true
  | .ul1flush _ _ => true
  | .ul1inv _ _ => true
  | .ul1flushall _ _ => true
  | .ul1invall _ _ => true
  | .seqNop _ => true
  | .seqAdd _ => true
  | .seqSub _ => true
  | .seqAnd _ => true
  | .seqOr _ => true
  | .seqXor _ => true
  | .seqSll _ => true
  | .seqSrl _ => true
  | .seqSra _ => true
  | .seqMul _ => true
  | .seqMinu _ => true
  | .seqMaxu _ => true
  | .seqSltu _ => true
  | .seqAddi _ => true
  | .seqAndi _ => true
  | .seqOri _ => true
  | .seqSlli _ => true
  | .seqSrli _ => true
  | .seqLsh _ => true
  | .seqBeq _ => true
  | .seqBne _ => true
  | .seqBltu _ => true
  | .seqBgeu _ => true
  | .seqJmp _ => true
  | .seqCall _ => true
  | .seqRet _ => true
  | .seqLdt _ => true
  | .seqStt _ => true
  | .seqPrm _ => true
  | .seqDsc _ => true
  | .seqSst _ => true
  | .seqTake _ => true
  | .seqDone _ => true
  | .seqDmaq _ => true
  | .seqClv _ => true
  | .seqMvc _ => true
  | .seqCvc _ => true
  | .cvcEnd _ => true
  | .seqWait _ => true
  | .seqKlaunch _ => true
  | .seqEopen _ => true
  | .seqEcommit _ => true
  | .seqEguard _ => true
  | .seqSemw _ => true
  | .seqSemp _ => true
  | .startRecordWritten _ => true
  | .epochOverrun _ => true
  | .journalSealWrite _ => true
  | .commitPoint _ _ => true
  | .journalEntryPublish _ => true
  | .journalEntryFail _ => true
  | .prismRelease _ _ => true
  | .resendRequest _ _ => true
  | .epoCtlRelease _ => true
  | .epoCtlFlush _ => true
  | .epoModeWrite _ => true
  | .ledgerAdd _ _ _ _ => true
  | .ledgerRead _ _ _ => true
  | .ledgerClearGo _ _ => true
  | .ledgerClearDone _ => true
  | .ledgerLock _ _ => true
  | .spwTierLock _ => true
  | .schedule => true
  | .scheduleEntryIssue => true
  | .acquire _ => true
  | .release _ => true
  | .cancel _ => true
  | .writeback _ => true
  | .evict _ => true
  | .spaceGrant => true
  | .granuleCopyComplete _ => true
  | .copyFault _ => true
  | .spwClearFailed => true
  | .spwAbort => true
  | .rdShared _ addr _ _ => paWf addr
  | .rdUnique _ addr _ _ => paWf addr
  | .upgrade _ addr _ _ => paWf addr
  | .claim _ addr _ => paWf addr
  | .rdOnce _ addr => paWf addr
  | .wbDirty _ addr => paWf addr
  | .evictClean _ addr => paWf addr
  | .cmoClean _ addr => paWf addr
  | .cmoFlush _ addr => paWf addr
  | .snpShared _ addr _ => paWf addr
  | .snpUnique _ addr => paWf addr
  | .snpInv _ addr => paWf addr
  | .snpOnce _ addr => paWf addr
  | .snpClean _ addr => paWf addr
  | .snpFlush _ addr _ => paWf addr
  | .comp _ addr => paWf addr
  | .compAck _ addr => paWf addr
  | .rspI _ addr => paWf addr
  | .rspS _ addr => paWf addr
  | .rspO _ addr => paWf addr
  | .rspKeep _ addr => paWf addr
  | .cohError _ addr => paWf addr
  | .cohPoisoned _ addr => paWf addr
  | .cohAbsent _ addr => paWf addr
  | .cohMalformed _ addr => paWf addr
  | .dataS _ addr => paWf addr
  | .dataE _ addr => paWf addr
  | .dataM _ addr => paWf addr
  | .dataOnce _ addr => paWf addr
  | .dataToHome _ addr => paWf addr
  | .hmemRd addr _ _ => paWf addr
  | .hmemWr addr => paWf addr
  | .leaseReq _ addr _ => paWf addr
  | .leaseGrant _ addr => paWf addr
  | .leaseDeny _ addr => paWf addr
  | .leaseRecall _ addr => paWf addr
  | .leaseReturn _ addr => paWf addr
  | .leaseHoldoffExpire addr => paWf addr
  | .cchLeaseCfgWrite _ => true
  | .cchMntGo _ => true
  | .cchMntDone => true
  | .cchReplLock _ => true
  | .cchScCarveLock _ _ => true
  | .cchRrbInvGo _ _ => true
  | .cchRrbInvDone => true
  | .hbmRead addr _ => paWf addr
  | .hbmWrite addr _ _ _ => paWf addr
  | .wcbDeadline addr => paWf addr
  | .wcbDrainRead addr _ => paWf addr
  | .parityDelta addr => paWf addr
  | .parityAck addr => paWf addr
  | .parityRelease addr => paWf addr
  | .releaseTimeout addr => paWf addr
  | .reconstruction addr => paWf addr
  | .reconstructionComplete addr _ => paWf addr
  | .scrubStep _ _ => true
  | .hbmTempRead _ _ => true
  | .throttleStepFall _ => true
  | .hbmThrCfgWrite _ _ => true
  | .hbmShdEn _ _ => true
  | .shieldZeroingDone _ => true
  | .hbmFailPcWrite _ _ => true
  | .pcPhyFail _ _ => true
  | .hbmRebuildGo _ _ _ => true
  | .hbmRebuildDone _ _ _ => true
  | .hbmQuiesceWrite _ _ => true
  | .hbmMarkWrite _ _ _ => true
  | .hbmRepairQuery _ _ _ => true
  | .softRowRepair _ _ _ _ _ => true
  | .hardRowRepair _ _ _ _ => true
  | .dqRemap _ _ _ _ => true
  | .clearRemap _ _ => true
  | .hbmRepairDone _ _ _ => true
  | .hbmMrgGo _ _ => true
  | .hbmMrgDone _ eyes => eyesWf eyes
  | .yelryLoad _ pa _ _ _ _ _ => paWf pa
  | .yelryStore _ pa _ _ _ _ _ => paWf pa
  | .storeBufferCompletion _ line _ => paWf line
  | .storeBufferTimeout _ line => paWf line
  | .warmResetDiscard => true
  | .yelryFence _ _ => true
  | .fenceI _ => true
  | .lr _ pa _ _ _ => paWf pa
  | .sc _ pa _ _ _ _ => paWf pa
  | .reservationHoldExpire _ => true
  | .yelryAmo _ pa _ _ _ _ => paWf pa
  | .ioAccess _ pa _ _ => paWf pa
  | .cboZero _ pa => paWf pa
  | .cboClean _ pa => paWf pa
  | .cboFlush _ pa => paWf pa
  | .cboInval _ pa => paWf pa
  | .prefetch _ pa => paWf pa
  | .wfi _ => true
  | .fence _ => true
  | .fenceStart _ => true
  | .peerFlushCompletion _ _ => true
  | .peerFlushTimeout _ => true
  | .pcieInboundWrite _ _ data _ _ => tlpWf data.length
  | .pcieInboundRead _ _ len _ => tlpWf len.toNat
  | .atcMiss _ _ _ _ => true
  | .translationCompletion _ _ _ _ _ res => xlateWf res
  | .pageRequestResponse _ _ _ _ => true
  | .pageRequestTimeout _ _ _ => true
  | .iotinvalVma _ _ => true
  | .iotinvalGvma _ => true
  | .iofenceC => true
  | .iofenceCComplete => true
  | .atsInvalidate _ _ _ => true
  | .doorbell _ _ _ _ _ => true
  | .sqRead _ _ _ => true
  | .descriptorAdmit _ => true
  | .cqWriteFail _ => true
  | .coalesceTimer _ => true
  | .nop _ => true
  | .writeInline _ => true
  | .dma _ => true
  | .facetWork _ => true
  | .epochDesc _ => true
  | .collective _ => true
  | .hifRingEnSet _ _ => true
  | .hifRingEnClear _ _ => true
  | .hifRingStop _ => true
  | .hifRingResume _ => true
  | .hifRingAbandon _ => true
  | .hostLoss _ => true
  | .hifAttachGo => true
  | .attachReady => true
  | .attachTimeout => true
  | .pcieRecovery _ => true
  | .rootPortDown _ => true
  | .hifPcieLock _ => true
  | .fgnCfgEn _ => true
  | .fgnPortCfgWrite _ _ => true
  | .signalDetect _ _ => true
  | .equalisationConverged _ => true
  | .alignmentLock _ => true
  | .ident _ x => identWf x
  | .linkTrainTimeout _ => true
  | .linkLoss _ => true
  | .fallbackInstall _ => true
  | .flit _ _ _ _ _ _ => true
  | .fgnRead _ k => pktWf k
  | .fgnWrite _ k => pktWf k
  | .fgnWriteMasked _ k => pktWf k
  | .fgnAtomic _ k => pktWf k
  | .fgnData _ k => pktWf k
  | .fugenComp _ k => pktWf k
  | .cdata _ k => pktWf k
  | .cabort _ k => pktWf k
  | .ack _ k => pktWf k
  | .nak _ k => pktWf k
  | .close _ k => pktWf k
  | .e2eTimeout _ _ => true
  | .connectionIdleFree _ => true
  | .collectiveComplete _ _ => true
  | .prsAbort _ _ => true
  | .collectiveStall _ _ => true
  | .capNoticeExpire _ _ => true
  | .coreStart _ => true
  | .corePowerGood _ => true
  | .corePark _ => true
  | .parkDrainComplete _ => true
  | .l2FlushComplete _ => true
  | .coreOffline _ _ => true
  | .offlineFlushComplete _ _ => true
  | .seteipnum _ _ _ _ => true
  | .mtimerCompare _ _ => true
  | .mgtCxlwinEn _ _ => true
  | .cxlLock => true
  | .ddrPatrolScrub addr _ => paWf addr
  | .meniscusStep _ => true
  | .phaseInterval _ _ _ _ _ => true
  | .droopFire _ => true
  | .droopRecovery _ => true
  | .ageingCheck _ => true
  | .junctionRead j => junctionsWf j
  | .tjCritHoldExpire => true
  | .idleEntry => true
  | .wakeEvent _ => true
  | .pwrIdleWake => true
  | .energyUpdate _ => true
  | .autoWarmDelay => true
  | .ebGo _ _ _ _ => true
  | .ebAbort _ _ => true
  | .ebTestComplete _ _ => true
  | .injTileFault _ => true
  | .injHeartbeatStop _ => true
  | .injHbmCorrupt => true
  | .injLinkDrop _ => true
  | .wayDis _ _ => true
  | .wayEn _ _ => true
  | .queueTile _ => true
  | .teaselLockstepMismatch => true
  | .teaselRestartComplete => true
  | .warmReset _ => true
  | .warmJournalsPublished => true
  | .warmResetRelease lost => lost.all paWf
  | .rstCtlWarm => true
  | .rstCtlCold _ => true
  | .rstBootDone => true
  | .svnCommit _ => true
  | .secExtGo _ => true
  | .keyEnrol _ => true
  | .keyEmpty _ => true
  | .keylock => true
  | .secAttGo _ => true
  | .attestationSigned => true
  | .getBoot => true
  | .setWall _ => true
  | .readLog _ _ => true
  | .attest _ _ => true
  | .setCap _ => true
  | .sideReset _ _ => true
  | .firmwareImageWrite _ image => firmwareWf image
  | .verifyComplete _ => true
  | .applyComplete _ => true
  | .firmwareTrialTimeout _ => true
  | .mgtPscMark _ => true
  | .lifeSave => true
  | .summaryRewrite => true
  | .mgtWallWrite _ => true
  | .clkMeasGo _ => true
  | .clkMeasDone _ => true
  | .registerWrite addr _ => paWf addr
  | .pcieLinkUp _ => true
  | .barAssign _ => true
  | .ackTimer _ => true
  | .wakeComplete _ => true
  | .yelryCsrAccess _ _ _ _ _ => true

end Sys2Proof
end

