-- ==== Sys2Proof/Tests/Slice0.lean ====
section
/-!
SUPPORT. The author's own tests: ill-formed operands that WellFormed refuses, results that the spec's own words and tables give, and for
every statement of Certificates/Slice0/Obligations.lean a state and operands that meet the hypotheses of each of its clauses
(test_hyp_<statement>_<clause>).
-/

namespace Sys2Proof.Tests

open Sys2Proof Sys2Proof.Machine

set_option Elab.async false

/-! ### Small states -/

/-- A state with some register fields written. -/
def regs (l : List (Nat × Fld × Nat)) (s : State) : State := l.foldl (fun t x => t.wr x.1 x.2.1 x.2.2) s

/-- The state after reset with some register fields written. -/
def st (l : List (Nat × Fld × Nat)) : State := regs l State.reset

/-- The state of a booted package, its C-dies confirmed and its Craone links ACTIVE with credits, with some register fields written. -/
def up (l : List (Nat × Fld × Nat)) : State :=
  let s := st ([(RST_BOOT, RST_BOOT_STEP, 9), (MGT_DIE_MAP, MGT_DIE_MAP_VALID, 1), (MGT_CRA_STAT 0, MGT_CRA_STAT_STATE, 3),
    (MGT_CRA_STAT 1, MGT_CRA_STAT_STATE, 3), (MGT_CRA_STAT 2, MGT_CRA_STAT_STATE, 3), (MGT_CRA_STAT 0, MGT_CRA_STAT_POISON_ON, 1),
    (MGT_CRA_STAT 1, MGT_CRA_STAT_POISON_ON, 1), (MGT_CRA_STAT 2, MGT_CRA_STAT_POISON_ON, 1)] ++ l)
  { s with cra := { s.cra with credits := (List.range 24).map (fun k => (k, 200)) } }

/-- Its management unit, tile n and ring n replaced. -/
def mgt (s : State) (f : MgtSt → MgtSt) : State := { s with mgt := f s.mgt }
def tile (s : State) (n : Nat) (f : Tile → Tile) : State := s.setTile n (f (s.tile n))
def ring (s : State) (n : Nat) (f : Ring → Ring) : State := s.setRing n (f (s.ring n))

/-! ### Well-formedness refuses ill-formed operands -/

theorem test_wf_address : (Instr.cboZero 0 (2 ^ 56)).wf = false := by decide +kernel
theorem test_wf_tlp : (Instr.pcieInboundRead 0 0 0 .pma).wf = false := by decide +kernel
theorem test_wf_aperture : (Instr.apertureAccess 0 0 0 8 true [1, 2]).wf = false := by decide +kernel
theorem test_wf_eyes : (Instr.hbmMrgDone 0 [0]).wf = false := by decide +kernel
theorem test_wf_address_ok : (Instr.cboZero 0 0x40).wf = true := by decide +kernel

/-! ### Hypotheses: steps, reset and boot -/

theorem test_hyp_StepRunsFront : State.reset.pending = [] := by decide +kernel
theorem test_hyp_StepKeepsQueue : ∃ t, step { State.reset with pending := [.hifAttachGo] } = .next t := ⟨_, rfl⟩
theorem test_hyp_StepKeepsCanonical : State.reset.canonical ∧ ∃ t, step State.reset = .next t := ⟨by unfold State.canonical; decide +kernel, _, rfl⟩

def aWarm : State := mgt (st [(RST_BOOT, RST_BOOT_STEP, 9)]) fun m => { m with warm := .asserted }
def aPub : State := mgt (st [(RST_BOOT, RST_BOOT_STEP, 9)]) fun m => { m with warm := .published }
def aFatal : State := st [(RST_CFG, RST_CFG_AUTO_WARM, 1), (TST_YAR_STAT, TST_YAR_STAT_FATAL, 1)]

theorem test_hyp_Resets_1 : State.reset.mgt.warm = .idle ∧ ¬(State.reset.warmBoot = true ∧ State.reset.rd RST_BOOT RST_BOOT_STEP < 6 ∧
    ¬ State.reset.flag RST_BOOT RST_BOOT_FAILED = true) := by decide +kernel
theorem test_hyp_Resets_2 : aWarm.mgt.warm ≠ .idle := by decide +kernel
theorem test_hyp_Resets_3 : aFatal.flag RST_CFG RST_CFG_AUTO_WARM = true ∧ aFatal.flag TST_YAR_STAT TST_YAR_STAT_FATAL = true := by decide +kernel
theorem test_hyp_Resets_4 : State.reset.flag RST_CFG RST_CFG_AUTO_WARM = false := by decide +kernel
theorem test_hyp_Resets_5 : aWarm.mgt.warm = .asserted ∧ ∀ p ∈ aWarm.tiles, p.2.epo.pub = [] := by decide +kernel
theorem test_hyp_Resets_6 : aPub.mgt.warm = .published := by decide +kernel
theorem test_hyp_Resets_7 : aWarm.mgt.warm ≠ .published := by decide +kernel

def aRun : State := mgt (st [(RST_BOOT, RST_BOOT_STEP, 9)]) fun m => { m with teaselUp := true }
def aRec : State := st [(RST_BOOT, RST_BOOT_FAILED, 1), (RST_BOOT, RST_BOOT_ERR, 2)]
theorem test_hyp_Sideband_1 : aRun.inRecovery = false ∧ aRun.teaselRuns = true ∧ (5 : Byte) ≠ 0 ∧ (5 : Byte) ≠ 1 := by decide +kernel
theorem test_hyp_Sideband_2 : (0 : W32).toNat + (1024 : BitVec 16).toNat ≤ 2 ^ 26 ∧ (1024 : BitVec 16).toNat ≤ 1024 ∧
    1024 < (1025 : BitVec 16).toNat := by decide +kernel
theorem test_hyp_Sideband_3 : aRec.inRecovery = true := by decide +kernel
theorem test_hyp_Sideband_4 : State.reset.inRecovery = false ∧ State.reset.teaselRuns = false := by decide +kernel

def aIn (fails : Bool) : BootInput :=
  { fails := fails, sideW := false, sideE := true, ddrMods := 0xFFF, ddrSize := 1, ddrAlike := true }
def aStep (k : Nat) : State := st [(RST_BOOT, RST_BOOT_STEP, k)]
theorem test_hyp_Boot_1 : (aStep 0).flag RST_BOOT RST_BOOT_FAILED = false ∧ (aStep 0).mgt.warm = .idle ∧
    (aStep 0).rd RST_BOOT RST_BOOT_STEP = 0 ∧ (aStep 5).rd RST_BOOT RST_BOOT_STEP = 5 := by decide +kernel
theorem test_hyp_Boot_2 : (aStep 2).rd RST_BOOT RST_BOOT_STEP = 2 ∧ (aStep 3).rd RST_BOOT RST_BOOT_STEP = 3 := by decide +kernel
theorem test_hyp_Boot_3 : (regs [(MGT_DIE_MAP, MGT_DIE_MAP_FAULT, 1)] (aStep 4)).flag MGT_DIE_MAP MGT_DIE_MAP_FAULT = true ∧
    (regs [(MGT_DIE_MAP, MGT_DIE_MAP_FAULT, 1)] (aStep 4)).rd RST_BOOT RST_BOOT_STEP = 4 := by decide +kernel
def aImage (c : Nat) : List Byte :=
  leBytes 4 0xAE71F1A0 ++ [BitVec.ofNat 8 (c + 1), 0, 0, 0] ++ leBytes 4 0 ++ leBytes 4 3076 ++ leBytes 4 0 ++ leBytes 4 256 ++ List.replicate 3052 0
def aBoot (c k : Nat) : State := mgt (aStep k) fun m => { m with fwImg := [(2 * (c + 1), aImage c)] }
theorem test_hyp_Boot_7 (h : Config.vendorFwHash = shake256 (slice (aImage 0) 0x20 68)) (hx : ∀ p l b x, Config.xmssVerify p l b x = true) :
    (aBoot 0 0).rd RST_BOOT RST_BOOT_STEP = 0 ∧ (aBoot 0 0).fwTake 0 = (aBoot 0 0, some (aImage 0)) := by
  have e : (aBoot 0 0).fwOk 0 (aImage 0) = true := by simp only [State.fwOk, h, hx, beq_self_eq_true, Bool.and_true]; decide +kernel
  have f : (aBoot 0 0).flag MGT_FW_STAT (fwTrial 0) = false ∧ (aBoot 0 0).rd MGT_FW_STAT (fwOther 0) ≠ fwPending ∧
    (aBoot 0 0).fwBytes 0 ((aBoot 0 0).fwSlot 0) = aImage 0 ∧ (aBoot 0 0).rd RST_BOOT RST_BOOT_STEP = 0 := by decide +kernel
  refine ⟨f.2.2.2, ?_⟩
  simp [State.fwTake, State.fwTakeActive, f, e]
def aCdie : State := regs [(MGT_DIE_MAP, MGT_DIE_MAP_VALID, 1), (MGT_CRA_STAT 1, MGT_CRA_STAT_STATE, 3), (MGT_CRA_STAT 2, MGT_CRA_STAT_STATE, 3)] (aStep 4)
theorem test_hyp_Boot_8 : aCdie.rd RST_BOOT RST_BOOT_STEP = 4 ∧ aCdie.flag MGT_DIE_MAP MGT_DIE_MAP_FAULT = false ∧
    aCdie.flag MGT_DIE_MAP MGT_DIE_MAP_VALID = true ∧ aCdie.craSt 1 = clActive ∧ aCdie.craSt 2 = clActive := by decide +kernel
theorem test_hyp_Boot_4 : (aStep 6).rd RST_BOOT RST_BOOT_STEP = 6 ∧ (aStep 7).rd RST_BOOT RST_BOOT_STEP = 7 := by decide +kernel
theorem test_hyp_Boot_5 : State.reset.lockSet 1 = false ∧ State.reset.lockSet 12 = false := by decide +kernel
def aLocks : State := st [(HIF_PCIE_CFG, HIF_PCIE_CFG_LOCK, 1), (MGT_MEM_CTL, MGT_MEM_CTL_CXL_LOCK, 1), (XLT_CTL, XLT_CTL_LOCK, 1),
  (CCH_REPL, CCH_REPL_LOCK, 1), (EPO_LEDGER_CFG 0, EPO_LEDGER_CFG_LOCK, 1), (EPO_LEDGER_CFG 1, EPO_LEDGER_CFG_LOCK, 1),
  (CCH_SC_CARVE 0, CCH_SC_CARVE_LOCK, 1), (CCH_SC_CARVE 1, CCH_SC_CARVE_LOCK, 1), (HBM_SHD_CFG 0, HBM_SHD_CFG_GRANULES, 600),
  (HBM_SHD_CFG 0, HBM_SHD_CFG_EN, 1), (TIL_FACET_BASE, TIL_FACET_BASE_BASE, 2), (TIL_FACET_BASE, TIL_FACET_BASE_LOCK, 1), (SPW_TIER_CFG, SPW_TIER_CFG_LOCK, 1),
  (HIF_HOLD_CFG, HIF_HOLD_CFG_LOCK, 1), (FGN_CFG, FGN_CFG_LOCK, 1), (FGN_CFG, FGN_CFG_EN, 1), (SEC_CTL, SEC_CTL_KEYLOCK, 1)]
theorem test_hyp_Boot_6 : (∀ k : Fin 12, aLocks.lockSet (k.val + 1) = true) ∧ aLocks.flag RST_BOOT RST_BOOT_DONE = false := by decide +kernel

def aVer (b : Bool) : State := mgt aRun fun m => { m with fwVerified := [(0, b)] }
def aTrial (c : Nat) : State := regs [(MGT_FW_STAT, fwTrial c, 1)] aRun
theorem test_hyp_Firmware_1 : aRun.updateServed 0 = true ∧ aRun.rd MGT_FW_STAT (fwOther 0) ≠ fwPending ∧
    aRun.flag MGT_FW_STAT (fwTrial 0) = false ∧ ([7] : List Byte).length ≤ fwSlotSize 0 := by decide +kernel
theorem test_hyp_Firmware_2 : (aTrial 0).updateServed 0 = true ∧ (aTrial 0).flag MGT_FW_STAT (fwTrial 0) = true := by decide +kernel
theorem test_hyp_Firmware_3 : (aVer false).updateServed 0 = true ∧ mfind (aVer false).mgt.fwVerified 0 = some false := by decide +kernel
theorem test_hyp_Firmware_4 : (aVer true).updateServed 0 = true ∧ mfind (aVer true).mgt.fwVerified 0 = some true := by decide +kernel
theorem test_hyp_Firmware_5 : (aTrial 2).flag MGT_FW_STAT (fwTrial 2) = true ∧ (aTrial 1).flag MGT_FW_STAT (fwTrial 1) = true ∧
    State.reset.flag MGT_FW_STAT (fwTrial 1) = false := by decide +kernel

theorem test_hyp_SvnAndKeys_1 : (aTrial 0).flag MGT_FW_STAT (fwTrial ((1 : BitVec 2).toNat - 1)) = true := by decide +kernel
def aImg : State := mgt aRun fun m => { m with fwImg := [(2, [0, 0, 0, 0, 0, 63])] }
theorem test_hyp_SvnAndKeys_2 : (1 : BitVec 2) ≠ 0 ∧ aImg.flag MGT_FW_STAT (fwTrial 0) = false ∧
    leAt (aImg.fwBytes 0 (aImg.fwSlot 0)) 5 1 ≤ 63 := by decide +kernel
def aKey : State := mgt aRun fun m => { m with keySlots := [(4, 77)] }
theorem test_hyp_SvnAndKeys_3 : aRun.flag SEC_CTL SEC_CTL_KEYLOCK = false ∧ 1 ≤ (4 : BitVec 3).toNat ∧ (4 : BitVec 3).toNat ≤ 4 ∧
    mfind aRun.mgt.keySlots 4 = none := by decide +kernel
theorem test_hyp_SvnAndKeys_4 : aKey.flag SEC_CTL SEC_CTL_KEYLOCK = false ∧ mfind aKey.mgt.keySlots (4 : BitVec 3).toNat ≠ none := by decide +kernel
theorem test_hyp_SvnAndKeys_5 : (5 : BitVec 3).toNat > 4 ∧ aLocks.flag SEC_CTL SEC_CTL_KEYLOCK = true := by decide +kernel

theorem test_hyp_MeasurementsAndAttestation_1 : aRun.flag SEC_CTL SEC_CTL_KEYLOCK = false ∧ (5 : BitVec 3) ≠ 6 ∧ (5 : BitVec 3) ≠ 7 := by decide +kernel
theorem test_hyp_MeasurementsAndAttestation_2 : aRun.mgt.att = none ∧ aRun.flag SEC_SIG_STAT SEC_SIG_STAT_EXHAUSTED = false ∧
    aRun.isMem (aRun.rd SEC_ATT_ADDR SEC_ATT_ADDR_BASE * 64) 16384 = true ∧ aRun.inRecovery = false ∧ aRun.teaselRuns = true := by decide +kernel
def aAtt (sideband discarded : Bool) : State := mgt aRun fun m => { m with att := some ⟨sideband, 0, 5, 0xFF, discarded⟩ }
theorem test_hyp_MeasurementsAndAttestation_3 : (aAtt true false).mgt.att ≠ none ∧ (aAtt false true).mgt.att ≠ none := by decide +kernel

theorem test_hyp_LifeAndClocks_1 : aRun.teaselRuns = true ∧ aRun.mgt.teaselUp = true ∧ aRun.flag CLK_MEAS CLK_MEAS_BUSY = false := by decide +kernel
def aMeas : State := st [(CLK_MEAS, CLK_MEAS_BUSY, 1)]
theorem test_hyp_LifeAndClocks_2 : aMeas.flag CLK_MEAS CLK_MEAS_BUSY = true := by decide +kernel
def aDown : State := mgt State.reset fun m => { m with teaselUp := false }
theorem test_hyp_LifeAndClocks_3 : aDown.mgt.teaselUp = false := by decide +kernel

/-! ### Hypotheses: Craone, power, heat, self-test -/

def bCap : Line := BitVec.ofNat 512 (0x3F00000000 + 0x10000 + 5 * 2 ^ 88)
/-- Link l in a state, with the local block of bCap and all sites with power. -/
def bLinkAt (l k : Nat) : State :=
  let s := st [(MGT_CRA_STAT l, MGT_CRA_STAT_STATE, k), (MGT_CRA_CAPL_LO l, MGT_CRA_CAPL_LO_CAP, 0x3F00000000),
    (MGT_CRA_CAPL_HI l, MGT_CRA_CAPL_HI_CAP, 0x5000000)]
  { s with cra := { s.cra with sites := sitesUp } }
def bLink (k : Nat) : State := bLinkAt 0 k
def bHdr (op : Nat) (addr : BitVec 56) : CraHdr := ⟨5, BitVec.ofNat 8 op, 0, 0, 0, 0, addr, if op = 1 then 1 else 0, false, false, 0⟩
def bUp (s : State) : State := { s with cra := { s.cra with up := [0, 1], answered := [(0, 0x10, 9), (0, 0x10, 8)] } }
theorem test_hyp_CraoneLinks_1 : (bLink clTrain).craSt 0 = clTrain ∧ (bLink clTrain).cra.capGot.contains 0 = false ∧
    (bLinkAt 2 clTrain).craSt 2 = clTrain ∧ (bLinkAt 2 clTrain).site 1 true ≠ .off ∧ State.reset.site 1 true = .off := by decide +kernel
theorem test_hyp_CraoneLinks_2 : CraMgt (bLink clNegotiate) 0 1 (bHdr 1 0) ∧ bCap.toNat < 2 ^ 128 ∧ capBad bCap.toNat = false ∧
    (bLink clNegotiate).craSt 0 = clNegotiate ∧ negFault 0 ((bLink clNegotiate).capLocal 0) bCap.toNat = none := by
  unfold CraMgt; decide +kernel
theorem test_hyp_CraoneLinks_3 : capBad (0x3F00010001 : Line).toNat = false ∧
    negFault 0 ((bLink clNegotiate).capLocal 0) (0x3F00010001 : Line).toNat = some 1 := by decide +kernel
theorem test_hyp_CraoneLinks_4 : (bLink clActive).craSt 0 = clActive ∧ (bLink clActive).mgt.warm = .idle ∧
    CraMgt (bLink clActive) 0 4 (bHdr 4 0) ∧ CraMgt (bLink clActive) 0 3 (bHdr 3 7) := by unfold CraMgt; decide +kernel
theorem test_hyp_CraoneLinks_5 : (bLink clAbsent).craSt 0 = clAbsent ∧ (bLink clAbsent).cra.up.contains 0 = false ∧
    (bUp (bLink clAbsent)).craSt 0 = clAbsent ∧ (bUp (bLink clAbsent)).cra.up.contains 0 = true ∧ CraMgt (bLink clAbsent) 0 5 (bHdr 5 0) := by
  unfold CraMgt; decide +kernel
theorem test_hyp_CraoneLinks_6 : (bUp (bLink clAbsent)).cra.answered.contains (0, (0x10 : BitVec 8).toNat, (9 : BitVec 16).toNat) = true := by
  decide +kernel
def bOri (peer own : Bool) (north south : SiteSt) : State :=
  let s := regs [(MGT_DIE_MAP, MGT_DIE_MAP_SIDE_E, b2n own), (MGT_DIE_MAP, MGT_DIE_MAP_SIDE_W, b2n peer)] (bLink clActive)
  { s with cra := { s.cra with sites := [(2, north), (3, south)], oriented := [0] } }
theorem test_hyp_CraoneLinks_7 : CraMgt (bOri false true .training .trained) 0 2 (bHdr 2 0x100000000) ∧
    (bOri false true .training .trained).flag MGT_DIE_MAP MGT_DIE_MAP_FAULT = false ∧
    (bHdr 2 0x100000000).addr.getLsbD 40 = !(bOri false true .training .trained).ownSide true ∧
    (bOri false true .training .trained).site 1 true = .trained ∧ (bOri false true .training .trained).site 1 false ≠ .trained := by
  unfold CraMgt; decide +kernel
theorem test_hyp_CraoneLinks_8 : (bHdr 2 0x10100000000).addr.getLsbD 40 = (bOri true true .training .trained).ownSide true ∧
    CraMgt (bOri true true .training .trained) 0 2 (bHdr 2 0x10100000000) ∧
    (bOri false true .trained .training).site 1 false = .trained ∧ (bOri false true .trained .training).cra.oriented.contains 1 = false := by
  unfold CraMgt; decide +kernel
theorem test_hyp_CraoneLinks_9 : (bOri false true .training .trained).cra.oriented.contains (b2n false) = true := by decide +kernel
theorem test_hyp_CraoneLinks_10 : (bLink clActive).hdrBad 0 (bHdr 9 0) = true ∧ (31 : BitVec 5).toNat < craModules 0 ∧ (15 : BitVec 5).toNat < craModules 2 := by
  decide +kernel
/-- Link 1 absent, a transaction of the C0 system cache outstanding. -/
def bOut : State :=
  let s := bLinkAt 1 clAbsent
  { s with coh := { s.coh with outst := [⟨0x10, 9, 0x4000, false⟩] } }
theorem test_hyp_CraoneLinks_11 : bOut.craSt 1 = clAbsent ∧ bOut.cra.answered.contains (1, (0x10 : BitVec 8).toNat, (9 : BitVec 16).toNat) = false ∧
    scDie (0x10 : BitVec 8).toNat = some 0 ∧ bOut.coh.outst.any (fun o => o.agent == 0x10 && o.txid == 9) = true := by decide +kernel

def bPwr (p : Nat) : State := mgt (st [(PWR_PDIE, PWR_PDIE_OK, p)]) fun m => { m with railUp := true, pwrGood := true }
theorem test_hyp_PowerInput_1 : State.reset.mgt.railUp = false ∧ 48000 ≤ (48000 : BitVec 16).toNat ∧ (47999 : BitVec 16).toNat < 48000 := by
  decide +kernel
theorem test_hyp_PowerInput_2 : (bPwr 15).mgt.railUp = true ∧ 46000 ≤ (46000 : BitVec 16).toNat ∧ (46000 : BitVec 16).toNat ≤ 63000 ∧
    (45999 : BitVec 16).toNat < 46000 ∧ 63000 < (63001 : BitVec 16).toNat := by decide +kernel
theorem test_hyp_PowerInput_3 : bitAt ((bPwr 15).reg PWR_PDIE) 3 = true ∧ 3 ≤ (bPwr 15).pdies ∧ (bPwr 9).pdies ≤ 2 ∧
    bitAt ((bPwr 9).reg PWR_PDIE) 1 = false := by decide +kernel

def bPhase : State := st [(PWR_PHASE, PWR_PHASE_EN, 1)]
theorem test_hyp_EnergyDroopAgeing_1 : bPhase.flag PWR_PHASE PWR_PHASE_EN = true ∧ (st [(PWR_PHASE, PWR_PHASE_EN, 0)]).flag PWR_PHASE PWR_PHASE_EN = false := by
  decide +kernel
def bBand : State := { State.reset with pwr := { PwrSt.reset with fired := [(0, 3)], gb := [(0, 10)] } }
theorem test_hyp_EnergyDroopAgeing_2 : mget 0 State.reset.pwr.fired 0 + 1 ≤ State.reset.rd PWR_DROOP PWR_DROOP_RATE := by decide +kernel

def bCrit : State := { State.reset with pwr := { PwrSt.reset with crit := [0] } }
theorem test_hyp_HeatAndIdle_1 : bCrit.pwr.crit ≠ [] ∧ State.reset.pwr.crit = [] := by decide +kernel
theorem test_hyp_HeatAndIdle_2 : State.reset.rd PWR_THERM PWR_THERM_TJ_CRIT ≤ (255 : Byte).toNat ∧
    State.reset.rd PWR_THERM PWR_THERM_TJ_THR < (255 : Byte).toNat := by decide +kernel
/-- The idle state held, the tolerance told, and whether the package is waking. -/
def bIdle (k tol : Nat) (w : Bool) : State :=
  { st [(PWR_IDLE, PWR_IDLE_STATE, k), (PWR_IDLE, PWR_IDLE_TOL_US, tol), (PWR_IDLE, PWR_IDLE_FABRIC_OK, 1)] with
    pwr := { PwrSt.reset with waking := w } }
theorem test_hyp_HeatAndIdle_3 : (bIdle 0 40000 false).rd PWR_IDLE PWR_IDLE_STATE = idActive ∧ (bIdle 0 40000 false).idleAllowed = 3 ∧
    (bIdle 0 20 false).idleAllowed = 1 ∧ (bIdle 0 19 false).idleAllowed = 0 := by decide +kernel
theorem test_hyp_HeatAndIdle_4 : (bIdle 0 40000 false).idleReady = true := by decide +kernel
theorem test_hyp_HeatAndIdle_5 : (bIdle 2 100 true).rd PWR_IDLE PWR_IDLE_STATE ≠ idActive ∧ (bIdle 2 100 true).pwr.waking = true ∧
    (bIdle 2 100 true).rd PWR_IDLE PWR_IDLE_TOL_US < wakeLatency ((bIdle 2 100 true).rd PWR_IDLE PWR_IDLE_STATE) := by decide +kernel

/-- Engine 0 at work on a test; with stack 0 quiesced. -/
def bEb (k i : Nat) : State := { st [(TST_EB_CTL 0, TST_EB_CTL_BUSY, 1), (TST_EB_CTL 0, TST_EB_CTL_KIND, k), (TST_EB_CTL 0, TST_EB_CTL_INDEX, i)] with
  yar := { YarSt.reset with tests := [(0, ⟨k, i⟩)] } }
def bQui : State := st [(HBM_STAT 0, HBM_STAT_QUIESCED, 1)]
theorem test_hyp_EyebrightTests_1 : bQui.flag (TST_EB_CTL 0) TST_EB_CTL_BUSY = false ∧ bQui.ebCheck 0 3 63 = 0 ∧
    State.reset.ebCheck 2 5 95 = 0 := by decide +kernel
theorem test_hyp_EyebrightTests_2 : State.reset.flag (TST_EB_CTL 1) TST_EB_CTL_BUSY = false ∧ State.reset.ebCheck 1 0 0 ≠ 0 := by decide +kernel
theorem test_hyp_EyebrightTests_3 : (bEb 3 7).flag (TST_EB_CTL 0) TST_EB_CTL_BUSY = true ∧
    mfind (bEb 3 7).yar.tests 0 = some ⟨3, 7⟩ := by decide +kernel

def bTile (k : Nat) : State := st [(TIL_STATUS 5, TIL_STATUS_STATE, k)]
theorem test_hyp_InjectionAndRepair_1 : State.reset.tst 95 = tsUnbound ∧ (bTile tsOffline).tst 5 = tsOffline ∧
    96 ≤ (96 : BitVec 7).toNat := by decide +kernel
theorem test_hyp_InjectionAndRepair_2 : (bTile tsReady).tst (5 : BitVec 7).toNat ≠ tsUnbound ∧ (bTile tsReady).tst 5 ≠ tsOffline := by decide +kernel
theorem test_hyp_InjectionAndRepair_3 : State.reset.region (localOf (State.reset.rd TST_YAR_INJ_ADDR TST_YAR_INJ_ADDR_LINE * 64)) = .mem 0 ∧
    alignDown 0 64 < 0xC000000000 := by decide +kernel
def bFgn : State := st [(FGN_LINK_STAT 23, FGN_LINK_STAT_STATE, lkActive)]
theorem test_hyp_InjectionAndRepair_4 : (23 : BitVec 7).toNat < 24 ∧ bFgn.lkSt 23 = lkActive := by decide +kernel
def bFuse (c0 c1 : Nat) : State := st [(TST_REPAIR_STAT, fuseFree 0, c0), (TST_REPAIR_STAT, fuseFree 1, c1)]
theorem test_hyp_InjectionAndRepair_5 : (bFuse 0 1).rd TST_REPAIR_STAT (fuseFree (physDie 103)) ≠ 0 ∧
    (bFuse 0 1).yar.queued.contains 103 = false ∧ (bFuse 0 1).yar.fuseTiles.contains 103 = false ∧
    (bFuse 0 1).rd TST_REPAIR_STAT (fuseFree (physDie 0)) = 0 := by decide +kernel
def bWays (k : Nat) : State := st [(CCH_SC_CARVE 1, CCH_SC_CARVE_CACHE_WAYS, k)]
theorem test_hyp_InjectionAndRepair_6 : (bWays 3).wayOn 1 0 = true ∧ 2 < (bWays 3).rd (CCH_SC_CARVE 1) CCH_SC_CARVE_CACHE_WAYS ∧
    (bWays 2).rd (CCH_SC_CARVE 1) CCH_SC_CARVE_CACHE_WAYS ≤ 2 := by decide +kernel

/-! ### Hypotheses: tiles, facets, streams, DMA, faults, epochs, the ledger -/

/-- A descriptor of ring 0. -/
def wk (d : Nat) : Work := ⟨0, 0, BitVec.ofNat 512 d, false, 0, 0, 0⟩
/-- Tile 5 in a state of its ID. -/
def cT (k : Nat) (f : Tile → Tile) : State := tile (up [(TIL_STATUS 5, TIL_STATUS_STATE, k)]) 5 f
def cQ (k op : Nat) : State := cT k fun t => { t with wq := [wk op] }

theorem test_hyp_WorkDispatch_1 : ((cQ tsOffline 3).tile 5).wq = wk 3 :: [] ∧ (cQ tsOffline 3).tst 5 = tsOffline := by decide +kernel
theorem test_hyp_WorkDispatch_2 : ((cQ tsUnbound 0x20).tile 5).wq = [wk 0x20] ∧ (cQ tsUnbound 0x20).tst 5 = tsUnbound ∧
    (cQ tsUnbound 0x20).flag (EPO_STAT 5) EPO_STAT_FROZEN = false ∧ (cQ tsUnbound 0x20).ringHeld (wk 0x20) = false ∧
    (cQ tsUnbound 0x20).computeHeld = false ∧ (cQ tsUnbound 0x20).haltNow 5 = false ∧ bits (wk 0x20).desc 7 0 = 0x20 ∧ ((cQ tsUnbound 0x20).tile 5).bindIn = none := by decide +kernel
theorem test_hyp_WorkDispatch_3 : (cQ tsUnbound 0x11).tst 5 = tsUnbound ∧ (cQ tsUnbound 0x11).ringHeld (wk 0x11) = false ∧
    bits (wk 0x11).desc 7 0 ≠ 0x20 ∧ bits (wk 0x11).desc 7 0 ≠ 0x21 := by decide +kernel
theorem test_hyp_WorkDispatch_4 : (cQ tsReady 3).tst 5 = tsReady ∧ (cQ tsReady 3).ringHeld (wk 3) = false ∧ bits (wk 3).desc 7 0 = 3 ∧ lowBit (wk 3).desc 255 64 = none ∧
    ((cQ tsReady 3).tile 5).offered = none ∧
    ((cQ tsReady 3).tile 5).bindIn = none ∧ ((cQ tsReady 3).dq 5 6).length < 64 := by decide +kernel
theorem test_hyp_WorkDispatch_5 : (cQ tsBusy 0x11).tst 5 = tsBusy ∧ (cQ tsBusy 0x11).ringHeld (wk 0x11) = false ∧
    bits (wk 0x11).desc 7 0 = 0x11 ∧ ((cQ tsBusy 0x11).tile 5).bindIn = none ∧ ((cQ tsBusy 0x11).tile 5).offered = none := by decide +kernel

/-- Translations of the first 2 MiB of process 0 for a die: each virtual address maps to itself. -/
def atc (die : Nat) (s : State) : State :=
  { s with xlt := { s.xlt with atc := ⟨die, 0, 21, 0, 1, 0, false, false, true, true, true, true, false, true, 0⟩ :: s.xlt.atc } }

/-- A registered image of 256 zero bytes under handle 7. -/
def cFac (d : Bool) (r : Nat) : Facet := ⟨0xAB, 1, 1, 0, 256, 256, r, d⟩
def cBind : State := { regs [(EPO_MODE, EPO_MODE_RESIL, 0)] <| atc 0 (cT tsUnbound (fun t => { t with bindIn := some (wk (0x20 + 7 * 2 ^ 64)) })) with facets := [(7, cFac false 0)] }
theorem test_hyp_Facets_1 : (cBind.tile 5).bindIn = some (wk (0x20 + 7 * 2 ^ 64)) ∧
    minOpt (lowBit (wk (0x20 + 7 * 2 ^ 64)).desc 127 72) (minOpt (lowBit (wk (0x20 + 7 * 2 ^ 64)).desc 133 128)
      (lowBit (wk (0x20 + 7 * 2 ^ 64)).desc 511 184)) = none ∧
    mfind cBind.facets (bits (wk (0x20 + 7 * 2 ^ 64)).desc 71 64) = some (cFac false 0) ∧
    (cBind.vread (tileDie 5) (cBind.pasidOf (wk (0x20 + 7 * 2 ^ 64))) (bits (wk (0x20 + 7 * 2 ^ 64)).desc 183 128) 192).2
      = .ok (List.replicate 192 0) false ∧
    blockFault ((cBind.vread (tileDie 5) 0 0 192).1.facetImage (cFac false 0)) (paramWords (List.replicate 192 0)) = none ∧
    ((cBind.vread (tileDie 5) 0 0 192).1.tile 5).deferred = none ∧ (cBind.vread (tileDie 5) 0 0 192).1.tst 5 = tsUnbound ∧
    (cBind.vread (tileDie 5) 0 0 192).1.resil = false := by decide +kernel
def cUnb : State := cT tsReady fun t => { t with bindIn := some (wk 0x21) }
theorem test_hyp_Facets_2 : (cUnb.tile 5).bindIn = some (wk 0x21) ∧ bits (wk 0x21).desc 7 0 = 0x21 ∧ lowBit (wk 0x21).desc 511 64 = none ∧
    cUnb.tst 5 = tsReady ∧ cUnb.seqIdle 5 = true ∧ (cUnb.tile 5).deferred = none := by decide +kernel
def cLoad (d : Bool) : State := { cT tsLoading (fun t => { t with bind := some ⟨7, [], []⟩, loadWork := some (wk 0x20) }) with
  facets := [(7, cFac d 1)], poison := if d then [(localOf State.reset.facetBase, true)] else [] }
theorem test_hyp_Facets_3 : (cLoad false).tst 5 = tsLoading ∧ ((cLoad false).tile 5).bind = some ⟨7, [], []⟩ ∧
    mfind (cLoad false).facets 7 = some (cFac false 1) ∧ (cLoad false).facetPois (cFac false 1) = false ∧
    ((cLoad false).tile 5).loadWork.isSome = true ∧ ((cLoad false).tile 5).deferred = none := by decide +kernel
theorem test_hyp_Facets_4 : (cLoad true).tst 5 = tsLoading ∧ ((cLoad true).tile 5).bind = some ⟨7, [], []⟩ ∧
    mfind (cLoad true).facets 7 = some (cFac true 1) ∧ (cLoad true).facetPois (cFac true 1) = true := by decide +kernel
def cIdle : State := cT tsBusy fun t => { t with deferred := some (wk 0x21) }
theorem test_hyp_Facets_5 : cIdle.tst 5 = tsBusy ∧ (cIdle.tile 5).wq = [] ∧ (cIdle.tile 5).offered = none ∧ (cIdle.tile 5).bindIn = none ∧
    cIdle.seqIdle 5 = true ∧ (cIdle.tile 5).mat = none ∧ (cIdle.tile 5).kern = none ∧
    cIdle.flag (EPO_STAT 5) EPO_STAT_FROZEN = false := by decide +kernel
def cBet (d : Nat) (f : Facet) : State := { State.reset with hif := { HifSt.reset with betonyQ := [wk d] }, facets := [(7, f)] }
def cImg : List Byte := List.replicate 16 0 ++ [0, 1, 0, 0] ++ List.replicate 236 0
def cReg : Nat := 0x22 + 256 * 2 ^ 128 + 2 ^ 160
theorem test_hyp_Facets_6 : (cBet cReg (cFac false 0)).hif.betonyQ = wk cReg :: [] ∧ (cBet cReg (cFac false 0)).ringHeld (wk cReg) = false ∧
    bits (wk cReg).desc 7 0 = 0x22 ∧ minOpt (lowBit (wk cReg).desc 69 64) (lowBit (wk cReg).desc 511 161) = none ∧
    bits (wk cReg).desc 159 128 = 0x100 ∧ ((cBet cReg (cFac false 0)).fetchImage (wk cReg).desc cImg).ok = true ∧
    leAt ((cBet cReg (cFac false 0)).fetchImage (wk cReg).desc cImg).img 0x10 4 = 0x100 := by decide +kernel
theorem test_hyp_Facets_7 : bits (wk (0x23 + 7 * 2 ^ 64)).desc 7 0 = 0x23 ∧ lowBit (wk (0x23 + 7 * 2 ^ 64)).desc 511 72 = none ∧
    mfind (cBet (0x23 + 7 * 2 ^ 64) (cFac false 0)).facets 7 = some (cFac false 0) ∧
    mfind (cBet (0x23 + 7 * 2 ^ 64) (cFac false 1)).facets 7 = some (cFac false 1) ∧
    (cBet (0x23 + 7 * 2 ^ 64) (cFac false 1)).ringHeld (wk (0x23 + 7 * 2 ^ 64)) = false := by decide +kernel

def cChunk (q : Nat) : Chunk := ⟨0xC0DE, false, q⟩
/-- Tile 5 READY with input port 2 READY and one chunk or credit on the mesh. -/
def cStr (kind q acc : Nat) : State := { regs [(TIL_PORT_STAT 5 2, TIL_PORT_STAT_STATE, psReady)] (cT tsReady fun t =>
  { t with ports := [(2, { PortSt.reset with accepted := acc, owed := 3 })], parts := [⟨1, 0, 48, 63⟩], portDecls := [⟨false, 0, 4⟩, ⟨false, 0, 4⟩, ⟨false, 0, 4⟩] }) with mesh := [⟨kind, 5, 2, cChunk q⟩] }
theorem test_hyp_Streams_1 : takeFirst (fun (m : MeshChunk) => m.kind == 0 && m.tile == 5 && m.port == 2) (cStr 0 4 4).mesh
      = some (⟨0, 5, 2, cChunk 4⟩, []) ∧ (cStr 0 4 4).tst 5 = tsReady ∧ (cStr 0 4 4).portSt 5 2 = psReady ∧ (cStr 0 4 4).portRight 5 2 = true ∧
    (cStr 0 4 4).parted (tileDie ((cStr 0 4 4).portBind 5 2).2.1) (tileDie 5) = false ∧
    ((cStr 0 4 4).port 5 2).accepted = 4 ∧ ((cStr 0 3 4).port 5 2).accepted = 4 ∧ (cStr 0 3 4).portSt 5 2 = psReady := by decide +kernel
theorem test_hyp_Streams_2 : takeFirst (fun (m : MeshChunk) => m.kind == 2 && m.tile == 5 && m.port == 2) (cStr 2 0 0).mesh
      = some (⟨2, 5, 2, cChunk 0⟩, []) ∧ ((cStr 2 0 0).prsPort 5 2).accepted ≤ 0 := by decide +kernel
theorem test_hyp_Streams_3 : takeFirst (fun (m : MeshChunk) => m.kind == 3 && m.tile == 5 && m.port == 2) (cStr 3 0 0).mesh
      = some (⟨3, 5, 2, cChunk 0⟩, []) := by decide +kernel
def cPd : PortDecl := ⟨true, 0, 4⟩
/-- Output port 2 of tile 5 bound to input port 1 of tile 6, and that port bound back, in an epoch state. -/
def cBnd (k : Nat) : State := tile (regs [(EPO_STAT 6, EPO_STAT_STATE, k)] (tile (cStr 0 4 4) 5 fun t =>
    { t with bind := some ⟨7, [], [0, 0, 1 + 6 * 2 ^ 8 + 1 * 2 ^ 16]⟩, portDecls := [cPd, cPd, cPd],
             ports := [(2, { PortSt.reset with retained := [cChunk 0, cChunk 1, cChunk 2], owed := 2 })] })) 6
  fun t => { t with bind := some ⟨7, [], [0, 1 + 5 * 2 ^ 8 + 2 * 2 ^ 16]⟩, portDecls := [cPd, cPd],
                    ports := [(1, { PortSt.reset with accepted := 1, owed := 3 })] }
theorem test_hyp_Streams_4 : (cBnd esOpen).portBind 5 2 = (1, 6, 1) := by decide +kernel
theorem test_hyp_Streams_5 : (cBnd esReplay).portBind 6 1 = (1, 5, 2) ∧ (cBnd esReplay).epoSt 6 = esReplay := by decide +kernel
def cRel (k : Nat) : State := { up [(EPO_MODE, EPO_MODE_RESIL, 1)] with
  releases := [(42, 3)], prsPorts := [(42, { PrsPort.reset with released := k, accepted := 6, held := [cChunk 2, cChunk 3, cChunk 5] })] }
theorem test_hyp_Streams_6 : takeFirst (fun (r : Nat × Nat) => r.1 == 8 * 5 + 2) (cRel 2).releases = some ((42, 3), []) ∧
    seqLe (3 + 1) ((cRel 2).prsPort 5 2).released = false ∧ (cRel 2).resil = true := by decide +kernel
theorem test_hyp_Streams_7 : takeFirst (fun (r : Nat × Nat) => r.1 == 8 * 5 + 2) (cRel 4).releases = some ((42, 3), []) ∧
    seqLe (3 + 1) ((cRel 4).prsPort 5 2).released = true := by decide +kernel

/-- Tile 5 with all its store in one partition of every right. -/
def cSt (k : Nat) (f : Tile → Tile) : State := cT k fun t => f { t with parts := [⟨1, 0, 48, 63⟩] }
theorem test_hyp_ApertureAccess_1 : (cSt tsReady id).cut 0 (0x7C000000000 + 5 * 0x400000 + (0x2FFFF0 : BitVec 22).toNat) = false ∧
    (0x2FFFF0 : BitVec 22).toNat < 0x300000 ∧ (cSt tsReady id).tst 5 = tsReady ∧ (cSt tsReady id).tsRight 5 rtX 0x2FFFF0 16 = true := by
  decide +kernel
theorem test_hyp_ApertureAccess_2 : (cSt tsRemap id).tst 5 = tsRemap ∧ (cSt tsOffline id).tst 5 = tsOffline := by decide +kernel

def dEnt (d : Nat) : DmaEnt := ⟨BitVec.ofNat 256 d, none, 0, none, false, false⟩
def dDesc (op len src dst : Nat) : Nat := op + 0x300 + len * 2 ^ 32 + src * 2 ^ 64 + dst * 2 ^ 128
/-- Tile 5 with descriptors in DMA queue 1. -/
def dSt (l : List DmaEnt) : State := cSt tsReady fun t => { t with dma := [(1, l)], store := [⟨0x100, 7⟩, ⟨0x13F, 9⟩] }
def dHas (d : Nat) (p : State → DmaEnt → Bool) : Bool :=
  let s := dSt [dEnt d]
  s.dq 5 1 == dEnt d :: [] && s.dqRuns 5 1 && !(dEnt d).started && (dEnt d).inline == none && p s (dEnt d)
theorem test_hyp_TileDma_1 : dHas (dDesc 1 64 0x100 0x2000) (fun s e => decide (dmaOk e.desc = true ∧ dmaOp e.desc = 1 ∧
    dmaLsrc e.desc = true ∧ dmaLdst e.desc = true ∧ 1 ≤ dmaLen e.desc ∧ dmaLen e.desc ≤ 64 - dmaSrc e.desc % 64 ∧
    s.tsRight 5 rtD (dmaSrc e.desc) (dmaLen e.desc) = true ∧ s.tsRight 5 rtD (dmaDst e.desc) (dmaLen e.desc) = true)) = true := by decide +kernel
theorem test_hyp_TileDma_2 : dHas (dDesc 2 32 0x120 0x2000 + 2 ^ 192) (fun s e => decide (dmaOk e.desc = true ∧ dmaOp e.desc = 2 ∧
    dmaLsrc e.desc = true ∧ dmaLdst e.desc = true ∧ dmaRows e.desc = 1 ∧ 1 ≤ dmaLen e.desc ∧ dmaLen e.desc ≤ 64 - dmaSrc e.desc % 64 ∧
    s.tsRight 5 rtD (dmaSrc e.desc) (dmaLen e.desc) = true ∧ s.tsRight 5 rtD (dmaDst e.desc) (dmaLen e.desc) = true)) = true := by decide +kernel
theorem test_hyp_TileDma_3 : dHas (dDesc 3 63 0xAABBCCDDEEFF1122 0x2001) (fun s e => decide (dmaOk e.desc = true ∧ dmaOp e.desc = 3 ∧
    dmaLdst e.desc = true ∧ 1 ≤ dmaLen e.desc ∧ dmaLen e.desc ≤ 64 - dmaDst e.desc % 64 ∧
    s.tsRight 5 rtD (dmaDst e.desc) (dmaLen e.desc) = true)) = true := by decide +kernel
theorem test_hyp_TileDma_4 : dHas (dDesc 4 0 0 0) (fun _ e => decide (dmaOk e.desc = true ∧ dmaOp e.desc = 4)) = true := by decide +kernel
theorem test_hyp_TileDma_5 : dHas (dDesc 5 0 11 0x138) (fun s e => decide (dmaOk e.desc = true ∧ dmaOp e.desc = 5 ∧ e.moved = false ∧
    dmaLdst e.desc = true ∧ s.tsRight 5 rtD (dmaDst e.desc) 8 = true)) = true := by decide +kernel
theorem test_hyp_TileDma_6 : dHas (dDesc 1 0 0x100 0x2000) (fun _ e => decide (dmaOk e.desc = false ∧ dmaOp e.desc = 1)) = true := by decide +kernel
def dEnd : State := dSt [{ dEnt (dDesc 4 0 0 0) with started := true, moved := true }, dEnt (dDesc 4 0 0 0)]
def dHalt : State := regs [(TIL_DMA_STAT 5 1, TIL_DMA_STAT_HALTED, 1)] (dSt [{ dEnt 1 with started := true }, dEnt (dDesc 4 0 0 0)])
theorem test_hyp_TileDma_7 : dEnd.dq 5 1 = { dEnt (dDesc 4 0 0 0) with started := true, moved := true } :: [dEnt (dDesc 4 0 0 0)] ∧
    dEnd.tst 5 = tsReady := by decide +kernel
theorem test_hyp_TileDma_8 : dHalt.tst 5 = tsReady ∧ dHalt.flag (TIL_DMA_STAT 5 1) TIL_DMA_STAT_HALTED = true := by decide +kernel
theorem test_hyp_TileDma_9 : (cSt tsRemap id).tst 5 = tsRemap ∧ (cSt tsOffline id).tst 5 = tsOffline := by decide +kernel
/-- A WRITE_INLINE of two bytes at the head of queue 6. -/
def dLine : Nat := 0x10 + 0x80 * 2 ^ 64 + 2 * 2 ^ 120 + 0x5A5A * 2 ^ 192
def dInl : State := atc 0 <| cSt tsReady fun t => { t with dma := [(6, [{ dEnt 0 with inline := some (BitVec.ofNat 512 dLine), work := some (wk dLine) }])] }
theorem test_hyp_TileDma_10 : (dInl.dq 5 6).length = 1 ∧ dInl.dqRuns 5 6 = true ∧ inlineFault (BitVec.ofNat 512 dLine) = none ∧
    dInl.guarded 5 (bits (BitVec.ofNat 512 dLine) 119 64) (bits (BitVec.ofNat 512 dLine) 125 120) = false ∧
    (((dInl.setDq 5 6 []).gapDirty 5).vwrite (tileDie 5) 0 0x80 [0x5A, 0x5A] false).2 = .ok := by decide +kernel

def cMap : State := { cT tsRemap id with yar := { YarSt.reset with mapping := [(5, 103)] } }
/-- No spare is left on C0. -/
def cNo : State := { cT tsReady id with yar := { YarSt.reset with fuseTiles := List.range 104 } }
theorem test_hyp_TileFaults_2 : ((cT tsReady id).spareFor 5).isSome = true ∧ cNo.tst 5 = tsReady ∧ cNo.spareFor 5 = none := by decide +kernel
theorem test_hyp_TileFaults : (cT tsRemap id).tst 5 = tsRemap ∧ (cT tsReady id).tst 5 = tsReady ∧ mfind cMap.yar.mapping 5 = some 103 ∧
    cMap.tst 5 = tsRemap := by decide +kernel

def ePt (k : Nat) (f : EpoSt → EpoSt) : State := tile (up [(EPO_STAT 5, EPO_STAT_STATE, k), (EPO_MODE, EPO_MODE_RESIL, 1)]) 5 fun t =>
  { t with epo := f t.epo }
theorem test_hyp_Epochs_1 : ((ePt esSealing fun e => { e with committer := 1 }).epo 5).committer ≠ 0 ∧
    ((ePt esSealing fun e => { e with committer := 1 }).epo 5).sealed = false ∧
    (ePt esSealing fun e => { e with committer := 1 }).epoBusy 5 = false := by decide +kernel
theorem test_hyp_Epochs_2 : ((ePt esSealing fun e => { e with committer := 1, sealed := true, jrnl := [⟨64, 3, 8, 5, none, false⟩] }).epo 5).sealed
    = true ∧ (State.reset.epo 5).sealed = false := by decide +kernel
/-- A committed journal of one atomic add, its entry poisoned or not. -/
def eJ (p : Bool) : State := ePt esClosed fun e => { e with pub := [⟨3, [⟨64, 3, 8, 5, none, p⟩], 0, none, []⟩] }
theorem test_hyp_Epochs_3 : nextEntry ((eJ false).epo 5) = some (⟨64, 3, 8, 5, none, false⟩, ⟨3, [], 1, none, []⟩, []) ∧
    ((eJ false).applyEnt 5 ⟨64, 3, 8, 5, none, false⟩ none).2 = .ok ∧ JEnt.remote ⟨64, 3, 8, 5, none, false⟩ (eJ false).node = false := by decide +kernel
theorem test_hyp_Epochs_4 : nextEntry ((eJ true).epo 5) = some (⟨64, 3, 8, 5, none, true⟩, ⟨3, [], 1, none, []⟩, []) := by decide +kernel
theorem test_hyp_Epochs_5 : ((ePt esOpen fun e => { e with opening := true, opener := 1 }).epo 5).opening = true ∧
    ((ePt esOpen fun e => { e with opening := true, opener := 1 }).epo 5).opener = 1 := by decide +kernel
theorem test_hyp_Epochs_6 : (ePt esOpen id).resil = true ∧ (ePt esOpen id).epoSt 5 = esOpen := by decide +kernel
def eFroz : State := up [(EPO_STAT 5, EPO_STAT_FROZEN, 1)]
theorem test_hyp_Epochs_7 : eFroz.flag (EPO_STAT 5) EPO_STAT_FROZEN = true := by decide +kernel
theorem test_hyp_Epochs_8 : State.reset.rd EPO_MODE EPO_MODE_OPEN_CNT = 0 ∧ fget 0 EPO_MODE_RESIL = 0 := by decide +kernel
theorem test_hyp_Epochs_9 : (up [(EPO_MODE, EPO_MODE_OPEN_CNT, 1)]).rd EPO_MODE EPO_MODE_OPEN_CNT ≠ 0 ∧
    fget 0 EPO_MODE_RESIL ≠ (up [(EPO_MODE, EPO_MODE_OPEN_CNT, 1)]).rd EPO_MODE EPO_MODE_RESIL := by
  decide +kernel
/-- An EPOCH descriptor with an OP and guard range 15 in the hands of a vendor facet's sequencer. -/
def eDesc (op : Nat) : Work := wk (0x13 + op * 2 ^ 64 + 15 * 2 ^ 68 + 0x1000 * 2 ^ 128 + 0x1FFF * 2 ^ 192)
def eVend (op : Nat) : State := { cT tsBusy (fun t => { t with bind := some ⟨7, [], []⟩, seq := { Seq.reset with held := some (eDesc op) } }) with
  facets := [(7, { cFac false 1 with facetId := 0x101 })] }
theorem test_hyp_Epochs_10 : [0, 1, 3].all (fun op => decide ((eVend op).vendorBound 5 = true ∧ (eVend op).tst 5 = tsBusy ∧
    ((eVend op).tile 5).seq.held = some (eDesc op) ∧ bits (eDesc op).desc 7 0 = 0x13 ∧ (eVend op).epoSt 5 = esClosed ∧
    bits (eDesc op).desc 67 64 = op)) = true := by decide +kernel

def lSt (n : Nat) : State := up [(EPO_LEDGER_CFG 1, EPO_LEDGER_CFG_SIZE, n)]
theorem test_hyp_Ledger_1 : (8191 : BitVec 18).toNat < (lSt 1).lcells 1 ∧ (lSt 1).lcells 1 ≤ (8192 : BitVec 18).toNat := by decide +kernel
theorem test_hyp_Ledger_2 : State.reset.flag (EPO_LEDGER_CLR 1) EPO_LEDGER_CLR_BUSY = false ∧
    (up [(EPO_LEDGER_CLR 1, EPO_LEDGER_CLR_BUSY, 1)]).flag (EPO_LEDGER_CLR 1) EPO_LEDGER_CLR_BUSY = true := by decide +kernel
theorem test_hyp_Ledger_3 : State.reset.flag (EPO_LEDGER_CFG 1) EPO_LEDGER_CFG_LOCK = false ∧ fget 25 EPO_LEDGER_CFG_SIZE ≤ 25 := by decide +kernel
set_option maxRecDepth 20000 in
theorem test_hyp_Ledger_4 : ∃ t1 t2 u1 u2, exec (.ledgerAdd 1 5 false 0x3F800000) (lSt 1) = .next t1 ∧ exec (.ledgerAdd 1 5 true 0x4000) t1 = .next t2 ∧
    exec (.ledgerAdd 1 5 true 0x4000) (lSt 1) = .next u1 ∧ exec (.ledgerAdd 1 5 false 0x3F800000) u1 = .next u2 ∧
    (t2.lcell 1 5).ovf = false ∧ (u2.lcell 1 5).ovf = false := ⟨_, _, _, _, rfl, rfl, rfl, rfl, by decide +kernel, by decide +kernel⟩

/-! ### Hypotheses: the facet sequencer -/

/-- A word of the sequencer. -/
def sw (op d a b im : Nat) : W32 := BitVec.ofNat 32 (op * 2 ^ 26 + d * 2 ^ 22 + a * 2 ^ 18 + b * 2 ^ 14 + im)
/-- Tile 5 READY, its sequencer at instruction 1, the word w; all of the tile store in one partition of a kind and every right. -/
def sqK (k : Nat) (w : W32) (f : Tile → Tile) : State := tile (up [(TIL_STATUS 5, TIL_STATUS_STATE, tsReady), (TIL_SEQ_STAT 5, TIL_SEQ_STAT_PC, 1)]) 5
  fun t => f { t with micro := [0, w], parts := [⟨k, 0, 48, 63⟩], seq := { t.seq with run := true, g := [(1, 0xF0), (2, 0x40), (3, 0x1C0)] } }
def sq (w : W32) (f : Tile → Tile) : State := sqK 1 w f
/-- The held descriptor of its sequencer. -/
def hold (w : Work) (t : Tile) : Tile := { t with seq := { t.seq with held := some w } }

theorem test_hyp_SequencerRegistersAndControl_1 : ∀ op ∈ [1, 2, 3, 4, 5, 6, 7, 8, 9, 10, 11, 12], SeqAt (sq (sw op 15 1 2 0) id) 5 (sw op 15 1 2 0) op := by
  unfold SeqAt; decide +kernel
theorem test_hyp_SequencerRegistersAndControl_2 : ∀ op ∈ [0x10, 0x11, 0x12, 0x13, 0x14], SeqAt (sq (sw op 0 1 0 63) id) 5 (sw op 0 1 0 63) op ∧
    SeqAt (sq (sw 0x15 2 0 0 63) id) 5 (sw 0x15 2 0 0 63) 0x15 := by
  unfold SeqAt; decide +kernel
theorem test_hyp_SequencerRegistersAndControl_3 : SeqAt (sq 0 id) 5 0 0 := by unfold SeqAt; decide +kernel
theorem test_hyp_SequencerRegistersAndControl_4 : ∀ op ∈ [0x18, 0x19, 0x1A, 0x1B], SeqAt (sq (sw op 1 2 0 0x3FFFF) id) 5 (sw op 1 2 0 0x3FFFF) op := by
  unfold SeqAt; decide +kernel
theorem test_hyp_SequencerRegistersAndControl_5 : ∀ op ∈ [0x1C, 0x1D], SeqAt (sq (sw op 0 0 0 5) id) 5 (sw op 0 0 0 5) op ∧
    ((sq (sw op 0 0 0 5) id).tile 5).seq.rstack.length < 8 := by unfold SeqAt; decide +kernel
def rst (l : List Nat) (t : Tile) : Tile := { t with seq := { t.seq with rstack := l } }
theorem test_hyp_SequencerRegistersAndControl_6 : SeqAt (sq (sw 0x1E 0 0 0 0) (rst [8191])) 5 (sw 0x1E 0 0 0 0) 0x1E ∧
    ((sq (sw 0x1E 0 0 0 0) (rst [8191])).tile 5).seq.rstack = 8191 :: [] := by unfold SeqAt; decide +kernel
def busyClv (t : Tile) : Tile := { t with clv := [0] }
theorem test_hyp_SequencerRegistersAndControl_7 : SeqAt (sq (sw 0x1D 0 0 0 5) (fun t => busyClv (rst [1, 2, 3, 4, 5, 6, 7, 8] t))) 5 (sw 0x1D 0 0 0 5) 0x1D ∧
    8 ≤ ((sq (sw 0x1D 0 0 0 5) (fun t => busyClv (rst [1, 2, 3, 4, 5, 6, 7, 8] t))).tile 5).seq.rstack.length ∧
    ((sq (sw 0x1D 0 0 0 5) busyClv).tile 5).clv ≠ [] ∧ SeqAt (sq (sw 0x1E 0 0 0 0) busyClv) 5 (sw 0x1E 0 0 0 0) 0x1E ∧
    ((sq (sw 0x1E 0 0 0 0) busyClv).tile 5).seq.rstack = [] ∧
    SeqAt (sq (sw 0x28 1 0 0 0) (fun t => hold (wk 3) (busyClv t))) 5 (sw 0x28 1 0 0 0) 0x28 ∧
    ((sq (sw 0x28 1 0 0 0) (fun t => hold (wk 3) (busyClv t))).tile 5).seq.held ≠ none := by unfold SeqAt; decide +kernel

theorem test_hyp_SequencerWordsAndWork_1 : ∀ op ∈ [0x20, 0x21], SeqAt (sq (sw op 3 1 0 8) id) 5 (sw op 3 1 0 8) op ∧
    (sq (sw op 3 1 0 8) id).seqAcc 5 ((sq (sw op 3 1 0 8) id).gaImm 5 (sw op 3 1 0 8)) 8 8 = true ∧
    (sq (sw op 3 1 0 8) id).guarded 5 ((sq (sw op 3 1 0 8) id).gaImm 5 (sw op 3 1 0 8)) 8 = false := by unfold SeqAt; decide +kernel
def eOpenS (s : State) : State := regs [(EPO_STAT 5, EPO_STAT_STATE, esOpen)] s
def sGua : State := regs [(EPO_GUARD_LO 5 0, EPO_GUARD_LO_LO, 0x40), (EPO_GUARD_HI 5 0, EPO_GUARD_HI_HI, 0x400)] <| eOpenS (sq (sw 0x21 3 1 0 8) id)
theorem test_hyp_SequencerWordsAndWork_14 : SeqAt sGua 5 (sw 0x21 3 1 0 8) 0x21 ∧ sGua.seqAcc 5 (sGua.gaImm 5 (sw 0x21 3 1 0 8)) 8 8 = true ∧
    sGua.guarded 5 (sGua.gaImm 5 (sw 0x21 3 1 0 8)) 8 = true := by unfold SeqAt; decide +kernel
def sPrm (t : Tile) : Tile := hold (wk (0x12 + 9 * 2 ^ 448)) { t with bind := some ⟨7, List.replicate 16 9, []⟩ }
theorem test_hyp_SequencerWordsAndWork_2 : SeqAt (sq (sw 0x22 4 0 0 15) sPrm) 5 (sw 0x22 4 0 0 15) 0x22 ∧
    ((sq (sw 0x22 4 0 0 15) sPrm).tile 5).bind = some ⟨7, List.replicate 16 9, []⟩ ∧ SeqAt (sq (sw 0x23 4 0 0 7) sPrm) 5 (sw 0x23 4 0 0 7) 0x23 ∧
    ((sq (sw 0x23 4 0 0 7) sPrm).tile 5).seq.held = some (wk (0x12 + 9 * 2 ^ 448)) := by unfold SeqAt; decide +kernel
theorem test_hyp_SequencerWordsAndWork_3 : ∀ k ∈ [0, 1, 2, 3, 4, 5, 6, 15], SeqAt (sq (sw 0x24 4 0 0 k) sPrm) 5 (sw 0x24 4 0 0 k) 0x24 ∧
    bits (sw 0x24 4 0 0 k) 3 0 = k := by unfold SeqAt; decide +kernel
theorem test_hyp_SequencerWordsAndWork_4 : SeqAt (sq (sw 0x33 1 2 3 0) id) 5 (sw 0x33 1 2 3 0) 0x33 ∧ (sq (sw 0x33 1 2 3 0) id).epoSt 5 = esClosed := by
  unfold SeqAt; decide +kernel
def offer (w : Work) (t : Tile) : Tile := { t with offered := some w }
theorem test_hyp_SequencerWordsAndWork_5 : SeqAt (sq (sw 0x28 1 0 0 0) (offer (wk 0x10))) 5 (sw 0x28 1 0 0 0) 0x28 ∧
    ((sq (sw 0x28 1 0 0 0) (offer (wk 0x10))).tile 5).seq.held = none ∧
    ((sq (sw 0x28 1 0 0 0) (offer (wk 0x10))).tile 5).offered = some (wk 0x10) ∧
    (sq (sw 0x28 1 0 0 0) (offer (wk 0x10))).haltNow 5 = false := by unfold SeqAt; decide +kernel
/-- Its epoch open. -/
def eOpen (s : State) : State := regs [(EPO_STAT 5, EPO_STAT_STATE, esOpen)] s
theorem test_hyp_SequencerWordsAndWork_6 : SeqAt (eOpen (sq (sw 0x29 0 2 0 0x30) (hold (wk 0x11)))) 5 (sw 0x29 0 2 0 0x30) 0x29 ∧
    ((eOpen (sq (sw 0x29 0 2 0 0x30) (hold (wk 0x11)))).tile 5).seq.held = some (wk 0x11) ∧
    (eOpen (sq (sw 0x29 0 2 0 0x30) (hold (wk 0x11)))).journaled 5 = true ∧
    ((eOpen (sq (sw 0x29 0 2 0 0x30) (hold (wk 0x11)))).epo 5).jrnl.length < journalCap := by unfold SeqAt; decide +kernel
theorem test_hyp_SequencerWordsAndWork_7 : SeqAt (sq (sw 0x2A 0 2 0 3) id) 5 (sw 0x2A 0 2 0 3) 0x2A ∧
    (sq (sw 0x2A 0 2 0 3) id).seqAcc 5 ((sq (sw 0x2A 0 2 0 3) id).g 5 2).toNat 32 32 = true ∧ ((sq (sw 0x2A 0 2 0 3) id).dq 5 3).length < 64 := by
  unfold SeqAt; decide +kernel
/-- A command in the tile store at 0x40. -/
def cmdAt (c : Nat) (t : Tile) : Tile := { t with store := memPut t.store 0x40 (leBytes 64 c) }
def clvC : Nat := 0x11 + 0x88 * 2 ^ 8 + 2 ^ 20 + 0x1000 * 2 ^ 32 + 2 ^ 64 + 0x2000 * 2 ^ 96 + 2 ^ 128 + 2 ^ 224
def sqClv (op : Nat) (q : List Line) : State := sq (sw op 0 2 0 0) fun t => cmdAt clvC { t with clv := q }
theorem test_hyp_SequencerWordsAndWork_8 : ∀ q ∈ [[], [0, 0, 0], [0, 0, 0, 0]],
    BitVec.ofNat 512 clvC = BitVec.ofNat 512 (leVal ((sqClv 0x2B q).tsBytes 5 ((sqClv 0x2B q).g 5 2).toNat 64)) ∧
    (sqClv 0x2B q).seqAcc 5 ((sqClv 0x2B q).g 5 2).toNat 64 64 = true ∧ (sqClv 0x2B q).cmdAcc 5 (BitVec.ofNat 512 clvC) = true ∧
    SeqAt (sqClv 0x2B q) 5 (sw 0x2B 0 2 0 0) 0x2B ∧ clvFieldsOk (BitVec.ofNat 512 clvC) = true ∧
    (sqClv 0x2B q).cmdRegions 5 (BitVec.ofNat 512 clvC) false = true := by unfold SeqAt; decide +kernel
theorem test_hyp_SequencerWordsAndWork_9 : SeqAt (sqClv 0x2C []) 5 (sw 0x2C 0 2 0 0) 0x2C ∧ mvcFieldsOk (BitVec.ofNat 512 clvC) = true ∧
    (sqClv 0x2C []).cmdRegions 5 (BitVec.ofNat 512 clvC) true = true ∧ ((sqClv 0x2C []).tile 5).mvc.length < 2 := by
  unfold SeqAt; decide +kernel
def cvcC : Nat := 0x8A + 2 ^ 11 + 0x1000 * 2 ^ 32 + 0x2000 * 2 ^ 64
def sqCvc (q : List W256) : State := sq (sw 0x2D 0 2 0 0) fun t => cmdAt cvcC { t with cvc := q }
theorem test_hyp_SequencerWordsAndWork_10 :
    BitVec.ofNat 256 cvcC = BitVec.ofNat 256 (leVal ((sqCvc []).tsBytes 5 ((sqCvc []).g 5 2).toNat 32)) ∧
    SeqAt (sqCvc []) 5 (sw 0x2D 0 2 0 0) 0x2D ∧ (sqCvc []).seqAcc 5 ((sqCvc []).g 5 2).toNat 64 64 = true ∧
    cvcFieldsOk (BitVec.ofNat 256 cvcC) = true ∧
    (sqCvc []).tsRight 5 rtA (cvcSrc (BitVec.ofNat 256 cvcC)) (cvcSrcBytes (BitVec.ofNat 256 cvcC)) = true ∧
    (sqCvc []).tsRight 5 rtW (cvcDst (BitVec.ofNat 256 cvcC)) (cvcDstBytes (BitVec.ofNat 256 cvcC)) = true := by unfold SeqAt; decide +kernel
theorem test_hyp_SequencerWordsAndWork_11 : ((sqCvc [BitVec.ofNat 256 cvcC]).tile 5).cvc = BitVec.ofNat 256 cvcC :: [] ∧
    ((sqCvc [BitVec.ofNat 256 cvcC]).tile 5).seq.fault = none ∧
    (sqCvc [BitVec.ofNat 256 cvcC]).guarded 5 0x2000 64 = false := by decide +kernel
def sqWait (l : List DmaEnt) : State := sq (sw 0x2E 3 0 0 1) fun t => { t with dma := [(0, l)] }
theorem test_hyp_SequencerWordsAndWork_12 : SeqAt (sqWait []) 5 (sw 0x2E 3 0 0 1) 0x2E ∧
    waitOver (bits (sw 0x2E 3 0 0 1) 17 0) ((sqWait []).seqEvents 5) = true ∧ SeqAt (sqWait [dEnt 4]) 5 (sw 0x2E 3 0 0 1) 0x2E ∧
    waitOver (bits (sw 0x2E 3 0 0 1) 17 0) ((sqWait [dEnt 4]).seqEvents 5) = false := by unfold SeqAt; decide +kernel
/-- A launch descriptor of two umbels with 12 x and 4 f registers, and a facet whose kernels may run. -/
def kDesc : Nat := 0x12 + 0x1000 * 2 ^ 64 + 0x2000 * 2 ^ 128 + 2 * 2 ^ 192 + 12 * 2 ^ 198 + 4 * 2 ^ 203
def kFac (s : State) : State := { s with
  facets := [(7, cFac false 1)], mem := memPut s.mem (localOf s.facetBase + 0x17) [1] }
def kTile (w : Work) (t : Tile) : Tile := hold w { t with bind := some ⟨7, [], []⟩ }
def sqK2 (f : State → State) : State := f (sq (sw 0x30 3 0 0 0) (kTile (wk kDesc)))
theorem test_hyp_SequencerWordsAndWork_13 : SeqAt (sqK2 id) 5 (sw 0x30 3 0 0 0) 0x30 ∧ ((sqK2 id).tile 5).seq.held = some (wk kDesc) ∧
    bits (wk kDesc).desc 7 0 = 0x12 ∧ ((sqK2 id).tile 5).kern = none ∧ (sqK2 id).resil = true ∧
    (sqK2 id).kernRefusal 5 (wk kDesc).desc ≠ 0 ∧ SeqAt (sqK2 kFac) 5 (sw 0x30 3 0 0 0) 0x30 ∧
    (sqK2 kFac).kernRefusal 5 (wk kDesc).desc = 0 := by unfold SeqAt; decide +kernel

def lean (s : State) : State := regs [(EPO_MODE, EPO_MODE_RESIL, 0)] s
theorem test_hyp_SequencerEpochs_1 : SeqAt (sq (sw 0x31 3 0 0 0) id) 5 (sw 0x31 3 0 0 0) 0x31 ∧ (sq (sw 0x31 3 0 0 0) id).epoSt 5 = esClosed ∧
    (sq (sw 0x31 3 0 0 0) id).epoHeld 5 = false ∧ (sq (sw 0x31 3 0 0 0) id).spw.run = none ∧ (sq (sw 0x31 3 0 0 0) id).resil = true ∧ (sq (sw 0x31 3 0 0 0) id).midTile 5 = false ∧
    SeqAt (lean (sq (sw 0x31 3 0 0 0) id)) 5 (sw 0x31 3 0 0 0) 0x31 ∧ (lean (sq (sw 0x31 3 0 0 0) id)).epoHeld 5 = false ∧
    (lean (sq (sw 0x31 3 0 0 0) id)).resil = false := by unfold SeqAt; decide +kernel
theorem test_hyp_SequencerEpochs_2 : SeqAt (eOpen (sq (sw 0x32 0 0 0 0) id)) 5 (sw 0x32 0 0 0 0) 0x32 ∧
    (eOpen (sq (sw 0x32 0 0 0 0) id)).epoSt 5 = esOpen ∧ (eOpen (sq (sw 0x32 0 0 0 0) id)).resil = true ∧
    SeqAt (lean (eOpen (sq (sw 0x32 0 0 0 0) id))) 5 (sw 0x32 0 0 0 0) 0x32 ∧ (lean (eOpen (sq (sw 0x32 0 0 0 0) id))).resil = false := by
  unfold SeqAt; decide +kernel
/-- A wait at the word 0x40 for the value of g0 or g1. -/
def sqSem (b : Nat) : State := atc 0 (sq (sw 0x34 3 2 b 0) id)
theorem test_hyp_SequencerEpochs_3 : ∀ b ∈ [0, 1], semAddrOk ((sqSem b).g 5 2).toNat = true ∧ SeqAt (sqSem b) 5 (sw 0x34 3 2 b 0) 0x34 ∧
    (((sqSem b).seqCount 5).vread (tileDie 5) (((sqSem b).seqCount 5).seqPasid 5) ((sqSem b).g 5 2).toNat 8 .read false).2
      = .ok (List.replicate 8 0) false ∧
    ((sqSem 0).g 5 0).toNat ≤ leVal (List.replicate 8 0) ∧ leVal (List.replicate 8 0) < ((sqSem 1).g 5 1).toNat := by
  unfold SeqAt; decide +kernel
def sqPoll : State := regs [(TIL_SEQ_STAT 5, TIL_SEQ_STAT_WAIT_KIND, 3)] (sqSem 0)
theorem test_hyp_SequencerEpochs_4 : sqPoll.seqWord 5 = some (sw 0x34 3 2 0 0) ∧ (sqPoll.tile 5).seq.run = true ∧
    sqPoll.rd (TIL_SEQ_STAT 5) TIL_SEQ_STAT_WAIT_KIND = 3 ∧
    (sqPoll.vread (tileDie 5) (sqPoll.seqPasid 5) (sqPoll.g 5 2).toNat 8 .read false).2 = .ok (List.replicate 8 0) false := by
  decide +kernel
def sqSemp : State := atc 0 (sq (sw 0x35 0 2 1 0) id)
theorem test_hyp_SequencerEpochs_5 : SeqAt sqSemp 5 (sw 0x35 0 2 1 0) 0x35 ∧ semAddrOk (sqSemp.g 5 2).toNat = true ∧
    sqSemp.xlate (tileDie 5) (sqSemp.seqPasid 5) (sqSemp.g 5 2).toNat .write = .pa 0x40 false ∧
    (sqSemp.semRelease 5 0x40 (sqSemp.g 5 1).toNat).2 = .ok ∧ sqSemp.seqDrained 5 = true ∧ SeqAt (eOpen sqSemp) 5 (sw 0x35 0 2 1 0) 0x35 ∧
    (eOpen sqSemp).journaled 5 = true ∧ ((eOpen sqSemp).epo 5).jrnl.length < journalCap := by unfold SeqAt; decide +kernel

/-! ### Hypotheses: kernels and umbels -/

def offK (f : State → State) : State := f (cT tsBusy fun t => offer (wk kDesc) { t with bind := some ⟨7, [], []⟩ })
theorem test_hyp_Kernels_1 : ((offK kFac).kernTake 5).map (·.1) = some (wk kDesc) ∧ (offK kFac).tst 5 = tsBusy ∧ ((offK kFac).tile 5).kern = none ∧
    (offK kFac).resil = true ∧ (offK kFac).kernRefusal 5 (wk kDesc).desc = 0 ∧ ((offK id).kernTake 5).map (·.1) = some (wk kDesc) ∧
    (offK id).kernRefusal 5 (wk kDesc).desc ≠ 0 := by decide +kernel
/-- A kernel of 31 x and 32 f registers with its umbels. -/
def uDesc : Nat := 0x12 + 0x1000 * 2 ^ 64 + 2 ^ 192 + 31 * 2 ^ 198 + 32 * 2 ^ 203
def uKern (l : List (Nat × Umb)) : Kern := ⟨wk uDesc, true, l, true, 0, none, false⟩
def bndK (b : Bool) : State := cT tsBusy fun t => { t with kern := some { uKern [] with boundary := b } }
theorem test_hyp_Kernels_2 : ((bndK false).tile 5).kern = some (uKern []) ∧ (bndK false).epoSt 5 = esClosed ∧
    (∀ p ∈ ((bndK false).tile 5).l1, p.2.dirty = 0) := by decide +kernel
theorem test_hyp_Kernels_3 : ((bndK true).tile 5).kern = some { uKern [] with boundary := true } ∧ (bndK true).epoSt 5 = esClosed := by decide +kernel
/-- A launch whose ENTRY_VA is 0x1001. -/
def badK : State := kFac (cT tsBusy fun t => offer (wk (kDesc + 2 ^ 64)) { t with bind := some ⟨7, [], []⟩ })
def badS : State := kFac (sq (sw 0x30 3 0 0 0) (kTile (wk (kDesc + 2 ^ 64))))
theorem test_hyp_KernelMalformed_1 : badK.facetUmbel 5 = true ∧ (badK.tile 5).kern = none ∧ badK.haltNow 5 = false ∧
    bits (wk (kDesc + 2 ^ 64)).desc 119 64 % 4 ≠ 0 ∧ (badK.kernTake 5).map (·.1) = some (wk (kDesc + 2 ^ 64)) ∧ badK.tst 5 = tsBusy := by decide +kernel
theorem test_hyp_KernelMalformed_2 : badS.facetUmbel 5 = true ∧ (badS.tile 5).kern = none ∧ SeqAt badS 5 (sw 0x30 3 0 0 0) 0x30 ∧
    (badS.tile 5).seq.held = some (wk (kDesc + 2 ^ 64)) ∧ bits (wk (kDesc + 2 ^ 64)).desc 7 0 = 0x12 := by unfold SeqAt; decide +kernel

/-- An instruction word from its fields. -/
def uw (op d f3 a b f7 : Nat) : W32 := BitVec.ofNat 32 (op + d * 2 ^ 7 + f3 * 2 ^ 12 + a * 2 ^ 15 + b * 2 ^ 20 + f7 * 2 ^ 25)
/-- Umbel 0: x5 a row of each lane, x6 and x9 the same address in all, x7 odd lanes, x8 three. -/
def um (active : Nat) : Umb := ⟨0x1000, active, active, [], (List.range 32).flatMap (fun l =>
  [(64 * l + 5, BitVec.ofNat 64 (0x4000 + 64 * l)), (64 * l + 6, 0x8000), (64 * l + 7, BitVec.ofNat 64 (l % 2)), (64 * l + 8, 3),
   (64 * l + 9, 0x40), (64 * l + 38, 0x3F800000)]), [], [5, 6, 7, 8, 9, 33, 38], 0, 0, false, .none, 0⟩
def lanes32 : Nat := 2 ^ 32 - 1
/-- Tile 5 with its kernel, umbel 0 at the cached word w. -/
def us (w : W32) (m : Umb) (f : Tile → Tile) : State := atc 0 <| cT tsBusy fun t => f { t with
  kern := some (uKern [(0, m)]), parts := [⟨1, 0, 48, 63⟩], icache := [(2 * 0x1000, BitVec.ofNat 512 w.toNat)] }
/-- UmbAt as a check. -/
def umbAt (s : State) (w : W32) (m : Umb) (x : UExt) : Bool :=
  decide (s.uReady 5 0 = some (uKern [(0, m)], m) ∧ lanesOf m.active ≠ [] ∧ s.uFetch 5 (uKern [(0, m)]) m = (s, .word w) ∧ uExt w = some x) &&
  (match extInfo (uKern [(0, m)]) x w with | some i => rcHas m i | none => false)
theorem umbAt_spec (s : State) (w : W32) (m : Umb) (x : UExt) (h : umbAt s w m x = true) : UmbAt s 5 0 (uKern [(0, m)]) m w x := by
  unfold umbAt at h
  simp only [Bool.and_eq_true, decide_eq_true_eq] at h
  refine ⟨h.1.1, h.1.2.1, h.1.2.2.1, h.1.2.2.2, ?_⟩
  cases hi : extInfo (uKern [(0, m)]) x w with
  | none => simp [hi] at h
  | some i => exact ⟨i, rfl, by simpa [hi] using h.2⟩

def baseAt (w : W32) (m : Umb) : Bool := decide ((us w m id).uFetch 5 (uKern [(0, m)]) m = (us w m id, .word w) ∧ lanesOf m.active ≠ [] ∧
  (us w m id).uReady 5 0 = some (uKern [(0, m)], m) ∧ uExt w = none) &&
  (match (baseRegs w).bind (fun p => uRegs (uKern [(0, m)]).work.desc p.1 p.2) with | some i => rcHas m i | none => false)
theorem test_umbAt : UmbAt (us (uw 0x0B 10 3 5 8 0) (um 0xB) id) 5 0 (uKern [(0, um 0xB)]) (um 0xB) (uw 0x0B 10 3 5 8 0) .utld :=
  umbAt_spec _ _ _ _ (by decide +kernel)
theorem test_hyp_UmbelBase_1 : [uw 0x37 10 1 2 3 4, uw 0x17 10 1 2 3 4, uw 0x13 10 0 5 31 127, uw 0x1B 10 0 5 1 0, uw 0x3B 10 0 5 8 0,
    uw 0x33 0 0 5 8 0, uw 0x33 10 0 5 8 0x20, uw 0x33 10 1 5 8 0, uw 0x33 10 2 5 8 0, uw 0x33 10 3 5 8 0, uw 0x33 10 4 5 8 0, uw 0x33 10 5 5 8 0,
    uw 0x33 10 5 5 8 0x20, uw 0x33 10 6 5 8 0, uw 0x33 10 7 5 8 0, uw 0x33 10 0 5 8 1].all (fun w => baseAt w (um 0xB)) = true := by decide +kernel
theorem test_hyp_UmbelBase_2 : baseAt (uw 0x6F 1 0 0 8 0) (um 0xB) = true ∧ (um 0xB).stack = [] ∧ uOp (uw 0x6F 1 0 0 8 0) = 0x6F ∧
    plus64 (um 0xB).pc (immJ (uw 0x6F 1 0 0 8 0)) = 0x1008 := by decide +kernel
theorem test_hyp_UmbelBase_3 : baseAt (uw 0x63 16 0 0 0 0) (um 0xB) = true ∧ plus64 0x1000 (immB (uw 0x63 16 0 0 0 0)) = 0x1010 ∧
    (∀ l ∈ lanesOf (um 0xB).active, brTaken (uF3 (uw 0x63 16 0 0 0 0)) ((um 0xB).reg l 0) ((um 0xB).reg l 0) = true) ∧
    (∀ l ∈ lanesOf (um 0xB).active, brTaken (uF3 (uw 0x63 16 1 0 0 0)) ((um 0xB).reg l 0) ((um 0xB).reg l 0) = false) := by decide +kernel
theorem test_hyp_UmbelBase_4 : baseAt (uw 0x63 25 0 7 0 127) (um 0xB) = true ∧ plus64 0x1000 (immB (uw 0x63 25 0 7 0 127)) = 0xFF8 ∧
    (lanesOf (um 0xB).active).filter (fun l => brTaken 0 ((um 0xB).reg l 7) ((um 0xB).reg l 0)) = [0] ∧
    (lanesOf (um 0xB).active).filter (fun l => !brTaken 0 ((um 0xB).reg l 7) ((um 0xB).reg l 0)) = [1, 3] := by decide +kernel
def umE : Umb := { um 0xB with rc := [1, 2, 3, 4, 5, 6, 7, 10] }
theorem test_hyp_UmbelBase_5 : (us (uw 0x33 10 0 5 8 0) umE id).uReady 5 0 = some (uKern [(0, umE)], umE) ∧
    (uInfoOf (uKern [(0, umE)]) (uw 0x33 10 0 5 8 0)).map (·.src) = some [5, 8] ∧ [5, 8].find? (fun q => !umE.rc.contains q) = some 8 ∧
    umE.rc.length ≤ 8 := by decide +kernel
def umM : Umb := { um 0xB with wait := .mem, issued := true }
def ldW : W32 := uw 0x03 10 3 9 0 0
theorem test_hyp_UmbelBase_6 : (us ldW umM id).umb 5 0 = some (uKern [(0, umM)], umM) ∧ uExt ldW = none ∧ uOp ldW = 0x03 ∧
    (us ldW umM id).uFetch 5 (uKern [(0, umM)]) umM = (us ldW umM id, .word ldW) ∧
    ((us ldW umM id).lanesLoad 5 (uKern [(0, umM)]) ((lanesOf umM.active).map (fun l => (l, plus64 (umM.reg l (uRs1 ldW)) (immI ldW))))
      (2 ^ (uF3 ldW % 4)) (some .ok)).2 = .ok [(0, 0), (1, 0), (3, 0)] ∧
    ((((us ldW umM id).lanesLoad 5 (uKern [(0, umM)]) ((lanesOf umM.active).map (fun l => (l, plus64 (umM.reg l (uRs1 ldW)) (immI ldW))))
      (2 ^ (uF3 ldW % 4)) (some .ok)).1.tile 5).kern) = some (uKern [(0, umM)]) := by decide +kernel

def uAt (w : W32) (x : UExt) : Bool := umbAt (us w (um 0xB) id) w (um 0xB) x
def tsOk (a len : Nat) : Bool := let s := us 0 (um 0xB) id
  a % len == 0 && s.tsRight 5 rtU a len && !s.tsPois 5 a len && !s.guarded 5 a len
theorem test_hyp_UmbelTileStore_1 : [(0, UExt.utlb, 1), (1, .utlh, 2), (2, .utlw, 4), (3, .utld, 8), (4, .utlbu, 1), (5, .utlhu, 2), (6, .utlwu, 4)].all
    (fun p => uAt (uw 0x0B 10 p.1 5 8 0) p.2.1 && (lanesOf 0xB).all (fun l => tsOk (plus64 ((um 0xB).reg l 5) (immI (uw 0x0B 10 p.1 5 8 0))) p.2.2))
    = true := by decide +kernel
theorem test_hyp_UmbelTileStore_2 : [(0, UExt.utsb, 1), (1, .utsh, 2), (2, .utsw, 4), (3, .utsd, 8)].all
    (fun p => uAt (uw 0x2B 8 p.1 5 8 127) p.2.1 && (lanesOf 0xB).all (fun l => tsOk (plus64 ((um 0xB).reg l 5) (immS (uw 0x2B 8 p.1 5 8 127))) p.2.2))
    = true := by decide +kernel
def uAts : List (Nat × UExt) := [(0, .uaadd), (1, .uaswap), (4, .uaxor), (8, .uaor), (0x0C, .uaand), (0x10, .uamin), (0x14, .uamax), (0x18, .uaminu),
  (0x1C, .uamaxu), (5, .ufadd)]
theorem test_hyp_UmbelTileStore_3 : uAts.all (fun p => uAt (uw 0x5B 10 6 5 6 (4 * p.1)) p.2 && bitAt (uw 0x5B 10 6 5 6 (4 * p.1)) 14 &&
    (lanesOf 0xB).all (fun l => tsOk ((um 0xB).reg l 5) (atomSize (uw 0x5B 10 6 5 6 (4 * p.1))))) = true ∧
    uAt (uw 0x5B 7 7 5 8 12) .uacas = true ∧ (regs [(EPO_MODE, EPO_MODE_DET, 0)] (us 0 (um 0xB) id)).det = false := by decide +kernel

def gw (f3 f7 : Nat) : W32 := uw 0x7B 8 f3 5 6 f7
theorem test_hyp_UmbelGroupAndSync_1 : umbAt (us (gw 0 0) (um lanes32) id) (gw 0 0) (um lanes32) .umma = true ∧ (um lanes32).active = 2 ^ 32 - 1 ∧
    (um lanes32).low (uRs2 (gw 0 0)) % 64 = 0 ∧ (us (gw 0 0) (um lanes32) id).tsRight 5 rtU 0x8000 512 = true ∧
    (us (gw 0 0) (um lanes32) id).tsPois 5 0x8000 512 = false ∧ (lanesOf lanes32).all (fun l => tsOk ((um lanes32).reg l 5) 64) = true := by decide +kernel
theorem test_hyp_UmbelGroupAndSync_2 : [(0, UExt.ushflIdx), (1, .ushflXor), (2, .ushflUp), (3, .ushflDown), (4, .ushflBcast)].all (fun p =>
    umbAt (us (uw 0x7B 8 1 5 6 (16 * p.1)) (um lanes32) id) (uw 0x7B 8 1 5 6 (16 * p.1)) (um lanes32) p.2) = true ∧
    umbAt (us (uw 0x7B 8 1 6 8 24) (um lanes32) id) (uw 0x7B 8 1 6 8 24) (um lanes32) .ushflXor = true ∧
    umbAt (us (uw 0x7B 8 1 7 0 80) (um lanes32) id) (uw 0x7B 8 1 7 0 80) (um lanes32) .uballot = true := by decide +kernel
theorem test_hyp_UmbelGroupAndSync_3 : [0, 2, 5, 6, 7].all (fun i => uAt (uw 0x7B 8 2 1 6 (8 * i)) .ucvtO && (fmtOf (idxFmt i)).isSome) = true ∧
    tsOk ((um 0xB).low 6) 64 = true ∧ [0, 2, 5, 6, 7].all (fun i => uAt (uw 0x7B 1 2 6 0 (64 + 8 * i)) .ucvtI) = true := by decide +kernel
theorem test_hyp_UmbelGroupAndSync_4 : uAt (uw 0x7B 0 3 0 0 0) .ubar = true ∧ (um 0xB).active = (um 0xB).live := by decide +kernel
def umB : Umb := { um 0xB with wait := .bar, issued := true }
def sBar : State := us (uw 0x7B 0 3 0 0 0) umB id
theorem test_hyp_UmbelGroupAndSync_5 : (sBar.tile 5).kern = some (uKern [(0, umB)]) ∧ (uKern [(0, umB)]).abort = none ∧
    (∀ p ∈ (uKern [(0, umB)]).umbels, p.2.wait = .bar ∧ (p.1 = 0 → p.2 = umB)) ∧ mfind (uKern [(0, umB)]).umbels 0 = some umB ∧
    lanesOf umB.active ≠ [] := by decide +kernel
/-- A wait for the word at x9 to reach x0 or x8. -/
def swW (b : Nat) : W32 := uw 0x7B 10 3 9 b 1
theorem test_hyp_UmbelGroupAndSync_6 : [0, 8].all (fun b => uAt (swW b) .usemwait) = true ∧ (um 0xB).low 9 % 8 = 0 ∧
    (let r := (us (swW 0) (um 0xB) id).vread (tileDie 5) ((us (swW 0) (um 0xB) id).kPasid (uKern [])) 0x40 8 .read false
     r.2 = .ok (List.replicate 8 0) false ∧ (r.1.tile 5).kern = ((us (swW 0) (um 0xB) id).tile 5).kern ∧
     ∀ p ∈ (r.1.tile 5).l1, p.2.dirty = 0) ∧ (um 0xB).low 0 ≤ leVal (List.replicate 8 0) ∧ leVal (List.replicate 8 0) < (um 0xB).low 8 := by decide +kernel
def umS : Umb := { um 0xB with wait := .sem, issued := true }
theorem test_hyp_UmbelGroupAndSync_7 : (us (swW 0) umS id).umb 5 0 = some (uKern [(0, umS)], umS) ∧
    (us (swW 0) umS id).uFetch 5 (uKern [(0, umS)]) umS = (us (swW 0) umS id, .word (swW 0)) ∧ (uInfoOf (uKern [(0, umS)]) (swW 0)).isSome = true ∧
    (let r := (us (swW 0) umS id).vread (tileDie 5) ((us (swW 0) umS id).kPasid (uKern [])) 0x40 8 .read false
     r.2 = .ok (List.replicate 8 0) false ∧ (r.1.tile 5).kern = ((us (swW 0) umS id).tile 5).kern ∧
     ∀ p ∈ (r.1.tile 5).l1, p.2.dirty = 0) := by decide +kernel
def spW : W32 := uw 0x7B 0 3 9 8 2
theorem test_hyp_UmbelGroupAndSync_8 : uAt spW .usempost = true ∧ (us spW (um 0xB) id).xlate (tileDie 5) 0 0x40 .write = .pa 0x40 false ∧
    (us spW (um 0xB) id).atomOk 0x40 = true ∧ (us spW (um 0xB) id).guarded 5 0x40 8 = false ∧ (us spW umM id).umb 5 0 = some (uKern [(0, umM)], umM) ∧
    (us spW umM id).uFetch 5 (uKern [(0, umM)]) umM = (us spW umM id, .word spW) ∧ (extInfo (uKern [(0, umM)]) .usempost spW).isSome = true ∧
    ((((us spW umM id).l1FlushAll 5).l1Inv 5 (alignDown 0x40 64)).semRelease 5 0x40 3).2 = .ok ∧
    ((((us spW umM id).l1FlushAll 5).l1Inv 5 (alignDown 0x40 64)).semRelease 5 0x40 3).1.tile 5 = (us spW umM id).tile 5 := by decide +kernel
/-- Port 2 of tile 5 declared in a direction, with credits or with chunks. -/
def stW (k : Nat) : W32 := uw 0x7B 10 4 6 8 (8 * k + 2)
def portS (k : Nat) (out : Bool) (x : PortSt) (b : Word) : State := regs [(TIL_PORT_STAT 5 2, TIL_PORT_STAT_STATE, psReady)] <| us (stW k) (um 0xB) fun t =>
  { t with portDecls := [cPd, cPd, ⟨out, 0, 4⟩], routes := [if out then 0x0A + 9 * 2 ^ 5 + 2 * 2 ^ 10 + 2 ^ 13 else 9 + 0x0A * 2 ^ 5 + 2 * 2 ^ 10 + 2 ^ 13],
           ports := [(2, x)], bind := some ⟨7, [], [0, 0, b]⟩ }
def pCr (c : Nat) (k : Nat) (b : Word) : State := portS k true { PortSt.reset with credits := c } b
def pFi (c : Nat) (k : Nat) : State := portS k false { PortSt.reset with fifo := (List.range c).map cChunk, accepted := c } 0
theorem test_hyp_UmbelGroupAndSync_9 : [(0, UExt.usput, 3), (2, .ustryput, 1)].all (fun p => umbAt (pCr p.2.2 p.1 0x10601) (stW p.1) (um 0xB) p.2.1 &&
      decide ((pCr p.2.2 p.1 0x10601).portDecl 5 2 = some ⟨true, 0, 4⟩ ∧ (pCr p.2.2 p.1 0x10601).portSt 5 2 = psReady ∧
        (pCr p.2.2 p.1 0x10601).umbelRoute 5 2 true = true ∧ (pCr p.2.2 p.1 0x10601).tsRight 5 rtU 0x8000 192 = true ∧
        ((pCr p.2.2 p.1 0x10601).port 5 2).credits = p.2.2)) = true ∧ (um 0xB).low 8 = 3 ∧ (um 0xB).low 6 = 0x8000 ∧ (um 0xB).moved = 0 := by
  decide +kernel
theorem test_hyp_UmbelGroupAndSync_10 : [(1, UExt.usget, 3), (3, .ustryget, 1)].all (fun p => umbAt (pFi p.2.2 p.1) (stW p.1) (um 0xB) p.2.1 &&
      decide ((pFi p.2.2 p.1).portDecl 5 2 = some ⟨false, 0, 4⟩ ∧ (pFi p.2.2 p.1).portSt 5 2 = psReady ∧
        (pFi p.2.2 p.1).umbelRoute 5 2 false = true ∧ ((pFi p.2.2 p.1).port 5 2).fifo.length = p.2.2 ∧
        (pFi p.2.2 p.1).guarded 5 0x8000 192 = false)) = true := by decide +kernel
theorem test_hyp_DivergentGroup : umbAt (us (gw 0 0) (um 0xB) id) (gw 0 0) (um 0xB) .umma = true ∧ kDiv (wk uDesc).desc = false ∧
    (um 0xB).active ≠ 2 ^ 32 - 1 := by decide +kernel

theorem test_hyp_UmbelEpochsAndL1_1 : uAt (uw 0x7B 10 5 0 0 0) .uepopen = true ∧ (us 0 (um 0xB) id).epoSt 5 = esClosed ∧
    (us 0 (um 0xB) id).epoHeld 5 = false ∧ (us 0 (um 0xB) id).spw.run = none ∧ uAt (uw 0x7B 15 5 5 6 2) .uepguard = true := by decide +kernel
def ecW : W32 := uw 0x7B 0 5 0 0 1
theorem test_hyp_UmbelEpochsAndL1_2 : umbAt (eOpen (us ecW (um 0xB) id)) ecW (um 0xB) .uepcommit = true ∧ (eOpen (us ecW (um 0xB) id)).epoSt 5 = esOpen ∧
    ((eOpen (us ecW (um 0xB) id)).epo 5).committer = 0 ∧ (eOpen (us ecW (um 0xB) id)).resil = true ∧
    umbAt (lean (eOpen (us ecW (um 0xB) id))) ecW (um 0xB) .uepcommit = true ∧ (lean (eOpen (us ecW (um 0xB) id))).resil = false := by decide +kernel
def l1W (k : Nat) : W32 := uw 0x7B 0 6 5 0 k
/-- One line in the tile L1, with dirty bytes. -/
def sL1 (k : Nat) (dirty : Nat) : State := us (l1W k) (um 0xB) fun t => { t with l1 := [(0x4040, ⟨0xAABBCCDD * 2 ^ 32, 2 ^ 64 - 1, dirty, 0, 0⟩)] }
theorem test_hyp_UmbelEpochsAndL1_3 : [(0, UExt.ul1flush), (1, .ul1inv), (2, .ul1flushall), (3, .ul1invall)].all (fun p =>
    umbAt (sL1 p.1 0) (l1W p.1) (um 0xB) p.2) = true ∧ (∀ p ∈ ((sL1 0 0).tile 5).l1, p.2.dirty = 0) ∧
    (sL1 1 0).xlate (tileDie 5) 0 ((um 0xB).reg 1 5) .read = .pa 0x4040 false ∧ (sL1 1 0).l1Caches (uKern []) 0x4040 false = true := by decide +kernel
theorem test_hyp_UmbelEpochsAndL1_4 : [(2, UExt.ul1flushall), (3, .ul1invall)].all (fun p => umbAt (sL1 p.1 0xF0) (l1W p.1) (um 0xB) p.2) = true ∧
    maskRuns 0xF0 = [(4, 4)] ∧ ((sL1 2 0xF0).busWrite (tileDie 5) false 0x4044 (slice (leBytes 64 (0xAABBCCDD * 2 ^ 32)) 4 4) false).1.tiles
      = (sL1 2 0xF0).tiles := by decide +kernel

/-! ### Hypotheses: matrix arrays, Loupe, Speedwell -/

/-- A 1 by 1 by k BF16 matrix descriptor. -/
def mDesc (k : Nat) : Nat := 0x10 + 0x1000 * 2 ^ 64 + 8 * 2 ^ 120 + 0x2000 * 2 ^ 128 + 8 * 2 ^ 184 + 0x3000 * 2 ^ 192 + 8 * 2 ^ 248 + 2 ^ 256 + 2 ^ 276 +
  k * 2 ^ 296 + 2 ^ 320 + 2 ^ 336 + 2 ^ 352 + 0x3F800000 * 2 ^ 384
def mW (d : Nat) : Work := wk d
def mOff (d : Nat) : State := cT tsBusy (offer (mW d))
theorem test_hyp_MatrixSets_1 : (mOff (mDesc 1)).matSrc 5 = some (mW (mDesc 1), 0) ∧ (mOff (mDesc 1)).tst 5 = tsBusy ∧ ((mOff (mDesc 1)).tile 5).mat = none ∧
    ((mOff (mDesc 1)).tile 5).outs = [] ∧ (mOff (mDesc 1)).resil = true ∧ matBad (mW (mDesc 1)).desc = false ∧ matM (mW (mDesc 1)).desc ≠ 0 ∧
    matN (mW (mDesc 1)).desc ≠ 0 ∧ tileClocks (mW (mDesc 1)).desc ≤ 150000 ∧ matBad (mW (mDesc 1 + 2 ^ 511)).desc = true ∧
    (mOff (mDesc 1 + 2 ^ 511)).matSrc 5 = some (mW (mDesc 1 + 2 ^ 511), 0) ∧
    (mOff (mDesc 1 - 2 ^ 256)).matSrc 5 = some (mW (mDesc 1 - 2 ^ 256), 0) ∧ matBad (mW (mDesc 1 - 2 ^ 256)).desc = false ∧
    matM (mW (mDesc 1 - 2 ^ 256)).desc = 0 := by decide +kernel
def mBlk : WBlk := ⟨[denseCol ⟨List.replicate 32 0x3F80, []⟩], false⟩
def mJob (d : Nat) (b : Option WBlk) : MatJob := { newJob (mW d) 0 .clover with active := b }
def mRun (d : Nat) (b : Option WBlk) (f : Tile → Tile) : State := atc 0 (cT tsBusy fun t => f { t with mat := some (mJob d b) })
theorem test_hyp_MatrixSets_2 : ((mRun (mDesc 1) none id).tile 5).mat = some (mJob (mDesc 1) none) ∧ (mJob (mDesc 1) none).path = .clover ∧
    (mJob (mDesc 1) none).active = none ∧ 0 < matTiles (mW (mDesc 1)).desc ∧
    ((mRun (mDesc 1) none id).readBlock 0 ((mRun (mDesc 1) none id).jobPasid (mJob (mDesc 1) none)) (matB (mW (mDesc 1)).desc) (matSparse (mW (mDesc 1)).desc)
      (tileCol0 (mW (mDesc 1)).desc 0) (tileCols (mW (mDesc 1)).desc 0) 0 (matSpan (mW (mDesc 1)).desc)).1.tile 5 = (mRun (mDesc 1) none id).tile 5 ∧
    ((mRun (mDesc 1) none id).readBlock 0 ((mRun (mDesc 1) none id).jobPasid (mJob (mDesc 1) none)) (matB (mW (mDesc 1)).desc) (matSparse (mW (mDesc 1)).desc)
      (tileCol0 (mW (mDesc 1)).desc 0) (tileCols (mW (mDesc 1)).desc 0) 0 (matSpan (mW (mDesc 1)).desc)).2.1.isSome = true := by decide +kernel
def mCmd : Line := BitVec.ofNat 512 clvC
def mClv (b : Option WBlk) : State := cT tsBusy fun t => { t with clv := [mCmd], mvc := [mCmd], wblk := b }
def mClv2 : State := cT tsBusy fun t => { t with clv := [mCmd, mCmd], wblk := some mBlk }
def mSums (cols : List (List (List Nat) × List Nat)) : List V := addSet (cmdFa mCmd) (cmdFb mCmd) (Bank.zero.part (cmdRows mCmd) (cmdCols mCmd))
  ((List.range (cmdRows mCmd)).map (fun i => stagedSeg (cmdFa mCmd) (cmdSpan mCmd) (cmdKlen mCmd)
    ((mClv none).tsBytes 5 (cmdAct mCmd + i * cmdActStride mCmd) (stagedRow (cmdFa mCmd) (cmdSpan mCmd))))) cols
theorem test_hyp_MatrixSets_3 : ((mClv none).tile 5).mat = none ∧ ((mClv none).tile 5).clv = mCmd :: [] ∧ ((mClv none).tile 5).wblk = none ∧
    ((mClv none).tile 5).mvc = mCmd :: [] ∧ (mClv none).bankHeld 5 2 = false ∧ cmdFirst mCmd = true ∧
    ((mClv none).tile 5).seq.fault = none ∧ ((mClv (some mBlk)).tile 5).wblk = some mBlk ∧ ((mClv (some mBlk)).tile 5).clv = mCmd :: [] ∧
    (mClv (some mBlk)).bankHeld 5 (cmdBank mCmd) = false ∧ (mClv2.tile 5).clv = [mCmd, mCmd] ∧ (mClv2.tile 5).wblk = some mBlk ∧
    (mClv2.tile 5).wnext = none ∧ (mSums mBlk.cols).length = cmdRows mCmd * cmdCols mCmd := by decide +kernel
theorem test_hyp_MatrixSets_4 : ((mRun (mDesc 1) (some mBlk) id).tile 5).mat = some (mJob (mDesc 1) (some mBlk)) ∧
    (mJob (mDesc 1) (some mBlk)).active = some mBlk ∧ (mJob (mDesc 1) (some mBlk)).set = 0 ∧ ((mRun (mDesc 1) (some mBlk) id).tile 5).outs = [] ∧
    (let r := (mRun (mDesc 1) (some mBlk) id).readSegs 0 ((mRun (mDesc 1) (some mBlk) id).jobPasid (mJob (mDesc 1) (some mBlk))) (matA (mW (mDesc 1)).desc)
      (tileRow0 (mW (mDesc 1)).desc 0) (tileRows (mW (mDesc 1)).desc 0) 0 (matSpan (mW (mDesc 1)).desc)
     r.2 = .ok [⟨List.replicate 32 0, [127]⟩] false ∧ r.1.tile 5 = (mRun (mDesc 1) (some mBlk) id).tile 5) := by decide +kernel
def mFlt : State := eOpen (mRun (mDesc 1) none (hold (mW (mDesc 1))))
theorem test_hyp_MatrixSets_5 : (mFlt.tile 5).mat = some (mJob (mDesc 1) none) ∧ (mFlt.tile 5).seq.held = some (mW (mDesc 1)) ∧
    (mFlt.tile 5).seq.fault = none ∧ mFlt.journaled 5 = true ∧ (mFlt.epo 5).jrnl.length < journalCap := by decide +kernel

/-- An output tile of one row in bank 0. -/
def oT (ph : OtPhase) (cols : Nat) (acc : List V) (codes : List Nat) (data : List (List Byte)) (cmd : Option Line) (desc : Option Line) : OutTile :=
  ⟨0, 1, cols, 0, 0, acc, false, codes, 0, data, [], .zero, 0, ph, cmd, none, desc, 1⟩
def mO (d : Nat) (o : OutTile) : State := mRun d none fun t => { t with outs := [o] }
def oW : OutTile := oT .wait 1 [.fin false 3 0] [] [] none none
/-- A second set of a job of two sets. -/
def mRun2 : State := atc 0 (cT tsBusy fun t => { t with mat := some { mJob (mDesc 33) (some mBlk) with set := 1 }, outs := [oT .acc 1 [.fin false 3 0] [] [] none none] })
theorem test_hyp_MatrixSets_6 : (mRun2.tile 5).mat = some { mJob (mDesc 33) (some mBlk) with set := 1 } ∧
    (mRun2.tile 5).outs = [oT .acc 1 [.fin false 3 0] [] [] none none] ∧ 0 < matTiles (mW (mDesc 33)).desc ∧
    (let r := mRun2.readSegs 0 (mRun2.jobPasid (mJob (mDesc 33) none)) (matA (mW (mDesc 33)).desc)
      (tileRow0 (mW (mDesc 33)).desc 0) (tileRows (mW (mDesc 33)).desc 0) (1 * matSpan (mW (mDesc 33)).desc) (matSpan (mW (mDesc 33)).desc)
     (match r.2 with | .ok _ _ => true | _ => false) = true ∧ r.1.tile 5 = mRun2.tile 5) := by decide +kernel
theorem test_hyp_MatrixDrains_1 : draining ((mO (mDesc 1) oW).tile 5).outs = false ∧ ((mO (mDesc 1) oW).tile 5).outs.find? (fun o => o.phase == .wait) = some oW ∧
    ((mO (mDesc 1) oW).tile 5).mat = some (mJob (mDesc 1) none) ∧ oW.cmd = none ∧
    (mO (mDesc 1) oW).readC 5 (mJob (mDesc 1) none) 0 1 0 1 = (mO (mDesc 1) oW, .ok [] .zero false) := by decide +kernel
/-- A command's output tile, with a matrix descriptor held; and a descriptor with K = 0. -/
def oWc : OutTile := oT .wait 1 [.fin false 3 0] [] [] (some mCmd) none
def mOc (o : OutTile) : State := cT tsBusy fun t => hold (mW (mDesc 1)) { t with outs := [o] }
def mEdge : State := cT tsBusy fun t => { t with mat := some (newJob (mW (mDesc 0)) 0 .edge) }
theorem test_hyp_MatrixDrains_6 : draining ((mOc oWc).tile 5).outs = false ∧ ((mOc oWc).tile 5).outs.find? (fun o => o.phase == .wait) = some oWc ∧
    oWc.cmd = some mCmd ∧ (mOc oWc).heldMat 5 = some (mW (mDesc 1)).desc ∧ draining (mEdge.tile 5).outs = false ∧
    (mEdge.tile 5).outs.find? (fun o => o.phase == .wait) = none ∧ (mEdge.tile 5).mat = some (newJob (mW (mDesc 0)) 0 .edge) ∧
    (newJob (mW (mDesc 0)) 0 .edge).ot < matTiles (mW (mDesc 0)).desc ∧ (mEdge.tile 5).outs.any (fun o => o.bank == 0) = false ∧
    mEdge.readC 5 (newJob (mW (mDesc 0)) 0 .edge) 0 1 0 1 = (mEdge, .ok [] .zero false) := by decide +kernel
def oD : OutTile := oT .drain 1 [.fin false 3 0] [] [] none (some (mW (mDesc 1)).desc)
theorem test_hyp_MatrixDrains_2 : ((mO (mDesc 1) oD).tile 5).outs.find? (fun o => o.phase == .drain) = some oD ∧
    oD.par = some (outPar (mW (mDesc 1)).desc) ∧
    ((mO (mDesc 1) { oD with desc := none }).tile 5).outs.find? (fun o => o.phase == .drain) = some { oD with desc := none } ∧
    OutTile.par { oD with desc := none } = none := by decide +kernel
/-- MXFP8 output under OSCALE with OEXP 100. -/
def mDescX : Nat := mDesc 1 - 7 * 2 ^ 248 + 2 ^ 372 + 100 * 2 ^ 376
def oX (e : Int) : OutTile := oT .conv 1 [.fin false 1 e] [100] [] none (some (mW mDescX).desc)
theorem test_hyp_MatrixDrains_3 : ((mO mDescX (oX 60)).tile 5).outs.find? (fun o => o.phase == .conv && o.data == []) = some (oX 60) ∧
    (oX 60).par = some (outPar (mW mDescX).desc) ∧ (oX 60).trial < 2 ∧
    (excesses (outPar (mW mDescX).desc) 0 0 1 1 (oX 60).acc (oX 60).codes).any (· != 0) = true ∧
    (oX (-60)).par = some (outPar (mW mDescX).desc) ∧
    (excesses (outPar (mW mDescX).desc) 0 0 1 1 (oX (-60)).acc (oX (-60)).codes).any (· != 0) = false ∧
    (convertTile (outPar (mW mDescX).desc) 0 0 1 1 (oX (-60)).acc (oX (-60)).codes).data ≠ [] := by decide +kernel
/-- A 1 by 513 output: two output tiles. -/
def mDesc2 : Nat := mDesc 1 + 512 * 2 ^ 276 + 16 * 2 ^ 352
def oC (cmd : Option Line) : OutTile := oT .conv 512 [] [] [List.replicate 64 (7 : Byte)] cmd none
theorem test_hyp_MatrixDrains_4 : ((mO mDesc2 (oC none)).tile 5).outs.find? (fun o => o.phase == .conv && o.data != []) = some (oC none) ∧
    (oC none).cmd = none ∧ ((mO mDesc2 (oC none)).tile 5).mat = some (mJob mDesc2 none) ∧
    (mO mDesc2 (oC none)).rowsReady 5 ((mO mDesc2 (oC none)).jobPasid (mJob mDesc2 none)) (outRows (mW mDesc2).desc (oC none)) = true ∧
    (((mO mDesc2 (oC none)).gapDirty 5).putRows 5 ((mO mDesc2 (oC none)).jobPasid (mJob mDesc2 none)) false (outRows (mW mDesc2).desc (oC none))).2 = none ∧
    (((mO mDesc2 (oC none)).gapDirty 5).putRows 5 ((mO mDesc2 (oC none)).jobPasid (mJob mDesc2 none)) false (outRows (mW mDesc2).desc (oC none))).1.tile 5
      = (mO mDesc2 (oC none)).tile 5 ∧ (mJob mDesc2 none).retired + 1 ≠ matTiles (mW mDesc2).desc := by decide +kernel
theorem test_hyp_MatrixDrains_5 : ((mO mDesc2 (oC (some mCmd))).tile 5).outs.find? (fun o => o.phase == .conv && o.data != []) = some (oC (some mCmd)) ∧
    (oC (some mCmd)).data.length = (oC (some mCmd)).rows ∧ (oC (some mCmd)).rows = 1 ∧ (oC (some mCmd)).scales = [] ∧ (oC (some mCmd)).cmd = some mCmd ∧ ((mO mDesc2 (oC (some mCmd))).tile 5).seq.fault = none ∧
    (mO mDesc2 (oC (some mCmd))).cmdShut 5 mCmd (oC (some mCmd)) = false ∧
    (regs [(EPO_GUARD_LO 5 0, EPO_GUARD_LO_LO, 0), (EPO_GUARD_HI 5 0, EPO_GUARD_HI_HI, 0x400000)] (eOpen (mO mDesc2 (oC (some mCmd))))).cmdShut 5 mCmd (oC (some mCmd)) = true := by decide +kernel

/-- A patch of one element on C0's Loupe: the device's value is one of two. -/
def lEl (m : Nat) : PatchEl := ⟨[.fin false 3 0], [.fin false 1 0], .zero, .fin false m 0, -6, 255, 120, false⟩
def lPt (m : Nat) (p : Bool) : Patch := ⟨5, 2, (mW (mDesc 1)).desc, 8, 1, 64, 0, 0, [lEl m], p⟩
def lS (f : LouSt → LouSt) (s : State) : State := { s with loupe := mset LouSt.reset s.loupe 0 (f (s.lou 0)) }
def lOff (p : Bool) (seen : List (Nat × Nat)) (own : Nat) : State := lS (fun l => { l with offered := [lPt 3 p], seen := seen }) (up [(LOU_STAT2 0, LOU_STAT2_BIST_OWNS, own)])
theorem test_hyp_LoupeChecks_1 : ((lOff false [] 0).lou 0).offered = lPt 3 false :: [] ∧ (lOff false [] 0).flag (LOU_STAT2 0) LOU_STAT2_BIST_OWNS = false ∧
    ((((lOff false [] 0).lou 0).buf.map (·.bytes)).sum + (lPt 3 false).bytes ≤ patchBufBytes) ∧ (lPt 3 false).poison = false ∧ ((lOff false [] 0).lou 0).seen.contains ((lPt 3 false).tile, (lPt 3 false).sample) = false := by decide +kernel
theorem test_hyp_LoupeChecks_2 : (lOff false [] 1).flag (LOU_STAT2 0) LOU_STAT2_BIST_OWNS = true ∧ (lOff true [] 0).flag (LOU_STAT2 0) LOU_STAT2_BIST_OWNS = false ∧
    ((lOff true [] 0).lou 0).offered = lPt 3 true :: [] ∧ ((lOff false [(5, 2)] 0).lou 0).seen.contains ((lPt 3 false).tile, (lPt 3 false).sample) = true := by decide +kernel
def lBuf (m : Nat) : State := lS (fun l => { l with buf := [lPt m false] }) State.reset
theorem test_hyp_LoupeChecks_3 : ((lBuf 3).lou 0).buf = lPt 3 false :: [] ∧ (lBuf 3).flag (LOU_STAT2 0) LOU_STAT2_BIST_OWNS = false ∧
    (∀ x ∈ (lPt 3 false).els, patchAgrees (lPt 3 false) x = true) ∧ (lPt 300 false).els = [lEl 300] ∧ ((lBuf 300).lou 0).buf = lPt 300 false :: [] ∧
    patchAgrees (lPt 300 false) (lEl 300) = false ∧ ((lBuf 300).lou 0).recs.length < 16 ∧ (lBuf 300).rd (LOU_CFG 0) LOU_CFG_ACTION = 0 := by decide +kernel
def lNot (k : Nat) : State := lS (fun l => { l with notice := true }) (up [(MGT_CRA_STAT 0, MGT_CRA_STAT_STATE, k)])
theorem test_hyp_LoupeChecks_4 : ((lNot clActive).lou (1 - (1 : DieId).val)).notice = true ∧ (lNot clActive).craSt 0 ≠ clAbsent ∧
    ((lNot clAbsent).lou (1 - (1 : DieId).val)).notice = true ∧ (lNot clAbsent).craSt 0 = clAbsent ∧ (State.reset.lou 0).recs.length ≤ 16 := by decide +kernel

def wCfg : Word := BitVec.ofNat 64 (32 * 2 ^ SPW_TIER_CFG_DIRECT.lo)
def wLk : State := up [(SPW_TIER_CFG, SPW_TIER_CFG_LOCK, 1), (SPW_TIER_CFG, SPW_TIER_CFG_MODE, 1)]
theorem test_hyp_SpeedwellRuns_1 : State.reset.flag SPW_TIER_CFG SPW_TIER_CFG_LOCK = false ∧ 1 ≤ fget wCfg SPW_TIER_CFG_DIRECT ∧ fget wCfg SPW_TIER_CFG_DIRECT ≤ 767 ∧
    wLk.flag SPW_TIER_CFG SPW_TIER_CFG_LOCK = true ∧ wLk.rd SPW_TIER_CFG SPW_TIER_CFG_MODE ≠ fget wCfg SPW_TIER_CFG_MODE := by decide +kernel
/-- A schedule of two entries from 0x2000, look-ahead 4, paced by tile 5, generation 3. -/
def wSch : Work := wk (0x24 + 0x2000 * 2 ^ 64 + 2 * 2 ^ 128 + 4 * 2 ^ 144 + 5 * 2 ^ 152 + 3 * 2 ^ 160)
def wQ (g : Nat) : State := { up [(SPW_STAT, SPW_STAT_GEN_LAST, g)] with hif := { HifSt.reset with spwQ := [wSch] } }
theorem test_hyp_SpeedwellRuns_2 : (wQ 0).hif.spwQ = wSch :: [] ∧ (wQ 0).spw.run = none ∧ (wQ 0).ringHeld wSch = false ∧ scheduleOk wSch.desc = true ∧ (wQ 0).spwGen < bits wSch.desc 189 160 ∧
    (wQ 0).spw.fresh = false ∧ bits wSch.desc 189 160 ≤ (wQ 3).spwGen := by decide +kernel
/-- Its run with one entry issued, entry 1 in memory an ACQUIRE of object 3; the object table at 0x8000 with object 3 of one granule in DDR. -/
def wEnt (op : Nat) : SpwEnt := ⟨0, op, 0, false, 3, 0, 0, true, false, false⟩
def wRow (g : Nat) : Line := BitVec.ofNat 512 (0x10000000000 + 0x40000000 * 2 ^ 64 + g * 2 ^ 128 + 0x9000 * 2 ^ 192)
def wR (op : Nat) : SpwRun := ⟨wSch, 1, [wEnt op]⟩
def wS (op : Nat) (v : SpwObj) (d : Bool) : State :=
  let s := up [(SPW_OBJ_BASE, SPW_OBJ_BASE_BASE, 0x200), (SPW_OBJ_CNT, SPW_OBJ_CNT_COUNT, 8), (MGT_DDR_STAT, MGT_DDR_STAT_CH_SIZE, 1)]
  { s with
    spw := { SpwSt.reset with run := some (wR op), objs := [(3, v)], table := [(3, wRow 1)] }
    mem := memPut (memPut s.mem 0x2020 (leBytes 32 (1 + 3 * 2 ^ 16))) 0x80C0 (leBytes 32 (0x10000000000 + 0x40000000 * 2 ^ 64 + 2 ^ 128 + 0x9000 * 2 ^ 192))
    gdirty := if d then [(0x200, true)] else [] }
def wO (x : ObjState) (c : Nat) : SpwObj := { SpwObj.reset with st := x, count := c, toWb := if x = .writingBack then [0, 1] else [] }
theorem test_hyp_SpeedwellRuns_3 : (wS 2 SpwObj.reset false).spw.run = some (wR 2) ∧ (wR 2).next ≠ (wR 2).entries ∧
    (wR 2).next ≤ (((wR 2).ents.map (·.idx)).head?.getD (wR 2).next) + (wR 2).look ∧
    (let x := (wS 2 SpwObj.reset false).spwRead (((wR 2).prog + 32 * 1) % 2 ^ 56) 32
     schedEnt 1 x.2 ((wS 2 SpwObj.reset false).tile 5).epo.committed = ({ wEnt 1 with idx := 1 }, true) ∧
     (x.1.objFetch 3).objOk 3 = true) := by decide +kernel
theorem test_hyp_SpeedwellRuns_4 : ∀ x ∈ [(1, ObjState.resident, 1), (1, .absent, 0), (1, .cancelling, 0), (2, .resident, 2), (2, .resident, 1), (2, .absent, 0),
    (3, .promoting, 1), (3, .queued, 1), (4, .resident, 0), (5, .resident, 1), (5, .resident, 0)],
    (wS x.1 (wO x.2.1 x.2.2) true).nextEnt x.1 (3 : BitVec 12).toNat = some (wEnt x.1) ∧ ((wS x.1 (wO x.2.1 x.2.2) true).obj 3).st = x.2.1 ∧
    ((wS x.1 (wO x.2.1 x.2.2) true).obj 3).count = x.2.2 ∧ (wS x.1 (wO x.2.1 x.2.2) true).allRes 3 = false ∧
    (wS x.1 (wO x.2.1 x.2.2) true).dirtyGrans 3 ≠ [] ∧ (wEnt x.1).reuse ≠ 2 := by decide +kernel
def wG : State := { wS 1 (wO .queued 1) false with spw := { SpwSt.reset with queue := [3], objs := [(3, wO .queued 1)], table := [(3, wRow 1)] } }
theorem test_hyp_SpeedwellRuns_5 : wG.spw.queue = 3 :: [] ∧ wG.unified = false ∧ wG.splitFree 3 = true := by decide +kernel
def wP : State := { wS 1 (wO .promoting 1) false with spw := { SpwSt.reset with run := some (wR 1), objs := [(3, wO .promoting 1)], table := [(3, wRow 2)] } }
theorem test_hyp_SpeedwellRuns_6 : (wP.obj 3).st = .promoting ∧ (wP.obj 3).done + 1 ≠ wP.objGran 3 ∧
    ((wS 1 (wO .writingBack 0) false).obj 3).toWb = [0, 1] ∧ ((wS 1 (wO .writingBack 0) false).obj 3).st = .writingBack ∧
    ((wS 1 (wO .failed 0) false).obj 3).st = .failed := by decide +kernel

/-! ### Hypotheses: coherence -/

/-- Line 0x4000 in some caches, with messages, a directory entry and a transaction. -/
def kL : Nat := 0x4000
def kA : CohAgent := .l2 7
def kC (st : CSt) : CLine := { CLine.reset with st := st, data := 0xAB, pend := if st.stable then none else some (0xFF, 0x99) }
def kS (cs : List (Nat × List (Nat × CLine))) (f : CohSt → CohSt) : State := { up [] with caches := cs, coh := f CohSt.reset }
def kIn (st : CSt) (f : CohSt → CohSt) : State := kS [(0x87, [(kL, kC st)])] f
def kDir (o : Option Nat) (sh : List Nat) (c : CohSt) : CohSt := { c with dir := [(kL, { DirEnt.reset with owner := o, sharers := sh })] }
def kMsg (op : CMsgOp) (c : CohSt) : CohSt := { c with net := [{ cmsg op 0x87 kL with rq := 0x88, data := 0xCD, want := .dataE }] }
theorem test_hyp_CoherenceRequests_1 : (up []).cohLine (0x4000 : Word).toNat = some kL ∧ (up []).agentGone (agentId kA) = false ∧
    (kIn .S id).cLine (agentId kA) kL = some (kC .S) ∧ (kC .S).st.stable = true ∧ (kIn .M id).cLine (agentId kA) kL = some (kC .M) ∧ (kC .M).st = .M := by decide +kernel
def kSc : State := { up [(CCH_LEASE_CFG, CCH_LEASE_CFG_EN0, 0)] with caches := [(0x10, [(kL, kC .M)])], coh := kDir (some 0x10) [] CohSt.reset }
theorem test_hyp_CoherenceRequests_2 : AgentHome (kIn .S id) kA kL ∧ AgentHome kSc (.sc 0) kL := by
  refine ⟨⟨by decide +kernel, by decide +kernel, fun d h => by cases h⟩, ⟨by decide +kernel, by decide +kernel, fun d h => by cases h; decide +kernel⟩⟩
theorem test_hyp_CoherenceRequests_5 : HomeFree kSc kL ∧ kSc.cLine (agentId (.sc 0)) kL = some (kC .M) ∧ (kSc.dirEnt kL).owner = some (agentId (.sc 0)) := by
  unfold HomeFree SetIdle; decide +kernel
theorem test_hyp_CoherenceRequests_3 : HomeFree (up []) kL ∧ DirFree (up []) kL ∧ (up []).dirEnt kL = DirEnt.reset ∧ (up []).cLine l3Key kL = none ∧
    (up []).cLine (agentId kA) kL = none ∧ (up []).cWay (agentId kA) kL = some (up [], 0, none) := by unfold HomeFree SetIdle DirFree; decide +kernel
theorem test_hyp_CoherenceRequests_4 : HomeFree (kIn .S (kDir none [0x87])) kL ∧ (kIn .S (kDir none [0x87])).cLine (agentId kA) kL = some (kC .S) ∧
    ((kIn .S (kDir none [0x87])).dirEnt kL).owner = none ∧ ((kIn .S (kDir none [0x87])).dirEnt kL).sharers = [agentId kA] ∧
    HomeFree (kIn .M (kDir (some 0x87) [])) kL ∧ ((kIn .M (kDir (some 0x87) [])).dirEnt kL).owner = some (agentId kA) ∧
    (kIn .M (kDir (some 0x87) [])).cLine (agentId kA) kL = some (kC .M) := by unfold HomeFree SetIdle; decide +kernel

def kSnp (op : CMsgOp) (st : CSt) : State := kIn st (kMsg op)
theorem test_hyp_CoherenceMessages_1 : [(CMsgOp.snpShared, CSt.M), (.snpShared, .E), (.snpShared, .O), (.snpUnique, .M), (.snpUnique, .O), (.snpUnique, .E),
    (.snpInv, .M), (.snpInv, .O), (.snpInv, .E), (.snpInv, .S), (.snpOnce, .M), (.snpOnce, .O), (.snpOnce, .E), (.snpClean, .M), (.snpClean, .O), (.snpClean, .E),
    (.snpClean, .S), (.snpFlush, .M), (.snpFlush, .O), (.snpFlush, .E), (.snpFlush, .S)].all (fun x =>
      !(kSnp x.1 x.2).snoopHeld kA kL && ((kSnp x.1 x.2).cTake [x.1] (some (agentId kA)) kL).isSome &&
      (kSnp x.1 x.2).cLine (agentId kA) kL == some (kC x.2) && (kSnp x.1 x.2).cohLine (0x4000 : Word).toNat == some kL) = true := by decide +kernel
theorem test_hyp_CoherenceMessages_2 : ((kS [] (kMsg .snpInv)).cTake [.snpInv] (some (agentId kA)) kL).isSome = true ∧
    (kS [] (kMsg .snpInv)).cLine (agentId kA) kL = none ∧ (kS [] (kMsg .snpInv)).snoopHeld kA kL = false := by decide +kernel
theorem test_hyp_CoherenceMessages_3 : [(CMsgOp.dataS, CSt.IS_D), (.dataE, .IS_D), (.dataOnce, .I_ONCE), (.dataM, .IM_D), (.comp, .IM_D), (.comp, .SM_D), (.comp, .OM_D),
    (.comp, .MI_A), (.comp, .EI_A), (.comp, .II_A)].all (fun x => ((kSnp x.1 x.2).cTake [x.1] (some (agentId kA)) kL).isSome &&
      (kSnp x.1 x.2).cLine (agentId kA) kL == some (kC x.2) && (kC x.2).pend == some (0xFF, 0x99) && !(cmsg x.1 0x87 kL).standin) = true := by decide +kernel
theorem test_hyp_CoherenceMessages_4 : ∀ st ∈ [CSt.IS_D, .IM_D, .I_ONCE], (kIn st id).cLine (agentId kA) kL = some (kC st) ∧ (kC st).st = st := by decide +kernel
/-- A completion of a maintenance request. -/
def kCmo : State := kS [] fun c => { kMsg .comp c with outst := [⟨0x87, 0, kL, true⟩] }
theorem test_hyp_CoherenceMessages_8 : (kCmo.cTake [.comp, .leaseComp] (some (agentId kA)) kL).map (fun x =>
      (x.1.op, x.2.coh.outst.any (fun o => o.agent == agentId kA && o.txid == x.1.txid && o.cmo))) = some (.comp, true) ∧
    ((kSnp .comp .IM_D).cTake [.comp, .leaseComp] (some (agentId kA)) kL).map (fun x =>
      (x.1.op, x.2.coh.outst.any (fun o => o.agent == agentId kA && o.txid == x.1.txid && o.cmo))) = some (.comp, false) ∧
    WayKept (kSnp .comp .IM_D) kA (kC .IM_D) := by
  refine ⟨by decide +kernel, by decide +kernel, fun d h => by cases h⟩
def kTx (op : CohOp) (w : List Nat) : HTxn := ⟨homeReq op 0x87, false, w, false, [], false, false, false, false⟩
def kHm (op : CMsgOp) (w : List Nat) : State := kS [] fun c => { kDir none [] (kMsg op c) with txn := [(kL, kTx .rdUnique w)] }
theorem test_hyp_CoherenceMessages_5 : ((kHm .compAck []).cTake [.compAck, .leaseAck] (some (agentId kA)) kL).map (·.1.op) = some .compAck ∧
    mfind (kHm .compAck []).coh.txn kL = some (kTx .rdUnique []) ∧ (kTx .rdUnique []).req.agent = agentId kA ∧
    ((kHm .compAck []).cTake [.compAck, .leaseAck] (some (agentId kA)) kL).map (·.2.dataDue kL) = some false ∧
    mget [] (kHm .compAck []).coh.queue kL = [] ∧ SetIdle (kHm .compAck []) kL ∧ (mfind (kHm .compAck []).coh.dir kL).isSome = true ∧ (kHm .compAck []).agentGone 0x10 = false ∧
    (kHm .compAck []).agentGone 0x20 = false := by unfold SetIdle; decide +kernel
theorem test_hyp_CoherenceMessages_6 : ∀ op ∈ [CMsgOp.rspI, .rspS, .rspO, .rspKeep], ((kHm op [0x87, 0x88]).cTake [op] (some (agentId kA)) kL).map (·.1.stray) = some false ∧
    mfind (kHm op [0x87, 0x88]).coh.txn kL = some (kTx .rdUnique [0x87, 0x88]) ∧ (kTx .rdUnique [0x87, 0x88]).wait.filter (· != agentId kA) ≠ [] := by decide +kernel
theorem test_hyp_CoherenceMessages_7 : ((kS [] (kMsg .dataHome)).cTake [.dataHome] (some (agentId kA)) kL).isSome = true ∧
    ((kS [] (kMsg .hmemRd)).cTake [.hmemRd] none kL).map (·.1.agent) = some 0x87 ∧ (kS [] (kMsg .hmemRd)).agentGone 0x87 = false ∧ (kS [] (kMsg .hmemRd)).cut 2 kL = false ∧
    ((kS [] (kMsg .hmemRd)).cTake [.hmemRd] none kL).map (fun x => ((x.2.hbmStop (x.2.tierKey kL)).isNone, (x.2.lineRead kL .clean).2.2)) = some (true, false) ∧
    ((kS [] (kMsg .hmemWr)).cTake [.hmemWr] none kL).map (fun x => (x.2.hbmStop (x.2.tierKey kL)).isNone) = some true ∧
    ((kS [] (kMsg .dataHome)).cTake [.dataHome] (some (agentId kA)) kL).map (·.1.want) ≠ some .poisoned ∧ SetIdle (kS [] (kMsg .hmemWr)) kL ∧
    ((kS [] (kMsg .hmemWr)).cTake [.hmemWr] none kL).isSome = true ∧ (kS [] (kMsg .hmemWr)).droppedLines kL 64 = [] ∧ (kS [] (kMsg .hmemWr)).unified = false := by unfold SetIdle; decide +kernel

def kLs (l : List (Nat × Fld × Nat)) (f : CohSt → CohSt) : State := { up ([(CCH_LEASE_CFG, CCH_LEASE_CFG_EN0, 1)] ++ l) with coh := f CohSt.reset }
def kLm (op : CMsgOp) (c : CohSt) : CohSt := { c with net := [cmsg op 0x10 0] }
theorem test_hyp_LeasesAndMaintenance_1 : (kLs [] id).cohLine (0x4000 : Word).toNat = some kL ∧ 0 = regionOf kL ∧ 0x10 = agentId (.sc 0) ∧
    (kLs [] id).agentGone 0x10 = false ∧ (kLs [] id).closedMem kL = false ∧ leasable kL = true ∧ (kLs [] id).leaseDie 0 = (0 : DieId).val ∧ (kLs [] id).coh.recalls.contains 0 = false ∧
    (kLs [] id).cLine 0x10 kL = none ∧ (kLs [] id).leased kL = false ∧ (kLs [] id).leaseEn (0 : DieId).val = true ∧ mfind (kLs [] id).coh.lwait 0 = none ∧
    (kLs [] id).coh.holdoff.contains 0 = false ∧ (kLs [] fun c => { c with holdoff := [0] }).coh.holdoff.contains 0 = true ∧
    (kLs [] fun c => { c with leases := [0] }).leased kL = true := by decide +kernel
theorem test_hyp_LeasesAndMaintenance_2 : mfind (kLs [] fun c => { c with rtxn := [(0, (0, false))] }).coh.rtxn 0 = some ((0 : DieId).val, false) ∧
    (kLs [] fun c => { c with rtxn := [(0, (0, false))] }).regionBusy 0 = false ∧ (kLs [] fun c => { c with rtxn := [(0, (0, false))] }).regionHeld 0 0x10 = [] := by decide +kernel
def kDn : State := kLs [] fun c => { kLm .leaseDeny c with lwait := [(0, (kL, .once))] }
theorem test_hyp_LeasesAndMaintenance_3 : (kDn.cTake [.leaseDeny] (some 0x10) (0 * 65536)).isSome = true ∧ mfind kDn.coh.lwait 0 = some (kL, .once) ∧ HomeFree kDn kL := by
  unfold HomeFree SetIdle; decide +kernel
theorem test_hyp_LeasesAndMaintenance_4 : ((kLs [] (kLm .leaseRecall)).cTake [.leaseRecall] (some 0x10) (0 * 65536)).isSome = true ∧
    ((kLs [] (kLm .leaseReturn)).cTake [.leaseReturn] (some 0x10) (0 * 65536)).isSome = true ∧ mget [] (kLs [] (kLm .leaseReturn)).coh.rqueue 0 = [] ∧
    0 < (kLs [(CCH_LEASE_CFG, CCH_LEASE_CFG_HOLDOFF, 3)] (kLm .leaseReturn)).rd CCH_LEASE_CFG CCH_LEASE_CFG_HOLDOFF ∧ fget 0xFFFFFFFF CCH_LEASE_CFG_EN0 = 1 ∧
    fget 0xFFFFFFFF CCH_LEASE_CFG_EN1 = 1 := by decide +kernel
def kGo (op tg : Nat) : Word := fset (fset 0 CCH_MNT_CTL_OP op) CCH_MNT_CTL_TARGET tg
theorem test_hyp_LeasesAndMaintenance_5 : (up []).flag CCH_MNT_CTL CCH_MNT_CTL_BUSY = false ∧ fget (kGo 2 3) CCH_MNT_CTL_OP < 3 ∧ fget (kGo 2 3) CCH_MNT_CTL_MODE < 3 ∧
    fget (kGo 2 3) CCH_MNT_CTL_TARGET ≠ 0 ∧ fget (kGo 3 3) CCH_MNT_CTL_OP = 3 := by decide +kernel
def kMn : State := kS [(0x10, [(kL, kC .S)])] fun c => { c with mnt := some ⟨1, 2, 2, 0, 0, []⟩ }
theorem test_hyp_LeasesAndMaintenance_6 : kMn.coh.mnt = some ⟨1, 2, 2, 0, 0, []⟩ ∧ mntAgent 2 = some 0x10 ∧ (∀ p ∈ kMn.cLines 0x10,
    (⟨1, 2, 2, 0, 0, []⟩ : MntRun).names kMn.node 0x10 p.1 p.2.way (kMn.carved 0x10 p.2.way) = true → p.2.st.stable = true ∧ kMn.cSt 0x10 p.1 = p.2.st ∧ kMn.busyLine p.1 = false) ∧
    kMn.cLine 0x10 kL = some (kC .S) := by decide +kernel
def kMd : State := kS [] fun c => { c with mnt := some ⟨1, 0, 0, 0, 0, []⟩ }
theorem test_hyp_LeasesAndMaintenance_8 : kMd.coh.mnt = some ⟨1, 0, 0, 0, 0, []⟩ ∧ mntAgent 0 = none ∧ kMd.mntLeases ⟨1, 0, 0, 0, 0, []⟩ = [] ∧
    kMd.mntOpen = false ∧ fget (kGo 1 0) CCH_MNT_CTL_MODE = 0 ∧ fget (kGo 1 0) CCH_MNT_CTL_TARGET = 0 ∧ (up []).caches = [] ∧ (up []).coh.leases = [] := by
  decide +kernel
theorem test_hyp_LeasesAndMaintenance_7 : (up []).flag CCH_REPL CCH_REPL_LOCK = false ∧ (up [(CCH_REPL, CCH_REPL_LOCK, 1)]).flag CCH_REPL CCH_REPL_LOCK = true ∧
    bits (7 : Word) 3 0 ≠ bits ((up [(CCH_REPL, CCH_REPL_LOCK, 1)]).reg CCH_REPL) 3 0 ∧ (up []).flag (CCH_SC_CARVE 0) CCH_SC_CARVE_LOCK = false ∧
    fget (fset 0 CCH_SC_CARVE_SCRATCH_WAYS 8) CCH_SC_CARVE_SCRATCH_WAYS ≤ 8 ∧ (up []).cLines (agentId (.sc 0)) = [] ∧
    (up []).flag CCH_RRB_INV CCH_RRB_INV_BUSY = false ∧ (up [(CCH_RRB_INV, CCH_RRB_INV_BUSY, 1)]).flag CCH_RRB_INV CCH_RRB_INV_BUSY = true ∧
    (up [(CCH_RRB_INV, CCH_RRB_INV_BUSY, 1)]).hif.rings = [] := by decide +kernel

/-! ### Hypotheses: HBM -/

def hKey : Nat := 0x400040
def hB : State := up []
/-- With range 0 of 24 granules established from granule 0. -/
def hShd (l : List (Nat × Fld × Nat)) : State := up ([(HBM_SHD_CFG 0, HBM_SHD_CFG_GRANULES, 24), (HBM_SHD_CFG 0, HBM_SHD_CFG_EN, 1)] ++ l)
def hK (s : State) : Nat := (s.hbmPlace hKey).1
def hP (s : State) : Nat := (s.hbmPlace hKey).2.1
def hOpen (s : State) : Bool := decide (hbmLine 0x400040 = some hKey ∧ s.computeHeld = false ∧ s.flag (HBM_STAT (hK s)) HBM_STAT_QUIESCED = false ∧ s.shdBlocked hKey = false ∧ s.closedMem hKey = false)
def hGood (s : State) : Bool := decide (s.pcFailed (hK s) (hP s) = false ∧ s.isStale hKey = false ∧ s.markerAt hKey = false ∧ s.hbm.corrupt.contains hKey = false)
def hFail (s : State) : State := s.setReg (HBM_FAIL_PC (hK s)) (BitVec.ofNat 64 (2 ^ 64 - 1))
theorem test_hOpen (s : State) (h : hOpen s = true) : HbmAt s 0x400040 hKey (hK s) (hP s) ∧ HbmOpen s hKey (hK s) := by
  unfold hOpen at h; unfold HbmAt HbmOpen; simp only [decide_eq_true_eq] at h; exact ⟨⟨h.1, rfl, rfl⟩, h.2⟩
theorem test_hyp_HbmLines_1 : HbmAt hB 0x400040 hKey (hK hB) (hP hB) ∧ HbmOpen hB hKey (hK hB) :=
  test_hOpen _ (by decide +kernel)
theorem test_hyp_HbmLines_2 : (up [(HBM_STAT (hK hB), HBM_STAT_QUIESCED, 1)]).flag (HBM_STAT (hK hB)) HBM_STAT_QUIESCED = true ∧
    (up [(HBM_STAT (hK hB), HBM_STAT_QUIESCED, 1)]).computeHeld = false ∧ State.reset.computeHeld = true ∧
    (hShd [(HBM_SHD_STAT 0, HBM_SHD_STAT_INIT, 1)]).shdBlocked hKey = true ∧ (hShd [(HBM_SHD_STAT 0, HBM_SHD_STAT_INIT, 1)]).computeHeld = false ∧
    (hShd [(HBM_SHD_STAT 0, HBM_SHD_STAT_INIT, 1)]).flag (HBM_STAT (hK (hShd []))) HBM_STAT_QUIESCED = false := by decide +kernel
theorem test_hyp_HbmLines_3 : hOpen hB = true ∧ hGood hB = true ∧ hB.mark (hK hB) (hP hB) = none ∧
    mget 0 hB.hbm.lanes (16 * (64 * hK hB + hP hB) + 8) < hB.rd (HBM_CTL (hK hB)) HBM_CTL_MARK_THRESH ∧
    hB.keyShield hKey = none ∧ hB.flag TST_EVQ_CFG TST_EVQ_CFG_EN = false ∧ hB.flag MGT_PSC_CFG MGT_PSC_CFG_SPILL_EN = false ∧
    hOpen (hShd []) = true ∧ hGood (hShd []) = true ∧ (hShd []).keyShield hKey ≠ none := by decide +kernel
/-- One symbol short of the threshold. -/
def hLane : State := { hB with hbm := { HbmSt.reset with lanes := [(16 * (64 * hK hB + hP hB) + 0,
  hB.rd (HBM_CTL (hK hB)) HBM_CTL_MARK_THRESH - 1)] } }
/-- One symbol in error: line byte 0, on byte lane 0. -/
def hE1 : HbmFinding := ⟨false, 1⟩
def hFive : HbmFinding := ⟨false, BitVec.ofNat 576 (1 + 2 ^ 4 + 2 ^ 8 + 2 ^ 12 + 2 ^ 16)⟩
theorem test_hyp_HbmLines_4 : hOpen hLane = true ∧ hGood hLane = true ∧ hLane.lineFind hKey hE1 = (.corrected [(0, 1)], List.replicate 64 0) ∧
    symLane 0 = 0 ∧ hLane.mark (hK hLane) (hP hLane) = none ∧
    mget 0 hLane.hbm.lanes (16 * (64 * hK hLane + hP hLane) + 0) < hLane.rd (HBM_CTL (hK hLane)) HBM_CTL_MARK_THRESH ∧
    hLane.rd (HBM_CTL (hK hLane)) HBM_CTL_MARK_THRESH ≤ min (mget 0 hLane.hbm.lanes (16 * (64 * hK hLane + hP hLane) + 0) + 1) 0xFF := by decide +kernel
def hMk : State := hB.setMark (hK hB) (hP hB) (some 0)
def hStale : State := { hShd [] with hbm := { HbmSt.reset with stale := [(hK (hShd []), [hKey])] } }
theorem test_hyp_HbmLines_4b : (hB.lineFind hKey ⟨true, 0⟩).1 = .clean ∧ (hB.lineFind hKey hFive).1 = .uncorrectable ∧ ((hShd []).lineFind hKey hFive).1 = .uncorrectable ∧
    (hMk.lineFind hKey hE1).1 = .erasure ∧ hOpen hMk = true ∧ ({ hB with poison := [(hKey, true)] }.lineFind hKey .clean).1 = .poison ∧
    Quiet hB ∧ hStale.isStale hKey = true ∧ hStale.pcFailed (hK hStale) (hP hStale) = false ∧ hOpen hStale = true := by unfold Quiet; decide +kernel
theorem test_hyp_HbmLines_5 : hOpen (hFail hB) = true ∧ (hFail hB).pcFailed (hK hB) (hP hB) = true ∧
    (hFail hB).keyShield hKey = none ∧ hOpen (hFail (hShd [])) = true ∧ (hFail (hShd [])).pcFailed (hK (hShd [])) (hP (hShd [])) = true ∧
    (hFail (hShd [])).keyShield hKey ≠ none := by decide +kernel
def hScr : State := { up [(HBM_CTL 3, HBM_CTL_SCRUB_H, 4)] with hbm := { HbmSt.reset with scrub := [(3, 2 ^ 30 - 1)] } }
theorem test_hyp_HbmLines_6 : hScr.rd (HBM_CTL (3 : StackId)) HBM_CTL_SCRUB_H ≠ 0 ∧ hScr.flag (HBM_STAT 3) HBM_STAT_QUIESCED = false ∧
    mget 0 hScr.hbm.scrub 3 + 1 = 2 ^ 30 := by decide +kernel
def hWcb (s : State) (g : WcbStage) : State := { s with hbm := { s.hbm with wcb := [(hK s, [⟨hKey, 0xFF, g⟩])] } }
theorem test_hyp_HbmLines_7 : (0xFF : Word) ≠ 0 ∧ (0xFF : Word).toNat ≠ fullMask ∧ hB.flag (HBM_WCB_CTL (hK hB)) HBM_WCB_CTL_EN = true ∧
    (hB.wcb (hK hB)).length < 224 ∧ (∀ e ∈ hB.wcb (hK hB), e.line ≠ hKey) ∧ (0xFFFFFFFFFFFFFFFF : Word).toNat = fullMask := by decide +kernel
theorem test_hyp_HbmLines_8 : ∀ g ∈ [WcbStage.opened, .drain 1, .drain 2], (hWcb hB g).wcb (hK hB) = [⟨hKey, 0xFF, g⟩] ∧
    (hWcb hB g).keyShield hKey = none ∧ hGood (hWcb hB g) = true ∧ 0xFF ||| (0xFFFFFFFFFFFFFF00 : Word).toNat = fullMask ∧
    0xFF ||| (0xF00 : Word).toNat ≠ fullMask ∧ (up [(HBM_WCB_CTL (hK hB), HBM_WCB_CTL_EN, 0)]).flag (HBM_WCB_CTL (hK hB)) HBM_WCB_CTL_EN = false := by decide +kernel

def hW (l : List (Nat × Fld × Nat)) (g : WcbStage) (f : HbmSt → HbmSt) : State := let s := hWcb (hShd l) g; { s with hbm := f s.hbm }
theorem test_hyp_HbmShield_1 : HbmAt (hShd []) 0x400040 hKey (hK (hShd [])) (hP (hShd [])) ∧ (hShd []).keyShield hKey ≠ none ∧
    (hW [] (.drain 1) id).wcb (hK (hShd [])) = [⟨hKey, 0xFF, .drain 1⟩] ∧ (hW [] (.drain 1) id).parityFailed hKey = false ∧ hGood (hW [] (.drain 1) id) = true ∧ hOpen (hShd []) = true ∧
    (hShd []).wcb (hK (hShd [])) = [] ∧
    (regs [(HBM_STAT ((hShd []).parStack hKey), HBM_STAT_FAILED, 1)] (hW [] (.drain 1) id)).parityFailed hKey = true := by unfold HbmAt; decide +kernel
def hSk : Nat := (hShd []).stripeKey hKey
theorem test_hyp_HbmShield_2 : (hW [] .delta fun h => { h with deltas := [(hKey, false)] }).hbm.deltas = (hKey, false) :: [] ∧
    (hW [] .delta fun h => { h with deltas := [(hKey, false)] }).hbm.locks = [] ∧
    32 ≤ ((hW [] .delta fun h => { h with deltas := [(hKey, false)], locks := (List.range 32).map (fun i => (hSk + 64 * (i + 1), hKey + 64 * (i + 1))) }).hbm.locks.filter
      (fun l => (hShd []).parStack l.2 == (hShd []).parStack hKey)).length := by decide +kernel
theorem test_hyp_HbmShield_3 : (hW [] .acked id).wcb (hK (hShd [])) = ⟨hKey, 0xFF, .acked⟩ :: [] ∧ (hW [] .released id).wcb (hK (hShd [])) = ⟨hKey, 0xFF, .released⟩ :: [] ∧
    (hSk, hKey) ∈ (hW [] .delta fun h => { h with locks := [(hSk, hKey)] }).hbm.locks ∧ (hSk, hKey) ∈ (hW [] .delta fun h => { h with locks := [(hSk, hKey)], stale := [(hK (hShd []), (List.range 256).map (64 * ·))] }).hbm.locks ∧
    256 ≤ (mget [] (hW [] .delta fun h => { h with stale := [(hK (hShd []), (List.range 256).map (64 * ·))] }).hbm.stale (hK (hShd []))).length := by decide +kernel
def hRec (b : Bool) : State := let s := hShd []; { s with hbm := { s.hbm with recon := [⟨hKey, b, false⟩] } }
theorem test_hyp_HbmShield_4 : (hRec false).hbm.recon = ⟨hKey, false, false⟩ :: [] ∧ (hRec false).hbm.locks.any (fun l => l.1 == (hRec false).stripeKey hKey) = false ∧
    (hRec true).hbm.recon = ⟨hKey, true, false⟩ :: [] ∧ (hRec true).noShield hKey = false ∧ (hRec true).pcFailed (hK (hRec true)) (hP (hRec true)) = false := by decide +kernel

def hThr : State := up [(HBM_THR_STAT 3, HBM_THR_STAT_STEP, 2), (HBM_THR_STAT 3, HBM_THR_STAT_TEMP, 40)]
theorem test_hyp_HbmControl_1 : hThr.rd (HBM_THR_CFG 3) HBM_THR_CFG_TRIP ≤ (255 : Byte).toNat ∧ (0 : Byte).toNat < hThr.rd (HBM_THR_CFG 3) HBM_THR_CFG_TRIP ∧
    hThr.rd (HBM_THR_STAT 3) HBM_THR_STAT_STEP ≠ 0 ∧
    hThr.rd (HBM_THR_STAT 3) HBM_THR_STAT_TEMP + hThr.rd (HBM_THR_CFG 3) HBM_THR_CFG_HYST < hThr.thrAt 3 (hThr.rd (HBM_THR_STAT 3) HBM_THR_STAT_STEP) ∧
    (∀ j ∈ [1, 2, 3, 4], (hThr.thrAt 3 j ≤ (0 : Byte).toNat ↔ j ≤ 0)) := by decide +kernel
def hCfg (l : List (Fld × Nat)) : Word := l.foldl (fun w x => fset w x.1 x.2) 0
def hThrV : Word := hCfg [(HBM_THR_CFG_T1, 80), (HBM_THR_CFG_T2, 85), (HBM_THR_CFG_T3, 90), (HBM_THR_CFG_T4, 95), (HBM_THR_CFG_TRIP, 100)]
def hShdV (g : Nat) : Word := hCfg [(HBM_SHD_CFG_STRIPE, 2), (HBM_SHD_CFG_GRANULES, g), (HBM_SHD_CFG_EN, 1)]
theorem test_hyp_HbmControl_2 : fget hThrV HBM_THR_CFG_T1 < fget hThrV HBM_THR_CFG_T2 ∧ fget hThrV HBM_THR_CFG_T2 < fget hThrV HBM_THR_CFG_T3 ∧
    fget hThrV HBM_THR_CFG_T3 < fget hThrV HBM_THR_CFG_T4 ∧ fget hThrV HBM_THR_CFG_T4 < fget hThrV HBM_THR_CFG_TRIP ∧ fget 0 HBM_THR_CFG_TRIP ≤ fget 0 HBM_THR_CFG_T4 ∧
    hB.flag (HBM_SHD_CFG (3 : Fin 8)) HBM_SHD_CFG_EN = false ∧ fget (hShdV 2) HBM_SHD_CFG_EN = 1 ∧ 2 ≤ fget (hShdV 2) HBM_SHD_CFG_GRANULES ∧
    12 * fget (hShdV 2) HBM_SHD_CFG_STRIPE + fget (hShdV 2) HBM_SHD_CFG_GRANULES ≤ 393216 ∧ (∀ y : Fin 8, hB.shdRange y = none) ∧
    (∀ j : Fin 12, hB.flag (HBM_STAT j) HBM_STAT_QUIESCED = false) ∧ fget (hShdV 1) HBM_SHD_CFG_GRANULES < 2 ∧ fget (hShdV 1) HBM_SHD_CFG_EN = 1 := by decide +kernel
def hIni : State := hShd [(HBM_SHD_STAT 0, HBM_SHD_STAT_INIT, 1)]
def hReb (all : Nat) : State := up [(HBM_REBUILD 3, HBM_REBUILD_BUSY, 1), (HBM_REBUILD 3, HBM_REBUILD_ALL, all)]
theorem test_hyp_HbmControl_3 : hIni.flag (HBM_SHD_STAT (0 : Fin 8)) HBM_SHD_STAT_INIT = true ∧ hIni.shdRange (0 : Fin 8) = some (0, 24) ∧
    hB.flag (HBM_REBUILD (3 : StackId)) HBM_REBUILD_BUSY = false ∧ (hReb 0).flag (HBM_REBUILD (3 : StackId)) HBM_REBUILD_BUSY = true ∧
    (hReb 0).flag (HBM_REBUILD (3 : StackId)) HBM_REBUILD_ALL = false ∧ (hReb 1).flag (HBM_REBUILD (3 : StackId)) HBM_REBUILD_ALL = true ∧
    fget (fset 0 HBM_CTL_QUIESCE 1) HBM_CTL_QUIESCE = 1 ∧ rangeTouches 0 24 3 = true := by decide +kernel

def hRep (b q : Nat) : State := up [(HBM_REPAIR_STAT 3, HBM_REPAIR_STAT_BUSY, b), (HBM_STAT 3, HBM_STAT_QUIESCED, q)]
theorem test_hyp_HbmRepairs_1 : (hRep 1 0).flag (HBM_REPAIR_STAT (3 : StackId)) HBM_REPAIR_STAT_BUSY = true ∧ (hRep 0 0).flag (HBM_REPAIR_STAT 3) HBM_REPAIR_STAT_BUSY = false ∧
    (hRep 0 0).flag (HBM_MRG_CTL 3) HBM_MRG_CTL_BUSY = false ∧ (hRep 0 0).ebOnStack 3 = false ∧ (hRep 0 0).flag (HBM_STAT 3) HBM_STAT_QUIESCED = false ∧
    (hRep 0 1).flag (HBM_STAT 3) HBM_STAT_QUIESCED = true ∧ (hRep 0 1).wcb 3 = [] ∧ (hRep 0 1).rd (HBM_WCB_STAT 3) HBM_WCB_STAT_POCC = 0 ∧ (35 : BitVec 6).toNat < 36 := by decide +kernel
def hRun (op : Nat) : State := { hB with hbm := { HbmSt.reset with repair := [(3, ⟨op, 5, 2, 9, 4, false⟩)] } }
def hDqs : State := { hRun 3 with yar := { YarSt.reset with softDqs := [(197, 1), (197, 2)] } }
theorem test_hyp_HbmRepairs_2 : (∀ op ∈ [0, 1, 2, 3, 4], mfind (hRun op).hbm.repair 3 = some ⟨op, 5, 2, 9, 4, false⟩) ∧ (hRun 3).dqsUsed 3 5 < 2 ∧
    2 ≤ hDqs.dqsUsed 3 5 ∧ mfind hDqs.hbm.repair 3 = some ⟨3, 5, 2, 9, 4, false⟩ := by decide +kernel
def hMrg : State := up [(HBM_MRG_CTL 3, HBM_MRG_CTL_BUSY, 1), (HBM_MRG_CTL 3, HBM_MRG_CTL_READ_DQ, 37), (HBM_MARK 3 0, HBM_MARK_LANE5, 1), (HBM_MARK 3 0, HBM_MARK_VALID5, 1)]
theorem test_hyp_HbmRepairs_3 : hMrg.flag (HBM_MRG_CTL (3 : StackId)) HBM_MRG_CTL_BUSY = true ∧ hMrg.rd (HBM_MRG_CTL 3) HBM_MRG_CTL_READ_DQ < 38 ∧
    (List.replicate 38 (1 : BitVec 33)).length = 38 ∧ hMrg.mark 3 5 = some 1 ∧ 4 / 4 = 1 := by decide +kernel

/-! ### Hypotheses: Yelry cores -/

/-- Core 7 in a state of its own. -/
def yC (k : Nat) (l : List (Nat × Fld × Nat)) (f : YCore → YCore) : State :=
  let s := up ([(MGT_CORE_STAT 7, MGT_CORE_STAT_STATE, k)] ++ l); s.setCore 7 (f (s.core 7))
def yR (f : YCore → YCore) : State := yC csRunning [] f
def ySb (i : Bool) (y : YCore) : YCore := { y with sb := [⟨kL, 0xFF, 0xAB, i, false⟩] }
def yAw (f : YCore → YCore) : State := hartAwake (yR f) 7
theorem test_hyp_HartAccesses_1 : State.reset.hartRuns 7 = false ∧ (yR id).hartRuns 7 = true ∧ (yAw (ySb false)).ioAddr kL .pma = false ∧
    sbCovers ((yAw (ySb false)).core 7).sb kL 8 = true ∧ sbCovers ((yAw id).core 7).sb kL 8 = false := by decide +kernel
def rdIs (x : State × Rd) (p : Bool) : Bool := match x.2 with | .ok _ q => p == q | _ => false
def rdBad (x : State × Rd) : Bool := match x.2 with | .error | .absent => true | _ => false
def yPo : State := { yAw id with poison := [(kL, true)] }
theorem test_hyp_HartAccesses_2 : rdIs ((yAw id).hartRead 7 kL 8 .pma .fill) false = true ∧ rdIs (yPo.hartRead 7 kL 8 .pma .fill) true = true ∧
    rdBad ((yAw id).hartRead 7 0x60000000000 8 .pma .fill) = true ∧ (yAw id).ioAddr 0x60000000000 .pma = false ∧ sbCovers ((yAw id).core 7).sb 0x60000000000 8 = false := by decide +kernel
def yIc (p : Bool) : State := yAw fun y => { y with l1i := [(kL, ⟨0xAB, p, 0⟩)] }
theorem test_hyp_HartAccesses_3 : mfind ((yIc false).core 7).l1i (alignDown kL 64) = some ⟨0xAB, false, 0⟩ ∧ mfind ((yIc true).core 7).l1i (alignDown kL 64) = some ⟨0xAB, true, 0⟩ ∧
    mfind ((yAw id).core 7).l1i (alignDown kL 64) = none ∧ (yAw id).isMem (alignDown kL 64) 64 = true ∧ rdIs ((yAw id).hartRead 7 (alignDown kL 64) 64 .pma) false = true := by decide +kernel
def yFull : State := yAw fun y => { y with sb := (List.range 56).map (fun i => ⟨64 * i, 1, 0, true, false⟩) }
theorem test_hyp_HartAccesses_4 : ((linePieces kL (leBytes 8 5)).foldl (sbMerge false) ((yAw id).core 7).sb).length ≤ 56 ∧ (∀ e ∈ ((yAw id).core 7).sb, e.issued = false) ∧
    56 < ((linePieces kL (leBytes 8 5)).foldl (sbMerge false) (yFull.core 7).sb).length ∧ (yFull.core 7).sb ≠ [] ∧ yFull.ioAddr kL .pma = false := by decide +kernel
def yV : State := (yAw id).setCore 7 { (yAw id).core 7 with resv := none }
def wrIs (x : State × Wr) (k : Wr) : Bool := x.2 == k
theorem test_hyp_HartAccesses_5 : ((yAw id).core 7).sb = [] ∧ rdIs (yV.busRead 2 false 0x7F000001000 8) false = true ∧ (yAw id).ioAddr 0x7F000001000 .pma = true ∧
    wrIs (yV.busWrite 2 false 0x4000 (leBytes 8 5) false) .ok = true ∧ wrIs (yV.busWrite 2 false 0x60000000000 (leBytes 8 5) false) .error = true := by decide +kernel

theorem test_hyp_HartAtomics_1 : (yR id).hartRuns 7 = true ∧ bitAt (1 : BitVec 4) 0 = true ∧ bitAt (8 : BitVec 4) 0 = false ∧ bitAt (8 : BitVec 4) 2 = false ∧
    (0x4004 : Word).toNat % 8 ≠ 0 ∧ kL % 8 = 0 ∧ (yAw id).resvOk kL 8 .io = false ∧ (yAw id).resvOk kL 8 .pma = true ∧ ((yAw id).core 7).sb = [] ∧
    rdIs ((yAw id).hartRead 7 kL 8 .pma .fill) false = true := by decide +kernel
def yRes : State := yR fun y => { y with resv := some ⟨kL, kL, 8, true⟩ }
theorem test_hyp_HartAtomics_2 : ((hartAwake yRes 7).core 7).resv = some ⟨kL, kL, 8, true⟩ ∧ (hartAwake yRes 7).sbHas 7 (alignDown kL 64) = false ∧
    wrIs (((hartAwake yRes 7).setCore 7 { (hartAwake yRes 7).core 7 with resv := none }).busWrite 2 false kL (leBytes 8 5) false (some (0x80 + 7))) .ok = true ∧
    (yRes.core 7).resv = some ⟨kL, kL, 8, true⟩ ∧ (∀ r ∈ ((yAw id).core 7).resv, r.addr ≠ kL ∨ r.size ≠ 8) := by decide +kernel
theorem test_hyp_HartAtomics_3 : (yAw id).sbHas 7 (alignDown kL 64) = false ∧ (yAw id).isMem kL 8 = true ∧ (yAw id).anyPoison (localOf kL) 1 = false ∧
    ((yAw id).memAmo 2 kL 8 0 (5 % 2 ^ (8 * 8)) (some 0x87)).2 = .ok 0 false ∧ ((yAw id).memRmw 2 kL 8 (fun _ => 5 % 2 ^ (8 * 8)) 9 (5 % 2 ^ (8 * 8)) (some 0x87)).2 = .ok 0 false ∧
    amoAux .add = some 0 ∧ amoAux .swap = none := by decide +kernel
theorem test_hyp_HartAtomics_4 : (yAw (ySb false)).sbHas 7 (alignDown kL 64) = true ∧ (yAw id).ioAddr (alignDown 0x7F000001000 64) .pma = true ∧
    (yAw id).ioAddr (alignDown kL 64) .pma = false ∧ wrIs ((yAw id).busWrite 2 false (alignDown kL 64) (List.replicate 64 0) false (some 0x87)) .ok = true ∧
    (yAw id).cohLine (alignDown kL 64) = some kL ∧ (yAw id).agentGone (0x80 + 7) = false ∧ (yAw id).sliceFull kL = false ∧ HomeFree (yAw id) kL ∧
    (yAw id).dirEnt kL = DirEnt.reset ∧ (yAw id).cLine l3Key kL = none ∧ (yAw id).cohLine (alignDown (2 ^ 43) 64) = none ∧ nodeOf (2 ^ 43) ≠ (yR id).node ∧
    (yAw id).sbHas 7 (alignDown (2 ^ 43) 64) = false := by unfold HomeFree SetIdle; decide +kernel
theorem test_hyp_HartAtomics_5 : nodeOf kL = (yR id).node ∧ rdIs ((yAw id).localRead 2 (localOf (alignDown kL 64)) 64 .fill (some 0x87)) false = true ∧
    rdBad ((yAw id).localRead 2 (localOf (alignDown 0x60000000000 64)) 64 .fill (some 0x87)) = true ∧ nodeOf 0x60000000000 = (yR id).node ∧
    (yAw id).ioAddr (alignDown 0x60000000000 64) .pma = false := by decide +kernel
def yPk (r : Bool) (p : Nat) : State := yC csRunning [(MGT_CORE_STAT 7, MGT_CORE_STAT_PARK_PEND, p)] fun y => { y with ras := r }
theorem test_hyp_HartAtomics_6 : (hartAwake (yPk true 0) 7).irqPending 7 = true ∧ (hartAwake (yPk false 0) 7).irqPending 7 = false ∧
    (yPk false 0).flag (MGT_CORE_STAT 7) MGT_CORE_STAT_PARK_PEND = false ∧ (hartAwake (yPk false 1) 7).irqPending 7 = false ∧
    (yPk false 1).flag (MGT_CORE_STAT 7) MGT_CORE_STAT_PARK_PEND = true := by decide +kernel

def ySent (line : Nat) : State := yR fun y => { y with sb := [⟨line, 0xFF, 0xAB, true, false⟩] }
theorem test_hyp_CoreStates_1 : ((ySent kL).core 7).sb = ⟨kL, 0xFF, 0xAB, true, false⟩ :: [] ∧ kL = alignDown (0x4000 : Word).toNat 64 ∧ nodeOf kL = (ySent kL).node ∧
    (((ySent kL).setCore 7 { (ySent kL).core 7 with sb := [], draining := ((ySent kL).core 7).draining && ([] : List SbEnt) != [] }).sbPerform 7 ⟨kL, 0xFF, 0xAB, true, false⟩).2 = .ok ∧
    ((ySent (2 ^ 43)).core 7).sb = ⟨2 ^ 43, 0xFF, 0xAB, true, false⟩ :: [] ∧ nodeOf (2 ^ 43) ≠ (ySent (2 ^ 43)).node ∧ bitAt ((ySent kL).core 7).ysberr 60 = false ∧
    2 ^ 43 = alignDown (BitVec.ofNat 64 (2 ^ 43) : Word).toNat 64 := by decide +kernel
def yK (k : Nat) (f : YCore → YCore) : State := yC k [(MGT_CORE_STAT 7, MGT_CORE_STAT_OFF_CAUSE, 1)] f
theorem test_hyp_CoreStates_1b : ((yR (ySb false)).core 7).sb = ⟨kL, 0xFF, 0xAB, false, false⟩ :: [] ∧
    (∀ e ∈ ((mgt (ySent (2 ^ 43)) fun m => { m with warm := .asserted }).core 7).sb, nodeOf e.line ≠ State.reset.node) := by decide +kernel
theorem test_hyp_CoreStates_2 : (mgt (ySent kL) fun m => { m with warm := .asserted }).mgt.warm ≠ .idle ∧ (yK csOff id).coreSt 7 = csOff ∧ (yK csRunning id).coreSt 7 ≠ csOff ∧
    (yK csRunning id).coreSt 7 ≠ csParked ∧ (yK csStarting id).coreSt 7 = csStarting ∧ (yK csRunning id).coreSt 7 ≠ csParking ∧
    (yK csParking id).coreSt 7 = csParking ∧ ((yK csParking id).core 7).sb = [] ∧ ((yK csParking fun y => { y with drained := true }).core 7).drained = true ∧
    (yK csParking fun y => { y with drained := true }).cLines (0x80 + 7) = [] ∧ (yK csRunning id).coreSt 7 = csRunning ∧ (yK csOfflining id).coreSt 7 = csOfflining ∧
    (yK csOfflining id).rd (MGT_CORE_STAT 7) MGT_CORE_STAT_OFF_CAUSE = 1 := by decide +kernel
def yFl : State := { yK csParking id with caches := [(0x87, [(kL, kC .S)])] }
theorem test_hyp_CoreStates_3 : yFl.coreSt 7 = csParking ∧ (yFl.core 7).sb = [] ∧ yFl.cLine (0x80 + 7) kL = some (kC .S) ∧ (kC .S).st.stable = true := by decide +kernel

theorem test_hyp_HartInterruptsAndCsrs_1 : 1 ≤ (2047 : W32).toNat ∧ (2047 : W32).toNat ≤ 2047 ∧ 1 ≤ leVal (leBytes 4 (0xFF000000 : W32).toNat).reverse ∧
    leVal (leBytes 4 (0xFF000000 : W32).toNat).reverse ≤ 255 ∧ (8 : BitVec 12) ≠ 0 ∧ (8 : BitVec 12) ≠ 4 := by decide +kernel
theorem test_hyp_HartInterruptsAndCsrs_2 : (yR id).hartRuns 7 = true ∧ csrDefined (0x340 : BitVec 12).toNat = true ∧ nbits (0x340 : BitVec 12).toNat 9 8 ≤ privNum .m ∧
    nbits (0x340 : BitVec 12).toNat 11 10 ≠ 3 ∧ (0x340 : BitVec 12).toNat ∉ [0x7C0, 0x7C1, 0x7C2, 0x344] ∧ csrDefined (0x7C0 : BitVec 12).toNat = true ∧
    nbits (0x7C0 : BitVec 12).toNat 9 8 ≤ privNum .m ∧ bitAt (BitVec.ofNat 64 (2 ^ 60) : Word) 60 = true ∧ csrDefined (0x344 : BitVec 12).toNat = true ∧
    nbits (0x344 : BitVec 12).toNat 9 8 ≤ privNum .m ∧ bitAt (0 : Word) 35 = false ∧ csrDefined (0x7FF : BitVec 12).toNat = false ∧
    privNum .u < nbits (0x340 : BitVec 12).toNat 9 8 ∧ nbits (0xF14 : BitVec 12).toNat 11 10 = 3 := by decide +kernel
def cxV : Word := fset (fset (fset 0 MGT_CXLWIN_EN 1) MGT_CXLWIN_SIZE_G 1) MGT_CXLWIN_PORT 1
def cxS (l : Nat) : State := up [(MGT_MEM_CTL, MGT_MEM_CTL_CXL_LOCK, l), (HIF_PCIE_CFG, HIF_PCIE_CFG_CXL_EN, 1)]
theorem test_hyp_HartInterruptsAndCsrs_3 : (cxS 1).flag MGT_MEM_CTL MGT_MEM_CTL_CXL_LOCK = true ∧ (cxS 0).flag MGT_MEM_CTL MGT_MEM_CTL_CXL_LOCK = false ∧
    fget cxV MGT_CXLWIN_EN = 1 ∧ (cxS 0).cxlBad (3 : Fin 8) cxV = false ∧ State.reset.cxlBad (3 : Fin 8) cxV = true := by decide +kernel
def yDdr : State := up [(MGT_DDR_STAT, MGT_DDR_STAT_CH_SIZE, 1)]
theorem test_hyp_HartInterruptsAndCsrs_4 : 0x10000000040 = localOf (0x10000000040 : Word).toNat ∧ 0x10000000000 ≤ 0x10000000040 ∧ 0x10000000040 < 0x10000000000 + yDdr.ddrSize ∧
    yDdr.flag TST_EVQ_CFG TST_EVQ_CFG_EN = false ∧ yDdr.flag MGT_PSC_CFG MGT_PSC_CFG_SPILL_EN = false := by decide +kernel

/-! ### Hypotheses: rings, ports and translation -/

/-- Ring 3 in a state of its own, of 16 entries, with register fields and what else it holds. -/
def rS (k : Nat) (l : List (Nat × Fld × Nat)) (f : Ring → Ring) : State :=
  ring (up ([(HIF_RING_STAT 3, HIF_RING_STAT_STATE, k), (HIF_RING_CFG 3, HIF_RING_CFG_LOG2SIZE, 4), (HIF_RING_CFG 3, HIF_RING_CFG_EN, 1)] ++ l)) 3 f
def rA (l : List (Nat × Fld × Nat)) : State := rS rsActive l id
def rDb (page c v : Nat) : Word := BitVec.ofNat 64 (page + c * 2 ^ 10 + v * 2 ^ 16)
theorem test_hyp_RingAdmissionAndFences_1 : (rA []).doorbellCode 3 (rDb 3 0 15) = 0 ∧ (rA []).doorbellCode 3 (rDb 3 0 16) ≠ 0 ∧
    bits (rDb 3 0 15) 10 10 = 0 ∧ bits (rDb 3 1 5) 10 10 = 1 ∧ (rA [(HIF_RING_PTR 3, HIF_RING_PTR_CQ_TAIL, 5)]).doorbellCode 3 (rDb 3 1 5) = 0 ∧
    (rA [(HIF_RING_PTR 3, HIF_RING_PTR_CQ_TAIL, 5)]).doorbellCode 3 (rDb 3 1 6) ≠ 0 ∧ (rA []).doorbellCode 3 (rDb 4 0 1) ≠ 0 ∧
    bits (rDb 4 0 1) 9 0 ≠ (3 : RingId).val ∧ (8 : BitVec 12) ≠ 0 := by decide +kernel
def rTail (loc : Nat) : State := rA [(HIF_RING_PTR 3, HIF_RING_PTR_SQ_TAIL, 1), (HIF_RING_CFG 3, HIF_RING_CFG_LOC, loc)]
theorem test_hyp_RingAdmissionAndFences_2 : (rTail 0).ringSt 3 = rsActive ∧ ((rTail 0).ring 3).fetched.length < 16 ∧
    ((rTail 0).ring 3).fetched.length < (rTail 0).sqLevel 3 ∧ (rTail 0).hif.stopped = false ∧ (rTail 1).ringSt 3 = rsActive ∧
    ((rTail 1).ring 3).fetched.length < (rTail 1).sqLevel 3 ∧ (rTail 1).hif.stopped = false ∧ (rTail 1).rd (HIF_RING_CFG 3) HIF_RING_CFG_LOC = 1 ∧
    (rTail 0).rd (HIF_RING_CFG 3) HIF_RING_CFG_LOC ≠ 1 ∧ rdIs ((rTail 0).localRead 2 0 64) false = true ∧
    rdIs ({ rTail 0 with poison := [(0, true)] }.localRead 2 0 64) true = true ∧ rdBad ({ rTail 0 with regs := State.reset.regs }.localRead 2 0 64) = true ∧
    0 = localOf ((rTail 0).rd (HIF_SQ_BASE 3) HIF_SQ_BASE_BASE * 4096) +
      64 * (((rTail 0).rd (HIF_RING_PTR 3) HIF_RING_PTR_SQ_HEAD + ((rTail 0).ring 3).fetched.length) % (rTail 0).ringSize 3) := by decide +kernel
def rF (d : Nat) : State := rS rsActive [] fun r => { r with fetched := [BitVec.ofNat 512 d] }
def rAt (d : Nat) : Bool := decide (((rF d).ring 3).fetched = [BitVec.ofNat 512 d] ∧ (rF d).ringSt 3 = rsActive ∧ (rF d).hif.stopped = false ∧
  (rF d).rd PWR_IDLE PWR_IDLE_STATE = 0 ∧ (rF d).rd (HIF_RING_CFG 3) HIF_RING_CFG_LOG2SIZE ≤ 16)
def rOk (d : Nat) : Bool := rAt d && decide ((rF d).headerRefusal 3 (BitVec.ofNat 512 d) = none ∧ ((rF d).ring 3).fence = none ∧ (rF d).allRingsWait = false)
def rTl (ty : Nat) : Nat := ty + 2 ^ 16 + 5 * 2 ^ 18
theorem test_hyp_RingAdmissionAndFences_3 : rAt 0x77 = true ∧ (rF 0x77).headerRefusal 3 0x77 = some (stHifMalformed, 0) ∧ (rF 0x77).cqFull 3 = false ∧
    rAt (rTl 0x10 + 91 * 2 ^ 18) = true ∧ (rF (rTl 0x10 + 91 * 2 ^ 18)).headerRefusal 3 (BitVec.ofNat 512 (rTl 0x10 + 91 * 2 ^ 18)) =
      some (stHifBadTarget, 0xFFFFFFFF) := by decide +kernel
theorem test_hyp_RingAdmissionAndFences_4 : (∀ d ∈ [0x00, 0x01, 0x22, 0x23, 0x30, 0x31, rTl 0x10, rTl 0x21], rOk d = true ∧
    (rF d).deferCauses 3 (BitVec.ofNat 512 d) = []) ∧ tileType (bits (BitVec.ofNat 512 (rTl 0x10) : Line) 7 0) = true ∧
    (rF (rTl 0x10)).tst ((rF (rTl 0x10)).targetTile (BitVec.ofNat 512 (rTl 0x10))) ≠ tsOffline := by decide +kernel
def rTwo : State := ring (rF 0) 5 fun r => { r with fetched := [0] }
/-- Ring 5's turn, with ring 3 ready too. -/
def rTurn : State := let s := regs [(HIF_RING_STAT 5, HIF_RING_STAT_STATE, rsActive), (HIF_RING_CFG 5, HIF_RING_CFG_LOG2SIZE, 4)] rTwo
  { s with hif := { s.hif with turn := 5 } }
theorem test_hyp_RingAdmissionAndFences_4b : (∀ d ∈ [0x00, 0x01, 0x22, 0x23, 0x30, 0x31, rTl 0x10, rTl 0x21], (rF d).nextRing = some 3) ∧
    rTurn.nextRing ≠ some 3 ∧ (rTurn.ring 3).fetched = [0] ∧ rTurn.ringSt 3 = rsActive ∧ rTurn.deferCauses 3 0 = [] ∧ rTurn.headerRefusal 3 0 = none ∧
    ((fun (s : State) => { s with hif := { s.hif with turn := 3 } }) (rF 0)).hif.turnUsed < 2 ^ (rF 0).rd (HIF_RING_CFG 3) HIF_RING_CFG_PRIO := by decide +kernel
def rDef : State := rS rsActive [(HIF_RING_STAT 3, HIF_RING_STAT_OUTSTANDING, 15)] fun r => { r with fetched := [0] }
theorem test_hyp_RingAdmissionAndFences_5 : (rDef.ring 3).fetched = 0 :: [] ∧ rDef.ringSt 3 = rsActive ∧ rDef.hif.stopped = false ∧
    rDef.rd PWR_IDLE PWR_IDLE_STATE = 0 ∧ rDef.headerRefusal 3 0 = none ∧ (rDef.ring 3).fence = none ∧ rDef.allRingsWait = false ∧
    rDef.deferCauses 3 0 = 5 :: [] ∧ (rDef.ring 3).deferred = false ∧ (rDef.ring 3).causes = [] ∧
    rDef.rd (HIF_RING_CFG 3) HIF_RING_CFG_LOG2SIZE ≤ 16 := by decide +kernel
def rW (d : Nat) : Work := { wk d with ring := 3 }
def rNop : State := { rA [] with hif := { (rA []).hif with nopQ := [rW 0] } }
def rCoal : State := rS rsActive [(HIF_RING_CFG 3, HIF_RING_CFG_IRQ_EN, 1), (HIF_RING_CFG 3, HIF_RING_CFG_COAL_US, 9)] fun r => { r with unsig := 1 }
theorem test_hyp_RingAdmissionAndFences_6 : takeFirst (fun w : Work => w.ring == (3 : RingId).val) rNop.hif.nopQ = some (rW 0, []) ∧ (rA []).ringSt 3 = rsActive ∧
    rCoal.flag (HIF_RING_CFG 3) HIF_RING_CFG_IRQ_EN = true ∧ rCoal.rd (HIF_RING_CFG 3) HIF_RING_CFG_COAL_US ≠ 0 ∧ (rCoal.ring 3).unsig ≠ 0 := by decide +kernel
def rFs (d : Nat) (c t f : Bool) : FenceSt := ⟨rW d, c, t, f⟩
def rFn (d : Nat) (c t f : Bool) : State := rS rsActive [(HIF_RING_STAT 3, HIF_RING_STAT_OUTSTANDING, 1)] fun r => { r with fence := some (rFs d c t f) }
theorem test_hyp_RingAdmissionAndFences_7 : ((rFn 1 false false false).ring 3).fence = some (rFs 1 false false false) ∧
    fenceFault (rFs 1 false false false).work.desc = none ∧ (rFs 1 false false false).checked = false ∧
    fenceFault (rFs (1 + 2 ^ 68) false false false).work.desc = some 68 ∧ (rFs 1 true false false).started = false ∧
    (rFn 1 true false false).fenceReady 3 (rFs 1 true false false) = true ∧ bitAt (BitVec.ofNat 512 1 : Line) 65 = false ∧
    bitAt (BitVec.ofNat 512 1 : Line) 66 = false ∧ bitAt (BitVec.ofNat 512 (1 + 2 ^ 65) : Line) 65 = true ∧ bitAt (BitVec.ofNat 512 (1 + 2 ^ 66) : Line) 66 = true ∧
    (rFn (1 + 2 ^ 66) true false false).fenceReady 3 (rFs (1 + 2 ^ 66) true false false) = true ∧
    ((rFn (1 + 2 ^ 66) true true true).ring 3).fence = some (rFs (1 + 2 ^ 66) true true true) ∧
    (regs [(CCH_RRB_INV, CCH_RRB_INV_BUSY, 1)] (rFn (1 + 2 ^ 66) true true true)).flag CCH_RRB_INV CCH_RRB_INV_BUSY = true ∧
    (rFn (1 + 2 ^ 66) true true true).flag CCH_RRB_INV CCH_RRB_INV_BUSY = false := by decide +kernel

def rCf (lg loc : Nat) : Word := fset (fset 0 HIF_RING_CFG_LOG2SIZE lg) HIF_RING_CFG_LOC loc
def rD (l : List (Nat × Fld × Nat)) : State := rS rsDisabled l id
theorem test_hyp_RingStates_1 : (rD []).ringSt 3 = rsDisabled ∧ ((rD []).ringCfg 3 (rCf 4 0)).ringCfgOk 3 = true ∧
    ((rD []).ringCfg 3 (rCf 16 0)).ringCfgOk 3 = true ∧ ((rD []).ringCfg 3 (rCf 3 0)).ringCfgOk 3 = false ∧
    ((rD []).ringCfg 3 (rCf 17 0)).ringCfgOk 3 = false ∧ ((rD []).ringCfg 3 (rCf 4 1)).ringCfgOk 3 = false := by decide +kernel
def rO (k o : Nat) : State := rS k [(HIF_RING_STAT 3, HIF_RING_STAT_OUTSTANDING, o)] id
theorem test_hyp_RingStates_2 : (rO rsActive 1).ringSt 3 = rsActive ∧ (rO rsActive 1).rd (HIF_RING_STAT 3) HIF_RING_STAT_OUTSTANDING ≠ 0 ∧
    (rO rsStopped 0).ringSt 3 = rsStopped ∧ (rO rsActive 0).ringSt 3 = rsActive ∧ (rO rsActive 0).rd (HIF_RING_STAT 3) HIF_RING_STAT_OUTSTANDING = 0 ∧
    ((rO rsActive 1).ring 3).enCleared = false ∧ ((rO rsActive 0).ring 3).enCleared = false := by decide +kernel
def rL (k : Nat) : State := rS rsHostLost [(HIF_ATTACH, HIF_ATTACH_READY, k), (HIF_RING_CFG 3, HIF_RING_CFG_LOC, 1)] fun r => { r with resume := true }
theorem test_hyp_RingStates_3 : (rL 0).ringSt 3 = rsHostLost ∧ (rL 0).flag HIF_ATTACH HIF_ATTACH_READY = false ∧ (rL 1).ringSt 3 = rsHostLost ∧
    (rL 1).flag HIF_ATTACH HIF_ATTACH_READY = true ∧ ((rL 0).ring 3).resume = true := by decide +kernel
def rAtt (go t : Bool) : State := { rL 0 with hif := { (rL 0).hif with attachGo := go, attachTimer := t } }
theorem test_hyp_RingStates_4 : (rTail 1).rd (HIF_RING_CFG 3) HIF_RING_CFG_LOC = 1 ∧ (rTail 1).ringSt 3 ≠ rsDisabled ∧ (rTail 0).rd (HIF_RING_CFG 3) HIF_RING_CFG_LOC ≠ 1 ∧
    (rAtt true false).hif.attachGo = true ∧ (rAtt true false).ringSt 3 = rsHostLost ∧ ((rAtt true false).ring 3).resume = true ∧
    (rAtt false true).hif.attachTimer = true ∧ (rAtt false true).ringSt 3 = rsHostLost ∧ (rAtt false true).ringSt 4 ≠ rsHostLost ∧
    (rAtt true false).hif.attachTimer = false := by decide +kernel

theorem test_hyp_RingEnableRefused_1 : (rD []).ringSt 3 = rsDisabled ∧ fget (rCf 3 0) HIF_RING_CFG_LOG2SIZE < 4 ∧ 16 < fget (rCf 17 0) HIF_RING_CFG_LOG2SIZE ∧
    fget (rCf 4 0) HIF_RING_CFG_LOC = 0 ∧
    (rD [(HIF_SQ_BASE 3, HIF_SQ_BASE_BASE, 0x60000000)]).isMem ((rD [(HIF_SQ_BASE 3, HIF_SQ_BASE_BASE, 0x60000000)]).rd (HIF_SQ_BASE 3) HIF_SQ_BASE_BASE * 4096)
      (2 ^ fget (rCf 4 0) HIF_RING_CFG_LOG2SIZE * 64) = false ∧ fget (rCf 4 1) HIF_RING_CFG_LOC = 1 ∧
    (rD []).flag HIF_PCIE_STAT HIF_PCIE_STAT_EP_UP = false ∧
    (rD [(HIF_PCIE_STAT, HIF_PCIE_STAT_EP_UP, 1)]).flag HIF_HOLD_CFG HIF_HOLD_CFG_LOCK = false := by decide +kernel

def pC (a b : Nat) : Word := fset (fset 0 HIF_PCIE_CFG_BIF_A a) HIF_PCIE_CFG_BIF_B b
def pS (l : Nat) : State := up [(HIF_PCIE_CFG, HIF_PCIE_CFG_LOCK, l), (HIF_PCIE_CFG, HIF_PCIE_CFG_BIF_A, 2)]
theorem test_hyp_PortsAndRegisters_1 : (pS 0).flag HIF_PCIE_CFG HIF_PCIE_CFG_LOCK = false ∧ fget (pC 1 2) HIF_PCIE_CFG_BIF_A ≠ 3 ∧ fget (pC 1 2) HIF_PCIE_CFG_BIF_B ≠ 3 ∧
    (pS 1).flag HIF_PCIE_CFG HIF_PCIE_CFG_LOCK = true ∧ (pS 1).rd HIF_PCIE_CFG HIF_PCIE_CFG_BIF_A ≠ fget (pC 1 2) HIF_PCIE_CFG_BIF_A ∧
    (pS 0).flag RST_BOOT RST_BOOT_FAILED = false ∧ (pS 1).rpExists (4 : PciePort).val = true := by decide +kernel
def pE (br : Nat) : State := up [(HIF_PCIE_STAT, HIF_PCIE_STAT_EP_UP, 1), (XLT_APER, XLT_APER_VALID, 1), (XLT_APER, XLT_APER_BASE, 0x5A),
  (HIF_PCIE_CFG, HIF_PCIE_CFG_PEER_BRIDGE, br)]
theorem test_hyp_PortsAndRegisters_2 : (pS 0).inbound 0 0x4000 = .bad ∧ (pE 0).inbound 0 0x5A00000000004000 = .pa 0x4000 ∧
    (pE 0).inbound 0 0x5B00000000004000 = .bad ∧ (pE 0).inbound 0 (0x5A00000000000000 + 0x70000000000) = .peer ∧
    wrIs ((pE 0).busWrite 2 false 0x4000 [1, 2] false) .ok = true ∧ rdIs ((pE 0).busRead 2 false 0x4000 8 .once) false = true ∧ nodeOf 0x4000 = (pE 0).node := by decide +kernel
/-- The H-die's buffer in use, with a line of node 1. -/
def pBuf : State := let s := regs [(CCH_RRB_CFG, CCH_RRB_CFG_EN_H, 1)] (pE 0); s.rrbEnter 0 (2 ^ 43 + 0x4000) 7 false
theorem test_hyp_PortsAndRegisters_2b : pBuf.inbound 0 0x5A00080000004000 = .pa (2 ^ 43 + 0x4000) ∧ nodeOf (2 ^ 43 + 0x4000) ≠ pBuf.node ∧ pBuf.rrbOn 0 = true ∧
    rdIs (pBuf.bufRead 0 (2 ^ 43 + 0x4000) 8) false = true := by decide +kernel
def pR : Nat := HIF_SQ_BASE 3
def regIs (s : State) (a : Nat) (v : Word) : Bool := match ({ s with answer := .done }).registerWrite a v with
  | .next t => decide (t = ({ s with answer := .done }).plainWrite a v)
  | _ => false
theorem test_hyp_PortsAndRegisters_3 : MGT_PSC_CFG = localOf (BitVec.ofNat 64 MGT_PSC_CFG : Word).toNat ∧ MGT_PSC_CFG % 8 = 0 ∧ State.reset.region MGT_PSC_CFG = .reg MGT_PSC_CFG ∧
    (∃ spec ∈ regSpec MGT_PSC_CFG, ∃ f ∈ spec.fields, f.acc = .rw) ∧ (∃ spec ∈ regSpec XLT_CTL, ∃ f ∈ spec.fields, f.acc = .rwl) ∧
    State.reset.cut 2 MGT_PSC_CFG = false ∧ (∃ spec ∈ regSpec HIF_PCIE_CFG, ∃ f ∈ spec.fields, f.acc = .w1c) ∧
    State.reset.regHeld MGT_PSC_CFG = false ∧ State.reset.regShut MGT_PSC_CFG = none ∧ regIs State.reset MGT_PSC_CFG 5 = true ∧
    ({ State.reset with answer := .done }).writeIgnored MGT_PSC_CFG 5 = false ∧ badFields MGT_PSC_CFG 5 = [] ∧ State.reset.heldFields MGT_PSC_CFG = [] := by decide +kernel
theorem test_hyp_PortsAndRegisters_4 : nodeOf (BitVec.ofNat 64 (HIF_SQ_BASE 3) : Word).toNat = State.reset.node ∧ HIF_SQ_BASE 3 % 8 = 0 ∧
    State.reset.region (HIF_SQ_BASE 3) = .reg (HIF_SQ_BASE 3) ∧ State.reset.cut 2 (HIF_SQ_BASE 3) = false ∧ State.reset.cut 2 (LOU_CFG 0) = true ∧
    State.reset.region (LOU_CFG 0) = .reg (LOU_CFG 0) ∧ LOU_CFG 0 % 8 = 0 ∧ State.reset.regHeld (HIF_SQ_BASE 3) = true := by decide +kernel

def tQ (k : AccessKind) : XReq := xreq 0 7 0x5000 k
def tX (f : XltSt → XltSt) : State := { State.reset with xlt := f XltSt.reset }
theorem test_hyp_Translation_1 : tQ .read = xreq (0 : DieId) (7 : BitVec 20).toNat (0x5008 : Word).toNat .read ∧
    tQ .read ∈ (tX fun x => { x with inflight := [tQ .read], stale := [tQ .read] }).xlt.inflight ∧
    tQ .read ∈ (tX fun x => { x with inflight := [tQ .read], stale := [tQ .read] }).xlt.stale ∧
    (∀ k ∈ [AccessKind.read, .write, .fetch], tQ k ∈ (tX fun x => { x with inflight := [tQ k] }).xlt.inflight ∧
      tQ k ∉ (tX fun x => { x with inflight := [tQ k] }).xlt.stale ∧ tQ k ∉ (tX fun x => { x with inflight := [tQ k] }).xlt.failed ∧
      tQ k ∉ (tX fun x => { x with inflight := [tQ k] }).xlt.retried) := by decide +kernel
def tP : Word := BitVec.ofNat 64 (0xDF + 0x123 * 2 ^ 10)
theorem test_hyp_Translation_2 : (List.replicate 16 tP).getD ((0x5008 : Word).toNat / 2 ^ pageShift .k4 % 16) 0 = tP ∧
    (up [(XLT_CTL, XLT_CTL_MERGE_EN, 0)]).flag XLT_CTL XLT_CTL_MERGE_EN = false ∧ bitAt tP 63 = false ∧ bitAt tP 0 = true ∧ bitAt tP 6 = true ∧ bitAt tP 4 = true ∧ bitAt tP 1 = true ∧
    bitAt tP 2 = true ∧ bitAt tP 7 = true ∧ bitAt tP 3 = true ∧ (12 : Fin 64).val ≤ 12 ∧ State.reset.flag XLT_APER XLT_APER_VALID = false ∧
    State.reset.flag XLT_CTL XLT_CTL_HOSTSIDE = false ∧ (⟨0, true⟩ : DevCtx).stage2 = 0 ∧ (⟨8, true⟩ : DevCtx).stage2 ≠ 0 ∧ (⟨0, true⟩ : DevCtx).enPri = true ∧
    (up [(XLT_PRI_CFG, XLT_PRI_CFG_EN, 0)]).flag XLT_PRI_CFG XLT_PRI_CFG_EN = false ∧ (up [(XLT_PRI_CFG, XLT_PRI_CFG_EN, 1)]).flag XLT_PRI_CFG XLT_PRI_CFG_EN = true := by decide +kernel
theorem test_hyp_Translation_3 : (tX fun x => { x with prq := [tQ .read, tQ .write] }).xlt.prq.any (·.samePage (tQ .read)) = true ∧
    (tX fun x => { x with timedOut := [tQ .read] }).xlt.prq.any (·.samePage (tQ .read)) = false ∧
    (tX fun x => { x with timedOut := [tQ .read] }).xlt.timedOut.any (·.samePage (tQ .read)) = true ∧ (tX fun x => { x with fences := 1 }).xlt.fences ≠ 0 := by decide +kernel

/-! ### Hypotheses: Fugen and Prism -/

/-- Link 6 in state k, the only link of port 4. -/
def fS (k : Nat) (l : List (Nat × Fld × Nat)) (f : FgnSt → FgnSt) : State :=
  { up ([(FGN_PORT_CFG 4, FGN_PORT_CFG_LINKS, 2 ^ 6), (FGN_PORT_CFG 4, FGN_PORT_CFG_EN, 1), (FGN_LINK_STAT 6, FGN_LINK_STAT_STATE, k)] ++ l) with fgn := f FgnSt.reset }
def fCfg (nx en : Nat) : Word := fset (fset 0 FGN_CFG_NX nx) FGN_CFG_EN en
def fOn : State := { up [(FGN_CFG, FGN_CFG_NX, 3)] with mgt := { State.reset.mgt with straps := { State.reset.mgt.straps with pos := 2 ^ 9 } } }
theorem test_hyp_FugenLinks_1 : ((fS lkDisabled [] id).regWrite FGN_CFG (fCfg 3 1)).onRings (fS lkDisabled [] id).node = true ∧ fget (fCfg 3 1) FGN_CFG_EN = 1 ∧
    fget (fCfg 3 0) FGN_CFG_EN = 0 ∧ (fS lkDisabled [] id).linkPort 6 = some 4 ∧ (fS lkDisabled [] id).flag (FGN_PORT_CFG 4) FGN_PORT_CFG_EN = true ∧
    (fS lkDisabled [] id).lkSt 6 = lkDisabled ∧ (fS lkDisabled [] id).computeHeld = false ∧ fget (0 : Word) FGN_PORT_CFG_EN = 0 ∧
    fget (fset (fset 0 FGN_PORT_CFG_EN 1) FGN_PORT_CFG_LINKS (2 ^ 6)) FGN_PORT_CFG_EN = 1 ∧
    (fS lkDisabled [(FGN_CFG, FGN_CFG_EN, 1)] id).flag FGN_CFG FGN_CFG_EN = true ∧ (6 : LinkId).val ∈ (fS lkActive [] id).portLinks 4 := by decide +kernel
theorem test_hyp_FugenLinks_2 : (fOn.regWrite FGN_CFG (fCfg 0 1)).onRings fOn.node = false ∧ (fOn.regWrite FGN_CFG (fCfg 3 1)).onRings fOn.node = true := by decide +kernel
def fId (s : State) : FIdent := ⟨BitVec.ofNat 13 (s.lkPeer 6).1, BitVec.ofNat 5 (s.lkPeer 6).2, 5, BitVec.ofNat 4 (s.rd FGN_CFG FGN_CFG_NX),
  BitVec.ofNat 3 (s.rd FGN_CFG FGN_CFG_NY), BitVec.ofNat 3 (s.rd FGN_CFG FGN_CFG_NZ), List.replicate 16 9⟩
theorem test_hyp_FugenLinks_3 : (fS lkDetect [] id).lkSt 6 = lkDetect ∧ (fS lkTrain [] id).lkSt 6 = lkTrain ∧ (fS lkAlign [] id).lkSt 6 = lkAlign ∧
    (fS lkIdent [] id).lkSt 6 = lkIdent ∧ (fS lkIdent [] id).identOk 6 (fId (fS lkIdent [] id)) = true ∧ (fS lkIdent [] id).linkPort 6 = some 4 ∧
    (fS lkIdent [] id).portUp 4 = false ∧ ((fS lkIdent [] id).fport 4).queue = [] ∧
    (fS lkIdent [] id).identOk 6 { fId (fS lkIdent [] id) with link := 9 } = false := by decide +kernel
theorem test_hyp_FugenLinks_4 : lkTrain ≤ (fS lkTrain [] id).lkSt 6 ∧ (fS lkTrain [] id).lkSt 6 ≤ lkIdent ∧ (fS lkIdent [] id).lkSt 6 ≤ lkIdent ∧
    mget 0 (fS lkTrain [] fun f => { f with attempts := [(6, 6)] }).fgn.attempts 6 < 7 ∧
    7 ≤ mget 0 (fS lkTrain [] fun f => { f with attempts := [(6, 7)] }).fgn.attempts 6 ∧ (fS lkActive [] id).lkSt 6 = lkActive ∧
    (fS lkActive [] id).linkPort 6 = some 4 := by decide +kernel
def fPt (k fb : Nat) : State := fS lkDetect [(FGN_PORT_STAT 4, FGN_PORT_STAT_STATE, k), (FGN_PORT_CFG 4, FGN_PORT_CFG_FB_EN, fb)] id
theorem test_hyp_FugenLinks_5 : (fPt ptDown 1).flag (FGN_PORT_CFG 4) FGN_PORT_CFG_EN = true ∧ (fPt ptDown 1).portUp 4 = false ∧ (fPt ptDown 1).ptSt 4 ≠ ptFallback ∧
    (fPt ptDown 1).flag (FGN_PORT_CFG 4) FGN_PORT_CFG_FB_EN = true ∧ (fPt ptDown 0).portUp 4 = false ∧ (fPt ptDown 0).ptSt 4 ≠ ptFallback ∧
    (fPt ptDown 0).flag (FGN_PORT_CFG 4) FGN_PORT_CFG_FB_EN = false := by decide +kernel
theorem test_hyp_FugenLinks_6 : (fS lkActive [] id).lkSt 6 = lkActive ∧ (fS lkActive [] id).linkPort 6 = some (4 : PortId).val ∧
    bits (0 : Word) 11 0 = ((fS lkActive [] id).fport 4).rx ∧ bits (0xFFF : Word) 11 0 ≠ ((fS lkActive [] id).fport 4).rx ∧
    ((fS lkActive [] id).fport 4).queue = [] := by decide +kernel

def fUp (l : List (Nat × Fld × Nat)) (f : FgnSt → FgnSt) : State := fS lkActive ([(FGN_PORT_STAT 4, FGN_PORT_STAT_STATE, ptUp)] ++ l) f
/-- A packet of node 1 for node 0. -/
def fK (seq : Nat) (aux : Nat) (data : List Line) : FPkt := ⟨0, 1, false, false, false, false, 0, 0, false, BitVec.ofNat 32 seq, 7, 9, 0, 0x4000, BitVec.ofNat 64 aux, false, data⟩
def fRc (e : List Nat) : State := fUp [] fun f => { f with recv := [(1, ⟨e, [0, 0, 0], 7⟩)] }
theorem test_hyp_FugenPackets_1 : (fUp [] id).portUp 4 = true ∧ ({ fK 0 0 [] with reserved := true } : FPkt).reserved = true ∧ (fK 0 0 []).reserved = false ∧
    (∀ x ∈ [(0x01, 0), (0x02, 4), (0x03, 1), (0x04, 1), (0x10, 1), (0x11, 0), (0x20, 4), (0x21, 0)], lenOk x.1 (List.replicate x.2 (0 : Line)).length = true) ∧
    ({ fK 0 0 [] with dst := 3 } : FPkt).dst.toNat ≠ (fUp [] id).node ∧ (fK 0 0 []).dst.toNat = (fUp [] id).node ∧
    mfind (fRc [5, 5, 5]).fgn.recv (fK 4 0 []).src.toNat = some ⟨[5, 5, 5], [0, 0, 0], 7⟩ ∧ (fK 4 0 []).inc.toNat = 7 ∧ (fK 4 0 []).seq.toNat ≠ 5 ∧
    seqBelow (fK 4 0 []).seq.toNat 5 = true ∧ seqBelow (fK 6 0 []).seq.toNat 5 = false ∧ (fK 6 0 []).seq.toNat ≠ 5 ∧
    ({ fK 4 0 [] with inc := 8 } : FPkt).inc.toNat ≠ 7 ∧ (fK 4 0 []).seq ≠ 0 := by decide +kernel
def fAc (tc : Nat) (k : FPkt) : State := ((fUp [] id).connRecv tc k).1
def fGo (tc : Nat) (k : FPkt) : Bool := ((fUp [] id).connRecv tc k).2
theorem test_hyp_FugenPackets_2 : fGo 0 (fK 0 4 []) = true ∧ 1 ≤ bits (fK 0 4 []).aux 2 0 ∧ bits (fK 0 4 []).aux 2 0 ≤ 4 ∧
    (fAc 0 (fK 0 4 [])).remoteOk (fK 0 4 []).addr.toNat = true ∧
    rdIs ((fAc 0 (fK 0 4 [])).localRead ((fUp [] id).portDie 4) (fK 0 4 []).addr.toNat (64 * bits (fK 0 4 []).aux 2 0)) false = true ∧
    fGo 0 (fK 0 0 [7]) = true ∧ (fK 0 0 [7]).data = [7] ∧ (fAc 0 (fK 0 0 [7])).remoteOk (fK 0 0 [7]).addr.toNat = true ∧
    wrIs ((fAc 0 (fK 0 0xFF [7])).maskedWrite ((fUp [] id).portDie 4) 0x4000 (leBytes 64 7) false (byteRuns 0xFF)) .ok = true ∧
    (fAc 0 (fK 0 0 [7])).region (fK 0 0 [7]).addr.toNat = .mem 0x4000 ∧
    ((fAc 0 (fK 0 0 [7])).fgnRmw ((fUp [] id).portDie 4) ((fAc 0 (fK 0 0 [7])).node * 2 ^ 43 + 0x4000) 0 0 7).2 = .ok 0 false := by decide +kernel
theorem test_hyp_FugenPackets_3 : fGo 1 (fK 0 0 [7, 8]) = true ∧ (fK 0 0 [7, 8]).data.length ≤ 4 ∧ fGo 1 (fK 0 0 []) = true ∧ fGo 1 (fK 0 1 []) = true ∧
    bits (fK 0 0 []).aux 1 0 = 0 ∧ bits (fK 0 1 []).aux 1 0 = 1 ∧ bits (fK 0 3 []).aux 1 0 = 3 ∧ fGo 2 (fK 0 0 [7]) = true ∧ fGo 2 (fK 0 0 []) = true ∧ bits (fK 0 2 [7]).aux 1 0 = 2 ∧
    fGo 1 (fK 0 2 [7]) = true ∧ (∀ q ∈ (fUp [] id).tiles, ((fUp [] id).epo q.1).pub = []) ∧
    mfind (fUp [] id).fgn.recv (fK 0 0 []).src.toNat = none ∧ (fK 0 0 []).seq = 0 ∧ (fK 5 0 []).inc.toNat = 7 ∧ (fK 5 0 []).seq.toNat = 5 ∧
    mfind (fRc [5, 5, 5]).fgn.recv (fK 5 0 []).src.toNat = some ⟨[5, 5, 5], [0, 0, 0], 7⟩ := by decide +kernel
/-- A binary32 add on the first ledger cell of C0. -/
def fL : FPkt := { fK 0 0x30 [0x3F800000] with addr := 0x7C800000000 }
def fLs : State := fUp [(EPO_LEDGER_CFG 0, EPO_LEDGER_CFG_SIZE, 1)] id
theorem test_hyp_FugenPackets_4 : (fLs.connRecv 0 fL).2 = true ∧ (fLs.connRecv 0 fL).1.region fL.addr.toNat = .ledger 0 0 false ∧ bits fL.aux 7 4 = 3 ∧
    (fLs.connRecv 0 fL).1.ledgerAt ((fLs.connRecv 0 fL).1.node * 2 ^ 43 + fL.addr.toNat) 4 = some (0, 0) := by decide +kernel
/-- Port 4 with packets of class and slice waiting on their channels, and one unit of credit short on the first. -/
def fQ (g : Nat) (q : List (Nat × Nat)) (debt room : Nat) : State :=
  { fUp [(FGN_PORT_CFG 4, FGN_PORT_CFG_GUARD, g), (FGN_SLICE, FGN_SLICE_ID, 1)] id with
    fgn := { FgnSt.reset with ports := [(4, { FPort.reset with
      queue := q.map fun x => (4 * x.1, { tc := x.1, op := 0, pkt := { fK 0 0 [] with slice := BitVec.ofNat 10 x.2 }, tries := 1 }),
      credits := q.map (fun x => (4 * x.1, 1)), turn := 0, mgtDebt := debt, room := room })] } }
def fQp (s : State) : Option (Nat × Nat) := (s.fgnPick 4 (s.fport 4)).map fun x => (x.1.2.1, x.2.room)
theorem test_hyp_FugenSending : (fQ 1 [(0, 1), (1, 0)] 0 0).lkSt 6 = lkActive ∧ (fQ 1 [(0, 1), (1, 0)] 0 0).linkPort 6 = some (4 : PortId).val ∧
    (fQ 1 [(0, 1), (1, 0)] 0 0).portUp 4 = true ∧ bits (0 : Word) 11 0 = ((fQ 1 [(0, 1), (1, 0)] 0 0).fport 4).rx ∧
    fQp (fQ 1 [(0, 1), (1, 0)] 0 0) = some (4, 3) ∧ fQp (fQ 1 [(0, 1), (1, 0)] 0 3) = some (0, 2) ∧ fQp (fQ 1 [(0, 0), (1, 1)] 0 3) = some (4, 2) ∧
    fQp (fQ 0 [(0, 1), (2, 0)] 0 0) = some (8, 0) ∧ fQp (fQ 0 [(0, 1), (3, 0)] 0 0) = some (12, 0) ∧ fQp (fQ 0 [(0, 1), (3, 0)] 9 0) = some (0, 0) ∧
    fQp (fQ 0 [] 0 0) = none ∧ fgnHeads ((fQ 1 [(0, 1), (1, 0)] 0 0).fport 4) ≠ [] ∧
    (∀ q ∈ ((fQ 1 [(0, 1), (1, 0)] 0 0).fport 4).queue, q.2.tc ≤ 3) := by decide +kernel

def fTx (tc seq tries : Nat) : FTx := ⟨tc, 0x10, fK seq 0 [], tries⟩
def fSn (u : List FTx) : State := fUp [(FGN_CONN_CFG, FGN_CONN_CFG_RETRY_MAX, 3)] fun f => { f with send := [(1, ⟨[2, 2, 2], u⟩)], recv := [(1, ⟨[5, 5, 5], [0, 1, 0], 7⟩)] }
theorem test_hyp_FugenConnections_1 : (fSn [fTx 1 0 1]).portUp 4 = true ∧ (fK 0 1 []).reserved = false ∧ (fK 0 1 []).data = [] ∧
    (fK 0 1 []).dst.toNat = (fSn [fTx 1 0 1]).node ∧ mfind (fSn [fTx 1 0 1, fTx 0 1 1]).fgn.send (fK 0 1 []).src.toNat = some ⟨[2, 2, 2], [fTx 1 0 1, fTx 0 1 1]⟩ ∧
    (∀ x ∈ [fTx 1 0 1, fTx 0 1 1], x.tc ≠ 2) ∧ bitAt (fK 0 4 []).aux 2 = true ∧ bitAt (fK 0 1 []).aux 2 = false ∧ bits (fK 0 1 []).aux 1 0 = (1 : Fin 3).val ∧
    [fTx 1 0 1, fTx 0 1 1].filter (fun y => y.tc == (1 : Fin 3).val) = fTx 1 0 1 :: [] ∧
    (fTx 1 0 3).tries ≤ (fSn []).rd FGN_CONN_CFG FGN_CONN_CFG_RETRY_MAX ∧ (fSn []).rd FGN_CONN_CFG FGN_CONN_CFG_RETRY_MAX + 1 ≤ (fTx 1 0 4).tries ∧
    mfind (fSn []).fgn.recv (fK 0 1 []).src.toNat = some ⟨[5, 5, 5], [0, 1, 0], 7⟩ ∧ mfind (fSn []).fgn.send (fK 0 1 []).src.toNat = some ⟨[2, 2, 2], []⟩ := by decide +kernel

/-- A COLLECTIVE of communicator 5 over two words from 0x1000 into 0x2000. -/
def cD (op e seq : Nat) : Nat := 0x31 + op * 2 ^ 64 + 2 ^ 68 + 5 * 2 ^ 80 + 0x1000 * 2 ^ 96 + 0x2000 * 2 ^ 160 + e * 2 ^ 224 + seq * 2 ^ 272
/-- Its communicator lists this C-die and die 0 of node 1. -/
def cM (s : State) : State := regs [(PRS_CFG 0, PRS_CFG_EN, 1), (PRS_CFG 0, PRS_CFG_COMM_CNT, 16), (PRS_COMM_BASE 0, PRS_COMM_BASE_BASE, 0x100)]
  { s with mem := memPut (memPut s.mem 0x4050 (leBytes 16 (1 + 0x5000 * 2 ^ 64))) 0x5000 (leBytes 4 (2 ^ 16)) }
def cS (d : Nat) (f : PrsSt → PrsSt) : State := cM { up [] with hif := { HifSt.reset with prsQ := [(0, [wk d])] }, prs := [(0, f PrsSt.reset)] }
theorem test_hyp_Collectives_1 : mget [] (cS (cD 1 2 1) id).hif.prsQ (0 : DieId).val = wk (cD 1 2 1) :: [] ∧ (cS (cD 1 2 1) id).flag (PRS_CFG 0) PRS_CFG_EN = true ∧
    (cS (cD 1 2 1) id).ringHeld (wk (cD 1 2 1)) = false ∧ colComm (wk (cD 1 2 1)).desc = 5 ∧ colBad (wk (cD 0 2 1)).desc = true ∧ colBad (wk (cD 1 2 1)).desc = false ∧
    (cS (cD 1 2 1) id).colStreamBad 0 (wk (cD 1 2 1)).desc = false ∧ (cS (cD 1 2 1) id).colStreamBad 0 (wk (cD 1 2 1 + 2 ^ 78)).desc = true ∧
    (cS (cD 1 2 1) id).comm 0 5 = some ([0, 1], 0) ∧ (cS (cD 1 2 1) id).comm 0 16 = none := by decide +kernel
theorem test_hyp_Collectives_2 : colOp (wk (cD 2 3 1)).desc = 2 ∧ colE (wk (cD 2 3 1)).desc % [0, 1].length ≠ 0 ∧ colE (wk (cD 2 2 1)).desc % [0, 1].length = 0 ∧
    colSeq (wk (cD 1 2 2)).desc ≠ (mget 0 ((cS (cD 1 2 2) id).prism 0).last 5 + 1) % 2 ^ 32 ∧
    colSeq (wk (cD 1 2 1)).desc = (mget 0 ((cS (cD 1 2 1) id).prism 0).last 5 + 1) % 2 ^ 32 ∧ ((cS (cD 1 2 1) id).prism 0).aborts = [] ∧
    colE (wk (cD 1 2 1)).desc ≠ 0 ∧ (cS (cD 1 2 1) id).coll 0 5 = none ∧ mget [] ((cS (cD 1 2 1) id).prism 0).queue 5 = [] ∧
    mget [] ((cS (cD 1 2 1) id).prism 0).early 5 = [] ∧ colSrcStream (wk (cD 1 2 1)).desc = false ∧
    (cS (cD 1 2 1) id).xready 0 ((cS (cD 1 2 1) id).pasidOf (wk (cD 1 2 1))) (colSrc (wk (cD 1 2 1)).desc) (2 * 4) .read = false := by decide +kernel
/-- An ALL_GATHER that runs with both contributions here. -/
def cX : Coll := ⟨wk (cD 3 2 1), [0, 1], 0, [(0, ⟨1, false⟩), (2 ^ 40, ⟨2, false⟩)], [], true, 0, 0, [], none⟩
def cR (f : Coll → Coll) (g : State → State) : State := g (cM { up [] with prs := [(0, { PrsSt.reset with run := [(5, f cX)] })] })
def cDone : State := ((cR id (atc 0)).colInput 0 5).colPump 0 5
def cOut : List (Option (List Byte × Bool)) := (List.range (chunksOf (colSize cX.work.desc) cX.outCount)).map (arrayChunk (colSize cX.work.desc) cX.outCount cX.out)
theorem test_hyp_Collectives_3 : cDone.coll 0 5 = some cX ∧ cOut = (cOut.filterMap id).map some ∧ cOut.length = 1 ∧
    colDstStream cX.work.desc = false ∧ colSem cX.work.desc = 0 ∧
    cDone.xready 0 (cDone.pasidOf cX.work) (colDst cX.work.desc) (cX.outCount * colSize cX.work.desc) .write = true ∧
    (cDone.colWrite 0 (cDone.pasidOf cX.work) (colDst cX.work.desc) (cOut.filterMap id)).2 = none := by decide +kernel
def cFault : State := cR id fun s => { s with xlt := { XltSt.reset with failed := [xreq 0 0 0x2000 .write] } }
def cBad : State := (cFault.colInput 0 5).colPump 0 5
theorem test_hyp_Collectives_4 : cBad.coll 0 5 = some cX ∧ cBad.xready 0 (cBad.pasidOf cX.work) (colDst cX.work.desc) (cX.outCount * colSize cX.work.desc) .write = true ∧
    (cBad.colWrite 0 (cBad.pasidOf cX.work) (colDst cX.work.desc) (cOut.filterMap id)).2 = some 0x2000 := by decide +kernel
theorem test_hyp_Collectives_5 : (cR id id).coll 0 5 = some cX ∧ mget [] ((cR id id).prism 0).queue 5 = [] ∧
    ((cR (fun x => { x with waitCap := some 3 }) id).prism 0).run.any (fun q => q.2.waitCap.isSome) = true := by decide +kernel
def cTx (op : Nat) (comm rank : Nat) (data : List Line) : FTx := ⟨2, op, { fK 0 (1 + rank * 2 ^ 32) data with addr := BitVec.ofNat 43 comm }, 1⟩
def cLp (t : FTx) : State := cR id fun s => { s with fgn := { FgnSt.reset with loop := [t] } }
theorem test_hyp_Collectives_6 : (∀ op ∈ [0x20, 0x21], (cLp (cTx op 5 1 [9])).fgn.loop = cTx op 5 1 [9] :: [] ∧ (cTx op 5 1 [9]).pkt.cap = false ∧
    b2n (cTx op 5 1 [9]).pkt.tdie = (0 : DieId).val ∧ bits (cTx op 5 1 [9]).pkt.addr 11 0 = 5 ∧
    (cLp (cTx op 5 1 [9])).colSource 0 (cTx op 5 1 [9]).pkt = some 1) ∧ (cLp (cTx 0x20 5 1 [9])).coll 0 5 = some cX ∧
    (cLp (cTx 0x20 5 1 [9])).parted 0 1 = false ∧ (regs [(MGT_CRA_STAT 0, MGT_CRA_STAT_STATE, 4)] (cLp (cTx 0x20 5 1 [9]))).parted 0 1 = true ∧
    bits (cTx 0x20 5 1 [9]).pkt.aux 31 0 = colSeq cX.work.desc ∧ bitAt (cTx 0x20 5 1 [9]).pkt.aux 46 = false ∧ colSrcStream cX.work.desc = false ∧
    (cTx 0x20 5 1 [9]).pkt.data = [9] ∧ mget [] ((cLp (cTx 0x21 5 1 [])).prism 0).queue 5 = [] ∧
    (cLp (cTx 0x20 5 2 [9])).colSource 0 (cTx 0x20 5 2 [9]).pkt = none ∧ (cLp (cTx 0x20 6 1 [9])).colSource 0 (cTx 0x20 6 1 [9]).pkt = none := by decide +kernel

/-! ### Hypotheses: placement -/

theorem test_hyp_HbmPlacement_1 : State.reset.unified = false ∧ State.reset.shdOf (0x400040 / 2 ^ 21) = none ∧ State.reset.keyGranule 0x400040 = 2 ∧
    2 / 3 = 0 ∧ 393215 < 393216 ∧ stackOfG 393215 = stackOfG 393215 ∧ 11 < 12 ∧ 32767 < 32768 ∧ 4096 % 4096 = 0 ∧
    pcOfOff (4096 + 64 * 63) = pcOfOff (4096 + 64 * 63) := by decide +kernel

end Sys2Proof.Tests
end

/-! Every command and every step keep the canonical form of the memories and registers (R9, R238, R506): the laws of the operations
(Laws/Keep*), one for each command, put together over the dispatch and the queue. -/

namespace Sys2Proof.Machine

open Sys2Proof

/-! ### Every command keeps the queue, the canonical forms and the freshness of free values -/

/-- One case for each command of the dispatch: the law of its meaning (the files Laws/Keep*) answers it. -/
theorem exec_keep {r s : State} (hk : Keep r s) : ∀ i : Instr, KeepN r (exec i s)
  | .coldReset cause straps => execColdReset_keep hk cause straps
  | .vin56Start mv => execVin56Start_keep hk mv
  | .vin56Change mv => execVin56Change_keep hk mv
  | .pdieFault k => execPdieFault_keep hk k
  | .bootStepComplete inp => execBootStepComplete_keep hk inp
  | .ucieLinkUp l south => execUcieLinkUp_keep hk l south
  | .craoneTrainTimeout l => execCraoneTrainTimeout_keep hk l
  | .cap l hdr chunk => execCap_keep hk l hdr chunk
  | .discover east hdr => execDiscover_keep hk east hdr
  | .orientationTimeout east => execOrientationTimeout_keep hk east
  | .credit l hdr => execCredit_keep hk l hdr
  | .depart l hdr => execDepart_keep hk l hdr
  | .ucieLinkDown l => execUcieLinkDown_keep hk l
  | .craReturn l hdr => execCraReturn_keep hk l hdr
  | .standInAnswer l src txid => execStandInAnswer_keep hk l src txid
  | .lateDrop l src txid => execLateDrop_keep hk l src txid
  | .craoneDegrade l module half => execCraoneDegrade_keep hk l module half
  | .tileFaultDeclare n cause => execTileFaultDeclare_keep hk n cause
  | .heartbeatLoss n => execHeartbeatLoss_keep hk n
  | .mappingInstalled n => execMappingInstalled_keep hk n
  | .facetLoadComplete n => execFacetLoadComplete_keep hk n
  | .workDispatch n => execWorkDispatch_keep hk n
  | .tileIdle n => execTileIdle_keep hk n
  | .apertureAccess src n off len write data => execApertureAccess_keep hk src n off len write data
  | .register hostBytes => execRegister_keep hk hostBytes
  | .unregister => execUnregister_keep hk
  | .bind n => execBind_keep hk n
  | .unbind n => execUnbind_keep hk n
  | .streamChunk dst => execStreamChunk_keep hk dst
  | .streamCredit dst => execStreamCredit_keep hk dst
  | .dmaCopy n q => execDmaCopy_keep hk n q
  | .dmaCopy2d n q => execDmaCopy2d_keep hk n q
  | .dmaFill n q => execDmaFill_keep hk n q
  | .dmaFence n q => execDmaFence_keep hk n q
  | .dmaSignal n q => execDmaSignal_keep hk n q
  | .dmaDescriptorEnd n q => execDmaDescriptorEnd_keep hk n q
  | .tilDmaResume n q => execTilDmaResume_keep hk n q
  | .tilDmaFlush n q => execTilDmaFlush_keep hk n q
  | .matrix n => execMatrix_keep hk n
  | .weightFillComplete n => execWeightFillComplete_keep hk n
  | .setComplete n => execSetComplete_keep hk n
  | .drainStart n => execDrainStart_keep hk n
  | .drainComplete n => execDrainComplete_keep hk n
  | .outputTileRetire n => execOutputTileRetire_keep hk n
  | .conversionTrial n => execConversionTrial_keep hk n
  | .mvpDescriptorEnd n => execMvpDescriptorEnd_keep hk n
  | .matFault n => execMatFault_keep hk n
  | .patchArrive die => execPatchArrive_keep hk die
  | .patchCheck die => execPatchCheck_keep hk die
  | .loupeHaltNotice die => execLoupeHaltNotice_keep hk die
  | .louResume die => execLouResume_keep hk die
  | .louClear die => execLouClear_keep hk die
  | .louPop die => execLouPop_keep hk die
  | .kernel n => execKernel_keep hk n
  | .umbelBaseInstruction n u => execUmbelBaseInstruction_keep hk n u
  | .registerFill n u => execRegisterFill_keep hk n u
  | .umbelMemoryResponse n u ans => execUmbelMemoryResponse_keep hk n u ans
  | .kernelBoundary n => execKernelBoundary_keep hk n
  | .kernelComplete n => execKernelComplete_keep hk n
  | .utlb n u => execUtlb_keep hk n u
  | .utlh n u => execUtlh_keep hk n u
  | .utlw n u => execUtlw_keep hk n u
  | .utld n u => execUtld_keep hk n u
  | .utlbu n u => execUtlbu_keep hk n u
  | .utlhu n u => execUtlhu_keep hk n u
  | .utlwu n u => execUtlwu_keep hk n u
  | .utsb n u => execUtsb_keep hk n u
  | .utsh n u => execUtsh_keep hk n u
  | .utsw n u => execUtsw_keep hk n u
  | .utsd n u => execUtsd_keep hk n u
  | .uaadd n u => execUaadd_keep hk n u
  | .uaswap n u => execUaswap_keep hk n u
  | .uacas n u => execUacas_keep hk n u
  | .uaxor n u => execUaxor_keep hk n u
  | .uaor n u => execUaor_keep hk n u
  | .uaand n u => execUaand_keep hk n u
  | .uamin n u => execUamin_keep hk n u
  | .uamax n u => execUamax_keep hk n u
  | .uaminu n u => execUaminu_keep hk n u
  | .uamaxu n u => execUamaxu_keep hk n u
  | .ufadd n u => execUfadd_keep hk n u
  | .umma n u => execUmma_keep hk n u
  | .ushflIdx n u => execUshflIdx_keep hk n u
  | .ushflXor n u => execUshflXor_keep hk n u
  | .ushflUp n u => execUshflUp_keep hk n u
  | .ushflDown n u => execUshflDown_keep hk n u
  | .ushflBcast n u => execUshflBcast_keep hk n u
  | .uballot n u => execUballot_keep hk n u
  | .ucvtO n u => execUcvtO_keep hk n u
  | .ucvtI n u => execUcvtI_keep hk n u
  | .ubar n u => execUbar_keep hk n u
  | .ubarRelease n => execUbarRelease_keep hk n
  | .usemwait n u => execUsemwait_keep hk n u
  | .semaphorePoll n who => execSemaphorePoll_keep hk n who
  | .usempost n u => execUsempost_keep hk n u
  | .usput n u => execUsput_keep hk n u
  | .usget n u => execUsget_keep hk n u
  | .ustryput n u => execUstryput_keep hk n u
  | .ustryget n u => execUstryget_keep hk n u
  | .uepopen n u => execUepopen_keep hk n u
  | .uepcommit n u => execUepcommit_keep hk n u
  | .uepguard n u => execUepguard_keep hk n u
  | .ul1flush n u => execUl1flush_keep hk n u
  | .ul1inv n u => execUl1inv_keep hk n u
  | .ul1flushall n u => execUl1flushall_keep hk n u
  | .ul1invall n u => execUl1invall_keep hk n u
  | .seqNop n => execSeqNop_keep hk n
  | .seqAdd n => execSeqAdd_keep hk n
  | .seqSub n => execSeqSub_keep hk n
  | .seqAnd n => execSeqAnd_keep hk n
  | .seqOr n => execSeqOr_keep hk n
  | .seqXor n => execSeqXor_keep hk n
  | .seqSll n => execSeqSll_keep hk n
  | .seqSrl n => execSeqSrl_keep hk n
  | .seqSra n => execSeqSra_keep hk n
  | .seqMul n => execSeqMul_keep hk n
  | .seqMinu n => execSeqMinu_keep hk n
  | .seqMaxu n => execSeqMaxu_keep hk n
  | .seqSltu n => execSeqSltu_keep hk n
  | .seqAddi n => execSeqAddi_keep hk n
  | .seqAndi n => execSeqAndi_keep hk n
  | .seqOri n => execSeqOri_keep hk n
  | .seqSlli n => execSeqSlli_keep hk n
  | .seqSrli n => execSeqSrli_keep hk n
  | .seqLsh n => execSeqLsh_keep hk n
  | .seqBeq n => execSeqBeq_keep hk n
  | .seqBne n => execSeqBne_keep hk n
  | .seqBltu n => execSeqBltu_keep hk n
  | .seqBgeu n => execSeqBgeu_keep hk n
  | .seqJmp n => execSeqJmp_keep hk n
  | .seqCall n => execSeqCall_keep hk n
  | .seqRet n => execSeqRet_keep hk n
  | .seqLdt n => execSeqLdt_keep hk n
  | .seqStt n => execSeqStt_keep hk n
  | .seqPrm n => execSeqPrm_keep hk n
  | .seqDsc n => execSeqDsc_keep hk n
  | .seqSst n => execSeqSst_keep hk n
  | .seqTake n => execSeqTake_keep hk n
  | .seqDone n => execSeqDone_keep hk n
  | .seqDmaq n => execSeqDmaq_keep hk n
  | .seqClv n => execSeqClv_keep hk n
  | .seqMvc n => execSeqMvc_keep hk n
  | .seqCvc n => execSeqCvc_keep hk n
  | .cvcEnd n => execCvcEnd_keep hk n
  | .seqWait n => execSeqWait_keep hk n
  | .seqKlaunch n => execSeqKlaunch_keep hk n
  | .seqEopen n => execSeqEopen_keep hk n
  | .seqEcommit n => execSeqEcommit_keep hk n
  | .seqEguard n => execSeqEguard_keep hk n
  | .seqSemw n => execSeqSemw_keep hk n
  | .seqSemp n => execSeqSemp_keep hk n
  | .startRecordWritten n => execStartRecordWritten_keep hk n
  | .epochOverrun n => execEpochOverrun_keep hk n
  | .journalSealWrite n => execJournalSealWrite_keep hk n
  | .commitPoint n us => execCommitPoint_keep hk n us
  | .journalEntryPublish n => execJournalEntryPublish_keep hk n
  | .journalEntryFail n => execJournalEntryFail_keep hk n
  | .prismRelease n p => execPrismRelease_keep hk n p
  | .resendRequest n p => execResendRequest_keep hk n p
  | .epoCtlRelease n => execEpoCtlRelease_keep hk n
  | .epoCtlFlush n => execEpoCtlFlush_keep hk n
  | .epoModeWrite value => execEpoModeWrite_keep hk value
  | .ledgerAdd die cell bf16 operand => execLedgerAdd_keep hk die cell bf16 operand
  | .ledgerRead die cell bf16 => execLedgerRead_keep hk die cell bf16
  | .ledgerClearGo die value => execLedgerClearGo_keep hk die value
  | .ledgerClearDone die => execLedgerClearDone_keep hk die
  | .ledgerLock die value => execLedgerLock_keep hk die value
  | .spwTierLock cfg => execSpwTierLock_keep hk cfg
  | .schedule => execSchedule_keep hk
  | .scheduleEntryIssue => execScheduleEntryIssue_keep hk
  | .acquire object => execAcquire_keep hk object
  | .release object => execRelease_keep hk object
  | .cancel object => execCancel_keep hk object
  | .writeback object => execWriteback_keep hk object
  | .evict object => execEvict_keep hk object
  | .spaceGrant => execSpaceGrant_keep hk
  | .granuleCopyComplete object => execGranuleCopyComplete_keep hk object
  | .copyFault object => execCopyFault_keep hk object
  | .spwClearFailed => execSpwClearFailed_keep hk
  | .spwAbort => execSpwAbort_keep hk
  | .rdShared a addr stream f => execRdShared_keep hk a addr stream f
  | .rdUnique a addr mask data => execRdUnique_keep hk a addr mask data
  | .upgrade a addr mask data => execUpgrade_keep hk a addr mask data
  | .claim a addr data => execClaim_keep hk a addr data
  | .rdOnce a addr => execRdOnce_keep hk a addr
  | .wbDirty a addr => execWbDirty_keep hk a addr
  | .evictClean a addr => execEvictClean_keep hk a addr
  | .cmoClean a addr => execCmoClean_keep hk a addr
  | .cmoFlush a addr => execCmoFlush_keep hk a addr
  | .snpShared a addr f => execSnpShared_keep hk a addr f
  | .snpUnique a addr => execSnpUnique_keep hk a addr
  | .snpInv a addr => execSnpInv_keep hk a addr
  | .snpOnce a addr => execSnpOnce_keep hk a addr
  | .snpClean a addr => execSnpClean_keep hk a addr
  | .snpFlush a addr f => execSnpFlush_keep hk a addr f
  | .comp a addr => execComp_keep hk a addr
  | .compAck a addr => execCompAck_keep hk a addr
  | .rspI a addr => execRspI_keep hk a addr
  | .rspS a addr => execRspS_keep hk a addr
  | .rspO a addr => execRspO_keep hk a addr
  | .rspKeep a addr => execRspKeep_keep hk a addr
  | .cohError a addr => execCohError_keep hk a addr
  | .cohPoisoned a addr => execCohPoisoned_keep hk a addr
  | .cohAbsent a addr => execCohAbsent_keep hk a addr
  | .cohMalformed a addr => execCohMalformed_keep hk a addr
  | .dataS a addr => execDataS_keep hk a addr
  | .dataE a addr => execDataE_keep hk a addr
  | .dataM a addr => execDataM_keep hk a addr
  | .dataOnce a addr => execDataOnce_keep hk a addr
  | .dataToHome a addr => execDataToHome_keep hk a addr
  | .hmemRd addr f h => execHmemRd_keep hk addr f h
  | .hmemWr addr => execHmemWr_keep hk addr
  | .leaseReq d addr acc => execLeaseReq_keep hk d addr acc
  | .leaseGrant d addr => execLeaseGrant_keep hk d addr
  | .leaseDeny d addr => execLeaseDeny_keep hk d addr
  | .leaseRecall d addr => execLeaseRecall_keep hk d addr
  | .leaseReturn d addr => execLeaseReturn_keep hk d addr
  | .leaseHoldoffExpire addr => execLeaseHoldoffExpire_keep hk addr
  | .cchLeaseCfgWrite value => execCchLeaseCfgWrite_keep hk value
  | .cchMntGo value => execCchMntGo_keep hk value
  | .cchMntDone => execCchMntDone_keep hk
  | .cchReplLock value => execCchReplLock_keep hk value
  | .cchScCarveLock die value => execCchScCarveLock_keep hk die value
  | .cchRrbInvGo byNode node => execCchRrbInvGo_keep hk byNode node
  | .cchRrbInvDone => execCchRrbInvDone_keep hk
  | .hbmRead addr f => execHbmRead_keep hk addr f
  | .hbmWrite addr mask data poison => execHbmWrite_keep hk addr mask data poison
  | .wcbDeadline addr => execWcbDeadline_keep hk addr
  | .wcbDrainRead addr f => execWcbDrainRead_keep hk addr f
  | .parityDelta addr => execParityDelta_keep hk addr
  | .parityAck addr => execParityAck_keep hk addr
  | .parityRelease addr => execParityRelease_keep hk addr
  | .releaseTimeout addr => execReleaseTimeout_keep hk addr
  | .reconstruction addr => execReconstruction_keep hk addr
  | .reconstructionComplete addr bad => execReconstructionComplete_keep hk addr bad
  | .scrubStep k f => execScrubStep_keep hk k f
  | .hbmTempRead k temp => execHbmTempRead_keep hk k temp
  | .throttleStepFall k => execThrottleStepFall_keep hk k
  | .hbmThrCfgWrite k value => execHbmThrCfgWrite_keep hk k value
  | .hbmShdEn x value => execHbmShdEn_keep hk x value
  | .shieldZeroingDone x => execShieldZeroingDone_keep hk x
  | .hbmFailPcWrite k value => execHbmFailPcWrite_keep hk k value
  | .pcPhyFail k pc => execPcPhyFail_keep hk k pc
  | .hbmRebuildGo k pc all => execHbmRebuildGo_keep hk k pc all
  | .hbmRebuildDone k phyFails lines => execHbmRebuildDone_keep hk k phyFails lines
  | .hbmQuiesceWrite k value => execHbmQuiesceWrite_keep hk k value
  | .hbmMarkWrite k j value => execHbmMarkWrite_keep hk k j value
  | .hbmRepairQuery k pc bank => execHbmRepairQuery_keep hk k pc bank
  | .softRowRepair k pc bank row yarrow => execSoftRowRepair_keep hk k pc bank row yarrow
  | .hardRowRepair k pc bank row => execHardRowRepair_keep hk k pc bank row
  | .dqRemap k pc dq yarrow => execDqRemap_keep hk k pc dq yarrow
  | .clearRemap k pc => execClearRemap_keep hk k pc
  | .hbmRepairDone k res rows => execHbmRepairDone_keep hk k res rows
  | .hbmMrgGo k pc => execHbmMrgGo_keep hk k pc
  | .hbmMrgDone k eyes => execHbmMrgDone_keep hk k eyes
  | .yelryLoad c pa size page hint arr f => execYelryLoad_keep hk c pa size page hint arr f
  | .yelryStore c pa size page hint data issue => execYelryStore_keep hk c pa size page hint data issue
  | .storeBufferCompletion c line ans => execStoreBufferCompletion_keep hk c line ans
  | .storeBufferTimeout c line => execStoreBufferTimeout_keep hk c line
  | .warmResetDiscard => execWarmResetDiscard_keep hk
  | .yelryFence c pred => execYelryFence_keep hk c pred
  | .fenceI c => execFenceI_keep hk c
  | .lr c pa dw page aqrl => execLr_keep hk c pa dw page aqrl
  | .sc c pa dw page data aqrl => execSc_keep hk c pa dw page data aqrl
  | .reservationHoldExpire c => execReservationHoldExpire_keep hk c
  | .yelryAmo c pa dw op data aqrl => execYelryAmo_keep hk c pa dw op data aqrl
  | .ioAccess c pa size store => execIoAccess_keep hk c pa size store
  | .cboZero c pa => execCboZero_keep hk c pa
  | .cboClean c pa => execCboClean_keep hk c pa
  | .cboFlush c pa => execCboFlush_keep hk c pa
  | .cboInval c pa => execCboInval_keep hk c pa
  | .prefetch c pa => execPrefetch_keep hk c pa
  | .wfi c => execWfi_keep hk c
  | .fence r => execFence_keep hk r
  | .fenceStart r => execFenceStart_keep hk r
  | .peerFlushCompletion r ans => execPeerFlushCompletion_keep hk r ans
  | .peerFlushTimeout r => execPeerFlushTimeout_keep hk r
  | .pcieInboundWrite port addr data ep relaxed => execPcieInboundWrite_keep hk port addr data ep relaxed
  | .pcieInboundRead port addr len page => execPcieInboundRead_keep hk port addr len page
  | .atcMiss die pasid va kind => execAtcMiss_keep hk die pasid va kind
  | .translationCompletion die pasid va kind dc res => execTranslationCompletion_keep hk die pasid va kind dc res
  | .pageRequestResponse die pasid va success => execPageRequestResponse_keep hk die pasid va success
  | .pageRequestTimeout die pasid va => execPageRequestTimeout_keep hk die pasid va
  | .iotinvalVma pasid va => execIotinvalVma_keep hk pasid va
  | .iotinvalGvma addr => execIotinvalGvma_keep hk addr
  | .iofenceC => execIofenceC_keep hk
  | .iofenceCComplete => execIofenceCComplete_keep hk
  | .atsInvalidate pasid va log2 => execAtsInvalidate_keep hk pasid va log2
  | .doorbell page offset size write value => execDoorbell_keep hk page offset size write value
  | .sqRead r ans data => execSqRead_keep hk r ans data
  | .descriptorAdmit r => execDescriptorAdmit_keep hk r
  | .cqWriteFail r => execCqWriteFail_keep hk r
  | .coalesceTimer r => execCoalesceTimer_keep hk r
  | .nop r => execNop_keep hk r
  | .writeInline n => execWriteInline_keep hk n
  | .dma n => execDma_keep hk n
  | .facetWork n => execFacetWork_keep hk n
  | .epochDesc n => execEpochDesc_keep hk n
  | .collective d => execCollective_keep hk d
  | .hifRingEnSet r cfg => execHifRingEnSet_keep hk r cfg
  | .hifRingEnClear r cfg => execHifRingEnClear_keep hk r cfg
  | .hifRingStop r => execHifRingStop_keep hk r
  | .hifRingResume r => execHifRingResume_keep hk r
  | .hifRingAbandon r => execHifRingAbandon_keep hk r
  | .hostLoss cause => execHostLoss_keep hk cause
  | .hifAttachGo => execHifAttachGo_keep hk
  | .attachReady => execAttachReady_keep hk
  | .attachTimeout => execAttachTimeout_keep hk
  | .pcieRecovery port => execPcieRecovery_keep hk port
  | .rootPortDown port => execRootPortDown_keep hk port
  | .hifPcieLock cfg => execHifPcieLock_keep hk cfg
  | .fgnCfgEn value => execFgnCfgEn_keep hk value
  | .fgnPortCfgWrite p value => execFgnPortCfgWrite_keep hk p value
  | .signalDetect l active => execSignalDetect_keep hk l active
  | .equalisationConverged l => execEqualisationConverged_keep hk l
  | .alignmentLock l => execAlignmentLock_keep hk l
  | .ident l x => execIdent_keep hk l x
  | .linkTrainTimeout l => execLinkTrainTimeout_keep hk l
  | .linkLoss l => execLinkLoss_keep hk l
  | .fallbackInstall p => execFallbackInstall_keep hk p
  | .flit p l hdr crcOk corr uncorr => execFlit_keep hk p l hdr crcOk corr uncorr
  | .fgnRead p k => execFgnRead_keep hk p k
  | .fgnWrite p k => execFgnWrite_keep hk p k
  | .fgnWriteMasked p k => execFgnWriteMasked_keep hk p k
  | .fgnAtomic p k => execFgnAtomic_keep hk p k
  | .fgnData p k => execFgnData_keep hk p k
  | .fugenComp p k => execFugenComp_keep hk p k
  | .cdata p k => execCdata_keep hk p k
  | .cabort p k => execCabort_keep hk p k
  | .ack p k => execAck_keep hk p k
  | .nak p k => execNak_keep hk p k
  | .close p k => execClose_keep hk p k
  | .e2eTimeout node cls => execE2eTimeout_keep hk node cls
  | .connectionIdleFree node => execConnectionIdleFree_keep hk node
  | .collectiveComplete die comm => execCollectiveComplete_keep hk die comm
  | .prsAbort die comm => execPrsAbort_keep hk die comm
  | .collectiveStall die comm => execCollectiveStall_keep hk die comm
  | .capNoticeExpire die us => execCapNoticeExpire_keep hk die us
  | .coreStart c => execCoreStart_keep hk c
  | .corePowerGood c => execCorePowerGood_keep hk c
  | .corePark c => execCorePark_keep hk c
  | .parkDrainComplete c => execParkDrainComplete_keep hk c
  | .l2FlushComplete c => execL2FlushComplete_keep hk c
  | .coreOffline c cause => execCoreOffline_keep hk c cause
  | .offlineFlushComplete c flushed => execOfflineFlushComplete_keep hk c flushed
  | .seteipnum c sLevel off data => execSeteipnum_keep hk c sLevel off data
  | .mtimerCompare c super => execMtimerCompare_keep hk c super
  | .mgtCxlwinEn w value => execMgtCxlwinEn_keep hk w value
  | .cxlLock => execCxlLock_keep hk
  | .ddrPatrolScrub addr f => execDdrPatrolScrub_keep hk addr f
  | .meniscusStep m => execMeniscusStep_keep hk m
  | .phaseInterval sig tileW hbmW hdieW fixedW => execPhaseInterval_keep hk sig tileW hbmW hdieW fixedW
  | .droopFire at_ => execDroopFire_keep hk at_
  | .droopRecovery at_ => execDroopRecovery_keep hk at_
  | .ageingCheck needs => execAgeingCheck_keep hk needs
  | .junctionRead j => execJunctionRead_keep hk j
  | .tjCritHoldExpire => execTjCritHoldExpire_keep hk
  | .idleEntry => execIdleEntry_keep hk
  | .wakeEvent cause => execWakeEvent_keep hk cause
  | .pwrIdleWake => execPwrIdleWake_keep hk
  | .energyUpdate mj => execEnergyUpdate_keep hk mj
  | .autoWarmDelay => execAutoWarmDelay_keep hk
  | .ebGo e kind index tapOwns => execEbGo_keep hk e kind index tapOwns
  | .ebAbort e duration => execEbAbort_keep hk e duration
  | .ebTestComplete e f => execEbTestComplete_keep hk e f
  | .injTileFault target => execInjTileFault_keep hk target
  | .injHeartbeatStop target => execInjHeartbeatStop_keep hk target
  | .injHbmCorrupt => execInjHbmCorrupt_keep hk
  | .injLinkDrop target => execInjLinkDrop_keep hk target
  | .wayDis die way => execWayDis_keep hk die way
  | .wayEn die way => execWayEn_keep hk die way
  | .queueTile ptile => execQueueTile_keep hk ptile
  | .teaselLockstepMismatch => execTeaselLockstepMismatch_keep hk
  | .teaselRestartComplete => execTeaselRestartComplete_keep hk
  | .warmReset cause => execWarmReset_keep hk cause
  | .warmJournalsPublished => execWarmJournalsPublished_keep hk
  | .warmResetRelease lost => execWarmResetRelease_keep hk lost
  | .rstCtlWarm => execRstCtlWarm_keep hk
  | .rstCtlCold straps => execRstCtlCold_keep hk straps
  | .rstBootDone => execRstBootDone_keep hk
  | .svnCommit comp => execSvnCommit_keep hk comp
  | .secExtGo reg => execSecExtGo_keep hk reg
  | .keyEnrol slot => execKeyEnrol_keep hk slot
  | .keyEmpty slot => execKeyEmpty_keep hk slot
  | .keylock => execKeylock_keep hk
  | .secAttGo mask => execSecAttGo_keep hk mask
  | .attestationSigned => execAttestationSigned_keep hk
  | .getBoot => execGetBoot_keep hk
  | .setWall seconds => execSetWall_keep hk seconds
  | .readLog offset len => execReadLog_keep hk offset len
  | .attest nonce mask => execAttest_keep hk nonce mask
  | .setCap watts => execSetCap_keep hk watts
  | .sideReset type straps => execSideReset_keep hk type straps
  | .firmwareImageWrite comp image => execFirmwareImageWrite_keep hk comp image
  | .verifyComplete comp => execVerifyComplete_keep hk comp
  | .applyComplete comp => execApplyComplete_keep hk comp
  | .firmwareTrialTimeout comp => execFirmwareTrialTimeout_keep hk comp
  | .mgtPscMark value => execMgtPscMark_keep hk value
  | .lifeSave => execLifeSave_keep hk
  | .summaryRewrite => execSummaryRewrite_keep hk
  | .mgtWallWrite seconds => execMgtWallWrite_keep hk seconds
  | .clkMeasGo sel => execClkMeasGo_keep hk sel
  | .clkMeasDone hz => execClkMeasDone_keep hk hz
  | .registerWrite addr value => execRegisterWrite_keep hk addr value
  | .pcieLinkUp port => execPcieLinkUp_keep hk port
  | .barAssign base => execBarAssign_keep hk base
  | .ackTimer node => execAckTimer_keep hk node
  | .wakeComplete us => execWakeComplete_keep hk us
  | .yelryCsrAccess c mode csr op value => execYelryCsrAccess_keep hk c mode csr op value

/-! ### Every step keeps them -/

/-- What a step starts from: the state whose queue has lost its front command, if it had one. -/
def State.dequeued (s : State) : State := { s with pending := s.pending.tail }

theorem dequeued_canonical {s : State} : s.dequeued.canonical ↔ s.canonical := Iff.rfl

theorem dequeued_of_pending_nil {s : State} (h : s.pending = []) : s.dequeued = s := by
  unfold State.dequeued
  rw [h, List.tail_nil, ← h]

theorem step_of_pending_nil {s : State} (h : s.pending = []) : step s = .next s.tick := by
  unfold step
  rw [h]

theorem step_of_pending_cons {s : State} {c : Instr} {q : List Instr} (h : s.pending = c :: q) :
    step s = exec c s.dequeued := by
  unfold step State.dequeued
  rw [h, List.tail_cons]

/-- A step either lets one tick pass or runs the front command with the queue's rest; both keep what `Keep` speaks of. -/
theorem step_keep (s : State) : KeepN s.dequeued (step s) := by
  cases h : s.pending with
  | nil =>
    rw [step_of_pending_nil h, dequeued_of_pending_nil h]
    exact KeepN.next (State.tick_keep (Keep.refl s))
  | cons c q =>
    rw [step_of_pending_cons h]
    exact exec_keep (Keep.refl s.dequeued) c

/-- Settles O4: the queue's front may go without touching a memory or a register, and from there every command and the tick
keep the canonical form. -/
theorem stepKeepsCanonical : Obligations.StepKeepsCanonical := by
  unfold Obligations.StepKeepsCanonical
  intro s t hs ht
  exact (step_keep s t ht).canon (dequeued_canonical.mpr hs)

end Sys2Proof.Machine

/-! The machine after reset (R39, R366, R506, R510): what table a register of an array falls under, and what it holds. -/

namespace Sys2Proof.Machine

open Sys2Proof

/-! ### Which table gives the reset value of a register of an array -/

/-- Whether a register table covers an address. -/
def RegSpec.covers (q : RegSpec) (a : Nat) : Bool := decide (q.base ≤ a) && dimsOk q.dims (a - q.base)

/-- The distance of the last register of a table from its first. -/
def dimsReach : List (Nat × Nat) → Nat
  | []          => 0
  | (s, c) :: r => s * (c - 1) + dimsReach r

/-- A table misses the array of c registers at b + n · s: it lies above the array, below it, or is itself an array of that
stride at another offset. -/
def RegSpec.misses (q : RegSpec) (b s c : Nat) : Bool :=
  decide (b + s * c ≤ q.base) || decide (q.base + dimsReach q.dims < b) ||
    (decide (q.base ≤ b) && decide ((b - q.base) % s ≠ 0) && (match q.dims with | [(s', _)] => s' == s | _ => false))

theorem findSpec_eq_find? (l : List RegSpec) (a : Nat) : findSpec l a = l.find? (·.covers a) := by
  induction l with
  | nil => rfl
  | cons q l ih =>
    simp only [findSpec, List.find?, ih]
    cases h : q.covers a <;> simp only [RegSpec.covers] at h <;> simp [h]

theorem le_dimsReach : ∀ {ds : List (Nat × Nat)} {off : Nat}, dimsOk ds off = true → off ≤ dimsReach ds
  | [], off, h => by simp_all [dimsOk, dimsReach]
  | (s, c) :: r, off, h => by
    simp only [dimsOk, Bool.and_eq_true, decide_eq_true_eq] at h
    have hrow : s * (off / s) ≤ s * (c - 1) := Nat.mul_le_mul_left s (by omega)
    have hrest : off % s ≤ dimsReach r := le_dimsReach h.2
    have hdiv := Nat.div_add_mod off s
    simp only [dimsReach]
    omega

theorem not_covers_of_misses {q : RegSpec} {b s c n : Nat} (h : q.misses b s c = true) (hn : n < c) (hs : 0 < s) :
    q.covers (b + n * s) = false := by
  rw [Bool.eq_false_iff]
  intro hc
  simp only [RegSpec.covers, Bool.and_eq_true, decide_eq_true_eq] at hc
  obtain ⟨hbase, hdims⟩ := hc
  have hlast : n * s + s ≤ s * c := by
    calc n * s + s = s * (n + 1) := by rw [Nat.mul_add, Nat.mul_one, Nat.mul_comm]
      _ ≤ s * c := Nat.mul_le_mul_left s hn
  simp only [RegSpec.misses, Bool.or_eq_true, Bool.and_eq_true, decide_eq_true_eq] at h
  rcases h with (habove | hbelow) | ⟨⟨hle, hmod⟩, hstride⟩
  · omega
  · have := le_dimsReach hdims
    omega
  · split at hstride
    next s' c' hd =>
      obtain rfl : s' = s := by simpa using hstride
      simp only [hd, dimsOk, Bool.and_eq_true, beq_iff_eq] at hdims
      apply hmod
      rw [← hdims.2, show b + n * s' - q.base = b - q.base + n * s' by omega, Nat.add_mul_mod_self_right]
    next => cases hstride

theorem covers_array {r : RegSpec} {s c n : Nat} (hd : r.dims = [(s, c)]) (hn : n < c) (hs : 0 < s) :
    r.covers (r.base + n * s) = true := by
  simp [RegSpec.covers, hd, dimsOk, Nat.mul_div_cancel n hs, hn]

/-- The first table at the base of an array is the one of its registers, where every earlier table misses the array. -/
theorem regSpec_array {r : RegSpec} {b s c n : Nat} (hr : regMap.find? (·.base == b) = some r) (hd : r.dims = [(s, c)])
    (hm : (regMap.takeWhile (·.base != b)).all (·.misses b s c) = true) (hn : n < c) (hs : 0 < s) :
    regSpec (b + n * s) = some r := by
  obtain ⟨hb, pre, post, hmap, hpre⟩ := List.find?_eq_some_iff_append.mp hr
  obtain rfl : r.base = b := by simpa using hb
  have hne : ∀ q ∈ pre, (q.base != r.base) = true := hpre
  have hearly : ∀ q ∈ pre, q.misses r.base s c = true := fun q hq =>
    List.all_eq_true.mp hm q (by rw [hmap, List.takeWhile_append_of_pos hne]; exact List.mem_append_left _ hq)
  unfold regSpec
  rw [findSpec_eq_find?, List.find?_eq_some_iff_append]
  refine ⟨covers_array hd hn hs, pre, post, hmap, fun q hq => ?_⟩
  rw [not_covers_of_misses (hearly q hq) hn hs, Bool.not_false]

theorem regReset_of_regSpec {a : Nat} {r : RegSpec} (h : regSpec a = some r) (hp : r.base ≠ FGN_PORT_CFG 0) :
    regReset a = BitVec.ofNat 64 (specReset r.fields) := by
  unfold regReset
  simp only [h, if_neg hp]

/-! ### The registers after reset -/

@[simp] theorem reset_reg (a : Nat) : State.reset.reg a = regReset a := mget_nil _ a

theorem reset_rd (a : Nat) (f : Fld) : State.reset.rd a f = fget (regReset a) f := congrArg (fget · f) (reset_reg a)

theorem reset_canonical : State.reset.canonical := ⟨rfl, rfl, rfl, rfl, rfl, rfl⟩

/-- The register tables of TIL_STATUS (R39) and HIF_RING_STAT (R366). -/
def tilStatusSpec : RegSpec := (regMap.find? (·.base == 0x7F200000000)).get (by decide +kernel)
def hifRingStatSpec : RegSpec := (regMap.find? (·.base == 0x7F100010018)).get (by decide +kernel)

theorem regSpec_tilStatus {n : Nat} (hn : n < 96) : regSpec (TIL_STATUS n) = some tilStatusSpec :=
  regSpec_array (Option.some_get _).symm (by decide +kernel) (by decide +kernel) hn (by decide)

theorem regSpec_hifRingStat {n : Nat} (hn : n < 1024) : regSpec (HIF_RING_STAT n) = some hifRingStatSpec :=
  regSpec_array (Option.some_get _).symm (by decide +kernel) (by decide +kernel) hn (by decide)

theorem reset_tst {n : Nat} (hn : n < 96) : State.reset.tst n = tsUnbound := by
  unfold State.tst
  rw [reset_rd, regReset_of_regSpec (regSpec_tilStatus hn) (by decide +kernel)]
  decide +kernel

theorem reset_ringSt {n : Nat} (hn : n < 1024) : State.reset.ringSt n = rsDisabled := by
  unfold State.ringSt
  rw [reset_rd, regReset_of_regSpec (regSpec_hifRingStat hn) (by decide +kernel)]
  decide +kernel

/-- Settles O5: every register of the empty register map reads its table's reset value, and of these the boot, tile, ring, tier
and fault fields are 0. -/
theorem resetState : Obligations.ResetState := by
  unfold Obligations.ResetState
  refine ⟨rfl, reset_canonical, reset_reg, ?boot, ?failed, fun n => reset_tst n.isLt, fun n => reset_ringSt n.isLt, ?tier, ?fatal⟩
  case boot => decide +kernel
  case failed => decide +kernel
  case tier => decide +kernel
  case fatal => decide +kernel

end Sys2Proof.Machine

/-! Loupe (R119 to R127): what each of its operations does to its state, to the memory and to the registers. -/

namespace Sys2Proof.Machine

open Sys2Proof

/-! ### What folds and register writes leave alone -/

/-- A reading of the state that no round of a loop changes is the same after the loop. -/
theorem foldl_reading {α β : Type} {f : State → α → State} {P : State → β} (h : ∀ t x, P (f t x) = P t) (l : List α)
    (s : State) : P (l.foldl f s) = P s := by
  induction l generalizing s with
  | nil => rfl
  | cons x l ih => exact (ih (f s x)).trans (h s x)

theorem RegsBut.of_regs_eq {as : List Nat} {s t : State} (h : t.regs = s.regs) : RegsBut as s t := fun _ _ => by
  unfold State.reg
  rw [h]

theorem RegsBut.trans {as : List Nat} {r s t : State} (h : RegsBut as r s) (k : RegsBut as s t) : RegsBut as r t :=
  fun a ha => (k a ha).trans (h a ha)

theorem RegsBut.setReg {as : List Nat} {s : State} {a : Nat} (v : Word) (ha : a ∈ as) : RegsBut as s (s.setReg a v) :=
  fun _ hb => reg_setReg_other _ _ fun e => hb (e ▸ ha)

theorem RegsBut.wr {as : List Nat} {s : State} {a : Nat} (f : Fld) (v : Nat) (ha : a ∈ as) : RegsBut as s (s.wr a f v) :=
  RegsBut.setReg _ ha

theorem RegsBut.foldl {α : Type} {as : List Nat} {f : State → α → State} {l : List α}
    (h : ∀ x ∈ l, ∀ t, RegsBut as t (f t x)) (s : State) : RegsBut as s (l.foldl f s) := by
  induction l generalizing s with
  | nil => exact RegsBut.of_regs_eq rfl
  | cons x l ih =>
    exact (h x List.mem_cons_self s).trans (ih (fun y hy => h y (List.mem_cons_of_mem x hy)) (f s x))

/-- A loop that writes registers of different addresses leaves in each what it wrote there. -/
theorem reg_foldl_setReg {addr : Nat → Nat} (hinj : Function.Injective addr) (val : Nat → Word) {l : List Nat} {i : Nat}
    (hi : i ∈ l) (s : State) : (l.foldl (fun t j => t.setReg (addr j) (val j)) s).reg (addr i) = val i := by
  induction l generalizing s with
  | nil => cases hi
  | cons j l ih =>
    by_cases hl : i ∈ l
    · exact ih hl _
    · obtain rfl : i = j := (List.mem_cons.mp hi).resolve_right hl
      have hrest : RegsBut (l.map addr) (s.setReg (addr i) (val i))
          (l.foldl (fun t j => t.setReg (addr j) (val j)) (s.setReg (addr i) (val i))) :=
        RegsBut.foldl (fun k hk _ => RegsBut.setReg _ (List.mem_map_of_mem hk)) _
      have hfresh : addr i ∉ l.map addr := fun hm =>
        let ⟨_, hk, he⟩ := List.mem_map.mp hm
        hl (hinj he ▸ hk)
      rw [List.foldl_cons, hrest (addr i) hfresh, reg_setReg_same]

theorem rd_congr {s t : State} {a : Nat} (h : t.reg a = s.reg a) (f : Fld) : t.rd a f = s.rd a f := congrArg (fget · f) h

theorem rd_of_regs_eq {s t : State} (h : t.regs = s.regs) (a : Nat) (f : Fld) : t.rd a f = s.rd a f :=
  rd_congr (RegsBut.of_regs_eq (as := []) h a (List.not_mem_nil)) f

/-- A counter that wraps. -/
theorem rd_wrap_same (s : State) (a : Nat) {f : Fld} (n : Nat) (h : f.ok = true) :
    (s.wrap a f n).rd a f = (s.rd a f + n) % (f.ones + 1) := by
  unfold State.wrap
  rw [rd_wr_same _ _ _ h, show f.ones + 1 = 2 ^ f.width from Nat.sub_add_cancel (Nat.two_pow_pos _)]

/-! ### The state of a Loupe -/

@[simp] theorem setLou_regs (s : State) (d : Nat) (l : LouSt) : (s.setLou d l).regs = s.regs := rfl
@[simp] theorem setLou_mem (s : State) (d : Nat) (l : LouSt) : (s.setLou d l).mem = s.mem := rfl
@[simp] theorem setLou_reg (s : State) (d : Nat) (l : LouSt) (a : Nat) : (s.setLou d l).reg a = s.reg a := rfl
@[simp] theorem setLou_rd (s : State) (d : Nat) (l : LouSt) (a : Nat) (f : Fld) : (s.setLou d l).rd a f = s.rd a f := rfl
@[simp] theorem lou_wr (s : State) (a : Nat) (f : Fld) (v d : Nat) : (s.wr a f v).lou d = s.lou d := rfl
@[simp] theorem lou_bump (s : State) (a : Nat) (f : Fld) (d : Nat) : (s.bump a f).lou d = s.lou d := rfl
@[simp] theorem lou_wrap (s : State) (a : Nat) (f : Fld) (n d : Nat) : (s.wrap a f n).lou d = s.lou d := rfl

@[simp] theorem lou_setLou_same (s : State) (d : Nat) (l : LouSt) : (s.setLou d l).lou d = l := mget_mset_same _ _ _ _

theorem lou_setLou_other (s : State) {d e : Nat} (l : LouSt) (h : e ≠ d) : (s.setLou d l).lou e = s.lou e :=
  mget_mset_other _ _ _ h

theorem lou_congr {s t : State} (h : t.loupe = s.loupe) (d : Nat) : t.lou d = s.lou d := congrArg (mget LouSt.reset · d) h

/-- The other C-die is another one. -/
theorem otherDie_ne (d : DieId) : 1 - d.val ≠ d.val := by omega

/-! ### Halts (R125) -/

theorem mem_of_mfind {β : Type} {m : List (Nat × β)} {a : Nat} {v : β} (h : mfind m a = some v) : (a, v) ∈ m := by
  induction m with
  | nil => cases h
  | cons p r ih =>
    obtain ⟨k, w⟩ := p
    simp only [mfind] at h
    split at h
    next hk =>
      obtain rfl : w = v := Option.some.inj h
      exact hk ▸ List.mem_cons_self
    next => exact List.mem_cons_of_mem _ (ih h)

/-- A tile that one Loupe halts is halted. -/
theorem halted_of_mem_lou {s : State} {d n : Nat} (h : n ∈ (s.lou d).halted) : s.halted n = true := by
  unfold State.lou mget at h
  cases hm : mfind s.loupe d with
  | none =>
    rw [hm] at h
    cases h
  | some l =>
    rw [hm] at h
    exact List.any_eq_true.mpr ⟨(d, l), mem_of_mfind hm, List.contains_iff_mem.mpr h⟩

theorem mem_addOnce {β : Type} [BEq β] [LawfulBEq β] {l : List β} {x y : β} : y ∈ addOnce l x ↔ y ∈ l ∨ y = x := by
  unfold addOnce
  split
  next h =>
    have hx : x ∈ l := List.contains_iff_mem.mp h
    exact ⟨Or.inl, fun h => h.elim id (· ▸ hx)⟩
  next => rw [List.mem_append, List.mem_singleton]

theorem mem_foldl_addOnce {xs l : List Nat} {y : Nat} : y ∈ xs.foldl addOnce l ↔ y ∈ l ∨ y ∈ xs := by
  induction xs generalizing l with
  | nil => exact ⟨.inl, fun h => h.elim id (absurd · List.not_mem_nil)⟩
  | cons x xs ih => rw [List.foldl_cons, ih, mem_addOnce, List.mem_cons, or_assoc]

@[simp] theorem louHalt_mem (s : State) (d : Nat) (ts : List Nat) : (s.louHalt d ts).mem = s.mem := by
  unfold State.louHalt
  rw [wr_mem, setLou_mem]

theorem regsBut_louHalt (s : State) (d : Nat) (ts : List Nat) : RegsBut [LOU_STAT2 d] s (s.louHalt d ts) := by
  unfold State.louHalt
  exact RegsBut.trans (RegsBut.of_regs_eq (setLou_regs _ _ _)) (RegsBut.wr _ _ List.mem_cons_self)

theorem lou_louHalt_same (s : State) (d : Nat) (ts : List Nat) :
    (s.louHalt d ts).lou d = { s.lou d with halted := ts.foldl addOnce (s.lou d).halted } := by
  unfold State.louHalt
  rw [lou_wr, lou_setLou_same]

theorem lou_louHalt_other (s : State) {d e : Nat} (ts : List Nat) (h : e ≠ d) : (s.louHalt d ts).lou e = s.lou e := by
  unfold State.louHalt
  rw [lou_wr, lou_setLou_other _ _ h]

theorem halted_louHalt (s : State) (d : Nat) {ts : List Nat} {n : Nat} (h : n ∈ ts) : (s.louHalt d ts).halted n = true := by
  apply halted_of_mem_lou (d := d)
  rw [lou_louHalt_same]
  exact mem_foldl_addOnce.mpr (.inr h)

/-- HALTED reads 1 once a tile is halted. -/
theorem flag_louHalt (s : State) (d : Nat) {ts : List Nat} {n : Nat} (h : n ∈ ts) :
    (s.louHalt d ts).flag (LOU_STAT2 d) LOU_STAT2_HALTED = true := by
  have hne : ts.foldl addOnce (s.lou d).halted ≠ [] := List.ne_nil_of_mem (mem_foldl_addOnce.mpr (.inr h))
  unfold State.flag State.louHalt
  rw [rd_wr_same _ _ _ (by decide), bne_iff_ne.mpr hne]
  decide

/-! ### Records (R127) -/

theorem louRec_injective (d : Nat) : Function.Injective (LOU_REC d) := fun i j h => by
  unfold LOU_REC at h
  omega

theorem louRec_ne_louStat2 (d i : Nat) : LOU_REC d i ≠ LOU_STAT2 d := by
  unfold LOU_REC LOU_STAT2
  omega

@[simp] theorem louRecs_mem (s : State) (d : Nat) : (s.louRecs d).mem = s.mem := by
  unfold State.louRecs
  rw [wr_mem]
  exact foldl_reading (fun t i => setReg_mem t _ _) _ _

@[simp] theorem lou_louRecs (s : State) (d e : Nat) : (s.louRecs d).lou e = s.lou e := by
  unfold State.louRecs
  rw [lou_wr]
  exact lou_congr (foldl_reading (fun t i => setReg_loupe t _ _) _ _) e

theorem regsBut_louRecs (s : State) (d : Nat) :
    RegsBut (LOU_STAT2 d :: (List.range 4).map (fun i => LOU_REC d i)) s (s.louRecs d) :=
  (RegsBut.foldl (fun _ hi _ => RegsBut.setReg _ (List.mem_cons_of_mem _ (List.mem_map_of_mem hi))) s).trans
    (RegsBut.wr _ _ List.mem_cons_self)

/-- REC_CNT holds the number of records, of which there are at most 16. -/
theorem rd_louRecs_recCnt {s : State} {d : Nat} (h : (s.lou d).recs.length ≤ 16) :
    (s.louRecs d).rd (LOU_STAT2 d) LOU_STAT2_REC_CNT = (s.lou d).recs.length := by
  unfold State.louRecs
  rw [rd_wr_same _ _ _ (by decide)]
  exact Nat.mod_eq_of_lt (Nat.lt_of_le_of_lt h (by decide))

/-- The record registers hold the oldest record. -/
theorem reg_louRecs_louRec (s : State) (d : Nat) {i : Nat} (hi : i < 4) :
    (s.louRecs d).reg (LOU_REC d i) = ((s.lou d).recs.headD []).getD i 0 := by
  unfold State.louRecs
  rw [reg_wr_other _ _ _ (louRec_ne_louStat2 d i)]
  exact reg_foldl_setReg (louRec_injective d) _ (List.mem_range.mpr hi) s

/-! ### Patches that arrive (R121, R122, R126) -/

/-- The state once the oldest patch offered has been taken off, the rest being r. -/
def State.patchOff (s : State) (d : Nat) (r : List Patch) : State := s.setLou d { s.lou d with offered := r }

/-- The state once that patch counts as having reached Loupe. -/
def State.patchSeen (s : State) (d : Nat) (pt : Patch) (r : List Patch) : State :=
  (s.patchOff d r).setLou d
    { (s.patchOff d r).lou d with seen := addOnce (s.lou d).seen (pt.tile, pt.sample) }

theorem lou_patchOff (s : State) (d : Nat) (r : List Patch) : (s.patchOff d r).lou d = { s.lou d with offered := r } :=
  lou_setLou_same _ _ _

theorem lou_patchSeen (s : State) (d : Nat) (pt : Patch) (r : List Patch) :
    (s.patchSeen d pt r).lou d =
      { s.lou d with offered := r, seen := addOnce (s.lou d).seen (pt.tile, pt.sample) } := by
  unfold State.patchSeen
  rw [lou_setLou_same, lou_patchOff]

/-- The state once that patch stands last in the patch buffer. -/
def State.patchBuffered (s : State) (d : Nat) (pt : Patch) (r : List Patch) : State :=
  (s.patchSeen d pt r).setLou d { (s.patchSeen d pt r).lou d with buf := ((s.patchSeen d pt r).lou d).buf ++ [pt] }

theorem lou_patchBuffered (s : State) (d : Nat) (pt : Patch) (r : List Patch) :
    (s.patchBuffered d pt r).lou d =
      { s.lou d with offered := r, seen := addOnce (s.lou d).seen (pt.tile, pt.sample), buf := (s.lou d).buf ++ [pt] } := by
  unfold State.patchBuffered
  rw [lou_setLou_same, lou_patchSeen]

section
variable {s : State} {d : DieId} {pt : Patch} {r : List Patch}

/-- What PATCH_ARRIVE does with the oldest patch offered. -/
theorem exec_patchArrive (ho : (s.lou d).offered = pt :: r) : exec (.patchArrive d) s = .next (
    if s.flag (LOU_STAT2 d) LOU_STAT2_BIST_OWNS then (s.patchOff d r).bump (LOU_STAT d) LOU_STAT_DROP_BIST
    else if patchBufBytes < ((s.lou d).buf.map (·.bytes)).sum + pt.bytes then
      (s.patchOff d r).bump (LOU_STAT d) LOU_STAT_DROP_BUSY
    else if pt.poison then (s.patchSeen d pt r).bump (LOU_STAT2 d) LOU_STAT2_SKIP_POISON
    else if (s.lou d).seen.contains (pt.tile, pt.sample) then (s.patchSeen d pt r).bump (LOU_STAT2 d) LOU_STAT2_REPEAT
    else s.patchBuffered d pt r) := by
  change execPatchArrive d s = _
  unfold execPatchArrive
  simp only [ho, apply_ite Host.Outcome.next]
  rfl

/-- The oldest patch offered goes no further than a count in field f of register a: the buffer, every other register and the
memory are as they were. -/
def PatchCounted (s : State) (d : DieId) (r : List Patch) (a : Nat) (f : Fld) : Prop :=
  ∃ t, exec (.patchArrive d) s = .next t ∧ (t.lou d).buf = (s.lou d).buf ∧ (t.lou d).offered = r ∧
    t.rd a f = min (s.rd a f + 1) f.ones ∧ RegsBut [a] s t ∧ t.mem = s.mem

theorem patchCounted_of_bump {u : State} {a : Nat} {f : Fld} (he : exec (.patchArrive d) s = .next (u.bump a f))
    (hf : f.ok = true) (hregs : u.regs = s.regs) (hmem : u.mem = s.mem) (hbuf : (u.lou d).buf = (s.lou d).buf)
    (hoff : (u.lou d).offered = r) : PatchCounted s d r a f := by
  refine ⟨u.bump a f, he, hbuf, hoff, ?_, ?_, hmem⟩
  · rw [rd_bump_same _ _ hf, rd_of_regs_eq hregs]
  · exact (RegsBut.of_regs_eq hregs).trans (RegsBut.wr _ _ (List.mem_singleton.mpr rfl))

theorem patchCounted_of_dropped {a : Nat} {f : Fld} (he : exec (.patchArrive d) s = .next ((s.patchOff d r).bump a f))
    (hf : f.ok = true) : PatchCounted s d r a f :=
  patchCounted_of_bump he hf rfl rfl (by rw [lou_patchOff]) (by rw [lou_patchOff])

theorem patchCounted_of_seen {a : Nat} {f : Fld} (he : exec (.patchArrive d) s = .next ((s.patchSeen d pt r).bump a f))
    (hf : f.ok = true) : PatchCounted s d r a f :=
  patchCounted_of_bump he hf rfl rfl (by rw [lou_patchSeen]) (by rw [lou_patchSeen])

/-- R126: Eyebright holds the checker. -/
theorem patchCounted_dropBist (ho : (s.lou d).offered = pt :: r)
    (hown : s.flag (LOU_STAT2 d) LOU_STAT2_BIST_OWNS = true) : PatchCounted s d r (LOU_STAT d) LOU_STAT_DROP_BIST :=
  patchCounted_of_dropped (by simp only [exec_patchArrive ho, hown, if_true]) (by decide)

/-- R121: the patch buffer has no room. -/
theorem patchCounted_dropBusy (ho : (s.lou d).offered = pt :: r)
    (hown : s.flag (LOU_STAT2 d) LOU_STAT2_BIST_OWNS = false)
    (hfull : patchBufBytes < ((s.lou d).buf.map (·.bytes)).sum + pt.bytes) :
    PatchCounted s d r (LOU_STAT d) LOU_STAT_DROP_BUSY :=
  patchCounted_of_dropped (by simp only [exec_patchArrive ho, hown, hfull, Bool.false_eq_true, if_false, if_true]) (by decide)

/-- R122: a line among the patch's inputs is poisoned. -/
theorem patchCounted_skipPoison (ho : (s.lou d).offered = pt :: r)
    (hown : s.flag (LOU_STAT2 d) LOU_STAT2_BIST_OWNS = false)
    (hroom : ((s.lou d).buf.map (·.bytes)).sum + pt.bytes ≤ patchBufBytes) (hp : pt.poison = true) :
    PatchCounted s d r (LOU_STAT2 d) LOU_STAT2_SKIP_POISON :=
  patchCounted_of_seen (pt := pt)
    (by simp only [exec_patchArrive ho, hown, Nat.not_lt.mpr hroom, hp, Bool.false_eq_true, if_false, if_true]) (by decide)

/-- R122: an epoch replay has sent the patch a second time. -/
theorem patchCounted_repeat (ho : (s.lou d).offered = pt :: r)
    (hown : s.flag (LOU_STAT2 d) LOU_STAT2_BIST_OWNS = false)
    (hroom : ((s.lou d).buf.map (·.bytes)).sum + pt.bytes ≤ patchBufBytes) (hp : pt.poison = false)
    (hseen : (s.lou d).seen.contains (pt.tile, pt.sample) = true) :
    PatchCounted s d r (LOU_STAT2 d) LOU_STAT2_REPEAT :=
  patchCounted_of_seen (pt := pt)
    (by simp only [exec_patchArrive ho, hown, Nat.not_lt.mpr hroom, hp, hseen, Bool.false_eq_true, if_false, if_true])
    (by decide)

/-- A whole patch that arrives for the first time is buffered. -/
theorem patchArrive_buffers (ho : (s.lou d).offered = pt :: r)
    (hroom : ((s.lou d).buf.map (·.bytes)).sum + pt.bytes ≤ patchBufBytes)
    (hown : s.flag (LOU_STAT2 d) LOU_STAT2_BIST_OWNS = false) (hp : pt.poison = false)
    (hseen : (s.lou d).seen.contains (pt.tile, pt.sample) = false) :
    ∃ t, exec (.patchArrive d) s = .next t ∧ (t.lou d).buf = (s.lou d).buf ++ [pt] ∧ (t.lou d).offered = r ∧
      (pt.tile, pt.sample) ∈ (t.lou d).seen ∧ t.regs = s.regs ∧ t.mem = s.mem := by
  refine ⟨s.patchBuffered d pt r, ?_, ?_, ?_, ?_, rfl, rfl⟩
  · simp only [exec_patchArrive ho, hown, hp, hseen, Nat.not_lt.mpr hroom, Bool.false_eq_true, if_false]
  all_goals rw [lou_patchBuffered]
  exact mem_addOnce.mpr (.inr rfl)

end

/-! ### The check (R123) -/

/-- A patch whose elements all agree is checked without effect. -/
theorem checkEls_of_agree {pt : Patch} {xs : List PatchEl} (h : ∀ x ∈ xs, patchAgrees pt x = true) (s : State) (d k : Nat) :
    s.checkEls d pt k xs = s := by
  induction xs generalizing k with
  | nil => rfl
  | cons x xs ih =>
    rw [State.checkEls, if_pos (h x List.mem_cons_self)]
    exact ih (fun y hy => h y (List.mem_cons_of_mem x hy)) (k + 1)

theorem checkEls_singleton {pt : Patch} {x : PatchEl} (h : patchAgrees pt x = false) (s : State) (d k : Nat) :
    s.checkEls d pt k [x] = s.disagree d pt x k := by
  rw [State.checkEls, State.checkEls, h, if_neg Bool.false_ne_true]

/-- The state with a disagreement counted by its format, tag and tile. -/
def State.countDisagree (s : State) (d : Nat) (pt : Patch) : State :=
  ((s.bump (LOU_FMT_CNT d ((outPar pt.desc).fcd / 4)) (quarter ((outPar pt.desc).fcd % 4))).bump
    (LOU_TAG_CNT d (bits pt.desc 487 480 / 4)) (quarter (bits pt.desc 487 480 % 4))).bump
    (LOU_TILE_CNT d (pt.tile % 48 / 4)) (quarter (pt.tile % 4))

@[simp] theorem countDisagree_mem (s : State) (d : Nat) (pt : Patch) : (s.countDisagree d pt).mem = s.mem := by
  unfold State.countDisagree
  rw [bump_mem, bump_mem, bump_mem]

@[simp] theorem lou_countDisagree (s : State) (d : Nat) (pt : Patch) (e : Nat) : (s.countDisagree d pt).lou e = s.lou e := by
  unfold State.countDisagree
  rw [lou_bump, lou_bump, lou_bump]

theorem reg_countDisagree_louCfg (s : State) (d : Nat) (pt : Patch) :
    (s.countDisagree d pt).reg (LOU_CFG d) = s.reg (LOU_CFG d) := by
  have htile : ∀ i, LOU_CFG d ≠ LOU_TILE_CNT d i := fun i => by unfold LOU_CFG LOU_TILE_CNT; omega
  have htag : ∀ i, LOU_CFG d ≠ LOU_TAG_CNT d i := fun i => by unfold LOU_CFG LOU_TAG_CNT; omega
  have hfmt : ∀ i, LOU_CFG d ≠ LOU_FMT_CNT d i := fun i => by unfold LOU_CFG LOU_FMT_CNT; omega
  unfold State.countDisagree
  rw [reg_bump_other _ _ (htile _), reg_bump_other _ _ (htag _), reg_bump_other _ _ (hfmt _)]

theorem louAct_of_action_zero {s : State} {d : Nat} (h : s.rd (LOU_CFG d) LOU_CFG_ACTION = 0) (pt : Patch)
    (dr : List Word) : s.louAct d pt dr = s := by
  have hnone : (s.rd (LOU_CFG d) LOU_CFG_ACTION ≠ 1 ∧ s.rd (LOU_CFG d) LOU_CFG_ACTION ≠ 2) ∨
      (s.lou d).count % max 1 (s.rd (LOU_CFG d) LOU_CFG_THRESH) ≠ 0 := .inl (by omega)
  unfold State.louAct
  exact if_pos hnone

/-- Under the action that only counts, a disagreement with room for its record is counted and recorded. -/
theorem disagree_of_action_zero {s : State} {d : Nat} (hrecs : (s.lou d).recs.length < 16)
    (hact : s.rd (LOU_CFG d) LOU_CFG_ACTION = 0) (pt : Patch) (x : PatchEl) (k : Nat) :
    s.disagree d pt x k =
      ((s.countDisagree d pt).setLou d
        { s.lou d with recs := (s.lou d).recs ++ [disRecord s pt x k], count := (s.lou d).count + 1 }).louRecs d := by
  have hcfg : LOU_CFG d ∉ LOU_STAT2 d :: (List.range 4).map (fun i => LOU_REC d i) := by
    unfold LOU_CFG LOU_STAT2 LOU_REC
    simp only [List.mem_cons, List.mem_map, List.mem_range, not_or, not_exists, not_and]
    exact ⟨by omega, fun i _ => by omega⟩
  unfold State.disagree
  dsimp only
  rw [← State.countDisagree, lou_countDisagree, if_pos hrecs, louAct_of_action_zero]
  rw [rd_congr (regsBut_louRecs _ d _ hcfg), setLou_rd, rd_congr (reg_countDisagree_louCfg s d pt)]
  exact hact

theorem disRecord_congr {s t : State} (h : t.reg MGT_LIFE = s.reg MGT_LIFE) (pt : Patch) (x : PatchEl) (k : Nat) :
    disRecord t pt x k = disRecord s pt x k := by
  unfold disRecord State.life
  rw [h]

/-- The state once the patch being checked is done and counted, the buffer then being r. -/
def State.patchDone (s : State) (d : Nat) (r : List Patch) : State :=
  (s.setLou d { s.lou d with buf := r }).wrap (LOU_STAT d) LOU_STAT_CHECKED 1

theorem lou_patchDone (s : State) (d : Nat) (r : List Patch) : (s.patchDone d r).lou d = { s.lou d with buf := r } := by
  unfold State.patchDone
  rw [lou_wrap, lou_setLou_same]

@[simp] theorem patchDone_mem (s : State) (d : Nat) (r : List Patch) : (s.patchDone d r).mem = s.mem := by
  unfold State.patchDone
  rw [wrap_mem, setLou_mem]

theorem regsBut_patchDone (s : State) (d : Nat) (r : List Patch) : RegsBut [LOU_STAT d] s (s.patchDone d r) := by
  unfold State.patchDone State.wrap
  exact RegsBut.trans (RegsBut.of_regs_eq (setLou_regs _ _ _)) (RegsBut.wr _ _ List.mem_cons_self)

theorem rd_patchDone_checked (s : State) (d : Nat) (r : List Patch) :
    (s.patchDone d r).rd (LOU_STAT d) LOU_STAT_CHECKED =
      (s.rd (LOU_STAT d) LOU_STAT_CHECKED + 1) % (LOU_STAT_CHECKED.ones + 1) := by
  unfold State.patchDone
  rw [rd_wrap_same _ _ _ (by decide), setLou_rd]

section
variable {s : State} {d : DieId} {pt : Patch} {r : List Patch}

theorem exec_patchCheck (hb : (s.lou d).buf = pt :: r) (hown : s.flag (LOU_STAT2 d) LOU_STAT2_BIST_OWNS = false) :
    exec (.patchCheck d) s = .next ((s.patchDone d r).checkEls d pt 0 pt.els) := by
  change execPatchCheck d s = _
  unfold execPatchCheck
  simp only [hb, hown, Bool.false_eq_true, if_false]
  rfl

/-- A patch that agrees leaves no trace but CHECKED. -/
theorem patchCheck_agrees (hb : (s.lou d).buf = pt :: r) (hown : s.flag (LOU_STAT2 d) LOU_STAT2_BIST_OWNS = false)
    (hagree : ∀ x ∈ pt.els, patchAgrees pt x = true) :
    ∃ t, exec (.patchCheck d) s = .next t ∧ t.lou d = { s.lou d with buf := r } ∧
      t.rd (LOU_STAT d) LOU_STAT_CHECKED = (s.rd (LOU_STAT d) LOU_STAT_CHECKED + 1) % (LOU_STAT_CHECKED.ones + 1) ∧
      RegsBut [LOU_STAT d] s t ∧ t.mem = s.mem := by
  refine ⟨s.patchDone d r, ?_, lou_patchDone s d r, rd_patchDone_checked s d r, regsBut_patchDone s d r, patchDone_mem s d r⟩
  rw [exec_patchCheck hb hown, checkEls_of_agree hagree]

/-- A patch of one element that does not agree leaves a record. -/
theorem patchCheck_disagrees {x : PatchEl} (hb : (s.lou d).buf = pt :: r)
    (hown : s.flag (LOU_STAT2 d) LOU_STAT2_BIST_OWNS = false) (hels : pt.els = [x]) (hx : patchAgrees pt x = false)
    (hrecs : (s.lou d).recs.length < 16) (hact : s.rd (LOU_CFG d) LOU_CFG_ACTION = 0) :
    ∃ t, exec (.patchCheck d) s = .next t ∧ (t.lou d).recs = (s.lou d).recs ++ [disRecord s pt x 0] ∧
      (t.lou d).count = (s.lou d).count + 1 ∧ (t.lou d).halted = (s.lou d).halted ∧
      t.rd (LOU_STAT2 d) LOU_STAT2_REC_CNT = (s.lou d).recs.length + 1 ∧ t.mem = s.mem := by
  have hcfg : LOU_CFG d ∉ [LOU_STAT d] := by
    unfold LOU_CFG LOU_STAT
    rw [List.mem_singleton]
    omega
  have hlife : MGT_LIFE ∉ [LOU_STAT d] := by
    unfold MGT_LIFE LOU_STAT
    rw [List.mem_singleton]
    omega
  have hdone := regsBut_patchDone s d r
  have hrecs' : ((s.patchDone d r).lou d).recs.length < 16 := by
    rw [lou_patchDone]
    exact hrecs
  have hact' : (s.patchDone d r).rd (LOU_CFG d) LOU_CFG_ACTION = 0 := (rd_congr (hdone _ hcfg) _).trans hact
  refine ⟨(s.patchDone d r).disagree d pt x 0, by rw [exec_patchCheck hb hown, hels, checkEls_singleton hx], ?_⟩
  rw [disagree_of_action_zero hrecs' hact', lou_patchDone, disRecord_congr (hdone _ hlife), lou_louRecs, lou_setLou_same,
    rd_louRecs_recCnt (by rw [lou_setLou_same, List.length_append, List.length_singleton]; exact hrecs), lou_setLou_same]
  refine ⟨rfl, rfl, rfl, by rw [List.length_append, List.length_singleton], ?_⟩
  rw [louRecs_mem, setLou_mem, countDisagree_mem, patchDone_mem]

end

/-! ### The halt notice, and the start bits RESUME, CLEAR and POP (R125, R127) -/

section
variable {s : State} {d : DieId}

/-- The state once the notice of the other die's Loupe has been taken. -/
def State.noticeTaken (s : State) (d : Nat) : State := s.setLou (1 - d) { s.lou (1 - d) with notice := false }

theorem exec_loupeHaltNotice (hn : (s.lou (1 - d.val)).notice = true) : exec (.loupeHaltNotice d) s = .next (
    if s.craSt 0 = clAbsent then s.noticeTaken d
    else (s.noticeTaken d).louHalt d ((List.range 48).map (· + 48 * d.val))) := by
  change execLoupeHaltNotice d s = _
  unfold execLoupeHaltNotice
  simp only [hn, if_true, apply_ite Host.Outcome.next]
  rfl

theorem loupeHaltNotice_halts (hn : (s.lou (1 - d.val)).notice = true) (hc : s.craSt 0 ≠ clAbsent) :
    ∃ t, exec (.loupeHaltNotice d) s = .next t ∧ (t.lou (1 - d.val)).notice = false ∧
      (∀ k, k < 48 → t.halted (48 * d.val + k) = true) ∧ t.flag (LOU_STAT2 d) LOU_STAT2_HALTED = true ∧
      RegsBut [LOU_STAT2 d] s t ∧ t.mem = s.mem := by
  have hmem : ∀ k, k < 48 → 48 * d.val + k ∈ (List.range 48).map (· + 48 * d.val) := fun k hk =>
    List.mem_map.mpr ⟨k, List.mem_range.mpr hk, Nat.add_comm _ _⟩
  refine ⟨_, by rw [exec_loupeHaltNotice hn, if_neg hc], ?_, fun k hk => halted_louHalt _ _ (hmem k hk),
    flag_louHalt _ _ (hmem 0 (by decide)), regsBut_louHalt (s.noticeTaken d) d _, louHalt_mem _ _ _⟩
  rw [lou_louHalt_other _ _ (otherDie_ne d)]
  unfold State.noticeTaken
  rw [lou_setLou_same]

theorem loupeHaltNotice_absent (hn : (s.lou (1 - d.val)).notice = true) (hc : s.craSt 0 = clAbsent) :
    ∃ t, exec (.loupeHaltNotice d) s = .next t ∧ (t.lou (1 - d.val)).notice = false ∧ t.regs = s.regs ∧
      t.lou d = s.lou d := by
  refine ⟨s.noticeTaken d, by rw [exec_loupeHaltNotice hn, if_pos hc], ?_, rfl, lou_setLou_other s _ (otherDie_ne d).symm⟩
  unfold State.noticeTaken
  rw [lou_setLou_same]

end

/-! A sequencer that looks again at TAKE writes its own tile and its own TIL_SEQ_STAT. -/

@[simp] theorem seqResume_loupe (s : State) (n gd : Nat) (v : Word) : (s.seqResume n gd v).loupe = s.loupe := by
  unfold State.seqResume State.seqPc State.seqRun
  rw [wr_loupe, setTile_loupe, wr_loupe, setTile_loupe]

@[simp] theorem seqResume_mem (s : State) (n gd : Nat) (v : Word) : (s.seqResume n gd v).mem = s.mem := by
  unfold State.seqResume State.seqPc State.seqRun
  rw [wr_mem, setTile_mem, wr_mem, setTile_mem]


theorem reg_seqResume_other (s : State) {n a : Nat} (gd : Nat) (v : Word) (h : a ≠ TIL_SEQ_STAT n) :
    (s.seqResume n gd v).reg a = s.reg a := by
  unfold State.seqResume State.seqPc State.seqRun
  rw [reg_wr_other _ _ _ h, setTile_reg, reg_wr_other _ _ _ h, setTile_reg]

@[simp] theorem takeWake_loupe (s : State) (n : Nat) : (s.takeWake n).loupe = s.loupe := by
  unfold State.takeWake
  dsimp only
  split
  next => rfl
  next =>
    split
    · rw [wr_loupe, seqResume_loupe, setTile_loupe]
    · rfl

@[simp] theorem takeWake_mem (s : State) (n : Nat) : (s.takeWake n).mem = s.mem := by
  unfold State.takeWake
  dsimp only
  split
  next => rfl
  next =>
    split
    · rw [wr_mem, seqResume_mem, setTile_mem]
    · rfl

theorem reg_takeWake_other (s : State) {n a : Nat} (h : a ≠ TIL_SEQ_STAT n) : (s.takeWake n).reg a = s.reg a := by
  unfold State.takeWake
  dsimp only
  split
  next => rfl
  next =>
    split
    · rw [reg_wr_other _ _ _ h, reg_seqResume_other _ _ _ h, setTile_reg]
    · rfl

/-- LOU_STAT2 lies at another offset within its block than every TIL_SEQ_STAT. -/
theorem louStat2_ne_tilSeqStat (d n : Nat) : LOU_STAT2 d ≠ TIL_SEQ_STAT n := by
  unfold LOU_STAT2 TIL_SEQ_STAT
  omega

/-- The state once a Loupe halts no tile, before any sequencer looks again. -/
def State.haltsOff (s : State) (d : Nat) : State :=
  (s.setLou d { s.lou d with halted := [] }).wr (LOU_STAT2 d) LOU_STAT2_HALTED 0

theorem lou_haltsOff (s : State) (d : Nat) : (s.haltsOff d).lou d = { s.lou d with halted := [] } := by
  unfold State.haltsOff
  rw [lou_wr, lou_setLou_same]

theorem haltsOff_mem (s : State) (d : Nat) : (s.haltsOff d).mem = s.mem := by
  unfold State.haltsOff
  rw [wr_mem, setLou_mem]

theorem rd_haltsOff_halted (s : State) (d : Nat) : (s.haltsOff d).rd (LOU_STAT2 d) LOU_STAT2_HALTED = 0 := by
  unfold State.haltsOff
  rw [rd_wr_same _ _ _ (by decide), Nat.zero_mod]

theorem louResume_releases (s : State) (d : DieId) :
    ∃ t, exec (.louResume d) s = .next t ∧ (t.lou d).halted = [] ∧ t.flag (LOU_STAT2 d) LOU_STAT2_HALTED = false ∧
      (t.lou d).buf = (s.lou d).buf ∧ (t.lou d).count = (s.lou d).count ∧ t.mem = s.mem := by
  refine ⟨(s.lou d).halted.foldl (fun t n => t.takeWake n) (s.haltsOff d), rfl, ?_⟩
  rw [lou_congr (foldl_reading (fun t n => takeWake_loupe t n) _ _), lou_haltsOff]
  refine ⟨rfl, ?_, rfl, rfl, (foldl_reading (fun t n => takeWake_mem t n) _ _).trans (haltsOff_mem s d)⟩
  unfold State.flag
  rw [rd_congr (foldl_reading (P := (·.reg (LOU_STAT2 d)))
    (fun t n => reg_takeWake_other t (louStat2_ne_tilSeqStat d n)) _ _), rd_haltsOff_halted]
  rfl

theorem louClear_zeroes (s : State) (d : DieId) :
    ∃ t, exec (.louClear d) s = .next t ∧ t.lou d = { s.lou d with count := 0 } ∧
      t.lou (1 - d.val) = s.lou (1 - d.val) ∧ t.regs = s.regs ∧ t.mem = s.mem :=
  ⟨_, rfl, lou_setLou_same _ _ _, lou_setLou_other _ _ (otherDie_ne d), rfl, rfl⟩

theorem louPop_drops {s : State} {d : DieId} (h : (s.lou d).recs.length ≤ 16) :
    ∃ t, exec (.louPop d) s = .next t ∧ t.lou d = { s.lou d with recs := (s.lou d).recs.drop 1 } ∧
      t.rd (LOU_STAT2 d) LOU_STAT2_REC_CNT = (s.lou d).recs.length - 1 ∧
      (∀ i, i < 4 → t.reg (LOU_REC d i) = ((s.lou d).recs.getD 1 []).getD i 0) ∧
      RegsBut (LOU_STAT2 d :: (List.range 4).map (fun i => LOU_REC d i)) s t ∧ t.mem = s.mem := by
  refine ⟨(s.setLou d { s.lou d with recs := (s.lou d).recs.drop 1 }).louRecs d, rfl, ?_, ?_, fun i hi => ?_, ?_, ?_⟩
  · rw [lou_louRecs, lou_setLou_same]
  · rw [rd_louRecs_recCnt, lou_setLou_same, List.length_drop]
    rw [lou_setLou_same, List.length_drop]
    omega
  · rw [reg_louRecs_louRec _ _ hi, lou_setLou_same, List.headD_eq_head?_getD, List.head?_drop, ← List.getD_eq_getElem?_getD]
  · exact RegsBut.trans (RegsBut.of_regs_eq (setLou_regs _ _ _)) (regsBut_louRecs _ d)
  · rw [louRecs_mem, setLou_mem]

/-- Settles O39, clause by clause: a patch that arrives is buffered or counted in one of four fields, a check agrees or
disagrees, the halt notice finds link 0 there or ABSENT, and RESUME, CLEAR and POP have one outcome each. -/
theorem loupeChecks : Obligations.LoupeChecks := by
  unfold Obligations.LoupeChecks
  intro s d
  refine ⟨fun pt r room ho hroom => ⟨fun hown hr hp hseen => ?buffered, fun a f hcase => ?counted⟩,
    fun pt r hb hown =>
      ⟨patchCheck_agrees hb hown, fun x hels hx hrecs hact => patchCheck_disagrees hb hown hels hx hrecs hact⟩,
    loupeHaltNotice_halts, loupeHaltNotice_absent, louResume_releases s d, louClear_zeroes s d, louPop_drops⟩
  case buffered => exact patchArrive_buffers ho (of_decide_eq_true (hroom.symm.trans hr)) hown hp hseen
  case counted =>
    simp only [hroom, List.mem_cons, Prod.mk.injEq, List.not_mem_nil, or_false, decide_eq_true_eq, decide_eq_false_iff_not,
      Nat.not_le] at hcase
    rcases hcase with ⟨hown, -, -, -, rfl, rfl⟩ | ⟨hown, -, -, -, rfl, rfl⟩ | ⟨hown, hfull, -, -, rfl, rfl⟩ |
      ⟨hown, hfits, hp, -, rfl, rfl⟩ | ⟨hown, hfits, hp, hseen, rfl, rfl⟩
    · exact patchCounted_dropBist ho hown
    · exact patchCounted_dropBist ho hown
    · exact patchCounted_dropBusy ho hown hfull
    · exact patchCounted_skipPoison ho hown hfits hp
    · exact patchCounted_repeat ho hown hfits hp hseen

end Sys2Proof.Machine
